-- ==== Sys2Proof/Word.lean ====
section
/-! DEFINITION. The word types of the machine (00 R3). -/

namespace Sys2Proof

/-- A byte of memory. -/
abbrev Byte := BitVec 8
/-- A 32-bit register value. -/
abbrev W32 := BitVec 32
/-- A 64-bit register value, address or instruction word. -/
abbrev W64 := BitVec 64
/-- An 8-bit register operand field: 0-191 name v0-v191, 192-255 name s0-s63 (02 R37). -/
abbrev Reg := BitVec 8

end Sys2Proof
end

