-- ==== Sys2Proof/Config.lean ====
section
/-! DEFINITION. What the implementation fixes, and the free values: constants without a body, which stand for values
that the spec leaves open. Nothing can be proved about a particular value of one. -/

namespace Sys2Proof.Config

/-- Arithmetic cycles that have passed when CYCLE is read for the n-th time: timing is left open (log 6). -/
opaque elapsed : Nat → BitVec 64
/-- The units of 256 thread-cycles that the threads of a block, by its number in the model, report a stall reason for in the
n-th stretch of time (23 R392; log 6). -/
opaque stallCount : Nat → Nat → Nat → BitVec 32
/-- A byte of those parts of a context frame's coded regions for which the spec gives no format (log 8). -/
opaque frameByte : Nat → BitVec 8
/-- Byte k of a frame record of a section, from the contents that the spec gives the record: it gives no inner layout
(11 R243; log 8). -/
opaque frameRec : Nat → List Nat → Nat → BitVec 8
/-- SHA-512 of a measurement register followed by a digest (24 R403): the function is named, not defined (log 9). -/
opaque extendDigest : BitVec 512 → BitVec 512 → BitVec 512
/-- SHA-512 of a byte string, such as a loaded image (24 R403; log 9). -/
opaque digestOf : List (BitVec 8) → BitVec 512
/-- The digest of a boot stage or of the firmware's configuration, by number (24 R403; log 9). -/
opaque stageDigest : Nat → BitVec 512
/-- The digest of the text "warm" and a reset count (24 R403; log 9). -/
opaque warmDigest : Nat → BitVec 512
/-- Whether the signature of a boot stage verifies (24 R403; log 9). -/
opaque verified : Nat → Bool
/-- The image of walk routines that the firmware loads when the device boots (24 R403; log 9). -/
opaque bootRoutine : Nat → List (BitVec 8)
/-- The device number that firmware assigns at boot (24 R402; log 9). -/
opaque deviceNumber : Nat → Nat
/-- The card of the kernel's restart job, which firmware posts after a warm reset (21 R381; log 17). -/
opaque restartCard : Nat → BitVec 1024
/-- A byte of a line that a warm reset discards from L2: whatever HBM holds there (21 R381; log 17). -/
opaque lostByte : Nat → BitVec 8
/-- Whether a kernel image is installed when the device boots (24 R403; log 9). -/
opaque kernelImage : Nat → Bool
/-- The ECDSA P-521 signature of a report, r then s (24 R404; log 9). -/
opaque signature : List (BitVec 8) → List (BitVec 8)
/-- The wait-table index that a continuation takes (10 R218; log 6). -/
opaque waitIndex : Nat → BitVec 20
/-- The residue of a produced result and the syndrome of a machine-check record (21 R370; log 6). -/
opaque residue : Nat → BitVec 8

/-- Whether a poisoned line is held by L2 rather than by HBM when an access meets it (21 R371; log 6). -/
opaque inL2 : Nat → Bool
/-- The HBM stack and the L2 slice that a line belongs to: the spec gives the map no contents (21 R382; log 6). -/
opaque homeStack : Nat → Nat
opaque homeSlice : Nat → Nat
/-- The unit of a check in device state that no context owns: the tags of L2, or a device engine (21 R371, R380; log 6). -/
opaque deviceUnit : Nat → Bool

/-- The virtual address at which the firmware maps the machine-check log into the kernel context (21 R372): the spec
states none (log 15). -/
opaque mclogVa : Nat → BitVec 64
/-- The core-pair island that is busiest when the power controller lowers a clock (24 R405; log 6). -/
opaque busiest : Nat → Nat

/-- The issuer of a remote command in a store record made here: its pc, job serial, block number, gang and lane, one after
the other (23 R391; log 6). -/
opaque remoteIssuer : Nat → Nat

/-- Records of the machine-check log ring: 4,096 or more (21 R372); DESIGN CHOICE 4,096 (log 3). -/
def mclogCap : Nat := 4096
/-- The most recursion that a loop of the model needs: the limit of a walk routine in instructions (09 R202). -/
def walkLimit : Nat := 2048
/-- The most instructions of a splinter routine, which writes a whole table: a bound of the model (09 R207; log 7). -/
def splitLimit : Nat := 4194304

end Sys2Proof.Config
end

