-- ==== Sys2Proof/Syntax.lean ====
section
/-! DEFINITION. The instruction set as syntax: one constructor for each row of spec/opcode_table.json.
An instruction constructor holds the guard and park bit (`Ctl`, 02 R33) and the fields that its encoding line uses;
an event constructor names the piece of state that the event concerns. -/

namespace Sys2Proof

/-- The common control fields of an instruction word: guard negate, guard index, park (02 R33). -/
structure Ctl where
  gn : Bool
  gi : BitVec 6
  pk : Bool
  deriving DecidableEq, Repr

/-- One element of a remote copy command as it arrives over the link: indices i, j and the value (14 R288). -/
structure RemoteElem where
  i : Nat
  j : Nat
  v : BitVec 128
  deriving DecidableEq, Repr

/-- A context's share of the power controller's energy estimate, in millijoules (24 R405, 10 R215). -/
structure Share where
  ctx : Nat
  mj : Nat
  deriving DecidableEq, Repr

/-- A unit that degrades during operation (24 R407). -/
inductive DegradedUnit where
  | port (p lanes : Nat)
  | channel (stack ch : Nat)
  deriving DecidableEq, Repr

/-- What a scrubber finds: at a physical address of HBM or L2, or in the words of scratchpad and operand memory that a block
holds (21 R382). -/
inductive ScrubFinding where
  | clean
  | corrected (pa : Nat)
  | uncorrectable (pa : Nat)
  | core (blk : Nat)
  deriving DecidableEq, Repr

/-- An access of the host, or of a host-coherent agent, to device memory over PCIe (24 R397, R401): plain ones, and the
AtomicOps of a number of bytes. -/
inductive HostAccess where
  | read (pa len : Nat)
  | write (pa : Nat) (bytes : List Byte)
  | fetchAdd (pa size v : Nat)
  | swap (pa size v : Nat)
  | cas (pa size cmp new : Nat)
  deriving DecidableEq, Repr

/-- The instructions and the device's own steps. -/
inductive Instr where
  -- INT class
  | nop (k : Ctl)
  | iadd (k : Ctl) (w sg sat : Bool) (d a b : Reg)
  | isub (k : Ctl) (w sg sat : Bool) (d a b : Reg)
  | iaddi (k : Ctl) (w sg sat : Bool) (d a : Reg) (i : BitVec 24)
  | iaddw (k : Ctl) (sg sat : Bool) (d a b : Reg)
  | imul (k : Ctl) (w sg sat : Bool) (d a b : Reg)
  | imulh (k : Ctl) (w sg : Bool) (d a b : Reg)
  | imad (k : Ctl) (w sg sat : Bool) (d a b c : Reg)
  | imadw (k : Ctl) (sg sat : Bool) (d a b c : Reg)
  | idiv (k : Ctl) (w sg : Bool) (d a b : Reg)
  | irem (k : Ctl) (w sg : Bool) (d a b : Reg)
  | imin (k : Ctl) (w sg : Bool) (d a b : Reg)
  | imax (k : Ctl) (w sg : Bool) (d a b : Reg)
  | iabsd (k : Ctl) (w sg : Bool) (d a b : Reg)
  | lut3 (k : Ctl) (w : Bool) (d a b c : Reg) (x : BitVec 8)
  | ishl (k : Ctl) (w im : Bool) (d a b : Reg) (x : BitVec 8)
  | ishr (k : Ctl) (w sg im : Bool) (d a b : Reg) (x : BitVec 8)
  | fshl (k : Ctl) (im : Bool) (d a b c : Reg) (x : BitVec 8)
  | fshr (k : Ctl) (im : Bool) (d a b c : Reg) (x : BitVec 8)
  | bfx (k : Ctl) (w sg im : Bool) (d a c : Reg) (x : BitVec 8)
  | bfi (k : Ctl) (w im : Bool) (d a b c : Reg) (x : BitVec 8)
  | popc (k : Ctl) (w : Bool) (d a : Reg)
  | popb (k : Ctl) (w : Bool) (d a : Reg)
  | clz (k : Ctl) (w : Bool) (d a : Reg)
  | brev (k : Ctl) (w : Bool) (d a : Reg)
  | isel (k : Ctl) (w : Bool) (d a b : Reg) (x : BitVec 8)
  | mov (k : Ctl) (sz : BitVec 2) (d a : Reg)
  | movi (k : Ctl) (mv : BitVec 2) (d : Reg) (i : BitVec 32)
  | icmp (k : Ctl) (w sg : Bool) (cb : BitVec 2) (cc : BitVec 3) (d a b : Reg)
  | icmpi (k : Ctl) (w sg : Bool) (cb : BitVec 2) (cc : BitVec 3) (d a : Reg) (i : BitVec 24)
  | plut (k : Ctl) (d a b c : Reg) (x : BitVec 8)
  | pget (k : Ctl) (d : Reg) (x : BitVec 8)
  | pset (k : Ctl) (a b : Reg) (x : BitVec 8)
  | perm (k : Ctl) (w mk : Bool) (pm : BitVec 2) (d a b c : Reg) (x : BitVec 8)
  | permx (k : Ctl) (mk : Bool) (d a b c : Reg) (x : BitVec 8)
  | vote (k : Ctl) (mk : Bool) (vm : BitVec 2) (d a c : Reg)
  | elect (k : Ctl) (mk : Bool) (d c : Reg)
  | gred (k : Ctl) (w sg mk : Bool) (gop : BitVec 3) (d a c : Reg)
  | gscan (k : Ctl) (w sg mk : Bool) (gop : BitVec 3) (ex : Bool) (d a c : Reg)
  | bra (k : Ctl) (tgt : BitVec 32)
  | brx (k : Ctl) (a : Reg)
  | call (k : Ctl) (d : Reg) (tgt : BitVec 32)
  | ret (k : Ctl) (a : Reg)
  | rjarm (k : Ctl) (a : Reg) (x : BitVec 8)
  | rjoin (k : Ctl) (x : BitVec 8)
  | rjdrop (k : Ctl) (x : BitVec 8)
  | exit (k : Ctl)
  | trap (k : Ctl) (i : BitVec 24)
  | gets (k : Ctl) (d : Reg) (i : BitVec 24)
  | sets (k : Ctl) (a : Reg) (i : BitVec 24)
  | rclaim (k : Ctl) (i : BitVec 24)
  | rgive (k : Ctl) (i : BitVec 24)
  | rtry (k : Ctl) (d : Reg) (i : BitVec 24)
  | yield (k : Ctl)
  | nap (k : Ctl) (i : BitVec 24)
  | prog (k : Ctl) (i : BitVec 24)
  | brk (k : Ctl) (i : BitVec 24)
  | trcmark (k : Ctl) (a : Reg) (i : BitVec 24)
  | vget (k : Ctl) (d a b : Reg)
  | vput (k : Ctl) (d a b : Reg)
  -- VEC class
  | fadd (k : Ctl) (rm : BitVec 2) (na nc : Bool) (d a b : Reg)
  | fmul (k : Ctl) (rm : BitVec 2) (na : Bool) (d a b : Reg)
  | ffma (k : Ctl) (rm : BitVec 2) (na nc : Bool) (d a b c : Reg)
  | fmin (k : Ctl) (d a b : Reg)
  | fmax (k : Ctl) (d a b : Reg)
  | fcmp (k : Ctl) (cb : BitVec 2) (cc : BitVec 3) (d a b : Reg)
  | fdiv (k : Ctl) (rm : BitVec 2) (d a b : Reg)
  | frcp (k : Ctl) (rm : BitVec 2) (d a : Reg)
  | frsq (k : Ctl) (rm : BitVec 2) (d a : Reg)
  | fsqrt (k : Ctl) (rm : BitVec 2) (d a : Reg)
  | fexp2 (k : Ctl) (rm : BitVec 2) (d a : Reg)
  | flog2 (k : Ctl) (rm : BitVec 2) (d a : Reg)
  | fsinpi (k : Ctl) (rm : BitVec 2) (d a : Reg)
  | fcospi (k : Ctl) (rm : BitVec 2) (d a : Reg)
  | frnd (k : Ctl) (rm : BitVec 2) (d a : Reg)
  | fscale (k : Ctl) (rm : BitVec 2) (d a b : Reg)
  | hadd2 (k : Ctl) (rm : BitVec 2) (hf : Bool) (d a b : Reg)
  | hmul2 (k : Ctl) (rm : BitVec 2) (hf : Bool) (d a b : Reg)
  | hfma2 (k : Ctl) (rm : BitVec 2) (hf : Bool) (d a b c : Reg)
  | hmax2 (k : Ctl) (hf mn : Bool) (d a b : Reg)
  | cvt (k : Ctl) (rm : BitVec 2) (src dst : BitVec 3) (d a : Reg) (x : BitVec 8)
  | cvtp (k : Ctl) (rm : BitVec 2) (hf : Bool) (d a b : Reg)
  | cvtq (k : Ctl) (rm : BitVec 2) (fmt : BitVec 3) (sat sc : Bool) (d a c : Reg) (x : BitVec 8)
  | cvto (k : Ctl) (rm : BitVec 2) (fmt : BitVec 3) (sc : Bool) (d a b c : Reg) (x : BitVec 8)
  | cvtx (k : Ctl) (rm : BitVec 2) (fmt : BitVec 3) (sc : Bool) (d a c : Reg) (x : BitVec 8)
  | dotI8 (k : Ctl) (d a b c : Reg)
  | dotZ8 (k : Ctl) (d a b c : Reg)
  | dotE4m3 (k : Ctl) (rm : BitVec 2) (d a b c : Reg)
  | dotE5m2 (k : Ctl) (rm : BitVec 2) (d a b c : Reg)
  | dotI4 (k : Ctl) (d a b c : Reg)
  | dotE2m1 (k : Ctl) (rm : BitVec 2) (d a b c : Reg)
  | dotsE4m3 (k : Ctl) (rm : BitVec 2) (d a b c : Reg) (x : BitVec 8)
  | dotsE5m2 (k : Ctl) (rm : BitVec 2) (d a b c : Reg) (x : BitVec 8)
  | dotsE2m1 (k : Ctl) (rm : BitVec 2) (d a b c : Reg) (x : BitVec 8)
  | dotsI8 (k : Ctl) (rm : BitVec 2) (d a b c : Reg) (x : BitVec 8)
  | dot2Bf16 (k : Ctl) (rm : BitVec 2) (d a b c : Reg)
  | dot2F16 (k : Ctl) (rm : BitVec 2) (d a b c : Reg)
  -- MEM class
  | ld (k : Ctl) (ord : BitVec 2) (scope size : BitVec 3) (d a : Reg) (bq : BitVec 5) (cp : BitVec 2) (off : BitVec 17)
  | st (k : Ctl) (ord : BitVec 2) (scope size : BitVec 3) (d a : Reg) (bq : BitVec 5) (cp : BitVec 2) (off : BitVec 17)
  | atom (k : Ctl) (ord : BitVec 2) (scope size : BitVec 3) (d a : Reg) (bq : BitVec 5) (aop : BitVec 4) (off : BitVec 15)
  | atomn (k : Ctl) (ord : BitVec 2) (scope size : BitVec 3) (d a : Reg) (bq : BitVec 5) (aop : BitVec 4) (off : BitVec 15)
  | cas (k : Ctl) (ord : BitVec 2) (scope size : BitVec 3) (d a : Reg) (bq : BitVec 5) (cp : BitVec 2) (off : BitVec 17)
  | fence (k : Ctl) (ord : BitVec 2) (scope : BitVec 3)
  | scfence (k : Ctl) (scope : BitVec 3)
  | bset (k : Ctl) (d a : Reg)
  | bget (k : Ctl) (d a : Reg)
  | pref (k : Ctl) (size : BitVec 3) (a : Reg) (bq : BitVec 5) (cp : BitVec 2) (off : BitVec 17)
  -- SYNC class
  | binit (k : Ctl) (g : Bool) (d a b c : Reg)
  | bjoin (k : Ctl) (g : Bool) (d a : Reg)
  | barr (k : Ctl) (g : Bool) (d a : Reg)
  | bwait (k : Ctl) (g : Bool) (d a b : Reg)
  | barw (k : Ctl) (g : Bool) (d a : Reg)
  | bdrop (k : Ctl) (g : Bool) (d a : Reg)
  | binv (k : Ctl) (g : Bool) (d a : Reg)
  | bqry (k : Ctl) (g : Bool) (d a : Reg) (x : BitVec 8)
  | rginit (k : Ctl) (d a : Reg)
  | rginitFree (k : Ctl) (d a : Reg)
  | slacq (k : Ctl) (nb : Bool) (d a : Reg)
  | slfil (k : Ctl) (a b c : Reg)
  | sltak (k : Ctl) (nb : Bool) (d a : Reg)
  | slrel (k : Ctl) (a b : Reg)
  -- COPY class
  | cpy (k : Ctl) (dk ad : BitVec 3) (bc : Bool) (d a b c : Reg) (x : BitVec 8)
  | cpyg (k : Ctl) (dk ad : BitVec 3) (bc : Bool) (d a b c : Reg) (x : BitVec 8)
  | cpys (k : Ctl) (dk ad : BitVec 3) (bc : Bool) (d a b c : Reg) (x : BitVec 8)
  | cpyf (k : Ctl) (dk ad : BitVec 3) (bc : Bool) (d a b c : Reg) (x : BitVec 8)
  | cseal (k : Ctl) (d : Reg)
  | cwait (k : Ctl) (d a : Reg)
  | cpoll (k : Ctl) (d : Reg)
  -- MTX class
  | mclaim (k : Ctl) (kd : BitVec 2) (nb : Bool) (d a b : Reg)
  | mrel (k : Ctl) (kd : BitVec 2) (d a b : Reg)
  | mbaton (k : Ctl) (d : Reg)
  | mpass (k : Ctl) (d a : Reg)
  | mzero (k : Ctl) (ik : Bool) (d : Reg)
  | mmaBf16 (k : Ctl) (sc rk tr : Bool) (mt : BitVec 3) (a b c : Reg) (x : BitVec 8)
  | mmaF16 (k : Ctl) (sc rk tr : Bool) (mt : BitVec 3) (a b c : Reg) (x : BitVec 8)
  | mmaE4m3 (k : Ctl) (sc rk tr : Bool) (mt : BitVec 3) (a b c : Reg) (x : BitVec 8)
  | mmaE5m2 (k : Ctl) (sc rk tr : Bool) (mt : BitVec 3) (a b c : Reg) (x : BitVec 8)
  | mmaE2m1 (k : Ctl) (sc rk tr : Bool) (mt : BitVec 3) (a b c : Reg) (x : BitVec 8)
  | mmaI8 (k : Ctl) (sc rk tr : Bool) (mt : BitVec 3) (a b c : Reg) (x : BitVec 8)
  | mmaI4 (k : Ctl) (sc rk tr : Bool) (mt : BitVec 3) (a b c : Reg) (x : BitVec 8)
  | mdrain (k : Ctl) (ad rk : Bool) (d a b : Reg) (x : BitVec 8)
  | mrd (k : Ctl) (d a : Reg) (x : BitVec 8)
  | mmask (k : Ctl) (pa : Bool) (d a b : Reg)
  | msync (k : Ctl) (bk : Bool)
  -- TAP class
  | tapin (k : Ctl) (d a b c : Reg) (x : BitVec 8)
  | tapw (k : Ctl) (d a b : Reg)
  | taprm (k : Ctl) (hm : Bool) (d a : Reg)
  | trel (k : Ctl) (a b : Reg)
  | tapsync (k : Ctl) (al : Bool) (a : Reg)
  -- TASK class
  | jpost (k : Ctl) (d a : Reg)
  | jrec (k : Ctl) (d : Reg) (x : BitVec 8)
  | jhint (k : Ctl)
  | jpwait (k : Ctl) (d : Reg)
  | finit (k : Ctl) (a : Reg)
  | fwr (k : Ctl) (a b : Reg)
  | frd (k : Ctl) (d a : Reg) (x : BitVec 8)
  | scopen (k : Ctl) (xc : Bool) (d a b c : Reg)
  | sccan (k : Ctl) (xc : Bool) (d a c : Reg)
  | scack (k : Ctl) (xc : Bool) (d a c : Reg)
  | scqry (k : Ctl) (xc : Bool) (d a c : Reg)
  -- SYS class
  | tretRetry (k : Ctl) (d a : Reg)
  | tretSkip (k : Ctl) (d a : Reg)
  | tretRedirect (k : Ctl) (d a b : Reg)
  | crd (k : Ctl) (bk : Bool) (d a : Reg) (x : BitVec 8)
  | cwr (k : Ctl) (bk : Bool) (d a b : Reg) (x : BitVec 8)
  | cwrStateCreate (k : Ctl) (d a b : Reg)
  | cwrStateRemove (k : Ctl) (d a b : Reg)
  | cwrKqsize (k : Ctl) (d b : Reg)
  | cwrKqhead (k : Ctl) (d b : Reg)
  | cwrPreempt (k : Ctl) (d a b : Reg)
  | cwrBcores (k : Ctl) (d a b : Reg)
  | cwrTrsize (k : Ctl) (d a b : Reg)
  | tlbinvPage (k : Ctl) (d a b : Reg)
  | tlbinvContext (k : Ctl) (d b : Reg)
  | tlbinvAll (k : Ctl) (d : Reg)
  | tlbinvRange (k : Ctl) (sp : Bool) (d a b c : Reg)
  | pfres (k : Ctl) (d a : Reg)
  | errinj (k : Ctl) (ek : BitVec 3) (d a : Reg)
  | errinjDisarm (k : Ctl) (d : Reg)
  | psplit (k : Ctl) (ps : BitVec 2) (d a b : Reg)
  | haltg (k : Ctl) (d a b : Reg)
  | resumeg (k : Ctl) (d a b : Reg)
  -- POOL class
  | kseqNew (k : Ctl) (d a : Reg)
  | kseqFree (k : Ctl) (d a : Reg)
  | kseqPfree (k : Ctl) (d a : Reg)
  | kseqPquery (k : Ctl) (d a : Reg)
  | kseqPinit (k : Ctl) (d a b : Reg)
  | kalloc (k : Ctl) (cl : Bool) (d a b : Reg)
  | ktrim (k : Ctl) (d a b : Reg)
  | klook (k : Ctl) (d a b : Reg) (x : BitVec 8)
  | kfree (k : Ctl) (d a b : Reg)
  -- events: steps of the engines, the firmware, the host and time
  | gatheringComplete (blk gang lane : Nat)
  | claimGrant (blk gang : Nat)
  | regdead (blk : Nat)
  | napWake (blk gang lane : Nat)
  | loadResultReturn (id : Nat)
  | walk (core ctx kind : Nat) (va : W64)
  | copyCommandStart (id : Nat)
  | ringnextSlotTake (id : Nat)
  | copyElementLand (id e : Nat)
  | remoteCommand (ctx : Nat) (drec : BitVec 256) (ad : Nat) (elems : List RemoteElem)
  | remoteTimeout (id : Nat)
  | matrixPass (core : Nat)
  | drainExecute (id : Nat)
  | eval (tap row : Nat)
  | watchDelivery (blk gang lane : Nat)
  | killStop (blk gang lane : Nat)
  | scackComplete (ctx scope : Nat)
  | blockLaunch (ctx serial : Nat) (cores : List Nat)
  | bundleDraw (bin : Nat) (aged : Bool)
  | arrivalQueueFile (core : Nat)
  | clauseBegin (bundle : Nat)
  | blockRetire (blk : Nat)
  | jobComplete (ctx serial : Nat)
  | save (blk : Nat)
  | restore (ticket : Nat) (cores : List Nat)
  | engineReplyReturn (id : Nat)
  | wdog (ctx scope : Nat)
  | powerEstimate (mean : Nat) (shares : List Share)
  | thermalTrip (island : Nat)
  | thermalRecover (island : Nat)
  | unitDegrade (unit : DegradedUnit)
  | checkpoint (blk : Nat)
  | rollback (blk : Nat)
  | contextLoss (ctx : Nat)
  | warmReset (implicated : List Nat)
  | scrub (found : ScrubFinding)
  | queueEntryTake (q : Nat)
  | qtail (q : Nat) (v : W32)
  | qsize (q : Nat) (v : W32)
  | qstate (q : Nat) (v : W32)
  | nsize (q : Nat) (v : W32)
  | nhead (q : Nat) (v : W32)
  | queueRegisterWrite (q off : Nat) (v : W64)
  | notificationWrite (q : Nat)
  | plimit (v : W32)
  | attestationReport (nonce : BitVec 512)
  | hostMeasurement (mr : Nat) (digest : BitVec 512)
  | storePerformed (id : Nat)
  | atomicReply (id : Nat)
  | remoteAcknowledgement (id : Nat)
  | hostDeviceMemoryAccess (acc : HostAccess)
  | saveCopyBound (blk : Nat)
  | walkRoutineLoad (base : Nat) (image : List Byte)
  | trapEntryWrite
  | heartbeatTick
  | scfenceRelease
  | periodBoundary
  | coldReset
  deriving DecidableEq, Repr

end Sys2Proof
end

