-- ==== Sys2Proof/WellFormed.lean ====
section
/-! DEFINITION. The field checks of an instruction word that decide ILLENC (02 R37-R39, R44 and the encoding line of
each owning chapter): guard indices, register groups, reserved values, fields that a mode leaves off. -/

namespace Sys2Proof

/-- gi = 63 with gn = 0, or gi in 0-47 (02 R34). -/
def Ctl.ok (k : Ctl) : Bool := k.gi.toNat < 48 || (k.gi == 63 && !k.gn)

/-- A 64-bit operand: an even v pair or one s register (02 R38). -/
def al64 (r : Reg) : Bool := 192 ≤ r.toNat || r.toNat % 2 == 0
/-- A 128-bit operand: a v quad or an even s pair (02 R38). -/
def al128 (r : Reg) : Bool := if 192 ≤ r.toNat then r.toNat % 2 == 0 else r.toNat % 4 == 0
/-- An operand of width N: 32 when w = 0, 64 when w = 1 (06 R102). -/
def alN (w : Bool) (r : Reg) : Bool := !w || al64 r
/-- MOV: 32, 64 or 128 bits by sz (06 R104). -/
def alSz (sz : BitVec 2) (r : Reg) : Bool :=
  if sz == 1 then al64 r else if sz == 2 then al128 r else true
/-- LD and ST: the group that follows the access size (09 R190). -/
def alSize (size : BitVec 3) (r : Reg) : Bool :=
  if size == 3 then al64 r else if size == 4 then al128 r else true
/-- A predicate number 0-47. -/
def isP (r : BitVec 8) : Bool := r.toNat < 48
/-- A v register number 0-191. -/
def isV (r : BitVec 8) : Bool := r.toNat < 192
/-- A buffer record number 0-31. -/
def isRec (r : BitVec 8) : Bool := r.toNat < 32
/-- An s register quad 192 + 4k (09 R188). -/
def sQuad (r : BitVec 8) : Bool := 192 ≤ r.toNat && r.toNat % 4 == 0
/-- The count operand of a shift: a register when im = 0 and x then zero; a number below N when im = 1 (06 R104). -/
def shiftOk (w im : Bool) (r : Reg) (x : BitVec 8) : Bool :=
  if im then r == 0 && decide (x.toNat < if w then 64 else 32) else x == 0
/-- Position and length of BFX and BFI (06 R104, R112). -/
def fieldOk (w im : Bool) (c : Reg) (x : BitVec 8) : Bool :=
  let n := if w then 64 else 32
  if im then decide (c.toNat < n) && decide (1 ≤ x.toNat ∧ x.toNat ≤ n) else x == 0
/-- cc = 7 is reserved; tst needs sg = 0 (06 R116). -/
def ccOk (sg : Bool) (cc : BitVec 3) : Bool := cc != 7 && !(cc == 6 && sg)
/-- The member-mask field names an s register when mk = 1 and is zero otherwise (06 R104). -/
def maskOk (mk : Bool) (c : Reg) : Bool := if mk then 192 ≤ c.toNat else c == 0
/-- PERM: an index register for idx, an offset 0-31 otherwise (06 R104). -/
def permOk (pm : BitVec 2) (b : Reg) (x : BitVec 8) : Bool :=
  if pm == 0 then x == 0 else b == 0 && decide (x.toNat < 32)
/-- VOTE: predicates, but a register destination for ballot and a register source for eq (06 R104). -/
def voteOk (vm : BitVec 2) (d a : Reg) : Bool := (vm == 3 || isP d) && (vm == 2 || isP a)
/-- gop 6 and 7 are reserved; sg only with min and max (06 R104). -/
def gopOk (sg : Bool) (gop : BitVec 3) : Bool :=
  decide (gop.toNat < 6) && (!sg || gop == 1 || gop == 2)
/-- The special registers of 05 R98, with the width of each. -/
def specialWidth (n : Nat) : Option Nat :=
  match n with
  | 0x000 => some 32 | 0x001 => some 32 | 0x002 => some 32 | 0x003 => some 32 | 0x004 => some 32
  | 0x005 => some 32 | 0x006 => some 32 | 0x007 => some 32 | 0x008 => some 32 | 0x009 => some 32
  | 0x00A => some 32 | 0x00B => some 32 | 0x00C => some 32 | 0x00D => some 32 | 0x00E => some 32
  | 0x010 => some 64 | 0x011 => some 32 | 0x012 => some 32
  | 0x020 => some 32 | 0x021 => some 32 | 0x022 => some 64 | 0x023 => some 64 | 0x024 => some 32
  | 0x030 => some 32 | 0x031 => some 64 | 0x032 => some 64
  | 0x038 => some 32 | 0x039 => some 32 | 0x03A => some 32 | 0x03B => some 32
  | 0x03C => some 32 | 0x03D => some 32 | 0x03E => some 32 | 0x03F => some 32
  | _ => none
/-- GETS: a listed number, and an aligned destination when it is 64 bits wide (05 R98). -/
def getsOk (d : Reg) (i : BitVec 24) : Bool :=
  match specialWidth i.toNat with
  | some 64 => al64 d
  | some _ => true
  | none => false
/-- A unit count 1-22 (06 R104). -/
def unitsOk (i : BitVec 24) : Bool := decide (1 ≤ i.toNat ∧ i.toNat ≤ 22)
/-- CVT: assigned codes, src and dst different, not both integers, x only for 16-bit sources (07 R143, R151). -/
def cvtOk (src dst : BitVec 3) (x : BitVec 8) : Bool :=
  decide (src.toNat < 5) && decide (dst.toNat < 5) && src != dst
    && !(decide (3 ≤ src.toNat) && decide (3 ≤ dst.toNat))
    && (if src == 1 || src == 2 then decide (x.toNat < 2) else x == 0)
/-- The scale register and scale byte of CVTQ and CVTO (07 R143). -/
def scaleOk (sc : Bool) (c : Reg) (x : BitVec 8) : Bool :=
  if sc then decide (x.toNat < 4) else c == 0 && x == 0
/-- CVTX: x[0] only for 4-bit formats, x[2:1] and c only with sc (07 R143, R154). -/
def cvtxOk (fmt : BitVec 3) (sc : Bool) (c : Reg) (x : BitVec 8) : Bool :=
  let half := if decide (4 ≤ fmt.toNat ∧ fmt.toNat ≤ 6) then x.toNat % 2 else 0
  let byte := if sc then x.toNat / 2 % 4 else 0
  x.toNat == half + 2 * byte && (sc || c == 0)
/-- scope 5-7 is reserved (02 R36). -/
def scopeOk (scope : BitVec 3) : Bool := decide (scope.toNat < 5)
/-- LD: plain or acquire; at most 64 bits when ordered (09 R188). -/
def ldOk (ord : BitVec 2) (scope size : BitVec 3) : Bool :=
  (ord == 0 || ord == 1) && scopeOk scope && decide (size.toNat < 5) && (ord == 0 || size != 4)
/-- ST: plain or release; at most 64 bits when ordered (09 R188). -/
def stOk (ord : BitVec 2) (scope size : BitVec 3) : Bool :=
  (ord == 0 || ord == 2) && scopeOk scope && decide (size.toNat < 5) && (ord == 0 || size != 4)
/-- ATOM and ATOMN: 32 or 64 bits, aop 0-13, aop 11-13 at 32 bits only (09 R188, R194). -/
def atomOk (size : BitVec 3) (aop : BitVec 4) (d : Reg) : Bool :=
  (size == 2 || (size == 3 && decide (aop.toNat < 11))) && decide (aop.toNat < 14) && alSize size d
/-- CAS: 32, 64 or 128 bits and the group of 2N bits (09 R196). -/
def casOk (size : BitVec 3) (d : Reg) : Bool :=
  if size == 2 then al64 d else if size == 3 then al128 d
  else if size == 4 then d.toNat < 192 && d.toNat % 8 == 0 else false
/-- A barrier reference: 64 bits wide when g = 1 (12 R263). -/
def refOk (g : Bool) (a : Reg) : Bool := !g || al64 a
/-- dk, ad and bc of a copy command (14 R279). -/
def copyFnOk (dk ad : BitVec 3) (bc : Bool) : Bool :=
  decide (dk.toNat < 5) && decide (ad.toNat < 4) && (!bc || dk == 0 || dk == 1) && (ad == 0 || dk == 0 || dk == 4)
/-- The destination field of a copy names a record for dk 0 and 4 (14 R280). -/
def copyDstOk (dk : BitVec 3) (d : Reg) : Bool := !(dk == 0 || dk == 4) || isRec d
/-- A row mask s register when rk = 1, zero otherwise (15 R295). -/
def rowMaskOk (rk : Bool) (b : Reg) : Bool := if rk then 192 ≤ b.toNat else b == 0
/-- The mode-dependent fields of MMA (15 R295). -/
def mmaOk (sc rk tr : Bool) (mt : BitVec 3) (b c : Reg) (x : BitVec 8) : Bool :=
  decide (mt.toNat < 5) && rowMaskOk rk b && (if sc then decide (c.toNat ≤ 128) else c == 0)
    && (if tr || mt != 0 then 192 ≤ x.toNat && x.toNat % 2 == 0 else x == 0)
/-- The control registers listed for a bank: device with its configuration registers, or context
(11 R245, 23 R389, 24 R407). -/
def regListed (bk : Bool) (x : BitVec 8) : Bool :=
  let n := x.toNat
  if bk then n ≤ 0x0E || (0x10 ≤ n && n ≤ 0x2F) else n ≤ 0x04 || (0x40 ≤ n && n ≤ 0x4B)
/-- A control register whose write has no behaviour of its own: the other writes are rows of their own. -/
def plainReg (bk : Bool) (x : BitVec 8) : Bool :=
  let n := x.toNat
  if bk then n != 0x00 && n != 0x0A && n != 0x0D && n != 0x19 else n != 0x01 && n != 0x02

/-- Every field of the instruction has a value that its encoding line assigns. Events are always well formed. -/
def Instr.wf : Instr → Bool
  | .nop k => k.ok
  | .iadd k w _ _ d a b => k.ok && alN w d && alN w a && alN w b
  | .isub k w _ _ d a b => k.ok && alN w d && alN w a && alN w b
  | .iaddi k w _ _ d a _ => k.ok && alN w d && alN w a
  | .iaddw k _ _ d a _ => k.ok && al64 d && al64 a
  | .imul k w _ _ d a b => k.ok && alN w d && alN w a && alN w b
  | .imulh k w _ d a b => k.ok && alN w d && alN w a && alN w b
  | .imad k w _ _ d a b c => k.ok && alN w d && alN w a && alN w b && alN w c
  | .imadw k _ _ d _ _ c => k.ok && al64 d && al64 c
  | .idiv k w _ d a b => k.ok && alN w d && alN w a && alN w b
  | .irem k w _ d a b => k.ok && alN w d && alN w a && alN w b
  | .imin k w _ d a b => k.ok && alN w d && alN w a && alN w b
  | .imax k w _ d a b => k.ok && alN w d && alN w a && alN w b
  | .iabsd k w _ d a b => k.ok && alN w d && alN w a && alN w b
  | .lut3 k w d a b c _ => k.ok && alN w d && alN w a && alN w b && alN w c
  | .ishl k w im d a b x => k.ok && alN w d && alN w a && shiftOk w im b x
  | .ishr k w _ im d a b x => k.ok && alN w d && alN w a && shiftOk w im b x
  | .fshl k im _ _ _ c x => k.ok && shiftOk false im c x
  | .fshr k im _ _ _ c x => k.ok && shiftOk false im c x
  | .bfx k w _ im d a c x => k.ok && alN w d && alN w a && fieldOk w im c x
  | .bfi k w im d a b c x => k.ok && alN w d && alN w a && alN w b && fieldOk w im c x
  | .popc k w _ a => k.ok && alN w a
  | .popb k w d a => k.ok && alN w d && alN w a
  | .clz k w _ a => k.ok && alN w a
  | .brev k w d a => k.ok && alN w d && alN w a
  | .isel k w d a b x => k.ok && alN w d && alN w a && alN w b && decide (x.toNat % 128 < 48)
  | .mov k sz d a => k.ok && alSz sz d && alSz sz a && decide (sz.toNat < 3)
  | .movi k mv d _ => k.ok && (mv == 0 || al64 d)
  | .icmp k w sg _ cc d a b => k.ok && isP d && alN w a && alN w b && ccOk sg cc
  | .icmpi k w sg _ cc d a _ => k.ok && isP d && alN w a && ccOk sg cc
  | .plut k d a b c _ => k.ok && isP d && isP a && isP b && isP c
  | .pget k _ x => k.ok && decide (x.toNat < 2)
  | .pset k _ _ x => k.ok && decide (x.toNat < 2)
  | .perm k w mk pm d a b c x => k.ok && alN w d && alN w a && maskOk mk c && permOk pm b x
  | .permx k mk _ _ _ c _ => k.ok && maskOk mk c
  | .vote k mk vm d a c => k.ok && maskOk mk c && voteOk vm d a
  | .elect k mk d c => k.ok && isP d && maskOk mk c
  | .gred k w sg mk gop d a c => k.ok && alN w d && alN w a && maskOk mk c && gopOk sg gop
  | .gscan k w sg mk gop _ d a c => k.ok && alN w d && alN w a && maskOk mk c && gopOk sg gop
  | .bra k _ => k.ok
  | .brx k a => k.ok && al64 a
  | .call k d _ => k.ok && al64 d
  | .ret k a => k.ok && al64 a
  | .rjarm k _ x => k.ok && decide (x.toNat < 4)
  | .rjoin k x => k.ok && decide (x.toNat < 4)
  | .rjdrop k x => k.ok && decide (x.toNat < 4)
  | .exit k => k.ok
  | .trap k _ => k.ok
  | .gets k d i => k.ok && getsOk d i
  | .sets k _ i => k.ok && (i == 0x20 || i == 0x21)
  | .rclaim k i => k.ok && unitsOk i
  | .rgive k i => k.ok && unitsOk i
  | .rtry k d i => k.ok && isP d && unitsOk i
  | .yield k => k.ok
  | .nap k i => k.ok && i != 0
  | .prog k i => k.ok && decide (i.toNat < 16)
  | .brk k _ => k.ok
  | .trcmark k _ _ => k.ok
  | .vget k _ a _ => k.ok && isV a
  | .vput k d _ _ => k.ok && isV d
  | .fadd k _ _ _ _ _ _ => k.ok
  | .fmul k _ _ _ _ _ => k.ok
  | .ffma k _ _ _ _ _ _ _ => k.ok
  | .fmin k _ _ _ => k.ok
  | .fmax k _ _ _ => k.ok
  | .fcmp k _ cc d _ _ => k.ok && isP d && cc != 7
  | .fdiv k _ _ _ _ => k.ok
  | .frcp k _ _ _ => k.ok
  | .frsq k _ _ _ => k.ok
  | .fsqrt k _ _ _ => k.ok
  | .fexp2 k _ _ _ => k.ok
  | .flog2 k _ _ _ => k.ok
  | .fsinpi k _ _ _ => k.ok
  | .fcospi k _ _ _ => k.ok
  | .frnd k _ _ _ => k.ok
  | .fscale k _ _ _ _ => k.ok
  | .hadd2 k _ _ _ _ _ => k.ok
  | .hmul2 k _ _ _ _ _ => k.ok
  | .hfma2 k _ _ _ _ _ _ => k.ok
  | .hmax2 k _ _ _ _ _ => k.ok
  | .cvt k _ src dst _ _ x => k.ok && cvtOk src dst x
  | .cvtp k _ _ _ _ _ => k.ok
  | .cvtq k _ fmt sat sc _ a c x => k.ok && al128 a && decide (fmt.toNat < 4) && (!sat || fmt == 1) && scaleOk sc c x
  | .cvto k _ fmt sc _ a b c x => k.ok && al128 a && al128 b && decide (4 ≤ fmt.toNat ∧ fmt.toNat ≤ 6) && scaleOk sc c x
  | .cvtx k _ fmt sc d _ c x => k.ok && al128 d && cvtxOk fmt sc c x
  | .dotI8 k _ _ _ _ => k.ok
  | .dotZ8 k _ _ _ _ => k.ok
  | .dotE4m3 k _ _ _ _ _ => k.ok
  | .dotE5m2 k _ _ _ _ _ => k.ok
  | .dotI4 k _ _ _ _ => k.ok
  | .dotE2m1 k _ _ _ _ _ => k.ok
  | .dotsE4m3 k _ _ a b c x => k.ok && al128 a && al128 b && al64 c && decide (x.toNat < 16)
  | .dotsE5m2 k _ _ a b c x => k.ok && al128 a && al128 b && al64 c && decide (x.toNat < 16)
  | .dotsE2m1 k _ _ a b c x => k.ok && al64 a && al64 b && al64 c && decide (x.toNat < 16)
  | .dotsI8 k _ _ a b c x => k.ok && al128 a && al128 b && al64 c && decide (x.toNat < 16)
  | .dot2Bf16 k _ _ _ _ _ => k.ok
  | .dot2F16 k _ _ _ _ _ => k.ok
  | .ld k ord scope size d _ _ _ _ => k.ok && ldOk ord scope size && alSize size d
  | .st k ord scope size d _ _ _ _ => k.ok && stOk ord scope size && alSize size d
  | .atom k _ scope size d _ _ aop _ => k.ok && scopeOk scope && atomOk size aop d
  | .atomn k ord scope size d _ _ aop _ => k.ok && (ord == 0 || ord == 2) && scopeOk scope && atomOk size aop d
  | .cas k _ scope size d _ _ _ _ => k.ok && scopeOk scope && casOk size d
  | .fence k ord scope => k.ok && ord != 0 && scopeOk scope
  | .scfence k scope => k.ok && scopeOk scope
  | .bset k d a => k.ok && isRec d && sQuad a
  | .bget k d a => k.ok && isRec a && sQuad d
  | .pref k size _ _ _ _ => k.ok && decide (size.toNat < 5)
  | .binit k g _ a _ _ => k.ok && refOk g a
  | .bjoin k g _ a => k.ok && refOk g a
  | .barr k g _ a => k.ok && refOk g a
  | .bwait k g _ a _ => k.ok && refOk g a
  | .barw k g _ a => k.ok && refOk g a
  | .bdrop k g _ a => k.ok && refOk g a
  | .binv k g _ a => k.ok && refOk g a
  | .bqry k g _ a x => k.ok && refOk g a && decide (x.toNat < 8)
  | .rginit k _ a => k.ok && al64 a
  | .rginitFree k _ _ => k.ok
  | .slacq k _ _ _ => k.ok
  | .slfil k _ _ _ => k.ok
  | .sltak k _ _ _ => k.ok
  | .slrel k _ _ => k.ok
  | .cpy k dk ad bc d _ _ c x => k.ok && copyFnOk dk ad bc && copyDstOk dk d && al64 c && decide (x.toNat < 32)
  | .cpyg k dk ad bc d _ _ c x => k.ok && copyFnOk dk ad bc && copyDstOk dk d && al64 c && decide (x.toNat < 32)
  | .cpys k dk ad bc d _ _ c x => k.ok && copyFnOk dk ad bc && copyDstOk dk d && al64 c && (dk == 0 || dk == 4) && decide (x.toNat < 32)
  | .cpyf k dk ad bc d a _ c x => k.ok && copyFnOk dk ad bc && copyDstOk dk d && al64 c && al64 a && decide (x.toNat < 5)
  | .cseal k _ => k.ok
  | .cwait k _ _ => k.ok
  | .cpoll k _ => k.ok
  | .mclaim k kd _ _ _ _ => k.ok && kd != 3
  | .mrel k kd _ _ _ => k.ok && kd != 3
  | .mbaton k _ => k.ok
  | .mpass k _ _ => k.ok
  | .mzero k _ d => k.ok && decide (d.toNat < 16)
  | .mmaBf16 k sc rk tr mt _ b c x => k.ok && !sc && mmaOk sc rk tr mt b c x
  | .mmaF16 k sc rk tr mt _ b c x => k.ok && !sc && mmaOk sc rk tr mt b c x
  | .mmaE4m3 k sc rk tr mt _ b c x => k.ok && mmaOk sc rk tr mt b c x
  | .mmaE5m2 k sc rk tr mt _ b c x => k.ok && mmaOk sc rk tr mt b c x
  | .mmaE2m1 k sc rk tr mt _ b c x => k.ok && mmaOk sc rk tr mt b c x
  | .mmaI8 k sc rk tr mt _ b c x => k.ok && !sc && mmaOk sc rk tr mt b c x
  | .mmaI4 k sc rk tr mt _ b c x => k.ok && !sc && mmaOk sc rk tr mt b c x
  | .mdrain k _ rk d _ b x => k.ok && isRec d && rowMaskOk rk b && decide (x.toNat < 16)
  | .mrd k _ _ x => k.ok && decide (x.toNat < 16)
  | .mmask k pa d _ b => k.ok && decide (d.toNat < 4) && (pa || b == 0)
  | .msync k _ => k.ok
  | .tapin k _ _ b c _ => k.ok && isRec b && isRec c
  | .tapw k _ _ b => k.ok && al64 b
  | .taprm k _ d _ => k.ok && al64 d
  | .trel k _ _ => k.ok
  | .tapsync k al a => k.ok && (if al then a == 0 else al64 a)
  | .jpost k d a => k.ok && al64 d && al64 a
  | .jrec k d x => k.ok && al64 d && isP x
  | .jhint k => k.ok
  | .jpwait k _ => k.ok
  | .finit k a => k.ok && al64 a
  | .fwr k a b => k.ok && al64 a && al64 b
  | .frd k d a x => k.ok && al64 d && al64 a && isP x
  | .scopen k xc _ _ b c => k.ok && al64 b && (xc || c == 0)
  | .sccan k xc _ _ c => k.ok && (xc || c == 0)
  | .scack k xc _ _ c => k.ok && (xc || c == 0)
  | .scqry k xc _ _ c => k.ok && (xc || c == 0)
  | .tretRetry k _ a => k.ok && al64 a
  | .tretSkip k _ a => k.ok && al64 a
  | .tretRedirect k _ a b => k.ok && al64 a && al64 b
  | .crd k bk d a x => k.ok && al64 d && (bk || a == 0) && regListed bk x
  | .cwr k bk _ a b x => k.ok && al64 b && (bk || a == 0) && regListed bk x && plainReg bk x
  | .cwrStateCreate k _ _ b => k.ok && al64 b
  | .cwrStateRemove k _ _ b => k.ok && al64 b
  | .cwrKqsize k _ b => k.ok && al64 b
  | .cwrKqhead k _ b => k.ok && al64 b
  | .cwrPreempt k _ _ b => k.ok && al64 b
  | .cwrBcores k _ _ b => k.ok && al64 b
  | .cwrTrsize k _ _ b => k.ok && al64 b
  | .tlbinvPage k _ a _ => k.ok && al64 a
  | .tlbinvContext k _ _ => k.ok
  | .tlbinvAll k _ => k.ok
  | .tlbinvRange k _ _ a _ _ => k.ok && al64 a
  | .pfres k _ a => k.ok && al64 a
  | .errinj k ek _ a => k.ok && al64 a && decide (ek.toNat < 6)
  | .errinjDisarm k _ => k.ok
  | .psplit k ps _ a _ => k.ok && al64 a && ps != 3
  | .haltg k _ a _ => k.ok && al64 a
  | .resumeg k _ a _ => k.ok && al64 a
  | .kseqNew k _ _ => k.ok
  | .kseqFree k _ _ => k.ok
  | .kseqPfree k _ _ => k.ok
  | .kseqPquery k _ _ => k.ok
  | .kseqPinit k _ a _ => k.ok && al64 a
  | .kalloc k _ _ _ _ => k.ok
  | .ktrim k _ _ _ => k.ok
  | .klook k d _ _ x => k.ok && al64 d && isP x
  | .kfree k _ _ _ => k.ok
  | .gatheringComplete _ _ _ => true
  | .claimGrant _ _ => true
  | .regdead _ => true
  | .napWake _ _ _ => true
  | .loadResultReturn _ => true
  | .walk _ _ _ _ => true
  | .copyCommandStart _ => true
  | .ringnextSlotTake _ => true
  | .copyElementLand _ _ => true
  | .remoteCommand _ _ _ _ => true
  | .remoteTimeout _ => true
  | .matrixPass _ => true
  | .drainExecute _ => true
  | .eval _ _ => true
  | .watchDelivery _ _ _ => true
  | .killStop _ _ _ => true
  | .scackComplete _ _ => true
  | .blockLaunch _ _ _ => true
  | .bundleDraw _ _ => true
  | .arrivalQueueFile _ => true
  | .clauseBegin _ => true
  | .blockRetire _ => true
  | .jobComplete _ _ => true
  | .save _ => true
  | .trapEntryWrite => true
  | .restore _ _ => true
  | .engineReplyReturn _ => true
  | .heartbeatTick => true
  | .scfenceRelease => true
  | .wdog _ _ => true
  | .periodBoundary => true
  | .powerEstimate _ _ => true
  | .thermalTrip _ => true
  | .thermalRecover _ => true
  | .unitDegrade _ => true
  | .checkpoint _ => true
  | .rollback _ => true
  | .contextLoss _ => true
  | .warmReset _ => true
  | .coldReset => true
  | .scrub _ => true
  | .queueEntryTake _ => true
  | .qtail _ _ => true
  | .qsize _ _ => true
  | .qstate _ _ => true
  | .nsize _ _ => true
  | .nhead _ _ => true
  | .queueRegisterWrite _ _ _ => true
  | .notificationWrite _ => true
  | .plimit _ => true
  | .attestationReport _ => true
  | .hostMeasurement _ _ => true
  | .storePerformed _ => true
  | .atomicReply _ => true
  | .remoteAcknowledgement _ => true
  | .hostDeviceMemoryAccess _ => true
  | .saveCopyBound _ => true
  | .walkRoutineLoad _ _ => true

end Sys2Proof
end

