-- ==== Sys2Proof/Decode.lean ====
section
/-! DEFINITION. The decoder of instruction words and clause headers, total on every word, and the encoder written from
the same encoding tables (02 R19, R33-R44; the encoding line of each chapter). A word that no instruction has is
rejected by the name of the check it fails: ILLOP for a reserved opcode, ILLENC for a field. -/

namespace Sys2Proof

/-- Why a word is no instruction (02 R41). -/
inductive DecErr where
  | illop
  | illenc
  deriving DecidableEq, Repr

/-- What the decoder makes of a word. -/
inductive Decoded where
  | instr (i : Instr)
  | reject (e : DecErr)
  deriving DecidableEq, Repr

/-- Bit n of a word. -/
def bitAt (w : W64) (n : Nat) : Bool := w.getLsbD n
/-- The major opcode (02 R33). -/
def opOf (w : W64) : BitVec 8 := w.extractLsb' 56 8
/-- Guard and park (02 R33). -/
def ctlOf (w : W64) : Ctl := { gn := bitAt w 55, gi := w.extractLsb' 49 6, pk := bitAt w 48 }
/-- The instruction, when every bit of the mask, the bits that the instruction does not use, is zero (02 R39). -/
def ifZero (w mask : W64) (i : Instr) : Option Instr := if w &&& mask = 0 then some i else none

/-- The classes of clauses and instructions (02 R19, R42). -/
inductive Cls where
  | int | vec | mem | sync | copy | mtx | tap | task | pool | sys
  deriving DecidableEq, Repr

/-- The class code of a header (02 R19). -/
def Cls.ofCode (n : Nat) : Option Cls :=
  match n with
  | 0 => some .int | 1 => some .vec | 2 => some .mem | 3 => some .sync | 4 => some .copy
  | 5 => some .mtx | 6 => some .tap | 7 => some .task | 8 => some .pool | 9 => some .sys
  | _ => none

/-- The opcode map (02 R42): the class of an assigned opcode, none for 0x00 and every reserved one. -/
def clsOf (op : Nat) : Option Cls :=
  if op == 0x00 then none
  else if op ≤ 0x3C then some .int
  else if op < 0x40 then none
  else if op ≤ 0x64 then some .vec
  else if op < 0x70 then none
  else if op ≤ 0x79 then some .mem
  else if op < 0x90 then none
  else if op ≤ 0x9C then some .sync
  else if op < 0xA0 then none
  else if op ≤ 0xA6 then some .copy
  else if op == 0xA7 then none
  else if op ≤ 0xB7 then some .mtx
  else if op ≤ 0xBC then some .tap
  else if op < 0xC0 then none
  else if op ≤ 0xCA then some .task
  else if op < 0xD0 then none
  else if op ≤ 0xD8 then some .sys
  else if op < 0xE0 then none
  else if op ≤ 0xE4 then some .pool
  else none

/-- A clause header (02 R19). -/
structure Header where
  cls : Cls
  n : Nat
  rf : Bool
  waits : BitVec 7
  yl : Bool
  deriving DecidableEq, Repr

/-- A valid header: tag 0xA, class 0-9, reserved bits zero (02 R20). The wait bits keep their order
LD ST AT CP MX TP EN from the most significant. -/
def decodeHeader (w : W64) : Option Header :=
  if w.extractLsb' 60 4 == 0xA && w.extractLsb' 0 43 == 0 then
    match Cls.ofCode (w.extractLsb' 56 4).toNat with
    | some c => some { cls := c, n := (w.extractLsb' 52 4).toNat, rf := bitAt w 51,
                       waits := w.extractLsb' 44 7, yl := bitAt w 43 }
    | none => none
  else none

/-- The INT opcodes (chapter 06, chapter 05, chapter 23). -/
def decodeInt (w : W64) (k : Ctl) : Option Instr :=
  match (opOf w).toNat with
  | 0x01 => ifZero w 0x0000FFFFFFFFFFFF (.nop k)
  | 0x02 => ifZero w 0x00001F000000FFFF (.iadd k (bitAt w 47) (bitAt w 46) (bitAt w 45) (w.extractLsb' 32 8) (w.extractLsb' 24 8) (w.extractLsb' 16 8))
  | 0x03 => ifZero w 0x00001F000000FFFF (.isub k (bitAt w 47) (bitAt w 46) (bitAt w 45) (w.extractLsb' 32 8) (w.extractLsb' 24 8) (w.extractLsb' 16 8))
  | 0x04 => ifZero w 0x00001F0000000000 (.iaddi k (bitAt w 47) (bitAt w 46) (bitAt w 45) (w.extractLsb' 32 8) (w.extractLsb' 24 8) (w.extractLsb' 0 24))
  | 0x05 => ifZero w 0x00009F000000FFFF (.iaddw k (bitAt w 46) (bitAt w 45) (w.extractLsb' 32 8) (w.extractLsb' 24 8) (w.extractLsb' 16 8))
  | 0x06 => ifZero w 0x00001F000000FFFF (.imul k (bitAt w 47) (bitAt w 46) (bitAt w 45) (w.extractLsb' 32 8) (w.extractLsb' 24 8) (w.extractLsb' 16 8))
  | 0x07 => ifZero w 0x00003F000000FFFF (.imulh k (bitAt w 47) (bitAt w 46) (w.extractLsb' 32 8) (w.extractLsb' 24 8) (w.extractLsb' 16 8))
  | 0x08 => ifZero w 0x00001F00000000FF (.imad k (bitAt w 47) (bitAt w 46) (bitAt w 45) (w.extractLsb' 32 8) (w.extractLsb' 24 8) (w.extractLsb' 16 8) (w.extractLsb' 8 8))
  | 0x09 => ifZero w 0x00009F00000000FF (.imadw k (bitAt w 46) (bitAt w 45) (w.extractLsb' 32 8) (w.extractLsb' 24 8) (w.extractLsb' 16 8) (w.extractLsb' 8 8))
  | 0x0A => ifZero w 0x00003F000000FFFF (.idiv k (bitAt w 47) (bitAt w 46) (w.extractLsb' 32 8) (w.extractLsb' 24 8) (w.extractLsb' 16 8))
  | 0x0B => ifZero w 0x00003F000000FFFF (.irem k (bitAt w 47) (bitAt w 46) (w.extractLsb' 32 8) (w.extractLsb' 24 8) (w.extractLsb' 16 8))
  | 0x0C => ifZero w 0x00003F000000FFFF (.imin k (bitAt w 47) (bitAt w 46) (w.extractLsb' 32 8) (w.extractLsb' 24 8) (w.extractLsb' 16 8))
  | 0x0D => ifZero w 0x00003F000000FFFF (.imax k (bitAt w 47) (bitAt w 46) (w.extractLsb' 32 8) (w.extractLsb' 24 8) (w.extractLsb' 16 8))
  | 0x0E => ifZero w 0x00003F000000FFFF (.iabsd k (bitAt w 47) (bitAt w 46) (w.extractLsb' 32 8) (w.extractLsb' 24 8) (w.extractLsb' 16 8))
  | 0x0F => ifZero w 0x00007F0000000000 (.lut3 k (bitAt w 47) (w.extractLsb' 32 8) (w.extractLsb' 24 8) (w.extractLsb' 16 8) (w.extractLsb' 8 8) (w.extractLsb' 0 8))
  | 0x10 => ifZero w 0x00006F000000FF00 (.ishl k (bitAt w 47) (bitAt w 44) (w.extractLsb' 32 8) (w.extractLsb' 24 8) (w.extractLsb' 16 8) (w.extractLsb' 0 8))
  | 0x11 => ifZero w 0x00002F000000FF00 (.ishr k (bitAt w 47) (bitAt w 46) (bitAt w 44) (w.extractLsb' 32 8) (w.extractLsb' 24 8) (w.extractLsb' 16 8) (w.extractLsb' 0 8))
  | 0x12 => ifZero w 0x0000EF0000000000 (.fshl k (bitAt w 44) (w.extractLsb' 32 8) (w.extractLsb' 24 8) (w.extractLsb' 16 8) (w.extractLsb' 8 8) (w.extractLsb' 0 8))
  | 0x13 => ifZero w 0x0000EF0000000000 (.fshr k (bitAt w 44) (w.extractLsb' 32 8) (w.extractLsb' 24 8) (w.extractLsb' 16 8) (w.extractLsb' 8 8) (w.extractLsb' 0 8))
  | 0x14 => ifZero w 0x00002F0000FF0000 (.bfx k (bitAt w 47) (bitAt w 46) (bitAt w 44) (w.extractLsb' 32 8) (w.extractLsb' 24 8) (w.extractLsb' 8 8) (w.extractLsb' 0 8))
  | 0x15 => ifZero w 0x00006F0000000000 (.bfi k (bitAt w 47) (bitAt w 44) (w.extractLsb' 32 8) (w.extractLsb' 24 8) (w.extractLsb' 16 8) (w.extractLsb' 8 8) (w.extractLsb' 0 8))
  | 0x16 => ifZero w 0x00007F0000FFFFFF (.popc k (bitAt w 47) (w.extractLsb' 32 8) (w.extractLsb' 24 8))
  | 0x17 => ifZero w 0x00007F0000FFFFFF (.popb k (bitAt w 47) (w.extractLsb' 32 8) (w.extractLsb' 24 8))
  | 0x18 => ifZero w 0x00007F0000FFFFFF (.clz k (bitAt w 47) (w.extractLsb' 32 8) (w.extractLsb' 24 8))
  | 0x19 => ifZero w 0x00007F0000FFFFFF (.brev k (bitAt w 47) (w.extractLsb' 32 8) (w.extractLsb' 24 8))
  | 0x1A => ifZero w 0x00007F000000FF00 (.isel k (bitAt w 47) (w.extractLsb' 32 8) (w.extractLsb' 24 8) (w.extractLsb' 16 8) (w.extractLsb' 0 8))
  | 0x1B => ifZero w 0x00003F0000FFFFFF (.mov k (w.extractLsb' 46 2) (w.extractLsb' 32 8) (w.extractLsb' 24 8))
  | 0x1C => ifZero w 0x00003F0000000000 (.movi k (w.extractLsb' 46 2) (w.extractLsb' 32 8) (w.extractLsb' 0 32))
  | 0x1D => ifZero w 0x000001000000FFFF (.icmp k (bitAt w 47) (bitAt w 46) (w.extractLsb' 44 2) (w.extractLsb' 41 3) (w.extractLsb' 32 8) (w.extractLsb' 24 8) (w.extractLsb' 16 8))
  | 0x1E => ifZero w 0x0000010000000000 (.icmpi k (bitAt w 47) (bitAt w 46) (w.extractLsb' 44 2) (w.extractLsb' 41 3) (w.extractLsb' 32 8) (w.extractLsb' 24 8) (w.extractLsb' 0 24))
  | 0x1F => ifZero w 0x0000FF0000000000 (.plut k (w.extractLsb' 32 8) (w.extractLsb' 24 8) (w.extractLsb' 16 8) (w.extractLsb' 8 8) (w.extractLsb' 0 8))
  | 0x20 => ifZero w 0x0000FF00FFFFFF00 (.pget k (w.extractLsb' 32 8) (w.extractLsb' 0 8))
  | 0x21 => ifZero w 0x0000FFFF0000FF00 (.pset k (w.extractLsb' 24 8) (w.extractLsb' 16 8) (w.extractLsb' 0 8))
  | 0x22 => ifZero w 0x0000630000000000 (.perm k (bitAt w 47) (bitAt w 44) (w.extractLsb' 42 2) (w.extractLsb' 32 8) (w.extractLsb' 24 8) (w.extractLsb' 16 8) (w.extractLsb' 8 8) (w.extractLsb' 0 8))
  | 0x23 => ifZero w 0x0000EF0000000000 (.permx k (bitAt w 44) (w.extractLsb' 32 8) (w.extractLsb' 24 8) (w.extractLsb' 16 8) (w.extractLsb' 8 8) (w.extractLsb' 0 8))
  | 0x24 => ifZero w 0x0000E30000FF00FF (.vote k (bitAt w 44) (w.extractLsb' 42 2) (w.extractLsb' 32 8) (w.extractLsb' 24 8) (w.extractLsb' 8 8))
  | 0x25 => ifZero w 0x0000EF00FFFF00FF (.elect k (bitAt w 44) (w.extractLsb' 32 8) (w.extractLsb' 8 8))
  | 0x26 => ifZero w 0x0000210000FF00FF (.gred k (bitAt w 47) (bitAt w 46) (bitAt w 44) (w.extractLsb' 41 3) (w.extractLsb' 32 8) (w.extractLsb' 24 8) (w.extractLsb' 8 8))
  | 0x27 => ifZero w 0x0000200000FF00FF (.gscan k (bitAt w 47) (bitAt w 46) (bitAt w 44) (w.extractLsb' 41 3) (bitAt w 40) (w.extractLsb' 32 8) (w.extractLsb' 24 8) (w.extractLsb' 8 8))
  | 0x28 => ifZero w 0x0000FFFF00000000 (.bra k (w.extractLsb' 0 32))
  | 0x29 => ifZero w 0x0000FFFF00FFFFFF (.brx k (w.extractLsb' 24 8))
  | 0x2A => ifZero w 0x0000FF0000000000 (.call k (w.extractLsb' 32 8) (w.extractLsb' 0 32))
  | 0x2B => ifZero w 0x0000FFFF00FFFFFF (.ret k (w.extractLsb' 24 8))
  | 0x2C => ifZero w 0x0000FFFF00FFFF00 (.rjarm k (w.extractLsb' 24 8) (w.extractLsb' 0 8))
  | 0x2D => ifZero w 0x0000FFFFFFFFFF00 (.rjoin k (w.extractLsb' 0 8))
  | 0x2E => ifZero w 0x0000FFFFFFFFFF00 (.rjdrop k (w.extractLsb' 0 8))
  | 0x2F => ifZero w 0x0000FFFFFFFFFFFF (.exit k)
  | 0x30 => ifZero w 0x0000FFFFFF000000 (.trap k (w.extractLsb' 0 24))
  | 0x31 => ifZero w 0x0000FF00FF000000 (.gets k (w.extractLsb' 32 8) (w.extractLsb' 0 24))
  | 0x32 => ifZero w 0x0000FFFF00000000 (.sets k (w.extractLsb' 24 8) (w.extractLsb' 0 24))
  | 0x33 => ifZero w 0x0000FFFFFF000000 (.rclaim k (w.extractLsb' 0 24))
  | 0x34 => ifZero w 0x0000FFFFFF000000 (.rgive k (w.extractLsb' 0 24))
  | 0x35 => ifZero w 0x0000FF00FF000000 (.rtry k (w.extractLsb' 32 8) (w.extractLsb' 0 24))
  | 0x36 => ifZero w 0x0000FFFFFFFFFFFF (.yield k)
  | 0x37 => ifZero w 0x0000FFFFFF000000 (.nap k (w.extractLsb' 0 24))
  | 0x38 => ifZero w 0x0000FFFFFF000000 (.prog k (w.extractLsb' 0 24))
  | 0x39 => ifZero w 0x0000FFFFFF000000 (.brk k (w.extractLsb' 0 24))
  | 0x3A => ifZero w 0x0000FFFF00000000 (.trcmark k (w.extractLsb' 24 8) (w.extractLsb' 0 24))
  | 0x3B => ifZero w 0x0000FF000000FFFF (.vget k (w.extractLsb' 32 8) (w.extractLsb' 24 8) (w.extractLsb' 16 8))
  | 0x3C => ifZero w 0x0000FF000000FFFF (.vput k (w.extractLsb' 32 8) (w.extractLsb' 24 8) (w.extractLsb' 16 8))
  | _ => none

/-- The VEC opcodes (chapter 07). -/
def decodeVec (w : W64) (k : Ctl) : Option Instr :=
  match (opOf w).toNat with
  | 0x40 => ifZero w 0x00000F000000FFFF (.fadd k (w.extractLsb' 46 2) (bitAt w 45) (bitAt w 44) (w.extractLsb' 32 8) (w.extractLsb' 24 8) (w.extractLsb' 16 8))
  | 0x41 => ifZero w 0x00001F000000FFFF (.fmul k (w.extractLsb' 46 2) (bitAt w 45) (w.extractLsb' 32 8) (w.extractLsb' 24 8) (w.extractLsb' 16 8))
  | 0x42 => ifZero w 0x00000F00000000FF (.ffma k (w.extractLsb' 46 2) (bitAt w 45) (bitAt w 44) (w.extractLsb' 32 8) (w.extractLsb' 24 8) (w.extractLsb' 16 8) (w.extractLsb' 8 8))
  | 0x43 => ifZero w 0x0000FF000000FFFF (.fmin k (w.extractLsb' 32 8) (w.extractLsb' 24 8) (w.extractLsb' 16 8))
  | 0x44 => ifZero w 0x0000FF000000FFFF (.fmax k (w.extractLsb' 32 8) (w.extractLsb' 24 8) (w.extractLsb' 16 8))
  | 0x45 => ifZero w 0x0000C1000000FFFF (.fcmp k (w.extractLsb' 44 2) (w.extractLsb' 41 3) (w.extractLsb' 32 8) (w.extractLsb' 24 8) (w.extractLsb' 16 8))
  | 0x46 => ifZero w 0x00003F000000FFFF (.fdiv k (w.extractLsb' 46 2) (w.extractLsb' 32 8) (w.extractLsb' 24 8) (w.extractLsb' 16 8))
  | 0x47 => ifZero w 0x00003F0000FFFFFF (.frcp k (w.extractLsb' 46 2) (w.extractLsb' 32 8) (w.extractLsb' 24 8))
  | 0x48 => ifZero w 0x00003F0000FFFFFF (.frsq k (w.extractLsb' 46 2) (w.extractLsb' 32 8) (w.extractLsb' 24 8))
  | 0x49 => ifZero w 0x00003F0000FFFFFF (.fsqrt k (w.extractLsb' 46 2) (w.extractLsb' 32 8) (w.extractLsb' 24 8))
  | 0x4A => ifZero w 0x00003F0000FFFFFF (.fexp2 k (w.extractLsb' 46 2) (w.extractLsb' 32 8) (w.extractLsb' 24 8))
  | 0x4B => ifZero w 0x00003F0000FFFFFF (.flog2 k (w.extractLsb' 46 2) (w.extractLsb' 32 8) (w.extractLsb' 24 8))
  | 0x4C => ifZero w 0x00003F0000FFFFFF (.fsinpi k (w.extractLsb' 46 2) (w.extractLsb' 32 8) (w.extractLsb' 24 8))
  | 0x4D => ifZero w 0x00003F0000FFFFFF (.fcospi k (w.extractLsb' 46 2) (w.extractLsb' 32 8) (w.extractLsb' 24 8))
  | 0x4E => ifZero w 0x00003F0000FFFFFF (.frnd k (w.extractLsb' 46 2) (w.extractLsb' 32 8) (w.extractLsb' 24 8))
  | 0x4F => ifZero w 0x00003F000000FFFF (.fscale k (w.extractLsb' 46 2) (w.extractLsb' 32 8) (w.extractLsb' 24 8) (w.extractLsb' 16 8))
  | 0x50 => ifZero w 0x00001F000000FFFF (.hadd2 k (w.extractLsb' 46 2) (bitAt w 45) (w.extractLsb' 32 8) (w.extractLsb' 24 8) (w.extractLsb' 16 8))
  | 0x51 => ifZero w 0x00001F000000FFFF (.hmul2 k (w.extractLsb' 46 2) (bitAt w 45) (w.extractLsb' 32 8) (w.extractLsb' 24 8) (w.extractLsb' 16 8))
  | 0x52 => ifZero w 0x00001F00000000FF (.hfma2 k (w.extractLsb' 46 2) (bitAt w 45) (w.extractLsb' 32 8) (w.extractLsb' 24 8) (w.extractLsb' 16 8) (w.extractLsb' 8 8))
  | 0x53 => ifZero w 0x0000CF000000FFFF (.hmax2 k (bitAt w 45) (bitAt w 44) (w.extractLsb' 32 8) (w.extractLsb' 24 8) (w.extractLsb' 16 8))
  | 0x54 => ifZero w 0x0000000000FFFF00 (.cvt k (w.extractLsb' 46 2) (w.extractLsb' 43 3) (w.extractLsb' 40 3) (w.extractLsb' 32 8) (w.extractLsb' 24 8) (w.extractLsb' 0 8))
  | 0x55 => ifZero w 0x00001F000000FFFF (.cvtp k (w.extractLsb' 46 2) (bitAt w 45) (w.extractLsb' 32 8) (w.extractLsb' 24 8) (w.extractLsb' 16 8))
  | 0x56 => ifZero w 0x0000020000FF0000 (.cvtq k (w.extractLsb' 46 2) (w.extractLsb' 43 3) (bitAt w 42) (bitAt w 40) (w.extractLsb' 32 8) (w.extractLsb' 24 8) (w.extractLsb' 8 8) (w.extractLsb' 0 8))
  | 0x57 => ifZero w 0x0000060000000000 (.cvto k (w.extractLsb' 46 2) (w.extractLsb' 43 3) (bitAt w 40) (w.extractLsb' 32 8) (w.extractLsb' 24 8) (w.extractLsb' 16 8) (w.extractLsb' 8 8) (w.extractLsb' 0 8))
  | 0x58 => ifZero w 0x0000060000FF0000 (.cvtx k (w.extractLsb' 46 2) (w.extractLsb' 43 3) (bitAt w 40) (w.extractLsb' 32 8) (w.extractLsb' 24 8) (w.extractLsb' 8 8) (w.extractLsb' 0 8))
  | 0x59 => ifZero w 0x0000FF00000000FF (.dotI8 k (w.extractLsb' 32 8) (w.extractLsb' 24 8) (w.extractLsb' 16 8) (w.extractLsb' 8 8))
  | 0x5A => ifZero w 0x0000FF00000000FF (.dotZ8 k (w.extractLsb' 32 8) (w.extractLsb' 24 8) (w.extractLsb' 16 8) (w.extractLsb' 8 8))
  | 0x5B => ifZero w 0x00003F00000000FF (.dotE4m3 k (w.extractLsb' 46 2) (w.extractLsb' 32 8) (w.extractLsb' 24 8) (w.extractLsb' 16 8) (w.extractLsb' 8 8))
  | 0x5C => ifZero w 0x00003F00000000FF (.dotE5m2 k (w.extractLsb' 46 2) (w.extractLsb' 32 8) (w.extractLsb' 24 8) (w.extractLsb' 16 8) (w.extractLsb' 8 8))
  | 0x5D => ifZero w 0x0000FF00000000FF (.dotI4 k (w.extractLsb' 32 8) (w.extractLsb' 24 8) (w.extractLsb' 16 8) (w.extractLsb' 8 8))
  | 0x5E => ifZero w 0x00003F00000000FF (.dotE2m1 k (w.extractLsb' 46 2) (w.extractLsb' 32 8) (w.extractLsb' 24 8) (w.extractLsb' 16 8) (w.extractLsb' 8 8))
  | 0x5F => ifZero w 0x00003F0000000000 (.dotsE4m3 k (w.extractLsb' 46 2) (w.extractLsb' 32 8) (w.extractLsb' 24 8) (w.extractLsb' 16 8) (w.extractLsb' 8 8) (w.extractLsb' 0 8))
  | 0x60 => ifZero w 0x00003F0000000000 (.dotsE5m2 k (w.extractLsb' 46 2) (w.extractLsb' 32 8) (w.extractLsb' 24 8) (w.extractLsb' 16 8) (w.extractLsb' 8 8) (w.extractLsb' 0 8))
  | 0x61 => ifZero w 0x00003F0000000000 (.dotsE2m1 k (w.extractLsb' 46 2) (w.extractLsb' 32 8) (w.extractLsb' 24 8) (w.extractLsb' 16 8) (w.extractLsb' 8 8) (w.extractLsb' 0 8))
  | 0x62 => ifZero w 0x00003F0000000000 (.dotsI8 k (w.extractLsb' 46 2) (w.extractLsb' 32 8) (w.extractLsb' 24 8) (w.extractLsb' 16 8) (w.extractLsb' 8 8) (w.extractLsb' 0 8))
  | 0x63 => ifZero w 0x00003F00000000FF (.dot2Bf16 k (w.extractLsb' 46 2) (w.extractLsb' 32 8) (w.extractLsb' 24 8) (w.extractLsb' 16 8) (w.extractLsb' 8 8))
  | 0x64 => ifZero w 0x00003F00000000FF (.dot2F16 k (w.extractLsb' 46 2) (w.extractLsb' 32 8) (w.extractLsb' 24 8) (w.extractLsb' 16 8) (w.extractLsb' 8 8))
  | _ => none

/-- The MEM opcodes (chapter 09). -/
def decodeMem (w : W64) (k : Ctl) : Option Instr :=
  match (opOf w).toNat with
  | 0x70 => ifZero w 0x0000000000000000 (.ld k (w.extractLsb' 46 2) (w.extractLsb' 43 3) (w.extractLsb' 40 3) (w.extractLsb' 32 8) (w.extractLsb' 24 8) (w.extractLsb' 19 5) (w.extractLsb' 17 2) (w.extractLsb' 0 17))
  | 0x71 => ifZero w 0x0000000000000000 (.st k (w.extractLsb' 46 2) (w.extractLsb' 43 3) (w.extractLsb' 40 3) (w.extractLsb' 32 8) (w.extractLsb' 24 8) (w.extractLsb' 19 5) (w.extractLsb' 17 2) (w.extractLsb' 0 17))
  | 0x72 => ifZero w 0x0000000000000000 (.atom k (w.extractLsb' 46 2) (w.extractLsb' 43 3) (w.extractLsb' 40 3) (w.extractLsb' 32 8) (w.extractLsb' 24 8) (w.extractLsb' 19 5) (w.extractLsb' 15 4) (w.extractLsb' 0 15))
  | 0x73 => ifZero w 0x0000000000000000 (.atomn k (w.extractLsb' 46 2) (w.extractLsb' 43 3) (w.extractLsb' 40 3) (w.extractLsb' 32 8) (w.extractLsb' 24 8) (w.extractLsb' 19 5) (w.extractLsb' 15 4) (w.extractLsb' 0 15))
  | 0x74 => ifZero w 0x0000000000000000 (.cas k (w.extractLsb' 46 2) (w.extractLsb' 43 3) (w.extractLsb' 40 3) (w.extractLsb' 32 8) (w.extractLsb' 24 8) (w.extractLsb' 19 5) (w.extractLsb' 17 2) (w.extractLsb' 0 17))
  | 0x75 => ifZero w 0x000007FFFFFFFFFF (.fence k (w.extractLsb' 46 2) (w.extractLsb' 43 3))
  | 0x76 => ifZero w 0x0000C7FFFFFFFFFF (.scfence k (w.extractLsb' 43 3))
  | 0x77 => ifZero w 0x0000FF0000FFFFFF (.bset k (w.extractLsb' 32 8) (w.extractLsb' 24 8))
  | 0x78 => ifZero w 0x0000FF0000FFFFFF (.bget k (w.extractLsb' 32 8) (w.extractLsb' 24 8))
  | 0x79 => ifZero w 0x0000F8FF00000000 (.pref k (w.extractLsb' 40 3) (w.extractLsb' 24 8) (w.extractLsb' 19 5) (w.extractLsb' 17 2) (w.extractLsb' 0 17))
  | _ => none

/-- The SYNC opcodes (chapter 12). -/
def decodeSync (w : W64) (k : Ctl) : Option Instr :=
  match (opOf w).toNat with
  | 0x90 => ifZero w 0x00007F00000000FF (.binit k (bitAt w 47) (w.extractLsb' 32 8) (w.extractLsb' 24 8) (w.extractLsb' 16 8) (w.extractLsb' 8 8))
  | 0x91 => ifZero w 0x00007F0000FFFFFF (.bjoin k (bitAt w 47) (w.extractLsb' 32 8) (w.extractLsb' 24 8))
  | 0x92 => ifZero w 0x00007F0000FFFFFF (.barr k (bitAt w 47) (w.extractLsb' 32 8) (w.extractLsb' 24 8))
  | 0x93 => ifZero w 0x00007F000000FFFF (.bwait k (bitAt w 47) (w.extractLsb' 32 8) (w.extractLsb' 24 8) (w.extractLsb' 16 8))
  | 0x94 => ifZero w 0x00007F0000FFFFFF (.barw k (bitAt w 47) (w.extractLsb' 32 8) (w.extractLsb' 24 8))
  | 0x95 => ifZero w 0x00007F0000FFFFFF (.bdrop k (bitAt w 47) (w.extractLsb' 32 8) (w.extractLsb' 24 8))
  | 0x96 => ifZero w 0x00007F0000FFFFFF (.binv k (bitAt w 47) (w.extractLsb' 32 8) (w.extractLsb' 24 8))
  | 0x97 => ifZero w 0x00007F0000FFFF00 (.bqry k (bitAt w 47) (w.extractLsb' 32 8) (w.extractLsb' 24 8) (w.extractLsb' 0 8))
  | 0x98 =>
    if w.extractLsb' 46 1 == 0 then
      ifZero w 0x0000BF0000FFFFFF (.rginit k (w.extractLsb' 32 8) (w.extractLsb' 24 8))
    else if w.extractLsb' 46 1 == 1 then
      ifZero w 0x0000BF0000FFFFFF (.rginitFree k (w.extractLsb' 32 8) (w.extractLsb' 24 8))
    else none
  | 0x99 => ifZero w 0x0000BF0000FFFFFF (.slacq k (bitAt w 46) (w.extractLsb' 32 8) (w.extractLsb' 24 8))
  | 0x9A => ifZero w 0x0000FFFF000000FF (.slfil k (w.extractLsb' 24 8) (w.extractLsb' 16 8) (w.extractLsb' 8 8))
  | 0x9B => ifZero w 0x0000BF0000FFFFFF (.sltak k (bitAt w 46) (w.extractLsb' 32 8) (w.extractLsb' 24 8))
  | 0x9C => ifZero w 0x0000FFFF0000FFFF (.slrel k (w.extractLsb' 24 8) (w.extractLsb' 16 8))
  | _ => none

/-- The COPY opcodes (chapter 14). -/
def decodeCopy (w : W64) (k : Ctl) : Option Instr :=
  match (opOf w).toNat with
  | 0xA0 => ifZero w 0x0000010000000000 (.cpy k (w.extractLsb' 45 3) (w.extractLsb' 42 3) (bitAt w 41) (w.extractLsb' 32 8) (w.extractLsb' 24 8) (w.extractLsb' 16 8) (w.extractLsb' 8 8) (w.extractLsb' 0 8))
  | 0xA1 => ifZero w 0x0000010000000000 (.cpyg k (w.extractLsb' 45 3) (w.extractLsb' 42 3) (bitAt w 41) (w.extractLsb' 32 8) (w.extractLsb' 24 8) (w.extractLsb' 16 8) (w.extractLsb' 8 8) (w.extractLsb' 0 8))
  | 0xA2 => ifZero w 0x0000010000000000 (.cpys k (w.extractLsb' 45 3) (w.extractLsb' 42 3) (bitAt w 41) (w.extractLsb' 32 8) (w.extractLsb' 24 8) (w.extractLsb' 16 8) (w.extractLsb' 8 8) (w.extractLsb' 0 8))
  | 0xA3 => ifZero w 0x0000010000000000 (.cpyf k (w.extractLsb' 45 3) (w.extractLsb' 42 3) (bitAt w 41) (w.extractLsb' 32 8) (w.extractLsb' 24 8) (w.extractLsb' 16 8) (w.extractLsb' 8 8) (w.extractLsb' 0 8))
  | 0xA4 => ifZero w 0x0000FF00FFFFFFFF (.cseal k (w.extractLsb' 32 8))
  | 0xA5 => ifZero w 0x0000FF0000FFFFFF (.cwait k (w.extractLsb' 32 8) (w.extractLsb' 24 8))
  | 0xA6 => ifZero w 0x0000FF00FFFFFFFF (.cpoll k (w.extractLsb' 32 8))
  | _ => none

/-- The MTX opcodes (chapter 15). -/
def decodeMtx (w : W64) (k : Ctl) : Option Instr :=
  match (opOf w).toNat with
  | 0xA8 => ifZero w 0x00001F000000FFFF (.mclaim k (w.extractLsb' 46 2) (bitAt w 45) (w.extractLsb' 32 8) (w.extractLsb' 24 8) (w.extractLsb' 16 8))
  | 0xA9 => ifZero w 0x00003F000000FFFF (.mrel k (w.extractLsb' 46 2) (w.extractLsb' 32 8) (w.extractLsb' 24 8) (w.extractLsb' 16 8))
  | 0xAA => ifZero w 0x0000FF00FFFFFFFF (.mbaton k (w.extractLsb' 32 8))
  | 0xAB => ifZero w 0x0000FF0000FFFFFF (.mpass k (w.extractLsb' 32 8) (w.extractLsb' 24 8))
  | 0xAC => ifZero w 0x00007F00FFFFFFFF (.mzero k (bitAt w 47) (w.extractLsb' 32 8))
  | 0xAD => ifZero w 0x000003FF00000000 (.mmaBf16 k (bitAt w 47) (bitAt w 46) (bitAt w 45) (w.extractLsb' 42 3) (w.extractLsb' 24 8) (w.extractLsb' 16 8) (w.extractLsb' 8 8) (w.extractLsb' 0 8))
  | 0xAE => ifZero w 0x000003FF00000000 (.mmaF16 k (bitAt w 47) (bitAt w 46) (bitAt w 45) (w.extractLsb' 42 3) (w.extractLsb' 24 8) (w.extractLsb' 16 8) (w.extractLsb' 8 8) (w.extractLsb' 0 8))
  | 0xAF => ifZero w 0x000003FF00000000 (.mmaE4m3 k (bitAt w 47) (bitAt w 46) (bitAt w 45) (w.extractLsb' 42 3) (w.extractLsb' 24 8) (w.extractLsb' 16 8) (w.extractLsb' 8 8) (w.extractLsb' 0 8))
  | 0xB0 => ifZero w 0x000003FF00000000 (.mmaE5m2 k (bitAt w 47) (bitAt w 46) (bitAt w 45) (w.extractLsb' 42 3) (w.extractLsb' 24 8) (w.extractLsb' 16 8) (w.extractLsb' 8 8) (w.extractLsb' 0 8))
  | 0xB1 => ifZero w 0x000003FF00000000 (.mmaE2m1 k (bitAt w 47) (bitAt w 46) (bitAt w 45) (w.extractLsb' 42 3) (w.extractLsb' 24 8) (w.extractLsb' 16 8) (w.extractLsb' 8 8) (w.extractLsb' 0 8))
  | 0xB2 => ifZero w 0x000003FF00000000 (.mmaI8 k (bitAt w 47) (bitAt w 46) (bitAt w 45) (w.extractLsb' 42 3) (w.extractLsb' 24 8) (w.extractLsb' 16 8) (w.extractLsb' 8 8) (w.extractLsb' 0 8))
  | 0xB3 => ifZero w 0x000003FF00000000 (.mmaI4 k (bitAt w 47) (bitAt w 46) (bitAt w 45) (w.extractLsb' 42 3) (w.extractLsb' 24 8) (w.extractLsb' 16 8) (w.extractLsb' 8 8) (w.extractLsb' 0 8))
  | 0xB4 => ifZero w 0x00003F000000FF00 (.mdrain k (bitAt w 47) (bitAt w 46) (w.extractLsb' 32 8) (w.extractLsb' 24 8) (w.extractLsb' 16 8) (w.extractLsb' 0 8))
  | 0xB5 => ifZero w 0x0000FF0000FFFF00 (.mrd k (w.extractLsb' 32 8) (w.extractLsb' 24 8) (w.extractLsb' 0 8))
  | 0xB6 => ifZero w 0x00007F000000FFFF (.mmask k (bitAt w 47) (w.extractLsb' 32 8) (w.extractLsb' 24 8) (w.extractLsb' 16 8))
  | 0xB7 => ifZero w 0x00007FFFFFFFFFFF (.msync k (bitAt w 47))
  | _ => none

/-- The TAP opcodes (chapter 19). -/
def decodeTap (w : W64) (k : Ctl) : Option Instr :=
  match (opOf w).toNat with
  | 0xB8 => ifZero w 0x0000FF0000000000 (.tapin k (w.extractLsb' 32 8) (w.extractLsb' 24 8) (w.extractLsb' 16 8) (w.extractLsb' 8 8) (w.extractLsb' 0 8))
  | 0xB9 => ifZero w 0x0000FF000000FFFF (.tapw k (w.extractLsb' 32 8) (w.extractLsb' 24 8) (w.extractLsb' 16 8))
  | 0xBA => ifZero w 0x00007F0000FFFFFF (.taprm k (bitAt w 47) (w.extractLsb' 32 8) (w.extractLsb' 24 8))
  | 0xBB => ifZero w 0x0000FFFF0000FFFF (.trel k (w.extractLsb' 24 8) (w.extractLsb' 16 8))
  | 0xBC => ifZero w 0x00007FFF00FFFFFF (.tapsync k (bitAt w 47) (w.extractLsb' 24 8))
  | _ => none

/-- The TASK opcodes (chapter 10). -/
def decodeTask (w : W64) (k : Ctl) : Option Instr :=
  match (opOf w).toNat with
  | 0xC0 => ifZero w 0x0000FF0000FFFFFF (.jpost k (w.extractLsb' 32 8) (w.extractLsb' 24 8))
  | 0xC1 => ifZero w 0x0000FF00FFFFFF00 (.jrec k (w.extractLsb' 32 8) (w.extractLsb' 0 8))
  | 0xC2 => ifZero w 0x0000FFFFFFFFFFFF (.jhint k)
  | 0xC3 => ifZero w 0x0000FF00FFFFFFFF (.jpwait k (w.extractLsb' 32 8))
  | 0xC4 => ifZero w 0x0000FFFF00FFFFFF (.finit k (w.extractLsb' 24 8))
  | 0xC5 => ifZero w 0x0000FFFF0000FFFF (.fwr k (w.extractLsb' 24 8) (w.extractLsb' 16 8))
  | 0xC6 => ifZero w 0x0000FF0000FFFF00 (.frd k (w.extractLsb' 32 8) (w.extractLsb' 24 8) (w.extractLsb' 0 8))
  | 0xC7 => ifZero w 0x00007F00000000FF (.scopen k (bitAt w 47) (w.extractLsb' 32 8) (w.extractLsb' 24 8) (w.extractLsb' 16 8) (w.extractLsb' 8 8))
  | 0xC8 => ifZero w 0x00007F0000FF00FF (.sccan k (bitAt w 47) (w.extractLsb' 32 8) (w.extractLsb' 24 8) (w.extractLsb' 8 8))
  | 0xC9 => ifZero w 0x00007F0000FF00FF (.scack k (bitAt w 47) (w.extractLsb' 32 8) (w.extractLsb' 24 8) (w.extractLsb' 8 8))
  | 0xCA => ifZero w 0x00007F0000FF00FF (.scqry k (bitAt w 47) (w.extractLsb' 32 8) (w.extractLsb' 24 8) (w.extractLsb' 8 8))
  | _ => none

/-- The SYS opcodes (chapter 11, chapter 09, chapter 21, chapter 23). -/
def decodeSys (w : W64) (k : Ctl) : Option Instr :=
  match (opOf w).toNat with
  | 0xD0 =>
    if w.extractLsb' 40 2 == 0 then
      ifZero w 0x0000FC0000FFFFFF (.tretRetry k (w.extractLsb' 32 8) (w.extractLsb' 24 8))
    else if w.extractLsb' 40 2 == 1 then
      ifZero w 0x0000FC0000FFFFFF (.tretSkip k (w.extractLsb' 32 8) (w.extractLsb' 24 8))
    else if w.extractLsb' 40 2 == 2 then
      ifZero w 0x0000FC000000FFFF (.tretRedirect k (w.extractLsb' 32 8) (w.extractLsb' 24 8) (w.extractLsb' 16 8))
    else none
  | 0xD1 => ifZero w 0x0000FE0000FFFF00 (.crd k (bitAt w 40) (w.extractLsb' 32 8) (w.extractLsb' 24 8) (w.extractLsb' 0 8))
  | 0xD2 =>
    if w.extractLsb' 40 1 == 1 && w.extractLsb' 0 8 == 0x00 then
      ifZero w 0x0000FE000000FF00 (.cwrStateCreate k (w.extractLsb' 32 8) (w.extractLsb' 24 8) (w.extractLsb' 16 8))
    else if w.extractLsb' 40 1 == 0 && w.extractLsb' 0 8 == 0x01 then
      ifZero w 0x0000FE00FF00FF00 (.cwrKqsize k (w.extractLsb' 32 8) (w.extractLsb' 16 8))
    else if w.extractLsb' 40 1 == 0 && w.extractLsb' 0 8 == 0x02 then
      ifZero w 0x0000FE00FF00FF00 (.cwrKqhead k (w.extractLsb' 32 8) (w.extractLsb' 16 8))
    else if w.extractLsb' 40 1 == 1 && w.extractLsb' 0 8 == 0x0D then
      ifZero w 0x0000FE000000FF00 (.cwrPreempt k (w.extractLsb' 32 8) (w.extractLsb' 24 8) (w.extractLsb' 16 8))
    else if w.extractLsb' 40 1 == 1 && w.extractLsb' 0 8 == 0x0A then
      ifZero w 0x0000FE000000FF00 (.cwrBcores k (w.extractLsb' 32 8) (w.extractLsb' 24 8) (w.extractLsb' 16 8))
    else if w.extractLsb' 40 1 == 1 && w.extractLsb' 0 8 == 0x19 then
      ifZero w 0x0000FE000000FF00 (.cwrTrsize k (w.extractLsb' 32 8) (w.extractLsb' 24 8) (w.extractLsb' 16 8))
    else ifZero w 0x0000FE000000FF00 (.cwr k (bitAt w 40) (w.extractLsb' 32 8) (w.extractLsb' 24 8) (w.extractLsb' 16 8) (w.extractLsb' 0 8))
  | 0xD3 =>
    if w.extractLsb' 40 3 == 0 then
      ifZero w 0x0000F8000000FFFF (.tlbinvPage k (w.extractLsb' 32 8) (w.extractLsb' 24 8) (w.extractLsb' 16 8))
    else if w.extractLsb' 40 3 == 1 then
      ifZero w 0x0000F800FF00FFFF (.tlbinvContext k (w.extractLsb' 32 8) (w.extractLsb' 16 8))
    else if w.extractLsb' 40 3 == 2 then
      ifZero w 0x0000F800FFFFFFFF (.tlbinvAll k (w.extractLsb' 32 8))
    else if w.extractLsb' 40 2 == 3 then
      ifZero w 0x0000F800000000FF (.tlbinvRange k (bitAt w 42) (w.extractLsb' 32 8) (w.extractLsb' 24 8) (w.extractLsb' 16 8) (w.extractLsb' 8 8))
    else none
  | 0xD4 => ifZero w 0x0000FF0000FFFFFF (.pfres k (w.extractLsb' 32 8) (w.extractLsb' 24 8))
  | 0xD5 =>
    if w.extractLsb' 45 3 == 6 then
      ifZero w 0x00001F00FFFFFFFF (.errinjDisarm k (w.extractLsb' 32 8))
    else ifZero w 0x00001F0000FFFFFF (.errinj k (w.extractLsb' 45 3) (w.extractLsb' 32 8) (w.extractLsb' 24 8))
  | 0xD6 => ifZero w 0x0000FC000000FFFF (.psplit k (w.extractLsb' 40 2) (w.extractLsb' 32 8) (w.extractLsb' 24 8) (w.extractLsb' 16 8))
  | 0xD7 => ifZero w 0x0000FF000000FFFF (.haltg k (w.extractLsb' 32 8) (w.extractLsb' 24 8) (w.extractLsb' 16 8))
  | 0xD8 => ifZero w 0x0000FF000000FFFF (.resumeg k (w.extractLsb' 32 8) (w.extractLsb' 24 8) (w.extractLsb' 16 8))
  | _ => none

/-- The POOL opcodes (chapter 17). -/
def decodePool (w : W64) (k : Ctl) : Option Instr :=
  match (opOf w).toNat with
  | 0xE0 =>
    if w.extractLsb' 45 3 == 0 then
      ifZero w 0x00001F0000FFFFFF (.kseqNew k (w.extractLsb' 32 8) (w.extractLsb' 24 8))
    else if w.extractLsb' 45 3 == 1 then
      ifZero w 0x00001F0000FFFFFF (.kseqFree k (w.extractLsb' 32 8) (w.extractLsb' 24 8))
    else if w.extractLsb' 45 3 == 3 then
      ifZero w 0x00001F0000FFFFFF (.kseqPfree k (w.extractLsb' 32 8) (w.extractLsb' 24 8))
    else if w.extractLsb' 45 3 == 4 then
      ifZero w 0x00001F0000FFFFFF (.kseqPquery k (w.extractLsb' 32 8) (w.extractLsb' 24 8))
    else if w.extractLsb' 45 3 == 2 then
      ifZero w 0x00001F000000FFFF (.kseqPinit k (w.extractLsb' 32 8) (w.extractLsb' 24 8) (w.extractLsb' 16 8))
    else none
  | 0xE1 => ifZero w 0x00007F000000FFFF (.kalloc k (bitAt w 47) (w.extractLsb' 32 8) (w.extractLsb' 24 8) (w.extractLsb' 16 8))
  | 0xE2 => ifZero w 0x0000FF000000FFFF (.ktrim k (w.extractLsb' 32 8) (w.extractLsb' 24 8) (w.extractLsb' 16 8))
  | 0xE3 => ifZero w 0x0000FF000000FF00 (.klook k (w.extractLsb' 32 8) (w.extractLsb' 24 8) (w.extractLsb' 16 8) (w.extractLsb' 0 8))
  | 0xE4 => ifZero w 0x0000FF000000FFFF (.kfree k (w.extractLsb' 32 8) (w.extractLsb' 24 8) (w.extractLsb' 16 8))
  | _ => none

/-- The fields of a word as an instruction, before the field checks of `Instr.wf`. -/
def decodeRaw (w : W64) : Option Instr :=
  match clsOf (opOf w).toNat with
  | some .int => decodeInt w (ctlOf w)
  | some .vec => decodeVec w (ctlOf w)
  | some .mem => decodeMem w (ctlOf w)
  | some .sync => decodeSync w (ctlOf w)
  | some .copy => decodeCopy w (ctlOf w)
  | some .mtx => decodeMtx w (ctlOf w)
  | some .tap => decodeTap w (ctlOf w)
  | some .task => decodeTask w (ctlOf w)
  | some .sys => decodeSys w (ctlOf w)
  | some .pool => decodePool w (ctlOf w)
  | none => none

/-- The instruction that a word encodes, or the encoding fault it raises (02 R40, R41). The two writes of the STATE
register share one word, which reads as `cwrStateCreate`; its meaning looks at the written value. -/
def decode (w : W64) : Decoded :=
  match clsOf (opOf w).toNat with
  | none => .reject .illop
  | some _ =>
    match decodeRaw w with
    | some i => if i.wf then .instr i else .reject .illenc
    | none => .reject .illenc

/-- The little-endian 64-bit value of the first eight bytes of a list (00 R3, 02 R18). -/
def wordOfBytes (bs : List Byte) : W64 :=
  BitVec.ofNat 64 ((bs.take 8).foldr (fun b acc => b.toNat + 256 * acc) 0)

/-- The eight bytes of a word, the least significant first (00 R3). -/
def bytesOfWord (w : W64) : List Byte := (List.range 8).map (fun n => w.extractLsb' (8 * n) 8)

/-- Decoding the bytes of a word as they stand in memory. -/
def decodeBytes (bs : List Byte) : Decoded := decode (wordOfBytes bs)

/-- The instruction that the decoder reads from a word given as a number. Every instruction is one 64-bit word
(02 R18), so bits above 63 name no bit of it. -/
def decodeTableWord (_nbits w : Nat) : Option Instr :=
  match decodeBytes (bytesOfWord (BitVec.ofNat 64 w)) with
  | .instr i => some i
  | .reject _ => none

/-! ### The encoder -/

/-- One bit of a field. -/
def bit (b : Bool) : BitVec 1 := BitVec.ofBool b
/-- Bits [55:48]: gn, gi, pk (02 R33). -/
def ctlBits (k : Ctl) : BitVec 8 := bit k.gn ++ k.gi ++ bit k.pk
/-- Format A (02 R35). -/
def fmtA (op : BitVec 8) (k : Ctl) (fn d a b c x : BitVec 8) : W64 := op ++ ctlBits k ++ fn ++ d ++ a ++ b ++ c ++ x
/-- Format I (02 R35). -/
def fmtI (op : BitVec 8) (k : Ctl) (fn d a : BitVec 8) (i : BitVec 24) : W64 := op ++ ctlBits k ++ fn ++ d ++ a ++ i
/-- Formats L and B (02 R35). -/
def fmtL (op : BitVec 8) (k : Ctl) (fn d : BitVec 8) (i : BitVec 32) : W64 := op ++ ctlBits k ++ fn ++ d ++ i
/-- Format M (02 R35). -/
def fmtM (op : BitVec 8) (k : Ctl) (fn d a : BitVec 8) (bq : BitVec 5) (cp : BitVec 2) (off : BitVec 17) : W64 :=
  op ++ ctlBits k ++ fn ++ d ++ a ++ bq ++ cp ++ off
/-- Format MA (02 R35). -/
def fmtMA (op : BitVec 8) (k : Ctl) (fn d a : BitVec 8) (bq : BitVec 5) (aop : BitVec 4) (off : BitVec 15) : W64 :=
  op ++ ctlBits k ++ fn ++ d ++ a ++ bq ++ aop ++ off

/-- The word of an instruction. An event has no word and encodes as the all-zero word, which is no instruction. -/
def encode : Instr → W64
  | .nop k => fmtA 0x01 k 0 0 0 0 0 0
  | .iadd k w sg sat d a b => fmtA 0x02 k (bit w ++ bit sg ++ bit sat ++ 0#5) d a b 0 0
  | .isub k w sg sat d a b => fmtA 0x03 k (bit w ++ bit sg ++ bit sat ++ 0#5) d a b 0 0
  | .iaddi k w sg sat d a i => fmtI 0x04 k (bit w ++ bit sg ++ bit sat ++ 0#5) d a i
  | .iaddw k sg sat d a b => fmtA 0x05 k (0#1 ++ bit sg ++ bit sat ++ 0#5) d a b 0 0
  | .imul k w sg sat d a b => fmtA 0x06 k (bit w ++ bit sg ++ bit sat ++ 0#5) d a b 0 0
  | .imulh k w sg d a b => fmtA 0x07 k (bit w ++ bit sg ++ 0#6) d a b 0 0
  | .imad k w sg sat d a b c => fmtA 0x08 k (bit w ++ bit sg ++ bit sat ++ 0#5) d a b c 0
  | .imadw k sg sat d a b c => fmtA 0x09 k (0#1 ++ bit sg ++ bit sat ++ 0#5) d a b c 0
  | .idiv k w sg d a b => fmtA 0x0A k (bit w ++ bit sg ++ 0#6) d a b 0 0
  | .irem k w sg d a b => fmtA 0x0B k (bit w ++ bit sg ++ 0#6) d a b 0 0
  | .imin k w sg d a b => fmtA 0x0C k (bit w ++ bit sg ++ 0#6) d a b 0 0
  | .imax k w sg d a b => fmtA 0x0D k (bit w ++ bit sg ++ 0#6) d a b 0 0
  | .iabsd k w sg d a b => fmtA 0x0E k (bit w ++ bit sg ++ 0#6) d a b 0 0
  | .lut3 k w d a b c x => fmtA 0x0F k (bit w ++ 0#7) d a b c x
  | .ishl k w im d a b x => fmtA 0x10 k (bit w ++ 0#2 ++ bit im ++ 0#4) d a b 0 x
  | .ishr k w sg im d a b x => fmtA 0x11 k (bit w ++ bit sg ++ 0#1 ++ bit im ++ 0#4) d a b 0 x
  | .fshl k im d a b c x => fmtA 0x12 k (0#3 ++ bit im ++ 0#4) d a b c x
  | .fshr k im d a b c x => fmtA 0x13 k (0#3 ++ bit im ++ 0#4) d a b c x
  | .bfx k w sg im d a c x => fmtA 0x14 k (bit w ++ bit sg ++ 0#1 ++ bit im ++ 0#4) d a 0 c x
  | .bfi k w im d a b c x => fmtA 0x15 k (bit w ++ 0#2 ++ bit im ++ 0#4) d a b c x
  | .popc k w d a => fmtA 0x16 k (bit w ++ 0#7) d a 0 0 0
  | .popb k w d a => fmtA 0x17 k (bit w ++ 0#7) d a 0 0 0
  | .clz k w d a => fmtA 0x18 k (bit w ++ 0#7) d a 0 0 0
  | .brev k w d a => fmtA 0x19 k (bit w ++ 0#7) d a 0 0 0
  | .isel k w d a b x => fmtA 0x1A k (bit w ++ 0#7) d a b 0 x
  | .mov k sz d a => fmtA 0x1B k (sz ++ 0#6) d a 0 0 0
  | .movi k mv d i => fmtL 0x1C k (mv ++ 0#6) d i
  | .icmp k w sg cb cc d a b => fmtA 0x1D k (bit w ++ bit sg ++ cb ++ cc ++ 0#1) d a b 0 0
  | .icmpi k w sg cb cc d a i => fmtI 0x1E k (bit w ++ bit sg ++ cb ++ cc ++ 0#1) d a i
  | .plut k d a b c x => fmtA 0x1F k 0 d a b c x
  | .pget k d x => fmtA 0x20 k 0 d 0 0 0 x
  | .pset k a b x => fmtA 0x21 k 0 0 a b 0 x
  | .perm k w mk pm d a b c x => fmtA 0x22 k (bit w ++ 0#2 ++ bit mk ++ pm ++ 0#2) d a b c x
  | .permx k mk d a b c x => fmtA 0x23 k (0#3 ++ bit mk ++ 0#4) d a b c x
  | .vote k mk vm d a c => fmtA 0x24 k (0#3 ++ bit mk ++ vm ++ 0#2) d a 0 c 0
  | .elect k mk d c => fmtA 0x25 k (0#3 ++ bit mk ++ 0#4) d 0 0 c 0
  | .gred k w sg mk gop d a c => fmtA 0x26 k (bit w ++ bit sg ++ 0#1 ++ bit mk ++ gop ++ 0#1) d a 0 c 0
  | .gscan k w sg mk gop ex d a c => fmtA 0x27 k (bit w ++ bit sg ++ 0#1 ++ bit mk ++ gop ++ bit ex) d a 0 c 0
  | .bra k tgt => fmtL 0x28 k 0 0 tgt
  | .brx k a => fmtA 0x29 k 0 0 a 0 0 0
  | .call k d tgt => fmtL 0x2A k 0 d tgt
  | .ret k a => fmtA 0x2B k 0 0 a 0 0 0
  | .rjarm k a x => fmtA 0x2C k 0 0 a 0 0 x
  | .rjoin k x => fmtA 0x2D k 0 0 0 0 0 x
  | .rjdrop k x => fmtA 0x2E k 0 0 0 0 0 x
  | .exit k => fmtA 0x2F k 0 0 0 0 0 0
  | .trap k i => fmtI 0x30 k 0 0 0 i
  | .gets k d i => fmtI 0x31 k 0 d 0 i
  | .sets k a i => fmtI 0x32 k 0 0 a i
  | .rclaim k i => fmtI 0x33 k 0 0 0 i
  | .rgive k i => fmtI 0x34 k 0 0 0 i
  | .rtry k d i => fmtI 0x35 k 0 d 0 i
  | .yield k => fmtA 0x36 k 0 0 0 0 0 0
  | .nap k i => fmtI 0x37 k 0 0 0 i
  | .prog k i => fmtI 0x38 k 0 0 0 i
  | .brk k i => fmtI 0x39 k 0 0 0 i
  | .trcmark k a i => fmtI 0x3A k 0 0 a i
  | .vget k d a b => fmtA 0x3B k 0 d a b 0 0
  | .vput k d a b => fmtA 0x3C k 0 d a b 0 0
  | .fadd k rm na nc d a b => fmtA 0x40 k (rm ++ bit na ++ bit nc ++ 0#4) d a b 0 0
  | .fmul k rm na d a b => fmtA 0x41 k (rm ++ bit na ++ 0#5) d a b 0 0
  | .ffma k rm na nc d a b c => fmtA 0x42 k (rm ++ bit na ++ bit nc ++ 0#4) d a b c 0
  | .fmin k d a b => fmtA 0x43 k 0 d a b 0 0
  | .fmax k d a b => fmtA 0x44 k 0 d a b 0 0
  | .fcmp k cb cc d a b => fmtA 0x45 k (0#2 ++ cb ++ cc ++ 0#1) d a b 0 0
  | .fdiv k rm d a b => fmtA 0x46 k (rm ++ 0#6) d a b 0 0
  | .frcp k rm d a => fmtA 0x47 k (rm ++ 0#6) d a 0 0 0
  | .frsq k rm d a => fmtA 0x48 k (rm ++ 0#6) d a 0 0 0
  | .fsqrt k rm d a => fmtA 0x49 k (rm ++ 0#6) d a 0 0 0
  | .fexp2 k rm d a => fmtA 0x4A k (rm ++ 0#6) d a 0 0 0
  | .flog2 k rm d a => fmtA 0x4B k (rm ++ 0#6) d a 0 0 0
  | .fsinpi k rm d a => fmtA 0x4C k (rm ++ 0#6) d a 0 0 0
  | .fcospi k rm d a => fmtA 0x4D k (rm ++ 0#6) d a 0 0 0
  | .frnd k rm d a => fmtA 0x4E k (rm ++ 0#6) d a 0 0 0
  | .fscale k rm d a b => fmtA 0x4F k (rm ++ 0#6) d a b 0 0
  | .hadd2 k rm hf d a b => fmtA 0x50 k (rm ++ bit hf ++ 0#5) d a b 0 0
  | .hmul2 k rm hf d a b => fmtA 0x51 k (rm ++ bit hf ++ 0#5) d a b 0 0
  | .hfma2 k rm hf d a b c => fmtA 0x52 k (rm ++ bit hf ++ 0#5) d a b c 0
  | .hmax2 k hf mn d a b => fmtA 0x53 k (0#2 ++ bit hf ++ bit mn ++ 0#4) d a b 0 0
  | .cvt k rm src dst d a x => fmtA 0x54 k (rm ++ src ++ dst) d a 0 0 x
  | .cvtp k rm hf d a b => fmtA 0x55 k (rm ++ bit hf ++ 0#5) d a b 0 0
  | .cvtq k rm fmt sat sc d a c x => fmtA 0x56 k (rm ++ fmt ++ bit sat ++ 0#1 ++ bit sc) d a 0 c x
  | .cvto k rm fmt sc d a b c x => fmtA 0x57 k (rm ++ fmt ++ 0#2 ++ bit sc) d a b c x
  | .cvtx k rm fmt sc d a c x => fmtA 0x58 k (rm ++ fmt ++ 0#2 ++ bit sc) d a 0 c x
  | .dotI8 k d a b c => fmtA 0x59 k 0 d a b c 0
  | .dotZ8 k d a b c => fmtA 0x5A k 0 d a b c 0
  | .dotE4m3 k rm d a b c => fmtA 0x5B k (rm ++ 0#6) d a b c 0
  | .dotE5m2 k rm d a b c => fmtA 0x5C k (rm ++ 0#6) d a b c 0
  | .dotI4 k d a b c => fmtA 0x5D k 0 d a b c 0
  | .dotE2m1 k rm d a b c => fmtA 0x5E k (rm ++ 0#6) d a b c 0
  | .dotsE4m3 k rm d a b c x => fmtA 0x5F k (rm ++ 0#6) d a b c x
  | .dotsE5m2 k rm d a b c x => fmtA 0x60 k (rm ++ 0#6) d a b c x
  | .dotsE2m1 k rm d a b c x => fmtA 0x61 k (rm ++ 0#6) d a b c x
  | .dotsI8 k rm d a b c x => fmtA 0x62 k (rm ++ 0#6) d a b c x
  | .dot2Bf16 k rm d a b c => fmtA 0x63 k (rm ++ 0#6) d a b c 0
  | .dot2F16 k rm d a b c => fmtA 0x64 k (rm ++ 0#6) d a b c 0
  | .ld k ord scope size d a bq cp off => fmtM 0x70 k (ord ++ scope ++ size) d a bq cp off
  | .st k ord scope size d a bq cp off => fmtM 0x71 k (ord ++ scope ++ size) d a bq cp off
  | .atom k ord scope size d a bq aop off => fmtMA 0x72 k (ord ++ scope ++ size) d a bq aop off
  | .atomn k ord scope size d a bq aop off => fmtMA 0x73 k (ord ++ scope ++ size) d a bq aop off
  | .cas k ord scope size d a bq cp off => fmtM 0x74 k (ord ++ scope ++ size) d a bq cp off
  | .fence k ord scope => fmtM 0x75 k (ord ++ scope ++ 0#3) 0 0 0 0 0
  | .scfence k scope => fmtM 0x76 k (0#2 ++ scope ++ 0#3) 0 0 0 0 0
  | .bset k d a => fmtA 0x77 k 0 d a 0 0 0
  | .bget k d a => fmtA 0x78 k 0 d a 0 0 0
  | .pref k size a bq cp off => fmtM 0x79 k (0#5 ++ size) 0 a bq cp off
  | .binit k g d a b c => fmtA 0x90 k (bit g ++ 0#7) d a b c 0
  | .bjoin k g d a => fmtA 0x91 k (bit g ++ 0#7) d a 0 0 0
  | .barr k g d a => fmtA 0x92 k (bit g ++ 0#7) d a 0 0 0
  | .bwait k g d a b => fmtA 0x93 k (bit g ++ 0#7) d a b 0 0
  | .barw k g d a => fmtA 0x94 k (bit g ++ 0#7) d a 0 0 0
  | .bdrop k g d a => fmtA 0x95 k (bit g ++ 0#7) d a 0 0 0
  | .binv k g d a => fmtA 0x96 k (bit g ++ 0#7) d a 0 0 0
  | .bqry k g d a x => fmtA 0x97 k (bit g ++ 0#7) d a 0 0 x
  | .rginit k d a => fmtA 0x98 k (0#1 ++ 0#1 ++ 0#6) d a 0 0 0
  | .rginitFree k d a => fmtA 0x98 k (0#1 ++ 1#1 ++ 0#6) d a 0 0 0
  | .slacq k nb d a => fmtA 0x99 k (0#1 ++ bit nb ++ 0#6) d a 0 0 0
  | .slfil k a b c => fmtA 0x9A k 0 0 a b c 0
  | .sltak k nb d a => fmtA 0x9B k (0#1 ++ bit nb ++ 0#6) d a 0 0 0
  | .slrel k a b => fmtA 0x9C k 0 0 a b 0 0
  | .cpy k dk ad bc d a b c x => fmtA 0xA0 k (dk ++ ad ++ bit bc ++ 0#1) d a b c x
  | .cpyg k dk ad bc d a b c x => fmtA 0xA1 k (dk ++ ad ++ bit bc ++ 0#1) d a b c x
  | .cpys k dk ad bc d a b c x => fmtA 0xA2 k (dk ++ ad ++ bit bc ++ 0#1) d a b c x
  | .cpyf k dk ad bc d a b c x => fmtA 0xA3 k (dk ++ ad ++ bit bc ++ 0#1) d a b c x
  | .cseal k d => fmtA 0xA4 k 0 d 0 0 0 0
  | .cwait k d a => fmtA 0xA5 k 0 d a 0 0 0
  | .cpoll k d => fmtA 0xA6 k 0 d 0 0 0 0
  | .mclaim k kd nb d a b => fmtA 0xA8 k (kd ++ bit nb ++ 0#5) d a b 0 0
  | .mrel k kd d a b => fmtA 0xA9 k (kd ++ 0#6) d a b 0 0
  | .mbaton k d => fmtA 0xAA k 0 d 0 0 0 0
  | .mpass k d a => fmtA 0xAB k 0 d a 0 0 0
  | .mzero k ik d => fmtA 0xAC k (bit ik ++ 0#7) d 0 0 0 0
  | .mmaBf16 k sc rk tr mt a b c x => fmtA 0xAD k (bit sc ++ bit rk ++ bit tr ++ mt ++ 0#2) 0 a b c x
  | .mmaF16 k sc rk tr mt a b c x => fmtA 0xAE k (bit sc ++ bit rk ++ bit tr ++ mt ++ 0#2) 0 a b c x
  | .mmaE4m3 k sc rk tr mt a b c x => fmtA 0xAF k (bit sc ++ bit rk ++ bit tr ++ mt ++ 0#2) 0 a b c x
  | .mmaE5m2 k sc rk tr mt a b c x => fmtA 0xB0 k (bit sc ++ bit rk ++ bit tr ++ mt ++ 0#2) 0 a b c x
  | .mmaE2m1 k sc rk tr mt a b c x => fmtA 0xB1 k (bit sc ++ bit rk ++ bit tr ++ mt ++ 0#2) 0 a b c x
  | .mmaI8 k sc rk tr mt a b c x => fmtA 0xB2 k (bit sc ++ bit rk ++ bit tr ++ mt ++ 0#2) 0 a b c x
  | .mmaI4 k sc rk tr mt a b c x => fmtA 0xB3 k (bit sc ++ bit rk ++ bit tr ++ mt ++ 0#2) 0 a b c x
  | .mdrain k ad rk d a b x => fmtA 0xB4 k (bit ad ++ bit rk ++ 0#6) d a b 0 x
  | .mrd k d a x => fmtA 0xB5 k 0 d a 0 0 x
  | .mmask k pa d a b => fmtA 0xB6 k (bit pa ++ 0#7) d a b 0 0
  | .msync k bk => fmtA 0xB7 k (bit bk ++ 0#7) 0 0 0 0 0
  | .tapin k d a b c x => fmtA 0xB8 k 0 d a b c x
  | .tapw k d a b => fmtA 0xB9 k 0 d a b 0 0
  | .taprm k hm d a => fmtA 0xBA k (bit hm ++ 0#7) d a 0 0 0
  | .trel k a b => fmtA 0xBB k 0 0 a b 0 0
  | .tapsync k al a => fmtA 0xBC k (bit al ++ 0#7) 0 a 0 0 0
  | .jpost k d a => fmtA 0xC0 k 0 d a 0 0 0
  | .jrec k d x => fmtA 0xC1 k 0 d 0 0 0 x
  | .jhint k => fmtA 0xC2 k 0 0 0 0 0 0
  | .jpwait k d => fmtA 0xC3 k 0 d 0 0 0 0
  | .finit k a => fmtA 0xC4 k 0 0 a 0 0 0
  | .fwr k a b => fmtA 0xC5 k 0 0 a b 0 0
  | .frd k d a x => fmtA 0xC6 k 0 d a 0 0 x
  | .scopen k xc d a b c => fmtA 0xC7 k (bit xc ++ 0#7) d a b c 0
  | .sccan k xc d a c => fmtA 0xC8 k (bit xc ++ 0#7) d a 0 c 0
  | .scack k xc d a c => fmtA 0xC9 k (bit xc ++ 0#7) d a 0 c 0
  | .scqry k xc d a c => fmtA 0xCA k (bit xc ++ 0#7) d a 0 c 0
  | .tretRetry k d a => fmtA 0xD0 k (0#6 ++ 0#2) d a 0 0 0
  | .tretSkip k d a => fmtA 0xD0 k (0#6 ++ 1#2) d a 0 0 0
  | .tretRedirect k d a b => fmtA 0xD0 k (0#6 ++ 2#2) d a b 0 0
  | .crd k bk d a x => fmtA 0xD1 k (0#7 ++ bit bk) d a 0 0 x
  | .cwr k bk d a b x => fmtA 0xD2 k (0#7 ++ bit bk) d a b 0 x
  | .cwrStateCreate k d a b => fmtA 0xD2 k (0#7 ++ 1#1) d a b 0 0x00
  | .cwrStateRemove k d a b => fmtA 0xD2 k (0#7 ++ 1#1) d a b 0 0x00
  | .cwrKqsize k d b => fmtA 0xD2 k (0#7 ++ 0#1) d 0 b 0 0x01
  | .cwrKqhead k d b => fmtA 0xD2 k (0#7 ++ 0#1) d 0 b 0 0x02
  | .cwrPreempt k d a b => fmtA 0xD2 k (0#7 ++ 1#1) d a b 0 0x0D
  | .cwrBcores k d a b => fmtA 0xD2 k (0#7 ++ 1#1) d a b 0 0x0A
  | .cwrTrsize k d a b => fmtA 0xD2 k (0#7 ++ 1#1) d a b 0 0x19
  | .tlbinvPage k d a b => fmtA 0xD3 k (0#5 ++ 0#3) d a b 0 0
  | .tlbinvContext k d b => fmtA 0xD3 k (0#5 ++ 1#3) d 0 b 0 0
  | .tlbinvAll k d => fmtA 0xD3 k (0#5 ++ 2#3) d 0 0 0 0
  | .tlbinvRange k sp d a b c => fmtA 0xD3 k (0#5 ++ bit sp ++ 3#2) d a b c 0
  | .pfres k d a => fmtA 0xD4 k 0 d a 0 0 0
  | .errinj k ek d a => fmtA 0xD5 k (ek ++ 0#5) d a 0 0 0
  | .errinjDisarm k d => fmtA 0xD5 k (6#3 ++ 0#5) d 0 0 0 0
  | .psplit k ps d a b => fmtA 0xD6 k (0#6 ++ ps) d a b 0 0
  | .haltg k d a b => fmtA 0xD7 k 0 d a b 0 0
  | .resumeg k d a b => fmtA 0xD8 k 0 d a b 0 0
  | .kseqNew k d a => fmtA 0xE0 k (0#3 ++ 0#5) d a 0 0 0
  | .kseqFree k d a => fmtA 0xE0 k (1#3 ++ 0#5) d a 0 0 0
  | .kseqPfree k d a => fmtA 0xE0 k (3#3 ++ 0#5) d a 0 0 0
  | .kseqPquery k d a => fmtA 0xE0 k (4#3 ++ 0#5) d a 0 0 0
  | .kseqPinit k d a b => fmtA 0xE0 k (2#3 ++ 0#5) d a b 0 0
  | .kalloc k cl d a b => fmtA 0xE1 k (bit cl ++ 0#7) d a b 0 0
  | .ktrim k d a b => fmtA 0xE2 k 0 d a b 0 0
  | .klook k d a b x => fmtA 0xE3 k 0 d a b 0 x
  | .kfree k d a b => fmtA 0xE4 k 0 d a b 0 0
  | .gatheringComplete _ _ _ => 0
  | .claimGrant _ _ => 0
  | .regdead _ => 0
  | .napWake _ _ _ => 0
  | .loadResultReturn _ => 0
  | .walk _ _ _ _ => 0
  | .copyCommandStart _ => 0
  | .ringnextSlotTake _ => 0
  | .copyElementLand _ _ => 0
  | .remoteCommand _ _ _ _ => 0
  | .remoteTimeout _ => 0
  | .matrixPass _ => 0
  | .drainExecute _ => 0
  | .eval _ _ => 0
  | .watchDelivery _ _ _ => 0
  | .killStop _ _ _ => 0
  | .scackComplete _ _ => 0
  | .blockLaunch _ _ _ => 0
  | .bundleDraw _ _ => 0
  | .arrivalQueueFile _ => 0
  | .clauseBegin _ => 0
  | .blockRetire _ => 0
  | .jobComplete _ _ => 0
  | .save _ => 0
  | .trapEntryWrite => 0
  | .restore _ _ => 0
  | .engineReplyReturn _ => 0
  | .heartbeatTick => 0
  | .scfenceRelease => 0
  | .wdog _ _ => 0
  | .periodBoundary => 0
  | .powerEstimate _ _ => 0
  | .thermalTrip _ => 0
  | .thermalRecover _ => 0
  | .unitDegrade _ => 0
  | .checkpoint _ => 0
  | .rollback _ => 0
  | .contextLoss _ => 0
  | .warmReset _ => 0
  | .coldReset => 0
  | .scrub _ => 0
  | .queueEntryTake _ => 0
  | .qtail _ _ => 0
  | .qsize _ _ => 0
  | .qstate _ _ => 0
  | .nsize _ _ => 0
  | .nhead _ _ => 0
  | .queueRegisterWrite _ _ _ => 0
  | .notificationWrite _ => 0
  | .plimit _ => 0
  | .attestationReport _ => 0
  | .hostMeasurement _ _ => 0
  | .storePerformed _ => 0
  | .atomicReply _ => 0
  | .remoteAcknowledgement _ => 0
  | .hostDeviceMemoryAccess _ => 0
  | .saveCopyBound _ => 0
  | .walkRoutineLoad _ _ => 0

/-- The class code of a class (02 R19). -/
def Cls.code : Cls → BitVec 4
  | .int => 0 | .vec => 1 | .mem => 2 | .sync => 3 | .copy => 4 | .mtx => 5 | .tap => 6 | .task => 7 | .pool => 8 | .sys => 9
/-- The word of a header (02 R20). -/
def encodeHeader (h : Header) : W64 :=
  0xA#4 ++ h.cls.code ++ BitVec.ofNat 4 h.n ++ bit h.rf ++ h.waits ++ bit h.yl ++ 0#43

end Sys2Proof
end

