-- ==== Sys2Proof/Machine/State.lean ====
section
/-! DEFINITION. The state of the machine as plain data: threads, gangs, blocks, bundles, engines, the task engine, the
contexts, the device bank and the host interface, with the state after reset. Lists stand for collections; a sparse map
lists only the entries that differ from its default, keys rising. -/

namespace Sys2Proof.Machine

/-- Entries by key, keys rising, no entry equal to the default of the map. -/
abbrev Sparse (β : Type) := List (Nat × β)

/-- The words of a fetched clause (02 R18, R22). -/
structure Clause where
  cls : Cls
  words : List W64
  deriving DecidableEq, Repr

/-- A place in a program: a header, and inside a fetched clause the number of the next instruction word. -/
structure Place where
  hdr : W64
  clause : Option Clause
  idx : Nat
  deriving DecidableEq, Repr

/-- A trap cause with its record: TRCAUSE, TRPC, TRINFO, access kind, earlier party, and the tag of the buffer record
that the access named (08 R158, R163, 11 R235, R239). -/
structure FaultRec where
  cause : BitVec 8
  pc : W64
  info : W64
  kind : BitVec 8
  party : W64
  tag : BitVec 16
  deriving DecidableEq, Repr

/-- A queued WATCH trap (19 R354). -/
structure WatchTrap where
  slot : Nat
  pos : W32
  tap : Nat
  feat : Nat
  val : W32
  rule : Nat
  row : Nat
  trec : Nat
  rechecks : Nat
  handler : W64
  deriving DecidableEq, Repr

/-- A barrier object by its place: the offset in a block's scratchpad, or the physical address (12 R252). -/
structure BarRef where
  grp : Bool
  blk : Nat
  addr : Nat
  deriving DecidableEq, Repr

/-- An entry of a thread's join list (12 R258): the barrier, and the offset or virtual address it was named by. -/
structure JoinRef where
  ref : BarRef
  named : W64
  deriving DecidableEq, Repr

/-- What a thread waits for (06, 10, 11 R242, 12, 14, 15, 19). A destination is none where another thread of the issue
decides an s register (05 R94); `accept` is the wait for queue entries of the copy engine (14 R282), `give` is RGIVE's
wait for results after its gathering (06 R130); `scfence` holds the heartbeat at which the core had performed its
accesses, none before (08 R182); `over` is a wait at a group barrier that is decided while its block is saved, or at the
very rollback that enters it again, with the status that it gives (12 R256). -/
inductive Wait where
  | none
  | gather (i : Instr) (at_ : W64) (mask : W32) (active : Bool)
  | give (n : BitVec 24) (at_ : W64) (active : Bool)
  | claim (n : Nat)
  | rjoin (k : Nat) (at_ : Place)
  | jpwait (d : Option Reg)
  | barrier (ref : BarRef) (n : W32) (d : Option Reg)
  | over (status : Nat) (d : Option Reg)
  | ring (id : Nat) (fill : Bool) (issue : Nat) (d : Reg)
  | tapw (trec : Nat) (mask : W64) (d : Option Reg)
  | baton (d : Reg)
  | mclaim (kd f n no : Nat) (d : Reg)
  | scfence (since : Option W64)
  | accept
  | cwait (n : BitVec 16) (d : Option Reg)
  | nap
  | exit
  | halt (ctx serial : Nat) (blk : Option Nat) (d : Option Reg)
  deriving DecidableEq, Repr

/-- A sealed copy batch that is not complete or has an error not yet reported (14 R287, R289). -/
structure Batch where
  num : BitVec 16
  err : Bool
  deriving DecidableEq, Repr

/-- The blocks that the scope of a release covers with its own block at the time of the release (08 R167): all of the
device, or those listed. -/
inductive Cover where
  | all
  | blocks (uids : List Nat)
  deriving DecidableEq, Repr

/-- The tag of a checked global word: its writer with the release count at the write, whether the write was atomic, and
what it covered where it was a release (08 R167, R173, R179). -/
structure GTag where
  blk : Nat
  count : Nat
  atomic : Bool
  rel : Option Cover
  deriving DecidableEq, Repr

/-- A thread: its registers, its place, its trap state and what it waits for (05, 11 R243). `rewait` is the counted
BARW wait that it enters again when it returns from a WATCH (19 R354); `waited` counts the ticks of its wait, and
`ended` says that a wait has ended since the last tick (23 R395); `left` says that its last blocking wait has ended
and that its bundle has not gone on since, so that it still stands at that kill point unless it is `past` it, parked
inside its clause (02 R23); `flip` is an armed error that lands in a register with the result of its wait, of one bit or
two (21 R384); `relNext` is the scope at which its next write is a release after a fence, `lastRd` holds the tags that its
last read met (08 R173, R174, R179). -/
structure Thread where
  blk : Nat
  gang : Nat
  lane : Nat
  v : Sparse W32
  p : BitVec 48
  pc : W64
  fpflags : BitVec 5
  trcause : W32
  trpc : W64
  trinfo : W64
  wrec : BitVec 256
  handling : Bool
  resume : Place
  fault : Option FaultRec
  wait : Wait
  parked : Bool
  batch : BitVec 16
  openErr : Bool
  sealed : List Batch
  joins : List JoinRef
  watchq : List WatchTrap
  rewait : Wait
  waited : Nat
  ended : Bool
  left : Bool
  past : Bool
  flip : Option (Nat × Bool)
  relNext : Option Nat
  lastRd : List GTag
  deriving DecidableEq, Repr

/-- A gang: uniform registers, role, register units, rejoin masks (05, 06). -/
structure Gang where
  blk : Nat
  num : Nat
  role : Nat
  base : Nat
  ext : Nat
  s : Sparse W64
  armed : Sparse W32
  arrived : Sparse W32
  deriving DecidableEq, Repr

/-- A race tag of a scratchpad word: an access of the interval (08 R177). -/
structure Tag where
  gang : Nat
  lane : Nat
  write : Bool
  plain : Bool
  issue : Nat
  deriving DecidableEq, Repr

/-- Where an access goes: a physical byte address of global memory, or an offset in a block's scratchpad. -/
inductive Space where
  | glob
  | scratch (blk : Nat)
  deriving DecidableEq, Repr

/-- What goes with an access until it is performed: what its trace record needs (23 R390), the opcode for a machine-check
record (21 R370), and the tag that a checked write leaves (08 R179, R185). `no` is the number of the issue: the same for
both halves of a 128-bit store. `keep` are the bits of the value that the write leaves as they stand (19 R345), `scope` the
scope at which the write is a release, none for another (08 R173). -/
structure StoreInfo where
  va : W64
  pc : W64
  op : Nat
  tag : BitVec 16
  size : Nat
  mark : Option GTag
  no : Nat
  keep : Nat := 0
  scope : Option Nat := none
  deriving DecidableEq, Repr

/-- A store in the store-hold queue (08 R185, 21 R376); `more` marks the second half of a 128-bit store, which shares the
entry of the first. -/
structure Held where
  gang : Nat
  lane : Nat
  pa : Nat
  bytes : List Byte
  info : StoreInfo
  more : Bool
  deriving DecidableEq, Repr

/-- Checked storage of a block besides its v registers (21 R368): a uniform register, the predicates of a thread, a record,
a 64-bit word of scratchpad or of an operand slot, an accumulator, a mask tile, the block's cellar lines, its held stores,
and the data paths of its copies, of its small matrix operations and of its evaluations, whose next element, operation or
evaluation then fails its parity or its residue. -/
inductive ErrAt where
  | sreg (gang n : Nat)
  | preds (gang lane : Nat)
  | record (n : Nat)
  | scratch (word : Nat)
  | opmem (slot word : Nat)
  | acc (n : Nat)
  | mask (n : Nat)
  | cellar
  | hold
  | copyPath
  | arrayPath
  | sievePath
  deriving DecidableEq, Repr

/-- An error that stands in checked storage: a single bit, or two (21 R368, R369). -/
structure StoreErr where
  place : ErrAt
  dbl : Bool
  deriving DecidableEq, Repr

/-- Where a block stands (11 R241, 21 R378, 23 R394). -/
inductive BStatus where
  | running
  | saved (ticket : Nat)
  | inPlace (ticket : Nat)
  deriving DecidableEq, Repr

/-- A save that has been asked for and not yet made (11 R240). `fromPreempt` separates the triggers that a rollback
takes up again from those it drops (21 R380); `first` is the thread that began it, with the fault that it began it for. -/
structure SaveReq where
  reason : Nat
  first : Option (Nat × Nat × FaultRec)
  fromPreempt : Bool
  bounded : Bool
  deriving DecidableEq, Repr

/-- A machine check that waits for rollback or escalation (21 R370, R380). `ladder` is the first step that it may take:
1 where a rollback covers it, 2 where none can, 3 in state of a context. `cycle` is CYCLE of the core at the check. -/
structure MCheck where
  cycle : W64
  cause : BitVec 8
  pc : W64
  addr : W64
  gang : Nat
  lane : Nat
  op : Nat
  unit : Nat
  check : Nat
  acc : Nat
  rc : Nat
  ladder : Nat
  residue : Option Nat
  deriving DecidableEq, Repr

/-- The armed error of a block (21 R383). -/
structure Arm where
  ek : Nat
  count : Nat
  bit : Nat
  gang : Nat
  thread : Nat
  op : Nat
  deriving DecidableEq, Repr

/-- A block (05, 08, 10, 11, 12, 21). `chkKill` says that a machine check has killed it (21 R380 step 2); `granules` are
those of its scratchpad that have been written since its launch (11 R243). -/
structure Block where
  uid : Nat
  ctx : Nat
  serial : Nat
  num : Nat
  core : Nat
  flags : BitVec 4
  scope : Nat
  prio : Nat
  cap : Nat
  slots : Nat
  ngang : Nat
  glevel : Nat
  group : Nat
  ssize : Nat
  scratch : Sparse Byte
  granules : List Nat
  recs : Sparse (BitVec 256)
  mtol : W32
  rbcount : W32
  chunkNext : Nat
  chunkEnd : Nat
  dry : Bool
  hinted : Bool
  interval : Nat
  tags : Sparse (List Tag)
  rel : Nat
  acq : Sparse Nat
  status : BStatus
  saveReq : Option SaveReq
  halted : Bool
  killed : Bool
  hold : List Held
  revocable : Bool
  failed : Bool
  image : Bool
  dirtyRows : List (Nat × Nat)
  dirtyLines : List Nat
  dirtyAccs : List Nat
  dirtyMasks : List Nat
  mcheck : List MCheck
  ckptDue : Bool
  chkKill : Bool
  arm : Option Arm
  bad : List (Nat × Nat × Nat × Bool)
  errs : List StoreErr
  stall : Sparse W32
  deriving DecidableEq, Repr

/-- A bundle, or one path of a split bundle: members by lane position, and the place they stand at (05 R81-R84). `mid`
says that the instruction there has issued and that some member still waits in it; `since` orders set-aside paths by the
time they were set aside; `yielded` that another ready bundle goes first (02 R32, 06 R125); `redo` names the members for
which a re-formed bundle issues its instruction again, all where it is empty (02 R24). -/
structure Bundle where
  id : Nat
  fam : Nat
  blk : Nat
  role : Nat
  mem : List (Nat × Nat)
  place : Place
  drawn : Bool
  aside : Bool
  stalled : Bool
  mid : Bool
  since : Nat
  yielded : Bool
  redo : List (Nat × Nat)
  deriving DecidableEq, Repr

/-- A filed thread with its place in the order of filing (05 R80, R81). -/
structure Filed where
  gang : Nat
  lane : Nat
  no : Nat
  deriving DecidableEq, Repr

/-- A bin of threads filed at one header, in filing order (05 R80). -/
structure Bin where
  id : Nat
  core : Nat
  blk : Nat
  role : Nat
  hdr : W64
  filed : List Filed
  deriving DecidableEq, Repr

/-- A thread in a core's arrival queue (05 R80). -/
structure Arrival where
  core : Nat
  blk : Nat
  role : Nat
  hdr : W64
  lane : Nat
  gang : Nat
  deriving DecidableEq, Repr

/-- The classes of outstanding results, in the order of the wait mask (02 R29); a pending fence is in no class. -/
inductive OCls where
  | ld | st | at_ | cp | mx | tp | en | fence
  deriving DecidableEq, Repr

/-- The operation that an outstanding result waits for; `half` is the low half of an s register (09 R196), `order` what a
dropped release leaves, which orders every earlier access before every later one (08 R165). -/
inductive OOp where
  | load (sp : Space) (addr len : Nat) (val : Option (BitVec 128)) (d : Reg) (sz : Nat) (info : StoreInfo)
  | store (sp : Space) (addr : Nat) (bytes : List Byte) (info : StoreInfo)
  | atom (sp : Space) (addr : Nat) (size aop : Nat) (data : W64) (ret : Bool) (d : Reg) (info : StoreInfo)
  | cas (sp : Space) (addr : Nat) (size : Nat) (cmp new : BitVec 128) (ret : Bool) (d : Reg) (info : StoreInfo)
  | half (val : W32) (d : Reg)
  | reply (d : Reg) (wide : Nat) (val : W64) (pred : Option (Nat × Bool))
  | future (pa : Nat)
  | scack (ctx scope : Nat) (d : Reg) (w : Nat)
  | pool (d : Reg) (w : Nat) (pred : Option Nat)
  | matrix (mop : Nat) (d : Option Reg)
  | tapin (tap : Nat)
  | fence
  | order
  deriving DecidableEq, Repr

/-- One outstanding result of one thread (02 R29, R30), in the order of issue. `rel` and `acq` are the ordering of the
access (08 R173, R174); `flip` is an armed register error that lands with the result (21 R384). -/
structure Outst where
  id : Nat
  issue : Nat
  blk : Nat
  gang : Nat
  lane : Nat
  cls : OCls
  op : OOp
  rel : Bool
  acq : Bool
  flip : Nat
  deriving DecidableEq, Repr

/-- A typed barrier object with its counts (12 R252, R253). `ctx` is the context of the BINIT that typed it, `gen` a number
that is fresh each time it is typed (14 R284); `arrAt` keeps the release count of each joined block at its last arrival
(08 R179). -/
structure Bar where
  ref : BarRef
  ctx : Nat
  gen : Nat
  phase : W32
  earr : W32
  arrived : W32
  ebytes : W32
  landed : W32
  parts : W32
  waiters : W32
  broken : Bool
  hw : Option Nat
  arrAt : Sparse Nat
  deriving DecidableEq, Repr

/-- The states of a ring slot (12 R271). -/
inductive SlotSt where
  | free | filling | filled | taken
  deriving DecidableEq, Repr

/-- A slot of a stage ring (12 R271-R274). `fillNo` is the number of its current fill. -/
structure RSlot where
  st : SlotSt
  fillNo : Nat
  owner : Nat
  phase : Bool
  counted : Nat
  want : Option Nat
  deriving DecidableEq, Repr

/-- An issue, or a ringnext copy command, that waits at a ring on its fill or its take side (12 R272, 14 R284). -/
structure RWait where
  gang : Nat
  fill : Bool
  issue : Nat
  cmd : Option Nat
  deriving DecidableEq, Repr

/-- A stage ring (12 R270), with the issues that wait at it in the order they reached it. -/
structure Ring where
  core : Nat
  id : Nat
  blk : Nat
  kind : Nat
  base : Nat
  sbytes : Nat
  fill : Nat
  take : Nat
  slots : List RSlot
  queue : List RWait
  deriving DecidableEq, Repr

/-- A place of a copy element: none, memory with its virtual address or offset, an operand slot, or the link. -/
inductive CPlace where
  | none
  | mem (sp : Space) (addr va : Nat)
  | op (slot off : Nat)
  | link
  deriving DecidableEq, Repr

/-- A copy element that has started and not landed (14 R282, R285). `part` counts the 64-bit halves of a 16-byte element
that have been written. -/
structure CElem where
  e : Nat
  src : CPlace
  dst : CPlace
  part : Nat
  deriving DecidableEq, Repr

/-- An accepted copy command (14 R278, R286). Elements from 0 up to `opened` have started, those in `flying` have not
landed, and those in `ahead` have landed beyond an element that a fault stopped; `fault` is what stopped the command.
`fill` and `bar` are the number of the slot's fill and of the barrier's typing that its bytes count for (12 R273,
14 R284). -/
structure CopyCmd where
  id : Nat
  core : Nat
  blk : Nat
  gang : Nat
  lane : Nat
  batch : Option (BitVec 16)
  word : W64
  pc : W64
  srec : BitVec 256
  drec : BitVec 256
  tgt : Nat
  sorig : W64
  dorig : W64
  shape : W64
  list : List Nat
  needs : List Nat
  started : Bool
  slot : Option (Nat × Nat)
  opened : Nat
  flying : List CElem
  ahead : List Nat
  fill : Nat
  bar : Option Nat
  fault : Option FaultRec
  interval : Bool
  deriving DecidableEq, Repr

/-- An exact sum: a dyadic m·2^e, an infinity, or NaN (15 R309). -/
inductive XSum where
  | fin (m e : Int)
  | inf (neg : Bool)
  | nan
  deriving DecidableEq, Repr

/-- An accumulator held by a block (15 R294, R309). `nextInt` is the kind after every accepted MZERO (15 R298). -/
structure Acc where
  blk : Nat
  num : Nat
  isInt : Bool
  nextInt : Bool
  c : Sparse W32
  pr : Sparse XSum
  pc : Sparse XSum
  ar : Sparse XSum
  ac : Sparse XSum
  comp : BitVec 4096
  repl : BitVec 4096
  deriving DecidableEq, Repr

/-- An operand slot held by a block (15 R292); `dirty` says that it has been written since its claim (15 R319). -/
structure OpSlot where
  blk : Nat
  num : Nat
  data : Sparse Byte
  dirty : Bool
  deriving DecidableEq, Repr

/-- A mask tile held by a block, rows by number (15 R294). -/
structure MaskTile where
  blk : Nat
  num : Nat
  rows : Sparse W64
  deriving DecidableEq, Repr

/-- The element formats of buffer records and of the narrow arithmetic (07 R131-R133, 08 R159). -/
inductive Fmt where
  | fp32 | fp16 | bf16 | e4m3 | e5m2 | e2m1 | e8m0
  | i32 | z32 | i8 | z8 | i4 | z4
  deriving DecidableEq, Repr

/-- The operands of one small operation, read at issue (15 R297-R300). -/
structure SmallOp where
  fmt : Fmt
  aslot : Nat
  bslot : Nat
  acc : Nat
  rows : Option W64
  tri : Bool
  mt : Nat
  s1 : W64
  s2 : W64
  scales : Option (List (List W32))
  flip : Bool
  deriving DecidableEq, Repr

/-- The operands of one drain (15 R313, R314). -/
structure DrainOp where
  word : W64
  pc : W64
  drec : BitVec 256
  i : Nat
  j : Nat
  acc : Nat
  rmask : W64
  ad : Bool
  mtol : W32
  done : Nat
  fault : Option FaultRec
  deriving DecidableEq, Repr

/-- What a queued matrix operation does (15 R302). -/
inductive MKind where
  | zero (acc : Nat) (int : Bool)
  | small (o : SmallOp)
  | drain (o : DrainOp)
  | mrd (acc : Nat) (mtol : W32) (elems : List (Nat × Nat × Reg × Nat))
  | sync (ids : List Nat)
  deriving DecidableEq, Repr

/-- A queued matrix operation (15 R298, R302). -/
structure MOp where
  id : Nat
  core : Nat
  blk : Nat
  gang : Nat
  lane : Nat
  pc : W64
  interval : Bool
  kind : MKind
  deriving DecidableEq, Repr

/-- The baton of a core with its queue of waiting gangs (15 R304-R306). -/
structure Baton where
  core : Nat
  holder : Option (Nat × Nat)
  queue : List (Nat × Nat)
  deriving DecidableEq, Repr

/-- A row of a TAPIN (19 R347, R349): its slot and token position, its status, the rule and value that held it, the
re-checks made, whether the next evaluation is a first one, the fault that stopped its evaluation (R352), and the thread,
by gang and lane position, that it has trapped or waits to trap since it last became WATCHED (R354). -/
structure TRow where
  slot : Nat
  pos : W32
  status : Nat
  rule : Nat
  val : W32
  rechecks : Nat
  first : Bool
  fault : Option FaultRec
  owner : Option (Nat × Nat)
  deriving DecidableEq, Repr

/-- A TAPIN on a tap record: the last one of the record stays until the next (19 R346, R357, R358). `retired` says that
its rows have been classified, `forgotten` that its barrier was typed again since. -/
structure Tapin where
  id : Nat
  blk : Nat
  gang : Nat
  lane : Nat
  word : W64
  pc : W64
  trec : Nat
  rmap : Nat
  tap : Nat
  d : Nat
  tile : BitVec 256
  drec : BitVec 256
  ruleb : Nat
  rows : List TRow
  retired : Bool
  forgotten : Bool
  deriving DecidableEq, Repr

/-- A sieve's cached copy of a rule table (19 R345). -/
structure RuleCopy where
  terrace : Nat
  ctx : Nat
  addr : Nat
  bytes : List Byte
  deriving DecidableEq, Repr

/-- A job (10 R208-R217). `poster` is the block that posted it with its release count then, `queue` the host queue and
seq it came from, with its nf bit, and `qgen` the number of QSIZE writes of that queue before (24 R396). -/
structure Job where
  ctx : Nat
  serial : Nat
  card : BitVec 1024
  order : Nat
  dealt : Nat
  launched : Nat
  killed : Bool
  poster : Option (Nat × Nat)
  queue : Option (Nat × W32 × Bool)
  qgen : Nat
  deriving DecidableEq, Repr

/-- A block that has gone, while tags of global words still name it (08 R179, 10 R216). -/
structure Gone where
  uid : Nat
  ctx : Nat
  serial : Nat
  scope : Nat
  num : Nat
  rel : Nat
  deriving DecidableEq, Repr

/-- A cancel scope (10 R220-R223, 23 R395). -/
structure Scope where
  ctx : Nat
  id : Nat
  parent : Nat
  cancelled : Bool
  ack : W64
  ackCtx : Nat
  ackKernel : Bool
  killed : Nat
  wd : Nat
  deriving DecidableEq, Repr

/-- A continuation in the wait table (10 R218), in list order; `va` is the address that its FRD named, `idx` is the
wait-table index that `head` shows, a free value (log 6), `keep` that the thread's register receives the value (05
R94). -/
structure Cont where
  idx : Nat
  pa : Nat
  va : W64
  ctx : Nat
  serial : Nat
  blk : Nat
  gang : Nat
  lane : Nat
  d : Reg
  pred : Nat
  pc : W64
  keep : Bool
  outst : Nat
  deriving DecidableEq, Repr

/-- A context with its control registers (11 R245, R246, 23 R389). `state` is 1 live or 2 LOST. -/
structure Ctx where
  id : Nat
  state : Nat
  root : W64
  walk : W32
  split : W64
  splitn : W32
  frbase : W64
  frslot : W32
  frcount : W32
  tvec : W64
  tdeleg : W32
  bcores : W32
  bbytes : W64
  benergy : W32
  wreg : Sparse W64
  trbase : W64
  trsize : W32
  trhead : W32
  trtail : W32
  trctl : W32
  trbud : W32
  trdrop : W32
  wdlim : W32
  prog : Sparse W64
  serial : Nat
  ticket : Nat
  frUsed : List Nat
  bytesSpent : Nat
  mjSpent : Nat
  traceSpent : Nat
  deriving DecidableEq, Repr

/-- What a reader of a FULL future acquires, with the value that an FWR or a completion wrote (10 R219). -/
structure FutRel where
  value : W64
  acq : List (Nat × Nat)
  deriving DecidableEq, Repr

/-- A save with its ticket (11 R239-R248); `pcs` are the PCs with which its frame was written. -/
structure SaveRec where
  ctx : Nat
  ticket : Nat
  blk : Nat
  reason : Nat
  cause : BitVec 8
  frame : Nat
  slot : Option Nat
  group : Nat
  resumed : Bool
  pcs : List W64
  deriving DecidableEq, Repr

/-- A trap-queue entry that waits to be written (11 R239, 10 R216): the 512 bits, and the block or context it concerns. -/
structure TrapEntry where
  bits : BitVec 512
  blk : Option Nat
  ctx : Nat
  deriving DecidableEq, Repr

/-- A notification record that waits for its ring (24 R399): everything but its number. -/
structure Note where
  kind : Nat
  status : Nat
  first : W32
  last : W32
  ctx : Nat
  value : W64
  deriving DecidableEq, Repr

/-- A taken queue entry that is not done in order yet (24 R398). -/
structure QEntry where
  seq : W32
  done : Bool
  deriving DecidableEq, Repr

/-- A host submission queue and its notification ring (24 R396-R399). `owner` is the PCIe function that firmware has
assigned it to, 0 the physical one (24 R401); `gen` counts the writes to QSIZE. -/
structure HostQ where
  owner : Nat
  gen : Nat
  qbase : W64
  qsize : W32
  qctx : W32
  qtail : W32
  lastAcc : W32
  lastDone : W32
  qstate : W32
  nbase : W64
  nsize : W32
  ntail : W32
  nhead : W32
  nvec : W32
  entries : List QEntry
  notes : List Note
  deriving DecidableEq, Repr

/-- A block of a pool that was freed: its number, and the freeing block with its release count (17 R329). -/
structure FreeBlk where
  num : Nat
  uid : Nat
  rel : Nat
  deriving DecidableEq, Repr

/-- A block pool (17 R324-R327): the free stack is `freed` over the blocks from `fresh` up. -/
structure Pool where
  id : Nat
  ctx : Nat
  valley : Nat
  bsz : Nat
  region : Nat
  nblk : Nat
  reserve : Nat
  nseqm1 : Nat
  metaFrames : List Nat
  freed : List FreeBlk
  fresh : Nat
  tables : List (Nat × List Nat)
  deriving DecidableEq, Repr

/-- The operation that a POOL request names, with its operands (17 R331). -/
inductive PoolOp where
  | new (name : Nat)
  | free (name : Nat)
  | pinit (pool : Nat) (desc : Nat)
  | pfree (name : Nat)
  | query (name : Nat)
  | alloc (spec : Bool) (name n : Nat)
  | trim (name len : Nat)
  | look (name k : Nat)
  | drop (name k : Nat)
  deriving DecidableEq, Repr

/-- A POOL request at its engine (17 R328): the outstanding result that its reply ends, and of the issuer what the request
carries: its block with the release count at the request, its context and its level. -/
structure PoolReq where
  outst : Nat
  valley : Nat
  blk : Nat
  rel : Nat
  ctx : Nat
  kernel : Bool
  op : PoolOp
  deriving DecidableEq, Repr

/-- A level of the cached translations (09 R201); a last-page register belongs to a lane position of an issue slot. -/
inductive TlbPlace where
  | lastPage (core slot lane : Nat)
  | core (c : Nat)
  | terrace (t : Nat)
  | fetch (c : Nat)
  deriving DecidableEq, Repr

/-- A cached translation: the result word of the walk and the page it is for (09 R201, R202). -/
structure TlbE where
  place : TlbPlace
  ctx : Nat
  va : Nat
  word : W64
  deriving DecidableEq, Repr

/-- The checkpoint of a rollback block: its control image and the old contents of what its interval may change
(21 R374, R375), with the replies of the EN and CP classes that are outstanding at it, the requests at the pool engines
and the claims of its threads (log 17). -/
structure Ckpt where
  blk : Nat
  block : Block
  gangs : List Gang
  threads : List Thread
  bundles : List Bundle
  bins : List Bin
  arrivals : List Arrival
  bars : List Bar
  rings : List Ring
  accs : List Acc
  masks : List MaskTile
  baton : Baton
  tapins : List Tapin
  outst : List Outst
  conts : List Cont
  claims : List (Nat × Nat × Nat)
  deriving DecidableEq, Repr

/-- The activity budgets of a period, which firmware sets (24 R406): bytes of scrubbing for each HBM stack and for each L2
slice, bytes of cellar copies for each core, trace bytes, walks, fabric cycles for each sieve, operations for each pool
engine, frame bytes. -/
structure Budgets where
  scrub : Nat
  scrubL2 : Nat
  cellar : Nat
  trace : Nat
  walks : Nat
  sieve : Nat
  pool : Nat
  saves : Nat
  deriving DecidableEq, Repr

/-- The read-only configuration registers and the firmware's own device state (24 R403, R405, R407). `mclogPa` is where the
ring of the machine-check log lies in HBM (21 R372; log 15). -/
structure Config where
  part : W32
  units : W32
  hbmbytes : W64
  hbmchan : W64
  links : W32
  selfdev : W32
  homemap : W64
  mclog : W64
  mclogPa : Nat
  mclogn : W32
  corrected : Nat
  isa : W32
  plimit : W32
  mr : Sparse (BitVec 512)
  bootfail : Bool
  warmResets : Nat
  budgets : Budgets
  deriving DecidableEq, Repr

/-- What has been spent of each activity budget in the period (24 R406). `scrub` is keyed by the HBM stack, by 64 and the
number for an L2 slice. -/
structure Activity where
  scrub : Sparse Nat
  cellar : Sparse Nat
  trace : Nat
  walks : Nat
  sieve : Sparse Nat
  slots : Sparse Nat
  pool : Sparse Nat
  saves : Nat
  deriving DecidableEq, Repr

/-- An error that stands in a 64-byte line of L2 or HBM until an access reads the line (21 R369): one that the line's code
corrects, one of two bits in a clean L2 line, or another that is uncorrectable. -/
inductive LineErr where
  | single
  | cleanDouble
  | uncorrectable
  deriving DecidableEq, Repr

/-- What management firmware sets by itself: the activity budgets (24 R406), the function that owns a queue (24 R401). -/
inductive Firm where
  | budgets (b : Budgets)
  | owner (queue fn : Nat)
  deriving DecidableEq, Repr

/-- What moves next: a bundle issues; an engine, the firmware, the host or time takes a step (log 1); an error strikes
checked storage of a block, or a line of memory (21 R368, R369); or firmware sets what is its own to set. -/
inductive Act where
  | go (bundle : Nat)
  | ev (e : Instr)
  | strike (blk : Nat) (e : StoreErr)
  | strikeLine (line : Nat) (e : LineErr)
  | firm (f : Firm)
  deriving DecidableEq, Repr

/-- The state of the device. -/
structure State where
  -- the model's own fields: the order of steps, the issuing bundle, fresh numbers, the free-value counter
  agenda : List Act
  cur : Nat
  nextId : Nat
  issueNo : Nat
  free : Nat
  -- lanes
  threads : List Thread
  gangs : List Gang
  blocks : List Block
  bundles : List Bundle
  bins : List Bin
  arrivals : List Arrival
  outst : List Outst
  cycle : Sparse W64
  -- register claims and matrix claims that wait, oldest first
  claims : List (Nat × Nat × Nat)
  -- scratchpad unit
  bars : List Bar
  rings : List Ring
  -- copy engines
  copies : List CopyCmd
  -- matrix engines
  accs : List Acc
  opslots : List OpSlot
  masks : List MaskTile
  mops : List MOp
  batons : List Baton
  -- sieves
  tapins : List Tapin
  ruleCopies : List RuleCopy
  -- task engine
  jobs : List Job
  killedJobs : List (Nat × Nat)
  gone : List Gone
  scopes : List Scope
  conts : List Cont
  futs : Sparse FutRel
  saves : List SaveRec
  entries : List TrapEntry
  -- reliability
  ckpts : List Ckpt
  mclog : List (BitVec 512)
  -- contexts and device bank
  ctxs : List Ctx
  kqbase : W64
  kqsize : W32
  kqhead : W32
  kqtail : W32
  kqfut : W64
  kqctx : Nat
  kctx : Nat
  heart : W64
  cfg : Config
  act : Activity
  tripped : List Nat
  clocks : Sparse Nat
  -- memory, translation
  mem : List Host.Cell
  poison : List Nat
  lineErrs : List (Nat × LineErr)
  l2 : Sparse Nat
  hostMem : List (Nat × Nat)
  walkStore : Sparse Byte
  tlb : List TlbE
  gtags : Sparse GTag
  -- pools and the host interface
  pools : List Pool
  poolReqs : List PoolReq
  queues : Sparse HostQ
  msix : List W32
  reports : List (List Byte)
  aedov : List (BitVec 512)
  deriving DecidableEq, Repr

/-- Why a step stops with a fault. -/
inductive Fault where
  /-- Raised by the meaning of an instruction word when no bundle of the state is issuing: the word then belongs to no
  thread. Safe: a run issues a word only for a bundle. -/
  | noIssuer
  deriving DecidableEq, Repr

/-- Why a step has no meaning. -/
inductive Refusal where
  /-- Raised by an arm of `exec` for an instruction that has no meaning yet. Safe. -/
  | notModelled (mnemonic : String)
  deriving DecidableEq, Repr

/-- What a meaning answers. -/
abbrev Res := Host.Outcome State Fault Refusal

/-- A host queue as it is before the host sets it up (log 3). -/
def HostQ.reset : HostQ :=
  { owner := 0, gen := 0, qbase := 0, qsize := 0, qctx := 0, qtail := 0, lastAcc := 0, lastDone := 0, qstate := 0, nbase := 0, nsize := 0,
    ntail := 0, nhead := 0, nvec := 0, entries := [], notes := [] }

/-- The default budgets of a period (24 R406). -/
def Budgets.reset : Budgets :=
  { scrub := 16384, scrubL2 := 4096, cellar := 65536, trace := 4194304, walks := 200000, sieve := 18000, pool := 8000, saves := 8388608 }

/-- The configuration registers after a cold reset of TNF-7208 (01 R7, 24 R403, R405, R407; logs 3, 4). -/
def Config.reset : Config :=
  { part := 0x7208, units := 0x008830C0, hbmbytes := 0xC000000000, hbmchan := 0xFFFFFFFFFFFFFFFF,
    links := 0x44444444, selfdev := 0, homemap := 0, mclog := 0, mclogPa := 0xBFFFFC0000, mclogn := 0, corrected := 0, isa := 1, plimit := 3000,
    mr := [], bootfail := false, warmResets := 0, budgets := Budgets.reset }

/-- The configuration registers of the other part, TNF-7206 (01 R7, R17; logs 3, 4, 15): 144 cores in 36 terraces and six
valleys, six stacks of 96 GiB. A run on it starts from `State.reset` with this configuration. -/
def Config.reset7206 : Config :=
  { Config.reset with part := 0x7206, units := 0x00662490, hbmbytes := 0x9000000000, hbmchan := 0x0000FFFFFFFFFFFF,
                      mclogPa := 0x8FFFFC0000 }

/-- Nothing spent of any budget. -/
def Activity.reset : Activity :=
  { scrub := [], cellar := [], trace := 0, walks := 0, sieve := [], slots := [], pool := [], saves := 0 }

/-- The machine right after a cold reset, before any boot stage has run: no context, no job, no block, every device
register at the value of 11 R246, 24 R403-R407 and logs 2, 3, 4. -/
def State.reset : State :=
  { agenda := [], cur := 0, nextId := 1, issueNo := 0, free := 0,
    threads := [], gangs := [], blocks := [], bundles := [], bins := [], arrivals := [], outst := [], cycle := [],
    claims := [], bars := [], rings := [], copies := [], accs := [], opslots := [], masks := [], mops := [],
    batons := [], tapins := [], ruleCopies := [], jobs := [], killedJobs := [], gone := [], scopes := [], conts := [], futs := [],
    saves := [], entries := [], ckpts := [], mclog := [], ctxs := [],
    kqbase := 0, kqsize := 0, kqhead := 0, kqtail := 0, kqfut := 0, kqctx := 0, kctx := 0, heart := 0,
    cfg := Config.reset, act := Activity.reset, tripped := [], clocks := [],
    mem := [], poison := [], lineErrs := [], l2 := [], hostMem := [], walkStore := [], tlb := [], gtags := [],
    pools := [], poolReqs := [], queues := [], msix := [], reports := [], aedov := [] }

end Sys2Proof.Machine
end

