-- ==== Sys2Proof/Machine/Basic.lean ====
section
/-! DEFINITION. The plainest operations on the state: sparse maps, bytes of memory and scratchpad, finding and changing
one thread, gang, block, bundle or context. Everything else is built on these. -/

namespace Sys2Proof.Machine

/-! ### Sparse maps -/

/-- The value at a key: the default where nothing is listed. -/
def Sparse.get {β : Type} (d : β) (m : Sparse β) (k : Nat) : β :=
  match m with
  | [] => d
  | (k', v) :: t => if k' = k then v else Sparse.get d t k

/-- Insert an entry before the first greater key. -/
def Sparse.ins {β : Type} (m : Sparse β) (k : Nat) (v : β) : Sparse β :=
  match m with
  | [] => [(k, v)]
  | (k', v') :: t => if k < k' then (k, v) :: (k', v') :: t else (k', v') :: Sparse.ins t k v

/-- Set the value at a key: the default value is held by listing nothing. -/
def Sparse.set {β : Type} [DecidableEq β] (d : β) (m : Sparse β) (k : Nat) (v : β) : Sparse β :=
  let rest := m.filter (fun e => e.1 != k)
  if v = d then rest else Sparse.ins rest k v

/-- The canonical form: keys rising, no entry equal to the default. -/
def Sparse.wf {β : Type} [DecidableEq β] (d : β) (m : Sparse β) : Bool :=
  match m with
  | [] => true
  | (k, v) :: t => decide (v ≠ d) && (t.all fun e => decide (k < e.1)) && Sparse.wf d t

/-! ### Bytes -/

/-- What an unlisted byte of memory reads as (log 2). -/
def unlisted : Byte := 0

/-- The canonical form of global memory. -/
def Memory.wf (m : List Host.Cell) : Bool := Sparse.wf unlisted m

/-- Read one physical byte. -/
def readByte (s : State) (pa : Nat) : Byte := Sparse.get unlisted s.mem pa

/-- Little-endian value of a byte list (00 R3). -/
def leVal (bs : List Byte) : Nat := bs.foldr (fun b acc => b.toNat + 256 * acc) 0
/-- The n little-endian bytes of a value. -/
def leBytes (n v : Nat) : List Byte := (List.range n).map (fun k => BitVec.ofNat 8 (v / 256 ^ k))

/-- Read n physical bytes. -/
def readBytes (s : State) (pa n : Nat) : List Byte := (List.range n).map (fun k => readByte s (pa + k))
/-- Read an n-byte value. -/
def readLE (s : State) (pa n : Nat) : Nat := leVal (readBytes s pa n)

/-- Write bytes into a map of bytes from an address. -/
def putBytes (m : Sparse Byte) (a : Nat) (bs : List Byte) : Sparse Byte :=
  match bs with
  | [] => m
  | b :: t => putBytes (Sparse.set unlisted m a b) (a + 1) t

/-- Write physical bytes. -/
def writeBytes (s : State) (pa : Nat) (bs : List Byte) : State := { s with mem := putBytes s.mem pa bs }

/-- Bit n of a number. -/
def natBit (v n : Nat) : Bool := v.testBit n
/-- Bits [lo + w - 1 : lo] of a number. -/
def natBits (v lo w : Nat) : Nat := v / 2 ^ lo % 2 ^ w
/-- The signed value of the low n bits of a number (06 R102). -/
def sx (n v : Nat) : Int :=
  let u := v % 2 ^ n
  if n ≠ 0 ∧ 2 ^ (n - 1) ≤ u then (u : Int) - (2 : Int) ^ n else u
/-- The low n bits of an integer as a pattern (06 R102). -/
def lowBits (n : Nat) (v : Int) : Nat := (v % (2 : Int) ^ n).toNat

/-- Mend the elements of a list that a test picks. -/
def updWhere {α : Type} (l : List α) (p : α → Bool) (f : α → α) : List α := l.map (fun x => if p x then f x else x)

/-! ### Threads, gangs, blocks, bundles -/

/-- Whether a thread is the one at (block, gang, lane position). -/
def Thread.is (t : Thread) (b g l : Nat) : Bool := t.blk == b && t.gang == g && t.lane == l
def getThread (s : State) (b g l : Nat) : Option Thread := s.threads.find? (fun t => t.is b g l)
def modThread (s : State) (b g l : Nat) (f : Thread → Thread) : State :=
  { s with threads := updWhere s.threads (fun t => t.is b g l) f }
/-- A wait that is a kill point (10 R221): not one for entries of an engine's queue (14 R282), for RGIVE's results (06 R130),
of an EXIT (06 R123), or of HALTG, whose issuer stops at its next kill point (23 R394). -/
def Wait.blocking : Wait → Bool
  | .none | .accept | .give .. | .exit | .halt .. => false
  | _ => true
/-- A wait of the thread ends: the watchdog of its scope is reset (23 R395), and the thread stands at that kill point until
its bundle goes on (02 R23). -/
def Thread.unwait (t : Thread) : Thread :=
  { t with wait := .none, waited := 0, ended := t.ended || t.wait.blocking, left := t.left || t.wait.blocking,
           past := t.past && !t.wait.blocking }
/-- The thread still stands at the kill point of a blocking wait that has ended (02 R23). -/
def Thread.stands (t : Thread) : Bool := t.left && !t.past
def modThreads (s : State) (p : Thread → Bool) (f : Thread → Thread) : State :=
  { s with threads := updWhere s.threads p f }
def blockThreads (s : State) (b : Nat) : List Thread := s.threads.filter (fun t => t.blk == b)
def gangThreads (s : State) (b g : Nat) : List Thread := s.threads.filter (fun t => t.blk == b && t.gang == g)

def getGang (s : State) (b g : Nat) : Option Gang := s.gangs.find? (fun x => x.blk == b && x.num == g)
def modGang (s : State) (b g : Nat) (f : Gang → Gang) : State :=
  { s with gangs := updWhere s.gangs (fun x => x.blk == b && x.num == g) f }
def blockGangs (s : State) (b : Nat) : List Gang := s.gangs.filter (fun x => x.blk == b)

def getBlock (s : State) (b : Nat) : Option Block := s.blocks.find? (fun x => x.uid == b)
def modBlock (s : State) (b : Nat) (f : Block → Block) : State :=
  { s with blocks := updWhere s.blocks (fun x => x.uid == b) f }

def getBundle (s : State) (i : Nat) : Option Bundle := s.bundles.find? (fun x => x.id == i)
def modBundle (s : State) (i : Nat) (f : Bundle → Bundle) : State :=
  { s with bundles := updWhere s.bundles (fun x => x.id == i) f }

def getCtx (s : State) (c : Nat) : Option Ctx := s.ctxs.find? (fun x => x.id == c)
def modCtx (s : State) (c : Nat) (f : Ctx → Ctx) : State :=
  { s with ctxs := updWhere s.ctxs (fun x => x.id == c) f }
/-- The context exists and is live, not LOST (11 R245). -/
def ctxLive (s : State) (c : Nat) : Bool := match getCtx s c with | some x => x.state == 1 | none => false

def getJob (s : State) (c n : Nat) : Option Job := s.jobs.find? (fun j => j.ctx == c && j.serial == n)
def modJob (s : State) (c n : Nat) (f : Job → Job) : State :=
  { s with jobs := updWhere s.jobs (fun j => j.ctx == c && j.serial == n) f }
def getScope (s : State) (c i : Nat) : Option Scope := s.scopes.find? (fun x => x.ctx == c && x.id == i)
def modScope (s : State) (c i : Nat) (f : Scope → Scope) : State :=
  { s with scopes := updWhere s.scopes (fun x => x.ctx == c && x.id == i) f }

def getBar (s : State) (r : BarRef) : Option Bar := s.bars.find? (fun b => b.ref == r)
def getAcc (s : State) (b n : Nat) : Option Acc := s.accs.find? (fun a => a.blk == b && a.num == n)
def modAcc (s : State) (b n : Nat) (f : Acc → Acc) : State :=
  { s with accs := updWhere s.accs (fun a => a.blk == b && a.num == n) f }
def getOpSlot (s : State) (b n : Nat) : Option OpSlot := s.opslots.find? (fun a => a.blk == b && a.num == n)
def modOpSlot (s : State) (b n : Nat) (f : OpSlot → OpSlot) : State :=
  { s with opslots := updWhere s.opslots (fun a => a.blk == b && a.num == n) f }
def getMask (s : State) (b n : Nat) : Option MaskTile := s.masks.find? (fun a => a.blk == b && a.num == n)
def getTapin (s : State) (b trec : Nat) : Option Tapin := s.tapins.find? (fun t => t.blk == b && t.trec == trec)
def getCopy (s : State) (i : Nat) : Option CopyCmd := s.copies.find? (fun c => c.id == i)
def modCopy (s : State) (i : Nat) (f : CopyCmd → CopyCmd) : State :=
  { s with copies := updWhere s.copies (fun c => c.id == i) f }
def getOutst (s : State) (i : Nat) : Option Outst := s.outst.find? (fun o => o.id == i)
def dropOutst (s : State) (i : Nat) : State := { s with outst := s.outst.filter (fun o => o.id != i) }
def getPool (s : State) (i : Nat) : Option Pool := s.pools.find? (fun p => p.id == i)
def modPool (s : State) (i : Nat) (f : Pool → Pool) : State :=
  { s with pools := updWhere s.pools (fun p => p.id == i) f }
def getQueue (s : State) (q : Nat) : HostQ := Sparse.get HostQ.reset s.queues q
def setQueue (s : State) (q : Nat) (x : HostQ) : State := { s with queues := Sparse.set HostQ.reset s.queues q x }

/-- A fresh number, and the state that has handed it out. -/
def fresh (s : State) : Nat × State := (s.nextId, { s with nextId := s.nextId + 1 })
/-- A fresh free-value number (log 6). -/
def freshFree (s : State) : Nat × State := (s.free, { s with free := s.free + 1 })

/-- A context as STATE := 1 creates it (11 R246, 23 R389). -/
def Ctx.new (id : Nat) : Ctx :=
  { id := id, state := 1, root := 0, walk := 0, split := 0, splitn := 0, frbase := 0, frslot := 0, frcount := 0, tvec := 0,
    tdeleg := 0, bcores := 0, bbytes := 0, benergy := 0, wreg := [], trbase := 0, trsize := 0, trhead := 0, trtail := 0,
    trctl := 0, trbud := 0, trdrop := 0, wdlim := 15625000, prog := [], serial := 0, ticket := 0, frUsed := [],
    bytesSpent := 0, mjSpent := 0, traceSpent := 0 }
/-- The root scope of a context (10 R220). -/
def Scope.root (ctx : Nat) : Scope :=
  { ctx := ctx, id := 0, parent := 0, cancelled := false, ack := 0, ackCtx := ctx, ackKernel := false, killed := 0, wd := 0 }

/-! ### Block facts -/

def Block.kernel (b : Block) : Bool := b.flags.getLsbD 0
def Block.rollback (b : Block) : Bool := b.flags.getLsbD 1
def Block.protectd (b : Block) : Bool := b.flags.getLsbD 2
def Block.checked (b : Block) : Bool := b.flags.getLsbD 3
/-- The block holds a core: it is not saved into a frame. -/
def Block.resident (b : Block) : Bool := match b.status with | .saved _ => false | _ => true
/-- Something stops the threads of a block at their kill points: a kill, a save, a halt, a machine check, a checkpoint. -/
def Block.stopping (b : Block) : Bool :=
  b.killed || b.saveReq.isSome || b.halted || !b.mcheck.isEmpty || b.ckptDue || b.status != .running
/-- The block with a uid holds a core. -/
def isResident (s : State) (b : Nat) : Bool := match getBlock s b with | some k => k.resident | none => false
/-- A ring holds a descriptor of the core: those of a saved block have returned theirs (12 R270, 11 R241). -/
def Ring.at_ (s : State) (core id : Nat) (r : Ring) : Bool := r.core == core && r.id == id && isResident s r.blk
def getRing (s : State) (core id : Nat) : Option Ring := s.rings.find? (Ring.at_ s core id)
def modRing (s : State) (core id : Nat) (f : Ring → Ring) : State :=
  { s with rings := updWhere s.rings (Ring.at_ s core id) f }
/-- The logical thread index of a lane position (05 R101). -/
def Block.tid (b : Block) (lane : Nat) : Nat := if b.protectd then lane / 2 else lane
def Block.terrace (b : Block) : Nat := b.core / 4
def Block.valley (b : Block) : Nat := b.core / 24
/-- A job handle (10 R210). -/
def handleOf (ctx serial : Nat) : W64 := BitVec.ofNat 64 (ctx % 2 ^ 16 * 2 ^ 40 + serial % 2 ^ 40)

/-- Units held by a block: base plus extended over its gangs (05 R89). -/
def heldUnits (s : State) (b : Nat) : Nat := ((blockGangs s b).map (fun g => g.base + g.ext)).sum
/-- The resident blocks of a core. -/
def coreBlocks (s : State) (c : Nat) : List Block := s.blocks.filter (fun b => b.core == c && b.resident)
/-- Free units of a core's pool of 1,024 (05 R88). -/
def freeUnits (s : State) (c : Nat) : Nat := 1024 - ((coreBlocks s c).map (fun b => heldUnits s b.uid)).sum

/-! ### Where a bundle stands -/

/-- The address that a place stands at: the header, or the instruction word inside a fetched clause (02 R18). -/
def Place.addr (p : Place) : W64 :=
  match p.clause with | none => p.hdr | some _ => p.hdr + BitVec.ofNat 64 (8 * (p.idx + 1))
/-- The word that a bundle stands at inside its clause. -/
def Bundle.word? (b : Bundle) : Option W64 := b.place.clause.bind (fun c => c.words[b.place.idx]?)
/-- The address of the word that issues, and its opcode, for a machine-check record. -/
def curPc (s : State) : W64 := match getBundle s s.cur with | some b => b.place.addr | none => 0
def curOp (s : State) : Nat := match (getBundle s s.cur).bind Bundle.word? with | some w => (opOf w).toNat | none => 0

/-! ### The counts of the part (24 R407) -/

def numCores (s : State) : Nat := natBits s.cfg.units.toNat 0 8
def numTerraces (s : State) : Nat := natBits s.cfg.units.toNat 8 8
def numValleys (s : State) : Nat := natBits s.cfg.units.toNat 16 4
def numStacks (s : State) : Nat := natBits s.cfg.units.toNat 20 4
/-- The end of the physical addresses that HBM backs: 96 GiB for each stack of the part (01 R7, R17). -/
def hbmEnd (s : State) : Nat := 0x1800000000 * numStacks s
/-- Host memory backs the physical address (08 R166). -/
def hostBacked (s : State) (pa : Nat) : Bool := s.hostMem.any (fun r => r.1 ≤ pa && pa < r.1 + r.2)
/-- Memory backs the physical address: HBM that the part has, or host memory (01 R17, 08 R166). -/
def backed (s : State) (pa : Nat) : Bool := decide (pa < hbmEnd s) || hostBacked s pa

end Sys2Proof.Machine
end

