-- ==== Sys2Proof/Machine/Flags.lean ====
section
/-! DEFINITION. Number formats, rounding and the sticky flags (07 R131-R138), the exact sum of a block of products
(R135, R140), and the comparisons of FMIN, FMAX and FCMP (R146, R147). A flag set is a BitVec 5 in the order of
R138. -/

namespace Sys2Proof.Machine

/-- An exact value: a signed zero, m·2^e with m nonzero, an infinity, or NaN. -/
inductive Xr where
  | zero (neg : Bool)
  | fin (m e : Int)
  | inf (neg : Bool)
  | nan
  deriving DecidableEq, Repr

def fInexact : BitVec 5 := 1
def fUnderflow : BitVec 5 := 2
def fOverflow : BitVec 5 := 4
def fDiv0 : BitVec 5 := 8
def fInvalid : BitVec 5 := 16

/-- Mantissa width w (07 R131). -/
def Fmt.w : Fmt → Nat
  | .fp32 => 23 | .fp16 => 10 | .bf16 => 7 | .e4m3 => 3 | .e5m2 => 2 | .e2m1 => 1 | _ => 0
def Fmt.bias : Fmt → Nat
  | .fp32 => 127 | .fp16 => 15 | .bf16 => 127 | .e4m3 => 7 | .e5m2 => 15 | .e2m1 => 1 | .e8m0 => 127 | _ => 0
/-- Bits of a pattern. -/
def Fmt.bits : Fmt → Nat
  | .fp32 => 32 | .i32 => 32 | .z32 => 32 | .fp16 => 16 | .bf16 => 16
  | .e4m3 => 8 | .e5m2 => 8 | .e8m0 => 8 | .i8 => 8 | .z8 => 8 | .e2m1 => 4 | .i4 => 4 | .z4 => 4
/-- The magnitude pattern of the largest finite value. -/
def Fmt.maxMag : Fmt → Nat
  | .fp32 => 0x7F7FFFFF | .fp16 => 0x7BFF | .bf16 => 0x7F7F | .e4m3 => 0x7E | .e5m2 => 0x7B | .e2m1 => 0x7 | _ => 0
/-- The magnitude pattern of infinity, for the formats that have one. -/
def Fmt.infMag : Fmt → Option Nat
  | .fp32 => some 0x7F800000 | .fp16 => some 0x7C00 | .bf16 => some 0x7F80 | .e5m2 => some 0x7C | _ => none
/-- The canonical NaN. -/
def Fmt.canNan : Fmt → Nat
  | .fp32 => 0x7FC00000 | .fp16 => 0x7E00 | .bf16 => 0x7FC0 | .e4m3 => 0x7F | .e5m2 => 0x7E | .e8m0 => 0xFF | _ => 0
def Fmt.isInt : Fmt → Bool
  | .i32 => true | .z32 => true | .i8 => true | .z8 => true | .i4 => true | .z4 => true | _ => false
def Fmt.signedInt : Fmt → Bool
  | .i32 => true | .i8 => true | .i4 => true | _ => false

/-- An integer as an exact value; 0 is +0. -/
def Xr.ofInt (m e : Int) : Xr := if m = 0 then .zero false else .fin m e
def Xr.neg : Xr → Xr
  | .zero s => .zero (!s) | .fin m e => .fin (-m) e | .inf s => .inf (!s) | .nan => .nan
def Xr.isNeg : Xr → Bool
  | .zero s => s | .fin m _ => decide (m < 0) | .inf s => s | .nan => false
/-- x·2^k. -/
def Xr.scale (k : Int) : Xr → Xr
  | .fin m e => .fin m (e + k) | x => x

/-- VAL(P, F) (07 R132, R133, R135). -/
def val (f : Fmt) (p : Nat) : Xr :=
  let p := p % 2 ^ f.bits
  if f.isInt then Xr.ofInt (if f.signedInt then sx f.bits p else p) 0
  else if f = .e8m0 then (if p = 255 then .nan else .fin 1 ((p : Int) - 127))
  else
    let w := f.w
    let neg := natBit p (f.bits - 1)
    let mag := p % 2 ^ (f.bits - 1)
    let e := mag / 2 ^ w
    let m := mag % 2 ^ w
    let sg (x : Int) : Int := if neg then -x else x
    if f.infMag = some mag then .inf neg
    else if f.maxMag < mag then .nan
    else if e = 0 then (if m = 0 then .zero neg else .fin (sg m) (1 - (f.bias : Int) - w))
    else .fin (sg ((2 ^ w + m : Nat) : Int)) ((e : Int) - f.bias - w)

/-- A signalling NaN of FP32, FP16 or BF16 (07 R132). -/
def isSnan (f : Fmt) (p : Nat) : Bool :=
  match f with
  | .fp32 | .fp16 | .bf16 => val f p == .nan && !natBit p (f.w - 1)
  | _ => false
/-- The flag that reading an operand raises (07 R136). -/
def readFlag (f : Fmt) (p : Nat) : BitVec 5 := if isSnan f p then fInvalid else 0

/-- Round m / 2^k to an integer by a mode 0 ne, 1 z, 2 up, 3 dn (07 R134). -/
def roundShift (m : Int) (k : Nat) (rm : Nat) : Int :=
  let d : Int := (2 : Int) ^ k
  let f := m / d
  let r := m % d
  match rm with
  | 0 => if 2 * r < d then f else if d < 2 * r then f + 1 else if f % 2 = 0 then f else f + 1
  | 1 => if m < 0 ∧ r ≠ 0 then f + 1 else f
  | 2 => if r ≠ 0 then f + 1 else f
  | _ => f

/-- Round m·2^e to a multiple of 2^q: the multiple's count, and whether it is exact. -/
def roundTo (m e q : Int) (rm : Nat) : Int × Bool :=
  if q ≤ e then (m * (2 : Int) ^ (e - q).toNat, true)
  else
    let n := roundShift m (q - e).toNat rm
    (n, n * (2 : Int) ^ (q - e).toNat = m)

/-- Round a nonzero finite value to a format with the exponent unbounded above: magnitude pattern, exactness, and
whether the value lies below the smallest normal (07 R135). -/
def roundMag (f : Fmt) (rm : Nat) (m e : Int) : Nat × Bool × Bool :=
  let emin : Int := 1 - f.bias
  let top : Int := (Nat.log2 m.natAbs : Int) + e
  let ex := max top emin
  let (n, exact) := roundTo m e (ex - f.w) rm
  (n.natAbs + (ex - emin).toNat * 2 ^ f.w, exact, decide (top < emin))

/-- Put a sign on a magnitude pattern. -/
def signed (f : Fmt) (neg : Bool) (mag : Nat) : Nat := if neg then mag + 2 ^ (f.bits - 1) else mag

/-- ROUND(x, F, rm): pattern and flags (07 R135). -/
def round (f : Fmt) (rm : Nat) (x : Xr) : Nat × BitVec 5 :=
  match x with
  | .nan => (f.canNan, 0)
  | .inf s => (signed f s (f.infMag.getD f.maxMag), 0)
  | .zero s => (signed f s 0, 0)
  | .fin m e =>
    let neg := decide (m < 0)
    let (mag, exact, tiny) := roundMag f rm m e
    if f.maxMag < mag then
      let toInf := rm = 0 ∨ (rm = 2 ∧ !neg) ∨ (rm = 3 ∧ neg)
      (signed f neg (if toInf then f.infMag.getD f.maxMag else f.maxMag), fOverflow ||| fInexact)
    else (signed f neg mag, if exact then 0 else if tiny then fInexact ||| fUnderflow else fInexact)

/-- The bounds of an integer format (07 R133). -/
def intBounds (f : Fmt) : Int × Int :=
  if f.signedInt then (-(2 : Int) ^ (f.bits - 1), (2 : Int) ^ (f.bits - 1) - 1) else (0, (2 : Int) ^ f.bits - 1)

/-- SAT(x, F, rm): pattern and flags (07 R135). -/
def sat (f : Fmt) (rm : Nat) (x : Xr) : Nat × BitVec 5 :=
  if f.isInt then
    let (lo, hi) := intBounds f
    let pat (v : Int) : Nat := lowBits f.bits v
    match x with
    | .nan => (0, fInvalid)
    | .inf s => (pat (if s then lo else hi), fInvalid)
    | .zero _ => (0, 0)
    | .fin m e =>
      let (n, exact) := roundTo m e 0 rm
      if hi < n then (pat hi, fInvalid) else if n < lo then (pat lo, fInvalid)
      else (pat n, if exact then 0 else fInexact)
  else
    match x with
    | .nan => if f = .e4m3 ∨ f = .e5m2 then (f.canNan, 0) else (0, fInvalid)
    | .inf s => (signed f s f.maxMag, fOverflow ||| fInexact)
    | .zero s => (signed f s 0, 0)
    | .fin m e =>
      let neg := decide (m < 0)
      let (mag, exact, tiny) := roundMag f rm m e
      if f.maxMag < mag then (signed f neg f.maxMag, fOverflow ||| fInexact)
      else (signed f neg mag, if exact then 0 else if tiny then fInexact ||| fUnderflow else fInexact)

/-- The exact sum of two finite values. -/
def addDyadic (m1 e1 m2 e2 : Int) : Int × Int :=
  let e := min e1 e2
  (m1 * (2 : Int) ^ (e1 - e).toNat + m2 * (2 : Int) ^ (e2 - e).toNat, e)

/-- a + b exactly, with the zero sign of R137 under a mode; the flag is invalid for opposite infinities. -/
def xadd (rm : Nat) (a b : Xr) : Xr × BitVec 5 :=
  match a, b with
  | .nan, _ => (.nan, 0)
  | _, .nan => (.nan, 0)
  | .inf s, .inf t => if s = t then (.inf s, 0) else (.nan, fInvalid)
  | .inf s, _ => (.inf s, 0)
  | _, .inf t => (.inf t, 0)
  | .zero s, .zero t => (if s = t then .zero s else .zero (rm = 3), 0)
  | .zero _, y => (y, 0)
  | x, .zero _ => (x, 0)
  | .fin m1 e1, .fin m2 e2 =>
    let (m, e) := addDyadic m1 e1 m2 e2
    (if m = 0 then .zero (rm = 3) else .fin m e, 0)

/-- a·b exactly: the flag is invalid for 0·∞ (07 R137, R145). -/
def xmul (a b : Xr) : Xr × BitVec 5 :=
  let s := a.isNeg != b.isNeg
  match a, b with
  | .nan, _ => (.nan, 0)
  | _, .nan => (.nan, 0)
  | .inf _, .zero _ => (.nan, fInvalid)
  | .zero _, .inf _ => (.nan, fInvalid)
  | .inf _, _ => (.inf s, 0)
  | _, .inf _ => (.inf s, 0)
  | .zero _, _ => (.zero s, 0)
  | _, .zero _ => (.zero s, 0)
  | .fin m1 e1, .fin m2 e2 => (.fin (m1 * m2) (e1 + e2), 0)

/-- The exact sum of finite values and zeros, as a dyadic. -/
def sumDyadic (xs : List Xr) : Int × Int :=
  xs.foldl (fun a x => match x with | .fin m e => addDyadic a.1 a.2 m e | _ => a) (0, 0)

/-- EXACTSUM16 over pairs of values (07 R135). -/
def exactSum (ps : List (Xr × Xr)) : Xr × BitVec 5 :=
  let prods := ps.map (fun p => xmul p.1 p.2)
  if ps.any (fun p => p.1 == .nan || p.2 == .nan) then (.nan, 0)
  else if prods.any (fun q => q.2 != 0) then (.nan, fInvalid)
  else
    let xs := prods.map Prod.fst
    match xs.contains (.inf false), xs.contains (.inf true) with
    | true, true => (.nan, fInvalid)
    | true, false => (.inf false, 0)
    | false, true => (.inf true, 0)
    | false, false =>
      let (m, e) := sumDyadic xs
      if m = 0 then (.zero (xs.all (· == .zero true)), 0) else (.fin m e, 0)

/-- Pack and unpack elements of b bits, element 0 lowest (07 R133). -/
def elems (b n v : Nat) : List Nat := (List.range n).map (fun k => v / 2 ^ (b * k) % 2 ^ b)
def packElems (b : Nat) (es : List Nat) : Nat := es.foldr (fun e acc => e % 2 ^ b + 2 ^ b * acc) 0

/-- One block of R140: acc + S·2^(sA + sB − 254), one rounding. The accumulator is an FP32 pattern; the flag of a
signalling accumulator is the caller's. DESIGN CHOICE (log 23): an infinite accumulator and an opposite infinite block sum
raise the invalid flag, which no description of a dot product names. -/
def blockAcc (rm : Nat) (acc : Nat) (ps : List (Xr × Xr)) (sa sb : Nat) : Nat × BitVec 5 :=
  let (s, f1) := exactSum ps
  if sa = 0xFF ∨ sb = 0xFF then (Fmt.canNan .fp32, f1 ||| fInvalid)
  else
    let (y, f2) := xadd rm (val .fp32 acc) (s.scale ((sa : Int) + sb - 254))
    let (r, f3) := round .fp32 rm y
    (r, f1 ||| f2 ||| f3)

/-- Compare two values that are no NaN: a < b. −0 equals +0. -/
def xlt (a b : Xr) : Bool :=
  match a, b with
  | .inf s, .inf t => s && !t
  | .inf s, _ => s
  | _, .inf t => !t
  | .zero _, .zero _ => false
  | .zero _, .fin m _ => decide (0 < m)
  | .fin m _, .zero _ => decide (m < 0)
  | .fin m1 e1, .fin m2 e2 => decide ((addDyadic m1 e1 (-m2) e2).1 < 0)
  | _, _ => false
def xeq (a b : Xr) : Bool := a != .nan && b != .nan && !xlt a b && !xlt b a

/-- FMIN and FMAX on patterns (07 R146). -/
def minMax (f : Fmt) (mx : Bool) (p q : Nat) : Nat × BitVec 5 :=
  let a := val f p
  let b := val f q
  let fl := readFlag f p ||| readFlag f q
  if fl ≠ 0 ∨ (a = .nan ∧ b = .nan) then (f.canNan, fl)
  else if a = .nan then (q, 0)
  else if b = .nan then (p, 0)
  else
    let aLess := xlt a b || (xeq a b && a.isNeg && !b.isNeg)
    (if aLess != mx then p else q, 0)

/-- FCMP: the comparison and its flag (07 R147). -/
def fcompare (cc : Nat) (p q : Nat) : Bool × BitVec 5 :=
  let a := val .fp32 p
  let b := val .fp32 q
  let un := a == .nan || b == .nan
  let sn := readFlag .fp32 p ||| readFlag .fp32 q
  let fl := if un && decide (2 ≤ cc ∧ cc ≤ 5) then sn ||| fInvalid else sn
  (match cc with
   | 0 => xeq a b
   | 1 => !xeq a b
   | 2 => !un && xlt a b
   | 3 => !un && !xlt b a
   | 4 => !un && xlt b a
   | 5 => !un && !xlt a b
   | _ => un, fl)

/-- The integer comparisons of ICMP (06 R116); tst works on the patterns. -/
def icompare (cc : Nat) (a b : Int) (pa pb : Nat) : Bool :=
  match cc with
  | 0 => decide (a = b) | 1 => decide (a ≠ b) | 2 => decide (a < b) | 3 => decide (a ≤ b)
  | 4 => decide (b < a) | 5 => decide (b ≤ a) | _ => decide (pa &&& pb ≠ 0)

/-- How a comparison combines with the old predicate (06 R116). -/
def combine (cb : Nat) (old q : Bool) : Bool :=
  match cb with | 0 => q | 1 => old && q | 2 => old || q | _ => old && !q

end Sys2Proof.Machine
end

