-- ==== Sys2Proof/Machine/Log.lean ====
section
/-! DEFINITION. What the device tells the host (24 R399) and the machine-check log (21 R370-R372), and the errors of lines of
memory, which the first access that reaches the line finds (21 R369). -/

namespace Sys2Proof.Machine

/-! ### Notifications to the host (24 R399) -/

/-- Append a notification for a queue; NOTIFICATION_WRITE writes it when there is room. -/
def notify (s : State) (q : Nat) (n : Note) : State :=
  let x := getQueue s q
  setQueue s q { x with notes := x.notes ++ [n] }

/-- The queue that a job's records go to, with the first and last sequence numbers of its notification: the queue and the
entry it came from (24 R399). DESIGN CHOICE (log 19): a job that JPOST posted came from no entry; its records go to queue 0
with 0 in both fields. -/
def jobQueue (s : State) (ctx serial : Nat) : Nat × W32 :=
  match getJob s ctx serial with
  | some j => match j.queue with | some (q, n, _) => (q, n) | none => (0, 0)
  | none => (0, 0)

/-- CYCLE has advanced by a free amount when it is read (log 6). -/
def tickCycle (s : State) (core : Nat) : State :=
  let (f, s) := freshFree s
  { s with cycle := Sparse.set 0 s.cycle core (Sparse.get 0 s.cycle core + Config.elapsed f) }

/-! ### The machine-check log (21 R370-R372) -/

/-- The fields of a machine-check record. -/
structure McRec where
  pc : W64
  addr : W64
  blk : Option Nat
  ctx : Nat
  core : Nat
  gang : Nat
  lane : Nat
  op : Nat
  unit : Nat
  check : Nat
  cause : Nat
  outcome : Nat
  acc : Nat
  rc : Nat
  residue : Option Nat := none
  cycle : Option W64 := none
  deriving DecidableEq, Repr

/-- Place a field of a record. -/
def fld (lo w v : Nat) : Nat := v % 2 ^ w * 2 ^ lo

/-- Put a record into the log's ring: the model's list of the newest records, and the record's 64 bytes in HBM
(21 R372; log 15). -/
def appendMck (s : State) (seq : Nat) (rec_ : BitVec 512) : State :=
  writeBytes { s with cfg := { s.cfg with mclogn := BitVec.ofNat 32 seq },
                      mclog := (s.mclog ++ [rec_]).drop (s.mclog.length + 1 - Config.mclogCap) }
    (s.cfg.mclogPa + 64 * ((seq - 1) % Config.mclogCap)) (leBytes 64 rec_.toNat)
/-- Write a record to the log, count it, and tell the host of the kinds that R372 names. -/
def writeMck (s : State) (m : McRec) : State :=
  let seq := s.cfg.mclogn.toNat + 1
  let blk := m.blk.bind (getBlock s)
  let (f, s) := freshFree s
  let s := if m.core < 192 && m.cycle.isNone then tickCycle s m.core else s
  let now := if m.core < 192 then Sparse.get 0 s.cycle m.core else s.heart
  let res := match m.residue with
    | some r => r
    | none => if m.check = 0 ∨ m.check = 2 ∨ m.check = 3 then (Config.residue f).toNat else 0
  let bits := fld 448 64 (m.cycle.getD now).toNat + fld 384 64 m.pc.toNat + fld 320 64 m.addr.toNat +
    (match blk with
     | some b => fld 256 64 (handleOf b.ctx b.serial).toNat + fld 224 32 b.num + fld 192 16 b.scope +
                 fld 128 32 b.rbcount.toNat
     | none => 0) +
    fld 208 16 m.ctx + fld 160 32 seq + fld 120 8 m.core + fld 112 8 m.gang +
    fld 104 8 (match blk with | some b => b.tid m.lane | none => m.lane) + fld 96 8 m.lane + fld 88 8 m.op +
    fld 84 4 m.unit + fld 80 4 m.check + fld 72 8 m.cause + fld 64 8 m.outcome + fld 56 8 m.acc + fld 48 8 m.rc +
    fld 40 8 (if m.check = 0 then (res + 1) % 7 else res) + fld 32 8 (if m.check = 0 then res % 7 else 0)
  let s := appendMck s seq (BitVec.ofNat 512 bits)
  if (2 ≤ m.outcome ∧ m.outcome ≤ 5) ∨ (m.outcome = 0 ∧ (m.check = 7 ∨ m.check = 8)) then
    let (q, n) := match blk with | some b => jobQueue s b.ctx b.serial | none => (0, 0)
    notify s q { kind := 3, status := m.outcome, first := n, last := n, ctx := m.ctx, value := BitVec.ofNat 64 seq }
  else s

/-- A record for the log: those of corrected errors spend the trace budget of the period, and are only counted once it
is spent (21 R372). -/
def logMck (s : State) (m : McRec) : State :=
  if m.outcome = 0 ∧ m.check ≠ 7 ∧ m.check ≠ 8 then
    let s := { s with cfg := { s.cfg with corrected := s.cfg.corrected + 1 } }
    if s.cfg.budgets.trace < s.act.trace + 64 then s
    else writeMck { s with act := { s.act with trace := s.act.trace + 64 } } m
  else writeMck s m

/-! ### Errors of lines of memory (21 R369) -/

/-- The unit that holds a line of memory: L2 or HBM, which the model does not tell apart (21 R371; log 6). -/
def lineHolder (s : State) : Nat × State :=
  let (f, s) := freshFree s
  (if Config.inL2 f then 12 else 13, s)
/-- The record of an error of L2 or HBM that no block consumes. -/
def lineRec (unit check cause outcome : Nat) : McRec :=
  { pc := 0, addr := 0, blk := none, ctx := 0, core := 0xFF, gang := 0, lane := 0, op := 0, unit := unit, check := check,
    cause := cause, outcome := outcome, acc := 0, rc := 0 }
/-- The record of a corrected register or storage error. -/
def fixedRec (b : Block) (op : Nat) (pc : W64) (gang lane unit : Nat) : McRec :=
  { pc := pc, addr := 0, blk := some b.uid, ctx := b.ctx, core := b.core, gang := gang, lane := lane, op := op, unit := unit,
    check := 2, cause := 0, outcome := 0, acc := 0, rc := 0 }
/-- The party of an access that no block makes. -/
def noParty : McRec := lineRec 0 0 0 0
/-- The party of an access of a block, with the line of its virtual address (21 R370, R371). -/
def partyOf (b : Block) (op : Nat) (pc : W64) (gang lane va : Nat) : McRec :=
  { fixedRec b op pc gang lane 0 with addr := BitVec.ofNat 64 (va / 64 * 64) }
/-- An access reaches a line (21 R369): an error that the line's code corrects, or that a clean L2 line is fetched again for,
is gone and counted, with a record that names the party; any other poisons the line, and this access has found it first
(21 R370, R371). -/
def meetLine (s : State) (pa : Nat) (by_ : McRec := noParty) : State :=
  let l := pa / 64
  match s.lineErrs.find? (fun e => e.1 == l) with
  | none => s
  | some (_, .uncorrectable) => if s.poison.contains l then s else { s with poison := s.poison ++ [l] }
  | some (_, e) =>
    let s := { s with lineErrs := s.lineErrs.filter (fun e => e.1 != l) }
    let (unit, s) := if e = .single then lineHolder s else (12, s)
    logMck s { by_ with unit := unit, check := if e = .single then 2 else 3, cause := 0, outcome := 0 }
/-- The access that has found an uncorrectable error has reported it: what meets its line from now on consumes poison
(21 R371). -/
def settleFound (s : State) : State :=
  { s with lineErrs := s.lineErrs.filter (fun e => !(e.2 == .uncorrectable && s.poison.contains e.1)) }
/-- A write of a whole line forms its code again: what was wrong with the line is gone (21 R369). -/
def renewLine (s : State) (l : Nat) : State :=
  { s with poison := s.poison.filter (· != l), lineErrs := s.lineErrs.filter (fun e => e.1 != l) }
/-- The line of a physical address is poisoned (21 R369). -/
def poisoned (s : State) (pa n : Nat) : Bool := s.poison.any (fun l => pa / 64 ≤ l && l ≤ (pa + n - 1) / 64)
/-- The kind of check of an access that meets a poisoned line: of the one that first finds the error, or of a later one
(21 R371). -/
def poisonCheck (s : State) (pa n : Nat) : Nat :=
  if s.lineErrs.any (fun e => decide (pa / 64 ≤ e.1) && decide (e.1 ≤ (pa + n - 1) / 64)) then 3 else 6
/-- The same party at a later line. -/
def McRec.line (m : McRec) (k : Nat) : McRec := if m.blk.isSome then { m with addr := m.addr + BitVec.ofNat 64 (64 * k) } else m
/-- An access reaches every line of n bytes. -/
def meetLines (s : State) (pa n : Nat) (by_ : McRec := noParty) : State :=
  (List.range ((pa + n - 1) / 64 - pa / 64 + 1)).foldl (fun s k => meetLine s (pa / 64 * 64 + 64 * k) (by_.line k)) s
/-- The event of the agenda that an error strikes a line of memory (21 R369). -/
def strikeLine (s : State) (l : Nat) (e : LineErr) : State :=
  if s.poison.contains l then s else { s with lineErrs := s.lineErrs.filter (fun x => x.1 != l) ++ [(l, e)] }

end Sys2Proof.Machine
end

