-- ==== Sys2Proof/Machine/Walker.lean ====
section
/-! DEFINITION. Address translation (09 R200-R205): the page-walker engines as RV64IM harts that run a context's routine
from the walk store, the result word, the cached translations and the permission checks. The RV64IM instruction
meanings are those of the RISC-V base (log 7). -/

namespace Sys2Proof.Machine

/-! ### RV64IM -/

/-- What ends a routine early: a poisoned line that it meets (21 R369), a frame of pool metadata (17 R326), or an address
that no memory backs (01 R17; log 4). -/
inductive WalkStop where
  | poison (line : Nat)
  | typed
  | absent
  deriving DecidableEq, Repr
/-- A walker hart: its pc as an offset in the walk store, its registers, memory as it leaves it, the lines that it has
reached, and what has ended it. -/
structure Rv where
  pc : Nat
  x : Sparse W64
  mem : Sparse Byte
  lines : List Nat
  stop : Option WalkStop
  deriving DecidableEq, Repr

/-- The return address that ends a routine: the first offset past the 64 KiB walk store (log 7). -/
def walkRet : Nat := 0x10000

def Rv.get (r : Rv) (n : Nat) : W64 := Sparse.get 0 r.x n
def Rv.put (r : Rv) (n : Nat) (v : W64) : Rv := if n = 0 then r else { r with x := Sparse.set 0 r.x n v }
def Rv.next (r : Rv) : Rv := { r with pc := r.pc + 4 }

/-- Integer register operations of RV64IM at a width, on unsigned patterns. -/
def rvAlu (n f3 f7 : Nat) (a b : Nat) : Option Nat :=
  let sa := sx n a
  let sb := sx n b
  let sh := b % n
  let md := 2 ^ n
  if f7 = 1 then
    match f3 with
    | 0 => some (a * b % md)
    | 1 => some (lowBits n (sa * sb / (2 : Int) ^ n))
    | 2 => some (lowBits n (sa * (b : Int) / (2 : Int) ^ n))
    | 3 => some (a * b / md)
    | 4 => some (if b = 0 then md - 1 else lowBits n (sa.tdiv sb))
    | 5 => some (if b = 0 then md - 1 else a / b)
    | 6 => some (if b = 0 then a else lowBits n (sa.tmod sb))
    | 7 => some (if b = 0 then a else a % b)
    | _ => none
  else
    match f3, f7 with
    | 0, 0 => some ((a + b) % md)
    | 0, 0x20 => some ((a + md - b) % md)
    | 1, 0 => some (a * 2 ^ sh % md)
    | 2, 0 => some (if sa < sb then 1 else 0)
    | 3, 0 => some (if a < b then 1 else 0)
    | 4, 0 => some (a ^^^ b)
    | 5, 0 => some (a / 2 ^ sh)
    | 5, 0x20 => some (lowBits n (sa / (2 : Int) ^ sh))
    | 6, 0 => some (a ||| b)
    | 7, 0 => some (a &&& b)
    | _, _ => none

/-- The frame lies in the metadata of an installed pool (17 R326). -/
def inMetadata (s : State) (pa : Nat) : Bool := s.pools.any (fun p => p.metaFrames.contains (pa / 4096))
/-- What an access of a walk routine meets at a physical address. -/
def walkMeets (s : State) (pa : Nat) : Option WalkStop :=
  if !backed s pa then some .absent else if inMetadata s pa then some .typed
  else if s.poison.contains (pa / 64) || s.lineErrs.contains (pa / 64, .uncorrectable) then some (.poison (pa / 64)) else none

/-- One instruction of a walk routine; none for a word that RV64IM does not define or that leaves the hart. -/
def rvStep (meets : Nat → Option WalkStop) (store : Sparse Byte) (r : Rv) : Option Rv :=
  let w := leVal ((List.range 4).map (fun k => Sparse.get 0 store (r.pc + k)))
  let op := w % 128
  let rd := natBits w 7 5
  let f3 := natBits w 12 3
  let rs1 := natBits w 15 5
  let rs2 := natBits w 20 5
  let f7 := natBits w 25 7
  let a := (r.get rs1).toNat
  let b := (r.get rs2).toNat
  let immI := sx 12 (natBits w 20 12)
  let immS := sx 12 (natBits w 25 7 * 32 + rd)
  let immB := sx 13 (4096 * natBits w 31 1 + 2048 * natBits w 7 1 + 32 * natBits w 25 6 + 2 * natBits w 8 4)
  let immU := sx 32 (4096 * natBits w 12 20)
  let immJ := sx 21 (1048576 * natBits w 31 1 + 4096 * natBits w 12 8 + 2048 * natBits w 20 1 + 2 * natBits w 21 10)
  let jump (t : Int) : Nat := lowBits 64 t
  match op with
  | 0x37 => some ((r.put rd (BitVec.ofInt 64 immU)).next)
  | 0x17 => some ((r.put rd (BitVec.ofInt 64 (r.pc + immU))).next)
  | 0x6F => some { r.put rd (BitVec.ofNat 64 (r.pc + 4)) with pc := jump (r.pc + immJ) }
  | 0x67 =>
    let t := jump (a + immI)
    some { r.put rd (BitVec.ofNat 64 (r.pc + 4)) with pc := t - t % 2 }
  | 0x63 =>
    let c : Option Bool :=
      match f3 with
      | 0 => some (a == b)
      | 1 => some (a != b)
      | 4 => some (decide (sx 64 a < sx 64 b))
      | 5 => some (decide (sx 64 b ≤ sx 64 a))
      | 6 => some (decide (a < b))
      | 7 => some (decide (b ≤ a))
      | _ => none
    match c with
    | some true => some { r with pc := jump (r.pc + immB) }
    | some false => some r.next
    | none => none
  | 0x03 =>
    let addr := lowBits 64 (a + immI)
    let n := 2 ^ (f3 % 4)
    let v := leVal ((List.range n).map (fun k => Sparse.get unlisted r.mem (addr + k)))
    let v' := if f3 < 4 then lowBits 64 (sx (8 * n) v) else v
    if f3 = 7 then none
    else match meets addr with
      | some e => some { r with stop := some e, pc := walkRet }
      | none => some (({ r with lines := addr / 64 :: r.lines }.put rd (BitVec.ofNat 64 v')).next)
  | 0x23 =>
    let addr := lowBits 64 (a + immS)
    if 4 ≤ f3 then none
    else match meets addr with
      | some e => some { r with stop := some e, pc := walkRet }
      | none => some { r with mem := putBytes r.mem addr (leBytes (2 ^ f3) b), lines := addr / 64 :: r.lines, pc := r.pc + 4 }
  | 0x13 =>
    let imm := lowBits 64 immI
    let v :=
      match f3 with
      | 1 => if natBits w 26 6 = 0 then rvAlu 64 1 0 a (natBits w 20 6) else none
      | 5 => if natBits w 26 6 = 0 then rvAlu 64 5 0 a (natBits w 20 6)
             else if natBits w 26 6 = 0x10 then rvAlu 64 5 0x20 a (natBits w 20 6) else none
      | _ => rvAlu 64 f3 0 a imm
    v.map fun x => (r.put rd (BitVec.ofNat 64 x)).next
  | 0x33 => (rvAlu 64 f3 f7 a b).map fun x => (r.put rd (BitVec.ofNat 64 x)).next
  | 0x1B =>
    let v :=
      match f3 with
      | 0 => rvAlu 32 0 0 (a % 2 ^ 32) (lowBits 32 immI)
      | 1 => if f7 = 0 then rvAlu 32 1 0 (a % 2 ^ 32) rs2 else none
      | 5 => if f7 = 0 ∨ f7 = 0x20 then rvAlu 32 5 f7 (a % 2 ^ 32) rs2 else none
      | _ => none
    v.map fun x => (r.put rd (BitVec.ofInt 64 (sx 32 x))).next
  | 0x3B =>
    if f7 = 1 ∧ f3 ≠ 0 ∧ f3 < 4 then none
    else if f7 ≠ 1 ∧ (f3 = 2 ∨ f3 = 3 ∨ f3 = 4 ∨ 6 ≤ f3) then none
    else (rvAlu 32 f3 f7 (a % 2 ^ 32) (b % 2 ^ 32)).map fun x => (r.put rd (BitVec.ofInt 64 (sx 32 x))).next
  | 0x0F => some r.next
  | _ => none

/-- Run a routine for at most `fuel` instructions (09 R202): the hart as it ends, and whether it returned. -/
def rvRun (meets : Nat → Option WalkStop) (store : Sparse Byte) (fuel : Nat) (r : Rv) : Rv × Bool :=
  match fuel with
  | 0 => (r, r.pc = walkRet)
  | n + 1 =>
    if r.pc = walkRet then (r, true)
    else match rvStep meets store r with
      | some r' => rvRun meets store n r'
      | none => (r, false)

/-- A hart at an entry of the walk store with its arguments a0-a4 (09 R202; a4 serves the split entry, log 7). -/
def rvStart (s : State) (entry : Nat) (args : List W64) : Rv :=
  let rec load (r : Rv) (n : Nat) : List W64 → Rv
    | [] => r
    | v :: t => load (r.put n v) (n + 1) t
  load ({ pc := entry, x := [], mem := s.mem, lines := [], stop := none : Rv }.put 1 (BitVec.ofNat 64 walkRet)) 10 args

/-! ### Walks -/

/-- log2 of the page size of a result word (09 R202). -/
def pageShift (word : W64) : Nat :=
  match natBits word.toNat 61 2 with
  | 0 => 12 | 1 => 16 | 2 => 21 | _ => 30

/-- A result word that names a translation: val set, reserved bits zero, pfn aligned to the page (09 R202). -/
def walkValid (word : W64) : Bool :=
  let n := word.toNat
  natBit n 63 && natBits n 52 3 == 0 && natBits n 0 12 == 0 && natBits n 0 52 % 2 ^ pageShift word == 0

/-- What a translation gives. -/
inductive Trans where
  | ok (pa : Nat)
  | page
  | perm
  | poison (pa : Nat)
  deriving DecidableEq, Repr

/-- The lines that a hart has reached, that of the poison that has ended it included. -/
def meetAll (s : State) (r : Rv) : State :=
  let s := r.lines.foldl (fun s l => meetLine s (64 * l)) s
  match r.stop with | some (.poison l) => meetLine s (64 * l) | _ => s
/-- Run a context's walk routine for an address and an access kind: the result word, none for no translation, and the
state that the routine's own stores leave, those of one that never returns too (09 R202). Each line that it reaches shows
the error that stands in it (21 R369). -/
def runWalk (s : State) (c : Ctx) (kind va : Nat) : (Except WalkStop (Option W64)) × State :=
  let r := rvStart s (natBits c.walk.toNat 0 16) [BitVec.ofNat 64 va, BitVec.ofNat 64 c.id, c.root, BitVec.ofNat 64 kind]
  let (r', done) := rvRun (walkMeets s) s.walkStore Config.walkLimit r
  let s' := { s with mem := r'.mem, act := { s.act with walks := s.act.walks + 1 } }
  let s' := meetAll s' r'
  match r'.stop with
  | some e => (.error e, s')
  | none => (.ok (if done && walkValid (r'.get 10) then some (r'.get 10) else none), s')

/-- The walkers have not spent their budget of the period: a walk beyond it waits for the next one (09 R202, 24 R406). -/
def walksOpen (s : State) : Bool := decide (s.act.walks < s.cfg.budgets.walks)

/-- The result word grants the access at the level of the party (09 R203). -/
def grants (word : W64) (kernel : Bool) (kind : Nat) : Bool :=
  let n := word.toNat
  if kind = 3 then (if kernel then natBit n 57 else natBit n 58)
  else (if kind = 0 then natBit n 60 else natBit n 59) && (kernel || natBit n 56)

/-- The physical address of an address on the page of a result word. -/
def physOf (word : W64) (va : Nat) : Nat := natBits word.toNat 0 52 + va % 2 ^ pageShift word

/-! ### Cached translations -/

/-- Who translates: a lane position of an issue slot of a core, the engines of a core, or code fetch (09 R201). -/
inductive Asker where
  | lane (core slot lane : Nat)
  | engine (core : Nat)
  | fetch (core : Nat)
  | device
  deriving DecidableEq, Repr

/-- The levels an asker looks at, nearest first (09 R201). -/
def Asker.levels : Asker → List TlbPlace
  | .lane c i l => [.lastPage c i l, .core c, .terrace (c / 4)]
  | .engine c => [.core c, .terrace (c / 4)]
  | .fetch c => [.fetch c, .terrace (c / 4)]
  | .device => []

/-- An entry covers an address of a context. -/
def TlbE.covers (e : TlbE) (ctx va : Nat) : Bool :=
  e.ctx == ctx && e.va / 2 ^ pageShift e.word == va / 2 ^ pageShift e.word

/-- Entries held at a level (09 R201). -/
def tlbCap : TlbPlace → Nat
  | .lastPage _ _ _ => 1
  | .core _ => 512
  | .terrace _ => 8192
  | .fetch _ => 64

/-- Put an entry at a level: it replaces one for the same page and displaces the oldest of a full level. -/
def tlbFill (l : List TlbE) (e : TlbE) : List TlbE :=
  let others := l.filter (fun x => x.place != e.place)
  let here := (l.filter (fun x => x.place == e.place && !(x.covers e.ctx e.va))).take (tlbCap e.place - 1)
  e :: here ++ others

/-- Fill levels with a translation. -/
def tlbFillIn (s : State) (ps : List TlbPlace) (ctx va : Nat) (word : W64) : State :=
  { s with tlb := ps.foldl (fun l p => tlbFill l { place := p, ctx := ctx, va := va, word := word }) s.tlb }
/-- Fill every level of the asker with a translation. -/
def tlbFillAll (s : State) (a : Asker) (ctx va : Nat) (word : W64) : State := tlbFillIn s a.levels ctx va word
/-- A translation that a level served fills every level below it (09 R201). -/
def tlbFillBelow (s : State) (a : Asker) (e : TlbE) (ctx va : Nat) : State :=
  tlbFillIn s (a.levels.takeWhile (· != e.place)) ctx va e.word
/-- The asker's levels lose the translation of a page: a second walk has found none (09 R203). -/
def tlbForget (s : State) (a : Asker) (ctx va : Nat) : State :=
  { s with tlb := s.tlb.filter (fun e => !(a.levels.contains e.place && e.covers ctx va)) }

/-- The first level that holds an entry which grants the access (09 R201). -/
def tlbLook (s : State) (a : Asker) (ctx va : Nat) (kernel : Bool) (kind : Nat) : Option TlbE :=
  (a.levels.filterMap fun p => s.tlb.find? (fun e => e.place == p && e.covers ctx va && grants e.word kernel kind)).head?

/-- The end of a translation: typed metadata frames refuse every access (17 R326). An address that no memory of the part
backs is no translation (01 R17; DESIGN CHOICE, log 4). -/
def physCheck (s : State) (pa : Nat) : Trans := if !backed s pa then .page else if inMetadata s pa then .perm else .ok pa

/-- Where an address of the kernel context lies in the machine-check log, while a kernel is installed (21 R372). -/
def logOffset (s : State) (ctx va : Nat) : Option Nat :=
  let base := s.cfg.mclog.toNat
  if s.cfg.mclog ≠ 0 ∧ ctx = s.kctx ∧ base ≤ va ∧ va < base + 64 * Config.mclogCap then some (va - base) else none

/-- The mapping of an address for an access kind (0 read, 1 write, 2 atomic, 3 fetch) at a level in a context
(09 R200-R203). The firmware's mapping of the machine-check log comes first: reads at kernel level (21 R372; log 15). A
cached entry that grants the access serves it, but a write through one with wd = 0 walks again, that walk decides it, and
its result replaces the entry. -/
def mapAddr (s : State) (a : Asker) (ctx : Nat) (kernel : Bool) (kind va : Nat) : Trans × State :=
  if 2 ^ 57 ≤ va then (.page, s) else
  match getCtx s ctx with
  | none => (.page, s)
  | some c =>
    let walkIt : Trans × State :=
      match runWalk s c kind va with
      | (.error (.poison line), s1) => (.poison (64 * line), s1)
      | (.error .typed, s1) => (.perm, s1)
      | (.error .absent, s1) => (.page, s1)
      | (.ok none, s1) => (.page, tlbForget s1 a ctx va)
      | (.ok (some word), s1) =>
        let s2 := tlbFillAll s1 a ctx va word
        if grants word kernel kind then (.ok (physOf word va), s2) else (.perm, s2)
    match logOffset s ctx va with
    | some o => (if kernel ∧ kind = 0 then .ok (s.cfg.mclogPa + o) else .perm, s)
    | none =>
    match tlbLook s a ctx va kernel kind with
    | some e =>
      if (kind = 1 ∨ kind = 2) ∧ natBit e.word.toNat 55 = false then walkIt
      else (.ok (physOf e.word va), tlbFillBelow s a e ctx va)
    | none => walkIt
/-- The virtual address of the first poisoned line that n bytes at va, physical pa, touch (21 R369). -/
def poisonVa (s : State) (pa va n : Nat) : Nat :=
  match (List.range ((pa + n - 1) / 64 - pa / 64 + 1)).find? (fun k => s.poison.contains (pa / 64 + k)) with
  | some k => va / 64 * 64 + 64 * k
  | none => va / 64 * 64

/-- Remove every cached translation that a test picks. -/
def tlbDrop (s : State) (p : TlbE → Bool) : State := { s with tlb := s.tlb.filter (fun e => !p e) }

end Sys2Proof.Machine
end

