-- ==== Sys2Proof/Machine/Ops.lean ====
section
/-! DEFINITION. The named operations over registers and memory that every family shares: reading a lane's operands,
writing results, scratchpad and global memory with the store-hold queue and the cellar, trace and notification records,
raising a fault, taking a trap at task level and returning from it, and the outstanding results of a thread. -/

namespace Sys2Proof.Machine

/-! ### A lane of an issue -/

/-- A thread with its gang and block, as an issue sees it. -/
structure Lane where
  t : Thread
  g : Gang
  b : Block
  deriving DecidableEq, Repr

/-- The lane of a thread. -/
def laneOf (s : State) (b g l : Nat) : Option Lane :=
  match getThread s b g l, getGang s b g, getBlock s b with
  | some t, some x, some y => some ⟨t, x, y⟩
  | _, _, _ => none

/-- One v register of the thread. -/
def Lane.v (x : Lane) (n : Nat) : Nat := (Sparse.get 0 x.t.v n).toNat
/-- One s register of the gang. -/
def Lane.s (x : Lane) (n : Nat) : Nat := (Sparse.get 0 x.g.s n).toNat
/-- READREG(f, N) of 08 R162. -/
def Lane.rd (x : Lane) (f : Reg) (n : Nat) : Nat :=
  let k := f.toNat
  if k < 192 then
    if n ≤ 32 then x.v k % 2 ^ n
    else if n ≤ 64 then x.v (k + 1) * 2 ^ 32 + x.v k
    else x.v (k + 3) * 2 ^ 96 + x.v (k + 2) * 2 ^ 64 + x.v (k + 1) * 2 ^ 32 + x.v k
  else if n ≤ 64 then x.s (k - 192) % 2 ^ n
  else x.s (k - 191) * 2 ^ 64 + x.s (k - 192)
/-- One predicate of the thread. -/
def Lane.pr (x : Lane) (n : Nat) : Bool := x.t.p.getLsbD n
/-- The guard (02 R34). -/
def Lane.guard (k : Ctl) (x : Lane) : Bool :=
  if 48 ≤ k.gi.toNat then true else x.pr k.gi.toNat != k.gn
/-- The v registers that the gang holds (05 R88). -/
def Gang.limit (g : Gang) : Nat := 8 * (g.base + g.ext)
/-- Thread index: the logical one in protected mode (05 R101). -/
def Lane.tid (x : Lane) : Nat := x.b.tid x.t.lane
/-- A buffer record of the block. -/
def Block.recOf (b : Block) (n : Nat) : BitVec 256 := Sparse.get 0 b.recs n

/-! ### Waking: stalled bundles look again -/

/-- Clear the stall marks: an engine has moved, so a bundle that waits for an entry tries again (05 R99 reason 9). -/
def unstall (s : State) : State := { s with bundles := s.bundles.map (fun b => { b with stalled := false }) }

/-! ### Translation, and the errors of the line that it leads to -/

/-- Translate an address for an access of a party: the mapping, and frames of pool metadata refuse it (17 R326). The line
that the access reaches shows the error that stands in it. -/
def translate (s : State) (a : Asker) (ctx : Nat) (kernel : Bool) (kind va : Nat) (by_ : McRec := noParty) : Trans × State :=
  match mapAddr s a ctx kernel kind va with
  | (.ok pa, s1) => (physCheck s1 pa, if physCheck s1 pa = .ok pa then meetLine s1 pa by_ else s1)
  | r => r

/-! ### Writes on behalf of a context -/

/-- Write bytes at a virtual address of a context for the device, at a level; none where the translation fails or the
line is poisoned (21 R369). -/
def ctxWrite (s : State) (ctx : Nat) (kernel : Bool) (va : Nat) (bytes : List Byte) : Option State :=
  match translate s .device ctx kernel 1 va with
  | (.ok pa, s1) =>
    let s1 := meetLines s1 pa bytes.length
    if poisoned s1 pa bytes.length then none else some (writeBytes s1 pa bytes)
  | (_, _) => none

/-- What such a write leaves where it is not made: the walk it has needed, and the lines that it has met, a poisoned one found
(21 R369). -/
def ctxMeet (s : State) (ctx : Nat) (kernel : Bool) (va n : Nat) : State :=
  match translate s .device ctx kernel 1 va with
  | (.ok pa, s1) => meetLines s1 pa n
  | (_, s1) => s1

/-- Read bytes at a virtual address of a context for the device. -/
def ctxRead (s : State) (ctx : Nat) (kernel : Bool) (va n : Nat) : Option (List Byte) × State :=
  match translate s .device ctx kernel 0 va with
  | (.ok pa, s1) =>
    let s1 := meetLines s1 pa n
    (if poisoned s1 pa n then none else some (readBytes s1 pa n), s1)
  | (_, s1) => (none, s1)

/-- Where such an access meets a poisoned line, in what it reaches or in the page tables (21 R369). -/
def ctxPoison (s : State) (ctx : Nat) (kernel : Bool) (kind va n : Nat) : Option Nat :=
  match translate s .device ctx kernel kind va with
  | (.ok pa, s1) => if poisoned (meetLines s1 pa n) pa n then some pa else none
  | (.poison pa, _) => some pa
  | _ => none

/-! ### Releases and the tags of global words (08 R167, R179) -/

/-- A scope covers two different blocks on cores (08 R167). -/
def coversCores (scope a b : Nat) : Bool :=
  match scope with
  | 0 => false
  | 1 => a / 4 == b / 4
  | 2 => a / 24 == b / 24
  | _ => true
/-- What the scope of a release covers with its block now (08 R167). -/
def coverOf (s : State) (b : Block) (scope : Nat) : Cover :=
  if 3 ≤ scope then .all
  else .blocks ((s.blocks.filter (fun q => q.resident && coversCores scope b.core q.core)).map Block.uid)
/-- The same for a block by its uid: one that has gone covers no core any more. -/
def relCover (s : State) (blk scope : Nat) : Cover :=
  match getBlock s blk with | some b => coverOf s b scope | none => if 3 ≤ scope then .all else .blocks []
/-- The block's release count rises by one (08 R179). -/
def bumpRel (s : State) (blk : Nat) : State := modBlock s blk (fun b => { b with rel := b.rel + 1 })
/-- The 32-bit words of an access. -/
def wordsOf (addr n : Nat) : List Nat := (List.range ((addr + n - 1) / 4 - addr / 4 + 1)).map (addr / 4 + ·)
/-- No writer known. -/
def gtagNone : GTag := { blk := 0, count := 0, atomic := true, rel := none }
/-- A checked global write leaves its tag (08 R179). -/
def tagGlobal (s : State) (pa n : Nat) (t : GTag) : State :=
  { s with gtags := (wordsOf pa n).foldl (fun m w => Sparse.set gtagNone m w t) s.gtags }
/-- No writer of a 64-bit word is known. -/
def FutRel.none : FutRel := { value := 0, acq := [] }
/-- The device writes a 64-bit word for others: what a reader acquires with it, and no tag of an earlier write stands
(08 R179). -/
def setWord (s : State) (pa : Nat) (r : FutRel) : State :=
  { tagGlobal s pa 8 gtagNone with futs := Sparse.set FutRel.none s.futs pa r }

/-! ### Trace records (23 R390, R391) -/

/-- A record is not made: TRDROP rises, saturating. -/
def traceDrop (s : State) (ctx : Nat) : State :=
  modCtx s ctx (fun c => { c with trdrop := if c.trdrop.toNat + 1 < 2 ^ 32 then c.trdrop + 1 else c.trdrop })

/-- The write of a trace record is a release at device scope (23 R391): it counts for the block that it records, and a reader
of the record acquires from that block (08 R179). -/
def traceRelease (s : State) (blk pa : Nat) (rec_ : BitVec 512) : State :=
  let s := bumpRel s blk
  let acq := (getBlock s blk).elim [] fun b => [(blk, b.rel)]
  (List.range 8).foldl (fun s k => setWord s (pa + 8 * k) { value := rec_.extractLsb' (64 * k) 64, acq := acq }) s
/-- What a trace record has met is not counted against the walkers' budget, so that it delays no access (23 R391). -/
def freeWalks (s t : State) : State := { t with act := { t.act with walks := s.act.walks } }

/-- Make a trace record of a kind about a block: to the Aedov port or the ring, or dropped. It is within the device's budget
of the period (24 R406) and within the context's own where TRBUD sets one (23 R389). -/
def traceRec (s : State) (ctx kind bits : Nat) (blk : Nat := 0) : State :=
  match getCtx s ctx with
  | none => s
  | some c =>
    let on := c.trctl.getLsbD kind
    let room := s.act.trace + 64 ≤ s.cfg.budgets.trace && (c.trbud == 0 || decide (c.traceSpent + 64 ≤ c.trbud.toNat))
    let rec_ := BitVec.ofNat 512 (bits + kind)
    let spend (s : State) : State :=
      modCtx { s with act := { s.act with trace := s.act.trace + 64 } } ctx
        (fun c => { c with traceSpent := c.traceSpent + 64 })
    if !on || !room then traceDrop s ctx
    else if c.trctl.getLsbD 4 then { spend s with aedov := s.aedov ++ [rec_] }
    else if c.trsize = 0 ∨ c.trtail - c.trhead = c.trsize then traceDrop s ctx
    else
      let va := c.trbase.toNat + 64 * (c.trtail.toNat % c.trsize.toNat)
      match ctxWrite s ctx true va (leBytes 64 rec_.toNat), (translate s .device ctx true 1 va).1 with
      | some s1, .ok pa =>
        modCtx (spend (traceRelease (freeWalks s s1) blk pa rec_)) ctx (fun c => { c with trtail := c.trtail + 1 })
      | _, _ => traceDrop (freeWalks s (ctxMeet s ctx true va 64)) ctx

/-- The common fields of a store, mark or branch record. -/
def traceHead (s : State) (b : Block) (gang lane : Nat) (pc addr old new : Nat) : Nat :=
  fld 448 64 new + fld 384 64 old + fld 320 64 addr + fld 256 64 pc + fld 216 40 b.serial + fld 184 32 b.num +
  fld 168 16 b.ctx + fld 160 8 gang + fld 152 8 lane + fld 64 64 s.heart.toNat

/-- The watched region k of a context holds an address (23 R389). -/
def watched (c : Ctx) (va : Nat) : Bool :=
  (List.range 8).any fun k =>
    let w := (Sparse.get 0 c.wreg k).toNat
    let sz := natBits w 57 7
    sz ≠ 0 && decide (sz ≤ 52) && decide (va / 2 ^ (sz + 5) = natBits w 0 57 / 2 ^ (sz + 5))

/-- The store records of one performed write (23 R391): a write of 128 bits makes one for each watched half. -/
def traceStore (s : State) (blk gang lane pa : Nat) (bytes : List Byte) (i : StoreInfo) : State :=
  match getBlock s blk with
  | none => s
  | some b =>
    match getCtx s b.ctx with
    | none => s
    | some c =>
      let n := bytes.length
      let one (s : State) (o len : Nat) : State :=
        let va := i.va.toNat + o
        if watched c va then
          traceRec s b.ctx 0 (traceHead s b gang lane i.pc.toNat va (readLE s (pa + o) len)
            (leVal ((bytes.drop o).take len)) + fld 144 8 i.size + fld 128 16 i.tag.toNat) b.uid
        else s
      if n = 16 then one (one s 0 8) 8 8 else one s 0 n

/-! ### Faults and machine checks -/

/-- Append a machine check to a block, at this cycle of its core (21 R370, R380). -/
def addMcheck (s : State) (blk : Nat) (m : MCheck) : State :=
  match getBlock s blk with
  | none => s
  | some b =>
    let s := tickCycle (if m.unit = 13 then settleFound s else s) b.core
    modBlock s blk (fun b => { b with mcheck := b.mcheck ++ [{ m with cycle := Sparse.get 0 s.cycle b.core }] })

/-- Log one machine check of a block with an outcome, at the cycle of the check; `addr` is the line's, for an error of L2 or
HBM (21 R370). -/
def logCheck (b : Block) (outcome : Nat) (s : State) (m : MCheck) : State :=
  let (unit, s) := if m.unit = 13 then lineHolder s else (m.unit, s)
  logMck s
    { pc := m.pc, addr := if m.unit = 13 then m.addr &&& ~~~63#64 else 0, blk := some b.uid, ctx := b.ctx, core := b.core,
      gang := m.gang, lane := if m.cause = 0x22#8 then m.lane / 2 * 2 else m.lane, op := m.op, unit := unit, check := m.check,
      cause := m.cause.toNat, outcome := outcome, acc := m.acc, rc := m.rc, residue := m.residue,
      cycle := some m.cycle }
/-- Log the machine checks of a block with an outcome, and clear them. -/
def logChecks (s : State) (b : Block) (outcome : Nat) : State :=
  let s := b.mcheck.foldl (logCheck b outcome) s
  modBlock s b.uid (fun b => { b with mcheck := [] })
/-- A machine check that an engine consumes for a killed block is logged with outcome 2 and goes no further (21 R380). -/
def logKilled (s : State) (b : Block) (m : MCheck) : State :=
  let s := tickCycle (if m.unit = 13 then settleFound s else s) b.core
  logCheck b 2 s { m with cycle := Sparse.get 0 s.cycle b.core }

/-- A call of FAULT (08 R163) before it has a thread: cause, info, access kind, earlier party, the tag of the record that
the access named, and for a machine check the storage and the kind of check. -/
structure Flt where
  cause : Nat
  info : Nat := 0
  kind : Nat := 0xFF
  party : Nat := 0
  tag : Nat := 0
  unit : Nat := 0
  check : Nat := 0
  ladder : Nat := 1
  residue : Option Nat := none
  deriving DecidableEq, Repr
/-- ECC of an access that meets a poisoned line, with its TRINFO, at a step of the ladder (21 R369, R371, R380). -/
def lineFlt (s : State) (pa n info ladder : Nat) : Flt :=
  { cause := 0x23, info := info, unit := 13, check := poisonCheck s pa n, ladder := ladder }

/-- The record that a thread keeps of a fault at an instruction (08 R163). -/
def Flt.toRec (f : Flt) (pc : W64) : FaultRec :=
  { cause := BitVec.ofNat 8 f.cause, pc := pc, info := BitVec.ofNat 64 f.info, kind := BitVec.ofNat 8 f.kind,
    party := BitVec.ofNat 64 f.party, tag := BitVec.ofNat 16 f.tag }

/-- A fault of one thread of the issue. -/
structure LaneFlt where
  gang : Nat
  lane : Nat
  flt : Flt
  deriving DecidableEq, Repr

/-- The blocks of one gang-scheduled group (10 R213). -/
def Block.sameGroup (a b : Block) : Bool :=
  a.uid == b.uid || (a.glevel != 0 && a.ctx == b.ctx && a.serial == b.serial && a.group == b.group)

/-! ### Errors in checked storage (21 R368, R371, R380) -/

/-- The unit that holds a place (21 R371). -/
def ErrAt.unit : ErrAt → Nat
  | .sreg .. => 8 | .preds .. => 8 | .record _ => 8 | .scratch _ => 9 | .opmem .. => 10 | .acc _ => 10 | .mask _ => 10
  | .cellar => 11 | .hold => 11 | .copyPath => 6 | .arrayPath => 5 | .sievePath => 7
/-- Rollback covers an error there: a scratchpad line that has a cellar copy, a hold-queue entry, and a mismatch on a data
path (21 R380 step 1). -/
def ErrAt.covered (b : Block) : ErrAt → Bool
  | .scratch w => b.dirtyLines.contains (w / 8)
  | .hold => true
  | .copyPath => true
  | .arrayPath => true
  | .sievePath => true
  | _ => false
/-- The errors of a block that a read meets, by their places. -/
def errsAt (b : Block) (p : ErrAt → Bool) (dbl : Bool) : List StoreErr := b.errs.filter (fun e => e.dbl == dbl && p e.place)
/-- The ECC of double errors that a read meets. -/
def errFlt (b : Block) (es : List StoreErr) (info : Nat) : Flt :=
  { cause := 0x23, info := info, unit := (es.head?.map (fun e => e.place.unit)).getD 8, check := 3,
    ladder := if es.all (fun e => e.place.covered b) then 1 else 2 }
/-- Single-bit errors that a read meets are corrected, counted and gone (21 R369). -/
def correctErrs (s : State) (b : Block) (op : Nat) (pc : W64) (gang lane : Nat) (es : List StoreErr) : State :=
  if es.isEmpty then s
  else modBlock (es.foldl (fun s e => logMck s (fixedRec b op pc gang lane e.place.unit)) s) b.uid
    (fun k => { k with errs := k.errs.filter (fun e => !es.contains e) })
/-- A place that is written whole holds no error any more. -/
def healErrs (s : State) (blk : Nat) (p : ErrAt → Bool) : State :=
  modBlock s blk (fun b => { b with errs := b.errs.filter (fun e => !p e.place) })
/-- The 64-bit words of scratchpad that an access touches, as places. -/
def scratchWord (off n : Nat) : ErrAt → Bool
  | .scratch w => decide (off / 8 ≤ w) && decide (w ≤ (off + n - 1) / 8)
  | _ => false
/-- The 64-bit words of scratchpad that a write covers whole. -/
def scratchWhole (off n : Nat) : ErrAt → Bool
  | .scratch w => decide (off ≤ 8 * w) && decide (8 * w + 8 ≤ off + n)
  | _ => false
/-- The event of the agenda that an error strikes storage of a block (21 R368). -/
def strikeErr (s : State) (blk : Nat) (e : StoreErr) : State :=
  modBlock s blk (fun b => { b with errs := b.errs.filter (fun x => x.place != e.place) ++ [e] })

/-- Ask for the save of a block; a save that is already asked for carries on, and its group is saved with it
(11 R240). -/
def askSave (s : State) (blk : Nat) (r : SaveReq) : State :=
  match getBlock s blk with
  | none => s
  | some b =>
    let ask (k : Block) : Block :=
      if k.saveReq.isSome || k.killed || k.status != .running then k
      else if k.uid = b.uid then { k with saveReq := some r }
      else { k with saveReq := some { reason := 4, first := none, fromPreempt := true, bounded := false } }
    { s with blocks := updWhere s.blocks (fun k => k.sameGroup b) ask }

/-- Where a thread stands first: the lowest (gang, thread index). -/
def lowestFlt (fs : List LaneFlt) : Option LaneFlt :=
  fs.foldl (fun m f => match m with
    | none => some f
    | some g => if f.gang < g.gang ∨ (f.gang = g.gang ∧ f.lane < g.lane) then some f else some g) none

/-- Raise the faults of one issue (08 R163): every faulting thread records its own and stands at the instruction; a machine
check goes to its block's list, anything else asks for a save. -/
def raise (s : State) (blk op : Nat) (pc : W64) (fs : List LaneFlt) : State :=
  let mc := fs.filter (fun f => 0x20 ≤ f.flt.cause)
  let tr := fs.filter (fun f => f.flt.cause < 0x20)
  let s := mc.foldl (fun s f => addMcheck s blk
    { cycle := 0, cause := BitVec.ofNat 8 f.flt.cause, pc := pc, addr := BitVec.ofNat 64 f.flt.info, gang := f.gang, lane := f.lane,
      op := op, unit := f.flt.unit, check := f.flt.check, acc := 0, rc := 0, ladder := f.flt.ladder,
      residue := f.flt.residue }) s
  let s := fs.foldl (fun s f => modThread s blk f.gang f.lane (fun t =>
    { t with fault := some (f.flt.toRec pc) })) s
  match lowestFlt tr with
  | none => s
  | some f => askSave s blk { reason := if f.flt.cause = 0x09 then 1 else 3, first := some (f.gang, f.lane, f.flt.toRec pc),
                              fromPreempt := false, bounded := false }

/-! ### Rollback: cellar, hold queue, irrevocable events (21 R374-R377) -/

/-- The threads of a block as its engines count them: a lane pair of a protected block is one (21 R373). -/
def logicalThreads (s : State) (b : Nat) : Nat :=
  let ts := blockThreads s b
  match getBlock s b with
  | some k => if k.protectd then (ts.filter (fun t => t.lane % 2 == 0)).length else ts.length
  | none => ts.length
/-- Cellar bytes of the control image (21 R373, R375). -/
def imageBytes (s : State) (b : Nat) : Nat := 2048 + 640 * (blockGangs s b).length + 192 * logicalThreads s b
/-- Cellar bytes that a block uses. -/
def cellarUse (s : State) (b : Block) : Nat :=
  (if b.image then imageBytes s b.uid else 0) + 136 * b.dirtyRows.length + 72 * b.dirtyLines.length +
  17408 * b.dirtyAccs.length + 520 * b.dirtyMasks.length
/-- Free bytes of a core's 256 KiB cellar. -/
def cellarFree (s : State) (core : Nat) : Nat :=
  262144 - (((coreBlocks s core).filter Block.rollback).map (cellarUse s)).sum
/-- Entries that a core's store-hold queue holds: one for each store (21 R376). -/
def heldCount (s : State) (core : Nat) : Nat :=
  ((coreBlocks s core).map (fun b => (b.hold.filter (fun h => !h.more)).length)).sum

/-- Bytes that a context's accesses, copies and drains move count toward its bandwidth budget (10 R215). -/
def spendBytes (s : State) (blk n : Nat) : State :=
  match getBlock s blk with
  | some b => modCtx s b.ctx (fun c => { c with bytesSpent := c.bytesSpent + n })
  | none => s

/-- The bytes that a write leaves: the bits of `keep` stand as they are. -/
def keepBits (keep : Nat) (old new : List Byte) : List Byte :=
  if keep = 0 then new
  else new.mapIdx fun k b =>
    let m := BitVec.ofNat 8 (natBits keep (8 * k) 8)
    (old.getD k 0 &&& m) ||| (b &&& ~~~m)
/-- The line that a write for a block leaves dirty in the L2, for its context (21 R381). -/
def dirtyLine (s : State) (blk pa : Nat) : State :=
  match getBlock s blk with
  | some b => { s with l2 := Sparse.set 0 s.l2 (pa / 64) (b.ctx + 1) }
  | none => s
/-- Write global memory now, with its trace record and its tag: what a release covers is decided when it is performed
(08 R167). -/
def storeGlobal (s : State) (blk gang lane pa : Nat) (bytes : List Byte) (i : StoreInfo) : State :=
  let bytes := keepBits i.keep (readBytes s pa bytes.length) bytes
  let s := dirtyLine (spendBytes (traceStore s blk gang lane pa bytes i) blk bytes.length) blk pa
  let s := writeBytes s pa bytes
  match i.mark with
  | some t => tagGlobal s pa bytes.length { t with rel := i.scope.map (relCover s blk) }
  | none => s

/-- A word of a LINKED future (10 R218). -/
def linkedAt (s : State) (pa n : Nat) : Bool := s.conts.any (fun c => decide (c.pa < pa + n) && decide (pa < c.pa + 16))
/-- What a write meets when it is performed: a frame that has become pool metadata since its issue raises PERM (17 R326), a
future that has been linked since raises FUTURE (10 R218), a poisoned line ECC (21 R369); none lets it be performed. -/
def writeMeets (s : State) (pa n : Nat) : Option Flt :=
  if inMetadata s pa then some { cause := 0x0A, kind := 1 }
  else if linkedAt s pa n then some { cause := 0x11, info := 3 }
  else if poisoned s pa n then some (lineFlt s pa n 0 2)
  else none
/-- What a write has met, with the address that its TRINFO holds and the tag of its record. -/
def Flt.ofWrite (f : Flt) (i : StoreInfo) : Flt :=
  { f with info := if f.cause = 0x11 then f.info else i.va.toNat, tag := i.tag.toNat }
/-- Perform a write in memory for a thread, or raise what it meets against that thread, with no effect (log 21). -/
def commitStore (s : State) (blk gang lane pa : Nat) (bytes : List Byte) (i : StoreInfo) : State :=
  let s := meetLine s pa ((getBlock s blk).elim noParty fun b => partyOf b i.op i.pc gang lane i.va.toNat)
  match writeMeets s pa bytes.length with
  | none => storeGlobal s blk gang lane pa bytes i
  | some f => raise s blk i.op i.pc [⟨gang, lane, f.ofWrite i⟩]

/-- Perform one held store. -/
def drainOne (s : State) (blk : Nat) (h : Held) : State := commitStore s blk h.gang h.lane h.pa h.bytes h.info

/-- The store-hold queue holds an error that no code corrects. -/
def holdBad (b : Block) : List StoreErr := if b.hold.isEmpty then [] else errsAt b (· == .hold) true
/-- Drain part of a block's store-hold queue in program order: the stores picked first, with those that stay. An error of
one bit in the queue is corrected; an uncorrectable one is raised against the thread of the first store, and the queue stays
for the rollback that discards it (21 R368, R378). -/
def drainSome (s : State) (blk : Nat) (pick : List Held → List Held × List Held) : State :=
  match getBlock s blk with
  | none => s
  | some b =>
    match (pick b.hold).1 with
    | [] => s
    | h :: t =>
      let s := correctErrs s b h.info.op h.info.pc h.gang h.lane (errsAt b (· == .hold) false)
      if (holdBad b).isEmpty then
        modBlock ((h :: t).foldl (fun s h => drainOne s blk h) s) blk (fun k => { k with hold := (pick b.hold).2 })
      else raise s blk h.info.op h.info.pc [⟨h.gang, h.lane, errFlt b (holdBad b) 0⟩]
/-- Drain a block's store-hold queue (08 R185). -/
def drainHold (s : State) (blk : Nat) : State := drainSome s blk (fun hs => (hs, []))

/-- An irrevocable event (21 R377): the queue drains, then the cellar lines are discarded. An error in the queue that no
code corrects leaves the interval revocable: its rollback repairs it (21 R380). -/
def irrevocable (s : State) (blk : Nat) : State :=
  match getBlock s blk with
  | none => s
  | some b =>
    if b.rollback && b.revocable then
      if (holdBad b).isEmpty then
        modBlock (drainHold s blk) blk
          (fun b => { b with revocable := false, dirtyRows := [], dirtyLines := [], dirtyAccs := [], dirtyMasks := [] })
      else drainHold s blk
    else s

/-- Keep the old content of something before its first change of the interval, at a cost in cellar bytes; with no space
the interval becomes irrevocable (21 R375). -/
def noteDirty (s : State) (blk cost : Nat) (known : Block → Bool) (add : Block → Block) : State :=
  match getBlock s blk with
  | none => s
  | some b =>
    if b.rollback && b.revocable && !known b then
      if cost ≤ cellarFree s b.core then
        let act := { s.act with cellar := Sparse.set 0 s.act.cellar b.core (Sparse.get 0 s.act.cellar b.core + cost) }
        modBlock { s with act := act } blk add
      else irrevocable s blk
    else s

def noteRow (s : State) (blk g r : Nat) : State :=
  noteDirty s blk 136 (fun b => b.dirtyRows.contains (g, r)) (fun b => { b with dirtyRows := (g, r) :: b.dirtyRows })
def noteLine (s : State) (blk line : Nat) : State :=
  noteDirty s blk 72 (fun b => b.dirtyLines.contains line) (fun b => { b with dirtyLines := line :: b.dirtyLines })
def noteAcc (s : State) (blk n : Nat) : State :=
  noteDirty s blk 17408 (fun b => b.dirtyAccs.contains n) (fun b => { b with dirtyAccs := n :: b.dirtyAccs })
def noteMask (s : State) (blk n : Nat) : State :=
  noteDirty s blk 520 (fun b => b.dirtyMasks.contains n) (fun b => { b with dirtyMasks := n :: b.dirtyMasks })

/-- The bytes that a read of a block's own threads and engines returns: through the hold queue (08 R185). -/
def readGlobal (s : State) (blk pa n : Nat) : List Byte :=
  match getBlock s blk with
  | none => readBytes s pa n
  | some b =>
    b.hold.foldl (fun acc h => acc.mapIdx fun k v =>
      if h.pa ≤ pa + k ∧ pa + k < h.pa + h.bytes.length then
        (keepBits h.info.keep (List.replicate h.bytes.length v) h.bytes).getD (pa + k - h.pa) v
      else v) (readBytes s pa n)
/-- The held stores of a block cover one of the bytes. -/
def holdCovers (b : Block) (pa n : Nat) : Bool := b.hold.any (fun h => decide (h.pa < pa + n) && decide (pa < h.pa + h.bytes.length))
/-- The errors of the hold queue that a read of a block's own meets, where it goes through the queue (08 R185, 21 R368). -/
def holdErrs (s : State) (blk pa n : Nat) (dbl : Bool) : List StoreErr :=
  match getBlock s blk with
  | some b => if holdCovers b pa n then errsAt b (· == .hold) dbl else []
  | none => []

/-- Perform a thread's store: into the hold queue of a block in a revocable interval, else in memory (21 R376). -/
def performStore (s : State) (blk gang lane pa : Nat) (bytes : List Byte) (i : StoreInfo) : State :=
  match getBlock s blk with
  | none => commitStore s blk gang lane pa bytes i
  | some b =>
    if b.rollback && b.revocable then
      let more := i.no != 0 && b.hold.any (fun h => h.gang == gang && h.lane == lane && h.info.no == i.no)
      if more || heldCount s b.core < 2048 then
        modBlock s blk (fun b => { b with hold := b.hold ++ [⟨gang, lane, pa, bytes, i, more⟩] })
      else if (holdBad b).isEmpty then commitStore (irrevocable s blk) blk gang lane pa bytes i
      else irrevocable s blk
    else commitStore s blk gang lane pa bytes i

/-! ### Scratchpad -/

def readScratch (s : State) (blk off n : Nat) : List Byte :=
  match getBlock s blk with
  | none => List.replicate n 0
  | some b => (List.range n).map (fun k => Sparse.get unlisted b.scratch (off + k))

/-- The granules that a write touches become dirty (11 R243). -/
def touch (gs : List Nat) (off n : Nat) : List Nat :=
  ([off / 4096, (off + n - 1) / 4096]).foldl (fun gs g => if gs.contains g then gs else gs ++ [g]) gs
/-- Write a block's scratchpad: the lines keep their old contents for a rollback, whole words hold no error any more. -/
def writeScratch (s : State) (blk off : Nat) (bytes : List Byte) : State :=
  let s := (List.range ((off + bytes.length - 1) / 64 - off / 64 + 1)).foldl (fun s k => noteLine s blk (off / 64 + k)) s
  modBlock s blk (fun b => { b with scratch := putBytes b.scratch off bytes, granules := touch b.granules off bytes.length,
                                    errs := b.errs.filter (fun e => !scratchWhole off bytes.length e.place) })

/-- The bytes of a location of either space. -/
def readSpace (s : State) (blk : Nat) (sp : Space) (addr n : Nat) : List Byte :=
  match sp with
  | .glob => readGlobal s blk addr n
  | .scratch b => readScratch s b addr n

/-! ### Writing results -/

/-- Write one v register of a thread: the old row is kept for a rollback, and an injected error in it is gone. -/
def setV (s : State) (b g l r : Nat) (x : W32) : State :=
  let s := noteRow s b g r
  let s := modThread s b g l (fun t => { t with v := Sparse.set 0 t.v r x })
  modBlock s b (fun k => { k with bad := k.bad.filter (fun e => !(e.1 == g && e.2.1 == l && e.2.2.1 == r)) })
/-- Write one s register of a gang: an error in it is gone. -/
def setS (s : State) (b g r : Nat) (x : W64) : State :=
  healErrs (modGang s b g (fun q => { q with s := Sparse.set 0 q.s r x })) b (· == .sreg g r)
/-- Write one predicate of a thread. -/
def setP (s : State) (b g l : Nat) (n : Nat) (v : Bool) : State :=
  modThread s b g l (fun t => { t with p := if v then t.p ||| (1#48 <<< n) else t.p &&& ~~~(1#48 <<< n) })

/-- Write a value of n bits (32, 64, 128) to the register group that d names (02 R38, 05 R94: 32 bits are
zero-extended in an s register). -/
def putReg (s : State) (b g l : Nat) (d : Reg) (n v : Nat) : State :=
  let k := d.toNat
  if k < 192 then
    (List.range ((n + 31) / 32)).foldl (fun s j => setV s b g l (k + j) (BitVec.ofNat 32 (v / 2 ^ (32 * j)))) s
  else
    (List.range ((n + 63) / 64)).foldl
      (fun s j => setS s b g (k - 192 + j) (BitVec.ofNat 64 (v % 2 ^ n / 2 ^ (64 * j)))) s

/-- Whether a lane is the one whose value an s register keeps: the first of its gang in the list (05 R94), among the even
lanes in protected mode (05 R101). -/
def firstOfGang (xs : List Lane) (x : Lane) : Bool :=
  match xs.find? (fun y => y.t.gang == x.t.gang && (!y.b.protectd || y.t.lane % 2 == 0)) with
  | some y => y.t.lane == x.t.lane
  | none => false
/-- The destination of a result that a lane of an issue receives later: none where it names an s register that another
lane decides (05 R94). -/
def keptDst (xs : List Lane) (x : Lane) (d : Reg) : Option Reg :=
  if d.toNat < 192 ∨ firstOfGang xs x then some d else none

/-- Write one result per active lane (in ascending lane position), under R94 for an s register. -/
def commit (s : State) (d : Reg) (n : Nat) (outs : List (Lane × Nat)) : State :=
  let xs := outs.map Prod.fst
  outs.foldl (fun s o =>
    if d.toNat < 192 ∨ firstOfGang xs o.1 then putReg s o.1.t.blk o.1.t.gang o.1.t.lane d n o.2 else s) s

/-- Write one predicate per active lane. -/
def commitP (s : State) (d : Reg) (outs : List (Lane × Bool)) : State :=
  outs.foldl (fun s o => setP s o.1.t.blk o.1.t.gang o.1.t.lane d.toNat o.2) s

/-! ### Outstanding results (02 R29, R30; 08 R170-R174; log 5) -/

/-- Append an outstanding result. -/
def addOutst (s : State) (issue : Nat) (x : Lane) (cls : OCls) (op : OOp) (rel acq : Bool) : Nat × State :=
  let (i, s) := fresh s
  (i, { s with outst := s.outst ++ [{ id := i, issue := issue, blk := x.t.blk, gang := x.t.gang, lane := x.t.lane,
                                      cls := cls, op := op, rel := rel, acq := acq, flip := 0 }] })

/-- The bytes that an entry reads or writes and has not accessed yet. -/
def Outst.span (o : Outst) : Option (Space × Nat × Nat) :=
  match o.op with
  | .load sp a n none _ _ _ => some (sp, a, n)
  | .store sp a bs _ => some (sp, a, bs.length)
  | .atom sp a n _ _ _ _ _ => some (sp, a, n)
  | .cas sp a n _ _ _ _ _ => some (sp, a, n)
  | _ => none
/-- The entry still has its access before it. -/
def Outst.pending (o : Outst) : Bool := o.span.isSome
def Outst.writes (o : Outst) : Bool :=
  match o.op with | .store .. => true | .atom .. => true | .cas .. => true | _ => false
def Outst.reads (o : Outst) : Bool :=
  match o.op with | .load .. => true | .atom .. => true | .cas .. => true | _ => false
def Outst.sameThread (a b : Outst) : Bool := a.blk == b.blk && a.gang == b.gang && a.lane == b.lane
/-- Two accesses touch a common byte. -/
def Outst.overlaps (a b : Outst) : Bool :=
  match a.span, b.span with
  | some (s1, a1, n1), some (s2, a2, n2) => s1 == s2 && decide (a1 < a2 + n2) && decide (a2 < a1 + n1)
  | _, _ => false

/-- An older entry o, with the fences of its thread between it and e, has to be performed before e: overlapping bytes
in program order (08 R171, R172), a release, an acquire (R173), a fence (R174), a dropped release (R165). -/
def mustPrecede (between : List Outst) (o e : Outst) : Bool :=
  o.pending && e.pending && o.id != e.id &&
  (((o.sameThread e || o.issue == e.issue) && o.overlaps e) ||
   (o.sameThread e && (e.rel || o.acq ||
     between.any fun f => f.sameThread e &&
       (f.op == .order || (f.op == .fence && ((f.rel && e.writes) || (f.acq && o.reads)))))))

/-- The older entries that have to be performed before an entry. -/
def blockers (older : List Outst) (e : Outst) : List Outst :=
  match older with
  | [] => []
  | o :: t => if mustPrecede t o e then o :: blockers t e else blockers t e

/-- The entries before the one with an id, in issue order. -/
def olderThan (s : State) (id : Nat) : List Outst := s.outst.takeWhile (fun o => o.id != id)

/-- The entry may be performed now. -/
def performable (s : State) (e : Outst) : Bool := (blockers (olderThan s e.id) e).isEmpty

def updOutst (s : State) (id : Nat) (f : Outst → Outst) : State :=
  { s with outst := updWhere s.outst (fun o => o.id == id) f }

/-- Fences and dropped releases whose thread has nothing pending before them are done. -/
def sweepFences (s : State) : State :=
  let rec go (seen : List Outst) : List Outst → List Outst
    | [] => []
    | o :: t =>
      if (o.op = .fence ∨ o.op = .order) ∧ !(seen.any fun p => p.sameThread o && p.pending) then go seen t
      else o :: go (o :: seen) t
  { s with outst := go [] s.outst }

/-- A result of the thread is outstanding in a class (02 R29). -/
def outstIn (s : State) (b g l : Nat) (p : OCls → Bool) : Bool :=
  s.outst.any (fun o => o.blk == b && o.gang == g && o.lane == l && p o.cls)
/-- The thread has an outstanding result in some class of R29. -/
def outstAny (s : State) (b g l : Nat) : Bool := outstIn s b g l (· != .fence)

end Sys2Proof.Machine
end

