-- ==== Sys2Proof/Machine/Access.lean ====
section
/-! DEFINITION. Performing outstanding accesses (08 R170-R174, R183; 09 R191-R196) and returning their results
(02 R29, R30). -/

namespace Sys2Proof.Machine

/-- OP(aop, old, V) of 09 R194 on n-bit patterns. -/
def atomicOp (n aop old v : Nat) : Nat :=
  let md := 2 ^ n
  match aop with
  | 0 => (old + v) % md
  | 1 => min old v
  | 2 => max old v
  | 3 => if sx n old ≤ sx n v then old else v
  | 4 => if sx n old ≤ sx n v then v else old
  | 5 => old &&& v
  | 6 => old ||| v
  | 7 => old ^^^ v
  | 8 => v
  | 9 => if v ≤ old then 0 else old + 1
  | 10 => if old = 0 ∨ v < old then v else old - 1
  | 11 => (round .fp32 0 (xadd 0 (val .fp32 old) (val .fp32 v)).1).1
  | 12 => (minMax .fp32 false old v).1
  | _ => (minMax .fp32 true old v).1

/-- The pending accesses that a fence of a thread orders before an access that the thread is about to issue, by their
entries (09 R197). -/
def fencedBefore (os : List Outst) (b g l : Nat) (writes : Bool) : List Nat :=
  let mine (o : Outst) : Bool := o.blk == b && o.gang == g && o.lane == l
  match os with
  | [] => []
  | o :: t =>
    let rest := fencedBefore t b g l writes
    if mine o && o.pending && t.any (fun f => mine f && f.op == .fence && ((f.rel && writes) || (f.acq && o.reads))) then
      o.id :: rest
    else rest

/-- The bytes of a location as the thread of an entry sees them. -/
def entryBytes (s : State) (o : Outst) (sp : Space) (addr n : Nat) : Nat := leVal (readSpace s o.blk sp addr n)

/-- Write bytes now, to either space, for the atomic of an entry. -/
def entryWrite (s : State) (o : Outst) (sp : Space) (addr n v : Nat) (i : StoreInfo) : State :=
  match sp with
  | .scratch b => writeScratch s b addr (leBytes n v)
  | .glob => commitStore s o.blk o.gang o.lane addr (leBytes n v) i
/-- What keeps an atomic from being performed when its turn comes (10 R218, 17 R326, 21 R369). -/
def atomMeets (s : State) (sp : Space) (a n : Nat) : Option Flt :=
  match sp with | .glob => writeMeets s a n | .scratch _ => none
/-- What a load meets when its turn comes: a frame that has become pool metadata since its issue (17 R326), a poisoned line,
or an uncorrectable error of the hold queue that it reads through (21 R368, R369). -/
def loadMeets (s : State) (blk : Nat) (sp : Space) (a n : Nat) (i : StoreInfo) : Option Flt :=
  match sp with
  | .scratch _ => none
  | .glob =>
    let bad := holdErrs s blk a n true
    if inMetadata s a then some { cause := 0x0A, info := i.va.toNat, kind := 0, tag := i.tag.toNat }
    else if !bad.isEmpty then some ((getBlock s blk).elim { cause := 0x23 } (fun b => errFlt b bad 0))
    else if poisoned s a n then some { lineFlt s a n (i.va.toNat / 64 * 64) 2 with tag := i.tag.toNat }
    else none
/-- The party of the access of an entry (21 R370). -/
def Outst.party (s : State) (o : Outst) (i : StoreInfo) : McRec :=
  (getBlock s o.blk).elim noParty fun b => partyOf b i.op i.pc o.gang o.lane i.va.toNat
/-- The line of a location of global memory shows the error that stands in it. -/
def meetSpace (s : State) (o : Outst) (sp : Space) (a : Nat) (i : StoreInfo) : State :=
  match sp with | .glob => meetLine s a (o.party s i) | .scratch _ => s
/-- Errors of one bit in the hold queue that a read goes through are corrected and counted (21 R369). -/
def correctHold (s : State) (blk gang lane : Nat) (sp : Space) (a n : Nat) (i : StoreInfo) : State :=
  match sp, getBlock s blk with
  | .glob, some b => correctErrs s b i.op i.pc gang lane (holdErrs s blk a n false)
  | _, _ => s
/-- What no access is returned with: the reply of one that needs no record. -/
def StoreInfo.none : StoreInfo := { va := 0, pc := 0, op := 0, tag := 0, size := 0, mark := Option.none, no := 0 }
/-- Bytes that an access has read count toward its context's bandwidth budget (10 R215). -/
def spendRead (s : State) (blk : Nat) (sp : Space) (n : Nat) : State :=
  match sp with | .glob => spendBytes s blk n | .scratch _ => s

/-- What a CAS that has been performed returns: the old value in the low half of its group (09 R195, R196). A 32-bit
CAS of an s register leaves the register's high half. -/
def casResult (sp : Space) (a len n : Nat) (ret : Bool) (d : Reg) (old : Nat) : OOp :=
  if n = 4 ∧ 192 ≤ d.toNat ∧ ret then .half (BitVec.ofNat 32 old) d
  else .load sp a len (some (BitVec.ofNat 128 old)) d (if ret then n else 0) StoreInfo.none

/-- Perform the access of one entry: a load samples its value, a store is done with, an atomic keeps its old value to
return. One that meets a poisoned line, or a future linked since its issue, raises that and returns nothing (log 21). -/
def performOne (s : State) (o : Outst) : State :=
  match o.op with
  | .load sp a n none d sz i =>
    let s := meetSpace s o sp a i
    match loadMeets s o.blk sp a n i with
    | some f => dropOutst (raise s o.blk i.op i.pc [⟨o.gang, o.lane, f⟩]) o.id
    | none =>
      let s := spendRead (correctHold s o.blk o.gang o.lane sp a n i) o.blk sp n
      updOutst s o.id (fun e => { e with op := .load sp a n (some (BitVec.ofNat 128 (entryBytes s o sp a n))) d sz i })
  | .store sp a bs i =>
    let s1 := if bs.isEmpty then s else match sp with
      | .scratch b => writeScratch s b a bs
      | .glob => performStore s o.blk o.gang o.lane a bs i
    dropOutst s1 o.id
  | .atom sp a n aop v ret d i =>
    let old := entryBytes s o sp a n
    let s1 := entryWrite s o sp a n (atomicOp (8 * n) aop old v.toNat) i
    if ret && (atomMeets (meetSpace s o sp a i) sp a n).isNone then
      updOutst s1 o.id (fun e => { e with op := .load sp a n (some (BitVec.ofNat 128 old)) d n StoreInfo.none })
    else dropOutst s1 o.id
  | .cas sp a n c w ret d i =>
    let old := entryBytes s o sp a n
    let s1 := if old = c.toNat then entryWrite s o sp a n w.toNat i else spendRead s o.blk sp n
    if (atomMeets (meetSpace s o sp a i) sp a n).isSome then dropOutst (entryWrite s o sp a n w.toNat i) o.id
    else updOutst s1 o.id (fun e => { e with op := casResult sp a n n ret d old })
  | _ => s

/-- Perform an entry after everything that must precede it, to a depth. -/
def force (fuel : Nat) (s : State) (id : Nat) : State :=
  match fuel with
  | 0 => s
  | n + 1 =>
    match getOutst s id with
    | none => s
    | some e =>
      if e.pending then
        let s1 := (blockers (olderThan s id) e).foldl (fun s o => force n s o.id) s
        match getOutst s1 id with
        | none => s1
        | some e => performOne s1 e
      else s

/-- Perform an entry now, with all that must precede it. -/
def performNow (s : State) (id : Nat) : State := sweepFences (force (s.outst.length + 1) s id)

/-- Before an access of a thread issues, what its fences order before it is performed (09 R197). -/
def settleFences (s : State) (b g l : Nat) (writes : Bool) : State :=
  match fencedBefore s.outst b g l writes with
  | [] => s
  | ids => sweepFences (ids.foldl (fun s i => force (s.outst.length + 1) s i) s)

/-- Perform everything that a thread has issued and not performed (releases through engines; log 5). -/
def drainThread (s : State) (b g l : Nat) : State :=
  sweepFences (((s.outst.filter (fun o => o.blk == b && o.gang == g && o.lane == l && o.pending)).map Outst.id).foldl
    (fun s i => force (s.outst.length + 1) s i) s)

/-- Perform what a thread has issued to some bytes of a space and not performed: its own earlier writes come first
(08 R171). -/
def drainBytes (s : State) (b g l : Nat) (sp : Space) (addr n : Nat) : State :=
  let mine (o : Outst) : Bool := o.blk == b && o.gang == g && o.lane == l && (match o.span with
    | some (q, a, m) => q == sp && decide (a < addr + n) && decide (addr < a + m)
    | none => false)
  sweepFences (((s.outst.filter mine).map Outst.id).foldl (fun s i => force (s.outst.length + 1) s i) s)

/-- Write a returned value to its destination: narrow values are zero-extended (09 R190); in a protected block the odd
lane of the pair receives it too (05 R101). `n` is the width in bits, 0 for no destination. -/
def deliverReg (s : State) (b g l : Nat) (d : Reg) (n v : Nat) : State :=
  if n = 0 then s
  else
    let n := max 32 n
    let s := putReg s b g l d n v
    match getBlock s b with
    | some k => if k.protectd && l % 2 == 0 && (getThread s b g (l + 1)).isSome then putReg s b g (l + 1) d n v else s
    | none => s
/-- An armed error lands with the result of a thread's wait (21 R384). -/
def landWait (s : State) (b g l : Nat) : State :=
  match (getThread s b g l).bind Thread.flip with
  | some (r, dbl) =>
    modBlock (modThread s b g l (fun t => { t with flip := none })) b (fun k => { k with bad := (g, l, r, dbl) :: k.bad })
  | none => s
/-- Write a returned value where the thread is the one that keeps it (05 R94). -/
def deliverKept (s : State) (b g l : Nat) (d : Option Reg) (n v : Nat) : State :=
  match d with | some d => landWait (deliverReg s b g l d n v) b g l | none => s
def deliverP (s : State) (b g l n : Nat) (v : Bool) : State :=
  let s := setP s b g l n v
  match getBlock s b with
  | some k => if k.protectd && l % 2 == 0 then setP s b g (l + 1) n v else s
  | none => s

/-- The injected error of an entry lands with its result (21 R384). -/
def landFlip (s : State) (o : Outst) (d : Reg) : State :=
  if o.flip = 0 ∨ 192 ≤ d.toNat then s
  else modBlock s o.blk (fun b => { b with bad := (o.gang, o.lane, d.toNat, o.flip == 2) :: b.bad })

/-- The low half of an s register, its high half kept. -/
def lowHalf (s : State) (b g : Nat) (d : Reg) (v : Nat) : Nat :=
  let old := match getGang s b g with | some k => (Sparse.get 0 k.s (d.toNat - 192)).toNat | none => 0
  old / 2 ^ 32 * 2 ^ 32 + v
/-- Return the result of an entry whose access or engine operation is done: write it and end the entry. -/
def returnEntry (s : State) (o : Outst) : State :=
  match o.op with
  | .load _ _ _ (some v) d sz _ => dropOutst (landFlip (deliverReg s o.blk o.gang o.lane d (8 * sz) v.toNat) o d) o.id
  | .half v d => dropOutst (deliverReg s o.blk o.gang o.lane d 64 (lowHalf s o.blk o.gang d v.toNat)) o.id
  | .reply d w v p =>
    let s := deliverReg s o.blk o.gang o.lane d w v.toNat
    let s := match p with | some (n, x) => deliverP s o.blk o.gang o.lane n x | none => s
    dropOutst (landFlip s o d) o.id
  | _ => s

/-- Add an engine reply of class EN, CP or TP that its engine has already decided. -/
def addReply (s : State) (issue : Nat) (x : Lane) (cls : OCls) (d : Reg) (w v : Nat) (p : Option (Nat × Bool)) : State :=
  (addOutst s issue x cls (.reply d w (BitVec.ofNat 64 v) p) false false).2

end Sys2Proof.Machine
end

