-- ==== Sys2Proof/Machine/Operands.lean ====
section
/-! DEFINITION. The operand forms: buffer records and the address of an access (08 R158-R165), translation at issue
(09 R203, R204), barrier typing (12 R254), ring-slot and tile-row ownership (08 R178, 19 R348), and the race checks of
scratchpad intervals and of checked global words (08 R176-R181). -/

namespace Sys2Proof.Machine

/-! ### Buffer records -/

/-- The fields of a buffer record (08 R158). -/
structure Rec where
  base : Nat
  ext0 : Nat
  ext1 : Nat
  stride0 : Int
  stride1 : Int
  fmt : Nat
  bnd : Nat
  spc : Bool
  chk : Bool
  ro : Bool
  cp : Nat
  tag : Nat
  top : Nat
  deriving DecidableEq, Repr

def Rec.of (r : BitVec 256) : Rec :=
  let n := r.toNat
  { base := natBits n 0 64, ext0 := natBits n 64 32, ext1 := natBits n 96 32, stride0 := sx 32 (natBits n 128 32),
    stride1 := sx 32 (natBits n 160 32), fmt := natBits n 192 8, bnd := natBits n 200 3, spc := natBit n 203,
    chk := natBit n 204, ro := natBit n 205, cp := natBits n 206 2, tag := natBits n 208 16, top := natBits n 224 32 }

/-- Element width in bytes of a format code (08 R159). -/
def fmtW (f : Nat) : Nat :=
  match f with
  | 0x01 => 2 | 0x02 => 4 | 0x03 => 8 | 0x04 => 16 | 0x05 => 4 | 0x06 => 2 | 0x07 => 2 | 0x10 => 4 | 0x11 => 4 | _ => 1
/-- The element format of a code; none for the raw and reserved ones. -/
def fmtOf (f : Nat) : Option Fmt :=
  match f with
  | 0x05 => some .fp32 | 0x06 => some .fp16 | 0x07 => some .bf16 | 0x08 => some .e4m3 | 0x09 => some .e5m2
  | 0x0A => some .e2m1 | 0x0B => some .i8 | 0x0C => some .z8 | 0x0D => some .i4 | 0x0E => some .z4 | 0x0F => some .e8m0
  | 0x10 => some .i32 | 0x11 => some .z32 | _ => none

/-- The footprint of a record, lo and hi (08 R160); empty when ext0 = 0. -/
def Rec.footprint (r : Rec) : Option (Int × Int) :=
  if r.ext0 = 0 then none
  else
    let a := ((r.ext0 : Int) - 1) * r.stride0
    let b := ((max r.ext1 1 : Nat) - 1 : Int) * r.stride1
    some (r.base + min 0 a + min 0 b, r.base + max 0 a + max 0 b + fmtW r.fmt)

/-- Why BSET rejects a record, the lowest reason (08 R160, 09 R199). -/
def recReason (ssize : Nat) (r : Rec) : Option Nat :=
  if r.top ≠ 0 then some 1
  else if 4 ≤ r.bnd then some 2
  else if 0x12 ≤ r.fmt then some 3
  else if r.spc then
    match r.footprint with
    | some (lo, hi) => if 0 ≤ lo ∧ hi ≤ ssize then none else some 4
    | none => none
  else none

/-! ### The address of an access (08 R164) -/

/-- FIX(k, e, m): an index, DROP (none), or a fault. -/
def fixIdx (k : Int) (e m : Nat) : Except Flt (Option Int) :=
  if 0 ≤ k ∧ k < e then .ok (some k)
  else if m = 0 then .error { cause := 0x06, info := lowBits 64 k }
  else if m = 1 then .ok none
  else if e = 0 then .error { cause := 0x06, info := lowBits 64 k }
  else if m = 2 then .ok (some (min (max k 0) ((e : Int) - 1)))
  else .ok (some (k % e))

/-- EA from indices already read (08 R164); none is DROP. -/
def eaIdx (r : Rec) (i j : Int) (sz : Nat) (writes : Bool) : Except Flt (Option Nat) := do
  let fi ← fixIdx i r.ext0 r.bnd
  let fj ← fixIdx j (if r.ext1 = 0 then 1 else r.ext1) r.bnd
  match fi, fj with
  | some i, some j =>
    let addr : Int := r.base + i * r.stride0 + j * r.stride1
    let info := lowBits 64 addr
    if r.spc ∧ fmtW r.fmt < sz then .error { cause := 0x06, info := info }
    else if !r.spc ∧ (addr < 0 ∨ (2 : Int) ^ 57 < addr + sz) then .error { cause := 0x09, info := info }
    else if addr % sz ≠ 0 then .error { cause := 0x08, info := info }
    else if r.ro ∧ writes then .error { cause := 0x0A, info := info }
    else .ok (some addr.toNat)
  | _, _ => .ok none

/-- EA(bq, a, off, sz) of 08 R164 for one lane. The access kind goes into the record of a PAGE or PERM fault. -/
def ea (x : Lane) (r : Rec) (a : Reg) (off : Int) (sz : Nat) (writes : Bool) (kind : Nat) : Except Flt (Option Nat) :=
  let i : Int := x.rd a 32 + off
  let f := a.toNat
  let go (j : Int) : Except Flt (Option Nat) :=
    match eaIdx r i j sz writes with
    | .error e => .error (if e.cause = 0x09 ∨ e.cause = 0x0A then { e with kind := kind } else e)
    | o => o
  if r.ext1 = 0 then go 0
  else if f = 191 then .error { cause := 0x07 }
  else go (if f < 192 then x.v (f + 1) else x.s (f - 192) / 2 ^ 32)

/-! ### Translation at issue -/

/-- Translate for one lane (09 R203, R204). DESIGN CHOICE (log 20): the issue slot, whose lane position holds the last-page
register, is the number of the bundle modulo 4; the choice of slot changes no result (05 R79). -/
def laneXlate (s : State) (x : Lane) (kind va : Nat) : Except Flt Nat × State :=
  match translate s (.lane x.b.core (s.cur % 4) x.t.lane) x.b.ctx x.b.kernel kind va
      (partyOf x.b (curOp s) (curPc s) x.t.gang x.t.lane va) with
  | (.ok pa, s1) => (.ok pa, s1)
  | (.page, s1) => (.error { cause := 0x09, info := va % 2 ^ 57, kind := kind }, s1)
  | (.perm, s1) => (.error { cause := 0x0A, info := va % 2 ^ 57, kind := kind }, s1)
  | (.poison pa, s1) => (.error (lineFlt s1 pa 1 0 3), s1)

/-! ### Barrier typing (12 R254) -/

/-- The typed barrier that a scratchpad access touches. -/
def typedBlockAt (s : State) (blk off n : Nat) : Option Bar :=
  s.bars.find? (fun b => !b.ref.grp && b.ref.blk == blk && decide (b.ref.addr < off + n) && decide (off < b.ref.addr + 32))
/-- The typed group barrier whose 64-byte line a global access touches. DESIGN CHOICE (log 23): of two in one line, TRINFO names
the one that stands first in the model's list. -/
def typedGroupAt (s : State) (pa n : Nat) : Option Bar :=
  s.bars.find? (fun b => b.ref.grp && decide (b.ref.addr / 64 * 64 < pa + n) && decide (pa < b.ref.addr / 64 * 64 + 64))
/-- An address with bits [4:0] replaced by a code. -/
def withCode (a code : Nat) : Nat := a / 32 * 32 + code

/-! ### Ownership of ring slots and tile rows -/

/-- The ring slot of a block that a scratchpad byte lies in: the ring and the slot (08 R178). -/
def slotAt (s : State) (b : Block) (off : Nat) : Option (Ring × RSlot) :=
  s.rings.findSome? fun r =>
    if r.blk = b.uid ∧ r.kind = 0 ∧ r.base ≤ off ∧ 0 < r.sbytes then
      (r.slots[(off - r.base) / r.sbytes]?).map (fun q => (r, q))
    else none

/-- The slot is held by a gang (12 R271). -/
def RSlot.ownedBy (q : RSlot) (gang : Nat) : Bool := (q.st == .filling || q.st == .taken) && q.owner == gang

/-- A TAPIN has a row that is not ready (19 R348). -/
def TRow.ready (r : TRow) : Bool := r.status == 1 || decide (4 ≤ r.status)
def Tapin.outstanding (t : Tapin) : Bool := !t.retired || t.rows.any (fun r => !r.ready)

/-- The rows of a tile that a scratchpad access touches (19 R348, TAPIN step 4). -/
def Tapin.rowsAt (t : Tapin) (off n : Nat) : List (Nat × TRow) :=
  let r := Rec.of t.tile
  (t.rows.mapIdx (fun k row => (k, row))).filter fun e =>
    let lo : Int := r.base + (e.1 : Int) * r.stride1
    decide (lo < off + n) && decide ((off : Int) < lo + 2 * t.d)

/-- The thread's current trap names the row (19 R348). -/
def trapNames (t : Thread) (trec row : Nat) : Bool :=
  t.handling && t.trcause == 0x12 && natBits t.wrec.toNat 192 32 == row && natBits t.wrec.toNat 224 32 == trec

/-- Ownership of tile rows and tap records: the access is allowed. `row` says that the words belong to some row or to the record that the sieve
writes, so that the interval tags do not govern them. -/
def tileCheck (s : State) (x : Lane) (off n : Nat) (writes : Bool) : Bool × Bool :=
  s.tapins.foldl (fun (acc : Bool × Bool) t =>
    if t.blk ≠ x.b.uid ∨ !t.outstanding then acc
    else
      let inRec := decide (t.trec + 64 < off + n) && decide (off < t.trec + 704)
      let rows := t.rowsAt off n
      let held (e : Nat × TRow) : Bool := e.2.status == 2 || e.2.status == 3
      let ok := rows.all (fun e => e.2.status != 0 && (!held e || trapNames x.t t.trec e.1))
      (acc.1 && ok && !(writes && inRec), acc.2 || inRec || rows.any (fun e => e.2.status == 0 || held e))) (true, false)

/-- The words belong to a pending or held row or to an outstanding record, which a copy-engine read meets without RACE
(19 R348). -/
def rowUnready (s : State) (x : Lane) (off n : Nat) : Bool :=
  match tileCheck s x off n false with | (ok, row) => !ok || row

/-! ### Race checks -/

/-- An earlier tag of the interval conflicts with an access (08 R176, R172). -/
def Tag.conflicts (t : Tag) (x : Lane) (writes plain : Bool) (issue : Nat) : Bool :=
  t.issue != issue && !(t.gang == x.t.gang && x.b.tid t.lane == x.tid) && (t.write || writes) && (t.plain || plain)

/-- The race of a checked scratchpad access, with the earlier party (08 R177, R181). DESIGN CHOICE (log 23): where several
earlier tags conflict, the most recent one of the lowest word is named. -/
def scratchRace (x : Lane) (off n : Nat) (writes plain : Bool) (issue : Nat) : Option Flt :=
  (wordsOf off n).findSome? fun w =>
    (Sparse.get [] x.b.tags w).findSome? fun t =>
      if t.conflicts x writes plain issue then
        some { cause := 0x0B, info := off, party := x.b.num + fld 32 8 t.gang + fld 40 8 (x.b.tid t.lane) }
      else none

/-- The words of a scratchpad access that interval tags do not govern: those of ring slots, of pending and held rows and of
outstanding records, whose owners govern them (08 R178, 19 R348). -/
def ownerGoverned (s : State) (x : Lane) (off n : Nat) : Bool := (slotAt s x.b off).isSome || rowUnready s x off n
/-- Tag a checked scratchpad access. -/
def tagScratch (s : State) (blk gang lane off n : Nat) (writes plain : Bool) (issue : Nat) : State :=
  let tag : Tag := { gang := gang, lane := lane, write := writes, plain := plain, issue := issue }
  modBlock s blk (fun b => { b with tags := (wordsOf off n).foldl (fun m w =>
    let l := Sparse.get [] m w
    if l.any (fun t => t.gang == gang && t.lane == lane && t.write == writes && t.plain == plain && t.issue == issue)
    then m else Sparse.set [] m w (tag :: l)) b.tags })

/-- The number and the core of the block that a tag names: a saved block and one that has gone hold no core (08 R167). -/
def writerOf (s : State) (uid : Nat) : Option (Nat × Option Nat) :=
  match getBlock s uid with
  | some b => some (b.num, if b.resident then some b.core else none)
  | none => (s.gone.find? (fun g => g.uid == uid)).map (fun g => (g.num, none))
/-- The tag of a word as a block sees it: a store that it holds has been performed for it (08 R185). -/
def wordTag (s : State) (b : Block) (w : Nat) : GTag :=
  match b.hold.reverse.find? (fun h => h.info.mark.isSome && (wordsOf h.pa h.bytes.length).contains w) with
  | some h => h.info.mark.getD gtagNone
  | none => Sparse.get gtagNone s.gtags w

/-- The race of a checked global access (08 R179). -/
def globalRace (s : State) (x : Lane) (pa va n : Nat) (plain : Bool) : Option Flt :=
  (wordsOf pa n).findSome? fun w =>
    let t := wordTag s x.b w
    if t.blk ≠ 0 ∧ t.blk ≠ x.b.uid ∧ !(!plain && t.atomic) ∧ Sparse.get 0 x.b.acq t.blk ≤ t.count then
      some { cause := 0x0B, info := va, party := (writerOf s t.blk).elim 0 Prod.fst }
    else none

/-- Raise a block's entry for another block (08 R179). -/
def raiseAcq (s : State) (blk other count : Nat) : State :=
  modBlock s blk (fun b => { b with acq := Sparse.set 0 b.acq other (max count (Sparse.get 0 b.acq other)) })

/-- A block's scope covers a block on a core: device and system scope cover one on none, too (08 R167). -/
def coversHeld (scope : Nat) (a : Option Nat) (b : Nat) : Bool :=
  match a with | some c => coversCores scope c b | none => decide (3 ≤ scope)
/-- What was covered holds a block. -/
def Cover.holds (c : Cover) (blk : Nat) : Bool := match c with | .all => true | .blocks l => l.contains blk
/-- An acquire of a tag by a block, at a scope: it raises the block's entry for the writer where that scope covers both now,
and the one of a release that wrote the word covered both then (08 R167, R173, R179). -/
def acquireTag (s : State) (blk scope : Nat) (t : GTag) : State :=
  match getBlock s blk, writerOf s t.blk with
  | some b, some (_, core) =>
    if t.blk ≠ blk ∧ coversHeld scope core b.core ∧ t.rel.all (fun r => r.holds blk) then raiseAcq s blk t.blk t.count
    else s
  | _, _ => s
/-- What a read of words acquires that the device has written for others, as tags: a completion or an FWR (10 R219), an
acknowledgement (10 R223). It stands while the word holds the value written. -/
def relTags (s : State) (blk pa n : Nat) : List GTag :=
  (List.range ((pa + n - 1) / 8 - pa / 8 + 1)).flatMap fun k =>
    let a := 8 * (pa / 8 + k)
    let r := Sparse.get FutRel.none s.futs a
    if r.acq.isEmpty || leVal (readGlobal s blk a 8) != r.value.toNat then []
    else r.acq.map fun q => { blk := q.1, count := q.2, atomic := true, rel := some .all }
/-- The tags of the words of an access, as a block sees them. -/
def tagsOf (s : State) (blk pa n : Nat) : List GTag :=
  (match getBlock s blk with
   | some b => (wordsOf pa n).map (wordTag s b)
   | none => (wordsOf pa n).map (Sparse.get gtagNone s.gtags)) ++ relTags s blk pa n
/-- An acquire by a block that reads checked words (08 R179). -/
def acquireWords (s : State) (blk pa n scope : Nat) : State := (tagsOf s blk pa n).foldl (fun s t => acquireTag s blk scope t) s

/-! ### The whole path of one lane's access -/

/-- Where a lane's access goes. -/
inductive Tgt where
  | drop
  | at_ (sp : Space) (addr va : Nat)
  deriving DecidableEq, Repr

/-- What an access does: its kind for translation, whether it writes, whether it is plain, and the value that a CAS
compares. -/
structure AMode where
  kind : Nat
  writes : Bool
  plain : Bool
  cas : Option Nat
  deriving DecidableEq, Repr

/-- Whether an access to a location writes: a CAS only where it finds its compare value (09 R195). -/
def AMode.tagWrites (m : AMode) (s : State) (blk : Nat) (sp : Space) (addr n : Nat) : Bool :=
  match m.cas with
  | none => m.writes
  | some c => leVal (readSpace s blk sp addr n) == c

/-- The access is race-checked (08 R176, R161). -/
def isChecked (b : Block) (r : Rec) : Bool := r.chk && (r.spc || b.checked)

/-- The double errors that an access meets in the words of scratchpad that it reads (21 R368). -/
def scratchEcc (b : Block) (off n : Nat) (m : AMode) : Option Flt :=
  let es := if m.kind = 1 then [] else errsAt b (scratchWord off n) true
  if es.isEmpty then none else some (errFlt b es 0)
/-- The checks of a scratchpad access after EA (08 R164: BARRIER, then RACE): the ownership of tile rows and ring slots
holds for every record, the interval tags for checked ones outside both (08 R161, R177, R178, 19 R348). DESIGN CHOICE
(log 23): a RACE against the owner of a slot or a row names no earlier party: its party is 0. -/
def scratchChecks (s : State) (x : Lane) (r : Rec) (off n : Nat) (m : AMode) (issue : Nat) : Option Flt :=
  match typedBlockAt s x.b.uid off n with
  | some b => some { cause := 0x0C, info := withCode b.ref.addr 1 }
  | none =>
    let (ok, row) := tileCheck s x off n m.writes
    if !ok then some { cause := 0x0B, info := off }
    else match slotAt s x.b off with
    | some (_, q) => if q.ownedBy x.t.gang then none else some { cause := 0x0B, info := off }
    | none =>
      if row || !r.chk then none
      else scratchRace x off n (m.tagWrites s x.b.uid (.scratch x.b.uid) off n) m.plain issue

/-- The checks of a global access that its words and its line make: RACE, the hold queue's errors, poison. -/
def wordChecks (s : State) (x : Lane) (r : Rec) (pa va n : Nat) (m : AMode) : Option Flt :=
  match if isChecked x.b r then globalRace s x pa va n m.plain else none with
  | some f => some f
  | none =>
    let bad := if m.kind = 0 then holdErrs s x.b.uid pa n true else []
    if !bad.isEmpty then some (errFlt x.b bad 0)
    else if poisoned s pa n then some (lineFlt s pa n (if m.kind = 0 then va / 64 * 64 else va) 2)
    else none
/-- The checks of a global access after translation: host-backed atomics (09 R193), a linked future
(10 R218), BARRIER, RACE, poison and the hold queue's errors. DESIGN CHOICE (log 23): FUTURE stands before BARRIER and
RACE, whose order alone the spec gives. -/
def globalChecks (s : State) (x : Lane) (r : Rec) (pa va n : Nat) (m : AMode) (aop : Option Nat) : Option Flt :=
  let linked := m.writes && linkedAt s pa n
  let pcie := match aop with | some o => hostBacked s pa && o != 0 && o != 8 | none => false
  if pcie then some { cause := 0x0A, info := va, kind := m.kind }
  else if linked then some { cause := 0x11, info := 3 }
  else
    match typedGroupAt s pa n with
    | some b => some { cause := 0x0C, info := withCode (va + b.ref.addr - pa) 1 }
    | none => wordChecks s x r pa va n m

/-- A fault that carries the tag of a buffer record (08 R158). -/
def Flt.tagged (f : Flt) (r : Rec) : Flt := { f with tag := r.tag }

/-- The target of one lane's access, or its fault (08 R164, R165, R181; 09 R192, R193), before the record's tag. -/
def targetRaw (s : State) (x : Lane) (r : Rec) (a : Reg) (off : Int) (sz : Nat) (m : AMode) (aop : Option Nat)
    (issue : Nat) : Except Flt Tgt × State :=
  match ea x r a off sz m.writes m.kind with
  | .error f => (.error f, s)
  | .ok none => (.ok .drop, s)
  | .ok (some addr) =>
    if r.spc then
      match scratchChecks s x r addr sz m issue with
      | some f => (.error f, s)
      | none =>
        match scratchEcc x.b addr sz m with
        | some f => (.error f, s)
        | none => (.ok (.at_ (.scratch x.b.uid) addr addr), if m.kind = 1 then s
            else correctErrs s x.b (curOp s) (curPc s) x.t.gang x.t.lane (errsAt x.b (scratchWord addr sz) false))
    else
      match laneXlate s x m.kind addr with
      | (.error f, s1) => (.error f, s1)
      | (.ok pa, s1) =>
        match globalChecks s1 x r pa addr sz m aop with
        | some f => (.error f, s1)
        | none => (.ok (.at_ .glob pa addr), s1)

/-- The target of one lane's access, or its fault with the tag of the record (08 R158). -/
def target (s : State) (x : Lane) (r : Rec) (a : Reg) (off : Int) (sz : Nat) (m : AMode) (aop : Option Nat)
    (issue : Nat) : Except Flt Tgt × State :=
  match targetRaw s x r a off sz m aop issue with
  | (.error f, s1) => (.error (f.tagged r), s1)
  | q => q

/-- The v registers that the index operand a names: a second one for a two-dimensional record (08 R164). -/
def idxCount (r : Rec) (a : Reg) : Nat := if r.ext1 = 0 ∨ a = 191 then 1 else 2

end Sys2Proof.Machine
end

