-- ==== Sys2Proof/Machine/Flow.lean ====
section
/-! DEFINITION. The flow of threads: code fetch (02 R22), bins and bundles (05 R80-R85), arrival at a header, splitting
and merging of paths, and the entry to and return from a trap handler at task level (11 R236-R238). -/

namespace Sys2Proof.Machine

/-! ### Places -/

/-- A place at a header. -/
def Place.at_ (h : W64) : Place := { hdr := h, clause := none, idx := 0 }
/-- The header after a clause (02 R25). -/
def Place.nextHdr (p : Place) : W64 :=
  match p.clause with | none => p.hdr | some c => p.hdr + BitVec.ofNat 64 (8 * (c.words.length + 1))
/-- Where a thread continues after the instruction that a place stands at (02 R25). -/
def Place.next (p : Place) : Place :=
  match p.clause with
  | none => p
  | some c => if p.idx + 1 < c.words.length then { p with idx := p.idx + 1 } else Place.at_ p.nextHdr

/-! ### Code fetch -/

/-- Read one code word of the clause at a header; the fault that the fetch of it raises (02 R22, 09 R203, 21 R369). -/
def fetchWord (s : State) (b : Block) (va : Nat) (hdr : Nat := va) : Except Flt W64 × State :=
  match translate s (.fetch b.core) b.ctx b.kernel 3 va (partyOf b 0 (BitVec.ofNat 64 hdr) 0 0 va) with
  | (.ok pa, s1) =>
    if poisoned s1 pa 8 then
      (.error (lineFlt s1 pa 8 (va / 64 * 64) 2), s1)
    else (.ok (BitVec.ofNat 64 (readLE s1 pa 8)), s1)
  | (.page, s1) => (.error { cause := 0x09, info := va % 2 ^ 57, kind := 3 }, s1)
  | (.perm, s1) => (.error { cause := 0x0A, info := va % 2 ^ 57, kind := 3 }, s1)
  | (.poison pa, s1) => (.error (lineFlt s1 pa 1 0 3), s1)

/-- Read the words of a clause in ascending order, up to the first fault. DESIGN CHOICE (log 19): where one word of a clause
is unmapped and another lacks execute permission, the faulting word that comes first decides between PAGE and PERM. -/
def fetchWords (s : State) (b : Block) (va n : Nat) (hdr : Nat := va - 8) : Except Flt (List W64) × State :=
  match n with
  | 0 => (.ok [], s)
  | n + 1 =>
    match fetchWord s b va hdr with
    | (.error f, s1) => (.error f, s1)
    | (.ok w, s1) =>
      match fetchWords s1 b (va + 8) n hdr with
      | (.error f, s2) => (.error f, s2)
      | (.ok ws, s2) => (.ok (w :: ws), s2)

/-- A branch target under R27: aligned, and a word that can be read there satisfies R20. A target that cannot be
fetched faults at its header (log 12). -/
def targetOk (s : State) (b : Block) (t : W64) : Bool × State :=
  if t.toNat % 8 ≠ 0 then (false, s)
  else
    match fetchWord s b t.toNat with
    | (.ok w, s1) => ((decodeHeader w).isSome, s1)
    | (.error _, s1) => (true, s1)

/-- The word at an address is a valid header with rf = 1. -/
def isReform (s : State) (b : Block) (h : W64) : Bool × State :=
  match fetchWord s b h.toNat with
  | (.ok w, s1) => ((match decodeHeader w with | some x => x.rf | none => false), s1)
  | (.error _, s1) => (false, s1)

/-! ### Bins (05 R80, R84) -/

/-- The member that a filed thread is. -/
def Filed.m (f : Filed) : Nat × Nat := (f.gang, f.lane)
/-- The block is resident on the core. -/
def onCore (s : State) (core blk : Nat) : Bool :=
  match getBlock s blk with | some k => k.core == core && k.resident | none => false
/-- Bins in use on a core: filed bins and set-aside paths of the blocks that it holds (05 R80, R83, R84). -/
def binsUsed (s : State) (core : Nat) : Nat :=
  (s.bins.filter (fun b => b.core == core && onCore s core b.blk)).length +
  (s.bundles.filter (fun b => b.aside && onCore s core b.blk)).length
/-- The bin of a key. -/
def binAt (s : State) (core blk role : Nat) (hdr : W64) : Option Bin :=
  s.bins.find? (fun b => b.core == core && b.blk == blk && b.role == role && b.hdr == hdr)

/-- File one thread in the bin of its key, or in a free bin; none where there is neither. -/
def fileIn (s : State) (core blk role : Nat) (hdr : W64) (m : Nat × Nat) : Option State :=
  let (no, s1) := fresh s
  let f : Filed := { gang := m.1, lane := m.2, no := no }
  match binAt s core blk role hdr with
  | some b =>
    some { s1 with bins := updWhere s1.bins (fun x => x.id == b.id) (fun x => { x with filed := x.filed ++ [f] }) }
  | none =>
    if binsUsed s core < 128 then
      let (i, s2) := fresh s1
      some { s2 with bins := s2.bins ++ [{ id := i, core := core, blk := blk, role := role, hdr := hdr, filed := [f] }] }
    else none

/-- File one thread at a header, or put it into the arrival queue: a free bin goes to the threads that wait for one
first (05 R80). -/
def fileThread (s : State) (core blk role : Nat) (hdr : W64) (m : Nat × Nat) : State :=
  let queue : State := { s with arrivals := s.arrivals ++
    [{ core := core, blk := blk, role := role, hdr := hdr, lane := m.2, gang := m.1 }] }
  if (binAt s core blk role hdr).isNone && s.arrivals.any (fun a => a.core == core && onCore s core a.blk) then queue
  else (fileIn s core blk role hdr m).getD queue

/-- File the threads of a core's arrival queue, in order of arrival, as far as there are bins (05 R80). -/
def fileArrivals (s : State) (core : Nat) : State :=
  (s.arrivals.filter (fun a => a.core == core && onCore s core a.blk)).foldl (fun s a =>
    (fileIn { s with arrivals := s.arrivals.erase a } core a.blk a.role a.hdr (a.gang, a.lane)).getD s) s

/-! ### Bundles and paths -/

/-- Set the pc of threads. -/
def setPcs (s : State) (blk : Nat) (ms : List (Nat × Nat)) (pc : W64) : State :=
  modThreads s (fun t => t.blk == blk && ms.contains (t.gang, t.lane)) (fun t => { t with pc := pc })

def dropBundle (s : State) (id : Nat) : State := { s with bundles := s.bundles.filter (fun b => b.id != id) }

/-- Take members out of a bundle; it ends with its last member (05 R83). -/
def leaveBundle (s : State) (id : Nat) (ms : List (Nat × Nat)) : State :=
  match getBundle s id with
  | none => s
  | some b =>
    let rest := b.mem.filter (fun m => !ms.contains m)
    if rest.isEmpty then dropBundle s id else modBundle s id (fun b => { b with mem := rest })

/-- Members in ascending lane position. -/
def insLane (m : Nat × Nat) : List (Nat × Nat) → List (Nat × Nat)
  | [] => [m]
  | x :: t => if m.2 < x.2 then m :: x :: t else x :: insLane m t
def sortLanes (ms : List (Nat × Nat)) : List (Nat × Nat) := ms.foldr insLane []

/-- A new bundle or path. -/
def newBundle (s : State) (fam : Option Nat) (blk role : Nat) (ms : List (Nat × Nat)) (p : Place) (drawn aside : Bool) :
    Nat × State :=
  let (i, s) := fresh s
  (i, { s with bundles := s.bundles ++ [{ id := i, fam := fam.getD i, blk := blk, role := role, mem := sortLanes ms,
                                          place := p, drawn := drawn, aside := aside, stalled := false,
                                          mid := false, since := i, yielded := false, redo := [] }] })

/-- A bin of the core may have become free: branches that wait for one look again, and the arrival queue is filed
(05 R80, R84). DESIGN CHOICE (log 23): the arrival queue takes the bin first, then a branch or a rejoin. -/
def binFreed (s : State) (core : Nat) : State := fileArrivals (unstall s) core
/-- The core of a block. -/
def coreOf (s : State) (blk : Nat) : Nat := match getBlock s blk with | some k => k.core | none => 0

/-- The members of a bundle as threads. -/
def membersOf (s : State) (b : Bundle) : List Thread := b.mem.filterMap (fun m => getThread s b.blk m.1 m.2)
/-- Every parked member has its results (02 R31). -/
def unparked (s : State) (b : Bundle) : Bool := (membersOf s b).all (fun t => !t.parked || !outstAny s t.blk t.gang t.lane)

/-- Merge a bundle at a header with the set-aside path of its family that stands there, parked or faulted in no member
(05 R84). -/
def mergePath (s : State) (id : Nat) : State :=
  match getBundle s id with
  | none => s
  | some b =>
    match s.bundles.find? (fun x => x.id != id && x.fam == b.fam && x.blk == b.blk && x.place == b.place &&
        x.place.clause.isNone && unparked s x && (membersOf s x).all (fun t => t.fault.isNone) &&
        x.mem.all (fun m => !(b.mem.any (fun n => n.2 == m.2)))) with
    | none => s
    | some x => binFreed (modBundle (dropBundle s x.id) id (fun b =>
        { b with mem := sortLanes (b.mem ++ x.mem), aside := b.aside && x.aside })) (coreOf s b.blk)

/-- The members of a bundle at a reform point are filed, and the bundle ends (05 R80, R82). -/
def fileMembers (s : State) (b : Bundle) (core : Nat) : State :=
  b.mem.foldl (fun s m => fileThread s core b.blk b.role b.place.hdr m) (dropBundle s b.id)
/-- A bundle that has arrived at a header, with no member parked: it is filed at a reform point where no bin has given it,
else it stands there, merged with a path of its own (05 R80, R82, R84). -/
def settleAt (s : State) (id : Nat) : State :=
  match getBundle s id with
  | none => s
  | some b =>
    match getBlock s b.blk with
    | none => s
    | some k =>
      let (rf, s) := isReform s k b.place.hdr
      if rf && !b.drawn then fileMembers s b k.core else mergePath s id
/-- The running path of a bundle that has others stops here: where it has to wait, this is the time from which it counts
as set aside (05 R84). -/
def markAge (s : State) (id : Nat) : State :=
  match getBundle s id with
  | none => s
  | some b =>
    if !b.aside && s.bundles.any (fun x => x.fam == b.fam && x.blk == b.blk && x.id != id) then
      let (n, s) := fresh s
      modBundle s id (fun b => { b with since := n })
    else s
/-- A bundle arrives at a header. Members that the last word of a clause has parked end their park first (02 R31). -/
def arriveAt (s : State) (id : Nat) (hdr : W64) : State :=
  match getBundle s id with
  | none => s
  | some b =>
    let s := setPcs s b.blk b.mem hdr
    let s := markAge (modBundle s id (fun b =>
      { b with place := Place.at_ hdr, drawn := false, mid := false, redo := [] })) id
    match getBundle s id with
    | some b => if unparked s b then settleAt s id else s
    | none => s
/-- The bundles of a block that stood parked at a header, once the results have returned. -/
def settleParks (s : State) (blk : Nat) : State :=
  (s.bundles.filter (fun b => b.blk == blk && b.place.clause.isNone && (membersOf s b).any Thread.parked)).foldl (fun s b =>
    match getBundle s b.id with
    | some b =>
      if unparked s b && (membersOf s b).all (fun t => t.fault.isNone) then
        settleAt (modThreads s (fun t => t.blk == blk && b.mem.contains (t.gang, t.lane)) (fun t => { t with parked := false })) b.id
      else s
    | none => s) s

/-- The members of a bundle go on from the wait that they stood at (02 R23). -/
def clearLeft (s : State) (id : Nat) : State :=
  match getBundle s id with
  | some b => modThreads s (fun t => t.left && t.blk == b.blk && b.mem.contains (t.gang, t.lane)) (fun t => { t with left := false })
  | none => s
/-- A bundle continues at a place: inside its clause, or by arriving at a header. -/
def moveTo (s : State) (id : Nat) (p : Place) : State :=
  let s := clearLeft s id
  match p.clause with
  | none => arriveAt s id p.hdr
  | some _ => modBundle s id (fun b => { b with place := p, mid := false, redo := [] })

/-- Split members off a bundle as a set-aside path of its family that continues at a place. -/
def splitOff (s : State) (b : Bundle) (ms : List (Nat × Nat)) (p : Place) : State :=
  if ms.isEmpty then s
  else
    let s := leaveBundle s b.id ms
    let (i, s) := newBundle s (some b.fam) b.blk b.role ms p false true
    match p.clause with | none => arriveAt s i p.hdr | some _ => s

/-- Group members by the place each continues at, in order of first appearance. -/
def groupPlaces (ts : List ((Nat × Nat) × Place)) : List (Place × List (Nat × Nat)) :=
  ts.foldl (fun acc t =>
    if acc.any (fun g => g.1 == t.2) then acc.map (fun g => if g.1 = t.2 then (g.1, g.2 ++ [t.1]) else g)
    else acc ++ [(t.2, [t.1])]) []

/-- The path that runs first: the one with the most threads, a tie to the lower header (05 R84). DESIGN CHOICE (log 23):
of equal paths inside one clause, which have one header, the one listed first runs. -/
def firstPath (gs : List (Place × List (Nat × Nat))) : Option (Place × List (Nat × Nat)) :=
  gs.foldl (fun m g => match m with
    | none => some g
    | some x =>
      if x.2.length < g.2.length ∨ (x.2.length = g.2.length ∧ g.1.hdr.toNat < x.1.hdr.toNat) then some g
      else some x) none

/-- Members of a bundle go to their places: one path for each, the others set aside (05 R84). None when a path finds
no free bin. DESIGN CHOICE (log 23): a path that is not the first counts for a bin of its own though it comes to a reform
point, where it is filed at once. -/
def diverge (s : State) (b : Bundle) (core : Nat) (ts : List ((Nat × Nat) × Place)) : Option State :=
  let gs := groupPlaces ts
  match firstPath gs with
  | none => some s
  | some f =>
    let others := gs.filter (fun g => g.1 != f.1)
    if 128 < binsUsed s core + others.length then none
    else some (moveTo (others.foldl (fun s g => splitOff s b g.2 g.1) s) b.id f.1)

/-- The paths that are set aside while bins are free, of a branch that has too few: in order of first appearance
(05 R84; log 18). -/
def freePaths (s : State) (core : Nat) (ts : List ((Nat × Nat) × Place)) : List (Place × List (Nat × Nat)) :=
  let gs := groupPlaces ts
  match firstPath gs with
  | none => []
  | some f => (gs.filter (fun g => g.1 != f.1)).take (128 - binsUsed s core)

/-! ### Taking a trap at task level, and returning from it (11 R236-R238) -/

/-- The TDELEG bit of a cause (11 R245). -/
def delegBit (cause : Nat) : Nat := if cause = 0x13 then 0 else if cause = 0x12 then 1 else 2

/-- The handler header that a SWTRAP, BRK or WATCH of a thread goes to, when task level takes it (11 R236); `own` is the
rule table's handler of a WATCH. -/
def trapVec (s : State) (x : Lane) (cause : Nat) (own : W64) : Option W64 :=
  match getCtx s x.b.ctx with
  | none => none
  | some c =>
    let vec := if own = 0 then c.tvec else own
    if c.tdeleg.getLsbD (delegBit cause) && vec != 0 && !x.t.handling then some vec else none

/-- Taking a trap at task level (11 R237): the resume point and the trap registers are filled and the thread goes to the
handler header, alone or with the other lane of its pair, as a path of its own. A header that fails R27 raises ILLCLS at
TVEC, delivered at kernel level. DESIGN CHOICE (log 23): the path is set aside though no bin of the core is free, where a
branch waits for one (05 R84), so that more than 128 may then be used. -/
def takeTrap (s : State) (x : Lane) (bun : Option Bundle) (cause : Nat) (pc info : W64) (wrec : BitVec 256)
    (resume : Place) (vec : W64) (ms : List (Nat × Nat) := [(x.t.gang, x.t.lane)]) : State :=
  let (ok, s) := targetOk s x.b vec
  let s := modThreads s (fun t => t.blk == x.t.blk && ms.contains (t.gang, t.lane)) (fun t =>
    { t with handling := true, resume := resume, trcause := BitVec.ofNat 32 cause, trpc := pc, trinfo := info,
             wrec := wrec, pc := vec, left := false })
  let s := match bun with
    | some b => leaveBundle s b.id ms
    | none => s
  let (i, s) := newBundle s (bun.map Bundle.fam) x.t.blk x.g.role ms (Place.at_ vec) false bun.isSome
  if ok then arriveAt s i vec
  else raise s x.t.blk 0 vec (ms.map fun m => ⟨m.1, m.2, { cause := 0x03 }⟩)

/-- A taken RET ends the handler when its target equals TRPC (11 R238). -/
def isTrapReturn (x : Lane) (target : W64) : Bool := x.t.handling && target == x.t.trpc

/-- The thread's trap registers read 0 again (11 R238). -/
def endTrap (s : State) (x : Lane) : State :=
  modThread s x.t.blk x.t.gang x.t.lane (fun t =>
    { t with handling := false, trcause := 0, trpc := 0, trinfo := 0, wrec := 0 })

end Sys2Proof.Machine
end

