-- ==== Sys2Proof/Machine/Issue.lean ====
section
/-! DEFINITION. The issue of one instruction word by the current bundle: the checks of 02 R40 and 05 R87, R92, the guard
(02 R34), the lane-pair comparison (05 R101), injected errors (21 R383, R384), faults (08 R163), and what follows an
instruction: the next place and park (02 R25, R31). Every meaning of an instruction goes through `issue`. -/

namespace Sys2Proof.Machine

/-- An operand group: the register field and the v registers that the group takes; with none, `r` is a predicate, or from
192 up a record. -/
structure RG where
  r : Reg
  n : Nat
  deriving DecidableEq, Repr

def r32 (r : Reg) : RG := ⟨r, 1⟩
def r64 (r : Reg) : RG := ⟨r, 2⟩
def r128 (r : Reg) : RG := ⟨r, 4⟩
/-- A group of operand width N: 32 or 64 by w. -/
def rW (w : Bool) (r : Reg) : RG := ⟨r, if w then 2 else 1⟩
/-- A predicate that an instruction reads. -/
def rP (p : Reg) : RG := ⟨p, 0⟩
/-- A buffer record that an instruction reads. -/
def rRec (n : Nat) : RG := ⟨BitVec.ofNat 8 (192 + n), 0⟩
/-- A guard that is always true. -/
def always : Ctl := { gn := false, gi := 63, pk := false }
/-- Operand width N (06 R102). -/
def wN (w : Bool) : Nat := if w then 64 else 32

/-- What an issue knows: the bundle, its block, the word's opcode and control, its address, the issue number, all member
lanes and the active ones in ascending lane position, where the bundle continues, and an armed matrix error. -/
structure Iss where
  bun : Bundle
  b : Block
  op : Nat
  k : Ctl
  pc : W64
  no : Nat
  all : List Lane
  act : List Lane
  next : Place
  flip : Option (Nat × Nat × Nat)
  mxflip : Option (Nat × Nat)
  deriving DecidableEq, Repr

/-- The lanes that command an engine: the even ones in protected mode (05 R101). -/
def Iss.cmd (i : Iss) : List Lane := if i.b.protectd then i.act.filter (fun x => x.t.lane % 2 == 0) else i.act

/-- How an issue ends: performed; performed and the bundle already placed; trapped with no effect; or not able to
issue yet. -/
inductive IOut where
  | done (s : State)
  | stay (s : State)
  | trap (s : State) (fs : List LaneFlt)
  | stall (s : State)
  deriving DecidableEq, Repr

/-- A role may issue an opcode (05 R87). -/
def roleMay (role op : Nat) : Bool :=
  match clsOf op with
  | none => false
  | some .int | some .mem | some .sync | some .sys => true
  | some .vec | some .tap => role == 0 || role == 3 || role == 4
  | some .copy => role == 0 || role == 1 || role == 4
  | some .mtx => role == 0 || role == 2
  | some .task => op == 0xC1 || role == 0 || role == 4
  | some .pool => role == 0 || role == 4

/-- BRA, BRX, CALL, RET (02 R26). -/
def isBranchOp (op : Nat) : Bool := decide (0x28 ≤ op ∧ op ≤ 0x2B)

/-- The checks of R40 before the field checks: the cause that the word raises. -/
def orderFault (b : Block) (role : Nat) (c : Clause) (idx op : Nat) : Option Nat :=
  match clsOf op with
  | none => some 0x01
  | some cl =>
    if !(cl == c.cls || cl == .int) then some 0x03
    else if isBranchOp op && idx + 1 != c.words.length then some 0x03
    else if cl == .sys && !b.kernel then some 0x04
    else if !roleMay role op then some 0x05
    else none

/-- The lanes of a bundle. -/
def lanesOf (s : State) (b : Bundle) : List Lane := b.mem.filterMap (fun m => laneOf s b.blk m.1 m.2)

/-- A group reaches beyond the gang's registers (05 R92). -/
def outOfRange (g : Gang) (x : RG) : Bool := x.n != 0 && decide (x.r.toNat < 192) && decide (g.limit < x.r.toNat + x.n)

/-- The value of an operand group, for the lane-pair comparison. -/
def groupVals (x : Lane) (q : RG) : List Nat :=
  if q.r.toNat < 192 then (List.range q.n).map (fun j => x.v (q.r.toNat + j)) else []

/-- Instructions whose lane pairs are compared (05 R101). -/
def pairOp (op : Nat) : Bool :=
  decide (0x71 ≤ op ∧ op ≤ 0x74) ||
  (match clsOf op with
   | some .sync | some .copy | some .mtx | some .tap | some .task | some .pool => true
   | _ => false)

/-- The LANEPAIR of the pairs of a list of lanes that a test finds to differ, each at its even lane (05 R101). -/
def pairsApart (all : List Lane) (apart : Lane → Lane → Bool) : List LaneFlt :=
  all.filterMap fun x =>
    if x.t.lane % 2 = 0 then
      match all.find? (fun y => y.t.gang == x.t.gang && y.t.lane == x.t.lane + 1) with
      | some y => if apart x y then some ⟨x.t.gang, x.t.lane, { cause := 0x22, unit := 4, check := 4 }⟩ else none
      | none => none
    else none
/-- The even lane of each pair that differs in its guard or its operands. -/
def pairFaults (all : List Lane) (k : Ctl) (op : Nat) (src : List RG) : List LaneFlt :=
  pairsApart all fun x y =>
    let guards := x.guard k != y.guard k
    let vals := x.guard k && src.any (fun q => groupVals x q != groupVals y q)
    (op != 0x2F && pairOp op && (guards || vals)) || (op == 0x2F && guards)
/-- The even lane of each pair whose operands differ, where one of its lanes is active. -/
def operandFaults (all : List Lane) (k : Ctl) (src : List RG) : List LaneFlt :=
  pairsApart all fun x y => (x.guard k || y.guard k) && src.any (fun q => groupVals x q != groupVals y q)

/-- A register error that a source read meets: double ones, and single ones (21 R368, R384). -/
def badReads (b : Block) (x : Lane) (src : List RG) (dbl : Bool) : List (Nat × Nat × Nat × Bool) :=
  b.bad.filter fun e => e.1 == x.t.gang && e.2.1 == x.t.lane && e.2.2.2 == dbl &&
    src.any (fun q => decide (q.r.toNat ≤ e.2.2.1) && decide (e.2.2.1 < q.r.toNat + q.n) && decide (q.r.toNat < 192))

/-- The fault of a double register error: covered where every row has a cellar copy (21 R380). -/
def eccFlt (b : Block) (rows : List (Nat × Nat × Nat × Bool)) : Flt :=
  { cause := 0x23, unit := 8, check := 3,
    ladder := if rows.all (fun e => b.dirtyRows.contains (e.1, e.2.2.1)) then 1 else 2 }

/-- A storage place that a thread's instruction reads: its guard and source predicates, and where it is active its source
s registers and records. -/
def srcPlace (k : Ctl) (x : Lane) (src : List RG) : ErrAt → Bool
  | .preds g l => g == x.t.gang && l == x.t.lane &&
      (decide (k.gi.toNat < 48) || (x.guard k && src.any (fun q => q.n == 0 && decide (q.r.toNat < 192))))
  | .sreg g n => g == x.t.gang && x.guard k && src.any (fun q => q.n != 0 && decide (q.r.toNat ≤ 192 + n) &&
      decide (192 + n < q.r.toNat + (q.n + 1) / 2) && decide (192 ≤ q.r.toNat))
  | .record n => x.guard k && src.any (fun q => q.n == 0 && q.r.toNat == 192 + n)
  | _ => false
/-- The errors that a thread's instruction meets in its sources (21 R368): rows of v registers where it is active, and
other storage. -/
structure Met where
  rows : List (Nat × Nat × Nat × Bool)
  errs : List StoreErr
  deriving DecidableEq, Repr
def meets (b : Block) (k : Ctl) (x : Lane) (src : List RG) (dbl : Bool) : Met :=
  { rows := if x.guard k then badReads b x src dbl else [], errs := errsAt b (srcPlace k x src) dbl }
def Met.none (m : Met) : Bool := m.rows.isEmpty && m.errs.isEmpty
/-- The ECC of the double errors that an instruction meets. -/
def Met.flt (b : Block) (m : Met) : Flt :=
  if m.errs.isEmpty then eccFlt b m.rows else { errFlt b m.errs 0 with ladder := 2 }

/-- The instructions that an armed error counts (21 R383): VPUT writes a v register that it reaches by an index. -/
def armMatches (ek op : Nat) (dst : List RG) : Bool :=
  match ek with
  | 0 => decide (0x02 ≤ op ∧ op ≤ 0x0E) || decide (0x40 ≤ op ∧ op ≤ 0x64) || decide (0x70 ≤ op ∧ op ≤ 0x74)
  | 1 => decide (0x0F ≤ op ∧ op ≤ 0x1B) || op == 0x22 || op == 0x23
  | 2 | 3 => dst.any (fun q => decide (q.r.toNat < 192)) || op == 0x3C
  | 4 => decide (0x71 ≤ op ∧ op ≤ 0x74) || pairOp op
  | 5 => decide (0xAD ≤ op ∧ op ≤ 0xB3)
  | _ => false

/-- The unit that a residue error names (21 R371). -/
def resUnit (op : Nat) : Nat :=
  if 0x40 ≤ op ∧ op ≤ 0x64 then 2 else if 0x70 ≤ op then 3 else if 0x06 ≤ op ∧ op ≤ 0x0B then 1 else 0

/-- The lane that an arm counts for: the target thread, the even lane of a protected pair; for mx the quarter's
thread is the one that issues. -/
def armLane (a : Arm) (acts : List Lane) : Option Lane :=
  acts.find? (fun x => x.t.gang == a.gang && x.tid == a.thread)

/-- What an issue has found before its effect. -/
inductive Prep where
  | out (r : Res)
  | go (i : Iss) (s : State)
  /-- A residue error strikes one thread's result, or the address of its access. -/
  | residue (i : Iss) (s : State) (f : LaneFlt)

/-- Raise faults of the current issue: the bundle stays at the instruction. -/
def raiseAll (s : State) (blk op : Nat) (pc : W64) (fs : List LaneFlt) : Res := .next (raise s blk op pc fs)

/-- The quarters of an issue with an active thread, each with its thread: the one at the lowest lane position
(15 R297). -/
def quarterLanes (xs : List Lane) : List (Nat × Lane) :=
  (List.range 4).filterMap fun q => (xs.find? (fun x => x.t.lane / 8 == q)).map (fun x => (q, x))

/-- Count an armed error: the arm left, and the error that fires. -/
def countArm (b : Block) (op : Nat) (dst : List RG) (act : List Lane) : Option Arm × Option (Arm × Lane) :=
  match b.arm with
  | none => (none, none)
  | some a =>
    match if armMatches a.ek op dst && a.op == op then armLane a (if a.ek = 5 then (quarterLanes act).map Prod.snd else act)
          else none with
    | none => (some a, none)
    | some x => if a.count ≤ 1 then (none, some (a, x)) else (some { a with count := a.count - 1 }, none)

/-- The first v register that an instruction writes. -/
def firstDst (dst : List RG) : Option Nat :=
  (dst.find? (fun q => decide (q.r.toNat < 192))).map (fun q => q.r.toNat)

/-- An issue whose checks have passed: the error that fires in it, if one does (21 R383). -/
def fireArm (i : Iss) (s : State) : Option (Arm × Lane) → Prep
  | none => .go i s
  | some (a, x) =>
    if a.ek = 0 then .residue i s ⟨x.t.gang, x.t.lane, { cause := 0x20, unit := resUnit i.op, check := 0 }⟩
    else if a.ek = 1 then
      .out (raiseAll s i.b.uid i.op i.pc [⟨x.t.gang, x.t.lane, { cause := 0x20, unit := 4, check := 1 }⟩])
    else if a.ek = 4 then
      .out (raiseAll s i.b.uid i.op i.pc [⟨x.t.gang, x.t.lane, { cause := 0x22, unit := 4, check := 4 }⟩])
    else if a.ek = 5 then .go { i with mxflip := some (x.t.gang, x.t.lane) } s
    else .go { i with flip := some (x.t.gang, x.t.lane, a.ek) } s

/-- A member takes part in the issue of its bundle: all do, but in a bundle that a restore has re-formed only those whose
instruction a save withdrew (02 R24, 11 R242). -/
def Bundle.again (b : Bundle) (x : Lane) : Bool := b.redo.isEmpty || b.redo.contains (x.t.gang, x.t.lane)

/-- Single-bit register errors that reads have met: corrected, counted and gone (05 R100, 21 R369). -/
def correctReads (s : State) (b : Block) (op : Nat) (pc : W64) (rows : List (Nat × Nat × Nat × Bool)) : State :=
  if rows.isEmpty then s
  else
    let s := rows.foldl (fun s e => logMck s (fixedRec b op pc e.1 e.2.1 8)) s
    modBlock s b.uid (fun k => { k with bad := k.bad.filter (fun e => !rows.contains e) })

/-- The single-bit errors that the sources of lanes meet are corrected and counted. -/
def correctMet (s : State) (b : Block) (k : Ctl) (op : Nat) (pc : W64) (xs : List Lane) (src : List RG) : State :=
  xs.foldl (fun s x =>
    let m := meets ((getBlock s b.uid).getD b) k x src false
    correctErrs (correctReads s b op pc m.rows) b op pc x.t.gang x.t.lane m.errs) s

/-- The checks of an issue in order, up to the guard (02 R40, 05 R92, R101; 21 R368, R384). DESIGN CHOICE (log 19):
REGRANGE is raised for the threads whose own gang lacks the register; the spec does not say whether threads of another gang
of the bundle that hold it raise it too. `late` are sources that are read after the issue: only their numbers are
checked here. -/
def prepare (op : Nat) (k : Ctl) (src dst : List RG) (s : State) (late : List RG := []) : Prep :=
  match getBundle s s.cur with
  | none => .out (.fault .noIssuer)
  | some bun =>
    match bun.place.clause, getBlock s bun.blk with
    | some c, some b =>
      let all := lanesOf s bun
      let pc := bun.place.addr
      match orderFault b bun.role c bun.place.idx op with
      | some cause => .out (raiseAll s b.uid op pc (all.map fun x => ⟨x.t.gang, x.t.lane, { cause := cause }⟩))
      | none =>
        let rr := all.filter (fun x => (src ++ dst ++ late).any (outOfRange x.g))
        if !rr.isEmpty then .out (raiseAll s b.uid op pc (rr.map fun x => ⟨x.t.gang, x.t.lane, { cause := 0x16 }⟩))
        else
          let act := all.filter (fun x => x.guard k && bun.again x)
          let pf := if b.protectd then pairFaults all k op src else []
          if !pf.isEmpty then .out (raiseAll s b.uid op pc pf)
          else
            let reads := all.filter bun.again
            let dbl := reads.filter (fun x => !(meets b k x src true).none)
            if !dbl.isEmpty then
              .out (raiseAll s b.uid op pc (dbl.map fun x => ⟨x.t.gang, x.t.lane, (meets b k x src true).flt b⟩))
            else
              let s := correctMet s b k op pc reads src
              let (arm, fired) := countArm b op dst act
              let s := if arm == b.arm then s else modBlock s b.uid (fun k => { k with arm := arm })
              let s := { s with issueNo := s.issueNo + 1 }
              let i : Iss := { bun := bun, b := b, op := op, k := k, pc := pc, no := s.issueNo, all := all, act := act,
                               next := bun.place.next, flip := none, mxflip := none }
              fireArm i s fired
    | _, _ => .out (.fault .noIssuer)

/-- An injected register error stands in a register that a lane of the issue has written (21 R384). -/
def markFlip (i : Iss) (x : Lane) (r : Nat) (s : State) : State :=
  match i.flip with
  | some (g, l, ek) =>
    if x.t.gang = g ∧ x.t.lane = l then modBlock s i.b.uid (fun b => { b with bad := (g, l, r, ek == 3) :: b.bad }) else s
  | none => s
/-- The wait still has a result to write at its end: not one whose result a block in a revocable interval has written already
(12 R265). -/
def Wait.owes : Wait → Bool
  | .none | .jpwait .none | .barrier _ _ .none | .over _ .none | .tapw _ _ .none | .cwait _ .none | .halt _ _ _ .none => false
  | _ => true
/-- Leave an injected register error where the first destination register is written: at once, with the first
long-latency result of this issue, or with the result of the wait that the thread has entered (21 R384). -/
def applyFlip (i : Iss) (dst : List RG) (s : State) : State :=
  match i.flip, firstDst dst with
  | some (g, l, ek), some r =>
    match s.outst.find? (fun o => o.issue == i.no && o.gang == g && o.lane == l) with
    | some o => updOutst s o.id (fun o => { o with flip := ek - 1 })
    | none =>
      if (getThread s i.b.uid g l).any (fun t => t.wait.owes) then
        modThread s i.b.uid g l (fun t => { t with flip := some (r, ek == 3) })
      else modBlock s i.b.uid (fun b => { b with bad := (g, l, r, ek == 3) :: b.bad })
  | _, _ => s

/-- Park every thread of the bundle that has a result outstanding (02 R31). -/
def parkAll (i : Iss) (s : State) : State :=
  if i.k.pk then
    modThreads s (fun t => t.blk == i.b.uid && i.bun.mem.contains (t.gang, t.lane)) (fun t => { t with parked := true })
  else s

/-- Some member of a bundle waits. -/
def anyWaits (s : State) (b : Bundle) : Bool :=
  (membersOf s b).any (fun t => t.wait != .none)

/-- A thread stands at a fault of an instruction. -/
def Thread.faultAt (t : Thread) (pc : W64) : Bool := match t.fault with | some f => f.pc == pc | none => false
/-- The members of a bundle that issue its instruction again: those that it has faulted, and those that had still to issue
it again (05 R85, 02 R24). -/
def redoOf (s : State) (b : Bundle) (pc : W64) : List (Nat × Nat) :=
  b.mem.filter fun m => (!b.mid && b.redo.contains m) ||
    (match getThread s b.blk m.1 m.2 with | some t => t.faultAt pc | none => false)
/-- The bundle continues after its instruction (02 R25), once none of its members waits in it. Where a collective has
faulted some, the bundle stays, and those issue it again. DESIGN CHOICE (log 23): a thread that the last word of a clause has
parked stands at the next header at once, but is filed nowhere and stops for no kill or save before its park has ended. -/
def advance (i : Iss) (s : State) : State :=
  match getBundle s i.bun.id with
  | none => s
  | some b =>
    if (membersOf s b).any (fun t => t.faultAt i.pc) then
      modBundle s b.id (fun b => { b with mid := false, redo := redoOf s { b with mid := true } i.pc })
    else if anyWaits s b then markAge (modBundle s b.id (fun b => { b with mid := true })) b.id
    else moveTo (markAge s b.id) b.id i.next

/-- What follows the effect of an issue. -/
def finish (i : Iss) (dst : List RG) : IOut → Res
  | .done s => .next (advance i (parkAll i (applyFlip i dst s)))
  | .stay s => .next (parkAll i (applyFlip i dst s))
  | .trap s fs =>
    .next (raise (modBlock s i.b.uid (fun b => { b with arm := i.b.arm })) i.b.uid i.op i.pc fs)
  | .stall s => .next (modBundle (modBlock s i.b.uid (fun b => { b with arm := i.b.arm })) i.bun.id
      (fun b => { b with stalled := true }))

/-- The residue of what an issue gives a thread: the address of its access, or else its destination as an unsigned number,
mod 7 (21 R370, R383). -/
def residueOf (i : Iss) (dst : List RG) (addr : Iss → Lane → Option Nat) (gang lane : Nat) : IOut → Option Nat
  | .done s =>
    if 0x70 ≤ i.op then
      ((i.all.find? (fun x => x.t.gang == gang && x.t.lane == lane)).bind (addr i)).map (· % 7)
    else
      match dst, (lanesOf s i.bun).find? (fun x => x.t.gang == gang && x.t.lane == lane) with
      | q :: _, some x => some (x.rd q.r (32 * q.n) % 7)
      | _, _ => none
  | _ => none

/-- The effect has met an error of the block's store-hold queue that no code corrects. -/
def holdFails (s t : State) (blk : Nat) : Bool :=
  match getBlock s blk, getBlock t blk with
  | some b, some c => !(holdBad b).isEmpty && decide (b.mcheck.length < c.mcheck.length)
  | _, _ => false
/-- An instruction whose irrevocable event cannot drain the store-hold queue has no effect: ECC is raised at it, which its
rollback repairs (21 R368, R377, R380). -/
def holdTrap (i : Iss) (s : State) (o : IOut) : IOut :=
  let trap : IOut := .trap s ((i.act.head?.or i.all.head?).toList.map fun x =>
    ⟨x.t.gang, x.t.lane, errFlt i.b (holdBad i.b) 0⟩)
  match o with
  | .done t | .stay t => if holdFails s t i.b.uid then trap else o
  | o => o

/-- The issue of one instruction: its opcode, its source and destination groups, its effect, and the address that it
computes for a lane, where it is an access. -/
def issue (op : Nat) (k : Ctl) (src dst : List RG) (s : State) (eff : Iss → State → IOut) (late : List RG := [])
    (addr : Iss → Lane → Option Nat := fun _ _ => none) : Res :=
  match prepare op k src dst s late with
  | .out r => r
  | .go i s1 => finish i dst (holdTrap i s1 (eff i s1))
  | .residue i s1 f =>
    raiseAll s1 i.b.uid op i.pc [{ f with flt := { f.flt with residue := residueOf i dst addr f.gang f.lane (eff i s1) } }]

/-- An instruction that writes one n-bit register result per active lane (06 R102). -/
def laneOp (op : Nat) (k : Ctl) (src : List RG) (d : Reg) (n : Nat) (s : State) (f : Lane → Nat) : Res :=
  issue op k src [⟨d, (n + 31) / 32⟩] s fun i s => .done (commit s d n (i.act.map fun x => (x, f x)))

/-- OR flags into the active lanes' FPFLAGS (07 R138). -/
def orFlags (s : State) (fs : List (Lane × BitVec 5)) : State :=
  fs.foldl (fun s f => modThread s f.1.t.blk f.1.t.gang f.1.t.lane (fun t => { t with fpflags := t.fpflags ||| f.2 })) s

/-- An instruction that writes one n-bit result and raises flags per active lane (07 R144). -/
def laneOpF (op : Nat) (k : Ctl) (src : List RG) (d : Reg) (n : Nat) (s : State) (f : Lane → Nat × BitVec 5) : Res :=
  issue op k src [⟨d, (n + 31) / 32⟩] s fun i s =>
    .done (orFlags (commit s d n (i.act.map fun x => (x, (f x).1))) (i.act.map fun x => (x, (f x).2)))

/-- An instruction that writes one predicate per active lane. -/
def lanePred (op : Nat) (k : Ctl) (src : List RG) (d : Reg) (s : State) (f : Lane → Bool) : Res :=
  issue op k src [] s fun i s => .done (commitP s d (i.act.map fun x => (x, f x)))

/-- Single-bit errors in scratchpad bytes that a lane's instruction reads are corrected and counted. -/
def correctScratch (i : Iss) (x : Lane) (off n : Nat) (s : State) : State :=
  correctErrs s i.b i.op i.pc x.t.gang x.t.lane (errsAt i.b (scratchWord off n) false)
/-- Sources that one lane of an issue reads for all of it: double errors there raise ECC, single ones are corrected and
counted (21 R368, R369). -/
def readOne (i : Iss) (x : Lane) (src : List RG) (s : State) (eff : State → IOut) : IOut :=
  let m := meets i.b i.k x src true
  if m.none then eff (correctMet s i.b i.k i.op i.pc [x] src) else .trap s [⟨x.t.gang, x.t.lane, m.flt i.b⟩]

/-- Collect per-lane faults: none means that the instruction is performed (08 R163). -/
def lane1 (xs : List Lane) (f : Lane → Option Flt) : List LaneFlt :=
  xs.filterMap fun x => (f x).map (fun e => ⟨x.t.gang, x.t.lane, e⟩)

end Sys2Proof.Machine
end

