-- ==== Sys2Proof/Machine/IntArith.lean ====
section
/-! DEFINITION. Integer arithmetic of the INT class (06 R102-R108). -/

namespace Sys2Proof.Machine

/-- ext of a pattern: signed when sg = 1 (06 R102). -/
def ext (sg : Bool) (n v : Nat) : Int := if sg then sx n v else (v % 2 ^ n : Nat)

/-- The saturation of R106, then the low N bits. -/
def satBits (sg sat : Bool) (n : Nat) (t : Int) : Nat :=
  let u := if sat then
      (if sg then min (max t (-(2 : Int) ^ (n - 1))) ((2 : Int) ^ (n - 1) - 1) else min (max t 0) ((2 : Int) ^ n - 1))
    else t
  lowBits n u

/-- A two-operand integer operation of width N (06 R106). -/
def intOp2 (op : Nat) (k : Ctl) (w sg sat : Bool) (d a b : Reg) (s : State) (f : Int → Int → Int) : Res :=
  laneOp op k [rW w a, rW w b] d (wN w) s fun x =>
    satBits sg sat (wN w) (f (ext sg (wN w) (x.rd a (wN w))) (ext sg (wN w) (x.rd b (wN w))))

def execIadd (k : Ctl) (w sg sat : Bool) (d a b : Reg) (s : State) : Res :=
  intOp2 0x02 k w sg sat d a b s (fun x y => x + y)
def execIsub (k : Ctl) (w sg sat : Bool) (d a b : Reg) (s : State) : Res :=
  intOp2 0x03 k w sg sat d a b s (fun x y => x - y)
/-- IADDI: the immediate is signed when sg = 1 (06 R104). -/
def execIaddi (k : Ctl) (w sg sat : Bool) (d a : Reg) (i : BitVec 24) (s : State) : Res :=
  laneOp 0x04 k [rW w a] d (wN w) s fun x =>
    satBits sg sat (wN w) (ext sg (wN w) (x.rd a (wN w)) + ext sg 24 i.toNat)
/-- IADDW (06 R107). -/
def execIaddw (k : Ctl) (sg sat : Bool) (d a b : Reg) (s : State) : Res :=
  laneOp 0x05 k [r64 a, r32 b] d 64 s fun x => satBits sg sat 64 (ext sg 64 (x.rd a 64) + ext sg 32 (x.rd b 32))
def execImul (k : Ctl) (w sg sat : Bool) (d a b : Reg) (s : State) : Res :=
  intOp2 0x06 k w sg sat d a b s (fun x y => x * y)
/-- IMULH: the floor of the exact product over 2^N (06 R106). -/
def execImulh (k : Ctl) (w sg : Bool) (d a b : Reg) (s : State) : Res :=
  intOp2 0x07 k w sg false d a b s (fun x y => x * y / (2 : Int) ^ wN w)
/-- IMAD rounds and saturates once, after the addition (06 R106). -/
def execImad (k : Ctl) (w sg sat : Bool) (d a b c : Reg) (s : State) : Res :=
  laneOp 0x08 k [rW w a, rW w b, rW w c] d (wN w) s fun x =>
    satBits sg sat (wN w) (ext sg (wN w) (x.rd a (wN w)) * ext sg (wN w) (x.rd b (wN w)) + ext sg (wN w) (x.rd c (wN w)))
/-- IMADW (06 R107). -/
def execImadw (k : Ctl) (sg sat : Bool) (d a b c : Reg) (s : State) : Res :=
  laneOp 0x09 k [r32 a, r32 b, r64 c] d 64 s fun x =>
    satBits sg sat 64 (ext sg 32 (x.rd a 32) * ext sg 32 (x.rd b 32) + ext sg 64 (x.rd c 64))
/-- IDIV: truncated toward zero; all ones for a zero divisor (06 R108). -/
def execIdiv (k : Ctl) (w sg : Bool) (d a b : Reg) (s : State) : Res :=
  intOp2 0x0A k w sg false d a b s (fun x y => if y = 0 then -1 else x.tdiv y)
/-- IREM: the remainder takes the sign of A; A for a zero divisor (06 R108). -/
def execIrem (k : Ctl) (w sg : Bool) (d a b : Reg) (s : State) : Res :=
  intOp2 0x0B k w sg false d a b s (fun x y => if y = 0 then x else x.tmod y)
def execImin (k : Ctl) (w sg : Bool) (d a b : Reg) (s : State) : Res :=
  intOp2 0x0C k w sg false d a b s (fun x y => min x y)
def execImax (k : Ctl) (w sg : Bool) (d a b : Reg) (s : State) : Res :=
  intOp2 0x0D k w sg false d a b s (fun x y => max x y)
def execIabsd (k : Ctl) (w sg : Bool) (d a b : Reg) (s : State) : Res :=
  intOp2 0x0E k w sg false d a b s (fun x y => ((x - y).natAbs : Int))

end Sys2Proof.Machine
end

