-- ==== Sys2Proof/Machine/IntLogic.lean ====
section
/-! DEFINITION. Logic, shifts, bitfields, bit counts, moves, selection and indexed register access of the INT class
(06 R109-R115), and NOP (R125). -/

namespace Sys2Proof.Machine

/-- The number whose bit k, for k below n, is f k. -/
def ofBits (n : Nat) (f : Nat → Bool) : Nat :=
  match n with
  | 0 => 0
  | m + 1 => ofBits m f + if f m then 2 ^ m else 0
/-- The set bits of the low n bits. -/
def popCount (n v : Nat) : Nat :=
  match n with
  | 0 => 0
  | m + 1 => popCount m v + if natBit v m then 1 else 0
def b2n (b : Bool) : Nat := if b then 1 else 0

/-- A bit of a truth table (06 R109, R117). -/
def lutBit (x : BitVec 8) (a b c : Bool) : Bool := x.getLsbD (4 * b2n a + 2 * b2n b + b2n c)

/-- LUT3 (06 R109). -/
def execLut3 (k : Ctl) (w : Bool) (d a b c : Reg) (x : BitVec 8) (s : State) : Res :=
  laneOp 0x0F k [rW w a, rW w b, rW w c] d (wN w) s fun l =>
    let va := l.rd a (wN w); let vb := l.rd b (wN w); let vc := l.rd c (wN w)
    ofBits (wN w) fun j => lutBit x (natBit va j) (natBit vb j) (natBit vc j)

/-- The source group of a count operand: a register when im = 0. -/
def cntSrc (im : Bool) (b : Reg) : List RG := if im then [] else [r32 b]

/-- ISHL (06 R110): a count of N or more gives 0. -/
def execIshl (k : Ctl) (w im : Bool) (d a b : Reg) (x : BitVec 8) (s : State) : Res :=
  laneOp 0x10 k (rW w a :: cntSrc im b) d (wN w) s fun l =>
    let c := if im then x.toNat else l.rd b 32
    if wN w ≤ c then 0 else l.rd a (wN w) * 2 ^ c % 2 ^ wN w
/-- ISHR (06 R110): a count of N or more gives 0, or copies of the sign. -/
def execIshr (k : Ctl) (w sg im : Bool) (d a b : Reg) (x : BitVec 8) (s : State) : Res :=
  laneOp 0x11 k (rW w a :: cntSrc im b) d (wN w) s fun l =>
    let c := min (if im then x.toNat else l.rd b 32) (wN w)
    lowBits (wN w) (ext sg (wN w) (l.rd a (wN w)) / (2 : Int) ^ c)

/-- The 64-bit pair and the count of a funnel shift (06 R111). -/
def funnel (l : Lane) (im : Bool) (a b c : Reg) (x : BitVec 8) : Nat × Nat :=
  (l.rd a 32 * 2 ^ 32 + l.rd b 32, (if im then x.toNat else l.rd c 32) % 32)
def execFshl (k : Ctl) (im : Bool) (d a b c : Reg) (x : BitVec 8) (s : State) : Res :=
  laneOp 0x12 k (r32 a :: r32 b :: cntSrc im c) d 32 s fun l =>
    let p := funnel l im a b c x
    p.1 * 2 ^ p.2 / 2 ^ 32 % 2 ^ 32
def execFshr (k : Ctl) (im : Bool) (d a b c : Reg) (x : BitVec 8) (s : State) : Res :=
  laneOp 0x13 k (r32 a :: r32 b :: cntSrc im c) d 32 s fun l =>
    let p := funnel l im a b c x
    p.1 / 2 ^ p.2 % 2 ^ 32

/-- Position and length of a bitfield operation (06 R112). -/
def fieldPos (l : Lane) (w im : Bool) (c : Reg) (x : BitVec 8) : Nat × Nat :=
  if im then (c.toNat, x.toNat)
  else (natBits (l.rd c 32) 0 8, min (natBits (l.rd c 32) 8 8) (wN w))
def execBfx (k : Ctl) (w sg im : Bool) (d a c : Reg) (x : BitVec 8) (s : State) : Res :=
  laneOp 0x14 k (rW w a :: cntSrc im c) d (wN w) s fun l =>
    let p := fieldPos l w im c x
    let v := l.rd a (wN w) / 2 ^ p.1 % 2 ^ p.2
    if sg && decide (0 < p.2) then lowBits (wN w) (sx p.2 v) else v
def execBfi (k : Ctl) (w im : Bool) (d a b c : Reg) (x : BitVec 8) (s : State) : Res :=
  laneOp 0x15 k (rW w a :: rW w b :: cntSrc im c) d (wN w) s fun l =>
    let p := fieldPos l w im c x
    let va := l.rd a (wN w); let vb := l.rd b (wN w)
    ofBits (wN w) fun j => if p.1 ≤ j ∧ j < p.1 + p.2 then natBit vb (j - p.1) else natBit va j

/-- POPC (06 R113). -/
def execPopc (k : Ctl) (w : Bool) (d a : Reg) (s : State) : Res :=
  laneOp 0x16 k [rW w a] d 32 s fun l => popCount (wN w) (l.rd a (wN w))
/-- POPB: the count of each byte (06 R113). -/
def execPopb (k : Ctl) (w : Bool) (d a : Reg) (s : State) : Res :=
  laneOp 0x17 k [rW w a] d (wN w) s fun l =>
    packElems 8 ((elems 8 (wN w / 8) (l.rd a (wN w))).map (popCount 8))
/-- CLZ: N for zero (06 R113). -/
def execClz (k : Ctl) (w : Bool) (d a : Reg) (s : State) : Res :=
  laneOp 0x18 k [rW w a] d 32 s fun l =>
    let v := l.rd a (wN w)
    if v = 0 then wN w else wN w - 1 - Nat.log2 v
/-- BREV (06 R113). -/
def execBrev (k : Ctl) (w : Bool) (d a : Reg) (s : State) : Res :=
  laneOp 0x19 k [rW w a] d (wN w) s fun l =>
    let v := l.rd a (wN w)
    ofBits (wN w) fun j => natBit v (wN w - 1 - j)
/-- ISEL (06 R114). DESIGN CHOICE (log 19): both registers are read, so that a double-bit error in the one that is not
selected raises ECC (21 R368), though its value affects nothing. -/
def execIsel (k : Ctl) (w : Bool) (d a b : Reg) (x : BitVec 8) (s : State) : Res :=
  laneOp 0x1A k [rW w a, rW w b, rP (x &&& 0x3F)] d (wN w) s fun l =>
    if l.pr (natBits x.toNat 0 6) != x.getLsbD 7 then l.rd a (wN w) else l.rd b (wN w)
/-- MOV of 32, 64 or 128 bits (06 R114). -/
def execMov (k : Ctl) (sz : BitVec 2) (d a : Reg) (s : State) : Res :=
  let n := 32 * 2 ^ sz.toNat
  laneOp 0x1B k [⟨a, n / 32⟩] d n s fun l => l.rd a n
/-- MOVI (06 R114): mode hi keeps the low word of d. -/
def execMovi (k : Ctl) (mv : BitVec 2) (d : Reg) (i : BitVec 32) (s : State) : Res :=
  let n := if mv = 0 then 32 else 64
  laneOp 0x1C k (if mv = 3 then [r64 d] else []) d n s fun l =>
    match mv.toNat with
    | 1 => lowBits 64 (sx 32 i.toNat)
    | 3 => i.toNat * 2 ^ 32 + l.rd d 64 % 2 ^ 32
    | _ => i.toNat
/-- NOP (06 R125). -/
def execNop (k : Ctl) (s : State) : Res := issue 0x01 k [] [] s fun _ s => .done s

/-- VGET: the register reached is checked for every active thread before any writes (06 R115); double register errors there
are raised, single ones corrected and counted, as at any read (05 R100). -/
def execVget (k : Ctl) (d a b : Reg) (s : State) : Res :=
  issue 0x3B k [r32 b] [r32 d] s fun i s =>
    let reach (x : Lane) : Nat := a.toNat + x.rd b 32
    match lane1 i.act (fun x =>
        if x.g.limit ≤ reach x then some { cause := 0x16 }
        else
          let rows := badReads i.b x [r32 (BitVec.ofNat 8 (reach x))] true
          if rows.isEmpty then none else some (eccFlt i.b rows)) with
    | [] =>
      let s := i.act.foldl (fun s x =>
        correctReads s i.b 0x3B i.pc (badReads i.b x [r32 (BitVec.ofNat 8 (reach x))] false)) s
      .done (commit s d 32 (i.act.map fun x => (x, x.v (reach x))))
    | fs => .trap s fs
/-- VPUT (06 R115). -/
def execVput (k : Ctl) (d a b : Reg) (s : State) : Res :=
  issue 0x3C k [r32 a, r32 b] [] s fun i s =>
    let reach (x : Lane) : Nat := d.toNat + x.rd b 32
    match lane1 i.act (fun x => if x.g.limit ≤ reach x then some { cause := 0x16 } else none) with
    | [] => .done (i.act.foldl (fun s x =>
        markFlip i x (reach x) (setV s x.t.blk x.t.gang x.t.lane (reach x) (BitVec.ofNat 32 (x.rd a 32)))) s)
    | fs => .trap s fs

end Sys2Proof.Machine
end

