-- ==== Sys2Proof/Machine/Pred.lean ====
section
/-! DEFINITION. Comparisons and predicate logic of the INT class (06 R116, R117). -/

namespace Sys2Proof.Machine

/-- ICMP (06 R116). -/
def execIcmp (k : Ctl) (w sg : Bool) (cb : BitVec 2) (cc : BitVec 3) (d a b : Reg) (s : State) : Res :=
  lanePred 0x1D k [rW w a, rW w b, rP d] d s fun l =>
    let va := l.rd a (wN w); let vb := l.rd b (wN w)
    combine cb.toNat (l.pr d.toNat) (icompare cc.toNat (ext sg (wN w) va) (ext sg (wN w) vb) va vb)
/-- ICMPI: the immediate as for IADDI; tst works on the N-bit pattern of it (06 R116). -/
def execIcmpi (k : Ctl) (w sg : Bool) (cb : BitVec 2) (cc : BitVec 3) (d a : Reg) (i : BitVec 24) (s : State) : Res :=
  lanePred 0x1E k [rW w a, rP d] d s fun l =>
    let va := l.rd a (wN w)
    let vi := ext sg 24 i.toNat
    combine cb.toNat (l.pr d.toNat) (icompare cc.toNat (ext sg (wN w) va) vi va (lowBits (wN w) vi))
/-- PLUT (06 R117). -/
def execPlut (k : Ctl) (d a b c : Reg) (x : BitVec 8) (s : State) : Res :=
  lanePred 0x1F k [rP a, rP b, rP c] d s fun l => lutBit x (l.pr a.toNat) (l.pr b.toNat) (l.pr c.toNat)
/-- PGET (06 R117). -/
def execPget (k : Ctl) (d : Reg) (x : BitVec 8) (s : State) : Res :=
  laneOp 0x20 k [rP 0] d 32 s fun l => if x = 0 then natBits l.t.p.toNat 0 32 else natBits l.t.p.toNat 32 16
/-- PSET (06 R117). -/
def execPset (k : Ctl) (a b : Reg) (x : BitVec 8) (s : State) : Res :=
  issue 0x21 k [r32 a, r32 b] [] s fun i s => .done (i.act.foldl (fun s l =>
    let v := l.rd a 32
    let m := if x = 0 then l.rd b 32 else l.rd b 32 % 2 ^ 16 * 2 ^ 32
    let v := if x = 0 then v else v * 2 ^ 32
    modThread s l.t.blk l.t.gang l.t.lane (fun t =>
      { t with p := (t.p &&& ~~~BitVec.ofNat 48 m) ||| (BitVec.ofNat 48 (v &&& m)) })) s)

end Sys2Proof.Machine
end

