-- ==== Sys2Proof/Machine/Gang.lean ====
section
/-! DEFINITION. Gang-collective operations (05 R85, 06 R118-R121) and the claim and return of registers (05 R88-R91,
06 R129, R130): arrival, completion, performance. -/

namespace Sys2Proof.Machine

/-! ### Register claims (05 R89, R90) -/

/-- A claim of n units by a gang is satisfiable. -/
def satisfiable (s : State) (blk n : Nat) : Bool :=
  match getBlock s blk with
  | none => false
  | some b => decide (n ≤ freeUnits s b.core) && decide (heldUnits s blk + n ≤ b.cap)

/-- Every register of the given numbers reads 0 with valid ECC in every thread of a gang (05 R91). -/
def clearRegs (s : State) (blk gang lo hi : Nat) : State :=
  let out (n : Nat) : Bool := decide (n < lo) || decide (hi ≤ n)
  modBlock (modThreads s (fun t => t.blk == blk && t.gang == gang) (fun t => { t with v := t.v.filter (fun e => out e.1) }))
    blk (fun b => { b with bad := b.bad.filter (fun e => e.1 != gang || out e.2.2.1) })

/-- An irrevocable event of a block that an error in its store-hold queue keeps back: the interval is still revocable, and
its rollback repairs the error (21 R377, R380). -/
def keptBack (s : State) (blk : Nat) : Bool :=
  match getBlock s blk with | some b => b.rollback && b.revocable | none => false
/-- Grant n units to a gang. -/
def grantUnits (s : State) (blk gang n : Nat) : State :=
  match getGang s blk gang with
  | none => s
  | some g => clearRegs (modGang s blk gang (fun g => { g with ext := g.ext + n })) blk gang g.limit (g.limit + 8 * n)

/-- The block has been killed. -/
def isKilled (s : State) (blk : Nat) : Bool := match getBlock s blk with | some b => b.killed | none => false
/-- Serve the waiting claims, oldest first among the satisfiable ones (05 R90); a kill has withdrawn those of its blocks
(06 R129). -/
def serveClaims (s : State) : State :=
  s.claims.foldl (fun s c =>
    if !isKilled s c.1 && satisfiable s c.1 c.2.2 then
      let s := irrevocable s c.1
      if keptBack s c.1 then s
      else
        let s := grantUnits { s with claims := s.claims.filter (· != c) } c.1 c.2.1 c.2.2
        modThreads s (fun t => t.blk == c.1 && t.gang == c.2.1 && t.wait == .claim c.2.2) Thread.unwait
    else s) s

/-! ### Effects of a completed gathering on its active members, in ascending index -/

/-- Whether an index names an active member; its lane. -/
def memberAt (act : List Lane) (j : Nat) : Option Lane := act.find? (fun x => x.tid == j)

/-- Results go to both lanes of a protected pair (05 R101). -/
def pairCommit (s : State) (d : Reg) (n : Nat) (outs : List (Lane × Nat)) : State :=
  let s := commit s d n outs
  outs.foldl (fun s o => if o.1.b.protectd && decide (d.toNat < 192)
    then putReg s o.1.t.blk o.1.t.gang (o.1.t.lane + 1) d n o.2 else s) s
def pairCommitP (s : State) (d : Reg) (outs : List (Lane × Bool)) : State :=
  outs.foldl (fun s o => deliverP s o.1.t.blk o.1.t.gang o.1.t.lane d.toNat o.2) s

/-- PERM (06 R119). -/
def permEff (w : Bool) (pm : Nat) (d a b : Reg) (x : Nat) (act : List Lane) (s : State) : State :=
  pairCommit s d (wN w) (act.map fun t =>
    let j : Int := match pm with
      | 0 => t.rd b 32 | 1 => (t.tid ^^^ x : Nat) | 2 => (t.tid : Int) - x | _ => (t.tid : Int) + x
    let src := if 0 ≤ j then (memberAt act j.toNat).getD t else t
    (t, src.rd a (wN w)))
/-- PERMX (06 R119). -/
def permxEff (d a b x : Reg) (act : List Lane) (s : State) : State :=
  pairCommit s d 32 (act.map fun t =>
    let j := t.rd x 32
    (t, if j < 32 then ((memberAt act j).getD t).rd a 32
        else match memberAt act (j - 32) with
          | some u => u.rd b 32
          | none => t.rd a 32))
/-- VOTE (06 R120). -/
def voteEff (vm : Nat) (d a : Reg) (act : List Lane) (s : State) : State :=
  let ps := act.map fun t => t.pr a.toNat
  match vm with
  | 0 => pairCommitP s d (act.map fun t => (t, ps.all id))
  | 1 => pairCommitP s d (act.map fun t => (t, ps.any id))
  | 2 =>
    let vs := act.map fun t => t.rd a 32
    pairCommitP s d (act.map fun t => (t, vs.all (fun v => some v == vs.head?)))
  | _ =>
    let mask := ofBits 32 fun j => match memberAt act j with | some u => u.pr a.toNat | none => false
    pairCommit s d 32 (act.map fun t => (t, mask))
/-- ELECT (06 R120). -/
def electEff (d : Reg) (act : List Lane) (s : State) : State :=
  pairCommitP s d (act.map fun t => (t, match act.head? with | some u => u.tid == t.tid | none => false))

/-- A fold step of GRED and GSCAN, and the identity (06 R121), on n-bit patterns. -/
def gopStep (gop : Nat) (sg : Bool) (n a b : Nat) : Nat :=
  match gop with
  | 0 => (a + b) % 2 ^ n
  | 1 => if ext sg n a ≤ ext sg n b then a else b
  | 2 => if ext sg n a ≤ ext sg n b then b else a
  | 3 => a &&& b
  | 4 => a ||| b
  | _ => a ^^^ b
def gopId (gop : Nat) (sg : Bool) (n : Nat) : Nat :=
  match gop with
  | 1 => if sg then 2 ^ (n - 1) - 1 else 2 ^ n - 1
  | 2 => if sg then 2 ^ (n - 1) else 0
  | 3 => 2 ^ n - 1
  | _ => 0
def gredEff (w sg : Bool) (gop : Nat) (d a : Reg) (act : List Lane) (s : State) : State :=
  let r := act.foldl (fun acc t => gopStep gop sg (wN w) acc (t.rd a (wN w))) (gopId gop sg (wN w))
  pairCommit s d (wN w) (act.map fun t => (t, r))
def gscanEff (w sg : Bool) (gop : Nat) (ex : Bool) (d a : Reg) (act : List Lane) (s : State) : State :=
  pairCommit s d (wN w) (act.map fun t =>
    (t, (act.filter (fun u => decide (u.tid < t.tid) || (!ex && u.tid == t.tid))).foldl
      (fun acc u => gopStep gop sg (wN w) acc (u.rd a (wN w))) (gopId gop sg (wN w))))

/-! ### Arrival and completion (06 R118) -/

/-- The live threads of a gang: those that have not exited. -/
def liveThreads (s : State) (blk gang : Nat) : List Thread := gangThreads s blk gang

/-- The threads of the gathering that a waiting thread belongs to, in ascending lane position; none while a named live
thread is still awaited. -/
def gathering (s : State) (b : Block) (t : Thread) : Option (List Thread) :=
  match t.wait with
  | .gather _ pc m _ =>
    if !m.getLsbD (b.tid t.lane) then
      some ((gangThreads s t.blk t.gang).filter (fun u => b.tid u.lane == b.tid t.lane))
    else
      let here (u : Thread) : Bool := match u.wait with | .gather _ pc' m' _ => pc' == pc && m' == m | _ => false
      let named := (liveThreads s t.blk t.gang).filter (fun u => m.getLsbD (b.tid u.lane))
      if named.all here then some named else none
  | _ => none

/-- The source groups that a collective reads of an active member. -/
def gatherSrc : Instr → List RG
  | .perm _ w _ pm _ a b _ _ => if pm = 0 then [rW w a, r32 b] else [rW w a]
  | .permx _ _ _ a b _ x => [r32 a, r32 b, r32 x]
  | .vote _ _ vm _ a _ => if vm = 2 then [r32 a] else [rP a]
  | .gred _ w _ _ _ _ a _ => [rW w a]
  | .gscan _ w _ _ _ _ _ a _ => [rW w a]
  | _ => []

/-- A result outstanding for the gang has its destination in the highest n units (06 R130). -/
def giveBlocked (s : State) (g : Gang) (n : Nat) : Bool :=
  s.outst.any fun o => o.blk == g.blk && o.gang == g.num &&
    (match o.op with
     | .load _ _ _ _ d sz _ => sz != 0 && decide (d.toNat < 192) && decide (g.limit - 8 * n < d.toNat + (8 * sz + 31) / 32)
     | .atom _ _ sz _ _ ret d _ => ret && decide (d.toNat < 192) && decide (g.limit - 8 * n < d.toNat + sz / 4)
     | .cas _ _ sz _ _ ret d _ => ret && decide (d.toNat < 192) && decide (g.limit - 8 * n < d.toNat + sz / 4)
     | .reply d w _ _ => w != 0 && decide (d.toNat < 192) && decide (g.limit - 8 * n < d.toNat + (w + 31) / 32)
     | .matrix _ (some d) => decide (d.toNat < 192) && decide (g.limit - 8 * n < d.toNat + 1)
     | .scack _ _ d w | .pool d w _ => w != 0 && decide (d.toNat < 192) && decide (g.limit - 8 * n < d.toNat + 1)
     | .future _ => s.conts.any (fun c => c.outst == o.id && c.keep && decide (c.d.toNat < 192) &&
         decide (g.limit - 8 * n < c.d.toNat + 2))
     | _ => false)

/-- The thread is one of a list. -/
def Thread.among (t : Thread) (ms : List Thread) : Bool := ms.any (fun u => t.is u.blk u.gang u.lane)
/-- Release the arrived threads: an armed error lands with the result that one has received (21 R384). -/
def setGathered (s : State) (ms : List Thread) : State :=
  ms.foldl (fun s t => landWait s t.blk t.gang t.lane) (modThreads s (fun t => t.among ms) Thread.unwait)

/-- Every arrived thread faults at the collective (06, register claim and give). The threads of another gang in their
bundles have issued the instruction: they do not issue it again. -/
def gatherFault (s : State) (b : Block) (pc : W64) (op : Nat) (ms : List Thread) (f : Flt) : State :=
  let s := modThreads s (fun t => t.among ms) (fun t => { t.unwait with flip := none })
  let s := raise s b.uid op pc (ms.map fun t => ⟨t.gang, t.lane, f⟩)
  let with_ (q : Bundle) : Bool := q.blk == b.uid && ms.any (fun t => q.mem.contains (t.gang, t.lane))
  { s with bundles := updWhere s.bundles with_ (fun q => { q with mid := false, redo := redoOf s q pc }) }

/-- RCLAIM, RTRY and RGIVE once a gathering with a true guard has completed (06 R129, R130). -/
def claimEff (s : State) (b : Block) (g : Gang) (i : Instr) (pc : W64) (ms : List Thread) (act : List Lane) : State :=
  match i with
  | .rclaim _ n =>
    let n := n.toNat % 32
    if 24 < g.base + g.ext + n then gatherFault s b pc 0x33 ms { cause := 0x02 }
    else
      let s := modThreads s (fun t => ms.any (fun u => t.is u.blk u.gang u.lane)) (fun t => { t with wait := .claim n })
      serveClaims { s with claims := s.claims ++ [(b.uid, g.num, n)] }
  | .rtry _ d n =>
    let n := n.toNat % 32
    if 24 < g.base + g.ext + n then gatherFault s b pc 0x35 ms { cause := 0x02 }
    else
      let q := satisfiable s b.uid n
      let s := if q then irrevocable s b.uid else s
      if q && keptBack s b.uid then s
      else setGathered (pairCommitP (if q then grantUnits s b.uid g.num n else s) d (act.map fun x => (x, q))) ms
  | .rgive _ n =>
    let n := n.toNat % 32
    if g.ext < n then gatherFault s b pc 0x34 ms { cause := 0x16 }
    else if giveBlocked s g n then
      let isAct (t : Thread) : Bool := act.any (fun x => x.t.lane == t.lane)
      modThreads s (fun t => ms.any (fun u => t.is u.blk u.gang u.lane))
        (fun t => { t with wait := .give (BitVec.ofNat 24 n) pc (isAct t) })
    else
      let s := irrevocable s b.uid
      if keptBack s b.uid then s
      else
        let s := modGang s b.uid g.num (fun g => { g with ext := g.ext - n })
        serveClaims (setGathered (clearRegs s b.uid g.num (g.limit - 8 * n) g.limit) ms)
  | _ => s

/-- The opcode of a collective instruction. -/
def gatherOp : Instr → Nat
  | .perm .. => 0x22 | .permx .. => 0x23 | .vote .. => 0x24 | .elect .. => 0x25 | .gred .. => 0x26 | .gscan .. => 0x27
  | .rclaim .. => 0x33 | .rgive .. => 0x34 | .rtry .. => 0x35 | _ => 0

/-- Perform a complete gathering once, for its arrived threads (06 R118): the sources are read now, single-bit errors
corrected and counted, double ones raised at the instruction. -/
def performGather (s : State) (b : Block) (i : Instr) (pc : W64) (ms : List Thread) : State :=
  let lanes := ms.filterMap (fun t => laneOf s t.blk t.gang t.lane)
  let isAct (x : Lane) : Bool := match x.t.wait with | .gather _ _ _ a => a | _ => false
  let act := lanes.filter (fun x => isAct x && (!b.protectd || x.t.lane % 2 == 0))
  let k := always
  let dbl := act.filter (fun x => !(meets b k x (gatherSrc i) true).none)
  if !dbl.isEmpty then
    raise s b.uid (gatherOp i) pc (dbl.map fun x => ⟨x.t.gang, x.t.lane, (meets b k x (gatherSrc i) true).flt b⟩)
  else
    let s := correctMet s b k (gatherOp i) pc act (gatherSrc i)
    let claims (g : Gang) : State := if act.isEmpty then setGathered s ms else claimEff s b g i pc ms act
    match i with
      | .perm _ w _ pm d a q _ x => setGathered (permEff w pm.toNat d a q x.toNat act s) ms
      | .permx _ _ d a q _ x => setGathered (permxEff d a q x act s) ms
      | .vote _ _ vm d a _ => setGathered (voteEff vm.toNat d a act s) ms
      | .elect _ _ d _ => setGathered (electEff d act s) ms
      | .gred _ w sg _ gop d a _ => setGathered (gredEff w sg gop.toNat d a act s) ms
      | .gscan _ w sg _ gop ex d a _ => setGathered (gscanEff w sg gop.toNat ex d a act s) ms
      | _ => match lanes.head? with | some x => claims x.g | none => s

/-- The give of a gang whose gathering is complete, once the results bound for its units have returned (06 R130). -/
def retryGive (s : State) (b : Block) (t : Thread) (n : BitVec 24) (pc : W64) : State :=
  let ms := (gangThreads s t.blk t.gang).filter (fun u => match u.wait with | .give .. => true | _ => false)
  let isAct (u : Thread) : Bool := match u.wait with | .give _ _ a => a | _ => false
  let act := (ms.filter isAct).filterMap (fun u => laneOf s u.blk u.gang u.lane)
  match getGang s t.blk t.gang with
  | some g => claimEff s b g (.rgive always n) pc ms act
  | none => s

/-- Perform the gathering of a waiting thread when it is complete: those of a killed block never are (10 R221), nor is one
that has met an error in a source, whose threads stay until the machine check is handled (R118). A give, which has gathered
and is at no kill point, goes on (06 R130). -/
def tryGather (s : State) (blk gang lane : Nat) : State :=
  match getThread s blk gang lane, getBlock s blk with
  | some t, some b =>
    match t.wait, gathering s b t with
    | .gather i pc _ _, some ms => if b.killed || ms.any (fun u => u.fault.isSome) then s else performGather s b i pc ms
    | .give n pc _, _ => retryGive s b t n pc
    | _, _ => s
  | _, _ => s

/-- Look again at the gatherings of a gang, after an exit or an arrival. -/
def tryGang (s : State) (blk gang : Nat) : State :=
  (gangThreads s blk gang).foldl (fun s t => tryGather s blk gang t.lane) s

/-- The member set of a thread (06 R118). -/
def memberSet (x : Lane) (mk : Bool) (c : Reg) : W32 :=
  let m : W32 := if mk then BitVec.ofNat 32 (x.rd c 32) else BitVec.allOnes 32
  if x.b.protectd then m &&& 0xFFFF else m

/-- A collective instruction: every thread of the bundle arrives, whatever its guard; complete gatherings are performed
at once. The source registers are read, and checked, at completion. DESIGN CHOICE (log 19): the guard that makes an arrived
thread active is read at its arrival; the spec times M and the sources, not the guard. -/
def collective (op : Nat) (k : Ctl) (i : Instr) (src dst : List RG) (mk : Bool) (c : Reg) (s : State) : Res :=
  issue op k (if mk then [r32 c] else []) dst s (late := src) fun q s =>
    let arr := q.all.filter (fun x => q.bun.again x)
    let s := arr.foldl (fun s x => modThread s x.t.blk x.t.gang x.t.lane (fun t =>
      { t with wait := .gather i q.pc (memberSet x mk c) (x.guard k) })) s
    .done (arr.foldl (fun s x => tryGather s x.t.blk x.t.gang x.t.lane) s)

def execPerm (k : Ctl) (w mk : Bool) (pm : BitVec 2) (d a b c : Reg) (x : BitVec 8) (s : State) : Res :=
  collective 0x22 k (.perm k w mk pm d a b c x) (rW w a :: (if pm = 0 then [r32 b] else [])) [rW w d] mk c s
def execPermx (k : Ctl) (mk : Bool) (d a b c : Reg) (x : BitVec 8) (s : State) : Res :=
  collective 0x23 k (.permx k mk d a b c x) [r32 a, r32 b, r32 x] [r32 d] mk c s
def execVote (k : Ctl) (mk : Bool) (vm : BitVec 2) (d a c : Reg) (s : State) : Res :=
  collective 0x24 k (.vote k mk vm d a c) (if vm = 2 then [r32 a] else []) (if vm = 3 then [r32 d] else []) mk c s
def execElect (k : Ctl) (mk : Bool) (d c : Reg) (s : State) : Res :=
  collective 0x25 k (.elect k mk d c) [] [] mk c s
def execGred (k : Ctl) (w sg mk : Bool) (gop : BitVec 3) (d a c : Reg) (s : State) : Res :=
  collective 0x26 k (.gred k w sg mk gop d a c) [rW w a] [rW w d] mk c s
def execGscan (k : Ctl) (w sg mk : Bool) (gop : BitVec 3) (ex : Bool) (d a c : Reg) (s : State) : Res :=
  collective 0x27 k (.gscan k w sg mk gop ex d a c) [rW w a] [rW w d] mk c s
def execRclaim (k : Ctl) (i : BitVec 24) (s : State) : Res := collective 0x33 k (.rclaim k i) [] [] false 0 s
def execRgive (k : Ctl) (i : BitVec 24) (s : State) : Res := collective 0x34 k (.rgive k i) [] [] false 0 s
def execRtry (k : Ctl) (d : Reg) (i : BitVec 24) (s : State) : Res := collective 0x35 k (.rtry k d i) [] [] false 0 s

/-- The event GATHERING_COMPLETE of a waiting thread. -/
def execGatheringComplete (blk gang lane : Nat) (s : State) : Res := .next (tryGather s blk gang lane)

/-- The event CLAIM_GRANT: the claim of a gang, when it is satisfiable (05 R90). -/
def execClaimGrant (blk gang : Nat) (s : State) : Res :=
  match s.claims.find? (fun c => c.1 == blk && c.2.1 == gang) with
  | some c => if satisfiable s blk c.2.2 then .next (serveClaims s) else .next s
  | none => .next s

end Sys2Proof.Machine
end

