-- ==== Sys2Proof/Machine/Barrier.lean ====
section
/-! DEFINITION. Barrier objects (12 R252-R262): references, arrival, landed bytes, completion, waking, participants. The
counts of a typed object live here, in a hardware slot or not; its words go back to storage when it is untyped. -/

namespace Sys2Proof.Machine

/-- The counts of an object that is not typed, as its words stand in storage (12 R252). -/
def barWords (s : State) (r : BarRef) : List Nat :=
  let bs := if r.grp then readBytes s r.addr 32 else readScratch s r.blk r.addr 32
  (List.range 8).map (fun k => leVal ((bs.drop (4 * k)).take 4))

/-- The flags word (12 R253). -/
def Bar.flags (b : Bar) : Nat :=
  1 + 2 * b2n b.broken + (match b.hw with | some n => 4 + 256 * n | none => 0) + 8 * b2n b.ref.grp

/-- Word x of a typed object with its live counts (12 R269). -/
def Bar.word (b : Bar) (x : Nat) : Nat :=
  match x with
  | 0 => b.phase.toNat | 1 => b.earr.toNat | 2 => b.arrived.toNat | 3 => b.ebytes.toNat | 4 => b.landed.toNat
  | 5 => b.parts.toNat | 6 => b.flags | _ => b.waiters.toNat

/-- Write the words of an object that loses its type: flags and waiters 0 (12 R268). -/
def barWriteBack (s : State) (b : Bar) : State :=
  let bytes := (List.range 8).flatMap (fun k => leBytes 4 (if k < 6 then b.word k else 0))
  if b.ref.grp then writeBytes s b.ref.addr bytes else writeScratch s b.ref.blk b.ref.addr bytes

/-- Change a barrier; the words of a block barrier are in its scratchpad line for the cellar (21 R375). -/
def modBar (s : State) (r : BarRef) (f : Bar → Bar) : State :=
  let s := if r.grp then s else noteLine s r.blk (r.addr / 64)
  { s with bars := updWhere s.bars (fun b => b.ref == r) f }

/-- Phase n has completed (12 R256). -/
def phaseDone (phase n : W32) : Bool := let d := (phase - n).toNat; decide (1 ≤ d ∧ d < 2 ^ 31)

/-- The status of a wait for phase n that ends (12 R256): none while it continues. -/
def waitStatus (b : Bar) (n : W32) : Option Nat :=
  if phaseDone b.phase n then some (if b.phase = n + 1 then 0 else 1) else if b.broken then some 2 else none

/-- End the barrier wait of a thread with a status. -/
def endBarWait (s : State) (t : Thread) (r : BarRef) (d : Option Reg) (status : Nat) : State :=
  let s := deliverKept s t.blk t.gang t.lane d 32 status
  let s := modThread s t.blk t.gang t.lane Thread.unwait
  modBar s r (fun b => { b with waiters := b.waiters - 1 })

/-- A block whose checkpoint is due wakes its waiters at the checkpoint (21 R374). -/
def wakeHeld (s : State) (r : BarRef) : Bool :=
  !r.grp && (match getBlock s r.blk with | some b => b.ckptDue | none => false)

/-- What ends the wait of a thread: its status now, and where the checkpoint comes first the wake then (21 R374). -/
def endOrHold (s : State) (t : Thread) (r : BarRef) (n : W32) (d : Option Reg) (status : Nat) : State :=
  if wakeHeld s r then
    modThread (deliverKept s t.blk t.gang t.lane d 32 status) t.blk t.gang t.lane
      (fun t => { t with wait := .barrier r n none })
  else endBarWait s t r d status
/-- Wake every waiter of an object whose wait is over; those of a killed block stop at the kill instead (12 R259). In a
protected pair the even lane receives for both. -/
def wakeBar (s : State) (r : BarRef) : State :=
  s.threads.foldl (fun s t =>
    match t.wait with
    | .barrier r' n d =>
      if r' = r ∧ isResident s t.blk ∧ !isKilled s t.blk then
        match getBar s r with
        | some b => match waitStatus b n with
          | some st => endOrHold s t r n d st
          | none => s
        | none => s
      else s
    | _ => s) s
/-- The status with which a BINV, or a BINIT that clears a break, ends a wait for phase n: that of a phase that has completed,
else the given one (12 R256). -/
def endedStatus (b : Bar) (n : W32) (status : Nat) : Nat := if phaseDone b.phase n then (waitStatus b n).getD status else status
/-- A wait that is not waited in now, for a phase of an object that loses its counts: it is decided. -/
def Wait.decided (b : Bar) (status : Nat) (w : Wait) : Wait :=
  match w with
  | .barrier r n d => if r = b.ref then .over (endedStatus b n status) d else w
  | w => w
/-- End the waits at an object that its waiters do not count (12 R256): of saved threads, whose counts have left it at the
save; of threads in a WATCH handler, which enter it again (19 R354); and at a group barrier those that a rollback would
enter again. -/
def endSavedWaits (s : State) (b : Bar) (status : Nat) : State :=
  let later (t : Thread) : Thread := { t with rewait := t.rewait.decided b status }
  let kept (t : Thread) : Thread := { later t with wait := t.wait.decided b status }
  let image (c : Ckpt) : Ckpt := { c with threads := c.threads.map kept }
  let s : State := { s with threads := s.threads.map later, ckpts := if b.ref.grp then s.ckpts.map image else s.ckpts }
  s.threads.foldl (fun s t =>
    match t.wait with
    | .barrier r n d =>
      if r = b.ref ∧ !isResident s t.blk then
        modThread (deliverKept s t.blk t.gang t.lane d 32 (endedStatus b n status)) t.blk t.gang t.lane Thread.unwait
      else s
    | _ => s) s
/-- End a wait that has been decided. -/
def endDecided (s : State) (blk gang lane status : Nat) (d : Option Reg) : State :=
  modThread (deliverKept s blk gang lane d 32 status) blk gang lane Thread.unwait

/-- The thread has joined the object. -/
def Thread.joined (t : Thread) (r : BarRef) : Bool := t.joins.any (fun j => j.ref == r)

/-- The participants include every live thread of the block (12 R257, 08 R177). -/
def isFull (s : State) (r : BarRef) : Bool := !r.grp && (blockThreads s r.blk).all (fun t => t.joined r)

/-- A thread of the block has joined the object. -/
def blockJoined (s : State) (r : BarRef) (blk : Nat) : Bool := (blockThreads s blk).any (fun t => t.joined r)
/-- What the completion of one phase does besides its counts: the interval of the block ends and its checkpoint is due
(08 R177, 21 R374), or the blocks that have joined acquire one another, those that have arrived and dropped since too
(08 R179). -/
def phaseEffects (s : State) (r : BarRef) : State :=
  if r.grp then
    match getBar s r with
    | none => s
    | some b =>
      let blks := (s.blocks.filter (fun k => blockJoined s r k.uid || b.arrAt.any (fun e => e.1 == k.uid))).map Block.uid
      let s' := blks.foldl (fun s x => b.arrAt.foldl (fun s y => if x = y.1 then s else raiseAcq s x y.1 y.2) s) s
      { s' with bars := updWhere s'.bars (fun q => q.ref == r) (fun q =>
          { q with arrAt := q.arrAt.filter (fun e => blockJoined s r e.1) }) }
  else if isFull s r then
    modBlock s r.blk (fun b => { b with interval := b.interval + 1, tags := [], ckptDue := b.ckptDue || b.rollback })
  else s

/-- One completion test of R255: the object after the completion, if it holds. -/
def completeOnce (b : Bar) : Option Bar :=
  let e := if b.earr = 0 then b.parts else b.earr
  if e ≤ b.arrived ∧ b.ebytes ≤ b.landed ∧ 0 < b.arrived.toNat + b.landed.toNat then
    some { b with arrived := b.arrived - e, landed := b.landed - b.ebytes, phase := b.phase + 1 }
  else none

/-- Complete phases while the test holds, and wake after each; with nothing expected, one at most (12 R255). -/
def completeBar (fuel : Nat) (s : State) (r : BarRef) : State :=
  match fuel with
  | 0 => s
  | f + 1 =>
    match getBar s r with
    | none => s
    | some b =>
      match completeOnce b with
      | none => s
      | some b' =>
        let s := wakeBar (phaseEffects (modBar s r (fun _ => b')) r) r
        if (if b.earr = 0 then b.parts else b.earr) = 0 ∧ b.ebytes = 0 then s else completeBar f s r

/-- After a change of counts: complete phases, then wake those whose wait was over before. -/
def settleBar (s : State) (r : BarRef) : State :=
  match getBar s r with
  | none => s
  | some b => wakeBar (completeBar (b.arrived.toNat + b.landed.toNat + 1) s r) r

/-- Add landed bytes at a barrier (12 R255). -/
def landBytes (s : State) (r : BarRef) (n : Nat) : State :=
  settleBar (modBar s r (fun b => { b with landed := b.landed + BitVec.ofNat 32 n })) r

/-- The arrivals of one issue at one object, added at once (12 R255, R264): each is a release of its thread (R257). The count
of a block that has joined is kept for the blocks that join with it (08 R179). -/
def arriveBar (s : State) (r : BarRef) (xs : List Lane) : State :=
  let s := xs.foldl (fun s x => bumpRel (drainThread s x.t.blk x.t.gang x.t.lane) x.t.blk) s
  modBar s r (fun b => { b with
    arrived := b.arrived + BitVec.ofNat 32 xs.length,
    arrAt := (xs.filter (fun x => blockJoined s r x.t.blk)).foldl (fun m x =>
      Sparse.set 0 m x.t.blk (match getBlock s x.t.blk with | some k => k.rel | none => 0)) b.arrAt })

/-- Remove a participant (12 R258): parts falls, and a phase with earr = 0 may complete. -/
def dropJoin (s : State) (t : Thread) (r : BarRef) : State :=
  let s := modThread s t.blk t.gang t.lane (fun t => { t with joins := t.joins.filter (fun j => j.ref != r) })
  settleBar (modBar s r (fun b => { b with parts := b.parts - 1 })) r

/-- A free hardware slot of the core that holds a block (12 R261). DESIGN CHOICE (log 23): the lowest. -/
def freeBarSlot (s : State) (core : Nat) : Option Nat :=
  let used := s.bars.filterMap fun b =>
    if b.ref.grp then none
    else match getBlock s b.ref.blk with | some k => if k.core = core ∧ k.resident then b.hw else none | none => none
  (List.range 64).find? (fun k => !used.contains k)

/-- The reference of a SYNC instruction, or its fault (12 R264). -/
def barRef (s : State) (x : Lane) (g : Bool) (a : Reg) : Except Flt (BarRef × W64) × State :=
  if g then
    let va := x.rd a 64
    if va % 32 ≠ 0 then (.error { cause := 0x08, info := va }, s)
    else
      match laneXlate s x 1 va with
      | (.ok pa, s1) =>
        if poisoned s1 pa 32 then (.error (lineFlt s1 pa 32 va 2), s1)
        else (.ok ({ grp := true, blk := 0, addr := pa }, BitVec.ofNat 64 va), s1)
      | (.error f, s1) => (.error f, s1)
  else
    let off := x.rd a 32
    if off % 32 ≠ 0 then (.error { cause := 0x08, info := off }, s)
    else if x.b.ssize < off + 32 then (.error { cause := 0x06, info := off }, s)
    else (.ok ({ grp := false, blk := x.b.uid, addr := off }, BitVec.ofNat 64 off), s)

/-- A BARRIER fault at an object (12 R254). -/
def barFlt (named : W64) (code : Nat) : Flt := { cause := 0x0C, info := withCode named.toNat code }

/-- Group barriers lose their type when the context that maps them goes (12 R254). DEDUCED (log 22): the context that maps
one is the context of the block whose BINIT typed it. -/
def dropGroupBars (s : State) (ctx : Nat) : State :=
  let mine (b : Bar) : Bool := b.ref.grp && b.ctx == ctx
  (s.bars.filter mine).foldl barWriteBack { s with bars := s.bars.filter (fun b => !mine b) }
/-- A block barrier loses its type with its block (12 R254). -/
def dropBlockBars (s : State) (blk : Nat) : State :=
  { s with bars := s.bars.filter (fun b => b.ref.grp || b.ref.blk != blk) }

end Sys2Proof.Machine
end

