-- ==== Sys2Proof/Machine/Sieve.lean ====
section
/-! DEFINITION. The tap record and the rows of a TAPIN (19 R346-R348, R353, R355, R358): a row becomes ready, held or
pending again, and waiters in TAPW wake. -/

namespace Sys2Proof.Machine

def modTapin (s : State) (id : Nat) (f : Tapin → Tapin) : State :=
  { s with tapins := updWhere s.tapins (fun t => t.id == id) f }
def modRow (s : State) (id r : Nat) (f : TRow → TRow) : State :=
  modTapin s id (fun t => { t with rows := t.rows.mapIdx (fun k q => if k = r then f q else q) })
def tapinById (s : State) (id : Nat) : Option Tapin := s.tapins.find? (fun t => t.id == id)

/-- The ready and the held mask of a TAPIN (19 R346). -/
def Tapin.mask (t : Tapin) (p : TRow → Bool) : Nat :=
  (t.rows.mapIdx (fun k q => if p q then 2 ^ k else 0)).sum
def TRow.held (r : TRow) : Bool := r.status == 2 || r.status == 3

/-- Write row r of the tap record: its hold word, its status, and the two masks (19 R346). -/
def writeRow (s : State) (id r : Nat) : State :=
  match tapinById s id with
  | none => s
  | some t =>
    match t.rows[r]? with
    | none => s
    | some q =>
      let hold := q.val.toNat * 2 ^ 32 + fld 8 8 q.rechecks + fld 0 8 q.rule
      let s := writeScratch s t.blk (t.trec + 192 + 8 * r) (leBytes 8 hold)
      let s := writeScratch s t.blk (t.trec + 128 + r) (leBytes 1 q.status)
      writeScratch s t.blk (t.trec + 64) (leBytes 8 (t.mask TRow.ready) ++ leBytes 8 (t.mask TRow.held))

/-- The status with which TAPW on a mask ends: none while it waits (19 R358). -/
def tapwStatus (s : State) (blk trec : Nat) (mask : W64) : Option Nat :=
  match getTapin s blk trec with
  | none => some 0
  | some t =>
    if t.forgotten then some 0
    else
      let rows := (t.rows.mapIdx (fun k q => (k, q))).filter (fun e => mask.getLsbD e.1)
      if rows.all (fun e => e.2.ready) then
        some (if rows.any (fun e => e.2.status != 1 && e.2.status != 4) then 1 else 0)
      else none

/-- Wake the threads whose TAPW is over. -/
def wakeTapw (s : State) (blk : Nat) : State :=
  (blockThreads s blk).foldl (fun s t =>
    match t.wait with
    | .tapw trec m d => match tapwStatus s blk trec m with
      | some v => modThread (deliverKept s blk t.gang t.lane d 32 v) blk t.gang t.lane Thread.unwait
      | none => s
    | _ => s) s

/-- The race tags of a row's words are set empty (19 R348). -/
def clearRowTags (s : State) (t : Tapin) (r : Nat) : State :=
  let q := Rec.of t.tile
  let lo := ((q.base : Int) + (r : Int) * q.stride1).toNat
  modBlock s t.blk (fun b => { b with tags := (wordsOf lo (2 * t.d)).foldl (fun m w => Sparse.set [] m w []) b.tags })

/-- READY(r, status) (19 R353). -/
def readyRow (s : State) (id r status : Nat) : State :=
  match tapinById s id with
  | none => s
  | some t =>
    let s := writeRow (modRow s id r (fun q => { q with status := status, fault := none, owner := none })) id r
    let s := clearRowTags s t r
    let ref : BarRef := ⟨false, t.blk, t.trec⟩
    let s := if (getBar s ref).isSome then landBytes s ref (2 * t.d) else s
    wakeTapw s t.blk

/-- The row is held, and for this thread: a TREL of it that another thread's trap has followed is no more (19 R354). -/
def TRow.heldBy (r : TRow) (t : Thread) : Bool := r.held && r.owner == some (t.gang, t.lane)
/-- The rows of a thread that are POSTED, in its queue, or HANDLING, named by its trap. -/
def heldRows (s : State) (t : Thread) : List (Nat × Nat) :=
  let posted := t.watchq.map (fun w => (w.trec, w.row))
  let handling := if t.handling ∧ t.trcause = 0x12 then [(natBits t.wrec.toNat 224 32, natBits t.wrec.toNat 192 32)] else []
  (posted ++ handling).filterMap fun p => (getTapin s t.blk p.1).map (fun q => (q.id, p.2))
/-- EXIT releases every row that the thread holds (19 R354). -/
def releaseHeld (s : State) (t : Thread) : State :=
  (heldRows s t).foldl (fun s p =>
    match (tapinById s p.1).bind (fun q => q.rows[p.2]?) with
    | some q => if q.heldBy t then readyRow s p.1 p.2 7 else s
    | none => s) s
/-- The RET that ends the handling of a WATCH releases its row, if no TREL was made and it is still HANDLING (19 R354). -/
def releaseHandled (s : State) (t : Thread) : State :=
  if t.trcause = 0x12 then
    match getTapin s t.blk (natBits t.wrec.toNat 224 32) with
    | some q =>
      let r := natBits t.wrec.toNat 192 32
      match q.rows[r]? with
      | some w => if w.status = 3 ∧ w.heldBy t then readyRow s q.id r 7 else s
      | none => s
    | none => s
  else s

/-- BINIT of a record's barrier forgets its TAPIN for TAPW (19 R358). -/
def forgetTapin (s : State) (blk trec : Nat) : State :=
  { s with tapins := updWhere s.tapins (fun t => t.blk == blk && t.trec == trec) (fun t => { t with forgotten := true }) }

end Sys2Proof.Machine
end

