-- ==== Sys2Proof/Machine/Exit.lean ====
section
/-! DEFINITION. How threads, gangs and blocks end: the baton (15 R304-R306), rejoin masks (06 R127, R128), the leaving of
a thread by EXIT (06 R123) or a kill (10 R221, 12 R259), and the return of a block's resources. -/

namespace Sys2Proof.Machine

/-! ### The baton -/

def getBaton (s : State) (core : Nat) : Baton :=
  (s.batons.find? (fun b => b.core == core)).getD { core := core, holder := none, queue := [] }
def setBaton (s : State) (b : Baton) : State :=
  { s with batons := s.batons.filter (fun x => x.core != b.core) ++ [b] }

/-- A gang receives the baton: its waiting threads receive 0 (15 R304). -/
def giveBaton (s : State) (core blk gang : Nat) : State :=
  let b := getBaton s core
  let s := setBaton s { b with holder := some (blk, gang), queue := b.queue.filter (· != (blk, gang)) }
  (gangThreads s blk gang).foldl (fun s t =>
    match t.wait with
    | .baton d => modThread (deliverKept s blk gang t.lane (some d) 32 0) blk gang t.lane Thread.unwait
    | _ => s) s

/-- The baton passes to the first waiter, or becomes free (15 R305, R306). -/
def passBaton (s : State) (core : Nat) : State :=
  let b := getBaton s core
  match b.queue with
  | [] => setBaton s { b with holder := none }
  | (k, g) :: _ => giveBaton s core k g

/-- A gang that leaves gives up the baton and its place in the queue. -/
def batonLeave (s : State) (core blk gang : Nat) : State :=
  let b := getBaton s core
  let s := setBaton s { b with queue := b.queue.filter (· != (blk, gang)) }
  if b.holder = some (blk, gang) then passBaton s core else s

/-! ### Rejoin masks -/

/-- The bit of a thread in a rejoin mask: its logical index (06 R128). -/
def rjBit (b : Block) (lane : Nat) : W32 := 1#32 <<< b.tid lane

/-- Release the waiters of a mask when every armed thread has arrived (06 RJARM): threads that waited at one RJOIN form
one path, all paths one bundle. The path with the most threads runs and the others are set aside (05 R84, 06 R128); those
of a killed block stop where they wait (10 R221). DESIGN CHOICE (log 23): with too few free bins for all paths no waiter is
released yet, where a branch lets those paths go that find one. -/
def rjRelease (s : State) (blk gang k : Nat) : State :=
  match getGang s blk gang with
  | some g =>
    let a := Sparse.get 0 g.armed k
    let w := Sparse.get 0 g.arrived k
    if a &&& ~~~w = 0 ∧ w ≠ 0 ∧ !isKilled s blk then
      let ts := (gangThreads s blk gang).filter (fun t => match t.wait with | .rjoin k' _ => k' == k | _ => false)
      let places := ts.map (fun t => ((t.gang, t.lane), match t.wait with | .rjoin _ p => p.next | _ => t.resume))
      let paths := groupPlaces places
      match firstPath paths with
      | none => s
      | some f =>
        let others := paths.filter (fun q => q.1 != f.1)
        if 128 < binsUsed s (coreOf s blk) + others.length then s
        else
          let s := modGang s blk gang (fun g => { g with arrived := Sparse.set 0 g.arrived k 0 })
          let s := modThreads s (fun t => ts.any (fun u => t.is u.blk u.gang u.lane)) Thread.unwait
          let (fam, s) := fresh s
          (others ++ [f]).foldl (fun s q =>
            let (i, s) := newBundle s (some fam) blk g.role q.2 q.1 false (q.1 != f.1)
            match q.1.clause with | none => arriveAt s i q.1.hdr | some _ => s) s
    else s
  | none => s

/-- A bin of the core may have become free: arrivals are filed, branches look again, and releases that wait for bins are
made (05 R80, R84). -/
def settleBins (s : State) (core : Nat) : State :=
  (s.gangs.filter (fun g => !g.arrived.isEmpty && onCore s core g.blk)).foldl (fun s g =>
    (List.range 4).foldl (fun s k => rjRelease s g.blk g.num k) s) (binFreed s core)

/-- Drop a thread from a mask's armed set, and from its arrived set when it leaves (06 RJDROP). -/
def rjDrop (s : State) (blk gang lane k : Nat) : State :=
  match getBlock s blk with
  | none => s
  | some b => rjRelease (modGang s blk gang (fun g =>
      { g with armed := Sparse.set 0 g.armed k (Sparse.get 0 g.armed k &&& ~~~rjBit b lane) })) blk gang k
def rjLeave (s : State) (blk gang lane k : Nat) : State :=
  match getBlock s blk with
  | none => s
  | some b => rjDrop (modGang s blk gang (fun g =>
      { g with arrived := Sparse.set 0 g.arrived k (Sparse.get 0 g.arrived k &&& ~~~rjBit b lane) })) blk gang lane k

/-! ### Leaving -/

/-- A gang with no thread left: its units return, its uniform registers go, its claim and baton too (06 R123). -/
def gangGone (s : State) (blk gang : Nat) : State :=
  match getBlock s blk with
  | none => s
  | some b =>
    let s := { s with gangs := s.gangs.filter (fun g => !(g.blk == blk && g.num == gang)),
                      claims := s.claims.filter (fun c => !(c.1 == blk && c.2.1 == gang)) }
    serveClaims (batonLeave s b.core blk gang)

/-- Remove a thread from every bundle, bin and queue (05 R83). A wait of it that has ended since the last tick resets the
watchdog of its scope now (23 R395). -/
def removeThread (s : State) (t : Thread) : State :=
  let m := (t.gang, t.lane)
  let s := match getBlock s t.blk with
    | some b => if t.ended then modScope s b.ctx b.scope (fun x => { x with wd := 0 }) else s
    | none => s
  let s := (s.bundles.filter (fun b => b.blk == t.blk && b.mem.contains m)).foldl (fun s b => leaveBundle s b.id [m]) s
  { s with
    bins := (s.bins.map (fun b => if b.blk = t.blk then { b with filed := b.filed.filter (fun f => f.m != m) } else b)).filter
      (fun b => !b.filed.isEmpty),
    arrivals := s.arrivals.filter (fun a => !(a.blk == t.blk && a.gang == t.gang && a.lane == t.lane)),
    threads := s.threads.filter (fun u => !u.is t.blk t.gang t.lane) }

/-- The waiters outside a killed subtree see the break (12 R259). -/
def breakBar (s : State) (r : BarRef) : State := wakeBar (modBar s r (fun b => { b with broken := true })) r

/-- A thread leaves: it is no longer live and is dropped from its barriers (which a kill breaks) and rejoin masks, from
every bundle and bin, and its gang goes with its last thread (06 R123; 12 R257-R259). In a protected pair the even lane
counts. -/
def leaveThread (s : State) (t : Thread) (kill : Bool) : State :=
  match getBlock s t.blk with
  | none => s
  | some b =>
    let counts := !(b.protectd && t.lane % 2 == 1)
    let s := match t.wait with
      | .barrier r _ _ => modBar s r (fun b => { b with waiters := b.waiters - 1 })
      | _ => s
    let s := if kill then s else releaseHeld s t
    let s := removeThread s t
    let s := { s with outst := s.outst.filter (fun o => !(o.blk == t.blk && o.gang == t.gang && o.lane == t.lane)) }
    let s := if counts then t.joins.foldl (fun s j => if kill then breakBar (dropJoin s t j.ref) j.ref else dropJoin s t j.ref) s
             else s
    let s := settleBins ((List.range 4).foldl (fun s k => rjLeave s t.blk t.gang t.lane k) s) b.core
    if (gangThreads s t.blk t.gang).isEmpty then gangGone s t.blk t.gang else tryGang s t.blk t.gang

/-- Threads that wait to exit and have nothing outstanding leave (06 R123); one that something has stopped at an empty future
stays there (02 R23, 18 R340). -/
def settleExits (s : State) : State :=
  s.threads.foldl (fun s t =>
    match getThread s t.blk t.gang t.lane with
    | some t =>
      let stopped := t.stands && (getBlock s t.blk).any Block.stopping
      if t.wait = .exit ∧ !stopped ∧ !outstAny s t.blk t.gang t.lane then leaveThread s t false else s
    | none => s) s

/-- Every access that the threads of a core have issued, held stores apart, has been performed (08 R182). -/
def corePerformed (s : State) (core : Nat) : Bool := s.outst.all (fun o => !o.pending || !onCore s core o.blk)
/-- SC fences whose core's accesses have all been performed wait for the next tick from now on (08 R182). -/
def markScfence (s : State) : State :=
  modThreads s (fun t => t.wait == .scfence none && corePerformed s (coreOf s t.blk)) (fun t => { t with wait := .scfence (some s.heart) })

/-- After results have returned: exits and gives that waited for them go on, bundles parked at a header arrive there, with
what waits for a bin that one of them leaves (05 R80), SC fences see what has been performed, and stalled bundles look
again. -/
def afterReturn (s : State) (blk gang : Nat) : State :=
  markScfence (tryGang (settleBins (settleParks (settleExits (unstall s)) blk) (coreOf s blk)) blk gang)

end Sys2Proof.Machine
end

