-- ==== Sys2Proof/Machine/Control.lean ====
section
/-! DEFINITION. Transfers of control, rejoin masks, EXIT, TRAP, YIELD and NAP (06 R122-R128), the special registers
(05 R98), and PROG, BRK and TRCMARK (23 R393). -/

namespace Sys2Proof.Machine

/-! ### Branches -/

/-- The target of a B-format branch (02 R27). -/
def branchTarget (pc : W64) (tgt : BitVec 32) : W64 := pc + (tgt.signExtend 64 <<< 3)

/-- The R27 check of each active lane's target; a return from a trap handler is not checked (11 R238). -/
def checkTargets (s : State) (b : Block) (ret : Bool) (ts : List (Lane × W64)) : List LaneFlt × State :=
  ts.foldl (fun acc t =>
    if ret && isTrapReturn t.1 t.2 then acc
    else
      let (ok, s) := targetOk acc.2 b t.2
      (if ok then acc.1 else acc.1 ++ [⟨t.1.t.gang, t.1.t.lane, { cause := 0x03 }⟩], s)) ([], s)

/-- Lane pairs of a protected block whose next places differ (05 R101). -/
def pairDiverge (i : Iss) (ps : List ((Nat × Nat) × Place)) : List LaneFlt :=
  if i.b.protectd then
    ps.filterMap fun p =>
      if p.1.2 % 2 = 0 ∧ ps.any (fun q => q.1 == (p.1.1, p.1.2 + 1) && q.2 != p.2) then
        some ⟨p.1.1, p.1.2, { cause := 0x22, unit := 4, check := 4 }⟩
      else none
  else []

/-- A thread that returns to the BARW wait it left for a WATCH enters it again as a BWAIT of the same phase (19 R354): one that
a BINV, or a BINIT that cleared a break, has ended meanwhile returns what it gave; an object that has gone otherwise gives
INVALID (12 R256). -/
def reenterWait (s : State) (x : Lane) : State :=
  match x.t.rewait with
  | .none => s
  | w =>
    let m := (x.t.gang, x.t.lane)
    let s := modThread s x.t.blk x.t.gang x.t.lane (fun t => { t with wait := w, rewait := .none })
    let mine (b : Bundle) : Bool := b.blk == x.t.blk && b.mem.contains m
    let s := { s with bundles := updWhere s.bundles mine (fun b => { b with mid := true }) }
    match w with
    | .barrier r _ d =>
      if (getBar s r).isSome then wakeBar (modBar s r (fun b => { b with waiters := b.waiters + 1 })) r
      else endDecided s x.t.blk x.t.gang x.t.lane 3 d
    | .over st d => endDecided s x.t.blk x.t.gang x.t.lane st d
    | _ => s

/-- Where each member of a branching bundle continues: the active ones at their targets (a return from a trap handler at
the resume point), the others after the branch. -/
def branchPlaces (i : Iss) (ret : Bool) (ts : List (Lane × W64)) : List ((Nat × Nat) × Place) :=
  i.all.map fun x => ((x.t.gang, x.t.lane),
    match ts.find? (fun t => t.1.t.gang == x.t.gang && t.1.t.lane == x.t.lane) with
    | some t => if ret && isTrapReturn x t.2 then x.t.resume else Place.at_ t.2
    | none => i.next)

/-- What a taken branch does besides going on: the link register, the branch records, and the end of trap handlers. -/
def branchEffect (i : Iss) (op : Nat) (link : Option Reg) (ts : List (Lane × W64)) (s : State) : State :=
  let ret := op == 0x2B
  let s := match link with
    | some d => commit s d 64 (i.act.map fun x => (x, i.bun.place.nextHdr.toNat))
    | none => s
  let s := ts.foldl (fun s t => traceRec s i.b.ctx 2
    (traceHead s i.b t.1.t.gang t.1.t.lane i.pc.toNat t.2.toNat (op - 0x28) 0) i.b.uid) s
  ts.foldl (fun s t => if ret && isTrapReturn t.1 t.2 then endTrap (releaseHandled s t.1.t) t.1 else s) s

/-- Threads that returned from a handler enter the wait they left again. -/
def branchReenter (op : Nat) (ts : List (Lane × W64)) (s : State) : State :=
  ts.foldl (fun s t => if op == 0x2B && isTrapReturn t.1 t.2 then reenterWait s t.1 else s) s

/-- A branch with too few free bins for its paths: those that find one are set aside now, parked where it parks (02 R31),
and the bundle keeps the threads that have not moved and waits at the branch (05 R84). -/
def branchPart (i : Iss) (op : Nat) (link : Option Reg) (ts : List (Lane × W64)) (ps : List ((Nat × Nat) × Place))
    (s : State) : IOut :=
  let now := freePaths s i.b.core ps
  let gone := now.flatMap Prod.snd
  let moved := ts.filter (fun t => gone.contains (t.1.t.gang, t.1.t.lane))
  let s := branchEffect { i with act := i.act.filter (fun x => gone.contains (x.t.gang, x.t.lane)) } op
    link moved s
  let s := parkAll { i with bun := { i.bun with mem := gone } } s
  match getBundle s i.bun.id with
  | some b => .stall (branchReenter op moved (now.foldl (fun s g => splitOff s b g.2 g.1) s))
  | none => .stall s

/-- BRA, BRX, CALL and RET: check the targets, write the link, trace, and go (06 R122, R84, 11 R238). -/
def branch (op : Nat) (k : Ctl) (src dst : List RG) (s : State) (link : Option Reg) (target : Iss → Lane → W64) : Res :=
  issue op k src dst s fun i s0 =>
    let ret := op == 0x2B
    let ts := i.act.map fun x => (x, target i x)
    match checkTargets s0 i.b ret ts with
    | ([], s) =>
      let ps := branchPlaces i ret ts
      match pairDiverge i ps with
      | [] =>
        let s := branchEffect i op link ts s
        match getBundle s i.bun.id with
        | some b =>
          match diverge (parkAll i s) b i.b.core ps with
          | some s => .stay (branchReenter op ts s)
          | none => branchPart i op link ts ps s0
        | none => .stay s
      | fs => .trap s fs
    | (fs, s) => .trap s fs

def execBra (k : Ctl) (tgt : BitVec 32) (s : State) : Res :=
  branch 0x28 k [] [] s none (fun i _ => branchTarget i.pc tgt)
def execBrx (k : Ctl) (a : Reg) (s : State) : Res :=
  branch 0x29 k [r64 a] [] s none (fun _ x => BitVec.ofNat 64 (x.rd a 64))
def execCall (k : Ctl) (d : Reg) (tgt : BitVec 32) (s : State) : Res :=
  branch 0x2A k [] [r64 d] s (some d) (fun i _ => branchTarget i.pc tgt)
def execRet (k : Ctl) (a : Reg) (s : State) : Res :=
  branch 0x2B k [r64 a] [] s none (fun _ x => BitVec.ofNat 64 (x.rd a 64))

/-! ### Rejoin masks (06 R127, R128) -/

/-- The gangs of an issue with their first active lane. -/
def firstLanes (xs : List Lane) : List Lane := xs.filter (firstOfGang xs)

/-- RJARM. -/
def execRjarm (k : Ctl) (a : Reg) (x : BitVec 8) (s : State) : Res :=
  issue 0x2C k [r32 a] [] s fun i s =>
    let m := x.toNat
    match lane1 i.act (fun l => if Sparse.get 0 l.g.arrived m = 0 then none else some { cause := 0x0C, info := m }) with
    | [] => .done ((firstLanes i.act).foldl (fun s l =>
        let live := (gangThreads s l.t.blk l.t.gang).foldl (fun v t => v ||| rjBit l.b t.lane) (0 : W32)
        modGang s l.t.blk l.t.gang (fun g =>
          { g with armed := Sparse.set 0 g.armed m (BitVec.ofNat 32 (l.rd a 32) &&& live) })) s)
    | fs => .trap s fs
/-- RJOIN: the joining threads perform what they have issued, since a rejoin synchronises (08 R175, R185), leave the bundle
and wait. -/
def execRjoin (k : Ctl) (x : BitVec 8) (s : State) : Res :=
  issue 0x2D k [] [] s fun i s =>
    let m := x.toNat
    match lane1 i.act (fun l =>
        if Sparse.get 0 l.g.armed m &&& rjBit l.b l.t.lane = 0 then some { cause := 0x0C } else none) with
    | [] =>
      let s := i.act.foldl (fun s l =>
        let s := leaveBundle (drainThread s l.t.blk l.t.gang l.t.lane) i.bun.id [(l.t.gang, l.t.lane)]
        let s := modGang s l.t.blk l.t.gang (fun g =>
          { g with arrived := Sparse.set 0 g.arrived m (Sparse.get 0 g.arrived m ||| rjBit l.b l.t.lane) })
        modThread s l.t.blk l.t.gang l.t.lane (fun t => { t with wait := .rjoin m i.bun.place, pc := i.pc })) s
      .done ((firstLanes i.act).foldl (fun s l => rjRelease s l.t.blk l.t.gang m) s)
    | fs => .trap s fs
/-- RJDROP. -/
def execRjdrop (k : Ctl) (x : BitVec 8) (s : State) : Res :=
  issue 0x2E k [] [] s fun i s =>
    .done (i.act.foldl (fun s l => rjDrop s l.t.blk l.t.gang l.t.lane x.toNat) s)

/-! ### EXIT, TRAP, BRK, YIELD, NAP, PROG, TRCMARK -/

/-- EXIT: an irrevocable event; the thread parks in its bundle until its results have returned, then makes its drops and
leaves (06 R123). -/
def execExit (k : Ctl) (s : State) : Res :=
  issue 0x2F k [] [] s fun i s =>
    if i.act.isEmpty then .done s
    else
      let s := irrevocable s i.b.uid
      let s := i.act.foldl (fun s l =>
        modThread s l.t.blk l.t.gang l.t.lane (fun t => { t with wait := .exit, pc := i.pc })) s
      .done (settleExits s)

/-- SWTRAP and BRK: task level takes the trap where R236 sends it there, and those threads are parked first where the
instruction parks (02 R31), else a save delivers it. -/
def softTrap (op cause : Nat) (k : Ctl) (code : BitVec 24) (s : State) : Res :=
  issue op k [] [] s fun i s =>
    let info : W64 := code.setWidth 64
    let up := i.act.filter (fun x => (trapVec s x cause 0).isNone)
    let own := i.act.filter (fun x => (trapVec s x cause 0).isSome)
    let s := parkAll { i with bun := { i.bun with mem := own.map fun x => (x.t.gang, x.t.lane) } } s
    let s := i.act.foldl (fun s x =>
      match trapVec s x cause 0 with
      | some vec => takeTrap s x (getBundle s i.bun.id) cause i.pc info 0 i.next vec
      | none => s) s
    if up.isEmpty then .done s
    else .trap s (up.map fun x => ⟨x.t.gang, x.t.lane, { cause := cause, info := info.toNat }⟩)
def execTrap (k : Ctl) (i : BitVec 24) (s : State) : Res := softTrap 0x30 0x13 k i s
def execBrk (k : Ctl) (i : BitVec 24) (s : State) : Res := softTrap 0x39 0x14 k i s

/-- YIELD changes no result and no order, but another ready bundle of the core, if there is one, issues before the next
instruction of this one (06 R125). -/
def execYield (k : Ctl) (s : State) : Res :=
  issue 0x36 k [] [] s fun i s =>
    .done (if i.act.isEmpty then s else modBundle s i.bun.id (fun b => { b with yielded := true }))
/-- NAP: out of issue until NAP_WAKE (06 R126). -/
def execNap (k : Ctl) (_i : BitVec 24) (s : State) : Res :=
  issue 0x37 k [] [] s fun q s =>
    .done (q.act.foldl (fun s l => modThread s l.t.blk l.t.gang l.t.lane (fun t => { t with wait := .nap })) s)
/-- PROG: one count for each thread, and the watchdog of its scope starts again (23 R393, R395). -/
def execProg (k : Ctl) (i : BitVec 24) (s : State) : Res :=
  issue 0x38 k [] [] s fun q s =>
    .done (q.cmd.foldl (fun s l =>
      let n := i.toNat % 16
      let s := modCtx s l.b.ctx (fun c => { c with prog := Sparse.set 0 c.prog n (Sparse.get 0 c.prog n + 1) })
      modScope s l.b.ctx l.b.scope (fun x => { x with wd := 0 })) s)
/-- TRCMARK: a mark record (23 R393). -/
def execTrcmark (k : Ctl) (a : Reg) (i : BitVec 24) (s : State) : Res :=
  issue 0x3A k [r32 a] [] s fun q s =>
    .done (q.cmd.foldl (fun s l =>
      traceRec s l.b.ctx 1 (traceHead s l.b l.t.gang l.t.lane q.pc.toNat i.toNat 0 (l.rd a 32)) l.b.uid) s)

/-! ### Special registers (05 R98) -/

/-- The value of a special register as a lane sees it; CYCLE and HEART as they stand at issue. -/
def specialReg (s : State) (i : Iss) (n : Nat) (x : Lane) : Nat :=
  match n with
  | 0x000 => x.tid
  | 0x001 => x.t.lane
  | 0x002 => x.g.num
  | 0x003 => x.g.role
  | 0x004 => x.b.ngang
  | 0x005 => x.b.num
  | 0x006 => x.b.core
  | 0x007 => x.b.terrace
  | 0x008 => x.b.valley
  | 0x009 => x.g.base + 256 * x.g.ext
  | 0x00A => heldUnits s x.b.uid + 65536 * x.b.cap
  | 0x00B => freeUnits s x.b.core
  | 0x00C => b2n x.b.kernel
  | 0x00D => x.b.flags.toNat
  | 0x00E => ofBits 32 (fun k => i.act.any (fun y => y.t.lane == k))
  | 0x010 => (handleOf x.b.ctx x.b.serial).toNat
  | 0x011 => x.b.scope
  | 0x012 => x.b.ctx
  | 0x020 => x.t.fpflags.toNat
  | 0x021 => x.b.mtol.toNat
  | 0x022 => s.heart.toNat
  | 0x023 => (Sparse.get 0 s.cycle x.b.core).toNat
  | 0x024 => x.b.rbcount.toNat
  | 0x030 => x.t.trcause.toNat
  | 0x031 => x.t.trpc.toNat
  | 0x032 => x.t.trinfo.toNat
  | _ => if 0x038 ≤ n ∧ n ≤ 0x03F then natBits x.t.wrec.toNat (32 * (n - 0x038)) 32 else 0

/-- The special registers of 64 bits. -/
def special64 (n : Nat) : Bool := n == 0x010 || n == 0x022 || n == 0x023 || n == 0x031 || n == 0x032

/-- GETS. -/
def execGets (k : Ctl) (d : Reg) (i : BitVec 24) (s : State) : Res :=
  let n := i.toNat % 4096
  let w := if special64 n then 64 else 32
  issue 0x31 k [] [⟨d, w / 32⟩] s fun q s =>
    let s := if n = 0x023 then tickCycle s q.b.core else s
    .done (commit s d w (q.act.map fun x => (x, specialReg s q n x)))
/-- SETS: FPFLAGS of each active thread, or MTOL from the lowest active lane. -/
def execSets (k : Ctl) (a : Reg) (i : BitVec 24) (s : State) : Res :=
  issue 0x32 k [r32 a] [] s fun q s =>
    if i.toNat % 4096 = 0x020 then
      .done (q.act.foldl (fun s x => modThread s x.t.blk x.t.gang x.t.lane
        (fun t => { t with fpflags := BitVec.ofNat 5 (x.rd a 32) })) s)
    else
      match if q.b.protectd then operandFaults q.all k [r32 a] else [], q.act.head? with
      | f :: fs, _ => .trap s (f :: fs)
      | [], some x => .done (modBlock s q.b.uid (fun b => { b with mtol := BitVec.ofNat 32 (x.rd a 32) }))
      | [], none => .done s

end Sys2Proof.Machine
end

