-- ==== Sys2Proof/Machine/Sync.lean ====
section
/-! DEFINITION. The SYNC class: barrier instructions (12 R263-R269) and stage rings (12 R270-R274). -/

namespace Sys2Proof.Machine

/-! ### Barrier instructions -/

/-- The objects that the lanes of an issue name, with the faults (12 R264). -/
def barRefs (s : State) (xs : List Lane) (g : Bool) (a : Reg) :
    List LaneFlt × List (Lane × BarRef × W64) × State :=
  xs.foldl (fun acc x =>
    match barRef acc.2.2 x g a with
    | (.error e, s) => (acc.1 ++ [⟨x.t.gang, x.t.lane, e⟩], acc.2.1, s)
    | (.ok r, s) => (acc.1, acc.2.1 ++ [(x, r.1, r.2)], s)) ([], [], s)

/-- A SYNC instruction with g = 1 is an irrevocable event (21 R377). -/
def syncIrrevocable (s : State) (blk : Nat) (g : Bool) (any : Bool) : State := if g && any then irrevocable s blk else s

/-- Write a result to both lanes of a pair (12 R264: results visible to the next instruction). -/
def syncResult (s : State) (xs : List Lane) (x : Lane) (d : Reg) (v : Nat) : State :=
  if d.toNat < 192 ∨ firstOfGang xs x then deliverReg s x.t.blk x.t.gang x.t.lane d 32 v else s

/-- The frame of a barrier instruction: references, then the faults that the objects raise, then the effect on each lane
in ascending position. -/
def barOp (op : Nat) (k : Ctl) (g : Bool) (src dst : List RG) (a : Reg) (s : State)
    (bad : State → Lane → BarRef → W64 → Option Flt)
    (eff : Iss → State → List (Lane × BarRef × W64) → State) : Res :=
  issue op k ((if g then r64 a else r32 a) :: src) dst s fun i s =>
    match barRefs s i.cmd g a with
    | ([], rs, s1) =>
      match rs.filterMap (fun r => (bad s1 r.1 r.2.1 r.2.2).map (fun f => LaneFlt.mk r.1.t.gang r.1.t.lane f)) with
      | [] => .done (eff i (syncIrrevocable s1 i.b.uid g (!rs.isEmpty)) rs)
      | fs => .trap s1 fs
    | (fs, _, s1) => .trap s1 fs

/-- Code 3: the object is not typed (12 R254). -/
def needTyped (s : State) (_x : Lane) (r : BarRef) (named : W64) : Option Flt :=
  if (getBar s r).isSome then none else some (barFlt named 3)

/-- A release of a thread through a barrier instruction (12 R257, R265, R266, R268). -/
def syncRelease (s : State) (x : Lane) : State := bumpRel (drainThread s x.t.blk x.t.gang x.t.lane) x.t.blk

/-- BINIT of one lane (12 R265). -/
def initBar (s : State) (x : Lane) (r : BarRef) (earr ebytes : Nat) : Nat × State :=
  let old := getBar s r
  let parts : W32 := match old with | some o => o.parts | none => 0
  let hw := if r.grp then none else
    match old.bind Bar.hw with
    | some n => some n
    | none => freeBarSlot s x.b.core
  let (no, s) := fresh s
  let s := match old with | some o => if o.broken then endSavedWaits s o 3 else s | none => s
  let b : Bar := { ref := r, ctx := x.b.ctx, gen := (old.map Bar.gen).getD no, phase := 0, earr := BitVec.ofNat 32 earr, arrived := 0, ebytes := BitVec.ofNat 32 ebytes,
                   landed := 0, parts := parts, waiters := 0, broken := false, hw := hw,
                   arrAt := match old with | some o => o.arrAt | none => [] }
  let s := if r.grp then s else forgetTapin (noteLine s r.blk (r.addr / 64)) r.blk r.addr
  (if r.grp then 2 else if hw.isSome then 0 else 1, { s with bars := s.bars.filter (fun b => b.ref != r) ++ [b] })

def execBinit (k : Ctl) (g : Bool) (d a b c : Reg) (s : State) : Res :=
  barOp 0x90 k g [r32 b, r32 c] [r32 d] a s
    (fun s _ r n => match getBar s r with
      | some o => if o.waiters = 0 then none else some (barFlt n 2)
      | none => none)
    (fun i s rs => rs.foldl (fun s r =>
      let s := syncRelease s r.1
      let (st, s) := initBar s r.1 r.2.1 (r.1.rd b 32) (r.1.rd c 32)
      syncResult s i.cmd r.1 d st) s)

/-- BJOIN (12 R266). -/
def execBjoin (k : Ctl) (g : Bool) (d a : Reg) (s : State) : Res :=
  barOp 0x91 k g [] [r32 d] a s
    (fun s x r n => match needTyped s x r n with
      | some f => some f
      | none => if 8 ≤ x.t.joins.length ∧ !x.t.joined r then some (barFlt n 4) else none)
    (fun i s rs => rs.foldl (fun s r =>
      let (x, ref, named) := r
      if x.t.joined ref then syncResult s i.cmd x d 1
      else
        let join (t : Thread) : Thread := { t with joins := t.joins ++ [⟨ref, named⟩] }
        let s := modThread s x.t.blk x.t.gang x.t.lane join
        let s := if x.b.protectd then modThread s x.t.blk x.t.gang (x.t.lane + 1) join else s
        syncResult (modBar s ref (fun b => { b with parts := b.parts + 1 })) i.cmd x d 0) s)

/-- The objects of an issue, each once, with the lanes that name it (12 R264). -/
def byObject (rs : List (Lane × BarRef × W64)) : List (BarRef × List Lane) :=
  rs.foldl (fun acc r =>
    if acc.any (fun g => g.1 == r.2.1) then acc.map (fun g => if g.1 = r.2.1 then (g.1, g.2 ++ [r.1]) else g)
    else acc ++ [(r.2.1, [r.1])]) []

/-- Enter the wait for a phase, or end it at once (12 R256, R267). -/
def enterBarWait (s : State) (x : Lane) (r : BarRef) (n : W32) (d : Option Reg) : State :=
  let s := modThread s x.t.blk x.t.gang x.t.lane (fun t => { t with wait := .barrier r n d })
  modBar s r (fun b => { b with waiters := b.waiters + 1 })

/-- The arrivals of an issue at each object, then what follows with the phase that each counted toward. -/
def arriveAll (s : State) (rs : List (Lane × BarRef × W64)) (wait : State → Lane → BarRef → W32 → State) : State :=
  (byObject rs).foldl (fun s g =>
    match getBar s g.1 with
    | none => s
    | some b =>
      let s := arriveBar s g.1 g.2
      settleBar (g.2.foldl (fun s x => wait s x g.1 b.phase) s) g.1) s

def execBarr (k : Ctl) (g : Bool) (d a : Reg) (s : State) : Res :=
  barOp 0x92 k g [] [r32 d] a s needTyped
    (fun i s rs => arriveAll s rs (fun s x _ n => syncResult s i.cmd x d n.toNat))
def execBwait (k : Ctl) (g : Bool) (d a b : Reg) (s : State) : Res :=
  barOp 0x93 k g [r32 b] [r32 d] a s needTyped
    (fun i s rs => (byObject rs).foldl (fun s g =>
      wakeBar (g.2.foldl (fun s x => enterBarWait s x g.1 (BitVec.ofNat 32 (x.rd b 32)) (keptDst i.cmd x d)) s) g.1) s)
def execBarw (k : Ctl) (g : Bool) (d a : Reg) (s : State) : Res :=
  barOp 0x94 k g [] [r32 d] a s needTyped
    (fun i s rs => arriveAll s rs (fun s x r n => enterBarWait s x r n (keptDst i.cmd x d)))
/-- BDROP (12 R266). -/
def execBdrop (k : Ctl) (g : Bool) (d a : Reg) (s : State) : Res :=
  barOp 0x95 k g [] [r32 d] a s needTyped
    (fun i s rs => rs.foldl (fun s r =>
      let (x, ref, _) := r
      if x.t.joined ref then
        let s := syncRelease s x
        let s := if x.b.protectd then modThread s x.t.blk x.t.gang (x.t.lane + 1)
            (fun t => { t with joins := t.joins.filter (fun j => j.ref != ref) }) else s
        syncResult (dropJoin s x.t ref) i.cmd x d 0
      else syncResult s i.cmd x d 1) s)

/-- BINV of one object (12 R268): a saved waiter whose phase has completed keeps that status (R256). -/
def invalidate (s : State) (b : Bar) : State :=
  let s := s.threads.foldl (fun s t => match t.wait with
    | .barrier r _ d => if r = b.ref ∧ isResident s t.blk then endBarWait s t b.ref d 3 else s
    | _ => s) (endSavedWaits s b 3)
  let s := modThreads s (fun t => t.joined b.ref) (fun t => { t with joins := t.joins.filter (fun j => j.ref != b.ref) })
  barWriteBack { s with bars := s.bars.filter (fun x => x.ref != b.ref) } ((getBar s b.ref).getD b)
def execBinv (k : Ctl) (g : Bool) (d a : Reg) (s : State) : Res :=
  barOp 0x96 k g [] [r32 d] a s (fun _ _ _ _ => none)
    (fun i s rs => rs.foldl (fun s r =>
      match getBar s r.2.1 with
      | some b => syncResult (invalidate (syncRelease s r.1) b) i.cmd r.1 d 0
      | none => syncResult s i.cmd r.1 d 1) s)
/-- BQRY (12 R269): at a group barrier it reads global memory, and comes after what its thread's fences order before it
(09 R197). -/
def execBqry (k : Ctl) (g : Bool) (d a : Reg) (x : BitVec 8) (s : State) : Res :=
  barOp 0x97 k g [] [r32 d] a s needTyped
    (fun i s rs => rs.foldl (fun s r =>
      let s := if g then settleFences s r.1.t.blk r.1.t.gang r.1.t.lane false else s
      match getBar s r.2.1 with
      | some b => syncResult s i.cmd r.1 d (b.word x.toNat)
      | none => s) s)

/-! ### A copy command's fields (14 R278, R279, R286) -/

def CopyCmd.op (c : CopyCmd) : Nat := natBits c.word.toNat 56 8
def CopyCmd.dk (c : CopyCmd) : Nat := natBits c.word.toNat 45 3
def CopyCmd.ad (c : CopyCmd) : Nat := natBits c.word.toNat 42 3
def CopyCmd.bc (c : CopyCmd) : Bool := natBit c.word.toNat 41
def CopyCmd.n0 (c : CopyCmd) : Nat := natBits c.shape.toNat 0 16
def CopyCmd.n1 (c : CopyCmd) : Nat := max 1 (natBits c.shape.toNat 16 16)
/-- Elements of the command (14 R278). -/
def CopyCmd.count (c : CopyCmd) : Nat := c.n0 * c.n1
/-- Element width in bytes (14 R278). -/
def CopyCmd.width (c : CopyCmd) : Nat :=
  if c.op = 0xA3 then 2 ^ (natBits c.word.toNat 0 3) else fmtW (Rec.of c.srec).fmt
def CopyCmd.bytes (c : CopyCmd) : Nat := c.count * c.width

/-! ### Stage rings -/

/-- The ring of a block with an id (12 R270). -/
def blockRing (s : State) (b : Block) (id : Nat) : Option Ring :=
  (getRing s b.core id).bind (fun r => if r.blk = b.uid then some r else none)

/-- Why a ring descriptor fails, judged fields first (12 R270). -/
def ringCode (s : State) (b : Block) (v : Nat) : Option Nat :=
  let kind := natBits v 62 2
  let cnt := natBits v 56 6 + 1
  let sb := natBits v 36 20
  let base := natBits v 0 20
  if 2 ≤ kind ∨ natBits v 20 16 ≠ 0 then some 4
  else if kind = 0 ∧ (sb = 0 ∨ sb % 64 ≠ 0 ∨ base % 64 ≠ 0) then some 4
  else if kind = 1 ∧ sb ≠ 8192 then some 4
  else if kind = 0 ∧ (b.ssize < base + cnt * sb ∨ (typedBlockAt s b.uid base (cnt * sb)).isSome) then some 2
  else if kind = 1 ∧ (64 < base + cnt ∨ !((List.range cnt).all fun j => (getOpSlot s b.uid (base + j)).isSome)) then some 3
  else if (List.range 16).all (fun id => (getRing s b.core id).isSome) then some 1
  else none

/-- RGINIT with fr = 0 for one lane. DESIGN CHOICE (log 23): it takes the lowest free descriptor. -/
def initRing (s : State) (b : Block) (v : Nat) : Nat × State :=
  match ringCode s b v with
  | some c => (2 ^ 31 + c, s)
  | none =>
    match (List.range 16).find? (fun id => (getRing s b.core id).isNone) with
    | none => (2 ^ 31 + 1, s)
    | some id =>
      let slot : RSlot := { st := .free, fillNo := 0, owner := 0, phase := false, counted := 0, want := none }
      let ring : Ring := { core := b.core, id := id, blk := b.uid, kind := natBits v 62 2, base := natBits v 0 20,
                           sbytes := natBits v 36 20, fill := 0, take := 0,
                           slots := List.replicate (natBits v 56 6 + 1) slot, queue := [] }
      (id, { s with rings := s.rings ++ [ring] })

def execRginit (k : Ctl) (d a : Reg) (s : State) : Res :=
  issue 0x98 k [r64 a] [r32 d] s fun i s =>
    .done (i.cmd.foldl (fun s x =>
      let (v, s) := initRing s x.b (x.rd a 64)
      syncResult s i.cmd x d v) s)

/-- A thread waits at a ring. -/
def ringWaiter (s : State) (blk id : Nat) : Bool :=
  (blockThreads s blk).any (fun t => match t.wait with | .ring r _ _ _ => r == id | _ => false)
/-- Take a ring's descriptor away: that of a saved block stays with its block (12 R270). -/
def dropRing (s : State) (core id : Nat) : State := { s with rings := s.rings.filter (fun q => !Ring.at_ s core id q) }
def execRginitFree (k : Ctl) (d a : Reg) (s : State) : Res :=
  issue 0x98 k [r32 a] [r32 d] s fun i s =>
    .done (i.cmd.foldl (fun s x =>
      let id := x.rd a 32
      match blockRing s x.b id with
      | none => syncResult s i.cmd x d (2 ^ 31 + 6)
      | some r =>
        if r.slots.any (fun q => q.st != .free) || ringWaiter s x.b.uid id then syncResult s i.cmd x d (2 ^ 31 + 5)
        else syncResult (dropRing s r.core id) i.cmd x d 0) s)

/-- Change one slot of a ring. -/
def modSlot (r : Ring) (k : Nat) (f : RSlot → RSlot) : Ring :=
  { r with slots := r.slots.mapIdx (fun j q => if j = k then f q else q) }

/-- Take the slot at the fill or take index for a gang, if it can be had: the result and the ring (12 R271). `no` is the
number of the fill that an SLACQ begins. -/
def grantSlot (r : Ring) (gang : Nat) (fill : Bool) (no : Nat) : Option (Nat × Ring) :=
  let k := if fill then r.fill else r.take
  match r.slots[k]? with
  | none => none
  | some q =>
    let next := (k + 1) % r.slots.length
    if fill ∧ q.st = .free then
      some (k + 64 * b2n q.phase,
        { modSlot r k (fun q => { q with st := .filling, fillNo := no, owner := gang, counted := 0, want := none }) with fill := next })
    else if !fill ∧ q.st = .filled then
      some (k + 64 * b2n q.phase, { modSlot r k (fun q => { q with st := .taken, owner := gang }) with take := next })
    else none

/-- The threads that wait in one issue at a ring. -/
def ringThreads (s : State) (blk id issue : Nat) : List Thread :=
  (blockThreads s blk).filter (fun t => match t.wait with | .ring r _ n _ => r == id && n == issue | _ => false)

/-- A ringnext command has its slot: its bytes count for that fill, and all of them fill it; it is filled at once where
there are none (14 R284). -/
def giveSlot (s : State) (core cmd id v no : Nat) : State :=
  let bytes := ((getCopy s cmd).map CopyCmd.bytes).getD 0
  modCopy (modRing s core id (fun r => modSlot r (v % 64) (fun q =>
      if bytes = 0 then { q with st := .filled } else { q with want := some bytes })))
    cmd (fun c => { c with slot := some (id, v % 64), fill := no })
/-- Give an issue or a ringnext command that waits at a ring its slot, when it can be had. -/
def serveOne (s : State) (core id : Nat) (w : RWait) : State :=
  match getRing s core id with
  | none => s
  | some r =>
    if !r.queue.contains w then s
    else
      let ts := ringThreads s r.blk id w.issue
      if (match w.cmd with | some c => (getCopy s c).isNone | none => ts.isEmpty) then
        modRing s core id (fun q => { q with queue := q.queue.filter (· != w) })
      else
        let (no, s) := fresh s
        match grantSlot r w.gang w.fill no with
        | none => s
        | some (v, r') =>
          let s := modRing s core id (fun _ => { r' with queue := r'.queue.filter (· != w) })
          match w.cmd with
          | some c => giveSlot s core c id v no
          | none => ts.foldl (fun s t => match t.wait with
            | .ring _ _ _ d =>
              modThread (deliverKept s t.blk t.gang t.lane (some d) 32 v) t.blk t.gang t.lane Thread.unwait
            | _ => s) s

/-- A side of a ring has issues or commands that wait, so that a later one may not go first (12 R272). -/
def Ring.busy (r : Ring) (fill : Bool) : Bool := r.queue.any (fun w => w.fill == fill)
/-- Serve the issues that wait at a ring in the order they reached it (12 R272). -/
def serveRing (s : State) (core id : Nat) : State :=
  match getRing s core id with
  | none => s
  | some r => (r.queue ++ r.queue).foldl (fun s w => serveOne s core id w) s

/-- SLACQ and SLTAK: one slot for the whole issue, for the gang of the lowest active lane (12 R272). -/
def ringTake (op : Nat) (fill : Bool) (k : Ctl) (nb : Bool) (d a : Reg) (s : State) : Res :=
  issue op k [r32 a] [r32 d] s fun i s =>
    match i.cmd.head? with
    | none => .done s
    | some x =>
      let all (v : Nat) (s : State) : State := i.cmd.foldl (fun s y => syncResult s i.cmd y d v) s
      let id := x.rd a 32
      match blockRing s x.b id with
      | none => .done (all (2 ^ 31 + 2) s)
      | some r =>
        let (no, s) := fresh s
        match (if r.busy fill then none else grantSlot r x.t.gang fill no) with
        | some (v, r') => .done (all v (modRing s r.core id (fun _ => r')))
        | none =>
          if nb then .done (all (2 ^ 31 + 1) s)
          else
            let s := modRing s r.core id (fun q => { q with queue := q.queue ++ [⟨x.t.gang, fill, i.no, none⟩] })
            .done (i.cmd.foldl (fun s y => modThread s y.t.blk y.t.gang y.t.lane
              (fun t => { t with wait := .ring id fill i.no d })) s)
def execSlacq (k : Ctl) (nb : Bool) (d a : Reg) (s : State) : Res := ringTake 0x99 true k nb d a s
def execSltak (k : Ctl) (nb : Bool) (d a : Reg) (s : State) : Res := ringTake 0x9B false k nb d a s

/-- A SLOT fault at a ring slot (12 R273). -/
def slotFlt (id k : Nat) : Flt := { cause := 0x0E, info := id * 64 + k }

/-- The slot that a lane names is held by its gang on one side (12 R273, R274). -/
def slotHeld (s : State) (x : Lane) (id k : Nat) (st : SlotSt) : Bool :=
  match (blockRing s x.b id).bind (fun r => r.slots[k]?) with
  | some q => q.st == st && q.owner == x.t.gang
  | none => false

/-- A filling slot whose count is met becomes filled, and a take that waits is served (12 R271, R273). -/
def settleSlot (s : State) (core id k : Nat) : State :=
  match (getRing s core id).bind (fun r => r.slots[k]?) with
  | some q =>
    match q.want with
    | some n =>
      if q.st = .filling ∧ n ≤ q.counted then
        serveRing (modRing s core id (fun r => modSlot r k (fun q => { q with st := .filled, want := none }))) core id
      else s
    | none => s
  | none => s

/-- SLFIL (12 R273): a release; the issue marks each slot that it names once. DESIGN CHOICE (log 23): where lanes of one issue,
or a later SLFIL before the count is met, name one slot with different counts, the first of them holds. -/
def execSlfil (k : Ctl) (a b c : Reg) (s : State) : Res :=
  issue 0x9A k [r32 a, r32 b, r32 c] [] s fun i s =>
    let slot (x : Lane) : Nat := x.rd b 32 % 64
    match lane1 i.cmd (fun x =>
        if slotHeld s x (x.rd a 32) (slot x) .filling then none else some (slotFlt (x.rd a 32) (slot x))) with
    | [] => .done (i.cmd.foldl (fun s x =>
        let s := syncRelease s x
        let s := modRing s x.b.core (x.rd a 32) (fun r => modSlot r (slot x)
          (fun q => if q.want.isSome then q else { q with want := some (x.rd c 32) }))
        settleSlot s x.b.core (x.rd a 32) (slot x)) s)
    | fs => .trap s fs

/-- SLREL (12 R274): it waits while the slot is still read, then frees it; each lane that names it releases. `slotRead` says
that a matrix operation or a copy of the block that reads the slot is outstanding. -/
def releaseSlot (slotRead : State → Ring → Nat → Bool) (k : Ctl) (a b : Reg) (s : State) : Res :=
  issue 0x9C k [r32 a, r32 b] [] s fun i s =>
    let slot (x : Lane) : Nat := x.rd b 32 % 64
    match lane1 i.cmd (fun x =>
        if slotHeld s x (x.rd a 32) (slot x) .taken then none else some (slotFlt (x.rd a 32) (slot x))) with
    | [] =>
      if i.cmd.any (fun x => match blockRing s x.b (x.rd a 32) with | some r => slotRead s r (slot x) | none => false) then
        .stall s
      else .done (i.cmd.foldl (fun s x =>
        let s := syncRelease s x
        if slotHeld s x (x.rd a 32) (slot x) .taken then
          let s := modRing s x.b.core (x.rd a 32) (fun r => modSlot r (slot x)
            (fun q => { q with st := .free, owner := 0, phase := !q.phase, counted := 0 }))
          unstall (serveRing s x.b.core (x.rd a 32))
        else s) s)
    | fs => .trap s fs

end Sys2Proof.Machine
end

