-- ==== Sys2Proof/Machine/Fp.lean ====
section
/-! DEFINITION. The correctly rounded division, roots, exponential, logarithm and circular functions of FP32
(07 R148). Each value is computed in fixed point far beyond the rounding position; a value that is not representable
carries a sticky bit, so that the one rounding of `round` is that of the exact value. -/

namespace Sys2Proof.Machine

/-- Fraction bits of the fixed-point series. -/
def fxBits : Nat := 400

/-- The floor of a positive real that is no dyadic, as an exact value on its way to `round`: one more bit, set. -/
def sticky (n : Nat) (e : Int) (neg : Bool) : Xr :=
  let m : Int := 2 * n + 1
  .fin (if neg then -m else m) (e - 1)

/-- a / b for finite nonzero values. -/
def xdivFin (m1 e1 m2 e2 : Int) : Xr :=
  let neg := decide (m1 < 0) != decide (m2 < 0)
  let n := m1.natAbs * 2 ^ 400
  let d := m2.natAbs
  let e := e1 - e2 - 400
  if n % d = 0 then .fin (if neg then -((n / d : Nat) : Int) else ((n / d : Nat) : Int)) e
  else sticky (n / d) e neg

/-- Division with its specials (07 R148). -/
def xdiv (a b : Xr) : Xr × BitVec 5 :=
  let s := a.isNeg != b.isNeg
  match a, b with
  | .nan, _ => (.nan, 0)
  | _, .nan => (.nan, 0)
  | .zero _, .zero _ => (.nan, fInvalid)
  | .inf _, .inf _ => (.nan, fInvalid)
  | .inf _, _ => (.inf s, 0)
  | _, .inf _ => (.zero s, 0)
  | .zero _, _ => (.zero s, 0)
  | .fin _ _, .zero _ => (.inf s, fDiv0)
  | .fin m1 e1, .fin m2 e2 => (xdivFin m1 e1 m2 e2, 0)

/-- Integer square root by bits, from the highest. -/
def isqrt (bits n : Nat) : Nat :=
  let rec go : Nat → Nat → Nat
    | 0, r => r
    | k + 1, r => if (r + 2 ^ k) * (r + 2 ^ k) ≤ n then go k (r + 2 ^ k) else go k r
  go bits 0

/-- sqrt(m·2^e) for m > 0. -/
def xsqrtFin (m : Nat) (e : Int) : Xr :=
  let odd := e % 2 ≠ 0
  let n := (if odd then 2 * m else m) * 2 ^ 200
  let e' := ((if odd then e - 1 else e) - 200) / 2
  let r := isqrt 160 n
  if r * r = n then .fin r e' else sticky r e' false

def xsqrt (a : Xr) : Xr × BitVec 5 :=
  match a with
  | .nan => (.nan, 0)
  | .zero s => (.zero s, 0)
  | .inf false => (.inf false, 0)
  | .inf true => (.nan, fInvalid)
  | .fin m e => if m < 0 then (.nan, fInvalid) else (xsqrtFin m.natAbs e, 0)

/-- 1/sqrt(a). -/
def xrsq (a : Xr) : Xr × BitVec 5 :=
  match a with
  | .nan => (.nan, 0)
  | .zero s => (.inf s, fDiv0)
  | .inf false => (.zero false, 0)
  | .inf true => (.nan, fInvalid)
  | .fin m e =>
    if m < 0 then (.nan, fInvalid)
    else
      -- 1/sqrt(m·2^e) = sqrt(2^(−e)/m)
      let odd := e % 2 ≠ 0
      let m' := if odd then 2 * m.natAbs else m.natAbs
      let e' := if odd then e - 1 else e
      let n := 2 ^ 400 / m'
      let r := isqrt 210 n
      (if r * r * m' = 2 ^ 400 then .fin r (-200 - e' / 2) else sticky r (-200 - e' / 2) false, 0)

/-- The series Σ z^(2k+1)/(2k+1) of atanh, for k below n, in fixed point. -/
def fxAtanh (n z : Nat) : Nat :=
  let z2 := z * z / 2 ^ fxBits
  let rec go : Nat → Nat → Nat → Nat → Nat
    | 0, _, _, acc => acc
    | f + 1, k, t, acc => go f (k + 1) (t * z2 / 2 ^ fxBits) (acc + t / (2 * k + 1))
  go n 0 z 0
/-- ln 2. -/
def fxLn2 : Nat := 2 * fxAtanh 130 (2 ^ fxBits / 3)
/-- The series Σ (−1)^k z^(2k+1)/(2k+1) of atan, for z = 1/q. -/
def fxAtan (n q : Nat) : Int :=
  let rec go : Nat → Nat → Nat → Int → Int
    | 0, _, _, acc => acc
    | f + 1, k, t, acc =>
      go f (k + 1) (t / (q * q)) (if k % 2 = 0 then acc + (t / (2 * k + 1) : Nat) else acc - (t / (2 * k + 1) : Nat))
  go n 0 (2 ^ fxBits / q) 0
/-- π. -/
def fxPi : Nat := (16 * fxAtan 90 5 - 4 * fxAtan 30 239).toNat
/-- exp(y) for y in 0 … 1. -/
def fxExp (y : Nat) : Nat :=
  let rec go : Nat → Nat → Nat → Nat → Nat
    | 0, _, _, acc => acc
    | f + 1, k, t, acc => go f (k + 1) (t * y / 2 ^ fxBits / (k + 1)) (acc + t)
  go 90 0 (2 ^ fxBits) 0
/-- Alternating series t0 − t0·y²/((k+1)(k+2)) + …, from k = 0 (cosine) or k = 1 (sine). -/
def fxTrig (y k0 t0 : Nat) : Int :=
  let y2 := y * y / 2 ^ fxBits
  let rec go : Nat → Nat → Nat → Bool → Int → Int
    | 0, _, _, _, acc => acc
    | f + 1, k, t, s, acc =>
      go f (k + 2) (t * y2 / 2 ^ fxBits / ((k + 1) * (k + 2))) (!s) (if s then acc - t else acc + t)
  go 60 k0 t0 false 0

/-- 2^A for a finite nonzero A. -/
def xexp2Fin (m e : Int) : Xr :=
  if 0 ≤ e then
    let k := m * (2 : Int) ^ e.toNat
    .fin 1 (max (-100000) (min 100000 k))
  else
    let d : Int := (2 : Int) ^ (-e).toNat
    let k := m / d
    let fr := (m % d).toNat
    if fr = 0 then .fin 1 (max (-100000) (min 100000 k))
    else
      let y := fr * 2 ^ fxBits / 2 ^ (-e).toNat * fxLn2 / 2 ^ fxBits
      sticky (max (fxExp y) (2 ^ fxBits)) (max (-100000) (min 100000 k) - fxBits) false

def xexp2 (a : Xr) : Xr × BitVec 5 :=
  match a with
  | .nan => (.nan, 0)
  | .zero _ => (.fin 1 0, 0)
  | .inf s => (if s then .zero false else .inf false, 0)
  | .fin m e => (xexp2Fin m e, 0)

/-- log2 of a positive finite value. -/
def xlog2Fin (m : Nat) (e : Int) : Xr :=
  let t := Nat.log2 m
  let k : Int := t + e
  if m = 2 ^ t then Xr.ofInt k 0
  else
    let num := m * 2 ^ fxBits - 2 ^ t * 2 ^ fxBits
    let l := 2 * fxAtanh 140 (num / (m + 2 ^ t)) * 2 ^ fxBits / fxLn2
    let v : Int := k * (2 : Int) ^ fxBits + l
    if v < 0 then sticky (v.natAbs - 1) (-fxBits) true else sticky v.natAbs (-fxBits) false

def xlog2 (a : Xr) : Xr × BitVec 5 :=
  match a with
  | .nan => (.nan, 0)
  | .zero _ => (.inf true, fDiv0)
  | .inf false => (.inf false, 0)
  | .inf true => (.nan, fInvalid)
  | .fin m e => if m < 0 then (.nan, fInvalid) else (xlog2Fin m.natAbs e, 0)

/-- |A| mod 2 as a count of 2^−k units: the count and k. -/
def mod2 (m : Nat) (e : Int) : Nat × Nat :=
  if 0 ≤ e then (if e = 0 then m % 2 else 0, 0) else (m % 2 ^ ((-e).toNat + 1), (-e).toNat)

def xsinpi (a : Xr) : Xr × BitVec 5 :=
  match a with
  | .nan => (.nan, 0)
  | .zero s => (.zero s, 0)
  | .inf _ => (.nan, fInvalid)
  | .fin m e =>
    let neg := decide (m < 0)
    let (r, k) := mod2 m.natAbs e
    let one := 2 ^ k
    if r % one = 0 then (.zero neg, 0)
    else
      let neg' := neg != decide (one ≤ r)
      let r := r % one
      let r := if one < 2 * r then one - r else r
      if 2 * r = one then (.fin (if neg' then -1 else 1) 0, 0)
      else
        -- θ = π·r/2^k, kept with as many fraction bits as a tiny r needs
        let y := r * fxPi / one
        (sticky (fxTrig y 1 y).natAbs (-fxBits) neg', 0)

def xcospi (a : Xr) : Xr × BitVec 5 :=
  match a with
  | .nan => (.nan, 0)
  | .zero _ => (.fin 1 0, 0)
  | .inf _ => (.nan, fInvalid)
  | .fin m e =>
    let (r, k) := mod2 m.natAbs e
    let one := 2 ^ k
    let r := if one < r then 2 * one - r else r
    let neg := decide (one < 2 * r)
    let r := if one < 2 * r then one - r else r
    if 2 * r = one then (.zero false, 0)
    else if r = 0 then (.fin (if neg then -1 else 1) 0, 0)
    else
      let y := r * fxPi / one
      (sticky (min (fxTrig y 0 (2 ^ fxBits)).natAbs (2 ^ fxBits - 1)) (-fxBits) neg, 0)

/-- FRND: the integral value that rm selects (07 R149). -/
def frndPat (rm p : Nat) : Nat :=
  match val .fp32 p with
  | .fin m e =>
    let (n, _) := roundTo m e 0 rm
    if n = 0 then signed .fp32 (m < 0) 0 else (round .fp32 0 (.fin n 0)).1
  | .nan => Fmt.canNan .fp32
  | _ => p

end Sys2Proof.Machine
end

