-- ==== Sys2Proof/Machine/VecArith.lean ====
section
/-! DEFINITION. Floating-point arithmetic and comparison of the VEC class (07 R144-R150). -/

namespace Sys2Proof.Machine

/-- Negate a value where a bit says so (07 R145). -/
def negIf (n : Bool) (x : Xr) : Xr := if n then x.neg else x
/-- Round an exact result with its flags to FP32 (07 R135, R138). -/
def toFp32 (rm : Nat) (x : Xr × BitVec 5) : Nat × BitVec 5 :=
  let r := round .fp32 rm x.1
  (r.1, x.2 ||| r.2)

/-- An FP32 operation of one operand. -/
def fOp1 (op : Nat) (k : Ctl) (rm : BitVec 2) (d a : Reg) (s : State) (f : Xr → Xr × BitVec 5) : Res :=
  laneOpF op k [r32 a] d 32 s fun x =>
    let r := toFp32 rm.toNat (f (val .fp32 (x.rd a 32)))
    (r.1, r.2 ||| readFlag .fp32 (x.rd a 32))
/-- An FP32 operation of two operands. -/
def fOp2 (op : Nat) (k : Ctl) (rm : BitVec 2) (d a b : Reg) (s : State) (f : Xr → Xr → Xr × BitVec 5) : Res :=
  laneOpF op k [r32 a, r32 b] d 32 s fun x =>
    let r := toFp32 rm.toNat (f (val .fp32 (x.rd a 32)) (val .fp32 (x.rd b 32)))
    (r.1, r.2 ||| readFlag .fp32 (x.rd a 32) ||| readFlag .fp32 (x.rd b 32))

/-- A·B + C exactly: the product's flag stands whatever C is (07 R145). -/
def xfma (rm : Nat) (a b c : Xr) : Xr × BitVec 5 :=
  let p := xmul a b
  let y := xadd rm p.1 c
  (y.1, p.2 ||| y.2)

def execFadd (k : Ctl) (rm : BitVec 2) (na nc : Bool) (d a b : Reg) (s : State) : Res :=
  fOp2 0x40 k rm d a b s (fun x y => xadd rm.toNat (negIf na x) (negIf nc y))
def execFmul (k : Ctl) (rm : BitVec 2) (na : Bool) (d a b : Reg) (s : State) : Res :=
  fOp2 0x41 k rm d a b s (fun x y => xmul (negIf na x) y)
def execFfma (k : Ctl) (rm : BitVec 2) (na nc : Bool) (d a b c : Reg) (s : State) : Res :=
  laneOpF 0x42 k [r32 a, r32 b, r32 c] d 32 s fun x =>
    let r := toFp32 rm.toNat (xfma rm.toNat (negIf na (val .fp32 (x.rd a 32))) (val .fp32 (x.rd b 32))
      (negIf nc (val .fp32 (x.rd c 32))))
    (r.1, r.2 ||| readFlag .fp32 (x.rd a 32) ||| readFlag .fp32 (x.rd b 32) ||| readFlag .fp32 (x.rd c 32))
def execFmin (k : Ctl) (d a b : Reg) (s : State) : Res :=
  laneOpF 0x43 k [r32 a, r32 b] d 32 s fun x => minMax .fp32 false (x.rd a 32) (x.rd b 32)
def execFmax (k : Ctl) (d a b : Reg) (s : State) : Res :=
  laneOpF 0x44 k [r32 a, r32 b] d 32 s fun x => minMax .fp32 true (x.rd a 32) (x.rd b 32)
/-- FCMP (07 R147). -/
def execFcmp (k : Ctl) (cb : BitVec 2) (cc : BitVec 3) (d a b : Reg) (s : State) : Res :=
  issue 0x45 k [r32 a, r32 b, rP d] [] s fun i s =>
    let q (x : Lane) : Bool × BitVec 5 := fcompare cc.toNat (x.rd a 32) (x.rd b 32)
    .done (orFlags (commitP s d (i.act.map fun x => (x, combine cb.toNat (x.pr d.toNat) (q x).1)))
      (i.act.map fun x => (x, (q x).2)))

def execFdiv (k : Ctl) (rm : BitVec 2) (d a b : Reg) (s : State) : Res := fOp2 0x46 k rm d a b s xdiv
def execFrcp (k : Ctl) (rm : BitVec 2) (d a : Reg) (s : State) : Res := fOp1 0x47 k rm d a s (xdiv (.fin 1 0))
def execFrsq (k : Ctl) (rm : BitVec 2) (d a : Reg) (s : State) : Res := fOp1 0x48 k rm d a s xrsq
def execFsqrt (k : Ctl) (rm : BitVec 2) (d a : Reg) (s : State) : Res := fOp1 0x49 k rm d a s xsqrt
def execFexp2 (k : Ctl) (rm : BitVec 2) (d a : Reg) (s : State) : Res := fOp1 0x4A k rm d a s xexp2
def execFlog2 (k : Ctl) (rm : BitVec 2) (d a : Reg) (s : State) : Res := fOp1 0x4B k rm d a s xlog2
def execFsinpi (k : Ctl) (rm : BitVec 2) (d a : Reg) (s : State) : Res := fOp1 0x4C k rm d a s xsinpi
def execFcospi (k : Ctl) (rm : BitVec 2) (d a : Reg) (s : State) : Res := fOp1 0x4D k rm d a s xcospi
/-- FRND raises no flag but invalid for a signalling NaN (07 R149). -/
def execFrnd (k : Ctl) (rm : BitVec 2) (d a : Reg) (s : State) : Res :=
  laneOpF 0x4E k [r32 a] d 32 s fun x => (frndPat rm.toNat (x.rd a 32), readFlag .fp32 (x.rd a 32))
/-- FSCALE (07 R149). Beyond ±400 the power takes every value out of FP32 in the same way, so it is bounded there. -/
def execFscale (k : Ctl) (rm : BitVec 2) (d a b : Reg) (s : State) : Res :=
  laneOpF 0x4F k [r32 a, r32 b] d 32 s fun x =>
    let r := round .fp32 rm.toNat ((val .fp32 (x.rd a 32)).scale (max (-400) (min 400 (sx 32 (x.rd b 32)))))
    (r.1, r.2 ||| readFlag .fp32 (x.rd a 32))

/-! ### Two 16-bit operations in one register (07 R150) -/

def hFmt (hf : Bool) : Fmt := if hf then .bf16 else .fp16
/-- Half h of a pattern. -/
def half (v h : Nat) : Nat := natBits v (16 * h) 16
/-- Compute each half on its own; the flags are ORed. -/
def halfOp (op : Nat) (k : Ctl) (src : List RG) (d : Reg) (s : State) (f : Lane → Nat → Nat × BitVec 5) : Res :=
  laneOpF op k src d 32 s fun x => ((f x 0).1 + 2 ^ 16 * (f x 1).1, (f x 0).2 ||| (f x 1).2)
/-- Round to a 16-bit format, with the read flags of the operands. -/
def toHalf (f : Fmt) (rm : Nat) (x : Xr × BitVec 5) (ps : List Nat) : Nat × BitVec 5 :=
  let r := round f rm x.1
  (r.1, ps.foldl (fun fl p => fl ||| readFlag f p) (x.2 ||| r.2))

def execHadd2 (k : Ctl) (rm : BitVec 2) (hf : Bool) (d a b : Reg) (s : State) : Res :=
  halfOp 0x50 k [r32 a, r32 b] d s fun x h =>
    let p := half (x.rd a 32) h
    let q := half (x.rd b 32) h
    toHalf (hFmt hf) rm.toNat (xadd rm.toNat (val (hFmt hf) p) (val (hFmt hf) q)) [p, q]
def execHmul2 (k : Ctl) (rm : BitVec 2) (hf : Bool) (d a b : Reg) (s : State) : Res :=
  halfOp 0x51 k [r32 a, r32 b] d s fun x h =>
    let p := half (x.rd a 32) h
    let q := half (x.rd b 32) h
    toHalf (hFmt hf) rm.toNat (xmul (val (hFmt hf) p) (val (hFmt hf) q)) [p, q]
def execHfma2 (k : Ctl) (rm : BitVec 2) (hf : Bool) (d a b c : Reg) (s : State) : Res :=
  halfOp 0x52 k [r32 a, r32 b, r32 c] d s fun x h =>
    let p := half (x.rd a 32) h
    let q := half (x.rd b 32) h
    let r := half (x.rd c 32) h
    toHalf (hFmt hf) rm.toNat (xfma rm.toNat (val (hFmt hf) p) (val (hFmt hf) q) (val (hFmt hf) r)) [p, q, r]
def execHmax2 (k : Ctl) (hf mn : Bool) (d a b : Reg) (s : State) : Res :=
  halfOp 0x53 k [r32 a, r32 b] d s fun x h => minMax (hFmt hf) (!mn) (half (x.rd a 32) h) (half (x.rd b 32) h)

end Sys2Proof.Machine
end

