-- ==== Sys2Proof/Machine/VecConv.lean ====
section
/-! DEFINITION. Conversions and narrow dot products of the VEC class (07 R140, R141, R151-R157). -/

namespace Sys2Proof.Machine

/-! ### Conversions -/

/-- The format of a src or dst field of CVT (07 R142). -/
def cvtFmt (c : BitVec 3) : Fmt :=
  match c.toNat with | 0 => .fp32 | 1 => .fp16 | 2 => .bf16 | 3 => .i32 | _ => .z32
/-- The narrow format of a fmt field (07 R142). -/
def narrowFmt (c : BitVec 3) : Fmt :=
  match c.toNat with
  | 0 => .e4m3 | 1 => .e5m2 | 2 => .i8 | 3 => .z8 | 4 => .e2m1 | 5 => .i4 | 6 => .z4 | _ => .e8m0

/-- CVT (07 R151). -/
def execCvt (k : Ctl) (rm : BitVec 2) (src dst : BitVec 3) (d a : Reg) (x : BitVec 8) (s : State) : Res :=
  laneOpF 0x54 k [r32 a] d 32 s fun l =>
    let f := cvtFmt src
    let p := if f.bits = 16 then half (l.rd a 32) (x.toNat % 2) else l.rd a 32
    let r := if (cvtFmt dst).isInt then sat (cvtFmt dst) rm.toNat (val f p) else round (cvtFmt dst) rm.toNat (val f p)
    (r.1, r.2 ||| readFlag f p)
/-- CVTP (07 R152). -/
def execCvtp (k : Ctl) (rm : BitVec 2) (hf : Bool) (d a b : Reg) (s : State) : Res :=
  halfOp 0x55 k [r32 a, r32 b] d s fun l h =>
    let p := l.rd (if h = 0 then a else b) 32
    let r := round (hFmt hf) rm.toNat (val .fp32 p)
    (r.1, r.2 ||| readFlag .fp32 p)

/-- Byte n of a pattern. -/
def byteOf (v n : Nat) : Nat := natBits v (8 * n) 8
/-- A value scaled by an E8M0 pattern, exactly: s = 0xFF gives NaN and invalid (07 R153, R154). `down` divides. -/
def scaleBy (sc : Option Nat) (down : Bool) (v : Xr) : Xr × BitVec 5 :=
  match sc with
  | none => (v, 0)
  | some s => if s = 0xFF then (.nan, fInvalid) else (v.scale (if down then 127 - (s : Int) else (s : Int) - 127), 0)
/-- Quantize one FP32 pattern to a narrow format (07 R153). -/
def quantize (f : Fmt) (rm : Nat) (saturate : Bool) (sc : Option Nat) (p : Nat) : Nat × BitVec 5 :=
  let v := scaleBy sc true (val .fp32 p)
  let r := if f = .e5m2 ∧ !saturate then round f rm v.1 else sat f rm v.1
  (r.1, r.2 ||| v.2 ||| readFlag .fp32 p)
/-- Pack results of b bits each, the flags ORed. -/
def packFlags (b : Nat) (rs : List (Nat × BitVec 5)) : Nat × BitVec 5 :=
  (packElems b (rs.map Prod.fst), rs.foldl (fun fl r => fl ||| r.2) 0)

/-- CVTQ (07 R153). -/
def execCvtq (k : Ctl) (rm : BitVec 2) (fmt : BitVec 3) (sat sc : Bool) (d a c : Reg) (x : BitVec 8) (s : State) : Res :=
  laneOpF 0x56 k (r128 a :: if sc then [r32 c] else []) d 32 s fun l =>
    let sv := if sc then some (byteOf (l.rd c 32) (x.toNat % 4)) else none
    packFlags 8 ((elems 32 4 (l.rd a 128)).map (quantize (narrowFmt fmt) rm.toNat sat sv))
/-- CVTO (07 R153). -/
def execCvto (k : Ctl) (rm : BitVec 2) (fmt : BitVec 3) (sc : Bool) (d a b c : Reg) (x : BitVec 8) (s : State) : Res :=
  laneOpF 0x57 k (r128 a :: r128 b :: if sc then [r32 c] else []) d 32 s fun l =>
    let sv := if sc then some (byteOf (l.rd c 32) (x.toNat % 4)) else none
    packFlags 4 ((elems 32 4 (l.rd a 128) ++ elems 32 4 (l.rd b 128)).map (quantize (narrowFmt fmt) rm.toNat true sv))
/-- CVTX (07 R154). -/
def execCvtx (k : Ctl) (rm : BitVec 2) (fmt : BitVec 3) (sc : Bool) (d a c : Reg) (x : BitVec 8) (s : State) : Res :=
  laneOpF 0x58 k (r32 a :: if sc then [r32 c] else []) d 128 s fun l =>
    let f := narrowFmt fmt
    let sv := if sc then some (byteOf (l.rd c 32) (natBits x.toNat 1 2)) else none
    let es := if f.bits = 8 then elems 8 4 (l.rd a 32) else elems 4 4 (l.rd a 32 / 2 ^ (16 * (x.toNat % 2)))
    packFlags 32 (es.map fun p =>
      let v := scaleBy sv false (val f p)
      let r := round .fp32 rm.toNat v.1
      (r.1, r.2 ||| v.2))

/-! ### Dot products -/

/-- Values of the elements of two registers, in pairs. -/
def valPairs (f : Fmt) (n a b : Nat) : List (Xr × Xr) :=
  ((elems f.bits n a).map (val f)).zip ((elems f.bits n b).map (val f))
/-- An exact sum of integer products (07 R140). -/
def intDot (f : Fmt) (n a b : Nat) : Int :=
  (((elems f.bits n a).map (ext f.signedInt f.bits)).zip ((elems f.bits n b).map (ext f.signedInt f.bits))).foldl
    (fun t p => t + p.1 * p.2) 0

/-- An integer DOT of n elements (07 R155). -/
def dotInt (op : Nat) (f : Fmt) (n : Nat) (k : Ctl) (d a b c : Reg) (s : State) : Res :=
  laneOp op k [r32 a, r32 b, r32 c] d 32 s fun x => lowBits 32 (x.rd c 32 + intDot f n (x.rd a 32) (x.rd b 32))
/-- A floating-point DOT of n elements: one unscaled block of R140. -/
def dotFp (op : Nat) (f : Fmt) (n : Nat) (k : Ctl) (rm : BitVec 2) (d a b c : Reg) (s : State) : Res :=
  laneOpF op k [r32 a, r32 b, r32 c] d 32 s fun x =>
    let r := blockAcc rm.toNat (x.rd c 32) (valPairs f n (x.rd a 32) (x.rd b 32)) 127 127
    (r.1, (elems f.bits n (x.rd a 32) ++ elems f.bits n (x.rd b 32)).foldl (fun fl p => fl ||| readFlag f p)
      (r.2 ||| readFlag .fp32 (x.rd c 32)))
/-- DOTS: one scaled block of 16 elements (07 R141, R156). -/
def dots (op : Nat) (f : Fmt) (k : Ctl) (rm : BitVec 2) (d a b c : Reg) (x : BitVec 8) (s : State) : Res :=
  let w := 16 * f.bits
  laneOpF op k [r32 d, ⟨a, w / 32⟩, ⟨b, w / 32⟩, r64 c] d 32 s fun l =>
    let cv := l.rd c 64
    let sa := byteOf cv (x.toNat % 4)
    let sb := byteOf (cv / 2 ^ 32) (natBits x.toNat 2 2)
    let ps := if f.isInt then [(Xr.ofInt (intDot f 16 (l.rd a w) (l.rd b w)) 0, Xr.fin 1 0)]
              else valPairs f 16 (l.rd a w) (l.rd b w)
    let r := blockAcc rm.toNat (l.rd d 32) ps sa sb
    (r.1, r.2 ||| readFlag .fp32 (l.rd d 32))

def execDotI8 (k : Ctl) (d a b c : Reg) (s : State) : Res := dotInt 0x59 .i8 4 k d a b c s
def execDotZ8 (k : Ctl) (d a b c : Reg) (s : State) : Res := dotInt 0x5A .z8 4 k d a b c s
def execDotE4m3 (k : Ctl) (rm : BitVec 2) (d a b c : Reg) (s : State) : Res := dotFp 0x5B .e4m3 4 k rm d a b c s
def execDotE5m2 (k : Ctl) (rm : BitVec 2) (d a b c : Reg) (s : State) : Res := dotFp 0x5C .e5m2 4 k rm d a b c s
def execDotI4 (k : Ctl) (d a b c : Reg) (s : State) : Res := dotInt 0x5D .i4 8 k d a b c s
def execDotE2m1 (k : Ctl) (rm : BitVec 2) (d a b c : Reg) (s : State) : Res := dotFp 0x5E .e2m1 8 k rm d a b c s
def execDotsE4m3 (k : Ctl) (rm : BitVec 2) (d a b c : Reg) (x : BitVec 8) (s : State) : Res :=
  dots 0x5F .e4m3 k rm d a b c x s
def execDotsE5m2 (k : Ctl) (rm : BitVec 2) (d a b c : Reg) (x : BitVec 8) (s : State) : Res :=
  dots 0x60 .e5m2 k rm d a b c x s
def execDotsE2m1 (k : Ctl) (rm : BitVec 2) (d a b c : Reg) (x : BitVec 8) (s : State) : Res :=
  dots 0x61 .e2m1 k rm d a b c x s
def execDotsI8 (k : Ctl) (rm : BitVec 2) (d a b c : Reg) (x : BitVec 8) (s : State) : Res :=
  dots 0x62 .i8 k rm d a b c x s
def execDot2Bf16 (k : Ctl) (rm : BitVec 2) (d a b c : Reg) (s : State) : Res := dotFp 0x63 .bf16 2 k rm d a b c s
def execDot2F16 (k : Ctl) (rm : BitVec 2) (d a b c : Reg) (s : State) : Res := dotFp 0x64 .fp16 2 k rm d a b c s

end Sys2Proof.Machine
end

