-- ==== Sys2Proof/Machine/Copy.lean ====
section
/-! DEFINITION. The copy engine (14 R277-R291): the checks at issue, the queue, the start of a command, the landing of
an element with its bytes counted, remote commands, and batches. -/

namespace Sys2Proof.Machine

/-! ### A command's fields (14 R279, R280, R286) -/

/-- The word that an issue has issued. -/
def Iss.word (i : Iss) : W64 :=
  match i.bun.place.clause with | some c => c.words.getD i.bun.place.idx 0 | none => 0

def CopyCmd.list? (c : CopyCmd) : Bool := c.op == 0xA1 || c.op == 0xA2

/-- The source and destination indices of element e (14 R278). -/
def CopyCmd.srcIdx (c : CopyCmd) (e : Nat) : Int × Int :=
  (natBits c.sorig.toNat 0 32 + e % c.n0,
   if c.op = 0xA1 then c.list.getD (e / c.n0) 0
   else (if (Rec.of c.srec).ext1 = 0 then 0 else natBits c.sorig.toNat 32 32) + e / c.n0)
def CopyCmd.dstIdx (c : CopyCmd) (e : Nat) : Int × Int :=
  (natBits c.dorig.toNat 0 32 + e % c.n0,
   if c.op = 0xA2 then c.list.getD (e / c.n0) 0
   else (if (Rec.of c.drec).ext1 = 0 then 0 else natBits c.dorig.toNat 32 32) + e / c.n0)

/-- Where a record index lies before translation: none for a dropped element. -/
def recPlace (blk : Nat) (r : Rec) (ix : Int × Int) (sz : Nat) : Except Flt CPlace :=
  match eaIdx r ix.1 ix.2 sz false with
  | .error f => .error f
  | .ok none => .ok .none
  | .ok (some a) => .ok (if r.spc then .mem (.scratch blk) a a else .mem .glob a a)
def CopyCmd.srcPlace (c : CopyCmd) (e : Nat) : Except Flt CPlace :=
  if c.op = 0xA3 then .ok .none else recPlace c.blk (Rec.of c.srec) (c.srcIdx e) c.width
/-- The ring of a command's block with an id, while the block has it (12 R249). -/
def CopyCmd.ring (s : State) (c : CopyCmd) (id : Nat) : Option Ring :=
  (getRing s c.core id).bind (fun r => if r.blk = c.blk then some r else none)
/-- The place of a byte of a ring slot. -/
def CopyCmd.ringPlace (s : State) (c : CopyCmd) (id slot off : Nat) : CPlace :=
  match c.ring s id with
  | some r => if r.kind = 1 then .op (r.base + slot) off else .mem (.scratch r.blk) (r.base + slot * r.sbytes + off)
      (r.base + slot * r.sbytes + off)
  | none => .none
def CopyCmd.dstPlace (s : State) (c : CopyCmd) (e : Nat) : Except Flt CPlace :=
  let off := natBits c.dorig.toNat 0 32 + e * c.width
  match c.dk with
  | 0 => recPlace c.blk (Rec.of c.drec) (c.dstIdx e) c.width
  | 1 => .ok (.op c.tgt off)
  | 2 => .ok (c.ringPlace s (c.tgt / 64) (c.tgt % 64) off)
  | 3 => .ok (match c.slot with | some (id, k) => c.ringPlace s id k off | none => .none)
  | _ => .ok .link

/-! ### The checks at issue (14 R281) -/

/-- The destination formats of an add-on (14 R281 step 1). -/
def addonFmt (f : Nat) : Bool :=
  decide (f ≤ 3) || f == 0x05 || f == 0x06 || f == 0x07 || f == 0x0B || f == 0x0C || f == 0x10 || f == 0x11

/-- Step 1. -/
def copyRecords (c : CopyCmd) (a b : Reg) : Option Flt :=
  let hasD := c.dk = 0 ∨ c.dk = 4
  let sr := Rec.of c.srec
  let dr := Rec.of c.drec
  if hasD ∧ fmtW dr.fmt ≠ c.width then some { cause := 0x07, info := 5, tag := dr.tag }
  else if hasD ∧ c.ad ≠ 0 ∧ !addonFmt dr.fmt then some { cause := 0x07, info := 6, tag := dr.tag }
  else if c.op ≠ 0xA3 ∧ sr.ext1 ≠ 0 ∧ a = 191 then some { cause := 0x07, tag := sr.tag }
  else if hasD ∧ dr.ext1 ≠ 0 ∧ b = 191 then some { cause := 0x07, tag := dr.tag }
  else none
/-- Step 2: the place of the index list. -/
def copyList (c : CopyCmd) (r : Reg) (off ssize : Nat) : Option Flt :=
  if !c.list? then none
  else if r = 191 then some { cause := 0x07 }
  else if 64 < c.n1 then some { cause := 0x06, info := c.n1 }
  else if off % 4 ≠ 0 ∨ ssize < off + 4 * c.n1 then some { cause := 0x06, info := off }
  else none
/-- Step 3, over the elements of the first row and the first of each row: the first index outside in element order is
among them. -/
def copyBounds (c : CopyCmd) : Option Flt :=
  let es := if c.n0 = 0 then [] else List.range c.n0 ++ (List.range c.n1).map (· * c.n0)
  let one (r : BitVec 256) (ix : Int × Int) : Option Flt :=
    let q := Rec.of r
    match fixIdx ix.1 q.ext0 q.bnd with
    | .error f => some (f.tagged q)
    | .ok _ => match fixIdx ix.2 (if q.ext1 = 0 then 1 else q.ext1) q.bnd with
      | .error f => some (f.tagged q)
      | .ok _ => none
  es.findSome? fun e =>
    match if c.op = 0xA3 then none else one c.srec (c.srcIdx e) with
    | some f => some f
    | none => if c.dk = 0 ∨ c.dk = 4 then one c.drec (c.dstIdx e) else none
/-- Steps 4 and 5. -/
def copyAlign (c : CopyCmd) : Option Flt :=
  let bad (r : Rec) : Bool := r.base % c.width != 0 || r.stride0 % c.width != 0 || r.stride1 % c.width != 0
  let sr := Rec.of c.srec
  let dr := Rec.of c.drec
  if c.op ≠ 0xA3 ∧ bad sr then some { cause := 0x08, tag := sr.tag }
  else if (c.dk = 0 ∨ c.dk = 4) ∧ bad dr then some { cause := 0x08, tag := dr.tag }
  else if (c.dk = 0 ∨ c.dk = 4) ∧ dr.ro then some { cause := 0x0A, tag := dr.tag, kind := if c.ad = 0 then 1 else 2 }
  else none
/-- Steps 6 and 7: the slot, and the bytes that it takes. -/
def copyTarget (s : State) (b : Block) (c : CopyCmd) : Option Flt :=
  let size : Option Nat := match c.dk with
    | 1 => (getOpSlot s b.uid c.tgt).map (fun _ => 8192)
    | 2 => (blockRing s b (c.tgt / 64)).bind fun r =>
        (r.slots[c.tgt % 64]?).bind fun q => if q.st = .filling ∧ q.owner = c.gang then some r.sbytes else none
    | 3 => (blockRing s b c.tgt).map Ring.sbytes
    | _ => some (2 ^ 64)
  let o := natBits c.dorig.toNat 0 32
  match size with
  | none => some { cause := 0x0E, info := c.tgt }
  | some n => if 1 ≤ c.dk ∧ c.dk ≤ 3 ∧ n < o + c.bytes then some { cause := 0x06 } else none
/-- Step 8: the first element, in element order, at a scratchpad place within a typed barrier. -/
def copyBarrier (s : State) (b : Block) (c : CopyCmd) : Option Flt :=
  if s.bars.all (fun r => r.ref.grp || r.ref.blk != b.uid) then none
  else
    let hit (tag : Nat) (p : Except Flt CPlace) : Option Flt := match p with
      | .ok (.mem (.scratch k) a _) =>
        (typedBlockAt s k a c.width).map (fun r => { cause := 0x0C, info := withCode r.ref.addr 1, tag := tag })
      | _ => none
    (List.range c.count).findSome? fun e =>
      match hit (Rec.of c.srec).tag (c.srcPlace e) with
      | some f => some f
      | none => hit (if c.dk = 0 then (Rec.of c.drec).tag else 0) (c.dstPlace s e)
/-- Step 9. -/
def copyCount (s : State) (b : Block) (c : CopyCmd) : Option Flt :=
  let off := natBits c.shape.toNat 32 32
  if !c.bc then none
  else if off % 32 ≠ 0 then some { cause := 0x08, info := off }
  else if b.ssize < off + 32 then some { cause := 0x06, info := off }
  else if (getBar s ⟨false, b.uid, off⟩).isSome then none
  else some { cause := 0x0C, info := withCode off 3 }

/-- A checked scratchpad record, as the index list is read through. -/
def listRec : Rec :=
  { base := 0, ext0 := 0, ext1 := 0, stride0 := 0, stride1 := 0, fmt := 2, bnd := 0, spc := true, chk := true, ro := false,
    cp := 0, tag := 0, top := 0 }
/-- A plain read. -/
def plainRead : AMode := { kind := 0, writes := false, plain := true, cas := none }
/-- Step 10. -/
def copyListRead (s : State) (x : Lane) (c : CopyCmd) (off no : Nat) : Option Flt :=
  if !c.list? then none
  else ((List.range c.n1).findSome? fun k => scratchChecks s x listRec (off + 4 * k) 4 plainRead no).or
    (scratchEcc x.b off (4 * c.n1) plainRead)

/-- The command of one lane, and the offset of its index list. -/
def copyOf (s : State) (i : Iss) (x : Lane) (d a b c : Reg) (xr : BitVec 8) : CopyCmd × Nat :=
  let w := i.word.toNat
  let dk := natBits w 45 3
  let two (r : Reg) : Nat := if r.toNat < 192 then x.v r.toNat + 2 ^ 32 * x.v (r.toNat + 1) else x.s (r.toNat - 192)
  let hasD := dk = 0 ∨ dk = 4
  let srec := if i.op = 0xA3 then 0 else i.b.recOf (xr.toNat % 32)
  let drec := if hasD then i.b.recOf d.toNat else 0
  let sorig := if i.op = 0xA3 then x.rd a 64
    else if i.op = 0xA1 ∨ (Rec.of srec).ext1 ≠ 0 then two a else x.rd a 32
  let dorig := if i.op = 0xA2 ∨ (hasD ∧ (Rec.of drec).ext1 ≠ 0) then two b else x.rd b 32
  let off := if i.op = 0xA1 then sorig / 2 ^ 32 else dorig / 2 ^ 32
  let shape := x.rd c 64
  let n1 := max 1 (natBits shape 16 16)
  let list := if i.op = 0xA1 ∨ i.op = 0xA2 then
      (List.range (min n1 64)).map (fun k => leVal (readScratch s x.b.uid (off + 4 * k) 4))
    else []
  ({ id := 0, core := x.b.core, blk := x.b.uid, gang := x.t.gang, lane := x.t.lane, batch := none, word := i.word,
     pc := i.pc, srec := srec, drec := drec, tgt := if hasD then 0 else x.rd d 32, sorig := BitVec.ofNat 64 sorig,
     dorig := BitVec.ofNat 64 dorig, shape := BitVec.ofNat 64 shape, list := list, needs := [], started := false,
     slot := none, opened := 0, flying := [], ahead := [], fill := 0, bar := none, fault := none, interval := true }, off)

/-- The first failing check of R281. -/
def copyCheck (s : State) (i : Iss) (x : Lane) (c : CopyCmd) (off : Nat) (a b : Reg) : Option Flt :=
  (copyRecords c a b).or <| (copyList c (if c.op = 0xA1 then a else b) off i.b.ssize).or <| (copyBounds c).or <|
  (copyAlign c).or <| (copyTarget s i.b c).or <| (copyBarrier s i.b c).or <| (copyCount s i.b c).or <|
  copyListRead s x c off i.no

/-- A copy that makes the interval irrevocable (14 R291). -/
def CopyCmd.irrevocable (s : State) (c : CopyCmd) : Bool :=
  c.ad != 0 || c.dk == 1 || c.dk == 4 || (c.dk == 0 && !(Rec.of c.drec).spc) ||
  (decide (2 ≤ c.dk ∧ c.dk ≤ 3) &&
    (match c.ring s (if c.dk = 2 then c.tgt / 64 else c.tgt) with | some r => r.kind == 1 | none => false))

/-- The barrier at which a command counts (14 R284). -/
def CopyCmd.barRef (c : CopyCmd) : BarRef := ⟨false, c.blk, natBits c.shape.toNat 32 32⟩
/-- The commands of a core that its engine holds or that wait for an entry of it: those of blocks that it holds. -/
def coreCopies (s : State) (core : Nat) : List CopyCmd := s.copies.filter (fun c => c.core == core && isResident s c.blk)
/-- The engine has accepted the command: it holds the first 512 of its core (14 R282). -/
def CopyCmd.accepted (s : State) (c : CopyCmd) : Bool :=
  decide (((coreCopies s c.core).takeWhile (fun q => q.id != c.id)).length < 512)
/-- Threads whose commands have all been accepted go on. -/
def pollAccept (s : State) : State :=
  if s.threads.any (fun t => t.wait == .accept) then
    modThreads s (fun t => t.wait == .accept && s.copies.all (fun c =>
      !(c.blk == t.blk && c.gang == t.gang && c.lane == t.lane) || c.accepted s)) Thread.unwait
  else s

/-- A thread's issue reads bytes of scratchpad, an index list or the rows of a mask: single-bit errors are corrected, and
the words that interval tags govern are tagged (08 R177, R178, 14 R281, 15 R308). -/
def readList (s : State) (i : Iss) (x : Lane) (off n : Nat) : State :=
  (wordsOf off n).foldl (fun s w =>
    if ownerGoverned s x (4 * w) 4 then s
    else tagScratch s x.t.blk x.t.gang x.t.lane (4 * w) 4 false true i.no) (correctScratch i x off n s)
/-- Queue one command: its interval may become irrevocable, its list is read, and the earlier stores and atomics of its
thread are noted (14 R282). One that a killed block issues before its kill point is never made (14 R290). -/
def acceptCopy (s : State) (i : Iss) (x : Lane) (c : CopyCmd) (off : Nat) : State :=
  if isKilled s c.blk then s else
  let s := if c.irrevocable s then irrevocable s c.blk else s
  let s := if c.list? then readList s i x off (4 * c.n1) else s
  let needs := (s.outst.filter (fun o => o.blk == c.blk && o.gang == c.gang && o.lane == x.t.lane && o.writes)).map Outst.id
  let (id, s) := fresh s
  let fill := if c.dk = 2 then ((c.ring s (c.tgt / 64)).bind (fun r => r.slots[c.tgt % 64]?)).elim 0 RSlot.fillNo else 0
  { s with copies := s.copies ++
      [{ c with id := id, needs := needs, fill := fill, bar := if c.bc then (getBar s c.barRef).map Bar.gen else none }] }

/-- The register groups of a copy instruction: index operands of two registers where the record has two dimensions. -/
def copySrc (s : State) (op : Nat) (dk : Nat) (d a b c : Reg) (xr : BitVec 8) : List RG :=
  let blk := (getBundle s s.cur).bind (fun q => getBlock s q.blk)
  let two (n : Nat) : Bool := match blk with | some k => (Rec.of (k.recOf n)).ext1 != 0 | none => false
  let hasD := dk = 0 ∨ dk = 4
  let idx (r : Reg) (t : Bool) : RG := ⟨r, if t && r != 191 then 2 else 1⟩
  (if hasD then [rRec d.toNat] else [r32 d]) ++ (if op = 0xA3 then [] else [rRec (xr.toNat % 32)]) ++
  [if op = 0xA3 then r64 a else idx a (op == 0xA1 || two (xr.toNat % 32)),
   idx b (op == 0xA2 || (decide hasD && two d.toNat)), r64 c]

/-- CPY, CPYG, CPYS and CPYF: one command for each active thread, checked in every thread and then accepted in ascending
lane position; a thread whose command finds no free entry waits for one (14 R277-R282). What a thread has stored to its own
index list comes first (08 R171). -/
def copyIssue (op : Nat) (k : Ctl) (dk : BitVec 3) (d a b c : Reg) (x : BitVec 8) (s : State) : Res :=
  issue op k (copySrc s op dk.toNat d a b c x) [] s fun i s =>
    let s := i.cmd.foldl (fun s l => let q := copyOf s i l d a b c x
      if q.1.list? then drainBytes s l.t.blk l.t.gang l.t.lane (.scratch l.t.blk) q.2 (4 * q.1.n1) else s) s
    let cs := i.cmd.map fun l => (l, copyOf s i l d a b c x)
    match cs.filterMap (fun q => (copyCheck s i q.1 q.2.1 q.2.2 a b).map (fun f => LaneFlt.mk q.1.t.gang q.1.t.lane f)) with
    | [] =>
      let s := cs.foldl (fun s q => acceptCopy s i q.1 q.2.1 q.2.2) s
      .done (pollAccept (cs.foldl (fun s q =>
        modThread s q.1.t.blk q.1.t.gang q.1.t.lane (fun t => { t with wait := .accept })) s))
    | fs => .trap s fs

def execCpy (k : Ctl) (dk _ad : BitVec 3) (_bc : Bool) (d a b c : Reg) (x : BitVec 8) (s : State) : Res :=
  copyIssue 0xA0 k dk d a b c x s
def execCpyg (k : Ctl) (dk _ad : BitVec 3) (_bc : Bool) (d a b c : Reg) (x : BitVec 8) (s : State) : Res :=
  copyIssue 0xA1 k dk d a b c x s
def execCpys (k : Ctl) (dk _ad : BitVec 3) (_bc : Bool) (d a b c : Reg) (x : BitVec 8) (s : State) : Res :=
  copyIssue 0xA2 k dk d a b c x s
def execCpyf (k : Ctl) (dk _ad : BitVec 3) (_bc : Bool) (d a b c : Reg) (x : BitVec 8) (s : State) : Res :=
  copyIssue 0xA3 k dk d a b c x s

/-! ### The end of a command, and batches (14 R287) -/

def CopyCmd.ofThread (c : CopyCmd) (t : Thread) : Bool := c.blk == t.blk && c.gang == t.gang && c.lane == t.lane
/-- Sealed batches keep only what is not complete or has an error not yet reported. -/
def pruneBatches (s : State) (t : Thread) : List Batch :=
  t.sealed.filter fun b => b.err || s.copies.any (fun c => c.ofThread t && c.batch == some b.num)

/-- A sealed batch is complete. -/
def batchDone (s : State) (t : Thread) (b : Batch) : Bool :=
  !s.copies.any (fun c => c.ofThread t && c.batch == some b.num)

/-- The batches that a CWAIT for n covers (14 R288). -/
def inWindow (n : BitVec 16) (b : Batch) : Bool := decide ((n - b.num).toNat < 2 ^ 15)

/-- The status with which a CWAIT ends: none while it continues. -/
def cwaitStatus (s : State) (t : Thread) (n : BitVec 16) : Option Nat :=
  let bs := t.sealed.filter (inWindow n)
  if bs.all (batchDone s t) then
    let ahead := (n - t.batch).toNat
    some (if 1 ≤ ahead ∧ ahead < 2 ^ 15 then 2 else if bs.any Batch.err then 1 else 0)
  else none

/-- End a CWAIT whose batches are complete: the status is written and the errors are reported (14 R288, R289). -/
def pollCwait (s : State) (blk gang lane : Nat) : State :=
  match getThread s blk gang lane with
  | some t => match t.wait with
    | .cwait n d => match cwaitStatus s t n with
      | some st => modThread (deliverKept s blk gang lane d 32 st) blk gang lane (fun t =>
          { t.unwait with sealed := t.sealed.filter (fun b => !inWindow n b) })
      | none => s
    | _ => s
  | none => s

/-- A command has ended: its queue entry is free, an error goes to its batch. -/
def endCopy (s : State) (c : CopyCmd) (err : Bool) : State :=
  let s := { s with copies := s.copies.filter (fun q => q.id != c.id) }
  let s := modThread s c.blk c.gang c.lane (fun t =>
    let t := match if err then some c.batch else none with
      | some (some n) => { t with sealed := updWhere t.sealed (fun b => b.num == n) (fun b => { b with err := true }) }
      | some none => { t with openErr := true }
      | none => t
    { t with sealed := pruneBatches s t })
  pollCwait (pollAccept (unstall s)) c.blk c.gang c.lane

/-- CSEAL (14 R287, R288). -/
def execCseal (k : Ctl) (d : Reg) (s : State) : Res :=
  issue 0xA4 k [] [r32 d] s fun i s =>
    if i.cmd.any (fun x => decide (255 ≤ (x.t.sealed.filter (fun b => !batchDone s x.t b)).length)) then .stall s
    else
      .done (i.cmd.foldl (fun s x =>
        let n := x.t.batch + 1
        let s := { s with copies := updWhere s.copies (fun c => c.ofThread x.t && c.batch == none)
                                      (fun c => { c with batch := some n }) }
        let s := modThread s x.t.blk x.t.gang x.t.lane (fun t =>
          let t := { t with batch := n, openErr := false, sealed := t.sealed ++ [Batch.mk n t.openErr] }
          { t with sealed := pruneBatches s t })
        addReply s i.no x .cp d (if d.toNat < 192 || firstOfGang i.cmd x then 32 else 0) n.toNat none) s)
/-- CWAIT. -/
def execCwait (k : Ctl) (d a : Reg) (s : State) : Res :=
  issue 0xA5 k [r32 a] [r32 d] s fun i s =>
    .done (i.cmd.foldl (fun s x =>
      let s := modThread s x.t.blk x.t.gang x.t.lane (fun t => { t with wait := .cwait (BitVec.ofNat 16 (x.rd a 32)) (keptDst i.cmd x d) })
      pollCwait s x.t.blk x.t.gang x.t.lane) s)
/-- CPOLL: the batches before the first that is not complete (14 R288). -/
def execCpoll (k : Ctl) (d : Reg) (s : State) : Res :=
  issue 0xA6 k [] [r32 d] s fun i s =>
    .done (i.cmd.foldl (fun s x =>
      let before := x.t.sealed.takeWhile (batchDone s x.t)
      let rest := x.t.sealed.drop before.length
      let m := match rest with | b :: _ => b.num - 1 | [] => x.t.batch
      let s := modThread s x.t.blk x.t.gang x.t.lane (fun t => { t with sealed := rest })
      addReply s i.no x .cp d (if d.toNat < 192 || firstOfGang i.cmd x then 32 else 0)
        (m.toNat + 2 ^ 16 * b2n (before.any Batch.err)) none) s)

/-! ### The engine (14 R282-R285) -/

/-- The commands of a gang's queue before one. -/
def queueBefore (s : State) (c : CopyCmd) : List CopyCmd :=
  (s.copies.takeWhile (fun q => q.id != c.id)).filter (fun q => q.blk == c.blk && q.gang == c.gang)

/-- The issuing thread's earlier stores and atomics have been performed. -/
def copyReady (s : State) (c : CopyCmd) : Bool :=
  c.needs.all fun id => match getOutst s id with | some o => !o.pending | none => true

/-- RINGNEXT_SLOT_TAKE: a command of dk 3 at the head of its gang's queue reaches the ring as an SLACQ does, and has the
slot at the fill index when its turn comes (12 R272, 14 R284). -/
def takeRingSlot (s : State) (c : CopyCmd) : State :=
  match c.ring s c.tgt with
  | some r =>
    if c.slot.isNone && c.dk == 3 && c.fault.isNone && c.accepted s && (queueBefore s c).all CopyCmd.started &&
        !r.queue.any (fun w => w.cmd == some c.id) then
      serveRing (modRing s c.core c.tgt (fun r => { r with queue := r.queue ++ [⟨c.gang, true, 0, some c.id⟩] })) c.core c.tgt
    else s
  | none => s

/-- COPY_COMMAND_START: commands of a queue start in acceptance order (14 R282); an empty one is done. -/
def startCopy (s : State) (c : CopyCmd) : State :=
  if c.started || c.fault.isSome || !c.accepted s || !(queueBefore s c).all CopyCmd.started || !copyReady s c || (c.dk == 3 && c.slot.isNone)
  then s
  else if c.count = 0 then endCopy s c false
  else modCopy s c.id (fun c => { c with started := true })

/-- The issuing thread of a command as a lane; one that has exited is taken as it was. -/
def copyLane (s : State) (c : CopyCmd) : Option Lane :=
  match getBlock s c.blk with
  | none => none
  | some b =>
    let t : Thread := (getThread s c.blk c.gang c.lane).getD
      { blk := c.blk, gang := c.gang, lane := c.lane, v := [], p := 0, pc := 0, fpflags := 0, trcause := 0, trpc := 0,
        trinfo := 0, wrec := 0, handling := false, resume := Place.at_ 0, fault := none, wait := .none, parked := false,
        batch := 0, openErr := false, sealed := [], joins := [], watchq := [], rewait := .none, waited := 0, ended := false, left := false, past := false,
        flip := none, relNext := none, lastRd := [] }
    let g : Gang := (getGang s c.blk c.gang).getD
      { blk := c.blk, num := c.gang, role := 0, base := 0, ext := 0, s := [], armed := [], arrived := [] }
    some ⟨t, g, b⟩

/-- Translate for an engine of a core, for the thread of an instruction where it is known (09 R201, 14 R285; 21 R371). -/
def engineXlate (s : State) (b : Block) (kind va : Nat) (by_ : McRec := partyOf b 0 0 0 0 va) : Except Flt Nat × State :=
  match translate s (.engine b.core) b.ctx b.kernel kind va by_ with
  | (.ok pa, s1) => (.ok pa, s1)
  | (.page, s1) => (.error { cause := 0x09, info := va % 2 ^ 57, kind := kind }, s1)
  | (.perm, s1) => (.error { cause := 0x0A, info := va % 2 ^ 57, kind := kind }, s1)
  | (.poison pa, s1) => (.error (lineFlt s1 pa 1 0 3), s1)

/-- The party of a command's access at an address: its issuing instruction (21 R370, R371). -/
def CopyCmd.party (c : CopyCmd) (b : Block) (va : Nat) : McRec := partyOf b c.op c.pc c.gang c.lane va
/-- Translate a place for a party: scratchpad, slots and the link need none. -/
def placeXlate (s : State) (b : Block) (by_ : Nat → McRec) (kind : Nat) (p : Except Flt CPlace) : Except Flt CPlace × State :=
  match p with
  | .error f => (.error { f with kind := kind }, s)
  | .ok (.mem .glob va _) =>
    match engineXlate s b kind va (by_ va) with
    | (.ok pa, s1) =>
      if kind = 2 ∧ hostBacked s1 pa then (.error { cause := 0x0A, info := va, kind := 2 }, s1)
      else (.ok (.mem .glob pa va), s1)
    | (.error f, s1) => (.error f, s1)
  | .ok q => (.ok q, s)

/-- Start element e: its translations (14 R285). -/
def openElem (s : State) (b : Block) (c : CopyCmd) (e : Nat) : Except Flt CElem × State :=
  match placeXlate s b (c.party b) 0 (c.srcPlace e) with
  | (.error f, s1) => (.error (f.tagged (Rec.of c.srec)), s1)
  | (.ok src, s1) =>
    match placeXlate s1 b (c.party b) (if c.ad = 0 then 1 else 2) (c.dstPlace s1 e) with
    | (.error f, s2) => (.error (f.tagged (Rec.of c.drec)), s2)
    | (.ok dst, s2) => (.ok { e := e, src := src, dst := dst, part := 0 }, s2)

/-- ADDON(ad, D, x) of 14 R283 on patterns of a format. -/
def addon (ad f w d x : Nat) : Nat :=
  match fmtOf f with
  | some .fp32 | some .fp16 | some .bf16 =>
    let q := (fmtOf f).getD .fp32
    if ad = 1 then (round q 0 (xadd 0 (val q d) (val q x)).1).1 else (minMax q (ad == 2) d x).1
  | _ =>
    let n := 8 * w
    let sg := f = 0x0B ∨ f = 0x10
    if ad = 1 then (d + x) % 2 ^ n
    else
      let le := if sg then sx n d ≤ sx n x else d ≤ x
      if ad = 2 then (if le then x else d) else (if le then d else x)

/-- The elements that a command still has to land. -/
def CopyCmd.left (c : CopyCmd) (e : Nat) : Bool :=
  (decide (c.opened ≤ e) && !c.ahead.contains e) || c.flying.any (fun q => q.e == e)

/-- A plain copy covers the whole 64-byte line of a virtual address: it renews the line (21 R369). -/
def coversLine (s : State) (c : CopyCmd) (va : Nat) : Bool :=
  c.ad == 0 && (List.range 64).all fun k => (List.range c.count).any fun e =>
    match c.dstPlace s e with
    | .ok (.mem .glob a _) => decide (a ≤ va / 64 * 64 + k) && decide (va / 64 * 64 + k < a + c.width)
    | _ => false
/-- No other element of the command for a line is still to land. -/
def lastOfLine (s : State) (c : CopyCmd) (e va : Nat) : Bool :=
  (List.range c.count).all fun k => k == e || !c.left k ||
    (match c.dstPlace s k with | .ok (.mem .glob a _) => a / 64 != va / 64 | _ => true)

/-- The checks of an element's read or write (14 R281 step 8, R285; 08 R176-R181; 17 R326; 19 R348; 21 R369). A barrier in
the way stops a scratchpad destination only; a future or a group barrier stops no element (R285). DESIGN CHOICE (log 23): a
RACE that a read completes stops the command at that element, as R285 says it of a landing write. -/
def elemCheck (s : State) (x : Lane) (r : Rec) (p : CPlace) (w : Nat) (m : AMode) (fresh : Bool) (no : Nat) : Option Flt :=
  match p with
  | .mem (.scratch _) off _ =>
    match scratchChecks s x r off w m no with
    | some f => if !m.writes ∧ (f.cause = 0x0C ∨ (f.cause = 0x0B ∧ rowUnready s x off w)) then none else some f
    | none => scratchEcc x.b off w m
  | .mem .glob pa va =>
    if inMetadata s pa then some { cause := 0x0A, info := va, kind := m.kind }
    else match wordChecks s x r pa va w m with
      | some f => if fresh ∧ f.cause = 0x23 then none else some f
      | none => none
  | _ => none

/-- A record that stands for a destination without one: scratchpad, not checked. -/
def slotRec : Rec := { listRec with chk := false }

/-- The bytes that an element moves at once: a 16-byte one lands in two halves (14 R282). -/
def CopyCmd.step (c : CopyCmd) : Nat := if c.width = 16 then 8 else c.width
/-- The place of the half that lands next. -/
def CPlace.half (p : CPlace) (k : Nat) : CPlace :=
  match p with | .mem sp a va => .mem sp (a + 8 * k) (va + 8 * k) | .op q off => .op q (off + 8 * k) | q => q
/-- The value that an element reads, or its next half. DESIGN CHOICE (log 23): of the storage of a typed group barrier it reads
the bytes from before its BINIT, since the counts live beside memory. -/
def elemRead (s : State) (c : CopyCmd) (p : CPlace) (part : Nat) : Nat :=
  if c.op = 0xA3 then c.sorig.toNat / 2 ^ (64 * part) % 2 ^ (8 * c.step)
  else match p.half part with
    | .mem sp a _ => leVal (readSpace s c.blk sp a c.step)
    | _ => 0
/-- A read of HBM or host memory by an element counts toward its context's bandwidth budget (10 R215). -/
def elemSpend (s : State) (c : CopyCmd) (p : CPlace) : State :=
  match p with | .mem .glob _ _ => if c.op = 0xA3 then s else spendBytes s c.blk c.step | _ => s

/-- Write bytes of an operand slot. -/
def putOpSlot (s : State) (blk slot off : Nat) (bytes : List Byte) : State :=
  healErrs (modOpSlot s blk slot (fun q => { q with data := putBytes q.data off bytes, dirty := true })) blk (fun e => match e with
    | .opmem k w => k == slot && decide (off ≤ 8 * w) && decide (8 * w + 8 ≤ off + bytes.length)
    | _ => false)

/-- The tag that a copy's write leaves at checked words: a plain write of the issuing thread (08 R176, R179). -/
def CopyCmd.mark (c : CopyCmd) (b : Block) : Option GTag :=
  if c.dk = 0 ∧ isChecked b (Rec.of c.drec) then some { blk := b.uid, count := b.rel, atomic := false, rel := none } else none
/-- Write an element's value, or its next half, at its destination. -/
def elemWrite (s : State) (b : Block) (c : CopyCmd) (p : CPlace) (part v : Nat) : State :=
  let w := c.step
  match p.half part with
  | .op slot off => putOpSlot s c.blk slot off (leBytes w v)
  | .mem sp a va =>
    let r := Rec.of c.drec
    let v := if c.ad = 0 then v else addon c.ad r.fmt w (leVal (readSpace s c.blk sp a w)) v
    match sp with
    | .scratch b => writeScratch s b a (leBytes w v)
    | .glob => storeGlobal s c.blk c.gang c.lane a (leBytes w v)
        { va := BitVec.ofNat 64 va, pc := c.pc, op := c.op, tag := BitVec.ofNat 16 r.tag, size := Nat.log2 c.width, mark := c.mark b, no := 0 }
  | _ => s

/-- Tag an element's access to checked scratchpad outside ring slots (08 R177, R178); its global writes are tagged as they
are made. -/
def elemTag (s : State) (x : Lane) (r : Rec) (p : CPlace) (w : Nat) (writes : Bool) (no : Nat) : State :=
  match p with
  | .mem (.scratch b) off _ =>
    if isChecked x.b r && !ownerGoverned s x off w then tagScratch s b x.t.gang x.t.lane off w writes true no else s
  | _ => s

/-- Count an element's bytes where counting applies (14 R284): at a barrier that has stayed typed since acceptance, or at
the fill of a ring slot that the command names (12 R273). -/
def countElem (s : State) (c : CopyCmd) (dropped : Bool) : State :=
  let live := match getBlock s c.blk with | some b => !b.killed | none => false
  if dropped || !live then s
  else
    let atSlot (id k : Nat) : State :=
      if (c.ring s id).isNone then s
      else settleSlot (modRing s c.core id (fun r => modSlot r k (fun q =>
        if q.fillNo = c.fill then { q with counted := q.counted + c.width } else q))) c.core id k
    if c.bc then
      (if (getBar s c.barRef).any (fun b => c.bar == some b.gen) then landBytes s c.barRef c.width else s)
    else if c.dk = 2 then atSlot (c.tgt / 64) (c.tgt % 64)
    else match c.slot with
      | some (id, k) => atSlot id k
      | none => s

/-- The machine check of a command that has met an error. -/
def CopyCmd.mcheck (c : CopyCmd) (f : Flt) : MCheck :=
  { cycle := 0, cause := BitVec.ofNat 8 f.cause, pc := c.pc, addr := BitVec.ofNat 64 f.info, gang := c.gang, lane := c.lane,
    op := c.op, unit := f.unit, check := f.check, acc := 0, rc := 0, ladder := f.ladder, residue := none }
/-- Stop a command at an element (14 R285): the fault is the block's, a machine check goes to its ladder. A command of a
killed block has no save to go to: it ends there with an error (DESIGN CHOICE, log 22), its machine check logged with
outcome 2 (21 R380). -/
def stopCopy (s : State) (c : CopyCmd) (f : Flt) : State :=
  let s := healErrs s c.blk (· == .copyPath)
  let check := decide (0x20 ≤ f.cause)
  if isKilled s c.blk then
    endCopy (if check then (getBlock s c.blk).elim s (fun b => logKilled s b (c.mcheck f)) else s) c true else
  let s := modCopy s c.id (fun q => { q with fault := some (f.toRec c.pc) })
  if check then addMcheck s c.blk (c.mcheck f)
  else askSave s c.blk { reason := if f.cause = 0x09 then 1 else 3, first := some (c.gang, c.lane, f.toRec c.pc),
                         fromPreempt := false, bounded := false }

/-- A mismatch of the parity of the copy data path (21 R368, R371). -/
def pathFlt (b : Block) : Option Flt :=
  if b.errs.any (fun e => e.place == .copyPath) then some { cause := 0x20, unit := 6, check := 1 } else none

/-- Single-bit errors of the scratchpad words that an engine reads at a place, for the instruction of a party, are corrected
and counted (21 R369). -/
def CPlace.correct (p : CPlace) (s : State) (b : Block) (by_ : McRec) (w : Nat) : State :=
  match p with
  | .mem (.scratch _) off _ => correctErrs s b by_.op by_.pc by_.gang by_.lane (errsAt b (scratchWord off w) false)
  | _ => s
/-- Perform one started element, or its next half (14 R282-R285), or stop at it. What has still to land is checked; what lands
now is tagged now (R282). DESIGN CHOICE (log 22): the low half of a 16-byte element lands first. -/
def performElem (s : State) (c : CopyCmd) (x : Lane) (el : CElem) : Except Flt State :=
  let no := s.issueNo + 1
  let w := c.width
  let src := el.src.half el.part
  let dst := el.dst.half el.part
  let rest := w - 8 * el.part
  let sr := Rec.of c.srec
  let dr := if c.dk = 0 then Rec.of c.drec else slotRec
  let m : AMode := { kind := if c.ad = 0 then 1 else 2, writes := true, plain := true, cas := none }
  let isFresh := match el.dst with
    | .mem .glob pa va => poisoned s pa w && coversLine s c va
    | _ => false
  let first := el.part = 0
  match (if first then pathFlt x.b else none).or (elemCheck s x sr src rest plainRead false no) with
  | some f => .error { f with info := if f.cause = 0x23 then f.info / 64 * 64 else f.info, kind := 0, tag := sr.tag }
  | none =>
    match elemCheck s x dr dst rest m isFresh no with
    | some f => .error { f with kind := m.kind, tag := dr.tag }
    | none =>
      let v := elemRead s c el.src el.part
      let s := match src with
        | .mem .glob pa _ => correctHold s c.blk c.gang c.lane .glob pa c.step { StoreInfo.none with op := c.op, pc := c.pc }
        | p => p.correct s x.b (c.party x.b 0) c.step
      let s := if c.ad = 0 then s else dst.correct s x.b (c.party x.b 0) c.step
      let s := elemSpend { s with issueNo := no } c el.src
      let s := elemTag s x sr src c.step false no
      let s := elemWrite s x.b c el.dst el.part v
      let s := elemTag s x dr dst c.step true no
      let s := match el.dst with
        | .mem .glob pa va =>
          if isFresh && lastOfLine s c el.e va && (c.step = w || !first) then renewLine s (pa / 64) else s
        | _ => s
      .ok s

/-- After an element, or its first half, has landed: a whole one is counted, and the command ends with its last one. -/
def landedElem (s : State) (c : CopyCmd) (el : CElem) : State :=
  if c.step ≠ c.width ∧ el.part = 0 then
    modCopy s c.id (fun c => { c with flying := updWhere c.flying (fun q => q.e == el.e) (fun q => { q with part := 1 }) })
  else
  let s := modCopy s c.id (fun c => { c with flying := c.flying.filter (fun q => q.e != el.e) })
  let s := countElem s c (el.dst == .none)
  match getCopy s c.id with
  | some q => if q.dk ≠ 4 ∧ q.opened = q.count ∧ q.flying.isEmpty then endCopy s q false else s
  | none => s

/-- The line of a place in memory shows the error that stands in it (21 R369). -/
def CPlace.meet (p : CPlace) (s : State) (by_ : Nat → McRec) : State :=
  match p with | .mem .glob pa va => meetLine s pa (by_ va) | _ => s
/-- Land a started element of a command, or its next half; on a failure the element stays as it is, and the answer says
so. -/
def landOne (s : State) (id : Nat) (el : CElem) : State × Option Flt :=
  match getCopy s id with
  | none => (s, none)
  | some c =>
    match copyLane s c, c.flying.find? (fun q => q.e == el.e) with
    | some x, some el =>
      let s := el.dst.meet (el.src.meet s (c.party x.b)) (c.party x.b)
      match performElem s c x el with
      | .ok s => (landedElem s c el, none)
      | .error f => (s, some f)
    | _, _ => (s, none)
/-- Bytes of a place, for the order of one thread's commands at one byte. -/
def CPlace.meets (p q : CPlace) (w v : Nat) : Bool :=
  match p, q with
  | .mem a x _, .mem b y _ => a == b && decide (x < y + v) && decide (y < x + w)
  | .op a x, .op b y => a == b && decide (x < y + v) && decide (y < x + w)
  | _, _ => false

/-- Where element k of a command is written, at its physical place (14 R282, R285). -/
def CopyCmd.dstPhys (s : State) (c : CopyCmd) (k : Nat) : Option CPlace :=
  match c.flying.find? (fun q => q.e == k), getBlock s c.blk with
  | some q, _ => some q.dst
  | none, some b => match (placeXlate s b (c.party b) (if c.ad = 0 then 1 else 2) (c.dstPlace s k)).1 with
    | .ok p => some p
    | .error _ => none
  | none, none => none
/-- An earlier command of the same thread has still to write the bytes of element e (14 R282). -/
def copyBlocked (s : State) (c : CopyCmd) (e : Nat) : Bool :=
  let before := (s.copies.takeWhile (fun q => q.id != c.id)).filter
    (fun q => q.blk == c.blk && q.gang == c.gang && q.lane == c.lane)
  !before.isEmpty && (match c.dstPhys s e with
    | some p => before.any fun q => (List.range q.count).any fun k => q.left k &&
        (match q.dstPhys s k with | some r => r.meets p q.width c.width | none => false)
    | none => false)
/-- What keeps elements from landing: element e must wait for an earlier command, or it fails. -/
inductive Stop where
  | wait (e : Nat)
  | fail (e : Nat) (f : Flt)
/-- Land elements whole, up to the first that must wait for an earlier command of its thread or that fails. -/
def landAll (s : State) (id : Nat) : List CElem → State × Option Stop
  | [] => (s, none)
  | el :: t =>
    if (getCopy s id).any (fun c => copyBlocked s c el.e) then (s, some (.wait el.e))
    else
      match landOne s id el with
      | (s, some f) => (s, some (.fail el.e f))
      | (s, none) =>
        match landOne s id el with
        | (s, some f) => (s, some (.fail el.e f))
        | (s, none) => landAll s id t
/-- A command has not started element e and the later ones: those that have landed already are not made again
(14 R285). -/
def retreat (s : State) (id e : Nat) : State :=
  modCopy s id fun c =>
    let landed := (List.range c.opened).filter (fun k => decide (e ≤ k) && !c.flying.any (fun q => q.e == k))
    { c with opened := e, flying := [], ahead := c.ahead.filter (fun k => decide (e ≤ k)) ++
                                                   landed.filter (fun k => !c.ahead.contains k) }
/-- Stop a command at element e, or at an earlier one that fails: the started ones before it land first (14 R285). Where one
of them must wait for an earlier command of the thread, the stop waits with it. -/
def stopAt (s : State) (id e : Nat) (f : Flt) : State :=
  match getCopy s id with
  | none => s
  | some c =>
    let stop (s : State) (e : Nat) (f : Flt) : State :=
      match getCopy (retreat s id e) id with
      | some c => stopCopy (retreat s id e) c f
      | none => s
    match landAll s id (c.flying.filter (fun q => decide (q.e < e))) with
    | (s, some (.wait _)) => s
    | (s, some (.fail k g)) => stop s k g
    | (s, none) => stop s e f
/-- Land a started element of a command, or its next half, or stop the command there. -/
def landElem (s : State) (id : Nat) (el : CElem) : State :=
  match landOne s id el with
  | (s, some f) => stopAt s id el.e f
  | (s, none) => s

/-- Start elements in element order up to e (14 R282); on a failure those before it land and the command stops. -/
def openTo (fuel : Nat) (s : State) (id e : Nat) : State :=
  match fuel with
  | 0 => s
  | n + 1 =>
    match getCopy s id with
    | none => s
    | some c =>
      match getBlock s c.blk with
      | none => s
      | some b =>
        if e < c.opened ∨ c.count ≤ c.opened ∨ c.fault.isSome then s
        else if c.ahead.contains c.opened then openTo n (modCopy s id (fun c => { c with opened := c.opened + 1 })) id e
        else
          match openElem s b c c.opened with
          | (.ok el, s) => openTo n (modCopy s id (fun c => { c with opened := c.opened + 1, flying := c.flying ++ [el] })) id e
          | (.error f, s) => stopAt s id c.opened f

/-- Elements of the command whose landing may be refused by the race or barrier checks of their source or their destination
land in element order, so that none after a stopped one has landed (14 R285); others land in any order. -/
def CopyCmd.inOrder (s : State) (c : CopyCmd) : Bool :=
  match getBlock s c.blk with
  | none => false
  | some b =>
    (c.op != 0xA3 && ((Rec.of c.srec).spc || isChecked b (Rec.of c.srec))) ||
    match c.dk with
    | 0 => (Rec.of c.drec).spc || isChecked b (Rec.of c.drec)
    | 2 => (c.ring s (c.tgt / 64)).any (fun r => r.kind == 0)
    | 3 => (c.ring s c.tgt).any (fun r => r.kind == 0)
    | _ => false

/-- The core of a block in a revocable interval has spent its cellar budget of the period, so that a writer waits (21 R375,
24 R406). -/
def cellarSpent (s : State) (b : Block) : Bool :=
  b.rollback && b.revocable && decide (s.cfg.budgets.cellar ≤ Sparse.get 0 s.act.cellar b.core)
/-- A context's memory bandwidth budget of the period is spent (10 R215). -/
def bytesSpentOut (s : State) (ctx : Nat) : Bool :=
  match getCtx s ctx with | some c => c.bbytes != 0 && decide (c.bbytes.toNat ≤ c.bytesSpent) | none => false

/-- COPY_ELEMENT_LAND: element e of a command. A faulted command, or one that waits, does not move. -/
def landCopy (s : State) (id e : Nat) : State :=
  match getCopy s id with
  | none => s
  | some c =>
    match getBlock s c.blk with
    | none => s
    | some _ =>
      if !c.started || c.fault.isSome || !decide (e < c.count) || !c.left e || copyBlocked s c e then s
      else
        let s := openTo (e + 1 - c.opened) s id e
        let s := match getCopy s id with
          | some c => if c.inOrder s && c.fault.isNone then
              (match landAll s id (c.flying.filter (fun q => decide (q.e < e))) with
               | (s, some (.fail k f)) => stopAt s id k f
               | (s, _) => s)
            else s
          | none => s
        match getCopy s id with
        | some c => match c.flying.find? (fun q => q.e == e) with
          | some el =>
            if c.fault.isSome || (c.inOrder s && c.flying.any (fun q => decide (q.e < e))) then s else landElem s id el
          | none => s
        | none => s

/-- Let a command's started elements land whole, up to the first that fails. One that must wait for an earlier command of its
thread, and those after it, have not started. -/
def settleFlying (s : State) (id : Nat) : State :=
  match getCopy s id with
  | some c => match landAll s id c.flying with
    | (s, some (.fail e f)) => stopAt s id e f
    | (s, some (.wait e)) => retreat s id e
    | (s, none) => s
  | none => s

/-! ### SLREL (12 R274) -/

/-- A matrix operation or a copy element of the block that reads a ring slot is outstanding (12 R274). -/
def slotRead (s : State) (r : Ring) (k : Nat) : Bool :=
  if r.kind = 1 then
    s.mops.any (fun m => m.blk == r.blk && (match m.kind with
      | .small o => o.aslot == r.base + k || o.bslot == r.base + k
      | _ => false))
  else
    let lo := r.base + k * r.sbytes
    s.copies.any (fun c => c.blk == r.blk && c.op != 0xA3 && (Rec.of c.srec).spc && (List.range c.count).any (fun e => c.left e &&
      (match c.srcPlace e with
       | .ok (.mem _ a _) => decide (a < lo + r.sbytes) && decide (lo < a + c.width)
       | _ => false)))
/-- SLREL: it waits while the slot is still read, then frees it. -/
def execSlrel (k : Ctl) (a b : Reg) (s : State) : Res := releaseSlot slotRead k a b s

/-! ### Remote commands (14 R288, 24 R402) -/

/-- A remote command whose elements have all been sent waits for its acknowledgement. -/
def CopyCmd.awaits (c : CopyCmd) : Bool := c.dk == 4 && c.started && c.opened == c.count && c.flying.isEmpty

/-- The bytes that an element of a remote command writes. -/
def elemCovers (r : Rec) (w : Nat) (q : RemoteElem) (va : Nat) : Bool :=
  match eaIdx r q.i q.j w true with
  | .ok (some a) => decide (a ≤ va) && decide (va < a + w)
  | _ => false
/-- The elements write the whole 64-byte line of an address: a plain copy renews it (21 R369). -/
def renewsLine (r : Rec) (ad w va : Nat) (all : List RemoteElem) : Bool :=
  ad == 0 && (List.range 64).all fun k => all.any (fun q => elemCovers r w q (va / 64 * 64 + k))
/-- The store record of an element that arrives over the link (23 R391): its issuer lies on another device, so what the
record says of the issuer is free (log 6). -/
def remoteTrace (s : State) (ctx : Nat) (r : Rec) (va pa w v : Nat) : State :=
  match getCtx s ctx with
  | none => s
  | some c =>
    let (f, s) := freshFree s
    let i := Config.remoteIssuer f
    let issuer := fld 256 64 i + fld 216 40 (i / 2 ^ 64) + fld 184 32 (i / 2 ^ 104) + fld 160 8 (i / 2 ^ 136) +
      fld 152 8 (i / 2 ^ 144)
    let one (s : State) (o n : Nat) : State :=
      if watched c (va + o) then
        traceRec s ctx 0 (fld 448 64 (v / 2 ^ (8 * o) % 2 ^ (8 * n)) + fld 384 64 (readLE s (pa + o) n) + fld 320 64 (va + o) +
          fld 168 16 ctx + fld 144 8 (Nat.log2 w) + fld 128 16 r.tag + fld 64 64 s.heart.toNat + issuer)
      else s
    if w = 16 then one (one s 0 8) 8 8 else one s 0 w
/-- Perform the elements of a remote command that arrives here; it ends at an element that fails. `all` are the elements of
the whole command. -/
def remoteElems (s : State) (ctx ad : Nat) (r : Rec) (w : Nat) (all : List RemoteElem) : List RemoteElem → State
  | [] => s
  | q :: t =>
    match eaIdx r q.i q.j w true with
    | .error _ => s
    | .ok none => remoteElems s ctx ad r w all t
    | .ok (some va) =>
      match translate s .device ctx false (if ad = 0 then 1 else 2) va with
      | (.ok pa, s) =>
        let bad := poisoned s pa w
        if (bad && !renewsLine r ad w va all) || (ad != 0 && hostBacked s pa) then s
        else
          let v := if ad = 0 then q.v.toNat else addon ad r.fmt w (readLE s pa w) q.v.toNat
          let s := writeBytes (remoteTrace s ctx r va pa w v) pa (leBytes w v)
          let more := t.any fun u => (List.range 64).any fun k => elemCovers r w u (va / 64 * 64 + k)
          let s := if bad && !more then renewLine s (pa / 64) else s
          remoteElems s ctx ad r w all t
      | (_, s) => s

end Sys2Proof.Machine
end

