-- ==== Sys2Proof/Machine/Mem.lean ====
section
/-! DEFINITION. The MEM class: LD, ST, ATOM, ATOMN, CAS, FENCE, SCFENCE, BSET, BGET, PREF (09 R188-R199). An access is
checked at issue for every active lane, then becomes an outstanding result; a race-checked access is performed at
issue (log 5). -/

namespace Sys2Proof.Machine

/-- The targets of the lanes of an issue, in ascending lane position, with the faults (08 R163). What a fence of a thread
orders before its access has been performed by then (09 R197). -/
def targets (s : State) (xs : List Lane) (writes : Bool) (f : State → Lane → Except Flt Tgt × State) :
    List LaneFlt × List (Lane × Tgt) × State :=
  let s := xs.foldl (fun s x => settleFences s x.t.blk x.t.gang x.t.lane writes) s
  xs.foldl (fun acc x =>
    match f acc.2.2 x with
    | (.error e, s) => (acc.1 ++ [⟨x.t.gang, x.t.lane, e⟩], acc.2.1, s)
    | (.ok t, s) => (acc.1, acc.2.1 ++ [(x, t)], s)) ([], [], s)

/-- What the last read of a thread has met, for a later acquire fence: the tags of checked words, none for other reads
(08 R173, R174, R179). -/
def noteRead (s : State) (x : Lane) (tags : List GTag) : State :=
  modThread s x.t.blk x.t.gang x.t.lane (fun t => { t with lastRd := tags })

/-- The scope of the release that a thread's write is: its own, or that of the fence before it (08 R173, R174). -/
def relScope (s : State) (x : Lane) (own : Option Nat) : Option Nat :=
  match getThread s x.t.blk x.t.gang x.t.lane with
  | some t => match own, t.relNext with | some a, some b => some (max a b) | some a, none => some a | none, r => r
  | none => own
/-- A write of a thread that is a release raises its block's release count (08 R179). -/
def noteRelease (s : State) (x : Lane) (rel : Option Nat) : State :=
  if (relScope s x rel).isSome then
    bumpRel (modThread s x.t.blk x.t.gang x.t.lane (fun t => { t with relNext := none })) x.t.blk
  else s
/-- A dropped release: no store carries it, but it orders the thread's earlier accesses before its later ones and counts
(08 R165, R179). -/
def dropRelease (s : State) (no : Nat) (x : Lane) : State :=
  sweepFences (addOutst (bumpRel s x.t.blk) no x .fence .order true true).2

/-- The block's release count. -/
def relOf (s : State) (blk : Nat) : Nat := match getBlock s blk with | some b => b.rel | none => 0

/-- The scope of an access that is a release: ord 2 and 3 (02 R36). -/
def relOrd (ord : BitVec 2) (scope : BitVec 3) : Option Nat := if 2 ≤ ord.toNat then some scope.toNat else none
/-- The tag that a write of a thread leaves at checked words, with the count after its own release; what a release covers is
added when the write is performed (08 R167, R179). -/
def markOf (s : State) (b : Block) (r : Rec) (atomic : Bool) : Option GTag :=
  if isChecked b r then some { blk := b.uid, count := relOf s b.uid, atomic := atomic, rel := none } else none
/-- What goes with an access of n bytes through a record (21 R370, 23 R390): size code log2 n (02 R36). -/
def accInfo (i : Iss) (r : Rec) (va n : Nat) : StoreInfo :=
  { va := BitVec.ofNat 64 va, pc := i.pc, op := i.op, tag := BitVec.ofNat 16 r.tag, size := Nat.log2 n, mark := none, no := i.no }

/-- After the entries of a lane's access are added: a checked access is performed at once, and tagged; words that an owner
governs take no interval tags (08 R178, 19 R348). -/
def settleAccess (s : State) (i : Iss) (x : Lane) (r : Rec) (sp : Space) (addr n : Nat) (m : AMode) (acq : Option Nat)
    (ids : List Nat) : State :=
  if isChecked i.b r then
    let w := m.tagWrites s x.t.blk sp addr n
    let s := match sp, acq with
      | .glob, some scope => acquireWords s x.t.blk addr n scope
      | _, _ => s
    let s := if m.kind = 1 then s else noteRead s x (match sp with | .glob => tagsOf s x.t.blk addr n | .scratch _ => [])
    let s := ids.foldl (fun s id => performNow s id) s
    match sp with
    | .scratch b => if ownerGoverned s x addr n then s else tagScratch s b x.t.gang x.t.lane addr n w m.plain i.no
    | .glob => s
  else if m.kind = 1 then s
  else noteRead s x []

/-- The halves of an access: a 128-bit one is two events (08 R170). -/
def halves (addr n : Nat) : List (Nat × Nat × Nat) := if n = 16 then [(addr, 8, 0), (addr + 8, 8, 1)] else [(addr, n, 0)]
/-- The register of half h of a 128-bit group. -/
def halfReg (d : Reg) (h : Nat) : Reg := d + BitVec.ofNat 8 (if d.toNat < 192 then 2 * h else h)

/-- The instruction's access size in bytes (02 R36). -/
def accBytes (size : BitVec 3) : Nat := 2 ^ size.toNat
/-- The v registers that a value of n bytes takes. -/
def regsOf (n : Nat) : Nat := (n + 3) / 4

/-- The operand groups of the index field, with the record of the issuing block. -/
def idxSrc (s : State) (bq : BitVec 5) (a : Reg) : List RG :=
  match getBundle s s.cur with
  | none => [r32 a]
  | some q => match getBlock s q.blk with
    | none => [r32 a]
    | some b => [⟨a, idxCount (Rec.of (b.recOf bq.toNat)) a⟩, rRec bq.toNat]

/-- The address of an access of one lane, which the injected residue error of its issue is measured by (21 R383). -/
def accAddr (bq : BitVec 5) (a : Reg) (off : Int) (n : Nat) (m : AMode) (i : Iss) (x : Lane) : Option Nat :=
  match ea x (Rec.of (i.b.recOf bq.toNat)) a off n m.writes m.kind with | .ok v => v | .error _ => none

/-- What a load does for one lane: its entry, or two for 128 bits; a dropped access returns 0 (09 R192, 08 R164). -/
def ldLane (i : Iss) (r : Rec) (m : AMode) (ord : BitVec 2) (scope : BitVec 3) (n : Nat) (d : Reg) (s : State)
    (t : Lane × Tgt) : State :=
  let x := t.1
  let keep := d.toNat < 192 ∨ firstOfGang i.cmd x
  match t.2 with
  | .drop => (addOutst s i.no x .ld (.load .glob 0 0 (some 0) d (if keep then n else 0) StoreInfo.none) false false).2
  | .at_ sp addr va =>
    let q := (halves addr n).foldl (fun (acc : List Nat × State) h =>
      let (id, s) := addOutst acc.2 i.no x .ld (.load sp h.1 h.2.1 none (halfReg d h.2.2) (if keep then h.2.1 else 0)
        (accInfo i r (va + 8 * h.2.2) n)) false (ord != 0)
      (acc.1 ++ [id], s)) ([], s)
    settleAccess q.2 i x r sp addr n m (if ord = 0 then none else some scope.toNat) q.1

/-- LD (09 R192). -/
def execLd (k : Ctl) (ord : BitVec 2) (scope size : BitVec 3) (d a : Reg) (bq : BitVec 5) (_cp : BitVec 2)
    (off : BitVec 17) (s : State) : Res :=
  let n := accBytes size
  let m : AMode := { kind := 0, writes := false, plain := ord = 0, cas := none }
  issue 0x70 k (idxSrc s bq a) [⟨d, regsOf n⟩] s (addr := accAddr bq a (sx 17 off.toNat) n m) fun i s =>
    let r := Rec.of (i.b.recOf bq.toNat)
    match targets s i.cmd false (fun s x => target s x r a (sx 17 off.toNat) n m none i.no) with
    | ([], ts, s) => .done (ts.foldl (ldLane i r m ord scope n d) s)
    | (fs, _, s) => .trap s fs

/-- What a store does for one lane: its entry with the bytes of d, or two for 128 bits; a dropped one stores nothing and is
complete at once (09 R192, 08 R164, R165). -/
def stLane (i : Iss) (r : Rec) (m : AMode) (ord : BitVec 2) (scope size : BitVec 3) (d : Reg) (s : State)
    (t : Lane × Tgt) : State :=
  let x := t.1
  let n := accBytes size
  match t.2 with
  | .drop => if ord = 0 then s else dropRelease s i.no x
  | .at_ sp addr va =>
    let rel := relScope s x (relOrd ord scope)
    let s := noteRelease s x rel
    let bytes := leBytes n (x.rd d (8 * n))
    let q := (halves addr n).foldl (fun (acc : List Nat × State) h =>
      let (id, s) := addOutst acc.2 i.no x .st (.store sp h.1 ((bytes.drop (8 * h.2.2)).take h.2.1)
        { accInfo i r (va + 8 * h.2.2) n with mark := if r.spc then none else markOf s i.b r (ord != 0), scope := rel })
        (ord != 0) false
      (acc.1 ++ [id], s)) ([], s)
    settleAccess q.2 i x r sp addr n m none q.1

/-- ST (09 R192). -/
def execSt (k : Ctl) (ord : BitVec 2) (scope size : BitVec 3) (d a : Reg) (bq : BitVec 5) (_cp : BitVec 2)
    (off : BitVec 17) (s : State) : Res :=
  let n := accBytes size
  let m : AMode := { kind := 1, writes := true, plain := ord = 0, cas := none }
  issue 0x71 k (⟨d, regsOf n⟩ :: idxSrc s bq a) [] s (addr := accAddr bq a (sx 17 off.toNat) n m) fun i s =>
    let r := Rec.of (i.b.recOf bq.toNat)
    match targets s i.cmd true (fun s x => target s x r a (sx 17 off.toNat) n m none i.no) with
    | ([], ts, s) => .done (ts.foldl (stLane i r m ord scope size d) s)
    | (fs, _, s) => .trap s fs

/-- A global atomic is an irrevocable event (21 R377). -/
def atomIrrevocable (s : State) (r : Rec) (ts : List (Lane × Tgt)) (blk : Nat) : State :=
  if !r.spc && !ts.isEmpty then irrevocable s blk else s

/-- What ATOM and ATOMN do for one lane: the entry of the operation on the value of d (09 R193, R194). -/
def atomLane (i : Iss) (r : Rec) (m : AMode) (ord : BitVec 2) (scope size : BitVec 3) (d : Reg) (aop : BitVec 4)
    (ret : Bool) (s : State) (t : Lane × Tgt) : State :=
  let x := t.1
  let n := accBytes size
  let keep := ret && (decide (d.toNat < 192) || firstOfGang i.cmd x)
  match t.2 with
  | .drop =>
    let s := if 2 ≤ ord.toNat then dropRelease s i.no x else s
    if ret then
      (addOutst s i.no x .at_ (.load .glob 0 0 (some 0) d (if keep then n else 0) StoreInfo.none) false false).2
    else s
  | .at_ sp addr va =>
    let rel := relScope s x (relOrd ord scope)
    let s := noteRelease s x rel
    let (id, s) := addOutst s i.no x .at_ (.atom sp addr n aop.toNat (BitVec.ofNat 64 (x.rd d (8 * n))) keep d
      { accInfo i r va n with mark := if r.spc then none else markOf s i.b r true, scope := rel })
      (decide (2 ≤ ord.toNat)) (ord = 1 || ord = 3)
    settleAccess s i x r sp addr n m (if ord = 1 ∨ ord = 3 then some scope.toNat else none) [id]

/-- ATOM and ATOMN (09 R193, R194). -/
def atomic (op : Nat) (k : Ctl) (ord : BitVec 2) (scope size : BitVec 3) (d a : Reg) (bq : BitVec 5) (aop : BitVec 4)
    (off : BitVec 15) (ret : Bool) (s : State) : Res :=
  let n := accBytes size
  let m : AMode := { kind := 2, writes := true, plain := false, cas := none }
  issue op k (⟨d, regsOf n⟩ :: idxSrc s bq a) (if ret then [⟨d, regsOf n⟩] else []) s
      (addr := accAddr bq a (sx 15 off.toNat) n m) fun i s =>
    let r := Rec.of (i.b.recOf bq.toNat)
    match targets s i.cmd true (fun s x => target s x r a (sx 15 off.toNat) n m (some aop.toNat) i.no) with
    | ([], ts, s) => .done (ts.foldl (atomLane i r m ord scope size d aop ret) (atomIrrevocable s r ts i.b.uid))
    | (fs, _, s) => .trap s fs

def execAtom (k : Ctl) (ord : BitVec 2) (scope size : BitVec 3) (d a : Reg) (bq : BitVec 5) (aop : BitVec 4)
    (off : BitVec 15) (s : State) : Res := atomic 0x72 k ord scope size d a bq aop off true s
def execAtomn (k : Ctl) (ord : BitVec 2) (scope size : BitVec 3) (d a : Reg) (bq : BitVec 5) (aop : BitVec 4)
    (off : BitVec 15) (s : State) : Res := atomic 0x73 k ord scope size d a bq aop off false s

/-- The compare and new values of a CAS: the low and high halves of the group at d (09 R196). -/
def casGroup (x : Lane) (d : Reg) (n : Nat) : Nat × Nat :=
  if n = 4 ∧ 192 ≤ d.toNat then (x.rd d 64 % 2 ^ 32, x.rd d 64 / 2 ^ 32)
  else (x.rd d (8 * n), x.rd (d + BitVec.ofNat 8 (if d.toNat < 192 then n / 4 else 1)) (8 * n))

/-- How a CAS of one lane accesses its location: it writes where it finds its compare value (09 R195). -/
def casMode (d : Reg) (n : Nat) (x : Lane) : AMode :=
  { kind := 2, writes := true, plain := false, cas := some (casGroup x d n).1 }

/-- What CAS does for one lane: the entry with the compare and the new value (09 R195, R196). -/
def casLane (i : Iss) (r : Rec) (ord : BitVec 2) (scope size : BitVec 3) (d : Reg) (s : State) (t : Lane × Tgt) : State :=
  let x := t.1
  let n := accBytes size
  let keep := decide (d.toNat < 192) || firstOfGang i.cmd x
  match t.2 with
  | .drop =>
    let s := if 2 ≤ ord.toNat then dropRelease s i.no x else s
    (addOutst s i.no x .at_ (casResult .glob 0 0 n keep d 0) false false).2
  | .at_ sp addr va =>
    let g := casGroup x d n
    let wr := (casMode d n x).tagWrites s x.t.blk sp addr n
    let rel := if wr then relScope s x (relOrd ord scope) else none
    let s := if wr then noteRelease s x rel else s
    let (id, s) := addOutst s i.no x .at_ (.cas sp addr n (BitVec.ofNat 128 g.1) (BitVec.ofNat 128 g.2) keep d
      { accInfo i r va n with mark := if r.spc then none else markOf s i.b r true, scope := rel })
      (decide (2 ≤ ord.toNat)) (ord = 1 || ord = 3)
    settleAccess s i x r sp addr n (casMode d n x) (if ord = 1 ∨ ord = 3 then some scope.toNat else none) [id]

/-- CAS (09 R195, R196). The low half of d receives the old value. -/
def execCas (k : Ctl) (ord : BitVec 2) (scope size : BitVec 3) (d a : Reg) (bq : BitVec 5) (_cp : BitVec 2)
    (off : BitVec 17) (s : State) : Res :=
  let n := accBytes size
  issue 0x74 k (⟨d, 2 * regsOf n⟩ :: idxSrc s bq a) [⟨d, regsOf n⟩] s
      (addr := fun i x => accAddr bq a (sx 17 off.toNat) n (casMode d n x) i x) fun i s =>
    let r := Rec.of (i.b.recOf bq.toNat)
    match targets s i.cmd true (fun s x => target s x r a (sx 17 off.toNat) n (casMode d n x) none i.no) with
    | ([], ts, s) => .done (ts.foldl (casLane i r ord scope size d) (atomIrrevocable s r ts i.b.uid))
    | (fs, _, s) => .trap s fs

/-- What a fence of a thread does for the global check: its last read becomes an acquire, its next write a release
(08 R173, R174, R179). -/
def fenceMarks (s : State) (t : Thread) (scope : Nat) (rel acq : Bool) : State :=
  let s := if acq then t.lastRd.foldl (fun s w => acquireTag s t.blk scope w) s else s
  if rel then modThread s t.blk t.gang t.lane (fun t => { t with relNext := some (max scope (t.relNext.getD 0)) }) else s
/-- A fence of one thread (08 R174): later accesses are held by the pending entry. -/
def fenceThread (s : State) (no : Nat) (x : Lane) (scope : Nat) (rel acq : Bool) : State :=
  let s := fenceMarks s x.t scope rel acq
  sweepFences (addOutst s no x .fence .fence rel acq).2

/-- FENCE (09 R197). -/
def execFence (k : Ctl) (ord : BitVec 2) (scope : BitVec 3) (s : State) : Res :=
  issue 0x75 k [] [] s fun i s =>
    .done (i.cmd.foldl (fun s x => fenceThread s i.no x scope.toNat (decide (2 ≤ ord.toNat)) (ord = 1 || ord = 3)) s)
/-- SCFENCE: an irrevocable event; the thread waits until its core's accesses have been performed, and then for the next
tick (08 R182). -/
def execScfence (k : Ctl) (scope : BitVec 3) (s : State) : Res :=
  issue 0x76 k [] [] s fun i s =>
    if i.act.isEmpty then .done s
    else
      .done (markScfence (i.cmd.foldl (fun s x =>
        modThread (fenceThread s i.no x scope.toNat true true) x.t.blk x.t.gang x.t.lane
          (fun t => { t with wait := .scfence none })) (irrevocable s i.b.uid)))

/-- The record that the quad of a lane's gang at a holds: two 128-bit groups (09 R199). -/
def quadRec (x : Lane) (a : Reg) : BitVec 256 := BitVec.ofNat 256 (x.rd a 128 + 2 ^ 128 * x.rd (a + 2) 128)
/-- BSET with the quad of a lane's gang: the record is checked, then written to the block's record d (09 R199). -/
def bsetLane (i : Iss) (d a : Reg) (s : State) (x : Lane) : IOut :=
  match recReason i.b.ssize (Rec.of (quadRec x a)) with
  | some reason => .trap s [⟨x.t.gang, x.t.lane, { cause := 0x07, info := reason }⟩]
  | none => .done (healErrs (modBlock s i.b.uid (fun b => { b with recs := Sparse.set 0 b.recs d.toNat (quadRec x a) }))
      i.b.uid (· == .record d.toNat))
/-- BSET: from the lowest active lane's gang (09 R199). -/
def execBset (k : Ctl) (d a : Reg) (s : State) : Res :=
  issue 0x77 k [] [] s fun i s =>
    match i.act.head? with
    | none => .done s
    | some x => readOne i x [⟨a, 8⟩] s fun s => bsetLane i d a s x
/-- BGET: into the quad of each gang with an active thread (09 BGET). -/
def execBget (k : Ctl) (d a : Reg) (s : State) : Res :=
  issue 0x78 k [rRec a.toNat] [] s fun i s =>
    let n := (i.b.recOf a.toNat).toNat
    .done ((firstLanes i.act).foldl (fun s x =>
      putReg (putReg s x.t.blk x.t.gang x.t.lane d 128 (n % 2 ^ 128)) x.t.blk x.t.gang x.t.lane (d + 2) 128 (n / 2 ^ 128)) s)

/-- PREF of one lane: a walk may bring the translation in; nothing else changes (09 R198). DESIGN CHOICE (log 20): a miss
always walks while the walkers have budget; the L2 has no budget of its own in 24 R406, so none drops the request. -/
def prefLane (r : Rec) (a : Reg) (off : BitVec 17) (n : Nat) (s : State) (x : Lane) : State :=
  if r.spc then s
  else match ea x r a (sx 17 off.toNat) n false 0 with
    | .ok (some addr) => if walksOpen s then (laneXlate s x 0 addr).2 else s
    | _ => s
/-- PREF (09 R198). -/
def execPref (k : Ctl) (size : BitVec 3) (a : Reg) (bq : BitVec 5) (_cp : BitVec 2) (off : BitVec 17) (s : State) : Res :=
  issue 0x79 k (idxSrc s bq a) [] s fun i s =>
    .done (i.cmd.foldl (prefLane (Rec.of (i.b.recOf bq.toNat)) a off (accBytes size)) s)

end Sys2Proof.Machine
end

