-- ==== Sys2Proof/Machine/Matrix.lean ====
section
/-! DEFINITION. The matrix engine (15 R292-R320): claims, the baton, small operations with their checksums, drains, reads
and mask tiles. -/

namespace Sys2Proof.Machine

/-! ### Held units (15 R292, R294) -/

/-- A held accumulator, slot or mask tile of a block, freshly claimed: all zero (15 R292, R294). -/
def Acc.fresh (blk n : Nat) : Acc :=
  { blk := blk, num := n, isInt := false, nextInt := false, c := [], pr := [], pc := [], ar := [], ac := [], comp := 0,
    repl := 0 }

/-- A block holds unit n of a kind: slot 0, accumulator 1, mask 2. -/
def unitHeld (s : State) (blk kd n : Nat) : Bool :=
  match kd with
  | 0 => (getOpSlot s blk n).isSome
  | 1 => (getAcc s blk n).isSome
  | _ => (getMask s blk n).isSome
/-- Free accumulators or mask tiles of a core. -/
def unitsFree (s : State) (core kd : Nat) : Nat :=
  let on (b : Nat) : Bool := match getBlock s b with | some k => k.core == core && k.resident | none => false
  if kd = 1 then 16 - (s.accs.filter (fun a => on a.blk)).length else 4 - (s.masks.filter (fun a => on a.blk)).length
/-- Hold a run of units. -/
def holdUnits (s : State) (blk kd f n : Nat) : State :=
  let ns := (List.range n).map (f + ·)
  match kd with
  | 0 => { s with opslots := s.opslots ++ ns.map (fun k => OpSlot.mk blk k [] false) }
  | 1 => { s with accs := s.accs ++ ns.map (Acc.fresh blk) }
  | _ => { s with masks := s.masks ++ ns.map (fun k => MaskTile.mk blk k []) }
/-- Release a run of units. -/
def dropUnits (s : State) (blk kd f n : Nat) : State :=
  let inRun (b k : Nat) : Bool := b == blk && decide (f ≤ k) && decide (k < f + n)
  match kd with
  | 0 => { s with opslots := s.opslots.filter (fun a => !inRun a.blk a.num) }
  | 1 => { s with accs := s.accs.filter (fun a => !inRun a.blk a.num) }
  | _ => { s with masks := s.masks.filter (fun a => !inRun a.blk a.num) }

/-- A small operation; a wait for others. -/
def MKind.isSmall : MKind → Bool | .small _ => true | _ => false
def MKind.isSync : MKind → Bool | .sync _ => true | _ => false
/-- The accumulator of a queued operation. -/
def MKind.acc : MKind → Option Nat
  | .zero a _ => some a
  | .small o => some o.acc
  | .drain o => some o.acc
  | .mrd a _ _ => some a
  | .sync _ => none

/-- An accepted operation or copy reads or writes a unit (15 MREL, 12 R274). -/
def unitBusy (s : State) (blk kd n : Nat) : Bool :=
  s.mops.any (fun m => m.blk == blk &&
    (match kd, m.kind with
     | 0, .small o => o.aslot == n || o.bslot == n
     | 1, q => q.acc == some n
     | 2, .small o => o.mt == n + 1
     | _, _ => false)) ||
  (kd == 0 && s.copies.any (fun c => c.blk == blk && c.dk == 1 && c.tgt == n))

/-! ### MCLAIM and MREL (15 R303) -/

/-- The threads that wait in one MCLAIM. -/
def claimThreads (s : State) (no : Nat) : List Thread :=
  s.threads.filter (fun t => match t.wait with | .mclaim _ _ _ k _ => k == no | _ => false)
/-- End a waiting MCLAIM. -/
def endMclaim (s : State) (no v : Nat) : State :=
  (claimThreads s no).foldl (fun s t => match t.wait with
    | .mclaim _ _ _ _ d => modThread (deliverKept s t.blk t.gang t.lane (some d) 32 v) t.blk t.gang t.lane Thread.unwait
    | _ => s) s
/-- Issue numbers of the waiting claims of a core, oldest first. -/
def insNat (n : Nat) : List Nat → List Nat
  | [] => [n]
  | x :: t => if n < x then n :: x :: t else if n = x then x :: t else x :: insNat n t
def waitingMclaims (s : State) (core : Nat) : List (Nat × Thread) :=
  let nos := s.threads.foldl (fun acc t => match t.wait, getBlock s t.blk with
    | .mclaim _ _ _ no _, some b => if b.core = core ∧ b.resident ∧ !b.killed then insNat no acc else acc
    | _, _ => acc) []
  nos.filterMap fun no => ((claimThreads s no).head?).map (fun t => (no, t))
/-- Serve the waiting claims of a core, oldest first among those that fit (15 R303). DESIGN CHOICE (log 23): one whose numbers
the block has come to hold meanwhile ends with status 2^31 + 2, as it would have at issue. -/
def serveMclaims (s : State) (core : Nat) : State :=
  (waitingMclaims s core).foldl (fun s q => match q.2.wait with
    | .mclaim kd f n no _ =>
      if (List.range n).any (fun k => unitHeld s q.2.blk kd (f + k)) then endMclaim s no (2 ^ 31 + 2)
      else if n ≤ unitsFree s core kd then endMclaim (holdUnits s q.2.blk kd f n) no 0
      else s
    | _ => s) s

/-- Give a result to every active thread of the issue (15 R296). -/
def mtxResult (s : State) (i : Iss) (d : Reg) (v : Nat) : State :=
  i.cmd.foldl (fun s y => syncResult s i.cmd y d v) s

/-- The limit of unit numbers of a kind (15 MCLAIM). -/
def unitLimit (b : Block) (kd : Nat) : Nat := match kd with | 0 => b.slots | 1 => 16 | _ => 4

def execMclaim (k : Ctl) (kd : BitVec 2) (nb : Bool) (d a b : Reg) (s : State) : Res :=
  issue 0xA8 k [r32 a, r32 b] [r32 d] s fun i s =>
    match i.cmd.head? with
    | none => .done s
    | some x =>
      let q := kd.toNat
      let f := x.rd a 32
      let n := x.rd b 32
      let s := irrevocable s i.b.uid
      if n = 0 ∨ unitLimit i.b q < f + n then .done (mtxResult s i d (2 ^ 31 + 3))
      else if (List.range n).any (fun j => unitHeld s i.b.uid q (f + j)) then .done (mtxResult s i d (2 ^ 31 + 2))
      else if q = 0 ∨ n ≤ unitsFree s i.b.core q then .done (mtxResult (holdUnits s i.b.uid q f n) i d 0)
      else if nb then .done (mtxResult s i d (2 ^ 31 + 1))
      else .done (i.cmd.foldl (fun s y => modThread s y.t.blk y.t.gang y.t.lane
        (fun t => { t with wait := .mclaim q f n i.no d })) s)
def execMrel (k : Ctl) (kd : BitVec 2) (d a b : Reg) (s : State) : Res :=
  issue 0xA9 k [r32 a, r32 b] [r32 d] s fun i s =>
    match i.cmd.head? with
    | none => .done s
    | some x =>
      let q := kd.toNat
      let f := x.rd a 32
      let n := x.rd b 32
      let s := irrevocable s i.b.uid
      let ring : Bool := q == 0 && s.rings.any (fun r => r.blk == i.b.uid && r.kind == 1 &&
        decide (r.base < f + n) && decide (f < r.base + r.slots.length))
      if n = 0 ∨ unitLimit i.b q < f + n then .done (mtxResult s i d (2 ^ 31 + 3))
      else if (List.range n).any (fun j => !unitHeld s i.b.uid q (f + j)) then .done (mtxResult s i d (2 ^ 31 + 2))
      else if ring then .done (mtxResult s i d (2 ^ 31 + 4))
      else if (List.range n).any (fun j => unitBusy s i.b.uid q (f + j)) then .stall s
      else .done (mtxResult (serveMclaims (dropUnits s i.b.uid q f n) i.b.core) i d 0)

/-! ### The baton (15 R304, R305) -/

/-- One gang asks for the baton. -/
def askBaton (s : State) (i : Iss) (d : Reg) (x : Lane) : State :=
  let me := (x.t.blk, x.t.gang)
  let b := getBaton s i.b.core
  let ts := i.cmd.filter (fun y => y.t.gang == x.t.gang)
  let give (s : State) (v : Nat) : State := ts.foldl (fun s y => syncResult s i.cmd y d v) s
  if b.holder.isNone then give (setBaton s { b with holder := some me }) 0
  else if b.holder = some me then give s 1
  else
    let s := setBaton s { b with queue := if b.queue.contains me then b.queue else b.queue ++ [me] }
    ts.foldl (fun s y => modThread s y.t.blk y.t.gang y.t.lane (fun t => { t with wait := .baton d })) s
def execMbaton (k : Ctl) (d : Reg) (s : State) : Res :=
  issue 0xAA k [] [r32 d] s fun i s => .done ((firstLanes i.cmd).foldl (fun s x => askBaton s i d x) s)

/-- The gang holds the baton of its core. -/
def hasBaton (s : State) (x : Lane) : Bool := (getBaton s x.b.core).holder == some (x.t.blk, x.t.gang)

def execMpass (k : Ctl) (d a : Reg) (s : State) : Res :=
  issue 0xAB k [r32 a] [r32 d] s fun i s =>
    match i.cmd.head? with
    | none => .done s
    | some x =>
      if !hasBaton s x then .trap s [⟨x.t.gang, x.t.lane, { cause := 0x0F, info := 1 }⟩]
      else
        let s := syncRelease s x
        let g := x.rd a 32
        let b := getBaton s i.b.core
        if g = 0xFFFFFFFF then
          let out := match b.queue with | (q, _) :: _ => q != i.b.uid | [] => false
          let s := if out then irrevocable s i.b.uid else s
          .done (mtxResult (passBaton s i.b.core) i d (if b.queue.isEmpty then 1 else 0))
        else if (getGang s i.b.uid g).isSome then .done (mtxResult (giveBaton s i.b.core i.b.uid g) i d 0)
        else .done (mtxResult s i d (2 ^ 31 + 1))

/-! ### Exact sums and checksums (15 R309, R310) -/

def XSum.zero : XSum := .fin 0 0
def XSum.add : XSum → XSum → XSum
  | .nan, _ => .nan
  | _, .nan => .nan
  | .inf a, .inf b => if a = b then .inf a else .nan
  | .inf a, _ => .inf a
  | _, .inf b => .inf b
  | .fin m1 e1, .fin m2 e2 => let (m, e) := addDyadic m1 e1 m2 e2; .fin m e
def XSum.of : Xr → XSum
  | .zero _ => .fin 0 0
  | .fin m e => .fin m e
  | .inf s => .inf s
  | .nan => .nan
def Xr.abs : Xr → Xr
  | .zero _ => .zero false
  | .fin m e => .fin (m.natAbs : Int) e
  | .inf _ => .inf false
  | .nan => .nan

/-- An element counts in the checksum tests: computed and not replaced. -/
def Acc.counts (a : Acc) (k : Nat) : Bool := a.comp.getLsbD k && !a.repl.getLsbD k
/-- The pattern of element k = 64·m + n. -/
def Acc.elem (a : Acc) (k : Nat) : Nat := (Sparse.get 0 a.c k).toNat

/-- One row or column passes (15 R310). DESIGN CHOICE (log 23): a replaced element that holds an infinity or NaN lets its row
and column pass, as any other element of them does. -/
def lineOk (a : Acc) (mtol : W32) (ids : List Nat) (p q : XSum) : Bool :=
  let live := ids.filter a.counts
  if a.isInt then
    match p with
    | .fin m e => decide ((m * (2 : Int) ^ e.toNat - live.foldl (fun t k => t + sx 32 (a.elem k)) 0) % (2 : Int) ^ 32 = 0)
    | _ => true
  else if ids.any (fun k => match val .fp32 (a.elem k) with | .inf _ => true | .nan => true | _ => false) then true
  else
    match p, q with
    | .fin pm pe, .fin qm qe =>
      let (am, ae) := sumDyadic (live.map (fun k => val .fp32 (a.elem k)))
      let (dm, de) := addDyadic pm pe (-am) ae
      match val .fp32 mtol.toNat with
      | .inf false => true
      | .fin tm te =>
        let (bm, be) := if tm < 0 then (0, 0) else (tm * qm, te + qe)
        decide ((addDyadic (dm.natAbs : Int) de (-bm) be).1 ≤ 0)
      | _ => decide (dm = 0)
    | _, _ => true

/-- The failing row, else the failing column + 64 (15 R310). -/
def accTest (a : Acc) (mtol : W32) : Option Nat :=
  let row (m : Nat) : List Nat := (List.range 64).map (fun n => 64 * m + n)
  let col (n : Nat) : List Nat := (List.range 64).map (fun m => 64 * m + n)
  match (List.range 64).find? (fun m => !lineOk a mtol (row m) (Sparse.get XSum.zero a.pr m) (Sparse.get XSum.zero a.ar m)) with
  | some m => some m
  | none => ((List.range 64).find? (fun n =>
      !lineOk a mtol (col n) (Sparse.get XSum.zero a.pc n) (Sparse.get XSum.zero a.ac n))).map (· + 64)

/-! ### Small operations (15 R293, R299, R300) -/

/-- Row or column r of a slot as one number of 1,024 bits. -/
def slotLine (d : Sparse Byte) (r : Nat) : Nat :=
  d.foldl (fun t e => if e.1 / 128 = r then t + e.2.toNat * 2 ^ (8 * (e.1 % 128)) else t) 0
/-- The blocks of 16 elements of a line, as patterns. -/
def lineBlocks (f : Fmt) (v : Nat) : List (List Nat) :=
  let k := 1024 / f.bits
  (List.range (k / 16)).map fun j => elems f.bits 16 (v / 2 ^ (16 * f.bits * j))

/-- What a small operation does to one element. -/
structure ElemRes where
  c : Nat
  computed : Bool
  replaced : Bool
  v : XSum
  a : XSum

/-- Accumulate one block (15 R299, R140), with its checksum contributions (R309). -/
def accBlock (f : Fmt) (r : ElemRes) (xs ys : List Nat) (sa sb : Nat) : ElemRes :=
  if f.isInt then
    let ps := (xs.zip ys).map (fun p => sx f.bits p.1 * sx f.bits p.2)
    { r with c := lowBits 32 (r.c + ps.sum), v := r.v.add (.fin ps.sum 0),
             a := r.a.add (.fin ((ps.map Int.natAbs).sum : Nat) 0) }
  else if sa = 0xFF ∨ sb = 0xFF then { r with c := Fmt.canNan .fp32 }
  else
    let k : Int := (sa : Int) + sb - 254
    let ps := (xs.map (val f)).zip (ys.map (val f))
    let t := ((exactSum ps).1).scale k
    let u := ((exactSum (ps.map fun p => (p.1.abs, p.2.abs))).1).scale k
    { r with c := (round .fp32 0 (xadd 0 (val .fp32 r.c) t).1).1, v := r.v.add (XSum.of t), a := r.a.add (XSum.of u) }

/-- The scale of block k of a row or column r: `half` is 0 for A, 32 for B (15 R300). -/
def SmallOp.scale (o : SmallOp) (half r k : Nat) : Nat :=
  match o.scales with
  | none => 127
  | some ls => byteOf (((ls.getD (r % 8) []).getD (half + 4 * (r / 8) + k / 4) 0x7F7F7F7F).toNat) (k % 4)
/-- An element is masked (15 R299). -/
def SmallOp.masked (o : SmallOp) (mask : Option MaskTile) (m n : Nat) : Bool :=
  let rorg : Int := natBits o.s1.toNat 0 32
  let corg : Int := natBits o.s1.toNat 32 32
  (o.tri && decide (sx 32 (natBits o.s2.toNat 0 32) < (corg + n) - (rorg + m))) ||
  (match mask with | some t => !(Sparse.get 0 t.rows m).getLsbD n | none => false)

/-- The new element (m, n). -/
def smallElem (o : SmallOp) (mask : Option MaskTile) (c : Nat) (as bs : List (List Nat)) (m n : Nat) : ElemRes :=
  if o.masked mask m n then
    { c := natBits o.s2.toNat 32 32, computed := false, replaced := true, v := XSum.zero, a := XSum.zero }
  else
    ((as.zip bs).zip (List.range as.length)).foldl
      (fun r p => accBlock o.fmt r p.1.1 p.1.2 (o.scale 0 m p.2) (o.scale 32 n p.2))
      { c := c, computed := true, replaced := false, v := XSum.zero, a := XSum.zero }

/-- A sparse map of n entries from a list of values. -/
def Sparse.tab {β : Type} [DecidableEq β] (d : β) (xs : List β) : Sparse β :=
  (xs.zip (List.range xs.length)).filterMap fun p => if p.1 = d then none else some (p.2, p.1)
/-- The bits of a list of Booleans. -/
def bitsOf (xs : List Bool) : Nat := xs.foldr (fun b t => b2n b + 2 * t) 0

/-- The accumulator after a small operation. -/
def smallAcc (o : SmallOp) (acc : Acc) (a b : OpSlot) (mask : Option MaskTile) : Acc :=
  let rowsA := (List.range 64).map (fun r => lineBlocks o.fmt (slotLine a.data r))
  let colsB := (List.range 64).map (fun r => lineBlocks o.fmt (slotLine b.data r))
  let old := (List.range 4096).map acc.elem
  let on (m : Nat) : Bool := match o.rows with | some w => w.getLsbD m | none => true
  let els := (List.range 4096).map fun k =>
    let c := old.getD k 0
    if on (k / 64) then smallElem o mask c (rowsA.getD (k / 64) []) (colsB.getD (k % 64) []) (k / 64) (k % 64)
    else { c := c, computed := false, replaced := false, v := XSum.zero, a := XSum.zero }
  let rowSum (f : ElemRes → XSum) (t : Sparse XSum) : Sparse XSum :=
    Sparse.tab XSum.zero ((List.range 64).map fun m =>
      ((els.drop (64 * m)).take 64).foldl (fun x r => x.add (f r)) (Sparse.get XSum.zero t m))
  let colSum (f : ElemRes → XSum) (t : Sparse XSum) : Sparse XSum :=
    Sparse.tab XSum.zero ((List.range 64).map fun n =>
      ((List.range 64).map (fun m => els.getD (64 * m + n) ⟨0, false, false, XSum.zero, XSum.zero⟩)).foldl
        (fun x r => x.add (f r)) (Sparse.get XSum.zero t n))
  let flip : Nat := if o.flip then 2 ^ 30 else 0
  { acc with
    c := Sparse.tab 0 ((els.zip (List.range 4096)).map fun p =>
      BitVec.ofNat 32 (if p.2 = 0 then p.1.c ^^^ flip else p.1.c)),
    pr := rowSum ElemRes.v acc.pr, pc := colSum ElemRes.v acc.pc,
    ar := rowSum ElemRes.a acc.ar, ac := colSum ElemRes.a acc.ac,
    comp := acc.comp ||| BitVec.ofNat 4096 (bitsOf (els.map ElemRes.computed)),
    repl := acc.repl ||| BitVec.ofNat 4096 (bitsOf (els.map ElemRes.replaced)) }

/-- The opcode of a small operation by its format (15 R296). -/
def mmaOp : Fmt → Nat
  | .bf16 => 0xAD | .fp16 => 0xAE | .e4m3 => 0xAF | .e5m2 => 0xB0 | .e2m1 => 0xB1 | .i8 => 0xB2 | _ => 0xB3
/-- The opcode of a queued operation. -/
def MKind.op : MKind → Nat
  | .zero .. => 0xAC | .small o => mmaOp o.fmt | .drain _ => 0xB4 | .mrd .. => 0xB5 | .sync _ => 0xB7
/-- The storage that a queued operation reads. -/
def MKind.place (k : MKind) : ErrAt → Bool :=
  fun e => match k, e with
    | .small o, .opmem n _ => n == o.aslot || n == o.bslot
    | .small o, .acc n => n == o.acc
    | .small o, .mask n => o.mt == n + 1
    | .drain o, .acc n => n == o.acc
    | .mrd a _ _, .acc n => n == a
    | _, _ => false
/-- The errors in operand memory, accumulators and mask tiles that an operation meets: the double one to raise, if any, and
the state with the single ones corrected (21 R368). -/
def mopEcc (s : State) (m : MOp) : Option Flt × State :=
  match getBlock s m.blk with
  | none => (none, s)
  | some b =>
    let es := errsAt b m.kind.place true
    if es.isEmpty then (none, correctErrs s b m.kind.op m.pc m.gang m.lane (errsAt b m.kind.place false))
    else (some (errFlt b es 0), s)
/-- A machine check of a queued operation against its block. -/
def mopCheck (s : State) (m : MOp) (f : Flt) (acc rc : Nat) : State :=
  addMcheck s m.blk { cycle := 0, cause := BitVec.ofNat 8 f.cause, pc := m.pc, addr := 0, gang := m.gang, lane := m.lane, op := m.kind.op,
                      unit := f.unit, check := f.check, acc := acc, rc := rc, ladder := f.ladder, residue := none }
/-- A mismatch of the residue that the matrix array predicts (21 R368, R371). -/
def arrayFlt (s : State) (m : MOp) : Option Flt :=
  if (getBlock s m.blk).any (fun b => b.errs.any (fun e => e.place == .arrayPath)) then some { cause := 0x20, unit := 5, check := 0 }
  else none
/-- Run one small operation on the units of its block (15 R302); an error in them or in the array is raised, and nothing is
written. -/
def runSmall (s : State) (m : MOp) (o : SmallOp) : State :=
  match mopEcc s m with
  | (some f, s) => mopCheck s m f 0 0
  | (none, s) =>
  match arrayFlt s m with
  | some f => mopCheck (healErrs s m.blk (· == .arrayPath)) m f 0 0
  | none =>
  match getAcc s m.blk o.acc, getOpSlot s m.blk o.aslot, getOpSlot s m.blk o.bslot with
  | some acc, some a, some b =>
    let mask := if o.mt = 0 then none else getMask s m.blk (o.mt - 1)
    modAcc (noteAcc s m.blk o.acc) m.blk o.acc (fun _ => smallAcc o acc a b mask)
  | _, _, _ => s

/-! ### The queue (15 R301, R302) -/

/-- Every operation on the same accumulator of the block that was accepted before an operation has completed. -/
def mopReady (s : State) (m : MOp) : Bool :=
  (s.mops.takeWhile (fun q => q.id != m.id)).all fun q => !(q.blk == m.blk && q.kind.acc == m.kind.acc)
def getMop (s : State) (id : Nat) : Option MOp := s.mops.find? (fun m => m.id == id)
def dropMop (s : State) (id : Nat) : State := { s with mops := s.mops.filter (fun m => m.id != id) }
/-- The MX class of an operation ends for its threads. -/
def endMx (s : State) (id : Nat) : State :=
  { s with outst := s.outst.filter (fun o => match o.op with | .matrix m _ => m != id | _ => true) }

/-- A failed checksum test (15 R310): a machine check against the block. -/
def mxck (s : State) (m : MOp) (acc rc : Nat) : State := mopCheck s m { cause := 0x21, unit := 5, check := 5 } acc rc

/-- Clear an accumulator (15 R311). -/
def runZero (s : State) (blk acc : Nat) (int : Bool) : State :=
  healErrs (modAcc (noteAcc s blk acc) blk acc (fun a => { Acc.fresh blk acc with isInt := int, nextInt := a.nextInt })) blk
    (· == .acc acc)

/-- Read elements for the threads of an MRD: the checksums once, then each element (15 R316). -/
def runMrd (s : State) (m : MOp) (acc : Nat) (mtol : W32) (els : List (Nat × Nat × Reg × Nat)) : State :=
  match mopEcc s m with
  | (some f, s) => mopCheck (dropMop s m.id) m f 0 0
  | (none, s) =>
  match getAcc s m.blk acc with
  | none => endMx (dropMop s m.id) m.id
  | some a =>
    match accTest a mtol with
    | some rc => mxck (dropMop s m.id) m acc rc
    | none =>
      dropMop { s with outst := s.outst.map fun o => match o.op with
        | .matrix id (some d) =>
          if id = m.id then
            match els.find? (fun e => e.1 == o.gang && e.2.1 == o.lane) with
            | some e => { o with op := .reply d (if e.2.2.1 = d then 32 else 0) (BitVec.ofNat 64 (a.elem e.2.2.2)) none }
            | none => o
          else o
        | _ => o } m.id

/-- Operations that need no array and no memory run as soon as their turn comes; a sync ends when what it covers has. -/
def settleMop (s : State) (m : MOp) : State :=
  match m.kind with
  | .zero acc int => if mopReady s m then dropMop (runZero s m.blk acc int) m.id else s
  | .mrd acc mtol els => if mopReady s m then runMrd s m acc mtol els else s
  | .sync ids => if ids.all (fun k => (getMop s k).isNone) then endMx (dropMop s m.id) m.id else s
  | _ => s
/-- After operations have ended: what waited for them goes on, exits too (06 R123). -/
def settleMtx (s : State) : State := settleExits (unstall (s.mops.foldl (fun s m => settleMop s m) s))

/-- Queue an operation of the matrix engine. One that a killed block issues before its kill point is abandoned (15 R318). -/
def addMop (s : State) (x : Lane) (pc : W64) (k : MKind) : Nat × State :=
  let (id, s) := fresh s
  let m : MOp := { id := id, core := x.b.core, blk := x.t.blk, gang := x.t.gang, lane := x.t.lane, pc := pc, interval := true,
                   kind := k }
  (id, if isKilled s x.t.blk then s else { s with mops := s.mops ++ [m] })

/-- The threads of an issue have an operation outstanding in class MX; an abandoned one is over (15 R318). -/
def awaitMop (s : State) (i : Iss) (id : Nat) (d : Option Reg) : State :=
  if isKilled s i.b.uid then s
  else i.cmd.foldl (fun s y => (addOutst s i.no y .mx (.matrix id d) false false).2) s

/-- A SLOT fault of 15 R298. -/
def mtxSlot (code n : Nat) : Flt := { cause := 0x0E, info := code + 256 * n }

def execMzero (k : Ctl) (ik : Bool) (d : Reg) (s : State) : Res :=
  issue 0xAC k [] [] s fun i s =>
    match i.cmd.head? with
    | none => .done s
    | some x =>
      let n := d.toNat
      if (getAcc s i.b.uid n).isNone then .trap s [⟨x.t.gang, x.t.lane, mtxSlot 2 n⟩]
      else
        let s := modAcc s i.b.uid n (fun a => { a with nextInt := ik })
        .done (settleMtx (addMop s x i.pc (.zero n ik)).2)

/-! ### MMA (15 R297, R298, R307) -/

/-- Check the operand word of one quarter (15 R298 step 3). -/
def mmaCheck (s : State) (i : Iss) (f : Fmt) (mt : Nat) (w : Nat) : Option Flt :=
  let a := natBits w 0 6
  let b := natBits w 8 6
  let acc := natBits w 16 4
  if natBits w 20 12 ≠ 0 ∨ natBits w 14 2 ≠ 0 ∨ natBits w 6 2 ≠ 0 then some (mtxSlot 5 0)
  else if !unitHeld s i.b.uid 0 a then some (mtxSlot 1 a)
  else if !unitHeld s i.b.uid 0 b then some (mtxSlot 1 b)
  else
    match getAcc s i.b.uid acc with
    | none => some (mtxSlot 2 acc)
    | some q =>
      if mt ≠ 0 ∧ !unitHeld s i.b.uid 2 (mt - 1) then some (mtxSlot 3 (mt - 1))
      else if q.nextInt != f.isInt then some (mtxSlot 4 acc)
      else none

/-- The block of an operation is on its core. -/
def mopHere (s : State) (m : MOp) : Bool := match getBlock s m.blk with | some b => b.resident | none => false

/-- The scale registers of the 8 lane positions of a quarter; unit scale where there is no thread (15 R300). -/
def quarterScales (i : Iss) (c : Reg) (q : Nat) : List (List W32) :=
  (List.range 8).map fun r => (List.range 64).map fun j =>
    match i.all.find? (fun x => x.t.lane == 8 * q + r) with
    | some x => BitVec.ofNat 32 (x.v (c.toNat + j))
    | none => 0x7F7F7F7F

/-- What an MMA raises, each thread its own first failure (15 R298, 08 R163): a quarter's thread that lacks the baton, every
thread of the bundle whose gang lacks a scale register, a quarter's thread with a bad operand word. -/
def mmaFaults (s : State) (i : Iss) (f : Fmt) (sc : Bool) (mt : Nat) (a c : Reg) : List LaneFlt :=
  let qs := quarterLanes i.cmd
  let baton := (qs.filter (fun q => !hasBaton s q.2)).map (fun q => LaneFlt.mk q.2.t.gang q.2.t.lane { cause := 0x0F })
  let range := if sc then (i.all.filter (fun l => outOfRange l.g ⟨c, 64⟩)).map
    (fun l => LaneFlt.mk l.t.gang l.t.lane { cause := 0x16 }) else []
  let words := qs.filterMap fun q => (mmaCheck s i f mt (q.2.rd a 32)).map (fun e => LaneFlt.mk q.2.t.gang q.2.t.lane e)
  let new (old : List LaneFlt) (fs : List LaneFlt) : List LaneFlt :=
    old ++ fs.filter (fun x => !old.any (fun y => y.gang == x.gang && y.lane == x.lane))
  new (new baton range) words
/-- The s registers that each quarter's thread reads beside its operand word: row mask and mask parameters (15 R297). -/
def quarterSrc (rk tr : Bool) (mt : BitVec 3) (b x : Reg) : List RG :=
  (if rk then [r64 b] else []) ++ if tr || mt != 0 then [⟨x, 4⟩] else []
/-- The lanes that read groups of an MMA beside the operand word, with the groups: the scale registers of every thread,
whatever its guard (15 R300), and the s registers of each quarter's thread. -/
def mmaReads (i : Iss) (sc rk tr : Bool) (mt : BitVec 3) (b c x : Reg) : List (Lane × List RG) :=
  let qs := quarterLanes i.cmd
  (if sc && !qs.isEmpty then i.all.map (fun l => (l, [⟨c, 64⟩])) else []) ++ qs.map (fun q => (q.2, quarterSrc rk tr mt b x))
/-- The errors of what those lanes read, where the pairs of a protected block agree on the scales (05 R101, 21 R368). -/
def mmaErrors (i : Iss) (sc : Bool) (c : Reg) (rs : List (Lane × List RG)) : List LaneFlt :=
  let pf := if i.b.protectd && sc && !i.cmd.isEmpty then pairFaults i.all always i.op [⟨c, 64⟩] else []
  if !pf.isEmpty then pf
  else (rs.filter (fun r => !(meets i.b always r.1 r.2 true).none)).map
    (fun r => ⟨r.1.t.gang, r.1.t.lane, (meets i.b always r.1 r.2 true).flt i.b⟩)
/-- An MMA of a format: one small operation for each active quarter. -/
def mma (op : Nat) (f : Fmt) (k : Ctl) (sc rk tr : Bool) (mt : BitVec 3) (a b c : Reg) (x : BitVec 8) (s : State) : Res :=
  issue op k [r32 a] [] s fun i s =>
    let qs := quarterLanes i.cmd
    let fs := mmaFaults s i f sc mt.toNat a c
    let rs := mmaReads i sc rk tr mt b c x
    let es := mmaErrors i sc c rs
    if !fs.isEmpty then .trap s fs
    else if !es.isEmpty then .trap s es
    else if 64 < (s.mops.filter (fun m => m.core == i.b.core && mopHere s m && m.kind.isSmall)).length + qs.length then .stall s
    else
      let s := rs.foldl (fun s r => correctMet s i.b always op i.pc [r.1] r.2) s
      .done (qs.foldl (fun s q =>
        let l := q.2
        let w := l.rd a 32
        let sreg (r : Nat) : W64 := BitVec.ofNat 64 (l.s (r - 192))
        let o : SmallOp :=
          { fmt := f, aslot := natBits w 0 6, bslot := natBits w 8 6, acc := natBits w 16 4,
            rows := if rk then some (sreg b.toNat) else none, tri := tr, mt := mt.toNat,
            s1 := if tr || mt != 0 then sreg x.toNat else 0, s2 := if tr || mt != 0 then sreg (x.toNat + 1) else 0,
            scales := if sc then some (quarterScales i c q.1) else none,
            flip := i.mxflip == some (l.t.gang, l.t.lane) }
        (addMop s l i.pc (.small o)).2) s)

def execMmaBf16 (k : Ctl) (sc rk tr : Bool) (mt : BitVec 3) (a b c : Reg) (x : BitVec 8) (s : State) : Res :=
  mma 0xAD .bf16 k sc rk tr mt a b c x s
def execMmaF16 (k : Ctl) (sc rk tr : Bool) (mt : BitVec 3) (a b c : Reg) (x : BitVec 8) (s : State) : Res :=
  mma 0xAE .fp16 k sc rk tr mt a b c x s
def execMmaE4m3 (k : Ctl) (sc rk tr : Bool) (mt : BitVec 3) (a b c : Reg) (x : BitVec 8) (s : State) : Res :=
  mma 0xAF .e4m3 k sc rk tr mt a b c x s
def execMmaE5m2 (k : Ctl) (sc rk tr : Bool) (mt : BitVec 3) (a b c : Reg) (x : BitVec 8) (s : State) : Res :=
  mma 0xB0 .e5m2 k sc rk tr mt a b c x s
def execMmaE2m1 (k : Ctl) (sc rk tr : Bool) (mt : BitVec 3) (a b c : Reg) (x : BitVec 8) (s : State) : Res :=
  mma 0xB1 .e2m1 k sc rk tr mt a b c x s
def execMmaI8 (k : Ctl) (sc rk tr : Bool) (mt : BitVec 3) (a b c : Reg) (x : BitVec 8) (s : State) : Res :=
  mma 0xB2 .i8 k sc rk tr mt a b c x s
def execMmaI4 (k : Ctl) (sc rk tr : Bool) (mt : BitVec 3) (a b c : Reg) (x : BitVec 8) (s : State) : Res :=
  mma 0xB3 .i4 k sc rk tr mt a b c x s

/-! ### Mask tiles (15 R308) -/

/-- The ancestors of node m of a parent array, m included, as bits. -/
def ancestors (ps : List Nat) : Nat → Nat → Nat
  | 0, m => 2 ^ m
  | f + 1, m => let p := ps.getD m 0xFF; if p = 0xFF then 2 ^ m else 2 ^ m ||| ancestors ps f p
/-- The rows of a tree mask. -/
def treeRows (ps : List Nat) : List W64 := (List.range ps.length).map fun m => BitVec.ofNat 64 (ancestors ps ps.length m)

/-- The bytes that MMASK reads lie outside the scratchpad, or are misplaced (15 R308). -/
def maskBounds (i : Iss) (x : Lane) (pa : Bool) (a b : Reg) : Bool :=
  if pa then x.rd b 32 == 0 || decide (64 < x.rd b 32) || decide (i.b.ssize < x.rd a 32 + x.rd b 32)
  else x.rd a 32 % 8 != 0 || decide (i.b.ssize < x.rd a 32 + 512)
/-- The first node of a parent array whose parent stands at or after it (15 R308). -/
def badParent (ps : List Nat) (len : Nat) : Option Nat :=
  (List.range len).find? (fun j => ps.getD j 0xFF != 0xFF && decide (j ≤ ps.getD j 0xFF))
/-- The bytes of MMASK are read, and the tile takes its rows (15 R308). -/
def loadMask (i : Iss) (x : Lane) (pa : Bool) (t off len : Nat) (s : State) : State :=
  let s := readList s i x off len
  let bytes := readScratch s i.b.uid off len
  let rows := if pa then treeRows (bytes.map BitVec.toNat)
    else (List.range 64).map (fun m => BitVec.ofNat 64 (leVal ((bytes.drop (8 * m)).take 8)))
  let s := noteMask s i.b.uid t
  healErrs { s with masks := updWhere s.masks (fun q => q.blk == i.b.uid && q.num == t)
                               (fun q => { q with rows := Sparse.tab 0 rows }) } i.b.uid (· == .mask t)
/-- The first check of MMASK that fails (15 R308). -/
def maskCheck (i : Iss) (x : Lane) (pa : Bool) (t : Nat) (a b : Reg) (s : State) : Option Flt :=
  let off := x.rd a 32
  let len := if pa then x.rd b 32 else 512
  if !unitHeld s i.b.uid 2 t then some (mtxSlot 3 t)
  else if maskBounds i x pa a b then some { cause := 0x06, info := off }
  else
    ((List.range len).findSome? (fun j => scratchChecks s x listRec (off + j) 1 plainRead i.no)).or <|
    (scratchEcc x.b off len plainRead).or <|
    if pa then (badParent ((readScratch s i.b.uid off len).map BitVec.toNat) len).map (fun j => { cause := 0x10, info := j })
    else none
/-- MMASK: it reads what its thread has stored to the bytes before (08 R171, R175). -/
def execMmask (k : Ctl) (pa : Bool) (d a b : Reg) (s : State) : Res :=
  issue 0xB6 k (r32 a :: if pa then [r32 b] else []) [] s fun i s =>
    match i.cmd.head? with
    | none => .done s
    | some x =>
      let off := x.rd a 32
      let len := if pa then x.rd b 32 else 512
      let s := drainBytes s x.t.blk x.t.gang x.t.lane (.scratch x.t.blk) off len
      match maskCheck i x pa d.toNat a b s with
      | some f => .trap s [⟨x.t.gang, x.t.lane, f⟩]
      | none => .done (loadMask i x pa d.toNat off len s)

/-! ### Drains (15 R312-R315) -/

/-- The record formats of a drain by kind (15 R312). -/
def drainFmt (int : Bool) (f : Nat) : Bool :=
  if int then f == 0x10 || f == 0x11 || f == 0x02 || f == 0x0B || f == 0x0C
  else f == 0x05 || f == 0x02 || f == 0x06 || f == 0x07 || f == 0x08 || f == 0x09
/-- The formats of an add-on drain. -/
def drainAddFmt (f : Nat) : Bool := f == 0x05 || f == 0x06 || f == 0x07 || f == 0x10 || f == 0x11
/-- CONV (15 R312). -/
def conv (int : Bool) (f c : Nat) : Nat :=
  if int then
    match f with
    | 0x0B => (sat .i8 0 (val .i32 c)).1
    | 0x0C => (sat .z8 0 (val .i32 c)).1
    | _ => c
  else
    match fmtOf f with
    | some .fp16 => (round .fp16 0 (val .fp32 c)).1
    | some .bf16 => (round .bf16 0 (val .fp32 c)).1
    | some .e4m3 => (sat .e4m3 0 (val .fp32 c)).1
    | some .e5m2 => (round .e5m2 0 (val .fp32 c)).1
    | _ => c

/-- The selected rows. -/
def DrainOp.rows (o : DrainOp) : List Nat := (List.range 64).filter (fun m => o.rmask.getLsbD m)
/-- The place of element (m, n) before translation. -/
def DrainOp.place (o : DrainOp) (blk m n : Nat) : Except Flt CPlace :=
  let r := Rec.of o.drec
  recPlace blk r (o.i + n, o.j + m) (fmtW r.fmt)

/-- The checks of R313. -/
def drainCheck (s : State) (x : Lane) (o : DrainOp) (a : Reg) : Option Flt :=
  let r := Rec.of o.drec
  let w := fmtW r.fmt
  match getAcc s x.b.uid o.acc with
  | none => some (mtxSlot 2 o.acc)
  | some q =>
    let els := o.rows.flatMap fun m => (List.range 64).map fun n => (m, n)
    if !drainFmt q.nextInt r.fmt then some { cause := 0x07, info := 7, tag := r.tag }
    else if o.ad && !drainAddFmt r.fmt then some { cause := 0x07, info := 6, tag := r.tag }
    else if r.ext1 ≠ 0 ∧ a = 191 then some { cause := 0x07, tag := r.tag }
    else
      let out := els.findSome? fun p =>
        match fixIdx (o.i + p.2) r.ext0 r.bnd with
        | .error f => some f
        | .ok _ => match fixIdx (o.j + p.1) (if r.ext1 = 0 then 1 else r.ext1) r.bnd with
          | .error f => some f
          | .ok _ => none
      match out with
      | some f => some (f.tagged r)
      | none =>
        if r.base % w ≠ 0 ∨ r.stride0 % w ≠ 0 ∨ r.stride1 % w ≠ 0 then some { cause := 0x08, tag := r.tag }
        else if r.ro then some { cause := 0x0A, tag := r.tag, kind := if o.ad then 2 else 1 }
        else if s.bars.all (fun q => q.ref.grp || q.ref.blk != x.b.uid) then none
        else els.findSome? fun p => match o.place x.b.uid p.1 p.2 with
          | .ok (.mem (.scratch k) off _) =>
            (typedBlockAt s k off w).map (fun q => { cause := 0x0C, info := withCode q.ref.addr 1, tag := r.tag })
          | _ => none

/-- The register group of MDRAIN: two registers where the record has two dimensions (15 R312). -/
def drainSrc (s : State) (d a : Reg) : List RG :=
  let two : Bool := match (getBundle s s.cur).bind (fun q => getBlock s q.blk) with
    | some q => (Rec.of (q.recOf d.toNat)).ext1 != 0 && a != 191
    | none => false
  [⟨a, if two then 2 else 1⟩, rRec d.toNat]
/-- The operation that MDRAIN queues (15 R312). -/
def drainOf (i : Iss) (l : Lane) (ad rk : Bool) (d a b : Reg) (x : BitVec 8) : DrainOp :=
  { word := i.word, pc := i.pc, drec := i.b.recOf d.toNat, i := l.rd a 32,
    j := if (Rec.of (i.b.recOf d.toNat)).ext1 = 0 then 0
         else if a.toNat < 192 then l.v (a.toNat + 1) else l.s (a.toNat - 192) / 2 ^ 32,
    acc := x.toNat % 16, rmask := if rk then BitVec.ofNat 64 (l.s (b.toNat - 192)) else BitVec.allOnes 64,
    ad := ad, mtol := i.b.mtol, done := 0, fault := none }
def execMdrain (k : Ctl) (ad rk : Bool) (d a b : Reg) (x : BitVec 8) (s : State) : Res :=
  issue 0xB4 k (drainSrc s d a) [] s fun i s =>
    match i.cmd.head? with
    | none => .done s
    | some l => readOne i l (if rk then [r64 b] else []) s fun s =>
      match drainCheck s l (drainOf i l ad rk d a b x) a with
      | some f => .trap s [⟨l.t.gang, l.t.lane, f⟩]
      | none =>
        let s := if (Rec.of (i.b.recOf d.toNat)).spc then s else irrevocable s i.b.uid
        let (id, s) := addMop s l i.pc (.drain (drainOf i l ad rk d a b x))
        .done (awaitMop s i id none)

/-- An operation is done with: it leaves the queue and its MX class ends. -/
def endMop (s : State) (m : MOp) : State := settleMtx (endMx (dropMop s m.id) m.id)
/-- A drain stops with what stopped it, and with the rows translated so far. One of a killed block is abandoned there
(01 R14, 15 R318). -/
def haltDrain (s : State) (m : MOp) (o : DrainOp) (done : Nat) (f : Flt) : State :=
  if isKilled s m.blk then endMop s m
  else { s with mops := updWhere s.mops (fun q => q.id == m.id)
                          (fun q => { q with kind := .drain { o with done := done, fault := some (f.toRec m.pc) } }) }

/-- Stop a drain at a fault (15 R314): nothing is written. -/
def stopDrain (s : State) (m : MOp) (o : DrainOp) (done : Nat) (f : Flt) : State :=
  let f := { f with tag := (Rec.of o.drec).tag }
  let s := haltDrain s m o done f
  if 0x20 ≤ f.cause then
    addMcheck s m.blk { cycle := 0, cause := BitVec.ofNat 8 f.cause, pc := m.pc, addr := BitVec.ofNat 64 f.info, gang := m.gang,
                        lane := m.lane, op := 0xB4, unit := f.unit, check := f.check, acc := 0, rc := 0, ladder := f.ladder,
                        residue := none }
  else askSave s m.blk { reason := if f.cause = 0x09 then 1 else 3, first := some (m.gang, m.lane, f.toRec m.pc),
                         fromPreempt := false, bounded := false }

/-- The party of a drain's access at an address: its MDRAIN (21 R370, R371). -/
def MOp.party (m : MOp) (b : Block) (va : Nat) : McRec := partyOf b 0xB4 m.pc m.gang m.lane va
/-- Translate the elements of rows in order: the places, or the fault with the rows done before it. -/
def drainXlate (s : State) (b : Block) (m : MOp) (o : DrainOp) : List Nat → Except Flt (List (Nat × Nat × CPlace)) × Nat × State
  | [] => (.ok [], 0, s)
  | k :: t =>
    let row := (List.range 64).foldl (fun (acc : Except Flt (List (Nat × Nat × CPlace)) × State) n =>
      match acc.1 with
      | .error f => (.error f, acc.2)
      | .ok ps => match placeXlate acc.2 b (m.party b) (if o.ad then 2 else 1) (o.place b.uid k n) with
        | (.ok p, s) => (.ok (ps ++ [(k, n, p)]), s)
        | (.error f, s) => (.error f, s)) (.ok [], s)
    match row with
    | (.error f, s) => (.error f, 0, s)
    | (.ok ps, s) =>
      match drainXlate s b m o t with
      | (.ok qs, n, s) => (.ok (ps ++ qs), n + 1, s)
      | (.error f, n, s) => (.error f, n + 1, s)

/-- What the thread of a drain has issued before it to the bytes that it writes is performed first (08 R171). -/
def drainOlder (s : State) (m : MOp) (w : Nat) (els : List (Nat × Nat × CPlace)) : State :=
  let hit (q : Outst) : Bool := q.blk == m.blk && q.gang == m.gang && q.lane == m.lane && els.any fun e =>
    match e.2.2, q.span with
    | .mem sp a _, some (t, b, n) => sp == t && decide (a < b + n) && decide (b < a + w)
    | _, _ => false
  match (s.outst.takeWhile (fun q => q.op != .matrix m.id none)).filter hit with
  | [] => s
  | qs => sweepFences (qs.foldl (fun s q => force (s.outst.length + 1) s q.id) s)
/-- Write the tile: each element is a write of the issuing thread (15 R315). -/
def drainWrite (s : State) (x : Lane) (m : MOp) (o : DrainOp) (a : Acc) (no : Nat) (els : List (Nat × Nat × CPlace)) : State :=
  let r := Rec.of o.drec
  let w := fmtW r.fmt
  els.foldl (fun s e =>
    let y := conv a.isInt r.fmt (a.elem (64 * e.1 + e.2.1))
    match e.2.2 with
    | .mem sp addr va =>
      let s := if o.ad then e.2.2.correct s x.b (m.party x.b 0) w else s
      let v := if o.ad then addon 1 r.fmt w (leVal (readSpace s m.blk sp addr w)) y else y
      let s := match sp with
        | .scratch k => writeScratch s k addr (leBytes w v)
        | .glob => storeGlobal s m.blk m.gang m.lane addr (leBytes w v)
            { va := BitVec.ofNat 64 va, pc := m.pc, op := 0xB4, tag := BitVec.ofNat 16 r.tag, size := Nat.log2 w, no := 0,
              mark := if isChecked x.b r then some { blk := m.blk, count := x.b.rel, atomic := false, rel := none } else none }
      elemTag s x r e.2.2 w true no
    | _ => s) s

/-- DRAIN_EXECUTE of a drain whose turn has come: the checksums, the translations, then the tile (15 R310, R314). -/
def runDrain (s : State) (m : MOp) (o : DrainOp) : State :=
  let r := Rec.of o.drec
  let w := fmtW r.fmt
  let stub : CopyCmd :=
    { id := 0, core := m.core, blk := m.blk, gang := m.gang, lane := m.lane, batch := none, word := 0, pc := m.pc, srec := 0,
      drec := o.drec, tgt := 0, sorig := 0, dorig := 0, shape := 0, list := [], needs := [], started := false, slot := none,
      opened := 0, flying := [], ahead := [], fill := 0, bar := none, fault := none, interval := false }
  match mopEcc s m with
  | (some f, s) => mopCheck (haltDrain s m o o.done { cause := 0x23 }) m f 0 0
  | (none, s) =>
  match getAcc s m.blk o.acc, copyLane s stub with
  | some a, some x =>
    match accTest a o.mtol with
    | some rc => mxck (haltDrain s m o o.done { cause := 0x21 }) m o.acc rc
    | none =>
      let rows := o.rows.drop o.done ++ o.rows.take o.done
      match drainXlate s x.b m o rows with
      | (.error f, k, s) => stopDrain s m o (min (o.done + k) o.rows.length) f
      | (.ok els, _, s) =>
        let s := els.foldl (fun s e => e.2.2.meet s (m.party x.b)) (drainOlder s m w els)
        let no := s.issueNo + 1
        let mode : AMode := { kind := if o.ad then 2 else 1, writes := true, plain := true, cas := none }
        match els.findSome? (fun e => elemCheck s x r e.2.2 w mode false no) with
        | some f => stopDrain s m o o.rows.length { f with kind := mode.kind }
        | none => endMop (drainWrite { s with issueNo := no } x m o a no els) m
  | _, _ => endMop s m

/-! ### MRD and MSYNC (15 R316, R317) -/

def execMrd (k : Ctl) (d a : Reg) (x : BitVec 8) (s : State) : Res :=
  issue 0xB5 k [r32 a] [r32 d] s fun i s =>
    match i.cmd.head? with
    | none => .done s
    | some l =>
      let acc := x.toNat % 16
      if (getAcc s i.b.uid acc).isNone then
        .trap s (i.cmd.map fun y => ⟨y.t.gang, y.t.lane, mtxSlot 2 acc⟩)
      else
        let els := i.cmd.map fun y =>
          let w := y.rd a 32
          (y.t.gang, y.t.lane, (if d.toNat < 192 || firstOfGang i.cmd y then d else d + 1), 64 * natBits w 8 6 + natBits w 0 6)
        let (id, s) := addMop s l i.pc (.mrd acc i.b.mtol els)
        .done (settleMtx (awaitMop s i id (some d)))

def execMsync (k : Ctl) (bk : Bool) (s : State) : Res :=
  issue 0xB7 k [] [] s fun i s =>
    match i.cmd.head? with
    | none => .done s
    | some l =>
      let ids := (s.mops.filter (fun m => m.blk == i.b.uid && (bk || m.gang == l.t.gang) &&
        !m.kind.isSync)).map MOp.id
      if ids.isEmpty then .done s
      else
        let (id, s) := addMop s l i.pc (.sync ids)
        .done (awaitMop s i id none)

/-! ### Events -/

/-- The operations that join the oldest small operation in one pass (15 R301). -/
def passOf (s : State) (core : Nat) : List (MOp × SmallOp) :=
  let smalls := s.mops.filterMap fun m => match m.kind with
    | .small o => if m.core = core ∧ mopHere s m then some (m, o) else none
    | _ => none
  match smalls.find? (fun q => mopReady s q.1) with
  | none => []
  | some f =>
    let more := (smalls.filter (fun q => q.1.id != f.1.id)).foldl (fun acc q =>
      if acc.length < 3 ∧ q.1.blk = f.1.blk ∧ q.1.gang = f.1.gang ∧ q.2.bslot = f.2.bslot ∧ q.2.fmt = f.2.fmt ∧
          mopReady s q.1 ∧ q.2.acc ≠ f.2.acc ∧ acc.all (fun p => p.2.acc != q.2.acc) then acc ++ [q] else acc) []
    f :: more
/-- The event MATRIX_PASS of a core (15 R301). -/
def execMatrixPass (core : Nat) (s : State) : Res :=
  match passOf s core with
  | [] => .next s
  | ps => .next (settleMtx (ps.foldl (fun s q => dropMop (runSmall s q.1 q.2) q.1.id) s))
/-- The event DRAIN_EXECUTE of a drain (15 R314). -/
def execDrainExecute (id : Nat) (s : State) : Res :=
  match getMop s id with
  | some m => match m.kind with
    | .drain o => if mopReady s m ∧ o.fault.isNone ∧ mopHere s m then .next (runDrain s m o) else .next s
    | _ => .next s
  | none => .next s

end Sys2Proof.Machine
end

