-- ==== Sys2Proof/Machine/Tap.lean ====
section
/-! DEFINITION. The TAP class and the sieve (19 R342-R361): TAPIN, TAPW, TAPRM, TREL, TAPSYNC, and the evaluation of a
row against its rule table. -/

namespace Sys2Proof.Machine

/-! ### Records and tables -/

/-- The dictionary record meets R342; its d. -/
def dictOk (r : Rec) : Bool :=
  !r.spc && r.fmt == 7 && r.ext1 % 16 == 0 && decide (16 ≤ r.ext1) && decide (r.ext1 ≤ 16384) && decide (1 ≤ r.ext0) &&
  decide (r.ext0 ≤ 2 ^ 20) && r.base % 64 == 0 && r.stride0 % 64 == 0 && decide ((64 + 4 * r.ext1 : Int) ≤ r.stride0)
/-- The tile record meets step 4 of R357. -/
def tileOk (r : Rec) : Bool :=
  r.spc && r.fmt == 7 && r.stride0 == 2 && r.stride1 % 32 == 0 && decide (max r.ext1 1 ≤ 64)

/-- Bytes of a rule table: its header and 64 entries (19 R343). -/
def tableBytes : Nat := 64 + 64 * 32
/-- Rule k of a table, and its header, as numbers. -/
def ruleOf (t : List Byte) (k : Nat) : Nat := leVal ((t.drop (64 + 32 * k)).take 32)
def headOf (t : List Byte) : Nat := leVal (t.take 64)
def nrules (t : List Byte) : Nat := natBits (headOf t) 200 8
/-- A rule applies at a tap id (19 R344). -/
def ruleApplies (u tap : Nat) : Bool := !natBit u 4 && natBits u 32 8 == tap
/-- Some rule of a table applies at a tap id (19 R349). -/
def tableApplies (t : List Byte) (tap : Nat) : Bool :=
  decide (64 < nrules t) || (List.range (nrules t)).any (fun k => ruleApplies (ruleOf t k) tap)

/-- Read bytes of a block's global memory for a sieve, page by page, through the hold queue and its errors (08 R185,
21 R368, R369). -/
def engineRead (s : State) (b : Block) (va n : Nat) (by_ : Nat → McRec := partyOf b 0xB8 0 0 0) :
    Except Flt (List Byte) × State :=
  let pages := (List.range ((va + n - 1) / 4096 - va / 4096 + 1)).map fun k =>
    let lo := max va (4096 * (va / 4096 + k))
    (lo, min (va + n) (4096 * (va / 4096 + k + 1)) - lo)
  pages.foldl (fun (acc : Except Flt (List Byte) × State) p =>
    match acc.1 with
    | .error f => (.error f, acc.2)
    | .ok bs => match engineXlate acc.2 b 0 p.1 (by_ p.1) with
      | (.error f, s) => (.error f, s)
      | (.ok pa, s) =>
        let s := meetLines s pa p.2 (by_ p.1)
        let bad := holdErrs s b.uid pa p.2 true
        if !bad.isEmpty then (.error (errFlt b bad 0), s)
        else if poisoned s pa p.2 then (.error (lineFlt s pa p.2 (poisonVa s pa p.1 p.2) 2), s)
        else (.ok (bs ++ readGlobal s b.uid pa p.2),
          correctErrs s b (by_ 0).op (by_ 0).pc (by_ 0).gang (by_ 0).lane (holdErrs s b.uid pa p.2 false))) (.ok [], s)

/-- The version of a rule table that a sieve evaluates against: its copy, else memory, which it then caches (19 R345). -/
def readTable (s : State) (b : Block) (addr : Nat) (by_ : Nat → McRec := partyOf b 0xB8 0 0 0) :
    Except Flt (List Byte) × State :=
  match s.ruleCopies.find? (fun c => c.terrace == b.terrace && c.ctx == b.ctx && c.addr == addr) with
  | some c => match engineXlate s b 0 addr (by_ addr) with
    | (.error f, s) => (.error f, s)
    | (.ok _, s) => (.ok c.bytes, s)
  | none =>
    match engineRead s b addr tableBytes by_ with
    | (.error f, s) => (.error f, s)
    | (.ok bs, s) => (.ok bs, { s with ruleCopies := s.ruleCopies ++ [⟨b.terrace, b.ctx, addr, bs⟩] })

def Tapin.tableAddr (t : Tapin) (slot : Nat) : Nat := t.ruleb + 4096 * slot

/-! ### TAPIN (19 R357) -/

/-- Step 1, and the checks of TAPW (19 R357, R358). -/
def trecCheck (b : Block) (off : Nat) : Option Flt :=
  if off % 64 ≠ 0 then some { cause := 0x08, info := off }
  else if b.ssize < off + 704 then some { cause := 0x06, info := off }
  else none
def trecTyped (s : State) (b : Block) (off : Nat) : Option Flt :=
  if (getBar s ⟨false, b.uid, off⟩).isSome then none else some { cause := 0x0C, info := withCode off 3 }

/-- The row-map entries. -/
def rowMap (s : State) (blk off n : Nat) : List Nat := (List.range n).map fun r => leVal (readScratch s blk (off + 8 * r) 8)

/-- Steps 2 to 7 of R357 after step 1. -/
def tapinCheck (s : State) (b : Block) (trec rmap : Nat) (tile dict : Rec) : Option Flt :=
  let hdr := leVal (readScratch s b.uid (trec + 32) 32)
  let ruleb := natBits hdr 0 64
  let nslot := natBits hdr 64 32
  let n := max tile.ext1 1
  let tileLo (r : Nat) : Int := tile.base + (r : Int) * tile.stride1
  let hits (tag : Nat) (lo : Int) (len : Nat) : Option Flt :=
    if lo < trec + 704 ∧ (trec : Int) < lo + len then some { cause := 0x0C, info := withCode trec 1, tag := tag }
    else (typedBlockAt s b.uid lo.toNat len).map (fun q => { cause := 0x0C, info := withCode q.ref.addr 1, tag := tag })
  let busy : Option Flt := match getTapin s b.uid trec with
    | some t => if t.outstanding then some { cause := 0x0E, info := trec } else none
    | none => none
  let header : Option Flt :=
    if ruleb % 4096 ≠ 0 ∨ nslot = 0 ∨ 65535 < nslot ∨ natBits hdr 96 160 ≠ 0 then some { cause := 0x07, info := 10 } else none
  let tileF : Option Flt := if tileOk tile then none else some { cause := 0x07, info := 8, tag := tile.tag }
  let dictF : Option Flt := if dictOk dict && dict.ext1 == tile.ext0 then none else some { cause := 0x07, info := 9, tag := dict.tag }
  let entry (r e : Nat) : Option Flt :=
    if natBits e 16 16 ≠ 0 ∨ (nslot ≤ e % 2 ^ 16 ∧ e % 2 ^ 16 ≠ 0xFFFF) then some { cause := 0x06, info := r } else none
  let map : Option Flt :=
    if rmap % 8 ≠ 0 then some { cause := 0x08 }
    else if b.ssize < rmap + 8 * n then some { cause := 0x06 }
    else (scratchEcc b rmap (8 * n) plainRead).or <|
      (List.range n).findSome? fun r => entry r ((rowMap s b.uid rmap n).getD r 0)
  let typedF : Option Flt :=
    (List.range n).findSome? fun r => (hits tile.tag (tileLo r) (2 * tile.ext0)).or (hits 0 ((rmap + 8 * r : Nat) : Int) 8)
  (trecTyped s b trec).or <| busy.or <| (scratchEcc b (trec + 32) 32 plainRead).or <| header.or <| tileF.or <| dictF.or <| map.or typedF

/-- Step 8: the named rule tables are translated. -/
def tablesXlate (s : State) (b : Block) (by_ : Nat → McRec) (ruleb : Nat) (slots : List Nat) : Option Flt × State :=
  slots.foldl (fun acc q =>
    match acc.1 with
    | some f => (some f, acc.2)
    | none =>
      if q = 0xFFFF then acc
      else match engineXlate acc.2 b 0 (ruleb + 4096 * q) (by_ (ruleb + 4096 * q)) with
        | (.error f, s) => (some f, s)
        | (.ok _, s) => (none, s)) (none, s)

/-- What a TAPIN's thread has stored to the header and the row map is performed before they are read (08 R171). -/
def ownWrites (i : Iss) (l : Lane) (d a b : Reg) (s : State) : State :=
  let drain (s : State) (off n : Nat) : State := drainBytes s l.t.blk l.t.gang l.t.lane (.scratch l.t.blk) off n
  drain (drain s (l.rd d 32 + 32) 32) (l.rd a 32) (8 * max (Rec.of (i.b.recOf b.toNat)).ext1 1)
/-- The fault that stops a TAPIN at issue, if any, and the state with the tables translated (19 R357 steps 1 to 8). -/
def tapinFault (i : Iss) (l : Lane) (d a b c : Reg) (s : State) : Option Flt × State :=
  let trec := l.rd d 32
  let rmap := l.rd a 32
  let tile := Rec.of (i.b.recOf b.toNat)
  match (trecCheck i.b trec).or (tapinCheck s i.b trec rmap tile (Rec.of (i.b.recOf c.toNat))) with
  | some f => (some f, s)
  | none => tablesXlate s i.b (partyOf i.b 0xB8 i.pc l.t.gang l.t.lane) (leVal (readScratch s i.b.uid (trec + 32) 8))
      ((rowMap s i.b.uid rmap (max tile.ext1 1)).map (· % 2 ^ 16))
/-- A TAPIN that passes: a release, which performs its thread's stores to the header and the map; then the map is read, its
rows are PENDING and it is outstanding (19 R357). -/
def acceptTapin (i : Iss) (l : Lane) (d a b c : Reg) (x : BitVec 8) (s : State) : State :=
  let trec := l.rd d 32
  let rmap := l.rd a 32
  let tile := Rec.of (i.b.recOf b.toNat)
  let s := syncRelease s l
  let s := correctScratch i l rmap (8 * max tile.ext1 1) (correctScratch i l (trec + 32) 32 s)
  let ruleb := leVal (readScratch s i.b.uid (trec + 32) 8)
  let rows := (rowMap s i.b.uid rmap (max tile.ext1 1)).map fun e =>
    TRow.mk (e % 2 ^ 16) (BitVec.ofNat 32 (e / 2 ^ 32)) 0 0 0 0 true none none
  let (id, s) := fresh s
  let t : Tapin := { id := id, blk := i.b.uid, gang := l.t.gang, lane := l.t.lane, word := i.word, pc := i.pc,
                     trec := trec, rmap := rmap, tap := x.toNat, d := tile.ext0, tile := i.b.recOf b.toNat,
                     drec := i.b.recOf c.toNat, ruleb := ruleb, rows := rows, retired := false, forgotten := false }
  let s := { s with tapins := s.tapins.filter (fun q => !(q.blk == t.blk && q.trec == t.trec)) ++ [t] }
  (addOutst s i.no l .tp (.tapin id) false false).2
def execTapin (k : Ctl) (d a b c : Reg) (x : BitVec 8) (s : State) : Res :=
  issue 0xB8 k [r32 d, r32 a, rRec b.toNat, rRec c.toNat] [] s fun i s =>
    match i.cmd.head? with
    | none => .done s
    | some l =>
      match tapinFault i l d a b c (ownWrites i l d a b s) with
      | (some f, s) => .trap s [⟨l.t.gang, l.t.lane, f⟩]
      | (none, s) => .done (acceptTapin i l d a b c x s)

/-- The party of a TAPIN's reads and writes (21 R370, R371). -/
def Tapin.party (t : Tapin) (b : Block) : Nat → McRec := partyOf b 0xB8 t.pc t.gang t.lane
/-- A TAPIN retires: it has arrived at its sieve after those that retired before it (19 R351), its rows are classified under
R349 and the record is written. -/
def retireTapin (s : State) (id : Nat) : State :=
  match tapinById s id with
  | none => s
  | some t =>
    match getBlock s t.blk with
    | none => s
    | some b =>
      let s := { s with tapins := s.tapins.filter (fun q => q.id != id) ++ [{ t with retired := true }] }
      let s := writeScratch s t.blk (t.trec + 64) (List.replicate 16 0 ++ List.replicate 48 0)
      let s := writeScratch s t.blk (t.trec + 128) (List.replicate 64 0 ++ List.replicate 512 0)
      (t.rows.mapIdx (fun r q => (r, q))).foldl (fun s e =>
        if e.2.slot = 0xFFFF then readyRow s id e.1 1
        else match readTable s b (t.tableAddr e.2.slot) (t.party b) with
          | (.ok bs, s) => if tableApplies bs t.tap then s else readyRow s id e.1 1
          | (.error _, s) => s) s

/-- A sieve serves what a core sends it in order: a TAPIN on a record has retired before the record's masks are read
(19 R349, R359). -/
def servedTapin (s : State) (blk trec : Nat) : State :=
  match getTapin s blk trec with
  | some t =>
    if t.retired then s
    else
      let s := retireTapin s t.id
      { s with outst := s.outst.filter (fun o => o.op != .tapin t.id) }
  | none => s

/-! ### TAPW, TAPRM, TREL, TAPSYNC -/

def execTapw (k : Ctl) (d a b : Reg) (s : State) : Res :=
  issue 0xB9 k [r32 a, r64 b] [r32 d] s fun i s =>
    match lane1 i.cmd (fun x => (trecCheck i.b (x.rd a 32)).or (trecTyped s i.b (x.rd a 32))) with
    | [] => .done (wakeTapw (i.cmd.foldl (fun s x => modThread s x.t.blk x.t.gang x.t.lane
        (fun t => { t with wait := .tapw (x.rd a 32) (BitVec.ofNat 64 (x.rd b 64)) (keptDst i.cmd x d) })) s) i.b.uid)
    | fs => .trap s fs
/-- The mask word that TAPRM reads of a record (19 R359). -/
def maskWord (x : Lane) (hm : Bool) (a : Reg) : Nat := x.rd a 32 + if hm then 72 else 64
def execTaprm (k : Ctl) (hm : Bool) (d a : Reg) (s : State) : Res :=
  issue 0xBA k [r32 a] [r64 d] s fun i s =>
    match lane1 i.cmd (fun x => (trecCheck i.b (x.rd a 32)).or <| (trecTyped s i.b (x.rd a 32)).or <|
        scratchEcc i.b (maskWord x hm a) 8 plainRead) with
    | [] => .done (i.cmd.foldl (fun s x =>
        let s := servedTapin (correctScratch i x (maskWord x hm a) 8 s) i.b.uid (x.rd a 32)
        addReply s i.no x .tp d (if d.toNat < 192 || firstOfGang i.cmd x then 64 else 0)
          (leVal (readScratch s i.b.uid (maskWord x hm a) 8)) none) s)
    | fs => .trap s fs

/-- The row that TREL names is HANDLING and named by the thread's trap (19 R360). -/
def trelRow (s : State) (x : Lane) (trec r : Nat) : Option Nat :=
  if trapNames x.t trec r then
    match getTapin s x.b.uid trec with
    | some t => match t.rows[r]? with
      | some q => if q.status = 3 then some t.id else none
      | none => none
    | none => none
  else none
/-- Release a held row for its re-check. -/
def relRow (s : State) (id r : Nat) : State :=
  writeRow (modRow s id r (fun q => { q with status := 0, rechecks := q.rechecks + 1, first := false, owner := none })) id r
def execTrel (k : Ctl) (a b : Reg) (s : State) : Res :=
  issue 0xBB k [r32 a, r32 b] [] s fun i s =>
    match lane1 i.cmd (fun x => if (trelRow s x (x.rd a 32) (x.rd b 32)).isSome then none
        else some { cause := 0x0E, info := x.rd b 32 }) with
    | [] => .done (i.cmd.foldl (fun s x =>
        match trelRow s x (x.rd a 32) (x.rd b 32) with
        | some id => relRow (syncRelease (irrevocable s i.b.uid) x) id (x.rd b 32)
        | none => s) s)
    | fs => .trap s fs

/-- A held store is a sieve's write of a table that a TAPSYNC covers. -/
def sieveStore (al : Bool) (addr : Nat) (h : Held) : Bool :=
  h.info.op == 0xB8 && (al || h.info.va.toNat / 4096 * 4096 == addr)
/-- The covered sieve stores of a hold queue, with the earlier stores to their bytes; and the stores that stay. -/
def sieveFirst (al : Bool) (addr : Nat) (hs : List Held) : List Held × List Held :=
  let meets (h g : Held) : Bool := decide (h.pa < g.pa + g.bytes.length) && decide (g.pa < h.pa + h.bytes.length)
  hs.foldr (fun h acc =>
    if sieveStore al addr h || acc.1.any (meets h) then (h :: acc.1, acc.2) else (acc.1, h :: acc.2)) ([], [])
/-- The held stores of sieves to the tables that a TAPSYNC covers go back to memory and leave the hold queues (19 R345,
R361). DESIGN CHOICE (log 19): the intervals of those blocks stay revocable. -/
def writeBack (s : State) (ctx : Nat) (al : Bool) (addr : Nat) : State :=
  (s.blocks.filter (fun b => b.ctx == ctx)).foldl (fun s b => drainSome s b.uid (sieveFirst al addr)) s
/-- The copies that a TAPSYNC covers. -/
def coveredBy (ctx : Nat) (al : Bool) (addr : Nat) (q : RuleCopy) : Bool := q.ctx == ctx && (al || q.addr == addr)
def execTapsync (k : Ctl) (al : Bool) (a : Reg) (s : State) : Res :=
  issue 0xBC k (if al then [] else [r64 a]) [] s fun i s =>
    match if al then [] else lane1 i.cmd (fun x =>
        if x.rd a 64 % 4096 = 0 then none else some { cause := 0x08 }) with
    | [] =>
      if i.cmd.isEmpty then .done s
      else .done (i.cmd.foldl (fun s x =>
        let s := syncRelease s x
        let drop := coveredBy i.b.ctx al (x.rd a 64)
        let s := writeBack s i.b.ctx al (x.rd a 64)
        { s with ruleCopies := s.ruleCopies.filter (fun q => !drop q) })
        (irrevocable s i.b.uid))
    | fs => .trap s fs

/-! ### Evaluation (19 R350-R353) -/

/-- How the evaluation of a row ends. -/
inductive RowEnd where
  | ready (status : Nat)
  | fire (rule : Nat) (a : Nat)
  deriving DecidableEq, Repr

/-- A row under evaluation: its elements, its rules, those that have been evaluated, the fabric cycles charged, and its
end. -/
structure RowEval where
  x : List Nat
  rules : List Nat
  seen : List Nat
  edited : Bool
  charge : Nat
  out : Option RowEnd

/-- Fields of a rule entry (19 R344). -/
def ruleKind (u : Nat) : Nat := natBits u 0 2
def ruleFeat (u : Nat) : Nat := natBits u 44 20
/-- A rule with prev and pv set, and dis set when a once rule acts. -/
def ruleSeen (u a : Nat) : Nat := (natBits u 0 224 ||| 32) + 2 ^ 224 * a
def ruleDis (u : Nat) : Nat := if natBit u 3 && !natBit u 4 then u + 16 else u

/-- The activation a_f of a feature on a row (19 R350), as an FP32 pattern. -/
def activation (entry : Nat) (d : Nat) (x : List Nat) : Nat :=
  let enc := elems 16 d (entry / 2 ^ 512)
  let acc := (List.range (d / 16)).foldl (fun acc j =>
    let ps := (((enc.drop (16 * j)).take 16).map (val .bf16)).zip (((x.drop (16 * j)).take 16).map (val .bf16))
    (blockAcc 0 acc ps 127 127).1) (natBits entry 0 32)
  if (fcompare 4 acc (natBits entry 32 32)).1 then acc else 0

/-- CLAMP and ADD of tt times the decoder column (19 R350). -/
def editRow (entry d tt : Nat) (x : List Nat) : List Nat :=
  let dec := elems 16 d (entry / 2 ^ (512 + 16 * d))
  (x.zip dec).map fun p =>
    let y := (round .fp32 0 (xadd 0 (val .bf16 p.1) (xmul (val .fp32 tt) (val .bf16 p.2)).1).1).1
    (round .bf16 0 (val .fp32 y)).1

/-- One rule of the evaluation. -/
def evalRule (first : Bool) (tap d ext0 : Nat) (entry : Nat → Nat) (e : RowEval) (k : Nat) : RowEval :=
  let u := e.rules.getD k 0
  if e.out.isSome || !ruleApplies u tap || (!first && ruleKind u != 0) then e
  else if ruleKind u = 3 ∨ ext0 ≤ ruleFeat u then { e with out := some (.ready 8) }
  else
    let en := entry (ruleFeat u)
    let a := activation en d e.x
    let old := if natBit u 5 then natBits u 224 32 else 0xFF800000
    let cost := (d + 255) / 256
    let u1 := ruleSeen u a
    let setRule (v : Nat) : List Nat := e.rules.mapIdx (fun j w => if j = k then v else w)
    let e := { e with seen := e.seen ++ [k] }
    if ruleKind u = 0 then
      let tau := natBits u 160 32
      if (fcompare 5 a tau).1 && (!natBit u 2 || (fcompare 2 old tau).1) then
        { e with rules := setRule (ruleDis u1), charge := e.charge + cost, out := some (.fire k a) }
      else { e with rules := setRule u1, charge := e.charge + cost }
    else
      let c := natBits u 192 32
      let tt := if ruleKind u = 1 then (round .fp32 0 (xadd 0 (val .fp32 c) (val .fp32 a).neg).1).1 else c
      { e with x := editRow en d tt e.x, rules := setRule (ruleDis u1), edited := true, charge := e.charge + 2 * cost }

/-- The features that the rules of a table read, for their translation: those of the rules before the first one that ends
the row as BADRULE (19 R350, R352). -/
def featuresOf (t : List Byte) (first : Bool) (tap ext0 : Nat) : List Nat :=
  let us := ((List.range (nrules t)).map (ruleOf t)).filter (fun u => ruleApplies u tap && (first || ruleKind u == 0))
  (us.takeWhile (fun u => ruleKind u != 3 && decide (ruleFeat u < ext0))).map ruleFeat

/-- Read the dictionary entries of features. -/
def readEntries (s : State) (b : Block) (by_ : Nat → McRec) (r : Rec) (d : Nat) (fs : List Nat) :
    Except Flt (List (Nat × Nat)) × State :=
  fs.foldl (fun (acc : Except Flt (List (Nat × Nat)) × State) (f : Nat) =>
    match acc.1 with
    | .error e => (.error e, acc.2)
    | .ok es =>
      let at_ : Int := (r.base : Int) + (f : Int) * r.stride0
      match engineRead acc.2 b at_.toNat (64 + 4 * d) by_ with
      | (.error e, s) => (.error (e.tagged r), s)
      | (.ok bs, s) => (.ok (es ++ [(f, leVal bs)]), s)) (.ok [], s)

/-- Store the sieve's change of a table's byte or word as a device-scope store of the TAPIN's thread; the bits of `keep` stay
as software has them (19 R344). A write that would go into a poisoned line is not made (21 R369; log 21). -/
def ruleStore (s : State) (b : Block) (t : Tapin) (pa va : Nat) (bytes : List Byte) (size keep : Nat) : State :=
  let s := meetLine s pa (t.party b va)
  if poisoned s pa bytes.length then s
  else performStore s b.uid t.gang t.lane pa bytes
    { va := BitVec.ofNat 64 va, pc := t.pc, op := 0xB8, tag := 0, size := size, mark := none, no := 0, keep := keep }
/-- Write the sieve's changes of a table, for every rule that has been evaluated, whatever its copy held: prev, and of the
low byte pv alone, with dis where the rule has set it; what else software has written there stays (19 R344, R345, R350,
R364). -/
def writeRules (s : State) (b : Block) (t : Tapin) (addr : Nat) (old : List Byte) (rules seen : List Nat) : State :=
  let (px, s) := engineXlate s b 0 addr (t.party b addr)
  match px with
  | .error _ => s
  | .ok pa =>
    (rules.mapIdx (fun k u => (k, u))).foldl (fun s e =>
      let off := 64 + 32 * e.1
      if !seen.contains e.1 then s
      else
        let s := ruleStore s b t (pa + off + 28) (addr + off + 28) (leBytes 4 (e.2 / 2 ^ 224)) 2 0
        let set := 32 + (if natBit e.2 4 && !natBit (ruleOf old e.1) 4 then 16 else 0)
        let s := ruleStore s b t (pa + off) (addr + off) (leBytes 1 set) 0 (255 - set)
        let put (c : RuleCopy) : RuleCopy := { c with bytes := c.bytes.take off ++ leBytes 32 e.2 ++ c.bytes.drop (off + 32) }
        let mine (c : RuleCopy) : Bool := c.terrace == b.terrace && c.ctx == b.ctx && c.addr == addr
        { s with ruleCopies := updWhere s.ruleCopies mine put }) s

/-- The control thread that a table header names, live in the block of the TAPIN (19 R353). -/
def controlThread (s : State) (b : Block) (head : Nat) : Option Thread :=
  if natBits head 64 64 = (handleOf b.ctx b.serial).toNat ∧ natBits head 144 32 = b.num then
    let l := natBits head 184 8
    getThread s b.uid (natBits head 176 8) (if b.protectd then 2 * l else l)
  else none

/-- FIRE(r, k, a) (19 R353). -/
def fireRow (s : State) (b : Block) (t : Tapin) (r k a : Nat) (table : List Byte) : State :=
  match t.rows[r]? with
  | none => s
  | some q =>
    let s := writeRow (modRow s t.id r (fun q => { q with rule := k, val := BitVec.ofNat 32 a })) t.id r
    if 4 ≤ q.rechecks then readyRow s t.id r 5
    else match controlThread s b (headOf table) with
      | none => readyRow s t.id r 7
      | some c =>
        if 4 ≤ c.watchq.length then readyRow s t.id r 6
        else
          let w : WatchTrap := { slot := q.slot, pos := q.pos, tap := t.tap, feat := ruleFeat (ruleOf table k),
                                 val := BitVec.ofNat 32 a, rule := k, row := r, trec := t.trec, rechecks := q.rechecks,
                                 handler := BitVec.ofNat 64 (natBits (headOf table) 0 64) }
          let s := modThread s c.blk c.gang c.lane (fun c => { c with watchq := c.watchq ++ [w] })
          writeRow (modRow s t.id r (fun q => { q with status := 2, owner := some (c.gang, c.lane) })) t.id r

/-- The evaluation of a row stops at a fault: the row stays PENDING (19 R352). -/
def stopRow (s : State) (t : Tapin) (r : Nat) (f : Flt) : State :=
  let rec_ := { f with kind := 0, party := 0 }.toRec t.pc
  let s := modRow s t.id r (fun q => { q with fault := some rec_ })
  if 0x20 ≤ f.cause then
    addMcheck s t.blk { cycle := 0, cause := BitVec.ofNat 8 f.cause, pc := t.pc, addr := BitVec.ofNat 64 f.info, gang := t.gang,
                        lane := t.lane, op := 0xB8, unit := f.unit, check := f.check, acc := 0, rc := 0, ladder := f.ladder,
                        residue := none }
  else askSave s t.blk { reason := if f.cause = 0x09 then 1 else 3, first := some (t.gang, t.lane, rec_), fromPreempt := false,
                         bounded := false }

/-- The key of a slot's budget of the period. -/
def slotKey (t : Tapin) (slot : Nat) : Nat := t.blk * 2 ^ 16 + slot
/-- Charge fabric cycles to a slot and to the terrace's sieve (19 R351, 24 R406). -/
def chargeSieve (s : State) (b : Block) (t : Tapin) (slot n : Nat) : State :=
  let k := slotKey t slot
  { s with act := { s.act with
      slots := Sparse.set 0 s.act.slots k (Sparse.get 0 s.act.slots k + n),
      sieve := Sparse.set 0 s.act.sieve b.terrace (Sparse.get 0 s.act.sieve b.terrace + n) } }

/-- EVAL(r, first) (19 R350, R352). -/
def evalRow (s : State) (b : Block) (t : Tapin) (r : Nat) (q : TRow) : State :=
  let addr := t.tableAddr q.slot
  let dict := Rec.of t.drec
  if b.errs.any (fun e => e.place == .sievePath) then
    stopRow (healErrs s b.uid (· == .sievePath)) t r { cause := 0x20, unit := 7, check := 0 }
  else
  match readTable s b addr (t.party b) with
  | (.error f, s) => stopRow s t r f
  | (.ok table, s) =>
    if 64 < nrules table then readyRow s t.id r 8
    else
      match readEntries s b (t.party b) dict t.d (featuresOf table q.first t.tap dict.ext0) with
      | (.error f, s) => stopRow s t r f
      | (.ok es, s) =>
        let tile := Rec.of t.tile
        let lo := ((tile.base : Int) + (r : Int) * tile.stride1).toNat
        let errs := errsAt b (scratchWord lo (2 * t.d))
        if !(errs true).isEmpty then stopRow s t r (errFlt b (errs true) 0) else
        let s := correctErrs s b 0xB8 t.pc t.gang t.lane (errs false)
        let x := elems 16 t.d (leVal (readScratch s t.blk lo (2 * t.d)))
        let entry (f : Nat) : Nat := match es.find? (fun e => e.1 == f) with | some e => e.2 | none => 0
        let e0 : RowEval := { x := x, rules := (List.range (nrules table)).map (ruleOf table), seen := [], edited := false,
                              charge := 0, out := none }
        let e := (List.range (nrules table)).foldl (evalRule q.first t.tap t.d dict.ext0 entry) e0
        let s := chargeSieve s b t q.slot e.charge
        let s := writeRules s b t addr table e.rules e.seen
        let s := if e.edited then writeScratch s t.blk lo (leBytes (2 * t.d) (packElems 16 e.x)) else s
        match e.out with
        | some (.ready st) => readyRow s t.id r st
        | some (.fire k a) => fireRow s b t r k a table
        | none => readyRow s t.id r (if q.first then 1 else 4)

/-- A slot has spent its budget of the period (19 R351). -/
def slotSpent (s : State) (b : Block) (t : Tapin) (slot : Nat) : Bool :=
  match (readTable s b (t.tableAddr slot)).1 with
  | .ok table =>
    let budget := natBits (headOf table) 208 16
    budget != 0 && decide (budget ≤ Sparse.get 0 s.act.slots (slotKey t slot))
  | .error _ => false
/-- An earlier row of the same slot of the block is not ready: one of a TAPIN that has arrived before, or of the same one
(19 R351). -/
def slotBlocked (s : State) (t : Tapin) (r slot : Nat) : Bool :=
  (s.tapins.takeWhile (fun q => q.id != t.id)).any (fun q => q.blk == t.blk && q.retired &&
    q.rows.any (fun w => w.slot == slot && !w.ready)) ||
  (t.rows.take r).any (fun w => w.slot == slot && !w.ready)
/-- The rows that a sieve serves, in order; those that it passes over are left out (19 R351). -/
def evalQueue (s : State) (terrace : Nat) : List (Tapin × Nat × TRow × Block) :=
  if s.cfg.budgets.sieve ≤ Sparse.get 0 s.act.sieve terrace then []
  else
    s.tapins.flatMap fun t =>
      match getBlock s t.blk with
      | some b =>
        if t.retired ∧ b.terrace = terrace ∧ b.resident ∧ !b.killed then
          (t.rows.mapIdx (fun r q => (t, r, q, b))).filter (fun e =>
            e.2.2.1.status == 0 && e.2.2.1.fault.isNone && !slotBlocked s t e.2.1 e.2.2.1.slot &&
            !slotSpent s b t e.2.2.1.slot)
        else []
      | none => []
/-- The event EVAL: the row that the sieve serves next. -/
def execEval (tap row : Nat) (s : State) : Res :=
  match tapinById s tap with
  | none => .next s
  | some t =>
    match getBlock s t.blk with
    | none => .next s
    | some b => match evalQueue s b.terrace with
      | (u, r, q, b) :: _ => if u.id = tap ∧ r = row then .next (afterReturn (evalRow s b u r q) b.uid u.gang) else .next s
      | [] => .next s

end Sys2Proof.Machine
end

