-- ==== Sys2Proof/Machine/Task.lean ====
section
/-! DEFINITION. The task engine (10 R208-R234): job cards, the dealing of records, futures, cancel scopes, and the TASK
class. -/

namespace Sys2Proof.Machine

/-! ### Job cards (10 R208) -/

/-- A field of a card. -/
def cardF (c : BitVec 1024) (lo w : Nat) : Nat := natBits c.toNat lo w
def cardGangs (c : BitVec 1024) : Nat := cardF c 192 8
def cardRole (c : BitVec 1024) (g : Nat) : Nat := cardF c (256 + 3 * g) 3
def cardRegs (c : BitVec 1024) (r : Nat) : Nat := cardF c (448 + 8 * r) 8
def cardLevel (c : BitVec 1024) : Nat := cardF c 488 3
/-- Blocks of one group. -/
def cardGroup (c : BitVec 1024) : Nat := if cardLevel c = 0 then 1 else cardF c 512 16
def cardScope (c : BitVec 1024) : Nat := cardF c 568 16
def cardPred (c : BitVec 1024) : Nat := cardF c 592 64
def cardDone (c : BitVec 1024) : Nat := cardF c 656 64
def cardCount (c : BitVec 1024) : Nat := cardF c 160 32
def cardKernel (c : BitVec 1024) : Bool := natBit c.toNat 584
/-- Scratchpad bytes in whole granules (12 R249). -/
def cardScratch (c : BitVec 1024) : Nat := 4096 * ((cardF c 224 32 + 4095) / 4096)
/-- The sum of the gangs' base units (05 R89). -/
def cardBases (c : BitVec 1024) : Nat := ((List.range (cardGangs c)).map (fun g => cardRegs c (cardRole c g))).sum

/-- A card whose fields R209 finds invalid, its scope apart. A group of the device has at most 16 blocks for each core that
the part has (00 R1). -/
def cardInvalid (s : State) (c : BitVec 1024) : Bool :=
  let gangs := cardGangs c
  let gs := cardF c 512 16
  let held (r : Nat) : Bool := (List.range gangs).any (fun g => cardRole c g == r)
  cardF c 720 304 != 0 || cardF c 588 4 != 0 || cardF c 564 4 != 0 || cardF c 491 21 != 0 || decide (4 ≤ cardLevel c) ||
  (List.range 64).any (fun g => if g < gangs then decide (5 ≤ cardRole c g) else cardRole c g != 0) ||
  gangs == 0 || decide (64 < gangs) || decide (64 < cardF c 200 8) || decide (524288 < cardF c 224 32) ||
  decide (1024 < cardF c 208 16) ||
  (match cardLevel c with
   | 0 => decide (1 < gs)
   | 1 => gs == 0 || decide (64 < gs)
   | 2 => gs == 0 || decide (384 < gs)
   | _ => gs == 0 || decide (16 * numCores s < gs)) ||
  (List.range 5).any (fun r =>
    if held r then decide (cardRegs c r < 2) || decide (24 < cardRegs c r) else cardRegs c r != 0) ||
  decide (cardF c 208 16 < cardBases c) || cardF c 0 64 % 8 != 0 || cardDone c % 16 != 0 ||
  (cardCount c != 0 && cardF c 128 32 == 0)

/-- Blocks of a card that one idle core holds (01, 05 R88, 12 R249, 15 R292). -/
def blocksPerCore (c : BitVec 1024) : Nat :=
  let per (cap n : Nat) : Nat := if n = 0 then 16 else cap / n
  min 16 (min (64 / cardGangs c) (min (per 1024 (cardBases c)) (min (per 128 (cardScratch c / 4096)) (per 64 (cardF c 200 8)))))
/-- Cores of a group level on the part. -/
def coresOfLevel (s : State) (level : Nat) : Nat :=
  match level with | 0 => 1 | 1 => 4 | 2 => 24 | _ => numCores s
def cardUnplaceable (s : State) (c : BitVec 1024) : Bool :=
  blocksPerCore c == 0 || decide (coresOfLevel s (cardLevel c) * blocksPerCore c < cardGroup c)

/-! ### Scopes (10 R220) -/

/-- A scope lies in the subtree of a root; `fuel` bounds the depth of the tree. -/
def inSubtree (s : State) (ctx root : Nat) : Nat → Nat → Bool
  | 0, _ => false
  | f + 1, id =>
    if id = root then (getScope s ctx id).isSome
    else match getScope s ctx id with
      | some x => id != 0 && inSubtree s ctx root f x.parent
      | none => false
def inTree (s : State) (ctx root id : Nat) : Bool := inSubtree s ctx root (s.scopes.length + 1) id

/-- Who posts or names a scope: a thread at its level in its scope, or the host. -/
structure Poster where
  ctx : Nat
  scope : Nat
  kernel : Bool
  host : Bool
  deriving DecidableEq, Repr

/-- Queued cards: jobs that have launched nothing. -/
def queuedJobs (s : State) : List Job := s.jobs.filter (fun j => j.launched == 0 && !j.killed)

/-- The checks of R209, in the order of its table. -/
def postStatus (s : State) (p : Poster) (c : BitVec 1024) : Nat :=
  let sc := cardScope c
  let pred := cardPred c
  match getScope s p.ctx sc with
  | some x =>
    if x.cancelled then 1
    else if (!p.host && !inTree s p.ctx p.scope sc) || (!p.host && !p.kernel && cardKernel c) ||
        (pred != 0 && !natBit pred 63 && natBits pred 40 16 != p.ctx) then 2
    else if cardInvalid s c then 3
    else if cardUnplaceable s c then 4
    else if 1024 ≤ ((queuedJobs s).filter (fun j => j.ctx == p.ctx)).length ∨ 16384 ≤ (queuedJobs s).length then 5
    else 0
  | none => if (!p.host && !p.kernel && cardKernel c) || (pred != 0 && !natBit pred 63 && natBits pred 40 16 != p.ctx) then 2 else 3

/-- Queue a card: the handle (10 R210). -/
def queueJob (s : State) (ctx : Nat) (c : BitVec 1024) (poster : Option (Nat × Nat)) (q : Option (Nat × W32 × Bool)) : W64 × State :=
  let serial := match getCtx s ctx with | some x => x.serial + 1 | none => 1
  let s := modCtx s ctx (fun x => { x with serial := serial })
  let (n, s) := fresh s
  (handleOf ctx serial,
   { s with jobs := s.jobs ++ [{ ctx := ctx, serial := serial, card := c, order := n, dealt := 0, launched := 0,
                                 killed := false, poster := poster, queue := q,
                                 qgen := match q with | some (n, _, _) => (getQueue s n).gen | none => 0 }] })

/-! ### Trap-queue entries (11 R239) -/

/-- The fields of an entry; the others are 0. -/
structure EntryF where
  frame : Nat := 0
  job : Nat := 0
  info : Nat := 0
  pc : Nat := 0
  ticket : Nat := 0
  block : Nat := 0xFFFFFFFF
  core : Nat := 0xFF
  gang : Nat := 0
  thread : Nat := 0
  cause : Nat := 0
  scope : Nat := 0
  reason : Nat := 0
  kind : Nat := 0xFF
  faults : Nat := 0
  party : Nat := 0

def EntryF.bits (e : EntryF) : BitVec 512 := BitVec.ofNat 512
  (fld 448 64 e.frame + fld 384 64 e.job + fld 320 64 e.info + fld 256 64 e.pc + fld 192 64 e.ticket + fld 160 32 e.block +
   fld 152 8 e.core + fld 144 8 e.gang + fld 136 8 e.thread + fld 128 8 e.cause + fld 112 16 e.scope + fld 104 8 e.reason +
   fld 96 8 e.kind + fld 64 32 e.faults + fld 0 64 e.party)

/-- A fresh ticket of a context (11 R239). -/
def freshTicket (s : State) (ctx : Nat) : Nat × State :=
  let n := match getCtx s ctx with | some c => c.ticket + 1 | none => 1
  (ctx * 2 ^ 48 + n, modCtx s ctx (fun c => { c with ticket := n }))

/-- A TRAP notification for a job (24 R399, 01 R16). -/
def trapNote (s : State) (ctx serial cause : Nat) : State :=
  let (q, n) := jobQueue s ctx serial
  notify s q { kind := 4, status := cause, first := n, last := n, ctx := ctx, value := 0 }

/-- An entry of reason 5 or 6: queued, or a TRAP notification where no kernel is installed (10 R216, R223). -/
def orphanEntry (s : State) (ctx serial scope reason cause kind info : Nat) : State :=
  if s.kqsize = 0 then trapNote s ctx serial cause
  else
    let (ticket, s) := freshTicket s ctx
    let e : EntryF := { job := if reason = 5 then (handleOf ctx serial).toNat else 0, info := info, ticket := ticket,
                        cause := cause, scope := scope, reason := reason, kind := kind }
    { s with entries := s.entries ++ [{ bits := e.bits, blk := none, ctx := ctx }] }

/-! ### Futures (10 R218, R219) -/

/-- The thread has an FRD outstanding whose future is empty. -/
def awaitsFuture (s : State) (t : Thread) : Bool :=
  s.outst.any (fun o => o.blk == t.blk && o.gang == t.gang && o.lane == t.lane && (match o.op with | .future _ => true | _ => false))
/-- The thread waits by park for an FRD whose future is empty (10 R230). -/
def onFuture (s : State) (t : Thread) : Bool := t.parked && awaitsFuture s t
/-- The thread waits at a header for an FRD whose future is empty: the header's mask names EN (10 R230). -/
def headerFuture (s : State) (t : Thread) : Bool :=
  awaitsFuture s t &&
  (match s.bundles.find? (fun b => b.blk == t.blk && b.mem.contains (t.gang, t.lane)), getBlock s t.blk with
   | some b, some k => b.place.clause.isNone && (match fetchWord s k b.place.hdr.toNat with
      | (.ok w, _) => (match decodeHeader w with | some h => h.waits.getLsbD 0 | none => false)
      | _ => false)
   | _, _ => false)
/-- The thread waits for the reply of an FRD whose future is empty, in an EXIT too: it stands at a kill point (10 R230,
18 R340). -/
def frdWait (s : State) (t : Thread) : Bool :=
  onFuture s t || (t.wait == .exit && awaitsFuture s t) || headerFuture s t

def futState (s : State) (pa : Nat) : Nat := readLE s pa 8 % 4
def futValue (s : State) (pa : Nat) : Nat := readLE s (pa + 8) 8
/-- The state and the head of a future change and its value stays; a write into a poisoned line is not made (10 R218, R230,
21 R369). -/
def futHead (s : State) (pa state head : Nat) : State :=
  if poisoned s pa 8 then s else writeBytes s pa (leBytes 8 (state + fld 16 32 head))
/-- A future receives a state with a value, and its head is 0 (10 R229). -/
def writeFuture (s : State) (pa state value : Nat) : State := writeBytes s pa (leBytes 8 state ++ leBytes 8 value)
/-- What a reader of a FULL future acquires besides the tags of its words: what the FWR or the completion that wrote the
value released (10 R219). -/
def futAcq (s : State) (pa value : Nat) : List (Nat × Nat) :=
  let r := Sparse.get FutRel.none s.futs (pa + 8)
  if r.value.toNat = value then r.acq else []
/-- The same of the two words of a future that becomes FULL, or that no longer holds a value. -/
def setFut (s : State) (pa : Nat) (r : FutRel) : State :=
  setWord (setWord s pa (if r.acq.isEmpty then FutRel.none else { r with value := 1 })) (pa + 8) r

/-- The wait of a thread for an empty future ends with its delivery, and not with the reply's return (10 R230): the watchdog
of its scope is reset (23 R395), and the thread stands at that kill point (02 R23). -/
def endFrdWait (s : State) (blk gang lane : Nat) : State :=
  if (getThread s blk gang lane).any (frdWait s) then
    modThread s blk gang lane (fun t => { t with waited := 0, ended := true, left := true, past := false })
  else s
/-- Deliver a value, or a cancellation, to one continuation: its reply then returns in the EN class (10 R229, R230). -/
def deliverCont (s : State) (c : Cont) (v : Nat) (ok : Bool) : State :=
  let d := c.d
  let s := endFrdWait s c.blk c.gang c.lane
  unstall (updOutst s c.outst (fun o => { o with op := .reply d (if c.keep then 64 else 0) (BitVec.ofNat 64 v) (some (c.pred, ok)) }))
/-- Fill or cancel a future and wake its readers; `acq` is what each reader's block acquires (10 R219, R229). -/
def fillFuture (s : State) (pa value : Nat) (full : Bool) (acq : List (Nat × Nat)) : State :=
  let cs := s.conts.filter (fun c => c.pa == pa)
  let s := { s with conts := s.conts.filter (fun c => c.pa != pa) }
  let s := cs.foldl (fun s c =>
    let s := deliverCont s c (if full then value else 0) full
    acq.foldl (fun s a => raiseAcq s c.blk a.1 a.2) s) s
  if full then writeFuture (setFut s pa { value := BitVec.ofNat 64 value, acq := acq }) pa 1 value
  else futHead (setWord s pa FutRel.none) pa 2 0

/-- The future word after a continuation is unlinked (10 R221). -/
def relinkFuture (s : State) (pa : Nat) : State :=
  match s.conts.find? (fun c => c.pa == pa) with
  | some c => futHead s pa 3 c.idx
  | none => if futState s pa = 3 then futHead s pa 0 0 else s
/-- Unlink the continuations that a test picks (10 R221). -/
def unlinkConts (s : State) (p : Cont → Bool) : State :=
  let gone := s.conts.filter p
  gone.foldl (fun s c => relinkFuture s c.pa) { s with conts := s.conts.filter (fun c => !p c) }

/-- What a reader acquires from the effects of a whole job (10 R216). -/
def jobEffects (s : State) (ctx serial : Nat) : List (Nat × Nat) :=
  (s.gone.filter (fun g => g.ctx == ctx && g.serial == serial)).map (fun g => (g.uid, g.rel))
/-- Blocks that have gone are remembered while tags or words name them, or requests at the pool engines. -/
def pruneGone (s : State) : State :=
  { s with gone := s.gone.filter (fun g => s.gtags.any (fun t => t.2.blk == g.uid) ||
      s.futs.any (fun f => f.2.acq.any (fun a => a.1 == g.uid)) || s.poolReqs.any (fun r => r.blk == g.uid)) }

/-! ### Completion of jobs (10 R216) -/

/-- Write a job's completion future, FULL with the handle or CANCELLED; a FULL or CANCELLED future is left as it is. -/
def writeDone (s : State) (j : Job) (full : Bool) : State :=
  let va := cardDone j.card
  let fail (s : State) (cause : Nat) : State := orphanEntry s j.ctx j.serial (cardScope j.card) 5 cause 2 va
  if va = 0 then s
  else
    match translate s .device j.ctx (cardKernel j.card) 2 va with
    | (.ok pa, s) =>
      if poisoned s pa 16 then fail s 0x23
      else if futState s pa = 0 ∨ futState s pa = 3 then
        fillFuture s pa (handleOf j.ctx j.serial).toNat full (if full then jobEffects s j.ctx j.serial else [])
      else s
    | (.page, s) => fail s 0x09
    | (.perm, s) => fail s 0x0A
    | (.poison _, s) => fail s 0x23

/-- Advance LAST_DONE over done entries (24 R398). -/
def advanceDone (q : HostQ) : HostQ :=
  let n := (q.entries.takeWhile QEntry.done).length
  { q with lastDone := q.lastDone + BitVec.ofNat 32 n, entries := q.entries.drop n }
/-- A host queue's entry is done (24 R398). -/
def entryDone (s : State) (q : Nat) (seq : W32) : State :=
  let x := getQueue s q
  setQueue s q (advanceDone { x with entries := updWhere x.entries (fun e => e.seq == seq) (fun e => { e with done := true }) })

/-- The entry that a job came from is done, unless its queue has had another ring since (24 R396, R398). -/
def jobEntryDone (s : State) (j : Job) : State :=
  match j.queue with
  | some (q, seq, _) => if (getQueue s q).gen = j.qgen then entryDone s q seq else s
  | none => s
/-- A job has ended: its queue entry is done, with a DONE notification where nf asks for one (24 R398, R399). -/
def endJobEntry (s : State) (j : Job) (cancelled : Bool) : State :=
  match j.queue with
  | none => s
  | some (q, seq, nf) =>
    let s := jobEntryDone s j
    if nf then notify s q { kind := 0, status := b2n cancelled, first := seq, last := seq, ctx := j.ctx,
                            value := handleOf j.ctx j.serial }
    else s

/-- Some job of the context names a job as its predecessor (10 R228). -/
def namedPred (s : State) (ctx serial : Nat) : Bool :=
  s.jobs.any (fun j => j.ctx == ctx && cardPred j.card == (handleOf ctx serial).toNat)

/-- The predecessor that a job's card names, as a serial number of its context: none where pred is no handle of the context
(10 R210, R228). -/
def predOf (s : State) (ctx serial : Nat) : Option Nat :=
  match getJob s ctx serial with
  | some j => if natBits (cardPred j.card) 40 24 = ctx then some (cardPred j.card % 2 ^ 40) else none
  | none => none
/-- The status of JPWAIT: none while the predecessor runs (10 R228). -/
def predStatus (s : State) (ctx serial : Nat) : Option Nat :=
  match predOf s ctx serial with
  | none => some 0
  | some n => if s.killedJobs.contains (ctx, n) then some 1 else if (getJob s ctx n).isSome then none else some 0

/-- End the JPWAITs whose predecessor is done; a completed one is acquired (10 R217, R228). -/
def pollJpwait (s : State) : State :=
  s.threads.foldl (fun s t =>
    match t.wait, getBlock s t.blk with
    | .jpwait d, some b =>
      if !b.resident then s else
      match predStatus s b.ctx b.serial with
      | some v =>
        let acq := if v = 0 then ((predOf s b.ctx b.serial).map (jobEffects s b.ctx)).getD [] else []
        let s := acq.foldl (fun s a => raiseAcq s b.uid a.1 a.2) s
        modThread (deliverKept s t.blk t.gang t.lane d 32 v) t.blk t.gang t.lane Thread.unwait
      | none => s
    | _, _ => s) s

/-- Take a job away: completed, or killed (10 R216, R221). -/
def endJob (s : State) (j : Job) (killed : Bool) : State :=
  let s := writeDone s j (!killed)
  let s := endJobEntry s j killed
  let s := { s with jobs := s.jobs.filter (fun x => !(x.ctx == j.ctx && x.serial == j.serial)) }
  let s := if killed && namedPred s j.ctx j.serial then { s with killedJobs := s.killedJobs ++ [(j.ctx, j.serial)] } else s
  let s := { s with killedJobs := s.killedJobs.filter (fun k => namedPred s k.1 k.2) }
  pruneGone (pollJpwait s)

/-! ### Kills (10 R221) -/

/-- Everything of a block but its copies and its threads' barriers goes: its resources return to the core, its bins to what
waits for one (05 R80). -/
def dropBlock (s : State) (uid : Nat) : State :=
  match getBlock s uid with
  | none => s
  | some b =>
    let s := bumpRel s uid
    let rel := match getBlock s uid with | some k => k.rel | none => 0
    let gone : Gone := { uid := uid, ctx := b.ctx, serial := b.serial, scope := b.scope, num := b.num, rel := rel }
    let s := unlinkConts s (fun c => c.blk == uid)
    let s := dropBlockBars s uid
    let s := { s with
      threads := s.threads.filter (fun t => t.blk != uid), gangs := s.gangs.filter (fun g => g.blk != uid),
      bundles := s.bundles.filter (fun x => x.blk != uid), bins := s.bins.filter (fun x => x.blk != uid),
      arrivals := s.arrivals.filter (fun x => x.blk != uid), outst := s.outst.filter (fun o => o.blk != uid),
      claims := s.claims.filter (fun c => c.1 != uid), rings := s.rings.filter (fun r => r.blk != uid),
      copies := s.copies.filter (fun c => c.blk != uid), accs := s.accs.filter (fun a => a.blk != uid) }
    let s := { s with
      opslots := s.opslots.filter (fun a => a.blk != uid), masks := s.masks.filter (fun a => a.blk != uid),
      mops := s.mops.filter (fun m => m.blk != uid), tapins := s.tapins.filter (fun t => t.blk != uid),
      ckpts := s.ckpts.filter (fun c => c.blk != uid), entries := s.entries.filter (fun e => e.blk != some uid),
      blocks := s.blocks.filter (fun x => x.uid != uid), gone := s.gone ++ [gone] }
    settleBins (serveMclaims (serveClaims s) b.core) b.core

/-- A frame slot of a save is free again (11 R243). -/
def freeSave (s : State) (ctx ticket : Nat) : State :=
  match s.saves.find? (fun r => r.ctx == ctx && r.ticket == ticket) with
  | none => s
  | some r =>
    let s := { s with saves := s.saves.filter (fun x => !(x.ctx == ctx && x.ticket == ticket)) }
    match r.slot with
    | some k => modCtx s ctx (fun c => { c with frUsed := c.frUsed.filter (· != k) })
    | none => s

/-- A saved block of a killed subtree is discarded with its frame: its threads leave their barriers (10 R221, 12 R259). In a
protected pair the even lane counts. -/
def discardSaved (s : State) (b : Block) (ticket : Nat) : State :=
  let s := ((blockThreads s b.uid).filter (fun t => !(b.protectd && t.lane % 2 == 1))).foldl (fun s t => t.joins.foldl (fun s j => breakBar (dropJoin s t j.ref) j.ref) s) s
  freeSave (dropBlock s b.uid) b.ctx ticket

/-- Count stopped blocks and removed cards at their scope (10 R223). -/
def countKilled (s : State) (ctx scope : Nat) : State := modScope s ctx scope (fun x => { x with killed := x.killed + 1 })

/-- A command whose destination is its own block's scratchpad, operand slot or ring slot (14 R290). -/
def CopyCmd.ownDst (c : CopyCmd) : Bool := decide (1 ≤ c.dk ∧ c.dk ≤ 3) || (c.dk == 0 && (Rec.of c.drec).spc)
/-- The commands of a block at its kill: those not accepted are never made, those that only the block would see are
discarded, and the others run on, from where a fault had stopped them (14 R290; log 22). -/
def killCopies (s : State) (uid : Nat) : State :=
  let mine (c : CopyCmd) : Bool := c.blk == uid
  let s := { s with copies := s.copies.filter (fun c => !(mine c && (c.ownDst || !c.accepted s))) }
  pollAccept { s with copies := updWhere s.copies mine (fun c => { c with fault := none }) }
/-- Mark a block killed: a save under way turns into the kill; its unaccepted copies, claims, matrix work and held stores go,
while what its threads have sent to memory is performed in order (10 R221, 06 R129, 08 R186, 11 R240, 14 R290, 15 R318). A
rollback block's interval stays as it is, so that stores not yet held are held and discarded too (08 R185). A thread that
waits for an empty future stops in that wait, though its continuation is unlinked (18 R340); every other thread runs to its
next kill point, and what it has outstanding returns to it until then (02 R23, 10 R232). -/
def killBlock (s : State) (b : Block) : State :=
  if b.killed then s
  else
    let s := countKilled s b.ctx b.scope
    match b.status with
    | .saved ticket => discardSaved s b ticket
    | _ =>
      let s := match b.status with | .inPlace t => freeSave s b.ctx t | _ => s
      let s := killCopies s b.uid
      let s := { s with mops := s.mops.filter (fun m => m.blk != b.uid), claims := s.claims.filter (fun c => c.1 != b.uid),
                        entries := s.entries.filter (fun e => e.blk != some b.uid),
                        batons := s.batons.map (fun q => { q with queue := q.queue.filter (fun w => w.1 != b.uid) }) }
      let inFrd := ((blockThreads s b.uid).filter (frdWait s)).map fun t => (t.gang, t.lane)
      let s := unlinkConts s (fun c => c.blk == b.uid && inFrd.contains (c.gang, c.lane))
      let s := modThreads s (fun t => t.blk == b.uid) (fun t =>
        let here := inFrd.contains (t.gang, t.lane)
        { t with watchq := [], left := t.left || here, past := t.past && !here })
      let gone (o : Outst) : Bool := o.blk == b.uid && (match o.op with
        | .matrix .. => true | .tapin _ => true | .future _ => inFrd.contains (o.gang, o.lane) | _ => false)
      let s := { s with outst := s.outst.filter (fun o => !gone o) }
      let kill (k : Block) : Block :=
        { k with killed := true, status := .running, saveReq := none, halted := false, hold := [], arm := none,
                 ckptDue := false }
      let s := serveMclaims (serveClaims (modBlock s b.uid kill)) b.core
      unstall ((blockGangs s b.uid).foldl (fun s g => tryGang s b.uid g.num) s)

/-- Kill a job: its queued card goes, its blocks stop (10 R221). -/
def killJob (s : State) (j : Job) : State :=
  let bs := s.blocks.filter (fun b => b.ctx == j.ctx && b.serial == j.serial)
  if j.killed then s
  else if j.launched = 0 then endJob (countKilled s j.ctx (cardScope j.card)) j true
  else bs.foldl killBlock (modJob s j.ctx j.serial (fun j => { j with killed := true }))

/-- Cancel the subtree of a scope (10 R221, R232). -/
def cancelScope (s : State) (ctx id : Nat) : State :=
  let sub (k : Nat) : Bool := inTree s ctx id k
  let ids := (s.scopes.filter (fun x => x.ctx == ctx && sub x.id)).map Scope.id
  let s := { s with scopes := updWhere s.scopes (fun x => x.ctx == ctx && ids.contains x.id) (fun x => { x with cancelled := true }) }
  (s.jobs.filter (fun j => j.ctx == ctx && ids.contains (cardScope j.card))).foldl killJob s

/-- Kill the job concerned as SCCAN would kill its scope; for scope 0 only the job's own work (01 R16). -/
def killForJob (s : State) (ctx serial scope : Nat) : State :=
  if scope ≠ 0 then cancelScope s ctx scope
  else match getJob s ctx serial with | some j => killJob s j | none => s

/-! ### JPOST, JREC, JHINT, JPWAIT (10 R225-R228) -/

/-- A TASK instruction with one request for each thread: an address that is aligned and translated, else a fault. -/
def taskAddr (s : State) (x : Lane) (va kind align : Nat) (n : Nat) : Except Flt Nat × State :=
  if va % align ≠ 0 then (.error { cause := 0x08, info := va }, s)
  else match laneXlate s x kind va with
    | (.ok pa, s) =>
      let s := meetLines s pa n (partyOf x.b (curOp s) (curPc s) x.t.gang x.t.lane va)
      let bad := if kind = 0 then holdErrs s x.b.uid pa n true else []
      if !bad.isEmpty then (.error (errFlt x.b bad 0), s)
      else if poisoned s pa n then
        (.error (lineFlt s pa n (if kind = 0 then va / 64 * 64 else va) 2), s)
      else (.ok pa, if kind = 0 then
          correctErrs s x.b (curOp s) (curPc s) x.t.gang x.t.lane (holdErrs s x.b.uid pa n false) else s)
    | (.error f, s) => (.error f, s)
/-- The addresses of the lanes of an issue; the bytes there count toward the context's bandwidth budget (10 R215). -/
def taskAddrs (s : State) (xs : List Lane) (a : Reg) (kind align n : Nat) :
    List LaneFlt × List (Lane × Nat) × State :=
  let r := xs.foldl (fun acc x =>
    match taskAddr acc.2.2 x (x.rd a 64) kind align n with
    | (.error e, s) => (acc.1 ++ [LaneFlt.mk x.t.gang x.t.lane e], acc.2.1, s)
    | (.ok pa, s) => (acc.1, acc.2.1 ++ [(x, pa)], s)) ([], [], s)
  if r.1.isEmpty then ([], r.2.1, r.2.1.foldl (fun s q => spendBytes s q.1.b.uid n) r.2.2) else r

/-- The width of a lane's register result: none where another lane's value stays in the s register (05 R94). -/
def keepW (xs : List Lane) (x : Lane) (d : Reg) (n : Nat) : Nat := if d.toNat < 192 || firstOfGang xs x then n else 0

/-- The release count of a block after its release. -/
def relNow (s : State) (uid : Nat) : Nat := match getBlock s uid with | some b => b.rel | none => 0

def execJpost (k : Ctl) (d a : Reg) (s : State) : Res :=
  issue 0xC0 k [r64 a] [r64 d] s fun i s =>
    match taskAddrs s i.cmd a 0 128 128 with
    | ([], as, s) =>
      let s := if as.isEmpty then s else irrevocable s i.b.uid
      .done (as.foldl (fun s q =>
        let (x, pa) := q
        let s := syncRelease s x
        let card := BitVec.ofNat 1024 (leVal (readGlobal s x.b.uid pa 128))
        let st := postStatus s { ctx := x.b.ctx, scope := x.b.scope, kernel := x.b.kernel, host := false } card
        let (v, s) := if st = 0 then
            let (h, s) := queueJob s x.b.ctx card (some (x.b.uid, relNow s x.b.uid)) none
            (h.toNat, s)
          else (2 ^ 63 + st, s)
        addReply s i.no x .en d (keepW i.cmd x d 64) v none) s)
    | (fs, _, s) => .trap s fs

/-- Give a block a new chunk (10 R212). DESIGN CHOICE (log 19): the dealing of a job stops with its kill, so that a JREC of
a killed block before its kill point receives no record; the spec does not say. -/
def dealChunk (s : State) (b : Block) : State :=
  match getJob s b.ctx b.serial with
  | none => modBlock s b.uid (fun b => { b with dry := true })
  | some j =>
    let left := cardCount j.card - j.dealt
    if left = 0 ∨ j.killed then modBlock s b.uid (fun b => { b with dry := true })
    else
      let p := (s.blocks.filter (fun x => x.ctx == b.ctx && x.serial == b.serial && x.resident)).length
      let n := min left (max (max 1 (cardF j.card 528 32)) ((left + 2 * p - 1) / (2 * p)))
      let s := modJob s b.ctx b.serial (fun j => { j with dealt := j.dealt + n })
      modBlock s b.uid (fun b => { b with chunkNext := j.dealt, chunkEnd := j.dealt + n })
/-- Take the next record of a block: its address (10 R226). -/
def takeRecord (s : State) (uid : Nat) : Option Nat × State :=
  match getBlock s uid with
  | none => (none, s)
  | some b =>
    let s := if b.chunkNext < b.chunkEnd ∨ b.dry then s else dealChunk (irrevocable s uid) b
    match getBlock s uid, getJob s b.ctx b.serial with
    | some b, some j =>
      if b.chunkNext < b.chunkEnd then
        (some ((cardF j.card 64 64 + b.chunkNext * cardF j.card 128 32) % 2 ^ 64),
         modBlock s uid (fun b => { b with chunkNext := b.chunkNext + 1 }))
      else (none, s)
    | _, _ => (none, s)

def execJrec (k : Ctl) (d : Reg) (x : BitVec 8) (s : State) : Res :=
  issue 0xC1 k [] [r64 d] s fun i s =>
    .done (i.cmd.foldl (fun s y =>
      match takeRecord s i.b.uid with
      | (some a, s) => addReply s i.no y .en d (keepW i.cmd y d 64) a (some (x.toNat, true))
      | (none, s) => addReply s i.no y .en d (keepW i.cmd y d 64) 0 (some (x.toNat, false))) s)
def execJhint (k : Ctl) (s : State) : Res :=
  issue 0xC2 k [] [] s fun i s =>
    .done (if i.act.isEmpty then s else modBlock s i.b.uid (fun b => { b with hinted := true }))
def execJpwait (k : Ctl) (d : Reg) (s : State) : Res :=
  issue 0xC3 k [] [r32 d] s fun i s =>
    .done (pollJpwait (i.cmd.foldl (fun s x => modThread s x.t.blk x.t.gang x.t.lane (fun t => { t with wait := .jpwait (keptDst i.cmd x d) })) s))

/-! ### FINIT, FWR, FRD (10 R229, R230) -/

/-- A FUTURE fault. -/
def futFlt (code : Nat) : Flt := { cause := 0x11, info := code }
/-- Perform future writes in ascending lane order: the faults, and the state (10 R229). -/
def futWrites (s : State) (xs : List (Lane × Nat)) (bad : Nat → Option Nat) (eff : State → Lane → Nat → State) :
    List LaneFlt × State :=
  xs.foldl (fun acc q =>
    match bad (futState acc.2 q.2) with
    | some code => (acc.1 ++ [⟨q.1.t.gang, q.1.t.lane, futFlt code⟩], acc.2)
    | none => (acc.1, eff acc.2 q.1 q.2)) ([], s)

/-- What the threads of an issue have stored before to the futures that they name comes first (08 R171), and what their fences
order before the access (09 R197). -/
def drainFuts (writes : Bool) (s : State) (as : List (Lane × Nat)) : State :=
  as.foldl (fun s q => drainBytes (settleFences s q.1.t.blk q.1.t.gang q.1.t.lane writes) q.1.t.blk q.1.t.gang q.1.t.lane
    .glob q.2 16) s
/-- An FWR fills a future with the value that its thread writes, after the thread's release (10 R219, R229). -/
def fwrLane (b : Reg) (s : State) (x : Lane) (pa : Nat) : State :=
  let n := relNow s x.b.uid
  tagGlobal (fillFuture s pa (x.rd b 64) true [(x.b.uid, n)]) pa 16 { blk := x.b.uid, count := n, atomic := true, rel := some .all }
/-- A FINIT makes a future EMPTY, an atomic write of its thread that releases nothing but what a fence before it releases
(08 R173, R174; 10 R219, R229). -/
def finitLane (s : State) (x : Lane) (pa : Nat) : State :=
  let rel := relScope s x none
  let s := noteRelease s x none
  tagGlobal (writeFuture (setFut s pa FutRel.none) pa 0 0) pa 16
    { blk := x.b.uid, count := relNow s x.b.uid, atomic := true, rel := rel.map (relCover s x.b.uid) }
def execFinit (k : Ctl) (a : Reg) (s : State) : Res :=
  issue 0xC4 k [r64 a] [] s fun i s =>
    match taskAddrs s i.cmd a 2 16 16 with
    | ([], as, s0) =>
      let s := drainFuts true (if as.isEmpty then s0 else irrevocable s0 i.b.uid) as
      match futWrites s as (fun st => if st = 3 then some 2 else none) finitLane with
      | ([], s) => .done s
      | (fs, _) => .trap s0 fs
    | (fs, _, s) => .trap s fs
/-- FWR. The threads' releases come first, then the state of each future decides. DESIGN CHOICE (log 19): where two FWRs of
one issue name one EMPTY future, the second raises FUTURE (10 R229) and, because a fault leaves no effect of its bundle's
instruction (08 R163), the first is not performed either. -/
def execFwr (k : Ctl) (a b : Reg) (s : State) : Res :=
  issue 0xC5 k [r64 a, r64 b] [] s fun i s =>
    match taskAddrs s i.cmd a 2 16 16 with
    | ([], as, s0) =>
      let s := as.foldl (fun s q => syncRelease s q.1) (if as.isEmpty then s0 else irrevocable s0 i.b.uid)
      match futWrites s as (fun st => if st = 1 ∨ st = 2 then some 1 else none) (fwrLane b) with
      | ([], s) => .done s
      | (fs, _) => .trap s0 fs
    | (fs, _, s) => .trap s fs

/-- Link a continuation of a thread (10 R218, R230). DESIGN CHOICE (log 23): later accesses of the thread are not held until
the delivery, which acquires when it comes. -/
def linkCont (s : State) (i : Iss) (x : Lane) (pa va : Nat) (d : Reg) (p : Nat) : State :=
  let (f, s) := freshFree s
  let (id, s) := addOutst s i.no x .en (.future pa) false true
  let c : Cont := { idx := (Config.waitIndex f).toNat, pa := pa, va := BitVec.ofNat 64 va, ctx := x.b.ctx, serial := x.b.serial, blk := x.t.blk,
                    gang := x.t.gang, lane := x.t.lane, d := d, pred := p, pc := i.pc, keep := keepW i.cmd x d 64 != 0,
                    outst := id }
  relinkFuture { s with conts := s.conts ++ [c] } pa
/-- The state and the value of a future as a block reads it, its held stores included (08 R185). -/
def futSeen (s : State) (blk pa : Nat) : Nat × Nat :=
  (leVal (readGlobal s blk pa 8) % 4, leVal (readGlobal s blk (pa + 8) 8))
/-- FRD of one thread: a FULL future's value is acquired and returned, a CANCELLED one returns false; at any other the
thread is linked (10 R230). -/
def frdLane (i : Iss) (d a : Reg) (p : Nat) (s : State) (q : Lane × Nat) : State :=
  let reply (s : State) (v : Nat) (ok : Bool) : State :=
    (addOutst s i.no q.1 .en (.reply d (keepW i.cmd q.1 d 64) (BitVec.ofNat 64 v) (some (p, ok))) false true).2
  let s := correctHold s q.1.t.blk q.1.t.gang q.1.t.lane .glob q.2 16 { StoreInfo.none with op := 0xC6, pc := i.pc }
  let (st, v) := futSeen s q.1.b.uid q.2
  match st with
  | 1 =>
    let s := acquireWords s q.1.b.uid q.2 16 3
    let s := (futAcq s q.2 v).foldl (fun s a => raiseAcq s q.1.b.uid a.1 a.2) s
    reply s v true
  | 2 => reply s 0 false
  | _ => linkCont s i q.1 q.2 (q.1.rd a 64) d p
def execFrd (k : Ctl) (d a : Reg) (x : BitVec 8) (s : State) : Res :=
  issue 0xC6 k [r64 a] [r64 d] s fun i s =>
    match taskAddrs s i.cmd a 0 16 16 with
    | ([], as, s) =>
      let s := drainFuts false s as
      let links (q : Lane × Nat) : Bool := (futSeen s q.1.b.uid q.2).1 % 3 == 0
      if 1048576 < s.conts.length + (as.filter links).length then .stall s
      else .done (as.foldl (frdLane i d a x.toNat) s)
    | (fs, _, s) => .trap s fs

/-! ### SCOPEN, SCCAN, SCACK, SCQRY (10 R231-R234) -/

/-- The context that a scope operand lies in: the issuer's own, or the one that c names (10 R224). -/
def scopeCtx (x : Lane) (xc : Bool) (c : Reg) : Nat := if xc then x.rd c 32 % 2 ^ 16 else x.b.ctx
/-- The issuer may reach a scope (10 R220). -/
def reaches (s : State) (x : Lane) (xc : Bool) (ctx id : Nat) : Bool :=
  if x.b.kernel then ctxLive s ctx && (getScope s ctx id).isSome
  else !xc && inTree s x.b.ctx x.b.scope id

/-- SCOPEN of one thread: the result and the state. -/
def openScope (s : State) (x : Lane) (xc : Bool) (a b c : Reg) : Nat × State :=
  let ctx := scopeCtx x xc c
  let p := x.rd a 32
  if 2 ^ 16 ≤ p ∨ !reaches s x xc ctx p then (2 ^ 31 + 2, s)
  else if (match getScope s ctx p with | some q => q.cancelled | none => false) then (2 ^ 31 + 1, s)
  else
    match (List.range 65535).find? (fun k => (getScope s ctx (k + 1)).isNone) with
    | none => (2 ^ 31 + 3, s)
    | some k =>
      let sc : Scope := { ctx := ctx, id := k + 1, parent := p, cancelled := false, ack := BitVec.ofNat 64 (x.rd b 64),
                          ackCtx := x.b.ctx, ackKernel := x.b.kernel, killed := 0, wd := 0 }
      (k + 1, { s with scopes := s.scopes ++ [sc] })
def execScopen (k : Ctl) (xc : Bool) (d a b c : Reg) (s : State) : Res :=
  issue 0xC7 k (r32 a :: r64 b :: if xc then [r32 c] else []) [r32 d] s fun i s =>
    match lane1 i.cmd (fun x => if x.rd b 64 % 8 = 0 then none else some { cause := 0x08, info := x.rd b 64 }) with
    | [] =>
      let s := if i.cmd.isEmpty then s else irrevocable s i.b.uid
      .done (i.cmd.foldl (fun s x =>
        let (v, s) := openScope s x xc a b c
        addReply s i.no x .en d (keepW i.cmd x d 32) v none) s)
    | fs => .trap s fs
/-- SCCAN of one thread. -/
def scan (s : State) (x : Lane) (xc : Bool) (a c : Reg) : Nat × State :=
  let ctx := scopeCtx x xc c
  let id := x.rd a 32 % 2 ^ 16
  if (xc && !x.b.kernel) || !ctxLive s ctx then (2, s)
  else match getScope s ctx id with
    | none => (3, s)
    | some q =>
      if id = 0 ∨ !reaches s x xc ctx id then (2, s)
      else if q.cancelled then (1, s)
      else (0, cancelScope s ctx id)
def execSccan (k : Ctl) (xc : Bool) (d a c : Reg) (s : State) : Res :=
  issue 0xC8 k (r32 a :: if xc then [r32 c] else []) [r32 d] s fun i s =>
    let s := if i.cmd.isEmpty then s else irrevocable s i.b.uid
    .done (i.cmd.foldl (fun s x =>
      let (v, s) := scan s x xc a c
      addReply s i.no x .en d (keepW i.cmd x d 32) v none) s)
/-- The reply of SCACK at once, in the order of R233; none while the subtree has still to finish. -/
def ackCode (s : State) (x : Lane) (xc : Bool) (a c : Reg) : Option Nat :=
  let ctx := scopeCtx x xc c
  let id := x.rd a 32 % 2 ^ 16
  if !reaches s x xc ctx id then some 2
  else match getScope s ctx id with
    | none => some 2
    | some q =>
      if !q.cancelled then some 1
      else if ctx = x.b.ctx ∧ inTree s ctx id x.b.scope then some 3
      else none
def execScack (k : Ctl) (xc : Bool) (d a c : Reg) (s : State) : Res :=
  issue 0xC9 k (r32 a :: if xc then [r32 c] else []) [r32 d] s fun i s =>
    let s := if i.cmd.isEmpty then s else irrevocable s i.b.uid
    .done (i.cmd.foldl (fun s x =>
      match ackCode s x xc a c with
      | some v => addReply s i.no x .en d (keepW i.cmd x d 32) v none
      | none =>
        let op : OOp := .scack (scopeCtx x xc c) (x.rd a 32 % 2 ^ 16) d (keepW i.cmd x d 32)
        (addOutst s i.no x .en op false false).2) s)
/-- The work of a subtree that is not over (10 R223): the requests of killed blocks at the pool engines too (17 R337). -/
def scopeBusy (s : State) (ctx id : Nat) : Bool :=
  s.blocks.any (fun b => b.ctx == ctx && inTree s ctx id b.scope) ||
  s.jobs.any (fun j => j.ctx == ctx && inTree s ctx id (cardScope j.card)) ||
  s.poolReqs.any (fun r => s.gone.any (fun g => g.uid == r.blk && g.ctx == ctx && inTree s ctx id g.scope))
/-- SCQRY of one thread (10 R234). -/
def scopeReport (s : State) (x : Lane) (xc : Bool) (a c : Reg) : Nat :=
  let ctx := scopeCtx x xc c
  let id := x.rd a 32 % 2 ^ 16
  if !reaches s x xc ctx id then 3
  else
    let blocks := (s.blocks.filter (fun b => b.ctx == ctx && b.resident && inTree s ctx id b.scope)).length
    let queued := ((queuedJobs s).filter (fun j => j.ctx == ctx && inTree s ctx id (cardScope j.card))).length
    let st := match getScope s ctx id with
      | some q => if !q.cancelled then 0 else if scopeBusy s ctx id then 1 else 2
      | none => 3
    st + 2 ^ 8 * min 255 queued + 2 ^ 16 * min 65535 blocks
def execScqry (k : Ctl) (xc : Bool) (d a c : Reg) (s : State) : Res :=
  issue 0xCA k (r32 a :: if xc then [r32 c] else []) [r32 d] s fun i s =>
    .done (i.cmd.foldl (fun s x => addReply s i.no x .en d (keepW i.cmd x d 32) (scopeReport s x xc a c) none) s)

end Sys2Proof.Machine
end

