-- ==== Sys2Proof/Machine/Sched.lean ====
section
/-! DEFINITION. What a bundle does next (05 R80-R84, 02 R22-R31): kill points, the beginning of a clause, the draw of
bundles from bins, the arrival queue, and the plan of a bundle that has its turn. -/

namespace Sys2Proof.Machine

/-! ### Kill points (02 R23, 10 R221) -/

/-- Instructions whose entry is the entry to a blocking wait (10 R221). -/
def isBlocking : Instr → Bool
  | .perm .. | .permx .. | .vote .. | .elect .. | .gred .. | .gscan .. | .rclaim .. | .rgive .. | .rtry .. => true
  | .rjoin .. | .jpwait .. | .bwait .. | .barw .. | .tapw .. | .mbaton .. | .scfence .. | .nap .. | .cwait .. => true
  | .slacq _ nb _ _ | .sltak _ nb _ _ => !nb
  | .mclaim _ _ nb _ _ _ => !nb
  | _ => false

/-- The bundle is about to issue a blocking wait. -/
def Bundle.atWait (b : Bundle) : Bool :=
  !b.mid && (match b.word? with
    | some w => match decode w with | .instr i => isBlocking i | .reject _ => false
    | none => false)

/-- The thread is in a blocking wait: not in RGIVE's wait for results (06 R130), in one for entries of the copy engine, in
HALTG's park (23 R394), nor in the park of an EXIT (06 R123) but for a future that is empty. -/
def blockWait (s : State) (t : Thread) : Bool :=
  match t.wait with
  | .none | .give .. | .accept | .halt .. => onFuture s t
  | .exit => awaitsFuture s t
  | _ => true
/-- A bundle stands at a kill point: at a header or about to enter a blocking wait, with no member parked (02 R23, R31), at a
faulted instruction, in a blocking wait, where the members that do not wait stand with those that do, or at one that has
ended. -/
def bundleAtKill (s : State) (b : Bundle) : Bool :=
  let ms := membersOf s b
  ((b.place.clause.isNone || b.atWait) && unparked s b) || ms.any (fun t => t.fault.isSome || onFuture s t || t.stands) ||
  (b.mid && ms.any (blockWait s) && ms.all (fun t => t.wait == .none || blockWait s t))
/-- The thread stands at a kill point, alone or with its bundle, or it is filed. -/
def atKill (s : State) (t : Thread) : Bool :=
  t.fault.isSome || t.stands || blockWait s t ||
  (match s.bundles.find? (fun b => b.blk == t.blk && b.mem.contains (t.gang, t.lane)) with
   | some b => bundleAtKill s b
   | none => t.wait == .none)
/-- Every thread of a block has stopped. -/
def allStopped (s : State) (blk : Nat) : Bool := (blockThreads s blk).all (atKill s)

/-! ### Which bundle may issue -/

/-- The thermal island of a core has tripped (24 R405). -/
def coreTripped (s : State) (core : Nat) : Bool := s.tripped.contains (core / 2)

/-- A bundle is in the middle of a clause, and none of its members is in a blocking wait. -/
def holdsSlot (s : State) (b : Bundle) : Bool := b.place.clause.isSome && (membersOf s b).all (fun t => !blockWait s t)

/-- A path is itself waiting, so that turns pass over it. -/
def pathWaits (s : State) (b : Bundle) : Bool := (membersOf s b).any (fun t => blockWait s t || headerFuture s t)
/-- The path is set aside: in a bin, or at a blocking wait that it has entered, until its next turn (05 R84; log 18). -/
def asideNow (s : State) (b : Bundle) : Bool := b.aside || pathWaits s b || (membersOf s b).any Thread.left
/-- The running paths of a bundle's family beside it. -/
def runningSiblings (s : State) (b : Bundle) : List Bundle :=
  s.bundles.filter (fun x => x.fam == b.fam && x.blk == b.blk && x.id != b.id && !asideNow s x)
/-- The path was set aside before every other set-aside path of its family that is not itself waiting (05 R84). -/
def oldestAside (s : State) (b : Bundle) : Bool :=
  s.bundles.all (fun x => !(x.fam == b.fam && x.blk == b.blk && asideNow s x) || x.id == b.id || pathWaits s x || decide (b.since ≤ x.since))
/-- The path may run: it is not set aside, or no running path of its family is inside a clause and it is the oldest that
is set aside. That its age has passed 256 cycles is what its turn says (05 R84; log 1). -/
def mayRun (s : State) (b : Bundle) : Bool :=
  !asideNow s b || ((runningSiblings s b).all (fun x => !holdsSlot s x) && oldestAside s b)
/-- A path takes its turn; the path that ran is set aside with age 0, from now or from the wait that it has entered. -/
def takeTurn (s : State) (b : Bundle) : State :=
  let other (x : Bundle) : Bool := x.fam == b.fam && x.blk == b.blk && x.id != b.id && !x.aside
  if b.aside || s.bundles.any other then
    let (n, t) := fresh s
    settleBins { t with bundles := t.bundles.map (fun x =>
        if x.id = b.id then { x with aside := false }
        else if other x then { x with aside := true, since := if asideNow s x then x.since else n } else x) } (coreOf s b.blk)
  else s

/-- The park of a bundle's members ends, and they go on from the wait that they stood at. -/
def clearPark (s : State) (b : Bundle) : State :=
  modThreads s (fun t => t.blk == b.blk && b.mem.contains (t.gang, t.lane)) (fun t => { t with parked := false, left := false, past := false })
/-- A member of the bundle stands at a fault. -/
def faulted (s : State) (b : Bundle) : Bool := (membersOf s b).any (fun t => t.fault.isSome)

/-- A context has spent its energy budget of the period (10 R215). -/
def energySpentOut (s : State) (ctx : Nat) : Bool :=
  match getCtx s ctx with | some c => c.benergy != 0 && decide (c.benergy.toNat ≤ c.mjSpent) | none => false
/-- The class waits for the next period (10 R215, 21 R375). -/
def gated (s : State) (b : Block) (c : Cls) : Bool :=
  (c == .mem || c == .copy || c == .mtx) && (bytesSpentOut s b.ctx || energySpentOut s b.ctx)

/-! ### CLAUSE_BEGIN (02 R22, R29) -/

/-- The class of a wait bit; the bits run LD ST AT CP MX TP EN from the most significant. -/
def waitCls : List (Nat × OCls) := [(6, .ld), (5, .st), (4, .at_), (3, .cp), (2, .mx), (1, .tp), (0, .en)]
/-- A member has a result outstanding in a class of the wait mask. -/
def headerHolds (s : State) (b : Bundle) (waits : BitVec 7) : Bool :=
  (membersOf s b).any fun t => waitCls.any fun w => waits.getLsbD w.1 && outstIn s t.blk t.gang t.lane (· == w.2)

/-- Fetch the clause at the bundle's header; a fault is raised at the header. Where the header could not be fetched when the
bundle arrived, it is a reform point or a meeting of paths only now (05 R80, R82, R84, R408). A header with the yield hint
lets another ready bundle go before the clause issues (02 R32). DESIGN CHOICE (log 23): the words of a clause are all read in
this one step, so that of two ordered changes to its words no fetch has the later one without the earlier. -/
def beginClause (s : State) (b : Bundle) (k : Block) : State :=
  let fail (s : State) (f : Flt) : State := raise s k.uid 0 b.place.hdr (b.mem.map fun m => ⟨m.1, m.2, f⟩)
  if b.place.hdr.toNat % 8 ≠ 0 then fail s { cause := 0x03 } else
  match fetchWord s k b.place.hdr.toNat with
  | (.error f, s) => fail s f
  | (.ok w, s) =>
    match decodeHeader w with
    | none => fail s { cause := 0x03 }
    | some h =>
      if h.rf && !b.drawn then settleBins (fileMembers s b k.core) k.core else
      let s := mergePath s b.id
      let b := (getBundle s b.id).getD b
      if headerHolds s b h.waits then s
      else
        match fetchWords s k (b.place.hdr.toNat + 8) (h.n + 1) with
        | (.error f, s) => fail s f
        | (.ok ws, s) =>
          let s := takeTurn (clearPark s b) b
          modBundle (settleBins s k.core) b.id (fun b => { b with
            place := { b.place with clause := some ⟨h.cls, ws⟩, idx := 0 }, drawn := false, yielded := b.yielded || h.yl })

/-- The header that a bundle stands at holds it on outstanding results. -/
def heldAtHeader (s : State) (b : Bundle) : Bool :=
  match getBlock s b.blk with
  | some k => match (fetchWord s k b.place.hdr.toNat).1 with
    | .ok w => match decodeHeader w with | some h => headerHolds s b h.waits | none => false
    | .error _ => false
  | none => false

/-- The bundle that a thread is a member of. -/
def bundleOf (s : State) (t : Thread) : Option Bundle :=
  s.bundles.find? (fun b => b.blk == t.blk && b.mem.contains (t.gang, t.lane))
/-- A FRD reply of the thread is outstanding. -/
def frdOut (s : State) (t : Thread) : Bool :=
  s.outst.any fun o => o.blk == t.blk && o.gang == t.gang && o.lane == t.lane && o.cls == .en && o.acq
/-- The thread is at a kill point for a WATCH: in a wait that it can leave, at one that has ended, about to enter one, or at
a header that nothing holds it at (19 R354). -/
def watchPoint (s : State) (t : Thread) : Bool :=
  !t.fault.isSome &&
  (match t.wait with
   | .exit | .halt .. | .give .. | .accept => false
   | .none =>
     !(t.parked && outstAny s t.blk t.gang t.lane) &&
     (match bundleOf s t with
      | some b => if b.place.clause.isNone then !heldAtHeader s b else b.atWait || (b.mid && t.stands)
      | none => true)
   | _ => true)
/-- The thread stands at the kill point at which it takes the trap at the head of its queue (19 R354). -/
def watchDue (s : State) (t : Thread) : Bool := !t.watchq.isEmpty && !t.handling && !frdOut s t && watchPoint s t
/-- Some member of the bundle takes a WATCH trap before the bundle goes on. -/
def anyWatchDue (s : State) (b : Bundle) : Bool := (membersOf s b).any (watchDue s)

/-- A bundle at a header may begin its clause. -/
def mayBegin (s : State) (b : Bundle) (k : Block) : Bool :=
  b.place.clause.isNone && !b.mid && !b.stalled && !k.stopping && !coreTripped s k.core && mayRun s b && unparked s b && !faulted s b &&
  !anyWaits s b && !anyWatchDue s b

/-- The event CLAUSE_BEGIN of a bundle. -/
def execClauseBegin (bundle : Nat) (s : State) : Res :=
  match getBundle s bundle with
  | none => .next s
  | some b =>
    match getBlock s b.blk with
    | none => .next s
    | some k => .next (if mayBegin s b k then beginClause s b k else s)

/-! ### BUNDLE_DRAW and ARRIVAL_QUEUE_FILE (05 R80, R81) -/

/-- The earliest-filed thread of each lane position. -/
def drawOf (filed : List Filed) : List Filed := (List.range 32).filterMap (fun l => filed.find? (fun f => f.lane == l))
/-- A bin holds a thread for every index. -/
def binFull (b : Bin) : Bool := (drawOf b.filed).length == 32
/-- When the oldest thread of a bin was filed. -/
def Bin.oldest (b : Bin) : Nat := match b.filed.head? with | some f => f.no | none => 0
/-- The bins that a core can draw from: those of the blocks that it holds and that nothing stops. -/
def openBins (s : State) (core : Nat) : List Bin :=
  s.bins.filter (fun b => b.core == core && (match getBlock s b.blk with
    | some k => k.core == core && k.resident && !k.stopping
    | none => false))
/-- The draw of R81 takes this bin: the oldest one where the event says that its age exceeds 256 cycles, else the oldest
full one (log 1). -/
def drawsFrom (s : State) (b : Bin) (aged : Bool) : Bool :=
  let cs := (openBins s b.core).filter (fun x => aged || binFull x)
  cs.contains b && cs.all (fun x => decide (b.oldest ≤ x.oldest))

/-- The event BUNDLE_DRAW of a bin (05 R81). -/
def execBundleDraw (bin : Nat) (aged : Bool) (s : State) : Res :=
  match s.bins.find? (fun b => b.id == bin) with
  | none => .next s
  | some b =>
    if !drawsFrom s b aged then .next s
    else
      let ms := drawOf b.filed
      let rest := b.filed.filter (fun m => !ms.contains m)
      let bins := if rest.isEmpty then s.bins.filter (fun x => x.id != bin)
        else updWhere s.bins (fun x => x.id == bin) (fun x => { x with filed := rest })
      let s := (newBundle { s with bins := bins } none b.blk b.role (ms.map Filed.m) (Place.at_ b.hdr) true false).2
      .next (if rest.isEmpty then settleBins s b.core else s)
/-- The event ARRIVAL_QUEUE_FILE of a core. -/
def execArrivalQueueFile (core : Nat) (s : State) : Res := .next (fileArrivals s core)

/-! ### The plan of a bundle -/

/-- What a bundle that has its turn does: nothing, a change of state alone, or an instruction. -/
inductive Plan where
  | idle
  | out (s : State)
  | run (i : Instr) (s : State)

/-- The blocks that a HALTG names. -/
def haltBlocks (s : State) (ctx serial : Nat) (blk : Option Nat) : List Block :=
  s.blocks.filter (fun b => b.ctx == ctx && b.serial == serial && (match blk with | some n => b.num == n | none => true))
/-- End the parks that HALTG's issuers are in, where every named thread has stopped, or is halted no longer (23 R394).
DEDUCED (log 23): a HALTG that names its issuer's own block has a thread that does not stop, its issuer, so that it parks
until the halt ends. -/
def pollHalt (s : State) : State :=
  s.threads.foldl (fun s t =>
    match t.wait with
    | .halt c n b d =>
      if (haltBlocks s c n b).all (fun k => (s.blocks.filter (fun q => q.sameGroup k)).all (fun q => !q.halted || !q.resident || allStopped s q.uid)) then
        modThread (deliverKept s t.blk t.gang t.lane d 32 0) t.blk t.gang t.lane Thread.unwait
      else s
    | _ => s) s

/-- The fault of a word that decodes to no instruction, after the checks that come first (02 R40). -/
def wordFault (b : Block) (role : Nat) (c : Clause) (idx : Nat) (w : W64) (r : Nat) : Nat :=
  (orderFault b role c idx (opOf w).toNat).getD r

/-- The plan of a bundle, whether or not it gives way to another one. -/
def planOf (s : State) (id : Nat) : Plan :=
  match getBundle s id with
  | none => .idle
  | some b =>
    match getBlock s b.blk with
    | none => .idle
    | some k =>
      if !k.resident || coreTripped s k.core || faulted s b || !mayRun s b then .idle
      else
        match b.place.clause with
        | none => if mayBegin s b k then .run (.clauseBegin id) s else .idle
        | some c =>
          if b.mid then
            let s1 := pollHalt s
            if anyWaits s1 b || k.status != .running || (k.stopping && (membersOf s1 b).any Thread.stands) || anyWatchDue s1 b then .idle
            else .out (moveTo (takeTurn s1 b) id b.place.next)
          else if !unparked s b || b.stalled || gated s k c.cls || (b.atWait && anyWatchDue s b) ||
              (k.stopping && (b.atWait || k.status != .running || (membersOf s b).any Thread.stands)) then .idle
          else
            match b.word? with
            | none => .idle
            | some w =>
              let s1 := { takeTurn (clearPark s b) b with cur := id }
              match decode w with
              | .instr i => .run i s1
              | .reject r =>
                let cause := wordFault k b.role c b.place.idx w (match r with | .illop => 0x01 | .illenc => 0x02)
                .out (raise s1 k.uid (opOf w).toNat b.place.addr (b.mem.map fun m => ⟨m.1, m.2, { cause := cause }⟩))

/-- Another bundle of the core is ready, and does not itself give way. -/
def otherReady (s : State) (b : Bundle) : Bool :=
  s.bundles.any (fun x => x.id != b.id && !x.yielded && onCore s (coreOf s b.blk) x.blk &&
    (match planOf s x.id with
     | .idle => false
     | .out _ => true
     | .run _ _ => x.place.clause.isSome || !heldAtHeader s x))
/-- The bundles of a core that gave way have done so once an instruction of the core issues. -/
def gaveWay (s : State) (core : Nat) : State :=
  if s.bundles.any Bundle.yielded then
    { s with bundles := updWhere s.bundles (fun x => onCore s core x.blk) (fun x => { x with yielded := false }) }
  else s
/-- The plan of a bundle: after YIELD, and in a clause whose header has the yield hint, it gives way to another ready
bundle first (02 R32, 06 R125). -/
def planBundle (s : State) (id : Nat) : Plan :=
  match getBundle s id with
  | none => .idle
  | some b =>
    if b.yielded && b.place.clause.isSome && otherReady s b then .idle
    else
      match planOf s id with
      | .run i s1 => .run i (if b.place.clause.isSome then gaveWay s1 (coreOf s1 b.blk) else s1)
      | p => p

end Sys2Proof.Machine
end

