-- ==== Sys2Proof/Machine/Jobs.lean ====
section
/-! DEFINITION. The life of jobs and blocks at the task engine: placement and launch (10 R211-R217, 05 R408), retirement
and completion (10 R216), and the end of a cancelled subtree (10 R223). -/

namespace Sys2Proof.Machine

/-! ### Placement (10 R213-R215) -/

/-- The cores that hold a block of a context. -/
def coresHeld (s : State) (ctx : Nat) : List Nat :=
  (List.range 192).filter (fun c => s.blocks.any (fun b => b.core == c && b.ctx == ctx && b.resident))
/-- Scratchpad granules, operand slots and gangs in use on a core. -/
def granulesUsed (s : State) (core : Nat) : Nat := ((coreBlocks s core).map (fun b => b.ssize / 4096)).sum
def slotsUsed (s : State) (core : Nat) : Nat := ((coreBlocks s core).map Block.slots).sum
def gangsUsed (s : State) (core : Nat) : Nat := ((coreBlocks s core).map Block.ngang).sum

/-- A core has room for a block of these sizes (01 R7, 05 R88, R89, 12 R249, 15 R292), within the context's core budget
(10 R215). -/
def coreFits (s : State) (ctx core units scratch slots gangs : Nat) : Bool :=
  let held := coresHeld s ctx
  let budget := match getCtx s ctx with | some c => c.bcores.toNat | none => 0
  decide (core < numCores s) && !coreTripped s core && decide ((coreBlocks s core).length < 16) &&
  decide (units ≤ freeUnits s core) && decide (granulesUsed s core + scratch / 4096 ≤ 128) &&
  decide (slotsUsed s core + slots ≤ 64) && decide (gangsUsed s core + gangs ≤ 64) &&
  (budget == 0 || held.contains core || decide (held.length < budget))
/-- A core has room for a block of a card. -/
def cardFits (s : State) (j : Job) (core : Nat) : Bool :=
  coreFits s j.ctx core (cardBases j.card) (cardScratch j.card) (cardF j.card 200 8) (cardGangs j.card)

/-- The cores of a group lie within one terrace or one valley (10 R213). -/
def oneDomain (level : Nat) (cores : List Nat) : Bool :=
  let dom (c : Nat) : Nat := match level with | 1 => c / 4 | 2 => c / 24 | _ => 0
  level == 0 || cores.all (fun c => some (dom c) == cores.head?.map dom)
/-- The places of a level: lists of cores within which a group stays. -/
def domains (s : State) (level : Nat) : List (List Nat) :=
  match level with
  | 1 => (List.range (numTerraces s)).map (fun t => (List.range 4).map (4 * t + ·))
  | 2 => (List.range (numValleys s)).map (fun v => (List.range 24).map (24 * v + ·))
  | _ => [List.range (numCores s)]

/-! ### A new block (05 R91, R97, R408) -/

/-- The threads of a gang at launch: every register and predicate zero. -/
def newThread (uid g l : Nat) (entry : W64) : Thread :=
  { blk := uid, gang := g, lane := l, v := [], p := 0, pc := entry, fpflags := 0, trcause := 0, trpc := 0, trinfo := 0,
    wrec := 0, handling := false, resume := Place.at_ 0, fault := none, wait := .none, parked := false, batch := 0,
    openErr := false, sealed := [], joins := [], watchq := [], rewait := .none, waited := 0, ended := false,
    left := false, past := false, flip := none, relNext := none, lastRd := [] }
def newGang (uid g role base : Nat) : Gang :=
  { blk := uid, num := g, role := role, base := base, ext := 0, s := [], armed := [], arrived := [] }
def entryOf (c : BitVec 1024) : W64 := BitVec.ofNat 64 (cardF c 0 64)

/-- A block of a job on a core, with its gangs and threads and no bundle yet. Its first checkpoint is due at launch
where it carries the rollback flag (21 R374). -/
def newBlock (s : State) (j : Job) (num core group : Nat) : Nat × State :=
  let (uid, s) := fresh s
  let c := j.card
  let flags := BitVec.ofNat 4 (cardF c 584 4)
  let b : Block :=
    { uid := uid, ctx := j.ctx, serial := j.serial, num := num, core := core, flags := flags, scope := cardScope c,
      prio := cardF c 560 4, cap := cardF c 208 16, slots := cardF c 200 8, ngang := cardGangs c, glevel := cardLevel c,
      group := group, ssize := cardScratch c, scratch := [], granules := [], recs := [], mtol := 0x37800000, rbcount := 0, chunkNext := 0,
      chunkEnd := 0, dry := false, hinted := false, interval := 0, tags := [], rel := 0, acq := [], status := .running,
      saveReq := none, halted := false, killed := false, hold := [], revocable := false, failed := false, image := false,
      dirtyRows := [], dirtyLines := [], dirtyAccs := [], dirtyMasks := [], mcheck := [], ckptDue := flags.getLsbD 1, chkKill := false,
      arm := none, bad := [], errs := [], stall := [] }
  let b := match j.poster with
    | some (p, rel) => { b with acq := Sparse.set 0 b.acq p rel }
    | none => b
  let gangs := (List.range (cardGangs c)).map (fun g => newGang uid g (cardRole c g) (cardRegs c (cardRole c g)))
  let threads := (List.range (cardGangs c)).flatMap (fun g => (List.range 32).map (fun l => newThread uid g l (entryOf c)))
  (uid, { s with blocks := s.blocks ++ [b], gangs := s.gangs ++ gangs, threads := s.threads ++ threads })

/-- The gangs of a new block start: one bundle for each, or every thread filed at a reform point (05 R408). -/
def startBlock (s : State) (uid : Nat) (entry : W64) : State :=
  match getBlock s uid with
  | none => s
  | some b =>
    let (rf, s) := isReform s b entry
    (blockGangs s uid).foldl (fun s g =>
      let ms := (gangThreads s uid g.num).map (fun t => (t.gang, t.lane))
      if rf then ms.foldl (fun s m => fileThread s b.core uid g.role entry m) s
      else (newBundle s none uid g.role ms (Place.at_ entry) false false).2) s

/-! ### Launch (10 R211-R217) -/

/-- Launched blocks of a job that still exist. -/
def jobBlocks (s : State) (j : Job) : List Block := s.blocks.filter (fun b => b.ctx == j.ctx && b.serial == j.serial)

/-- The job is hinted: every launched block has issued JHINT or retired, and nothing is undealt (10 R217). -/
def hinted (s : State) (j : Job) : Bool :=
  j.launched != 0 && (jobBlocks s j).all Block.hinted && j.dealt == cardCount j.card
/-- The predecessor of a job lets it be admitted (10 R217). -/
def predAdmits (s : State) (j : Job) : Bool :=
  let p := cardPred j.card
  if p = 0 ∨ natBits p 40 24 ≠ j.ctx then true
  else match getJob s j.ctx (p % 2 ^ 40) with | some q => hinted s q | none => true
/-- Neither budget of the period is spent (10 R215). -/
def budgetsOpen (s : State) (ctx : Nat) : Bool := !bytesSpentOut s ctx && !energySpentOut s ctx
/-- The job has a block still to launch, and nothing but its placement keeps it back; a boot that has failed admits none
(24 R403; log 9). -/
def admissible (s : State) (j : Job) : Bool :=
  !s.cfg.bootfail && !j.killed && ctxLive s j.ctx && predAdmits s j && budgetsOpen s j.ctx &&
  (if cardCount j.card = 0 then j.launched == 0 else decide (j.dealt < cardCount j.card))

/-- Place the blocks of a group on cores, one after the other; none where one does not fit. -/
def placeBlocks (s : State) (j : Job) (group num : Nat) : List Nat → Option (List Nat × State)
  | [] => some ([], s)
  | c :: t =>
    if cardFits s j c then
      let (uid, s) := newBlock s j num c group
      (placeBlocks s j group (num + 1) t).map (fun r => (uid :: r.1, r.2))
    else none
/-- Fill the cores of one place with a group, each core as far as it goes. -/
def fillCores (s : State) (j : Job) (dom : List Nat) : Nat → Option (List Nat)
  | 0 => some []
  | n + 1 =>
    match dom.find? (cardFits s j) with
    | none => none
    | some c =>
      let s1 := (newBlock s j 0 c 0).2
      (fillCores s1 j dom n).map (c :: ·)
/-- How many blocks of a job a core has room for, up to the 16 that a core holds. -/
def coreRoom (s : State) (j : Job) (core : Nat) : Nat → Nat
  | 0 => 0
  | n + 1 => if cardFits s j core then coreRoom (newBlock s j 0 core 0).2 j core n + 1 else 0
/-- The cores of a place in the order in which a group takes the fewest new cores of a core budget: those that the context
holds, then those with the most room (10 R215). -/
def byRoom (s : State) (j : Job) (dom : List Nat) : List Nat :=
  let held := coresHeld s j.ctx
  let rooms := (dom.filter (fun c => !held.contains c)).map (fun c => (coreRoom s j c 16, c))
  dom.filter held.contains ++ (List.range 17).reverse.flatMap (fun r => (rooms.filter (fun q => q.1 == r)).map Prod.snd)
/-- A placement of the next group of a job, if there is one (10 R213-R215). -/
def findCores (s : State) (j : Job) : Option (List Nat) :=
  (domains s (cardLevel j.card)).findSome? (fun d => fillCores s j (byRoom s j d) (cardGroup j.card))

/-- Job a is served before job b (10 R214). -/
def servedBefore (a b : Job) : Bool :=
  let p (j : Job) : Nat := cardF j.card 560 4
  decide (p b < p a) || (p a == p b && decide (a.order < b.order))
/-- The job that is served next: of those that can be placed, the first in order. -/
def nextJob (s : State) : Option Job :=
  ((s.jobs.filter (admissible s)).filter (fun j => (findCores s j).isSome)).foldl
    (fun m j => match m with | none => some j | some k => if servedBefore j k then some j else some k) none

/-- A job's next group may be launched on cores: they are as many as its blocks, in one domain, and no job that can be
placed is served before it (10 R211-R214). -/
def mayLaunch (s : State) (j : Job) (cores : List Nat) : Bool :=
  admissible s j && cores.length == cardGroup j.card && oneDomain (cardLevel j.card) cores &&
  (match nextJob s with | some k => k == j || !servedBefore k j | none => true)
/-- The event BLOCK_LAUNCH: a group of the job on the cores that the event names. -/
def execBlockLaunch (ctx serial : Nat) (cores : List Nat) (s : State) : Res :=
  match getJob s ctx serial with
  | none => .next s
  | some j =>
    if mayLaunch s j cores then
      match placeBlocks s j j.launched j.launched cores with
      | none => .next s
      | some (uids, s) =>
        let s := modJob s ctx serial (fun j => { j with launched := j.launched + cores.length })
        .next (uids.foldl (fun s u => startBlock s u (entryOf j.card)) s)
    else .next s

/-! ### Stall records (23 R390-R392) -/

/-- The stall record that a retirement or a save makes. -/
def stallRecord (s : State) (uid : Nat) : State :=
  match getBlock s uid with
  | none => s
  | some b =>
    let words := ((List.range 13).map (fun k => fld (96 + 32 * k) 32 (Sparse.get 0 b.stall (k + 1)).toNat)).sum
    traceRec s b.ctx 3 (words + fld 56 40 b.serial + fld 24 32 b.num + fld 8 16 b.ctx) b.uid

/-! ### Retirement and completion (10 R216) -/

/-- A block has work that is not performed. -/
def blockBusy (s : State) (b : Block) : Bool :=
  !(blockThreads s b.uid).isEmpty || s.copies.any (fun c => c.blk == b.uid && !(b.killed && c.ownDst)) || s.outst.any (fun o => o.blk == b.uid) ||
  s.poolReqs.any (fun q => q.blk == b.uid) ||
  s.mops.any (fun m => m.blk == b.uid && (match m.kind with | .drain _ => true | _ => false)) || !b.mcheck.isEmpty ||
  !b.resident
/-- The event BLOCK_RETIRE. -/
def execBlockRetire (blk : Nat) (s : State) : Res :=
  match getBlock s blk with
  | none => .next s
  | some b =>
    if blockBusy s b then .next s
    else
      .next (dropBlock (stallRecord (if b.killed then s else drainHold s blk) blk) blk)

/-- A job has nothing left to launch and no block. -/
def jobOver (s : State) (j : Job) : Bool :=
  (jobBlocks s j).isEmpty && (j.killed || (j.launched != 0 && j.dealt == cardCount j.card))
/-- The event JOB_COMPLETE. -/
def execJobComplete (ctx serial : Nat) (s : State) : Res :=
  match getJob s ctx serial with
  | none => .next s
  | some j => .next (if jobOver s j then endJob s j j.killed else s)

/-! ### SCACK_COMPLETE (10 R223, R233) -/

/-- The scopes of a subtree. -/
def subtree (s : State) (ctx id : Nat) : List Scope := s.scopes.filter (fun x => x.ctx == ctx && inTree s ctx id x.id)
/-- Write the acknowledgement word; a write that is impossible is reported (10 R223). DESIGN CHOICE (log 19): the serial of
that entry's ticket is one of the context that the word lies in, the spec naming no other. -/
def writeAck (s : State) (x : Scope) (killed : Nat) (acq : List (Nat × Nat)) : State :=
  let word := min killed (2 ^ 32 - 1) * 2 ^ 32 + 2 ^ 16 + x.id
  let fail (s : State) (cause : Nat) : State := orphanEntry s x.ackCtx 0 x.id 6 cause 1 x.ack.toNat
  if x.ack = 0 then s
  else
    match translate s .device x.ackCtx x.ackKernel 1 x.ack.toNat with
    | (.ok pa, s) =>
      if poisoned s pa 8 then fail s 0x23
      else writeBytes (setWord s pa { value := BitVec.ofNat 64 word, acq := acq }) pa (leBytes 8 word)
    | (.page, s) => fail s 0x09
    | (.perm, s) => fail s 0x0A
    | (.poison _, s) => fail s 0x23
/-- An outstanding SCACK of a scope, and of some scope. -/
def Outst.acks (o : Outst) (ctx scope : Nat) : Bool := match o.op with | .scack c i _ _ => c == ctx && i == scope | _ => false
def Outst.acksOne (o : Outst) (xs : List Scope) : Bool := xs.any (fun x => o.acks x.ctx x.id)
/-- The reply 0 of an SCACK whose subtree is over. -/
def Outst.acked (o : Outst) : Outst := match o.op with
  | .scack _ _ d w => { o with op := .reply d w 0 none }
  | _ => o
/-- One SCACK of a scope completes: its word is written, and what the blocks of its subtree did is acquired with the reply
and with the word (10 R223, R233). -/
def endAck (s : State) (x : Scope) : State :=
  let sub := subtree s x.ctx x.id
  let acq := (s.gone.filter (fun g => g.ctx == x.ctx && sub.any (fun y => y.id == g.scope))).map (fun g => (g.uid, g.rel))
  let s := writeAck s x (sub.map Scope.killed).sum acq
  (s.outst.filter (fun o => o.acks x.ctx x.id)).foldl (fun s o => acq.foldl (fun s a => raiseAcq s o.blk a.1 a.2) s) s
/-- The subtree of a scope is over, and so is that of every scope in it: each SCACK that is outstanding there completes, and
the ids are free (10 R223, R233). -/
def endScope (s : State) (x : Scope) : State :=
  let sub := subtree s x.ctx x.id
  let named := sub.filter (fun y => s.outst.any (fun o => o.acks y.ctx y.id))
  let s := named.foldl endAck s
  unstall { s with outst := updWhere s.outst (fun o => o.acksOne named) Outst.acked,
                   scopes := s.scopes.filter (fun y => !sub.contains y) }
/-- The event SCACK_COMPLETE. -/
def execScackComplete (ctx scope : Nat) (s : State) : Res :=
  match getScope s ctx scope with
  | none => .next s
  | some x =>
    if !x.cancelled || scopeBusy s ctx scope || !s.outst.any (fun o => o.acks ctx scope) then .next s
    else .next (endScope s x)

/-! ### Context loss (21 R380) -/

/-- Uninstall the pools that a test picks (17 R324). -/
def dropPools (s : State) (p : Pool → Bool) : State := { s with pools := s.pools.filter (fun q => !p q) }
/-- A block leaves its core: its gangs give up the baton. -/
def leaveBatons (s : State) (b : Block) : State := (blockGangs s b.uid).foldl (fun s g => batonLeave s b.core b.uid g.num) s
/-- A LOST notification to each queue of the context, else to queue 0 (24 R399). -/
def notifyLost (s : State) (ctx : Nat) : State :=
  let note : Note := { kind := 6, status := 0, first := 0, last := 0, ctx := ctx, value := 0 }
  let qs := (s.queues.filter (fun q => q.2.qsize != 0 && q.2.qctx.toNat % 2 ^ 16 == ctx)).map Prod.fst
  (if qs.isEmpty then [0] else qs).foldl (fun s q => notify s q note) s
/-- Mark a context LOST: its jobs, blocks, frames, pools and group barriers go; memory is kept. -/
def loseContext (s : State) (ctx : Nat) : State :=
  if !ctxLive s ctx then s
  else
    let s := modCtx s ctx (fun c => { c with state := 2, frUsed := [] })
    let s := (s.blocks.filter (fun b => b.ctx == ctx)).foldl (fun s b =>
      dropBlock (leaveBatons s b) b.uid) { s with conts := s.conts.filter (fun c => c.ctx != ctx) }
    let s := (s.jobs.filter (fun j => j.ctx == ctx)).foldl jobEntryDone s
    let s := { s with jobs := s.jobs.filter (fun j => j.ctx != ctx), scopes := s.scopes.filter (fun x => x.ctx != ctx),
                      saves := s.saves.filter (fun r => r.ctx != ctx), killedJobs := s.killedJobs.filter (fun k => k.1 != ctx),
                      poolReqs := s.poolReqs.filter (fun q => q.ctx != ctx) }
    notifyLost (pruneGone (dropGroupBars (dropPools s (fun p => p.ctx == ctx)) ctx)) ctx
/-- A poisoned line in state of a context has been read with no block to raise ECC at: the check is logged and the context is
lost (21 R369, R380 step 3). -/
def loseToPoison (s : State) (ctx pa : Nat) : State :=
  if !ctxLive s ctx then s
  else
    let s := meetLine s pa
    let check := poisonCheck s pa 1
    let (unit, s) := lineHolder (settleFound s)
    loseContext (logMck s { lineRec unit check 0x23 4 with ctx := ctx }) ctx

end Sys2Proof.Machine
end

