-- ==== Sys2Proof/Machine/Returns.lean ====
section
/-! DEFINITION. The steps of the engines and of time that end what threads wait for: results that return (02 R29), copy
elements that land (14 R282-R288), waits that end, kills (10 R221), claim deadlock (05 R93), WATCH traps (19 R354), the
heartbeat and its watchdogs (01 R9, 23 R395). -/

namespace Sys2Proof.Machine

/-! ### Results of accesses (02 R29, R30) -/

/-- Perform the access of an entry whose turn it is, then return its value or drop it. -/
def returnAccess (s : State) (o : Outst) : State :=
  if o.pending && !performable s o then s
  else
    let s := if o.pending then performNow s o.id else s
    let s := match getOutst s o.id with | some q => returnEntry s q | none => s
    afterReturn s o.blk o.gang
/-- The event that ends an outstanding result of a class. -/
def returnIn (id : Nat) (c : OCls) (s : State) : Res :=
  match getOutst s id with
  | some o => .next (if o.cls = c then returnAccess s o else s)
  | none => .next s
/-- The event LOAD_RESULT_RETURN. -/
def execLoadResultReturn (id : Nat) (s : State) : Res := returnIn id .ld s
/-- The event STORE_PERFORMED. -/
def execStorePerformed (id : Nat) (s : State) : Res := returnIn id .st s
/-- The event ATOMIC_REPLY. -/
def execAtomicReply (id : Nat) (s : State) : Res := returnIn id .at_ s

/-! ### Replies of engines -/

/-- The bytes of a frame record (11 R243; log 8). Sections: 1 gang, 2 block, 3 bundle, 4 fault, 5 delivery. -/
def frameRec (sec n : Nat) (fields : List Nat) : List Byte := (List.range n).map (Config.frameRec sec fields)
/-- What a delivery record holds: gang, thread, destination, predicate and whether one is written, value (11 R243). -/
def deliveryFields (b : Block) (o : Outst) : List Nat :=
  match o.op with
  | .reply d _ v p => [o.gang, b.tid o.lane, d.toNat, (p.map Prod.fst).getD 0, b2n p.isSome, b2n ((p.map Prod.snd).getD false), v.toNat]
  | _ => []
/-- Append one delivery record to the frame of a saved block while it holds its slot; the header's length grows
(11 R243). A poisoned line of the frame loses the context (21 R380). -/
def appendDelivery (s : State) (b : Block) (ticket : Nat) (o : Outst) : State :=
  match s.saves.find? (fun r => r.ctx == b.ctx && r.ticket == ticket), getCtx s b.ctx with
  | some r, some c =>
    if r.slot.isNone then s else
    match ctxPoison s b.ctx true 0 (r.frame + 24) 4 with
    | some pa => loseToPoison s b.ctx pa
    | none =>
    match ctxRead s b.ctx true (r.frame + 24) 4 with
    | (some len, s) =>
      let n := leVal len
      if c.frslot.toNat < n + 32 then s
      else match ctxPoison s b.ctx true 1 (r.frame + n) 32 with
      | some pa => loseToPoison s b.ctx pa
      | none =>
        let s := (ctxWrite s b.ctx true (r.frame + n) (frameRec 5 32 (deliveryFields b o))).getD s
        (ctxWrite s b.ctx true (r.frame + 24) (leBytes 4 (n + 32))).getD s
    | (none, s) => s
  | _, _ => s

/-- The event ENGINE_REPLY_RETURN: a decided reply is written to its thread; one for a saved block is a delivery, which
the thread finds at its restore (11 R241, R247); a TAPIN retires (19 R357). -/
def execEngineReplyReturn (id : Nat) (s : State) : Res :=
  match getOutst s id with
  | none => .next s
  | some o =>
    match o.op, getBlock s o.blk with
    | .reply .., some b =>
      let s := match b.status with | .saved t => appendDelivery s b t o | _ => s
      .next (afterReturn (returnEntry s o) o.blk o.gang)
    | .tapin t, some b =>
      .next (if b.resident then afterReturn (dropOutst (retireTapin s t) id) o.blk o.gang else s)
    | _, _ => .next s

/-- The event WALK: a walker runs the context's routine for an address and fills the levels of a core (09 R202), within
the walkers' budget (24 R406). -/
def execWalk (core ctx kind : Nat) (va : W64) (s : State) : Res :=
  match getCtx s ctx with
  | none => .next s
  | some c =>
    if !walksOpen s ∨ 2 ^ 57 ≤ va.toNat then .next s
    else
      match runWalk s c kind va.toNat with
      | (.ok (some w), s1) => .next (tlbFillAll s1 (.engine core) ctx va.toNat w)
      | (_, s1) => .next s1

/-! ### Copies (14 R282-R288, 24 R402) -/

/-- The event COPY_COMMAND_START. -/
def execCopyCommandStart (id : Nat) (s : State) : Res :=
  match getCopy s id with
  | some c => .next (if isResident s c.blk then unstall (startCopy s c) else s)
  | none => .next s
/-- The event RINGNEXT_SLOT_TAKE. -/
def execRingnextSlotTake (id : Nat) (s : State) : Res :=
  match getCopy s id with
  | some c => .next (if isResident s c.blk then takeRingSlot s c else s)
  | none => .next s
/-- The event COPY_ELEMENT_LAND. -/
def execCopyElementLand (id e : Nat) (s : State) : Res :=
  match getCopy s id with
  | some c => .next (if isResident s c.blk then unstall (landCopy s id e) else s)
  | none => .next s
/-- The event REMOTE_COMMAND: a command of another device is performed here, in the context of the same id (14 R288). -/
def execRemoteCommand (ctx : Nat) (drec : BitVec 256) (ad : Nat) (elems : List RemoteElem) (s : State) : Res :=
  let r := Rec.of drec
  .next (remoteElems s ctx ad r (fmtW r.fmt) elems elems)
/-- The event REMOTE_TIMEOUT: a remote command that is not acknowledged, or is refused, ends with an error. -/
def execRemoteTimeout (id : Nat) (s : State) : Res :=
  match getCopy s id with
  | some c => .next (if c.dk == 4 && c.started then unstall (endCopy s c true) else s)
  | none => .next s
/-- The event REMOTE_ACKNOWLEDGEMENT. -/
def execRemoteAcknowledgement (id : Nat) (s : State) : Res :=
  match getCopy s id with
  | some c => .next (if c.awaits then unstall (endCopy s c false) else s)
  | none => .next s

/-! ### Waits that end, kills, claim deadlock -/

/-- The event NAP_WAKE (06 R126). -/
def execNapWake (blk gang lane : Nat) (s : State) : Res :=
  match getThread s blk gang lane with
  | some t => .next (if t.wait = .nap then modThread s blk gang lane Thread.unwait else s)
  | none => .next s

/-- Take a thread out of the claims and queues of the wait that it leaves; a save has done so for those of its block
(11 R242, 15 R303, R304). -/
def leaveQueues (s : State) (t : Thread) : State :=
  let others := (gangThreads s t.blk t.gang).filter (fun u => u.lane != t.lane)
  if !isResident s t.blk then s
  else match t.wait, getBlock s t.blk with
  | .claim _, _ => { s with claims := s.claims.filter (fun c => !(c.1 == t.blk && c.2.1 == t.gang)) }
  | .baton _, some b =>
    if others.any (fun u => match u.wait with | .baton _ => true | _ => false) then s
    else
      let q := getBaton s b.core
      setBaton s { q with queue := q.queue.filter (· != (t.blk, t.gang)) }
  | .ring id _ no _, some b =>
    if (blockThreads s t.blk).any (fun u => u != t && (match u.wait with | .ring i _ n _ => i == id && n == no | _ => false)) then s
    else modRing s b.core id (fun r => { r with queue := r.queue.filter (fun w => w.issue != no) })
  | .barrier r _ _, _ => modBar s r (fun b => { b with waiters := b.waiters - 1 })
  | _, _ => s

/-- The event KILL_STOP: a thread of a killed block that stands at a kill point stops; what it had sent is performed
(10 R221, 08 R186), and its continuation on a future that is empty is unlinked (18 R340). -/
def execKillStop (blk gang lane : Nat) (s : State) : Res :=
  match getThread s blk gang lane, getBlock s blk with
  | some t, some b =>
    if b.killed && atKill s t then
      let s := leaveQueues (drainThread s blk gang lane) t
      let s := unlinkConts s (fun c => c.blk == blk && c.gang == gang && c.lane == lane)
      let t := match t.wait with | .barrier .. => { t with wait := .none } | _ => t
      .next (unstall (leaveThread s t true))
    else .next s
  | _, _ => .next s

/-- A wait on an object of the block itself (05 R93). -/
def ownWait : Wait → Bool
  | .claim _ | .ring .. | .rjoin .. | .baton _ => true
  | .barrier r _ _ => !r.grp
  | _ => false
/-- A copy, matrix, tap or engine result (05 R93). -/
def engineResult : OCls → Bool | .cp | .mx | .tp | .en => true | _ => false
/-- Every live thread of a block waits on its own objects, some in RCLAIM, with nothing outstanding, and no claim can be
granted (05 R93). -/
def regDead (s : State) (b : Block) : Bool :=
  let mine := s.claims.filter (fun c => c.1 == b.uid)
  let alone := (coreBlocks s b.core).all (fun k => k.uid == b.uid)
  (blockThreads s b.uid).all (fun t => ownWait t.wait) && !mine.isEmpty && !b.stopping &&
  !s.copies.any (fun c => c.blk == b.uid) && !s.outst.any (fun o => o.blk == b.uid && engineResult o.cls) && !s.mops.any (fun m => m.blk == b.uid) &&
  !s.tapins.any (fun t => t.blk == b.uid && t.outstanding) &&
  mine.all (fun c => decide (b.cap < heldUnits s b.uid + c.2.2) || (decide (freeUnits s b.core < c.2.2) && alone))
/-- The event REGDEAD: after 1,024 cycles, which the event says, the trap is raised at the RCLAIM of the lowest-numbered
claiming gang. -/
def execRegdead (blk : Nat) (s : State) : Res :=
  match getBlock s blk with
  | none => .next s
  | some b =>
    if !regDead s b then .next s
    else
      let low := (s.claims.filter (fun c => c.1 == blk)).foldl (fun m c => min m c.2.1) 63
      let ts := gangThreads s blk low
      let pc := match ts.head?.bind (bundleOf s) with | some q => q.place.addr | none => 0
      .next (raise s blk 0x33 pc (ts.map fun t => ⟨low, t.lane, { cause := 0x0D }⟩))

/-! ### WATCH_DELIVERY (19 R354) -/

/-- The thread is done with the instruction at which its bundle stands: the bundle is in the middle of it and the thread
does not wait, or only others issue it again (02 R24, 05 R85). -/
def pastIt (b : Bundle) (t : Thread) : Bool := b.mid || (!b.redo.isEmpty && !b.redo.contains (t.gang, t.lane))
def isProt (s : State) (blk : Nat) : Bool := match getBlock s blk with | some b => b.protectd | none => false
/-- The thread that holds the wait of a lane: the even one of a protected pair (05 R101). -/
def waiterOf (s : State) (t : Thread) : Thread :=
  if isProt s t.blk && t.lane % 2 == 1 then (getThread s t.blk t.gang (t.lane - 1)).getD t else t
/-- Where a thread stands: at the RJOIN that it waits in, in a bundle (behind an instruction that it is done with), or filed
at a header. A NAP is left behind (11 R242). -/
def placeOf (s : State) (t : Thread) : Place :=
  match (waiterOf s t).wait, bundleOf s t with
  | .rjoin _ p, _ => p
  | .nap, some b => b.place.next
  | .none, some b => if pastIt b t then b.place.next else b.place
  | _, some b => b.place
  | _, none => Place.at_ t.pc
/-- The word of a wait is BARW. -/
def isBarw (b : Bundle) : Bool :=
  match b.word? with
  | some w => match decode w with | .instr (.barw ..) => true | _ => false
  | none => false
/-- The claim of an MCLAIM is withdrawn with one of its threads: the others issue the instruction again (19 R354). -/
def withdrawMclaim (s : State) (t : Thread) (no : Nat) : State :=
  let ms := ((claimThreads s no).filter (fun u => u != t)).map (fun u => (u.gang, u.lane))
  let s := modThreads s (fun u => u.blk == t.blk && ms.contains (u.gang, u.lane)) Thread.unwait
  { s with bundles := updWhere s.bundles (fun b => b.blk == t.blk && b.mem.any ms.contains) (fun b =>
      { b with mid := false, redo := b.mem.filter ms.contains }) }
/-- A thread leaves its wait as a save leaves it, and RJOIN's arrived set too; its gang's withdrawn claim gathers again. DESIGN
CHOICE (log 23): a BWAIT is left behind and issues again, with BARRIER code 3 where its object has been untyped meanwhile,
while a BARW keeps its wait, which INVALID then ends (12 R256). -/
def leaveWait (s : State) (t : Thread) : State :=
  let s := leaveQueues s t
  let keep : Wait := match t.wait, bundleOf s t with
    | .barrier r n d, some b => if isBarw b then .barrier r n d else .none
    | _, _ => .none
  let s := match t.wait, getBlock s t.blk with
    | .rjoin k _, some b => modGang s t.blk t.gang (fun g =>
        { g with arrived := Sparse.set 0 g.arrived k (Sparse.get 0 g.arrived k &&& ~~~rjBit b t.lane) })
    | .claim n, _ =>
      let pc := match bundleOf s t with | some b => b.place.addr | none => 0
      let i : Instr := .rclaim always (BitVec.ofNat 24 n)
      modThreads s (fun u => u.blk == t.blk && u.gang == t.gang && u.lane != t.lane && u.wait == .claim n)
        (fun u => { u with wait := .gather i pc (if isProt s t.blk then 0xFFFF else BitVec.allOnes 32) true })
    | .mclaim _ _ _ no _, _ => withdrawMclaim s t no
    | _, _ => s
  modThread s t.blk t.gang t.lane (fun t => { t.unwait with rewait := keep, parked := false, flip := none })
/-- A thread leaves the bin or the queue that it is filed in. -/
def unfile (s : State) (t : Thread) : State :=
  let m := (t.gang, t.lane)
  { s with
    bins := (s.bins.map (fun b => if b.blk = t.blk then { b with filed := b.filed.filter (fun f => f.m != m) } else b)).filter
      (fun b => !b.filed.isEmpty),
    arrivals := s.arrivals.filter (fun a => !(a.blk == t.blk && a.gang == t.gang && a.lane == t.lane)) }

/-- The 256 bits of the WATCH registers (05 R98). -/
def WatchTrap.bits (w : WatchTrap) : BitVec 256 := BitVec.ofNat 256
  (fld 0 32 w.slot + fld 32 32 w.pos.toNat + fld 64 32 w.tap + fld 96 32 w.feat + fld 128 32 w.val.toNat +
   fld 160 32 w.rule + fld 192 32 w.row + fld 224 32 w.trec)
/-- The row of a trap becomes HANDLING. -/
def handleRow (s : State) (t : Thread) (w : WatchTrap) : State :=
  match getTapin s t.blk w.trec with
  | some q => writeRow (modRow s q.id w.row (fun r => { r with status := 3 })) q.id w.row
  | none => s

/-- A thread, or a protected pair, leaves what it does for the handler of a WATCH, as one path (05 R101, 11 R237, 19 R354);
the bins that this empties are free for others (05 R80). -/
def watchEntry (s : State) (blk gang lane : Nat) (info : W64) (wrec : BitVec 256) (vec : W64) : State :=
  match getThread s blk gang lane with
  | none => s
  | some t =>
    let place := placeOf s t
    let bun := bundleOf s t
    let ms := if isProt s blk then [(gang, lane), (gang, lane + 1)] else [(gang, lane)]
    let s := ms.foldl (fun s m => match getThread s blk m.1 m.2 with
      | some t => unfile (leaveWait s t) t
      | none => s) s
    match laneOf s blk gang lane with
    | some x => settleBins (takeTrap s x bun 0x12 place.addr info wrec place vec ms) x.b.core
    | none => s
/-- The event WATCH_DELIVERY of a thread: the trap at the head of its queue goes to task level, or asks for a save. -/
def execWatchDelivery (blk gang lane : Nat) (s : State) : Res :=
  match laneOf s blk gang lane with
  | none => .next s
  | some x =>
    match x.t.watchq with
    | [] => .next s
    | w :: rest =>
      if !watchDue s x.t || x.b.stopping then .next s
      else
        let pc := (placeOf s x.t).addr
        let info := BitVec.ofNat 64 w.rechecks
        match trapVec s x 0x12 w.handler with
        | some vec =>
          let s := modThread (handleRow s x.t w) blk gang lane (fun t => { t with watchq := rest })
          .next (watchEntry s blk gang lane info w.bits vec)
        | none =>
          .next (raise s blk 0 pc [⟨gang, lane, { cause := 0x12, info := info.toNat }⟩])

/-! ### HEARTBEAT_TICK, SCFENCE_RELEASE, WDOG (01 R9, 08 R182, 23 R395) -/

/-- A budget of the block's context, or an activity budget that it waits for, is spent (05 R99 reason 7). -/
def budgetGate (s : State) (b : Block) (t : Thread) : Bool :=
  bytesSpentOut s b.ctx || energySpentOut s b.ctx || cellarSpent s b || !walksOpen s ||
  s.outst.any (fun o => o.blk == t.blk && o.gang == t.gang && o.lane == t.lane && s.poolReqs.any (fun q => q.outst == o.id))
/-- What a stalled bundle waits for: a bin at a branch (05 R84), an entry of the wait table at an FRD (10 R230), else an entry
of an engine's queue. -/
def stallFor (b : Bundle) : Nat :=
  match b.word? with
  | some w => if isBranchOp (opOf w).toNat then 13 else if opOf w = 0xC6 then 8 else 9
  | none => 9
/-- The machine checks of the block are such as its rollback repairs, so that it stops for that (21 R378, R380 step 1). -/
def Block.repairs (b : Block) : Bool :=
  b.rollback && b.revocable && !b.failed && !b.killed && !b.mcheck.isEmpty && b.mcheck.all (fun m => m.ladder == 1)
/-- The trap queue has no entry for one more save, those that wait to be written counted (11 R239). -/
def queueFull (s : State) : Bool :=
  s.kqsize != 0 && decide (s.kqsize.toNat ≤ (s.kqtail - s.kqhead).toNat + s.entries.length)
/-- The reason of a thread that nothing of its block holds, by what it waits for (05 R99 reasons 8 to 13). Reason 12 never
applies: no pipe or port is occupied in a step (log 1). -/
def waitReason (s : State) (t : Thread) : Nat :=
  match t.wait with
  | .baton _ => 11
  | .give .. | .accept | .halt .. => 9
  | .exit => if awaitsFuture s t then 8 else 9
  | .none =>
    if onFuture s t || headerFuture s t then 8
    else if t.parked && outstAny s t.blk t.gang t.lane then 9
    else match bundleOf s t with
      | some b => if b.stalled then stallFor b
          else if b.place.clause.isNone && heldAtHeader s b then 10 else 13
      | none => 13
  | _ => 8
/-- The stall reason of a thread that does not issue: the first of the list of 05 R99 that applies; 4 for every thread of a
block that rolls back (21 R378). -/
def stallReason (s : State) (t : Thread) : Nat :=
  match getBlock s t.blk with
  | none => 13
  | some b =>
    let inPlace : Bool := match b.status with | .inPlace _ => true | _ => false
    let claims : Bool := match t.wait with | .claim _ => true | _ => false
    let checked : Bool := b.mcheck.any (fun m => m.gang == t.gang && m.lane == t.lane)
    if b.repairs then 4
    else if t.fault.isSome || checked || !t.watchq.isEmpty || inPlace || (b.saveReq.isSome && queueFull s && allStopped s b.uid) then 1
    else if b.halted then 2
    else if b.killed then 3
    else if b.saveReq.isSome || !b.resident then 5
    else if claims then 6
    else if budgetGate s b t then 7
    else waitReason s t
/-- The thread reports stall reason 6, 8 or 11 (23 R395). -/
def reports (s : State) (t : Thread) : Bool := [6, 8, 11].contains (stallReason s t)
/-- The threads of the blocks of a scope. -/
def scopeThreads (s : State) (ctx id : Nat) : List Thread :=
  s.threads.filter (fun t => match getBlock s t.blk with | some b => b.ctx == ctx && b.scope == id | none => false)
/-- The thread is in a blocking wait of those that the watchdog counts, whatever reason it reports (23 R395). -/
def waits (s : State) (t : Thread) : Bool := t.wait.blocking || frdWait s t
/-- The watchdog counter of a scope after a tick (23 R395): a wait that has ended resets it, a tick at which no thread waits
too, and one at which a thread reports its wait advances it. -/
def tickScope (s : State) (x : Scope) : Scope :=
  if s.blocks.any (fun b => b.ctx == x.ctx && b.halted) then x
  else
    let ts := scopeThreads s x.ctx x.id
    let wd := if ts.any Thread.ended || !ts.any (waits s) then 0 else x.wd
    { x with wd := if ts.any (reports s) then wd + 1 else wd }
/-- The members of a bundle that goes on from a blocking wait into a park are past that kill point: a park inside a clause is
none (02 R23). -/
def settlePast (s : State) : State :=
  let on (b : Bundle) : Bool := (membersOf s b).any Thread.stands && !anyWaits s b && !unparked s b &&
    !(getBlock s b.blk).any Block.stopping
  let ms := (s.bundles.filter on).flatMap (fun b => b.mem.map (fun m => (b.blk, m)))
  modThreads s (fun t => ms.contains (t.blk, (t.gang, t.lane))) (fun t => { t with past := t.past || t.left })
/-- Time passes with a step, for how long is left open: each reason that some thread of a block on a core reports adds to
the block's counter of it (23 R392; log 6). -/
def passTime (s : State) : State :=
  let n := s.free
  let count (b : Block) : Block :=
    let rs := (blockThreads s b.uid).map (stallReason s)
    let add (m : Sparse W32) (k : Nat) : Sparse W32 :=
      Sparse.set 0 m k (BitVec.ofNat 32 (min ((Sparse.get 0 m k).toNat + (Config.stallCount n b.uid k).toNat) (2 ^ 32 - 1)))
    if b.resident then { b with stall := (((List.range 13).map (· + 1)).filter rs.contains).foldl add b.stall } else b
  settlePast { s with blocks := s.blocks.map count, free := n + 1 }
/-- The event HEARTBEAT_TICK. -/
def execHeartbeatTick (s : State) : Res :=
  let frozen (t : Thread) : Bool := match getBlock s t.blk with
    | some b => s.blocks.any (fun k => k.ctx == b.ctx && k.halted)
    | none => false
  let tick (t : Thread) : Thread :=
    if frozen t then t else { t with waited := if reports s t then t.waited + 1 else if waits s t then t.waited else 0, ended := false }
  let s := markScfence s
  .next { s with heart := s.heart + 1, scopes := s.scopes.map (tickScope s), threads := s.threads.map tick }

/-- The threads that wait in an SCFENCE and may complete at this tick, in the total order (08 R182). -/
def scfenceKey (s : State) (t : Thread) : List Nat :=
  match getBlock s t.blk with
  | some b => [b.valley, b.terrace, b.core, b.ctx, b.serial, b.num, t.gang, t.lane]
  | none => []
def keyLt : List Nat → List Nat → Bool
  | a :: s, b :: t => decide (a < b) || (a == b && keyLt s t)
  | _, _ => false
def insKey (s : State) (t : Thread) : List Thread → List Thread
  | [] => [t]
  | u :: r => if keyLt (scfenceKey s t) (scfenceKey s u) then t :: u :: r else u :: insKey s t r
/-- The event SCFENCE_RELEASE: each fence whose core had performed its accesses before the last tick completes, lowest key
first (08 R182). -/
def execScfenceRelease (s : State) : Res :=
  let done (t : Thread) : Bool := match t.wait with
    | .scfence (some h) => h != s.heart && isResident s t.blk
    | _ => false
  let order := ((s.threads.filter done).foldr (insKey s) [])
  .next (order.foldl (fun s t => modThread s t.blk t.gang t.lane Thread.unwait) s)

/-- The thread that has waited longest, the lowest (gang, thread index) first. -/
def longestWaiter (s : State) (ctx id : Nat) : Option Thread :=
  ((scopeThreads s ctx id).filter (reports s)).foldl (fun m t => match m with
    | none => some t
    | some u => if u.waited < t.waited ∨ (u.waited = t.waited ∧ (t.gang < u.gang ∨ (t.gang = u.gang ∧ t.lane < u.lane))) then some t
      else some u) none
/-- The event WDOG of a scope whose counter has reached the limit (23 R395). A block that meets the condition of REGDEAD gets
that trap, and no WDOG in its place (05 R93, 16 R323). -/
def execWdog (ctx scope : Nat) (s : State) : Res :=
  match getScope s ctx scope, getCtx s ctx, longestWaiter s ctx scope with
  | some x, some c, some t =>
    let dead : Bool := match getBlock s t.blk with | some b => regDead s b | none => false
    if !dead ∧ c.wdlim ≠ 0 ∧ c.wdlim.toNat ≤ x.wd ∧ !(scopeThreads s ctx scope).any Thread.ended ∧
        !(s.blocks.any (fun b => b.ctx == ctx && b.halted)) then
      let s := modScope s ctx scope (fun x => { x with wd := 0 })
      .next (raise s t.blk 0 (placeOf s t).addr [⟨t.gang, t.lane, { cause := 0x15, info := scope }⟩])
    else .next s
  | _, _, _ => .next s

end Sys2Proof.Machine
end

