-- ==== Sys2Proof/Machine/Sys.lean ====
section
/-! DEFINITION. The SYS class but the resume of saves: the control registers of the device and of contexts (11 R245,
R246, 23 R389, 24 R407), TLBINV and PSPLIT (09 R205-R207), HALTG and RESUMEG (23 R394). -/

namespace Sys2Proof.Machine

/-- Write the n-bit results of the commanding lanes; the odd lane of a protected pair receives its even lane's (05 R101). -/
def laneResults (s : State) (i : Iss) (d : Reg) (n : Nat) (outs : List (Lane × Nat)) : State :=
  let lead (x : Lane) : Nat := if i.b.protectd then x.t.lane / 2 * 2 else x.t.lane
  let val (x : Lane) : Nat := match outs.find? (fun o => o.1.t.gang == x.t.gang && o.1.t.lane == lead x) with
    | some o => o.2
    | none => 0
  commit s d n (i.act.map fun x => (x, val x))
/-- Act once for each commanding lane, in ascending lane position, and write the results. -/
def eachLane (s : State) (i : Iss) (d : Reg) (n : Nat) (f : State → Lane → Nat × State) : State :=
  let (outs, s) := i.cmd.foldl (fun (acc : List (Lane × Nat) × State) x =>
    let (v, s) := f acc.2 x
    (acc.1 ++ [(x, v)], s)) ([], s)
  laneResults s i d n outs
/-- A SYS-class instruction with device effects: an irrevocable event of its block (21 R377), then one act per lane. -/
def sysEach (op : Nat) (k : Ctl) (src : List RG) (d : Reg) (s : State) (f : State → Lane → Nat × State) : Res :=
  issue op k src [r32 d] s fun i s =>
    .done (eachLane (if i.act.isEmpty then s else irrevocable s i.b.uid) i d 32 f)

/-- What stops an act that reads state of a context: a poisoned line at a physical address, or a frame of pool metadata that
a walk for a virtual address reaches (17 R326), or what the level may not read. -/
inductive SysStop where
  | poison (pa : Nat)
  | perm (va : Nat)
  deriving DecidableEq, Repr
/-- ECC or PERM of such an act. -/
def SysStop.flt (s : State) : SysStop → Flt
  | .poison pa => lineFlt s pa 1 0 3
  | .perm va => { cause := 0x0A, info := va, kind := 0 }
/-- The line that has stopped an act shows its error. -/
def SysStop.meets (s : State) : SysStop → State
  | .poison pa => meetLine s pa
  | .perm _ => s
/-- A SYS-class instruction whose acts read state of a context: one that something there stops raises ECC or PERM, and none of
the instruction is performed (08 R163, 17 R326, 21 R369, R380). -/
def sysTry (op : Nat) (k : Ctl) (src : List RG) (d : Reg) (s : State) (f : State → Lane → Except SysStop (Nat × State)) : Res :=
  issue op k src [r32 d] s fun i s =>
    let start := if i.act.isEmpty then s else irrevocable s i.b.uid
    let (outs, bad, t) := i.cmd.foldl (fun (acc : List (Lane × Nat) × List (Lane × SysStop) × State) x =>
      match f acc.2.2 x with
      | .ok (v, t) => (acc.1 ++ [(x, v)], acc.2.1, t)
      | .error e => (acc.1, acc.2.1 ++ [(x, e)], acc.2.2)) ([], [], start)
    if bad.isEmpty then .done (laneResults t i d 32 outs)
    else
      let s := bad.foldl (fun s q => q.2.meets s) s
      .trap s (bad.map fun q => ⟨q.1.t.gang, q.1.t.lane, q.2.flt s⟩)

/-! ### CRD (11 R245, 23 R389, 24 R407) -/

/-- A register of the device bank. -/
def devReg (s : State) (x : Nat) : Nat :=
  match x with
  | 0x00 => s.kqbase.toNat | 0x01 => s.kqsize.toNat | 0x02 => s.kqhead.toNat | 0x03 => s.kqtail.toNat | 0x04 => s.kqfut.toNat
  | 0x40 => s.cfg.part.toNat | 0x41 => s.cfg.units.toNat | 0x42 => s.cfg.hbmbytes.toNat | 0x43 => s.cfg.hbmchan.toNat
  | 0x44 => s.cfg.links.toNat | 0x45 => s.cfg.selfdev.toNat | 0x46 => s.cfg.homemap.toNat | 0x47 => s.cfg.mclog.toNat
  | 0x48 => s.cfg.mclogn.toNat | 0x49 => s.cfg.isa.toNat | 0x4A => s.cfg.plimit.toNat | 0x4B => Config.mclogCap
  | _ => 0
/-- A register of a context. -/
def ctxReg (c : Ctx) (x : Nat) : Nat :=
  match x with
  | 0x00 => c.state | 0x01 => c.root.toNat | 0x02 => c.walk.toNat | 0x03 => c.split.toNat | 0x04 => c.splitn.toNat
  | 0x05 => c.frbase.toNat | 0x06 => c.frslot.toNat | 0x07 => c.frcount.toNat | 0x08 => c.tvec.toNat | 0x09 => c.tdeleg.toNat
  | 0x0A => c.bcores.toNat | 0x0B => c.bbytes.toNat | 0x0C => c.benergy.toNat | 0x0D => 0
  | 0x0E => c.frcount.toNat - c.frUsed.length
  | 0x18 => c.trbase.toNat | 0x19 => c.trsize.toNat | 0x1A => c.trhead.toNat | 0x1B => c.trtail.toNat | 0x1C => c.trctl.toNat
  | 0x1D => c.trbud.toNat | 0x1E => c.trdrop.toNat | 0x1F => c.wdlim.toNat
  | _ =>
    if 0x10 ≤ x ∧ x < 0x18 then (Sparse.get 0 c.wreg (x - 0x10)).toNat
    else if 0x20 ≤ x ∧ x < 0x30 then (Sparse.get 0 c.prog (x - 0x20)).toNat
    else 0
/-- The context that an operand names. -/
def ctxArg (x : Lane) (a : Reg) : Nat := x.rd a 32 % 2 ^ 16

def execCrd (k : Ctl) (bk : Bool) (d a : Reg) (x : BitVec 8) (s : State) : Res :=
  issue 0xD1 k (if bk then [r32 a] else []) [r64 d] s fun i s =>
    .done (eachLane s i d 64 fun s l =>
      (if bk then (match getCtx s (ctxArg l a) with | some c => ctxReg c x.toNat | none => 0) else devReg s x.toNat, s))

/-! ### CWR (11 R245, 23 R389) -/

/-- A power of two between two bounds. -/
def pow2In (v lo hi : Nat) : Bool := decide (lo ≤ v) && decide (v ≤ hi) && v &&& (v - 1) == 0
/-- A counter value lies beyond another, modulo 2^32. -/
def beyond (v tail : Nat) : Bool := let n := (v + 2 ^ 32 - tail % 2 ^ 32) % 2 ^ 32; decide (0 < n) && decide (n < 2 ^ 31)
def w32 (v : Nat) : W32 := BitVec.ofNat 32 v
def w64 (v : Nat) : W64 := BitVec.ofNat 64 v

/-- A write to a plain register of the device bank: the status, and the state. -/
def devWrite (s : State) (x v writer : Nat) : Nat × State :=
  match x with
  | 0x00 => if v % 64 = 0 then (0, { s with kqbase := w64 v, kqctx := writer }) else (3, s)
  | 0x04 => if v % 16 = 0 then (0, { s with kqfut := w64 v }) else (3, s)
  | _ => (2, s)
/-- A write to a plain register of a context: its status, and the context. -/
def ctxWriteReg (c : Ctx) (x v : Nat) : Nat × Ctx :=
  let frames := !c.frUsed.isEmpty
  match x with
  | 0x01 => (0, { c with root := w64 v })
  | 0x02 => if v % 4 = 0 ∧ natBits v 16 16 % 4 = 0 then (0, { c with walk := w32 v }) else (3, c)
  | 0x03 => (0, { c with split := w64 v })
  | 0x04 => (0, { c with splitn := w32 v })
  | 0x05 => if v % 4096 = 0 ∧ !frames then (0, { c with frbase := w64 v }) else (3, c)
  | 0x06 => if v % 4096 = 0 ∧ 65536 ≤ v ∧ !frames then (0, { c with frslot := w32 v }) else (3, c)
  | 0x07 => if v ≤ 4096 ∧ !frames then (0, { c with frcount := w32 v }) else (3, c)
  | 0x08 => if v % 8 = 0 then (0, { c with tvec := w64 v }) else (3, c)
  | 0x09 => if v < 8 then (0, { c with tdeleg := w32 v }) else (3, c)
  | 0x0B => (0, { c with bbytes := w64 v })
  | 0x0C => (0, { c with benergy := w32 v })
  | 0x18 => if v % 64 = 0 ∧ c.trsize = 0 then (0, { c with trbase := w64 v }) else (3, c)
  | 0x1A => if v < 2 ^ 32 ∧ !beyond v c.trtail.toNat then (0, { c with trhead := w32 v }) else (3, c)
  | 0x1C => if v < 32 then (0, { c with trctl := w32 v }) else (3, c)
  | 0x1D => (0, { c with trbud := w32 v })
  | 0x1F => (0, { c with wdlim := w32 v })
  | _ =>
    if 0x10 ≤ x ∧ x < 0x18 then
      let sz := natBits v 57 7
      if sz ≤ 52 ∧ (sz = 0 ∨ natBits v 0 57 % 2 ^ (sz + 5) = 0) then
        (0, { c with wreg := Sparse.set 0 c.wreg (x - 0x10) (w64 v) })
      else (3, c)
    else if 0x20 ≤ x ∧ x < 0x30 then (0, { c with prog := Sparse.set 0 c.prog (x - 0x20) (w64 v) })
    else (2, c)

/-- A CWR to a register of a context: status 1 where the context does not exist. -/
def cwrCtx (a b : Reg) (f : State → Lane → Ctx → Nat → Nat × State) (s : State) (l : Lane) : Nat × State :=
  match getCtx s (ctxArg l a) with
  | none => (1, s)
  | some c => f s l c (l.rd b 64)
/-- A CWR is a release of its thread at device scope. -/
def released (f : State → Lane → Nat × State) (s : State) (l : Lane) : Nat × State := f (syncRelease s l) l

def execCwr (k : Ctl) (bk : Bool) (d a b : Reg) (x : BitVec 8) (s : State) : Res :=
  sysEach 0xD2 k (r64 b :: if bk then [r32 a] else []) d s (released fun s l =>
    if bk then cwrCtx a b (fun s _ c v => let (st, c') := ctxWriteReg c x.toNat v; (st, modCtx s c.id (fun _ => c'))) s l
    else devWrite s x.toNat (l.rd b 64) l.b.ctx)

/-- A write to STATE (11 R245, R246). -/
def writeState (s : State) (ctx v : Nat) : Nat × State :=
  match getCtx s ctx with
  | none =>
    if v = 1 then (0, { s with ctxs := s.ctxs ++ [Ctx.new ctx], scopes := s.scopes ++ [Scope.root ctx] }) else (1, s)
  | some c =>
    if v = 1 then (if c.state = 1 then 0 else 3, s)
    else if v = 0 then
      if s.jobs.any (fun j => j.ctx == ctx) || s.blocks.any (fun b => b.ctx == ctx) || !c.frUsed.isEmpty then (3, s)
      else
        let s := dropGroupBars s ctx
        (0, dropPools { s with ctxs := s.ctxs.filter (fun q => q.id != ctx), scopes := s.scopes.filter (fun q => q.ctx != ctx),
                               killedJobs := s.killedJobs.filter (fun q => q.1 != ctx),
                               gone := s.gone.filter (fun q => q.ctx != ctx),
                               saves := s.saves.filter (fun q => q.ctx != ctx) } (fun q => q.ctx == ctx))
    else (3, s)
def execCwrStateCreate (k : Ctl) (d a b : Reg) (s : State) : Res :=
  sysEach 0xD2 k [r32 a, r64 b] d s (released fun s l => writeState s (ctxArg l a) (l.rd b 64))
def execCwrStateRemove (k : Ctl) (d a b : Reg) (s : State) : Res :=
  sysEach 0xD2 k [r32 a, r64 b] d s (released fun s l => writeState s (ctxArg l a) (l.rd b 64))

/-- A write to KQSIZE installs or uninstalls the kernel; the machine-check log is mapped into its context while it is
installed (11 R245, 21 R372). -/
def writeKqsize (s : State) (v writer : Nat) : Nat × State :=
  if s.kqtail ≠ s.kqhead ∨ !(v == 0 || pow2In v 16 65536) then (3, s)
  else if v = 0 then (0, { s with kqsize := 0, cfg := { s.cfg with mclog := 0 } })
  else
    let (f, s) := freshFree s
    let fresh := s.kqsize == 0
    (0, { s with kqsize := w32 v, kctx := if fresh then writer else s.kctx,
                 cfg := { s.cfg with mclog := if fresh then Config.mclogVa f else s.cfg.mclog } })
def execCwrKqsize (k : Ctl) (d b : Reg) (s : State) : Res :=
  sysEach 0xD2 k [r64 b] d s (released fun s l => writeKqsize s (l.rd b 64) l.b.ctx)
def execCwrKqhead (k : Ctl) (d b : Reg) (s : State) : Res :=
  sysEach 0xD2 k [r64 b] d s (released fun s l =>
    let v := l.rd b 64
    if v < 2 ^ 32 ∧ !beyond v s.kqtail.toNat then (0, { s with kqhead := w32 v }) else (3, s))

/-- A write to PREEMPT: [39:0] job serial, [63:40] block number (11 R240, R245). -/
def writePreempt (s : State) (c : Ctx) (v : Nat) : Nat × State :=
  let serial := v % 2 ^ 40
  match s.blocks.find? (fun b => b.ctx == c.id && b.serial == serial && b.num == natBits v 40 24) with
  | none => (3, s)
  | some b => (0, if b.status != .running then s
      else askSave s b.uid { reason := 0, first := none, fromPreempt := true, bounded := false })
def execCwrPreempt (k : Ctl) (d a b : Reg) (s : State) : Res :=
  sysEach 0xD2 k [r32 a, r64 b] d s (released (cwrCtx a b fun s _ c v => writePreempt s c v))

/-- The resident blocks of a context that no save has been asked for. -/
def staying (s : State) (ctx : Nat) : List Block :=
  s.blocks.filter (fun b => b.ctx == ctx && b.resident && b.saveReq.isNone && !b.killed)
/-- Save blocks until the context's cores fit its budget: lowest priority first, latest launched first (11 R240). A block
held in place keeps its core and cannot be saved again (11 R241). -/
def shrinkCores (fuel : Nat) (s : State) (ctx budget : Nat) : State :=
  match fuel with
  | 0 => s
  | n + 1 =>
    let bs := staying s ctx
    let may := bs.filter (fun b => b.status == .running)
    if ((List.range 192).filter (fun c => bs.any (fun b => b.core == c))).length ≤ budget then s
    else
      match may.foldl (fun (m : Option Block) b => match m with
          | none => some b
          | some q => if b.prio < q.prio ∨ (b.prio = q.prio ∧ q.uid < b.uid) then some b else some q) none with
      | none => s
      | some b => shrinkCores n (askSave s b.uid { reason := 2, first := none, fromPreempt := true, bounded := false }) ctx budget
def execCwrBcores (k : Ctl) (d a b : Reg) (s : State) : Res :=
  sysEach 0xD2 k [r32 a, r64 b] d s (released (cwrCtx a b fun s _ c v =>
    let s := modCtx s c.id (fun c => { c with bcores := w32 v })
    (0, if w32 v = 0 then s else shrinkCores (s.blocks.length + 1) s c.id (w32 v).toNat)))
def execCwrTrsize (k : Ctl) (d a b : Reg) (s : State) : Res :=
  sysEach 0xD2 k [r32 a, r64 b] d s (released (cwrCtx a b fun s _ c v =>
    if v = 0 ∨ pow2In v 64 (2 ^ 24) then
      (0, modCtx s c.id (fun c => { c with trsize := w32 v, trhead := 0, trtail := 0, trdrop := 0 }))
    else (3, s)))

/-! ### Splinters, TLBINV and PSPLIT (09 R205-R207) -/

/-- Perform every access that a removed translation of a context may have served (09 R205): the accesses that its
threads have issued, the copy elements that have started, and the stores that its blocks hold, whose interval is then
irrevocable (DESIGN CHOICE, log 19). -/
def performAll (s : State) (p : Block → Bool) : State :=
  let uids := (s.blocks.filter p).map Block.uid
  let s := (s.threads.filter (fun t => uids.contains t.blk)).foldl (fun s t => drainThread s t.blk t.gang t.lane) s
  let s := (s.copies.filter (fun c => uids.contains c.blk)).foldl (fun s c => settleFlying s c.id) s
  (s.blocks.filter (fun b => uids.contains b.uid && !b.hold.isEmpty)).foldl (fun s b => irrevocable s b.uid) s
/-- Remove cached translations, then wait for the accesses that used them. -/
def invalidateTlb (s : State) (p : TlbE → Bool) (ctx : Option Nat) : State :=
  performAll (tlbDrop s p) (fun b => match ctx with | some c => b.ctx == c | none => true)

/-- The frames of a split reserve, from the top down: read in the named context at kernel level with no cached level, as
many as a splinter can need, up to one that has no mapping (DESIGN CHOICE, log 7); a poisoned line, and what that level may
not read, stop it. -/
def reserveTop (s : State) (c : Ctx) : Nat → Nat → Except SysStop (List Nat × State)
  | 0, _ => .ok ([], s)
  | m + 1, k =>
    let va := (c.split.toNat + 8 * (c.splitn.toNat - 1 - k)) % 2 ^ 64
    if c.splitn.toNat ≤ k then .ok ([], s)
    else match translate s .device c.id true 0 va with
    | (.ok pa, s) =>
      let s := meetLine s pa
      if poisoned s pa 8 then .error (.poison pa)
      else (reserveTop s c m (k + 1)).map (fun r => (leVal (readBytes s pa 8) :: r.1, r.2))
    | (.poison pa, _) => .error (.poison pa)
    | (.perm, _) => .error (.perm va)
    | (.page, s) => .ok ([], s)
/-- Where the walker shows those frames to a splinter routine: beyond every physical address (log 7). -/
def reserveWindow : Nat := 2 ^ 60
/-- The walk routine runs at its split entry with the address, the context id, the root, the size code, the address past the
last frame shown and the number of frames shown, and returns how many it has taken, from the top; all ones, or no return,
says that the reserve lacks them (log 7). -/
def splitRoutine (s : State) (c : Ctx) (fs : List Nat) (va ps : Nat) : Except SysStop (Option State) :=
  let n := fs.length
  let r := rvStart s (natBits c.walk.toNat 16 16) [w64 va, w64 c.id, c.root, w64 ps, w64 (reserveWindow + 8 * n), w64 n]
  let shown := putBytes r.mem reserveWindow (fs.reverse.flatMap (leBytes 8))
  let meets (pa : Nat) : Option WalkStop := if reserveWindow ≤ pa then none else walkMeets s pa
  let (r', done) := rvRun meets s.walkStore Config.splitLimit { r with mem := shown }
  let took := (r'.get 10).toNat
  match r'.stop with
  | some (.poison l) => .error (.poison (64 * l))
  | some .typed => .error (.perm va)
  | some .absent => .ok none
  | none =>
    if !done ∨ n < took then .ok none
    else
      let s := modCtx { s with mem := r'.mem.filter (fun e => decide (e.1 < reserveWindow)) } c.id
        (fun c => { c with splitn := c.splitn - w32 took })
      .ok (some (invalidateTlb (meetAll s r') (fun e => e.covers c.id va) (some c.id)))
/-- Splinter the page at an address down to a size. A poisoned line, or a frame of pool metadata, that the reserve or the
routine meets is an error (09 R207, 17 R326, 21 R369). -/
def splinter (s : State) (c : Ctx) (va ps : Nat) : Except SysStop (Option State) :=
  match reserveTop s c 513 0 with
  | .error e => .error e
  | .ok (fs, s) => splitRoutine s c fs va ps

/-- The mapping at an address: the result word of a walk. DESIGN CHOICE (log 7): the walk has access kind 0, read; the spec
gives that of PSPLIT and of a range's ends none. A poisoned line that it meets is an error (21 R369), and a frame of pool
metadata (17 R326). -/
def mappingAt (s : State) (c : Ctx) (va : Nat) : Except SysStop (Option W64 × State) :=
  match runWalk s c 0 va with
  | (.ok w, s1) => .ok (w, s1)
  | (.error (.poison l), _) => .error (.poison (64 * l))
  | (.error .typed, _) => .error (.perm va)
  | (.error .absent, s1) => .ok (none, s1)
/-- log2 of the page size of a ps code. -/
def psShift (ps : Nat) : Nat := match ps with | 0 => 12 | 1 => 16 | _ => 21

/-- PSPLIT of one thread (09 R206). -/
def psplitOne (s : State) (ctx va ps : Nat) : Except SysStop (Nat × State) :=
  match getCtx s ctx with
  | none => .ok (2, s)
  | some c =>
    if 2 ^ 57 ≤ va then .ok (3, s)
    else
      match mappingAt s c va with
      | .error e => .error e
      | .ok (none, s) => .ok (3, s)
      | .ok (some w, s) =>
        if pageShift w ≤ psShift ps then .ok (4, s)
        else (splinter s c va ps).map (fun r => match r with | some s1 => (0, s1) | none => (1, s))
def execPsplit (k : Ctl) (ps : BitVec 2) (d a b : Reg) (s : State) : Res :=
  sysTry 0xD6 k [r64 a, r32 b] d s (fun s l => psplitOne s (ctxArg l b) (l.rd a 64) ps.toNat)

/-- Splinter the large page that holds an end of a range strictly inside it (09 R207): down to the largest size whose
boundaries the range's ends inside the page respect. DESIGN CHOICE (log 23): an end at or beyond the bounds of that page
has no say in its size. -/
def splintEnd (s : State) (c : Ctx) (lo hi p : Nat) : Except SysStop (Bool × State) :=
  match mappingAt s c p with
  | .error e => .error e
  | .ok (none, s) => .ok (true, s)
  | .ok (some w, s) =>
    let sz := 2 ^ pageShift w
    let base := p / sz * sz
    let inside := [lo, hi].filter (fun e => decide (base < e) && decide (e < base + sz))
    if inside.isEmpty ∨ pageShift w = 12 then .ok (true, s)
    else
      let ps := ([2, 1].find? (fun q => decide (psShift q < pageShift w) && inside.all (fun e => e % 2 ^ psShift q == 0))).getD 0
      (splinter s c p ps).map (fun r => match r with | some s1 => (true, s1) | none => (false, s))
/-- The release fence that opens a TLBINV, and the status of a context that is absent. -/
def tlbinv (ctx : Nat) (f : State → Ctx → Nat × State) (s : State) (l : Lane) : Nat × State :=
  let s := syncRelease s l
  match getCtx s ctx with
  | none => (2, s)
  | some c => f s c
def execTlbinvPage (k : Ctl) (d a b : Reg) (s : State) : Res :=
  sysEach 0xD3 k [r64 a, r32 b] d s (fun s l => tlbinv (ctxArg l b)
    (fun s c => (0, invalidateTlb s (fun e => e.covers c.id (l.rd a 64)) (some c.id))) s l)
def execTlbinvContext (k : Ctl) (d b : Reg) (s : State) : Res :=
  sysEach 0xD3 k [r32 b] d s (fun s l => tlbinv (ctxArg l b)
    (fun s c => (0, invalidateTlb s (fun e => e.ctx == c.id) (some c.id))) s l)
def execTlbinvAll (k : Ctl) (d : Reg) (s : State) : Res :=
  sysEach 0xD3 k [] d s (fun s l => (0, invalidateTlb (syncRelease s l) (fun _ => true) none))
/-- The pages at both ends of a range, the second with what the first has left of the split reserve (09 R207). -/
def splintEnds (s : State) (c : Ctx) (lo hi : Nat) : Except SysStop (Bool × State) :=
  match splintEnd s c lo hi lo with
  | .ok (true, s) => splintEnd s ((getCtx s c.id).getD c) lo hi (hi - 1)
  | r => r
/-- TLBINV with ik = range of one thread. -/
def tlbinvRange (s : State) (c : Ctx) (sp : Bool) (va count : Nat) : Except SysStop (Nat × State) :=
  let hi := va + 4096 * count
  if count = 0 ∨ 2 ^ 57 < hi then .ok (0, s)
  else (if sp then splintEnds s c va hi else .ok (true, s)).map fun (ok, s) =>
    let touches (e : TlbE) : Bool :=
      let sz := 2 ^ pageShift e.word
      e.ctx == c.id && decide (e.va / sz * sz < hi) && decide (va < e.va / sz * sz + sz)
    (if ok then 0 else 1, invalidateTlb s touches (some c.id))
def execTlbinvRange (k : Ctl) (sp : Bool) (d a b c : Reg) (s : State) : Res :=
  sysTry 0xD3 k [r64 a, r32 b, r32 c] d s (fun s l =>
    let s := syncRelease s l
    match getCtx s (ctxArg l b) with
    | none => .ok (2, s)
    | some q => tlbinvRange s q sp (l.rd a 64) (l.rd c 32))

/-! ### HALTG and RESUMEG (23 R394) -/

/-- The blocks that the operands of HALTG and RESUMEG name, and whether the job or the block exists. -/
def haltTarget (s : State) (l : Lane) (a b : Reg) : Option (Nat × Nat × Option Nat × List Block) :=
  let h := l.rd a 64
  let n := l.rd b 32
  let ctx := natBits h 40 16
  let serial := h % 2 ^ 40
  let blk := if n = 2 ^ 32 - 1 then none else some n
  let bs := haltBlocks s ctx serial blk
  if natBits h 56 8 ≠ 0 ∨ !ctxLive s ctx ∨ (getJob s ctx serial).isNone ∨ (blk.isSome ∧ bs.isEmpty) then none
  else some (ctx, serial, blk, bs)
/-- Set the halt of blocks and of their groups; an EXIT that a halt has held at its kill point is then settled. -/
def setHalt (s : State) (bs : List Block) (h : Bool) : State :=
  settleExits { s with blocks := updWhere s.blocks (fun q => bs.any (fun b => b.sameGroup q)) (fun q => { q with halted := h }) }
def execHaltg (k : Ctl) (d a b : Reg) (s : State) : Res :=
  issue 0xD7 k [r64 a, r32 b] [r32 d] s fun i s =>
    let s := if i.act.isEmpty then s else irrevocable s i.b.uid
    .done (pollHalt (i.cmd.foldl (fun s l =>
      let put (v : Nat) : State := deliverKept s l.t.blk l.t.gang l.t.lane (keptDst i.cmd l d) 32 v
      match haltTarget s l a b with
      | none => put 2
      | some h =>
        if !h.2.2.2.isEmpty ∧ h.2.2.2.all Block.halted then put 1
        else modThread (setHalt s h.2.2.2 true) l.t.blk l.t.gang l.t.lane
          (fun t => { t with wait := .halt h.1 h.2.1 h.2.2.1 (keptDst i.cmd l d) })) s))
def execResumeg (k : Ctl) (d a b : Reg) (s : State) : Res :=
  sysEach 0xD8 k [r64 a, r32 b] d s (fun s l =>
    match haltTarget s l a b with
    | none => (2, s)
    | some h => if h.2.2.2.any Block.halted then (0, setHalt s h.2.2.2 false) else (1, s))

end Sys2Proof.Machine
end

