-- ==== Sys2Proof/Machine/Pool.lean ====
section
/-! DEFINITION. The block pool engines and the POOL class (17 R324-R337). An instruction makes requests; the engine of the
pool's home valley performs them in the order in which they reach it, within its budget of the period, and its replies
return in the EN class. -/

namespace Sys2Proof.Machine

/-! ### Pools and sequence tables (17 R327) -/

/-- The free count F. -/
def Pool.free (p : Pool) : Nat := p.freed.length + (p.nblk - p.fresh)
/-- The entries of a live sequence table. -/
def Pool.table (p : Pool) (t : Nat) : Option (List Nat) := (p.tables.find? (fun q => q.1 == t)).map Prod.snd
/-- Set the entries of a table; tables stay in rising order. -/
def Pool.setTable (p : Pool) (t : Nat) (es : List Nat) : Pool :=
  { p with tables := Sparse.ins (p.tables.filter (fun q => q.1 != t)) t es }
def Pool.dropTable (p : Pool) (t : Nat) : Pool := { p with tables := p.tables.filter (fun q => q.1 != t) }
/-- Pop n blocks from the top: the blocks, with what was recorded of those that had been freed, and the pool. -/
def Pool.pop (p : Pool) (n : Nat) : List Nat × List FreeBlk × Pool :=
  let a := p.freed.take n
  let m := n - a.length
  (a.map FreeBlk.num ++ (List.range m).map (p.fresh + ·), a, { p with freed := p.freed.drop n, fresh := p.fresh + m })
/-- Push the blocks of entries in descending logical index, so that the first of the list ends on top (17 R327). -/
def Pool.push (p : Pool) (es : List Nat) (uid rel : Nat) : Pool :=
  { p with freed := es.map (fun b => FreeBlk.mk b uid rel) ++ p.freed }
def Pool.blockBytes (p : Pool) : Nat := 2 ^ (12 + p.bsz)

/-! ### Operations (17 R328-R336) -/

/-- A failing status. -/
def poolFail (code : Nat) : Nat := 2 ^ 31 + code
/-- The pool that a name of a context reaches: RANGE for a malformed name, NOPOOL for a pool that is absent or another
context's. -/
def poolOf (s : State) (ctx name : Nat) : Except Nat Pool :=
  if 2 ^ 20 ≤ name then .error 5
  else match getPool s (natBits name 16 4) with
    | some p => if p.ctx = ctx then .ok p else .error 3
    | none => .error 3
/-- The pool and the live table that a name reaches. -/
def seqOf (s : State) (ctx name : Nat) : Except Nat (Pool × Nat × List Nat) :=
  match poolOf s ctx name with
  | .error e => .error e
  | .ok p =>
    let t := name % 2 ^ 16
    match p.table t with
    | some es => if t ≤ p.nseqm1 then .ok (p, t, es) else .error 4
    | none => .error 4
def putPool (s : State) (p : Pool) : State := modPool s p.id (fun _ => p)

/-- The frames of a metadata area; none where a page is unmapped or not writable (17 R326). The engine translates for the
issuer's context and level with no cached level (log 7). -/
def metaFrames (s : State) (ctx : Nat) (kernel : Bool) (va : Nat) : Nat → Option (List Nat) × State
  | 0 => (some [], s)
  | n + 1 =>
    match mapAddr s .device ctx kernel 1 va with
    | (.ok pa, s) =>
      if !backed s pa then (none, s)
      else match metaFrames s ctx kernel (va + 4096) n with
        | (some fs, s) => (some (pa / 4096 :: fs), s)
        | (none, s) => (none, s)
    | (_, s) => (none, s)
/-- The BADDESC tests of a descriptor but its metadata pages (17 R325, R330). -/
def descBad (s : State) (q : Nat) : Bool :=
  let bsz := natBits q 128 4
  let nblk := natBits q 64 32
  let region := natBits q 0 64
  natBits q 256 256 != 0 || natBits q 176 16 != 0 || natBits q 136 8 != 0 || natBits q 192 64 % 4096 != 0 ||
  decide (6 < bsz) || nblk == 0 || decide (16777216 < nblk) || decide (nblk < natBits q 96 32) ||
  region % 2 ^ (12 + bsz) != 0 || decide (2 ^ 57 < region + nblk * 2 ^ (12 + bsz)) ||
  decide (numValleys s ≤ natBits q 132 4) || !ctxLive s (natBits q 144 16)
/-- The pool that a descriptor lays out, every block of it free (17 R325, R327). -/
def poolFrom (b q : Nat) (frames : List Nat) : Pool :=
  { id := b, ctx := natBits q 144 16, valley := natBits q 132 4, bsz := natBits q 128 4, region := natBits q 0 64,
    nblk := natBits q 64 32, reserve := natBits q 96 32, nseqm1 := natBits q 160 16, metaFrames := frames, freed := [],
    fresh := 0, tables := [] }
/-- KSEQ pinit at the engine: the pool b and the descriptor's bits, for an issuer's context and level (17 R325, R326,
R333). -/
def installPool (s : State) (ctx : Nat) (kernel : Bool) (b q : Nat) : Except Nat Nat × State :=
  if 15 < b then (.error 5, s)
  else if !kernel then (.error 7, s)
  else if (getPool s b).isSome then (.error 8, s)
  else if descBad s q then (.error 9, s)
  else
    match metaFrames s ctx kernel (natBits q 192 64) ((12 * natBits q 64 32 + 16448 * (natBits q 160 16 + 1) + 4095) / 4096) with
    | (none, s) => (.error 9, s)
    | (some fs, s) =>
      if s.pools.any (fun p => p.metaFrames.any fs.contains) then (.error 8, s)
      else (.ok 0, { s with pools := s.pools ++ [poolFrom b q fs] })

/-- KALLOC at a live table: n more blocks, whose past use the issuer's block acquires (17 R329, R334). -/
def poolAlloc (cl : Bool) (n : Nat) (s : State) (q : PoolReq) (p : Pool) (t : Nat) (es : List Nat) : Except Nat Nat × State :=
  if n = 0 ∨ 4096 < es.length + n then (.error 5, s)
  else if cl ∧ p.free < n + p.reserve then (.error 1, s)
  else if p.free < n then (.error 2, s)
  else
    let r := p.pop n
    (.ok (es.length + n), putPool (r.2.1.foldl (fun s f => raiseAcq s q.blk f.uid f.rel) s) (r.2.2.setTable t (es ++ r.1)))
/-- KTRIM at a live table: the blocks past the first entries go back (17 R335). -/
def poolTrim (n : Nat) (s : State) (q : PoolReq) (p : Pool) (t : Nat) (es : List Nat) : Except Nat Nat × State :=
  if es.length < n then (.error 5, s)
  else (.ok (es.length - n), putPool s ((p.push (es.drop n) q.blk q.rel).setTable t (es.take n)))
/-- KFREE at a live table: one block goes back, and the later entries move down (17 R335). -/
def poolDrop (n : Nat) (s : State) (q : PoolReq) (p : Pool) (t : Nat) (es : List Nat) : Except Nat Nat × State :=
  match es[n]? with
  | none => (.error 5, s)
  | some e => (.ok (es.length - 1), putPool s ((p.push [e] q.blk q.rel).setTable t (es.eraseIdx n)))
/-- KLOOK at a live table: the address of an entry (17 R336). -/
def poolLook (n : Nat) (s : State) (p : Pool) (es : List Nat) : Except Nat Nat × State :=
  match es[n]? with
  | none => (.error 5, s)
  | some e => (.ok (p.region + e * p.blockBytes), s)
/-- KSEQ new: the lowest free table of the pool becomes live and empty (17 R333). -/
def poolNew (s : State) (p : Pool) : Except Nat Nat × State :=
  match (List.range (p.nseqm1 + 1)).find? (fun t => (p.table t).isNone) with
  | none => (.error 6, s)
  | some t => (.ok (p.id * 2 ^ 16 + t), putPool s (p.setTable t []))

/-- An operation at the pool of a name; at its live table. -/
def onPool (s : State) (q : PoolReq) (name : Nat) (f : Pool → Except Nat Nat × State) : Except Nat Nat × State :=
  match poolOf s q.ctx name with | .error e => (.error e, s) | .ok p => f p
def onSeq (s : State) (q : PoolReq) (name : Nat) (f : Pool → Nat → List Nat → Except Nat Nat × State) : Except Nat Nat × State :=
  match seqOf s q.ctx name with | .error e => (.error e, s) | .ok (p, t, es) => f p t es
/-- One operation at its engine: its value or its status code, and the state (17 R333-R336). -/
def poolPerform (s : State) (q : PoolReq) : Except Nat Nat × State :=
  match q.op with
  | .new name => onPool s q name (poolNew s)
  | .free name => onSeq s q name fun p t es => (.ok es.length, putPool s ((p.push es q.blk q.rel).dropTable t))
  | .pinit b desc => installPool s q.ctx q.kernel b desc
  | .pfree name => onPool s q name fun p =>
      if !q.kernel || !p.tables.isEmpty then (.error 7, s) else (.ok 0, dropPools s (fun x => x.id == p.id))
  | .query name => onPool s q name fun p => (.ok p.free, s)
  | .alloc spec name n => onSeq s q name (poolAlloc spec n s q)
  | .trim name n => onSeq s q name (poolTrim n s q)
  | .look name n => onSeq s q name fun p _ es => poolLook n s p es
  | .drop name n => onSeq s q name (poolDrop n s q)

/-! ### Requests (17 R328, R329, R332) -/

/-- The pool that an operation is for. -/
def PoolOp.pool : PoolOp → Nat
  | .pinit b _ => b
  | .new n | .free n | .pfree n | .query n | .alloc _ n _ | .trim n _ | .look n _ | .drop n _ => natBits n 16 4
/-- The home valley of a pool, one whose pinit still waits included. -/
def poolHome (s : State) (pool : Nat) : Option Nat :=
  ((getPool s pool).map Pool.valley).or (s.poolReqs.findSome? fun r => match r.op with
    | .pinit b q => if b = pool then some (natBits q 132 4) else none
    | _ => none)
/-- The engine that an operation travels to: the home of its pool, which for pinit its descriptor names; none where the part
has none. -/
def PoolOp.home (s : State) : PoolOp → Option Nat
  | .pinit _ q => if natBits q 132 4 < numValleys s then some (natBits q 132 4) else none
  | o => poolHome s o.pool
/-- An engine's operations of the period (17 R328, 24 R406). -/
def poolCount (s : State) (valley : Nat) : Nat := Sparse.get 0 s.act.pool valley
/-- An outstanding request with its reply: a status, or a value with the predicate of KLOOK (17 R330, R336). -/
def Outst.poolDone (r : Except Nat Nat) (o : Outst) : Outst :=
  match o.op with
  | .pool d w p => { o with op := .reply d w (BitVec.ofNat 64 (match r with | .ok v => v | .error e => poolFail e)) (p.map fun n => (n, r.toBool)) }
  | _ => o
/-- The reply of a request: it stands for a rollback too, which does not ask the engine again (21 R379; log 17). -/
def poolReply (s : State) (id : Nat) (r : Except Nat Nat) : State :=
  let s := updOutst s id (Outst.poolDone r)
  { s with ckpts := s.ckpts.map (fun c => { c with outst := updWhere c.outst (fun o => o.id == id) (Outst.poolDone r) }) }
/-- An engine performs a request, counts it, and replies; a thread that a kill has taken gets no reply (17 R337). -/
def poolServe (s : State) (q : PoolReq) : State :=
  let s := { s with act := { s.act with pool := Sparse.set 0 s.act.pool q.valley (poolCount s q.valley + 1) } }
  let r := poolPerform s q
  poolReply r.2 q.outst r.1
/-- A request reaches its engine: it is performed where none waits there before it and the budget is not spent, else it
waits. One for which the part has no engine is answered at once. -/
def poolArrive (s : State) (home : Option Nat) (q : PoolReq) : State :=
  match home with
  | none => let r := poolPerform s q; poolReply r.2 q.outst r.1
  | some v =>
    if s.poolReqs.any (fun r => r.valley == v) || decide (s.cfg.budgets.pool ≤ poolCount s v) then { s with poolReqs := s.poolReqs ++ [q] }
    else poolServe s q
/-- At a new period the engines serve what waits, in order, as far as their budgets go. -/
def servePools (s : State) : State :=
  s.poolReqs.foldl (fun s q => if poolCount s q.valley < s.cfg.budgets.pool then poolServe { s with poolReqs := s.poolReqs.erase q } q else s) s

/-- The request of one thread: an acq_rel at device scope, whose reply is outstanding in the class EN (17 R329, R332). -/
def poolAsk (i : Iss) (d : Reg) (w : Nat) (pred : Option Nat) (op : PoolOp) (s : State) (x : Lane) : State :=
  let s := syncRelease s x
  let home := op.home s
  let (id, s) := addOutst s i.no x .en (.pool d (keepW i.cmd x d w) pred) false false
  poolArrive s home { outst := id, valley := home.getD 0, blk := x.b.uid, rel := relNow s x.b.uid, ctx := x.b.ctx,
                      kernel := x.b.kernel, op := op }
/-- The requests of an issue, in ascending lane position. -/
def poolIssue (i : Iss) (d : Reg) (w : Nat) (changes : Bool) (pred : Option Nat) (op : Lane → PoolOp) (s : State) : State :=
  i.cmd.foldl (fun s x => poolAsk i d w pred (op x) s x) (if i.cmd.isEmpty || !changes then s else irrevocable s i.b.uid)
/-- A POOL instruction whose operands are registers. -/
def poolEach (n : Nat) (k : Ctl) (src : List RG) (d : Reg) (w : Nat) (changes : Bool) (pred : Option Nat) (op : Lane → PoolOp)
    (s : State) : Res :=
  issue n k src [⟨d, w / 32⟩] s fun i s => .done (poolIssue i d w changes pred op s)

/-! ### The instructions (17 R333-R336) -/

def execKseqNew (k : Ctl) (d a : Reg) (s : State) : Res :=
  poolEach 0xE0 k [r32 a] d 32 true none (fun x => .new (x.rd a 32)) s
def execKseqFree (k : Ctl) (d a : Reg) (s : State) : Res :=
  poolEach 0xE0 k [r32 a] d 32 true none (fun x => .free (x.rd a 32)) s
def execKseqPquery (k : Ctl) (d a : Reg) (s : State) : Res :=
  poolEach 0xE0 k [r32 a] d 32 true none (fun x => .query (x.rd a 32)) s
def execKseqPfree (k : Ctl) (d a : Reg) (s : State) : Res :=
  poolEach 0xE0 k [r32 a] d 32 true none (fun x => .pfree (x.rd a 32)) s
/-- KSEQ pinit reads its descriptors at issue, after what the threads have stored to them (08 R171); a fault of that read
comes before any request (17 R332). -/
def execKseqPinit (k : Ctl) (d a b : Reg) (s : State) : Res :=
  issue 0xE0 k [r64 a, r32 b] [r32 d] s fun i s =>
    match taskAddrs s i.cmd a 0 64 64 with
    | ([], as, s) =>
      let s := as.foldl (fun s q => drainBytes s q.1.t.blk q.1.t.gang q.1.t.lane .glob q.2 64) s
      let desc (x : Lane) : Nat := match as.find? (fun q => q.1 == x) with
        | some q => leVal (readGlobal s x.b.uid q.2 64)
        | none => 0
      .done (poolIssue i d 32 true none (fun x => .pinit (x.rd b 32) (desc x)) s)
    | (fs, _, s) => .trap s fs
def execKalloc (k : Ctl) (cl : Bool) (d a b : Reg) (s : State) : Res :=
  poolEach 0xE1 k [r32 a, r32 b] d 32 true none (fun x => .alloc cl (x.rd a 32) (x.rd b 32)) s
def execKtrim (k : Ctl) (d a b : Reg) (s : State) : Res :=
  poolEach 0xE2 k [r32 a, r32 b] d 32 true none (fun x => .trim (x.rd a 32) (x.rd b 32)) s
def execKfree (k : Ctl) (d a b : Reg) (s : State) : Res :=
  poolEach 0xE4 k [r32 a, r32 b] d 32 true none (fun x => .drop (x.rd a 32) (x.rd b 32)) s
def execKlook (k : Ctl) (d a b : Reg) (x : BitVec 8) (s : State) : Res :=
  poolEach 0xE3 k [r32 a, r32 b] d 64 false (some x.toNat) (fun l => .look (l.rd a 32) (l.rd b 32)) s

end Sys2Proof.Machine
end

