-- ==== Sys2Proof/Machine/Save.lean ====
section
/-! DEFINITION. Pre-emption: the context frame and the save of a block (11 R240-R244), the trap queue (11 R239), the loss
of a context (21 R380), the restore (11 R247), and PFRES and TRET (11 R248). -/

namespace Sys2Proof.Machine

/-! ### The faults of a block -/

/-- The faults recorded against a block, each with the thread that it names: of threads, copies, drains and rows. -/
def blockFaults (s : State) (uid : Nat) : List (Nat × Nat × FaultRec) :=
  let ts := (blockThreads s uid).filterMap (fun t => t.fault.map (fun f => (t.gang, t.lane, f)))
  let cs := (s.copies.filter (fun c => c.blk == uid)).filterMap (fun c => c.fault.map (fun f => (c.gang, c.lane, f)))
  let ds := (s.mops.filter (fun m => m.blk == uid)).filterMap (fun m => match m.kind with
    | .drain o => o.fault.map (fun f => (m.gang, m.lane, f))
    | _ => none)
  let rs := (s.tapins.filter (fun t => t.blk == uid)).flatMap (fun t =>
    t.rows.filterMap (fun r => r.fault.map (fun f => (t.gang, t.lane, f))))
  ts ++ cs ++ ds ++ rs
/-- The fault at the lowest (gang, thread index). -/
def lowestFault (fs : List (Nat × Nat × FaultRec)) : Option (Nat × Nat × FaultRec) :=
  fs.foldl (fun m f => match m with
    | none => some f
    | some g => if f.1 < g.1 ∨ (f.1 = g.1 ∧ f.2.1 < g.2.1) then some f else some g) none
/-- The first faulting thread of a save: the one that started it, with the fault that it started it for, else the lowest
(11 R239, R240). -/
def firstFault (s : State) (uid : Nat) (r : SaveReq) : Option (Nat × Nat × FaultRec) :=
  r.first.or (lowestFault (blockFaults s uid))

/-! ### The frame (11 R243, R244; log 8) -/

/-- n free bytes: of a section whose inner layout the spec does not give. -/
def freeBytes (s : State) (n : Nat) : List Byte × State :=
  ((List.range n).map (fun k => Config.frameByte (s.free + k)), { s with free := s.free + n })
/-- Pad a section to a 64-byte boundary. -/
def pad64 (bs : List Byte) : List Byte := bs ++ List.replicate ((64 - bs.length % 64) % 64) 0

/-- The wait state and the operand of the wait of a thread record (11 R243). -/
def waitCode (s : State) (t : Thread) : Nat × Nat :=
  let here := (placeOf s t).addr.toNat
  match t.wait with
  | .gather .. | .give .. => (1, here)
  | .claim _ => (2, here)
  | .rjoin k _ => (3, k)
  | .jpwait _ => (5, 0)
  | .barrier _ n _ => (6, n.toNat)
  | .ring id f _ _ => (if f then 7 else 8, id)
  | .tapw r _ _ => (9, r)
  | .baton _ => (10, 0)
  | .mclaim .. => (11, here)
  | .scfence _ => (12, here)
  | .cwait n _ => (13, n.toNat)
  | .none | .nap | .exit | .halt .. | .accept | .over .. =>
    match s.conts.find? (fun c => c.blk == t.blk && c.gang == t.gang && c.lane == t.lane) with
    | some c => (4, c.va.toNat)
    | none => (0, 0)
/-- The 192 bytes of a thread record (11 R243). -/
def threadRecord (s : State) (b : Block) (t : Thread) : List Byte :=
  let filed := s.bins.any (fun q => q.blk == t.blk && q.filed.any (fun f => f.m == (t.gang, t.lane))) ||
    s.arrivals.any (fun a => a.blk == t.blk && a.gang == t.gang && a.lane == t.lane)
  let aside := match bundleOf s t with | some q => q.aside | none => false
  let (code, arg) := waitCode s t
  let join := ((t.joins.mapIdx (fun k j =>
    fld (64 * k) 64 (2 ^ 63 + (if j.ref.grp then 2 ^ 62 else 0) + j.named.toNat % 2 ^ 57))).sum)
  let v := fld 0 64 (placeOf s t).addr.toNat + fld 64 64 t.resume.addr.toNat + fld 184 8 t.gang + fld 192 8 (b.tid t.lane) +
    fld 200 8 (b2n t.handling + 2 * b2n filed + 4 * b2n aside) + fld 208 32 t.trcause.toNat + fld 240 64 t.trpc.toNat +
    fld 304 64 t.trinfo.toNat + fld 368 256 t.wrec.toNat + fld 624 48 t.p.toNat + fld 672 8 t.fpflags.toNat +
    fld 680 16 t.batch.toNat + fld 696 8 code + fld 704 64 arg + fld 768 512 join
  leBytes 192 v

/-- The coding of one line after the previous one (11 R244): its code and its payload. -/
def codeLine (prev line : List Byte) : Nat × List Byte :=
  if line.all (· == 0) then (0, [])
  else if line = prev then (1, [])
  else if (List.range 16).all (fun k => (line.drop (4 * k)).take 4 == line.take 4) then (2, line.take 4)
  else (3, line)
/-- The codes and payloads of the lines of a region. -/
def codeLines (prev : List Byte) : List (List Byte) → List (Nat × List Byte)
  | [] => []
  | l :: t => codeLine prev l :: codeLines l t
/-- A coded region. -/
def codedRegion (kind idx : Nat) (lines : List (List Byte)) : List Byte :=
  let cs := codeLines (List.replicate 64 0) lines
  let payload := cs.flatMap Prod.snd
  let words := (List.range ((lines.length + 31) / 32)).flatMap (fun w =>
    leBytes 8 (((List.range 32).map (fun k => match cs[32 * w + k]? with | some c => c.1 * 4 ^ k | none => 0)).sum))
  leBytes 4 kind ++ leBytes 4 idx ++ leBytes 4 lines.length ++ leBytes 4 payload.length ++ words ++ payload
/-- Lines of 64 bytes, the last one filled up with zeros. -/
def linesOf (bs : List Byte) : List (List Byte) := (List.range ((bs.length + 63) / 64)).map (fun k =>
  (bs.drop (64 * k)).take 64 ++ List.replicate (64 * (k + 1) - bs.length) 0)

/-- The registers of a gang: register by register, each for lanes 0-31 (log 8). -/
def gangBytes (s : State) (g : Gang) : List Byte :=
  (List.range g.limit).flatMap (fun r => (List.range 32).flatMap (fun l =>
    leBytes 4 (match getThread s g.blk g.num l with | some t => (Sparse.get 0 t.v r).toNat | none => 0)))
/-- The n bytes of a map from an address. -/
def mapBytes (m : Sparse Byte) (a n : Nat) : List Byte := (List.range n).map (fun k => Sparse.get unlisted m (a + k))
/-- The coded regions of a block: registers, the operand slots that are dirty since their claim, accumulators, mask tiles,
cellar and hold queue, and the granules that are dirty since launch (log 8). -/
def codedRegions (s : State) (b : Block) : List Byte × State :=
  let regs := (blockGangs s b.uid).flatMap (fun g => codedRegion 0 g.num (linesOf (gangBytes s g)))
  let slots := (s.opslots.filter (fun o => o.blk == b.uid && o.dirty)).flatMap (fun o =>
    codedRegion 1 o.num (linesOf (mapBytes o.data 0 8192)))
  let (accs, s) := (s.accs.filter (fun a => a.blk == b.uid)).foldl (fun (acc : List Byte × State) a =>
    let (f, s) := freeBytes acc.2 1024
    (acc.1 ++ codedRegion 2 a.num (linesOf ((List.range 4096).flatMap (fun k => leBytes 4 (a.elem k)) ++ f)), s)) ([], s)
  let masks := (s.masks.filter (fun m => m.blk == b.uid)).flatMap (fun m =>
    codedRegion 3 m.num (linesOf ((List.range 64).flatMap (fun r => leBytes 8 (Sparse.get 0 m.rows r).toNat))))
  let (cellar, s) := freeBytes s (if b.rollback then cellarUse s b else 0)
  let (hold, s) := freeBytes s (if b.rollback then 32 * b.hold.length else 0)
  let granules := ((List.range (b.ssize / 4096)).filter b.granules.contains).flatMap (fun k =>
    codedRegion 6 k (linesOf (mapBytes b.scratch (4096 * k) 4096)))
  let roll := if b.rollback then codedRegion 4 0 (linesOf cellar) ++ codedRegion 5 0 (linesOf hold) else []
  (regs ++ slots ++ accs ++ masks ++ roll ++ granules, s)

/-- The restart record of a copy (14 R286). -/
def copyRecord (b : Block) (c : CopyCmd) : List Byte :=
  leBytes 128 (fld 0 64 c.word.toNat + fld 64 16 (if 1 ≤ c.dk ∧ c.dk ≤ 3 then c.tgt else 0) +
    fld 80 256 (if c.op = 0xA3 then 0 else c.srec.toNat) + fld 336 256 (if 1 ≤ c.dk ∧ c.dk ≤ 3 then 0 else c.drec.toNat) +
    fld 592 64 c.sorig.toNat + fld 656 64 c.dorig.toNat + fld 720 64 c.shape.toNat + fld 784 64 c.opened + fld 848 8 c.gang +
    fld 856 8 (b.tid c.lane) + fld 864 16 (match c.batch with | some n => n.toNat | none => 0) +
    fld 880 20 (if c.dk = 4 then natBits c.shape.toNat 32 20 else 0) + fld 900 1 (b2n c.batch.isSome))
/-- The restart record of a drain (15 R314). -/
def drainRecord (b : Block) (m : MOp) (o : DrainOp) : List Byte :=
  leBytes 128 (fld 0 64 o.word.toNat + fld 144 4 o.acc + fld 160 32 o.done + fld 192 8 (b.tid m.lane) + fld 200 8 m.gang +
    fld 208 64 (o.i + 2 ^ 32 * o.j) + fld 272 64 o.rmask.toNat + fld 336 256 o.drec.toNat)
/-- The restart record of a TAPIN (19 R363). -/
def tapRecord (b : Block) (t : Tapin) : List Byte :=
  leBytes 128 (fld 0 64 t.word.toNat + fld 64 256 t.tile.toNat + fld 320 256 t.drec.toNat + fld 576 32 t.trec +
    fld 608 32 t.rmap + fld 640 8 t.gang + fld 648 8 (b.tid t.lane))
/-- The restart records of a block. -/
def restarts (s : State) (b : Block) : List (List Byte) :=
  (s.copies.filter (fun c => c.blk == b.uid)).map (copyRecord b) ++
  (s.mops.filter (fun m => m.blk == b.uid)).filterMap (fun m => match m.kind with | .drain o => some (drainRecord b m o) | _ => none) ++
  (s.tapins.filter (fun t => t.blk == b.uid && t.outstanding)).map (tapRecord b)

/-- What a gang record holds (11 R243). -/
def gangFields (g : Gang) : List Nat :=
  [g.num, g.role, g.base, g.ext] ++ (List.range 64).map (fun k => (Sparse.get 0 g.s k).toNat) ++
  (List.range 4).flatMap (fun k => [(Sparse.get 0 g.armed k).toNat, (Sparse.get 0 g.arrived k).toNat])
/-- What a ring descriptor holds (12 R270, R271). -/
def ringFields (r : Ring) : List Nat :=
  [r.id, r.kind, r.base, r.sbytes, r.fill, r.take] ++ r.slots.flatMap (fun q =>
    [match q.st with | .free => 0 | .filling => 1 | .filled => 2 | .taken => 3, q.owner, b2n q.phase, q.counted, q.want.getD 0])
/-- What the block section holds (11 R243), the stall counters included (23 R392). -/
def blockFields (s : State) (b : Block) : List Nat :=
  let q := getBaton s b.core
  (List.range 32).map (fun k => (b.recOf k).toNat) ++ [b.mtol.toNat, b.rbcount.toNat, b.chunkNext, b.chunkEnd, b2n b.dry] ++
  (s.rings.filter (fun r => r.blk == b.uid)).flatMap ringFields ++
  (q.holder.toList ++ q.queue).flatMap (fun m => if m.1 = b.uid then [m.2] else []) ++
  (s.opslots.filter (fun o => o.blk == b.uid)).map OpSlot.num ++ (blockThreads s b.uid).map Thread.waited ++
  (List.range 13).map (fun k => (Sparse.get 0 b.stall (k + 1)).toNat)
/-- What a bundle record holds: the header address, the word index, the active mask, and the gang and thread of each lane
position (11 R243). -/
def bundleFields (s : State) (b : Block) (q : Bundle) : List Nat :=
  let act := (membersOf s q).filter (fun t => !pastIt q t)
  [q.place.hdr.toNat, q.place.idx, (act.map (fun t => 2 ^ t.lane)).sum] ++ q.mem.flatMap (fun m => [m.1, b.tid m.2])
/-- What a fault record holds: gang, thread, cause, TRINFO and access kind (11 R243), and the record's tag (08 R158). -/
def faultFields (b : Block) (f : Nat × Nat × FaultRec) : List Nat :=
  [f.1, b.tid f.2.1, f.2.2.cause.toNat, f.2.2.info.toNat, f.2.2.kind.toNat, f.2.2.tag.toNat]

/-- The threads that have a record in the frame, one for each logical thread (11 R243, 05 R101). -/
def frameThreads (s : State) (b : Block) : List Thread := (blockThreads s b.uid).filter (fun t => !b.protectd || t.lane % 2 == 0)
/-- The whole frame of a block, with the state that has drawn its free bytes. -/
def frameBytes (s : State) (b : Block) (reason : Nat) : List Byte × State :=
  let threads := (frameThreads s b).flatMap (threadRecord s b)
  let gangs := (blockGangs s b.uid).flatMap (fun g => frameRec 1 640 (gangFields g))
  let blk := frameRec 2 2048 (blockFields s b)
  let bs := s.bundles.filter (fun q => q.blk == b.uid)
  let bundles := bs.flatMap (fun q => frameRec 3 96 (bundleFields s b q))
  let fs := blockFaults s b.uid
  let faults := fs.flatMap (fun f => frameRec 4 32 (faultFields b f))
  let rs := (restarts s b).flatten
  let (regions, s) := codedRegions s b
  let body := pad64 threads ++ gangs ++ blk ++ pad64 bundles ++ pad64 faults ++ rs ++ pad64 regions
  let hdr := fld 0 16 0xF1E7 + fld 16 8 1 + fld 24 8 reason + fld 32 16 b.ctx + fld 48 16 b.scope +
    fld 64 64 (handleOf b.ctx b.serial).toNat + fld 128 32 b.num + fld 160 8 (blockGangs s b.uid).length + fld 168 4 b.flags.toNat +
    fld 172 8 b.slots + fld 192 32 (128 + body.length) + fld 224 16 fs.length + fld 240 16 bs.length + fld 256 8 b.core
  (leBytes 128 hdr ++ body, s)
/-- Write a frame, 64 bytes at a time, up to where it cannot be written, which is then as that write has met it; whether all
of it is written. -/
def writeFrame (s : State) (ctx va : Nat) : List (List Byte) → Bool × State
  | [] => (true, s)
  | l :: t => match ctxWrite s ctx true va l with
    | some s => writeFrame s ctx (va + 64) t
    | none => (false, ctxMeet s ctx true va 64)

/-! ### SAVE (11 R240-R242) -/

/-- A drain that has faulted. -/
def MOp.faulted (m : MOp) : Bool := match m.kind with | .drain o => o.fault.isSome | _ => false
/-- The matrix operations of a block that a save cannot wait for: drains that have faulted, and what waits for one, on its
accumulator or in an MSYNC. They go with the block and run after the restore (15 R302, R314, R319; DEDUCED, log 14). -/
def stuckMops (s : State) (uid : Nat) : List MOp :=
  (s.mops.filter (fun m => m.blk == uid)).foldl (fun acc m =>
    let stuck := match m.kind with
      | .sync ids => acc.any (fun q => ids.contains q.id)
      | k => acc.any (fun q => q.kind.acc == k.acc)
    if m.faulted || stuck then acc ++ [m] else acc) []
/-- The results that a save waits for: all but EN replies, fences, and those of drains that have faulted and of what waits
for them (11 R241). -/
def savePending (s : State) (uid : Nat) : Bool :=
  let stuck := (stuckMops s uid).map MOp.id
  s.outst.any fun o => o.blk == uid && o.cls != .en && o.cls != .fence &&
    (match o.op with
     | .matrix m _ => !stuck.contains m
     | _ => true)
/-- Queued matrix work that a save waits for (15 R319). -/
def saveMtx (s : State) (uid : Nat) : Bool :=
  let stuck := stuckMops s uid
  s.mops.any fun m => m.blk == uid && !stuck.contains m
/-- The block is ready for its save but for its copies. -/
def saveReady (s : State) (b : Block) : Bool :=
  b.saveReq.isSome && b.status == .running && !b.killed && b.mcheck.isEmpty && !b.ckptDue && allStopped s b.uid &&
  !savePending s b.uid && !saveMtx s b.uid
/-- Copies of the block that still run. -/
def copiesRun (s : State) (uid : Nat) : Bool := s.copies.any (fun c => c.blk == uid && c.fault.isNone)
/-- The event SAVE_COPY_BOUND: the copies of a save have had their 65,536 cycles (11 R241). -/
def execSaveCopyBound (blk : Nat) (s : State) : Res :=
  match getBlock s blk with
  | none => .next s
  | some b =>
    if saveReady s b && copiesRun s blk then
      .next (modBlock s blk (fun b => { b with saveReq := b.saveReq.map (fun r => { r with bounded := true }) }))
    else .next s

/-- The words of a block barrier as a save writes them: typed, in no hardware slot, with no waiter (12 R261). -/
def slotBack (s : State) (b : Bar) : State :=
  let bytes := (List.range 8).flatMap (fun k => leBytes 4 (if k < 6 then b.word k else if k = 6 then b.flags % 4 else 0))
  modBlock s b.ref.blk (fun q => { q with scratch := putBytes q.scratch b.ref.addr bytes, granules := touch q.granules b.ref.addr 32 })
/-- Whether a thread that leaves its core issues its instruction again: its wait is withdrawn (11 R242). -/
def reissues (t : Thread) : Bool :=
  match t.wait with
  | .gather .. | .claim _ | .mclaim .. | .scfence _ | .ring .. | .baton _ => true
  | _ => false
/-- The members of a bundle that issue its instruction again do so together, those of a gang that a fault holds there among
them, and the bundle stays whole (02 R24, 06 R118). -/
def redoBundle (s : State) (b : Bundle) : State :=
  let out (m : Nat × Nat) : Bool := (getThread s b.blk m.1 m.2).any reissues
  let again := b.mem.filter (fun m => out m || (!b.mid && b.redo.contains m))
  if !b.mem.any out then s
  else modBundle s b.id (fun b => { b with mid := false, redo := if again.length = b.mem.length then [] else again })
/-- Take the threads of a block out of their waits as a save does (11 R242). Waits at barriers, in RJOIN, TAPW, JPWAIT and
CWAIT are kept and entered again; a NAP is left behind. -/
def withdrawWaits (s : State) (uid : Nat) : State :=
  let s := (s.bundles.filter (fun b => b.blk == uid && (b.mid || !b.redo.isEmpty))).foldl redoBundle s
  let s := (blockThreads s uid).foldl leaveQueues s
  let out (t : Thread) : Thread := if reissues t || t.wait == .nap then { t.unwait with flip := none } else t
  modThreads { s with claims := s.claims.filter (fun c => c.1 != uid),
                      rings := updWhere s.rings (fun r => r.blk == uid) (fun r => { r with queue := [] }) }
    (fun t => t.blk == uid) out
/-- A save is a fence of acq_rel at system scope for each thread of its block (08 R169, 11 R242). -/
def fenceSave (s : State) (uid : Nat) : State := (blockThreads s uid).foldl (fun s t => fenceMarks s t 4 true true) s

/-- A fault that ends in a save finds no kernel, or a kernel-level block: R16 and R236 (01, 11). -/
def noKernelTrap (s : State) (b : Block) (cause : Nat) : State :=
  let s := trapNote s b.ctx b.serial cause
  if b.kernel then loseContext s b.ctx else killForJob s b.ctx b.serial b.scope
/-- The rows of WATCH traps that a save delivers become HANDLING when it is written (19 R354). -/
def handleSaved (s : State) (uid : Nat) : State :=
  (blockThreads s uid).foldl (fun s t =>
    match t.fault, t.watchq with
    | some f, w :: _ => if f.cause = 0x12 then handleRow s t w else s
    | _, _ => s) s

/-- The logical threads that have faulted (11 R239, 05 R101). -/
def faultThreads (b : Block) (fs : List (Nat × Nat × FaultRec)) : Nat := (fs.map (fun f => (f.1, b.tid f.2.1))).eraseDups.length
/-- The save that a companion's resume has gone ahead of: the group's first save is resumed already (11 R248). -/
def resumedGroup (s : State) (b : Block) (r : SaveReq) : Bool :=
  r.reason == 4 && (s.blocks.filter (fun q => q.sameGroup b)).any (fun q => s.saves.any (fun x => x.blk == q.uid && x.resumed))
/-- A block whose frame is written leaves its core: its batons, its waits and its places in queues go, and what it held is
free (11 R241 step 5). A barrier keeps the mark that it held a slot until the restore (12 R261). -/
def leaveCore (s : State) (b : Block) (slot : Option Nat) (ticket : Nat) : State :=
  let s := leaveBatons (withdrawWaits s b.uid) b
  let s := modCtx s b.ctx (fun c => { c with frUsed := match slot with | some k => c.frUsed ++ [k] | none => c.frUsed })
  settleBins (serveMclaims (serveClaims (modBlock s b.uid (fun b => { b with status := .saved ticket }))) b.core) b.core
/-- Make the save of a ready block: the frame where a slot is free and it fits, else the block is held in place. DESIGN
CHOICE (log 14): a save that ends so withdraws no wait; a claim of a thread of the block goes on waiting and may be granted
meanwhile. -/
def saveBlock (s : State) (b : Block) (r : SaveReq) : State :=
  let fs := blockFaults s b.uid
  let first := firstFault s b.uid r
  let cause := match r.first, first with | some _, some f => f.2.2.cause.toNat | _, _ => 0
  let s := fenceSave (handleSaved (stallRecord s b.uid) b.uid) b.uid
  let s := (s.bars.filter (fun q => !q.ref.grp && q.ref.blk == b.uid)).foldl slotBack s
  match getBlock s b.uid, getCtx s b.ctx with
  | some b, some c =>
    let (bytes, s) := frameBytes s b r.reason
    let slot := (List.range c.frcount.toNat).find? (fun k => !c.frUsed.contains k)
    let va := match slot with | some k => c.frbase.toNat + c.frslot.toNat * k | none => 0
    let (written, s) := if slot.isSome ∧ bytes.length ≤ c.frslot.toNat then writeFrame s b.ctx va (linesOf bytes) else (false, s)
    let (ticket, s) := freshTicket s b.ctx
    let frame := if written then va else 0
    let info : FaultRec := match first with | some f => f.2.2 | none => FaultRec.mk 0 0 0 0xFF 0 0
    let e : EntryF :=
      { frame := frame, job := (handleOf b.ctx b.serial).toNat, info := info.info.toNat, pc := info.pc.toNat, ticket := ticket,
        block := b.num, core := if written then 0xFF else b.core, gang := match first with | some f => f.1 | none => 0,
        thread := match first with | some f => b.tid f.2.1 | none => 0, cause := cause, scope := b.scope, reason := r.reason,
        kind := match lowestFault (fs.filter (fun f => f.2.2.cause == 0x09 || f.2.2.cause == 0x0A)) with
          | some f => f.2.2.kind.toNat
          | none => 0xFF,
        faults := faultThreads b fs,
        party := if info.cause = 0x0B#8 then info.party.toNat else 0 }
    let rec_ : SaveRec := { ctx := b.ctx, ticket := ticket, blk := b.uid, reason := r.reason, cause := BitVec.ofNat 8 cause,
                            frame := frame, slot := if written then slot else none, group := b.group, resumed := false,
                            pcs := (frameThreads s b).map (fun t => (placeOf s t).addr) }
    let s := { s with saves := s.saves ++ [rec_],
                      entries := if s.kqsize = 0 then s.entries else s.entries ++ [⟨e.bits, some b.uid, b.ctx⟩],
                      act := { s.act with saves := s.act.saves + (if written then bytes.length else 0) } }
    let s := modBlock s b.uid (fun b => { b with saveReq := none, arm := none })
    if written then leaveCore s b slot ticket else modBlock s b.uid (fun b => { b with status := .inPlace ticket })
  | _, _ => s

/-! ### TRAP_ENTRY_WRITE (11 R239) -/

/-- A field of an entry. -/
def entryF (e : TrapEntry) (lo w : Nat) : Nat := natBits e.bits.toNat lo w
/-- An entry that cannot be written: a TRAP notification, and for a save the job is killed and its frame discarded. -/
def entryFails (s : State) (e : TrapEntry) : State :=
  let s := trapNote s e.ctx (entryF e 384 40) (entryF e 128 8)
  match e.blk with
  | some _ => killForJob s e.ctx (entryF e 384 40) (entryF e 112 16)
  | none => s
/-- KQFUT receives KQTAIL as by an FWR, where it is EMPTY or LINKED. DESIGN CHOICE (log 23): its address is one of the context
that has written KQBASE, at kernel level (11 R239). -/
def fillKqfut (s : State) : State :=
  if s.kqfut = 0 then s
  else match translate s .device s.kqctx true 2 s.kqfut.toNat with
    | (.ok pa, s) =>
      if (futState s pa = 0 ∨ futState s pa = 3) ∧ !poisoned s pa 16 then fillFuture s pa s.kqtail.toNat true [] else s
    | (_, s) => s
/-- The event TRAP_ENTRY_WRITE: the oldest entry is written once the queue has room. -/
def execTrapEntryWrite (s : State) : Res :=
  match s.entries with
  | [] => .next s
  | e :: rest =>
    if s.kqsize = 0 then .next (entryFails { s with entries := rest } e)
    else if s.kqtail - s.kqhead = s.kqsize then .next s
    else
      let va := s.kqbase.toNat + 64 * (s.kqtail.toNat % s.kqsize.toNat)
      match ctxWrite s s.kqctx true va (leBytes 64 e.bits.toNat) with
      | some s1 => .next (fillKqfut { s1 with entries := rest, kqtail := s1.kqtail + 1 })
      | none => .next (entryFails { ctxMeet s s.kqctx true va 64 with entries := rest } e)

/-! ### PFRES and TRET (11 R248) -/

/-- What a resume does with the threads that faulted. -/
inductive Act3 where
  | retry
  | skip
  | redirect (hdr : W64)
  deriving DecidableEq, Repr

/-- A thread, or a protected pair, continues at a header as a path of its own, beside those of its bundle that go there too;
where the clause there begins at a reform point it is filed then (05 R80, R101). DESIGN CHOICE (log 23): that path waits for no
bin (05 R84). -/
def sendTo (s : State) (t : Thread) (hdr : W64) : State :=
  let bun := bundleOf s t
  let us := (gangThreads s t.blk t.gang).filter (fun u => u.lane == t.lane || (isProt s t.blk && u.lane / 2 == t.lane / 2))
  let ms := us.map (fun u => (u.gang, u.lane))
  let s := us.foldl (fun s u => unfile (leaveQueues s u) u) s
  let s := match bun with | some b => leaveBundle s b.id ms | none => s
  let s := modThreads s (fun u => u.blk == t.blk && ms.contains (u.gang, u.lane))
    (fun u => { u.unwait with fault := none, parked := false, left := false, past := false, flip := none, pc := hdr })
  let (i, s) := newBundle s (bun.map Bundle.fam) t.blk ((getGang s t.blk t.gang).elim 0 Gang.role) ms (Place.at_ hdr) false bun.isSome
  mergePath s i
/-- Where a frame in use holds a poisoned line, which its resume reads (21 R369, R380). -/
def framePoison (s : State) (ctx frame : Nat) : Option Nat :=
  match ctxPoison s ctx true 0 frame 64 with
  | some pa => some pa
  | none =>
    let len := ((ctxRead s ctx true (frame + 24) 4).1.map leVal).getD 0
    (List.range ((len + 63) / 64)).findSome? (fun k => ctxPoison s ctx true 0 (frame + 64 * k) 64)
/-- PCs that the kernel has edited in the frame (11 R243): those threads go to their new headers. -/
def editPcs (s : State) (b : Block) (r : SaveRec) : State :=
  ((frameThreads s b).mapIdx (fun k t => (k, t))).foldl (fun s e =>
    match ctxRead s b.ctx true (r.frame + 128 + 192 * e.1) 8 with
    | (some bs, s) =>
      if some (leVal bs) = (r.pcs[e.1]?).map BitVec.toNat then s else sendTo s e.2 (BitVec.ofNat 64 (leVal bs))
    | (none, s) => s) s

/-- Bundles with a faulted member go past the faulted instruction, which no member performs. A WATCH has none, and a
faulted header is entered again (log 14). -/
def skipFaulted (s : State) (uid : Nat) : State :=
  let hit (t : Thread) : Bool := match t.fault with | some f => f.cause != 0x12 | none => false
  (s.bundles.filter (fun b => b.blk == uid && b.place.clause.isSome && (membersOf s b).any hit)).foldl (fun s b =>
    let s := (membersOf s b).foldl leaveQueues s
    let s := modThreads s (fun t => t.blk == uid && b.mem.contains (t.gang, t.lane)) (fun t => { t.unwait with fault := none })
    moveTo s b.id b.place.next) s
/-- The threads and commands of a resumed block whose faults a resume answers. -/
def answerFaults (s : State) (b : Block) (a : Act3) : State :=
  let uid := b.uid
  let named := (blockFaults s uid).map (fun f => (f.1, f.2.1))
  -- WATCH traps end with a TREL of their row, which is irrevocable (19 R354, R360)
  let s := (blockThreads s uid).foldl (fun s t =>
    match t.fault, t.watchq with
    | some f, w :: rest =>
      if f.cause = 0x12 then
        let s := match getTapin s uid w.trec with | some q => relRow (irrevocable s uid) q.id w.row | none => s
        modThread s uid t.gang t.lane (fun t => { t with watchq := rest })
      else s
    | _, _ => s) s
  let cs := s.copies.filter (fun c => c.blk == uid && c.fault.isSome)
  let ds := s.mops.filter (fun m => m.blk == uid && (match m.kind with | .drain o => o.fault.isSome | _ => false))
  let rows := (s.tapins.filter (fun t => t.blk == uid)).flatMap (fun t =>
    (t.rows.mapIdx (fun r q => (t.id, r, q))).filter (fun e => e.2.2.fault.isSome))
  let clear (s : State) : State := modThreads s (fun t => t.blk == uid) (fun t => { t with fault := none })
  match a with
  | .retry =>
    let s := cs.foldl (fun s c => modCopy s c.id (fun c => { c with fault := none })) s
    let s := { s with mops := updWhere s.mops (fun m => m.blk == uid) (fun m => match m.kind with
      | .drain o => { m with kind := .drain { o with fault := none } }
      | _ => m) }
    clear (rows.foldl (fun s e => modRow s e.1 e.2.1 (fun q => { q with fault := none })) s)
  | .skip | .redirect _ =>
    let s := cs.foldl (fun s c => endCopy s c true) s
    let s := ds.foldl (fun s m => endMx (dropMop s m.id) m.id) s
    let s := rows.foldl (fun s e => readyRow s e.1 e.2.1 9) s
    match a with
    | .redirect h => clear (named.foldl (fun s m => match getThread s uid m.1 m.2 with | some t => sendTo s t h | none => s) s)
    | _ => clear (skipFaulted s uid)

/-- The save of a block is resumed: its frame's slot is free (11 R243). -/
def resumeSave (s : State) (uid : Nat) : State :=
  match s.saves.find? (fun r => r.blk == uid) with
  | none => s
  | some r =>
    let s := match r.slot with
      | some k => modCtx s r.ctx (fun c => { c with frUsed := c.frUsed.filter (· != k) })
      | none => s
    { s with saves := updWhere s.saves (fun x => x.blk == uid) (fun x => { x with resumed := true, slot := none }) }
/-- The resume of one block of a group whose save has been made (11 R248). A poisoned line of its frame loses the context
(21 R380). -/
def resumeBlock (a : Act3) (s : State) (b : Block) : State :=
  match s.saves.find? (fun r => r.blk == b.uid) with
  | none => s
  | some r =>
    match if r.frame = 0 then none else framePoison s b.ctx r.frame with
    | some pa => loseToPoison s b.ctx pa
    | none => settleBins (resumeSave (answerFaults (if r.frame = 0 then s else editPcs s b r) b a) b.uid) b.core

/-- One resume of a ticket: its status and the state (11 R248). -/
def resume (s : State) (ticket : Nat) (pfres : Bool) (a : Act3) : Nat × State :=
  match s.saves.find? (fun r => r.ticket == ticket) with
  | none => (1, s)
  | some r =>
    match getBlock s r.blk with
    | none => (1, s)
    | some b =>
      if r.resumed ∨ b.killed then (1, s)
      else if r.reason = 4 then (2, s)
      else if pfres ≠ (r.reason == 1) then (2, s)
      else
        (0, (s.blocks.filter (fun q => q.sameGroup b)).foldl (resumeBlock a) s)

def execPfres (k : Ctl) (d a : Reg) (s : State) : Res :=
  sysEach 0xD4 k [r64 a] d s (fun s l => resume s (l.rd a 64) true .retry)
def execTretRetry (k : Ctl) (d a : Reg) (s : State) : Res :=
  sysEach 0xD0 k [r64 a] d s (fun s l => resume s (l.rd a 64) false .retry)
def execTretSkip (k : Ctl) (d a : Reg) (s : State) : Res :=
  sysEach 0xD0 k [r64 a] d s (fun s l => resume s (l.rd a 64) false .skip)
def execTretRedirect (k : Ctl) (d a b : Reg) (s : State) : Res :=
  sysEach 0xD0 k [r64 a, r64 b] d s (fun s l => resume s (l.rd a 64) false (.redirect (w64 (l.rd b 64))))

/-! ### SAVE (11 R240, R241) -/

/-- The save of a companion whose group has been resumed already is resumed with it; a fault of its own is met as by a retry
(11 R248; log 14). -/
def joinResume (s : State) (b : Block) (r : SaveReq) : State := if resumedGroup s b r then resumeBlock .retry s b else s
/-- The event SAVE of a block that has stopped. With the trap queue full it holds in place until an entry is free
(11 R239). -/
def execSave (blk : Nat) (s : State) : Res :=
  match getBlock s blk with
  | none => .next s
  | some b =>
    match b.saveReq with
    | none => .next s
    | some r =>
      if !saveReady s b || (copiesRun s blk && !r.bounded) || decide (s.cfg.budgets.saves ≤ s.act.saves) then .next s
      else
        let cause := match firstFault s blk r with | some f => f.2.2.cause.toNat | none => 0
        if !(blockFaults s blk).isEmpty ∧ (s.kqsize = 0 ∨ b.kernel) then .next (unstall (noKernelTrap s b cause))
        else if queueFull s then .next s
        else
          let s := (s.copies.filter (fun c => c.blk == blk)).foldl (fun s c => settleFlying s c.id) s
          .next (unstall (joinResume (saveBlock s b r) b r))

/-! ### RESTORE (11 R247) -/

/-- Set-aside paths of a block: each needs a bin (05 R84). -/
def asidePaths (s : State) (uid : Nat) : Nat := (s.bundles.filter (fun q => q.blk == uid && q.aside)).length
/-- A core has room for a saved block: its units, its allocations, its accumulators and masks, its ring numbers, and bins
for its set-aside paths. -/
def restoreFits (s : State) (b : Block) (core : Nat) : Bool :=
  coreFits s b.ctx core (heldUnits s b.uid) b.ssize b.slots b.ngang && decide (binsUsed s core + asidePaths s b.uid ≤ 128) &&
  decide ((s.accs.filter (fun a => a.blk == b.uid)).length ≤ unitsFree s core 1) &&
  decide ((s.masks.filter (fun a => a.blk == b.uid)).length ≤ unitsFree s core 2) &&
  (s.rings.filter (fun r => r.blk == b.uid)).all (fun r => (s.rings.all fun q => q.core != core || q.id != r.id || q.blk == b.uid ||
    !isResident s q.blk))
/-- POSTED rows are posted again in rising (tap record, row) order (19 R363). -/
def insTrap (w : WatchTrap) : List WatchTrap → List WatchTrap
  | [] => [w]
  | x :: t => if w.trec < x.trec ∨ (w.trec = x.trec ∧ w.row < x.row) then w :: x :: t else x :: insTrap w t
/-- Each barrier of a restored block that held a hardware slot asks for one again (12 R261). -/
def slotBars (s : State) (b : Block) : State :=
  let held := (s.bars.filter (fun q => !q.ref.grp && q.ref.blk == b.uid && q.hw.isSome)).map Bar.ref
  let s := { s with bars := updWhere s.bars (fun q => held.contains q.ref) (fun q => { q with hw := none }) }
  held.foldl (fun s r => { s with bars := updWhere s.bars (fun q => q.ref == r) (fun q => { q with hw := freeBarSlot s b.core }) }) s
/-- The threads that were saved in a barrier wait enter it again. -/
def enterBars (s : State) (uid : Nat) : State :=
  (blockThreads s uid).foldl (fun s t => match t.wait with
    | .barrier r _ _ => wakeBar (modBar s r (fun b => { b with waiters := b.waiters + 1 })) r
    | _ => s) s
/-- Filed threads of bins and of an arrival queue, in order of filing, those of the queue last. -/
def filesOf (bins : List Bin) (arrivals : List Arrival) : List (Nat × W64 × Filed) :=
  let ins (x : Nat × W64 × Filed) (l : List (Nat × W64 × Filed)) : List (Nat × W64 × Filed) :=
    l.takeWhile (fun y => decide (y.2.2.no < x.2.2.no)) ++ x :: l.dropWhile (fun y => decide (y.2.2.no < x.2.2.no))
  (bins.flatMap (fun q => q.filed.map (fun m => (q.role, q.hdr, m)))).foldr ins [] ++
  arrivals.map (fun a => (a.role, a.hdr, ⟨a.gang, a.lane, 0⟩))
/-- What a block had filed is filed again on its core (05 R83, 11 R247). -/
def refile (s : State) (uid core : Nat) (fs : List (Nat × W64 × Filed)) : State :=
  fs.foldl (fun s f => fileThread s core uid f.1 f.2.1 f.2.2.m)
    { s with bins := s.bins.filter (fun q => q.blk != uid), arrivals := s.arrivals.filter (fun a => a.blk != uid) }
/-- The checkpoint of a block follows it to its core (21 R379). -/
def moveCkpt (core : Nat) (c : Ckpt) : Ckpt :=
  { c with block := { c.block with core := core }, rings := c.rings.map (fun r => { r with core := core }),
           bins := c.bins.map (fun q => { q with core := core }),
           arrivals := c.arrivals.map (fun a => { a with core := core }) }
/-- Put a saved block on a core: its engines' work goes with it, and its threads stand where they stood. -/
def placeSaved (s : State) (b : Block) (core : Nat) : State :=
  let s := modBlock s b.uid (fun b => { b with status := .running, core := core, saveReq := none })
  let s := { s with
    copies := updWhere s.copies (fun c => c.blk == b.uid) (fun c => { c with core := core }),
    mops := updWhere s.mops (fun m => m.blk == b.uid) (fun m => { m with core := core }),
    rings := updWhere s.rings (fun r => r.blk == b.uid) (fun r => { r with core := core }),
    ckpts := updWhere s.ckpts (fun c => c.blk == b.uid) (moveCkpt core) }
  let s := refile s b.uid core (filesOf (s.bins.filter (fun q => q.blk == b.uid)) (s.arrivals.filter (fun a => a.blk == b.uid)))
  let s := modThreads s (fun t => t.blk == b.uid) (fun t => { t with watchq := t.watchq.foldr insTrap [] })
  let s := match getBlock s b.uid with | some b => slotBars s b | none => s
  (blockThreads s b.uid).foldl (fun s t => pollCwait s t.blk t.gang t.lane) (enterBars s b.uid)
/-- Resume one block of a restore, on the core that the event names. -/
def restoreOne (s : State) (b : Block) (core : Nat) : Option State :=
  match b.status with
  | .saved t => if restoreFits s b core then some (freeSave (placeSaved s b core) b.ctx t) else none
  | .inPlace t => if b.core = core then some (freeSave (modBlock s b.uid (fun b => { b with status := .running })) b.ctx t) else none
  | .running => none
/-- Resume the blocks of a group on their cores, all or none. -/
def restoreAll (s : State) : List (Block × Nat) → Option State
  | [] => some s
  | (b, c) :: t => match restoreOne s b c with
    | some s => restoreAll s t
    | none => none
/-- A fault that a copy, a drain or a row of a block held in place has met since its resume asks for a new save (11 R240,
R248). -/
def saveAgain (s : State) (b : Block) : State :=
  match lowestFault ((blockFaults s b.uid).filter (fun f => decide (f.2.2.cause.toNat < 0x20))) with
  | none => s
  | some f => askSave s b.uid { reason := if f.2.2.cause = 0x09 then 1 else 3, first := some f, fromPreempt := false,
                                bounded := false }
/-- The event RESTORE of a resumed ticket, with a core for each block of the group in order of launch. What its end of the
stop lets go on goes on, an MSYNC behind a dropped drain and an EXIT included (15 R317). -/
def execRestore (ticket : Nat) (cores : List Nat) (s : State) : Res :=
  match (s.saves.find? (fun r => r.ticket == ticket && r.resumed)).bind (fun r => getBlock s r.blk) with
  | none => .next s
  | some b =>
    let group := s.blocks.filter (fun q => q.sameGroup b)
    if cores.length = group.length ∧ oneDomain b.glevel cores ∧
        group.all (fun q => s.saves.any (fun r => r.blk == q.uid && r.resumed)) then
      match restoreAll s (group.zip cores) with
      | some s => .next (pollJpwait (settleMtx (group.foldl saveAgain s)))
      | none => .next s
    else .next s

end Sys2Proof.Machine
end

