-- ==== Sys2Proof/Machine/Reliab.lean ====
section
/-! DEFINITION. Checking and containment (21): ERRINJ, checkpoints and rollback (R374-R379), the escalation ladder (R380),
context loss, the resets (R381, 24 R400, R403) and scrubbing (R382). -/

namespace Sys2Proof.Machine

/-! ### ERRINJ (21 R383, R384) -/

/-- The opcodes that an arm may match. -/
def armOp (ek op : Nat) : Bool :=
  match ek with
  | 0 => decide (0x02 ≤ op ∧ op ≤ 0x0E) || decide (0x40 ≤ op ∧ op ≤ 0x64) || decide (0x70 ≤ op ∧ op ≤ 0x74)
  | 1 => decide (0x0F ≤ op ∧ op ≤ 0x1B) || op == 0x22 || op == 0x23
  | 4 => pairOp op
  | 5 => decide (0xAD ≤ op ∧ op ≤ 0xB3)
  | _ => true
/-- ERRINJ with a descriptor: the status, and the arm of the block. -/
def armStatus (s : State) (b : Block) (ek d : Nat) : Nat × Option Arm :=
  let f (lo w : Nat) : Nat := natBits d lo w
  if f 48 16 ≠ 0 ∨ f 29 3 ≠ 0 ∨ f 22 2 ≠ 0 ∨ f 13 3 ≠ 0 ∨ f 32 16 = 0 then (5, b.arm)
  else if (getGang s b.uid (f 16 6)).isNone ∨ (b.protectd ∧ 16 ≤ f 8 5) then (2, b.arm)
  else if !armOp ek (f 0 8) then (3, b.arm)
  else if ek = 4 ∧ !b.protectd then (4, b.arm)
  else (b2n b.arm.isSome, some { ek := ek, count := f 32 16, bit := f 24 5, gang := f 16 6, thread := f 8 5, op := f 0 8 })
/-- Performed once per issue, with the operands of the active thread at the lowest lane position, on the arm as it stands
when this issue has been counted (21 R383, R384). -/
def armIssue (k : Ctl) (src : List RG) (d : Reg) (s : State) (f : State → Lane → Nat × Option Arm) : Res :=
  issue 0xD5 k src [r32 d] s fun i s =>
    match i.act with
    | [] => .done s
    | x :: _ =>
      let (v, arm) := f s { x with b := (getBlock s x.b.uid).getD x.b }
      .done (commit (modBlock s i.b.uid (fun b => { b with arm := arm })) d 32 (i.act.map fun y => (y, v)))
def execErrinj (k : Ctl) (ek : BitVec 3) (d a : Reg) (s : State) : Res :=
  armIssue k [r64 a] d s fun s x => armStatus s x.b ek.toNat (x.rd a 64)
def execErrinjDisarm (k : Ctl) (d : Reg) (s : State) : Res :=
  armIssue k [] d s fun _ x => (if x.b.arm.isSome then 0 else 6, none)

/-! ### CHECKPOINT (21 R374, R375) -/

/-- A copy into the block's own scratchpad or a ring slot of kind 0, which the cellar covers. -/
def CopyCmd.covered (s : State) (c : CopyCmd) : Bool := !c.irrevocable s && c.dk != 4
/-- What a checkpoint waits for has finished: started copies that the cellar covers, matrix work, and the outstanding
loads, stores and atomics (log 17). -/
def ckptReady (s : State) (b : Block) : Bool :=
  b.ckptDue && b.status == .running && !b.killed && b.mcheck.isEmpty && allStopped s b.uid &&
  !s.copies.any (fun c => c.blk == b.uid && c.covered s && c.started && c.fault.isNone) &&
  !s.mops.any (fun m => m.blk == b.uid && (match m.kind with | .drain o => o.fault.isNone | _ => true)) &&
  !s.outst.any (fun o => o.blk == b.uid && (o.cls == .ld || o.cls == .st || o.cls == .at_ || o.cls == .mx)) &&
  decide (Sparse.get 0 s.act.cellar b.core < s.cfg.budgets.cellar)
/-- The control image and the old contents of the interval that begins. -/
def snapshot (s : State) (b : Block) : Ckpt :=
  { blk := b.uid, block := b, gangs := blockGangs s b.uid, threads := blockThreads s b.uid,
    bundles := s.bundles.filter (fun q => q.blk == b.uid),
    bins := s.bins.filter (fun (q : Bin) => q.blk == b.uid), arrivals := s.arrivals.filter (fun (a : Arrival) => a.blk == b.uid),
    bars := s.bars.filter (fun q => !q.ref.grp && q.ref.blk == b.uid), rings := s.rings.filter (fun r => r.blk == b.uid),
    accs := s.accs.filter (fun a => a.blk == b.uid), masks := s.masks.filter (fun m => m.blk == b.uid),
    baton := getBaton s b.core, tapins := s.tapins.filter (fun t => t.blk == b.uid),
    outst := s.outst.filter (fun o => o.blk == b.uid && (o.cls == .en || o.cls == .cp)),
    conts := s.conts.filter (fun c => c.blk == b.uid), claims := s.claims.filter (fun c => c.1 == b.uid) }
/-- Wake the waiters of a block's barriers. -/
def wakeBars (s : State) (uid : Nat) : State :=
  (s.bars.filter (fun q => !q.ref.grp && q.ref.blk == uid)).foldl (fun s q => wakeBar s q.ref) s
/-- A block whose stores have drained begins a new interval: revocable where the control image fits and no row is
pending. -/
def beginInterval (s : State) (b : Block) : State :=
  let clean (b : Block) : Block :=
    { b with image := false, dirtyRows := [], dirtyLines := [], dirtyAccs := [], dirtyMasks := [], ckptDue := false, failed := false,
             errs := b.errs.filter (fun e => e.place != .cellar) }
  let s := { modBlock s b.uid clean with ckpts := s.ckpts.filter (fun c => c.blk != b.uid) }
  let cost := imageBytes s b.uid
  let fits := decide (cost ≤ cellarFree s b.core)
  let pending := s.tapins.any (fun t => t.blk == b.uid && t.outstanding)
  let s := { s with copies := updWhere s.copies (fun c => c.blk == b.uid && !c.covered s) (fun c => { c with interval := false }) }
  let s := modBlock s b.uid (fun b => { b with image := fits, revocable := fits && !pending })
  match getBlock s b.uid with
  | some b =>
    if b.revocable then
      { s with ckpts := s.ckpts ++ [snapshot s b],
               act := { s.act with cellar := Sparse.set 0 s.act.cellar b.core (Sparse.get 0 s.act.cellar b.core + cost) } }
    else s
  | none => s
/-- The event CHECKPOINT of a block. -/
def execCheckpoint (blk : Nat) (s : State) : Res :=
  match getBlock s blk with
  | none => .next s
  | some b =>
    if !ckptReady s b then .next s
    else
      let s := drainHold s blk
      match getBlock s blk with
      | some b => .next (if b.mcheck.isEmpty then settleMtx (wakeBars (beginInterval s b) blk) else s)
      | none => .next s

/-! ### ROLLBACK (21 R378, R379) -/

/-- A reply that was outstanding at the checkpoint is outstanding again; that of a pool engine which has come since is the
same one. -/
def reviveReply (c : Ckpt) (s : State) (o : Outst) : State :=
  let add (op : OOp) : State := { s with outst := s.outst ++ [{ o with op := op }] }
  match o.op with
  | .future pa =>
    match c.conts.find? (fun k => k.outst == o.id) with
    | none => s
    | some k =>
      let w := if k.keep then 64 else 0
      if s.conts.any (fun q => q.outst == o.id) then add o.op
      else match futState s pa with
        | 1 => add (.reply k.d w (BitVec.ofNat 64 (futValue s pa)) (some (k.pred, true)))
        | 2 => add (.reply k.d w 0 (some (k.pred, false)))
        | _ => relinkFuture { add o.op with conts := s.conts ++ [k] } pa
  | .scack x id d w => if (getScope s x id).isSome then add o.op else add (.reply d w 0 none)
  | _ => add o.op
/-- The baton of a core after a rollback: what gangs of the block hold and ask for is as at the checkpoint. -/
def revertBaton (s : State) (c : Ckpt) : State :=
  let cur := getBaton s c.block.core
  let own (p : Nat × Nat) : Bool := p.1 == c.blk
  let keep := c.baton.queue.filter (fun p => own p || cur.queue.contains p)
  let late := cur.queue.filter (fun p => !own p && !keep.contains p)
  let holder := match cur.holder with
    | some p => if own p then c.baton.holder.filter own else some p
    | none => c.baton.holder.filter own
  let s := setBaton s { cur with holder := holder, queue := keep ++ late }
  if holder.isNone then passBaton s c.block.core else s
/-- The save that a rolled-back block keeps: one that its own faults have not asked for (21 R380). -/
def keptSave (r : Option SaveReq) : Option SaveReq :=
  match r with
  | some r => if r.fromPreempt then some { r with bounded := false } else none
  | none => none
/-- The barriers of a control image put back: one that has a hardware slot keeps it, one that had one at the checkpoint asks
for one (21 R378). -/
def restoreBars (s : State) (b : Block) (bars : List Bar) : State :=
  let own (q : Bar) : Bool := !q.ref.grp && q.ref.blk == b.uid
  let now (q : Bar) : Option Nat := (s.bars.find? (fun x => x.ref == q.ref)).bind Bar.hw
  let s := { s with bars := s.bars.filter (fun q => !own q) ++ bars.map (fun q => { q with hw := now q }) }
  (bars.filter (fun q => q.hw.isSome && (now q).isNone)).foldl (fun s q =>
    { s with bars := updWhere s.bars (fun x => x.ref == q.ref) (fun x => { x with hw := freeBarSlot s b.core }) }) s
/-- Storage that a rollback writes whole: what the control image and the cellar hold, and the discarded hold queue. -/
def ErrAt.rewritten (b : Block) : ErrAt → Bool
  | .sreg .. | .preds .. | .record _ | .cellar | .hold => true
  | .scratch w => b.dirtyLines.contains (w / 8)
  | .acc n => b.dirtyAccs.contains n
  | .mask n => b.dirtyMasks.contains n
  | _ => false
/-- The counts of waiters at group barriers, for the threads of a block that wait there (12 R267). -/
def groupWaits (s : State) (ts : List Thread) (f : W32 → W32) : State :=
  ts.foldl (fun s t => match t.wait with
    | .barrier r _ _ => if r.grp then modBar s r (fun b => { b with waiters := f b.waiters }) else s
    | _ => s) s
/-- Write the cellar and the control image back. A claim that has been withdrawn since the checkpoint waits again, behind
the others (log 17). -/
def restoreImage (s : State) (b : Block) (c : Ckpt) : State :=
  let lost := b.saveReq.isSome && (keptSave b.saveReq).isNone
  let s := { s with
    gangs := s.gangs.filter (fun (g : Gang) => g.blk != b.uid) ++ c.gangs,
    threads := s.threads.filter (fun (t : Thread) => t.blk != b.uid) ++ c.threads,
    bundles := s.bundles.filter (fun (q : Bundle) => q.blk != b.uid) ++ c.bundles,
    bins := s.bins.filter (fun q => q.blk != b.uid), arrivals := s.arrivals.filter (fun a => a.blk != b.uid) }
  let s := { restoreBars s b c.bars with
    rings := s.rings.filter (fun (r : Ring) => r.blk != b.uid) ++ c.rings, accs := s.accs.filter (fun (a : Acc) => a.blk != b.uid) ++ c.accs,
    masks := s.masks.filter (fun (m : MaskTile) => m.blk != b.uid) ++ c.masks,
    tapins := s.tapins.filter (fun (t : Tapin) => t.blk != b.uid) ++ c.tapins, ruleCopies := s.ruleCopies.filter (fun r => r.ctx != b.ctx),
    mops := s.mops.filter (fun m => m.blk != b.uid),
    copies := s.copies.filter (fun q => !(q.blk == b.uid && q.interval && q.covered s)),
    poolReqs := s.poolReqs.filter (fun q => q.blk != b.uid || c.outst.any (fun o => o.id == q.outst)),
    claims := s.claims.filter (fun q => q.1 != b.uid || c.claims.contains q) ++ c.claims.filter (fun q => !s.claims.contains q) }
  let k := c.block
  let back (b : Block) : Block :=
    { b with scratch := k.scratch, recs := k.recs, mtol := k.mtol, chunkNext := k.chunkNext, chunkEnd := k.chunkEnd,
             dry := k.dry, hinted := k.hinted, interval := k.interval, tags := k.tags, hold := [], failed := true,
             dirtyRows := [], dirtyLines := [], dirtyAccs := [], dirtyMasks := [], ckptDue := false,
             saveReq := keptSave b.saveReq, rbcount := b.rbcount + 1, errs := b.errs.filter (fun e => !e.place.rewritten b),
             bad := k.bad.filter (fun (e : Nat × Nat × Nat × Bool) => b.dirtyRows.contains (e.1, e.2.2.1)) ++
                    b.bad.filter (fun (e : Nat × Nat × Nat × Bool) => !b.dirtyRows.contains (e.1, e.2.2.1)) }
  let s := modBlock s b.uid back
  -- the companions of a save that is dropped are not saved for it
  let s := if lost then
      { s with blocks := updWhere s.blocks (fun q => q.sameGroup b && q.uid != b.uid)
                 (fun q => match q.saveReq with | some r => if r.reason = 4 then { q with saveReq := none } else q | none => q) }
    else s
  let s := unlinkConts { s with outst := s.outst.filter (fun o => o.blk != b.uid || c.outst.any (fun q => q.id == o.id)) }
    (fun q => q.blk == b.uid && !c.outst.any (fun o => o.id == q.outst))
  (c.outst.filter (fun o => (getOutst s o.id).isNone)).foldl (reviveReply c) s
/-- The threads of a rolled-back block wait again at group barriers, which the rollback leaves as they are: a wait whose phase
has completed meanwhile ends, and one that has been decided (12 R256, R267). -/
def resumeGroupWaits (s : State) (c : Ckpt) : State :=
  c.threads.foldl (fun s t => match t.wait with
    | .barrier r _ _ => if r.grp then wakeBar s r else s
    | .over st d => endDecided s t.blk t.gang t.lane st d
    | _ => s) (groupWaits s c.threads (· + 1))
/-- The block goes on from its checkpoint: bundles are formed again, waits that are over end. -/
def resumeImage (s : State) (b : Block) (c : Ckpt) : State :=
  let s := refile s b.uid b.core (filesOf c.bins c.arrivals)
  let s := revertBaton s c
  let s := resumeGroupWaits (c.threads.foldl (fun s t => pollCwait s t.blk t.gang t.lane) s) c
  settleExits (wakeBars (pollJpwait (serveMclaims (serveClaims s) b.core)) b.uid)
/-- Roll a block back to its checkpoint. -/
def rollBack (s : State) (b : Block) (c : Ckpt) : State :=
  let s := restoreImage (groupWaits s (blockThreads s b.uid) (· - 1)) b c
  let s := match getBlock s b.uid with | some b => logChecks s b 1 | none => s
  unstall (resumeImage s b c)

/-- Step 1 of the ladder holds: a revocable interval, its first failure, all of it covered (21 R380). -/
def rollsBack (s : State) (b : Block) : Option Ckpt :=
  if b.rollback && b.revocable && !b.failed && b.mcheck.all (fun m => m.ladder == 1) then s.ckpts.find? (fun c => c.blk == b.uid)
  else none

/-! ### Escalation (21 R380) -/

/-- Step 2: the job's scope is killed, for scope 0 its own work. -/
def checkKill (s : State) (b : Block) : State :=
  let s := logChecks s b (if b.scope = 0 then 3 else 2)
  let running := (s.blocks.filter (fun q => q.ctx == b.ctx && !q.killed)).map Block.uid
  let s := killForJob s b.ctx b.serial b.scope
  { s with blocks := updWhere s.blocks (fun q => q.killed && running.contains q.uid) (fun q => { q with chkKill := true }) }
/-- Step 3: the context is lost; its checks are logged. -/
def checkLoss (s : State) (ctx : Nat) : State :=
  loseContext ((s.blocks.filter (fun b => b.ctx == ctx)).foldl (fun s b => logChecks s b 4) s) ctx
/-- The image of a block is read for a rollback: single-bit errors of its cellar lines are corrected and counted, a double one
is a check that nothing covers (21 R368, R380). -/
def readCellar (s : State) (b : Block) : Bool × State :=
  let s := correctErrs s b 0 0 0 0 (errsAt b (· == .cellar) false)
  let bad := errsAt b (· == .cellar) true
  if bad.isEmpty then (true, s)
  else (false, addMcheck s b.uid { cycle := 0, cause := 0x23, pc := 0, addr := 0, gang := 0, lane := 0, op := 0, unit := 11, check := 3,
                                   acc := 0, rc := 0, ladder := 2, residue := none })
/-- What is done about a check that rollback does not repair. -/
def escalate (s : State) (b : Block) : State :=
  let during := s.blocks.any (fun q => q.ctx == b.ctx && q.chkKill)
  if b.kernel || during || b.mcheck.any (fun m => decide (3 ≤ m.ladder)) then checkLoss s b.ctx
  else checkKill s b
/-- Roll a stopped block back to its checkpoint where step 1 of the ladder holds, else climb the ladder. -/
def containCheck (s : State) (b : Block) : State :=
  match rollsBack s b with
  | none => unstall (escalate s b)
  | some c =>
    match readCellar s b with
    | (true, s) => rollBack s ((getBlock s b.uid).getD b) c
    | (false, s) => unstall (escalate s ((getBlock s b.uid).getD b))
/-- The event ROLLBACK of a block that a machine check has stopped. -/
def execRollback (blk : Nat) (s : State) : Res :=
  match getBlock s blk with
  | none => .next s
  | some b =>
    if b.mcheck.isEmpty then .next s
    else if b.killed then .next (unstall (logChecks s b 2))
    else if !allStopped s blk then .next s
    else .next (containCheck s b)
/-- The event CONTEXT_LOSS: a consumed line of a context's own state was poisoned; the check is logged, and the firmware marks
the context LOST (21 R380 step 3). -/
def execContextLoss (ctx : Nat) (s : State) : Res :=
  if ctxLive s ctx then
    let (unit, s) := lineHolder s
    .next (unstall (checkLoss (logMck s { lineRec unit 6 0x23 4 with ctx := ctx }) ctx))
  else .next s

/-! ### Resets (21 R381, 24 R400, R403) -/

/-- Usable HBM bytes: 12 GiB for each live channel (01 R7, 24 R407). -/
def hbmBytes (chan : W64) : W64 :=
  BitVec.ofNat 64 (0x300000000 * ((List.range 64).filter (fun k => chan.getLsbD k)).length)
/-- A queue at a warm reset: a RESET record, and every accepted entry is done (24 R400). -/
def resetQueue (heart : W64) (q : HostQ) : HostQ :=
  let n : Note := { kind := 5, status := 0, first := q.lastDone + 1, last := q.lastAcc, ctx := q.qctx.toNat % 2 ^ 16, value := heart }
  { q with notes := q.notes ++ [n], lastDone := q.lastAcc, entries := [] }
/-- Extend a measurement register with a digest (24 R403). -/
def extendMr (m : Sparse (BitVec 512)) (k : Nat) (d : BitVec 512) : Sparse (BitVec 512) :=
  Sparse.set 0 m k (Config.extendDigest (Sparse.get 0 m k) d)
/-- Everything that no warm reset preserves goes: blocks and their work, jobs, scopes but the roots, tickets, rings, slots,
cached translations. Group barrier objects stand in memory, in no hardware slot and with no waiter. -/
def dropWork (s : State) : State :=
  let s := { s with
    threads := [], gangs := [], blocks := [], bundles := [], bins := [], arrivals := [], outst := [], claims := [], poolReqs := [], futs := [],
    rings := [], copies := [], accs := [], opslots := [], masks := [], mops := [], batons := [], tapins := [] }
  let s := { s with
    bars := (s.bars.filter (fun b => b.ref.grp)).map (fun b => { b with hw := none, waiters := 0 }), ruleCopies := [],
    jobs := [], killedJobs := [], gone := [], scopes := [], conts := [], saves := [], entries := [], ckpts := [],
    tlb := [], gtags := [], act := Activity.reset, clocks := [] }
  s
/-- The dirty lines of L2: those that implicated contexts have written are discarded, so that HBM's bytes stand there, which
are free; the others are written to HBM (21 R381; log 17). -/
def discardLines (s : State) (implicated : List Nat) : State :=
  (s.l2.filter (fun e => implicated.contains (e.2 - 1))).foldl (fun s e =>
    writeBytes { s with free := s.free + 64 } (64 * e.1) ((List.range 64).map (fun k => Config.lostByte (s.free + k))))
    { s with l2 := [] }
/-- The firmware posts the restart job of an installed kernel, whose context it has not lost (21 R381; log 17). -/
def postRestart (s : State) : State :=
  if s.kqsize = 0 ∨ !ctxLive s s.kctx then s
  else
    let (f, s) := freshFree s
    let card := Config.restartCard f
    if postStatus s { ctx := s.kctx, scope := 0, kernel := true, host := true } card = 0 then (queueJob s s.kctx card none none).2
    else s
/-- Every queue has its RESET record, before anything that the reset ends is counted done (24 R400). -/
def resetQueues (s : State) : State :=
  { s with queues := (List.range 64).foldl (fun (m : Sparse HostQ) q => Sparse.set HostQ.reset m q (resetQueue s.heart (getQueue s q))) s.queues }
/-- A warm reset with its implicated contexts; the resident firmware is verified again (24 R403). -/
def warmReset (s : State) (implicated : List Nat) : State :=
  let s := s.blocks.foldl (fun s b => logChecks s b 5) s
  let s := implicated.foldl loseContext (resetQueues s)
  let s := dropWork (discardLines s implicated)
  let s := { s with
    ctxs := s.ctxs.map (fun (c : Ctx) => { c with frUsed := [], bytesSpent := 0, mjSpent := 0, traceSpent := 0 }),
    scopes := (s.ctxs.filter (fun (c : Ctx) => c.state == 1)).map (fun (c : Ctx) => Scope.root c.id) }
  let n := s.cfg.warmResets + 1
  let (f, s) := freshFree s
  postRestart { s with cfg := { s.cfg with warmResets := n, bootfail := !Config.verified f, hbmbytes := hbmBytes s.cfg.hbmchan, mr := extendMr s.cfg.mr 7 (Config.warmDigest n) } }
/-- The context has a block on a core, or work in an engine: a job, a request at the pool engines, a save, a line that it has
written in L2 (21 R381). -/
def working (s : State) (ctx : Nat) : Bool :=
  s.blocks.any (fun b => b.ctx == ctx && b.resident) || s.jobs.any (fun j => j.ctx == ctx) ||
  s.poolReqs.any (fun q => q.ctx == ctx) || s.saves.any (fun r => r.ctx == ctx) || s.l2.any (fun e => e.2 - 1 == ctx)
/-- The event WARM_RESET: a check in device state that no context owns is logged, and the device is reset (21 R380 step 4).
The contexts implicated are those that the event names, of those that have a block or work in an engine (log 17). -/
def execWarmReset (implicated : List Nat) (s : State) : Res :=
  let (f, s) := freshFree s
  .next (warmReset (logMck s (lineRec (if Config.deviceUnit f then 14 else 12) 3 0x23 5)) (implicated.filter (working s)))

/-- Measure what runs next into a register (24 R403). -/
def measure (s : State) (mr : Nat) (digest : BitVec 512) : State := { s with cfg := { s.cfg with mr := extendMr s.cfg.mr mr digest } }
/-- A stage whose signature verifies is measured and runs; another one is not, and `ok` says so (24 R403). -/
def runStage (s : State) (mr : Nat) (digest : BitVec 512) : Bool × State :=
  let (f, s) := freshFree s
  if Config.verified f then (true, measure s mr digest) else (false, s)
/-- An image of walk routines is verified, measured and put into the walk store (24 R403, 09 R202). -/
def loadRoutine (s : State) (base : Nat) (image : List Byte) : Bool × State :=
  match runStage s 2 (Config.digestOf image) with
  | (true, s) => (true, { s with walkStore := putBytes s.walkStore base image })
  | r => r
/-- A stage that fails stops the boot. -/
def thenStage (f : State → Bool × State) (s : State) : State :=
  if s.cfg.bootfail then s
  else match f s with
    | (true, s) => s
    | (false, s) => { s with cfg := { s.cfg with bootfail := true } }
/-- The boot: the loader, the management firmware, its configuration, which is measured alone, an image of walk routines, and
the kernel image where one is installed (24 R403; log 9). -/
def boot (s : State) : State :=
  let (f, s) := freshFree s
  let s := thenStage (fun s => runStage s 0 (Config.stageDigest 0)) s
  let s := thenStage (fun s => runStage s 1 (Config.stageDigest 1)) s
  let s := thenStage (fun s => (true, measure s 4 (Config.stageDigest 2))) s
  let s := thenStage (fun s => loadRoutine s 0 ((Config.bootRoutine f).take 65536)) s
  if Config.kernelImage f then thenStage (fun s => runStage s 3 (Config.stageDigest 3)) s else s
/-- The machine after reset, on the same part beside the same host: what the host's memory holds stays. -/
def coldState (s : State) : State :=
  { State.reset with
    agenda := s.agenda, nextId := s.nextId, free := s.free, mem := s.mem.filter (fun e => hostBacked s e.1),
    hostMem := s.hostMem,
    cfg := { Config.reset with
      part := s.cfg.part, units := s.cfg.units, hbmbytes := hbmBytes s.cfg.hbmchan, hbmchan := s.cfg.hbmchan,
      links := s.cfg.links, selfdev := s.cfg.selfdev, homemap := s.cfg.homemap,
      mclogPa := s.cfg.mclogPa } }
/-- The device number that the firmware assigns: plain in [19:10], device in [9:0] (24 R402). -/
def assignDevice (s : State) : State :=
  let (f, s) := freshFree s
  { s with cfg := { s.cfg with selfdev := BitVec.ofNat 32 (Config.deviceNumber f % (768 * 1024)) } }
/-- The event COLD_RESET: the machine after reset, once the firmware has booted; what the images are, and whether a kernel
image is installed then, is left open (24 R402, R403; log 9). -/
def execColdReset (s : State) : Res := .next (boot (assignDevice (coldState s)))

/-! ### SCRUB (21 R382, R369) -/

/-- An error of scratchpad or operand memory, which a scrubber reads. -/
def ErrAt.scrubbed : ErrAt → Bool | .scratch _ | .opmem .. => true | _ => false
/-- A scrubber reads a line within the budget of its stack or slice (24 R406): the unit that holds the line. -/
def scrubLine (s : State) (l : Nat) : Option (Nat × State) :=
  let (unit, s) := lineHolder s
  let (k, budget) := if unit = 12 then (64 + Config.homeSlice l, s.cfg.budgets.scrubL2) else (Config.homeStack l, s.cfg.budgets.scrub)
  let spent := Sparse.get 0 s.act.scrub k + 64
  if budget < spent then none else some (unit, { s with act := { s.act with scrub := Sparse.set 0 s.act.scrub k spent } })
/-- The record of an uncorrectable word of a core's own memory that a scrubber has read (21 R370, R382). -/
def scrubCore (b : Block) (s : State) (e : StoreErr) : State :=
  logMck s { lineRec e.place.unit 3 0x23 6 with blk := some b.uid, ctx := b.ctx, core := b.core }
/-- The event SCRUB with what the scrubber has found: errors of one bit are corrected in place, an uncorrectable line is
poisoned, and each leaves a record. A line beyond the budget of the period is not read. An uncorrectable word of scratchpad
or operand memory stands: its next reader raises ECC. -/
def execScrub (found : ScrubFinding) (s : State) : Res :=
  match found with
  | .clean => .next s
  | .corrected pa =>
    match scrubLine s (pa / 64) with
    | some (unit, s) =>
      .next (logMck { s with lineErrs := s.lineErrs.filter (fun e => e.1 != pa / 64 || e.2 == .uncorrectable) } (lineRec unit 2 0 0))
    | none => .next s
  | .uncorrectable pa =>
    match scrubLine s (pa / 64) with
    | some (unit, s) =>
      let s := meetLine (strikeLine s (pa / 64) .uncorrectable) pa
      .next (logMck (settleFound s) (lineRec unit 3 0x23 6))
    | none => .next s
  | .core blk =>
    match getBlock s blk with
    | none => .next s
    | some b => .next ((errsAt b ErrAt.scrubbed true).foldl (scrubCore b) (correctErrs s b 0 0 0 0 (errsAt b ErrAt.scrubbed false)))

end Sys2Proof.Machine
end

