-- ==== Sys2Proof/Machine/HostIf.lean ====
section
/-! DEFINITION. The host interface and the firmware (24): queues and notifications (R396-R399), the host's accesses, power
and thermal control (R405), the period of the budgets (R406), degraded units (R407), measurement and attestation (R403,
R404). -/

namespace Sys2Proof.Machine

/-! ### Periods and power (24 R405, R406) -/

/-- Every budget is whole again. -/
def newPeriod (s : State) : State :=
  { s with act := Activity.reset, ctxs := s.ctxs.map (fun (c : Ctx) => { c with bytesSpent := 0, mjSpent := 0, traceSpent := 0 }) }
/-- What management firmware sets: the budgets, and the function that owns a queue, one of 64 (24 R401, R406). -/
def setFirm (s : State) (f : Firm) : State :=
  match f with
  | .budgets b => { s with cfg := { s.cfg with budgets := b } }
  | .owner q n => if q < 64 ∧ n < 64 then setQueue s q { getQueue s q with owner := n } else s
/-- The event PERIOD_BOUNDARY: what has waited for a budget goes on, the requests at the pool engines first (17 R328). -/
def execPeriodBoundary (s : State) : Res := .next (unstall (servePools (newPeriod s)))

/-- Steps of 100 MHz from 3.6 GHz down to 1.2 GHz. -/
def clockSteps : Nat := 24
/-- Lower the busiest core-pair island by one step; which one is busiest is left open (log 6). -/
def lowerClock (s : State) : State :=
  let (f, s) := freshFree s
  let k := Config.busiest f % (numCores s / 2)
  { s with clocks := Sparse.set 0 s.clocks k (min clockSteps (Sparse.get 0 s.clocks k + 1)) }
/-- The event POWER_ESTIMATE: the contexts are charged their shares, and a mean over PLIMIT lowers a clock. -/
def execPowerEstimate (mean : Nat) (shares : List Share) (s : State) : Res :=
  let s := shares.foldl (fun s x => modCtx s x.ctx (fun c => { c with mjSpent := c.mjSpent + x.mj })) s
  .next (if s.cfg.plimit.toNat < mean then lowerClock s else s)

/-- Who an island's record names: the core and the unit (21 R372). -/
def islandOf (n : Nat) : Nat × Nat :=
  if n < 96 then (2 * n, 0) else if n < 112 then (0xFF, 12) else if n < 120 then (0xFF, 13) else (0xFF, 15)
/-- The units of an island are there: core pairs, groups of three L2 slices, memory controllers, and the rest of the
package; the islands of absent units are held off (01 R7, R17). The order of the islands is the model's (log 4). -/
def islandHere (s : State) (n : Nat) : Bool :=
  if n < 96 then decide (2 * n < numCores s)
  else if n < 112 then decide (3 * (n - 96) < numTerraces s)
  else if n < 120 then decide (n - 112 < numValleys s)
  else decide (n < 128)
/-- A device record of outcome 0 of a kind. -/
def deviceRec (s : State) (core unit check : Nat) : State :=
  logMck s { pc := 0, addr := 0, blk := none, ctx := 0, core := core, gang := 0, lane := 0, op := 0, unit := unit,
             check := check, cause := 0, outcome := 0, acc := 0, rc := 0 }
/-- The event THERMAL_TRIP of an island of the part. -/
def execThermalTrip (island : Nat) (s : State) : Res :=
  if !islandHere s island ∨ s.tripped.contains island then .next s
  else
    let (core, unit) := islandOf island
    .next (deviceRec { s with tripped := s.tripped ++ [island] } core unit 7)
/-- The event THERMAL_RECOVER. -/
def execThermalRecover (island : Nat) (s : State) : Res :=
  .next (unstall { s with tripped := s.tripped.filter (· != island) })

/-- The event UNIT_DEGRADE: LINKS or HBMCHAN changes, with a record (24 R407). -/
def execUnitDegrade (unit : DegradedUnit) (s : State) : Res :=
  match unit with
  | .port p lanes =>
    if 8 ≤ p ∨ !(lanes == 0 || lanes == 1 || lanes == 2) ∨ natBits s.cfg.links.toNat (4 * p) 4 ≤ lanes then .next s
    else
      let l := s.cfg.links.toNat - fld (4 * p) 4 (natBits s.cfg.links.toNat (4 * p) 4) + fld (4 * p) 4 lanes
      .next (deviceRec { s with cfg := { s.cfg with links := BitVec.ofNat 32 l } } 0xFF 15 8)
  | .channel stack ch =>
    if numStacks s ≤ stack ∨ 8 ≤ ch ∨ !s.cfg.hbmchan.getLsbD (8 * stack + ch) then .next s
    else
      .next (deviceRec { s with cfg := { s.cfg with hbmchan := s.cfg.hbmchan &&& ~~~(1#64 <<< (8 * stack + ch)) } } 0xFF 13 8)

/-! ### Queue registers (24 R396) -/

/-- Queues of the device. -/
def numQueues : Nat := 64
/-- A host write to a register of a queue. -/
def queueWrite (q : Nat) (s : State) (f : HostQ → HostQ) : Res := .next (if q < numQueues then setQueue s q (f (getQueue s q)) else s)

/-- The event QTAIL: the doorbell of a host-memory queue. -/
def execQtail (q : Nat) (v : W32) (s : State) : Res :=
  queueWrite q s (fun x => if x.qbase.getLsbD 63 then { x with qtail := v } else x)
/-- The event QSIZE: a new ring, of which no earlier job is an entry (24 R398). -/
def execQsize (q : Nat) (v : W32) (s : State) : Res :=
  queueWrite q s (fun x =>
    if v = 0 ∨ pow2In v.toNat 16 65536 then { x with gen := x.gen + 1, qsize := v, lastAcc := 0, lastDone := 0, entries := [] } else x)
/-- The event QSTATE: writing 0 to bit 0 resumes a halted queue. -/
def execQstate (q : Nat) (v : W32) (s : State) : Res :=
  queueWrite q s (fun x => if v.getLsbD 0 then x else { x with qstate := 0 })
/-- The event NSIZE. -/
def execNsize (q : Nat) (v : W32) (s : State) : Res :=
  queueWrite q s (fun x => if pow2In v.toNat 16 65536 then { x with nsize := v, ntail := 0 } else x)
/-- The event NHEAD: refused beyond NTAIL. -/
def execNhead (q : Nat) (v : W32) (s : State) : Res :=
  queueWrite q s (fun x => if beyond v.toNat x.ntail.toNat then x else { x with nhead := v })
/-- The event QUEUE_REGISTER_WRITE: QBASE, QCTX, NBASE, NVEC; other offsets are read-only or have an event. -/
def execQueueRegisterWrite (q off : Nat) (v : W64) (s : State) : Res :=
  queueWrite q s (fun x =>
    match off with
    | 0x00 => if x.qsize = 0 ∧ v.toNat % 256 = 0 then { x with qbase := v } else x
    | 0x0C => if x.qsize = 0 then { x with qctx := v.setWidth 32 } else x
    | 0x20 => if v.toNat % 32 = 0 then { x with nbase := v } else x
    | 0x34 => { x with nvec := v.setWidth 32 }
    | _ => x)

/-! ### Queue entries (24 R397, R398) -/

/-- An access that no thread makes reaches n bytes: each line shows its error, and a poisoned one leaves a record that it is
logged only (21 R369-R371). -/
def outsideMeet (s : State) (pa n : Nat) : State :=
  let s := meetLines s pa n
  if poisoned s pa n then
    let check := poisonCheck s pa n
    let (unit, s) := lineHolder (settleFound s)
    logMck s (lineRec unit check 0x23 6)
  else s
/-- s comes at or before t, modulo 2^32. -/
def seqAtOrBefore (s t : W32) : Bool := decide ((t - s).toNat < 2 ^ 31)
/-- Post the card of an entry that is taken: it is queued, or refused with a record. -/
def takeEntry (s : State) (q : Nat) (n : W32) (bytes : List Byte) : State :=
  let x := getQueue s q
  let ctx := x.qctx.toNat % 2 ^ 16
  let card := BitVec.ofNat 1024 (leVal (bytes.drop 128))
  let nf := natBit (leVal (bytes.drop 4)) 0
  let st := postStatus s { ctx := ctx, scope := 0, kernel := false, host := true } card
  let s := setQueue s q { x with lastAcc := n, entries := x.entries ++ [QEntry.mk n false] }
  if st = 0 then (queueJob s ctx card none (some (q, n, nf))).2
  else notify (entryDone s q n) q { kind := 1, status := st, first := n, last := n, ctx := ctx, value := 0 }
/-- The event QUEUE_ENTRY_TAKE: the next entry of a queue, where it is there. An entry in a poisoned line is not taken, and its
polls leave one record (21 R369, R370). -/
def execQueueEntryTake (q : Nat) (s : State) : Res :=
  let x := getQueue s q
  let n := x.lastAcc + 1
  let host := x.qbase.getLsbD 63
  if numQueues ≤ q ∨ x.qsize = 0 ∨ x.qstate.getLsbD 0 ∨ (host ∧ !seqAtOrBefore n x.qtail) then .next s
  else
    let pa := x.qbase.toNat % 2 ^ 63 + 256 * (n.toNat % x.qsize.toNat)
    let known := poisoned s pa 256
    let s := if known then s else outsideMeet s pa 256
    let bytes := readBytes s pa 256
    let seq := BitVec.ofNat 32 (leVal (bytes.take 4))
    if known ∨ poisoned s pa 256 then .next s
    else if seq = n then .next (takeEntry s q n bytes)
    else if host then
      .next (notify (setQueue s q { x with qstate := 1 }) q
        { kind := 2, status := 0, first := n, last := n, ctx := x.qctx.toNat % 2 ^ 16, value := seq.setWidth 64 })
    else .next s

/-! ### Notifications (24 R399) -/

/-- The 32 bytes of a notification record. -/
def noteBytes (q : Nat) (nseq : W32) (n : Note) : List Byte :=
  leBytes 32 (fld 224 32 nseq.toNat + fld 192 32 n.first.toNat + fld 160 32 n.last.toNat + fld 144 16 n.ctx + fld 136 8 q +
    fld 128 8 n.status + fld 120 8 n.kind + fld 0 64 n.value.toNat)
/-- A record is written at the tail of the ring of queue q, and its interrupt is raised: one of 2,048 vectors (24 R401). -/
def writeNote (s : State) (q : Nat) (x : HostQ) (n : Note) (rest : List Note) : State :=
  let k := x.ntail + 1
  let s := writeBytes s (x.nbase.toNat + 32 * (k.toNat % x.nsize.toNat)) (noteBytes q k n)
  { setQueue s q { x with notes := rest, ntail := k } with
    msix := if x.nvec.toNat < 2048 then s.msix ++ [x.nvec] else s.msix }
/-- The event NOTIFICATION_WRITE: the oldest record that waits is written once its ring has room. -/
def execNotificationWrite (q : Nat) (s : State) : Res :=
  let x := getQueue s q
  match x.notes with
  | [] => .next s
  | n :: rest => .next (if x.nsize = 0 ∨ x.ntail - x.nhead = x.nsize then s else writeNote s q x n rest)

/-! ### Configuration, measurement, attestation (24 R403-R405) -/

/-- The event PLIMIT: watts from 600 to 3,000. -/
def execPlimit (v : W32) (s : State) : Res :=
  .next (if 600 ≤ v.toNat ∧ v.toNat ≤ 3000 then { s with cfg := { s.cfg with plimit := v } } else s)
/-- The event HOST_MEASUREMENT: MR5 and MR6 take digests of the host. -/
def execHostMeasurement (mr : Nat) (digest : BitVec 512) (s : State) : Res :=
  .next (if mr = 5 ∨ mr = 6 then { s with cfg := { s.cfg with mr := extendMr s.cfg.mr mr digest } } else s)
/-- The event WALK_ROUTINE_LOAD: an image that verifies goes into the walk store, and MR2 measures it first; another one
is not loaded (DESIGN CHOICE, log 9: the boot is over, so nothing else stops). After a boot that has stopped, no firmware
runs that could load one. -/
def execWalkRoutineLoad (base : Nat) (image : List Byte) (s : State) : Res :=
  .next (if !s.cfg.bootfail ∧ base + image.length ≤ 65536 then (loadRoutine s base image).2 else s)

/-- The signed part of a report: the part number, the configuration registers, MR0-MR7, the nonce (log 9). -/
def reportBody (s : State) (nonce : BitVec 512) : List Byte :=
  let w (x : Nat) : Nat := if x = 0x42 ∨ x = 0x43 ∨ x = 0x46 ∨ x = 0x47 then 8 else 4
  leBytes 4 s.cfg.part.toNat ++ (List.range 12).flatMap (fun k => leBytes (w (0x40 + k)) (devReg s (0x40 + k))) ++
  (List.range 8).flatMap (fun k => leBytes 64 (Sparse.get 0 s.cfg.mr k).toNat) ++ leBytes 64 nonce.toNat
/-- The event ATTESTATION_REPORT: a report is made and signed. -/
def execAttestationReport (nonce : BitVec 512) (s : State) : Res :=
  let body := reportBody s nonce
  let sig := Config.signature body
  .next { s with reports := s.reports ++ [body ++ (List.range 132).map (fun k => sig.getD k 0)] }

/-! ### The host's accesses (24 R397, R401) -/

/-- Write the bytes of an access, but those of a poisoned line, of a metadata frame or of no memory (21 R369, 17 R326,
01 R17). -/
def hostWrite (s : State) (pa : Nat) : List Byte → State
  | [] => s
  | b :: t =>
    let s1 := if poisoned s pa 1 || inMetadata s pa || !backed s pa then s else writeBytes s pa [b]
    hostWrite s1 (pa + 1) t
/-- An AtomicOp of the host: FetchAdd and Swap of 32 and 64 bits, CAS of up to 128, on aligned bytes; what it finds goes to
the host (24 R401). -/
def hostAtomic (s : State) (pa size most : Nat) (f : Nat → Nat) : State :=
  if [4, 8, 16].contains size && decide (size ≤ most) && pa % size == 0 && backed s pa then
    hostWrite (outsideMeet s pa size) pa (leBytes size (f (readLE s pa size)))
  else s
/-- The event HOST_DEVICE_MEMORY_ACCESS: a read changes nothing but what its lines show (21 R369). -/
def execHostDeviceMemoryAccess (acc : HostAccess) (s : State) : Res :=
  match acc with
  | .read pa n => .next (if n = 0 then s else outsideMeet s pa n)
  | .write pa bytes => .next (if bytes = [] then s else unstall (hostWrite (outsideMeet s pa bytes.length) pa bytes))
  | .fetchAdd pa size v => .next (unstall (hostAtomic s pa size 8 (· + v)))
  | .swap pa size v => .next (unstall (hostAtomic s pa size 8 (fun _ => v)))
  | .cas pa size cmp new => .next (unstall (hostAtomic s pa size 16 (fun x => if x = cmp then new else x)))

end Sys2Proof.Machine
end

