-- ==== Sys2Proof/Machine/Policy.lean ====
section
/-! DEFINITION. What moves next (log 1): the agenda names it, bundle or event; an empty agenda leaves it to a default
order. The meanings of the instructions are a parameter here. -/

namespace Sys2Proof.Machine

/-- The constructors that are steps of the device rather than words of a program. -/
def isEvent : Instr → Bool
  | .gatheringComplete .. => true
  | .claimGrant .. => true
  | .regdead .. => true
  | .napWake .. => true
  | .loadResultReturn .. => true
  | .walk .. => true
  | .copyCommandStart .. => true
  | .ringnextSlotTake .. => true
  | .copyElementLand .. => true
  | .remoteCommand .. => true
  | .remoteTimeout .. => true
  | .matrixPass .. => true
  | .drainExecute .. => true
  | .eval .. => true
  | .watchDelivery .. => true
  | .killStop .. => true
  | .scackComplete .. => true
  | .blockLaunch .. => true
  | .bundleDraw .. => true
  | .arrivalQueueFile .. => true
  | .clauseBegin .. => true
  | .blockRetire .. => true
  | .jobComplete .. => true
  | .save .. => true
  | .restore .. => true
  | .engineReplyReturn .. => true
  | .wdog .. => true
  | .powerEstimate .. => true
  | .thermalTrip .. => true
  | .thermalRecover .. => true
  | .unitDegrade .. => true
  | .checkpoint .. => true
  | .rollback .. => true
  | .contextLoss .. => true
  | .warmReset .. => true
  | .scrub .. => true
  | .queueEntryTake .. => true
  | .qtail .. => true
  | .qsize .. => true
  | .qstate .. => true
  | .nsize .. => true
  | .nhead .. => true
  | .queueRegisterWrite .. => true
  | .notificationWrite .. => true
  | .plimit .. => true
  | .attestationReport .. => true
  | .hostMeasurement .. => true
  | .storePerformed .. => true
  | .atomicReply .. => true
  | .remoteAcknowledgement .. => true
  | .hostDeviceMemoryAccess .. => true
  | .saveCopyBound .. => true
  | .walkRoutineLoad .. => true
  | .trapEntryWrite => true
  | .heartbeatTick => true
  | .scfenceRelease => true
  | .periodBoundary => true
  | .coldReset => true
  | _ => false

/-- A step that leads to a state has made a cellar copy on a core whose budget of the period is spent (21 R375, 24 R406). -/
def cellarOver (s t : State) : Bool :=
  t.act.cellar.any (fun e => decide (s.cfg.budgets.cellar ≤ Sparse.get 0 s.act.cellar e.1) &&
    decide (Sparse.get 0 s.act.cellar e.1 < Sparse.get 0 t.act.cellar e.1))
/-- What a step answers where the budgets of the period allow it: a step that needs a page walk or a cellar copy beyond them
waits for the next period, as `wait` (09 R202, 21 R375, 24 R406). -/
def withinBudgets (s wait : State) (r : Res) : Res :=
  match r with
  | .next t => if (!walksOpen s && decide (s.act.walks < t.act.walks)) || cellarOver s t then .next wait else r
  | r => r
/-- Carry out the plan of a bundle. -/
def runPlan (run : Instr → State → Res) (s : State) (id : Nat) : Plan → Res
  | .idle => .next s
  | .out s' => .next s'
  | .run i s' => withinBudgets s (modBundle s id (fun b => { b with stalled := true })) (run i s')

/-! ### The default order -/

/-- The bundle has something to do. -/
def canMove (s : State) (id : Nat) : Bool := match planBundle s id with | .idle => false | _ => true
/-- The first bundle that can move: the issuing one, then the others in order. -/
def firstPlan (s : State) : Option Nat := (s.cur :: s.bundles.map Bundle.id).find? (canMove s)

/-- A core for each block of a group that is restored, one after the other; none where a block finds no place. -/
def restorePlan (s : State) (dom : List Nat) : List Block → Option (List Nat)
  | [] => some []
  | b :: t =>
    match dom.findSome? (fun c => (restoreOne s b c).map (fun s1 => (c, s1))) with
    | some (c, s1) => (restorePlan s1 dom t).map (c :: ·)
    | none => none
/-- The restore of a resumed ticket, where its group finds cores. -/
def restoreEvent (s : State) (r : SaveRec) : Option Instr :=
  match getBlock s r.blk with
  | some b =>
    let group := s.blocks.filter (fun q => q.sameGroup b)
    ((domains s b.glevel).findSome? (fun d => restorePlan s d group)).map (fun cs => .restore r.ticket cs)
  | none => none

/-- Events of blocks and of the task engine that may be due. -/
def blockEvents (s : State) : List Instr :=
  List.flatten [
    s.blocks.flatMap (fun b => [.rollback b.uid, .checkpoint b.uid]),
    s.threads.flatMap (fun t =>
      [.killStop t.blk t.gang t.lane, .gatheringComplete t.blk t.gang t.lane, .watchDelivery t.blk t.gang t.lane]),
    s.claims.map (fun c => .claimGrant c.1 c.2.1), s.blocks.map (fun b => .save b.uid), [.trapEntryWrite],
    (s.saves.filter SaveRec.resumed).filterMap (restoreEvent s)]
/-- The return of an outstanding result. -/
def returnEvent (o : Outst) : Instr :=
  match o.cls with
  | .ld => .loadResultReturn o.id
  | .st => .storePerformed o.id
  | .at_ => .atomicReply o.id
  | _ => .engineReplyReturn o.id
/-- Events of the engines that may be due. -/
def engineEvents (s : State) : List Instr :=
  List.flatten [
    s.outst.map returnEvent,
    s.copies.flatMap (fun c => .ringnextSlotTake c.id :: .copyCommandStart c.id :: .remoteAcknowledgement c.id ::
      ((List.range c.count).find? c.left).toList.map (fun e => .copyElementLand c.id e)),
    s.mops.map (fun m => .drainExecute m.id), (List.range (numCores s)).map (fun c => .matrixPass c),
    (List.range (numTerraces s)).filterMap (fun t => (evalQueue s t).head?.map (fun q => .eval q.1.id q.2.1))]
/-- Events of jobs, queues and waits that may be due. -/
def lateEvents (s : State) : List Instr :=
  List.flatten [
    (nextJob s).toList.filterMap (fun j => (findCores s j).map (fun cs => .blockLaunch j.ctx j.serial cs)),
    s.bins.map (fun b => .bundleDraw b.id false), s.arrivals.map (fun a => .arrivalQueueFile a.core),
    s.bins.map (fun b => .bundleDraw b.id true), s.blocks.map (fun b => .blockRetire b.uid),
    s.jobs.map (fun j => .jobComplete j.ctx j.serial), s.scopes.map (fun x => .scackComplete x.ctx x.id),
    s.queues.flatMap (fun q => [.queueEntryTake q.1, .notificationWrite q.1]), s.blocks.map (fun b => .saveCopyBound b.uid),
    s.threads.map (fun t => .napWake t.blk t.gang t.lane), [.scfenceRelease], s.blocks.map (fun b => .regdead b.uid),
    s.scopes.map (fun x => .wdog x.ctx x.id)]

/-- The first event of a list that changes more than stall marks. -/
def firstEvent (run : Instr → State → Res) (s : State) : List Instr → Option State
  | [] => none
  | e :: t =>
    match withinBudgets s s (run e s) with
    | .next s' => if unstall s' = unstall s then firstEvent run s t else some s'
    | _ => firstEvent run s t

/-- What time does when nothing else moves: a new period where a budget has been spent, else a tick of the heartbeat. -/
def idleEvent (s : State) : Instr :=
  if s.act ≠ Activity.reset ∨ s.ctxs.any (fun c => c.bytesSpent + c.mjSpent + c.traceSpent != 0) then .periodBoundary
  else .heartbeatTick

/-- The step of an empty agenda. -/
def defaultStep (run : Instr → State → Res) (s : State) : Res :=
  match firstPlan s with
  | some id => runPlan run s id (planBundle s id)
  | none =>
    match firstEvent run s (blockEvents s ++ engineEvents s ++ lateEvents s) with
    | some s' => .next s'
    | none => run (idleEvent s) s

/-- One step: the head of the agenda, or the default. -/
def stepWith (run : Instr → State → Res) (s : State) : Res :=
  match s.agenda with
  | [] => defaultStep run s
  | .ev e :: rest =>
    let s := { s with agenda := rest }
    if isEvent e then withinBudgets s s (run e s) else .next s
  | .strike b e :: rest => .next (strikeErr { s with agenda := rest } b e)
  | .strikeLine l e :: rest => .next (strikeLine { s with agenda := rest } l e)
  | .firm f :: rest => .next (setFirm { s with agenda := rest } f)
  | .go b :: rest => runPlan run { s with agenda := rest } b (planBundle { s with agenda := rest } b)

end Sys2Proof.Machine
end

