-- ==== Sys2Proof/Machine/Dispatch.lean ====
section
/-! DEFINITION. The dispatch: one arm per constructor of `Instr`, each a direct call of its meaning. -/

namespace Sys2Proof.Machine

def exec (i : Instr) (s : State) : Host.Outcome State Fault Refusal :=
  match i with
  | .nop k => Sys2Proof.Machine.execNop k s
  | .iadd k w sg sat d a b => Sys2Proof.Machine.execIadd k w sg sat d a b s
  | .isub k w sg sat d a b => Sys2Proof.Machine.execIsub k w sg sat d a b s
  | .iaddi k w sg sat d a imm => Sys2Proof.Machine.execIaddi k w sg sat d a imm s
  | .iaddw k sg sat d a b => Sys2Proof.Machine.execIaddw k sg sat d a b s
  | .imul k w sg sat d a b => Sys2Proof.Machine.execImul k w sg sat d a b s
  | .imulh k w sg d a b => Sys2Proof.Machine.execImulh k w sg d a b s
  | .imad k w sg sat d a b c => Sys2Proof.Machine.execImad k w sg sat d a b c s
  | .imadw k sg sat d a b c => Sys2Proof.Machine.execImadw k sg sat d a b c s
  | .idiv k w sg d a b => Sys2Proof.Machine.execIdiv k w sg d a b s
  | .irem k w sg d a b => Sys2Proof.Machine.execIrem k w sg d a b s
  | .imin k w sg d a b => Sys2Proof.Machine.execImin k w sg d a b s
  | .imax k w sg d a b => Sys2Proof.Machine.execImax k w sg d a b s
  | .iabsd k w sg d a b => Sys2Proof.Machine.execIabsd k w sg d a b s
  | .lut3 k w d a b c x => Sys2Proof.Machine.execLut3 k w d a b c x s
  | .ishl k w im d a b x => Sys2Proof.Machine.execIshl k w im d a b x s
  | .ishr k w sg im d a b x => Sys2Proof.Machine.execIshr k w sg im d a b x s
  | .fshl k im d a b c x => Sys2Proof.Machine.execFshl k im d a b c x s
  | .fshr k im d a b c x => Sys2Proof.Machine.execFshr k im d a b c x s
  | .bfx k w sg im d a c x => Sys2Proof.Machine.execBfx k w sg im d a c x s
  | .bfi k w im d a b c x => Sys2Proof.Machine.execBfi k w im d a b c x s
  | .popc k w d a => Sys2Proof.Machine.execPopc k w d a s
  | .popb k w d a => Sys2Proof.Machine.execPopb k w d a s
  | .clz k w d a => Sys2Proof.Machine.execClz k w d a s
  | .brev k w d a => Sys2Proof.Machine.execBrev k w d a s
  | .isel k w d a b x => Sys2Proof.Machine.execIsel k w d a b x s
  | .mov k sz d a => Sys2Proof.Machine.execMov k sz d a s
  | .movi k mv d imm => Sys2Proof.Machine.execMovi k mv d imm s
  | .icmp k w sg cb cc d a b => Sys2Proof.Machine.execIcmp k w sg cb cc d a b s
  | .icmpi k w sg cb cc d a imm => Sys2Proof.Machine.execIcmpi k w sg cb cc d a imm s
  | .plut k d a b c x => Sys2Proof.Machine.execPlut k d a b c x s
  | .pget k d x => Sys2Proof.Machine.execPget k d x s
  | .pset k a b x => Sys2Proof.Machine.execPset k a b x s
  | .perm k w mk pm d a b c x => Sys2Proof.Machine.execPerm k w mk pm d a b c x s
  | .permx k mk d a b c x => Sys2Proof.Machine.execPermx k mk d a b c x s
  | .vote k mk vm d a c => Sys2Proof.Machine.execVote k mk vm d a c s
  | .elect k mk d c => Sys2Proof.Machine.execElect k mk d c s
  | .gred k w sg mk gop d a c => Sys2Proof.Machine.execGred k w sg mk gop d a c s
  | .gscan k w sg mk gop ex d a c => Sys2Proof.Machine.execGscan k w sg mk gop ex d a c s
  | .bra k tgt => Sys2Proof.Machine.execBra k tgt s
  | .brx k a => Sys2Proof.Machine.execBrx k a s
  | .call k d tgt => Sys2Proof.Machine.execCall k d tgt s
  | .ret k a => Sys2Proof.Machine.execRet k a s
  | .rjarm k a x => Sys2Proof.Machine.execRjarm k a x s
  | .rjoin k x => Sys2Proof.Machine.execRjoin k x s
  | .rjdrop k x => Sys2Proof.Machine.execRjdrop k x s
  | .exit k => Sys2Proof.Machine.execExit k s
  | .trap k imm => Sys2Proof.Machine.execTrap k imm s
  | .gets k d imm => Sys2Proof.Machine.execGets k d imm s
  | .sets k a imm => Sys2Proof.Machine.execSets k a imm s
  | .rclaim k imm => Sys2Proof.Machine.execRclaim k imm s
  | .rgive k imm => Sys2Proof.Machine.execRgive k imm s
  | .rtry k d imm => Sys2Proof.Machine.execRtry k d imm s
  | .yield k => Sys2Proof.Machine.execYield k s
  | .nap k imm => Sys2Proof.Machine.execNap k imm s
  | .prog k imm => Sys2Proof.Machine.execProg k imm s
  | .brk k imm => Sys2Proof.Machine.execBrk k imm s
  | .trcmark k a imm => Sys2Proof.Machine.execTrcmark k a imm s
  | .vget k d a b => Sys2Proof.Machine.execVget k d a b s
  | .vput k d a b => Sys2Proof.Machine.execVput k d a b s
  | .fadd k rm na nc d a b => Sys2Proof.Machine.execFadd k rm na nc d a b s
  | .fmul k rm na d a b => Sys2Proof.Machine.execFmul k rm na d a b s
  | .ffma k rm na nc d a b c => Sys2Proof.Machine.execFfma k rm na nc d a b c s
  | .fmin k d a b => Sys2Proof.Machine.execFmin k d a b s
  | .fmax k d a b => Sys2Proof.Machine.execFmax k d a b s
  | .fcmp k cb cc d a b => Sys2Proof.Machine.execFcmp k cb cc d a b s
  | .fdiv k rm d a b => Sys2Proof.Machine.execFdiv k rm d a b s
  | .frcp k rm d a => Sys2Proof.Machine.execFrcp k rm d a s
  | .frsq k rm d a => Sys2Proof.Machine.execFrsq k rm d a s
  | .fsqrt k rm d a => Sys2Proof.Machine.execFsqrt k rm d a s
  | .fexp2 k rm d a => Sys2Proof.Machine.execFexp2 k rm d a s
  | .flog2 k rm d a => Sys2Proof.Machine.execFlog2 k rm d a s
  | .fsinpi k rm d a => Sys2Proof.Machine.execFsinpi k rm d a s
  | .fcospi k rm d a => Sys2Proof.Machine.execFcospi k rm d a s
  | .frnd k rm d a => Sys2Proof.Machine.execFrnd k rm d a s
  | .fscale k rm d a b => Sys2Proof.Machine.execFscale k rm d a b s
  | .hadd2 k rm hf d a b => Sys2Proof.Machine.execHadd2 k rm hf d a b s
  | .hmul2 k rm hf d a b => Sys2Proof.Machine.execHmul2 k rm hf d a b s
  | .hfma2 k rm hf d a b c => Sys2Proof.Machine.execHfma2 k rm hf d a b c s
  | .hmax2 k hf mn d a b => Sys2Proof.Machine.execHmax2 k hf mn d a b s
  | .cvt k rm src dst d a x => Sys2Proof.Machine.execCvt k rm src dst d a x s
  | .cvtp k rm hf d a b => Sys2Proof.Machine.execCvtp k rm hf d a b s
  | .cvtq k rm fmt sat sc d a c x => Sys2Proof.Machine.execCvtq k rm fmt sat sc d a c x s
  | .cvto k rm fmt sc d a b c x => Sys2Proof.Machine.execCvto k rm fmt sc d a b c x s
  | .cvtx k rm fmt sc d a c x => Sys2Proof.Machine.execCvtx k rm fmt sc d a c x s
  | .dotI8 k d a b c => Sys2Proof.Machine.execDotI8 k d a b c s
  | .dotZ8 k d a b c => Sys2Proof.Machine.execDotZ8 k d a b c s
  | .dotE4m3 k rm d a b c => Sys2Proof.Machine.execDotE4m3 k rm d a b c s
  | .dotE5m2 k rm d a b c => Sys2Proof.Machine.execDotE5m2 k rm d a b c s
  | .dotI4 k d a b c => Sys2Proof.Machine.execDotI4 k d a b c s
  | .dotE2m1 k rm d a b c => Sys2Proof.Machine.execDotE2m1 k rm d a b c s
  | .dotsE4m3 k rm d a b c x => Sys2Proof.Machine.execDotsE4m3 k rm d a b c x s
  | .dotsE5m2 k rm d a b c x => Sys2Proof.Machine.execDotsE5m2 k rm d a b c x s
  | .dotsE2m1 k rm d a b c x => Sys2Proof.Machine.execDotsE2m1 k rm d a b c x s
  | .dotsI8 k rm d a b c x => Sys2Proof.Machine.execDotsI8 k rm d a b c x s
  | .dot2Bf16 k rm d a b c => Sys2Proof.Machine.execDot2Bf16 k rm d a b c s
  | .dot2F16 k rm d a b c => Sys2Proof.Machine.execDot2F16 k rm d a b c s
  | .ld k ord scope size d a bq cp off => Sys2Proof.Machine.execLd k ord scope size d a bq cp off s
  | .st k ord scope size d a bq cp off => Sys2Proof.Machine.execSt k ord scope size d a bq cp off s
  | .atom k ord scope size d a bq aop off => Sys2Proof.Machine.execAtom k ord scope size d a bq aop off s
  | .atomn k ord scope size d a bq aop off => Sys2Proof.Machine.execAtomn k ord scope size d a bq aop off s
  | .cas k ord scope size d a bq cp off => Sys2Proof.Machine.execCas k ord scope size d a bq cp off s
  | .fence k ord scope => Sys2Proof.Machine.execFence k ord scope s
  | .scfence k scope => Sys2Proof.Machine.execScfence k scope s
  | .bset k d a => Sys2Proof.Machine.execBset k d a s
  | .bget k d a => Sys2Proof.Machine.execBget k d a s
  | .pref k size a bq cp off => Sys2Proof.Machine.execPref k size a bq cp off s
  | .binit k g d a b c => Sys2Proof.Machine.execBinit k g d a b c s
  | .bjoin k g d a => Sys2Proof.Machine.execBjoin k g d a s
  | .barr k g d a => Sys2Proof.Machine.execBarr k g d a s
  | .bwait k g d a b => Sys2Proof.Machine.execBwait k g d a b s
  | .barw k g d a => Sys2Proof.Machine.execBarw k g d a s
  | .bdrop k g d a => Sys2Proof.Machine.execBdrop k g d a s
  | .binv k g d a => Sys2Proof.Machine.execBinv k g d a s
  | .bqry k g d a x => Sys2Proof.Machine.execBqry k g d a x s
  | .rginit k d a => Sys2Proof.Machine.execRginit k d a s
  | .rginitFree k d a => Sys2Proof.Machine.execRginitFree k d a s
  | .slacq k nb d a => Sys2Proof.Machine.execSlacq k nb d a s
  | .slfil k a b c => Sys2Proof.Machine.execSlfil k a b c s
  | .sltak k nb d a => Sys2Proof.Machine.execSltak k nb d a s
  | .slrel k a b => Sys2Proof.Machine.execSlrel k a b s
  | .cpy k dk ad bc d a b c x => Sys2Proof.Machine.execCpy k dk ad bc d a b c x s
  | .cpyg k dk ad bc d a b c x => Sys2Proof.Machine.execCpyg k dk ad bc d a b c x s
  | .cpys k dk ad bc d a b c x => Sys2Proof.Machine.execCpys k dk ad bc d a b c x s
  | .cpyf k dk ad bc d a b c x => Sys2Proof.Machine.execCpyf k dk ad bc d a b c x s
  | .cseal k d => Sys2Proof.Machine.execCseal k d s
  | .cwait k d a => Sys2Proof.Machine.execCwait k d a s
  | .cpoll k d => Sys2Proof.Machine.execCpoll k d s
  | .mclaim k kd nb d a b => Sys2Proof.Machine.execMclaim k kd nb d a b s
  | .mrel k kd d a b => Sys2Proof.Machine.execMrel k kd d a b s
  | .mbaton k d => Sys2Proof.Machine.execMbaton k d s
  | .mpass k d a => Sys2Proof.Machine.execMpass k d a s
  | .mzero k ik d => Sys2Proof.Machine.execMzero k ik d s
  | .mmaBf16 k sc rk tr mt a b c x => Sys2Proof.Machine.execMmaBf16 k sc rk tr mt a b c x s
  | .mmaF16 k sc rk tr mt a b c x => Sys2Proof.Machine.execMmaF16 k sc rk tr mt a b c x s
  | .mmaE4m3 k sc rk tr mt a b c x => Sys2Proof.Machine.execMmaE4m3 k sc rk tr mt a b c x s
  | .mmaE5m2 k sc rk tr mt a b c x => Sys2Proof.Machine.execMmaE5m2 k sc rk tr mt a b c x s
  | .mmaE2m1 k sc rk tr mt a b c x => Sys2Proof.Machine.execMmaE2m1 k sc rk tr mt a b c x s
  | .mmaI8 k sc rk tr mt a b c x => Sys2Proof.Machine.execMmaI8 k sc rk tr mt a b c x s
  | .mmaI4 k sc rk tr mt a b c x => Sys2Proof.Machine.execMmaI4 k sc rk tr mt a b c x s
  | .mdrain k ad rk d a b x => Sys2Proof.Machine.execMdrain k ad rk d a b x s
  | .mrd k d a x => Sys2Proof.Machine.execMrd k d a x s
  | .mmask k pa d a b => Sys2Proof.Machine.execMmask k pa d a b s
  | .msync k bk => Sys2Proof.Machine.execMsync k bk s
  | .tapin k d a b c x => Sys2Proof.Machine.execTapin k d a b c x s
  | .tapw k d a b => Sys2Proof.Machine.execTapw k d a b s
  | .taprm k hm d a => Sys2Proof.Machine.execTaprm k hm d a s
  | .trel k a b => Sys2Proof.Machine.execTrel k a b s
  | .tapsync k al a => Sys2Proof.Machine.execTapsync k al a s
  | .jpost k d a => Sys2Proof.Machine.execJpost k d a s
  | .jrec k d x => Sys2Proof.Machine.execJrec k d x s
  | .jhint k => Sys2Proof.Machine.execJhint k s
  | .jpwait k d => Sys2Proof.Machine.execJpwait k d s
  | .finit k a => Sys2Proof.Machine.execFinit k a s
  | .fwr k a b => Sys2Proof.Machine.execFwr k a b s
  | .frd k d a x => Sys2Proof.Machine.execFrd k d a x s
  | .scopen k xc d a b c => Sys2Proof.Machine.execScopen k xc d a b c s
  | .sccan k xc d a c => Sys2Proof.Machine.execSccan k xc d a c s
  | .scack k xc d a c => Sys2Proof.Machine.execScack k xc d a c s
  | .scqry k xc d a c => Sys2Proof.Machine.execScqry k xc d a c s
  | .tretRetry k d a => Sys2Proof.Machine.execTretRetry k d a s
  | .tretSkip k d a => Sys2Proof.Machine.execTretSkip k d a s
  | .tretRedirect k d a b => Sys2Proof.Machine.execTretRedirect k d a b s
  | .crd k bk d a x => Sys2Proof.Machine.execCrd k bk d a x s
  | .cwr k bk d a b x => Sys2Proof.Machine.execCwr k bk d a b x s
  | .cwrStateCreate k d a b => Sys2Proof.Machine.execCwrStateCreate k d a b s
  | .cwrStateRemove k d a b => Sys2Proof.Machine.execCwrStateRemove k d a b s
  | .cwrKqsize k d b => Sys2Proof.Machine.execCwrKqsize k d b s
  | .cwrKqhead k d b => Sys2Proof.Machine.execCwrKqhead k d b s
  | .cwrPreempt k d a b => Sys2Proof.Machine.execCwrPreempt k d a b s
  | .cwrBcores k d a b => Sys2Proof.Machine.execCwrBcores k d a b s
  | .cwrTrsize k d a b => Sys2Proof.Machine.execCwrTrsize k d a b s
  | .tlbinvPage k d a b => Sys2Proof.Machine.execTlbinvPage k d a b s
  | .tlbinvContext k d b => Sys2Proof.Machine.execTlbinvContext k d b s
  | .tlbinvAll k d => Sys2Proof.Machine.execTlbinvAll k d s
  | .tlbinvRange k sp d a b c => Sys2Proof.Machine.execTlbinvRange k sp d a b c s
  | .pfres k d a => Sys2Proof.Machine.execPfres k d a s
  | .errinj k ek d a => Sys2Proof.Machine.execErrinj k ek d a s
  | .errinjDisarm k d => Sys2Proof.Machine.execErrinjDisarm k d s
  | .psplit k ps d a b => Sys2Proof.Machine.execPsplit k ps d a b s
  | .haltg k d a b => Sys2Proof.Machine.execHaltg k d a b s
  | .resumeg k d a b => Sys2Proof.Machine.execResumeg k d a b s
  | .kseqNew k d a => Sys2Proof.Machine.execKseqNew k d a s
  | .kseqFree k d a => Sys2Proof.Machine.execKseqFree k d a s
  | .kseqPfree k d a => Sys2Proof.Machine.execKseqPfree k d a s
  | .kseqPquery k d a => Sys2Proof.Machine.execKseqPquery k d a s
  | .kseqPinit k d a b => Sys2Proof.Machine.execKseqPinit k d a b s
  | .kalloc k cl d a b => Sys2Proof.Machine.execKalloc k cl d a b s
  | .ktrim k d a b => Sys2Proof.Machine.execKtrim k d a b s
  | .klook k d a b x => Sys2Proof.Machine.execKlook k d a b x s
  | .kfree k d a b => Sys2Proof.Machine.execKfree k d a b s
  | .gatheringComplete blk gang lane => Sys2Proof.Machine.execGatheringComplete blk gang lane s
  | .claimGrant blk gang => Sys2Proof.Machine.execClaimGrant blk gang s
  | .regdead blk => Sys2Proof.Machine.execRegdead blk s
  | .napWake blk gang lane => Sys2Proof.Machine.execNapWake blk gang lane s
  | .loadResultReturn id => Sys2Proof.Machine.execLoadResultReturn id s
  | .walk core ctx kind va => Sys2Proof.Machine.execWalk core ctx kind va s
  | .copyCommandStart id => Sys2Proof.Machine.execCopyCommandStart id s
  | .ringnextSlotTake id => Sys2Proof.Machine.execRingnextSlotTake id s
  | .copyElementLand id e => Sys2Proof.Machine.execCopyElementLand id e s
  | .remoteCommand ctx drec ad elems => Sys2Proof.Machine.execRemoteCommand ctx drec ad elems s
  | .remoteTimeout id => Sys2Proof.Machine.execRemoteTimeout id s
  | .matrixPass core => Sys2Proof.Machine.execMatrixPass core s
  | .drainExecute id => Sys2Proof.Machine.execDrainExecute id s
  | .eval tap row => Sys2Proof.Machine.execEval tap row s
  | .watchDelivery blk gang lane => Sys2Proof.Machine.execWatchDelivery blk gang lane s
  | .killStop blk gang lane => Sys2Proof.Machine.execKillStop blk gang lane s
  | .scackComplete ctx scope => Sys2Proof.Machine.execScackComplete ctx scope s
  | .blockLaunch ctx serial cores => Sys2Proof.Machine.execBlockLaunch ctx serial cores s
  | .bundleDraw bin aged => Sys2Proof.Machine.execBundleDraw bin aged s
  | .arrivalQueueFile core => Sys2Proof.Machine.execArrivalQueueFile core s
  | .clauseBegin bundle => Sys2Proof.Machine.execClauseBegin bundle s
  | .blockRetire blk => Sys2Proof.Machine.execBlockRetire blk s
  | .jobComplete ctx serial => Sys2Proof.Machine.execJobComplete ctx serial s
  | .save blk => Sys2Proof.Machine.execSave blk s
  | .restore ticket cores => Sys2Proof.Machine.execRestore ticket cores s
  | .engineReplyReturn id => Sys2Proof.Machine.execEngineReplyReturn id s
  | .wdog ctx scope => Sys2Proof.Machine.execWdog ctx scope s
  | .powerEstimate mean shares => Sys2Proof.Machine.execPowerEstimate mean shares s
  | .thermalTrip island => Sys2Proof.Machine.execThermalTrip island s
  | .thermalRecover island => Sys2Proof.Machine.execThermalRecover island s
  | .unitDegrade unit => Sys2Proof.Machine.execUnitDegrade unit s
  | .checkpoint blk => Sys2Proof.Machine.execCheckpoint blk s
  | .rollback blk => Sys2Proof.Machine.execRollback blk s
  | .contextLoss ctx => Sys2Proof.Machine.execContextLoss ctx s
  | .warmReset implicated => Sys2Proof.Machine.execWarmReset implicated s
  | .scrub found => Sys2Proof.Machine.execScrub found s
  | .queueEntryTake q => Sys2Proof.Machine.execQueueEntryTake q s
  | .qtail q v => Sys2Proof.Machine.execQtail q v s
  | .qsize q v => Sys2Proof.Machine.execQsize q v s
  | .qstate q v => Sys2Proof.Machine.execQstate q v s
  | .nsize q v => Sys2Proof.Machine.execNsize q v s
  | .nhead q v => Sys2Proof.Machine.execNhead q v s
  | .queueRegisterWrite q off v => Sys2Proof.Machine.execQueueRegisterWrite q off v s
  | .notificationWrite q => Sys2Proof.Machine.execNotificationWrite q s
  | .plimit v => Sys2Proof.Machine.execPlimit v s
  | .attestationReport nonce => Sys2Proof.Machine.execAttestationReport nonce s
  | .hostMeasurement mr digest => Sys2Proof.Machine.execHostMeasurement mr digest s
  | .storePerformed id => Sys2Proof.Machine.execStorePerformed id s
  | .atomicReply id => Sys2Proof.Machine.execAtomicReply id s
  | .remoteAcknowledgement id => Sys2Proof.Machine.execRemoteAcknowledgement id s
  | .hostDeviceMemoryAccess acc => Sys2Proof.Machine.execHostDeviceMemoryAccess acc s
  | .saveCopyBound blk => Sys2Proof.Machine.execSaveCopyBound blk s
  | .walkRoutineLoad base image => Sys2Proof.Machine.execWalkRoutineLoad base image s
  | .trapEntryWrite => Sys2Proof.Machine.execTrapEntryWrite s
  | .heartbeatTick => Sys2Proof.Machine.execHeartbeatTick s
  | .scfenceRelease => Sys2Proof.Machine.execScfenceRelease s
  | .periodBoundary => Sys2Proof.Machine.execPeriodBoundary s
  | .coldReset => Sys2Proof.Machine.execColdReset s

end Sys2Proof.Machine
end

