-- ==== Sys2Proof/Machine/Place.lean ====
section
/-! DEFINITION. A word placed where the next step issues it (log 11): a loader has launched a one-thread block in a
context with an identity walk routine, and its bundle has fetched a clause of that one word. -/

namespace Sys2Proof.Machine

/-- RV64: `srli a0,a0,12; slli a0,a0,12; addi t0,x0,-1544; slli t0,t0,52; or a0,a0,t0; jalr x0,0(ra)`: every address maps
to itself with every grant (09 R202). -/
def identityRoutine : List Byte :=
  [0x00C55513, 0x00C51513, 0x9F800293, 0x03429293, 0x00556533, 0x00008067].flatMap (leBytes 4)
/-- Where the clause of a placed word stands. -/
def placedAt : Nat := 0x10000
/-- The class of a word's opcode; a word of no class is fetched in an INT clause. -/
def wordCls (w : W64) : Cls := (clsOf (opOf w).toNat).getD .int

/-- The word, in a clause that the bundle of a fresh kernel-level block has fetched. -/
def placeWord (s : State) (w : W64) : State :=
  let c := wordCls w
  let s := if (getCtx s 0).isSome then s
    else { s with ctxs := s.ctxs ++ [Ctx.new 0], scopes := s.scopes ++ [Scope.root 0],
                  walkStore := if s.walkStore.isEmpty then putBytes [] 0 identityRoutine else s.walkStore }
  let hdr := encodeHeader { cls := c, n := 0, rf := false, waits := 0, yl := false }
  let s := writeBytes s placedAt (leBytes 8 hdr.toNat ++ leBytes 8 w.toNat)
  let card : BitVec 1024 := BitVec.ofNat 1024 (fld 0 64 placedAt + fld 192 8 1 + fld 208 16 1024 + fld 224 32 65536 +
    fld 448 8 24 + fld 584 4 1)
  let (_, s) := queueJob s 0 card none none
  match s.jobs.getLast? with
  | none => s
  | some j =>
    let s := modJob s j.ctx j.serial (fun j => { j with launched := 1 })
    let (uid, s) := newBlock s j 0 0 0
    let s := { s with threads := s.threads.filter (fun t => t.blk != uid || t.lane == 0) }
    let (id, s) := newBundle s none uid 0 [(0, 0)]
      { hdr := BitVec.ofNat 64 placedAt, clause := some ⟨c, [w]⟩, idx := 0 } false false
    { s with cur := id, agenda := [.go id] }

end Sys2Proof.Machine
end

