-- ==== Sys2Proof/Machine/Step.lean ====
section
/-! DEFINITION. One step of the device, and the placing of a word where the next step fetches it. -/

namespace Sys2Proof.Machine

/-- One step: the head of the agenda moves, or what the default order names (log 1), and time passes. -/
def step (s : State) : Host.Outcome State Fault Refusal :=
  match stepWith exec s with
  | .next t => .next (passTime t)
  | r => r

/-- The state with an instruction word where the next step fetches it (log 11). -/
def State.withFetchWord (s : State) (_nbits w : Nat) : State := placeWord s (BitVec.ofNat 64 w)

end Sys2Proof.Machine
end

