-- ==== Sys2Proof/Safety.lean ====
section
/-! DEFINITION. The terms in which claims are stated: what a safe run is, when an instruction is issued with nothing in
its way, what an issue knows, what follows its effect, and how the parts of a state are read. -/

namespace Sys2Proof

/-- The instruction that a word reads as: the two writes of the STATE register share one word (11 R246). -/
def Instr.canon : Instr → Instr
  | .cwrStateRemove k d a b => .cwrStateCreate k d a b
  | i => i

namespace Machine

/-! ### A safe run -/

/-- A step that does not stop. -/
def Goes (r : Res) : Prop := ∃ t, r = .next t
/-- The current bundle stands at an instruction word of a clause of its block. -/
def AtWord (s : State) : Prop :=
  ∃ q b c, getBundle s s.cur = some q ∧ q.place.clause = some c ∧ getBlock s q.blk = some b
/-- Global memory and every sparse register map of the machine are canonical, those that checkpoints keep included. -/
structure Canonical (s : State) : Prop where
  mem : Memory.wf s.mem = true
  regs : ∀ t ∈ s.threads, Sparse.wf (0 : W32) t.v = true
  uniform : ∀ g ∈ s.gangs, Sparse.wf (0 : W64) g.s = true
  recs : ∀ b ∈ s.blocks, Sparse.wf (0 : BitVec 256) b.recs = true
  scratch : ∀ b ∈ s.blocks, Sparse.wf unlisted b.scratch = true
  store : Sparse.wf unlisted s.walkStore = true
  queues : Sparse.wf HostQ.reset s.queues = true
  kept : ∀ c ∈ s.ckpts, (∀ t ∈ c.threads, Sparse.wf (0 : W32) t.v = true) ∧ (∀ g ∈ c.gangs, Sparse.wf (0 : W64) g.s = true) ∧
    Sparse.wf (0 : BitVec 256) c.block.recs = true ∧ Sparse.wf unlisted c.block.scratch = true

/-! ### Reading a state -/

/-- A v register of a thread; 0 where there is no such thread. -/
def vReg (s : State) (b g l r : Nat) : W32 :=
  match getThread s b g l with | some t => Sparse.get 0 t.v r | none => 0
/-- An s register of a gang. -/
def sReg (s : State) (b g r : Nat) : W64 :=
  match getGang s b g with | some q => Sparse.get 0 q.s r | none => 0
/-- A predicate of a thread. -/
def pReg (s : State) (b g l n : Nat) : Bool :=
  match getThread s b g l with | some t => t.p.getLsbD n | none => false
/-- FPFLAGS of a thread. -/
def fpFlags (s : State) (b g l : Nat) : BitVec 5 :=
  match getThread s b g l with | some t => t.fpflags | none => 0

/-! ### An issue with nothing in its way -/

/-- The members of a bundle that take part in its issue: all, but where a save has withdrawn the instruction of some
(02 R24, 11 R242). -/
def issuingOf (s : State) (q : Bundle) : List Lane := (lanesOf s q).filter q.again
/-- Those of them whose guard is true. -/
def activeOf (s : State) (q : Bundle) (k : Ctl) : List Lane := (lanesOf s q).filter (fun x => x.guard k && q.again x)

/-- The current bundle may issue an instruction with opcode op, control bits k, source groups src, destination groups dst
and the groups late that are read after the issue: the word is allowed where it stands (02 R40, 05 R87), its registers exist
(05 R92), protected pairs agree (05 R101), no error in a source or in the block's store-hold queue meets it, and no armed
error (21 R368, R384). -/
structure Ready (s : State) (op : Nat) (k : Ctl) (src dst late : List RG) (q : Bundle) (c : Clause) (b : Block) : Prop where
  bundle : getBundle s s.cur = some q
  clause : q.place.clause = some c
  block : getBlock s q.blk = some b
  order : orderFault b q.role c q.place.idx op = none
  range : ∀ x ∈ lanesOf s q, (src ++ dst ++ late).any (outOfRange x.g) = false
  pairs : b.protectd = true → pairFaults (lanesOf s q) k op src = []
  clean : ∀ x ∈ issuingOf s q, ∀ dbl, (meets b k x src dbl).none = true
  held : holdBad b = []
  unarmed : countArm b op dst (activeOf s q k) = (b.arm, none)

/-- What such an issue knows. -/
def issOf (s : State) (q : Bundle) (b : Block) (op : Nat) (k : Ctl) : Iss :=
  { bun := q, b := b, op := op, k := k, pc := q.place.addr, no := s.issueNo + 1, all := lanesOf s q,
    act := activeOf s q k, next := q.place.next, flip := none, mxflip := none }
/-- The state that its effect starts at: the issue has its number. -/
def issued (s : State) : State := { s with issueNo := s.issueNo + 1 }
/-- What follows the effect: park (02 R31), then the bundle goes on (02 R25). -/
def after (i : Iss) (s : State) : State := advance i (parkAll i s)

/-- Issued with nothing in its way, and where `ok` holds, the instruction answers the next state that its effect and the
going on of its bundle give. The source groups may depend on the state, where a buffer record decides them. -/
def DoesAt (i : Instr) (op : Nat) (k : Ctl) (src : State → List RG) (dst late : List RG) (ok : Iss → State → Prop)
    (eff : Iss → State → State) : Prop :=
  ∀ (s : State) (q : Bundle) (c : Clause) (b : Block), Ready s op k (src s) dst late q c b →
    ok (issOf s q b op k) (issued s) →
    exec i s = .next (after (issOf s q b op k) (eff (issOf s q b op k) (issued s)))
/-- Issued with nothing in its way, where commanding lanes find faults, the instruction raises those and does nothing else;
an error that is armed at the block stays so. -/
def TrapsAt (i : Instr) (op : Nat) (k : Ctl) (src : State → List RG) (dst late : List RG)
    (found : Iss → State → List LaneFlt × State) : Prop :=
  ∀ (s : State) (q : Bundle) (c : Clause) (b : Block), Ready s op k (src s) dst late q c b →
    let r := found (issOf s q b op k) (issued s)
    r.1 ≠ [] → exec i s = .next (raise (modBlock r.2 b.uid fun b' => { b' with arm := b.arm }) b.uid op q.place.addr r.1)
/-- What an issue of opcode op makes of an instruction that the checks before its effect turn away, in their order: the
place of the word, the numbers of the registers, the pairs of a protected block, the errors in the sources. -/
def ChecksFault (run : State → Res) (op : Nat) (k : Ctl) (src : State → List RG) (dst late : List RG) : Prop :=
  ∀ (s : State) (q : Bundle) (c : Clause) (b : Block),
    getBundle s s.cur = some q → q.place.clause = some c → getBlock s q.blk = some b →
    let all := lanesOf s q
    let no := all.filter fun x => (src s ++ dst ++ late).any (outOfRange x.g)
    let pf := if b.protectd then pairFaults all k op (src s) else []
    let bad := (all.filter q.again).filter fun x => !(meets b k x (src s) true).none
    let raises (fs : List LaneFlt) : Prop := run s = .next (raise s b.uid op q.place.addr fs)
    (∀ cause, orderFault b q.role c q.place.idx op = some cause →
      raises (all.map fun x => ⟨x.t.gang, x.t.lane, { cause := cause }⟩)) ∧
    (orderFault b q.role c q.place.idx op = none → no ≠ [] →
      raises (no.map fun x => ⟨x.t.gang, x.t.lane, { cause := 0x16 }⟩)) ∧
    (orderFault b q.role c q.place.idx op = none → no = [] → pf ≠ [] → raises pf) ∧
    (orderFault b q.role c q.place.idx op = none → no = [] → pf = [] → bad ≠ [] →
      raises (bad.map fun x => ⟨x.t.gang, x.t.lane, (meets b k x (src s) true).flt b⟩))
/-- The same with fixed source groups, all of them read at the issue. -/
def DoesWhen (i : Instr) (op : Nat) (k : Ctl) (src dst : List RG) (ok : Iss → State → Prop)
    (eff : Iss → State → State) : Prop := DoesAt i op k (fun _ => src) dst [] ok eff
/-- The same with no condition of its own. -/
def Does (i : Instr) (op : Nat) (k : Ctl) (src dst : List RG) (eff : Iss → State → State) : Prop :=
  DoesWhen i op k src dst (fun _ _ => True) eff
/-- One n-bit result for each active lane, in ascending lane position. -/
def Lanes (i : Instr) (op : Nat) (k : Ctl) (src : List RG) (d : Reg) (n : Nat) (f : Lane → Nat) : Prop :=
  Does i op k src [⟨d, (n + 31) / 32⟩] (fun j s => commit s d n (j.act.map fun x => (x, f x)))
/-- One n-bit result for each active lane, and the flags that it raises. -/
def LanesF (i : Instr) (op : Nat) (k : Ctl) (src : List RG) (d : Reg) (n : Nat) (f : Lane → Nat × BitVec 5) : Prop :=
  Does i op k src [⟨d, (n + 31) / 32⟩] (fun j s =>
    orFlags (commit s d n (j.act.map fun x => (x, (f x).1))) (j.act.map fun x => (x, (f x).2)))
/-- One predicate for each active lane. -/
def LanesP (i : Instr) (op : Nat) (k : Ctl) (src : List RG) (d : Reg) (f : Lane → Bool) : Prop :=
  Does i op k src [] (fun j s => commitP s d (j.act.map fun x => (x, f x)))

/-- The interval of the block has no undo to keep: it is not a rollback block in a revocable interval (21 R375). -/
def Plain (b : Block) : Prop := (b.rollback && b.revocable) = false


/-- A bundle that has its turn may go on in its clause: its block is resident on a cool core, nothing stops it or holds
it back, it is not in the middle of an instruction, no member stands at a fault or takes a WATCH trap first, and it has not
yielded to another ready bundle (05 R84, 02 R23, R31, R32, 06 R125, 10 R215, 19 R354). -/
structure MayGoOn (s : State) (id : Nat) (q : Bundle) (c : Clause) (b : Block) : Prop where
  bundle : getBundle s id = some q
  block : getBlock s q.blk = some b
  clause : q.place.clause = some c
  resident : b.resident = true
  cool : coreTripped s b.core = false
  sound : faulted s q = false
  turn : mayRun s q = true
  whole : q.mid = false
  unparked : unparked s q = true
  unstalled : q.stalled = false
  ungated : gated s b c.cls = false
  running : b.stopping = true → q.atWait = false ∧ b.status = .running ∧ (membersOf s q).any Thread.stands = false
  unwatched : q.atWait = true → anyWatchDue s q = false
  first : q.yielded = true → otherReady s q = false
/-- The state in which such a bundle has its turn: it is the current one. -/
def itsTurn (s : State) (q : Bundle) (id : Nat) : State := { takeTurn (clearPark s q) q with cur := id }
/-- The state in which its instruction issues: the bundles of the core that gave way to it have done so. -/
def atIssue (s : State) (q : Bundle) (id : Nat) : State := gaveWay (itsTurn s q id) (coreOf (itsTurn s q id) q.blk)

/-! ### What stays as it is -/

/-- A thread without its v registers, predicates, FPFLAGS, program counter and park mark. -/
def Thread.bare (t : Thread) : Thread := { t with v := [], p := 0, pc := 0, fpflags := 0, parked := false }
/-- A gang without its s registers. -/
def Gang.bare (g : Gang) : Gang := { g with s := [] }
/-- A block without the marks of what its interval has changed (21 R375) and without the errors in its storage. -/
def Block.bare (b : Block) : Block :=
  { b with revocable := false, dirtyRows := [], dirtyLines := [], dirtyAccs := [], dirtyMasks := [], bad := [], errs := [] }
/-- The machine without its threads, gangs, blocks, bundles and counters: memory, translation, every engine, every
context and every device register. -/
def Rest (s : State) : State :=
  { s with threads := [], gangs := [], blocks := [], bundles := [], nextId := 0, issueNo := 0,
           act := { s.act with cellar := [] } }
/-- t is s but for the v registers, s registers, predicates and FPFLAGS that the four conditions allow to change, and
for where the bundle stands. Memory is among what stays. -/
structure OnlyWrites (s t : State) (vs : Nat → Nat → Nat → Nat → Prop) (ss : Nat → Nat → Nat → Prop)
    (ps : Nat → Nat → Nat → Nat → Prop) (fs : Nat → Nat → Nat → Prop) : Prop where
  rest : Rest t = Rest s
  memory : ∀ a, readByte t a = readByte s a
  v : ∀ b g l r, ¬vs b g l r → vReg t b g l r = vReg s b g l r
  uniform : ∀ b g r, ¬ss b g r → sReg t b g r = sReg s b g r
  p : ∀ b g l n, ¬ps b g l n → pReg t b g l n = pReg s b g l n
  flags : ∀ b g l, ¬fs b g l → fpFlags t b g l = fpFlags s b g l
  threads : ∀ b g l, (getThread t b g l).map Thread.bare = (getThread s b g l).map Thread.bare
  gangs : ∀ b g, (getGang t b g).map Gang.bare = (getGang s b g).map Gang.bare
  blocks : ∀ b, (getBlock t b).map Block.bare = (getBlock s b).map Block.bare
/-- Memory reads as before, and the control registers of the device and of every context are as before, their counters
included (11 R245, R246; 23 R389; 24 R407). -/
structure Still (s t : State) : Prop where
  memory : ∀ a, readByte t a = readByte s a
  device : t.kqbase = s.kqbase ∧ t.kqsize = s.kqsize ∧ t.kqhead = s.kqhead ∧ t.kqtail = s.kqtail ∧ t.kqfut = s.kqfut ∧ t.cfg = s.cfg
  contexts : t.ctxs = s.ctxs
/-- One of a list of lanes stands at (block, gang, lane position). -/
def laneIn (xs : List Lane) (b g l : Nat) : Prop := ∃ x ∈ xs, x.t.blk = b ∧ x.t.gang = g ∧ x.t.lane = l
/-- Nothing that the block's interval keeps can reach memory: no undo is kept, or no store is held. -/
def Quiet (b : Block) : Prop := Plain b ∨ b.hold = []

end Machine
end Sys2Proof
end

