-- ==== Sys2Proof/Certificates/Slice0/Obligations.lean ====
section
/-! DEFINITION. The statements about the machine: what each instruction and each event does where nothing is in its way,
what the checks before it do, what it leaves alone, and what holds of every step. -/

open Sys2Proof Sys2Proof.Machine

/-- INT arithmetic (06 R102, R104, R106-R108): issued with nothing in its way, each instruction writes to d of every
active lane the low N bits of the result below, saturated once where sat = 1, and the bundle goes on. -/
def Obligations.IntArithmeticResults : Prop :=
  (∀ k w sg sat d a b, Lanes (.iadd k w sg sat d a b) 0x02 k [rW w a, rW w b] d (wN w) fun x =>
    satBits sg sat (wN w) (ext sg (wN w) (x.rd a (wN w)) + ext sg (wN w) (x.rd b (wN w)))) ∧
  (∀ k w sg sat d a b, Lanes (.isub k w sg sat d a b) 0x03 k [rW w a, rW w b] d (wN w) fun x =>
    satBits sg sat (wN w) (ext sg (wN w) (x.rd a (wN w)) - ext sg (wN w) (x.rd b (wN w)))) ∧
  (∀ k w sg sat d a i, Lanes (.iaddi k w sg sat d a i) 0x04 k [rW w a] d (wN w) fun x =>
    satBits sg sat (wN w) (ext sg (wN w) (x.rd a (wN w)) + ext sg 24 i.toNat)) ∧
  (∀ k sg sat d a b, Lanes (.iaddw k sg sat d a b) 0x05 k [r64 a, r32 b] d 64 fun x =>
    satBits sg sat 64 (ext sg 64 (x.rd a 64) + ext sg 32 (x.rd b 32))) ∧
  (∀ k w sg sat d a b, Lanes (.imul k w sg sat d a b) 0x06 k [rW w a, rW w b] d (wN w) fun x =>
    satBits sg sat (wN w) (ext sg (wN w) (x.rd a (wN w)) * ext sg (wN w) (x.rd b (wN w)))) ∧
  (∀ k w sg d a b, Lanes (.imulh k w sg d a b) 0x07 k [rW w a, rW w b] d (wN w) fun x =>
    lowBits (wN w) (ext sg (wN w) (x.rd a (wN w)) * ext sg (wN w) (x.rd b (wN w)) / (2 : Int) ^ wN w)) ∧
  (∀ k w sg sat d a b c, Lanes (.imad k w sg sat d a b c) 0x08 k [rW w a, rW w b, rW w c] d (wN w) fun x =>
    satBits sg sat (wN w)
      (ext sg (wN w) (x.rd a (wN w)) * ext sg (wN w) (x.rd b (wN w)) + ext sg (wN w) (x.rd c (wN w)))) ∧
  (∀ k sg sat d a b c, Lanes (.imadw k sg sat d a b c) 0x09 k [r32 a, r32 b, r64 c] d 64 fun x =>
    satBits sg sat 64 (ext sg 32 (x.rd a 32) * ext sg 32 (x.rd b 32) + ext sg 64 (x.rd c 64))) ∧
  (∀ k w sg d a b, Lanes (.idiv k w sg d a b) 0x0A k [rW w a, rW w b] d (wN w) fun x =>
    lowBits (wN w) (if ext sg (wN w) (x.rd b (wN w)) = 0 then -1
      else (ext sg (wN w) (x.rd a (wN w))).tdiv (ext sg (wN w) (x.rd b (wN w))))) ∧
  (∀ k w sg d a b, Lanes (.irem k w sg d a b) 0x0B k [rW w a, rW w b] d (wN w) fun x =>
    lowBits (wN w) (if ext sg (wN w) (x.rd b (wN w)) = 0 then ext sg (wN w) (x.rd a (wN w))
      else (ext sg (wN w) (x.rd a (wN w))).tmod (ext sg (wN w) (x.rd b (wN w))))) ∧
  (∀ k w sg d a b, Lanes (.imin k w sg d a b) 0x0C k [rW w a, rW w b] d (wN w) fun x =>
    lowBits (wN w) (min (ext sg (wN w) (x.rd a (wN w))) (ext sg (wN w) (x.rd b (wN w))))) ∧
  (∀ k w sg d a b, Lanes (.imax k w sg d a b) 0x0D k [rW w a, rW w b] d (wN w) fun x =>
    lowBits (wN w) (max (ext sg (wN w) (x.rd a (wN w))) (ext sg (wN w) (x.rd b (wN w))))) ∧
  (∀ k w sg d a b, Lanes (.iabsd k w sg d a b) 0x0E k [rW w a, rW w b] d (wN w) fun x =>
    lowBits (wN w) ((ext sg (wN w) (x.rd a (wN w)) - ext sg (wN w) (x.rd b (wN w))).natAbs : Int))

/-- Shifts, funnel shifts and bitfields (06 R110-R112): a count of N or more gives 0, or copies of the sign for a signed
right shift; a funnel shift takes 32 bits of the pair; a bitfield is read, or inserted, at its position and length. -/
def Obligations.ShiftAndBitfieldResults : Prop :=
  (∀ k w im d a b x, Lanes (.ishl k w im d a b x) 0x10 k (rW w a :: cntSrc im b) d (wN w) fun l =>
    let n := if im then x.toNat else l.rd b 32
    if wN w ≤ n then 0 else l.rd a (wN w) * 2 ^ n % 2 ^ wN w) ∧
  (∀ k w sg im d a b x, Lanes (.ishr k w sg im d a b x) 0x11 k (rW w a :: cntSrc im b) d (wN w) fun l =>
    let n := if im then x.toNat else l.rd b 32
    lowBits (wN w) (ext sg (wN w) (l.rd a (wN w)) / (2 : Int) ^ min n (wN w))) ∧
  (∀ k im d a b c x, Lanes (.fshl k im d a b c x) 0x12 k (r32 a :: r32 b :: cntSrc im c) d 32 fun l =>
    let n := (if im then x.toNat else l.rd c 32) % 32
    (l.rd a 32 * 2 ^ 32 + l.rd b 32) * 2 ^ n / 2 ^ 32 % 2 ^ 32) ∧
  (∀ k im d a b c x, Lanes (.fshr k im d a b c x) 0x13 k (r32 a :: r32 b :: cntSrc im c) d 32 fun l =>
    let n := (if im then x.toNat else l.rd c 32) % 32
    (l.rd a 32 * 2 ^ 32 + l.rd b 32) / 2 ^ n % 2 ^ 32) ∧
  (∀ k w sg im d a c x, Lanes (.bfx k w sg im d a c x) 0x14 k (rW w a :: cntSrc im c) d (wN w) fun l =>
    let p := fieldPos l w im c x
    let v := l.rd a (wN w) / 2 ^ p.1 % 2 ^ p.2
    if sg && decide (0 < p.2) then lowBits (wN w) (sx p.2 v) else v) ∧
  (∀ k w im d a b c x, Lanes (.bfi k w im d a b c x) 0x15 k (rW w a :: rW w b :: cntSrc im c) d (wN w) fun l =>
    let p := fieldPos l w im c x
    ofBits (wN w) fun j => if p.1 ≤ j ∧ j < p.1 + p.2 then natBit (l.rd b (wN w)) (j - p.1) else natBit (l.rd a (wN w)) j)

/-- Logic, counts, selection, moves and the read of predicates (06 R109, R113, R114, R117). -/
def Obligations.LogicAndMoveResults : Prop :=
  (∀ k w d a b c x, Lanes (.lut3 k w d a b c x) 0x0F k [rW w a, rW w b, rW w c] d (wN w) fun l =>
    ofBits (wN w) fun j => x.getLsbD
      (4 * b2n (natBit (l.rd a (wN w)) j) + 2 * b2n (natBit (l.rd b (wN w)) j) + b2n (natBit (l.rd c (wN w)) j))) ∧
  (∀ k w d a, Lanes (.popc k w d a) 0x16 k [rW w a] d 32 fun l => popCount (wN w) (l.rd a (wN w))) ∧
  (∀ k w d a, Lanes (.popb k w d a) 0x17 k [rW w a] d (wN w) fun l =>
    packElems 8 ((elems 8 (wN w / 8) (l.rd a (wN w))).map (popCount 8))) ∧
  (∀ k w d a, Lanes (.clz k w d a) 0x18 k [rW w a] d 32 fun l =>
    if l.rd a (wN w) = 0 then wN w else wN w - 1 - Nat.log2 (l.rd a (wN w))) ∧
  (∀ k w d a, Lanes (.brev k w d a) 0x19 k [rW w a] d (wN w) fun l =>
    ofBits (wN w) fun j => natBit (l.rd a (wN w)) (wN w - 1 - j)) ∧
  (∀ k w d a b x, Lanes (.isel k w d a b x) 0x1A k [rW w a, rW w b, rP (x &&& 0x3F)] d (wN w) fun l =>
    if l.pr (natBits x.toNat 0 6) != x.getLsbD 7 then l.rd a (wN w) else l.rd b (wN w)) ∧
  (∀ k sz d a, Lanes (.mov k sz d a) 0x1B k [⟨a, 32 * 2 ^ sz.toNat / 32⟩] d (32 * 2 ^ sz.toNat) fun l =>
    l.rd a (32 * 2 ^ sz.toNat)) ∧
  (∀ k d i, Lanes (.movi k 0 d i) 0x1C k [] d 32 fun _ => i.toNat) ∧
  (∀ k d i, Lanes (.movi k 1 d i) 0x1C k [] d 64 fun _ => lowBits 64 (sx 32 i.toNat)) ∧
  (∀ k d i, Lanes (.movi k 2 d i) 0x1C k [] d 64 fun _ => i.toNat) ∧
  (∀ k d i, Lanes (.movi k 3 d i) 0x1C k [r64 d] d 64 fun l => i.toNat * 2 ^ 32 + l.rd d 64 % 2 ^ 32) ∧
  (∀ k d x, Lanes (.pget k d x) 0x20 k [rP 0] d 32 fun l =>
    if x = 0 then natBits l.t.p.toNat 0 32 else natBits l.t.p.toNat 32 16)

/-- Comparisons and predicate logic (06 R116, R117; 07 R147): the result is combined with the old predicate as cb says. -/
def Obligations.PredicateResults : Prop :=
  (∀ k w sg cb cc d a b, LanesP (.icmp k w sg cb cc d a b) 0x1D k [rW w a, rW w b, rP d] d fun l =>
    combine cb.toNat (l.pr d.toNat) (icompare cc.toNat (ext sg (wN w) (l.rd a (wN w))) (ext sg (wN w) (l.rd b (wN w)))
      (l.rd a (wN w)) (l.rd b (wN w)))) ∧
  (∀ k w sg cb cc d a i, LanesP (.icmpi k w sg cb cc d a i) 0x1E k [rW w a, rP d] d fun l =>
    combine cb.toNat (l.pr d.toNat) (icompare cc.toNat (ext sg (wN w) (l.rd a (wN w))) (ext sg 24 i.toNat)
      (l.rd a (wN w)) (lowBits (wN w) (ext sg 24 i.toNat)))) ∧
  (∀ k d a b c x, LanesP (.plut k d a b c x) 0x1F k [rP a, rP b, rP c] d fun l =>
    x.getLsbD (4 * b2n (l.pr a.toNat) + 2 * b2n (l.pr b.toNat) + b2n (l.pr c.toNat))) ∧
  (∀ k cb cc d a b, Does (.fcmp k cb cc d a b) 0x45 k [r32 a, r32 b, rP d] [] fun j s =>
    orFlags (commitP s d (j.act.map fun x =>
        (x, combine cb.toNat (x.pr d.toNat) (fcompare cc.toNat (x.rd a 32) (x.rd b 32)).1)))
      (j.act.map fun x => (x, (fcompare cc.toNat (x.rd a 32) (x.rd b 32)).2))) ∧
  (∀ k a b x, Does (.pset k a b x) 0x21 k [r32 a, r32 b] [] fun j s => j.act.foldl (fun s l =>
    let m := if x = 0 then l.rd b 32 else l.rd b 32 % 2 ^ 16 * 2 ^ 32
    let v := if x = 0 then l.rd a 32 else l.rd a 32 * 2 ^ 32
    modThread s l.t.blk l.t.gang l.t.lane (fun t =>
      { t with p := (t.p &&& ~~~BitVec.ofNat 48 m) ||| BitVec.ofNat 48 (v &&& m) })) s)

/-- NOP, YIELD and JHINT (06 R125; 10 JHINT): no effect but the going on of the bundle; after YIELD with an active
thread the bundle lets another ready one go first, and JHINT marks its block. NAP waits, PROG counts and starts the
watchdog of its scope again, TRCMARK makes a mark record (06 R126; 23 R393, R395). EXIT (06 R123, 21 R377) is an
irrevocable event; each active thread parks in its bundle, and those with nothing outstanding leave; with no active
thread nothing happens. -/
def Obligations.PlainControlInstructions : Prop :=
  (∀ k, Does (.nop k) 0x01 k [] [] fun _ s => s) ∧
  (∀ k, Does (.yield k) 0x36 k [] [] fun j s =>
    if j.act.isEmpty then s else modBundle s j.bun.id (fun b => { b with yielded := true })) ∧
  (∀ k, Does (.jhint k) 0xC2 k [] [] fun j s =>
    if j.act.isEmpty then s else modBlock s j.b.uid (fun b => { b with hinted := true })) ∧
  (∀ k i, Does (.nap k i) 0x37 k [] [] fun j s =>
    j.act.foldl (fun s l => modThread s l.t.blk l.t.gang l.t.lane (fun t => { t with wait := .nap })) s) ∧
  (∀ k (i : BitVec 24), Does (.prog k i) 0x38 k [] [] fun j s => j.cmd.foldl (fun s l =>
    modScope (modCtx s l.b.ctx (fun c =>
        { c with prog := Sparse.set 0 c.prog (i.toNat % 16) (Sparse.get 0 c.prog (i.toNat % 16) + 1) }))
      l.b.ctx l.b.scope (fun x => { x with wd := 0 })) s) ∧
  (∀ k a (i : BitVec 24), Does (.trcmark k a i) 0x3A k [r32 a] [] fun j s => j.cmd.foldl (fun s l =>
    traceRec s l.b.ctx 1 (traceHead s l.b l.t.gang l.t.lane j.pc.toNat i.toNat 0 (l.rd a 32)) l.b.uid) s) ∧
  (∀ k, Does (.exit k) 0x2F k [] [] fun j s =>
    if j.act.isEmpty then s
    else settleExits (j.act.foldl (fun s l => modThread s l.t.blk l.t.gang l.t.lane
      (fun t => { t with wait := .exit, pc := j.pc })) (irrevocable s j.b.uid)))

/-- VGET and VPUT (06 R115; 05 R100): where every active lane reaches a register that its gang has, and VGET meets no
double register error there, single ones are corrected and the register reached is read into d, or written from a. -/
def Obligations.IndexedRegisterResults : Prop :=
  (∀ k d a b,
    let reached (x : Lane) : List RG := [r32 (BitVec.ofNat 8 (a.toNat + x.rd b 32))]
    DoesWhen (.vget k d a b) 0x3B k [r32 b] [r32 d]
      (fun j _ => ∀ x ∈ j.act, a.toNat + x.rd b 32 < x.g.limit ∧ badReads j.b x (reached x) true = [])
      (fun j s => commit (j.act.foldl (fun s x => correctReads s j.b 0x3B j.pc (badReads j.b x (reached x) false)) s) d 32
        (j.act.map fun x => (x, x.v (a.toNat + x.rd b 32))))) ∧
  (∀ k d a b, DoesWhen (.vput k d a b) 0x3C k [r32 a, r32 b] []
    (fun j _ => ∀ x ∈ j.act, d.toNat + x.rd b 32 < x.g.limit)
    (fun j s => j.act.foldl (fun s x =>
      setV s x.t.blk x.t.gang x.t.lane (d.toNat + x.rd b 32) (BitVec.ofNat 32 (x.rd a 32))) s))

/-- FP32 arithmetic (07 R144-R149): the exact result of the operation on the exact operands is rounded once to FP32; the
flags are those of the operation, of the rounding and of the reading of the operands. -/
def Obligations.Fp32Results : Prop :=
  let one (rm : BitVec 2) (p : Nat) (f : Xr → Xr × BitVec 5) : Nat × BitVec 5 :=
    let y := f (val .fp32 p)
    let r := round .fp32 rm.toNat y.1
    (r.1, y.2 ||| r.2 ||| readFlag .fp32 p)
  let two (rm : BitVec 2) (p q : Nat) (f : Xr → Xr → Xr × BitVec 5) : Nat × BitVec 5 :=
    let y := f (val .fp32 p) (val .fp32 q)
    let r := round .fp32 rm.toNat y.1
    (r.1, y.2 ||| r.2 ||| readFlag .fp32 p ||| readFlag .fp32 q)
  (∀ k rm na nc d a b, LanesF (.fadd k rm na nc d a b) 0x40 k [r32 a, r32 b] d 32 fun x =>
    two rm (x.rd a 32) (x.rd b 32) fun u v => xadd rm.toNat (negIf na u) (negIf nc v)) ∧
  (∀ k rm na d a b, LanesF (.fmul k rm na d a b) 0x41 k [r32 a, r32 b] d 32 fun x =>
    two rm (x.rd a 32) (x.rd b 32) fun u v => xmul (negIf na u) v) ∧
  (∀ k rm na nc d a b c, LanesF (.ffma k rm na nc d a b c) 0x42 k [r32 a, r32 b, r32 c] d 32 fun x =>
    let p := xmul (negIf na (val .fp32 (x.rd a 32))) (val .fp32 (x.rd b 32))
    let y := xadd rm.toNat p.1 (negIf nc (val .fp32 (x.rd c 32)))
    let r := round .fp32 rm.toNat y.1
    (r.1, p.2 ||| y.2 ||| r.2 ||| readFlag .fp32 (x.rd a 32) ||| readFlag .fp32 (x.rd b 32) |||
      readFlag .fp32 (x.rd c 32))) ∧
  (∀ k d a b, LanesF (.fmin k d a b) 0x43 k [r32 a, r32 b] d 32 fun x => minMax .fp32 false (x.rd a 32) (x.rd b 32)) ∧
  (∀ k d a b, LanesF (.fmax k d a b) 0x44 k [r32 a, r32 b] d 32 fun x => minMax .fp32 true (x.rd a 32) (x.rd b 32)) ∧
  (∀ k rm d a b, LanesF (.fdiv k rm d a b) 0x46 k [r32 a, r32 b] d 32 fun x => two rm (x.rd a 32) (x.rd b 32) xdiv) ∧
  (∀ k rm d a, LanesF (.frcp k rm d a) 0x47 k [r32 a] d 32 fun x => one rm (x.rd a 32) (xdiv (.fin 1 0))) ∧
  (∀ k rm d a, LanesF (.frsq k rm d a) 0x48 k [r32 a] d 32 fun x => one rm (x.rd a 32) xrsq) ∧
  (∀ k rm d a, LanesF (.fsqrt k rm d a) 0x49 k [r32 a] d 32 fun x => one rm (x.rd a 32) xsqrt) ∧
  (∀ k rm d a, LanesF (.fexp2 k rm d a) 0x4A k [r32 a] d 32 fun x => one rm (x.rd a 32) xexp2) ∧
  (∀ k rm d a, LanesF (.flog2 k rm d a) 0x4B k [r32 a] d 32 fun x => one rm (x.rd a 32) xlog2) ∧
  (∀ k rm d a, LanesF (.fsinpi k rm d a) 0x4C k [r32 a] d 32 fun x => one rm (x.rd a 32) xsinpi) ∧
  (∀ k rm d a, LanesF (.fcospi k rm d a) 0x4D k [r32 a] d 32 fun x => one rm (x.rd a 32) xcospi) ∧
  (∀ k rm d a, LanesF (.frnd k rm d a) 0x4E k [r32 a] d 32 fun x =>
    (frndPat rm.toNat (x.rd a 32), readFlag .fp32 (x.rd a 32))) ∧
  (∀ k rm d a b, LanesF (.fscale k rm d a b) 0x4F k [r32 a, r32 b] d 32 fun x =>
    let r := round .fp32 rm.toNat ((val .fp32 (x.rd a 32)).scale (max (-400) (min 400 (sx 32 (x.rd b 32)))))
    (r.1, r.2 ||| readFlag .fp32 (x.rd a 32)))

/-- Two 16-bit operations in one register (07 R150, R152): each half is computed on its own from the same half of the
sources, CVTP's from a for the low and from b for the high half; the flags of the halves are ORed. Conversions (07
R151, R153, R154): CVT between 32-bit and 16-bit formats and integers, CVTQ and CVTO to narrow formats with an
optional scale, CVTX from a narrow format. -/
def Obligations.HalfAndConversionResults : Prop :=
  let both (f : Nat → Nat × BitVec 5) : Nat × BitVec 5 := ((f 0).1 + 2 ^ 16 * (f 1).1, (f 0).2 ||| (f 1).2)
  (∀ k rm hf d a b, LanesF (.hadd2 k rm hf d a b) 0x50 k [r32 a, r32 b] d 32 fun x => both fun h =>
    toHalf (hFmt hf) rm.toNat (xadd rm.toNat (val (hFmt hf) (half (x.rd a 32) h)) (val (hFmt hf) (half (x.rd b 32) h)))
      [half (x.rd a 32) h, half (x.rd b 32) h]) ∧
  (∀ k rm hf d a b, LanesF (.hmul2 k rm hf d a b) 0x51 k [r32 a, r32 b] d 32 fun x => both fun h =>
    toHalf (hFmt hf) rm.toNat (xmul (val (hFmt hf) (half (x.rd a 32) h)) (val (hFmt hf) (half (x.rd b 32) h)))
      [half (x.rd a 32) h, half (x.rd b 32) h]) ∧
  (∀ k rm hf d a b c, LanesF (.hfma2 k rm hf d a b c) 0x52 k [r32 a, r32 b, r32 c] d 32 fun x => both fun h =>
    toHalf (hFmt hf) rm.toNat (xfma rm.toNat (val (hFmt hf) (half (x.rd a 32) h)) (val (hFmt hf) (half (x.rd b 32) h))
      (val (hFmt hf) (half (x.rd c 32) h))) [half (x.rd a 32) h, half (x.rd b 32) h, half (x.rd c 32) h]) ∧
  (∀ k hf mn d a b, LanesF (.hmax2 k hf mn d a b) 0x53 k [r32 a, r32 b] d 32 fun x => both fun h =>
    minMax (hFmt hf) (!mn) (half (x.rd a 32) h) (half (x.rd b 32) h)) ∧
  (∀ k rm hf d a b, LanesF (.cvtp k rm hf d a b) 0x55 k [r32 a, r32 b] d 32 fun x => both fun h =>
    let p := x.rd (if h = 0 then a else b) 32
    ((round (hFmt hf) rm.toNat (val .fp32 p)).1, (round (hFmt hf) rm.toNat (val .fp32 p)).2 ||| readFlag .fp32 p)) ∧
  (∀ k rm src dst d a x, LanesF (.cvt k rm src dst d a x) 0x54 k [r32 a] d 32 fun l =>
    let p := if (cvtFmt src).bits = 16 then half (l.rd a 32) (x.toNat % 2) else l.rd a 32
    let r := if (cvtFmt dst).isInt then sat (cvtFmt dst) rm.toNat (val (cvtFmt src) p)
      else round (cvtFmt dst) rm.toNat (val (cvtFmt src) p)
    (r.1, r.2 ||| readFlag (cvtFmt src) p)) ∧
  (∀ k rm fmt st sc d a c x, LanesF (.cvtq k rm fmt st sc d a c x) 0x56 k (r128 a :: if sc then [r32 c] else []) d 32
    fun l => packFlags 8 ((elems 32 4 (l.rd a 128)).map (quantize (narrowFmt fmt) rm.toNat st
      (if sc then some (byteOf (l.rd c 32) (x.toNat % 4)) else none)))) ∧
  (∀ k rm fmt sc d a b c x, LanesF (.cvto k rm fmt sc d a b c x) 0x57 k
    (r128 a :: r128 b :: if sc then [r32 c] else []) d 32
    fun l => packFlags 4 ((elems 32 4 (l.rd a 128) ++ elems 32 4 (l.rd b 128)).map (quantize (narrowFmt fmt) rm.toNat true
      (if sc then some (byteOf (l.rd c 32) (x.toNat % 4)) else none)))) ∧
  (∀ k rm fmt sc d a c x, LanesF (.cvtx k rm fmt sc d a c x) 0x58 k (r32 a :: if sc then [r32 c] else []) d 128 fun l =>
    let es := if (narrowFmt fmt).bits = 8 then elems 8 4 (l.rd a 32) else elems 4 4 (l.rd a 32 / 2 ^ (16 * (x.toNat % 2)))
    packFlags 32 (es.map fun p =>
      let v := scaleBy (if sc then some (byteOf (l.rd c 32) (natBits x.toNat 1 2)) else none) false (val (narrowFmt fmt) p)
      ((round .fp32 rm.toNat v.1).1, (round .fp32 rm.toNat v.1).2 ||| v.2)))

/-- Narrow dot products (07 R140, R141, R155-R157): the integer ones wrap modulo 2^32; the floating-point ones add one
block to c, scaled for the DOTS forms, whose accumulator is d. That an infinite accumulator which meets an opposite
infinite block sum raises the invalid flag is the model's choice (log 23). -/
def Obligations.DotResults : Prop :=
  let fp (f : Fmt) (n : Nat) (rm : BitVec 2) (x : Lane) (a b c : Reg) : Nat × BitVec 5 :=
    let r := blockAcc rm.toNat (x.rd c 32) (valPairs f n (x.rd a 32) (x.rd b 32)) 127 127
    (r.1, (elems f.bits n (x.rd a 32) ++ elems f.bits n (x.rd b 32)).foldl (fun fl p => fl ||| readFlag f p)
      (r.2 ||| readFlag .fp32 (x.rd c 32)))
  let scaled (f : Fmt) (rm : BitVec 2) (l : Lane) (d a b c : Reg) (x : BitVec 8) : Nat × BitVec 5 :=
    let r := blockAcc rm.toNat (l.rd d 32)
      (if f.isInt then [(Xr.ofInt (intDot f 16 (l.rd a (16 * f.bits)) (l.rd b (16 * f.bits))) 0, Xr.fin 1 0)]
       else valPairs f 16 (l.rd a (16 * f.bits)) (l.rd b (16 * f.bits)))
      (byteOf (l.rd c 64) (x.toNat % 4)) (byteOf (l.rd c 64 / 2 ^ 32) (natBits x.toNat 2 2))
    (r.1, r.2 ||| readFlag .fp32 (l.rd d 32))
  (∀ k d a b c, Lanes (.dotI8 k d a b c) 0x59 k [r32 a, r32 b, r32 c] d 32 fun x =>
    lowBits 32 (x.rd c 32 + intDot .i8 4 (x.rd a 32) (x.rd b 32))) ∧
  (∀ k d a b c, Lanes (.dotZ8 k d a b c) 0x5A k [r32 a, r32 b, r32 c] d 32 fun x =>
    lowBits 32 (x.rd c 32 + intDot .z8 4 (x.rd a 32) (x.rd b 32))) ∧
  (∀ k d a b c, Lanes (.dotI4 k d a b c) 0x5D k [r32 a, r32 b, r32 c] d 32 fun x =>
    lowBits 32 (x.rd c 32 + intDot .i4 8 (x.rd a 32) (x.rd b 32))) ∧
  (∀ k rm d a b c, LanesF (.dotE4m3 k rm d a b c) 0x5B k [r32 a, r32 b, r32 c] d 32 fun x => fp .e4m3 4 rm x a b c) ∧
  (∀ k rm d a b c, LanesF (.dotE5m2 k rm d a b c) 0x5C k [r32 a, r32 b, r32 c] d 32 fun x => fp .e5m2 4 rm x a b c) ∧
  (∀ k rm d a b c, LanesF (.dotE2m1 k rm d a b c) 0x5E k [r32 a, r32 b, r32 c] d 32 fun x => fp .e2m1 8 rm x a b c) ∧
  (∀ k rm d a b c, LanesF (.dot2Bf16 k rm d a b c) 0x63 k [r32 a, r32 b, r32 c] d 32 fun x => fp .bf16 2 rm x a b c) ∧
  (∀ k rm d a b c, LanesF (.dot2F16 k rm d a b c) 0x64 k [r32 a, r32 b, r32 c] d 32 fun x => fp .fp16 2 rm x a b c) ∧
  (∀ k rm d a b c x, LanesF (.dotsE4m3 k rm d a b c x) 0x5F k [r32 d, r128 a, r128 b, r64 c] d 32 fun l =>
    scaled .e4m3 rm l d a b c x) ∧
  (∀ k rm d a b c x, LanesF (.dotsE5m2 k rm d a b c x) 0x60 k [r32 d, r128 a, r128 b, r64 c] d 32 fun l =>
    scaled .e5m2 rm l d a b c x) ∧
  (∀ k rm d a b c x, LanesF (.dotsE2m1 k rm d a b c x) 0x61 k [r32 d, r64 a, r64 b, r64 c] d 32 fun l =>
    scaled .e2m1 rm l d a b c x) ∧
  (∀ k rm d a b c x, LanesF (.dotsI8 k rm d a b c x) 0x62 k [r32 d, r128 a, r128 b, r64 c] d 32 fun l =>
    scaled .i8 rm l d a b c x)

/-- BRA, BRX, CALL and RET (02 R26, R27; 05 R84; 06 R122; 11 R238): where every active target passes its check and the lane
pairs of a protected block agree, the link register takes the address of the next header, a return from a trap handler ends
it, and the bundle's members, parked where a result is to return, go to their targets, the others past the branch. With too
few free bins, only the paths that find one are set aside, and the bundle waits at the branch with the other threads: which
paths those are, and which path runs first among equals, is the model's choice (logs 18 and 23). -/
def Obligations.BranchesGo : Prop :=
  let goes (i : Instr) (op : Nat) (k : Ctl) (src dst : List RG) (link : Option Reg) (target : Iss → Lane → W64) : Prop :=
    ∀ (s s1 : State) (q q' : Bundle) (c : Clause) (b : Block), Ready s op k src dst [] q c b →
      let j := issOf s q b op k
      let ts := j.act.map fun x => (x, target j x)
      let ps := branchPlaces j (op == 0x2B) ts
      checkTargets (issued s) b (op == 0x2B) ts = ([], s1) → pairDiverge j ps = [] →
      getBundle (branchEffect j op link ts s1) q.id = some q' →
      (∀ s2, diverge (parkAll j (branchEffect j op link ts s1)) q' b.core ps = some s2 →
        exec i s = .next (parkAll j (branchReenter op ts s2))) ∧
      (diverge (parkAll j (branchEffect j op link ts s1)) q' b.core ps = none →
        ∃ t, branchPart j op link ts ps (issued s) = .stall t ∧ exec i s =
          .next (modBundle (modBlock t b.uid (fun x => { x with arm := b.arm })) q.id (fun x => { x with stalled := true })))
  (∀ k t, goes (.bra k t) 0x28 k [] [] none fun j _ => j.pc + (t.signExtend 64 <<< 3)) ∧
  (∀ k a, goes (.brx k a) 0x29 k [r64 a] [] none fun _ x => BitVec.ofNat 64 (x.rd a 64)) ∧
  (∀ k d t, goes (.call k d t) 0x2A k [] [r64 d] (some d) fun j _ => j.pc + (t.signExtend 64 <<< 3)) ∧
  (∀ k a, goes (.ret k a) 0x2B k [r64 a] [] none fun _ x => BitVec.ofNat 64 (x.rd a 64))

/-- RJARM, RJOIN and RJDROP (06 R127, R128): a mask with no arrived thread is armed with the live threads that a names; a
thread armed in the mask performs what it has issued, leaves its bundle, waits and is released with the last one; a
dropped thread leaves the armed set. That a thread at RJOIN performs what it has issued is read from 08 R175 and R185, an
inference of the model (log 5), and that a release with too few free bins releases no thread is its choice (log 23). -/
def Obligations.RejoinMasks : Prop :=
  (∀ k a (x : BitVec 8), DoesWhen (.rjarm k a x) 0x2C k [r32 a] []
    (fun j _ => ∀ l ∈ j.act, Sparse.get 0 l.g.arrived x.toNat = 0)
    (fun j s => (firstLanes j.act).foldl (fun s l => modGang s l.t.blk l.t.gang (fun g =>
      { g with armed := Sparse.set 0 g.armed x.toNat (BitVec.ofNat 32 (l.rd a 32) &&&
          (gangThreads s l.t.blk l.t.gang).foldl (fun v t => v ||| rjBit l.b t.lane) 0) })) s)) ∧
  (∀ k (x : BitVec 8), DoesWhen (.rjoin k x) 0x2D k [] []
    (fun j _ => ∀ l ∈ j.act, Sparse.get 0 l.g.armed x.toNat &&& rjBit l.b l.t.lane ≠ 0)
    (fun j s => (firstLanes j.act).foldl (fun s l => rjRelease s l.t.blk l.t.gang x.toNat)
      (j.act.foldl (fun s l =>
        modThread (modGang (leaveBundle (drainThread s l.t.blk l.t.gang l.t.lane) j.bun.id [(l.t.gang, l.t.lane)])
          l.t.blk l.t.gang (fun g =>
            { g with arrived := Sparse.set 0 g.arrived x.toNat (Sparse.get 0 g.arrived x.toNat ||| rjBit l.b l.t.lane) }))
          l.t.blk l.t.gang l.t.lane (fun t => { t with wait := .rjoin x.toNat j.bun.place, pc := j.pc })) s))) ∧
  (∀ k (x : BitVec 8), Does (.rjdrop k x) 0x2E k [] [] fun j s =>
    j.act.foldl (fun s l => rjDrop s l.t.blk l.t.gang l.t.lane x.toNat) s)

/-- TRAP and BRK where task level takes the trap of every active thread (11 R236, R237; 06 TRAP; 23 BRK): each thread's
trap registers take the cause, the address of the instruction and the code, its resume point is the place after it, and
it stands at the handler. That the path to the handler is set aside even where no bin is free is the model's choice (log
23). -/
def Obligations.SoftTrapsEnter : Prop :=
  let enters (i : Instr) (op cause : Nat) (k : Ctl) (code : BitVec 24) : Prop :=
    DoesWhen i op k [] [] (fun j s => ∀ x ∈ j.act, (trapVec s x cause 0).isSome = true) (fun j s =>
      j.act.foldl (fun s x => match trapVec s x cause 0 with
        | some vec => takeTrap s x (getBundle s j.bun.id) cause j.pc (code.setWidth 64) 0 j.next vec
        | none => s) s)
  (∀ k i, enters (.trap k i) 0x30 0x13 k i) ∧ (∀ k i, enters (.brk k i) 0x39 0x14 k i)

/-- GETS and SETS (05 R98): GETS writes the special register as each active thread sees it, CYCLE after it has advanced;
SETS writes FPFLAGS of each active thread, or MTOL of the block from the lowest active lane, where a protected block's
pairs agree on the value. -/
def Obligations.SpecialRegisters : Prop :=
  (∀ k d (i : BitVec 24),
    let n := i.toNat % 4096
    let w := if special64 n then 64 else 32
    Does (.gets k d i) 0x31 k [] [⟨d, w / 32⟩] fun j s =>
      let s := if n = 0x023 then tickCycle s j.b.core else s
      commit s d w (j.act.map fun x => (x, specialReg s j n x))) ∧
  (∀ k a, Does (.sets k a 0x20) 0x32 k [r32 a] [] fun j s =>
    j.act.foldl (fun s x => modThread s x.t.blk x.t.gang x.t.lane (fun t => { t with fpflags := BitVec.ofNat 5 (x.rd a 32) })) s) ∧
  (∀ k a, DoesWhen (.sets k a 0x21) 0x32 k [r32 a] []
    (fun j _ => j.b.protectd = true → operandFaults j.all k [r32 a] = [])
    (fun j s => match j.act.head? with
      | some x => modBlock s j.b.uid (fun b => { b with mtol := BitVec.ofNat 32 (x.rd a 32) })
      | none => s))

/-- The gang-collective instructions (05 R85; 06 R118-R121, R129, R130): every thread of the bundle arrives, whatever its
guard, with its member set; then each gathering that is complete is performed. The sources are read at completion. That a
thread arrives with the value that its guard has then is the model's choice (log 19). -/
def Obligations.CollectivesArrive : Prop :=
  let arrives (i : Instr) (op : Nat) (k : Ctl) (src dst : List RG) (mk : Bool) (c : Reg) : Prop :=
    DoesAt i op k (fun _ => if mk then [r32 c] else []) dst src (fun _ _ => True) fun j s =>
      (j.all.filter j.bun.again).foldl (fun s x => tryGather s x.t.blk x.t.gang x.t.lane)
        ((j.all.filter j.bun.again).foldl (fun s x => modThread s x.t.blk x.t.gang x.t.lane (fun t =>
          { t with wait := .gather i j.pc (memberSet x mk c) (x.guard k) })) s)
  (∀ k w mk pm d a b c x, arrives (.perm k w mk pm d a b c x) 0x22 k (rW w a :: if pm = 0 then [r32 b] else []) [rW w d] mk c) ∧
  (∀ k mk d a b c x, arrives (.permx k mk d a b c x) 0x23 k [r32 a, r32 b, r32 x] [r32 d] mk c) ∧
  (∀ k mk vm d a c, arrives (.vote k mk vm d a c) 0x24 k (if vm = 2 then [r32 a] else []) (if vm = 3 then [r32 d] else []) mk c) ∧
  (∀ k mk d c, arrives (.elect k mk d c) 0x25 k [] [] mk c) ∧
  (∀ k w sg mk gop d a c, arrives (.gred k w sg mk gop d a c) 0x26 k [rW w a] [rW w d] mk c) ∧
  (∀ k w sg mk gop ex d a c, arrives (.gscan k w sg mk gop ex d a c) 0x27 k [rW w a] [rW w d] mk c) ∧
  (∀ k n, arrives (.rclaim k n) 0x33 k [] [] false 0) ∧
  (∀ k n, arrives (.rgive k n) 0x34 k [] [] false 0) ∧
  (∀ k d n, arrives (.rtry k d n) 0x35 k [] [] false 0)

/-- What each collective makes of its complete gathering (06 R118-R121, R129, R130; 05 R90, R91): PERM and PERMX read another
active member, VOTE and ELECT decide, GRED and GSCAN combine the active members in ascending index; RCLAIM claims and waits,
RTRY has its units at once or not, RGIVE gives back the highest ones; granted registers read 0. Where no source holds an
error, the arrived threads go on with the results, both lanes of a protected pair with the same. That a thread is active by
the guard stored at its arrival is the model's choice (log 19). -/
def Obligations.CollectiveResults : Prop :=
  (∀ (s : State) (blk gang lane : Nat) (t : Thread) (b : Block) (g : Gang) (i : Instr) (pc : W64) (m : W32) (stored : Bool)
    (ms : List Thread), getThread s blk gang lane = some t → getBlock s blk = some b → getGang s blk gang = some g →
    t.wait = .gather i pc m stored → gathering s b t = some ms → b.killed = false → (∀ u ∈ ms, u.fault = none) →
    b.errs = [] → b.bad = [] →
    let active (x : Lane) : Bool := match x.t.wait with | .gather _ _ _ a => a | _ => false
    let act := (ms.filterMap fun u => laneOf s u.blk u.gang u.lane).filter
      fun x => active x && (!b.protectd || x.t.lane % 2 == 0)
    let at_ (j : Int) : Option Lane := act.find? fun x => (x.tid : Int) == j
    let ends (r : State) : Prop := exec (.gatheringComplete blk gang lane) s = .next r
    let gives (d : Reg) (n : Nat) (f : Lane → Nat) : Prop :=
      ends (setGathered (pairCommit s d n (act.map fun x => (x, f x))) ms)
    let decides (d : Reg) (f : Lane → Bool) : Prop := ends (setGathered (pairCommitP s d (act.map fun x => (x, f x))) ms)
    let op (gop n : Nat) (sg : Bool) (x y : Nat) : Nat := match gop with
      | 0 => (x + y) % 2 ^ n
      | 1 => if ext sg n x ≤ ext sg n y then x else y
      | 2 => if ext sg n x ≤ ext sg n y then y else x
      | 3 => x &&& y
      | 4 => x ||| y
      | _ => x ^^^ y
    let start (gop n : Nat) (sg : Bool) : Nat := match gop with
      | 1 => if sg then 2 ^ (n - 1) - 1 else 2 ^ n - 1
      | 2 => if sg then 2 ^ (n - 1) else 0
      | 3 => 2 ^ n - 1
      | _ => 0
    let faults (cause : Nat) : Prop := ∃ r, ends r ∧ ∀ u ∈ ms, ∃ v f,
      getThread r u.blk u.gang u.lane = some v ∧ v.wait = .none ∧ v.fault = some f ∧ f.cause.toNat = cause ∧ f.pc = pc
    let each (f : Thread → Thread) (u : State) : State := modThreads u (fun t => t.among ms) f
    (∀ k w mk pm d a q c (x : BitVec 8), i = .perm k w mk pm d a q c x → gives d (wN w) fun u =>
      ((at_ (match pm.toNat with
        | 0 => (u.rd q 32 : Int) | 1 => (u.tid ^^^ x.toNat : Nat) | 2 => (u.tid : Int) - x.toNat
        | _ => (u.tid : Int) + x.toNat)).getD u).rd a (wN w)) ∧
    (∀ k mk d a q c x, i = .permx k mk d a q c x → gives d 32 fun u =>
      if u.rd x 32 < 32 then ((at_ (u.rd x 32)).getD u).rd a 32
      else match at_ ((u.rd x 32 : Int) - 32) with | some v => v.rd q 32 | none => u.rd a 32) ∧
    (∀ k mk d (a : Reg) c, i = .vote k mk 0 d a c → decides d fun _ => act.all fun v => v.pr a.toNat) ∧
    (∀ k mk d (a : Reg) c, i = .vote k mk 1 d a c → decides d fun _ => act.any fun v => v.pr a.toNat) ∧
    (∀ k mk d a c, i = .vote k mk 2 d a c → decides d fun _ => act.all fun v => act.all fun u => v.rd a 32 == u.rd a 32) ∧
    (∀ k mk d (a : Reg) c, i = .vote k mk 3 d a c → ∃ mask, mask < 2 ^ 32 ∧ gives d 32 (fun _ => mask) ∧
      ∀ j < 32, mask.testBit j = match at_ j with | some v => v.pr a.toNat | none => false) ∧
    (∀ k mk d c, i = .elect k mk d c → decides d fun u => act.head?.map Lane.tid == some u.tid) ∧
    (∀ k w sg mk (gop : BitVec 3) d a c, i = .gred k w sg mk gop d a c → gives d (wN w) fun _ =>
      (act.map fun v => v.rd a (wN w)).foldl (op gop.toNat (wN w) sg) (start gop.toNat (wN w) sg)) ∧
    (∀ k w sg mk (gop : BitVec 3) ex d a c, i = .gscan k w sg mk gop ex d a c → gives d (wN w) fun u =>
      ((act.filter fun v => decide (v.tid < u.tid) || (!ex && v.tid == u.tid)).map fun v => v.rd a (wN w)).foldl
        (op gop.toNat (wN w) sg) (start gop.toNat (wN w) sg)) ∧
    (∀ k (n : BitVec 24), (i = .rclaim k n ∨ i = .rgive k n ∨ ∃ d, i = .rtry k d n) → act = [] → ends (setGathered s ms)) ∧
    (∀ k (n : BitVec 24), (i = .rclaim k n ∨ ∃ d, i = .rtry k d n) → act ≠ [] → 24 < g.base + g.ext + n.toNat % 32 → faults 0x02) ∧
    (∀ k (n : BitVec 24), i = .rclaim k n → act ≠ [] → g.base + g.ext + n.toNat % 32 ≤ 24 → ends (serveClaims
      { each (fun t => { t with wait := .claim (n.toNat % 32) }) s with
          claims := s.claims ++ [(blk, gang, n.toNat % 32)] })) ∧
    (∀ k d (n : BitVec 24), i = .rtry k d n → act ≠ [] → g.base + g.ext + n.toNat % 32 ≤ 24 → Plain b →
      let had := decide (n.toNat % 32 ≤ freeUnits s b.core) && decide (heldUnits s blk + n.toNat % 32 ≤ b.cap)
      ends (setGathered (pairCommitP (if had then grantUnits s blk gang (n.toNat % 32) else s) d
        (act.map fun x => (x, had))) ms)) ∧
    (∀ k (n : BitVec 24), i = .rgive k n → act ≠ [] → g.ext < n.toNat % 32 → faults 0x16) ∧
    (∀ k (n : BitVec 24), i = .rgive k n → act ≠ [] → n.toNat % 32 ≤ g.ext → giveBlocked s g (n.toNat % 32) = true →
      ends (each (fun t => { t with
        wait := .give (BitVec.ofNat 24 (n.toNat % 32)) pc (act.any fun x => x.t.lane == t.lane) }) s)) ∧
    (∀ k (n : BitVec 24), i = .rgive k n → act ≠ [] → n.toNat % 32 ≤ g.ext → giveBlocked s g (n.toNat % 32) = false → Plain b →
      ∃ r, ends (serveClaims (setGathered r ms)) ∧
        (getGang r blk gang).map Gang.ext = some (g.ext - n.toNat % 32) ∧ r.claims = s.claims ∧
        ∀ l j, vReg r blk gang l j =
          if g.limit - 8 * (n.toNat % 32) ≤ j ∧ j < g.limit then 0 else vReg s blk gang l j)) ∧
  (∀ s blk gang g n, getGang s blk gang = some g →
    let r := grantUnits s blk gang n
    (getGang r blk gang).map Gang.ext = some (g.ext + n) ∧
    ∀ l j, vReg r blk gang l j = if g.limit ≤ j ∧ j < g.limit + 8 * n then 0 else vReg s blk gang l j) ∧
  (∀ u ms, (∀ t ∈ u.threads, t.flip = none) → setGathered u ms = modThreads u (fun t => t.among ms) Thread.unwait)

/-- LD, ST, ATOM, ATOMN and CAS (08 R158, R164, R165, R170; 09 R192-R196). The address of an access is the record's base plus
index times stride in each dimension, each index first made valid as the record says: an index out of range raises BOUNDS,
drops the access, is clamped or wraps. The address is checked in the order of R164, then translated and checked. Where the
addresses of all commanding lanes pass, each lane's access becomes an outstanding result at the target found for it, and a
global atomic first ends the revocable interval of its block; else the faults are raised, with the record's tag, and nothing
is done. That the number of the bundle names the issue slot, whose last-page register a lane uses, is the model's choice
(log 20), and so is the order of a lane's checks after EA where R164 gives none (log 23). -/
def Obligations.MemoryAccessesIssue : Prop :=
  -- an index, made valid
  (∀ (k : Int) (e m : Nat),
    (0 ≤ k ∧ k < e → fixIdx k e m = .ok (some k)) ∧
    (¬(0 ≤ k ∧ k < e) →
      (m = 0 ∨ (e = 0 ∧ m ≠ 1) → fixIdx k e m = .error { cause := 0x06, info := lowBits 64 k }) ∧
      (m = 1 → fixIdx k e m = .ok none) ∧
      (0 < e → m = 2 → fixIdx k e m = .ok (some (if k < 0 then 0 else (e : Int) - 1))) ∧
      (0 < e → m = 3 → ∃ n c : Int, 0 ≤ n ∧ n < e ∧ k = n + c * e ∧ fixIdx k e m = .ok (some n)))) ∧
  -- the address and its checks
  (∀ (x : Lane) (r : Rec) (a : Reg) (off : Int) (sz : Nat) (writes : Bool) (kind : Nat),
    let i : Int := x.rd a 32 + off
    let j : Int := if r.ext1 = 0 then 0
      else if a.toNat < 192 then (x.v (a.toNat + 1) : Nat) else (x.s (a.toNat - 192) / 2 ^ 32 : Nat)
    let first := fixIdx i r.ext0 r.bnd
    let second := fixIdx j (if r.ext1 = 0 then 1 else r.ext1) r.bnd
    let gives (o : Except Flt (Option Nat)) : Prop := ea x r a off sz writes kind = o
    (r.ext1 ≠ 0 → a = 191 → gives (.error { cause := 0x07 })) ∧
    (r.ext1 = 0 ∨ a ≠ 191 →
      (∀ f, first = .error f → gives (.error f)) ∧
      (∀ p f, first = .ok p → second = .error f → gives (.error f)) ∧
      (∀ p q, first = .ok p → second = .ok q → p = none ∨ q = none → gives (.ok none)) ∧
      (∀ p q : Int, first = .ok (some p) → second = .ok (some q) →
        let addr : Int := r.base + p * r.stride0 + q * r.stride1
        let info := lowBits 64 addr
        let far : Prop := addr < 0 ∨ (2 : Int) ^ 57 < addr + sz
        (r.spc = true → fmtW r.fmt < sz → gives (.error { cause := 0x06, info := info })) ∧
        (r.spc = false → far → gives (.error { cause := 0x09, info := info, kind := kind })) ∧
        ((r.spc = true → sz ≤ fmtW r.fmt) → (r.spc = false → ¬far) →
          (addr % sz ≠ 0 → gives (.error { cause := 0x08, info := info })) ∧
          (addr % sz = 0 → r.ro = true → writes = true → gives (.error { cause := 0x0A, info := info, kind := kind })) ∧
          (addr % sz = 0 → r.ro = false ∨ writes = false → gives (.ok (some addr.toNat))))))) ∧
  -- the target: EA, then translation and the checks after it
  (∀ (s : State) (x : Lane) (r : Rec) (a : Reg) (off : Int) (sz : Nat) (m : AMode) (aop : Option Nat) (no : Nat),
    let from_ := ea x r a off sz m.writes m.kind
    let gives (o : Except Flt Tgt) (t : State) : Prop := target s x r a off sz m aop no = (o, t)
    let faults (f : Flt) (t : State) : Prop := gives (.error { f with tag := r.tag }) t
    (∀ f, from_ = .error f → faults f s) ∧
    (from_ = .ok none → gives (.ok .drop) s) ∧
    (∀ addr, from_ = .ok (some addr) → r.spc = true →
      (∀ f, scratchChecks s x r addr sz m no = some f → faults f s) ∧
      (scratchChecks s x r addr sz m no = none →
        (∀ f, scratchEcc x.b addr sz m = some f → faults f s) ∧
        (scratchEcc x.b addr sz m = none → gives (.ok (.at_ (.scratch x.b.uid) addr addr)) (if m.kind = 1 then s else
          correctErrs s x.b (curOp s) (curPc s) x.t.gang x.t.lane (errsAt x.b (scratchWord addr sz) false))))) ∧
    (∀ addr, from_ = .ok (some addr) → r.spc = false →
      let w := translate s (.lane x.b.core (s.cur % 4) x.t.lane) x.b.ctx x.b.kernel m.kind addr
        (partyOf x.b (curOp s) (curPc s) x.t.gang x.t.lane addr)
      (w.1 = .page → faults { cause := 0x09, info := addr % 2 ^ 57, kind := m.kind } w.2) ∧
      (w.1 = .perm → faults { cause := 0x0A, info := addr % 2 ^ 57, kind := m.kind } w.2) ∧
      (∀ pa, w.1 = .poison pa → faults (lineFlt w.2 pa 1 0 3) w.2) ∧
      (∀ pa, w.1 = .ok pa →
        (∀ f, globalChecks w.2 x r pa addr sz m aop = some f → faults f w.2) ∧
        (globalChecks w.2 x r pa addr sz m aop = none → gives (.ok (.at_ .glob pa addr)) w.2)))) ∧
  (∀ s x writes (f : State → Lane → Except Flt Tgt × State),
    let from_ := settleFences s x.t.blk x.t.gang x.t.lane writes
    (∀ e t, f from_ x = (.error e, t) → targets s [x] writes f = ([⟨x.t.gang, x.t.lane, e⟩], [], t)) ∧
    (∀ g t, f from_ x = (.ok g, t) → targets s [x] writes f = ([], [(x, g)], t))) ∧
  -- the instructions
  (∀ k (ord : BitVec 2) scope size d a (bq : BitVec 5) cp (off : BitVec 17),
    let m : AMode := { kind := 0, writes := false, plain := ord = 0, cas := none }
    let found (j : Iss) (s : State) := targets s j.cmd false
      (fun s x => target s x (Rec.of (j.b.recOf bq.toNat)) a (sx 17 off.toNat) (accBytes size) m none j.no)
    let src (s : State) := idxSrc s bq a
    DoesAt (.ld k ord scope size d a bq cp off) 0x70 k src [⟨d, regsOf (accBytes size)⟩] [] (fun j s => (found j s).1 = [])
      (fun j s => (found j s).2.1.foldl (ldLane j (Rec.of (j.b.recOf bq.toNat)) m ord scope (accBytes size) d)
        (found j s).2.2) ∧
    TrapsAt (.ld k ord scope size d a bq cp off) 0x70 k src [⟨d, regsOf (accBytes size)⟩] []
      (fun j s => ((found j s).1, (found j s).2.2))) ∧
  (∀ k (ord : BitVec 2) scope size d a (bq : BitVec 5) cp (off : BitVec 17),
    let m : AMode := { kind := 1, writes := true, plain := ord = 0, cas := none }
    let found (j : Iss) (s : State) := targets s j.cmd true
      (fun s x => target s x (Rec.of (j.b.recOf bq.toNat)) a (sx 17 off.toNat) (accBytes size) m none j.no)
    let src (s : State) := ⟨d, regsOf (accBytes size)⟩ :: idxSrc s bq a
    DoesAt (.st k ord scope size d a bq cp off) 0x71 k src [] [] (fun j s => (found j s).1 = [])
      (fun j s => (found j s).2.1.foldl (stLane j (Rec.of (j.b.recOf bq.toNat)) m ord scope size d) (found j s).2.2) ∧
    TrapsAt (.st k ord scope size d a bq cp off) 0x71 k src [] [] (fun j s => ((found j s).1, (found j s).2.2))) ∧
  (∀ k ord scope size d a (bq : BitVec 5) (aop : BitVec 4) (off : BitVec 15),
    let m : AMode := { kind := 2, writes := true, plain := false, cas := none }
    let found (j : Iss) (s : State) := targets s j.cmd true
      (fun s x => target s x (Rec.of (j.b.recOf bq.toNat)) a (sx 15 off.toNat) (accBytes size) m (some aop.toNat) j.no)
    let src (s : State) := ⟨d, regsOf (accBytes size)⟩ :: idxSrc s bq a
    let does (i : Instr) (op : Nat) (dst : List RG) (ret : Bool) : Prop :=
      DoesAt i op k src dst [] (fun j s => (found j s).1 = [])
        (fun j s => (found j s).2.1.foldl (atomLane j (Rec.of (j.b.recOf bq.toNat)) m ord scope size d aop ret)
          (atomIrrevocable (found j s).2.2 (Rec.of (j.b.recOf bq.toNat)) (found j s).2.1 j.b.uid)) ∧
      TrapsAt i op k src dst [] (fun j s => ((found j s).1, (found j s).2.2))
    does (.atom k ord scope size d a bq aop off) 0x72 [⟨d, regsOf (accBytes size)⟩] true ∧
    does (.atomn k ord scope size d a bq aop off) 0x73 [] false) ∧
  (∀ k (ord : BitVec 2) scope size d a (bq : BitVec 5) cp (off : BitVec 17),
    let found (j : Iss) (s : State) := targets s j.cmd true
      (fun s x => target s x (Rec.of (j.b.recOf bq.toNat)) a (sx 17 off.toNat) (accBytes size) (casMode d (accBytes size) x)
        none j.no)
    let src (s : State) := ⟨d, 2 * regsOf (accBytes size)⟩ :: idxSrc s bq a
    DoesAt (.cas k ord scope size d a bq cp off) 0x74 k src [⟨d, regsOf (accBytes size)⟩] [] (fun j s => (found j s).1 = [])
      (fun j s => (found j s).2.1.foldl (casLane j (Rec.of (j.b.recOf bq.toNat)) ord scope size d)
        (atomIrrevocable (found j s).2.2 (Rec.of (j.b.recOf bq.toNat)) (found j s).2.1 j.b.uid)) ∧
    TrapsAt (.cas k ord scope size d a bq cp off) 0x74 k src [⟨d, regsOf (accBytes size)⟩] []
      (fun j s => ((found j s).1, (found j s).2.2)))

/-- The entries of an access that is not race-checked (08 R164, R170; 09 R192-R196): a load waits for the value at its target
and goes to d; a store holds the little-endian bytes of d; an atomic holds its operation and operand, a CAS its compare and
its new value. Each is one entry at the end of the order of issue, a load or store of 128 bits two entries of 64. A write
that is a release, by its own order or by a fence before it, counts as one, and its entry keeps the scope. -/
def Obligations.AccessEntries : Prop :=
  ∀ (j : Iss) (r : Rec) (m : AMode) (x : Lane) (sp : Space) (addr va : Nat) (s : State) (scope size : BitVec 3)
    (ord : BitVec 2) (d : Reg), isChecked j.b r = false →
    let n := accBytes size
    let add (s : State) (e : OCls × OOp × Bool × Bool) : State :=
      { s with
        nextId := s.nextId + 1,
        outst := s.outst ++ [⟨s.nextId, j.no, x.t.blk, x.t.gang, x.t.lane, e.1, e.2.1, e.2.2.1, e.2.2.2, 0⟩] }
    let info (h : Nat) (covers : Option Nat) : StoreInfo :=
      { va := BitVec.ofNat 64 (va + 8 * h), pc := j.pc, op := j.op, tag := BitVec.ofNat 16 r.tag, size := Nat.log2 n,
        mark := none, no := j.no, scope := covers }
    let first := decide (d.toNat < 192) || firstOfGang j.cmd x
    let rel := relScope s x (relOrd ord scope)
    let released (s : State) : State := noteRelease s x rel
    let acq : Bool := ord = 1 || ord = 3
    (m.kind = 0 → ldLane j r m ord scope n d s (x, .at_ sp addr va) =
      noteRead (((halves addr n).map fun h =>
        (.ld, .load sp h.1 h.2.1 none (halfReg d h.2.2) (if first then h.2.1 else 0) (info h.2.2 none), false, ord != 0)).foldl add s)
      x []) ∧
    (m.kind = 1 → stLane j r m ord scope size d s (x, .at_ sp addr va) =
      ((halves addr n).map fun h => (.st, .store sp h.1 (((leBytes n (x.rd d (8 * n))).drop (8 * h.2.2)).take h.2.1)
        (info h.2.2 rel), ord != 0, false)).foldl add (released s)) ∧
    (∀ (aop : BitVec 4) (ret : Bool), m.kind = 2 → atomLane j r m ord scope size d aop ret s (x, .at_ sp addr va) =
      noteRead (add (released s)
        (.at_, .atom sp addr n aop.toNat (BitVec.ofNat 64 (x.rd d (8 * n))) (ret && first) d (info 0 rel),
         decide (2 ≤ ord.toNat), acq)) x []) ∧
    (casLane j r ord scope size d s (x, .at_ sp addr va) =
      noteRead (add (if (casMode d n x).tagWrites s x.t.blk sp addr n then released s else s)
        (.at_, .cas sp addr n (BitVec.ofNat 128 (casGroup x d n).1) (BitVec.ofNat 128 (casGroup x d n).2) first d
          (info 0 (if (casMode d n x).tagWrites s x.t.blk sp addr n then rel else none)),
         decide (2 ≤ ord.toNat), acq)) x [])

/-- A dropped access (08 R164, R165 with bnd = drop): a load, an atomic with a result and a CAS return 0 (a 32-bit CAS of
an s register in its low half) by one outstanding entry; a store and an atomic without a result are complete at once. A
dropped release still orders the thread's accesses and counts. -/
def Obligations.DroppedAccesses : Prop :=
  ∀ (j : Iss) (r : Rec) (m : AMode) (x : Lane) (s : State) (scope size : BitVec 3) (n : Nat) (ord : BitVec 2) (d : Reg),
    let add (cls : OCls) (op : OOp) (s : State) : State :=
      { s with
        nextId := s.nextId + 1,
        outst := s.outst ++ [⟨s.nextId, j.no, x.t.blk, x.t.gang, x.t.lane, cls, op, false, false, 0⟩] }
    let first := decide (d.toNat < 192) || firstOfGang j.cmd x
    let ordered (s : State) : State := if 2 ≤ ord.toNat then dropRelease s j.no x else s
    (ldLane j r m ord scope n d s (x, .drop) = add .ld (.load .glob 0 0 (some 0) d (if first then n else 0) StoreInfo.none) s) ∧
    (ord = 0 → stLane j r m ord scope size d s (x, .drop) = s) ∧
    (2 ≤ ord.toNat → stLane j r m ord scope size d s (x, .drop) = dropRelease s j.no x) ∧
    (∀ aop : BitVec 4, atomLane j r m ord scope size d aop true s (x, .drop) =
      add .at_ (.load .glob 0 0 (some 0) d (if first then accBytes size else 0) StoreInfo.none) (ordered s)) ∧
    (∀ aop : BitVec 4, atomLane j r m ord scope size d aop false s (x, .drop) = ordered s) ∧
    (casLane j r ord scope size d s (x, .drop) =
      add .at_ (if accBytes size = 4 ∧ 192 ≤ d.toNat ∧ first then .half 0 d
                else .load .glob 0 0 (some 0) d (if first then accBytes size else 0) StoreInfo.none) (ordered s))

/-- FENCE, SCFENCE, BSET, BGET and PREF (08 R174, R182; 09 R197-R199): a fence of each commanding lane; SCFENCE ends the
revocable interval and each lane waits, for the next tick once its core's accesses are performed; BSET writes the record
that the lowest active lane's quad holds, where no check rejects it and no error is in the quad; BGET writes the record to
the quad of each gang; PREF may bring in a translation and changes nothing else. -/
def Obligations.FencesAndRecords : Prop :=
  (∀ k (ord : BitVec 2) (scope : BitVec 3), Does (.fence k ord scope) 0x75 k [] [] fun j s =>
    j.cmd.foldl (fun s x => fenceThread s j.no x scope.toNat (decide (2 ≤ ord.toNat)) (ord = 1 || ord = 3)) s) ∧
  (∀ k (scope : BitVec 3), Does (.scfence k scope) 0x76 k [] [] fun j s =>
    if j.act.isEmpty then s
    else markScfence (j.cmd.foldl (fun s x => modThread (fenceThread s j.no x scope.toNat true true)
      x.t.blk x.t.gang x.t.lane (fun t => { t with wait := .scfence none })) (irrevocable s j.b.uid))) ∧
  (∀ k d a,
    DoesWhen (.bset k d a) 0x77 k [] []
      (fun j _ => ∀ x, j.act.head? = some x → recReason j.b.ssize (Rec.of (quadRec x a)) = none ∧
        (meets j.b k x [⟨a, 8⟩] true).none = true)
      (fun j s => match j.act.head? with
        | some x => healErrs (modBlock (correctMet s j.b k j.op j.pc [x] [⟨a, 8⟩]) j.b.uid
            (fun b => { b with recs := Sparse.set 0 b.recs d.toNat (quadRec x a) })) j.b.uid (· == .record d.toNat)
        | none => s)) ∧
  (∀ k d a, Does (.bget k d a) 0x78 k [rRec a.toNat] [] fun j s => (firstLanes j.act).foldl (fun s x =>
    putReg (putReg s x.t.blk x.t.gang x.t.lane d 128 ((j.b.recOf a.toNat).toNat % 2 ^ 128))
      x.t.blk x.t.gang x.t.lane (d + 2) 128 ((j.b.recOf a.toNat).toNat / 2 ^ 128)) s) ∧
  (∀ k (size : BitVec 3) a (bq : BitVec 5) cp (off : BitVec 17),
    DoesAt (.pref k size a bq cp off) 0x79 k (fun s => idxSrc s bq a) [] [] (fun _ _ => True) fun j s =>
      j.cmd.foldl (prefLane (Rec.of (j.b.recOf bq.toNat)) a off (accBytes size)) s)

/-- The barrier instructions (12 R263-R269; 21 R377): where each commanding lane's reference passes its checks and no
object refuses, the effect below is performed on the objects named, in ascending lane position; with g = 1 the issue is
an irrevocable event. BINIT types its object anew, BJOIN and BDROP change the participants, BARR arrives, BWAIT waits for
phase b, BARW arrives and waits for the phase it counted toward, BINV untypes, BQRY reads a word, at a group barrier after
what the thread's fences order before it (08 R174). Which free hardware slot BINIT takes is the model's choice (log 23). -/
def Obligations.BarrierInstructions : Prop :=
  let does (i : Instr) (op : Nat) (k : Ctl) (g : Bool) (src : List RG) (d a : Reg)
      (bad : State → Lane → BarRef → W64 → Option Flt) (eff : Iss → State → List (Lane × BarRef × W64) → State) : Prop :=
    DoesWhen i op k ((if g then r64 a else r32 a) :: src) [r32 d]
      (fun j s => (barRefs s j.cmd g a).1 = [] ∧
        ∀ r ∈ (barRefs s j.cmd g a).2.1, bad (barRefs s j.cmd g a).2.2 r.1 r.2.1 r.2.2 = none)
      (fun j s =>
        let f := barRefs s j.cmd g a
        eff j (if g && !f.2.1.isEmpty then irrevocable f.2.2 j.b.uid else f.2.2) f.2.1)
  let typed (s : State) (_ : Lane) (r : BarRef) (n : W64) : Option Flt :=
    if (getBar s r).isSome then none else some (barFlt n 3)
  (∀ k g d a b c, does (.binit k g d a b c) 0x90 k g [r32 b, r32 c] d a
    (fun s _ r n => match getBar s r with
      | some o => if o.waiters = 0 then none else some (barFlt n 2)
      | none => none)
    (fun j s rs => rs.foldl (fun s r =>
      let q := initBar (syncRelease s r.1) r.1 r.2.1 (r.1.rd b 32) (r.1.rd c 32)
      syncResult q.2 j.cmd r.1 d q.1) s)) ∧
  (∀ k g d a, does (.bjoin k g d a) 0x91 k g [] d a
    (fun s x r n => match typed s x r n with
      | some f => some f
      | none => if 8 ≤ x.t.joins.length ∧ !x.t.joined r then some (barFlt n 4) else none)
    (fun j s rs => rs.foldl (fun s r =>
      if r.1.t.joined r.2.1 then syncResult s j.cmd r.1 d 1
      else
        let join (t : Thread) : Thread := { t with joins := t.joins ++ [⟨r.2.1, r.2.2⟩] }
        let s := modThread s r.1.t.blk r.1.t.gang r.1.t.lane join
        let s := if r.1.b.protectd then modThread s r.1.t.blk r.1.t.gang (r.1.t.lane + 1) join else s
        syncResult (modBar s r.2.1 (fun b => { b with parts := b.parts + 1 })) j.cmd r.1 d 0) s)) ∧
  (∀ k g d a, does (.barr k g d a) 0x92 k g [] d a typed
    (fun j s rs => arriveAll s rs (fun s x _ n => syncResult s j.cmd x d n.toNat))) ∧
  (∀ k g d a b, does (.bwait k g d a b) 0x93 k g [r32 b] d a typed
    (fun j s rs => (byObject rs).foldl (fun s g =>
      wakeBar (g.2.foldl (fun s x => enterBarWait s x g.1 (BitVec.ofNat 32 (x.rd b 32)) (keptDst j.cmd x d)) s) g.1) s)) ∧
  (∀ k g d a, does (.barw k g d a) 0x94 k g [] d a typed
    (fun j s rs => arriveAll s rs (fun s x r n => enterBarWait s x r n (keptDst j.cmd x d)))) ∧
  (∀ k g d a, does (.bdrop k g d a) 0x95 k g [] d a typed
    (fun j s rs => rs.foldl (fun s r =>
      if r.1.t.joined r.2.1 then
        let s := syncRelease s r.1
        let s := if r.1.b.protectd then modThread s r.1.t.blk r.1.t.gang (r.1.t.lane + 1)
            (fun t => { t with joins := t.joins.filter (fun j => j.ref != r.2.1) }) else s
        syncResult (dropJoin s r.1.t r.2.1) j.cmd r.1 d 0
      else syncResult s j.cmd r.1 d 1) s)) ∧
  (∀ k g d a, does (.binv k g d a) 0x96 k g [] d a (fun _ _ _ _ => none)
    (fun j s rs => rs.foldl (fun s r =>
      match getBar s r.2.1 with
      | some b => syncResult (invalidate (syncRelease s r.1) b) j.cmd r.1 d 0
      | none => syncResult s j.cmd r.1 d 1) s)) ∧
  (∀ k g d a x, does (.bqry k g d a x) 0x97 k g [] d a typed
    (fun j s rs => rs.foldl (fun s r =>
      let s := if g then settleFences s r.1.t.blk r.1.t.gang r.1.t.lane false else s
      match getBar s r.2.1 with
      | some b => syncResult s j.cmd r.1 d (b.word x.toNat)
      | none => s) s))

/-- The stage rings (12 R270-R274): RGINIT makes a ring or gives the code of the first failing test, or frees one;
SLACQ and SLTAK give every active thread the slot that its gang gets, the code of no ring or of none to be had, or make
the issue wait; SLFIL sets what each slot waits for; SLREL, once nothing reads a slot, frees it and turns its phase. Which
free descriptor RGINIT takes, and which of several counts of SLFILs for one slot stands, are the model's choices (log 23). -/
def Obligations.RingInstructions : Prop :=
  let take (i : Instr) (op : Nat) (fill : Bool) (k : Ctl) (nb : Bool) (d a : Reg) : Prop :=
    Does i op k [r32 a] [r32 d] fun j s =>
      match j.cmd.head? with
      | none => s
      | some x =>
        let all (v : Nat) (s : State) : State := j.cmd.foldl (fun s y => syncResult s j.cmd y d v) s
        match blockRing s x.b (x.rd a 32) with
        | none => all (2 ^ 31 + 2) s
        | some r =>
          match (if r.busy fill then none else grantSlot r x.t.gang fill (fresh s).1) with
          | some q => all q.1 (modRing (fresh s).2 r.core (x.rd a 32) (fun _ => q.2))
          | none =>
            if nb then all (2 ^ 31 + 1) (fresh s).2
            else j.cmd.foldl (fun s y => modThread s y.t.blk y.t.gang y.t.lane
                (fun t => { t with wait := .ring (x.rd a 32) fill j.no d }))
              (modRing (fresh s).2 r.core (x.rd a 32)
                (fun q => { q with queue := q.queue ++ [⟨x.t.gang, fill, j.no, none⟩] }))
  (∀ k d a, Does (.rginit k d a) 0x98 k [r64 a] [r32 d] fun j s => j.cmd.foldl (fun s x =>
    syncResult (initRing s x.b (x.rd a 64)).2 j.cmd x d (initRing s x.b (x.rd a 64)).1) s) ∧
  (∀ k d a, Does (.rginitFree k d a) 0x98 k [r32 a] [r32 d] fun j s => j.cmd.foldl (fun s x =>
    match blockRing s x.b (x.rd a 32) with
    | none => syncResult s j.cmd x d (2 ^ 31 + 6)
    | some r =>
      if r.slots.any (fun q => q.st != .free) || ringWaiter s x.b.uid (x.rd a 32) then syncResult s j.cmd x d (2 ^ 31 + 5)
      else syncResult (dropRing s r.core (x.rd a 32)) j.cmd x d 0) s) ∧
  (∀ k nb d a, take (.slacq k nb d a) 0x99 true k nb d a) ∧
  (∀ k nb d a, take (.sltak k nb d a) 0x9B false k nb d a) ∧
  (∀ k a b c, DoesWhen (.slfil k a b c) 0x9A k [r32 a, r32 b, r32 c] []
    (fun j s => ∀ x ∈ j.cmd, slotHeld s x (x.rd a 32) (x.rd b 32 % 64) .filling = true)
    (fun j s => j.cmd.foldl (fun s x =>
      settleSlot (modRing (syncRelease s x) x.b.core (x.rd a 32) (fun r => modSlot r (x.rd b 32 % 64)
        (fun q => if q.want.isSome then q else { q with want := some (x.rd c 32) })))
        x.b.core (x.rd a 32) (x.rd b 32 % 64)) s)) ∧
  (∀ k a b, DoesWhen (.slrel k a b) 0x9C k [r32 a, r32 b] []
    (fun j s => (∀ x ∈ j.cmd, slotHeld s x (x.rd a 32) (x.rd b 32 % 64) .taken = true) ∧
      ∀ x ∈ j.cmd, ∀ r, blockRing s x.b (x.rd a 32) = some r → slotRead s r (x.rd b 32 % 64) = false)
    (fun j s => j.cmd.foldl (fun s x =>
      let s := syncRelease s x
      if slotHeld s x (x.rd a 32) (x.rd b 32 % 64) .taken then
        unstall (serveRing (modRing s x.b.core (x.rd a 32) (fun r => modSlot r (x.rd b 32 % 64)
          (fun q => { q with st := .free, owner := 0, phase := !q.phase, counted := 0 }))) x.b.core (x.rd a 32))
      else s) s))

/-- CPY, CPYG, CPYS and CPYF (14 R277-R282): where the command of each active thread passes the checks of R281, each is
accepted in ascending lane position, and a thread whose command finds no free entry in the core's queue waits for one. -/
def Obligations.CopiesAreAccepted : Prop :=
  let copy (i : Instr) (op : Nat) (k : Ctl) (dk : BitVec 3) (d a b c : Reg) (x : BitVec 8) : Prop :=
    DoesAt i op k (fun s => copySrc s op dk.toNat d a b c x) [] []
      (fun j s => ∀ l ∈ j.cmd, copyCheck s j l (copyOf s j l d a b c x).1 (copyOf s j l d a b c x).2 a b = none)
      (fun j s =>
        let cs := j.cmd.map fun l => (l, copyOf s j l d a b c x)
        pollAccept (cs.foldl (fun s q => modThread s q.1.t.blk q.1.t.gang q.1.t.lane (fun t => { t with wait := .accept }))
          (cs.foldl (fun s q => acceptCopy s j q.1 q.2.1 q.2.2) s)))
  (∀ k dk ad bc d a b c x, copy (.cpy k dk ad bc d a b c x) 0xA0 k dk d a b c x) ∧
  (∀ k dk ad bc d a b c x, copy (.cpyg k dk ad bc d a b c x) 0xA1 k dk d a b c x) ∧
  (∀ k dk ad bc d a b c x, copy (.cpys k dk ad bc d a b c x) 0xA2 k dk d a b c x) ∧
  (∀ k dk ad bc d a b c x, copy (.cpyf k dk ad bc d a b c x) 0xA3 k dk d a b c x)

/-- CSEAL, CWAIT and CPOLL (14 R287-R289): while a thread has room for one more batch, CSEAL puts its open commands in the
next batch and replies with its number; CWAIT waits for the batches up to a; CPOLL replies with the number of the last
batch before the first that is not complete, and whether one of them had an error. -/
def Obligations.CopyBatches : Prop :=
  let keep (j : Iss) (x : Lane) (d : Reg) : Nat := if d.toNat < 192 || firstOfGang j.cmd x then 32 else 0
  (∀ k d, DoesWhen (.cseal k d) 0xA4 k [] [r32 d]
    (fun j s => ∀ x ∈ j.cmd, (x.t.sealed.filter (fun b => !batchDone s x.t b)).length < 255)
    (fun j s => j.cmd.foldl (fun s x =>
      let n := x.t.batch + 1
      let s := { s with copies := updWhere s.copies (fun c => c.ofThread x.t && c.batch == none)
                                    (fun c => { c with batch := some n }) }
      let s := modThread s x.t.blk x.t.gang x.t.lane (fun t =>
        let t := { t with batch := n, openErr := false, sealed := t.sealed ++ [Batch.mk n t.openErr] }
        { t with sealed := pruneBatches s t })
      addReply s j.no x .cp d (keep j x d) n.toNat none) s)) ∧
  (∀ k d a, Does (.cwait k d a) 0xA5 k [r32 a] [r32 d] fun j s => j.cmd.foldl (fun s x =>
    pollCwait (modThread s x.t.blk x.t.gang x.t.lane (fun t =>
        { t with wait := .cwait (BitVec.ofNat 16 (x.rd a 32)) (keptDst j.cmd x d) }))
      x.t.blk x.t.gang x.t.lane) s) ∧
  (∀ k d, Does (.cpoll k d) 0xA6 k [] [r32 d] fun j s => j.cmd.foldl (fun s x =>
    let before := x.t.sealed.takeWhile (batchDone s x.t)
    let rest := x.t.sealed.drop before.length
    let m := match rest with | b :: _ => b.num - 1 | [] => x.t.batch
    addReply (modThread s x.t.blk x.t.gang x.t.lane (fun t => { t with sealed := rest })) j.no x .cp d (keep j x d)
      (m.toNat + 2 ^ 16 * b2n (before.any Batch.err)) none) s)

/-- MCLAIM and MREL (15 R303; 21 R377): an irrevocable event. MCLAIM gives a code for a run out of range, for a unit that
the block already holds and, with nb = 1, for units that are not free; else it holds the run, all zero, and gives 0, or
waits. MREL, with no accepted operation or copy at a unit of the run, gives a code for a run out of range, for a unit not
held and for a unit of a ring; else it releases the run and serves the waiting claims.
MBATON and MPASS (15 R304, R305): MBATON gives the baton to each gang with an active thread where it is free, 1 to the
gang that has it, and queues the others; MPASS of the gang that has the baton is a release, and passes it to the queue, or
to the gang that a names, or gives a code where there is no such gang. That a waiting MCLAIM whose units its block has come
to hold meanwhile ends with the code for held units is the model's choice (log 23). -/
def Obligations.MatrixUnitsAndBaton : Prop :=
  (∀ k (kd : BitVec 2) nb d a b, Does (.mclaim k kd nb d a b) 0xA8 k [r32 a, r32 b] [r32 d] fun j s =>
    match j.cmd.head? with
    | none => s
    | some x =>
      let s := irrevocable s j.b.uid
      if x.rd b 32 = 0 ∨ unitLimit j.b kd.toNat < x.rd a 32 + x.rd b 32 then mtxResult s j d (2 ^ 31 + 3)
      else if (List.range (x.rd b 32)).any (fun n => unitHeld s j.b.uid kd.toNat (x.rd a 32 + n)) then
        mtxResult s j d (2 ^ 31 + 2)
      else if kd.toNat = 0 ∨ x.rd b 32 ≤ unitsFree s j.b.core kd.toNat then
        mtxResult (holdUnits s j.b.uid kd.toNat (x.rd a 32) (x.rd b 32)) j d 0
      else if nb then mtxResult s j d (2 ^ 31 + 1)
      else j.cmd.foldl (fun s y => modThread s y.t.blk y.t.gang y.t.lane
        (fun t => { t with wait := .mclaim kd.toNat (x.rd a 32) (x.rd b 32) j.no d })) s) ∧
  (∀ k (kd : BitVec 2) d a b, DoesWhen (.mrel k kd d a b) 0xA9 k [r32 a, r32 b] [r32 d]
    (fun j s => ∀ x, j.cmd.head? = some x → ∀ n, n < x.rd b 32 →
      unitBusy (irrevocable s j.b.uid) j.b.uid kd.toNat (x.rd a 32 + n) = false)
    fun j s =>
    match j.cmd.head? with
    | none => s
    | some x =>
      let s := irrevocable s j.b.uid
      if x.rd b 32 = 0 ∨ unitLimit j.b kd.toNat < x.rd a 32 + x.rd b 32 then mtxResult s j d (2 ^ 31 + 3)
      else if (List.range (x.rd b 32)).any (fun n => !unitHeld s j.b.uid kd.toNat (x.rd a 32 + n)) then
        mtxResult s j d (2 ^ 31 + 2)
      else if kd.toNat == 0 && s.rings.any (fun r => r.blk == j.b.uid && r.kind == 1 &&
          decide (r.base < x.rd a 32 + x.rd b 32) && decide (x.rd a 32 < r.base + r.slots.length)) then
        mtxResult s j d (2 ^ 31 + 4)
      else mtxResult (serveMclaims (dropUnits s j.b.uid kd.toNat (x.rd a 32) (x.rd b 32)) j.b.core) j d 0) ∧
  (∀ k d, Does (.mbaton k d) 0xAA k [] [r32 d] fun j s => (firstLanes j.cmd).foldl (fun s x =>
    let ts := j.cmd.filter (fun y => y.t.gang == x.t.gang)
    let give (s : State) (v : Nat) : State := ts.foldl (fun s y => syncResult s j.cmd y d v) s
    let b := getBaton s j.b.core
    if b.holder.isNone then give (setBaton s { b with holder := some (x.t.blk, x.t.gang) }) 0
    else if b.holder = some (x.t.blk, x.t.gang) then give s 1
    else ts.foldl (fun s y => modThread s y.t.blk y.t.gang y.t.lane (fun t => { t with wait := .baton d }))
      (setBaton s { b with queue :=
        if b.queue.contains (x.t.blk, x.t.gang) then b.queue else b.queue ++ [(x.t.blk, x.t.gang)] })) s) ∧
  (∀ k d a, DoesWhen (.mpass k d a) 0xAB k [r32 a] [r32 d]
    (fun j s => ∀ x, j.cmd.head? = some x → (getBaton s x.b.core).holder = some (x.t.blk, x.t.gang))
    fun j s => match j.cmd.head? with
    | none => s
    | some x =>
      let s := syncRelease s x
      let b := getBaton s j.b.core
      if x.rd a 32 = 0xFFFFFFFF then
        let out := match b.queue with | (q, _) :: _ => q != j.b.uid | [] => false
        mtxResult (passBaton (if out then irrevocable s j.b.uid else s) j.b.core) j d (if b.queue.isEmpty then 1 else 0)
      else if (getGang s j.b.uid (x.rd a 32)).isSome then mtxResult (giveBaton s j.b.core j.b.uid (x.rd a 32)) j d 0
      else mtxResult s j d (2 ^ 31 + 1))

/-- The matrix instructions that queue an operation (15 R297-R302, R307, R312, R316, R317): where the units that they name
are held, the checks pass and no register that they read holds an error, MZERO sets the kind of the accumulator; each MMA
queues one small operation for each active quarter whose gang has the baton, while the core's queue has room for 64; MDRAIN
and MRD queue a drain and a read, and MSYNC a wait for the operations before it, whose end every active thread has
outstanding. What a killed block's thread issues before its kill point is abandoned (15 R318). -/
def Obligations.MatrixOperationsQueue : Prop :=
  let smalls (s : State) (core : Nat) : Nat :=
    (s.mops.filter (fun m => m.core == core && mopHere s m && m.kind.isSmall)).length
  let mmaDoes (i : Instr) (op : Nat) (f : Fmt) (k : Ctl) (sc rk tr : Bool) (mt : BitVec 3) (a b c : Reg)
      (x : BitVec 8) : Prop :=
    DoesWhen i op k [r32 a] []
      (fun j s => (∀ q ∈ quarterLanes j.cmd, hasBaton s q.2 = true ∧ mmaCheck s j f mt.toNat (q.2.rd a 32) = none) ∧
        (sc = true → (∀ l ∈ j.all, outOfRange l.g ⟨c, 64⟩ = false) ∧
          (j.b.protectd = true → pairFaults j.all always op [⟨c, 64⟩] = [])) ∧
        (∀ r ∈ mmaReads j sc rk tr mt b c x, ∀ dbl, (meets j.b always r.1 r.2 dbl).none = true) ∧
        smalls s j.b.core + (quarterLanes j.cmd).length ≤ 64)
      (fun j s => (quarterLanes j.cmd).foldl (fun s q =>
        let w := q.2.rd a 32
        let sreg (r : Nat) : W64 := BitVec.ofNat 64 (q.2.s (r - 192))
        (addMop s q.2 j.pc (.small
          { fmt := f, aslot := natBits w 0 6, bslot := natBits w 8 6, acc := natBits w 16 4,
            rows := if rk then some (sreg b.toNat) else none, tri := tr, mt := mt.toNat,
            s1 := if tr || mt != 0 then sreg x.toNat else 0, s2 := if tr || mt != 0 then sreg (x.toNat + 1) else 0,
            scales := if sc then some (quarterScales j c q.1) else none, flip := false })).2) s)
  let outAll (j : Iss) (op : OOp) (s : State) : State :=
    if isKilled s j.b.uid then s else j.cmd.foldl (fun s y => (addOutst s j.no y .mx op false false).2) s
  (∀ s x pc kd, addMop s x pc kd = (s.nextId, { s with
    nextId := s.nextId + 1,
    mops := if isKilled s x.t.blk then s.mops
      else s.mops ++ [⟨s.nextId, x.b.core, x.t.blk, x.t.gang, x.t.lane, pc, true, kd⟩] })) ∧
  (∀ k ik d, DoesWhen (.mzero k ik d) 0xAC k [] []
    (fun j s => (getAcc s j.b.uid d.toNat).isSome = true)
    (fun j s => match j.cmd.head? with
      | none => s
      | some x => settleMtx (addMop (modAcc s j.b.uid d.toNat (fun a => { a with nextInt := ik })) x j.pc
          (.zero d.toNat ik)).2)) ∧
  (∀ k sc rk tr mt a b c x, mmaDoes (.mmaBf16 k sc rk tr mt a b c x) 0xAD .bf16 k sc rk tr mt a b c x) ∧
  (∀ k sc rk tr mt a b c x, mmaDoes (.mmaF16 k sc rk tr mt a b c x) 0xAE .fp16 k sc rk tr mt a b c x) ∧
  (∀ k sc rk tr mt a b c x, mmaDoes (.mmaE4m3 k sc rk tr mt a b c x) 0xAF .e4m3 k sc rk tr mt a b c x) ∧
  (∀ k sc rk tr mt a b c x, mmaDoes (.mmaE5m2 k sc rk tr mt a b c x) 0xB0 .e5m2 k sc rk tr mt a b c x) ∧
  (∀ k sc rk tr mt a b c x, mmaDoes (.mmaE2m1 k sc rk tr mt a b c x) 0xB1 .e2m1 k sc rk tr mt a b c x) ∧
  (∀ k sc rk tr mt a b c x, mmaDoes (.mmaI8 k sc rk tr mt a b c x) 0xB2 .i8 k sc rk tr mt a b c x) ∧
  (∀ k sc rk tr mt a b c x, mmaDoes (.mmaI4 k sc rk tr mt a b c x) 0xB3 .i4 k sc rk tr mt a b c x) ∧
  (∀ k ad rk d a b x, DoesAt (.mdrain k ad rk d a b x) 0xB4 k (fun s => drainSrc s d a) [] []
    (fun j s => ∀ l, j.cmd.head? = some l → drainCheck s l (drainOf j l ad rk d a b x) a = none ∧
      ∀ dbl, (meets j.b k l (if rk then [r64 b] else []) dbl).none = true)
    (fun j s => match j.cmd.head? with
      | none => s
      | some l =>
        let s := if (Rec.of (j.b.recOf d.toNat)).spc then s else irrevocable s j.b.uid
        let m := addMop s l j.pc (.drain (drainOf j l ad rk d a b x))
        outAll j (.matrix m.1 none) m.2)) ∧
  (∀ k d a (x : BitVec 8), DoesWhen (.mrd k d a x) 0xB5 k [r32 a] [r32 d]
    (fun j s => (getAcc s j.b.uid (x.toNat % 16)).isSome = true)
    (fun j s => match j.cmd.head? with
      | none => s
      | some l =>
        let m := addMop s l j.pc (.mrd (x.toNat % 16) j.b.mtol (j.cmd.map fun y =>
          (y.t.gang, y.t.lane, (if d.toNat < 192 || firstOfGang j.cmd y then d else d + 1),
           64 * natBits (y.rd a 32) 8 6 + natBits (y.rd a 32) 0 6)))
        settleMtx (outAll j (.matrix m.1 (some d)) m.2))) ∧
  (∀ k bk, Does (.msync k bk) 0xB7 k [] [] fun j s => match j.cmd.head? with
    | none => s
    | some l =>
      let ids := (s.mops.filter (fun m => m.blk == j.b.uid && (bk || m.gang == l.t.gang) &&
        !m.kind.isSync)).map MOp.id
      if ids.isEmpty then s
      else outAll j (.matrix (addMop s l j.pc (.sync ids)).1 none) (addMop s l j.pc (.sync ids)).2)

/-- MMASK (15 R308; 08 R171, R175): once what its thread has stored to the bytes before is performed, where the tile is
held, the bytes lie in the scratchpad, no check of their reads and no double error there stops them and, for a parent array,
no parent stands at or after its child, the bytes are read and the tile takes the rows: the 64 double words read, or for each node the bits of its ancestors. -/
def Obligations.MaskTilesAreLoaded : Prop :=
  ∀ k pa (d : Reg) a b,
    let len (x : Lane) : Nat := if pa then x.rd b 32 else 512
    let own (x : Lane) (s : State) : State := drainBytes s x.t.blk x.t.gang x.t.lane (.scratch x.t.blk) (x.rd a 32) (len x)
    let bytes (j : Iss) (s : State) (x : Lane) : List Byte := readScratch s j.b.uid (x.rd a 32) (len x)
    DoesWhen (.mmask k pa d a b) 0xB6 k (r32 a :: if pa then [r32 b] else []) []
      (fun j u => ∀ x, j.cmd.head? = some x →
        let s := own x u
        unitHeld s j.b.uid 2 d.toNat = true ∧ maskBounds j x pa a b = false ∧
        (List.range (len x)).findSome? (fun n => scratchChecks s x listRec (x.rd a 32 + n) 1 plainRead j.no) = none ∧
        errsAt j.b (scratchWord (x.rd a 32) (len x)) true = [] ∧
        (pa = true → badParent ((bytes j s x).map BitVec.toNat) (len x) = none))
      (fun j u => match j.cmd.head? with
        | none => u
        | some x =>
          let s := own x u
          let rows := if pa then treeRows ((bytes j s x).map BitVec.toNat)
            else (List.range 64).map (fun m => BitVec.ofNat 64 (leVal (((bytes j s x).drop (8 * m)).take 8)))
          let s := noteMask (readList s j x (x.rd a 32) (len x)) j.b.uid d.toNat
          healErrs { s with masks := updWhere s.masks (fun q => q.blk == j.b.uid && q.num == d.toNat)
                                       (fun q => { q with rows := Sparse.tab 0 rows }) } j.b.uid (· == .mask d.toNat))

/-- TAPIN, TAPW, TAPRM, TREL and TAPSYNC (19 R345, R357-R361): TAPIN, where no check stops it once its thread's own
stores to the record and the row map are performed, is a release and is outstanding with its rows pending; TAPW waits,
and TAPRM reads a mask of a TAPIN that has retired, at a record that passes its checks; TREL releases for a re-check
the handled row that the trap of its thread names; TAPSYNC writes back what sieves have stored to the tables of the
context at an address, or all of them, and drops the copies of those tables. TREL and TAPSYNC are releases and
irrevocable events. That TAPIN first performs its thread's own stores to what the sieve reads is read from 08 R171, an
inference of the model (log 5); which held rule writes TAPSYNC performs, and that the intervals of their blocks stay
revocable, are the model's choices (log 19). -/
def Obligations.TapInstructions : Prop :=
  let record (j : Iss) (s : State) (a : Reg) : Prop :=
    ∀ x ∈ j.cmd, trecCheck j.b (x.rd a 32) = none ∧ trecTyped s j.b (x.rd a 32) = none
  (∀ k d a b c x, DoesWhen (.tapin k d a b c x) 0xB8 k [r32 d, r32 a, rRec b.toNat, rRec c.toNat] []
    (fun j s => ∀ l, j.cmd.head? = some l → (tapinFault j l d a b c (ownWrites j l d a b s)).1 = none)
    (fun j s => match j.cmd.head? with
      | none => s
      | some l => acceptTapin j l d a b c x (tapinFault j l d a b c (ownWrites j l d a b s)).2)) ∧
  (∀ k d a b, DoesWhen (.tapw k d a b) 0xB9 k [r32 a, r64 b] [r32 d] (fun j s => record j s a)
    (fun j s => wakeTapw (j.cmd.foldl (fun s x => modThread s x.t.blk x.t.gang x.t.lane
      (fun t => { t with wait := .tapw (x.rd a 32) (BitVec.ofNat 64 (x.rd b 64)) (keptDst j.cmd x d) })) s) j.b.uid)) ∧
  (∀ k hm d a,
    let off (x : Lane) : Nat := x.rd a 32 + if hm then 72 else 64
    DoesWhen (.taprm k hm d a) 0xBA k [r32 a] [r64 d]
      (fun j s => record j s a ∧ ∀ x ∈ j.cmd, errsAt j.b (scratchWord (off x) 8) true = [])
      (fun j s => j.cmd.foldl (fun s x =>
        let s := servedTapin (correctScratch j x (off x) 8 s) j.b.uid (x.rd a 32)
        addReply s j.no x .tp d (if d.toNat < 192 || firstOfGang j.cmd x then 64 else 0)
          (leVal (readScratch s j.b.uid (off x) 8)) none) s)) ∧
  (∀ k a b, DoesWhen (.trel k a b) 0xBB k [r32 a, r32 b] []
    (fun j s => ∀ x ∈ j.cmd, (trelRow s x (x.rd a 32) (x.rd b 32)).isSome = true)
    (fun j s => j.cmd.foldl (fun s x =>
      match trelRow s x (x.rd a 32) (x.rd b 32) with
      | some id => relRow (syncRelease (irrevocable s j.b.uid) x) id (x.rd b 32)
      | none => s) s)) ∧
  (∀ k al a, DoesWhen (.tapsync k al a) 0xBC k (if al then [] else [r64 a]) []
    (fun j _ => al = false → ∀ x ∈ j.cmd, x.rd a 64 % 4096 = 0)
    (fun j s => if j.cmd.isEmpty then s else j.cmd.foldl (fun s x =>
      let s := syncRelease s x
      let covered (q : RuleCopy) : Bool := q.ctx == j.b.ctx && (al || q.addr == x.rd a 64)
      let s := writeBack s j.b.ctx al (x.rd a 64)
      { s with ruleCopies := s.ruleCopies.filter (fun q => !covered q) }) (irrevocable s j.b.uid)))

/-- JPOST, JREC and JPWAIT (10 R209, R210, R225-R228): JPOST of cards that can be read, each a release before its card is
read, replies to each thread with the handle of the job that it queues, or with the status of the first failing test; JREC
replies with the address of the block's next record and true, or 0 and false; JPWAIT waits for the predecessor of the job. -/
def Obligations.JobInstructions : Prop :=
  (∀ k d a, DoesWhen (.jpost k d a) 0xC0 k [r64 a] [r64 d]
    (fun j s => (taskAddrs s j.cmd a 0 128 128).1 = [])
    (fun j s =>
      let f := (taskAddrs s j.cmd a 0 128 128).2
      f.1.foldl (fun s q =>
        let s := syncRelease s q.1
        let card := BitVec.ofNat 1024 (leVal (readGlobal s q.1.b.uid q.2 128))
        let st := postStatus s { ctx := q.1.b.ctx, scope := q.1.b.scope, kernel := q.1.b.kernel, host := false } card
        let r : Nat × State := if st = 0 then
            ((queueJob s q.1.b.ctx card (some (q.1.b.uid, relNow s q.1.b.uid)) none).1.toNat,
             (queueJob s q.1.b.ctx card (some (q.1.b.uid, relNow s q.1.b.uid)) none).2)
          else (2 ^ 63 + st, s)
        addReply r.2 j.no q.1 .en d (keepW j.cmd q.1 d 64) r.1 none)
        (if f.1.isEmpty then f.2 else irrevocable f.2 j.b.uid))) ∧
  (∀ k d (x : BitVec 8), Does (.jrec k d x) 0xC1 k [] [r64 d] fun j s => j.cmd.foldl (fun s y =>
    match takeRecord s j.b.uid with
    | (some a, s) => addReply s j.no y .en d (keepW j.cmd y d 64) a (some (x.toNat, true))
    | (none, s) => addReply s j.no y .en d (keepW j.cmd y d 64) 0 (some (x.toNat, false))) s) ∧
  (∀ k d, Does (.jpwait k d) 0xC3 k [] [r32 d] fun j s =>
    pollJpwait (j.cmd.foldl (fun s x => modThread s x.t.blk x.t.gang x.t.lane
      (fun t => { t with wait := .jpwait (keptDst j.cmd x d) })) s))

/-- FINIT, FWR and FRD (10 R218, R219, R229, R230; 08 R171): where the futures are aligned, translated and in a state that
the instruction allows, FINIT makes each EMPTY; FWR is a release, after which it makes each FULL with b and delivers it; and
FRD, while continuations are left, replies with a FULL future's value and true, with 0 and false for a CANCELLED one, and
links its thread at any other. What a thread of FINIT or FRD has stored to a future before comes first. That FRD sees a
future through the stores that its block holds, and links at the word in memory, is read from 08 R171 and R185, an inference
of the model (log 21). -/
def Obligations.FutureInstructions : Prop :=
  let write (i : Instr) (op : Nat) (k : Ctl) (src : List RG) (a : Reg) (before : State → List (Lane × Nat) → State)
      (bad : Nat → Option Nat) (eff : State → Lane → Nat → State) : Prop :=
    let found (j : Iss) (s : State) := taskAddrs s j.cmd a 2 16 16
    let from_ (j : Iss) (s : State) : State :=
      before (if (found j s).2.1.isEmpty then (found j s).2.2 else irrevocable (found j s).2.2 j.b.uid) (found j s).2.1
    DoesWhen i op k src []
      (fun j s => (found j s).1 = [] ∧ (futWrites (from_ j s) (found j s).2.1 bad eff).1 = [])
      (fun j s => (futWrites (from_ j s) (found j s).2.1 bad eff).2)
  (∀ k a, write (.finit k a) 0xC4 k [r64 a] a (drainFuts true) (fun st => if st = 3 then some 2 else none)
    (fun s x pa =>
      let t := noteRelease s x none
      tagGlobal (writeFuture (setFut t pa FutRel.none) pa 0 0) pa 16
        { blk := x.b.uid, count := relNow t x.b.uid, atomic := true, rel := (relScope s x none).map (relCover t x.b.uid) })) ∧
  (∀ k a b, write (.fwr k a b) 0xC5 k [r64 a, r64 b] a (fun s xs => xs.foldl (fun s q => syncRelease s q.1) s)
    (fun st => if st = 1 ∨ st = 2 then some 1 else none)
    (fun s x pa => tagGlobal (fillFuture s pa (x.rd b 64) true [(x.b.uid, relNow s x.b.uid)]) pa 16
      { blk := x.b.uid, count := relNow s x.b.uid, atomic := true, rel := some .all })) ∧
  (∀ k d a (x : BitVec 8),
    let found (j : Iss) (s : State) := taskAddrs s j.cmd a 0 16 16
    let from_ (j : Iss) (s : State) : State := drainFuts false (found j s).2.2 (found j s).2.1
    DoesWhen (.frd k d a x) 0xC6 k [r64 a] [r64 d]
      (fun j s => (found j s).1 = [] ∧ (from_ j s).conts.length +
        ((found j s).2.1.filter (fun q => (futSeen (from_ j s) q.1.b.uid q.2).1 % 3 == 0)).length ≤ 1048576)
      (fun j s => (found j s).2.1.foldl (frdLane j d a x.toNat) (from_ j s)))

/-- SCOPEN, SCCAN, SCACK and SCQRY (10 R220-R224, R231-R234): each replies with its result; SCOPEN, whose acknowledgement
address is aligned, SCCAN and SCACK are irrevocable events; SCACK replies later where the subtree has still to finish.
A subtree is its root and every scope whose chain of parents leads to it; a task-level thread reaches the subtree of its
block's scope, a kernel-level one every scope of a live context. The results and the order in which their cases are tested
are those of R231-R234; SCCAN marks the subtree and kills its jobs. -/
def Obligations.ScopeInstructions : Prop :=
  -- subtrees, and who may reach a scope
  (∀ s ctx root id,
    let up (o : Option Nat) : Option Nat := o.bind fun k => if k = 0 then none else (getScope s ctx k).map Scope.parent
    inTree s ctx root id = true ↔
      (getScope s ctx root).isSome = true ∧ ∃ n, n ≤ s.scopes.length ∧ up^[n] (some id) = some root) ∧
  (∀ s x xc ctx id, reaches s x xc ctx id = true ↔
    (x.b.kernel = true ∧ ctxLive s ctx = true ∧ (getScope s ctx id).isSome = true) ∨
    (x.b.kernel = false ∧ xc = false ∧ inTree s x.b.ctx x.b.scope id = true)) ∧
  -- SCOPEN
  (∀ s x xc a b c,
    let ctx := if xc then x.rd c 32 % 2 ^ 16 else x.b.ctx
    let p := x.rd a 32
    let made (k : Nat) : Scope := ⟨ctx, k, p, false, BitVec.ofNat 64 (x.rd b 64), x.b.ctx, x.b.kernel, 0, 0⟩
    let off : Prop := 2 ^ 16 ≤ p ∨ reaches s x xc ctx p = false
    let shut : Prop := ∃ q, getScope s ctx p = some q ∧ q.cancelled = true
    (off → openScope s x xc a b c = (2 ^ 31 + 2, s)) ∧
    (¬off → shut → openScope s x xc a b c = (2 ^ 31 + 1, s)) ∧
    (¬off → ¬shut → (∀ k, 1 ≤ k → k ≤ 65535 → getScope s ctx k ≠ none) → openScope s x xc a b c = (2 ^ 31 + 3, s)) ∧
    (∀ k, ¬off → ¬shut → 1 ≤ k → k ≤ 65535 → getScope s ctx k = none →
      (∀ j, 1 ≤ j → j < k → getScope s ctx j ≠ none) →
      openScope s x xc a b c = (k, { s with scopes := s.scopes ++ [made k] }))) ∧
  -- SCCAN, SCACK, SCQRY
  (∀ s x xc a c,
    let ctx := if xc then x.rd c 32 % 2 ^ 16 else x.b.ctx
    let id := x.rd a 32 % 2 ^ 16
    let far : Prop := xc = true ∧ x.b.kernel = false ∨ ctxLive s ctx = false
    (far → scan s x xc a c = (2, s)) ∧
    (¬far → getScope s ctx id = none → scan s x xc a c = (3, s)) ∧
    (∀ q, ¬far → getScope s ctx id = some q →
      (id = 0 ∨ reaches s x xc ctx id = false → scan s x xc a c = (2, s)) ∧
      (id ≠ 0 → reaches s x xc ctx id = true → q.cancelled = true → scan s x xc a c = (1, s)) ∧
      (id ≠ 0 → reaches s x xc ctx id = true → q.cancelled = false →
        let ids := (s.scopes.filter fun y => y.ctx == ctx && inTree s ctx id y.id).map Scope.id
        scan s x xc a c = (0, (s.jobs.filter fun j => j.ctx == ctx && ids.contains (cardScope j.card)).foldl killJob
          { s with scopes := updWhere s.scopes (fun y => y.ctx == ctx && ids.contains y.id)
                               (fun y => { y with cancelled := true }) }))) ∧
    (reaches s x xc ctx id = false ∨ getScope s ctx id = none → ackCode s x xc a c = some 2) ∧
    (∀ q, reaches s x xc ctx id = true → getScope s ctx id = some q →
      (q.cancelled = false → ackCode s x xc a c = some 1) ∧
      (q.cancelled = true →
        (ctx = x.b.ctx → inTree s ctx id x.b.scope = true → ackCode s x xc a c = some 3) ∧
        (ctx ≠ x.b.ctx ∨ inTree s ctx id x.b.scope = false → ackCode s x xc a c = none))) ∧
    (reaches s x xc ctx id = false → scopeReport s x xc a c = 3) ∧
    (∀ q, reaches s x xc ctx id = true → getScope s ctx id = some q →
      scopeReport s x xc a c = (if q.cancelled = false then 0 else if scopeBusy s ctx id then 1 else 2) +
        2 ^ 8 * min 255 ((queuedJobs s).filter fun j => j.ctx == ctx && inTree s ctx id (cardScope j.card)).length +
        2 ^ 16 * min 65535 (s.blocks.filter fun y => y.ctx == ctx && y.resident && inTree s ctx id y.scope).length)) ∧
  -- the instructions
  let irr (j : Iss) (s : State) : State := if j.cmd.isEmpty then s else irrevocable s j.b.uid
  (∀ k xc d a b c, DoesWhen (.scopen k xc d a b c) 0xC7 k (r32 a :: r64 b :: if xc then [r32 c] else []) [r32 d]
    (fun j _ => ∀ x ∈ j.cmd, x.rd b 64 % 8 = 0)
    (fun j s => j.cmd.foldl (fun s x => addReply (openScope s x xc a b c).2 j.no x .en d (keepW j.cmd x d 32)
      (openScope s x xc a b c).1 none) (irr j s))) ∧
  (∀ k xc d a c, Does (.sccan k xc d a c) 0xC8 k (r32 a :: if xc then [r32 c] else []) [r32 d] fun j s =>
    j.cmd.foldl (fun s x => addReply (scan s x xc a c).2 j.no x .en d (keepW j.cmd x d 32) (scan s x xc a c).1 none)
      (irr j s)) ∧
  (∀ k xc d a c, Does (.scack k xc d a c) 0xC9 k (r32 a :: if xc then [r32 c] else []) [r32 d] fun j s =>
    j.cmd.foldl (fun s x => match ackCode s x xc a c with
      | some v => addReply s j.no x .en d (keepW j.cmd x d 32) v none
      | none => (addOutst s j.no x .en (.scack (scopeCtx x xc c) (x.rd a 32 % 2 ^ 16) d (keepW j.cmd x d 32)) false false).2)
      (irr j s)) ∧
  (∀ k xc d a c, Does (.scqry k xc d a c) 0xCA k (r32 a :: if xc then [r32 c] else []) [r32 d] fun j s =>
    j.cmd.foldl (fun s x => addReply s j.no x .en d (keepW j.cmd x d 32) (scopeReport s x xc a c) none) s)

/-- The SYS class (09 R205-R207; 11 R245, R246; 21 R377, R384; 23 R394): an issue with an active thread is an irrevocable
event, then each commanding lane acts in ascending lane position and its result is written to d: resumes of saves (PFRES,
TRET), writes of control registers (CWR, a release each), removal of translations (TLBINV), PSPLIT and RESUMEG. CRD only
reads. PSPLIT and a range's TLBINV do so where no act meets a poisoned line in state of the context, a frame of pool
metadata (17 R326) or an entry of the reserve that may not be read. The model's choices in it are: TLBINV performs held
stores and makes intervals irrevocable (log 19), the access kind of the walks and the call of the split routine (log 7), the
ends of a range that lie inside a page decide its splintering (log 23), and skip where no instruction has faulted (log 14). -/
def Obligations.SystemInstructions : Prop :=
  let acts (i : Instr) (op : Nat) (k : Ctl) (src : List RG) (d : Reg) (f : State → Lane → Nat × State) : Prop :=
    Does i op k src [r32 d] fun j s => eachLane (if j.act.isEmpty then s else irrevocable s j.b.uid) j d 32 f
  let looks (i : Instr) (op : Nat) (k : Ctl) (src : List RG) (d : Reg) (f : State → Lane → Except SysStop (Nat × State)) : Prop :=
    ∀ s q c b outs t, Ready s op k src [r32 d] [] q c b →
      let j := issOf s q b op k
      let start := if j.act.isEmpty then issued s else irrevocable (issued s) j.b.uid
      j.cmd.foldlM (fun (acc : List (Lane × Nat) × State) x =>
        (f acc.2 x).map fun r => (acc.1 ++ [(x, r.1)], r.2)) ([], start) = .ok (outs, t) →
      exec i s = .next (after j (laneResults t j d 32 outs))
  let writes (i : Instr) (k : Ctl) (src : List RG) (d : Reg) (f : State → Lane → Nat × State) : Prop :=
    acts i 0xD2 k src d fun s l => f (syncRelease s l) l
  (∀ k d a, acts (.pfres k d a) 0xD4 k [r64 a] d fun s l => resume s (l.rd a 64) true .retry) ∧
  (∀ k d a, acts (.tretRetry k d a) 0xD0 k [r64 a] d fun s l => resume s (l.rd a 64) false .retry) ∧
  (∀ k d a, acts (.tretSkip k d a) 0xD0 k [r64 a] d fun s l => resume s (l.rd a 64) false .skip) ∧
  (∀ k d a b, acts (.tretRedirect k d a b) 0xD0 k [r64 a, r64 b] d fun s l =>
    resume s (l.rd a 64) false (.redirect (w64 (l.rd b 64)))) ∧
  (∀ k bk d a (x : BitVec 8), Does (.crd k bk d a x) 0xD1 k (if bk then [r32 a] else []) [r64 d] fun j s =>
    eachLane s j d 64 fun s l =>
      (if bk then (match getCtx s (l.rd a 32 % 2 ^ 16) with | some c => ctxReg c x.toNat | none => 0) else devReg s x.toNat, s)) ∧
  (∀ k bk d a b (x : BitVec 8), writes (.cwr k bk d a b x) k (r64 b :: if bk then [r32 a] else []) d fun s l =>
    if bk then cwrCtx a b (fun s _ c v => ((ctxWriteReg c x.toNat v).1, modCtx s c.id (fun _ => (ctxWriteReg c x.toNat v).2))) s l
    else devWrite s x.toNat (l.rd b 64) l.b.ctx) ∧
  (∀ k d a b, writes (.cwrStateCreate k d a b) k [r32 a, r64 b] d fun s l => writeState s (l.rd a 32 % 2 ^ 16) (l.rd b 64)) ∧
  (∀ k d a b, writes (.cwrStateRemove k d a b) k [r32 a, r64 b] d fun s l => writeState s (l.rd a 32 % 2 ^ 16) (l.rd b 64)) ∧
  (∀ k d b, writes (.cwrKqsize k d b) k [r64 b] d fun s l => writeKqsize s (l.rd b 64) l.b.ctx) ∧
  (∀ k d b, writes (.cwrKqhead k d b) k [r64 b] d fun s l =>
    if l.rd b 64 < 2 ^ 32 ∧ !beyond (l.rd b 64) s.kqtail.toNat then (0, { s with kqhead := w32 (l.rd b 64) }) else (3, s)) ∧
  (∀ k d a b, writes (.cwrPreempt k d a b) k [r32 a, r64 b] d (cwrCtx a b fun s _ c v => writePreempt s c v)) ∧
  (∀ k d a b, writes (.cwrBcores k d a b) k [r32 a, r64 b] d (cwrCtx a b fun s _ c v =>
    let s := modCtx s c.id (fun c => { c with bcores := w32 v })
    (0, if w32 v = 0 then s else shrinkCores (s.blocks.length + 1) s c.id (w32 v).toNat))) ∧
  (∀ k d a b, writes (.cwrTrsize k d a b) k [r32 a, r64 b] d (cwrCtx a b fun s _ c v =>
    if v = 0 ∨ pow2In v 64 (2 ^ 24) then
      (0, modCtx s c.id (fun c => { c with trsize := w32 v, trhead := 0, trtail := 0, trdrop := 0 }))
    else (3, s))) ∧
  (∀ k d a b, acts (.tlbinvPage k d a b) 0xD3 k [r64 a, r32 b] d fun s l => tlbinv (l.rd b 32 % 2 ^ 16)
    (fun s c => (0, invalidateTlb s (fun e => e.covers c.id (l.rd a 64)) (some c.id))) s l) ∧
  (∀ k d b, acts (.tlbinvContext k d b) 0xD3 k [r32 b] d fun s l => tlbinv (l.rd b 32 % 2 ^ 16)
    (fun s c => (0, invalidateTlb s (fun e => e.ctx == c.id) (some c.id))) s l) ∧
  (∀ k d, acts (.tlbinvAll k d) 0xD3 k [] d fun s l => (0, invalidateTlb (syncRelease s l) (fun _ => true) none)) ∧
  (∀ k sp d a b c, looks (.tlbinvRange k sp d a b c) 0xD3 k [r64 a, r32 b, r32 c] d fun s l =>
    match getCtx (syncRelease s l) (l.rd b 32 % 2 ^ 16) with
    | none => .ok (2, syncRelease s l)
    | some q => tlbinvRange (syncRelease s l) q sp (l.rd a 64) (l.rd c 32)) ∧
  (∀ k (ps : BitVec 2) d a b, looks (.psplit k ps d a b) 0xD6 k [r64 a, r32 b] d fun s l =>
    psplitOne s (l.rd b 32 % 2 ^ 16) (l.rd a 64) ps.toNat) ∧
  (∀ k d a b, acts (.resumeg k d a b) 0xD8 k [r64 a, r32 b] d fun s l => match haltTarget s l a b with
    | none => (2, s)
    | some t => if t.2.2.2.any Block.halted then (0, setHalt s t.2.2.2 false) else (1, s))

/-- HALTG and ERRINJ (21 R384; 23 R394): HALTG gives 2 where there is no such job or block and 1 where all of it is halted,
else it halts the blocks with their groups and waits until they stand still; ERRINJ arms one error of the block, or gives
a status, and disarms it. -/
def Obligations.HaltAndErrorInjection : Prop :=
  (∀ k d a b, Does (.haltg k d a b) 0xD7 k [r64 a, r32 b] [r32 d] fun j s =>
    pollHalt (j.cmd.foldl (fun s l => match haltTarget s l a b with
      | none => deliverKept s l.t.blk l.t.gang l.t.lane (keptDst j.cmd l d) 32 2
      | some t =>
        if !t.2.2.2.isEmpty ∧ t.2.2.2.all Block.halted then
          deliverKept s l.t.blk l.t.gang l.t.lane (keptDst j.cmd l d) 32 1
        else modThread (setHalt s t.2.2.2 true) l.t.blk l.t.gang l.t.lane
          (fun h => { h with wait := .halt t.1 t.2.1 t.2.2.1 (keptDst j.cmd l d) }))
      (if j.act.isEmpty then s else irrevocable s j.b.uid))) ∧
  (∀ k (ek : BitVec 3) d a, Does (.errinj k ek d a) 0xD5 k [r64 a] [r32 d] fun j s => match j.act with
    | [] => s
    | x :: _ => commit (modBlock s j.b.uid (fun b => { b with arm := (armStatus s x.b ek.toNat (x.rd a 64)).2 })) d 32
        (j.act.map fun y => (y, (armStatus s x.b ek.toNat (x.rd a 64)).1))) ∧
  (∀ k d, Does (.errinjDisarm k d) 0xD5 k [] [r32 d] fun j s => match j.act with
    | [] => s
    | x :: _ => commit (modBlock s j.b.uid (fun b => { b with arm := none })) d 32
        (j.act.map fun y => (y, if x.b.arm.isSome then 0 else 6)))

/-- The POOL class (17 R327-R337): each commanding lane makes its request in ascending lane position, after a release,
with its reply outstanding; the request reaches the engine of its pool's home valley, which performs it at once where
none waits there and the operations of its budget are not spent, and answers with a value or a status. NEW makes the
lowest free table live; FREE, TRIM and KFREE give blocks back on top of the free list; ALLOC takes from its top, above
the reserve where the class is speculative; LOOK gives the address of an entry, and changes no pool; each failing test
gives its status and changes nothing. -/
def Obligations.PoolInstructions : Prop :=
  let pool (name : Nat) (f : State → PoolReq → Pool → Except Nat Nat × State) (s : State) (q : PoolReq) : Except Nat Nat × State :=
    match poolOf s q.ctx name with | .error e => (.error e, s) | .ok p => f s q p
  let seq (name : Nat) (f : State → PoolReq → Pool → Nat → List Nat → Except Nat Nat × State) (s : State) (q : PoolReq) :
      Except Nat Nat × State :=
    match seqOf s q.ctx name with | .error e => (.error e, s) | .ok p => f s q p.1 p.2.1 p.2.2
  let does (op : PoolOp) (f : State → PoolReq → Except Nat Nat × State) : Prop :=
    ∀ s q, q.op = op → poolPerform s q = f s q
  let request (i : Instr) (n : Nat) (k : Ctl) (src : List RG) (d : Reg) (w : Nat) (changes : Bool) (pred : Option Nat)
      (op : Lane → PoolOp) : Prop :=
    Does i n k src [⟨d, w / 32⟩] fun j s => j.cmd.foldl (fun s x => poolAsk j d w pred (op x) s x)
      (if j.cmd.isEmpty || !changes then s else irrevocable s j.b.uid)
  (∀ k d a, request (.kseqNew k d a) 0xE0 k [r32 a] d 32 true none fun x => .new (x.rd a 32)) ∧
  (∀ k d a, request (.kseqFree k d a) 0xE0 k [r32 a] d 32 true none fun x => .free (x.rd a 32)) ∧
  (∀ k d a, request (.kseqPquery k d a) 0xE0 k [r32 a] d 32 true none fun x => .query (x.rd a 32)) ∧
  (∀ k d a, request (.kseqPfree k d a) 0xE0 k [r32 a] d 32 true none fun x => .pfree (x.rd a 32)) ∧
  (∀ k cl d a b, request (.kalloc k cl d a b) 0xE1 k [r32 a, r32 b] d 32 true none fun x => .alloc cl (x.rd a 32) (x.rd b 32)) ∧
  (∀ k d a b, request (.ktrim k d a b) 0xE2 k [r32 a, r32 b] d 32 true none fun x => .trim (x.rd a 32) (x.rd b 32)) ∧
  (∀ k d a b, request (.kfree k d a b) 0xE4 k [r32 a, r32 b] d 32 true none fun x => .drop (x.rd a 32) (x.rd b 32)) ∧
  (∀ k d a b (x : BitVec 8), request (.klook k d a b x) 0xE3 k [r32 a, r32 b] d 64 false (some x.toNat)
    fun l => .look (l.rd a 32) (l.rd b 32)) ∧
  (∀ k d a b, DoesWhen (.kseqPinit k d a b) 0xE0 k [r64 a, r32 b] [r32 d]
    (fun j s => (taskAddrs s j.cmd a 0 64 64).1 = [])
    (fun j s =>
      let f := (taskAddrs s j.cmd a 0 64 64).2
      let s := f.1.foldl (fun s q => drainBytes s q.1.t.blk q.1.t.gang q.1.t.lane .glob q.2 64) f.2
      let desc (x : Lane) : Nat := match f.1.find? (fun q => q.1 == x) with
        | some q => leVal (readGlobal s x.b.uid q.2 64)
        | none => 0
      j.cmd.foldl (fun s x => poolAsk j d 32 none (.pinit (x.rd b 32) (desc x)) s x)
        (if j.cmd.isEmpty then s else irrevocable s j.b.uid))) ∧
  (∀ j d w pred op s x v, op.home (syncRelease s x) = some v →
    let q := addOutst (syncRelease s x) j.no x .en (.pool d (keepW j.cmd x d w) pred) false false
    (q.2.poolReqs.any (fun r => r.valley == v) = false) → poolCount q.2 v < s.cfg.budgets.pool →
    poolAsk j d w pred op s x = poolServe q.2
      { outst := q.1, valley := v, blk := x.b.uid, rel := relNow q.2 x.b.uid, ctx := x.b.ctx, kernel := x.b.kernel, op := op }) ∧
  (∀ name, does (.new name) (pool name fun s _ p =>
    match (List.range (p.nseqm1 + 1)).find? (fun t => (p.table t).isNone) with
    | none => (.error 6, s)
    | some t => (.ok (p.id * 2 ^ 16 + t), putPool s (p.setTable t [])))) ∧
  (∀ name, does (.free name) (seq name fun s q p t es =>
    (.ok es.length, putPool s ((p.push es q.blk q.rel).dropTable t)))) ∧
  (∀ name, does (.query name) (pool name fun s _ p => (.ok p.free, s))) ∧
  (∀ name, does (.pfree name) (pool name fun s q p =>
    if !q.kernel || !p.tables.isEmpty then (.error 7, s) else (.ok 0, dropPools s (fun x => x.id == p.id)))) ∧
  (∀ cl name n, does (.alloc cl name n) (seq name fun s q p t es =>
    if n = 0 ∨ 4096 < es.length + n then (.error 5, s)
    else if cl ∧ p.free < n + p.reserve then (.error 1, s)
    else if p.free < n then (.error 2, s)
    else (.ok (es.length + n), putPool ((p.pop n).2.1.foldl (fun s f => raiseAcq s q.blk f.uid f.rel) s)
      ((p.pop n).2.2.setTable t (es ++ (p.pop n).1))))) ∧
  (∀ name n, does (.trim name n) (seq name fun s q p t es =>
    if es.length < n then (.error 5, s)
    else (.ok (es.length - n), putPool s ((p.push (es.drop n) q.blk q.rel).setTable t (es.take n))))) ∧
  (∀ name n, does (.drop name n) (seq name fun s q p t es =>
    match es[n]? with
    | none => (.error 5, s)
    | some e => (.ok (es.length - 1), putPool s ((p.push [e] q.blk q.rel).setTable t (es.eraseIdx n))))) ∧
  (∀ name n, does (.look name n) (seq name fun s _ p _ es =>
    match es[n]? with
    | none => (.error 5, s)
    | some e => (.ok (p.region + e * p.blockBytes), s))) ∧
  (∀ b q, does (.pinit b q) fun s r => installPool s r.ctx r.kernel b q)

/-- The events that end or move waits (05 R90, R93; 06 R126; 08 R182; 10 R221; 23 R395): each answers a next state, the one
below where its condition holds. That the agenda names such an event, whatever time has passed, and that the same state
follows where the condition fails, are the model's choice (log 1). -/
def Obligations.WaitEvents : Prop :=
  (∀ blk gang lane s, exec (.gatheringComplete blk gang lane) s = .next (tryGather s blk gang lane)) ∧
  (∀ blk gang c s, s.claims.find? (fun c => c.1 == blk && c.2.1 == gang) = some c →
    exec (.claimGrant blk gang) s = .next (if satisfiable s blk c.2.2 then serveClaims s else s)) ∧
  (∀ blk gang s, s.claims.find? (fun c => c.1 == blk && c.2.1 == gang) = none → exec (.claimGrant blk gang) s = .next s) ∧
  (∀ blk gang lane t s, getThread s blk gang lane = some t →
    exec (.napWake blk gang lane) s = .next (if t.wait = .nap then modThread s blk gang lane Thread.unwait else s)) ∧
  (∀ blk b s, getBlock s blk = some b → regDead s b = false → exec (.regdead blk) s = .next s) ∧
  (∀ blk gang lane t b s, getThread s blk gang lane = some t → getBlock s blk = some b → (b.killed && atKill s t) = false →
    exec (.killStop blk gang lane) s = .next s) ∧
  (∀ ctx id x c t s, getScope s ctx id = some x → getCtx s ctx = some c → longestWaiter s ctx id = some t →
    ((getBlock s t.blk).any (regDead s) = true ∨ c.wdlim = 0 ∨ x.wd < c.wdlim.toNat ∨
      (scopeThreads s ctx id).any Thread.ended = true ∨ s.blocks.any (fun b => b.ctx == ctx && b.halted) = true) →
    exec (.wdog ctx id) s = .next s) ∧
  (∀ ctx id s, (getScope s ctx id = none ∨ getCtx s ctx = none ∨ longestWaiter s ctx id = none) →
    exec (.wdog ctx id) s = .next s) ∧
  (∀ blk gang lane s, getThread s blk gang lane = none →
    exec (.napWake blk gang lane) s = .next s ∧ exec (.killStop blk gang lane) s = .next s) ∧
  (∀ blk gang lane s, getBlock s blk = none →
    exec (.regdead blk) s = .next s ∧ exec (.killStop blk gang lane) s = .next s) ∧
  (∀ blk b s, getBlock s blk = some b → regDead s b = true →
    let low := (s.claims.filter (fun c => c.1 == blk)).foldl (fun m c => min m c.2.1) 63
    let ts := gangThreads s blk low
    let pc := match ts.head?.bind (bundleOf s) with | some q => q.place.addr | none => 0
    exec (.regdead blk) s = .next (raise s blk 0x33 pc (ts.map fun t => ⟨low, t.lane, { cause := 0x0D }⟩))) ∧
  (∀ blk gang lane t b s, getThread s blk gang lane = some t → getBlock s blk = some b →
    b.killed = true → atKill s t = true →
    exec (.killStop blk gang lane) s = .next (unstall (leaveThread
      (unlinkConts (leaveQueues (drainThread s blk gang lane) t) (fun c => c.blk == blk && c.gang == gang && c.lane == lane))
      (match t.wait with | .barrier .. => { t with wait := .none } | _ => t) true))) ∧
  (∀ s, ∃ t, exec .heartbeatTick s = .next t ∧ t.heart = s.heart + 1 ∧ t.scopes = s.scopes.map (tickScope (markScfence s))) ∧
  (∀ s, exec .scfenceRelease s = .next
    (((s.threads.filter (fun t => match t.wait with
        | .scfence (some h) => h != s.heart && isResident s t.blk
        | _ => false)).foldr (insKey s) []).foldl (fun s t => modThread s t.blk t.gang t.lane Thread.unwait) s)) ∧
  (∀ ctx id x c t b s, getScope s ctx id = some x → getCtx s ctx = some c → longestWaiter s ctx id = some t →
    getBlock s t.blk = some b → regDead s b = false →
    c.wdlim ≠ 0 → c.wdlim.toNat ≤ x.wd → (scopeThreads s ctx id).any Thread.ended = false →
    s.blocks.any (fun b => b.ctx == ctx && b.halted) = false →
    ∃ u, exec (.wdog ctx id) s = .next u ∧
      u = raise (modScope s ctx id (fun x => { x with wd := 0 })) t.blk 0
        (placeOf (modScope s ctx id (fun x => { x with wd := 0 })) t).addr [⟨t.gang, t.lane, { cause := 0x15, info := id }⟩])

/-- WATCH_DELIVERY (19 R354; 05 R80, R101; 11 R237): to a thread at a kill point that handles no trap, whose block does not
stop, the trap at the head of its queue: to task level, with its row HANDLING, where it goes there, the two lanes of a
protected pair together as one path that stands where the pair stood; else as a fault that asks for a save. -/
def Obligations.WatchTrapsAreDelivered : Prop :=
  ∀ blk gang lane x w rest s, laneOf s blk gang lane = some x → x.t.watchq = w :: rest → watchDue s x.t = true →
    x.b.stopping = false →
    (trapVec s x 0x12 w.handler = none → exec (.watchDelivery blk gang lane) s =
      .next (raise s blk 0 (placeOf s x.t).addr [⟨gang, lane, { cause := 0x12, info := (BitVec.ofNat 64 w.rechecks).toNat }⟩])) ∧
    (∀ vec, trapVec s x 0x12 w.handler = some vec → exec (.watchDelivery blk gang lane) s =
      .next (watchEntry (modThread (handleRow s x.t w) blk gang lane (fun t => { t with watchq := rest })) blk gang lane
        (BitVec.ofNat 64 w.rechecks) w.bits vec)) ∧
    (∀ t b vec info wrec u v, getThread u blk gang lane = some t → getBlock u blk = some b →
      let free (u : State) (l : Nat) : State := match getThread u blk gang l with
        | some t => unfile (leaveWait u t) t
        | none => u
      let gone := if b.protectd then free (free u lane) (lane + 1) else free u lane
      laneOf gone blk gang lane = some v →
      watchEntry u blk gang lane info wrec vec = settleBins (takeTrap gone v (bundleOf u t) 0x12 (placeOf u t).addr info wrec
        (placeOf u t) vec (if b.protectd then [(gang, lane), (gang, lane + 1)] else [(gang, lane)])) v.b.core)

/-- The events that end outstanding results (02 R29, R30; 09 R202; 10 R230; 11 R241): the access of an entry whose turn it
is, is performed, and its value returned; a decided reply is returned, and put into the frame of a saved block; a TAPIN of a
resident block retires; a walk fills the levels of its core. That an entry whose turn it is not stays as it is (log 1), and
that entries are performed in whatever order the agenda chooses among those that the rules of order allow (log 5), are the
model's choices. -/
def Obligations.ResultEvents : Prop :=
  (∀ id o s, getOutst s id = some o → o.cls = .ld → exec (.loadResultReturn id) s = .next (returnAccess s o)) ∧
  (∀ id o s, getOutst s id = some o → o.cls = .st → exec (.storePerformed id) s = .next (returnAccess s o)) ∧
  (∀ id o s, getOutst s id = some o → o.cls = .at_ → exec (.atomicReply id) s = .next (returnAccess s o)) ∧
  (∀ o s, returnAccess s o =
    if o.pending && !performable s o then s
    else
      let s1 := if o.pending then performNow s o.id else s
      afterReturn (match getOutst s1 o.id with | some q => returnEntry s1 q | none => s1) o.blk o.gang) ∧
  (∀ id o b d w v p s, getOutst s id = some o → o.op = .reply d w v p → getBlock s o.blk = some b →
    exec (.engineReplyReturn id) s = .next (afterReturn (returnEntry
      (match b.status with | .saved t => appendDelivery s b t o | _ => s) o) o.blk o.gang)) ∧
  (∀ id o b t s, getOutst s id = some o → o.op = .tapin t → getBlock s o.blk = some b → b.resident = true →
    exec (.engineReplyReturn id) s = .next (afterReturn (dropOutst (retireTapin s t) id) o.blk o.gang)) ∧
  (∀ core ctx kind (va : W64) c w s1 s, getCtx s ctx = some c → walksOpen s = true → va.toNat < 2 ^ 57 →
    runWalk s c kind va.toNat = (.ok (some w), s1) →
    exec (.walk core ctx kind va) s = .next (tlbFillAll s1 (.engine core) ctx va.toNat w))

/-- The events of the copy engine (14 R282-R288; 24 R402): the start, the slot and the elements of a command of a resident
block, a command of another device, and the end of one there, with or without an error. That the agenda says when the link's
time is over, and that a command that is not there, or not ready, stays as it is, are the model's choices (log 1). A command
starts once those before it in its gang's queue have, its thread's earlier stores are performed and its slot is taken; one
of no elements ends at once. The slot of a ring is the one at its fill index, if that is free. An element is opened and
landed, or the command stops at it with the fault. The end of a command frees its entry and marks an error in its batch. -/
def Obligations.CopyEvents : Prop :=
  (∀ s (c : CopyCmd),
    let ok : Prop := c.started = false ∧ c.fault = none ∧ c.accepted s = true ∧
      (∀ q ∈ queueBefore s c, q.started = true) ∧ copyReady s c = true ∧ (c.dk = 3 → c.slot ≠ none)
    (ok → c.count = 0 → startCopy s c = endCopy s c false) ∧
    (ok → c.count ≠ 0 → startCopy s c = modCopy s c.id (fun c => { c with started := true })) ∧
    (¬ok → startCopy s c = s)) ∧
  (∀ s (c : CopyCmd) r q, getCopy s c.id = some c → c.ring s c.tgt = some r → c.slot = none → c.dk = 3 → c.fault = none →
    c.accepted s = true → (∀ p ∈ queueBefore s c, p.started = true) → r.queue = [] → r.slots[r.fill]? = some q → r.fill < 64 →
    let t := takeRingSlot s c
    (q.st = .free →
      getCopy t c.id = some { c with slot := some (c.tgt, r.fill), fill := s.nextId } ∧
      getRing t c.core c.tgt = some { modSlot r r.fill (fun q => { q with
          st := if c.bytes = 0 then .filled else .filling, fillNo := s.nextId, owner := c.gang, counted := 0,
          want := if c.bytes = 0 then none else some c.bytes }) with
        fill := (r.fill + 1) % r.slots.length, queue := [] }) ∧
    (q.st ≠ .free → getCopy t c.id = some c ∧
      getRing t c.core c.tgt = some { r with queue := [⟨c.gang, true, 0, some c.id⟩] })) ∧
  (∀ s id c b, getCopy s id = some c → getBlock s c.blk = some b → c.fault = none → c.opened < c.count →
    c.ahead.contains c.opened = false →
    (∀ el t, openElem s b c c.opened = (.ok el, t) → openTo 1 s id c.opened =
      modCopy t id (fun c => { c with opened := c.opened + 1, flying := c.flying ++ [el] })) ∧
    (∀ f t, openElem s b c c.opened = (.error f, t) → openTo 1 s id c.opened = stopAt t id c.opened f)) ∧
  (∀ s id e c b x el, getCopy s id = some c → getBlock s c.blk = some b → copyLane s c = some x →
    c.flying.find? (fun q => q.e == e) = some el → c.started = true → c.fault = none → e < c.count → e < c.opened →
    copyBlocked s c e = false → (c.inOrder s = true → ∀ q ∈ c.flying, e ≤ q.e) →
    let u := el.dst.meet (el.src.meet s (c.party x.b)) (c.party x.b)
    (∀ v, performElem u c x el = .ok v → landCopy s id e = landedElem v c el) ∧
    (∀ f, performElem u c x el = .error f → landCopy s id e = stopAt u id e f)) ∧
  (∀ s id e f c d, getCopy s id = some c → (∀ q ∈ c.flying, e ≤ q.e) → getCopy (retreat s id e) id = some d →
    stopAt s id e f = stopCopy (retreat s id e) d f) ∧
  (∀ s (c : CopyCmd) err,
    let left : State := { s with copies := s.copies.filter (fun q => q.id != c.id) }
    let marked (t : Thread) : Thread := match err, c.batch with
      | true, some n => { t with sealed := updWhere t.sealed (fun b => b.num == n) (fun b => { b with err := true }) }
      | true, none => { t with openErr := true }
      | false, _ => t
    let kept (t : Thread) (b : Batch) : Bool := b.err || left.copies.any fun q => q.ofThread t && q.batch == some b.num
    let pruned (t : Thread) : Thread := { t with sealed := t.sealed.filter (kept t) }
    endCopy s c err =
      pollCwait (pollAccept (unstall (modThread left c.blk c.gang c.lane fun t => pruned (marked t)))) c.blk c.gang c.lane) ∧
  (∀ id c s, getCopy s id = some c → exec (.copyCommandStart id) s =
    .next (if isResident s c.blk then unstall (startCopy s c) else s)) ∧
  (∀ id c s, getCopy s id = some c → exec (.ringnextSlotTake id) s =
    .next (if isResident s c.blk then takeRingSlot s c else s)) ∧
  (∀ id e c s, getCopy s id = some c → exec (.copyElementLand id e) s =
    .next (if isResident s c.blk then unstall (landCopy s id e) else s)) ∧
  (∀ ctx drec ad elems s, exec (.remoteCommand ctx drec ad elems) s =
    .next (remoteElems s ctx ad (Rec.of drec) (fmtW (Rec.of drec).fmt) elems elems)) ∧
  (∀ id c s, getCopy s id = some c → exec (.remoteTimeout id) s =
    .next (if c.dk == 4 && c.started then unstall (endCopy s c true) else s)) ∧
  (∀ id c s, getCopy s id = some c → exec (.remoteAcknowledgement id) s =
    .next (if c.awaits then unstall (endCopy s c false) else s))

/-- The events of the matrix engine and of the sieve (15 R301, R314; 19 R351): a pass runs the small operations that join
it, a drain whose turn it is runs, and the sieve evaluates the row that it serves next. That a drain whose turn it is not,
and a pass with nothing to run, leave the state as it is, is the model's choice (log 1). -/
def Obligations.EngineEvents : Prop :=
  (∀ core s, exec (.matrixPass core) s = .next (match passOf s core with
    | [] => s
    | ps => settleMtx (ps.foldl (fun s q => dropMop (runSmall s q.1 q.2) q.1.id) s))) ∧
  (∀ id m o s, getMop s id = some m → m.kind = .drain o → exec (.drainExecute id) s =
    .next (if mopReady s m ∧ o.fault.isNone ∧ mopHere s m then runDrain s m o else s)) ∧
  (∀ tap row t b u r q k l s, tapinById s tap = some t → getBlock s t.blk = some b →
    evalQueue s b.terrace = (u, r, q, k) :: l → u.id = tap → r = row →
    exec (.eval tap row) s = .next (afterReturn (evalRow s k u r q) k.uid u.gang))

/-- What the engines make of their operands. An element that lands puts its value at its destination, a source element or
the pattern of CPYF, or with an add-on the sum, maximum or minimum with what stands there (14 R278, R283, R284). A small
operation makes of each accumulator element the old one in an unselected row, the replacement where it is masked, and else
the old one with each block of 16 products added (15 R299, R300, R307). A drain converts each element and writes it, or adds
it (15 R312). The sieve's evaluation of a rule, the row's record, and how a row ends (19 R346, R350, R353). Where no error
stands in what is read, no watched region adds a trace record and the block's interval keeps no undo of what is written. -/
def Obligations.EngineResults : Prop :=
  let apart (a pa n : Nat) : Prop := a < pa ∨ pa + n ≤ a
  let unwatched (s : State) (b : Block) : Prop := ∀ c, getCtx s b.ctx = some c → ∀ va, watched c va = false
  let only (s t : State) (u off n : Nat) : Prop :=
    (∀ a, readByte t a = readByte s a) ∧ (∀ a, apart a off n → readScratch t u a 1 = readScratch s u a 1)
  -- add-ons
  (∀ f q w d x, fmtOf f = some q → (q = .fp32 ∨ q = .fp16 ∨ q = .bf16) →
    addon 1 f w d x = (round q 0 (xadd 0 (val q d) (val q x)).1).1 ∧
    addon 2 f w d x = (minMax q true d x).1 ∧ addon 3 f w d x = (minMax q false d x).1) ∧
  (∀ f w d x, (f ≤ 3 ∨ f = 0x0B ∨ f = 0x0C ∨ f = 0x10 ∨ f = 0x11) →
    let sg := f = 0x0B ∨ f = 0x10
    addon 1 f w d x = (d + x) % 2 ^ (8 * w) ∧
    (sg → sx (8 * w) (addon 2 f w d x) = max (sx (8 * w) d) (sx (8 * w) x) ∧
      sx (8 * w) (addon 3 f w d x) = min (sx (8 * w) d) (sx (8 * w) x)) ∧
    (¬sg → addon 2 f w d x = max d x ∧ addon 3 f w d x = min d x)) ∧
  -- elements of copies
  (∀ s c x el t, performElem s c x el = .ok t → copyLane s c = some x → x.b.errs = [] →
    let k := 8 * el.part
    let n := c.step
    let v := if c.op = 0xA3 then c.sorig.toNat / 2 ^ (64 * el.part) % 2 ^ (8 * n)
      else match el.src with
        | .mem .glob pa _ => leVal (readGlobal s c.blk (pa + k) n)
        | .mem (.scratch u) off _ => leVal (readScratch s u (off + k) n)
        | _ => 0
    let put (old : Nat) : List Byte := leBytes n (if c.ad = 0 then v else addon c.ad (Rec.of c.drec).fmt n old v)
    (∀ pa va, el.dst = .mem .glob pa va → unwatched s x.b →
      readBytes t (pa + k) n = put (leVal (readGlobal s c.blk (pa + k) n)) ∧
      ∀ a, apart a (pa + k) n → readByte t a = readByte s a) ∧
    (∀ u off va b, el.dst = .mem (.scratch u) off va → getBlock s u = some b → Plain b →
      readScratch t u (off + k) n = put (leVal (readScratch s u (off + k) n)) ∧ only s t u (off + k) n) ∧
    (∀ slot off q, el.dst = .op slot off → getOpSlot s c.blk slot = some q →
      getOpSlot t c.blk slot = some { q with data := putBytes q.data (off + k) (leBytes n v), dirty := true })) ∧
  -- small operations
  (∀ (o : SmallOp) acc a b mask k, k < 4096 → o.flip = false → Sparse.wf (0 : Byte) a.data = true →
    Sparse.wf (0 : Byte) b.data = true →
    let m : Nat := k / 64
    let n : Nat := k % 64
    let line (d : Sparse Byte) (r : Nat) : Nat := leVal ((List.range 128).map fun j => Sparse.get 0 d (128 * r + j))
    let w := o.fmt.bits
    let block (d : Sparse Byte) (r j : Nat) : Nat := line d r / 2 ^ (16 * w * j)
    let on : Prop := ∀ rows : W64, o.rows = some rows → rows.getLsbD m = true
    let hidden : Prop :=
      (o.tri = true ∧ sx 32 (natBits o.s2.toNat 0 32) < ((natBits o.s1.toNat 32 32 : Int) + n) - ((natBits o.s1.toNat 0 32 : Int) + m)) ∨
      ∃ t : MaskTile, mask = some t ∧ (Sparse.get 0 t.rows m).getLsbD n = false
    let new := (smallAcc o acc a b mask).elem k
    (¬on → new = acc.elem k) ∧
    (on → hidden → new = natBits o.s2.toNat 32 32) ∧
    (on → ¬hidden → o.fmt.isInt = true → new = lowBits 32 (acc.elem k + ((List.range (1024 / w)).map fun j =>
      sx w (line a.data m / 2 ^ (w * j) % 2 ^ w) * sx w (line b.data n / 2 ^ (w * j) % 2 ^ w)).sum)) ∧
    (on → ¬hidden → o.fmt.isInt = false → new = (List.range (64 / w)).foldl (fun c j =>
      (blockAcc 0 c (valPairs o.fmt 16 (block a.data m j) (block b.data n j)) (o.scale 0 m j) (o.scale 32 n j)).1)
      (acc.elem k) % 2 ^ 32) ∧
    (∀ half r j, o.scales = none → o.scale half r j = 127) ∧
    (∀ half r j ls, o.scales = some ls → o.scale half r j =
      byteOf ((ls.getD (r % 8) []).getD (half + 4 * (r / 8) + j / 4) 0x7F7F7F7F).toNat (j % 4))) ∧
  (∀ s m o q acc a b, getBlock s m.blk = some q → q.errs = [] → Plain q → getAcc s m.blk o.acc = some acc →
    getOpSlot s m.blk o.aslot = some a → getOpSlot s m.blk o.bslot = some b →
    runSmall s m o = modAcc s m.blk o.acc (fun _ =>
      smallAcc o acc a b (if o.mt = 0 then none else getMask s m.blk (o.mt - 1)))) ∧
  -- drains
  (∀ c, conv false 0x05 c = c ∧ conv false 0x02 c = c ∧ conv true 0x10 c = c ∧ conv true 0x11 c = c ∧ conv true 0x02 c = c ∧
    conv false 0x06 c = (round .fp16 0 (val .fp32 c)).1 ∧ conv false 0x07 c = (round .bf16 0 (val .fp32 c)).1 ∧
    conv false 0x08 c = (sat .e4m3 0 (val .fp32 c)).1 ∧ conv false 0x09 c = (round .e5m2 0 (val .fp32 c)).1 ∧
    conv true 0x0B c = (sat .i8 0 (val .i32 c)).1 ∧ conv true 0x0C c = (sat .z8 0 (val .i32 c)).1) ∧
  (∀ s x m o a no es fs,
    drainWrite s x m o a no (es ++ fs) = drainWrite (drainWrite s x m o a no es) x m o a no fs) ∧
  (∀ s x m o a no r n sp at_ va, x.b.errs = [] →
    let w := fmtW (Rec.of o.drec).fmt
    let y := conv a.isInt (Rec.of o.drec).fmt (a.elem (64 * r + n))
    let put (old : Nat) : List Byte := leBytes w (if o.ad then addon 1 (Rec.of o.drec).fmt w old y else y)
    let t := drainWrite s x m o a no [(r, n, .mem sp at_ va)]
    (sp = .glob → (∀ b, getBlock s m.blk = some b → unwatched s b) →
      readBytes t at_ w = put (leVal (readGlobal s m.blk at_ w)) ∧ ∀ b, apart b at_ w → readByte t b = readByte s b) ∧
    (∀ u b, sp = .scratch u → getBlock s u = some b → Plain b →
      readScratch t u at_ w = put (leVal (readScratch s u at_ w)) ∧ only s t u at_ w)) ∧
  (∀ s u m o q acc x c els k, getBlock s m.blk = some q → q.errs = [] → getAcc s m.blk o.acc = some acc →
    accTest acc o.mtol = none → CopyCmd.blk c = m.blk → CopyCmd.gang c = m.gang → CopyCmd.lane c = m.lane →
    copyLane s c = some x → drainXlate s q m o (o.rows.drop o.done ++ o.rows.take o.done) = (.ok els, k, u) →
    let w := fmtW (Rec.of o.drec).fmt
    let v := els.foldl (fun s e => e.2.2.meet s (m.party q)) (drainOlder u m w els)
    let mode : AMode := { kind := if o.ad then 2 else 1, writes := true, plain := true, cas := none }
    (∀ e ∈ els, elemCheck v x (Rec.of o.drec) e.2.2 w mode false (v.issueNo + 1) = none) →
    runDrain s m o = endMop (drainWrite { v with issueNo := v.issueNo + 1 } x m o acc (v.issueNo + 1) els) m) ∧
  -- rules
  (∀ first tap d ext0 entry (e : RowEval) k, e.out = none → k < e.rules.length →
    let u := e.rules.getD k 0
    let r := evalRule first tap d ext0 entry e k
    let kind := u % 4
    let feat := u / 2 ^ 44 % 2 ^ 20
    let applies := u.testBit 4 = false ∧ u / 2 ^ 32 % 256 = tap ∧ (first = true ∨ kind = 0)
    let en := entry feat
    let enc := elems 16 d (en / 2 ^ 512)
    let pairs (j : Nat) : List (Xr × Xr) :=
      (((enc.drop (16 * j)).take 16).map (val .bf16)).zip (((e.x.drop (16 * j)).take 16).map (val .bf16))
    let acc := (List.range (d / 16)).foldl (fun acc j => (blockAcc 0 acc (pairs j) 127 127).1) (en % 2 ^ 32)
    let a := if (fcompare 4 acc (en / 2 ^ 32 % 2 ^ 32)).1 then acc else 0
    let seen := (u % 2 ^ 224 ||| 32) + 2 ^ 224 * a
    let acted := if u.testBit 3 then seen + 16 else seen
    let tau := u / 2 ^ 160 % 2 ^ 32
    let old := if u.testBit 5 then u / 2 ^ 224 % 2 ^ 32 else 0xFF800000
    let fires : Bool := (fcompare 5 a tau).1 && (!u.testBit 2 || (fcompare 2 old tau).1)
    let c := u / 2 ^ 192 % 2 ^ 32
    let tt := if kind = 1 then (round .fp32 0 (xadd 0 (val .fp32 c) (val .fp32 a).neg).1).1 else c
    let cost := (d + 255) / 256
    let rules (v : Nat) : Prop := ∀ j, r.rules.getD j 0 = if j = k then v else e.rules.getD j 0
    (¬applies → r = e) ∧
    (applies → (kind = 3 ∨ ext0 ≤ feat) → r = { e with out := some (.ready 8) }) ∧
    (applies → kind = 0 → feat < ext0 → r.x = e.x ∧ r.charge = e.charge + cost ∧ r.seen = e.seen ++ [k] ∧
      (fires = true → r.out = some (.fire k a) ∧ rules acted) ∧ (fires = false → r.out = none ∧ rules seen)) ∧
    (applies → (kind = 1 ∨ kind = 2) → feat < ext0 → r.out = none ∧ r.charge = e.charge + 2 * cost ∧ rules acted ∧
      r.seen = e.seen ++ [k] ∧
      r.x = (e.x.zip (elems 16 d (en / 2 ^ (512 + 16 * d)))).map fun p =>
        (round .bf16 0 (val .fp32 (round .fp32 0
          (xadd 0 (val .bf16 p.1) (xmul (val .fp32 tt) (val .bf16 p.2)).1).1).1)).1)) ∧
  -- rows
  (∀ s id r t q b, tapinById s id = some t → t.rows[r]? = some q → r < 64 → getBlock s t.blk = some b → Plain b →
    let u := writeRow s id r
    readScratch u t.blk (t.trec + 192 + 8 * r) 8 = leBytes 8 (q.val.toNat * 2 ^ 32 + q.rechecks % 256 * 2 ^ 8 + q.rule % 256) ∧
    readScratch u t.blk (t.trec + 128 + r) 1 = leBytes 1 q.status ∧
    readScratch u t.blk (t.trec + 64) 16 = leBytes 8 (t.mask TRow.ready) ++ leBytes 8 (t.mask TRow.held)) ∧
  (∀ s id r st t q, tapinById s id = some t → t.rows[r]? = some q →
    (tapinById (readyRow s id r st) id).bind (fun t => t.rows[r]?) = some { q with status := st, fault := none }) ∧
  (∀ s b t r q table s1, b.errs = [] → readTable s b (t.tableAddr q.slot) (t.party b) = (.ok table, s1) →
    (64 < nrules table → evalRow s b t r q = readyRow s1 t.id r 8) ∧
    (∀ es s2, nrules table ≤ 64 →
      readEntries s1 b (t.party b) (Rec.of t.drec) t.d (featuresOf table q.first t.tap (Rec.of t.drec).ext0) = (.ok es, s2) →
      let lo := (((Rec.of t.tile).base : Int) + (r : Int) * (Rec.of t.tile).stride1).toNat
      let e := (List.range (nrules table)).foldl (evalRule q.first t.tap t.d (Rec.of t.drec).ext0
        fun f => match es.find? (fun e => e.1 == f) with | some e => e.2 | none => 0)
        { x := elems 16 t.d (leVal (readScratch s2 t.blk lo (2 * t.d))),
          rules := (List.range (nrules table)).map (ruleOf table), seen := [], edited := false, charge := 0, out := none }
      let v := writeRules (chargeSieve s2 b t q.slot e.charge) b t (t.tableAddr q.slot) table e.rules e.seen
      let u := if e.edited then writeScratch v t.blk lo (leBytes (2 * t.d) (packElems 16 e.x)) else v
      evalRow s b t r q = match e.out with
        | some (.ready st) => readyRow u t.id r st
        | some (.fire k a) => fireRow u b t r k a table
        | none => readyRow u t.id r (if q.first then 1 else 4))) ∧
  (∀ s b (t : Tapin) r k a table (q : TRow), t.rows[r]? = some q →
    let u := writeRow (modRow s t.id r (fun q => { q with rule := k, val := BitVec.ofNat 32 a })) t.id r
    let head := headOf table
    let l := head / 2 ^ 184 % 256
    let control : Option Thread :=
      if head / 2 ^ 64 % 2 ^ 64 = (handleOf b.ctx b.serial).toNat ∧ head / 2 ^ 144 % 2 ^ 32 = b.num then
        getThread u b.uid (head / 2 ^ 176 % 256) (if b.protectd then 2 * l else l)
      else none
    (4 ≤ q.rechecks → fireRow s b t r k a table = readyRow u t.id r 5) ∧
    (q.rechecks < 4 → control = none → fireRow s b t r k a table = readyRow u t.id r 7) ∧
    (∀ c, q.rechecks < 4 → control = some c → 4 ≤ c.watchq.length → fireRow s b t r k a table = readyRow u t.id r 6) ∧
    (∀ c, q.rechecks < 4 → control = some c → c.watchq.length < 4 →
      let w : WatchTrap :=
        { slot := q.slot, pos := q.pos, tap := t.tap, feat := ruleFeat (ruleOf table k), val := BitVec.ofNat 32 a, rule := k,
          row := r, trec := t.trec, rechecks := q.rechecks, handler := BitVec.ofNat 64 (head % 2 ^ 64) }
      fireRow s b t r k a table = writeRow (modRow
        (modThread u c.blk c.gang c.lane (fun c => { c with watchq := c.watchq ++ [w] })) t.id r
        (fun q => { q with status := 2, owner := some (c.gang, c.lane) })) t.id r))

/-- The events of jobs, blocks and bundles (05 R80, R81; 10 R211-R216, R223): a group is launched on cores of one domain
when its job is next; a bundle is drawn from the oldest bin that is aged, or the oldest that is full; what waits for a bin is
filed; a clause begins, its bundle at the first of the words that were fetched, where the header is no reform point and no
wait bit holds it; a block that is idle retires, and the stores that it holds are performed where it was not killed; a
job that is over completes, and its future that is EMPTY is FULL with the handle, or CANCELLED for a killed one; an
acknowledged subtree that is over ends. That a draw which the agenda marks as aged is one past the bound of its bin, and that
an event that is not enabled changes nothing, are the model's choices (log 1). -/
def Obligations.JobEvents : Prop :=
  (∀ ctx serial cores j uids s1 s, getJob s ctx serial = some j →
    mayLaunch s j cores = true →
    placeBlocks s j j.launched j.launched cores = some (uids, s1) →
    exec (.blockLaunch ctx serial cores) s = .next (uids.foldl (fun s u => startBlock s u (entryOf j.card))
      (modJob s1 ctx serial (fun j => { j with launched := j.launched + cores.length })))) ∧
  (∀ bin aged b s, s.bins.find? (fun b => b.id == bin) = some b → drawsFrom s b aged = true →
    let ms := drawOf b.filed
    let rest := b.filed.filter (fun m => !ms.contains m)
    let bins := if rest.isEmpty then s.bins.filter (fun x => x.id != bin)
      else updWhere s.bins (fun x => x.id == bin) (fun x => { x with filed := rest })
    let t := (newBundle { s with bins := bins } none b.blk b.role (ms.map Filed.m) (Place.at_ b.hdr) true false).2
    exec (.bundleDraw bin aged) s = .next (if rest.isEmpty then settleBins t b.core else t)) ∧
  (∀ core s, exec (.arrivalQueueFile core) s = .next (fileArrivals s core)) ∧
  (∀ bundle b k s, getBundle s bundle = some b → getBlock s b.blk = some k →
    exec (.clauseBegin bundle) s = .next (if mayBegin s b k then beginClause s b k else s)) ∧
  (∀ k va pa t s, translate s (.fetch k.core) k.ctx k.kernel 3 va (partyOf k 0 (BitVec.ofNat 64 va) 0 0 va) = (.ok pa, t) →
    poisoned t pa 8 = false →
    fetchWord s k va = (.ok (BitVec.ofNat 64 (readLE t pa 8)), t)) ∧
  (∀ k va n ws t s, fetchWords s k va n = (.ok ws, t) →
    ws.length = n ∧ ∀ j (hj : j < ws.length), ∃ u, (fetchWord u k (va + 8 * j) (va - 8)).1 = .ok ws[j]) ∧
  (∀ b k h w s1 s, b.place.hdr.toNat % 8 = 0 → fetchWord s k b.place.hdr.toNat = (.ok w, s1) → decodeHeader w = some h →
    (h.rf = true ∧ b.drawn = false → beginClause s b k = fileMembers s1 b k.core) ∧
    ((h.rf = true → b.drawn = true) →
      let m := mergePath s1 b.id
      let q := (getBundle m b.id).getD b
      (headerHolds m q h.waits = true → beginClause s b k = m) ∧
      (headerHolds m q h.waits = false → ∀ ws s2 x, fetchWords m k (q.place.hdr.toNat + 8) (h.n + 1) = (.ok ws, s2) →
        getBundle (settleBins (takeTurn (clearPark s2 q) q) k.core) q.id = some x →
        getBundle (beginClause s b k) q.id = some { x with
          place := { x.place with clause := some ⟨h.cls, ws⟩, idx := 0 }, drawn := false, yielded := x.yielded || h.yl }))) ∧
  (∀ blk b s, getBlock s blk = some b → blockBusy s b = false →
    exec (.blockRetire blk) s = .next (dropBlock (stallRecord (if b.killed then s else drainHold s blk) blk) blk)) ∧
  (∀ ctx serial j s, getJob s ctx serial = some j →
    exec (.jobComplete ctx serial) s = .next (if jobOver s j then endJob s j j.killed else s)) ∧
  (∀ j pa t s, cardDone j.card ≠ 0 → translate s .device j.ctx (cardKernel j.card) 2 (cardDone j.card) = (.ok pa, t) →
    poisoned t pa 16 = false → (futState t pa = 0 ∨ futState t pa = 3) →
    futState (endJob s j false) pa = 1 ∧ futValue (endJob s j false) pa = (handleOf j.ctx j.serial).toNat ∧
    futState (endJob s j true) pa = 2) ∧
  (∀ ctx scope x s, getScope s ctx scope = some x → x.cancelled = true → scopeBusy s ctx scope = false →
    s.outst.any (fun o => o.acks ctx scope) = true → exec (.scackComplete ctx scope) s = .next (endScope s x))

/-- The events of saves (11 R239-R248): a block that is ready for its save is saved, and resumed at once where its group has
been, or holds in place while the trap queue is full; its job is killed where no kernel can take its fault; its copies'
bound passes; the oldest trap-queue entry is written where the queue has room; a resumed group is restored on cores of one
domain that have room, and a fault that its engines have met since the resume asks for a new save. That a save of a group already resumed is resumed at once (log 14),
what becomes of a frame that cannot be written (log 16), and that the agenda says when the bound has passed (log 1), are the
model's choices. -/
def Obligations.SaveEvents : Prop :=
  (∀ blk b r s, getBlock s blk = some b → b.saveReq = some r → saveReady s b = true →
    (copiesRun s blk = false ∨ r.bounded = true) → s.act.saves < s.cfg.budgets.saves →
    ((blockFaults s blk).isEmpty = true ∨ (s.kqsize ≠ 0 ∧ b.kernel = false)) →
    exec (.save blk) s = .next (if queueFull s then s else unstall (joinResume (saveBlock
      ((s.copies.filter (fun c => c.blk == blk)).foldl (fun s c => settleFlying s c.id) s) b r) b r))) ∧
  (∀ blk b r s, getBlock s blk = some b → b.saveReq = some r → saveReady s b = true →
    (copiesRun s blk = false ∨ r.bounded = true) → s.act.saves < s.cfg.budgets.saves →
    (blockFaults s blk).isEmpty = false → (s.kqsize = 0 ∨ b.kernel = true) →
    exec (.save blk) s = .next (unstall (noKernelTrap s b
      (match firstFault s blk r with | some f => f.2.2.cause.toNat | none => 0)))) ∧
  (∀ blk b s, getBlock s blk = some b → exec (.saveCopyBound blk) s = .next (if saveReady s b && copiesRun s blk then
      modBlock s blk (fun b => { b with saveReq := b.saveReq.map (fun r => { r with bounded := true }) }) else s)) ∧
  (∀ e rest s1 s, s.entries = e :: rest → s.kqsize ≠ 0 → s.kqtail - s.kqhead ≠ s.kqsize →
    ctxWrite s s.kqctx true (s.kqbase.toNat + 64 * (s.kqtail.toNat % s.kqsize.toNat)) (leBytes 64 e.bits.toNat) = some s1 →
    exec .trapEntryWrite s = .next (fillKqfut { s1 with entries := rest, kqtail := s1.kqtail + 1 })) ∧
  (∀ ticket cores r b s1 s, s.saves.find? (fun r => r.ticket == ticket && r.resumed) = some r → getBlock s r.blk = some b →
    let group := s.blocks.filter (fun q => q.sameGroup b)
    cores.length = group.length → oneDomain b.glevel cores = true →
    group.all (fun q => s.saves.any (fun r => r.blk == q.uid && r.resumed)) = true →
    restoreAll s (group.zip cores) = some s1 →
    exec (.restore ticket cores) s = .next (pollJpwait (settleMtx (group.foldl saveAgain s1))))

/-- The events of checking and of the firmware (21 R374-R382; 24 R400, R403, R405-R407): a checkpoint that is due begins a
new interval; a machine check rolls its block back, where its image can be read, or climbs the ladder; contexts are lost and
the device is reset, each with the record of its check; scrubbing; islands, units, power and budgets, with which the
requests that wait at the pool engines are served. The unit that a record names for a line or for device state (log 6), the
numbers of the islands (log 4), the memory that a cold reset leaves (log 2, log 3), what a checkpoint waits for, and which
contexts a warm reset implicates and what it keeps (log 17), are the model's choices. -/
def Obligations.ReliabilityEvents : Prop :=
  (∀ blk b b1 s, getBlock s blk = some b → ckptReady s b = true → getBlock (drainHold s blk) blk = some b1 →
    b1.mcheck = [] → exec (.checkpoint blk) s = .next (settleMtx (wakeBars (beginInterval (drainHold s blk) b1) blk))) ∧
  (∀ blk b s, getBlock s blk = some b → b.mcheck ≠ [] → b.killed = false → allStopped s blk = true →
    exec (.rollback blk) s = .next (match rollsBack s b with
      | none => unstall (escalate s b)
      | some c =>
        let r := readCellar s b
        let k := (getBlock r.2 blk).getD b
        if r.1 then rollBack r.2 k c else unstall (escalate r.2 k))) ∧
  (∀ ctx s, ctxLive s ctx = true → exec (.contextLoss ctx) s =
    .next (unstall (checkLoss (logMck (lineHolder s).2 { lineRec (lineHolder s).1 6 0x23 4 with ctx := ctx }) ctx))) ∧
  (∀ cs s, exec (.warmReset cs) s = .next (warmReset
    (logMck (freshFree s).2 (lineRec (if Config.deviceUnit (freshFree s).1 then 14 else 12) 3 0x23 5))
    (cs.filter (working s)))) ∧
  (∀ s, ∃ t, exec .coldReset s = .next t ∧ t.threads = [] ∧ t.blocks = [] ∧ t.ctxs = [] ∧ t.jobs = [] ∧ t.kqsize = 0 ∧
    t.mem = s.mem.filter (fun e => hostBacked s e.1) ∧ t.cfg.part = s.cfg.part ∧ t.cfg.hbmchan = s.cfg.hbmchan) ∧
  (∀ pa s, scrubLine s (pa / 64) = none → exec (.scrub (.corrected pa)) s = .next s ∧ exec (.scrub (.uncorrectable pa)) s = .next s) ∧
  (∀ pa unit t s, scrubLine s (pa / 64) = some (unit, t) →
    exec (.scrub (.corrected pa)) s = .next (logMck
      { t with lineErrs := t.lineErrs.filter (fun e => e.1 != pa / 64 || e.2 == .uncorrectable) } (lineRec unit 2 0 0)) ∧
    (t.poison.contains (pa / 64) = false → exec (.scrub (.uncorrectable pa)) s = .next (logMck (settleFound
      { t with poison := t.poison ++ [pa / 64],
               lineErrs := t.lineErrs.filter (fun e => e.1 != pa / 64) ++ [(pa / 64, .uncorrectable)] }) (lineRec unit 3 0x23 6))) ∧
    (t.poison.contains (pa / 64) = true → (∀ e ∈ t.lineErrs, e.1 ≠ pa / 64) →
      exec (.scrub (.uncorrectable pa)) s = .next (logMck (settleFound t) (lineRec unit 3 0x23 6)))) ∧
  (∀ s, exec (.scrub .clean) s = .next s) ∧
  (∀ blk s, exec (.scrub (.core blk)) s = .next (match getBlock s blk with
    | none => s
    | some b => (errsAt b ErrAt.scrubbed true).foldl
        (fun s e => logMck s { lineRec e.place.unit 3 0x23 6 with blk := some b.uid, ctx := b.ctx, core := b.core })
        (correctErrs s b 0 0 0 0 (errsAt b ErrAt.scrubbed false)))) ∧
  (∀ p lanes s, p < 8 → (lanes = 0 ∨ lanes = 1 ∨ lanes = 2) → lanes < natBits s.cfg.links.toNat (4 * p) 4 →
    let l := s.cfg.links.toNat - fld (4 * p) 4 (natBits s.cfg.links.toNat (4 * p) 4) + fld (4 * p) 4 lanes
    exec (.unitDegrade (.port p lanes)) s =
      .next (deviceRec { s with cfg := { s.cfg with links := BitVec.ofNat 32 l } } 0xFF 15 8)) ∧
  (∀ st ch s, st < numStacks s → ch < 8 → s.cfg.hbmchan.getLsbD (8 * st + ch) = true →
    let live := s.cfg.hbmchan &&& ~~~(1#64 <<< (8 * st + ch))
    exec (.unitDegrade (.channel st ch)) s =
      .next (deviceRec { s with cfg := { s.cfg with hbmchan := live } } 0xFF 13 8)) ∧
  (∀ n s, islandHere s n = true → s.tripped.contains n = false → exec (.thermalTrip n) s =
    .next (deviceRec { s with tripped := s.tripped ++ [n] } (islandOf n).1 (islandOf n).2 7)) ∧
  (∀ n s, exec (.thermalRecover n) s = .next (unstall { s with tripped := s.tripped.filter (· != n) })) ∧
  (∀ mean shares s, ∃ t, exec (.powerEstimate mean shares) s = .next t ∧
    (s.cfg.plimit.toNat ≥ mean → t = shares.foldl (fun s x => modCtx s x.ctx (fun c => { c with mjSpent := c.mjSpent + x.mj })) s)) ∧
  (∀ s, exec .periodBoundary s = .next (unstall (servePools
    { s with act := Activity.reset, ctxs := s.ctxs.map (fun c => { c with bytesSpent := 0, mjSpent := 0, traceSpent := 0 }) })))

/-- The events of the host (24 R396-R405; 21 R369-R371): the registers of a queue, an entry that is there, a notification whose
ring has room, the power limit, measurement, attestation, the walk routine store after a boot that has not stopped, and
accesses and atomic operations to device memory. What the host and the task engine reach shows its errors: a poisoned line
gives no entry and leaves a record. A write of QSTATE that only clears, a misaligned QBASE or NBASE that changes nothing and
the bits [62:0] of QBASE as one physical address (log 17), and the byte layout of a report and an image that fails to verify and is not loaded (log 9),
are the model's choices. -/
def Obligations.HostEvents : Prop :=
  let reg (i : Instr) (q : Nat) (f : HostQ → HostQ) : Prop :=
    ∀ s, exec i s = .next (if q < 64 then setQueue s q (f (getQueue s q)) else s)
  (∀ q v, reg (.qtail q v) q fun x => if x.qbase.getLsbD 63 then { x with qtail := v } else x) ∧
  (∀ q (v : W32), reg (.qsize q v) q fun x => if v = 0 ∨ pow2In v.toNat 16 65536 then
    { x with gen := x.gen + 1, qsize := v, lastAcc := 0, lastDone := 0, entries := [] } else x) ∧
  (∀ q (v : W32), reg (.qstate q v) q fun x => if v.getLsbD 0 then x else { x with qstate := 0 }) ∧
  (∀ q (v : W32), reg (.nsize q v) q fun x => if pow2In v.toNat 16 65536 then { x with nsize := v, ntail := 0 } else x) ∧
  (∀ q (v : W32), reg (.nhead q v) q fun x => if beyond v.toNat x.ntail.toNat then x else { x with nhead := v }) ∧
  (∀ q off (v : W64), reg (.queueRegisterWrite q off v) q fun x => match off with
    | 0x00 => if x.qsize = 0 ∧ v.toNat % 256 = 0 then { x with qbase := v } else x
    | 0x0C => if x.qsize = 0 then { x with qctx := v.setWidth 32 } else x
    | 0x20 => if v.toNat % 32 = 0 then { x with nbase := v } else x
    | 0x34 => { x with nvec := v.setWidth 32 }
    | _ => x) ∧
  (∀ q s, q < 64 →
    let x := getQueue s q
    let n := x.lastAcc + 1
    let pa := x.qbase.toNat % 2 ^ 63 + 256 * (n.toNat % x.qsize.toNat)
    x.qsize ≠ 0 → x.qstate.getLsbD 0 = false → (x.qbase.getLsbD 63 = true → seqAtOrBefore n x.qtail = true) →
    let t := outsideMeet s pa 256
    (poisoned s pa 256 = true → exec (.queueEntryTake q) s = .next s) ∧
    (poisoned s pa 256 = false → poisoned t pa 256 = true → exec (.queueEntryTake q) s = .next t) ∧
    (poisoned s pa 256 = false → poisoned t pa 256 = false → BitVec.ofNat 32 (leVal ((readBytes t pa 256).take 4)) = n →
      exec (.queueEntryTake q) s = .next (takeEntry t q n (readBytes t pa 256)))) ∧
  (∀ pa n s, 0 < n → (∀ e ∈ s.lineErrs, e.1 < pa / 64 ∨ (pa + n - 1) / 64 < e.1) → outsideMeet s pa n =
    if poisoned s pa n then logMck (lineHolder (settleFound s)).2 (lineRec (lineHolder (settleFound s)).1 6 0x23 6) else s) ∧
  (∀ q note rest s,
    let x := getQueue s q
    x.notes = note :: rest → x.nsize ≠ 0 → x.ntail - x.nhead ≠ x.nsize →
    exec (.notificationWrite q) s = .next (writeNote s q x note rest)) ∧
  (∀ (v : W32) s, exec (.plimit v) s =
    .next (if 600 ≤ v.toNat ∧ v.toNat ≤ 3000 then { s with cfg := { s.cfg with plimit := v } } else s)) ∧
  (∀ nonce s, ∃ sig, exec (.attestationReport nonce) s = .next { s with reports := s.reports ++ [reportBody s nonce ++ sig] } ∧
    sig.length = 132) ∧
  (∀ mr d s, exec (.hostMeasurement mr d) s =
    .next (if mr = 5 ∨ mr = 6 then { s with cfg := { s.cfg with mr := extendMr s.cfg.mr mr d } } else s)) ∧
  (∀ base image s, s.cfg.bootfail = true → exec (.walkRoutineLoad base image) s = .next s) ∧
  (∀ base image s, s.cfg.bootfail = false → exec (.walkRoutineLoad base image) s = .next (
    if base + image.length ≤ 65536 ∧ Config.verified (freshFree s).1 = true then
      { (freshFree s).2 with
          walkStore := putBytes s.walkStore base image,
          cfg := { s.cfg with mr := extendMr s.cfg.mr 2 (Config.digestOf image) } }
    else if base + image.length ≤ 65536 then (freshFree s).2 else s)) ∧
  (∀ pa n s, exec (.hostDeviceMemoryAccess (.read pa n)) s = .next (if n = 0 then s else outsideMeet s pa n)) ∧
  (∀ pa bytes s, bytes ≠ [] → exec (.hostDeviceMemoryAccess (.write pa bytes)) s =
    .next (unstall (hostWrite (outsideMeet s pa bytes.length) pa bytes))) ∧
  (∀ pa n v c w s, (n = 4 ∨ n = 8) → pa % n = 0 → backed s pa = true →
    let put (x : Nat) : Res := .next (unstall (hostWrite (outsideMeet s pa n) pa (leBytes n x)))
    exec (.hostDeviceMemoryAccess (.fetchAdd pa n v)) s = put (readLE s pa n + v) ∧
    exec (.hostDeviceMemoryAccess (.swap pa n v)) s = put v ∧
    exec (.hostDeviceMemoryAccess (.cas pa n c w)) s = put (if readLE s pa n = c then w else readLE s pa n)) ∧
  (∀ pa c w s, pa % 16 = 0 → backed s pa = true → exec (.hostDeviceMemoryAccess (.cas pa 16 c w)) s =
    .next (unstall (hostWrite (outsideMeet s pa 16) pa (leBytes 16 (if readLE s pa 16 = c then w else readLE s pa 16)))))

/-- No bit of an encoding is dropped (02 R32-R39): every instruction that the checks of 02 R39 let stand reads back from
its word, with every operand as it was. The two writes of the STATE register share one word, which reads as the first of
them: that is the model's choice (log 11). -/
def Obligations.DecodingInvertsEncoding : Prop :=
  ∀ i : Instr, i.wf = true → isEvent i = false → decode (encode i) = .instr i.canon

/-- A word that reads as an instruction or as a clause header has no bit that the reading drops: it is the word of what it
reads as, so that a word with a field that must be zero and is not reads as nothing (02 R18-R20, R39). Every header with 1 to
16 words reads back from its word; and a word is a header exactly where its tag is 0xA, its class 0 to 9 and its bits [42:0]
are zero. -/
def Obligations.EncodingInvertsDecoding : Prop :=
  (∀ (w : W64) (i : Instr), decode w = .instr i → encode i = w) ∧
  (∀ (w : W64) (h : Header), decodeHeader w = some h → encodeHeader h = w) ∧
  (∀ h : Header, h.n < 16 → decodeHeader (encodeHeader h) = some h) ∧
  (∀ w : W64, (decodeHeader w).isSome = true ↔
    w.toNat / 2 ^ 60 = 0xA ∧ w.toNat / 2 ^ 56 % 16 ≤ 9 ∧ w.toNat % 2 ^ 43 = 0)

/-- Words that the spec works out, one or more of each family of the opcode table, read as the instructions that they
stand for (02 R18 and its example, 05 GETS, 06 R104, 07, 09 R188, 10, 11, 12, 14, 15, 17, 19, 21). -/
def Obligations.WordsReadRight : Prop :=
  let u : Ctl := { gn := false, gi := 63, pk := false }
  let p (n : BitVec 6) : Ctl := { gn := false, gi := n, pk := false }
  (decode 0x0F7E_0009_0102_0396 = .instr (.lut3 u false 9 1 2 3 0x96) ∧
   decode 0x1E08_6407_02FF_FFFB = .instr (.icmpi (p 4) false true 2 2 7 2 0xFFFFFB) ∧
   decode 0x127E_1005_0404_0001 = .instr (.fshl u true 5 4 4 0 1) ∧
   decode 0x2800_0000_FFFF_FFFE = .instr (.bra (p 0) 0xFFFFFFFE) ∧
   decode 0x3204_0000_0600_0020 = .instr (.sets (p 2) 6 0x20)) ∧
  (decode 0x427E_0008_0102_0800 = .instr (.ffma u 0 false false 8 1 2 8) ∧
   decode 0x5F7E_8014_080C_0409 = .instr (.dotsE4m3 u 2 20 8 12 4 9)) ∧
  (decode 0x717E_9A06_0409_FFFF = .instr (.st u 2 3 2 6 4 1 0 0x1FFFF) ∧
   decode 0x747E_5A08_0200_0000 = .instr (.cas u 1 3 2 8 2 0 0 0) ∧
   decode 0x777E_0003_C800_0000 = .instr (.bset u 3 200)) ∧
  (decode 0x937E_8005_0406_0000 = .instr (.bwait u true 5 4 6) ∧
   decode 0x997E_4007_0200_0000 = .instr (.slacq u true 7 2)) ∧
  (decode 0xA07E_600A_0403_0801 = .instr (.cpy u 3 0 false 10 4 3 8 1) ∧
   decode 0xAF7E_A000_0400_40CA = .instr (.mmaE4m3 u true false true 0 4 0 64 202) ∧
   decode 0xBA7E_801E_0A00_0000 = .instr (.taprm u true 30 10)) ∧
  (decode 0xC67E_0006_0400_0005 = .instr (.frd u 6 4 5) ∧
   decode 0xD27E_0103_050A_0009 = .instr (.cwr u true 3 5 10 9) ∧
   decode 0xD57E_6003_C400_0000 = .instr (.errinj u 3 3 196) ∧
   decode 0xE17E_800A_0405_0000 = .instr (.kalloc u true 10 4 5))

/-- A run never stops in this model: an instruction whose bundle stands at a word of its clause always answers a next
state, only an instruction without an issuing bundle stops (noIssuer, the model's own name, log 11), and every step
answers a next state. -/
def Obligations.StepsNeverStop : Prop :=
  (∀ (i : Instr) (s : State), AtWord s → Goes (exec i s)) ∧
  (∀ (i : Instr) (s : State), isEvent i = false → getBundle s s.cur = none → exec i s = .fault .noIssuer) ∧
  (∀ s, Goes (step s))

/-- Global memory keeps its canonical form: addresses rising, and no listed byte equal to what an unlisted one reads as; and
so do the v and s registers, the buffer records, the scratchpads, the walk store and the host queues, and what checkpoints
keep of them (the model's own form, log 2). -/
def Obligations.MemoryStaysCanonical : Prop :=
  (∀ s t, Memory.wf s.mem = true → step s = .next t → Memory.wf t.mem = true) ∧
  (∀ s t, Canonical s → step s = .next t → Canonical t)

/-- The machine after a cold reset: no context, job or block, the registers of the trap queue 0 (11 R246), no trip, and
the power limit 3,000 W (24 R405); and it is canonical (the model's own form, log 2). The heartbeat at 0 and PART at the
number of TNF-7208 are the model's choices (log 3, log 4). -/
def Obligations.ResetState : Prop :=
  let s := State.reset
  s.ctxs = [] ∧ s.jobs = [] ∧ s.blocks = [] ∧ s.threads = [] ∧ s.bundles = [] ∧ s.tripped = [] ∧ s.heart = 0 ∧
  s.kqbase = 0 ∧ s.kqsize = 0 ∧ s.kqhead = 0 ∧ s.kqtail = 0 ∧ s.kqfut = 0 ∧
  s.cfg.plimit = 3000 ∧ s.cfg.part = 0x7208 ∧ Canonical s

/-- A step runs the instruction that the word decodes to (02 R18, R23, R25): where the agenda names a bundle that may
go on, at a word of the clause that it has fetched, the step is exec of the decoded instruction in the state in which
the bundle has its turn. Where the agenda names an event, the step is exec of it; where it names an error that strikes
a block's storage or a line of memory, the error stands there (21 R368, R369); and what the firmware sets is set (24
R401, R406). That a step takes the head of the agenda, which is data and names a bundle, an event, an error or a setting of
the firmware, is the model's choice (log 1). A step that needs a page walk or a copy to the cellar beyond a budget of the
period waits for the next period (09 R202, 21 R375, 24 R406). Time passes with each step, for the stall counters alone (23
R392; log 6). -/
def Obligations.StepRunsTheDecodedInstruction : Prop :=
  let timed (r : Res) : Res := match r with | .next t => .next (passTime t) | r => r
  (∀ (s0 : State) (id : Nat) (rest : List Act) (q : Bundle) (c : Clause) (b : Block) (w : W64) (i : Instr),
    s0.agenda = .go id :: rest →
    MayGoOn { s0 with agenda := rest } id q c b → c.words[q.place.idx]? = some w → decode w = .instr i →
    let s := { s0 with agenda := rest }
    step s0 = timed (withinBudgets s (modBundle s id (fun x => { x with stalled := true })) (exec i (atIssue s q id)))) ∧
  (∀ (s0 : State) (e : Instr) (rest : List Act), s0.agenda = .ev e :: rest → isEvent e = true →
    let s := { s0 with agenda := rest }
    step s0 = timed (withinBudgets s s (exec e s))) ∧
  (∀ (s0 : State) (b : Nat) (e : StoreErr) (rest : List Act), s0.agenda = .strike b e :: rest →
    step s0 = .next (passTime (strikeErr { s0 with agenda := rest } b e))) ∧
  (∀ (s0 : State) (l : Nat) (e : LineErr) (rest : List Act), s0.agenda = .strikeLine l e :: rest →
    step s0 = .next (passTime (strikeLine { s0 with agenda := rest } l e))) ∧
  (∀ (s0 : State) (f : Firm) (rest : List Act), s0.agenda = .firm f :: rest →
    step s0 = .next (passTime (setFirm { s0 with agenda := rest } f)))

/-- A word that is no instruction, met by a bundle that may issue it, raises a fault in every member (02 R39-R41, 08
R163): the one that the earlier checks name, else ILLOP for a reserved opcode and ILLENC for a reserved field. -/
def Obligations.ReservedWordsFault : Prop :=
  ∀ (s0 : State) (id : Nat) (rest : List Act) (q : Bundle) (c : Clause) (b : Block) (w : W64) (r : DecErr),
    s0.agenda = .go id :: rest →
    MayGoOn { s0 with agenda := rest } id q c b → c.words[q.place.idx]? = some w → decode w = .reject r →
    let cause := (orderFault b q.role c q.place.idx (opOf w).toNat).getD (match r with | .illop => 0x01 | .illenc => 0x02)
    step s0 = .next (passTime <| raise (itsTurn { s0 with agenda := rest } q id) b.uid (opOf w).toNat q.place.addr
      (q.mem.map fun m => ⟨m.1, m.2, { cause := cause }⟩))

/-- The checks that every instruction passes before its effect, in order (02 R40; 05 R87, R92, R101; 21 R368): an
instruction that may not stand where it stands faults in every thread of the bundle; a register that a gang has not got
raises REGRANGE (0x16) in every thread of that gang, whatever its guard, and in no other gang's, which is the model's choice
(log 19); lanes of a pair that differ raise LANEPAIR; a double error in a source register raises ECC. Nothing else of the
instruction is performed. Every instruction that a word decodes to is issued so with the word's opcode, and instructions of
each class are, with the register groups that they read and write. -/
def Obligations.IssueChecksFault : Prop :=
  (∀ op k (src : State → List RG) dst late eff addr,
    ChecksFault (fun s => issue op k (src s) dst s eff late addr) op k src dst late) ∧
  (∀ (w : W64) (i : Instr), decode w = .instr i → ∀ s,
    ∃ k src dst late eff addr, exec i s = issue (opOf w).toNat k src dst s eff late addr) ∧
  (∀ (w : W64) (i : Instr) (s : State) (q : Bundle) (c : Clause) (b : Block) (cause : Nat), decode w = .instr i →
    getBundle s s.cur = some q → q.place.clause = some c → getBlock s q.blk = some b →
    orderFault b q.role c q.place.idx (opOf w).toNat = some cause →
    exec i s = .next (raise s b.uid (opOf w).toNat q.place.addr
      ((lanesOf s q).map fun x => ⟨x.t.gang, x.t.lane, { cause := cause }⟩))) ∧
  (∀ k w sg sat d a b, ChecksFault (exec (.iadd k w sg sat d a b)) 0x02 k (fun _ => [rW w a, rW w b]) [⟨d, (wN w + 31) / 32⟩] []) ∧
  (∀ k d a, ChecksFault (exec (.ret k a)) 0x2B k (fun _ => [r64 a]) [] [] ∧
    ∀ tgt, ChecksFault (exec (.call k d tgt)) 0x2A k (fun _ => []) [r64 d] []) ∧
  (∀ k d a b, ChecksFault (exec (.fmin k d a b)) 0x43 k (fun _ => [r32 a, r32 b]) [⟨d, (32 + 31) / 32⟩] []) ∧
  (∀ k g d a, ChecksFault (exec (.barw k g d a)) 0x94 k (fun _ => [if g then r64 a else r32 a]) [r32 d] []) ∧
  (∀ k d, ChecksFault (exec (.cseal k d)) 0xA4 k (fun _ => []) [r32 d] []) ∧
  (∀ k int acc, ChecksFault (exec (.mzero k int acc)) 0xAC k (fun _ => []) [] []) ∧
  (∀ k ord scope size d a bq cp off, ChecksFault (exec (.ld k ord scope size d a bq cp off)) 0x70 k (fun s => idxSrc s bq a)
    [⟨d, regsOf (accBytes size)⟩] []) ∧
  (∀ k a b, ChecksFault (exec (.fwr k a b)) 0xC5 k (fun _ => [r64 a, r64 b]) [] [] ∧
    ∀ d x, ChecksFault (exec (.frd k d a x)) 0xC6 k (fun _ => [r64 a]) [r64 d] []) ∧
  (∀ k xc d a b c, ChecksFault (exec (.scopen k xc d a b c)) 0xC7 k
    (fun _ => r32 a :: r64 b :: if xc then [r32 c] else []) [r32 d] [])

/-- What an instruction that writes one result per active lane leaves alone (02 R34; 05 R94, R95; 08 R163): every v
register but the destination group of the active lanes, every s register but the destination of their gangs, every
predicate but the destination of the active lanes, every flag where it raises none, all of memory, and every other part
of the machine; of the bundle, its threads' program counters and park marks may change. It holds where the bundle goes on
inside its clause and no held store can drain (21 R376). -/
def Obligations.ResultFrames : Prop :=
  let inner (q : Bundle) (c : Clause) (b : Block) : Prop := q.place.idx + 1 < c.words.length ∧ Quiet b
  let vs (xs : List Lane) (d : Reg) (n b g l r : Nat) : Prop :=
    laneIn xs b g l ∧ d.toNat < 192 ∧ d.toNat ≤ r ∧ r < d.toNat + (n + 31) / 32
  let ss (xs : List Lane) (d : Reg) (n b g r : Nat) : Prop :=
    (∃ l, laneIn xs b g l) ∧ 192 ≤ d.toNat ∧ d.toNat - 192 ≤ r ∧ r < d.toNat - 192 + (n + 63) / 64
  (∀ i op k src d n f, Lanes i op k src d n f → ∀ s q c b, Ready s op k src [⟨d, (n + 31) / 32⟩] [] q c b → inner q c b →
    let xs := activeOf s q k
    ∃ t, exec i s = .next t ∧
      OnlyWrites s t (vs xs d n) (ss xs d n) (fun _ _ _ _ => False) (fun _ _ _ => False)) ∧
  (∀ i op k src d n f, LanesF i op k src d n f → ∀ s q c b, Ready s op k src [⟨d, (n + 31) / 32⟩] [] q c b → inner q c b →
    let xs := activeOf s q k
    ∃ t, exec i s = .next t ∧ OnlyWrites s t (vs xs d n) (ss xs d n) (fun _ _ _ _ => False) (laneIn xs)) ∧
  (∀ i op k src d f, LanesP i op k src d f → ∀ s q c b, Ready s op k src [] [] q c b → inner q c b →
    let xs := activeOf s q k
    ∃ t, exec i s = .next t ∧ OnlyWrites s t (fun _ _ _ _ => False) (fun _ _ _ => False)
      (fun b g l n => laneIn xs b g l ∧ n = d.toNat) (fun _ _ _ => False))

/-- What issues leave alone (08 R170; 10 R209, R245; 11 R245, R246; 12, 14, 15, 17, 19): where the bundle goes on inside its
clause, no held store can drain and no error stands in the block, the instructions below change no byte of memory and no
control register of the device or of a context, whatever they answer, a fault included. So do the copies and the pool
requests of threads with nothing outstanding, which they release, and scratchpad accesses of a record that is not checked.
The entries that accesses of such a record make at their targets change no memory, nor does the going on of a bundle. An
instruction of the SYS class in a block of task level faults, and changes none of them (02 R40, 11 R245). -/
def Obligations.IssueFrames : Prop :=
  let still (i : Instr) (op : Nat) (k : Ctl) (src : State → List RG) (dst : List RG) (ok : State → Block → Prop) : Prop :=
    ∀ s q c b, Ready s op k (src s) dst [] q c b → q.place.idx + 1 < c.words.length → (∀ k ∈ s.blocks, Quiet k) →
      b.errs = [] → b.bad = [] → ok s b → ∃ t, exec i s = .next t ∧ Still s t
  let always (i : Instr) (op : Nat) (k : Ctl) (src dst : List RG) : Prop := still i op k (fun _ => src) dst (fun _ _ => True)
  let idle (i : Instr) (op : Nat) (k : Ctl) (src dst : List RG) : Prop := still i op k (fun _ => src) dst (fun s _ => s.outst = [])
  let copy (i : Instr) (op : Nat) (k : Ctl) (dk : BitVec 3) (d a b c : Reg) (x : BitVec 8) : Prop :=
    still i op k (fun s => copySrc s op dk.toNat d a b c x) [] (fun s _ => s.outst = [])
  let scratch (bq : BitVec 5) (s : State) (b : Block) : Prop :=
    s.outst = [] ∧ (Rec.of (b.recOf bq.toNat)).spc = true ∧ isChecked b (Rec.of (b.recOf bq.toNat)) = false
  (∀ k ord scope, always (.fence k ord scope) 0x75 k [] []) ∧
  (∀ k d a, always (.bset k d a) 0x77 k [] []) ∧
  (∀ k d a, always (.bget k d a) 0x78 k [rRec a.toNat] []) ∧
  (∀ k ord scope size d a bq cp off, still (.ld k ord scope size d a bq cp off) 0x70 k (fun s => idxSrc s bq a)
    [⟨d, regsOf (accBytes size)⟩] (scratch bq)) ∧
  (∀ k ord scope size d a bq cp off, still (.st k ord scope size d a bq cp off) 0x71 k
    (fun s => ⟨d, regsOf (accBytes size)⟩ :: idxSrc s bq a) [] (scratch bq)) ∧
  (∀ k ord scope size d a bq aop off, still (.atom k ord scope size d a bq aop off) 0x72 k
    (fun s => ⟨d, regsOf (accBytes size)⟩ :: idxSrc s bq a) [⟨d, regsOf (accBytes size)⟩] (scratch bq)) ∧
  (∀ k ord scope size d a bq aop off, still (.atomn k ord scope size d a bq aop off) 0x73 k
    (fun s => ⟨d, regsOf (accBytes size)⟩ :: idxSrc s bq a) [] (scratch bq)) ∧
  (∀ k ord scope size d a bq cp off, still (.cas k ord scope size d a bq cp off) 0x74 k
    (fun s => ⟨d, 2 * regsOf (accBytes size)⟩ :: idxSrc s bq a) [⟨d, regsOf (accBytes size)⟩] (scratch bq)) ∧
  (∀ j r m ord scope n d (xs : List (Lane × Tgt)) s, isChecked j.b r = false →
    Still s (xs.foldl (ldLane j r m ord scope n d) s)) ∧
  (∀ j r m ord scope size d (xs : List (Lane × Tgt)) s, isChecked j.b r = false →
    Still s (xs.foldl (stLane j r m ord scope size d) s)) ∧
  (∀ j r m ord scope size d aop ret (xs : List (Lane × Tgt)) s, isChecked j.b r = false →
    Still s (xs.foldl (atomLane j r m ord scope size d aop ret) s)) ∧
  (∀ j r ord scope size d (xs : List (Lane × Tgt)) s, isChecked j.b r = false →
    Still s (xs.foldl (casLane j r ord scope size d) s)) ∧
  (∀ j s c, j.next.clause = some c → Still s (after j s)) ∧
  (∀ k d a, always (.bjoin k false d a) 0x91 k [r32 a] [r32 d]) ∧
  (∀ k d a b, always (.bwait k false d a b) 0x93 k [r32 a, r32 b] [r32 d]) ∧
  (∀ k d a x, always (.bqry k false d a x) 0x97 k [r32 a] [r32 d]) ∧
  (∀ k d a, always (.rginit k d a) 0x98 k [r64 a] [r32 d]) ∧
  (∀ k d a, always (.rginitFree k d a) 0x98 k [r32 a] [r32 d]) ∧
  (∀ k nb d a, always (.slacq k nb d a) 0x99 k [r32 a] [r32 d]) ∧
  (∀ k nb d a, always (.sltak k nb d a) 0x9B k [r32 a] [r32 d]) ∧
  (∀ k dk ad bc d a b c x, copy (.cpy k dk ad bc d a b c x) 0xA0 k dk d a b c x) ∧
  (∀ k dk ad bc d a b c x, copy (.cpyg k dk ad bc d a b c x) 0xA1 k dk d a b c x) ∧
  (∀ k dk ad bc d a b c x, copy (.cpys k dk ad bc d a b c x) 0xA2 k dk d a b c x) ∧
  (∀ k dk ad bc d a b c x, copy (.cpyf k dk ad bc d a b c x) 0xA3 k dk d a b c x) ∧
  (∀ k d, always (.cseal k d) 0xA4 k [] [r32 d]) ∧
  (∀ k d a, always (.cwait k d a) 0xA5 k [r32 a] [r32 d]) ∧
  (∀ k d, always (.cpoll k d) 0xA6 k [] [r32 d]) ∧
  (∀ k kd nb d a b, always (.mclaim k kd nb d a b) 0xA8 k [r32 a, r32 b] [r32 d]) ∧
  (∀ k sc rk tr mt a b c x, always (.mmaBf16 k sc rk tr mt a b c x) 0xAD k [r32 a] []) ∧
  (∀ k sc rk tr mt a b c x, always (.mmaF16 k sc rk tr mt a b c x) 0xAE k [r32 a] []) ∧
  (∀ k sc rk tr mt a b c x, always (.mmaE4m3 k sc rk tr mt a b c x) 0xAF k [r32 a] []) ∧
  (∀ k sc rk tr mt a b c x, always (.mmaE5m2 k sc rk tr mt a b c x) 0xB0 k [r32 a] []) ∧
  (∀ k sc rk tr mt a b c x, always (.mmaE2m1 k sc rk tr mt a b c x) 0xB1 k [r32 a] []) ∧
  (∀ k sc rk tr mt a b c x, always (.mmaI8 k sc rk tr mt a b c x) 0xB2 k [r32 a] []) ∧
  (∀ k sc rk tr mt a b c x, always (.mmaI4 k sc rk tr mt a b c x) 0xB3 k [r32 a] []) ∧
  (∀ k ad rk d a b x, still (.mdrain k ad rk d a b x) 0xB4 k (fun s => drainSrc s d a) [] (fun _ _ => True)) ∧
  (∀ k bk, always (.msync k bk) 0xB7 k [] []) ∧
  (∀ k d a b, always (.tapw k d a b) 0xB9 k [r32 a, r64 b] [r32 d]) ∧
  (∀ k d x, always (.jrec k d x) 0xC1 k [] [r64 d]) ∧
  (∀ k xc d a c, always (.scqry k xc d a c) 0xCA k (r32 a :: if xc then [r32 c] else []) [r32 d]) ∧
  (∀ k bk d a x, always (.crd k bk d a x) 0xD1 k (if bk then [r32 a] else []) [r64 d]) ∧
  (∀ k d a, idle (.kseqNew k d a) 0xE0 k [r32 a] [r32 d]) ∧
  (∀ k d a, idle (.kseqFree k d a) 0xE0 k [r32 a] [r32 d]) ∧
  (∀ k d a, idle (.kseqPquery k d a) 0xE0 k [r32 a] [r32 d]) ∧
  (∀ k d a, idle (.kseqPfree k d a) 0xE0 k [r32 a] [r32 d]) ∧
  (∀ k cl d a b, idle (.kalloc k cl d a b) 0xE1 k [r32 a, r32 b] [r32 d]) ∧
  (∀ k d a b, idle (.ktrim k d a b) 0xE2 k [r32 a, r32 b] [r32 d]) ∧
  (∀ k d a b x, idle (.klook k d a b x) 0xE3 k [r32 a, r32 b] [r64 d]) ∧
  (∀ k d a b, idle (.kfree k d a b) 0xE4 k [r32 a, r32 b] [r32 d]) ∧
  (∀ i s q c b, isEvent i = false → 0xD0 ≤ (opOf (encode i)).toNat → (opOf (encode i)).toNat ≤ 0xD8 →
    getBundle s s.cur = some q → q.place.clause = some c → getBlock s q.blk = some b → b.kernel = false →
    ∃ t, exec i s = .next t ∧ Still s t)

/-- What performing an access does to memory and to scratchpad (08 R170, R183; 09 R191, R194, R195; 21 R376): a store
puts its bytes at its address, but the bits that it keeps, an atomic the result of its operation on what stood there, a CAS
its new value where it finds its compare value, and both return what stood there; every other byte of both spaces reads as
before. The same of a scratchpad (12 R251). A store of a block in a revocable interval is held and changes no byte. Where the
line shows no error, no poisoned line and no linked future is met, no watched region of the context adds a trace record and
no held store or undo of the block's interval is in the way. -/
def Obligations.PerformedAccesses : Prop :=
  let apart (a pa n : Nat) : Prop := a < pa ∨ pa + n ≤ a
  let unwatched (s : State) (o : Outst) : Prop :=
    ∀ b c, getBlock s o.blk = some b → getCtx s b.ctx = some c → ∀ va, watched c va = false
  let plain (s : State) (o : Outst) : Prop := ∀ b, getBlock s o.blk = some b → Plain b
  let unheld (s : State) (o : Outst) : Prop := ∀ b, getBlock s o.blk = some b → b.hold = []
  let scratchSame (s t : State) : Prop := ∀ b off n, readScratch t b off n = readScratch s b off n
  let clear (s : State) (pa : Nat) : Prop := ∀ e ∈ s.lineErrs, e.1 ≠ pa / 64
  let back (s t : State) (o : Outst) (op : OOp) : Prop :=
    getOutst s o.id = some o → getOutst t o.id = some { o with op := op }
  let only (s t : State) (u off n : Nat) : Prop :=
    (∀ a, readByte t a = readByte s a) ∧ (∀ a, apart a off n → readScratch t u a 1 = readScratch s u a 1) ∧
    (∀ v a n, v ≠ u → readScratch t v a n = readScratch s v a n)
  (∀ s o pa bs info, o.op = .store .glob pa bs info → unwatched s o → plain s o → clear s pa →
    writeMeets s pa bs.length = none →
    let t := performOne s o
    readBytes t pa bs.length = keepBits info.keep (readBytes s pa bs.length) bs ∧ (∀ a, apart a pa bs.length → readByte t a = readByte s a) ∧ scratchSame s t) ∧
  (∀ s o pa bs info b, o.op = .store .glob pa bs info → getBlock s o.blk = some b → bs ≠ [] → b.rollback = true →
    b.revocable = true →
    let more := info.no != 0 && b.hold.any (fun h => h.gang == o.gang && h.lane == o.lane && h.info.no == info.no)
    (more = true ∨ heldCount s b.core < 2048) →
    let t := performOne s o
    (∀ a, readByte t a = readByte s a) ∧ scratchSame s t ∧
    (getBlock t o.blk).map Block.hold = some (b.hold ++ [⟨o.gang, o.lane, pa, bs, info, more⟩])) ∧
  (∀ s o u off bs info b, o.op = .store (.scratch u) off bs info → getBlock s u = some b → bs ≠ [] → Plain b →
    let t := performOne s o
    readScratch t u off bs.length = bs ∧ only s t u off bs.length) ∧
  (∀ s o pa n aop v ret d info, o.op = .atom .glob pa n aop v ret d info → unwatched s o → unheld s o → clear s pa →
    info.keep = 0 → writeMeets s pa n = none →
    let t := performOne s o
    readBytes t pa n = leBytes n (atomicOp (8 * n) aop (readLE s pa n) v.toNat) ∧
    (∀ a, apart a pa n → readByte t a = readByte s a) ∧ scratchSame s t ∧
    (ret = true → back s t o (.load .glob pa n (some (BitVec.ofNat 128 (readLE s pa n))) d n StoreInfo.none))) ∧
  (∀ s o pa n c w ret d info, o.op = .cas .glob pa n c w ret d info → unwatched s o → unheld s o → clear s pa →
    info.keep = 0 → writeMeets s pa n = none →
    let t := performOne s o
    readBytes t pa n = (if readLE s pa n = c.toNat then leBytes n w.toNat else readBytes s pa n) ∧
    (∀ a, apart a pa n → readByte t a = readByte s a) ∧ scratchSame s t ∧
    back s t o (casResult .glob pa n n ret d (readLE s pa n))) ∧
  (∀ s o u off n aop v ret d info b, o.op = .atom (.scratch u) off n aop v ret d info → getBlock s u = some b → Plain b →
    let t := performOne s o
    let old := leVal (readScratch s u off n)
    readScratch t u off n = leBytes n (atomicOp (8 * n) aop old v.toNat) ∧ only s t u off n ∧
    (ret = true → back s t o (.load (.scratch u) off n (some (BitVec.ofNat 128 old)) d n StoreInfo.none))) ∧
  (∀ s o u off n c w ret d info b, o.op = .cas (.scratch u) off n c w ret d info → getBlock s u = some b → Plain b →
    let t := performOne s o
    let old := leVal (readScratch s u off n)
    readScratch t u off n = (if old = c.toNat then leBytes n w.toNat else readScratch s u off n) ∧ only s t u off n ∧
    back s t o (casResult (.scratch u) off n n ret d old))

/-- Race-checked accesses (08 R172, R176-R181, R185, R178; 12 R251; 19 R348). A scratchpad access meets BARRIER at a typed
object, then the owners of tile rows and of ring slots, whatever its record; a checked one elsewhere meets RACE exactly at a
tag of the interval that another issue of another thread left, where one of the two writes and one is plain. A checked
global access meets RACE exactly at a word whose last writer is another block that this one has not acquired that far, and
whose write is not atomic beside an atomic access. A checked access is performed at once: what its entry waits for, then its
event; a write leaves its tag, and where it is a release what its scope covers as it is performed; an acquire raises the
block's entries, and scratchpad words that no owner governs take a tag.
The model's choices in it are logs 5 (performed at issue), 20 (a writer block that is saved or has gone holds no core, and a
release's cover is fixed as it is performed) and 23 (which of several earlier parties is named). -/
def Obligations.CheckedAccesses : Prop :=
  (∀ s x r off n m issue,
    let checks := scratchChecks s x r off n m issue
    let race : Flt := { cause := 0x0B, info := off }
    (∀ b, typedBlockAt s x.b.uid off n = some b → checks = some { cause := 0x0C, info := b.ref.addr / 32 * 32 + 1 }) ∧
    (typedBlockAt s x.b.uid off n = none →
      ((tileCheck s x off n m.writes).1 = false → checks = some race) ∧
      ((tileCheck s x off n m.writes).1 = true →
        (∀ g q, slotAt s x.b off = some (g, q) →
          checks = if (q.st = .filling ∨ q.st = .taken) ∧ q.owner = x.t.gang then none else some race) ∧
        (slotAt s x.b off = none → checks =
          if (tileCheck s x off n m.writes).2 = true ∨ r.chk = false then none
          else scratchRace x off n (m.tagWrites s x.b.uid (.scratch x.b.uid) off n) m.plain issue)))) ∧
  (∀ x off n writes plain issue,
    let meets (w : Nat) (t : Tag) : Prop := w ∈ wordsOf off n ∧ t ∈ Sparse.get [] x.b.tags w ∧ t.issue ≠ issue ∧
      ¬(t.gang = x.t.gang ∧ x.b.tid t.lane = x.tid) ∧ (t.write = true ∨ writes = true) ∧ (t.plain = true ∨ plain = true)
    (scratchRace x off n writes plain issue = none ↔ ∀ w t, ¬meets w t) ∧
    (∀ f, scratchRace x off n writes plain issue = some f → ∃ w t, meets w t ∧
      f = { cause := 0x0B, info := off, party := x.b.num + fld 32 8 t.gang + fld 40 8 (x.b.tid t.lane) })) ∧
  (∀ s x pa va n plain,
    let meets (w : Nat) (t : GTag) : Prop := w ∈ wordsOf pa n ∧ t = wordTag s x.b w ∧ t.blk ≠ 0 ∧ t.blk ≠ x.b.uid ∧
      (plain = true ∨ t.atomic = false) ∧ Sparse.get 0 x.b.acq t.blk ≤ t.count
    (globalRace s x pa va n plain = none ↔ ∀ w t, ¬meets w t) ∧
    (∀ f, globalRace s x pa va n plain = some f → ∃ w t, meets w t ∧
      f = { cause := 0x0B, info := va, party := (writerOf s t.blk).elim 0 Prod.fst }) ∧
    (∀ r m aop, isChecked x.b r = true → m.plain = plain → aop = none → linkedAt s pa n = false → typedGroupAt s pa n = none →
      ∀ f, globalRace s x pa va n plain = some f → globalChecks s x r pa va n m aop = some f)) ∧
  (∀ s (b : Block) w,
    (∀ h ∈ b.hold, h.info.mark = none ∨ w ∉ wordsOf h.pa h.bytes.length) → wordTag s b w = Sparse.get gtagNone s.gtags w) ∧
  (∀ s (b : Block) w l h g, b.hold = l ++ [h] → h.info.mark = some g → w ∈ wordsOf h.pa h.bytes.length → wordTag s b w = g) ∧
  (∀ s blk scope t b num core, getBlock s blk = some b → writerOf s t.blk = some (num, core) →
    acquireTag s blk scope t =
      if t.blk ≠ blk ∧ coversHeld scope core b.core = true ∧ (∀ r, t.rel = some r → r.holds blk = true) then
        modBlock s blk (fun b => { b with acq := Sparse.set 0 b.acq t.blk (max t.count (Sparse.get 0 b.acq t.blk)) })
      else s) ∧
  (∀ s blk gang lane off n writes plain issue b w, getBlock s blk = some b →
    let tag : Tag := ⟨gang, lane, writes, plain, issue⟩
    ∃ c, getBlock (tagScratch s blk gang lane off n writes plain issue) blk = some c ∧
      (w ∈ wordsOf off n → ∀ t, t ∈ Sparse.get [] c.tags w ↔ t = tag ∨ t ∈ Sparse.get [] b.tags w) ∧
      (w ∉ wordsOf off n → Sparse.get [] c.tags w = Sparse.get [] b.tags w)) ∧
  (∀ s id e, getOutst s id = some e → e.pending = true → performable s e = true →
    performNow s id = sweepFences (performOne s e)) ∧
  (∀ s blk gang lane pa bytes info g w, info.mark = some g → w ∈ wordsOf pa bytes.length →
    (∀ b c va, getBlock s blk = some b → getCtx s b.ctx = some c → watched c va = false) →
    Sparse.get gtagNone (storeGlobal s blk gang lane pa bytes info).gtags w = { g with rel := info.scope.map (relCover s blk) }) ∧
  (∀ (j : Iss) (r : Rec) (m : AMode) (x : Lane) (sp : Space) (addr va : Nat) (s : State) (scope size : BitVec 3)
    (ord : BitVec 2) (d : Reg), isChecked j.b r = true →
    let n := accBytes size
    let info (h : Nat) (mark : Option GTag) (covers : Option Nat) : StoreInfo :=
      { va := BitVec.ofNat 64 (va + 8 * h), pc := j.pc, op := j.op, tag := BitVec.ofNat 16 r.tag, size := Nat.log2 n,
        mark := mark, no := j.no, scope := covers }
    let first := decide (d.toNat < 192) || firstOfGang j.cmd x
    let acq : Bool := ord = 1 || ord = 3
    let rel := relScope s x (if 2 ≤ ord.toNat then some scope.toNat else none)
    let mark (s : State) (atomic : Bool) : Option GTag :=
      if r.spc then none else some { blk := j.b.uid, count := relOf s j.b.uid, atomic := atomic, rel := none }
    let event (s : State) (m : AMode) (acquires : Bool) (es : List (OCls × OOp × Bool × Bool)) : State :=
      let add (q : List Nat × State) (e : OCls × OOp × Bool × Bool) : List Nat × State :=
        (q.1 ++ [q.2.nextId],
         { q.2 with
           nextId := q.2.nextId + 1,
           outst := q.2.outst ++ [⟨q.2.nextId, j.no, x.t.blk, x.t.gang, x.t.lane, e.1, e.2.1, e.2.2.1, e.2.2.2, 0⟩] })
      let q := es.foldl add ([], s)
      let w := m.tagWrites q.2 x.t.blk sp addr n
      let t := if sp = .glob ∧ acquires = true then acquireWords q.2 x.t.blk addr n scope.toNat else q.2
      let t := if m.kind = 1 then t else noteRead t x (if sp = .glob then tagsOf t x.t.blk addr n else [])
      let t := q.1.foldl performNow t
      match sp with
      | .glob => t
      | .scratch u => if ownerGoverned t x addr n then t else tagScratch t u x.t.gang x.t.lane addr n w m.plain j.no
    (ldLane j r m ord scope n d s (x, .at_ sp addr va) = event s m (ord ≠ 0)
      ((halves addr n).map fun h => (.ld, .load sp h.1 h.2.1 none (halfReg d h.2.2) (if first then h.2.1 else 0)
        (info h.2.2 none none), false, ord != 0))) ∧
    (let t := noteRelease s x rel
     stLane j r m ord scope size d s (x, .at_ sp addr va) = event t m false
      ((halves addr n).map fun h => (.st, .store sp h.1 (((leBytes n (x.rd d (8 * n))).drop (8 * h.2.2)).take h.2.1)
        (info h.2.2 (mark t (ord != 0)) rel), ord != 0, false))) ∧
    (∀ (aop : BitVec 4) (ret : Bool),
      let t := noteRelease s x rel
      atomLane j r m ord scope size d aop ret s (x, .at_ sp addr va) = event t m acq
        [(.at_, .atom sp addr n aop.toNat (BitVec.ofNat 64 (x.rd d (8 * n))) (ret && first) d (info 0 (mark t true) rel),
          decide (2 ≤ ord.toNat), acq)]) ∧
    (let finds := (casMode d n x).tagWrites s x.t.blk sp addr n
     let t := if finds then noteRelease s x rel else s
     casLane j r ord scope size d s (x, .at_ sp addr va) = event t (casMode d n x) acq
        [(.at_, .cas sp addr n (BitVec.ofNat 128 (casGroup x d n).1) (BitVec.ofNat 128 (casGroup x d n).2) first d
          (info 0 (mark t true) (if finds then rel else none)),
          decide (2 ≤ ord.toNat), acq)]))

/-- Taking a trap at task level and returning from it (11 R237, R238): the thread's trap registers take the cause, the
address, the information word and the WATCH words, its resume point is kept, and it stands at the handler's header; a
handler that is no header raises ILLCLS there; the RET whose target is TRPC is the return, which clears the trap
registers and lets the thread handle again. -/
def Obligations.TrapHandlersEnterAndReturn : Prop :=
  (∀ s s1 x bun cause pc info wrec resume vec, targetOk s x.b vec = (true, s1) →
    getThread s x.t.blk x.t.gang x.t.lane = some x.t → cause < 2 ^ 32 →
    ∃ t, getThread (takeTrap s x bun cause pc info wrec resume vec) x.t.blk x.t.gang x.t.lane = some t ∧
      t.handling = true ∧ t.trcause.toNat = cause ∧ t.trpc = pc ∧ t.trinfo = info ∧ t.wrec = wrec ∧
      t.resume = resume ∧ t.pc = vec ∧ t.v = x.t.v ∧ t.p = x.t.p ∧ t.fault = x.t.fault) ∧
  (∀ s s1 x bun cause pc info wrec resume vec, targetOk s x.b vec = (false, s1) →
    getThread s x.t.blk x.t.gang x.t.lane = some x.t →
    ∃ t f, getThread (takeTrap s x bun cause pc info wrec resume vec) x.t.blk x.t.gang x.t.lane = some t ∧
      t.handling = true ∧ t.trpc = pc ∧ t.fault = some f ∧ f.cause = 0x03 ∧ f.pc = vec) ∧
  (∀ x target, isTrapReturn x target = true ↔ x.t.handling = true ∧ target = x.t.trpc) ∧
  (∀ s x t, getThread s x.t.blk x.t.gang x.t.lane = some t →
    getThread (endTrap s x) x.t.blk x.t.gang x.t.lane =
      some { t with handling := false, trcause := 0, trpc := 0, trinfo := 0, wrec := 0 })

/-- 06 R108: the quotient truncates toward zero and the remainder takes the sign of A; the limit cases; -7 / 2. -/
def Obligations.DivisionResults : Prop :=
  ∀ k w sg d a b, ∃ quo rem : Lane → Nat,
    Lanes (.idiv k w sg d a b) 0x0A k [rW w a, rW w b] d (wN w) quo ∧
    Lanes (.irem k w sg d a b) 0x0B k [rW w a, rW w b] d (wN w) rem ∧
    ∀ x : Lane,
      let n := wN w
      let A := ext sg n (x.rd a n)
      let B := ext sg n (x.rd b n)
      (B ≠ 0 → ∃ q r : Int, A = q * B + r ∧ r.natAbs < B.natAbs ∧ (r = 0 ∨ r.sign = A.sign) ∧
        quo x = lowBits n q ∧ rem x = lowBits n r) ∧
      (B = 0 → quo x = 2 ^ n - 1 ∧ rem x = x.rd a n) ∧
      (sg = true → A = -(2 : Int) ^ (n - 1) → B = -1 → quo x = x.rd a n ∧ rem x = 0) ∧
      (sg = true → A = -7 → B = 2 → quo x = lowBits n (-3) ∧ rem x = lowBits n (-1))

/-- 06 R113: the four counts and reversals, said bit by bit. -/
def Obligations.CountResults : Prop :=
  let ones (v : Nat) (at_ n : Nat) : Nat := ((List.range n).filter fun j => v.testBit (at_ + j)).length
  ∀ k w d a, ∃ pop bytes zeros rev : Lane → Nat,
    Lanes (.popc k w d a) 0x16 k [rW w a] d 32 pop ∧ Lanes (.popb k w d a) 0x17 k [rW w a] d (wN w) bytes ∧
    Lanes (.clz k w d a) 0x18 k [rW w a] d 32 zeros ∧ Lanes (.brev k w d a) 0x19 k [rW w a] d (wN w) rev ∧
    ∀ x : Lane,
      let n := wN w
      let v := x.rd a n
      (pop x = ones v 0 n ∧ pop x ≤ n) ∧
      (bytes x < 2 ^ n ∧ ∀ j < n / 8, bytes x / 2 ^ (8 * j) % 2 ^ 8 = ones v (8 * j) 8) ∧
      (zeros x ≤ n ∧ (∀ j, n - zeros x ≤ j → v.testBit j = false) ∧
        (v ≠ 0 → zeros x < n ∧ v.testBit (n - 1 - zeros x) = true) ∧ (v = 0 → zeros x = n)) ∧
      (rev x < 2 ^ n ∧ ∀ j < n, (rev x).testBit j = v.testBit (n - 1 - j))

/-- 06 R111: a register count acts by its bits [4:0] alone, so 33 shifts by 1; and with one register on both sides the
funnel shifts rotate, by the count of either form. -/
def Obligations.FunnelShiftsRotate : Prop :=
  let rot (left : Bool) (v n : Nat) : Nat :=
    (if left then (BitVec.ofNat 32 v).rotateLeft n else (BitVec.ofNat 32 v).rotateRight n).toNat
  (∀ k d a b c x, ∃ f : Nat → Nat → Nat → Nat,
    Lanes (.fshl k false d a b c x) 0x12 k [r32 a, r32 b, r32 c] d 32
      (fun l => f (l.rd a 32) (l.rd b 32) (l.rd c 32 % 32)) ∧
    ∀ A B, A < 2 ^ 32 → B < 2 ^ 32 → f A B (33 % 32) = (A * 2 + B / 2 ^ 31) % 2 ^ 32) ∧
  (∀ k d a b c x, ∃ f : Nat → Nat → Nat → Nat,
    Lanes (.fshr k false d a b c x) 0x13 k [r32 a, r32 b, r32 c] d 32
      (fun l => f (l.rd a 32) (l.rd b 32) (l.rd c 32 % 32)) ∧
    ∀ A B, A < 2 ^ 32 → B < 2 ^ 32 → f A B (33 % 32) = A % 2 * 2 ^ 31 + B / 2) ∧
  (∀ k im d a c x, Lanes (.fshl k im d a a c x) 0x12 k (r32 a :: r32 a :: cntSrc im c) d 32
    fun l => rot true (l.rd a 32) (if im then x.toNat else l.rd c 32)) ∧
  (∀ k im d a c x, Lanes (.fshr k im d a a c x) 0x13 k (r32 a :: r32 a :: cntSrc im c) d 32
    fun l => rot false (l.rd a 32) (if im then x.toNat else l.rd c 32))
end

