-- ==== Sys2Proof/Laws/Fields.lean ====
section
/-! SUPPORT. The fields of an encoded word, format by format (02 R33, R35), and the masks of the decoder: what the
encoding lemmas of PerInstr rest on. -/

namespace Sys2Proof.Laws

theorem xl_hi {m n : Nat} (x : BitVec m) (y : BitVec n) (s l : Nat) (h : n ≤ s) :
    (x ++ y).extractLsb' s l = x.extractLsb' (s - n) l := by
  apply BitVec.eq_of_getLsbD_eq; intro i hi
  simp only [BitVec.getLsbD_extractLsb', BitVec.getLsbD_append]
  rw [if_neg (by omega)]; congr 2; omega

theorem xl_lo {m n : Nat} (x : BitVec m) (y : BitVec n) (s l : Nat) (h : s + l ≤ n) :
    (x ++ y).extractLsb' s l = y.extractLsb' s l := by
  apply BitVec.eq_of_getLsbD_eq; intro i hi
  simp only [BitVec.getLsbD_extractLsb', BitVec.getLsbD_append]
  rw [if_pos (by omega)]

theorem xl_self {n : Nat} (x : BitVec n) : x.extractLsb' 0 n = x := BitVec.extractLsb'_eq_self

theorem xl_xl {n : Nat} (w : BitVec n) (s l s' l' : Nat) (h : s + l ≤ l') :
    (w.extractLsb' s' l').extractLsb' s l = w.extractLsb' (s' + s) l := by
  apply BitVec.eq_of_getLsbD_eq; intro i hi
  simp only [BitVec.getLsbD_extractLsb']
  have : s + i < l' := by omega
  simp [this, Nat.add_assoc]

theorem and_append {m n : Nat} (x : BitVec m) (y : BitVec n) (v : BitVec (m + n))
    (h1 : x &&& v.extractLsb' n m = 0#m) (h2 : y &&& v.extractLsb' 0 n = 0#n) : (x ++ y) &&& v = 0#(m + n) := by
  apply BitVec.eq_of_getLsbD_eq; intro i hi
  have e1 := fun j => congrArg (fun v => BitVec.getLsbD v j) h1
  have e2 := fun j => congrArg (fun v => BitVec.getLsbD v j) h2
  simp only [BitVec.getLsbD_and, BitVec.getLsbD_extractLsb', BitVec.getLsbD_zero, BitVec.getLsbD_append] at e1 e2 ⊢
  split
  · have := e2 i; simp_all
  · have := e1 (i - n)
    rw [show n + (i - n) = i by omega] at this
    have h3 : i - n < m := by omega
    simpa [h3] using this

/-- A bit of the function byte. -/
theorem bitAt_fn (w : W64) (fn : BitVec 8) (h : w.extractLsb' 40 8 = fn) (j : Nat) (hj : j < 8) :
    bitAt w (40 + j) = fn.getLsbD j := by subst h; simp [bitAt, hj]
/-- A field of the function byte. -/
theorem xl_fn (w : W64) (fn : BitVec 8) (h : w.extractLsb' 40 8 = fn) (j l : Nat) (hj : j + l ≤ 8) :
    w.extractLsb' (40 + j) l = fn.extractLsb' j l := by subst h; rw [xl_xl _ _ _ _ _ hj]
/-- Guard and park (02 R33). -/
theorem ctlOf_of (w : W64) (k : Ctl) (h : w.extractLsb' 48 8 = ctlBits k) : ctlOf w = k := by
  have h1 : ∀ j, j < 8 → w.getLsbD (48 + j) = (ctlBits k).getLsbD j := by
    intro j hj; rw [← h]; simp [hj]
  have h2 : w.extractLsb' 49 6 = (ctlBits k).extractLsb' 1 6 := by rw [← h, xl_xl _ _ _ _ _ (by decide)]
  have e1 := h1 7 (by decide)
  have e2 := h1 0 (by decide)
  obtain ⟨gn, gi, pk⟩ := k
  unfold ctlOf bitAt
  rw [h2, e1, e2]
  unfold ctlBits
  rw [xl_hi (bit gn ++ gi) (bit pk) 1 6 (by decide), xl_lo (bit gn) gi 0 6 (by decide), xl_self,
    show ((bit gn ++ gi ++ bit pk : BitVec (1 + 6 + 1))).getLsbD 7 = gn by
      rw [BitVec.getLsbD_append, BitVec.getLsbD_append]; cases gn <;> rfl,
    show ((bit gn ++ gi ++ bit pk : BitVec (1 + 6 + 1))).getLsbD 0 = pk by
      rw [BitVec.getLsbD_append]; cases pk <;> rfl]

/-- Masks leave the opcode and the control byte alone. -/
theorem head_mask (op : BitVec 8) (k : Ctl) (v : BitVec 16) (h0 : v = 0#16) : (op ++ ctlBits k) &&& v = 0#16 := by
  rw [h0]; simp

theorem ifZero_of (w m : W64) (i j : Instr) (h : w &&& m = 0) (hi : i = j) : ifZero w m i = some j := by
  subst hi; simp [ifZero, h]
theorem decode_of (w : W64) (i : Instr) (c : Cls) (hc : clsOf (opOf w).toNat = some c) (hr : decodeRaw w = some i)
    (hw : i.wf = true) : decode w = .instr i := by
  simp [decode, hc, hr, hw]

theorem raw_int (w : W64) (h : clsOf (opOf w).toNat = some .int) : decodeRaw w = decodeInt w (ctlOf w) := by
  simp only [decodeRaw, h]
theorem raw_vec (w : W64) (h : clsOf (opOf w).toNat = some .vec) : decodeRaw w = decodeVec w (ctlOf w) := by
  simp only [decodeRaw, h]
theorem raw_mem (w : W64) (h : clsOf (opOf w).toNat = some .mem) : decodeRaw w = decodeMem w (ctlOf w) := by
  simp only [decodeRaw, h]
theorem raw_sync (w : W64) (h : clsOf (opOf w).toNat = some .sync) : decodeRaw w = decodeSync w (ctlOf w) := by
  simp only [decodeRaw, h]
theorem raw_copy (w : W64) (h : clsOf (opOf w).toNat = some .copy) : decodeRaw w = decodeCopy w (ctlOf w) := by
  simp only [decodeRaw, h]
theorem raw_mtx (w : W64) (h : clsOf (opOf w).toNat = some .mtx) : decodeRaw w = decodeMtx w (ctlOf w) := by
  simp only [decodeRaw, h]
theorem raw_tap (w : W64) (h : clsOf (opOf w).toNat = some .tap) : decodeRaw w = decodeTap w (ctlOf w) := by
  simp only [decodeRaw, h]
theorem raw_task (w : W64) (h : clsOf (opOf w).toNat = some .task) : decodeRaw w = decodeTask w (ctlOf w) := by
  simp only [decodeRaw, h]
theorem raw_sys (w : W64) (h : clsOf (opOf w).toNat = some .sys) : decodeRaw w = decodeSys w (ctlOf w) := by
  simp only [decodeRaw, h]
theorem raw_pool (w : W64) (h : clsOf (opOf w).toNat = some .pool) : decodeRaw w = decodePool w (ctlOf w) := by
  simp only [decodeRaw, h]

/-! ### fmtA -/

theorem fmtA_x (op : BitVec 8) (k : Ctl) (fn : BitVec 8) (d : BitVec 8) (a : BitVec 8) (b : BitVec 8) (c : BitVec 8) (x : BitVec 8) :
    (fmtA op k fn d a b c x).extractLsb' 0 8 = x := by
  unfold fmtA
  rw [xl_lo _ _ _ _ (by decide)]
  exact xl_self _
theorem fmtA_c (op : BitVec 8) (k : Ctl) (fn : BitVec 8) (d : BitVec 8) (a : BitVec 8) (b : BitVec 8) (c : BitVec 8) (x : BitVec 8) :
    (fmtA op k fn d a b c x).extractLsb' 8 8 = c := by
  unfold fmtA
  rw [xl_hi _ _ _ _ (by decide), xl_lo _ _ _ _ (by decide)]
  exact xl_self _
theorem fmtA_b (op : BitVec 8) (k : Ctl) (fn : BitVec 8) (d : BitVec 8) (a : BitVec 8) (b : BitVec 8) (c : BitVec 8) (x : BitVec 8) :
    (fmtA op k fn d a b c x).extractLsb' 16 8 = b := by
  unfold fmtA
  rw [xl_hi _ _ _ _ (by decide), xl_hi _ _ _ _ (by decide), xl_lo _ _ _ _ (by decide)]
  exact xl_self _
theorem fmtA_a (op : BitVec 8) (k : Ctl) (fn : BitVec 8) (d : BitVec 8) (a : BitVec 8) (b : BitVec 8) (c : BitVec 8) (x : BitVec 8) :
    (fmtA op k fn d a b c x).extractLsb' 24 8 = a := by
  unfold fmtA
  rw [xl_hi _ _ _ _ (by decide), xl_hi _ _ _ _ (by decide), xl_hi _ _ _ _ (by decide), xl_lo _ _ _ _ (by decide)]
  exact xl_self _
theorem fmtA_d (op : BitVec 8) (k : Ctl) (fn : BitVec 8) (d : BitVec 8) (a : BitVec 8) (b : BitVec 8) (c : BitVec 8) (x : BitVec 8) :
    (fmtA op k fn d a b c x).extractLsb' 32 8 = d := by
  unfold fmtA
  rw [xl_hi _ _ _ _ (by decide), xl_hi _ _ _ _ (by decide), xl_hi _ _ _ _ (by decide), xl_hi _ _ _ _ (by decide), xl_lo _ _ _ _ (by decide)]
  exact xl_self _
theorem fmtA_fn (op : BitVec 8) (k : Ctl) (fn : BitVec 8) (d : BitVec 8) (a : BitVec 8) (b : BitVec 8) (c : BitVec 8) (x : BitVec 8) :
    (fmtA op k fn d a b c x).extractLsb' 40 8 = fn := by
  unfold fmtA
  rw [xl_hi _ _ _ _ (by decide), xl_hi _ _ _ _ (by decide), xl_hi _ _ _ _ (by decide), xl_hi _ _ _ _ (by decide), xl_hi _ _ _ _ (by decide), xl_lo _ _ _ _ (by decide)]
  exact xl_self _
theorem fmtA_ctl8 (op : BitVec 8) (k : Ctl) (fn : BitVec 8) (d : BitVec 8) (a : BitVec 8) (b : BitVec 8) (c : BitVec 8) (x : BitVec 8) :
    (fmtA op k fn d a b c x).extractLsb' 48 8 = ctlBits k := by
  unfold fmtA
  rw [xl_hi _ _ _ _ (by decide), xl_hi _ _ _ _ (by decide), xl_hi _ _ _ _ (by decide), xl_hi _ _ _ _ (by decide), xl_hi _ _ _ _ (by decide), xl_hi _ _ _ _ (by decide), xl_lo _ _ _ _ (by decide)]
  exact xl_self _
theorem fmtA_op (op : BitVec 8) (k : Ctl) (fn : BitVec 8) (d : BitVec 8) (a : BitVec 8) (b : BitVec 8) (c : BitVec 8) (x : BitVec 8) :
    opOf (fmtA op k fn d a b c x) = op := by
  unfold opOf fmtA
  rw [xl_hi _ _ _ _ (by decide), xl_hi _ _ _ _ (by decide), xl_hi _ _ _ _ (by decide), xl_hi _ _ _ _ (by decide), xl_hi _ _ _ _ (by decide), xl_hi _ _ _ _ (by decide), xl_hi _ _ _ _ (by decide)]
  exact xl_self _
theorem fmtA_ctl (op : BitVec 8) (k : Ctl) (fn : BitVec 8) (d : BitVec 8) (a : BitVec 8) (b : BitVec 8) (c : BitVec 8) (x : BitVec 8) :
    ctlOf (fmtA op k fn d a b c x) = k := ctlOf_of _ _ (fmtA_ctl8 _ _ _ _ _ _ _ _)
theorem fmtA_bit {op : BitVec 8} {k : Ctl} {fn : BitVec 8} {d : BitVec 8} {a : BitVec 8} {b : BitVec 8} {c : BitVec 8} {x : BitVec 8} (j : Nat) (h : j < 8) :
    bitAt (fmtA op k fn d a b c x) (40 + j) = fn.getLsbD j := bitAt_fn _ _ (fmtA_fn _ _ _ _ _ _ _ _) j h
theorem fmtA_fld {op : BitVec 8} {k : Ctl} {fn : BitVec 8} {d : BitVec 8} {a : BitVec 8} {b : BitVec 8} {c : BitVec 8} {x : BitVec 8} (j l : Nat) (h : j + l ≤ 8) :
    (fmtA op k fn d a b c x).extractLsb' (40 + j) l = fn.extractLsb' j l := xl_fn _ _ (fmtA_fn _ _ _ _ _ _ _ _) j l h
theorem fmtA_mask (op : BitVec 8) (k : Ctl) (fn : BitVec 8) (d : BitVec 8) (a : BitVec 8) (b : BitVec 8) (c : BitVec 8) (x : BitVec 8) (v : W64)
    (h0 : v.extractLsb' 48 16 = 0#16) (hx : x &&& v.extractLsb' 0 8 = 0#8) (hc : c &&& v.extractLsb' 8 8 = 0#8) (hb : b &&& v.extractLsb' 16 8 = 0#8) (ha : a &&& v.extractLsb' 24 8 = 0#8) (hd : d &&& v.extractLsb' 32 8 = 0#8) (hfn : fn &&& v.extractLsb' 40 8 = 0#8) :
    fmtA op k fn d a b c x &&& v = 0 := by
  refine and_append (m := 56) (n := 8) _ x v ?_ hx
  refine and_append (m := 48) (n := 8) _ c _ ?_ (by rwa [xl_xl _ _ _ _ _ (by decide)])
  rw [xl_xl _ _ _ _ _ (by decide)]
  refine and_append (m := 40) (n := 8) _ b _ ?_ (by rwa [xl_xl _ _ _ _ _ (by decide)])
  rw [xl_xl _ _ _ _ _ (by decide)]
  refine and_append (m := 32) (n := 8) _ a _ ?_ (by rwa [xl_xl _ _ _ _ _ (by decide)])
  rw [xl_xl _ _ _ _ _ (by decide)]
  refine and_append (m := 24) (n := 8) _ d _ ?_ (by rwa [xl_xl _ _ _ _ _ (by decide)])
  rw [xl_xl _ _ _ _ _ (by decide)]
  refine and_append (m := 16) (n := 8) _ fn _ ?_ (by rwa [xl_xl _ _ _ _ _ (by decide)])
  rw [xl_xl _ _ _ _ _ (by decide)]
  exact head_mask op k _ h0

/-! ### fmtI -/

theorem fmtI_i (op : BitVec 8) (k : Ctl) (fn : BitVec 8) (d : BitVec 8) (a : BitVec 8) (i : BitVec 24) :
    (fmtI op k fn d a i).extractLsb' 0 24 = i := by
  unfold fmtI
  rw [xl_lo _ _ _ _ (by decide)]
  exact xl_self _
theorem fmtI_a (op : BitVec 8) (k : Ctl) (fn : BitVec 8) (d : BitVec 8) (a : BitVec 8) (i : BitVec 24) :
    (fmtI op k fn d a i).extractLsb' 24 8 = a := by
  unfold fmtI
  rw [xl_hi _ _ _ _ (by decide), xl_lo _ _ _ _ (by decide)]
  exact xl_self _
theorem fmtI_d (op : BitVec 8) (k : Ctl) (fn : BitVec 8) (d : BitVec 8) (a : BitVec 8) (i : BitVec 24) :
    (fmtI op k fn d a i).extractLsb' 32 8 = d := by
  unfold fmtI
  rw [xl_hi _ _ _ _ (by decide), xl_hi _ _ _ _ (by decide), xl_lo _ _ _ _ (by decide)]
  exact xl_self _
theorem fmtI_fn (op : BitVec 8) (k : Ctl) (fn : BitVec 8) (d : BitVec 8) (a : BitVec 8) (i : BitVec 24) :
    (fmtI op k fn d a i).extractLsb' 40 8 = fn := by
  unfold fmtI
  rw [xl_hi _ _ _ _ (by decide), xl_hi _ _ _ _ (by decide), xl_hi _ _ _ _ (by decide), xl_lo _ _ _ _ (by decide)]
  exact xl_self _
theorem fmtI_ctl8 (op : BitVec 8) (k : Ctl) (fn : BitVec 8) (d : BitVec 8) (a : BitVec 8) (i : BitVec 24) :
    (fmtI op k fn d a i).extractLsb' 48 8 = ctlBits k := by
  unfold fmtI
  rw [xl_hi _ _ _ _ (by decide), xl_hi _ _ _ _ (by decide), xl_hi _ _ _ _ (by decide), xl_hi _ _ _ _ (by decide), xl_lo _ _ _ _ (by decide)]
  exact xl_self _
theorem fmtI_op (op : BitVec 8) (k : Ctl) (fn : BitVec 8) (d : BitVec 8) (a : BitVec 8) (i : BitVec 24) :
    opOf (fmtI op k fn d a i) = op := by
  unfold opOf fmtI
  rw [xl_hi _ _ _ _ (by decide), xl_hi _ _ _ _ (by decide), xl_hi _ _ _ _ (by decide), xl_hi _ _ _ _ (by decide), xl_hi _ _ _ _ (by decide)]
  exact xl_self _
theorem fmtI_ctl (op : BitVec 8) (k : Ctl) (fn : BitVec 8) (d : BitVec 8) (a : BitVec 8) (i : BitVec 24) :
    ctlOf (fmtI op k fn d a i) = k := ctlOf_of _ _ (fmtI_ctl8 _ _ _ _ _ _)
theorem fmtI_bit {op : BitVec 8} {k : Ctl} {fn : BitVec 8} {d : BitVec 8} {a : BitVec 8} {i : BitVec 24} (j : Nat) (h : j < 8) :
    bitAt (fmtI op k fn d a i) (40 + j) = fn.getLsbD j := bitAt_fn _ _ (fmtI_fn _ _ _ _ _ _) j h
theorem fmtI_fld {op : BitVec 8} {k : Ctl} {fn : BitVec 8} {d : BitVec 8} {a : BitVec 8} {i : BitVec 24} (j l : Nat) (h : j + l ≤ 8) :
    (fmtI op k fn d a i).extractLsb' (40 + j) l = fn.extractLsb' j l := xl_fn _ _ (fmtI_fn _ _ _ _ _ _) j l h
theorem fmtI_mask (op : BitVec 8) (k : Ctl) (fn : BitVec 8) (d : BitVec 8) (a : BitVec 8) (i : BitVec 24) (v : W64)
    (h0 : v.extractLsb' 48 16 = 0#16) (hi : i &&& v.extractLsb' 0 24 = 0#24) (ha : a &&& v.extractLsb' 24 8 = 0#8) (hd : d &&& v.extractLsb' 32 8 = 0#8) (hfn : fn &&& v.extractLsb' 40 8 = 0#8) :
    fmtI op k fn d a i &&& v = 0 := by
  refine and_append (m := 40) (n := 24) _ i v ?_ hi
  refine and_append (m := 32) (n := 8) _ a _ ?_ (by rwa [xl_xl _ _ _ _ _ (by decide)])
  rw [xl_xl _ _ _ _ _ (by decide)]
  refine and_append (m := 24) (n := 8) _ d _ ?_ (by rwa [xl_xl _ _ _ _ _ (by decide)])
  rw [xl_xl _ _ _ _ _ (by decide)]
  refine and_append (m := 16) (n := 8) _ fn _ ?_ (by rwa [xl_xl _ _ _ _ _ (by decide)])
  rw [xl_xl _ _ _ _ _ (by decide)]
  exact head_mask op k _ h0

/-! ### fmtL -/

theorem fmtL_i (op : BitVec 8) (k : Ctl) (fn : BitVec 8) (d : BitVec 8) (i : BitVec 32) :
    (fmtL op k fn d i).extractLsb' 0 32 = i := by
  unfold fmtL
  rw [xl_lo _ _ _ _ (by decide)]
  exact xl_self _
theorem fmtL_d (op : BitVec 8) (k : Ctl) (fn : BitVec 8) (d : BitVec 8) (i : BitVec 32) :
    (fmtL op k fn d i).extractLsb' 32 8 = d := by
  unfold fmtL
  rw [xl_hi _ _ _ _ (by decide), xl_lo _ _ _ _ (by decide)]
  exact xl_self _
theorem fmtL_fn (op : BitVec 8) (k : Ctl) (fn : BitVec 8) (d : BitVec 8) (i : BitVec 32) :
    (fmtL op k fn d i).extractLsb' 40 8 = fn := by
  unfold fmtL
  rw [xl_hi _ _ _ _ (by decide), xl_hi _ _ _ _ (by decide), xl_lo _ _ _ _ (by decide)]
  exact xl_self _
theorem fmtL_ctl8 (op : BitVec 8) (k : Ctl) (fn : BitVec 8) (d : BitVec 8) (i : BitVec 32) :
    (fmtL op k fn d i).extractLsb' 48 8 = ctlBits k := by
  unfold fmtL
  rw [xl_hi _ _ _ _ (by decide), xl_hi _ _ _ _ (by decide), xl_hi _ _ _ _ (by decide), xl_lo _ _ _ _ (by decide)]
  exact xl_self _
theorem fmtL_op (op : BitVec 8) (k : Ctl) (fn : BitVec 8) (d : BitVec 8) (i : BitVec 32) :
    opOf (fmtL op k fn d i) = op := by
  unfold opOf fmtL
  rw [xl_hi _ _ _ _ (by decide), xl_hi _ _ _ _ (by decide), xl_hi _ _ _ _ (by decide), xl_hi _ _ _ _ (by decide)]
  exact xl_self _
theorem fmtL_ctl (op : BitVec 8) (k : Ctl) (fn : BitVec 8) (d : BitVec 8) (i : BitVec 32) :
    ctlOf (fmtL op k fn d i) = k := ctlOf_of _ _ (fmtL_ctl8 _ _ _ _ _)
theorem fmtL_bit {op : BitVec 8} {k : Ctl} {fn : BitVec 8} {d : BitVec 8} {i : BitVec 32} (j : Nat) (h : j < 8) :
    bitAt (fmtL op k fn d i) (40 + j) = fn.getLsbD j := bitAt_fn _ _ (fmtL_fn _ _ _ _ _) j h
theorem fmtL_fld {op : BitVec 8} {k : Ctl} {fn : BitVec 8} {d : BitVec 8} {i : BitVec 32} (j l : Nat) (h : j + l ≤ 8) :
    (fmtL op k fn d i).extractLsb' (40 + j) l = fn.extractLsb' j l := xl_fn _ _ (fmtL_fn _ _ _ _ _) j l h
theorem fmtL_mask (op : BitVec 8) (k : Ctl) (fn : BitVec 8) (d : BitVec 8) (i : BitVec 32) (v : W64)
    (h0 : v.extractLsb' 48 16 = 0#16) (hi : i &&& v.extractLsb' 0 32 = 0#32) (hd : d &&& v.extractLsb' 32 8 = 0#8) (hfn : fn &&& v.extractLsb' 40 8 = 0#8) :
    fmtL op k fn d i &&& v = 0 := by
  refine and_append (m := 32) (n := 32) _ i v ?_ hi
  refine and_append (m := 24) (n := 8) _ d _ ?_ (by rwa [xl_xl _ _ _ _ _ (by decide)])
  rw [xl_xl _ _ _ _ _ (by decide)]
  refine and_append (m := 16) (n := 8) _ fn _ ?_ (by rwa [xl_xl _ _ _ _ _ (by decide)])
  rw [xl_xl _ _ _ _ _ (by decide)]
  exact head_mask op k _ h0

/-! ### fmtM -/

theorem fmtM_off (op : BitVec 8) (k : Ctl) (fn : BitVec 8) (d : BitVec 8) (a : BitVec 8) (bq : BitVec 5) (cp : BitVec 2) (off : BitVec 17) :
    (fmtM op k fn d a bq cp off).extractLsb' 0 17 = off := by
  unfold fmtM
  rw [xl_lo _ _ _ _ (by decide)]
  exact xl_self _
theorem fmtM_cp (op : BitVec 8) (k : Ctl) (fn : BitVec 8) (d : BitVec 8) (a : BitVec 8) (bq : BitVec 5) (cp : BitVec 2) (off : BitVec 17) :
    (fmtM op k fn d a bq cp off).extractLsb' 17 2 = cp := by
  unfold fmtM
  rw [xl_hi _ _ _ _ (by decide), xl_lo _ _ _ _ (by decide)]
  exact xl_self _
theorem fmtM_bq (op : BitVec 8) (k : Ctl) (fn : BitVec 8) (d : BitVec 8) (a : BitVec 8) (bq : BitVec 5) (cp : BitVec 2) (off : BitVec 17) :
    (fmtM op k fn d a bq cp off).extractLsb' 19 5 = bq := by
  unfold fmtM
  rw [xl_hi _ _ _ _ (by decide), xl_hi _ _ _ _ (by decide), xl_lo _ _ _ _ (by decide)]
  exact xl_self _
theorem fmtM_a (op : BitVec 8) (k : Ctl) (fn : BitVec 8) (d : BitVec 8) (a : BitVec 8) (bq : BitVec 5) (cp : BitVec 2) (off : BitVec 17) :
    (fmtM op k fn d a bq cp off).extractLsb' 24 8 = a := by
  unfold fmtM
  rw [xl_hi _ _ _ _ (by decide), xl_hi _ _ _ _ (by decide), xl_hi _ _ _ _ (by decide), xl_lo _ _ _ _ (by decide)]
  exact xl_self _
theorem fmtM_d (op : BitVec 8) (k : Ctl) (fn : BitVec 8) (d : BitVec 8) (a : BitVec 8) (bq : BitVec 5) (cp : BitVec 2) (off : BitVec 17) :
    (fmtM op k fn d a bq cp off).extractLsb' 32 8 = d := by
  unfold fmtM
  rw [xl_hi _ _ _ _ (by decide), xl_hi _ _ _ _ (by decide), xl_hi _ _ _ _ (by decide), xl_hi _ _ _ _ (by decide), xl_lo _ _ _ _ (by decide)]
  exact xl_self _
theorem fmtM_fn (op : BitVec 8) (k : Ctl) (fn : BitVec 8) (d : BitVec 8) (a : BitVec 8) (bq : BitVec 5) (cp : BitVec 2) (off : BitVec 17) :
    (fmtM op k fn d a bq cp off).extractLsb' 40 8 = fn := by
  unfold fmtM
  rw [xl_hi _ _ _ _ (by decide), xl_hi _ _ _ _ (by decide), xl_hi _ _ _ _ (by decide), xl_hi _ _ _ _ (by decide), xl_hi _ _ _ _ (by decide), xl_lo _ _ _ _ (by decide)]
  exact xl_self _
theorem fmtM_ctl8 (op : BitVec 8) (k : Ctl) (fn : BitVec 8) (d : BitVec 8) (a : BitVec 8) (bq : BitVec 5) (cp : BitVec 2) (off : BitVec 17) :
    (fmtM op k fn d a bq cp off).extractLsb' 48 8 = ctlBits k := by
  unfold fmtM
  rw [xl_hi _ _ _ _ (by decide), xl_hi _ _ _ _ (by decide), xl_hi _ _ _ _ (by decide), xl_hi _ _ _ _ (by decide), xl_hi _ _ _ _ (by decide), xl_hi _ _ _ _ (by decide), xl_lo _ _ _ _ (by decide)]
  exact xl_self _
theorem fmtM_op (op : BitVec 8) (k : Ctl) (fn : BitVec 8) (d : BitVec 8) (a : BitVec 8) (bq : BitVec 5) (cp : BitVec 2) (off : BitVec 17) :
    opOf (fmtM op k fn d a bq cp off) = op := by
  unfold opOf fmtM
  rw [xl_hi _ _ _ _ (by decide), xl_hi _ _ _ _ (by decide), xl_hi _ _ _ _ (by decide), xl_hi _ _ _ _ (by decide), xl_hi _ _ _ _ (by decide), xl_hi _ _ _ _ (by decide), xl_hi _ _ _ _ (by decide)]
  exact xl_self _
theorem fmtM_ctl (op : BitVec 8) (k : Ctl) (fn : BitVec 8) (d : BitVec 8) (a : BitVec 8) (bq : BitVec 5) (cp : BitVec 2) (off : BitVec 17) :
    ctlOf (fmtM op k fn d a bq cp off) = k := ctlOf_of _ _ (fmtM_ctl8 _ _ _ _ _ _ _ _)
theorem fmtM_bit {op : BitVec 8} {k : Ctl} {fn : BitVec 8} {d : BitVec 8} {a : BitVec 8} {bq : BitVec 5} {cp : BitVec 2} {off : BitVec 17} (j : Nat) (h : j < 8) :
    bitAt (fmtM op k fn d a bq cp off) (40 + j) = fn.getLsbD j := bitAt_fn _ _ (fmtM_fn _ _ _ _ _ _ _ _) j h
theorem fmtM_fld {op : BitVec 8} {k : Ctl} {fn : BitVec 8} {d : BitVec 8} {a : BitVec 8} {bq : BitVec 5} {cp : BitVec 2} {off : BitVec 17} (j l : Nat) (h : j + l ≤ 8) :
    (fmtM op k fn d a bq cp off).extractLsb' (40 + j) l = fn.extractLsb' j l := xl_fn _ _ (fmtM_fn _ _ _ _ _ _ _ _) j l h
theorem fmtM_mask (op : BitVec 8) (k : Ctl) (fn : BitVec 8) (d : BitVec 8) (a : BitVec 8) (bq : BitVec 5) (cp : BitVec 2) (off : BitVec 17) (v : W64)
    (h0 : v.extractLsb' 48 16 = 0#16) (hoff : off &&& v.extractLsb' 0 17 = 0#17) (hcp : cp &&& v.extractLsb' 17 2 = 0#2) (hbq : bq &&& v.extractLsb' 19 5 = 0#5) (ha : a &&& v.extractLsb' 24 8 = 0#8) (hd : d &&& v.extractLsb' 32 8 = 0#8) (hfn : fn &&& v.extractLsb' 40 8 = 0#8) :
    fmtM op k fn d a bq cp off &&& v = 0 := by
  refine and_append (m := 47) (n := 17) _ off v ?_ hoff
  refine and_append (m := 45) (n := 2) _ cp _ ?_ (by rwa [xl_xl _ _ _ _ _ (by decide)])
  rw [xl_xl _ _ _ _ _ (by decide)]
  refine and_append (m := 40) (n := 5) _ bq _ ?_ (by rwa [xl_xl _ _ _ _ _ (by decide)])
  rw [xl_xl _ _ _ _ _ (by decide)]
  refine and_append (m := 32) (n := 8) _ a _ ?_ (by rwa [xl_xl _ _ _ _ _ (by decide)])
  rw [xl_xl _ _ _ _ _ (by decide)]
  refine and_append (m := 24) (n := 8) _ d _ ?_ (by rwa [xl_xl _ _ _ _ _ (by decide)])
  rw [xl_xl _ _ _ _ _ (by decide)]
  refine and_append (m := 16) (n := 8) _ fn _ ?_ (by rwa [xl_xl _ _ _ _ _ (by decide)])
  rw [xl_xl _ _ _ _ _ (by decide)]
  exact head_mask op k _ h0

/-! ### fmtMA -/

theorem fmtMA_off (op : BitVec 8) (k : Ctl) (fn : BitVec 8) (d : BitVec 8) (a : BitVec 8) (bq : BitVec 5) (aop : BitVec 4) (off : BitVec 15) :
    (fmtMA op k fn d a bq aop off).extractLsb' 0 15 = off := by
  unfold fmtMA
  rw [xl_lo _ _ _ _ (by decide)]
  exact xl_self _
theorem fmtMA_aop (op : BitVec 8) (k : Ctl) (fn : BitVec 8) (d : BitVec 8) (a : BitVec 8) (bq : BitVec 5) (aop : BitVec 4) (off : BitVec 15) :
    (fmtMA op k fn d a bq aop off).extractLsb' 15 4 = aop := by
  unfold fmtMA
  rw [xl_hi _ _ _ _ (by decide), xl_lo _ _ _ _ (by decide)]
  exact xl_self _
theorem fmtMA_bq (op : BitVec 8) (k : Ctl) (fn : BitVec 8) (d : BitVec 8) (a : BitVec 8) (bq : BitVec 5) (aop : BitVec 4) (off : BitVec 15) :
    (fmtMA op k fn d a bq aop off).extractLsb' 19 5 = bq := by
  unfold fmtMA
  rw [xl_hi _ _ _ _ (by decide), xl_hi _ _ _ _ (by decide), xl_lo _ _ _ _ (by decide)]
  exact xl_self _
theorem fmtMA_a (op : BitVec 8) (k : Ctl) (fn : BitVec 8) (d : BitVec 8) (a : BitVec 8) (bq : BitVec 5) (aop : BitVec 4) (off : BitVec 15) :
    (fmtMA op k fn d a bq aop off).extractLsb' 24 8 = a := by
  unfold fmtMA
  rw [xl_hi _ _ _ _ (by decide), xl_hi _ _ _ _ (by decide), xl_hi _ _ _ _ (by decide), xl_lo _ _ _ _ (by decide)]
  exact xl_self _
theorem fmtMA_d (op : BitVec 8) (k : Ctl) (fn : BitVec 8) (d : BitVec 8) (a : BitVec 8) (bq : BitVec 5) (aop : BitVec 4) (off : BitVec 15) :
    (fmtMA op k fn d a bq aop off).extractLsb' 32 8 = d := by
  unfold fmtMA
  rw [xl_hi _ _ _ _ (by decide), xl_hi _ _ _ _ (by decide), xl_hi _ _ _ _ (by decide), xl_hi _ _ _ _ (by decide), xl_lo _ _ _ _ (by decide)]
  exact xl_self _
theorem fmtMA_fn (op : BitVec 8) (k : Ctl) (fn : BitVec 8) (d : BitVec 8) (a : BitVec 8) (bq : BitVec 5) (aop : BitVec 4) (off : BitVec 15) :
    (fmtMA op k fn d a bq aop off).extractLsb' 40 8 = fn := by
  unfold fmtMA
  rw [xl_hi _ _ _ _ (by decide), xl_hi _ _ _ _ (by decide), xl_hi _ _ _ _ (by decide), xl_hi _ _ _ _ (by decide), xl_hi _ _ _ _ (by decide), xl_lo _ _ _ _ (by decide)]
  exact xl_self _
theorem fmtMA_ctl8 (op : BitVec 8) (k : Ctl) (fn : BitVec 8) (d : BitVec 8) (a : BitVec 8) (bq : BitVec 5) (aop : BitVec 4) (off : BitVec 15) :
    (fmtMA op k fn d a bq aop off).extractLsb' 48 8 = ctlBits k := by
  unfold fmtMA
  rw [xl_hi _ _ _ _ (by decide), xl_hi _ _ _ _ (by decide), xl_hi _ _ _ _ (by decide), xl_hi _ _ _ _ (by decide), xl_hi _ _ _ _ (by decide), xl_hi _ _ _ _ (by decide), xl_lo _ _ _ _ (by decide)]
  exact xl_self _
theorem fmtMA_op (op : BitVec 8) (k : Ctl) (fn : BitVec 8) (d : BitVec 8) (a : BitVec 8) (bq : BitVec 5) (aop : BitVec 4) (off : BitVec 15) :
    opOf (fmtMA op k fn d a bq aop off) = op := by
  unfold opOf fmtMA
  rw [xl_hi _ _ _ _ (by decide), xl_hi _ _ _ _ (by decide), xl_hi _ _ _ _ (by decide), xl_hi _ _ _ _ (by decide), xl_hi _ _ _ _ (by decide), xl_hi _ _ _ _ (by decide), xl_hi _ _ _ _ (by decide)]
  exact xl_self _
theorem fmtMA_ctl (op : BitVec 8) (k : Ctl) (fn : BitVec 8) (d : BitVec 8) (a : BitVec 8) (bq : BitVec 5) (aop : BitVec 4) (off : BitVec 15) :
    ctlOf (fmtMA op k fn d a bq aop off) = k := ctlOf_of _ _ (fmtMA_ctl8 _ _ _ _ _ _ _ _)
theorem fmtMA_bit {op : BitVec 8} {k : Ctl} {fn : BitVec 8} {d : BitVec 8} {a : BitVec 8} {bq : BitVec 5} {aop : BitVec 4} {off : BitVec 15} (j : Nat) (h : j < 8) :
    bitAt (fmtMA op k fn d a bq aop off) (40 + j) = fn.getLsbD j := bitAt_fn _ _ (fmtMA_fn _ _ _ _ _ _ _ _) j h
theorem fmtMA_fld {op : BitVec 8} {k : Ctl} {fn : BitVec 8} {d : BitVec 8} {a : BitVec 8} {bq : BitVec 5} {aop : BitVec 4} {off : BitVec 15} (j l : Nat) (h : j + l ≤ 8) :
    (fmtMA op k fn d a bq aop off).extractLsb' (40 + j) l = fn.extractLsb' j l := xl_fn _ _ (fmtMA_fn _ _ _ _ _ _ _ _) j l h
theorem fmtMA_mask (op : BitVec 8) (k : Ctl) (fn : BitVec 8) (d : BitVec 8) (a : BitVec 8) (bq : BitVec 5) (aop : BitVec 4) (off : BitVec 15) (v : W64)
    (h0 : v.extractLsb' 48 16 = 0#16) (hoff : off &&& v.extractLsb' 0 15 = 0#15) (haop : aop &&& v.extractLsb' 15 4 = 0#4) (hbq : bq &&& v.extractLsb' 19 5 = 0#5) (ha : a &&& v.extractLsb' 24 8 = 0#8) (hd : d &&& v.extractLsb' 32 8 = 0#8) (hfn : fn &&& v.extractLsb' 40 8 = 0#8) :
    fmtMA op k fn d a bq aop off &&& v = 0 := by
  refine and_append (m := 49) (n := 15) _ off v ?_ hoff
  refine and_append (m := 45) (n := 4) _ aop _ ?_ (by rwa [xl_xl _ _ _ _ _ (by decide)])
  rw [xl_xl _ _ _ _ _ (by decide)]
  refine and_append (m := 40) (n := 5) _ bq _ ?_ (by rwa [xl_xl _ _ _ _ _ (by decide)])
  rw [xl_xl _ _ _ _ _ (by decide)]
  refine and_append (m := 32) (n := 8) _ a _ ?_ (by rwa [xl_xl _ _ _ _ _ (by decide)])
  rw [xl_xl _ _ _ _ _ (by decide)]
  refine and_append (m := 24) (n := 8) _ d _ ?_ (by rwa [xl_xl _ _ _ _ _ (by decide)])
  rw [xl_xl _ _ _ _ _ (by decide)]
  refine and_append (m := 16) (n := 8) _ fn _ ?_ (by rwa [xl_xl _ _ _ _ _ (by decide)])
  rw [xl_xl _ _ _ _ _ (by decide)]
  exact head_mask op k _ h0

/-! ### From a word back to its fields -/

theorem xl_join {n : Nat} (w : BitVec n) (s l m : Nat) :
    w.extractLsb' (s + m) l ++ w.extractLsb' s m = w.extractLsb' s (l + m) := by
  apply BitVec.eq_of_getLsbD_eq; intro i hi
  simp only [BitVec.getLsbD_append, BitVec.getLsbD_extractLsb']
  split
  · have h1 : i < l + m := by omega
    simp_all
  · have h1 : i - m < l := by omega
    have h2 : s + m + (i - m) = s + i := by omega
    simp_all

/-- A field that the mask covers is zero where the mask meets nothing. -/
theorem xl_zero {w v : W64} (h : w &&& v = 0) (s l : Nat) (hv : v.extractLsb' s l = BitVec.allOnes l) :
    w.extractLsb' s l = 0#l := by
  apply BitVec.eq_of_getLsbD_eq; intro i hi
  have h1 := congrArg (·.getLsbD (s + i)) h
  have h2 := congrArg (·.getLsbD i) hv
  simp [hi] at h1 h2 ⊢
  simpa [h2] using h1

theorem ctl_join (w : W64) : ctlBits (ctlOf w) = w.extractLsb' 48 8 := by
  have hb (n : Nat) : bit (bitAt w n) = w.extractLsb' n 1 := by
    apply BitVec.eq_of_getLsbD_eq; intro i hi
    obtain rfl : i = 0 := by omega
    simp [bit, bitAt]
  unfold ctlBits ctlOf
  rw [hb, hb]
  rw [show w.extractLsb' 55 1 ++ w.extractLsb' 49 6 = w.extractLsb' 49 (1 + 6) from xl_join w 49 1 6]
  exact xl_join w 48 7 1

theorem head_join (w : W64) : opOf w ++ ctlBits (ctlOf w) = w.extractLsb' 48 16 := by
  rw [ctl_join]; exact xl_join w 48 8 8
theorem fmtA_join (w : W64) : fmtA (opOf w) (ctlOf w) (w.extractLsb' 40 8) (w.extractLsb' 32 8) (w.extractLsb' 24 8)
    (w.extractLsb' 16 8) (w.extractLsb' 8 8) (w.extractLsb' 0 8) = w := by
  unfold fmtA
  rw [head_join, xl_join w 40 16 8, xl_join w 32 24 8, xl_join w 24 32 8, xl_join w 16 40 8, xl_join w 8 48 8]
  exact (xl_join w 0 56 8).trans (xl_self w)
theorem fmtI_join (w : W64) : fmtI (opOf w) (ctlOf w) (w.extractLsb' 40 8) (w.extractLsb' 32 8) (w.extractLsb' 24 8)
    (w.extractLsb' 0 24) = w := by
  unfold fmtI
  rw [head_join, xl_join w 40 16 8, xl_join w 32 24 8, xl_join w 24 32 8]
  exact (xl_join w 0 40 24).trans (xl_self w)
theorem fmtL_join (w : W64) : fmtL (opOf w) (ctlOf w) (w.extractLsb' 40 8) (w.extractLsb' 32 8) (w.extractLsb' 0 32) = w := by
  unfold fmtL
  rw [head_join, xl_join w 40 16 8, xl_join w 32 24 8]
  exact (xl_join w 0 32 32).trans (xl_self w)
theorem fmtM_join (w : W64) : fmtM (opOf w) (ctlOf w) (w.extractLsb' 40 8) (w.extractLsb' 32 8) (w.extractLsb' 24 8)
    (w.extractLsb' 19 5) (w.extractLsb' 17 2) (w.extractLsb' 0 17) = w := by
  unfold fmtM
  rw [head_join, xl_join w 40 16 8, xl_join w 32 24 8, xl_join w 24 32 8, xl_join w 19 40 5, xl_join w 17 45 2]
  exact (xl_join w 0 47 17).trans (xl_self w)
theorem fmtMA_join (w : W64) : fmtMA (opOf w) (ctlOf w) (w.extractLsb' 40 8) (w.extractLsb' 32 8) (w.extractLsb' 24 8)
    (w.extractLsb' 19 5) (w.extractLsb' 15 4) (w.extractLsb' 0 15) = w := by
  unfold fmtMA
  rw [head_join, xl_join w 40 16 8, xl_join w 32 24 8, xl_join w 24 32 8, xl_join w 19 40 5, xl_join w 15 45 4]
  exact (xl_join w 0 49 15).trans (xl_self w)

theorem ifZero_some {w m : W64} {i j : Instr} (h : ifZero w m i = some j) : w &&& m = 0 ∧ i = j := by
  unfold ifZero at h
  split at h
  · next hz => exact ⟨hz, Option.some.inj h⟩
  · cases h
/-- What a word that decodes has passed. -/
theorem decode_instr {w : W64} {i : Instr} (h : decode w = .instr i) :
    (∃ c, clsOf (opOf w).toNat = some c) ∧ decodeRaw w = some i ∧ i.wf = true := by
  unfold decode at h
  repeat' split at h
  all_goals simp_all

end Sys2Proof.Laws
end

