-- ==== Sys2Proof/Laws/Issue.lean ====
section
/-! SUPPORT. What an issue does, once and for all: with nothing in its way its effect is performed; with a bundle at a
word it always answers a next state. -/

namespace Sys2Proof.Machine

theorem filter_none {α : Type} (l : List α) (p : α → Bool) (h : ∀ x ∈ l, p x = false) : l.filter p = [] := by
  rw [List.filter_eq_nil_iff]; intro x hx; simp [h x hx]

theorem getBlock_uid {s : State} {u : Nat} {b : Block} (h : getBlock s u = some b) : b.uid = u := by
  simpa using List.find?_some h

/-- Lanes that meet no error have nothing corrected. -/
theorem correctMet_clean (s : State) (b : Block) (k : Ctl) (op : Nat) (pc : W64) (xs : List Lane) (src : List RG)
    (hb : getBlock s b.uid = some b) (h : ∀ x ∈ xs, (meets b k x src false).none = true) :
    correctMet s b k op pc xs src = s := by
  induction xs with
  | nil => rfl
  | cons x t ih =>
    have hx := h x (by simp)
    simp only [Met.none, Bool.and_eq_true, List.isEmpty_iff] at hx
    have ht := ih fun y hy => h y (by simp [hy])
    unfold correctMet at ht ⊢
    simpa [List.foldl_cons, hb, hx.1, hx.2, correctReads, correctErrs] using ht

/-- With nothing in its way, the checks of an issue leave the state alone. -/
theorem prepare_ready {s : State} {op : Nat} {k : Ctl} {src dst late : List RG} {q : Bundle} {c : Clause} {b : Block}
    (h : Ready s op k src dst late q c b) : prepare op k src dst s late = .go (issOf s q b op k) (issued s) := by
  have hr := filter_none (lanesOf s q) (fun x => (src ++ dst ++ late).any (outOfRange x.g)) h.range
  have hp : (if b.protectd = true then pairFaults (lanesOf s q) k op src else []) = [] := by
    split
    · exact h.pairs ‹_›
    · rfl
  have hd : (issuingOf s q).filter (fun x => !(meets b k x src true).none) = [] :=
    filter_none _ _ (fun x hx => by simp [h.clean x hx true])
  have hs : correctMet s b k op q.place.addr (issuingOf s q) src = s :=
    correctMet_clean _ _ _ _ _ _ _ (by rw [getBlock_uid h.block]; exact h.block) (fun x hx => h.clean x hx false)
  have ha := h.unarmed
  unfold issuingOf at hd hs
  unfold activeOf at ha
  unfold prepare
  simp only [h.bundle, h.clause, h.block, h.order, hr, hp, hd, hs, ha]
  simp [fireArm, issOf, issued, activeOf]

/-- With no error in the store-hold queue, no effect fails at it. -/
theorem holdTrap_clean {i : Iss} {s : State} {b : Block} (hb : getBlock s i.b.uid = some b) (h : holdBad b = [])
    (o : IOut) : holdTrap i s o = o := by
  have hf (t : State) : holdFails s t i.b.uid = false := by
    unfold holdFails
    split
    · rename_i c d h1 _
      rw [hb] at h1
      cases h1
      simp [h]
    · rfl
  cases o <;> simp [holdTrap, hf]

/-- With nothing in its way, an instruction has its effect, and what `finish` says follows. -/
theorem issue_ready {s : State} {op : Nat} {k : Ctl} {src dst late : List RG} {q : Bundle} {c : Clause} {b : Block}
    (h : Ready s op k src dst late q c b) (eff : Iss → State → IOut)
    (addr : Iss → Lane → Option Nat := fun _ _ => Option.none) :
    issue op k src dst s eff late addr = finish (issOf s q b op k) dst (eff (issOf s q b op k) (issued s)) := by
  have hb : getBlock (issued s) (issOf s q b op k).b.uid = some b := by
    show getBlock s b.uid = some b
    rw [getBlock_uid h.block]
    exact h.block
  simp only [issue, prepare_ready h, holdTrap_clean hb h.held]

theorem applyFlip_none (i : Iss) (dst : List RG) (s : State) (h : i.flip = none) : applyFlip i dst s = s := by
  simp [applyFlip, h]

/-- An effect that is performed: the bundle goes on. -/
theorem issue_done {s : State} {op : Nat} {k : Ctl} {src dst late : List RG} {q : Bundle} {c : Clause} {b : Block}
    (h : Ready s op k src dst late q c b) {eff : Iss → State → IOut} {t : State}
    (he : eff (issOf s q b op k) (issued s) = .done t) {addr : Iss → Lane → Option Nat} :
    issue op k src dst s eff late addr = .next (after (issOf s q b op k) t) := by
  rw [issue_ready h (addr := addr), he]; rfl

/-- An effect that has placed the bundle itself. -/
theorem issue_stay {s : State} {op : Nat} {k : Ctl} {src dst late : List RG} {q : Bundle} {c : Clause} {b : Block}
    (h : Ready s op k src dst late q c b) {eff : Iss → State → IOut} {t : State}
    (he : eff (issOf s q b op k) (issued s) = .stay t) {addr : Iss → Lane → Option Nat} :
    issue op k src dst s eff late addr = .next (parkAll (issOf s q b op k) t) := by
  rw [issue_ready h (addr := addr), he]; rfl

/-- An effect that finds faults: they are raised, and the armed error stays armed. -/
theorem issue_trap {s : State} {op : Nat} {k : Ctl} {src dst late : List RG} {q : Bundle} {c : Clause} {b : Block}
    (h : Ready s op k src dst late q c b) {eff : Iss → State → IOut} {t : State} {fs : List LaneFlt}
    (he : eff (issOf s q b op k) (issued s) = .trap t fs) {addr : Iss → Lane → Option Nat} :
    issue op k src dst s eff late addr =
      .next (raise (modBlock t b.uid fun b' => { b' with arm := b.arm }) b.uid op q.place.addr fs) := by
  rw [issue_ready h (addr := addr), he]; rfl

/-- An instruction that may not stand where it stands faults in every thread of its bundle. -/
theorem issue_misplaced {s : State} {op : Nat} {k : Ctl} {src dst late : List RG} {q : Bundle} {c : Clause} {b : Block}
    (hq : getBundle s s.cur = some q) (hc : q.place.clause = some c) (hb : getBlock s q.blk = some b) {cause : Nat}
    (h : orderFault b q.role c q.place.idx op = some cause) (eff : Iss → State → IOut) (addr : Iss → Lane → Option Nat) :
    issue op k src dst s eff late addr = .next (raise s b.uid op q.place.addr
      ((lanesOf s q).map fun x => ⟨x.t.gang, x.t.lane, { cause := cause }⟩)) := by
  simp [issue, prepare, hq, hc, hb, h, raiseAll]

/-- The lane operations of one n-bit result. -/
theorem laneOp_ready {s : State} {op : Nat} {k : Ctl} {src : List RG} {d : Reg} {n : Nat} {q : Bundle} {c : Clause}
    {b : Block} (h : Ready s op k src [⟨d, (n + 31) / 32⟩] [] q c b) (f : Lane → Nat) :
    laneOp op k src d n s f = .next (after (issOf s q b op k)
      (commit (issued s) d n ((activeOf s q k).map fun x => (x, f x)))) := issue_done h rfl

theorem laneOpF_ready {s : State} {op : Nat} {k : Ctl} {src : List RG} {d : Reg} {n : Nat} {q : Bundle} {c : Clause}
    {b : Block} (h : Ready s op k src [⟨d, (n + 31) / 32⟩] [] q c b) (f : Lane → Nat × BitVec 5) :
    laneOpF op k src d n s f = .next (after (issOf s q b op k)
      (orFlags (commit (issued s) d n ((activeOf s q k).map fun x => (x, (f x).1)))
        ((activeOf s q k).map fun x => (x, (f x).2)))) := issue_done h rfl

theorem lanePred_ready {s : State} {op : Nat} {k : Ctl} {src : List RG} {d : Reg} {q : Bundle} {c : Clause} {b : Block}
    (h : Ready s op k src [] [] q c b) (f : Lane → Bool) :
    lanePred op k src d s f = .next (after (issOf s q b op k)
      (commitP (issued s) d ((activeOf s q k).map fun x => (x, f x)))) := issue_done h rfl

theorem fireArm_goes (i : Iss) (s : State) (f : Option (Arm × Lane)) (r : Res) (h : fireArm i s f = .out r) : Goes r := by
  revert h
  unfold fireArm raiseAll
  repeat' split
  all_goals
    intro h
    cases h
    try exact ⟨_, rfl⟩

/-- The checks of an issue stop only by raising faults, which is a next state. -/
theorem prepare_goes {s : State} (h : AtWord s) (op : Nat) (k : Ctl) (src dst late : List RG) (r : Res)
    (hr : prepare op k src dst s late = .out r) : Goes r := by
  obtain ⟨q, b, c, h1, h2, h3⟩ := h
  revert hr
  unfold prepare
  simp only [h1, h2, h3, raiseAll]
  repeat' split
  all_goals first
    | (intro hr; cases hr; exact ⟨_, rfl⟩)
    | (intro hr; cases hr)
    | exact fireArm_goes _ _ _ r

/-- A bundle at a word always gets a next state from an issue: the effect, or the faults that it raises. -/
theorem issue_goes {s : State} (h : AtWord s) (op : Nat) (k : Ctl) (src dst late : List RG) (eff : Iss → State → IOut) :
    Goes (issue op k src dst s eff late) := by
  unfold issue
  split
  · exact prepare_goes h op k src dst late _ ‹_›
  · rename_i i s1 _
    cases holdTrap i s1 (eff i s1) <;> exact ⟨_, rfl⟩
  · exact ⟨_, rfl⟩

end Sys2Proof.Machine
end

