-- ==== Sys2Proof/Laws/Memory.lean ====
section
/-! SUPPORT. Laws of the sparse maps and of memory: a read after a write, and the canonical form that every memory
operation keeps. -/

namespace Sys2Proof.Laws

open Sys2Proof Sys2Proof.Machine

variable {β : Type}

/-- A key that a map does not list reads as the default. -/
theorem sparse_get_absent (d : β) (m : Sparse β) (k : Nat) (h : ∀ e ∈ m, e.1 ≠ k) : Sparse.get d m k = d := by
  induction m with
  | nil => rfl
  | cons e t ih =>
    obtain ⟨a, v⟩ := e
    have ha : a ≠ k := h (a, v) (by simp)
    simp only [Sparse.get, if_neg ha]
    exact ih fun e he => h e (by simp [he])

theorem sparse_get_filter (d : β) (m : Sparse β) (k j : Nat) :
    Sparse.get d (m.filter (fun e => e.1 != k)) j = if j = k then d else Sparse.get d m j := by
  by_cases hj : j = k
  · subst hj
    rw [if_pos rfl]
    exact sparse_get_absent d _ _ fun e he => by simpa using (List.mem_filter.mp he).2
  · rw [if_neg hj]
    induction m with
    | nil => rfl
    | cons e t ih =>
      obtain ⟨a, v⟩ := e
      by_cases ha : a = k
      · subst ha
        have : a ≠ j := fun h => hj h.symm
        simpa [Sparse.get, this] using ih
      · simp only [List.filter_cons, bne_iff_ne, ne_eq, ha, not_false_eq_true, if_true, Sparse.get, ih]

theorem sparse_get_ins (d : β) (m : Sparse β) (k j : Nat) (v : β) (h : ∀ e ∈ m, e.1 ≠ k) :
    Sparse.get d (Sparse.ins m k v) j = if j = k then v else Sparse.get d m j := by
  induction m with
  | nil => simp [Sparse.ins, Sparse.get, @eq_comm _ k j]
  | cons e t ih =>
    obtain ⟨a, w⟩ := e
    have ha : a ≠ k := h (a, w) (by simp)
    have ih := ih fun e he => h e (by simp [he])
    simp only [Sparse.ins]
    by_cases hk : k < a
    · simp only [if_pos hk, Sparse.get]
      by_cases hj : j = k
      · subst hj; simp
      · have : k ≠ j := fun h => hj h.symm
        simp [hj, this]
    · simp only [if_neg hk, Sparse.get, ih]
      by_cases hj : j = k
      · subst hj; simp [ha]
      · simp [hj]

/-- What a map holds after one entry of it is set. -/
theorem sparse_get_set [DecidableEq β] (d : β) (m : Sparse β) (k j : Nat) (v : β) :
    Sparse.get d (Sparse.set d m k v) j = if j = k then v else Sparse.get d m j := by
  simp only [Sparse.set]
  by_cases hv : v = d
  · rw [if_pos hv, sparse_get_filter, hv]
  · rw [if_neg hv, sparse_get_ins d _ _ _ _ fun e he => by simpa using (List.mem_filter.mp he).2, sparse_get_filter]
    by_cases hj : j = k <;> simp [hj]

@[simp] theorem sparse_get_set_same [DecidableEq β] (d : β) (m : Sparse β) (k : Nat) (v : β) :
    Sparse.get d (Sparse.set d m k v) k = v := by rw [sparse_get_set, if_pos rfl]

theorem sparse_get_set_other [DecidableEq β] (d : β) (m : Sparse β) {k j : Nat} (v : β) (h : j ≠ k) :
    Sparse.get d (Sparse.set d m k v) j = Sparse.get d m j := by rw [sparse_get_set, if_neg h]

theorem sparse_wf_cons [DecidableEq β] (d : β) (k : Nat) (v : β) (t : Sparse β) :
    Sparse.wf d ((k, v) :: t) = true ↔ v ≠ d ∧ (∀ e ∈ t, k < e.1) ∧ Sparse.wf d t = true := by
  simp [Sparse.wf, and_assoc]

theorem sparse_wf_filter [DecidableEq β] (d : β) (m : Sparse β) (p : Nat × β → Bool) (h : Sparse.wf d m = true) :
    Sparse.wf d (m.filter p) = true := by
  induction m with
  | nil => rfl
  | cons e t ih =>
    obtain ⟨a, v⟩ := e
    obtain ⟨h1, h2, h3⟩ := (sparse_wf_cons d a v t).mp h
    rw [List.filter_cons]
    split
    · exact (sparse_wf_cons d a v _).mpr ⟨h1, fun e he => h2 e (List.mem_filter.mp he).1, ih h3⟩
    · exact ih h3

theorem sparse_mem_ins (m : Sparse β) (k : Nat) (v : β) (e : Nat × β) (h : e ∈ Sparse.ins m k v) : e = (k, v) ∨ e ∈ m := by
  induction m with
  | nil => simpa [Sparse.ins] using h
  | cons x t ih =>
    obtain ⟨a, w⟩ := x
    simp only [Sparse.ins] at h
    split at h
    · simpa using h
    · rcases List.mem_cons.mp h with h | h
      · exact .inr (by simp [h])
      · exact (ih h).imp id (List.mem_cons_of_mem _)

theorem sparse_wf_ins [DecidableEq β] (d : β) (m : Sparse β) (k : Nat) (v : β) (hv : v ≠ d)
    (hk : ∀ e ∈ m, e.1 ≠ k) (h : Sparse.wf d m = true) : Sparse.wf d (Sparse.ins m k v) = true := by
  induction m with
  | nil => simp [Sparse.ins, Sparse.wf, hv]
  | cons x t ih =>
    obtain ⟨a, w⟩ := x
    obtain ⟨h1, h2, h3⟩ := (sparse_wf_cons d a w t).mp h
    have ha : a ≠ k := hk (a, w) (by simp)
    simp only [Sparse.ins]
    split
    · rename_i hlt
      refine (sparse_wf_cons d _ _ _).mpr ⟨hv, fun e he => ?_, h⟩
      rcases List.mem_cons.mp he with rfl | he
      · exact hlt
      · exact Nat.lt_trans hlt (h2 e he)
    · refine (sparse_wf_cons d _ _ _).mpr ⟨h1, fun e he => ?_, ih (fun e he => hk e (by simp [he])) h3⟩
      rcases sparse_mem_ins t k v e he with rfl | he
      · show a < k
        omega
      · exact h2 e he

/-- Setting an entry keeps the canonical form. -/
theorem sparse_wf_set [DecidableEq β] (d : β) (m : Sparse β) (k : Nat) (v : β) (h : Sparse.wf d m = true) :
    Sparse.wf d (Sparse.set d m k v) = true := by
  simp only [Sparse.set]
  split
  · exact sparse_wf_filter d m _ h
  · rename_i hv
    exact sparse_wf_ins d _ k v hv (fun e he => by simpa using (List.mem_filter.mp he).2) (sparse_wf_filter d m _ h)

/-- Two maps in canonical form that read alike at every key are the same list. -/
theorem sparse_ext [DecidableEq β] (d : β) (m n : Sparse β) (hm : Sparse.wf d m = true) (hn : Sparse.wf d n = true)
    (h : ∀ k, Sparse.get d m k = Sparse.get d n k) : m = n := by
  induction m generalizing n with
  | nil =>
    cases n with
    | nil => rfl
    | cons y u =>
      obtain ⟨b, w⟩ := y
      have := h b
      simp only [Sparse.get, if_true] at this
      exact absurd this.symm ((sparse_wf_cons d b w u).mp hn).1
  | cons x t ih =>
    obtain ⟨a, v⟩ := x
    obtain ⟨a1, a2, a3⟩ := (sparse_wf_cons d a v t).mp hm
    cases n with
    | nil =>
      have := h a
      simp only [Sparse.get, if_true] at this
      exact absurd this a1
    | cons y u =>
      obtain ⟨b, w⟩ := y
      obtain ⟨b1, b2, b3⟩ := (sparse_wf_cons d b w u).mp hn
      have ta : Sparse.get d t a = d := sparse_get_absent d t a fun e he => by have := a2 e he; omega
      have ub : Sparse.get d u b = d := sparse_get_absent d u b fun e he => by have := b2 e he; omega
      have hab : a = b := by
        rcases Nat.lt_trichotomy a b with hlt | rfl | hlt
        · have ua : Sparse.get d u a = d := sparse_get_absent d u a fun e he => by have := b2 e he; omega
          have := h a
          have hne : b ≠ a := by omega
          simp only [Sparse.get, if_true, if_neg hne, ua] at this
          exact absurd this a1
        · rfl
        · have tb : Sparse.get d t b = d := sparse_get_absent d t b fun e he => by have := a2 e he; omega
          have := h b
          have hne : a ≠ b := by omega
          simp only [Sparse.get, if_true, if_neg hne, tb] at this
          exact absurd this.symm b1
      subst hab
      have hv : v = w := by
        have := h a
        simpa [Sparse.get] using this
      subst hv
      have : t = u := ih u a3 b3 fun k => by
        by_cases hk : k = a
        · subst hk; rw [ta, ub]
        · have := h k
          have hne : a ≠ k := fun h => hk h.symm
          simpa [Sparse.get, hne] using this
      rw [this]

/-! ### Bytes -/

/-- What a map of bytes holds after bytes are put from an address. -/
theorem get_putBytes (m : Sparse Byte) (a : Nat) (bs : List Byte) (j : Nat) :
    Sparse.get unlisted (putBytes m a bs) j =
      if a ≤ j ∧ j < a + bs.length then bs.getD (j - a) 0 else Sparse.get unlisted m j := by
  induction bs generalizing m a with
  | nil =>
    have : ¬(a ≤ j ∧ j < a + 0) := by omega
    simp only [putBytes, List.length_nil, if_neg this]
  | cons b t ih =>
    simp only [putBytes, ih, List.length_cons]
    by_cases h : a + 1 ≤ j ∧ j < a + 1 + t.length
    · have h2 : a ≤ j ∧ j < a + (t.length + 1) := by omega
      have h3 : j - a = (j - (a + 1)) + 1 := by omega
      rw [if_pos h, if_pos h2, h3]
      simp
    · rw [if_neg h, sparse_get_set]
      by_cases hj : j = a
      · subst hj
        rw [if_pos rfl, if_pos (by omega)]
        simp
      · rw [if_neg hj, if_neg (by omega)]

theorem putBytes_wf (m : Sparse Byte) (a : Nat) (bs : List Byte) (h : Sparse.wf unlisted m = true) :
    Sparse.wf unlisted (putBytes m a bs) = true := by
  induction bs generalizing m a with
  | nil => exact h
  | cons b t ih => exact ih _ _ (sparse_wf_set _ _ _ _ h)

@[simp] theorem readByte_writeBytes (s : State) (pa : Nat) (bs : List Byte) (a : Nat) :
    readByte (writeBytes s pa bs) a = if pa ≤ a ∧ a < pa + bs.length then bs.getD (a - pa) 0 else readByte s a :=
  get_putBytes s.mem pa bs a

theorem readByte_writeBytes_outside (s : State) (pa : Nat) (bs : List Byte) (a : Nat) (h : a < pa ∨ pa + bs.length ≤ a) :
    readByte (writeBytes s pa bs) a = readByte s a := by
  rw [readByte_writeBytes, if_neg (by omega)]

/-- Writing bytes keeps the canonical form of memory. -/
theorem writeBytes_wf (s : State) (pa : Nat) (bs : List Byte) (h : Memory.wf s.mem = true) :
    Memory.wf (writeBytes s pa bs).mem = true := putBytes_wf s.mem pa bs h

/-- Memory at reset lists nothing. -/
theorem reset_mem_wf : Memory.wf State.reset.mem = true := rfl

theorem leBytes_length (n v : Nat) : (leBytes n v).length = n := by simp [leBytes]

theorem readBytes_length (s : State) (pa n : Nat) : (readBytes s pa n).length = n := by simp [readBytes]

end Sys2Proof.Laws
end

