-- ==== Sys2Proof/Laws/PerInstr.lean ====
section
/-! SUPPORT. The family Encoding, one lemma for each constructor of Instr: decoding the word of a well-formed instruction
gives the instruction back (02 R33-R39). -/

namespace Sys2Proof.Laws

/-- Decoding the encoded word gives the instruction back (the two writes of STATE share one word, log 11). -/
def Encoding.Statement (i : Instr) : Prop :=
  i.wf = true → Machine.isEvent i = false → decode (encode i) = .instr i.canon

/-! ### The function bytes -/

theorem fn1 : (0 : BitVec 8) &&& 0xff#8 = 0#8 := by decide
theorem fn2 : ∀ (w : Bool) (sg : Bool) (sat : Bool),
    (bit w ++ bit sg ++ bit sat ++ 0#5 : BitVec 8) &&& 0x1f#8 = 0#8 ∧
    (bit w ++ bit sg ++ bit sat ++ 0#5 : BitVec 8).getLsbD 7 = w ∧
    (bit w ++ bit sg ++ bit sat ++ 0#5 : BitVec 8).getLsbD 6 = sg ∧
    (bit w ++ bit sg ++ bit sat ++ 0#5 : BitVec 8).getLsbD 5 = sat := by decide
theorem fn3 : ∀ (sg : Bool) (sat : Bool),
    (0#1 ++ bit sg ++ bit sat ++ 0#5 : BitVec 8) &&& 0x9f#8 = 0#8 ∧
    (0#1 ++ bit sg ++ bit sat ++ 0#5 : BitVec 8).getLsbD 6 = sg ∧
    (0#1 ++ bit sg ++ bit sat ++ 0#5 : BitVec 8).getLsbD 5 = sat := by decide
theorem fn4 : ∀ (w : Bool) (sg : Bool),
    (bit w ++ bit sg ++ 0#6 : BitVec 8) &&& 0x3f#8 = 0#8 ∧
    (bit w ++ bit sg ++ 0#6 : BitVec 8).getLsbD 7 = w ∧
    (bit w ++ bit sg ++ 0#6 : BitVec 8).getLsbD 6 = sg := by decide
theorem fn5 : ∀ (w : Bool),
    (bit w ++ 0#7 : BitVec 8) &&& 0x7f#8 = 0#8 ∧
    (bit w ++ 0#7 : BitVec 8).getLsbD 7 = w := by decide
theorem fn6 : ∀ (w : Bool) (im : Bool),
    (bit w ++ 0#2 ++ bit im ++ 0#4 : BitVec 8) &&& 0x6f#8 = 0#8 ∧
    (bit w ++ 0#2 ++ bit im ++ 0#4 : BitVec 8).getLsbD 7 = w ∧
    (bit w ++ 0#2 ++ bit im ++ 0#4 : BitVec 8).getLsbD 4 = im := by decide
theorem fn7 : ∀ (w : Bool) (sg : Bool) (im : Bool),
    (bit w ++ bit sg ++ 0#1 ++ bit im ++ 0#4 : BitVec 8) &&& 0x2f#8 = 0#8 ∧
    (bit w ++ bit sg ++ 0#1 ++ bit im ++ 0#4 : BitVec 8).getLsbD 7 = w ∧
    (bit w ++ bit sg ++ 0#1 ++ bit im ++ 0#4 : BitVec 8).getLsbD 6 = sg ∧
    (bit w ++ bit sg ++ 0#1 ++ bit im ++ 0#4 : BitVec 8).getLsbD 4 = im := by decide
theorem fn8 : ∀ (im : Bool),
    (0#3 ++ bit im ++ 0#4 : BitVec 8) &&& 0xef#8 = 0#8 ∧
    (0#3 ++ bit im ++ 0#4 : BitVec 8).getLsbD 4 = im := by decide
theorem fn9 : ∀ (sz : BitVec 2),
    (sz ++ 0#6 : BitVec 8) &&& 0x3f#8 = 0#8 ∧
    (sz ++ 0#6 : BitVec 8).extractLsb' 6 2 = sz := by decide
theorem fn10 : ∀ (mv : BitVec 2),
    (mv ++ 0#6 : BitVec 8) &&& 0x3f#8 = 0#8 ∧
    (mv ++ 0#6 : BitVec 8).extractLsb' 6 2 = mv := by decide
theorem fn11 : ∀ (w : Bool) (sg : Bool) (cb : BitVec 2) (cc : BitVec 3),
    (bit w ++ bit sg ++ cb ++ cc ++ 0#1 : BitVec 8) &&& 0x1#8 = 0#8 ∧
    (bit w ++ bit sg ++ cb ++ cc ++ 0#1 : BitVec 8).getLsbD 7 = w ∧
    (bit w ++ bit sg ++ cb ++ cc ++ 0#1 : BitVec 8).getLsbD 6 = sg ∧
    (bit w ++ bit sg ++ cb ++ cc ++ 0#1 : BitVec 8).extractLsb' 4 2 = cb ∧
    (bit w ++ bit sg ++ cb ++ cc ++ 0#1 : BitVec 8).extractLsb' 1 3 = cc := by decide
theorem fn12 : ∀ (w : Bool) (mk : Bool) (pm : BitVec 2),
    (bit w ++ 0#2 ++ bit mk ++ pm ++ 0#2 : BitVec 8) &&& 0x63#8 = 0#8 ∧
    (bit w ++ 0#2 ++ bit mk ++ pm ++ 0#2 : BitVec 8).getLsbD 7 = w ∧
    (bit w ++ 0#2 ++ bit mk ++ pm ++ 0#2 : BitVec 8).getLsbD 4 = mk ∧
    (bit w ++ 0#2 ++ bit mk ++ pm ++ 0#2 : BitVec 8).extractLsb' 2 2 = pm := by decide
theorem fn13 : ∀ (mk : Bool),
    (0#3 ++ bit mk ++ 0#4 : BitVec 8) &&& 0xef#8 = 0#8 ∧
    (0#3 ++ bit mk ++ 0#4 : BitVec 8).getLsbD 4 = mk := by decide
theorem fn14 : ∀ (mk : Bool) (vm : BitVec 2),
    (0#3 ++ bit mk ++ vm ++ 0#2 : BitVec 8) &&& 0xe3#8 = 0#8 ∧
    (0#3 ++ bit mk ++ vm ++ 0#2 : BitVec 8).getLsbD 4 = mk ∧
    (0#3 ++ bit mk ++ vm ++ 0#2 : BitVec 8).extractLsb' 2 2 = vm := by decide
theorem fn15 : ∀ (w : Bool) (sg : Bool) (mk : Bool) (gop : BitVec 3),
    (bit w ++ bit sg ++ 0#1 ++ bit mk ++ gop ++ 0#1 : BitVec 8) &&& 0x21#8 = 0#8 ∧
    (bit w ++ bit sg ++ 0#1 ++ bit mk ++ gop ++ 0#1 : BitVec 8).getLsbD 7 = w ∧
    (bit w ++ bit sg ++ 0#1 ++ bit mk ++ gop ++ 0#1 : BitVec 8).getLsbD 6 = sg ∧
    (bit w ++ bit sg ++ 0#1 ++ bit mk ++ gop ++ 0#1 : BitVec 8).getLsbD 4 = mk ∧
    (bit w ++ bit sg ++ 0#1 ++ bit mk ++ gop ++ 0#1 : BitVec 8).extractLsb' 1 3 = gop := by decide
theorem fn16 : ∀ (w : Bool) (sg : Bool) (mk : Bool) (gop : BitVec 3) (ex : Bool),
    (bit w ++ bit sg ++ 0#1 ++ bit mk ++ gop ++ bit ex : BitVec 8) &&& 0x20#8 = 0#8 ∧
    (bit w ++ bit sg ++ 0#1 ++ bit mk ++ gop ++ bit ex : BitVec 8).getLsbD 7 = w ∧
    (bit w ++ bit sg ++ 0#1 ++ bit mk ++ gop ++ bit ex : BitVec 8).getLsbD 6 = sg ∧
    (bit w ++ bit sg ++ 0#1 ++ bit mk ++ gop ++ bit ex : BitVec 8).getLsbD 4 = mk ∧
    (bit w ++ bit sg ++ 0#1 ++ bit mk ++ gop ++ bit ex : BitVec 8).extractLsb' 1 3 = gop ∧
    (bit w ++ bit sg ++ 0#1 ++ bit mk ++ gop ++ bit ex : BitVec 8).getLsbD 0 = ex := by decide
theorem fn17 : ∀ (rm : BitVec 2) (na : Bool) (nc : Bool),
    (rm ++ bit na ++ bit nc ++ 0#4 : BitVec 8) &&& 0xf#8 = 0#8 ∧
    (rm ++ bit na ++ bit nc ++ 0#4 : BitVec 8).extractLsb' 6 2 = rm ∧
    (rm ++ bit na ++ bit nc ++ 0#4 : BitVec 8).getLsbD 5 = na ∧
    (rm ++ bit na ++ bit nc ++ 0#4 : BitVec 8).getLsbD 4 = nc := by decide
theorem fn18 : ∀ (rm : BitVec 2) (na : Bool),
    (rm ++ bit na ++ 0#5 : BitVec 8) &&& 0x1f#8 = 0#8 ∧
    (rm ++ bit na ++ 0#5 : BitVec 8).extractLsb' 6 2 = rm ∧
    (rm ++ bit na ++ 0#5 : BitVec 8).getLsbD 5 = na := by decide
theorem fn19 : ∀ (cb : BitVec 2) (cc : BitVec 3),
    (0#2 ++ cb ++ cc ++ 0#1 : BitVec 8) &&& 0xc1#8 = 0#8 ∧
    (0#2 ++ cb ++ cc ++ 0#1 : BitVec 8).extractLsb' 4 2 = cb ∧
    (0#2 ++ cb ++ cc ++ 0#1 : BitVec 8).extractLsb' 1 3 = cc := by decide
theorem fn20 : ∀ (rm : BitVec 2),
    (rm ++ 0#6 : BitVec 8) &&& 0x3f#8 = 0#8 ∧
    (rm ++ 0#6 : BitVec 8).extractLsb' 6 2 = rm := by decide
theorem fn21 : ∀ (rm : BitVec 2) (hf : Bool),
    (rm ++ bit hf ++ 0#5 : BitVec 8) &&& 0x1f#8 = 0#8 ∧
    (rm ++ bit hf ++ 0#5 : BitVec 8).extractLsb' 6 2 = rm ∧
    (rm ++ bit hf ++ 0#5 : BitVec 8).getLsbD 5 = hf := by decide
theorem fn22 : ∀ (hf : Bool) (mn : Bool),
    (0#2 ++ bit hf ++ bit mn ++ 0#4 : BitVec 8) &&& 0xcf#8 = 0#8 ∧
    (0#2 ++ bit hf ++ bit mn ++ 0#4 : BitVec 8).getLsbD 5 = hf ∧
    (0#2 ++ bit hf ++ bit mn ++ 0#4 : BitVec 8).getLsbD 4 = mn := by decide
theorem fn23 : ∀ (rm : BitVec 2) (src : BitVec 3) (dst : BitVec 3),
    (rm ++ src ++ dst : BitVec 8) &&& 0x0#8 = 0#8 ∧
    (rm ++ src ++ dst : BitVec 8).extractLsb' 6 2 = rm ∧
    (rm ++ src ++ dst : BitVec 8).extractLsb' 3 3 = src ∧
    (rm ++ src ++ dst : BitVec 8).extractLsb' 0 3 = dst := by decide
theorem fn24 : ∀ (rm : BitVec 2) (fmt : BitVec 3) (sat : Bool) (sc : Bool),
    (rm ++ fmt ++ bit sat ++ 0#1 ++ bit sc : BitVec 8) &&& 0x2#8 = 0#8 ∧
    (rm ++ fmt ++ bit sat ++ 0#1 ++ bit sc : BitVec 8).extractLsb' 6 2 = rm ∧
    (rm ++ fmt ++ bit sat ++ 0#1 ++ bit sc : BitVec 8).extractLsb' 3 3 = fmt ∧
    (rm ++ fmt ++ bit sat ++ 0#1 ++ bit sc : BitVec 8).getLsbD 2 = sat ∧
    (rm ++ fmt ++ bit sat ++ 0#1 ++ bit sc : BitVec 8).getLsbD 0 = sc := by decide
theorem fn25 : ∀ (rm : BitVec 2) (fmt : BitVec 3) (sc : Bool),
    (rm ++ fmt ++ 0#2 ++ bit sc : BitVec 8) &&& 0x6#8 = 0#8 ∧
    (rm ++ fmt ++ 0#2 ++ bit sc : BitVec 8).extractLsb' 6 2 = rm ∧
    (rm ++ fmt ++ 0#2 ++ bit sc : BitVec 8).extractLsb' 3 3 = fmt ∧
    (rm ++ fmt ++ 0#2 ++ bit sc : BitVec 8).getLsbD 0 = sc := by decide
theorem fn26 : ∀ (ord : BitVec 2) (scope : BitVec 3) (size : BitVec 3),
    (ord ++ scope ++ size : BitVec 8) &&& 0x0#8 = 0#8 ∧
    (ord ++ scope ++ size : BitVec 8).extractLsb' 6 2 = ord ∧
    (ord ++ scope ++ size : BitVec 8).extractLsb' 3 3 = scope ∧
    (ord ++ scope ++ size : BitVec 8).extractLsb' 0 3 = size := by decide
theorem fn27 : ∀ (ord : BitVec 2) (scope : BitVec 3),
    (ord ++ scope ++ 0#3 : BitVec 8) &&& 0x7#8 = 0#8 ∧
    (ord ++ scope ++ 0#3 : BitVec 8).extractLsb' 6 2 = ord ∧
    (ord ++ scope ++ 0#3 : BitVec 8).extractLsb' 3 3 = scope := by decide
theorem fn28 : ∀ (scope : BitVec 3),
    (0#2 ++ scope ++ 0#3 : BitVec 8) &&& 0xc7#8 = 0#8 ∧
    (0#2 ++ scope ++ 0#3 : BitVec 8).extractLsb' 3 3 = scope := by decide
theorem fn29 : ∀ (size : BitVec 3),
    (0#5 ++ size : BitVec 8) &&& 0xf8#8 = 0#8 ∧
    (0#5 ++ size : BitVec 8).extractLsb' 0 3 = size := by decide
theorem fn30 : ∀ (g : Bool),
    (bit g ++ 0#7 : BitVec 8) &&& 0x7f#8 = 0#8 ∧
    (bit g ++ 0#7 : BitVec 8).getLsbD 7 = g := by decide
theorem fn31 : (0#1 ++ 0#1 ++ 0#6 : BitVec 8) &&& 0xbf#8 = 0#8 := by decide
theorem fn32 : (0#1 ++ 1#1 ++ 0#6 : BitVec 8) &&& 0xbf#8 = 0#8 := by decide
theorem fn33 : ∀ (nb : Bool),
    (0#1 ++ bit nb ++ 0#6 : BitVec 8) &&& 0xbf#8 = 0#8 ∧
    (0#1 ++ bit nb ++ 0#6 : BitVec 8).getLsbD 6 = nb := by decide
theorem fn34 : ∀ (dk : BitVec 3) (ad : BitVec 3) (bc : Bool),
    (dk ++ ad ++ bit bc ++ 0#1 : BitVec 8) &&& 0x1#8 = 0#8 ∧
    (dk ++ ad ++ bit bc ++ 0#1 : BitVec 8).extractLsb' 5 3 = dk ∧
    (dk ++ ad ++ bit bc ++ 0#1 : BitVec 8).extractLsb' 2 3 = ad ∧
    (dk ++ ad ++ bit bc ++ 0#1 : BitVec 8).getLsbD 1 = bc := by decide
theorem fn35 : ∀ (kd : BitVec 2) (nb : Bool),
    (kd ++ bit nb ++ 0#5 : BitVec 8) &&& 0x1f#8 = 0#8 ∧
    (kd ++ bit nb ++ 0#5 : BitVec 8).extractLsb' 6 2 = kd ∧
    (kd ++ bit nb ++ 0#5 : BitVec 8).getLsbD 5 = nb := by decide
theorem fn36 : ∀ (kd : BitVec 2),
    (kd ++ 0#6 : BitVec 8) &&& 0x3f#8 = 0#8 ∧
    (kd ++ 0#6 : BitVec 8).extractLsb' 6 2 = kd := by decide
theorem fn37 : ∀ (ik : Bool),
    (bit ik ++ 0#7 : BitVec 8) &&& 0x7f#8 = 0#8 ∧
    (bit ik ++ 0#7 : BitVec 8).getLsbD 7 = ik := by decide
theorem fn38 : ∀ (sc : Bool) (rk : Bool) (tr : Bool) (mt : BitVec 3),
    (bit sc ++ bit rk ++ bit tr ++ mt ++ 0#2 : BitVec 8) &&& 0x3#8 = 0#8 ∧
    (bit sc ++ bit rk ++ bit tr ++ mt ++ 0#2 : BitVec 8).getLsbD 7 = sc ∧
    (bit sc ++ bit rk ++ bit tr ++ mt ++ 0#2 : BitVec 8).getLsbD 6 = rk ∧
    (bit sc ++ bit rk ++ bit tr ++ mt ++ 0#2 : BitVec 8).getLsbD 5 = tr ∧
    (bit sc ++ bit rk ++ bit tr ++ mt ++ 0#2 : BitVec 8).extractLsb' 2 3 = mt := by decide
theorem fn39 : ∀ (ad : Bool) (rk : Bool),
    (bit ad ++ bit rk ++ 0#6 : BitVec 8) &&& 0x3f#8 = 0#8 ∧
    (bit ad ++ bit rk ++ 0#6 : BitVec 8).getLsbD 7 = ad ∧
    (bit ad ++ bit rk ++ 0#6 : BitVec 8).getLsbD 6 = rk := by decide
theorem fn40 : ∀ (pa : Bool),
    (bit pa ++ 0#7 : BitVec 8) &&& 0x7f#8 = 0#8 ∧
    (bit pa ++ 0#7 : BitVec 8).getLsbD 7 = pa := by decide
theorem fn41 : ∀ (bk : Bool),
    (bit bk ++ 0#7 : BitVec 8) &&& 0x7f#8 = 0#8 ∧
    (bit bk ++ 0#7 : BitVec 8).getLsbD 7 = bk := by decide
theorem fn42 : ∀ (hm : Bool),
    (bit hm ++ 0#7 : BitVec 8) &&& 0x7f#8 = 0#8 ∧
    (bit hm ++ 0#7 : BitVec 8).getLsbD 7 = hm := by decide
theorem fn43 : ∀ (al : Bool),
    (bit al ++ 0#7 : BitVec 8) &&& 0x7f#8 = 0#8 ∧
    (bit al ++ 0#7 : BitVec 8).getLsbD 7 = al := by decide
theorem fn44 : ∀ (xc : Bool),
    (bit xc ++ 0#7 : BitVec 8) &&& 0x7f#8 = 0#8 ∧
    (bit xc ++ 0#7 : BitVec 8).getLsbD 7 = xc := by decide
theorem fn45 : (0#6 ++ 0#2 : BitVec 8) &&& 0xfc#8 = 0#8 := by decide
theorem fn46 : (0#6 ++ 1#2 : BitVec 8) &&& 0xfc#8 = 0#8 := by decide
theorem fn47 : (0#6 ++ 2#2 : BitVec 8) &&& 0xfc#8 = 0#8 := by decide
theorem fn48 : ∀ (bk : Bool),
    (0#7 ++ bit bk : BitVec 8) &&& 0xfe#8 = 0#8 ∧
    (0#7 ++ bit bk : BitVec 8).getLsbD 0 = bk := by decide
theorem fn49 : (0#7 ++ 1#1 : BitVec 8) &&& 0xfe#8 = 0#8 := by decide
theorem fn50 : (0#7 ++ 0#1 : BitVec 8) &&& 0xfe#8 = 0#8 := by decide
theorem fn51 : (0#5 ++ 0#3 : BitVec 8) &&& 0xf8#8 = 0#8 := by decide
theorem fn52 : (0#5 ++ 1#3 : BitVec 8) &&& 0xf8#8 = 0#8 := by decide
theorem fn53 : (0#5 ++ 2#3 : BitVec 8) &&& 0xf8#8 = 0#8 := by decide
theorem fn54 : ∀ (sp : Bool),
    (0#5 ++ bit sp ++ 3#2 : BitVec 8) &&& 0xf8#8 = 0#8 ∧
    (0#5 ++ bit sp ++ 3#2 : BitVec 8).getLsbD 2 = sp := by decide
theorem fn55 : ∀ (ek : BitVec 3),
    (ek ++ 0#5 : BitVec 8) &&& 0x1f#8 = 0#8 ∧
    (ek ++ 0#5 : BitVec 8).extractLsb' 5 3 = ek := by decide
theorem fn56 : (6#3 ++ 0#5 : BitVec 8) &&& 0x1f#8 = 0#8 := by decide
theorem fn57 : ∀ (ps : BitVec 2),
    (0#6 ++ ps : BitVec 8) &&& 0xfc#8 = 0#8 ∧
    (0#6 ++ ps : BitVec 8).extractLsb' 0 2 = ps := by decide
theorem fn58 : (0#3 ++ 0#5 : BitVec 8) &&& 0x1f#8 = 0#8 := by decide
theorem fn59 : (1#3 ++ 0#5 : BitVec 8) &&& 0x1f#8 = 0#8 := by decide
theorem fn60 : (3#3 ++ 0#5 : BitVec 8) &&& 0x1f#8 = 0#8 := by decide
theorem fn61 : (4#3 ++ 0#5 : BitVec 8) &&& 0x1f#8 = 0#8 := by decide
theorem fn62 : (2#3 ++ 0#5 : BitVec 8) &&& 0x1f#8 = 0#8 := by decide
theorem fn63 : ∀ (cl : Bool),
    (bit cl ++ 0#7 : BitVec 8) &&& 0x7f#8 = 0#8 ∧
    (bit cl ++ 0#7 : BitVec 8).getLsbD 7 = cl := by decide

/-! ### One lemma for each constructor -/

theorem Encoding.nop (k : Ctl) :
    Encoding.Statement (.nop k) := by
  intro hw _
  have hmask := fn1
  have ho : opOf (encode (.nop k)) = 0x01 := fmtA_op _ _ _ _ _ _ _ _
  have hc : clsOf (opOf (encode (.nop k))).toNat = some .int := by rw [ho]; rfl
  refine decode_of _ _ .int hc ?_ hw
  rw [raw_int _ hc]
  unfold decodeInt
  rw [ho]
  refine ifZero_of _ _ _ _ (fmtA_mask _ _ _ _ _ _ _ _ _ (by decide) (by decide) (by decide) (by decide) (by decide) (by decide) hmask) ?_
  unfold encode
  rw [fmtA_ctl]
  rfl

theorem Encoding.iadd (k : Ctl) (w : Bool) (sg : Bool) (sat : Bool) (d : Reg) (a : Reg) (b : Reg) :
    Encoding.Statement (.iadd k w sg sat d a b) := by
  intro hw _
  obtain ⟨hmask, h0, h1, h2⟩ := fn2 w sg sat
  have ho : opOf (encode (.iadd k w sg sat d a b)) = 0x02 := fmtA_op _ _ _ _ _ _ _ _
  have hc : clsOf (opOf (encode (.iadd k w sg sat d a b))).toNat = some .int := by rw [ho]; rfl
  refine decode_of _ _ .int hc ?_ hw
  rw [raw_int _ hc]
  unfold decodeInt
  rw [ho]
  refine ifZero_of _ _ _ _ (fmtA_mask _ _ _ _ _ _ _ _ _ (by decide) (by decide) (by decide) (by simp) (by simp) (by simp) hmask) ?_
  unfold encode
  rw [fmtA_ctl, (fmtA_bit 7 (by decide)).trans h0, (fmtA_bit 6 (by decide)).trans h1, (fmtA_bit 5 (by decide)).trans h2, fmtA_d, fmtA_a, fmtA_b]
  rfl

theorem Encoding.isub (k : Ctl) (w : Bool) (sg : Bool) (sat : Bool) (d : Reg) (a : Reg) (b : Reg) :
    Encoding.Statement (.isub k w sg sat d a b) := by
  intro hw _
  obtain ⟨hmask, h0, h1, h2⟩ := fn2 w sg sat
  have ho : opOf (encode (.isub k w sg sat d a b)) = 0x03 := fmtA_op _ _ _ _ _ _ _ _
  have hc : clsOf (opOf (encode (.isub k w sg sat d a b))).toNat = some .int := by rw [ho]; rfl
  refine decode_of _ _ .int hc ?_ hw
  rw [raw_int _ hc]
  unfold decodeInt
  rw [ho]
  refine ifZero_of _ _ _ _ (fmtA_mask _ _ _ _ _ _ _ _ _ (by decide) (by decide) (by decide) (by simp) (by simp) (by simp) hmask) ?_
  unfold encode
  rw [fmtA_ctl, (fmtA_bit 7 (by decide)).trans h0, (fmtA_bit 6 (by decide)).trans h1, (fmtA_bit 5 (by decide)).trans h2, fmtA_d, fmtA_a, fmtA_b]
  rfl

theorem Encoding.iaddi (k : Ctl) (w : Bool) (sg : Bool) (sat : Bool) (d : Reg) (a : Reg) (i : BitVec 24) :
    Encoding.Statement (.iaddi k w sg sat d a i) := by
  intro hw _
  obtain ⟨hmask, h0, h1, h2⟩ := fn2 w sg sat
  have ho : opOf (encode (.iaddi k w sg sat d a i)) = 0x04 := fmtI_op _ _ _ _ _ _
  have hc : clsOf (opOf (encode (.iaddi k w sg sat d a i))).toNat = some .int := by rw [ho]; rfl
  refine decode_of _ _ .int hc ?_ hw
  rw [raw_int _ hc]
  unfold decodeInt
  rw [ho]
  refine ifZero_of _ _ _ _ (fmtI_mask _ _ _ _ _ _ _ (by decide) (by simp) (by simp) (by simp) hmask) ?_
  unfold encode
  rw [fmtI_ctl, (fmtI_bit 7 (by decide)).trans h0, (fmtI_bit 6 (by decide)).trans h1, (fmtI_bit 5 (by decide)).trans h2, fmtI_d, fmtI_a, fmtI_i]
  rfl

theorem Encoding.iaddw (k : Ctl) (sg : Bool) (sat : Bool) (d : Reg) (a : Reg) (b : Reg) :
    Encoding.Statement (.iaddw k sg sat d a b) := by
  intro hw _
  obtain ⟨hmask, h0, h1⟩ := fn3 sg sat
  have ho : opOf (encode (.iaddw k sg sat d a b)) = 0x05 := fmtA_op _ _ _ _ _ _ _ _
  have hc : clsOf (opOf (encode (.iaddw k sg sat d a b))).toNat = some .int := by rw [ho]; rfl
  refine decode_of _ _ .int hc ?_ hw
  rw [raw_int _ hc]
  unfold decodeInt
  rw [ho]
  refine ifZero_of _ _ _ _ (fmtA_mask _ _ _ _ _ _ _ _ _ (by decide) (by decide) (by decide) (by simp) (by simp) (by simp) hmask) ?_
  unfold encode
  rw [fmtA_ctl, (fmtA_bit 6 (by decide)).trans h0, (fmtA_bit 5 (by decide)).trans h1, fmtA_d, fmtA_a, fmtA_b]
  rfl

theorem Encoding.imul (k : Ctl) (w : Bool) (sg : Bool) (sat : Bool) (d : Reg) (a : Reg) (b : Reg) :
    Encoding.Statement (.imul k w sg sat d a b) := by
  intro hw _
  obtain ⟨hmask, h0, h1, h2⟩ := fn2 w sg sat
  have ho : opOf (encode (.imul k w sg sat d a b)) = 0x06 := fmtA_op _ _ _ _ _ _ _ _
  have hc : clsOf (opOf (encode (.imul k w sg sat d a b))).toNat = some .int := by rw [ho]; rfl
  refine decode_of _ _ .int hc ?_ hw
  rw [raw_int _ hc]
  unfold decodeInt
  rw [ho]
  refine ifZero_of _ _ _ _ (fmtA_mask _ _ _ _ _ _ _ _ _ (by decide) (by decide) (by decide) (by simp) (by simp) (by simp) hmask) ?_
  unfold encode
  rw [fmtA_ctl, (fmtA_bit 7 (by decide)).trans h0, (fmtA_bit 6 (by decide)).trans h1, (fmtA_bit 5 (by decide)).trans h2, fmtA_d, fmtA_a, fmtA_b]
  rfl

theorem Encoding.imulh (k : Ctl) (w : Bool) (sg : Bool) (d : Reg) (a : Reg) (b : Reg) :
    Encoding.Statement (.imulh k w sg d a b) := by
  intro hw _
  obtain ⟨hmask, h0, h1⟩ := fn4 w sg
  have ho : opOf (encode (.imulh k w sg d a b)) = 0x07 := fmtA_op _ _ _ _ _ _ _ _
  have hc : clsOf (opOf (encode (.imulh k w sg d a b))).toNat = some .int := by rw [ho]; rfl
  refine decode_of _ _ .int hc ?_ hw
  rw [raw_int _ hc]
  unfold decodeInt
  rw [ho]
  refine ifZero_of _ _ _ _ (fmtA_mask _ _ _ _ _ _ _ _ _ (by decide) (by decide) (by decide) (by simp) (by simp) (by simp) hmask) ?_
  unfold encode
  rw [fmtA_ctl, (fmtA_bit 7 (by decide)).trans h0, (fmtA_bit 6 (by decide)).trans h1, fmtA_d, fmtA_a, fmtA_b]
  rfl

theorem Encoding.imad (k : Ctl) (w : Bool) (sg : Bool) (sat : Bool) (d : Reg) (a : Reg) (b : Reg) (c : Reg) :
    Encoding.Statement (.imad k w sg sat d a b c) := by
  intro hw _
  obtain ⟨hmask, h0, h1, h2⟩ := fn2 w sg sat
  have ho : opOf (encode (.imad k w sg sat d a b c)) = 0x08 := fmtA_op _ _ _ _ _ _ _ _
  have hc : clsOf (opOf (encode (.imad k w sg sat d a b c))).toNat = some .int := by rw [ho]; rfl
  refine decode_of _ _ .int hc ?_ hw
  rw [raw_int _ hc]
  unfold decodeInt
  rw [ho]
  refine ifZero_of _ _ _ _ (fmtA_mask _ _ _ _ _ _ _ _ _ (by decide) (by decide) (by simp) (by simp) (by simp) (by simp) hmask) ?_
  unfold encode
  rw [fmtA_ctl, (fmtA_bit 7 (by decide)).trans h0, (fmtA_bit 6 (by decide)).trans h1, (fmtA_bit 5 (by decide)).trans h2, fmtA_d, fmtA_a, fmtA_b, fmtA_c]
  rfl

theorem Encoding.imadw (k : Ctl) (sg : Bool) (sat : Bool) (d : Reg) (a : Reg) (b : Reg) (c : Reg) :
    Encoding.Statement (.imadw k sg sat d a b c) := by
  intro hw _
  obtain ⟨hmask, h0, h1⟩ := fn3 sg sat
  have ho : opOf (encode (.imadw k sg sat d a b c)) = 0x09 := fmtA_op _ _ _ _ _ _ _ _
  have hc : clsOf (opOf (encode (.imadw k sg sat d a b c))).toNat = some .int := by rw [ho]; rfl
  refine decode_of _ _ .int hc ?_ hw
  rw [raw_int _ hc]
  unfold decodeInt
  rw [ho]
  refine ifZero_of _ _ _ _ (fmtA_mask _ _ _ _ _ _ _ _ _ (by decide) (by decide) (by simp) (by simp) (by simp) (by simp) hmask) ?_
  unfold encode
  rw [fmtA_ctl, (fmtA_bit 6 (by decide)).trans h0, (fmtA_bit 5 (by decide)).trans h1, fmtA_d, fmtA_a, fmtA_b, fmtA_c]
  rfl

theorem Encoding.idiv (k : Ctl) (w : Bool) (sg : Bool) (d : Reg) (a : Reg) (b : Reg) :
    Encoding.Statement (.idiv k w sg d a b) := by
  intro hw _
  obtain ⟨hmask, h0, h1⟩ := fn4 w sg
  have ho : opOf (encode (.idiv k w sg d a b)) = 0x0A := fmtA_op _ _ _ _ _ _ _ _
  have hc : clsOf (opOf (encode (.idiv k w sg d a b))).toNat = some .int := by rw [ho]; rfl
  refine decode_of _ _ .int hc ?_ hw
  rw [raw_int _ hc]
  unfold decodeInt
  rw [ho]
  refine ifZero_of _ _ _ _ (fmtA_mask _ _ _ _ _ _ _ _ _ (by decide) (by decide) (by decide) (by simp) (by simp) (by simp) hmask) ?_
  unfold encode
  rw [fmtA_ctl, (fmtA_bit 7 (by decide)).trans h0, (fmtA_bit 6 (by decide)).trans h1, fmtA_d, fmtA_a, fmtA_b]
  rfl

theorem Encoding.irem (k : Ctl) (w : Bool) (sg : Bool) (d : Reg) (a : Reg) (b : Reg) :
    Encoding.Statement (.irem k w sg d a b) := by
  intro hw _
  obtain ⟨hmask, h0, h1⟩ := fn4 w sg
  have ho : opOf (encode (.irem k w sg d a b)) = 0x0B := fmtA_op _ _ _ _ _ _ _ _
  have hc : clsOf (opOf (encode (.irem k w sg d a b))).toNat = some .int := by rw [ho]; rfl
  refine decode_of _ _ .int hc ?_ hw
  rw [raw_int _ hc]
  unfold decodeInt
  rw [ho]
  refine ifZero_of _ _ _ _ (fmtA_mask _ _ _ _ _ _ _ _ _ (by decide) (by decide) (by decide) (by simp) (by simp) (by simp) hmask) ?_
  unfold encode
  rw [fmtA_ctl, (fmtA_bit 7 (by decide)).trans h0, (fmtA_bit 6 (by decide)).trans h1, fmtA_d, fmtA_a, fmtA_b]
  rfl

theorem Encoding.imin (k : Ctl) (w : Bool) (sg : Bool) (d : Reg) (a : Reg) (b : Reg) :
    Encoding.Statement (.imin k w sg d a b) := by
  intro hw _
  obtain ⟨hmask, h0, h1⟩ := fn4 w sg
  have ho : opOf (encode (.imin k w sg d a b)) = 0x0C := fmtA_op _ _ _ _ _ _ _ _
  have hc : clsOf (opOf (encode (.imin k w sg d a b))).toNat = some .int := by rw [ho]; rfl
  refine decode_of _ _ .int hc ?_ hw
  rw [raw_int _ hc]
  unfold decodeInt
  rw [ho]
  refine ifZero_of _ _ _ _ (fmtA_mask _ _ _ _ _ _ _ _ _ (by decide) (by decide) (by decide) (by simp) (by simp) (by simp) hmask) ?_
  unfold encode
  rw [fmtA_ctl, (fmtA_bit 7 (by decide)).trans h0, (fmtA_bit 6 (by decide)).trans h1, fmtA_d, fmtA_a, fmtA_b]
  rfl

theorem Encoding.imax (k : Ctl) (w : Bool) (sg : Bool) (d : Reg) (a : Reg) (b : Reg) :
    Encoding.Statement (.imax k w sg d a b) := by
  intro hw _
  obtain ⟨hmask, h0, h1⟩ := fn4 w sg
  have ho : opOf (encode (.imax k w sg d a b)) = 0x0D := fmtA_op _ _ _ _ _ _ _ _
  have hc : clsOf (opOf (encode (.imax k w sg d a b))).toNat = some .int := by rw [ho]; rfl
  refine decode_of _ _ .int hc ?_ hw
  rw [raw_int _ hc]
  unfold decodeInt
  rw [ho]
  refine ifZero_of _ _ _ _ (fmtA_mask _ _ _ _ _ _ _ _ _ (by decide) (by decide) (by decide) (by simp) (by simp) (by simp) hmask) ?_
  unfold encode
  rw [fmtA_ctl, (fmtA_bit 7 (by decide)).trans h0, (fmtA_bit 6 (by decide)).trans h1, fmtA_d, fmtA_a, fmtA_b]
  rfl

theorem Encoding.iabsd (k : Ctl) (w : Bool) (sg : Bool) (d : Reg) (a : Reg) (b : Reg) :
    Encoding.Statement (.iabsd k w sg d a b) := by
  intro hw _
  obtain ⟨hmask, h0, h1⟩ := fn4 w sg
  have ho : opOf (encode (.iabsd k w sg d a b)) = 0x0E := fmtA_op _ _ _ _ _ _ _ _
  have hc : clsOf (opOf (encode (.iabsd k w sg d a b))).toNat = some .int := by rw [ho]; rfl
  refine decode_of _ _ .int hc ?_ hw
  rw [raw_int _ hc]
  unfold decodeInt
  rw [ho]
  refine ifZero_of _ _ _ _ (fmtA_mask _ _ _ _ _ _ _ _ _ (by decide) (by decide) (by decide) (by simp) (by simp) (by simp) hmask) ?_
  unfold encode
  rw [fmtA_ctl, (fmtA_bit 7 (by decide)).trans h0, (fmtA_bit 6 (by decide)).trans h1, fmtA_d, fmtA_a, fmtA_b]
  rfl

theorem Encoding.lut3 (k : Ctl) (w : Bool) (d : Reg) (a : Reg) (b : Reg) (c : Reg) (x : BitVec 8) :
    Encoding.Statement (.lut3 k w d a b c x) := by
  intro hw _
  obtain ⟨hmask, h0⟩ := fn5 w
  have ho : opOf (encode (.lut3 k w d a b c x)) = 0x0F := fmtA_op _ _ _ _ _ _ _ _
  have hc : clsOf (opOf (encode (.lut3 k w d a b c x))).toNat = some .int := by rw [ho]; rfl
  refine decode_of _ _ .int hc ?_ hw
  rw [raw_int _ hc]
  unfold decodeInt
  rw [ho]
  refine ifZero_of _ _ _ _ (fmtA_mask _ _ _ _ _ _ _ _ _ (by decide) (by simp) (by simp) (by simp) (by simp) (by simp) hmask) ?_
  unfold encode
  rw [fmtA_ctl, (fmtA_bit 7 (by decide)).trans h0, fmtA_d, fmtA_a, fmtA_b, fmtA_c, fmtA_x]
  rfl

theorem Encoding.ishl (k : Ctl) (w : Bool) (im : Bool) (d : Reg) (a : Reg) (b : Reg) (x : BitVec 8) :
    Encoding.Statement (.ishl k w im d a b x) := by
  intro hw _
  obtain ⟨hmask, h0, h1⟩ := fn6 w im
  have ho : opOf (encode (.ishl k w im d a b x)) = 0x10 := fmtA_op _ _ _ _ _ _ _ _
  have hc : clsOf (opOf (encode (.ishl k w im d a b x))).toNat = some .int := by rw [ho]; rfl
  refine decode_of _ _ .int hc ?_ hw
  rw [raw_int _ hc]
  unfold decodeInt
  rw [ho]
  refine ifZero_of _ _ _ _ (fmtA_mask _ _ _ _ _ _ _ _ _ (by decide) (by simp) (by decide) (by simp) (by simp) (by simp) hmask) ?_
  unfold encode
  rw [fmtA_ctl, (fmtA_bit 7 (by decide)).trans h0, (fmtA_bit 4 (by decide)).trans h1, fmtA_d, fmtA_a, fmtA_b, fmtA_x]
  rfl

theorem Encoding.ishr (k : Ctl) (w : Bool) (sg : Bool) (im : Bool) (d : Reg) (a : Reg) (b : Reg) (x : BitVec 8) :
    Encoding.Statement (.ishr k w sg im d a b x) := by
  intro hw _
  obtain ⟨hmask, h0, h1, h2⟩ := fn7 w sg im
  have ho : opOf (encode (.ishr k w sg im d a b x)) = 0x11 := fmtA_op _ _ _ _ _ _ _ _
  have hc : clsOf (opOf (encode (.ishr k w sg im d a b x))).toNat = some .int := by rw [ho]; rfl
  refine decode_of _ _ .int hc ?_ hw
  rw [raw_int _ hc]
  unfold decodeInt
  rw [ho]
  refine ifZero_of _ _ _ _ (fmtA_mask _ _ _ _ _ _ _ _ _ (by decide) (by simp) (by decide) (by simp) (by simp) (by simp) hmask) ?_
  unfold encode
  rw [fmtA_ctl, (fmtA_bit 7 (by decide)).trans h0, (fmtA_bit 6 (by decide)).trans h1, (fmtA_bit 4 (by decide)).trans h2, fmtA_d, fmtA_a, fmtA_b, fmtA_x]
  rfl

theorem Encoding.fshl (k : Ctl) (im : Bool) (d : Reg) (a : Reg) (b : Reg) (c : Reg) (x : BitVec 8) :
    Encoding.Statement (.fshl k im d a b c x) := by
  intro hw _
  obtain ⟨hmask, h0⟩ := fn8 im
  have ho : opOf (encode (.fshl k im d a b c x)) = 0x12 := fmtA_op _ _ _ _ _ _ _ _
  have hc : clsOf (opOf (encode (.fshl k im d a b c x))).toNat = some .int := by rw [ho]; rfl
  refine decode_of _ _ .int hc ?_ hw
  rw [raw_int _ hc]
  unfold decodeInt
  rw [ho]
  refine ifZero_of _ _ _ _ (fmtA_mask _ _ _ _ _ _ _ _ _ (by decide) (by simp) (by simp) (by simp) (by simp) (by simp) hmask) ?_
  unfold encode
  rw [fmtA_ctl, (fmtA_bit 4 (by decide)).trans h0, fmtA_d, fmtA_a, fmtA_b, fmtA_c, fmtA_x]
  rfl

theorem Encoding.fshr (k : Ctl) (im : Bool) (d : Reg) (a : Reg) (b : Reg) (c : Reg) (x : BitVec 8) :
    Encoding.Statement (.fshr k im d a b c x) := by
  intro hw _
  obtain ⟨hmask, h0⟩ := fn8 im
  have ho : opOf (encode (.fshr k im d a b c x)) = 0x13 := fmtA_op _ _ _ _ _ _ _ _
  have hc : clsOf (opOf (encode (.fshr k im d a b c x))).toNat = some .int := by rw [ho]; rfl
  refine decode_of _ _ .int hc ?_ hw
  rw [raw_int _ hc]
  unfold decodeInt
  rw [ho]
  refine ifZero_of _ _ _ _ (fmtA_mask _ _ _ _ _ _ _ _ _ (by decide) (by simp) (by simp) (by simp) (by simp) (by simp) hmask) ?_
  unfold encode
  rw [fmtA_ctl, (fmtA_bit 4 (by decide)).trans h0, fmtA_d, fmtA_a, fmtA_b, fmtA_c, fmtA_x]
  rfl

theorem Encoding.bfx (k : Ctl) (w : Bool) (sg : Bool) (im : Bool) (d : Reg) (a : Reg) (c : Reg) (x : BitVec 8) :
    Encoding.Statement (.bfx k w sg im d a c x) := by
  intro hw _
  obtain ⟨hmask, h0, h1, h2⟩ := fn7 w sg im
  have ho : opOf (encode (.bfx k w sg im d a c x)) = 0x14 := fmtA_op _ _ _ _ _ _ _ _
  have hc : clsOf (opOf (encode (.bfx k w sg im d a c x))).toNat = some .int := by rw [ho]; rfl
  refine decode_of _ _ .int hc ?_ hw
  rw [raw_int _ hc]
  unfold decodeInt
  rw [ho]
  refine ifZero_of _ _ _ _ (fmtA_mask _ _ _ _ _ _ _ _ _ (by decide) (by simp) (by simp) (by decide) (by simp) (by simp) hmask) ?_
  unfold encode
  rw [fmtA_ctl, (fmtA_bit 7 (by decide)).trans h0, (fmtA_bit 6 (by decide)).trans h1, (fmtA_bit 4 (by decide)).trans h2, fmtA_d, fmtA_a, fmtA_c, fmtA_x]
  rfl

theorem Encoding.bfi (k : Ctl) (w : Bool) (im : Bool) (d : Reg) (a : Reg) (b : Reg) (c : Reg) (x : BitVec 8) :
    Encoding.Statement (.bfi k w im d a b c x) := by
  intro hw _
  obtain ⟨hmask, h0, h1⟩ := fn6 w im
  have ho : opOf (encode (.bfi k w im d a b c x)) = 0x15 := fmtA_op _ _ _ _ _ _ _ _
  have hc : clsOf (opOf (encode (.bfi k w im d a b c x))).toNat = some .int := by rw [ho]; rfl
  refine decode_of _ _ .int hc ?_ hw
  rw [raw_int _ hc]
  unfold decodeInt
  rw [ho]
  refine ifZero_of _ _ _ _ (fmtA_mask _ _ _ _ _ _ _ _ _ (by decide) (by simp) (by simp) (by simp) (by simp) (by simp) hmask) ?_
  unfold encode
  rw [fmtA_ctl, (fmtA_bit 7 (by decide)).trans h0, (fmtA_bit 4 (by decide)).trans h1, fmtA_d, fmtA_a, fmtA_b, fmtA_c, fmtA_x]
  rfl

theorem Encoding.popc (k : Ctl) (w : Bool) (d : Reg) (a : Reg) :
    Encoding.Statement (.popc k w d a) := by
  intro hw _
  obtain ⟨hmask, h0⟩ := fn5 w
  have ho : opOf (encode (.popc k w d a)) = 0x16 := fmtA_op _ _ _ _ _ _ _ _
  have hc : clsOf (opOf (encode (.popc k w d a))).toNat = some .int := by rw [ho]; rfl
  refine decode_of _ _ .int hc ?_ hw
  rw [raw_int _ hc]
  unfold decodeInt
  rw [ho]
  refine ifZero_of _ _ _ _ (fmtA_mask _ _ _ _ _ _ _ _ _ (by decide) (by decide) (by decide) (by decide) (by simp) (by simp) hmask) ?_
  unfold encode
  rw [fmtA_ctl, (fmtA_bit 7 (by decide)).trans h0, fmtA_d, fmtA_a]
  rfl

theorem Encoding.popb (k : Ctl) (w : Bool) (d : Reg) (a : Reg) :
    Encoding.Statement (.popb k w d a) := by
  intro hw _
  obtain ⟨hmask, h0⟩ := fn5 w
  have ho : opOf (encode (.popb k w d a)) = 0x17 := fmtA_op _ _ _ _ _ _ _ _
  have hc : clsOf (opOf (encode (.popb k w d a))).toNat = some .int := by rw [ho]; rfl
  refine decode_of _ _ .int hc ?_ hw
  rw [raw_int _ hc]
  unfold decodeInt
  rw [ho]
  refine ifZero_of _ _ _ _ (fmtA_mask _ _ _ _ _ _ _ _ _ (by decide) (by decide) (by decide) (by decide) (by simp) (by simp) hmask) ?_
  unfold encode
  rw [fmtA_ctl, (fmtA_bit 7 (by decide)).trans h0, fmtA_d, fmtA_a]
  rfl

theorem Encoding.clz (k : Ctl) (w : Bool) (d : Reg) (a : Reg) :
    Encoding.Statement (.clz k w d a) := by
  intro hw _
  obtain ⟨hmask, h0⟩ := fn5 w
  have ho : opOf (encode (.clz k w d a)) = 0x18 := fmtA_op _ _ _ _ _ _ _ _
  have hc : clsOf (opOf (encode (.clz k w d a))).toNat = some .int := by rw [ho]; rfl
  refine decode_of _ _ .int hc ?_ hw
  rw [raw_int _ hc]
  unfold decodeInt
  rw [ho]
  refine ifZero_of _ _ _ _ (fmtA_mask _ _ _ _ _ _ _ _ _ (by decide) (by decide) (by decide) (by decide) (by simp) (by simp) hmask) ?_
  unfold encode
  rw [fmtA_ctl, (fmtA_bit 7 (by decide)).trans h0, fmtA_d, fmtA_a]
  rfl

theorem Encoding.brev (k : Ctl) (w : Bool) (d : Reg) (a : Reg) :
    Encoding.Statement (.brev k w d a) := by
  intro hw _
  obtain ⟨hmask, h0⟩ := fn5 w
  have ho : opOf (encode (.brev k w d a)) = 0x19 := fmtA_op _ _ _ _ _ _ _ _
  have hc : clsOf (opOf (encode (.brev k w d a))).toNat = some .int := by rw [ho]; rfl
  refine decode_of _ _ .int hc ?_ hw
  rw [raw_int _ hc]
  unfold decodeInt
  rw [ho]
  refine ifZero_of _ _ _ _ (fmtA_mask _ _ _ _ _ _ _ _ _ (by decide) (by decide) (by decide) (by decide) (by simp) (by simp) hmask) ?_
  unfold encode
  rw [fmtA_ctl, (fmtA_bit 7 (by decide)).trans h0, fmtA_d, fmtA_a]
  rfl

theorem Encoding.isel (k : Ctl) (w : Bool) (d : Reg) (a : Reg) (b : Reg) (x : BitVec 8) :
    Encoding.Statement (.isel k w d a b x) := by
  intro hw _
  obtain ⟨hmask, h0⟩ := fn5 w
  have ho : opOf (encode (.isel k w d a b x)) = 0x1A := fmtA_op _ _ _ _ _ _ _ _
  have hc : clsOf (opOf (encode (.isel k w d a b x))).toNat = some .int := by rw [ho]; rfl
  refine decode_of _ _ .int hc ?_ hw
  rw [raw_int _ hc]
  unfold decodeInt
  rw [ho]
  refine ifZero_of _ _ _ _ (fmtA_mask _ _ _ _ _ _ _ _ _ (by decide) (by simp) (by decide) (by simp) (by simp) (by simp) hmask) ?_
  unfold encode
  rw [fmtA_ctl, (fmtA_bit 7 (by decide)).trans h0, fmtA_d, fmtA_a, fmtA_b, fmtA_x]
  rfl

theorem Encoding.mov (k : Ctl) (sz : BitVec 2) (d : Reg) (a : Reg) :
    Encoding.Statement (.mov k sz d a) := by
  intro hw _
  obtain ⟨hmask, h0⟩ := fn9 sz
  have ho : opOf (encode (.mov k sz d a)) = 0x1B := fmtA_op _ _ _ _ _ _ _ _
  have hc : clsOf (opOf (encode (.mov k sz d a))).toNat = some .int := by rw [ho]; rfl
  refine decode_of _ _ .int hc ?_ hw
  rw [raw_int _ hc]
  unfold decodeInt
  rw [ho]
  refine ifZero_of _ _ _ _ (fmtA_mask _ _ _ _ _ _ _ _ _ (by decide) (by decide) (by decide) (by decide) (by simp) (by simp) hmask) ?_
  unfold encode
  rw [fmtA_ctl, (fmtA_fld 6 2 (by decide)).trans h0, fmtA_d, fmtA_a]
  rfl

theorem Encoding.movi (k : Ctl) (mv : BitVec 2) (d : Reg) (i : BitVec 32) :
    Encoding.Statement (.movi k mv d i) := by
  intro hw _
  obtain ⟨hmask, h0⟩ := fn10 mv
  have ho : opOf (encode (.movi k mv d i)) = 0x1C := fmtL_op _ _ _ _ _
  have hc : clsOf (opOf (encode (.movi k mv d i))).toNat = some .int := by rw [ho]; rfl
  refine decode_of _ _ .int hc ?_ hw
  rw [raw_int _ hc]
  unfold decodeInt
  rw [ho]
  refine ifZero_of _ _ _ _ (fmtL_mask _ _ _ _ _ _ (by decide) (by simp) (by simp) hmask) ?_
  unfold encode
  rw [fmtL_ctl, (fmtL_fld 6 2 (by decide)).trans h0, fmtL_d, fmtL_i]
  rfl

theorem Encoding.icmp (k : Ctl) (w : Bool) (sg : Bool) (cb : BitVec 2) (cc : BitVec 3) (d : Reg) (a : Reg) (b : Reg) :
    Encoding.Statement (.icmp k w sg cb cc d a b) := by
  intro hw _
  obtain ⟨hmask, h0, h1, h2, h3⟩ := fn11 w sg cb cc
  have ho : opOf (encode (.icmp k w sg cb cc d a b)) = 0x1D := fmtA_op _ _ _ _ _ _ _ _
  have hc : clsOf (opOf (encode (.icmp k w sg cb cc d a b))).toNat = some .int := by rw [ho]; rfl
  refine decode_of _ _ .int hc ?_ hw
  rw [raw_int _ hc]
  unfold decodeInt
  rw [ho]
  refine ifZero_of _ _ _ _ (fmtA_mask _ _ _ _ _ _ _ _ _ (by decide) (by decide) (by decide) (by simp) (by simp) (by simp) hmask) ?_
  unfold encode
  rw [fmtA_ctl, (fmtA_bit 7 (by decide)).trans h0, (fmtA_bit 6 (by decide)).trans h1, (fmtA_fld 4 2 (by decide)).trans h2, (fmtA_fld 1 3 (by decide)).trans h3, fmtA_d, fmtA_a, fmtA_b]
  rfl

theorem Encoding.icmpi (k : Ctl) (w : Bool) (sg : Bool) (cb : BitVec 2) (cc : BitVec 3) (d : Reg) (a : Reg) (i : BitVec 24) :
    Encoding.Statement (.icmpi k w sg cb cc d a i) := by
  intro hw _
  obtain ⟨hmask, h0, h1, h2, h3⟩ := fn11 w sg cb cc
  have ho : opOf (encode (.icmpi k w sg cb cc d a i)) = 0x1E := fmtI_op _ _ _ _ _ _
  have hc : clsOf (opOf (encode (.icmpi k w sg cb cc d a i))).toNat = some .int := by rw [ho]; rfl
  refine decode_of _ _ .int hc ?_ hw
  rw [raw_int _ hc]
  unfold decodeInt
  rw [ho]
  refine ifZero_of _ _ _ _ (fmtI_mask _ _ _ _ _ _ _ (by decide) (by simp) (by simp) (by simp) hmask) ?_
  unfold encode
  rw [fmtI_ctl, (fmtI_bit 7 (by decide)).trans h0, (fmtI_bit 6 (by decide)).trans h1, (fmtI_fld 4 2 (by decide)).trans h2, (fmtI_fld 1 3 (by decide)).trans h3, fmtI_d, fmtI_a, fmtI_i]
  rfl

theorem Encoding.plut (k : Ctl) (d : Reg) (a : Reg) (b : Reg) (c : Reg) (x : BitVec 8) :
    Encoding.Statement (.plut k d a b c x) := by
  intro hw _
  have hmask := fn1
  have ho : opOf (encode (.plut k d a b c x)) = 0x1F := fmtA_op _ _ _ _ _ _ _ _
  have hc : clsOf (opOf (encode (.plut k d a b c x))).toNat = some .int := by rw [ho]; rfl
  refine decode_of _ _ .int hc ?_ hw
  rw [raw_int _ hc]
  unfold decodeInt
  rw [ho]
  refine ifZero_of _ _ _ _ (fmtA_mask _ _ _ _ _ _ _ _ _ (by decide) (by simp) (by simp) (by simp) (by simp) (by simp) hmask) ?_
  unfold encode
  rw [fmtA_ctl, fmtA_d, fmtA_a, fmtA_b, fmtA_c, fmtA_x]
  rfl

theorem Encoding.pget (k : Ctl) (d : Reg) (x : BitVec 8) :
    Encoding.Statement (.pget k d x) := by
  intro hw _
  have hmask := fn1
  have ho : opOf (encode (.pget k d x)) = 0x20 := fmtA_op _ _ _ _ _ _ _ _
  have hc : clsOf (opOf (encode (.pget k d x))).toNat = some .int := by rw [ho]; rfl
  refine decode_of _ _ .int hc ?_ hw
  rw [raw_int _ hc]
  unfold decodeInt
  rw [ho]
  refine ifZero_of _ _ _ _ (fmtA_mask _ _ _ _ _ _ _ _ _ (by decide) (by simp) (by decide) (by decide) (by decide) (by simp) hmask) ?_
  unfold encode
  rw [fmtA_ctl, fmtA_d, fmtA_x]
  rfl

theorem Encoding.pset (k : Ctl) (a : Reg) (b : Reg) (x : BitVec 8) :
    Encoding.Statement (.pset k a b x) := by
  intro hw _
  have hmask := fn1
  have ho : opOf (encode (.pset k a b x)) = 0x21 := fmtA_op _ _ _ _ _ _ _ _
  have hc : clsOf (opOf (encode (.pset k a b x))).toNat = some .int := by rw [ho]; rfl
  refine decode_of _ _ .int hc ?_ hw
  rw [raw_int _ hc]
  unfold decodeInt
  rw [ho]
  refine ifZero_of _ _ _ _ (fmtA_mask _ _ _ _ _ _ _ _ _ (by decide) (by simp) (by decide) (by simp) (by simp) (by decide) hmask) ?_
  unfold encode
  rw [fmtA_ctl, fmtA_a, fmtA_b, fmtA_x]
  rfl

theorem Encoding.perm (k : Ctl) (w : Bool) (mk : Bool) (pm : BitVec 2) (d : Reg) (a : Reg) (b : Reg) (c : Reg) (x : BitVec 8) :
    Encoding.Statement (.perm k w mk pm d a b c x) := by
  intro hw _
  obtain ⟨hmask, h0, h1, h2⟩ := fn12 w mk pm
  have ho : opOf (encode (.perm k w mk pm d a b c x)) = 0x22 := fmtA_op _ _ _ _ _ _ _ _
  have hc : clsOf (opOf (encode (.perm k w mk pm d a b c x))).toNat = some .int := by rw [ho]; rfl
  refine decode_of _ _ .int hc ?_ hw
  rw [raw_int _ hc]
  unfold decodeInt
  rw [ho]
  refine ifZero_of _ _ _ _ (fmtA_mask _ _ _ _ _ _ _ _ _ (by decide) (by simp) (by simp) (by simp) (by simp) (by simp) hmask) ?_
  unfold encode
  rw [fmtA_ctl, (fmtA_bit 7 (by decide)).trans h0, (fmtA_bit 4 (by decide)).trans h1, (fmtA_fld 2 2 (by decide)).trans h2, fmtA_d, fmtA_a, fmtA_b, fmtA_c, fmtA_x]
  rfl

theorem Encoding.permx (k : Ctl) (mk : Bool) (d : Reg) (a : Reg) (b : Reg) (c : Reg) (x : BitVec 8) :
    Encoding.Statement (.permx k mk d a b c x) := by
  intro hw _
  obtain ⟨hmask, h0⟩ := fn13 mk
  have ho : opOf (encode (.permx k mk d a b c x)) = 0x23 := fmtA_op _ _ _ _ _ _ _ _
  have hc : clsOf (opOf (encode (.permx k mk d a b c x))).toNat = some .int := by rw [ho]; rfl
  refine decode_of _ _ .int hc ?_ hw
  rw [raw_int _ hc]
  unfold decodeInt
  rw [ho]
  refine ifZero_of _ _ _ _ (fmtA_mask _ _ _ _ _ _ _ _ _ (by decide) (by simp) (by simp) (by simp) (by simp) (by simp) hmask) ?_
  unfold encode
  rw [fmtA_ctl, (fmtA_bit 4 (by decide)).trans h0, fmtA_d, fmtA_a, fmtA_b, fmtA_c, fmtA_x]
  rfl

theorem Encoding.vote (k : Ctl) (mk : Bool) (vm : BitVec 2) (d : Reg) (a : Reg) (c : Reg) :
    Encoding.Statement (.vote k mk vm d a c) := by
  intro hw _
  obtain ⟨hmask, h0, h1⟩ := fn14 mk vm
  have ho : opOf (encode (.vote k mk vm d a c)) = 0x24 := fmtA_op _ _ _ _ _ _ _ _
  have hc : clsOf (opOf (encode (.vote k mk vm d a c))).toNat = some .int := by rw [ho]; rfl
  refine decode_of _ _ .int hc ?_ hw
  rw [raw_int _ hc]
  unfold decodeInt
  rw [ho]
  refine ifZero_of _ _ _ _ (fmtA_mask _ _ _ _ _ _ _ _ _ (by decide) (by decide) (by simp) (by decide) (by simp) (by simp) hmask) ?_
  unfold encode
  rw [fmtA_ctl, (fmtA_bit 4 (by decide)).trans h0, (fmtA_fld 2 2 (by decide)).trans h1, fmtA_d, fmtA_a, fmtA_c]
  rfl

theorem Encoding.elect (k : Ctl) (mk : Bool) (d : Reg) (c : Reg) :
    Encoding.Statement (.elect k mk d c) := by
  intro hw _
  obtain ⟨hmask, h0⟩ := fn13 mk
  have ho : opOf (encode (.elect k mk d c)) = 0x25 := fmtA_op _ _ _ _ _ _ _ _
  have hc : clsOf (opOf (encode (.elect k mk d c))).toNat = some .int := by rw [ho]; rfl
  refine decode_of _ _ .int hc ?_ hw
  rw [raw_int _ hc]
  unfold decodeInt
  rw [ho]
  refine ifZero_of _ _ _ _ (fmtA_mask _ _ _ _ _ _ _ _ _ (by decide) (by decide) (by simp) (by decide) (by decide) (by simp) hmask) ?_
  unfold encode
  rw [fmtA_ctl, (fmtA_bit 4 (by decide)).trans h0, fmtA_d, fmtA_c]
  rfl

theorem Encoding.gred (k : Ctl) (w : Bool) (sg : Bool) (mk : Bool) (gop : BitVec 3) (d : Reg) (a : Reg) (c : Reg) :
    Encoding.Statement (.gred k w sg mk gop d a c) := by
  intro hw _
  obtain ⟨hmask, h0, h1, h2, h3⟩ := fn15 w sg mk gop
  have ho : opOf (encode (.gred k w sg mk gop d a c)) = 0x26 := fmtA_op _ _ _ _ _ _ _ _
  have hc : clsOf (opOf (encode (.gred k w sg mk gop d a c))).toNat = some .int := by rw [ho]; rfl
  refine decode_of _ _ .int hc ?_ hw
  rw [raw_int _ hc]
  unfold decodeInt
  rw [ho]
  refine ifZero_of _ _ _ _ (fmtA_mask _ _ _ _ _ _ _ _ _ (by decide) (by decide) (by simp) (by decide) (by simp) (by simp) hmask) ?_
  unfold encode
  rw [fmtA_ctl, (fmtA_bit 7 (by decide)).trans h0, (fmtA_bit 6 (by decide)).trans h1, (fmtA_bit 4 (by decide)).trans h2, (fmtA_fld 1 3 (by decide)).trans h3, fmtA_d, fmtA_a, fmtA_c]
  rfl

theorem Encoding.gscan (k : Ctl) (w : Bool) (sg : Bool) (mk : Bool) (gop : BitVec 3) (ex : Bool) (d : Reg) (a : Reg) (c : Reg) :
    Encoding.Statement (.gscan k w sg mk gop ex d a c) := by
  intro hw _
  obtain ⟨hmask, h0, h1, h2, h3, h4⟩ := fn16 w sg mk gop ex
  have ho : opOf (encode (.gscan k w sg mk gop ex d a c)) = 0x27 := fmtA_op _ _ _ _ _ _ _ _
  have hc : clsOf (opOf (encode (.gscan k w sg mk gop ex d a c))).toNat = some .int := by rw [ho]; rfl
  refine decode_of _ _ .int hc ?_ hw
  rw [raw_int _ hc]
  unfold decodeInt
  rw [ho]
  refine ifZero_of _ _ _ _ (fmtA_mask _ _ _ _ _ _ _ _ _ (by decide) (by decide) (by simp) (by decide) (by simp) (by simp) hmask) ?_
  unfold encode
  rw [fmtA_ctl, (fmtA_bit 7 (by decide)).trans h0, (fmtA_bit 6 (by decide)).trans h1, (fmtA_bit 4 (by decide)).trans h2, (fmtA_fld 1 3 (by decide)).trans h3, (fmtA_bit 0 (by decide)).trans h4, fmtA_d, fmtA_a, fmtA_c]
  rfl

theorem Encoding.bra (k : Ctl) (tgt : BitVec 32) :
    Encoding.Statement (.bra k tgt) := by
  intro hw _
  have hmask := fn1
  have ho : opOf (encode (.bra k tgt)) = 0x28 := fmtL_op _ _ _ _ _
  have hc : clsOf (opOf (encode (.bra k tgt))).toNat = some .int := by rw [ho]; rfl
  refine decode_of _ _ .int hc ?_ hw
  rw [raw_int _ hc]
  unfold decodeInt
  rw [ho]
  refine ifZero_of _ _ _ _ (fmtL_mask _ _ _ _ _ _ (by decide) (by simp) (by decide) hmask) ?_
  unfold encode
  rw [fmtL_ctl, fmtL_i]
  rfl

theorem Encoding.brx (k : Ctl) (a : Reg) :
    Encoding.Statement (.brx k a) := by
  intro hw _
  have hmask := fn1
  have ho : opOf (encode (.brx k a)) = 0x29 := fmtA_op _ _ _ _ _ _ _ _
  have hc : clsOf (opOf (encode (.brx k a))).toNat = some .int := by rw [ho]; rfl
  refine decode_of _ _ .int hc ?_ hw
  rw [raw_int _ hc]
  unfold decodeInt
  rw [ho]
  refine ifZero_of _ _ _ _ (fmtA_mask _ _ _ _ _ _ _ _ _ (by decide) (by decide) (by decide) (by decide) (by simp) (by decide) hmask) ?_
  unfold encode
  rw [fmtA_ctl, fmtA_a]
  rfl

theorem Encoding.call (k : Ctl) (d : Reg) (tgt : BitVec 32) :
    Encoding.Statement (.call k d tgt) := by
  intro hw _
  have hmask := fn1
  have ho : opOf (encode (.call k d tgt)) = 0x2A := fmtL_op _ _ _ _ _
  have hc : clsOf (opOf (encode (.call k d tgt))).toNat = some .int := by rw [ho]; rfl
  refine decode_of _ _ .int hc ?_ hw
  rw [raw_int _ hc]
  unfold decodeInt
  rw [ho]
  refine ifZero_of _ _ _ _ (fmtL_mask _ _ _ _ _ _ (by decide) (by simp) (by simp) hmask) ?_
  unfold encode
  rw [fmtL_ctl, fmtL_d, fmtL_i]
  rfl

theorem Encoding.ret (k : Ctl) (a : Reg) :
    Encoding.Statement (.ret k a) := by
  intro hw _
  have hmask := fn1
  have ho : opOf (encode (.ret k a)) = 0x2B := fmtA_op _ _ _ _ _ _ _ _
  have hc : clsOf (opOf (encode (.ret k a))).toNat = some .int := by rw [ho]; rfl
  refine decode_of _ _ .int hc ?_ hw
  rw [raw_int _ hc]
  unfold decodeInt
  rw [ho]
  refine ifZero_of _ _ _ _ (fmtA_mask _ _ _ _ _ _ _ _ _ (by decide) (by decide) (by decide) (by decide) (by simp) (by decide) hmask) ?_
  unfold encode
  rw [fmtA_ctl, fmtA_a]
  rfl

theorem Encoding.rjarm (k : Ctl) (a : Reg) (x : BitVec 8) :
    Encoding.Statement (.rjarm k a x) := by
  intro hw _
  have hmask := fn1
  have ho : opOf (encode (.rjarm k a x)) = 0x2C := fmtA_op _ _ _ _ _ _ _ _
  have hc : clsOf (opOf (encode (.rjarm k a x))).toNat = some .int := by rw [ho]; rfl
  refine decode_of _ _ .int hc ?_ hw
  rw [raw_int _ hc]
  unfold decodeInt
  rw [ho]
  refine ifZero_of _ _ _ _ (fmtA_mask _ _ _ _ _ _ _ _ _ (by decide) (by simp) (by decide) (by decide) (by simp) (by decide) hmask) ?_
  unfold encode
  rw [fmtA_ctl, fmtA_a, fmtA_x]
  rfl

theorem Encoding.rjoin (k : Ctl) (x : BitVec 8) :
    Encoding.Statement (.rjoin k x) := by
  intro hw _
  have hmask := fn1
  have ho : opOf (encode (.rjoin k x)) = 0x2D := fmtA_op _ _ _ _ _ _ _ _
  have hc : clsOf (opOf (encode (.rjoin k x))).toNat = some .int := by rw [ho]; rfl
  refine decode_of _ _ .int hc ?_ hw
  rw [raw_int _ hc]
  unfold decodeInt
  rw [ho]
  refine ifZero_of _ _ _ _ (fmtA_mask _ _ _ _ _ _ _ _ _ (by decide) (by simp) (by decide) (by decide) (by decide) (by decide) hmask) ?_
  unfold encode
  rw [fmtA_ctl, fmtA_x]
  rfl

theorem Encoding.rjdrop (k : Ctl) (x : BitVec 8) :
    Encoding.Statement (.rjdrop k x) := by
  intro hw _
  have hmask := fn1
  have ho : opOf (encode (.rjdrop k x)) = 0x2E := fmtA_op _ _ _ _ _ _ _ _
  have hc : clsOf (opOf (encode (.rjdrop k x))).toNat = some .int := by rw [ho]; rfl
  refine decode_of _ _ .int hc ?_ hw
  rw [raw_int _ hc]
  unfold decodeInt
  rw [ho]
  refine ifZero_of _ _ _ _ (fmtA_mask _ _ _ _ _ _ _ _ _ (by decide) (by simp) (by decide) (by decide) (by decide) (by decide) hmask) ?_
  unfold encode
  rw [fmtA_ctl, fmtA_x]
  rfl

theorem Encoding.exit (k : Ctl) :
    Encoding.Statement (.exit k) := by
  intro hw _
  have hmask := fn1
  have ho : opOf (encode (.exit k)) = 0x2F := fmtA_op _ _ _ _ _ _ _ _
  have hc : clsOf (opOf (encode (.exit k))).toNat = some .int := by rw [ho]; rfl
  refine decode_of _ _ .int hc ?_ hw
  rw [raw_int _ hc]
  unfold decodeInt
  rw [ho]
  refine ifZero_of _ _ _ _ (fmtA_mask _ _ _ _ _ _ _ _ _ (by decide) (by decide) (by decide) (by decide) (by decide) (by decide) hmask) ?_
  unfold encode
  rw [fmtA_ctl]
  rfl

theorem Encoding.trap (k : Ctl) (i : BitVec 24) :
    Encoding.Statement (.trap k i) := by
  intro hw _
  have hmask := fn1
  have ho : opOf (encode (.trap k i)) = 0x30 := fmtI_op _ _ _ _ _ _
  have hc : clsOf (opOf (encode (.trap k i))).toNat = some .int := by rw [ho]; rfl
  refine decode_of _ _ .int hc ?_ hw
  rw [raw_int _ hc]
  unfold decodeInt
  rw [ho]
  refine ifZero_of _ _ _ _ (fmtI_mask _ _ _ _ _ _ _ (by decide) (by simp) (by decide) (by decide) hmask) ?_
  unfold encode
  rw [fmtI_ctl, fmtI_i]
  rfl

theorem Encoding.gets (k : Ctl) (d : Reg) (i : BitVec 24) :
    Encoding.Statement (.gets k d i) := by
  intro hw _
  have hmask := fn1
  have ho : opOf (encode (.gets k d i)) = 0x31 := fmtI_op _ _ _ _ _ _
  have hc : clsOf (opOf (encode (.gets k d i))).toNat = some .int := by rw [ho]; rfl
  refine decode_of _ _ .int hc ?_ hw
  rw [raw_int _ hc]
  unfold decodeInt
  rw [ho]
  refine ifZero_of _ _ _ _ (fmtI_mask _ _ _ _ _ _ _ (by decide) (by simp) (by decide) (by simp) hmask) ?_
  unfold encode
  rw [fmtI_ctl, fmtI_d, fmtI_i]
  rfl

theorem Encoding.sets (k : Ctl) (a : Reg) (i : BitVec 24) :
    Encoding.Statement (.sets k a i) := by
  intro hw _
  have hmask := fn1
  have ho : opOf (encode (.sets k a i)) = 0x32 := fmtI_op _ _ _ _ _ _
  have hc : clsOf (opOf (encode (.sets k a i))).toNat = some .int := by rw [ho]; rfl
  refine decode_of _ _ .int hc ?_ hw
  rw [raw_int _ hc]
  unfold decodeInt
  rw [ho]
  refine ifZero_of _ _ _ _ (fmtI_mask _ _ _ _ _ _ _ (by decide) (by simp) (by simp) (by decide) hmask) ?_
  unfold encode
  rw [fmtI_ctl, fmtI_a, fmtI_i]
  rfl

theorem Encoding.rclaim (k : Ctl) (i : BitVec 24) :
    Encoding.Statement (.rclaim k i) := by
  intro hw _
  have hmask := fn1
  have ho : opOf (encode (.rclaim k i)) = 0x33 := fmtI_op _ _ _ _ _ _
  have hc : clsOf (opOf (encode (.rclaim k i))).toNat = some .int := by rw [ho]; rfl
  refine decode_of _ _ .int hc ?_ hw
  rw [raw_int _ hc]
  unfold decodeInt
  rw [ho]
  refine ifZero_of _ _ _ _ (fmtI_mask _ _ _ _ _ _ _ (by decide) (by simp) (by decide) (by decide) hmask) ?_
  unfold encode
  rw [fmtI_ctl, fmtI_i]
  rfl

theorem Encoding.rgive (k : Ctl) (i : BitVec 24) :
    Encoding.Statement (.rgive k i) := by
  intro hw _
  have hmask := fn1
  have ho : opOf (encode (.rgive k i)) = 0x34 := fmtI_op _ _ _ _ _ _
  have hc : clsOf (opOf (encode (.rgive k i))).toNat = some .int := by rw [ho]; rfl
  refine decode_of _ _ .int hc ?_ hw
  rw [raw_int _ hc]
  unfold decodeInt
  rw [ho]
  refine ifZero_of _ _ _ _ (fmtI_mask _ _ _ _ _ _ _ (by decide) (by simp) (by decide) (by decide) hmask) ?_
  unfold encode
  rw [fmtI_ctl, fmtI_i]
  rfl

theorem Encoding.rtry (k : Ctl) (d : Reg) (i : BitVec 24) :
    Encoding.Statement (.rtry k d i) := by
  intro hw _
  have hmask := fn1
  have ho : opOf (encode (.rtry k d i)) = 0x35 := fmtI_op _ _ _ _ _ _
  have hc : clsOf (opOf (encode (.rtry k d i))).toNat = some .int := by rw [ho]; rfl
  refine decode_of _ _ .int hc ?_ hw
  rw [raw_int _ hc]
  unfold decodeInt
  rw [ho]
  refine ifZero_of _ _ _ _ (fmtI_mask _ _ _ _ _ _ _ (by decide) (by simp) (by decide) (by simp) hmask) ?_
  unfold encode
  rw [fmtI_ctl, fmtI_d, fmtI_i]
  rfl

theorem Encoding.yield (k : Ctl) :
    Encoding.Statement (.yield k) := by
  intro hw _
  have hmask := fn1
  have ho : opOf (encode (.yield k)) = 0x36 := fmtA_op _ _ _ _ _ _ _ _
  have hc : clsOf (opOf (encode (.yield k))).toNat = some .int := by rw [ho]; rfl
  refine decode_of _ _ .int hc ?_ hw
  rw [raw_int _ hc]
  unfold decodeInt
  rw [ho]
  refine ifZero_of _ _ _ _ (fmtA_mask _ _ _ _ _ _ _ _ _ (by decide) (by decide) (by decide) (by decide) (by decide) (by decide) hmask) ?_
  unfold encode
  rw [fmtA_ctl]
  rfl

theorem Encoding.nap (k : Ctl) (i : BitVec 24) :
    Encoding.Statement (.nap k i) := by
  intro hw _
  have hmask := fn1
  have ho : opOf (encode (.nap k i)) = 0x37 := fmtI_op _ _ _ _ _ _
  have hc : clsOf (opOf (encode (.nap k i))).toNat = some .int := by rw [ho]; rfl
  refine decode_of _ _ .int hc ?_ hw
  rw [raw_int _ hc]
  unfold decodeInt
  rw [ho]
  refine ifZero_of _ _ _ _ (fmtI_mask _ _ _ _ _ _ _ (by decide) (by simp) (by decide) (by decide) hmask) ?_
  unfold encode
  rw [fmtI_ctl, fmtI_i]
  rfl

theorem Encoding.prog (k : Ctl) (i : BitVec 24) :
    Encoding.Statement (.prog k i) := by
  intro hw _
  have hmask := fn1
  have ho : opOf (encode (.prog k i)) = 0x38 := fmtI_op _ _ _ _ _ _
  have hc : clsOf (opOf (encode (.prog k i))).toNat = some .int := by rw [ho]; rfl
  refine decode_of _ _ .int hc ?_ hw
  rw [raw_int _ hc]
  unfold decodeInt
  rw [ho]
  refine ifZero_of _ _ _ _ (fmtI_mask _ _ _ _ _ _ _ (by decide) (by simp) (by decide) (by decide) hmask) ?_
  unfold encode
  rw [fmtI_ctl, fmtI_i]
  rfl

theorem Encoding.brk (k : Ctl) (i : BitVec 24) :
    Encoding.Statement (.brk k i) := by
  intro hw _
  have hmask := fn1
  have ho : opOf (encode (.brk k i)) = 0x39 := fmtI_op _ _ _ _ _ _
  have hc : clsOf (opOf (encode (.brk k i))).toNat = some .int := by rw [ho]; rfl
  refine decode_of _ _ .int hc ?_ hw
  rw [raw_int _ hc]
  unfold decodeInt
  rw [ho]
  refine ifZero_of _ _ _ _ (fmtI_mask _ _ _ _ _ _ _ (by decide) (by simp) (by decide) (by decide) hmask) ?_
  unfold encode
  rw [fmtI_ctl, fmtI_i]
  rfl

theorem Encoding.trcmark (k : Ctl) (a : Reg) (i : BitVec 24) :
    Encoding.Statement (.trcmark k a i) := by
  intro hw _
  have hmask := fn1
  have ho : opOf (encode (.trcmark k a i)) = 0x3A := fmtI_op _ _ _ _ _ _
  have hc : clsOf (opOf (encode (.trcmark k a i))).toNat = some .int := by rw [ho]; rfl
  refine decode_of _ _ .int hc ?_ hw
  rw [raw_int _ hc]
  unfold decodeInt
  rw [ho]
  refine ifZero_of _ _ _ _ (fmtI_mask _ _ _ _ _ _ _ (by decide) (by simp) (by simp) (by decide) hmask) ?_
  unfold encode
  rw [fmtI_ctl, fmtI_a, fmtI_i]
  rfl

theorem Encoding.vget (k : Ctl) (d : Reg) (a : Reg) (b : Reg) :
    Encoding.Statement (.vget k d a b) := by
  intro hw _
  have hmask := fn1
  have ho : opOf (encode (.vget k d a b)) = 0x3B := fmtA_op _ _ _ _ _ _ _ _
  have hc : clsOf (opOf (encode (.vget k d a b))).toNat = some .int := by rw [ho]; rfl
  refine decode_of _ _ .int hc ?_ hw
  rw [raw_int _ hc]
  unfold decodeInt
  rw [ho]
  refine ifZero_of _ _ _ _ (fmtA_mask _ _ _ _ _ _ _ _ _ (by decide) (by decide) (by decide) (by simp) (by simp) (by simp) hmask) ?_
  unfold encode
  rw [fmtA_ctl, fmtA_d, fmtA_a, fmtA_b]
  rfl

theorem Encoding.vput (k : Ctl) (d : Reg) (a : Reg) (b : Reg) :
    Encoding.Statement (.vput k d a b) := by
  intro hw _
  have hmask := fn1
  have ho : opOf (encode (.vput k d a b)) = 0x3C := fmtA_op _ _ _ _ _ _ _ _
  have hc : clsOf (opOf (encode (.vput k d a b))).toNat = some .int := by rw [ho]; rfl
  refine decode_of _ _ .int hc ?_ hw
  rw [raw_int _ hc]
  unfold decodeInt
  rw [ho]
  refine ifZero_of _ _ _ _ (fmtA_mask _ _ _ _ _ _ _ _ _ (by decide) (by decide) (by decide) (by simp) (by simp) (by simp) hmask) ?_
  unfold encode
  rw [fmtA_ctl, fmtA_d, fmtA_a, fmtA_b]
  rfl

theorem Encoding.fadd (k : Ctl) (rm : BitVec 2) (na : Bool) (nc : Bool) (d : Reg) (a : Reg) (b : Reg) :
    Encoding.Statement (.fadd k rm na nc d a b) := by
  intro hw _
  obtain ⟨hmask, h0, h1, h2⟩ := fn17 rm na nc
  have ho : opOf (encode (.fadd k rm na nc d a b)) = 0x40 := fmtA_op _ _ _ _ _ _ _ _
  have hc : clsOf (opOf (encode (.fadd k rm na nc d a b))).toNat = some .vec := by rw [ho]; rfl
  refine decode_of _ _ .vec hc ?_ hw
  rw [raw_vec _ hc]
  unfold decodeVec
  rw [ho]
  refine ifZero_of _ _ _ _ (fmtA_mask _ _ _ _ _ _ _ _ _ (by decide) (by decide) (by decide) (by simp) (by simp) (by simp) hmask) ?_
  unfold encode
  rw [fmtA_ctl, (fmtA_fld 6 2 (by decide)).trans h0, (fmtA_bit 5 (by decide)).trans h1, (fmtA_bit 4 (by decide)).trans h2, fmtA_d, fmtA_a, fmtA_b]
  rfl

theorem Encoding.fmul (k : Ctl) (rm : BitVec 2) (na : Bool) (d : Reg) (a : Reg) (b : Reg) :
    Encoding.Statement (.fmul k rm na d a b) := by
  intro hw _
  obtain ⟨hmask, h0, h1⟩ := fn18 rm na
  have ho : opOf (encode (.fmul k rm na d a b)) = 0x41 := fmtA_op _ _ _ _ _ _ _ _
  have hc : clsOf (opOf (encode (.fmul k rm na d a b))).toNat = some .vec := by rw [ho]; rfl
  refine decode_of _ _ .vec hc ?_ hw
  rw [raw_vec _ hc]
  unfold decodeVec
  rw [ho]
  refine ifZero_of _ _ _ _ (fmtA_mask _ _ _ _ _ _ _ _ _ (by decide) (by decide) (by decide) (by simp) (by simp) (by simp) hmask) ?_
  unfold encode
  rw [fmtA_ctl, (fmtA_fld 6 2 (by decide)).trans h0, (fmtA_bit 5 (by decide)).trans h1, fmtA_d, fmtA_a, fmtA_b]
  rfl

theorem Encoding.ffma (k : Ctl) (rm : BitVec 2) (na : Bool) (nc : Bool) (d : Reg) (a : Reg) (b : Reg) (c : Reg) :
    Encoding.Statement (.ffma k rm na nc d a b c) := by
  intro hw _
  obtain ⟨hmask, h0, h1, h2⟩ := fn17 rm na nc
  have ho : opOf (encode (.ffma k rm na nc d a b c)) = 0x42 := fmtA_op _ _ _ _ _ _ _ _
  have hc : clsOf (opOf (encode (.ffma k rm na nc d a b c))).toNat = some .vec := by rw [ho]; rfl
  refine decode_of _ _ .vec hc ?_ hw
  rw [raw_vec _ hc]
  unfold decodeVec
  rw [ho]
  refine ifZero_of _ _ _ _ (fmtA_mask _ _ _ _ _ _ _ _ _ (by decide) (by decide) (by simp) (by simp) (by simp) (by simp) hmask) ?_
  unfold encode
  rw [fmtA_ctl, (fmtA_fld 6 2 (by decide)).trans h0, (fmtA_bit 5 (by decide)).trans h1, (fmtA_bit 4 (by decide)).trans h2, fmtA_d, fmtA_a, fmtA_b, fmtA_c]
  rfl

theorem Encoding.fmin (k : Ctl) (d : Reg) (a : Reg) (b : Reg) :
    Encoding.Statement (.fmin k d a b) := by
  intro hw _
  have hmask := fn1
  have ho : opOf (encode (.fmin k d a b)) = 0x43 := fmtA_op _ _ _ _ _ _ _ _
  have hc : clsOf (opOf (encode (.fmin k d a b))).toNat = some .vec := by rw [ho]; rfl
  refine decode_of _ _ .vec hc ?_ hw
  rw [raw_vec _ hc]
  unfold decodeVec
  rw [ho]
  refine ifZero_of _ _ _ _ (fmtA_mask _ _ _ _ _ _ _ _ _ (by decide) (by decide) (by decide) (by simp) (by simp) (by simp) hmask) ?_
  unfold encode
  rw [fmtA_ctl, fmtA_d, fmtA_a, fmtA_b]
  rfl

theorem Encoding.fmax (k : Ctl) (d : Reg) (a : Reg) (b : Reg) :
    Encoding.Statement (.fmax k d a b) := by
  intro hw _
  have hmask := fn1
  have ho : opOf (encode (.fmax k d a b)) = 0x44 := fmtA_op _ _ _ _ _ _ _ _
  have hc : clsOf (opOf (encode (.fmax k d a b))).toNat = some .vec := by rw [ho]; rfl
  refine decode_of _ _ .vec hc ?_ hw
  rw [raw_vec _ hc]
  unfold decodeVec
  rw [ho]
  refine ifZero_of _ _ _ _ (fmtA_mask _ _ _ _ _ _ _ _ _ (by decide) (by decide) (by decide) (by simp) (by simp) (by simp) hmask) ?_
  unfold encode
  rw [fmtA_ctl, fmtA_d, fmtA_a, fmtA_b]
  rfl

theorem Encoding.fcmp (k : Ctl) (cb : BitVec 2) (cc : BitVec 3) (d : Reg) (a : Reg) (b : Reg) :
    Encoding.Statement (.fcmp k cb cc d a b) := by
  intro hw _
  obtain ⟨hmask, h0, h1⟩ := fn19 cb cc
  have ho : opOf (encode (.fcmp k cb cc d a b)) = 0x45 := fmtA_op _ _ _ _ _ _ _ _
  have hc : clsOf (opOf (encode (.fcmp k cb cc d a b))).toNat = some .vec := by rw [ho]; rfl
  refine decode_of _ _ .vec hc ?_ hw
  rw [raw_vec _ hc]
  unfold decodeVec
  rw [ho]
  refine ifZero_of _ _ _ _ (fmtA_mask _ _ _ _ _ _ _ _ _ (by decide) (by decide) (by decide) (by simp) (by simp) (by simp) hmask) ?_
  unfold encode
  rw [fmtA_ctl, (fmtA_fld 4 2 (by decide)).trans h0, (fmtA_fld 1 3 (by decide)).trans h1, fmtA_d, fmtA_a, fmtA_b]
  rfl

theorem Encoding.fdiv (k : Ctl) (rm : BitVec 2) (d : Reg) (a : Reg) (b : Reg) :
    Encoding.Statement (.fdiv k rm d a b) := by
  intro hw _
  obtain ⟨hmask, h0⟩ := fn20 rm
  have ho : opOf (encode (.fdiv k rm d a b)) = 0x46 := fmtA_op _ _ _ _ _ _ _ _
  have hc : clsOf (opOf (encode (.fdiv k rm d a b))).toNat = some .vec := by rw [ho]; rfl
  refine decode_of _ _ .vec hc ?_ hw
  rw [raw_vec _ hc]
  unfold decodeVec
  rw [ho]
  refine ifZero_of _ _ _ _ (fmtA_mask _ _ _ _ _ _ _ _ _ (by decide) (by decide) (by decide) (by simp) (by simp) (by simp) hmask) ?_
  unfold encode
  rw [fmtA_ctl, (fmtA_fld 6 2 (by decide)).trans h0, fmtA_d, fmtA_a, fmtA_b]
  rfl

theorem Encoding.frcp (k : Ctl) (rm : BitVec 2) (d : Reg) (a : Reg) :
    Encoding.Statement (.frcp k rm d a) := by
  intro hw _
  obtain ⟨hmask, h0⟩ := fn20 rm
  have ho : opOf (encode (.frcp k rm d a)) = 0x47 := fmtA_op _ _ _ _ _ _ _ _
  have hc : clsOf (opOf (encode (.frcp k rm d a))).toNat = some .vec := by rw [ho]; rfl
  refine decode_of _ _ .vec hc ?_ hw
  rw [raw_vec _ hc]
  unfold decodeVec
  rw [ho]
  refine ifZero_of _ _ _ _ (fmtA_mask _ _ _ _ _ _ _ _ _ (by decide) (by decide) (by decide) (by decide) (by simp) (by simp) hmask) ?_
  unfold encode
  rw [fmtA_ctl, (fmtA_fld 6 2 (by decide)).trans h0, fmtA_d, fmtA_a]
  rfl

theorem Encoding.frsq (k : Ctl) (rm : BitVec 2) (d : Reg) (a : Reg) :
    Encoding.Statement (.frsq k rm d a) := by
  intro hw _
  obtain ⟨hmask, h0⟩ := fn20 rm
  have ho : opOf (encode (.frsq k rm d a)) = 0x48 := fmtA_op _ _ _ _ _ _ _ _
  have hc : clsOf (opOf (encode (.frsq k rm d a))).toNat = some .vec := by rw [ho]; rfl
  refine decode_of _ _ .vec hc ?_ hw
  rw [raw_vec _ hc]
  unfold decodeVec
  rw [ho]
  refine ifZero_of _ _ _ _ (fmtA_mask _ _ _ _ _ _ _ _ _ (by decide) (by decide) (by decide) (by decide) (by simp) (by simp) hmask) ?_
  unfold encode
  rw [fmtA_ctl, (fmtA_fld 6 2 (by decide)).trans h0, fmtA_d, fmtA_a]
  rfl

theorem Encoding.fsqrt (k : Ctl) (rm : BitVec 2) (d : Reg) (a : Reg) :
    Encoding.Statement (.fsqrt k rm d a) := by
  intro hw _
  obtain ⟨hmask, h0⟩ := fn20 rm
  have ho : opOf (encode (.fsqrt k rm d a)) = 0x49 := fmtA_op _ _ _ _ _ _ _ _
  have hc : clsOf (opOf (encode (.fsqrt k rm d a))).toNat = some .vec := by rw [ho]; rfl
  refine decode_of _ _ .vec hc ?_ hw
  rw [raw_vec _ hc]
  unfold decodeVec
  rw [ho]
  refine ifZero_of _ _ _ _ (fmtA_mask _ _ _ _ _ _ _ _ _ (by decide) (by decide) (by decide) (by decide) (by simp) (by simp) hmask) ?_
  unfold encode
  rw [fmtA_ctl, (fmtA_fld 6 2 (by decide)).trans h0, fmtA_d, fmtA_a]
  rfl

theorem Encoding.fexp2 (k : Ctl) (rm : BitVec 2) (d : Reg) (a : Reg) :
    Encoding.Statement (.fexp2 k rm d a) := by
  intro hw _
  obtain ⟨hmask, h0⟩ := fn20 rm
  have ho : opOf (encode (.fexp2 k rm d a)) = 0x4A := fmtA_op _ _ _ _ _ _ _ _
  have hc : clsOf (opOf (encode (.fexp2 k rm d a))).toNat = some .vec := by rw [ho]; rfl
  refine decode_of _ _ .vec hc ?_ hw
  rw [raw_vec _ hc]
  unfold decodeVec
  rw [ho]
  refine ifZero_of _ _ _ _ (fmtA_mask _ _ _ _ _ _ _ _ _ (by decide) (by decide) (by decide) (by decide) (by simp) (by simp) hmask) ?_
  unfold encode
  rw [fmtA_ctl, (fmtA_fld 6 2 (by decide)).trans h0, fmtA_d, fmtA_a]
  rfl

theorem Encoding.flog2 (k : Ctl) (rm : BitVec 2) (d : Reg) (a : Reg) :
    Encoding.Statement (.flog2 k rm d a) := by
  intro hw _
  obtain ⟨hmask, h0⟩ := fn20 rm
  have ho : opOf (encode (.flog2 k rm d a)) = 0x4B := fmtA_op _ _ _ _ _ _ _ _
  have hc : clsOf (opOf (encode (.flog2 k rm d a))).toNat = some .vec := by rw [ho]; rfl
  refine decode_of _ _ .vec hc ?_ hw
  rw [raw_vec _ hc]
  unfold decodeVec
  rw [ho]
  refine ifZero_of _ _ _ _ (fmtA_mask _ _ _ _ _ _ _ _ _ (by decide) (by decide) (by decide) (by decide) (by simp) (by simp) hmask) ?_
  unfold encode
  rw [fmtA_ctl, (fmtA_fld 6 2 (by decide)).trans h0, fmtA_d, fmtA_a]
  rfl

theorem Encoding.fsinpi (k : Ctl) (rm : BitVec 2) (d : Reg) (a : Reg) :
    Encoding.Statement (.fsinpi k rm d a) := by
  intro hw _
  obtain ⟨hmask, h0⟩ := fn20 rm
  have ho : opOf (encode (.fsinpi k rm d a)) = 0x4C := fmtA_op _ _ _ _ _ _ _ _
  have hc : clsOf (opOf (encode (.fsinpi k rm d a))).toNat = some .vec := by rw [ho]; rfl
  refine decode_of _ _ .vec hc ?_ hw
  rw [raw_vec _ hc]
  unfold decodeVec
  rw [ho]
  refine ifZero_of _ _ _ _ (fmtA_mask _ _ _ _ _ _ _ _ _ (by decide) (by decide) (by decide) (by decide) (by simp) (by simp) hmask) ?_
  unfold encode
  rw [fmtA_ctl, (fmtA_fld 6 2 (by decide)).trans h0, fmtA_d, fmtA_a]
  rfl

theorem Encoding.fcospi (k : Ctl) (rm : BitVec 2) (d : Reg) (a : Reg) :
    Encoding.Statement (.fcospi k rm d a) := by
  intro hw _
  obtain ⟨hmask, h0⟩ := fn20 rm
  have ho : opOf (encode (.fcospi k rm d a)) = 0x4D := fmtA_op _ _ _ _ _ _ _ _
  have hc : clsOf (opOf (encode (.fcospi k rm d a))).toNat = some .vec := by rw [ho]; rfl
  refine decode_of _ _ .vec hc ?_ hw
  rw [raw_vec _ hc]
  unfold decodeVec
  rw [ho]
  refine ifZero_of _ _ _ _ (fmtA_mask _ _ _ _ _ _ _ _ _ (by decide) (by decide) (by decide) (by decide) (by simp) (by simp) hmask) ?_
  unfold encode
  rw [fmtA_ctl, (fmtA_fld 6 2 (by decide)).trans h0, fmtA_d, fmtA_a]
  rfl

theorem Encoding.frnd (k : Ctl) (rm : BitVec 2) (d : Reg) (a : Reg) :
    Encoding.Statement (.frnd k rm d a) := by
  intro hw _
  obtain ⟨hmask, h0⟩ := fn20 rm
  have ho : opOf (encode (.frnd k rm d a)) = 0x4E := fmtA_op _ _ _ _ _ _ _ _
  have hc : clsOf (opOf (encode (.frnd k rm d a))).toNat = some .vec := by rw [ho]; rfl
  refine decode_of _ _ .vec hc ?_ hw
  rw [raw_vec _ hc]
  unfold decodeVec
  rw [ho]
  refine ifZero_of _ _ _ _ (fmtA_mask _ _ _ _ _ _ _ _ _ (by decide) (by decide) (by decide) (by decide) (by simp) (by simp) hmask) ?_
  unfold encode
  rw [fmtA_ctl, (fmtA_fld 6 2 (by decide)).trans h0, fmtA_d, fmtA_a]
  rfl

theorem Encoding.fscale (k : Ctl) (rm : BitVec 2) (d : Reg) (a : Reg) (b : Reg) :
    Encoding.Statement (.fscale k rm d a b) := by
  intro hw _
  obtain ⟨hmask, h0⟩ := fn20 rm
  have ho : opOf (encode (.fscale k rm d a b)) = 0x4F := fmtA_op _ _ _ _ _ _ _ _
  have hc : clsOf (opOf (encode (.fscale k rm d a b))).toNat = some .vec := by rw [ho]; rfl
  refine decode_of _ _ .vec hc ?_ hw
  rw [raw_vec _ hc]
  unfold decodeVec
  rw [ho]
  refine ifZero_of _ _ _ _ (fmtA_mask _ _ _ _ _ _ _ _ _ (by decide) (by decide) (by decide) (by simp) (by simp) (by simp) hmask) ?_
  unfold encode
  rw [fmtA_ctl, (fmtA_fld 6 2 (by decide)).trans h0, fmtA_d, fmtA_a, fmtA_b]
  rfl

theorem Encoding.hadd2 (k : Ctl) (rm : BitVec 2) (hf : Bool) (d : Reg) (a : Reg) (b : Reg) :
    Encoding.Statement (.hadd2 k rm hf d a b) := by
  intro hw _
  obtain ⟨hmask, h0, h1⟩ := fn21 rm hf
  have ho : opOf (encode (.hadd2 k rm hf d a b)) = 0x50 := fmtA_op _ _ _ _ _ _ _ _
  have hc : clsOf (opOf (encode (.hadd2 k rm hf d a b))).toNat = some .vec := by rw [ho]; rfl
  refine decode_of _ _ .vec hc ?_ hw
  rw [raw_vec _ hc]
  unfold decodeVec
  rw [ho]
  refine ifZero_of _ _ _ _ (fmtA_mask _ _ _ _ _ _ _ _ _ (by decide) (by decide) (by decide) (by simp) (by simp) (by simp) hmask) ?_
  unfold encode
  rw [fmtA_ctl, (fmtA_fld 6 2 (by decide)).trans h0, (fmtA_bit 5 (by decide)).trans h1, fmtA_d, fmtA_a, fmtA_b]
  rfl

theorem Encoding.hmul2 (k : Ctl) (rm : BitVec 2) (hf : Bool) (d : Reg) (a : Reg) (b : Reg) :
    Encoding.Statement (.hmul2 k rm hf d a b) := by
  intro hw _
  obtain ⟨hmask, h0, h1⟩ := fn21 rm hf
  have ho : opOf (encode (.hmul2 k rm hf d a b)) = 0x51 := fmtA_op _ _ _ _ _ _ _ _
  have hc : clsOf (opOf (encode (.hmul2 k rm hf d a b))).toNat = some .vec := by rw [ho]; rfl
  refine decode_of _ _ .vec hc ?_ hw
  rw [raw_vec _ hc]
  unfold decodeVec
  rw [ho]
  refine ifZero_of _ _ _ _ (fmtA_mask _ _ _ _ _ _ _ _ _ (by decide) (by decide) (by decide) (by simp) (by simp) (by simp) hmask) ?_
  unfold encode
  rw [fmtA_ctl, (fmtA_fld 6 2 (by decide)).trans h0, (fmtA_bit 5 (by decide)).trans h1, fmtA_d, fmtA_a, fmtA_b]
  rfl

theorem Encoding.hfma2 (k : Ctl) (rm : BitVec 2) (hf : Bool) (d : Reg) (a : Reg) (b : Reg) (c : Reg) :
    Encoding.Statement (.hfma2 k rm hf d a b c) := by
  intro hw _
  obtain ⟨hmask, h0, h1⟩ := fn21 rm hf
  have ho : opOf (encode (.hfma2 k rm hf d a b c)) = 0x52 := fmtA_op _ _ _ _ _ _ _ _
  have hc : clsOf (opOf (encode (.hfma2 k rm hf d a b c))).toNat = some .vec := by rw [ho]; rfl
  refine decode_of _ _ .vec hc ?_ hw
  rw [raw_vec _ hc]
  unfold decodeVec
  rw [ho]
  refine ifZero_of _ _ _ _ (fmtA_mask _ _ _ _ _ _ _ _ _ (by decide) (by decide) (by simp) (by simp) (by simp) (by simp) hmask) ?_
  unfold encode
  rw [fmtA_ctl, (fmtA_fld 6 2 (by decide)).trans h0, (fmtA_bit 5 (by decide)).trans h1, fmtA_d, fmtA_a, fmtA_b, fmtA_c]
  rfl

theorem Encoding.hmax2 (k : Ctl) (hf : Bool) (mn : Bool) (d : Reg) (a : Reg) (b : Reg) :
    Encoding.Statement (.hmax2 k hf mn d a b) := by
  intro hw _
  obtain ⟨hmask, h0, h1⟩ := fn22 hf mn
  have ho : opOf (encode (.hmax2 k hf mn d a b)) = 0x53 := fmtA_op _ _ _ _ _ _ _ _
  have hc : clsOf (opOf (encode (.hmax2 k hf mn d a b))).toNat = some .vec := by rw [ho]; rfl
  refine decode_of _ _ .vec hc ?_ hw
  rw [raw_vec _ hc]
  unfold decodeVec
  rw [ho]
  refine ifZero_of _ _ _ _ (fmtA_mask _ _ _ _ _ _ _ _ _ (by decide) (by decide) (by decide) (by simp) (by simp) (by simp) hmask) ?_
  unfold encode
  rw [fmtA_ctl, (fmtA_bit 5 (by decide)).trans h0, (fmtA_bit 4 (by decide)).trans h1, fmtA_d, fmtA_a, fmtA_b]
  rfl

theorem Encoding.cvt (k : Ctl) (rm : BitVec 2) (src : BitVec 3) (dst : BitVec 3) (d : Reg) (a : Reg) (x : BitVec 8) :
    Encoding.Statement (.cvt k rm src dst d a x) := by
  intro hw _
  obtain ⟨hmask, h0, h1, h2⟩ := fn23 rm src dst
  have ho : opOf (encode (.cvt k rm src dst d a x)) = 0x54 := fmtA_op _ _ _ _ _ _ _ _
  have hc : clsOf (opOf (encode (.cvt k rm src dst d a x))).toNat = some .vec := by rw [ho]; rfl
  refine decode_of _ _ .vec hc ?_ hw
  rw [raw_vec _ hc]
  unfold decodeVec
  rw [ho]
  refine ifZero_of _ _ _ _ (fmtA_mask _ _ _ _ _ _ _ _ _ (by decide) (by simp) (by decide) (by decide) (by simp) (by simp) hmask) ?_
  unfold encode
  rw [fmtA_ctl, (fmtA_fld 6 2 (by decide)).trans h0, (fmtA_fld 3 3 (by decide)).trans h1, (fmtA_fld 0 3 (by decide)).trans h2, fmtA_d, fmtA_a, fmtA_x]
  rfl

theorem Encoding.cvtp (k : Ctl) (rm : BitVec 2) (hf : Bool) (d : Reg) (a : Reg) (b : Reg) :
    Encoding.Statement (.cvtp k rm hf d a b) := by
  intro hw _
  obtain ⟨hmask, h0, h1⟩ := fn21 rm hf
  have ho : opOf (encode (.cvtp k rm hf d a b)) = 0x55 := fmtA_op _ _ _ _ _ _ _ _
  have hc : clsOf (opOf (encode (.cvtp k rm hf d a b))).toNat = some .vec := by rw [ho]; rfl
  refine decode_of _ _ .vec hc ?_ hw
  rw [raw_vec _ hc]
  unfold decodeVec
  rw [ho]
  refine ifZero_of _ _ _ _ (fmtA_mask _ _ _ _ _ _ _ _ _ (by decide) (by decide) (by decide) (by simp) (by simp) (by simp) hmask) ?_
  unfold encode
  rw [fmtA_ctl, (fmtA_fld 6 2 (by decide)).trans h0, (fmtA_bit 5 (by decide)).trans h1, fmtA_d, fmtA_a, fmtA_b]
  rfl

theorem Encoding.cvtq (k : Ctl) (rm : BitVec 2) (fmt : BitVec 3) (sat : Bool) (sc : Bool) (d : Reg) (a : Reg) (c : Reg) (x : BitVec 8) :
    Encoding.Statement (.cvtq k rm fmt sat sc d a c x) := by
  intro hw _
  obtain ⟨hmask, h0, h1, h2, h3⟩ := fn24 rm fmt sat sc
  have ho : opOf (encode (.cvtq k rm fmt sat sc d a c x)) = 0x56 := fmtA_op _ _ _ _ _ _ _ _
  have hc : clsOf (opOf (encode (.cvtq k rm fmt sat sc d a c x))).toNat = some .vec := by rw [ho]; rfl
  refine decode_of _ _ .vec hc ?_ hw
  rw [raw_vec _ hc]
  unfold decodeVec
  rw [ho]
  refine ifZero_of _ _ _ _ (fmtA_mask _ _ _ _ _ _ _ _ _ (by decide) (by simp) (by simp) (by decide) (by simp) (by simp) hmask) ?_
  unfold encode
  rw [fmtA_ctl, (fmtA_fld 6 2 (by decide)).trans h0, (fmtA_fld 3 3 (by decide)).trans h1, (fmtA_bit 2 (by decide)).trans h2, (fmtA_bit 0 (by decide)).trans h3, fmtA_d, fmtA_a, fmtA_c, fmtA_x]
  rfl

theorem Encoding.cvto (k : Ctl) (rm : BitVec 2) (fmt : BitVec 3) (sc : Bool) (d : Reg) (a : Reg) (b : Reg) (c : Reg) (x : BitVec 8) :
    Encoding.Statement (.cvto k rm fmt sc d a b c x) := by
  intro hw _
  obtain ⟨hmask, h0, h1, h2⟩ := fn25 rm fmt sc
  have ho : opOf (encode (.cvto k rm fmt sc d a b c x)) = 0x57 := fmtA_op _ _ _ _ _ _ _ _
  have hc : clsOf (opOf (encode (.cvto k rm fmt sc d a b c x))).toNat = some .vec := by rw [ho]; rfl
  refine decode_of _ _ .vec hc ?_ hw
  rw [raw_vec _ hc]
  unfold decodeVec
  rw [ho]
  refine ifZero_of _ _ _ _ (fmtA_mask _ _ _ _ _ _ _ _ _ (by decide) (by simp) (by simp) (by simp) (by simp) (by simp) hmask) ?_
  unfold encode
  rw [fmtA_ctl, (fmtA_fld 6 2 (by decide)).trans h0, (fmtA_fld 3 3 (by decide)).trans h1, (fmtA_bit 0 (by decide)).trans h2, fmtA_d, fmtA_a, fmtA_b, fmtA_c, fmtA_x]
  rfl

theorem Encoding.cvtx (k : Ctl) (rm : BitVec 2) (fmt : BitVec 3) (sc : Bool) (d : Reg) (a : Reg) (c : Reg) (x : BitVec 8) :
    Encoding.Statement (.cvtx k rm fmt sc d a c x) := by
  intro hw _
  obtain ⟨hmask, h0, h1, h2⟩ := fn25 rm fmt sc
  have ho : opOf (encode (.cvtx k rm fmt sc d a c x)) = 0x58 := fmtA_op _ _ _ _ _ _ _ _
  have hc : clsOf (opOf (encode (.cvtx k rm fmt sc d a c x))).toNat = some .vec := by rw [ho]; rfl
  refine decode_of _ _ .vec hc ?_ hw
  rw [raw_vec _ hc]
  unfold decodeVec
  rw [ho]
  refine ifZero_of _ _ _ _ (fmtA_mask _ _ _ _ _ _ _ _ _ (by decide) (by simp) (by simp) (by decide) (by simp) (by simp) hmask) ?_
  unfold encode
  rw [fmtA_ctl, (fmtA_fld 6 2 (by decide)).trans h0, (fmtA_fld 3 3 (by decide)).trans h1, (fmtA_bit 0 (by decide)).trans h2, fmtA_d, fmtA_a, fmtA_c, fmtA_x]
  rfl

theorem Encoding.dotI8 (k : Ctl) (d : Reg) (a : Reg) (b : Reg) (c : Reg) :
    Encoding.Statement (.dotI8 k d a b c) := by
  intro hw _
  have hmask := fn1
  have ho : opOf (encode (.dotI8 k d a b c)) = 0x59 := fmtA_op _ _ _ _ _ _ _ _
  have hc : clsOf (opOf (encode (.dotI8 k d a b c))).toNat = some .vec := by rw [ho]; rfl
  refine decode_of _ _ .vec hc ?_ hw
  rw [raw_vec _ hc]
  unfold decodeVec
  rw [ho]
  refine ifZero_of _ _ _ _ (fmtA_mask _ _ _ _ _ _ _ _ _ (by decide) (by decide) (by simp) (by simp) (by simp) (by simp) hmask) ?_
  unfold encode
  rw [fmtA_ctl, fmtA_d, fmtA_a, fmtA_b, fmtA_c]
  rfl

theorem Encoding.dotZ8 (k : Ctl) (d : Reg) (a : Reg) (b : Reg) (c : Reg) :
    Encoding.Statement (.dotZ8 k d a b c) := by
  intro hw _
  have hmask := fn1
  have ho : opOf (encode (.dotZ8 k d a b c)) = 0x5A := fmtA_op _ _ _ _ _ _ _ _
  have hc : clsOf (opOf (encode (.dotZ8 k d a b c))).toNat = some .vec := by rw [ho]; rfl
  refine decode_of _ _ .vec hc ?_ hw
  rw [raw_vec _ hc]
  unfold decodeVec
  rw [ho]
  refine ifZero_of _ _ _ _ (fmtA_mask _ _ _ _ _ _ _ _ _ (by decide) (by decide) (by simp) (by simp) (by simp) (by simp) hmask) ?_
  unfold encode
  rw [fmtA_ctl, fmtA_d, fmtA_a, fmtA_b, fmtA_c]
  rfl

theorem Encoding.dotE4m3 (k : Ctl) (rm : BitVec 2) (d : Reg) (a : Reg) (b : Reg) (c : Reg) :
    Encoding.Statement (.dotE4m3 k rm d a b c) := by
  intro hw _
  obtain ⟨hmask, h0⟩ := fn20 rm
  have ho : opOf (encode (.dotE4m3 k rm d a b c)) = 0x5B := fmtA_op _ _ _ _ _ _ _ _
  have hc : clsOf (opOf (encode (.dotE4m3 k rm d a b c))).toNat = some .vec := by rw [ho]; rfl
  refine decode_of _ _ .vec hc ?_ hw
  rw [raw_vec _ hc]
  unfold decodeVec
  rw [ho]
  refine ifZero_of _ _ _ _ (fmtA_mask _ _ _ _ _ _ _ _ _ (by decide) (by decide) (by simp) (by simp) (by simp) (by simp) hmask) ?_
  unfold encode
  rw [fmtA_ctl, (fmtA_fld 6 2 (by decide)).trans h0, fmtA_d, fmtA_a, fmtA_b, fmtA_c]
  rfl

theorem Encoding.dotE5m2 (k : Ctl) (rm : BitVec 2) (d : Reg) (a : Reg) (b : Reg) (c : Reg) :
    Encoding.Statement (.dotE5m2 k rm d a b c) := by
  intro hw _
  obtain ⟨hmask, h0⟩ := fn20 rm
  have ho : opOf (encode (.dotE5m2 k rm d a b c)) = 0x5C := fmtA_op _ _ _ _ _ _ _ _
  have hc : clsOf (opOf (encode (.dotE5m2 k rm d a b c))).toNat = some .vec := by rw [ho]; rfl
  refine decode_of _ _ .vec hc ?_ hw
  rw [raw_vec _ hc]
  unfold decodeVec
  rw [ho]
  refine ifZero_of _ _ _ _ (fmtA_mask _ _ _ _ _ _ _ _ _ (by decide) (by decide) (by simp) (by simp) (by simp) (by simp) hmask) ?_
  unfold encode
  rw [fmtA_ctl, (fmtA_fld 6 2 (by decide)).trans h0, fmtA_d, fmtA_a, fmtA_b, fmtA_c]
  rfl

theorem Encoding.dotI4 (k : Ctl) (d : Reg) (a : Reg) (b : Reg) (c : Reg) :
    Encoding.Statement (.dotI4 k d a b c) := by
  intro hw _
  have hmask := fn1
  have ho : opOf (encode (.dotI4 k d a b c)) = 0x5D := fmtA_op _ _ _ _ _ _ _ _
  have hc : clsOf (opOf (encode (.dotI4 k d a b c))).toNat = some .vec := by rw [ho]; rfl
  refine decode_of _ _ .vec hc ?_ hw
  rw [raw_vec _ hc]
  unfold decodeVec
  rw [ho]
  refine ifZero_of _ _ _ _ (fmtA_mask _ _ _ _ _ _ _ _ _ (by decide) (by decide) (by simp) (by simp) (by simp) (by simp) hmask) ?_
  unfold encode
  rw [fmtA_ctl, fmtA_d, fmtA_a, fmtA_b, fmtA_c]
  rfl

theorem Encoding.dotE2m1 (k : Ctl) (rm : BitVec 2) (d : Reg) (a : Reg) (b : Reg) (c : Reg) :
    Encoding.Statement (.dotE2m1 k rm d a b c) := by
  intro hw _
  obtain ⟨hmask, h0⟩ := fn20 rm
  have ho : opOf (encode (.dotE2m1 k rm d a b c)) = 0x5E := fmtA_op _ _ _ _ _ _ _ _
  have hc : clsOf (opOf (encode (.dotE2m1 k rm d a b c))).toNat = some .vec := by rw [ho]; rfl
  refine decode_of _ _ .vec hc ?_ hw
  rw [raw_vec _ hc]
  unfold decodeVec
  rw [ho]
  refine ifZero_of _ _ _ _ (fmtA_mask _ _ _ _ _ _ _ _ _ (by decide) (by decide) (by simp) (by simp) (by simp) (by simp) hmask) ?_
  unfold encode
  rw [fmtA_ctl, (fmtA_fld 6 2 (by decide)).trans h0, fmtA_d, fmtA_a, fmtA_b, fmtA_c]
  rfl

theorem Encoding.dotsE4m3 (k : Ctl) (rm : BitVec 2) (d : Reg) (a : Reg) (b : Reg) (c : Reg) (x : BitVec 8) :
    Encoding.Statement (.dotsE4m3 k rm d a b c x) := by
  intro hw _
  obtain ⟨hmask, h0⟩ := fn20 rm
  have ho : opOf (encode (.dotsE4m3 k rm d a b c x)) = 0x5F := fmtA_op _ _ _ _ _ _ _ _
  have hc : clsOf (opOf (encode (.dotsE4m3 k rm d a b c x))).toNat = some .vec := by rw [ho]; rfl
  refine decode_of _ _ .vec hc ?_ hw
  rw [raw_vec _ hc]
  unfold decodeVec
  rw [ho]
  refine ifZero_of _ _ _ _ (fmtA_mask _ _ _ _ _ _ _ _ _ (by decide) (by simp) (by simp) (by simp) (by simp) (by simp) hmask) ?_
  unfold encode
  rw [fmtA_ctl, (fmtA_fld 6 2 (by decide)).trans h0, fmtA_d, fmtA_a, fmtA_b, fmtA_c, fmtA_x]
  rfl

theorem Encoding.dotsE5m2 (k : Ctl) (rm : BitVec 2) (d : Reg) (a : Reg) (b : Reg) (c : Reg) (x : BitVec 8) :
    Encoding.Statement (.dotsE5m2 k rm d a b c x) := by
  intro hw _
  obtain ⟨hmask, h0⟩ := fn20 rm
  have ho : opOf (encode (.dotsE5m2 k rm d a b c x)) = 0x60 := fmtA_op _ _ _ _ _ _ _ _
  have hc : clsOf (opOf (encode (.dotsE5m2 k rm d a b c x))).toNat = some .vec := by rw [ho]; rfl
  refine decode_of _ _ .vec hc ?_ hw
  rw [raw_vec _ hc]
  unfold decodeVec
  rw [ho]
  refine ifZero_of _ _ _ _ (fmtA_mask _ _ _ _ _ _ _ _ _ (by decide) (by simp) (by simp) (by simp) (by simp) (by simp) hmask) ?_
  unfold encode
  rw [fmtA_ctl, (fmtA_fld 6 2 (by decide)).trans h0, fmtA_d, fmtA_a, fmtA_b, fmtA_c, fmtA_x]
  rfl

theorem Encoding.dotsE2m1 (k : Ctl) (rm : BitVec 2) (d : Reg) (a : Reg) (b : Reg) (c : Reg) (x : BitVec 8) :
    Encoding.Statement (.dotsE2m1 k rm d a b c x) := by
  intro hw _
  obtain ⟨hmask, h0⟩ := fn20 rm
  have ho : opOf (encode (.dotsE2m1 k rm d a b c x)) = 0x61 := fmtA_op _ _ _ _ _ _ _ _
  have hc : clsOf (opOf (encode (.dotsE2m1 k rm d a b c x))).toNat = some .vec := by rw [ho]; rfl
  refine decode_of _ _ .vec hc ?_ hw
  rw [raw_vec _ hc]
  unfold decodeVec
  rw [ho]
  refine ifZero_of _ _ _ _ (fmtA_mask _ _ _ _ _ _ _ _ _ (by decide) (by simp) (by simp) (by simp) (by simp) (by simp) hmask) ?_
  unfold encode
  rw [fmtA_ctl, (fmtA_fld 6 2 (by decide)).trans h0, fmtA_d, fmtA_a, fmtA_b, fmtA_c, fmtA_x]
  rfl

theorem Encoding.dotsI8 (k : Ctl) (rm : BitVec 2) (d : Reg) (a : Reg) (b : Reg) (c : Reg) (x : BitVec 8) :
    Encoding.Statement (.dotsI8 k rm d a b c x) := by
  intro hw _
  obtain ⟨hmask, h0⟩ := fn20 rm
  have ho : opOf (encode (.dotsI8 k rm d a b c x)) = 0x62 := fmtA_op _ _ _ _ _ _ _ _
  have hc : clsOf (opOf (encode (.dotsI8 k rm d a b c x))).toNat = some .vec := by rw [ho]; rfl
  refine decode_of _ _ .vec hc ?_ hw
  rw [raw_vec _ hc]
  unfold decodeVec
  rw [ho]
  refine ifZero_of _ _ _ _ (fmtA_mask _ _ _ _ _ _ _ _ _ (by decide) (by simp) (by simp) (by simp) (by simp) (by simp) hmask) ?_
  unfold encode
  rw [fmtA_ctl, (fmtA_fld 6 2 (by decide)).trans h0, fmtA_d, fmtA_a, fmtA_b, fmtA_c, fmtA_x]
  rfl

theorem Encoding.dot2Bf16 (k : Ctl) (rm : BitVec 2) (d : Reg) (a : Reg) (b : Reg) (c : Reg) :
    Encoding.Statement (.dot2Bf16 k rm d a b c) := by
  intro hw _
  obtain ⟨hmask, h0⟩ := fn20 rm
  have ho : opOf (encode (.dot2Bf16 k rm d a b c)) = 0x63 := fmtA_op _ _ _ _ _ _ _ _
  have hc : clsOf (opOf (encode (.dot2Bf16 k rm d a b c))).toNat = some .vec := by rw [ho]; rfl
  refine decode_of _ _ .vec hc ?_ hw
  rw [raw_vec _ hc]
  unfold decodeVec
  rw [ho]
  refine ifZero_of _ _ _ _ (fmtA_mask _ _ _ _ _ _ _ _ _ (by decide) (by decide) (by simp) (by simp) (by simp) (by simp) hmask) ?_
  unfold encode
  rw [fmtA_ctl, (fmtA_fld 6 2 (by decide)).trans h0, fmtA_d, fmtA_a, fmtA_b, fmtA_c]
  rfl

theorem Encoding.dot2F16 (k : Ctl) (rm : BitVec 2) (d : Reg) (a : Reg) (b : Reg) (c : Reg) :
    Encoding.Statement (.dot2F16 k rm d a b c) := by
  intro hw _
  obtain ⟨hmask, h0⟩ := fn20 rm
  have ho : opOf (encode (.dot2F16 k rm d a b c)) = 0x64 := fmtA_op _ _ _ _ _ _ _ _
  have hc : clsOf (opOf (encode (.dot2F16 k rm d a b c))).toNat = some .vec := by rw [ho]; rfl
  refine decode_of _ _ .vec hc ?_ hw
  rw [raw_vec _ hc]
  unfold decodeVec
  rw [ho]
  refine ifZero_of _ _ _ _ (fmtA_mask _ _ _ _ _ _ _ _ _ (by decide) (by decide) (by simp) (by simp) (by simp) (by simp) hmask) ?_
  unfold encode
  rw [fmtA_ctl, (fmtA_fld 6 2 (by decide)).trans h0, fmtA_d, fmtA_a, fmtA_b, fmtA_c]
  rfl

theorem Encoding.ld (k : Ctl) (ord : BitVec 2) (scope : BitVec 3) (size : BitVec 3) (d : Reg) (a : Reg) (bq : BitVec 5) (cp : BitVec 2) (off : BitVec 17) :
    Encoding.Statement (.ld k ord scope size d a bq cp off) := by
  intro hw _
  obtain ⟨hmask, h0, h1, h2⟩ := fn26 ord scope size
  have ho : opOf (encode (.ld k ord scope size d a bq cp off)) = 0x70 := fmtM_op _ _ _ _ _ _ _ _
  have hc : clsOf (opOf (encode (.ld k ord scope size d a bq cp off))).toNat = some .mem := by rw [ho]; rfl
  refine decode_of _ _ .mem hc ?_ hw
  rw [raw_mem _ hc]
  unfold decodeMem
  rw [ho]
  refine ifZero_of _ _ _ _ (fmtM_mask _ _ _ _ _ _ _ _ _ (by decide) (by simp) (by simp) (by simp) (by simp) (by simp) hmask) ?_
  unfold encode
  rw [fmtM_ctl, (fmtM_fld 6 2 (by decide)).trans h0, (fmtM_fld 3 3 (by decide)).trans h1, (fmtM_fld 0 3 (by decide)).trans h2, fmtM_d, fmtM_a, fmtM_bq, fmtM_cp, fmtM_off]
  rfl

theorem Encoding.st (k : Ctl) (ord : BitVec 2) (scope : BitVec 3) (size : BitVec 3) (d : Reg) (a : Reg) (bq : BitVec 5) (cp : BitVec 2) (off : BitVec 17) :
    Encoding.Statement (.st k ord scope size d a bq cp off) := by
  intro hw _
  obtain ⟨hmask, h0, h1, h2⟩ := fn26 ord scope size
  have ho : opOf (encode (.st k ord scope size d a bq cp off)) = 0x71 := fmtM_op _ _ _ _ _ _ _ _
  have hc : clsOf (opOf (encode (.st k ord scope size d a bq cp off))).toNat = some .mem := by rw [ho]; rfl
  refine decode_of _ _ .mem hc ?_ hw
  rw [raw_mem _ hc]
  unfold decodeMem
  rw [ho]
  refine ifZero_of _ _ _ _ (fmtM_mask _ _ _ _ _ _ _ _ _ (by decide) (by simp) (by simp) (by simp) (by simp) (by simp) hmask) ?_
  unfold encode
  rw [fmtM_ctl, (fmtM_fld 6 2 (by decide)).trans h0, (fmtM_fld 3 3 (by decide)).trans h1, (fmtM_fld 0 3 (by decide)).trans h2, fmtM_d, fmtM_a, fmtM_bq, fmtM_cp, fmtM_off]
  rfl

theorem Encoding.atom (k : Ctl) (ord : BitVec 2) (scope : BitVec 3) (size : BitVec 3) (d : Reg) (a : Reg) (bq : BitVec 5) (aop : BitVec 4) (off : BitVec 15) :
    Encoding.Statement (.atom k ord scope size d a bq aop off) := by
  intro hw _
  obtain ⟨hmask, h0, h1, h2⟩ := fn26 ord scope size
  have ho : opOf (encode (.atom k ord scope size d a bq aop off)) = 0x72 := fmtMA_op _ _ _ _ _ _ _ _
  have hc : clsOf (opOf (encode (.atom k ord scope size d a bq aop off))).toNat = some .mem := by rw [ho]; rfl
  refine decode_of _ _ .mem hc ?_ hw
  rw [raw_mem _ hc]
  unfold decodeMem
  rw [ho]
  refine ifZero_of _ _ _ _ (fmtMA_mask _ _ _ _ _ _ _ _ _ (by decide) (by simp) (by simp) (by simp) (by simp) (by simp) hmask) ?_
  unfold encode
  rw [fmtMA_ctl, (fmtMA_fld 6 2 (by decide)).trans h0, (fmtMA_fld 3 3 (by decide)).trans h1, (fmtMA_fld 0 3 (by decide)).trans h2, fmtMA_d, fmtMA_a, fmtMA_bq, fmtMA_aop, fmtMA_off]
  rfl

theorem Encoding.atomn (k : Ctl) (ord : BitVec 2) (scope : BitVec 3) (size : BitVec 3) (d : Reg) (a : Reg) (bq : BitVec 5) (aop : BitVec 4) (off : BitVec 15) :
    Encoding.Statement (.atomn k ord scope size d a bq aop off) := by
  intro hw _
  obtain ⟨hmask, h0, h1, h2⟩ := fn26 ord scope size
  have ho : opOf (encode (.atomn k ord scope size d a bq aop off)) = 0x73 := fmtMA_op _ _ _ _ _ _ _ _
  have hc : clsOf (opOf (encode (.atomn k ord scope size d a bq aop off))).toNat = some .mem := by rw [ho]; rfl
  refine decode_of _ _ .mem hc ?_ hw
  rw [raw_mem _ hc]
  unfold decodeMem
  rw [ho]
  refine ifZero_of _ _ _ _ (fmtMA_mask _ _ _ _ _ _ _ _ _ (by decide) (by simp) (by simp) (by simp) (by simp) (by simp) hmask) ?_
  unfold encode
  rw [fmtMA_ctl, (fmtMA_fld 6 2 (by decide)).trans h0, (fmtMA_fld 3 3 (by decide)).trans h1, (fmtMA_fld 0 3 (by decide)).trans h2, fmtMA_d, fmtMA_a, fmtMA_bq, fmtMA_aop, fmtMA_off]
  rfl

theorem Encoding.cas (k : Ctl) (ord : BitVec 2) (scope : BitVec 3) (size : BitVec 3) (d : Reg) (a : Reg) (bq : BitVec 5) (cp : BitVec 2) (off : BitVec 17) :
    Encoding.Statement (.cas k ord scope size d a bq cp off) := by
  intro hw _
  obtain ⟨hmask, h0, h1, h2⟩ := fn26 ord scope size
  have ho : opOf (encode (.cas k ord scope size d a bq cp off)) = 0x74 := fmtM_op _ _ _ _ _ _ _ _
  have hc : clsOf (opOf (encode (.cas k ord scope size d a bq cp off))).toNat = some .mem := by rw [ho]; rfl
  refine decode_of _ _ .mem hc ?_ hw
  rw [raw_mem _ hc]
  unfold decodeMem
  rw [ho]
  refine ifZero_of _ _ _ _ (fmtM_mask _ _ _ _ _ _ _ _ _ (by decide) (by simp) (by simp) (by simp) (by simp) (by simp) hmask) ?_
  unfold encode
  rw [fmtM_ctl, (fmtM_fld 6 2 (by decide)).trans h0, (fmtM_fld 3 3 (by decide)).trans h1, (fmtM_fld 0 3 (by decide)).trans h2, fmtM_d, fmtM_a, fmtM_bq, fmtM_cp, fmtM_off]
  rfl

theorem Encoding.fence (k : Ctl) (ord : BitVec 2) (scope : BitVec 3) :
    Encoding.Statement (.fence k ord scope) := by
  intro hw _
  obtain ⟨hmask, h0, h1⟩ := fn27 ord scope
  have ho : opOf (encode (.fence k ord scope)) = 0x75 := fmtM_op _ _ _ _ _ _ _ _
  have hc : clsOf (opOf (encode (.fence k ord scope))).toNat = some .mem := by rw [ho]; rfl
  refine decode_of _ _ .mem hc ?_ hw
  rw [raw_mem _ hc]
  unfold decodeMem
  rw [ho]
  refine ifZero_of _ _ _ _ (fmtM_mask _ _ _ _ _ _ _ _ _ (by decide) (by decide) (by decide) (by decide) (by decide) (by decide) hmask) ?_
  unfold encode
  rw [fmtM_ctl, (fmtM_fld 6 2 (by decide)).trans h0, (fmtM_fld 3 3 (by decide)).trans h1]
  rfl

theorem Encoding.scfence (k : Ctl) (scope : BitVec 3) :
    Encoding.Statement (.scfence k scope) := by
  intro hw _
  obtain ⟨hmask, h0⟩ := fn28 scope
  have ho : opOf (encode (.scfence k scope)) = 0x76 := fmtM_op _ _ _ _ _ _ _ _
  have hc : clsOf (opOf (encode (.scfence k scope))).toNat = some .mem := by rw [ho]; rfl
  refine decode_of _ _ .mem hc ?_ hw
  rw [raw_mem _ hc]
  unfold decodeMem
  rw [ho]
  refine ifZero_of _ _ _ _ (fmtM_mask _ _ _ _ _ _ _ _ _ (by decide) (by decide) (by decide) (by decide) (by decide) (by decide) hmask) ?_
  unfold encode
  rw [fmtM_ctl, (fmtM_fld 3 3 (by decide)).trans h0]
  rfl

theorem Encoding.bset (k : Ctl) (d : Reg) (a : Reg) :
    Encoding.Statement (.bset k d a) := by
  intro hw _
  have hmask := fn1
  have ho : opOf (encode (.bset k d a)) = 0x77 := fmtA_op _ _ _ _ _ _ _ _
  have hc : clsOf (opOf (encode (.bset k d a))).toNat = some .mem := by rw [ho]; rfl
  refine decode_of _ _ .mem hc ?_ hw
  rw [raw_mem _ hc]
  unfold decodeMem
  rw [ho]
  refine ifZero_of _ _ _ _ (fmtA_mask _ _ _ _ _ _ _ _ _ (by decide) (by decide) (by decide) (by decide) (by simp) (by simp) hmask) ?_
  unfold encode
  rw [fmtA_ctl, fmtA_d, fmtA_a]
  rfl

theorem Encoding.bget (k : Ctl) (d : Reg) (a : Reg) :
    Encoding.Statement (.bget k d a) := by
  intro hw _
  have hmask := fn1
  have ho : opOf (encode (.bget k d a)) = 0x78 := fmtA_op _ _ _ _ _ _ _ _
  have hc : clsOf (opOf (encode (.bget k d a))).toNat = some .mem := by rw [ho]; rfl
  refine decode_of _ _ .mem hc ?_ hw
  rw [raw_mem _ hc]
  unfold decodeMem
  rw [ho]
  refine ifZero_of _ _ _ _ (fmtA_mask _ _ _ _ _ _ _ _ _ (by decide) (by decide) (by decide) (by decide) (by simp) (by simp) hmask) ?_
  unfold encode
  rw [fmtA_ctl, fmtA_d, fmtA_a]
  rfl

theorem Encoding.pref (k : Ctl) (size : BitVec 3) (a : Reg) (bq : BitVec 5) (cp : BitVec 2) (off : BitVec 17) :
    Encoding.Statement (.pref k size a bq cp off) := by
  intro hw _
  obtain ⟨hmask, h0⟩ := fn29 size
  have ho : opOf (encode (.pref k size a bq cp off)) = 0x79 := fmtM_op _ _ _ _ _ _ _ _
  have hc : clsOf (opOf (encode (.pref k size a bq cp off))).toNat = some .mem := by rw [ho]; rfl
  refine decode_of _ _ .mem hc ?_ hw
  rw [raw_mem _ hc]
  unfold decodeMem
  rw [ho]
  refine ifZero_of _ _ _ _ (fmtM_mask _ _ _ _ _ _ _ _ _ (by decide) (by simp) (by simp) (by simp) (by simp) (by decide) hmask) ?_
  unfold encode
  rw [fmtM_ctl, (fmtM_fld 0 3 (by decide)).trans h0, fmtM_a, fmtM_bq, fmtM_cp, fmtM_off]
  rfl

theorem Encoding.binit (k : Ctl) (g : Bool) (d : Reg) (a : Reg) (b : Reg) (c : Reg) :
    Encoding.Statement (.binit k g d a b c) := by
  intro hw _
  obtain ⟨hmask, h0⟩ := fn30 g
  have ho : opOf (encode (.binit k g d a b c)) = 0x90 := fmtA_op _ _ _ _ _ _ _ _
  have hc : clsOf (opOf (encode (.binit k g d a b c))).toNat = some .sync := by rw [ho]; rfl
  refine decode_of _ _ .sync hc ?_ hw
  rw [raw_sync _ hc]
  unfold decodeSync
  rw [ho]
  refine ifZero_of _ _ _ _ (fmtA_mask _ _ _ _ _ _ _ _ _ (by decide) (by decide) (by simp) (by simp) (by simp) (by simp) hmask) ?_
  unfold encode
  rw [fmtA_ctl, (fmtA_bit 7 (by decide)).trans h0, fmtA_d, fmtA_a, fmtA_b, fmtA_c]
  rfl

theorem Encoding.bjoin (k : Ctl) (g : Bool) (d : Reg) (a : Reg) :
    Encoding.Statement (.bjoin k g d a) := by
  intro hw _
  obtain ⟨hmask, h0⟩ := fn30 g
  have ho : opOf (encode (.bjoin k g d a)) = 0x91 := fmtA_op _ _ _ _ _ _ _ _
  have hc : clsOf (opOf (encode (.bjoin k g d a))).toNat = some .sync := by rw [ho]; rfl
  refine decode_of _ _ .sync hc ?_ hw
  rw [raw_sync _ hc]
  unfold decodeSync
  rw [ho]
  refine ifZero_of _ _ _ _ (fmtA_mask _ _ _ _ _ _ _ _ _ (by decide) (by decide) (by decide) (by decide) (by simp) (by simp) hmask) ?_
  unfold encode
  rw [fmtA_ctl, (fmtA_bit 7 (by decide)).trans h0, fmtA_d, fmtA_a]
  rfl

theorem Encoding.barr (k : Ctl) (g : Bool) (d : Reg) (a : Reg) :
    Encoding.Statement (.barr k g d a) := by
  intro hw _
  obtain ⟨hmask, h0⟩ := fn30 g
  have ho : opOf (encode (.barr k g d a)) = 0x92 := fmtA_op _ _ _ _ _ _ _ _
  have hc : clsOf (opOf (encode (.barr k g d a))).toNat = some .sync := by rw [ho]; rfl
  refine decode_of _ _ .sync hc ?_ hw
  rw [raw_sync _ hc]
  unfold decodeSync
  rw [ho]
  refine ifZero_of _ _ _ _ (fmtA_mask _ _ _ _ _ _ _ _ _ (by decide) (by decide) (by decide) (by decide) (by simp) (by simp) hmask) ?_
  unfold encode
  rw [fmtA_ctl, (fmtA_bit 7 (by decide)).trans h0, fmtA_d, fmtA_a]
  rfl

theorem Encoding.bwait (k : Ctl) (g : Bool) (d : Reg) (a : Reg) (b : Reg) :
    Encoding.Statement (.bwait k g d a b) := by
  intro hw _
  obtain ⟨hmask, h0⟩ := fn30 g
  have ho : opOf (encode (.bwait k g d a b)) = 0x93 := fmtA_op _ _ _ _ _ _ _ _
  have hc : clsOf (opOf (encode (.bwait k g d a b))).toNat = some .sync := by rw [ho]; rfl
  refine decode_of _ _ .sync hc ?_ hw
  rw [raw_sync _ hc]
  unfold decodeSync
  rw [ho]
  refine ifZero_of _ _ _ _ (fmtA_mask _ _ _ _ _ _ _ _ _ (by decide) (by decide) (by decide) (by simp) (by simp) (by simp) hmask) ?_
  unfold encode
  rw [fmtA_ctl, (fmtA_bit 7 (by decide)).trans h0, fmtA_d, fmtA_a, fmtA_b]
  rfl

theorem Encoding.barw (k : Ctl) (g : Bool) (d : Reg) (a : Reg) :
    Encoding.Statement (.barw k g d a) := by
  intro hw _
  obtain ⟨hmask, h0⟩ := fn30 g
  have ho : opOf (encode (.barw k g d a)) = 0x94 := fmtA_op _ _ _ _ _ _ _ _
  have hc : clsOf (opOf (encode (.barw k g d a))).toNat = some .sync := by rw [ho]; rfl
  refine decode_of _ _ .sync hc ?_ hw
  rw [raw_sync _ hc]
  unfold decodeSync
  rw [ho]
  refine ifZero_of _ _ _ _ (fmtA_mask _ _ _ _ _ _ _ _ _ (by decide) (by decide) (by decide) (by decide) (by simp) (by simp) hmask) ?_
  unfold encode
  rw [fmtA_ctl, (fmtA_bit 7 (by decide)).trans h0, fmtA_d, fmtA_a]
  rfl

theorem Encoding.bdrop (k : Ctl) (g : Bool) (d : Reg) (a : Reg) :
    Encoding.Statement (.bdrop k g d a) := by
  intro hw _
  obtain ⟨hmask, h0⟩ := fn30 g
  have ho : opOf (encode (.bdrop k g d a)) = 0x95 := fmtA_op _ _ _ _ _ _ _ _
  have hc : clsOf (opOf (encode (.bdrop k g d a))).toNat = some .sync := by rw [ho]; rfl
  refine decode_of _ _ .sync hc ?_ hw
  rw [raw_sync _ hc]
  unfold decodeSync
  rw [ho]
  refine ifZero_of _ _ _ _ (fmtA_mask _ _ _ _ _ _ _ _ _ (by decide) (by decide) (by decide) (by decide) (by simp) (by simp) hmask) ?_
  unfold encode
  rw [fmtA_ctl, (fmtA_bit 7 (by decide)).trans h0, fmtA_d, fmtA_a]
  rfl

theorem Encoding.binv (k : Ctl) (g : Bool) (d : Reg) (a : Reg) :
    Encoding.Statement (.binv k g d a) := by
  intro hw _
  obtain ⟨hmask, h0⟩ := fn30 g
  have ho : opOf (encode (.binv k g d a)) = 0x96 := fmtA_op _ _ _ _ _ _ _ _
  have hc : clsOf (opOf (encode (.binv k g d a))).toNat = some .sync := by rw [ho]; rfl
  refine decode_of _ _ .sync hc ?_ hw
  rw [raw_sync _ hc]
  unfold decodeSync
  rw [ho]
  refine ifZero_of _ _ _ _ (fmtA_mask _ _ _ _ _ _ _ _ _ (by decide) (by decide) (by decide) (by decide) (by simp) (by simp) hmask) ?_
  unfold encode
  rw [fmtA_ctl, (fmtA_bit 7 (by decide)).trans h0, fmtA_d, fmtA_a]
  rfl

theorem Encoding.bqry (k : Ctl) (g : Bool) (d : Reg) (a : Reg) (x : BitVec 8) :
    Encoding.Statement (.bqry k g d a x) := by
  intro hw _
  obtain ⟨hmask, h0⟩ := fn30 g
  have ho : opOf (encode (.bqry k g d a x)) = 0x97 := fmtA_op _ _ _ _ _ _ _ _
  have hc : clsOf (opOf (encode (.bqry k g d a x))).toNat = some .sync := by rw [ho]; rfl
  refine decode_of _ _ .sync hc ?_ hw
  rw [raw_sync _ hc]
  unfold decodeSync
  rw [ho]
  refine ifZero_of _ _ _ _ (fmtA_mask _ _ _ _ _ _ _ _ _ (by decide) (by simp) (by decide) (by decide) (by simp) (by simp) hmask) ?_
  unfold encode
  rw [fmtA_ctl, (fmtA_bit 7 (by decide)).trans h0, fmtA_d, fmtA_a, fmtA_x]
  rfl

theorem Encoding.rginit (k : Ctl) (d : Reg) (a : Reg) :
    Encoding.Statement (.rginit k d a) := by
  intro hw _
  have hmask := fn31
  have ho : opOf (encode (.rginit k d a)) = 0x98 := fmtA_op _ _ _ _ _ _ _ _
  have hc : clsOf (opOf (encode (.rginit k d a))).toNat = some .sync := by rw [ho]; rfl
  refine decode_of _ _ .sync hc ?_ hw
  rw [raw_sync _ hc]
  unfold decodeSync
  rw [ho]
  show (if _ then _ else _) = _
  rw [show encode (.rginit k d a) = fmtA 0x98 k (0#1 ++ 0#1 ++ 0#6) d a 0 0 0 from rfl]
  rw [fmtA_fld 6 1 (by decide)]
  rw [if_pos (by decide)]
  refine ifZero_of _ _ _ _ (fmtA_mask _ _ _ _ _ _ _ _ _ (by decide) (by decide) (by decide) (by decide) (by simp) (by simp) hmask) ?_
  rw [fmtA_ctl, fmtA_d, fmtA_a]
  rfl

theorem Encoding.rginitFree (k : Ctl) (d : Reg) (a : Reg) :
    Encoding.Statement (.rginitFree k d a) := by
  intro hw _
  have hmask := fn32
  have ho : opOf (encode (.rginitFree k d a)) = 0x98 := fmtA_op _ _ _ _ _ _ _ _
  have hc : clsOf (opOf (encode (.rginitFree k d a))).toNat = some .sync := by rw [ho]; rfl
  refine decode_of _ _ .sync hc ?_ hw
  rw [raw_sync _ hc]
  unfold decodeSync
  rw [ho]
  show (if _ then _ else _) = _
  rw [show encode (.rginitFree k d a) = fmtA 0x98 k (0#1 ++ 1#1 ++ 0#6) d a 0 0 0 from rfl]
  rw [fmtA_fld 6 1 (by decide)]
  rw [if_neg (by decide)]
  rw [if_pos (by decide)]
  refine ifZero_of _ _ _ _ (fmtA_mask _ _ _ _ _ _ _ _ _ (by decide) (by decide) (by decide) (by decide) (by simp) (by simp) hmask) ?_
  rw [fmtA_ctl, fmtA_d, fmtA_a]
  rfl

theorem Encoding.slacq (k : Ctl) (nb : Bool) (d : Reg) (a : Reg) :
    Encoding.Statement (.slacq k nb d a) := by
  intro hw _
  obtain ⟨hmask, h0⟩ := fn33 nb
  have ho : opOf (encode (.slacq k nb d a)) = 0x99 := fmtA_op _ _ _ _ _ _ _ _
  have hc : clsOf (opOf (encode (.slacq k nb d a))).toNat = some .sync := by rw [ho]; rfl
  refine decode_of _ _ .sync hc ?_ hw
  rw [raw_sync _ hc]
  unfold decodeSync
  rw [ho]
  refine ifZero_of _ _ _ _ (fmtA_mask _ _ _ _ _ _ _ _ _ (by decide) (by decide) (by decide) (by decide) (by simp) (by simp) hmask) ?_
  unfold encode
  rw [fmtA_ctl, (fmtA_bit 6 (by decide)).trans h0, fmtA_d, fmtA_a]
  rfl

theorem Encoding.slfil (k : Ctl) (a : Reg) (b : Reg) (c : Reg) :
    Encoding.Statement (.slfil k a b c) := by
  intro hw _
  have hmask := fn1
  have ho : opOf (encode (.slfil k a b c)) = 0x9A := fmtA_op _ _ _ _ _ _ _ _
  have hc : clsOf (opOf (encode (.slfil k a b c))).toNat = some .sync := by rw [ho]; rfl
  refine decode_of _ _ .sync hc ?_ hw
  rw [raw_sync _ hc]
  unfold decodeSync
  rw [ho]
  refine ifZero_of _ _ _ _ (fmtA_mask _ _ _ _ _ _ _ _ _ (by decide) (by decide) (by simp) (by simp) (by simp) (by decide) hmask) ?_
  unfold encode
  rw [fmtA_ctl, fmtA_a, fmtA_b, fmtA_c]
  rfl

theorem Encoding.sltak (k : Ctl) (nb : Bool) (d : Reg) (a : Reg) :
    Encoding.Statement (.sltak k nb d a) := by
  intro hw _
  obtain ⟨hmask, h0⟩ := fn33 nb
  have ho : opOf (encode (.sltak k nb d a)) = 0x9B := fmtA_op _ _ _ _ _ _ _ _
  have hc : clsOf (opOf (encode (.sltak k nb d a))).toNat = some .sync := by rw [ho]; rfl
  refine decode_of _ _ .sync hc ?_ hw
  rw [raw_sync _ hc]
  unfold decodeSync
  rw [ho]
  refine ifZero_of _ _ _ _ (fmtA_mask _ _ _ _ _ _ _ _ _ (by decide) (by decide) (by decide) (by decide) (by simp) (by simp) hmask) ?_
  unfold encode
  rw [fmtA_ctl, (fmtA_bit 6 (by decide)).trans h0, fmtA_d, fmtA_a]
  rfl

theorem Encoding.slrel (k : Ctl) (a : Reg) (b : Reg) :
    Encoding.Statement (.slrel k a b) := by
  intro hw _
  have hmask := fn1
  have ho : opOf (encode (.slrel k a b)) = 0x9C := fmtA_op _ _ _ _ _ _ _ _
  have hc : clsOf (opOf (encode (.slrel k a b))).toNat = some .sync := by rw [ho]; rfl
  refine decode_of _ _ .sync hc ?_ hw
  rw [raw_sync _ hc]
  unfold decodeSync
  rw [ho]
  refine ifZero_of _ _ _ _ (fmtA_mask _ _ _ _ _ _ _ _ _ (by decide) (by decide) (by decide) (by simp) (by simp) (by decide) hmask) ?_
  unfold encode
  rw [fmtA_ctl, fmtA_a, fmtA_b]
  rfl

theorem Encoding.cpy (k : Ctl) (dk : BitVec 3) (ad : BitVec 3) (bc : Bool) (d : Reg) (a : Reg) (b : Reg) (c : Reg) (x : BitVec 8) :
    Encoding.Statement (.cpy k dk ad bc d a b c x) := by
  intro hw _
  obtain ⟨hmask, h0, h1, h2⟩ := fn34 dk ad bc
  have ho : opOf (encode (.cpy k dk ad bc d a b c x)) = 0xA0 := fmtA_op _ _ _ _ _ _ _ _
  have hc : clsOf (opOf (encode (.cpy k dk ad bc d a b c x))).toNat = some .copy := by rw [ho]; rfl
  refine decode_of _ _ .copy hc ?_ hw
  rw [raw_copy _ hc]
  unfold decodeCopy
  rw [ho]
  refine ifZero_of _ _ _ _ (fmtA_mask _ _ _ _ _ _ _ _ _ (by decide) (by simp) (by simp) (by simp) (by simp) (by simp) hmask) ?_
  unfold encode
  rw [fmtA_ctl, (fmtA_fld 5 3 (by decide)).trans h0, (fmtA_fld 2 3 (by decide)).trans h1, (fmtA_bit 1 (by decide)).trans h2, fmtA_d, fmtA_a, fmtA_b, fmtA_c, fmtA_x]
  rfl

theorem Encoding.cpyg (k : Ctl) (dk : BitVec 3) (ad : BitVec 3) (bc : Bool) (d : Reg) (a : Reg) (b : Reg) (c : Reg) (x : BitVec 8) :
    Encoding.Statement (.cpyg k dk ad bc d a b c x) := by
  intro hw _
  obtain ⟨hmask, h0, h1, h2⟩ := fn34 dk ad bc
  have ho : opOf (encode (.cpyg k dk ad bc d a b c x)) = 0xA1 := fmtA_op _ _ _ _ _ _ _ _
  have hc : clsOf (opOf (encode (.cpyg k dk ad bc d a b c x))).toNat = some .copy := by rw [ho]; rfl
  refine decode_of _ _ .copy hc ?_ hw
  rw [raw_copy _ hc]
  unfold decodeCopy
  rw [ho]
  refine ifZero_of _ _ _ _ (fmtA_mask _ _ _ _ _ _ _ _ _ (by decide) (by simp) (by simp) (by simp) (by simp) (by simp) hmask) ?_
  unfold encode
  rw [fmtA_ctl, (fmtA_fld 5 3 (by decide)).trans h0, (fmtA_fld 2 3 (by decide)).trans h1, (fmtA_bit 1 (by decide)).trans h2, fmtA_d, fmtA_a, fmtA_b, fmtA_c, fmtA_x]
  rfl

theorem Encoding.cpys (k : Ctl) (dk : BitVec 3) (ad : BitVec 3) (bc : Bool) (d : Reg) (a : Reg) (b : Reg) (c : Reg) (x : BitVec 8) :
    Encoding.Statement (.cpys k dk ad bc d a b c x) := by
  intro hw _
  obtain ⟨hmask, h0, h1, h2⟩ := fn34 dk ad bc
  have ho : opOf (encode (.cpys k dk ad bc d a b c x)) = 0xA2 := fmtA_op _ _ _ _ _ _ _ _
  have hc : clsOf (opOf (encode (.cpys k dk ad bc d a b c x))).toNat = some .copy := by rw [ho]; rfl
  refine decode_of _ _ .copy hc ?_ hw
  rw [raw_copy _ hc]
  unfold decodeCopy
  rw [ho]
  refine ifZero_of _ _ _ _ (fmtA_mask _ _ _ _ _ _ _ _ _ (by decide) (by simp) (by simp) (by simp) (by simp) (by simp) hmask) ?_
  unfold encode
  rw [fmtA_ctl, (fmtA_fld 5 3 (by decide)).trans h0, (fmtA_fld 2 3 (by decide)).trans h1, (fmtA_bit 1 (by decide)).trans h2, fmtA_d, fmtA_a, fmtA_b, fmtA_c, fmtA_x]
  rfl

theorem Encoding.cpyf (k : Ctl) (dk : BitVec 3) (ad : BitVec 3) (bc : Bool) (d : Reg) (a : Reg) (b : Reg) (c : Reg) (x : BitVec 8) :
    Encoding.Statement (.cpyf k dk ad bc d a b c x) := by
  intro hw _
  obtain ⟨hmask, h0, h1, h2⟩ := fn34 dk ad bc
  have ho : opOf (encode (.cpyf k dk ad bc d a b c x)) = 0xA3 := fmtA_op _ _ _ _ _ _ _ _
  have hc : clsOf (opOf (encode (.cpyf k dk ad bc d a b c x))).toNat = some .copy := by rw [ho]; rfl
  refine decode_of _ _ .copy hc ?_ hw
  rw [raw_copy _ hc]
  unfold decodeCopy
  rw [ho]
  refine ifZero_of _ _ _ _ (fmtA_mask _ _ _ _ _ _ _ _ _ (by decide) (by simp) (by simp) (by simp) (by simp) (by simp) hmask) ?_
  unfold encode
  rw [fmtA_ctl, (fmtA_fld 5 3 (by decide)).trans h0, (fmtA_fld 2 3 (by decide)).trans h1, (fmtA_bit 1 (by decide)).trans h2, fmtA_d, fmtA_a, fmtA_b, fmtA_c, fmtA_x]
  rfl

theorem Encoding.cseal (k : Ctl) (d : Reg) :
    Encoding.Statement (.cseal k d) := by
  intro hw _
  have hmask := fn1
  have ho : opOf (encode (.cseal k d)) = 0xA4 := fmtA_op _ _ _ _ _ _ _ _
  have hc : clsOf (opOf (encode (.cseal k d))).toNat = some .copy := by rw [ho]; rfl
  refine decode_of _ _ .copy hc ?_ hw
  rw [raw_copy _ hc]
  unfold decodeCopy
  rw [ho]
  refine ifZero_of _ _ _ _ (fmtA_mask _ _ _ _ _ _ _ _ _ (by decide) (by decide) (by decide) (by decide) (by decide) (by simp) hmask) ?_
  unfold encode
  rw [fmtA_ctl, fmtA_d]
  rfl

theorem Encoding.cwait (k : Ctl) (d : Reg) (a : Reg) :
    Encoding.Statement (.cwait k d a) := by
  intro hw _
  have hmask := fn1
  have ho : opOf (encode (.cwait k d a)) = 0xA5 := fmtA_op _ _ _ _ _ _ _ _
  have hc : clsOf (opOf (encode (.cwait k d a))).toNat = some .copy := by rw [ho]; rfl
  refine decode_of _ _ .copy hc ?_ hw
  rw [raw_copy _ hc]
  unfold decodeCopy
  rw [ho]
  refine ifZero_of _ _ _ _ (fmtA_mask _ _ _ _ _ _ _ _ _ (by decide) (by decide) (by decide) (by decide) (by simp) (by simp) hmask) ?_
  unfold encode
  rw [fmtA_ctl, fmtA_d, fmtA_a]
  rfl

theorem Encoding.cpoll (k : Ctl) (d : Reg) :
    Encoding.Statement (.cpoll k d) := by
  intro hw _
  have hmask := fn1
  have ho : opOf (encode (.cpoll k d)) = 0xA6 := fmtA_op _ _ _ _ _ _ _ _
  have hc : clsOf (opOf (encode (.cpoll k d))).toNat = some .copy := by rw [ho]; rfl
  refine decode_of _ _ .copy hc ?_ hw
  rw [raw_copy _ hc]
  unfold decodeCopy
  rw [ho]
  refine ifZero_of _ _ _ _ (fmtA_mask _ _ _ _ _ _ _ _ _ (by decide) (by decide) (by decide) (by decide) (by decide) (by simp) hmask) ?_
  unfold encode
  rw [fmtA_ctl, fmtA_d]
  rfl

theorem Encoding.mclaim (k : Ctl) (kd : BitVec 2) (nb : Bool) (d : Reg) (a : Reg) (b : Reg) :
    Encoding.Statement (.mclaim k kd nb d a b) := by
  intro hw _
  obtain ⟨hmask, h0, h1⟩ := fn35 kd nb
  have ho : opOf (encode (.mclaim k kd nb d a b)) = 0xA8 := fmtA_op _ _ _ _ _ _ _ _
  have hc : clsOf (opOf (encode (.mclaim k kd nb d a b))).toNat = some .mtx := by rw [ho]; rfl
  refine decode_of _ _ .mtx hc ?_ hw
  rw [raw_mtx _ hc]
  unfold decodeMtx
  rw [ho]
  refine ifZero_of _ _ _ _ (fmtA_mask _ _ _ _ _ _ _ _ _ (by decide) (by decide) (by decide) (by simp) (by simp) (by simp) hmask) ?_
  unfold encode
  rw [fmtA_ctl, (fmtA_fld 6 2 (by decide)).trans h0, (fmtA_bit 5 (by decide)).trans h1, fmtA_d, fmtA_a, fmtA_b]
  rfl

theorem Encoding.mrel (k : Ctl) (kd : BitVec 2) (d : Reg) (a : Reg) (b : Reg) :
    Encoding.Statement (.mrel k kd d a b) := by
  intro hw _
  obtain ⟨hmask, h0⟩ := fn36 kd
  have ho : opOf (encode (.mrel k kd d a b)) = 0xA9 := fmtA_op _ _ _ _ _ _ _ _
  have hc : clsOf (opOf (encode (.mrel k kd d a b))).toNat = some .mtx := by rw [ho]; rfl
  refine decode_of _ _ .mtx hc ?_ hw
  rw [raw_mtx _ hc]
  unfold decodeMtx
  rw [ho]
  refine ifZero_of _ _ _ _ (fmtA_mask _ _ _ _ _ _ _ _ _ (by decide) (by decide) (by decide) (by simp) (by simp) (by simp) hmask) ?_
  unfold encode
  rw [fmtA_ctl, (fmtA_fld 6 2 (by decide)).trans h0, fmtA_d, fmtA_a, fmtA_b]
  rfl

theorem Encoding.mbaton (k : Ctl) (d : Reg) :
    Encoding.Statement (.mbaton k d) := by
  intro hw _
  have hmask := fn1
  have ho : opOf (encode (.mbaton k d)) = 0xAA := fmtA_op _ _ _ _ _ _ _ _
  have hc : clsOf (opOf (encode (.mbaton k d))).toNat = some .mtx := by rw [ho]; rfl
  refine decode_of _ _ .mtx hc ?_ hw
  rw [raw_mtx _ hc]
  unfold decodeMtx
  rw [ho]
  refine ifZero_of _ _ _ _ (fmtA_mask _ _ _ _ _ _ _ _ _ (by decide) (by decide) (by decide) (by decide) (by decide) (by simp) hmask) ?_
  unfold encode
  rw [fmtA_ctl, fmtA_d]
  rfl

theorem Encoding.mpass (k : Ctl) (d : Reg) (a : Reg) :
    Encoding.Statement (.mpass k d a) := by
  intro hw _
  have hmask := fn1
  have ho : opOf (encode (.mpass k d a)) = 0xAB := fmtA_op _ _ _ _ _ _ _ _
  have hc : clsOf (opOf (encode (.mpass k d a))).toNat = some .mtx := by rw [ho]; rfl
  refine decode_of _ _ .mtx hc ?_ hw
  rw [raw_mtx _ hc]
  unfold decodeMtx
  rw [ho]
  refine ifZero_of _ _ _ _ (fmtA_mask _ _ _ _ _ _ _ _ _ (by decide) (by decide) (by decide) (by decide) (by simp) (by simp) hmask) ?_
  unfold encode
  rw [fmtA_ctl, fmtA_d, fmtA_a]
  rfl

theorem Encoding.mzero (k : Ctl) (ik : Bool) (d : Reg) :
    Encoding.Statement (.mzero k ik d) := by
  intro hw _
  obtain ⟨hmask, h0⟩ := fn37 ik
  have ho : opOf (encode (.mzero k ik d)) = 0xAC := fmtA_op _ _ _ _ _ _ _ _
  have hc : clsOf (opOf (encode (.mzero k ik d))).toNat = some .mtx := by rw [ho]; rfl
  refine decode_of _ _ .mtx hc ?_ hw
  rw [raw_mtx _ hc]
  unfold decodeMtx
  rw [ho]
  refine ifZero_of _ _ _ _ (fmtA_mask _ _ _ _ _ _ _ _ _ (by decide) (by decide) (by decide) (by decide) (by decide) (by simp) hmask) ?_
  unfold encode
  rw [fmtA_ctl, (fmtA_bit 7 (by decide)).trans h0, fmtA_d]
  rfl

theorem Encoding.mmaBf16 (k : Ctl) (sc : Bool) (rk : Bool) (tr : Bool) (mt : BitVec 3) (a : Reg) (b : Reg) (c : Reg) (x : BitVec 8) :
    Encoding.Statement (.mmaBf16 k sc rk tr mt a b c x) := by
  intro hw _
  obtain ⟨hmask, h0, h1, h2, h3⟩ := fn38 sc rk tr mt
  have ho : opOf (encode (.mmaBf16 k sc rk tr mt a b c x)) = 0xAD := fmtA_op _ _ _ _ _ _ _ _
  have hc : clsOf (opOf (encode (.mmaBf16 k sc rk tr mt a b c x))).toNat = some .mtx := by rw [ho]; rfl
  refine decode_of _ _ .mtx hc ?_ hw
  rw [raw_mtx _ hc]
  unfold decodeMtx
  rw [ho]
  refine ifZero_of _ _ _ _ (fmtA_mask _ _ _ _ _ _ _ _ _ (by decide) (by simp) (by simp) (by simp) (by simp) (by decide) hmask) ?_
  unfold encode
  rw [fmtA_ctl, (fmtA_bit 7 (by decide)).trans h0, (fmtA_bit 6 (by decide)).trans h1, (fmtA_bit 5 (by decide)).trans h2, (fmtA_fld 2 3 (by decide)).trans h3, fmtA_a, fmtA_b, fmtA_c, fmtA_x]
  rfl

theorem Encoding.mmaF16 (k : Ctl) (sc : Bool) (rk : Bool) (tr : Bool) (mt : BitVec 3) (a : Reg) (b : Reg) (c : Reg) (x : BitVec 8) :
    Encoding.Statement (.mmaF16 k sc rk tr mt a b c x) := by
  intro hw _
  obtain ⟨hmask, h0, h1, h2, h3⟩ := fn38 sc rk tr mt
  have ho : opOf (encode (.mmaF16 k sc rk tr mt a b c x)) = 0xAE := fmtA_op _ _ _ _ _ _ _ _
  have hc : clsOf (opOf (encode (.mmaF16 k sc rk tr mt a b c x))).toNat = some .mtx := by rw [ho]; rfl
  refine decode_of _ _ .mtx hc ?_ hw
  rw [raw_mtx _ hc]
  unfold decodeMtx
  rw [ho]
  refine ifZero_of _ _ _ _ (fmtA_mask _ _ _ _ _ _ _ _ _ (by decide) (by simp) (by simp) (by simp) (by simp) (by decide) hmask) ?_
  unfold encode
  rw [fmtA_ctl, (fmtA_bit 7 (by decide)).trans h0, (fmtA_bit 6 (by decide)).trans h1, (fmtA_bit 5 (by decide)).trans h2, (fmtA_fld 2 3 (by decide)).trans h3, fmtA_a, fmtA_b, fmtA_c, fmtA_x]
  rfl

theorem Encoding.mmaE4m3 (k : Ctl) (sc : Bool) (rk : Bool) (tr : Bool) (mt : BitVec 3) (a : Reg) (b : Reg) (c : Reg) (x : BitVec 8) :
    Encoding.Statement (.mmaE4m3 k sc rk tr mt a b c x) := by
  intro hw _
  obtain ⟨hmask, h0, h1, h2, h3⟩ := fn38 sc rk tr mt
  have ho : opOf (encode (.mmaE4m3 k sc rk tr mt a b c x)) = 0xAF := fmtA_op _ _ _ _ _ _ _ _
  have hc : clsOf (opOf (encode (.mmaE4m3 k sc rk tr mt a b c x))).toNat = some .mtx := by rw [ho]; rfl
  refine decode_of _ _ .mtx hc ?_ hw
  rw [raw_mtx _ hc]
  unfold decodeMtx
  rw [ho]
  refine ifZero_of _ _ _ _ (fmtA_mask _ _ _ _ _ _ _ _ _ (by decide) (by simp) (by simp) (by simp) (by simp) (by decide) hmask) ?_
  unfold encode
  rw [fmtA_ctl, (fmtA_bit 7 (by decide)).trans h0, (fmtA_bit 6 (by decide)).trans h1, (fmtA_bit 5 (by decide)).trans h2, (fmtA_fld 2 3 (by decide)).trans h3, fmtA_a, fmtA_b, fmtA_c, fmtA_x]
  rfl

theorem Encoding.mmaE5m2 (k : Ctl) (sc : Bool) (rk : Bool) (tr : Bool) (mt : BitVec 3) (a : Reg) (b : Reg) (c : Reg) (x : BitVec 8) :
    Encoding.Statement (.mmaE5m2 k sc rk tr mt a b c x) := by
  intro hw _
  obtain ⟨hmask, h0, h1, h2, h3⟩ := fn38 sc rk tr mt
  have ho : opOf (encode (.mmaE5m2 k sc rk tr mt a b c x)) = 0xB0 := fmtA_op _ _ _ _ _ _ _ _
  have hc : clsOf (opOf (encode (.mmaE5m2 k sc rk tr mt a b c x))).toNat = some .mtx := by rw [ho]; rfl
  refine decode_of _ _ .mtx hc ?_ hw
  rw [raw_mtx _ hc]
  unfold decodeMtx
  rw [ho]
  refine ifZero_of _ _ _ _ (fmtA_mask _ _ _ _ _ _ _ _ _ (by decide) (by simp) (by simp) (by simp) (by simp) (by decide) hmask) ?_
  unfold encode
  rw [fmtA_ctl, (fmtA_bit 7 (by decide)).trans h0, (fmtA_bit 6 (by decide)).trans h1, (fmtA_bit 5 (by decide)).trans h2, (fmtA_fld 2 3 (by decide)).trans h3, fmtA_a, fmtA_b, fmtA_c, fmtA_x]
  rfl

theorem Encoding.mmaE2m1 (k : Ctl) (sc : Bool) (rk : Bool) (tr : Bool) (mt : BitVec 3) (a : Reg) (b : Reg) (c : Reg) (x : BitVec 8) :
    Encoding.Statement (.mmaE2m1 k sc rk tr mt a b c x) := by
  intro hw _
  obtain ⟨hmask, h0, h1, h2, h3⟩ := fn38 sc rk tr mt
  have ho : opOf (encode (.mmaE2m1 k sc rk tr mt a b c x)) = 0xB1 := fmtA_op _ _ _ _ _ _ _ _
  have hc : clsOf (opOf (encode (.mmaE2m1 k sc rk tr mt a b c x))).toNat = some .mtx := by rw [ho]; rfl
  refine decode_of _ _ .mtx hc ?_ hw
  rw [raw_mtx _ hc]
  unfold decodeMtx
  rw [ho]
  refine ifZero_of _ _ _ _ (fmtA_mask _ _ _ _ _ _ _ _ _ (by decide) (by simp) (by simp) (by simp) (by simp) (by decide) hmask) ?_
  unfold encode
  rw [fmtA_ctl, (fmtA_bit 7 (by decide)).trans h0, (fmtA_bit 6 (by decide)).trans h1, (fmtA_bit 5 (by decide)).trans h2, (fmtA_fld 2 3 (by decide)).trans h3, fmtA_a, fmtA_b, fmtA_c, fmtA_x]
  rfl

theorem Encoding.mmaI8 (k : Ctl) (sc : Bool) (rk : Bool) (tr : Bool) (mt : BitVec 3) (a : Reg) (b : Reg) (c : Reg) (x : BitVec 8) :
    Encoding.Statement (.mmaI8 k sc rk tr mt a b c x) := by
  intro hw _
  obtain ⟨hmask, h0, h1, h2, h3⟩ := fn38 sc rk tr mt
  have ho : opOf (encode (.mmaI8 k sc rk tr mt a b c x)) = 0xB2 := fmtA_op _ _ _ _ _ _ _ _
  have hc : clsOf (opOf (encode (.mmaI8 k sc rk tr mt a b c x))).toNat = some .mtx := by rw [ho]; rfl
  refine decode_of _ _ .mtx hc ?_ hw
  rw [raw_mtx _ hc]
  unfold decodeMtx
  rw [ho]
  refine ifZero_of _ _ _ _ (fmtA_mask _ _ _ _ _ _ _ _ _ (by decide) (by simp) (by simp) (by simp) (by simp) (by decide) hmask) ?_
  unfold encode
  rw [fmtA_ctl, (fmtA_bit 7 (by decide)).trans h0, (fmtA_bit 6 (by decide)).trans h1, (fmtA_bit 5 (by decide)).trans h2, (fmtA_fld 2 3 (by decide)).trans h3, fmtA_a, fmtA_b, fmtA_c, fmtA_x]
  rfl

theorem Encoding.mmaI4 (k : Ctl) (sc : Bool) (rk : Bool) (tr : Bool) (mt : BitVec 3) (a : Reg) (b : Reg) (c : Reg) (x : BitVec 8) :
    Encoding.Statement (.mmaI4 k sc rk tr mt a b c x) := by
  intro hw _
  obtain ⟨hmask, h0, h1, h2, h3⟩ := fn38 sc rk tr mt
  have ho : opOf (encode (.mmaI4 k sc rk tr mt a b c x)) = 0xB3 := fmtA_op _ _ _ _ _ _ _ _
  have hc : clsOf (opOf (encode (.mmaI4 k sc rk tr mt a b c x))).toNat = some .mtx := by rw [ho]; rfl
  refine decode_of _ _ .mtx hc ?_ hw
  rw [raw_mtx _ hc]
  unfold decodeMtx
  rw [ho]
  refine ifZero_of _ _ _ _ (fmtA_mask _ _ _ _ _ _ _ _ _ (by decide) (by simp) (by simp) (by simp) (by simp) (by decide) hmask) ?_
  unfold encode
  rw [fmtA_ctl, (fmtA_bit 7 (by decide)).trans h0, (fmtA_bit 6 (by decide)).trans h1, (fmtA_bit 5 (by decide)).trans h2, (fmtA_fld 2 3 (by decide)).trans h3, fmtA_a, fmtA_b, fmtA_c, fmtA_x]
  rfl

theorem Encoding.mdrain (k : Ctl) (ad : Bool) (rk : Bool) (d : Reg) (a : Reg) (b : Reg) (x : BitVec 8) :
    Encoding.Statement (.mdrain k ad rk d a b x) := by
  intro hw _
  obtain ⟨hmask, h0, h1⟩ := fn39 ad rk
  have ho : opOf (encode (.mdrain k ad rk d a b x)) = 0xB4 := fmtA_op _ _ _ _ _ _ _ _
  have hc : clsOf (opOf (encode (.mdrain k ad rk d a b x))).toNat = some .mtx := by rw [ho]; rfl
  refine decode_of _ _ .mtx hc ?_ hw
  rw [raw_mtx _ hc]
  unfold decodeMtx
  rw [ho]
  refine ifZero_of _ _ _ _ (fmtA_mask _ _ _ _ _ _ _ _ _ (by decide) (by simp) (by decide) (by simp) (by simp) (by simp) hmask) ?_
  unfold encode
  rw [fmtA_ctl, (fmtA_bit 7 (by decide)).trans h0, (fmtA_bit 6 (by decide)).trans h1, fmtA_d, fmtA_a, fmtA_b, fmtA_x]
  rfl

theorem Encoding.mrd (k : Ctl) (d : Reg) (a : Reg) (x : BitVec 8) :
    Encoding.Statement (.mrd k d a x) := by
  intro hw _
  have hmask := fn1
  have ho : opOf (encode (.mrd k d a x)) = 0xB5 := fmtA_op _ _ _ _ _ _ _ _
  have hc : clsOf (opOf (encode (.mrd k d a x))).toNat = some .mtx := by rw [ho]; rfl
  refine decode_of _ _ .mtx hc ?_ hw
  rw [raw_mtx _ hc]
  unfold decodeMtx
  rw [ho]
  refine ifZero_of _ _ _ _ (fmtA_mask _ _ _ _ _ _ _ _ _ (by decide) (by simp) (by decide) (by decide) (by simp) (by simp) hmask) ?_
  unfold encode
  rw [fmtA_ctl, fmtA_d, fmtA_a, fmtA_x]
  rfl

theorem Encoding.mmask (k : Ctl) (pa : Bool) (d : Reg) (a : Reg) (b : Reg) :
    Encoding.Statement (.mmask k pa d a b) := by
  intro hw _
  obtain ⟨hmask, h0⟩ := fn40 pa
  have ho : opOf (encode (.mmask k pa d a b)) = 0xB6 := fmtA_op _ _ _ _ _ _ _ _
  have hc : clsOf (opOf (encode (.mmask k pa d a b))).toNat = some .mtx := by rw [ho]; rfl
  refine decode_of _ _ .mtx hc ?_ hw
  rw [raw_mtx _ hc]
  unfold decodeMtx
  rw [ho]
  refine ifZero_of _ _ _ _ (fmtA_mask _ _ _ _ _ _ _ _ _ (by decide) (by decide) (by decide) (by simp) (by simp) (by simp) hmask) ?_
  unfold encode
  rw [fmtA_ctl, (fmtA_bit 7 (by decide)).trans h0, fmtA_d, fmtA_a, fmtA_b]
  rfl

theorem Encoding.msync (k : Ctl) (bk : Bool) :
    Encoding.Statement (.msync k bk) := by
  intro hw _
  obtain ⟨hmask, h0⟩ := fn41 bk
  have ho : opOf (encode (.msync k bk)) = 0xB7 := fmtA_op _ _ _ _ _ _ _ _
  have hc : clsOf (opOf (encode (.msync k bk))).toNat = some .mtx := by rw [ho]; rfl
  refine decode_of _ _ .mtx hc ?_ hw
  rw [raw_mtx _ hc]
  unfold decodeMtx
  rw [ho]
  refine ifZero_of _ _ _ _ (fmtA_mask _ _ _ _ _ _ _ _ _ (by decide) (by decide) (by decide) (by decide) (by decide) (by decide) hmask) ?_
  unfold encode
  rw [fmtA_ctl, (fmtA_bit 7 (by decide)).trans h0]
  rfl

theorem Encoding.tapin (k : Ctl) (d : Reg) (a : Reg) (b : Reg) (c : Reg) (x : BitVec 8) :
    Encoding.Statement (.tapin k d a b c x) := by
  intro hw _
  have hmask := fn1
  have ho : opOf (encode (.tapin k d a b c x)) = 0xB8 := fmtA_op _ _ _ _ _ _ _ _
  have hc : clsOf (opOf (encode (.tapin k d a b c x))).toNat = some .tap := by rw [ho]; rfl
  refine decode_of _ _ .tap hc ?_ hw
  rw [raw_tap _ hc]
  unfold decodeTap
  rw [ho]
  refine ifZero_of _ _ _ _ (fmtA_mask _ _ _ _ _ _ _ _ _ (by decide) (by simp) (by simp) (by simp) (by simp) (by simp) hmask) ?_
  unfold encode
  rw [fmtA_ctl, fmtA_d, fmtA_a, fmtA_b, fmtA_c, fmtA_x]
  rfl

theorem Encoding.tapw (k : Ctl) (d : Reg) (a : Reg) (b : Reg) :
    Encoding.Statement (.tapw k d a b) := by
  intro hw _
  have hmask := fn1
  have ho : opOf (encode (.tapw k d a b)) = 0xB9 := fmtA_op _ _ _ _ _ _ _ _
  have hc : clsOf (opOf (encode (.tapw k d a b))).toNat = some .tap := by rw [ho]; rfl
  refine decode_of _ _ .tap hc ?_ hw
  rw [raw_tap _ hc]
  unfold decodeTap
  rw [ho]
  refine ifZero_of _ _ _ _ (fmtA_mask _ _ _ _ _ _ _ _ _ (by decide) (by decide) (by decide) (by simp) (by simp) (by simp) hmask) ?_
  unfold encode
  rw [fmtA_ctl, fmtA_d, fmtA_a, fmtA_b]
  rfl

theorem Encoding.taprm (k : Ctl) (hm : Bool) (d : Reg) (a : Reg) :
    Encoding.Statement (.taprm k hm d a) := by
  intro hw _
  obtain ⟨hmask, h0⟩ := fn42 hm
  have ho : opOf (encode (.taprm k hm d a)) = 0xBA := fmtA_op _ _ _ _ _ _ _ _
  have hc : clsOf (opOf (encode (.taprm k hm d a))).toNat = some .tap := by rw [ho]; rfl
  refine decode_of _ _ .tap hc ?_ hw
  rw [raw_tap _ hc]
  unfold decodeTap
  rw [ho]
  refine ifZero_of _ _ _ _ (fmtA_mask _ _ _ _ _ _ _ _ _ (by decide) (by decide) (by decide) (by decide) (by simp) (by simp) hmask) ?_
  unfold encode
  rw [fmtA_ctl, (fmtA_bit 7 (by decide)).trans h0, fmtA_d, fmtA_a]
  rfl

theorem Encoding.trel (k : Ctl) (a : Reg) (b : Reg) :
    Encoding.Statement (.trel k a b) := by
  intro hw _
  have hmask := fn1
  have ho : opOf (encode (.trel k a b)) = 0xBB := fmtA_op _ _ _ _ _ _ _ _
  have hc : clsOf (opOf (encode (.trel k a b))).toNat = some .tap := by rw [ho]; rfl
  refine decode_of _ _ .tap hc ?_ hw
  rw [raw_tap _ hc]
  unfold decodeTap
  rw [ho]
  refine ifZero_of _ _ _ _ (fmtA_mask _ _ _ _ _ _ _ _ _ (by decide) (by decide) (by decide) (by simp) (by simp) (by decide) hmask) ?_
  unfold encode
  rw [fmtA_ctl, fmtA_a, fmtA_b]
  rfl

theorem Encoding.tapsync (k : Ctl) (al : Bool) (a : Reg) :
    Encoding.Statement (.tapsync k al a) := by
  intro hw _
  obtain ⟨hmask, h0⟩ := fn43 al
  have ho : opOf (encode (.tapsync k al a)) = 0xBC := fmtA_op _ _ _ _ _ _ _ _
  have hc : clsOf (opOf (encode (.tapsync k al a))).toNat = some .tap := by rw [ho]; rfl
  refine decode_of _ _ .tap hc ?_ hw
  rw [raw_tap _ hc]
  unfold decodeTap
  rw [ho]
  refine ifZero_of _ _ _ _ (fmtA_mask _ _ _ _ _ _ _ _ _ (by decide) (by decide) (by decide) (by decide) (by simp) (by decide) hmask) ?_
  unfold encode
  rw [fmtA_ctl, (fmtA_bit 7 (by decide)).trans h0, fmtA_a]
  rfl

theorem Encoding.jpost (k : Ctl) (d : Reg) (a : Reg) :
    Encoding.Statement (.jpost k d a) := by
  intro hw _
  have hmask := fn1
  have ho : opOf (encode (.jpost k d a)) = 0xC0 := fmtA_op _ _ _ _ _ _ _ _
  have hc : clsOf (opOf (encode (.jpost k d a))).toNat = some .task := by rw [ho]; rfl
  refine decode_of _ _ .task hc ?_ hw
  rw [raw_task _ hc]
  unfold decodeTask
  rw [ho]
  refine ifZero_of _ _ _ _ (fmtA_mask _ _ _ _ _ _ _ _ _ (by decide) (by decide) (by decide) (by decide) (by simp) (by simp) hmask) ?_
  unfold encode
  rw [fmtA_ctl, fmtA_d, fmtA_a]
  rfl

theorem Encoding.jrec (k : Ctl) (d : Reg) (x : BitVec 8) :
    Encoding.Statement (.jrec k d x) := by
  intro hw _
  have hmask := fn1
  have ho : opOf (encode (.jrec k d x)) = 0xC1 := fmtA_op _ _ _ _ _ _ _ _
  have hc : clsOf (opOf (encode (.jrec k d x))).toNat = some .task := by rw [ho]; rfl
  refine decode_of _ _ .task hc ?_ hw
  rw [raw_task _ hc]
  unfold decodeTask
  rw [ho]
  refine ifZero_of _ _ _ _ (fmtA_mask _ _ _ _ _ _ _ _ _ (by decide) (by simp) (by decide) (by decide) (by decide) (by simp) hmask) ?_
  unfold encode
  rw [fmtA_ctl, fmtA_d, fmtA_x]
  rfl

theorem Encoding.jhint (k : Ctl) :
    Encoding.Statement (.jhint k) := by
  intro hw _
  have hmask := fn1
  have ho : opOf (encode (.jhint k)) = 0xC2 := fmtA_op _ _ _ _ _ _ _ _
  have hc : clsOf (opOf (encode (.jhint k))).toNat = some .task := by rw [ho]; rfl
  refine decode_of _ _ .task hc ?_ hw
  rw [raw_task _ hc]
  unfold decodeTask
  rw [ho]
  refine ifZero_of _ _ _ _ (fmtA_mask _ _ _ _ _ _ _ _ _ (by decide) (by decide) (by decide) (by decide) (by decide) (by decide) hmask) ?_
  unfold encode
  rw [fmtA_ctl]
  rfl

theorem Encoding.jpwait (k : Ctl) (d : Reg) :
    Encoding.Statement (.jpwait k d) := by
  intro hw _
  have hmask := fn1
  have ho : opOf (encode (.jpwait k d)) = 0xC3 := fmtA_op _ _ _ _ _ _ _ _
  have hc : clsOf (opOf (encode (.jpwait k d))).toNat = some .task := by rw [ho]; rfl
  refine decode_of _ _ .task hc ?_ hw
  rw [raw_task _ hc]
  unfold decodeTask
  rw [ho]
  refine ifZero_of _ _ _ _ (fmtA_mask _ _ _ _ _ _ _ _ _ (by decide) (by decide) (by decide) (by decide) (by decide) (by simp) hmask) ?_
  unfold encode
  rw [fmtA_ctl, fmtA_d]
  rfl

theorem Encoding.finit (k : Ctl) (a : Reg) :
    Encoding.Statement (.finit k a) := by
  intro hw _
  have hmask := fn1
  have ho : opOf (encode (.finit k a)) = 0xC4 := fmtA_op _ _ _ _ _ _ _ _
  have hc : clsOf (opOf (encode (.finit k a))).toNat = some .task := by rw [ho]; rfl
  refine decode_of _ _ .task hc ?_ hw
  rw [raw_task _ hc]
  unfold decodeTask
  rw [ho]
  refine ifZero_of _ _ _ _ (fmtA_mask _ _ _ _ _ _ _ _ _ (by decide) (by decide) (by decide) (by decide) (by simp) (by decide) hmask) ?_
  unfold encode
  rw [fmtA_ctl, fmtA_a]
  rfl

theorem Encoding.fwr (k : Ctl) (a : Reg) (b : Reg) :
    Encoding.Statement (.fwr k a b) := by
  intro hw _
  have hmask := fn1
  have ho : opOf (encode (.fwr k a b)) = 0xC5 := fmtA_op _ _ _ _ _ _ _ _
  have hc : clsOf (opOf (encode (.fwr k a b))).toNat = some .task := by rw [ho]; rfl
  refine decode_of _ _ .task hc ?_ hw
  rw [raw_task _ hc]
  unfold decodeTask
  rw [ho]
  refine ifZero_of _ _ _ _ (fmtA_mask _ _ _ _ _ _ _ _ _ (by decide) (by decide) (by decide) (by simp) (by simp) (by decide) hmask) ?_
  unfold encode
  rw [fmtA_ctl, fmtA_a, fmtA_b]
  rfl

theorem Encoding.frd (k : Ctl) (d : Reg) (a : Reg) (x : BitVec 8) :
    Encoding.Statement (.frd k d a x) := by
  intro hw _
  have hmask := fn1
  have ho : opOf (encode (.frd k d a x)) = 0xC6 := fmtA_op _ _ _ _ _ _ _ _
  have hc : clsOf (opOf (encode (.frd k d a x))).toNat = some .task := by rw [ho]; rfl
  refine decode_of _ _ .task hc ?_ hw
  rw [raw_task _ hc]
  unfold decodeTask
  rw [ho]
  refine ifZero_of _ _ _ _ (fmtA_mask _ _ _ _ _ _ _ _ _ (by decide) (by simp) (by decide) (by decide) (by simp) (by simp) hmask) ?_
  unfold encode
  rw [fmtA_ctl, fmtA_d, fmtA_a, fmtA_x]
  rfl

theorem Encoding.scopen (k : Ctl) (xc : Bool) (d : Reg) (a : Reg) (b : Reg) (c : Reg) :
    Encoding.Statement (.scopen k xc d a b c) := by
  intro hw _
  obtain ⟨hmask, h0⟩ := fn44 xc
  have ho : opOf (encode (.scopen k xc d a b c)) = 0xC7 := fmtA_op _ _ _ _ _ _ _ _
  have hc : clsOf (opOf (encode (.scopen k xc d a b c))).toNat = some .task := by rw [ho]; rfl
  refine decode_of _ _ .task hc ?_ hw
  rw [raw_task _ hc]
  unfold decodeTask
  rw [ho]
  refine ifZero_of _ _ _ _ (fmtA_mask _ _ _ _ _ _ _ _ _ (by decide) (by decide) (by simp) (by simp) (by simp) (by simp) hmask) ?_
  unfold encode
  rw [fmtA_ctl, (fmtA_bit 7 (by decide)).trans h0, fmtA_d, fmtA_a, fmtA_b, fmtA_c]
  rfl

theorem Encoding.sccan (k : Ctl) (xc : Bool) (d : Reg) (a : Reg) (c : Reg) :
    Encoding.Statement (.sccan k xc d a c) := by
  intro hw _
  obtain ⟨hmask, h0⟩ := fn44 xc
  have ho : opOf (encode (.sccan k xc d a c)) = 0xC8 := fmtA_op _ _ _ _ _ _ _ _
  have hc : clsOf (opOf (encode (.sccan k xc d a c))).toNat = some .task := by rw [ho]; rfl
  refine decode_of _ _ .task hc ?_ hw
  rw [raw_task _ hc]
  unfold decodeTask
  rw [ho]
  refine ifZero_of _ _ _ _ (fmtA_mask _ _ _ _ _ _ _ _ _ (by decide) (by decide) (by simp) (by decide) (by simp) (by simp) hmask) ?_
  unfold encode
  rw [fmtA_ctl, (fmtA_bit 7 (by decide)).trans h0, fmtA_d, fmtA_a, fmtA_c]
  rfl

theorem Encoding.scack (k : Ctl) (xc : Bool) (d : Reg) (a : Reg) (c : Reg) :
    Encoding.Statement (.scack k xc d a c) := by
  intro hw _
  obtain ⟨hmask, h0⟩ := fn44 xc
  have ho : opOf (encode (.scack k xc d a c)) = 0xC9 := fmtA_op _ _ _ _ _ _ _ _
  have hc : clsOf (opOf (encode (.scack k xc d a c))).toNat = some .task := by rw [ho]; rfl
  refine decode_of _ _ .task hc ?_ hw
  rw [raw_task _ hc]
  unfold decodeTask
  rw [ho]
  refine ifZero_of _ _ _ _ (fmtA_mask _ _ _ _ _ _ _ _ _ (by decide) (by decide) (by simp) (by decide) (by simp) (by simp) hmask) ?_
  unfold encode
  rw [fmtA_ctl, (fmtA_bit 7 (by decide)).trans h0, fmtA_d, fmtA_a, fmtA_c]
  rfl

theorem Encoding.scqry (k : Ctl) (xc : Bool) (d : Reg) (a : Reg) (c : Reg) :
    Encoding.Statement (.scqry k xc d a c) := by
  intro hw _
  obtain ⟨hmask, h0⟩ := fn44 xc
  have ho : opOf (encode (.scqry k xc d a c)) = 0xCA := fmtA_op _ _ _ _ _ _ _ _
  have hc : clsOf (opOf (encode (.scqry k xc d a c))).toNat = some .task := by rw [ho]; rfl
  refine decode_of _ _ .task hc ?_ hw
  rw [raw_task _ hc]
  unfold decodeTask
  rw [ho]
  refine ifZero_of _ _ _ _ (fmtA_mask _ _ _ _ _ _ _ _ _ (by decide) (by decide) (by simp) (by decide) (by simp) (by simp) hmask) ?_
  unfold encode
  rw [fmtA_ctl, (fmtA_bit 7 (by decide)).trans h0, fmtA_d, fmtA_a, fmtA_c]
  rfl

theorem Encoding.tretRetry (k : Ctl) (d : Reg) (a : Reg) :
    Encoding.Statement (.tretRetry k d a) := by
  intro hw _
  have hmask := fn45
  have ho : opOf (encode (.tretRetry k d a)) = 0xD0 := fmtA_op _ _ _ _ _ _ _ _
  have hc : clsOf (opOf (encode (.tretRetry k d a))).toNat = some .sys := by rw [ho]; rfl
  refine decode_of _ _ .sys hc ?_ hw
  rw [raw_sys _ hc]
  unfold decodeSys
  rw [ho]
  show (if _ then _ else _) = _
  rw [show encode (.tretRetry k d a) = fmtA 0xD0 k (0#6 ++ 0#2) d a 0 0 0 from rfl]
  rw [fmtA_fld 0 2 (by decide)]
  rw [if_pos (by decide)]
  refine ifZero_of _ _ _ _ (fmtA_mask _ _ _ _ _ _ _ _ _ (by decide) (by decide) (by decide) (by decide) (by simp) (by simp) hmask) ?_
  rw [fmtA_ctl, fmtA_d, fmtA_a]
  rfl

theorem Encoding.tretSkip (k : Ctl) (d : Reg) (a : Reg) :
    Encoding.Statement (.tretSkip k d a) := by
  intro hw _
  have hmask := fn46
  have ho : opOf (encode (.tretSkip k d a)) = 0xD0 := fmtA_op _ _ _ _ _ _ _ _
  have hc : clsOf (opOf (encode (.tretSkip k d a))).toNat = some .sys := by rw [ho]; rfl
  refine decode_of _ _ .sys hc ?_ hw
  rw [raw_sys _ hc]
  unfold decodeSys
  rw [ho]
  show (if _ then _ else _) = _
  rw [show encode (.tretSkip k d a) = fmtA 0xD0 k (0#6 ++ 1#2) d a 0 0 0 from rfl]
  rw [fmtA_fld 0 2 (by decide)]
  rw [if_neg (by decide)]
  rw [if_pos (by decide)]
  refine ifZero_of _ _ _ _ (fmtA_mask _ _ _ _ _ _ _ _ _ (by decide) (by decide) (by decide) (by decide) (by simp) (by simp) hmask) ?_
  rw [fmtA_ctl, fmtA_d, fmtA_a]
  rfl

theorem Encoding.tretRedirect (k : Ctl) (d : Reg) (a : Reg) (b : Reg) :
    Encoding.Statement (.tretRedirect k d a b) := by
  intro hw _
  have hmask := fn47
  have ho : opOf (encode (.tretRedirect k d a b)) = 0xD0 := fmtA_op _ _ _ _ _ _ _ _
  have hc : clsOf (opOf (encode (.tretRedirect k d a b))).toNat = some .sys := by rw [ho]; rfl
  refine decode_of _ _ .sys hc ?_ hw
  rw [raw_sys _ hc]
  unfold decodeSys
  rw [ho]
  show (if _ then _ else _) = _
  rw [show encode (.tretRedirect k d a b) = fmtA 0xD0 k (0#6 ++ 2#2) d a b 0 0 from rfl]
  rw [fmtA_fld 0 2 (by decide)]
  rw [if_neg (by decide)]
  rw [if_neg (by decide)]
  rw [if_pos (by decide)]
  refine ifZero_of _ _ _ _ (fmtA_mask _ _ _ _ _ _ _ _ _ (by decide) (by decide) (by decide) (by simp) (by simp) (by simp) hmask) ?_
  rw [fmtA_ctl, fmtA_d, fmtA_a, fmtA_b]
  rfl

theorem Encoding.crd (k : Ctl) (bk : Bool) (d : Reg) (a : Reg) (x : BitVec 8) :
    Encoding.Statement (.crd k bk d a x) := by
  intro hw _
  obtain ⟨hmask, h0⟩ := fn48 bk
  have ho : opOf (encode (.crd k bk d a x)) = 0xD1 := fmtA_op _ _ _ _ _ _ _ _
  have hc : clsOf (opOf (encode (.crd k bk d a x))).toNat = some .sys := by rw [ho]; rfl
  refine decode_of _ _ .sys hc ?_ hw
  rw [raw_sys _ hc]
  unfold decodeSys
  rw [ho]
  refine ifZero_of _ _ _ _ (fmtA_mask _ _ _ _ _ _ _ _ _ (by decide) (by simp) (by decide) (by decide) (by simp) (by simp) hmask) ?_
  unfold encode
  rw [fmtA_ctl, (fmtA_bit 0 (by decide)).trans h0, fmtA_d, fmtA_a, fmtA_x]
  rfl

theorem Encoding.cwr (k : Ctl) (bk : Bool) (d : Reg) (a : Reg) (b : Reg) (x : BitVec 8) :
    Encoding.Statement (.cwr k bk d a b x) := by
  intro hw _
  obtain ⟨hmask, h0⟩ := fn48 bk
  have ho : opOf (encode (.cwr k bk d a b x)) = 0xD2 := fmtA_op _ _ _ _ _ _ _ _
  have hc : clsOf (opOf (encode (.cwr k bk d a b x))).toNat = some .sys := by rw [ho]; rfl
  refine decode_of _ _ .sys hc ?_ hw
  rw [raw_sys _ hc]
  unfold decodeSys
  rw [ho]
  show (if _ then _ else _) = _
  rw [show encode (.cwr k bk d a b x) = fmtA 0xD2 k (0#7 ++ bit bk) d a b 0 x from rfl]
  rw [fmtA_fld 0 1 (by decide), fmtA_x]
  rw [show (0#7 ++ bit bk : BitVec 8).extractLsb' 0 1 = bit bk by
    have : ∀ z, (0#7 ++ bit z : BitVec 8).extractLsb' 0 1 = bit z := by decide
    exact this bk]
  have hp : plainReg bk x = true := by
    revert hw; simp only [Instr.wf, Bool.and_eq_true]; exact fun h => h.2
  have hx : ∀ n : BitVec 8, plainReg bk n = false → (x == n) = false := by
    intro n hn; cases he : x == n
    · rfl
    · rw [beq_iff_eq] at he; subst he; rw [hp] at hn; exact hn
  have no : ∀ (v : BitVec 1) (n : BitVec 8), plainReg (v == 1) n = false → ¬ ((bit bk == v && x == n) = true) := by
    intro v n hn hc
    rw [Bool.and_eq_true] at hc
    have hall : ∀ (z : Bool) (v : BitVec 1), (bit z == v) = true → z = (v == 1) := by decide
    have hb : bk = (v == 1) := hall bk v hc.1
    rw [← hb] at hn
    rw [hx n hn] at hc; exact absurd hc.2 (by decide)
  rw [if_neg (no 1 0x00 (by decide)), if_neg (no 0 0x01 (by decide)), if_neg (no 0 0x02 (by decide)),
    if_neg (no 1 0x0D (by decide)), if_neg (no 1 0x0A (by decide)), if_neg (no 1 0x19 (by decide))]
  refine ifZero_of _ _ _ _ (fmtA_mask _ _ _ _ _ _ _ _ _ (by decide) (by simp) (by decide) (by simp) (by simp) (by simp) hmask) ?_
  rw [fmtA_ctl, (fmtA_bit 0 (by decide)).trans h0, fmtA_d, fmtA_a, fmtA_b]
  rfl

theorem Encoding.cwrStateCreate (k : Ctl) (d : Reg) (a : Reg) (b : Reg) :
    Encoding.Statement (.cwrStateCreate k d a b) := by
  intro hw _
  have hmask := fn49
  have ho : opOf (encode (.cwrStateCreate k d a b)) = 0xD2 := fmtA_op _ _ _ _ _ _ _ _
  have hc : clsOf (opOf (encode (.cwrStateCreate k d a b))).toNat = some .sys := by rw [ho]; rfl
  refine decode_of _ _ .sys hc ?_ hw
  rw [raw_sys _ hc]
  unfold decodeSys
  rw [ho]
  show (if _ then _ else _) = _
  rw [show encode (.cwrStateCreate k d a b) = fmtA 0xD2 k (0#7 ++ 1#1) d a b 0 0x00 from rfl]
  rw [fmtA_fld 0 1 (by decide), fmtA_x]
  rw [if_pos (by decide)]
  refine ifZero_of _ _ _ _ (fmtA_mask _ _ _ _ _ _ _ _ _ (by decide) (by decide) (by decide) (by simp) (by simp) (by simp) hmask) ?_
  rw [fmtA_ctl, fmtA_d, fmtA_a, fmtA_b]
  rfl

theorem Encoding.cwrStateRemove (k : Ctl) (d : Reg) (a : Reg) (b : Reg) :
    Encoding.Statement (.cwrStateRemove k d a b) := by
  intro hw _
  have hmask := fn49
  have ho : opOf (encode (.cwrStateRemove k d a b)) = 0xD2 := fmtA_op _ _ _ _ _ _ _ _
  have hc : clsOf (opOf (encode (.cwrStateRemove k d a b))).toNat = some .sys := by rw [ho]; rfl
  refine decode_of _ _ .sys hc ?_ hw
  rw [raw_sys _ hc]
  unfold decodeSys
  rw [ho]
  show (if _ then _ else _) = _
  rw [show encode (.cwrStateRemove k d a b) = fmtA 0xD2 k (0#7 ++ 1#1) d a b 0 0x00 from rfl]
  rw [fmtA_fld 0 1 (by decide), fmtA_x]
  rw [if_pos (by decide)]
  refine ifZero_of _ _ _ _ (fmtA_mask _ _ _ _ _ _ _ _ _ (by decide) (by decide) (by decide) (by simp) (by simp) (by simp) hmask) ?_
  rw [fmtA_ctl, fmtA_d, fmtA_a, fmtA_b]
  rfl

theorem Encoding.cwrKqsize (k : Ctl) (d : Reg) (b : Reg) :
    Encoding.Statement (.cwrKqsize k d b) := by
  intro hw _
  have hmask := fn50
  have ho : opOf (encode (.cwrKqsize k d b)) = 0xD2 := fmtA_op _ _ _ _ _ _ _ _
  have hc : clsOf (opOf (encode (.cwrKqsize k d b))).toNat = some .sys := by rw [ho]; rfl
  refine decode_of _ _ .sys hc ?_ hw
  rw [raw_sys _ hc]
  unfold decodeSys
  rw [ho]
  show (if _ then _ else _) = _
  rw [show encode (.cwrKqsize k d b) = fmtA 0xD2 k (0#7 ++ 0#1) d 0 b 0 0x01 from rfl]
  rw [fmtA_fld 0 1 (by decide), fmtA_x]
  rw [if_neg (by decide)]
  rw [if_pos (by decide)]
  refine ifZero_of _ _ _ _ (fmtA_mask _ _ _ _ _ _ _ _ _ (by decide) (by decide) (by decide) (by simp) (by decide) (by simp) hmask) ?_
  rw [fmtA_ctl, fmtA_d, fmtA_b]
  rfl

theorem Encoding.cwrKqhead (k : Ctl) (d : Reg) (b : Reg) :
    Encoding.Statement (.cwrKqhead k d b) := by
  intro hw _
  have hmask := fn50
  have ho : opOf (encode (.cwrKqhead k d b)) = 0xD2 := fmtA_op _ _ _ _ _ _ _ _
  have hc : clsOf (opOf (encode (.cwrKqhead k d b))).toNat = some .sys := by rw [ho]; rfl
  refine decode_of _ _ .sys hc ?_ hw
  rw [raw_sys _ hc]
  unfold decodeSys
  rw [ho]
  show (if _ then _ else _) = _
  rw [show encode (.cwrKqhead k d b) = fmtA 0xD2 k (0#7 ++ 0#1) d 0 b 0 0x02 from rfl]
  rw [fmtA_fld 0 1 (by decide), fmtA_x]
  rw [if_neg (by decide)]
  rw [if_neg (by decide)]
  rw [if_pos (by decide)]
  refine ifZero_of _ _ _ _ (fmtA_mask _ _ _ _ _ _ _ _ _ (by decide) (by decide) (by decide) (by simp) (by decide) (by simp) hmask) ?_
  rw [fmtA_ctl, fmtA_d, fmtA_b]
  rfl

theorem Encoding.cwrPreempt (k : Ctl) (d : Reg) (a : Reg) (b : Reg) :
    Encoding.Statement (.cwrPreempt k d a b) := by
  intro hw _
  have hmask := fn49
  have ho : opOf (encode (.cwrPreempt k d a b)) = 0xD2 := fmtA_op _ _ _ _ _ _ _ _
  have hc : clsOf (opOf (encode (.cwrPreempt k d a b))).toNat = some .sys := by rw [ho]; rfl
  refine decode_of _ _ .sys hc ?_ hw
  rw [raw_sys _ hc]
  unfold decodeSys
  rw [ho]
  show (if _ then _ else _) = _
  rw [show encode (.cwrPreempt k d a b) = fmtA 0xD2 k (0#7 ++ 1#1) d a b 0 0x0D from rfl]
  rw [fmtA_fld 0 1 (by decide), fmtA_x]
  rw [if_neg (by decide)]
  rw [if_neg (by decide)]
  rw [if_neg (by decide)]
  rw [if_pos (by decide)]
  refine ifZero_of _ _ _ _ (fmtA_mask _ _ _ _ _ _ _ _ _ (by decide) (by decide) (by decide) (by simp) (by simp) (by simp) hmask) ?_
  rw [fmtA_ctl, fmtA_d, fmtA_a, fmtA_b]
  rfl

theorem Encoding.cwrBcores (k : Ctl) (d : Reg) (a : Reg) (b : Reg) :
    Encoding.Statement (.cwrBcores k d a b) := by
  intro hw _
  have hmask := fn49
  have ho : opOf (encode (.cwrBcores k d a b)) = 0xD2 := fmtA_op _ _ _ _ _ _ _ _
  have hc : clsOf (opOf (encode (.cwrBcores k d a b))).toNat = some .sys := by rw [ho]; rfl
  refine decode_of _ _ .sys hc ?_ hw
  rw [raw_sys _ hc]
  unfold decodeSys
  rw [ho]
  show (if _ then _ else _) = _
  rw [show encode (.cwrBcores k d a b) = fmtA 0xD2 k (0#7 ++ 1#1) d a b 0 0x0A from rfl]
  rw [fmtA_fld 0 1 (by decide), fmtA_x]
  rw [if_neg (by decide)]
  rw [if_neg (by decide)]
  rw [if_neg (by decide)]
  rw [if_neg (by decide)]
  rw [if_pos (by decide)]
  refine ifZero_of _ _ _ _ (fmtA_mask _ _ _ _ _ _ _ _ _ (by decide) (by decide) (by decide) (by simp) (by simp) (by simp) hmask) ?_
  rw [fmtA_ctl, fmtA_d, fmtA_a, fmtA_b]
  rfl

theorem Encoding.cwrTrsize (k : Ctl) (d : Reg) (a : Reg) (b : Reg) :
    Encoding.Statement (.cwrTrsize k d a b) := by
  intro hw _
  have hmask := fn49
  have ho : opOf (encode (.cwrTrsize k d a b)) = 0xD2 := fmtA_op _ _ _ _ _ _ _ _
  have hc : clsOf (opOf (encode (.cwrTrsize k d a b))).toNat = some .sys := by rw [ho]; rfl
  refine decode_of _ _ .sys hc ?_ hw
  rw [raw_sys _ hc]
  unfold decodeSys
  rw [ho]
  show (if _ then _ else _) = _
  rw [show encode (.cwrTrsize k d a b) = fmtA 0xD2 k (0#7 ++ 1#1) d a b 0 0x19 from rfl]
  rw [fmtA_fld 0 1 (by decide), fmtA_x]
  rw [if_neg (by decide)]
  rw [if_neg (by decide)]
  rw [if_neg (by decide)]
  rw [if_neg (by decide)]
  rw [if_neg (by decide)]
  rw [if_pos (by decide)]
  refine ifZero_of _ _ _ _ (fmtA_mask _ _ _ _ _ _ _ _ _ (by decide) (by decide) (by decide) (by simp) (by simp) (by simp) hmask) ?_
  rw [fmtA_ctl, fmtA_d, fmtA_a, fmtA_b]
  rfl

theorem Encoding.tlbinvPage (k : Ctl) (d : Reg) (a : Reg) (b : Reg) :
    Encoding.Statement (.tlbinvPage k d a b) := by
  intro hw _
  have hmask := fn51
  have ho : opOf (encode (.tlbinvPage k d a b)) = 0xD3 := fmtA_op _ _ _ _ _ _ _ _
  have hc : clsOf (opOf (encode (.tlbinvPage k d a b))).toNat = some .sys := by rw [ho]; rfl
  refine decode_of _ _ .sys hc ?_ hw
  rw [raw_sys _ hc]
  unfold decodeSys
  rw [ho]
  show (if _ then _ else _) = _
  rw [show encode (.tlbinvPage k d a b) = fmtA 0xD3 k (0#5 ++ 0#3) d a b 0 0 from rfl]
  rw [fmtA_fld 0 3 (by decide)]
  rw [if_pos (by decide)]
  refine ifZero_of _ _ _ _ (fmtA_mask _ _ _ _ _ _ _ _ _ (by decide) (by decide) (by decide) (by simp) (by simp) (by simp) hmask) ?_
  rw [fmtA_ctl, fmtA_d, fmtA_a, fmtA_b]
  rfl

theorem Encoding.tlbinvContext (k : Ctl) (d : Reg) (b : Reg) :
    Encoding.Statement (.tlbinvContext k d b) := by
  intro hw _
  have hmask := fn52
  have ho : opOf (encode (.tlbinvContext k d b)) = 0xD3 := fmtA_op _ _ _ _ _ _ _ _
  have hc : clsOf (opOf (encode (.tlbinvContext k d b))).toNat = some .sys := by rw [ho]; rfl
  refine decode_of _ _ .sys hc ?_ hw
  rw [raw_sys _ hc]
  unfold decodeSys
  rw [ho]
  show (if _ then _ else _) = _
  rw [show encode (.tlbinvContext k d b) = fmtA 0xD3 k (0#5 ++ 1#3) d 0 b 0 0 from rfl]
  rw [fmtA_fld 0 3 (by decide)]
  rw [if_neg (by decide)]
  rw [if_pos (by decide)]
  refine ifZero_of _ _ _ _ (fmtA_mask _ _ _ _ _ _ _ _ _ (by decide) (by decide) (by decide) (by simp) (by decide) (by simp) hmask) ?_
  rw [fmtA_ctl, fmtA_d, fmtA_b]
  rfl

theorem Encoding.tlbinvAll (k : Ctl) (d : Reg) :
    Encoding.Statement (.tlbinvAll k d) := by
  intro hw _
  have hmask := fn53
  have ho : opOf (encode (.tlbinvAll k d)) = 0xD3 := fmtA_op _ _ _ _ _ _ _ _
  have hc : clsOf (opOf (encode (.tlbinvAll k d))).toNat = some .sys := by rw [ho]; rfl
  refine decode_of _ _ .sys hc ?_ hw
  rw [raw_sys _ hc]
  unfold decodeSys
  rw [ho]
  show (if _ then _ else _) = _
  rw [show encode (.tlbinvAll k d) = fmtA 0xD3 k (0#5 ++ 2#3) d 0 0 0 0 from rfl]
  rw [fmtA_fld 0 3 (by decide)]
  rw [if_neg (by decide)]
  rw [if_neg (by decide)]
  rw [if_pos (by decide)]
  refine ifZero_of _ _ _ _ (fmtA_mask _ _ _ _ _ _ _ _ _ (by decide) (by decide) (by decide) (by decide) (by decide) (by simp) hmask) ?_
  rw [fmtA_ctl, fmtA_d]
  rfl

theorem Encoding.tlbinvRange (k : Ctl) (sp : Bool) (d : Reg) (a : Reg) (b : Reg) (c : Reg) :
    Encoding.Statement (.tlbinvRange k sp d a b c) := by
  intro hw _
  obtain ⟨hmask, h0⟩ := fn54 sp
  have ho : opOf (encode (.tlbinvRange k sp d a b c)) = 0xD3 := fmtA_op _ _ _ _ _ _ _ _
  have hc : clsOf (opOf (encode (.tlbinvRange k sp d a b c))).toNat = some .sys := by rw [ho]; rfl
  refine decode_of _ _ .sys hc ?_ hw
  rw [raw_sys _ hc]
  unfold decodeSys
  rw [ho]
  show (if _ then _ else _) = _
  rw [show encode (.tlbinvRange k sp d a b c) = fmtA 0xD3 k (0#5 ++ bit sp ++ 3#2) d a b c 0 from rfl]
  rw [fmtA_fld 0 3 (by decide), fmtA_fld 0 2 (by decide)]
  rw [if_neg (by cases sp <;> decide)]
  rw [if_neg (by cases sp <;> decide)]
  rw [if_neg (by cases sp <;> decide)]
  rw [if_pos (by cases sp <;> decide)]
  refine ifZero_of _ _ _ _ (fmtA_mask _ _ _ _ _ _ _ _ _ (by decide) (by decide) (by simp) (by simp) (by simp) (by simp) hmask) ?_
  rw [fmtA_ctl, (fmtA_bit 2 (by decide)).trans h0, fmtA_d, fmtA_a, fmtA_b, fmtA_c]
  rfl

theorem Encoding.pfres (k : Ctl) (d : Reg) (a : Reg) :
    Encoding.Statement (.pfres k d a) := by
  intro hw _
  have hmask := fn1
  have ho : opOf (encode (.pfres k d a)) = 0xD4 := fmtA_op _ _ _ _ _ _ _ _
  have hc : clsOf (opOf (encode (.pfres k d a))).toNat = some .sys := by rw [ho]; rfl
  refine decode_of _ _ .sys hc ?_ hw
  rw [raw_sys _ hc]
  unfold decodeSys
  rw [ho]
  refine ifZero_of _ _ _ _ (fmtA_mask _ _ _ _ _ _ _ _ _ (by decide) (by decide) (by decide) (by decide) (by simp) (by simp) hmask) ?_
  unfold encode
  rw [fmtA_ctl, fmtA_d, fmtA_a]
  rfl

theorem Encoding.errinj (k : Ctl) (ek : BitVec 3) (d : Reg) (a : Reg) :
    Encoding.Statement (.errinj k ek d a) := by
  intro hw _
  obtain ⟨hmask, h0⟩ := fn55 ek
  have ho : opOf (encode (.errinj k ek d a)) = 0xD5 := fmtA_op _ _ _ _ _ _ _ _
  have hc : clsOf (opOf (encode (.errinj k ek d a))).toNat = some .sys := by rw [ho]; rfl
  refine decode_of _ _ .sys hc ?_ hw
  rw [raw_sys _ hc]
  unfold decodeSys
  rw [ho]
  show (if _ then _ else _) = _
  rw [show encode (.errinj k ek d a) = fmtA 0xD5 k (ek ++ 0#5) d a 0 0 0 from rfl]
  rw [fmtA_fld 5 3 (by decide)]
  rw [h0, if_neg (by intro h; simp only [beq_iff_eq] at h; subst h; revert hw; cases hk : k.ok <;> simp [Instr.wf, hk])]
  refine ifZero_of _ _ _ _ (fmtA_mask _ _ _ _ _ _ _ _ _ (by decide) (by decide) (by decide) (by decide) (by simp) (by simp) hmask) ?_
  rw [fmtA_ctl, fmtA_d, fmtA_a]
  rfl

theorem Encoding.errinjDisarm (k : Ctl) (d : Reg) :
    Encoding.Statement (.errinjDisarm k d) := by
  intro hw _
  have hmask := fn56
  have ho : opOf (encode (.errinjDisarm k d)) = 0xD5 := fmtA_op _ _ _ _ _ _ _ _
  have hc : clsOf (opOf (encode (.errinjDisarm k d))).toNat = some .sys := by rw [ho]; rfl
  refine decode_of _ _ .sys hc ?_ hw
  rw [raw_sys _ hc]
  unfold decodeSys
  rw [ho]
  show (if _ then _ else _) = _
  rw [show encode (.errinjDisarm k d) = fmtA 0xD5 k (6#3 ++ 0#5) d 0 0 0 0 from rfl]
  rw [fmtA_fld 5 3 (by decide)]
  rw [if_pos (by decide)]
  refine ifZero_of _ _ _ _ (fmtA_mask _ _ _ _ _ _ _ _ _ (by decide) (by decide) (by decide) (by decide) (by decide) (by simp) hmask) ?_
  rw [fmtA_ctl, fmtA_d]
  rfl

theorem Encoding.psplit (k : Ctl) (ps : BitVec 2) (d : Reg) (a : Reg) (b : Reg) :
    Encoding.Statement (.psplit k ps d a b) := by
  intro hw _
  obtain ⟨hmask, h0⟩ := fn57 ps
  have ho : opOf (encode (.psplit k ps d a b)) = 0xD6 := fmtA_op _ _ _ _ _ _ _ _
  have hc : clsOf (opOf (encode (.psplit k ps d a b))).toNat = some .sys := by rw [ho]; rfl
  refine decode_of _ _ .sys hc ?_ hw
  rw [raw_sys _ hc]
  unfold decodeSys
  rw [ho]
  refine ifZero_of _ _ _ _ (fmtA_mask _ _ _ _ _ _ _ _ _ (by decide) (by decide) (by decide) (by simp) (by simp) (by simp) hmask) ?_
  unfold encode
  rw [fmtA_ctl, (fmtA_fld 0 2 (by decide)).trans h0, fmtA_d, fmtA_a, fmtA_b]
  rfl

theorem Encoding.haltg (k : Ctl) (d : Reg) (a : Reg) (b : Reg) :
    Encoding.Statement (.haltg k d a b) := by
  intro hw _
  have hmask := fn1
  have ho : opOf (encode (.haltg k d a b)) = 0xD7 := fmtA_op _ _ _ _ _ _ _ _
  have hc : clsOf (opOf (encode (.haltg k d a b))).toNat = some .sys := by rw [ho]; rfl
  refine decode_of _ _ .sys hc ?_ hw
  rw [raw_sys _ hc]
  unfold decodeSys
  rw [ho]
  refine ifZero_of _ _ _ _ (fmtA_mask _ _ _ _ _ _ _ _ _ (by decide) (by decide) (by decide) (by simp) (by simp) (by simp) hmask) ?_
  unfold encode
  rw [fmtA_ctl, fmtA_d, fmtA_a, fmtA_b]
  rfl

theorem Encoding.resumeg (k : Ctl) (d : Reg) (a : Reg) (b : Reg) :
    Encoding.Statement (.resumeg k d a b) := by
  intro hw _
  have hmask := fn1
  have ho : opOf (encode (.resumeg k d a b)) = 0xD8 := fmtA_op _ _ _ _ _ _ _ _
  have hc : clsOf (opOf (encode (.resumeg k d a b))).toNat = some .sys := by rw [ho]; rfl
  refine decode_of _ _ .sys hc ?_ hw
  rw [raw_sys _ hc]
  unfold decodeSys
  rw [ho]
  refine ifZero_of _ _ _ _ (fmtA_mask _ _ _ _ _ _ _ _ _ (by decide) (by decide) (by decide) (by simp) (by simp) (by simp) hmask) ?_
  unfold encode
  rw [fmtA_ctl, fmtA_d, fmtA_a, fmtA_b]
  rfl

theorem Encoding.kseqNew (k : Ctl) (d : Reg) (a : Reg) :
    Encoding.Statement (.kseqNew k d a) := by
  intro hw _
  have hmask := fn58
  have ho : opOf (encode (.kseqNew k d a)) = 0xE0 := fmtA_op _ _ _ _ _ _ _ _
  have hc : clsOf (opOf (encode (.kseqNew k d a))).toNat = some .pool := by rw [ho]; rfl
  refine decode_of _ _ .pool hc ?_ hw
  rw [raw_pool _ hc]
  unfold decodePool
  rw [ho]
  show (if _ then _ else _) = _
  rw [show encode (.kseqNew k d a) = fmtA 0xE0 k (0#3 ++ 0#5) d a 0 0 0 from rfl]
  rw [fmtA_fld 5 3 (by decide)]
  rw [if_pos (by decide)]
  refine ifZero_of _ _ _ _ (fmtA_mask _ _ _ _ _ _ _ _ _ (by decide) (by decide) (by decide) (by decide) (by simp) (by simp) hmask) ?_
  rw [fmtA_ctl, fmtA_d, fmtA_a]
  rfl

theorem Encoding.kseqFree (k : Ctl) (d : Reg) (a : Reg) :
    Encoding.Statement (.kseqFree k d a) := by
  intro hw _
  have hmask := fn59
  have ho : opOf (encode (.kseqFree k d a)) = 0xE0 := fmtA_op _ _ _ _ _ _ _ _
  have hc : clsOf (opOf (encode (.kseqFree k d a))).toNat = some .pool := by rw [ho]; rfl
  refine decode_of _ _ .pool hc ?_ hw
  rw [raw_pool _ hc]
  unfold decodePool
  rw [ho]
  show (if _ then _ else _) = _
  rw [show encode (.kseqFree k d a) = fmtA 0xE0 k (1#3 ++ 0#5) d a 0 0 0 from rfl]
  rw [fmtA_fld 5 3 (by decide)]
  rw [if_neg (by decide)]
  rw [if_pos (by decide)]
  refine ifZero_of _ _ _ _ (fmtA_mask _ _ _ _ _ _ _ _ _ (by decide) (by decide) (by decide) (by decide) (by simp) (by simp) hmask) ?_
  rw [fmtA_ctl, fmtA_d, fmtA_a]
  rfl

theorem Encoding.kseqPfree (k : Ctl) (d : Reg) (a : Reg) :
    Encoding.Statement (.kseqPfree k d a) := by
  intro hw _
  have hmask := fn60
  have ho : opOf (encode (.kseqPfree k d a)) = 0xE0 := fmtA_op _ _ _ _ _ _ _ _
  have hc : clsOf (opOf (encode (.kseqPfree k d a))).toNat = some .pool := by rw [ho]; rfl
  refine decode_of _ _ .pool hc ?_ hw
  rw [raw_pool _ hc]
  unfold decodePool
  rw [ho]
  show (if _ then _ else _) = _
  rw [show encode (.kseqPfree k d a) = fmtA 0xE0 k (3#3 ++ 0#5) d a 0 0 0 from rfl]
  rw [fmtA_fld 5 3 (by decide)]
  rw [if_neg (by decide)]
  rw [if_neg (by decide)]
  rw [if_pos (by decide)]
  refine ifZero_of _ _ _ _ (fmtA_mask _ _ _ _ _ _ _ _ _ (by decide) (by decide) (by decide) (by decide) (by simp) (by simp) hmask) ?_
  rw [fmtA_ctl, fmtA_d, fmtA_a]
  rfl

theorem Encoding.kseqPquery (k : Ctl) (d : Reg) (a : Reg) :
    Encoding.Statement (.kseqPquery k d a) := by
  intro hw _
  have hmask := fn61
  have ho : opOf (encode (.kseqPquery k d a)) = 0xE0 := fmtA_op _ _ _ _ _ _ _ _
  have hc : clsOf (opOf (encode (.kseqPquery k d a))).toNat = some .pool := by rw [ho]; rfl
  refine decode_of _ _ .pool hc ?_ hw
  rw [raw_pool _ hc]
  unfold decodePool
  rw [ho]
  show (if _ then _ else _) = _
  rw [show encode (.kseqPquery k d a) = fmtA 0xE0 k (4#3 ++ 0#5) d a 0 0 0 from rfl]
  rw [fmtA_fld 5 3 (by decide)]
  rw [if_neg (by decide)]
  rw [if_neg (by decide)]
  rw [if_neg (by decide)]
  rw [if_pos (by decide)]
  refine ifZero_of _ _ _ _ (fmtA_mask _ _ _ _ _ _ _ _ _ (by decide) (by decide) (by decide) (by decide) (by simp) (by simp) hmask) ?_
  rw [fmtA_ctl, fmtA_d, fmtA_a]
  rfl

theorem Encoding.kseqPinit (k : Ctl) (d : Reg) (a : Reg) (b : Reg) :
    Encoding.Statement (.kseqPinit k d a b) := by
  intro hw _
  have hmask := fn62
  have ho : opOf (encode (.kseqPinit k d a b)) = 0xE0 := fmtA_op _ _ _ _ _ _ _ _
  have hc : clsOf (opOf (encode (.kseqPinit k d a b))).toNat = some .pool := by rw [ho]; rfl
  refine decode_of _ _ .pool hc ?_ hw
  rw [raw_pool _ hc]
  unfold decodePool
  rw [ho]
  show (if _ then _ else _) = _
  rw [show encode (.kseqPinit k d a b) = fmtA 0xE0 k (2#3 ++ 0#5) d a b 0 0 from rfl]
  rw [fmtA_fld 5 3 (by decide)]
  rw [if_neg (by decide)]
  rw [if_neg (by decide)]
  rw [if_neg (by decide)]
  rw [if_neg (by decide)]
  rw [if_pos (by decide)]
  refine ifZero_of _ _ _ _ (fmtA_mask _ _ _ _ _ _ _ _ _ (by decide) (by decide) (by decide) (by simp) (by simp) (by simp) hmask) ?_
  rw [fmtA_ctl, fmtA_d, fmtA_a, fmtA_b]
  rfl

theorem Encoding.kalloc (k : Ctl) (cl : Bool) (d : Reg) (a : Reg) (b : Reg) :
    Encoding.Statement (.kalloc k cl d a b) := by
  intro hw _
  obtain ⟨hmask, h0⟩ := fn63 cl
  have ho : opOf (encode (.kalloc k cl d a b)) = 0xE1 := fmtA_op _ _ _ _ _ _ _ _
  have hc : clsOf (opOf (encode (.kalloc k cl d a b))).toNat = some .pool := by rw [ho]; rfl
  refine decode_of _ _ .pool hc ?_ hw
  rw [raw_pool _ hc]
  unfold decodePool
  rw [ho]
  refine ifZero_of _ _ _ _ (fmtA_mask _ _ _ _ _ _ _ _ _ (by decide) (by decide) (by decide) (by simp) (by simp) (by simp) hmask) ?_
  unfold encode
  rw [fmtA_ctl, (fmtA_bit 7 (by decide)).trans h0, fmtA_d, fmtA_a, fmtA_b]
  rfl

theorem Encoding.ktrim (k : Ctl) (d : Reg) (a : Reg) (b : Reg) :
    Encoding.Statement (.ktrim k d a b) := by
  intro hw _
  have hmask := fn1
  have ho : opOf (encode (.ktrim k d a b)) = 0xE2 := fmtA_op _ _ _ _ _ _ _ _
  have hc : clsOf (opOf (encode (.ktrim k d a b))).toNat = some .pool := by rw [ho]; rfl
  refine decode_of _ _ .pool hc ?_ hw
  rw [raw_pool _ hc]
  unfold decodePool
  rw [ho]
  refine ifZero_of _ _ _ _ (fmtA_mask _ _ _ _ _ _ _ _ _ (by decide) (by decide) (by decide) (by simp) (by simp) (by simp) hmask) ?_
  unfold encode
  rw [fmtA_ctl, fmtA_d, fmtA_a, fmtA_b]
  rfl

theorem Encoding.klook (k : Ctl) (d : Reg) (a : Reg) (b : Reg) (x : BitVec 8) :
    Encoding.Statement (.klook k d a b x) := by
  intro hw _
  have hmask := fn1
  have ho : opOf (encode (.klook k d a b x)) = 0xE3 := fmtA_op _ _ _ _ _ _ _ _
  have hc : clsOf (opOf (encode (.klook k d a b x))).toNat = some .pool := by rw [ho]; rfl
  refine decode_of _ _ .pool hc ?_ hw
  rw [raw_pool _ hc]
  unfold decodePool
  rw [ho]
  refine ifZero_of _ _ _ _ (fmtA_mask _ _ _ _ _ _ _ _ _ (by decide) (by simp) (by decide) (by simp) (by simp) (by simp) hmask) ?_
  unfold encode
  rw [fmtA_ctl, fmtA_d, fmtA_a, fmtA_b, fmtA_x]
  rfl

theorem Encoding.kfree (k : Ctl) (d : Reg) (a : Reg) (b : Reg) :
    Encoding.Statement (.kfree k d a b) := by
  intro hw _
  have hmask := fn1
  have ho : opOf (encode (.kfree k d a b)) = 0xE4 := fmtA_op _ _ _ _ _ _ _ _
  have hc : clsOf (opOf (encode (.kfree k d a b))).toNat = some .pool := by rw [ho]; rfl
  refine decode_of _ _ .pool hc ?_ hw
  rw [raw_pool _ hc]
  unfold decodePool
  rw [ho]
  refine ifZero_of _ _ _ _ (fmtA_mask _ _ _ _ _ _ _ _ _ (by decide) (by decide) (by decide) (by simp) (by simp) (by simp) hmask) ?_
  unfold encode
  rw [fmtA_ctl, fmtA_d, fmtA_a, fmtA_b]
  rfl

theorem Encoding.gatheringComplete (blk : Nat) (gang : Nat) (lane : Nat) : Encoding.Statement (.gatheringComplete blk gang lane) := by
  intro _ h; exact absurd h Bool.noConfusion

theorem Encoding.claimGrant (blk : Nat) (gang : Nat) : Encoding.Statement (.claimGrant blk gang) := by
  intro _ h; exact absurd h Bool.noConfusion

theorem Encoding.regdead (blk : Nat) : Encoding.Statement (.regdead blk) := by
  intro _ h; exact absurd h Bool.noConfusion

theorem Encoding.napWake (blk : Nat) (gang : Nat) (lane : Nat) : Encoding.Statement (.napWake blk gang lane) := by
  intro _ h; exact absurd h Bool.noConfusion

theorem Encoding.loadResultReturn (id : Nat) : Encoding.Statement (.loadResultReturn id) := by
  intro _ h; exact absurd h Bool.noConfusion

theorem Encoding.walk (core : Nat) (ctx : Nat) (kind : Nat) (va : W64) : Encoding.Statement (.walk core ctx kind va) := by
  intro _ h; exact absurd h Bool.noConfusion

theorem Encoding.copyCommandStart (id : Nat) : Encoding.Statement (.copyCommandStart id) := by
  intro _ h; exact absurd h Bool.noConfusion

theorem Encoding.ringnextSlotTake (id : Nat) : Encoding.Statement (.ringnextSlotTake id) := by
  intro _ h; exact absurd h Bool.noConfusion

theorem Encoding.copyElementLand (id : Nat) (e : Nat) : Encoding.Statement (.copyElementLand id e) := by
  intro _ h; exact absurd h Bool.noConfusion

theorem Encoding.remoteCommand (ctx : Nat) (drec : BitVec 256) (ad : Nat) (elems : List RemoteElem) : Encoding.Statement (.remoteCommand ctx drec ad elems) := by
  intro _ h; exact absurd h Bool.noConfusion

theorem Encoding.remoteTimeout (id : Nat) : Encoding.Statement (.remoteTimeout id) := by
  intro _ h; exact absurd h Bool.noConfusion

theorem Encoding.matrixPass (core : Nat) : Encoding.Statement (.matrixPass core) := by
  intro _ h; exact absurd h Bool.noConfusion

theorem Encoding.drainExecute (id : Nat) : Encoding.Statement (.drainExecute id) := by
  intro _ h; exact absurd h Bool.noConfusion

theorem Encoding.eval (tap : Nat) (row : Nat) : Encoding.Statement (.eval tap row) := by
  intro _ h; exact absurd h Bool.noConfusion

theorem Encoding.watchDelivery (blk : Nat) (gang : Nat) (lane : Nat) : Encoding.Statement (.watchDelivery blk gang lane) := by
  intro _ h; exact absurd h Bool.noConfusion

theorem Encoding.killStop (blk : Nat) (gang : Nat) (lane : Nat) : Encoding.Statement (.killStop blk gang lane) := by
  intro _ h; exact absurd h Bool.noConfusion

theorem Encoding.scackComplete (ctx : Nat) (scope : Nat) : Encoding.Statement (.scackComplete ctx scope) := by
  intro _ h; exact absurd h Bool.noConfusion

theorem Encoding.blockLaunch (ctx : Nat) (serial : Nat) (cores : List Nat) : Encoding.Statement (.blockLaunch ctx serial cores) := by
  intro _ h; exact absurd h Bool.noConfusion

theorem Encoding.bundleDraw (bin : Nat) (aged : Bool) : Encoding.Statement (.bundleDraw bin aged) := by
  intro _ h; exact absurd h Bool.noConfusion

theorem Encoding.arrivalQueueFile (core : Nat) : Encoding.Statement (.arrivalQueueFile core) := by
  intro _ h; exact absurd h Bool.noConfusion

theorem Encoding.clauseBegin (bundle : Nat) : Encoding.Statement (.clauseBegin bundle) := by
  intro _ h; exact absurd h Bool.noConfusion

theorem Encoding.blockRetire (blk : Nat) : Encoding.Statement (.blockRetire blk) := by
  intro _ h; exact absurd h Bool.noConfusion

theorem Encoding.jobComplete (ctx : Nat) (serial : Nat) : Encoding.Statement (.jobComplete ctx serial) := by
  intro _ h; exact absurd h Bool.noConfusion

theorem Encoding.save (blk : Nat) : Encoding.Statement (.save blk) := by
  intro _ h; exact absurd h Bool.noConfusion

theorem Encoding.restore (ticket : Nat) (cores : List Nat) : Encoding.Statement (.restore ticket cores) := by
  intro _ h; exact absurd h Bool.noConfusion

theorem Encoding.engineReplyReturn (id : Nat) : Encoding.Statement (.engineReplyReturn id) := by
  intro _ h; exact absurd h Bool.noConfusion

theorem Encoding.wdog (ctx : Nat) (scope : Nat) : Encoding.Statement (.wdog ctx scope) := by
  intro _ h; exact absurd h Bool.noConfusion

theorem Encoding.powerEstimate (mean : Nat) (shares : List Share) : Encoding.Statement (.powerEstimate mean shares) := by
  intro _ h; exact absurd h Bool.noConfusion

theorem Encoding.thermalTrip (island : Nat) : Encoding.Statement (.thermalTrip island) := by
  intro _ h; exact absurd h Bool.noConfusion

theorem Encoding.thermalRecover (island : Nat) : Encoding.Statement (.thermalRecover island) := by
  intro _ h; exact absurd h Bool.noConfusion

theorem Encoding.unitDegrade (unit : DegradedUnit) : Encoding.Statement (.unitDegrade unit) := by
  intro _ h; exact absurd h Bool.noConfusion

theorem Encoding.checkpoint (blk : Nat) : Encoding.Statement (.checkpoint blk) := by
  intro _ h; exact absurd h Bool.noConfusion

theorem Encoding.rollback (blk : Nat) : Encoding.Statement (.rollback blk) := by
  intro _ h; exact absurd h Bool.noConfusion

theorem Encoding.contextLoss (ctx : Nat) : Encoding.Statement (.contextLoss ctx) := by
  intro _ h; exact absurd h Bool.noConfusion

theorem Encoding.warmReset (implicated : List Nat) : Encoding.Statement (.warmReset implicated) := by
  intro _ h; exact absurd h Bool.noConfusion

theorem Encoding.scrub (found : ScrubFinding) : Encoding.Statement (.scrub found) := by
  intro _ h; exact absurd h Bool.noConfusion

theorem Encoding.queueEntryTake (q : Nat) : Encoding.Statement (.queueEntryTake q) := by
  intro _ h; exact absurd h Bool.noConfusion

theorem Encoding.qtail (q : Nat) (v : W32) : Encoding.Statement (.qtail q v) := by
  intro _ h; exact absurd h Bool.noConfusion

theorem Encoding.qsize (q : Nat) (v : W32) : Encoding.Statement (.qsize q v) := by
  intro _ h; exact absurd h Bool.noConfusion

theorem Encoding.qstate (q : Nat) (v : W32) : Encoding.Statement (.qstate q v) := by
  intro _ h; exact absurd h Bool.noConfusion

theorem Encoding.nsize (q : Nat) (v : W32) : Encoding.Statement (.nsize q v) := by
  intro _ h; exact absurd h Bool.noConfusion

theorem Encoding.nhead (q : Nat) (v : W32) : Encoding.Statement (.nhead q v) := by
  intro _ h; exact absurd h Bool.noConfusion

theorem Encoding.queueRegisterWrite (q : Nat) (off : Nat) (v : W64) : Encoding.Statement (.queueRegisterWrite q off v) := by
  intro _ h; exact absurd h Bool.noConfusion

theorem Encoding.notificationWrite (q : Nat) : Encoding.Statement (.notificationWrite q) := by
  intro _ h; exact absurd h Bool.noConfusion

theorem Encoding.plimit (v : W32) : Encoding.Statement (.plimit v) := by
  intro _ h; exact absurd h Bool.noConfusion

theorem Encoding.attestationReport (nonce : BitVec 512) : Encoding.Statement (.attestationReport nonce) := by
  intro _ h; exact absurd h Bool.noConfusion

theorem Encoding.hostMeasurement (mr : Nat) (digest : BitVec 512) : Encoding.Statement (.hostMeasurement mr digest) := by
  intro _ h; exact absurd h Bool.noConfusion

theorem Encoding.storePerformed (id : Nat) : Encoding.Statement (.storePerformed id) := by
  intro _ h; exact absurd h Bool.noConfusion

theorem Encoding.atomicReply (id : Nat) : Encoding.Statement (.atomicReply id) := by
  intro _ h; exact absurd h Bool.noConfusion

theorem Encoding.remoteAcknowledgement (id : Nat) : Encoding.Statement (.remoteAcknowledgement id) := by
  intro _ h; exact absurd h Bool.noConfusion

theorem Encoding.hostDeviceMemoryAccess (acc : HostAccess) : Encoding.Statement (.hostDeviceMemoryAccess acc) := by
  intro _ h; exact absurd h Bool.noConfusion

theorem Encoding.saveCopyBound (blk : Nat) : Encoding.Statement (.saveCopyBound blk) := by
  intro _ h; exact absurd h Bool.noConfusion

theorem Encoding.walkRoutineLoad (base : Nat) (image : List Byte) : Encoding.Statement (.walkRoutineLoad base image) := by
  intro _ h; exact absurd h Bool.noConfusion

theorem Encoding.trapEntryWrite : Encoding.Statement .trapEntryWrite := by
  intro _ h; exact absurd h Bool.noConfusion

theorem Encoding.heartbeatTick : Encoding.Statement .heartbeatTick := by
  intro _ h; exact absurd h Bool.noConfusion

theorem Encoding.scfenceRelease : Encoding.Statement .scfenceRelease := by
  intro _ h; exact absurd h Bool.noConfusion

theorem Encoding.periodBoundary : Encoding.Statement .periodBoundary := by
  intro _ h; exact absurd h Bool.noConfusion

theorem Encoding.coldReset : Encoding.Statement .coldReset := by
  intro _ h; exact absurd h Bool.noConfusion

end Sys2Proof.Laws
end

