-- ==== Sys2Proof/Laws/Shared.lean ====
section
/-! SUPPORT. What the shared operations do with nothing in their way: the checks by lane, barrier references, the small
matrix operations, mask tiles, pool requests, and stores to global memory. -/

namespace Sys2Proof.Machine

/-- A check by lane that no lane fails raises nothing. -/
theorem lane1_none (xs : List Lane) (f : Lane → Option Flt) (h : ∀ x ∈ xs, f x = none) : lane1 xs f = [] := by
  unfold lane1; rw [List.filterMap_eq_nil_iff]; intro x hx; simp [h x hx]

/-- A barrier instruction whose references pass and whose objects do not refuse has its effect. -/
theorem barOp_ready {s : State} {op : Nat} {k : Ctl} {g : Bool} {src dst : List RG} {a : Reg} {q : Bundle} {c : Clause} {b : Block}
    (h : Ready s op k ((if g then r64 a else r32 a) :: src) dst [] q c b)
    (bad : State → Lane → BarRef → W64 → Option Flt) (eff : Iss → State → List (Lane × BarRef × W64) → State)
    (h1 : (barRefs (issued s) (issOf s q b op k).cmd g a).1 = [])
    (h2 : ∀ r ∈ (barRefs (issued s) (issOf s q b op k).cmd g a).2.1, bad (barRefs (issued s) (issOf s q b op k).cmd g a).2.2 r.1 r.2.1 r.2.2 = none) :
    barOp op k g src dst a s bad eff = .next (after (issOf s q b op k) (eff (issOf s q b op k)
      (syncIrrevocable (barRefs (issued s) (issOf s q b op k).cmd g a).2.2 b.uid g (!(barRefs (issued s) (issOf s q b op k).cmd g a).2.1.isEmpty))
      (barRefs (issued s) (issOf s q b op k).cmd g a).2.1)) := by
  unfold barOp
  refine issue_done h ?_
  generalize hb : barRefs (issued s) (issOf s q b op k).cmd g a = r at *
  obtain ⟨r1, r2, r3⟩ := r
  simp only at h1 h2
  subst h1
  simp only []
  have : r2.filterMap (fun r => (bad r3 r.1 r.2.1 r.2.2).map (fun f => LaneFlt.mk r.1.t.gang r.1.t.lane f)) = [] := by
    rw [List.filterMap_eq_nil_iff]; intro x hx; simp [h2 x hx]
  rw [this]
  rfl

/-- No lane of a list of reads meets an error: nothing is corrected. -/
theorem correctEach_clean (s : State) (b : Block) (k : Ctl) (op : Nat) (pc : W64) (rs : List (Lane × List RG))
    (hb : getBlock s b.uid = some b) (h : ∀ r ∈ rs, (meets b k r.1 r.2 false).none = true) :
    rs.foldl (fun s r => correctMet s b k op pc [r.1] r.2) s = s := by
  induction rs with
  | nil => rfl
  | cons r t ih =>
    rw [List.foldl_cons, correctMet_clean s b k op pc [r.1] r.2 hb (by simpa using h r (by simp))]
    exact ih fun y hy => h y (by simp [hy])

/-- A small matrix operation is queued for each quarter whose gang has the baton, where no check stops it. -/
theorem mma_ready {s : State} {op : Nat} {f : Fmt} {k : Ctl} {sc rk tr : Bool} {mt : BitVec 3} {a b' c' : Reg} {x : BitVec 8} {q : Bundle} {c : Clause} {b : Block}
    (h : Ready s op k [r32 a] [] [] q c b)
    (h1 : ∀ q' ∈ quarterLanes (issOf s q b op k).cmd, hasBaton (issued s) q'.2 = true ∧ mmaCheck (issued s) (issOf s q b op k) f mt.toNat (q'.2.rd a 32) = none)
    (h2 : sc = true → (∀ l ∈ (issOf s q b op k).all, outOfRange l.g ⟨c', 64⟩ = false) ∧
      (b.protectd = true → pairFaults (issOf s q b op k).all always op [⟨c', 64⟩] = []))
    (h4 : ∀ r ∈ mmaReads (issOf s q b op k) sc rk tr mt b' c' x, ∀ dbl, (meets b always r.1 r.2 dbl).none = true)
    (h3 : ((issued s).mops.filter (fun m => m.core == (issOf s q b op k).b.core && mopHere (issued s) m && m.kind.isSmall)).length + (quarterLanes (issOf s q b op k).cmd).length ≤ 64) :
    mma op f k sc rk tr mt a b' c' x s = .next (after (issOf s q b op k) ((quarterLanes (issOf s q b op k).cmd).foldl (fun s' q' =>
        let w := q'.2.rd a 32
        let sreg (r : Nat) : W64 := BitVec.ofNat 64 (q'.2.s (r - 192))
        (addMop s' q'.2 (issOf s q b op k).pc (.small
          { fmt := f, aslot := natBits w 0 6, bslot := natBits w 8 6, acc := natBits w 16 4,
            rows := if rk then some (sreg b'.toNat) else none, tri := tr, mt := mt.toNat,
            s1 := if tr || mt != 0 then sreg x.toNat else 0, s2 := if tr || mt != 0 then sreg (x.toNat + 1) else 0,
            scales := if sc then some (quarterScales (issOf s q b op k) c' q'.1) else none, flip := false })).2) (issued s))) := by
  have e1 : mmaFaults (issued s) (issOf s q b op k) f sc mt.toNat a c' = [] := by
    unfold mmaFaults
    have hb := filter_none (quarterLanes (issOf s q b op k).cmd) (fun q' => !hasBaton (issued s) q'.2) (fun y hy => by simp [(h1 y hy).1])
    have hr : (if sc then ((issOf s q b op k).all.filter (fun l => outOfRange l.g ⟨c', 64⟩)).map
        (fun l => LaneFlt.mk l.t.gang l.t.lane { cause := 0x16 }) else []) = [] := by
      split
      · rw [filter_none _ _ (h2 ‹_›).1]; rfl
      · rfl
    have hw : (quarterLanes (issOf s q b op k).cmd).filterMap (fun q' => (mmaCheck (issued s) (issOf s q b op k) f mt.toNat
        (q'.2.rd a 32)).map (fun e => LaneFlt.mk q'.2.t.gang q'.2.t.lane e)) = [] := by
      rw [List.filterMap_eq_nil_iff]; intro y hy; simp [(h1 y hy).2]
    dsimp only
    rw [hb, hr, hw]
    rfl
  have e2 : mmaErrors (issOf s q b op k) sc c' (mmaReads (issOf s q b op k) sc rk tr mt b' c' x) = [] := by
    unfold mmaErrors
    have hp : (if (issOf s q b op k).b.protectd && sc && !(issOf s q b op k).cmd.isEmpty then
        pairFaults (issOf s q b op k).all always (issOf s q b op k).op [⟨c', 64⟩] else []) = [] := by
      split
      · rename_i hc
        simp only [Bool.and_eq_true] at hc
        exact (h2 hc.1.2).2 hc.1.1
      · rfl
    rw [hp, filter_none _ _ (fun r hr => by simp only [Bool.not_eq_false']; exact h4 r hr true)]
    rfl
  have e3 := correctEach_clean (issued s) b always op (issOf s q b op k).pc (mmaReads (issOf s q b op k) sc rk tr mt b' c' x)
    (by rw [getBlock_uid h.block]; exact h.block) (fun r hr => h4 r hr false)
  refine issue_done h ?_
  dsimp only
  rw [e1, e2, if_neg (by simp), if_neg (by simp), if_neg (Nat.not_lt.2 h3)]
  refine congrArg IOut.done (congrArg (fun u => List.foldl _ u _) e3)

/-- A mask tile that is held, whose bytes lie in the scratchpad and pass their checks, is loaded without a fault. -/
theorem maskCheck_none (j : Iss) (x : Lane) (pa : Bool) (t : Nat) (a b : Reg) (s : State)
    (h1 : unitHeld s j.b.uid 2 t = true) (h2 : maskBounds j x pa a b = false)
    (h3 : (List.range (if pa then x.rd b 32 else 512)).findSome? (fun n => scratchChecks s x listRec (x.rd a 32 + n) 1 plainRead j.no) = none)
    (h5 : errsAt x.b (scratchWord (x.rd a 32) (if pa then x.rd b 32 else 512)) true = [])
    (h4 : pa = true → badParent ((readScratch s j.b.uid (x.rd a 32) (if pa then x.rd b 32 else 512)).map BitVec.toNat) (if pa then x.rd b 32 else 512) = none) :
    maskCheck j x pa t a b s = none := by
  unfold maskCheck
  dsimp only
  have he : scratchEcc x.b (x.rd a 32) (if pa then x.rd b 32 else 512) plainRead = none := by
    simp [scratchEcc, h5, plainRead]
  rw [h1, h2, h3, he]
  simp only [Bool.not_true, Bool.false_eq_true, if_false, Option.none_or]
  cases pa
  · rfl
  · have := h4 rfl
    simp only [if_true] at this ⊢
    rw [this]; rfl

/-- Each commanding lane makes its request. -/
theorem poolEach_ready {s : State} {op : Nat} {k : Ctl} {src : List RG} {d : Reg} {w : Nat} {q : Bundle} {c : Clause} {b : Block}
    (h : Ready s op k src [⟨d, w / 32⟩] [] q c b) (ch : Bool) (pred : Option Nat) (f : Lane → PoolOp) :
    poolEach op k src d w ch pred f s = .next (after (issOf s q b op k) (poolIssue (issOf s q b op k) d w ch pred f (issued s))) :=
  issue_done h rfl

/-! ### Scopes -/

/-- A scope lies in a subtree where, within the bound, parents lead from it to the root, which is in use. -/
theorem inSubtree_iff (s : State) (ctx root f : Nat) : ∀ id,
    inSubtree s ctx root f id = true ↔ (getScope s ctx root).isSome = true ∧ ∃ n, n < f ∧
      (fun o : Option Nat => o.bind fun k => if k = 0 then none else (getScope s ctx k).map Scope.parent)^[n] (some id) =
        some root := by
  generalize hu : (fun o : Option Nat => o.bind fun k => if k = 0 then none else (getScope s ctx k).map Scope.parent) = up
  have out (n : Nat) : up^[n] none = none := by
    induction n with
    | zero => rfl
    | succ n ih => rw [Function.iterate_succ_apply, show up none = none by rw [← hu]; rfl, ih]
  induction f with
  | zero => simp [inSubtree]
  | succ f ih =>
    intro id
    unfold inSubtree
    by_cases h : id = root
    · subst h
      simp only [if_true]
      exact ⟨fun h => ⟨h, 0, by omega, rfl⟩, And.left⟩
    · have one : up (some id) = if id = 0 then none else (getScope s ctx id).map Scope.parent := by rw [← hu]; rfl
      simp only [h, if_false]
      constructor
      · intro hs
        cases hg : getScope s ctx id with
        | none => simp [hg] at hs
        | some x =>
          simp only [hg, Bool.and_eq_true, bne_iff_ne, ne_eq] at hs
          obtain ⟨hr, n, hn, hi⟩ := (ih x.parent).1 hs.2
          refine ⟨hr, n + 1, by omega, ?_⟩
          rw [Function.iterate_succ_apply, one, if_neg hs.1, hg]
          exact hi
      · rintro ⟨hr, n, hn, hi⟩
        cases n with
        | zero => exact absurd (Option.some.inj hi) h
        | succ n =>
          rw [Function.iterate_succ_apply, one] at hi
          by_cases h0 : id = 0
          · rw [if_pos h0, out] at hi; cases hi
          · cases hg : getScope s ctx id with
            | none => rw [if_neg h0, hg, Option.map_none, out] at hi; cases hi
            | some x =>
              rw [if_neg h0, hg, Option.map_some] at hi
              simpa [h0] using (ih x.parent).2 ⟨hr, n, by omega, hi⟩

/-! ### Stores to global memory -/

/-- No watched region, no trace record. -/
theorem traceStore_unwatched (s : State) (blk gang lane pa : Nat) (bs : List Byte) (i : StoreInfo)
    (h : ∀ b c, getBlock s blk = some b → getCtx s b.ctx = some c → ∀ va, watched c va = false) :
    traceStore s blk gang lane pa bs i = s := by
  unfold traceStore
  split
  · rfl
  · rename_i b hb
    split
    · rfl
    · rename_i c hc
      simp [h b c hb hc]

theorem keepBits_length (keep : Nat) (old new : List Byte) : (keepBits keep old new).length = new.length := by
  unfold keepBits; split <;> simp

@[simp] theorem keepBits_zero (old new : List Byte) : keepBits 0 old new = new := rfl

theorem readByte_beforeStore (s : State) (blk n pa a : Nat) : readByte (dirtyLine (spendBytes s blk n) blk pa) a = readByte s a := by
  unfold dirtyLine spendBytes; repeat' split
  all_goals rfl

theorem readScratch_beforeStore (s : State) (blk n pa b off m : Nat) :
    readScratch (dirtyLine (spendBytes s blk n) blk pa) b off m = readScratch s b off m := by
  unfold dirtyLine spendBytes; repeat' split
  all_goals rfl

/-- A store to global memory writes its bytes, but for the bits that it keeps, and no other. -/
theorem readByte_storeGlobal (s : State) (blk gang lane pa : Nat) (bs : List Byte) (i : StoreInfo)
    (h : ∀ b c, getBlock s blk = some b → getCtx s b.ctx = some c → ∀ va, watched c va = false) (a : Nat) :
    readByte (storeGlobal s blk gang lane pa bs i) a = if pa ≤ a ∧ a < pa + bs.length
      then (keepBits i.keep (readBytes s pa bs.length) bs).getD (a - pa) 0 else readByte s a := by
  unfold storeGlobal
  dsimp only
  rw [traceStore_unwatched _ _ _ _ _ _ _ h]
  have hl := keepBits_length i.keep (readBytes s pa bs.length) bs
  generalize keepBits i.keep (readBytes s pa bs.length) bs = w at hl ⊢
  rw [← readByte_beforeStore s blk w.length pa a, ← hl, ← Laws.readByte_writeBytes]
  split <;> rfl

/-- A store to global memory leaves scratchpad alone. -/
theorem readScratch_storeGlobal (s : State) (blk gang lane pa : Nat) (bs : List Byte) (i : StoreInfo)
    (h : ∀ b c, getBlock s blk = some b → getCtx s b.ctx = some c → ∀ va, watched c va = false) (b off n : Nat) :
    readScratch (storeGlobal s blk gang lane pa bs i) b off n = readScratch s b off n := by
  unfold storeGlobal
  dsimp only
  rw [traceStore_unwatched _ _ _ _ _ _ _ h]
  rw [← readScratch_beforeStore s blk (keepBits i.keep (readBytes s pa bs.length) bs).length pa b off n]
  split <;> rfl

/-- Bytes that read one by one as a list read together as it. -/
theorem readBytes_of (t : State) (pa : Nat) (bs : List Byte)
    (h : ∀ a, pa ≤ a ∧ a < pa + bs.length → readByte t a = bs.getD (a - pa) 0) : readBytes t pa bs.length = bs := by
  apply List.ext_getElem
  · simp [readBytes]
  · intro i h1 h2
    simp only [readBytes, List.getElem_map, List.getElem_range]
    rw [h _ ⟨by omega, by omega⟩]
    simp [List.getD_eq_getElem?_getD, h2]

end Sys2Proof.Machine
end

