-- ==== Sys2Proof/Laws/State.lean ====
section
/-! SUPPORT. The fields of a state after each of its updates, and what a look-up finds after an update. -/

namespace Sys2Proof.Machine

/-! ### Look-ups -/

/-- Mending the elements that a test picks, where the test does not see what is mended, mends what a look-up by the same
test finds. -/
theorem find_updWhere_same {α : Type} (l : List α) (p : α → Bool) (f : α → α) (h : ∀ x, p (f x) = p x) :
    (updWhere l p f).find? p = (l.find? p).map f := by
  induction l with
  | nil => rfl
  | cons x t ih =>
    simp only [updWhere, List.map_cons, List.find?_cons] at ih ⊢
    by_cases hp : p x = true
    · simp [hp, h]
    · simp [hp, ih]

/-- It leaves alone what a look-up by a test finds that picks none of them. -/
theorem find_updWhere_other {α : Type} (l : List α) (p q : α → Bool) (f : α → α) (hq : ∀ x, q (f x) = q x)
    (h : ∀ x, p x = true → q x = false) : (updWhere l p f).find? q = l.find? q := by
  induction l with
  | nil => rfl
  | cons x t ih =>
    simp only [updWhere, List.map_cons, List.find?_cons] at ih ⊢
    by_cases hp : p x = true
    · simp [hp, hq, h x hp, ih]
    · simp [hp, ih]

theorem getThread_modThread (s : State) (b g l : Nat) (f : Thread → Thread) (h : ∀ t, (f t).is b g l = t.is b g l) :
    getThread (modThread s b g l f) b g l = (getThread s b g l).map f := find_updWhere_same _ _ _ h
theorem getThread_modThread_other (s : State) (b g l b' g' l' : Nat) (f : Thread → Thread)
    (h : ∀ t, (f t).is b' g' l' = t.is b' g' l') (hn : (b, g, l) ≠ (b', g', l')) :
    getThread (modThread s b g l f) b' g' l' = getThread s b' g' l' := by
  refine find_updWhere_other _ _ _ _ h fun t ht => ?_
  simp only [Thread.is, Bool.and_eq_true, beq_iff_eq, Bool.and_eq_false_iff, beq_eq_false_iff_ne] at ht ⊢
  obtain ⟨⟨rfl, rfl⟩, rfl⟩ := ht
  simp only [ne_eq, Prod.mk.injEq, Classical.not_and_iff_not_or_not] at hn
  omega
theorem getGang_modGang (s : State) (b g : Nat) (f : Gang → Gang)
    (h : ∀ x, ((f x).blk == b && (f x).num == g) = (x.blk == b && x.num == g)) :
    getGang (modGang s b g f) b g = (getGang s b g).map f := find_updWhere_same _ _ _ h
theorem getBlock_modBlock (s : State) (b : Nat) (f : Block → Block) (h : ∀ x, ((f x).uid == b) = (x.uid == b)) :
    getBlock (modBlock s b f) b = (getBlock s b).map f := find_updWhere_same _ _ _ h
theorem getBlock_modBlock_other (s : State) (b b' : Nat) (f : Block → Block) (h : ∀ x, ((f x).uid == b') = (x.uid == b'))
    (hn : b ≠ b') : getBlock (modBlock s b f) b' = getBlock s b' := by
  refine find_updWhere_other _ _ _ _ h fun x hx => ?_
  simp only [beq_iff_eq] at hx
  simp [hx, hn]
theorem getBundle_modBundle (s : State) (i : Nat) (f : Bundle → Bundle) (h : ∀ x, ((f x).id == i) = (x.id == i)) :
    getBundle (modBundle s i f) i = (getBundle s i).map f := find_updWhere_same _ _ _ h
theorem getCtx_modCtx (s : State) (c : Nat) (f : Ctx → Ctx) (h : ∀ x, ((f x).id == c) = (x.id == c)) :
    getCtx (modCtx s c f) c = (getCtx s c).map f := find_updWhere_same _ _ _ h

/-! ### modThread: every field but threads stays -/

@[simp] theorem modThread_agenda (s : State) (b g l : Nat) (f : Thread → Thread) : (modThread s b g l f).agenda = s.agenda := rfl
@[simp] theorem modThread_cur (s : State) (b g l : Nat) (f : Thread → Thread) : (modThread s b g l f).cur = s.cur := rfl
@[simp] theorem modThread_nextId (s : State) (b g l : Nat) (f : Thread → Thread) : (modThread s b g l f).nextId = s.nextId := rfl
@[simp] theorem modThread_issueNo (s : State) (b g l : Nat) (f : Thread → Thread) : (modThread s b g l f).issueNo = s.issueNo := rfl
@[simp] theorem modThread_free (s : State) (b g l : Nat) (f : Thread → Thread) : (modThread s b g l f).free = s.free := rfl
@[simp] theorem modThread_gangs (s : State) (b g l : Nat) (f : Thread → Thread) : (modThread s b g l f).gangs = s.gangs := rfl
@[simp] theorem modThread_blocks (s : State) (b g l : Nat) (f : Thread → Thread) : (modThread s b g l f).blocks = s.blocks := rfl
@[simp] theorem modThread_bundles (s : State) (b g l : Nat) (f : Thread → Thread) : (modThread s b g l f).bundles = s.bundles := rfl
@[simp] theorem modThread_bins (s : State) (b g l : Nat) (f : Thread → Thread) : (modThread s b g l f).bins = s.bins := rfl
@[simp] theorem modThread_arrivals (s : State) (b g l : Nat) (f : Thread → Thread) : (modThread s b g l f).arrivals = s.arrivals := rfl
@[simp] theorem modThread_outst (s : State) (b g l : Nat) (f : Thread → Thread) : (modThread s b g l f).outst = s.outst := rfl
@[simp] theorem modThread_cycle (s : State) (b g l : Nat) (f : Thread → Thread) : (modThread s b g l f).cycle = s.cycle := rfl
@[simp] theorem modThread_claims (s : State) (b g l : Nat) (f : Thread → Thread) : (modThread s b g l f).claims = s.claims := rfl
@[simp] theorem modThread_bars (s : State) (b g l : Nat) (f : Thread → Thread) : (modThread s b g l f).bars = s.bars := rfl
@[simp] theorem modThread_rings (s : State) (b g l : Nat) (f : Thread → Thread) : (modThread s b g l f).rings = s.rings := rfl
@[simp] theorem modThread_copies (s : State) (b g l : Nat) (f : Thread → Thread) : (modThread s b g l f).copies = s.copies := rfl
@[simp] theorem modThread_accs (s : State) (b g l : Nat) (f : Thread → Thread) : (modThread s b g l f).accs = s.accs := rfl
@[simp] theorem modThread_opslots (s : State) (b g l : Nat) (f : Thread → Thread) : (modThread s b g l f).opslots = s.opslots := rfl
@[simp] theorem modThread_masks (s : State) (b g l : Nat) (f : Thread → Thread) : (modThread s b g l f).masks = s.masks := rfl
@[simp] theorem modThread_mops (s : State) (b g l : Nat) (f : Thread → Thread) : (modThread s b g l f).mops = s.mops := rfl
@[simp] theorem modThread_batons (s : State) (b g l : Nat) (f : Thread → Thread) : (modThread s b g l f).batons = s.batons := rfl
@[simp] theorem modThread_tapins (s : State) (b g l : Nat) (f : Thread → Thread) : (modThread s b g l f).tapins = s.tapins := rfl
@[simp] theorem modThread_ruleCopies (s : State) (b g l : Nat) (f : Thread → Thread) : (modThread s b g l f).ruleCopies = s.ruleCopies := rfl
@[simp] theorem modThread_jobs (s : State) (b g l : Nat) (f : Thread → Thread) : (modThread s b g l f).jobs = s.jobs := rfl
@[simp] theorem modThread_killedJobs (s : State) (b g l : Nat) (f : Thread → Thread) : (modThread s b g l f).killedJobs = s.killedJobs := rfl
@[simp] theorem modThread_gone (s : State) (b g l : Nat) (f : Thread → Thread) : (modThread s b g l f).gone = s.gone := rfl
@[simp] theorem modThread_scopes (s : State) (b g l : Nat) (f : Thread → Thread) : (modThread s b g l f).scopes = s.scopes := rfl
@[simp] theorem modThread_conts (s : State) (b g l : Nat) (f : Thread → Thread) : (modThread s b g l f).conts = s.conts := rfl
@[simp] theorem modThread_futs (s : State) (b g l : Nat) (f : Thread → Thread) : (modThread s b g l f).futs = s.futs := rfl
@[simp] theorem modThread_saves (s : State) (b g l : Nat) (f : Thread → Thread) : (modThread s b g l f).saves = s.saves := rfl
@[simp] theorem modThread_entries (s : State) (b g l : Nat) (f : Thread → Thread) : (modThread s b g l f).entries = s.entries := rfl
@[simp] theorem modThread_ckpts (s : State) (b g l : Nat) (f : Thread → Thread) : (modThread s b g l f).ckpts = s.ckpts := rfl
@[simp] theorem modThread_mclog (s : State) (b g l : Nat) (f : Thread → Thread) : (modThread s b g l f).mclog = s.mclog := rfl
@[simp] theorem modThread_ctxs (s : State) (b g l : Nat) (f : Thread → Thread) : (modThread s b g l f).ctxs = s.ctxs := rfl
@[simp] theorem modThread_kqbase (s : State) (b g l : Nat) (f : Thread → Thread) : (modThread s b g l f).kqbase = s.kqbase := rfl
@[simp] theorem modThread_kqsize (s : State) (b g l : Nat) (f : Thread → Thread) : (modThread s b g l f).kqsize = s.kqsize := rfl
@[simp] theorem modThread_kqhead (s : State) (b g l : Nat) (f : Thread → Thread) : (modThread s b g l f).kqhead = s.kqhead := rfl
@[simp] theorem modThread_kqtail (s : State) (b g l : Nat) (f : Thread → Thread) : (modThread s b g l f).kqtail = s.kqtail := rfl
@[simp] theorem modThread_kqfut (s : State) (b g l : Nat) (f : Thread → Thread) : (modThread s b g l f).kqfut = s.kqfut := rfl
@[simp] theorem modThread_kqctx (s : State) (b g l : Nat) (f : Thread → Thread) : (modThread s b g l f).kqctx = s.kqctx := rfl
@[simp] theorem modThread_kctx (s : State) (b g l : Nat) (f : Thread → Thread) : (modThread s b g l f).kctx = s.kctx := rfl
@[simp] theorem modThread_heart (s : State) (b g l : Nat) (f : Thread → Thread) : (modThread s b g l f).heart = s.heart := rfl
@[simp] theorem modThread_cfg (s : State) (b g l : Nat) (f : Thread → Thread) : (modThread s b g l f).cfg = s.cfg := rfl
@[simp] theorem modThread_act (s : State) (b g l : Nat) (f : Thread → Thread) : (modThread s b g l f).act = s.act := rfl
@[simp] theorem modThread_tripped (s : State) (b g l : Nat) (f : Thread → Thread) : (modThread s b g l f).tripped = s.tripped := rfl
@[simp] theorem modThread_clocks (s : State) (b g l : Nat) (f : Thread → Thread) : (modThread s b g l f).clocks = s.clocks := rfl
@[simp] theorem modThread_mem (s : State) (b g l : Nat) (f : Thread → Thread) : (modThread s b g l f).mem = s.mem := rfl
@[simp] theorem modThread_poison (s : State) (b g l : Nat) (f : Thread → Thread) : (modThread s b g l f).poison = s.poison := rfl
@[simp] theorem modThread_lineErrs (s : State) (b g l : Nat) (f : Thread → Thread) : (modThread s b g l f).lineErrs = s.lineErrs := rfl
@[simp] theorem modThread_l2 (s : State) (b g l : Nat) (f : Thread → Thread) : (modThread s b g l f).l2 = s.l2 := rfl
@[simp] theorem modThread_hostMem (s : State) (b g l : Nat) (f : Thread → Thread) : (modThread s b g l f).hostMem = s.hostMem := rfl
@[simp] theorem modThread_walkStore (s : State) (b g l : Nat) (f : Thread → Thread) : (modThread s b g l f).walkStore = s.walkStore := rfl
@[simp] theorem modThread_tlb (s : State) (b g l : Nat) (f : Thread → Thread) : (modThread s b g l f).tlb = s.tlb := rfl
@[simp] theorem modThread_gtags (s : State) (b g l : Nat) (f : Thread → Thread) : (modThread s b g l f).gtags = s.gtags := rfl
@[simp] theorem modThread_pools (s : State) (b g l : Nat) (f : Thread → Thread) : (modThread s b g l f).pools = s.pools := rfl
@[simp] theorem modThread_poolReqs (s : State) (b g l : Nat) (f : Thread → Thread) : (modThread s b g l f).poolReqs = s.poolReqs := rfl
@[simp] theorem modThread_queues (s : State) (b g l : Nat) (f : Thread → Thread) : (modThread s b g l f).queues = s.queues := rfl
@[simp] theorem modThread_msix (s : State) (b g l : Nat) (f : Thread → Thread) : (modThread s b g l f).msix = s.msix := rfl
@[simp] theorem modThread_reports (s : State) (b g l : Nat) (f : Thread → Thread) : (modThread s b g l f).reports = s.reports := rfl
@[simp] theorem modThread_aedov (s : State) (b g l : Nat) (f : Thread → Thread) : (modThread s b g l f).aedov = s.aedov := rfl

/-! ### modThreads: every field but threads stays -/

@[simp] theorem modThreads_agenda (s : State) (p : Thread → Bool) (f : Thread → Thread) : (modThreads s p f).agenda = s.agenda := rfl
@[simp] theorem modThreads_cur (s : State) (p : Thread → Bool) (f : Thread → Thread) : (modThreads s p f).cur = s.cur := rfl
@[simp] theorem modThreads_nextId (s : State) (p : Thread → Bool) (f : Thread → Thread) : (modThreads s p f).nextId = s.nextId := rfl
@[simp] theorem modThreads_issueNo (s : State) (p : Thread → Bool) (f : Thread → Thread) : (modThreads s p f).issueNo = s.issueNo := rfl
@[simp] theorem modThreads_free (s : State) (p : Thread → Bool) (f : Thread → Thread) : (modThreads s p f).free = s.free := rfl
@[simp] theorem modThreads_gangs (s : State) (p : Thread → Bool) (f : Thread → Thread) : (modThreads s p f).gangs = s.gangs := rfl
@[simp] theorem modThreads_blocks (s : State) (p : Thread → Bool) (f : Thread → Thread) : (modThreads s p f).blocks = s.blocks := rfl
@[simp] theorem modThreads_bundles (s : State) (p : Thread → Bool) (f : Thread → Thread) : (modThreads s p f).bundles = s.bundles := rfl
@[simp] theorem modThreads_bins (s : State) (p : Thread → Bool) (f : Thread → Thread) : (modThreads s p f).bins = s.bins := rfl
@[simp] theorem modThreads_arrivals (s : State) (p : Thread → Bool) (f : Thread → Thread) : (modThreads s p f).arrivals = s.arrivals := rfl
@[simp] theorem modThreads_outst (s : State) (p : Thread → Bool) (f : Thread → Thread) : (modThreads s p f).outst = s.outst := rfl
@[simp] theorem modThreads_cycle (s : State) (p : Thread → Bool) (f : Thread → Thread) : (modThreads s p f).cycle = s.cycle := rfl
@[simp] theorem modThreads_claims (s : State) (p : Thread → Bool) (f : Thread → Thread) : (modThreads s p f).claims = s.claims := rfl
@[simp] theorem modThreads_bars (s : State) (p : Thread → Bool) (f : Thread → Thread) : (modThreads s p f).bars = s.bars := rfl
@[simp] theorem modThreads_rings (s : State) (p : Thread → Bool) (f : Thread → Thread) : (modThreads s p f).rings = s.rings := rfl
@[simp] theorem modThreads_copies (s : State) (p : Thread → Bool) (f : Thread → Thread) : (modThreads s p f).copies = s.copies := rfl
@[simp] theorem modThreads_accs (s : State) (p : Thread → Bool) (f : Thread → Thread) : (modThreads s p f).accs = s.accs := rfl
@[simp] theorem modThreads_opslots (s : State) (p : Thread → Bool) (f : Thread → Thread) : (modThreads s p f).opslots = s.opslots := rfl
@[simp] theorem modThreads_masks (s : State) (p : Thread → Bool) (f : Thread → Thread) : (modThreads s p f).masks = s.masks := rfl
@[simp] theorem modThreads_mops (s : State) (p : Thread → Bool) (f : Thread → Thread) : (modThreads s p f).mops = s.mops := rfl
@[simp] theorem modThreads_batons (s : State) (p : Thread → Bool) (f : Thread → Thread) : (modThreads s p f).batons = s.batons := rfl
@[simp] theorem modThreads_tapins (s : State) (p : Thread → Bool) (f : Thread → Thread) : (modThreads s p f).tapins = s.tapins := rfl
@[simp] theorem modThreads_ruleCopies (s : State) (p : Thread → Bool) (f : Thread → Thread) : (modThreads s p f).ruleCopies = s.ruleCopies := rfl
@[simp] theorem modThreads_jobs (s : State) (p : Thread → Bool) (f : Thread → Thread) : (modThreads s p f).jobs = s.jobs := rfl
@[simp] theorem modThreads_killedJobs (s : State) (p : Thread → Bool) (f : Thread → Thread) : (modThreads s p f).killedJobs = s.killedJobs := rfl
@[simp] theorem modThreads_gone (s : State) (p : Thread → Bool) (f : Thread → Thread) : (modThreads s p f).gone = s.gone := rfl
@[simp] theorem modThreads_scopes (s : State) (p : Thread → Bool) (f : Thread → Thread) : (modThreads s p f).scopes = s.scopes := rfl
@[simp] theorem modThreads_conts (s : State) (p : Thread → Bool) (f : Thread → Thread) : (modThreads s p f).conts = s.conts := rfl
@[simp] theorem modThreads_futs (s : State) (p : Thread → Bool) (f : Thread → Thread) : (modThreads s p f).futs = s.futs := rfl
@[simp] theorem modThreads_saves (s : State) (p : Thread → Bool) (f : Thread → Thread) : (modThreads s p f).saves = s.saves := rfl
@[simp] theorem modThreads_entries (s : State) (p : Thread → Bool) (f : Thread → Thread) : (modThreads s p f).entries = s.entries := rfl
@[simp] theorem modThreads_ckpts (s : State) (p : Thread → Bool) (f : Thread → Thread) : (modThreads s p f).ckpts = s.ckpts := rfl
@[simp] theorem modThreads_mclog (s : State) (p : Thread → Bool) (f : Thread → Thread) : (modThreads s p f).mclog = s.mclog := rfl
@[simp] theorem modThreads_ctxs (s : State) (p : Thread → Bool) (f : Thread → Thread) : (modThreads s p f).ctxs = s.ctxs := rfl
@[simp] theorem modThreads_kqbase (s : State) (p : Thread → Bool) (f : Thread → Thread) : (modThreads s p f).kqbase = s.kqbase := rfl
@[simp] theorem modThreads_kqsize (s : State) (p : Thread → Bool) (f : Thread → Thread) : (modThreads s p f).kqsize = s.kqsize := rfl
@[simp] theorem modThreads_kqhead (s : State) (p : Thread → Bool) (f : Thread → Thread) : (modThreads s p f).kqhead = s.kqhead := rfl
@[simp] theorem modThreads_kqtail (s : State) (p : Thread → Bool) (f : Thread → Thread) : (modThreads s p f).kqtail = s.kqtail := rfl
@[simp] theorem modThreads_kqfut (s : State) (p : Thread → Bool) (f : Thread → Thread) : (modThreads s p f).kqfut = s.kqfut := rfl
@[simp] theorem modThreads_kqctx (s : State) (p : Thread → Bool) (f : Thread → Thread) : (modThreads s p f).kqctx = s.kqctx := rfl
@[simp] theorem modThreads_kctx (s : State) (p : Thread → Bool) (f : Thread → Thread) : (modThreads s p f).kctx = s.kctx := rfl
@[simp] theorem modThreads_heart (s : State) (p : Thread → Bool) (f : Thread → Thread) : (modThreads s p f).heart = s.heart := rfl
@[simp] theorem modThreads_cfg (s : State) (p : Thread → Bool) (f : Thread → Thread) : (modThreads s p f).cfg = s.cfg := rfl
@[simp] theorem modThreads_act (s : State) (p : Thread → Bool) (f : Thread → Thread) : (modThreads s p f).act = s.act := rfl
@[simp] theorem modThreads_tripped (s : State) (p : Thread → Bool) (f : Thread → Thread) : (modThreads s p f).tripped = s.tripped := rfl
@[simp] theorem modThreads_clocks (s : State) (p : Thread → Bool) (f : Thread → Thread) : (modThreads s p f).clocks = s.clocks := rfl
@[simp] theorem modThreads_mem (s : State) (p : Thread → Bool) (f : Thread → Thread) : (modThreads s p f).mem = s.mem := rfl
@[simp] theorem modThreads_poison (s : State) (p : Thread → Bool) (f : Thread → Thread) : (modThreads s p f).poison = s.poison := rfl
@[simp] theorem modThreads_lineErrs (s : State) (p : Thread → Bool) (f : Thread → Thread) : (modThreads s p f).lineErrs = s.lineErrs := rfl
@[simp] theorem modThreads_l2 (s : State) (p : Thread → Bool) (f : Thread → Thread) : (modThreads s p f).l2 = s.l2 := rfl
@[simp] theorem modThreads_hostMem (s : State) (p : Thread → Bool) (f : Thread → Thread) : (modThreads s p f).hostMem = s.hostMem := rfl
@[simp] theorem modThreads_walkStore (s : State) (p : Thread → Bool) (f : Thread → Thread) : (modThreads s p f).walkStore = s.walkStore := rfl
@[simp] theorem modThreads_tlb (s : State) (p : Thread → Bool) (f : Thread → Thread) : (modThreads s p f).tlb = s.tlb := rfl
@[simp] theorem modThreads_gtags (s : State) (p : Thread → Bool) (f : Thread → Thread) : (modThreads s p f).gtags = s.gtags := rfl
@[simp] theorem modThreads_pools (s : State) (p : Thread → Bool) (f : Thread → Thread) : (modThreads s p f).pools = s.pools := rfl
@[simp] theorem modThreads_poolReqs (s : State) (p : Thread → Bool) (f : Thread → Thread) : (modThreads s p f).poolReqs = s.poolReqs := rfl
@[simp] theorem modThreads_queues (s : State) (p : Thread → Bool) (f : Thread → Thread) : (modThreads s p f).queues = s.queues := rfl
@[simp] theorem modThreads_msix (s : State) (p : Thread → Bool) (f : Thread → Thread) : (modThreads s p f).msix = s.msix := rfl
@[simp] theorem modThreads_reports (s : State) (p : Thread → Bool) (f : Thread → Thread) : (modThreads s p f).reports = s.reports := rfl
@[simp] theorem modThreads_aedov (s : State) (p : Thread → Bool) (f : Thread → Thread) : (modThreads s p f).aedov = s.aedov := rfl

/-! ### modGang: every field but gangs stays -/

@[simp] theorem modGang_agenda (s : State) (b g : Nat) (f : Gang → Gang) : (modGang s b g f).agenda = s.agenda := rfl
@[simp] theorem modGang_cur (s : State) (b g : Nat) (f : Gang → Gang) : (modGang s b g f).cur = s.cur := rfl
@[simp] theorem modGang_nextId (s : State) (b g : Nat) (f : Gang → Gang) : (modGang s b g f).nextId = s.nextId := rfl
@[simp] theorem modGang_issueNo (s : State) (b g : Nat) (f : Gang → Gang) : (modGang s b g f).issueNo = s.issueNo := rfl
@[simp] theorem modGang_free (s : State) (b g : Nat) (f : Gang → Gang) : (modGang s b g f).free = s.free := rfl
@[simp] theorem modGang_threads (s : State) (b g : Nat) (f : Gang → Gang) : (modGang s b g f).threads = s.threads := rfl
@[simp] theorem modGang_blocks (s : State) (b g : Nat) (f : Gang → Gang) : (modGang s b g f).blocks = s.blocks := rfl
@[simp] theorem modGang_bundles (s : State) (b g : Nat) (f : Gang → Gang) : (modGang s b g f).bundles = s.bundles := rfl
@[simp] theorem modGang_bins (s : State) (b g : Nat) (f : Gang → Gang) : (modGang s b g f).bins = s.bins := rfl
@[simp] theorem modGang_arrivals (s : State) (b g : Nat) (f : Gang → Gang) : (modGang s b g f).arrivals = s.arrivals := rfl
@[simp] theorem modGang_outst (s : State) (b g : Nat) (f : Gang → Gang) : (modGang s b g f).outst = s.outst := rfl
@[simp] theorem modGang_cycle (s : State) (b g : Nat) (f : Gang → Gang) : (modGang s b g f).cycle = s.cycle := rfl
@[simp] theorem modGang_claims (s : State) (b g : Nat) (f : Gang → Gang) : (modGang s b g f).claims = s.claims := rfl
@[simp] theorem modGang_bars (s : State) (b g : Nat) (f : Gang → Gang) : (modGang s b g f).bars = s.bars := rfl
@[simp] theorem modGang_rings (s : State) (b g : Nat) (f : Gang → Gang) : (modGang s b g f).rings = s.rings := rfl
@[simp] theorem modGang_copies (s : State) (b g : Nat) (f : Gang → Gang) : (modGang s b g f).copies = s.copies := rfl
@[simp] theorem modGang_accs (s : State) (b g : Nat) (f : Gang → Gang) : (modGang s b g f).accs = s.accs := rfl
@[simp] theorem modGang_opslots (s : State) (b g : Nat) (f : Gang → Gang) : (modGang s b g f).opslots = s.opslots := rfl
@[simp] theorem modGang_masks (s : State) (b g : Nat) (f : Gang → Gang) : (modGang s b g f).masks = s.masks := rfl
@[simp] theorem modGang_mops (s : State) (b g : Nat) (f : Gang → Gang) : (modGang s b g f).mops = s.mops := rfl
@[simp] theorem modGang_batons (s : State) (b g : Nat) (f : Gang → Gang) : (modGang s b g f).batons = s.batons := rfl
@[simp] theorem modGang_tapins (s : State) (b g : Nat) (f : Gang → Gang) : (modGang s b g f).tapins = s.tapins := rfl
@[simp] theorem modGang_ruleCopies (s : State) (b g : Nat) (f : Gang → Gang) : (modGang s b g f).ruleCopies = s.ruleCopies := rfl
@[simp] theorem modGang_jobs (s : State) (b g : Nat) (f : Gang → Gang) : (modGang s b g f).jobs = s.jobs := rfl
@[simp] theorem modGang_killedJobs (s : State) (b g : Nat) (f : Gang → Gang) : (modGang s b g f).killedJobs = s.killedJobs := rfl
@[simp] theorem modGang_gone (s : State) (b g : Nat) (f : Gang → Gang) : (modGang s b g f).gone = s.gone := rfl
@[simp] theorem modGang_scopes (s : State) (b g : Nat) (f : Gang → Gang) : (modGang s b g f).scopes = s.scopes := rfl
@[simp] theorem modGang_conts (s : State) (b g : Nat) (f : Gang → Gang) : (modGang s b g f).conts = s.conts := rfl
@[simp] theorem modGang_futs (s : State) (b g : Nat) (f : Gang → Gang) : (modGang s b g f).futs = s.futs := rfl
@[simp] theorem modGang_saves (s : State) (b g : Nat) (f : Gang → Gang) : (modGang s b g f).saves = s.saves := rfl
@[simp] theorem modGang_entries (s : State) (b g : Nat) (f : Gang → Gang) : (modGang s b g f).entries = s.entries := rfl
@[simp] theorem modGang_ckpts (s : State) (b g : Nat) (f : Gang → Gang) : (modGang s b g f).ckpts = s.ckpts := rfl
@[simp] theorem modGang_mclog (s : State) (b g : Nat) (f : Gang → Gang) : (modGang s b g f).mclog = s.mclog := rfl
@[simp] theorem modGang_ctxs (s : State) (b g : Nat) (f : Gang → Gang) : (modGang s b g f).ctxs = s.ctxs := rfl
@[simp] theorem modGang_kqbase (s : State) (b g : Nat) (f : Gang → Gang) : (modGang s b g f).kqbase = s.kqbase := rfl
@[simp] theorem modGang_kqsize (s : State) (b g : Nat) (f : Gang → Gang) : (modGang s b g f).kqsize = s.kqsize := rfl
@[simp] theorem modGang_kqhead (s : State) (b g : Nat) (f : Gang → Gang) : (modGang s b g f).kqhead = s.kqhead := rfl
@[simp] theorem modGang_kqtail (s : State) (b g : Nat) (f : Gang → Gang) : (modGang s b g f).kqtail = s.kqtail := rfl
@[simp] theorem modGang_kqfut (s : State) (b g : Nat) (f : Gang → Gang) : (modGang s b g f).kqfut = s.kqfut := rfl
@[simp] theorem modGang_kqctx (s : State) (b g : Nat) (f : Gang → Gang) : (modGang s b g f).kqctx = s.kqctx := rfl
@[simp] theorem modGang_kctx (s : State) (b g : Nat) (f : Gang → Gang) : (modGang s b g f).kctx = s.kctx := rfl
@[simp] theorem modGang_heart (s : State) (b g : Nat) (f : Gang → Gang) : (modGang s b g f).heart = s.heart := rfl
@[simp] theorem modGang_cfg (s : State) (b g : Nat) (f : Gang → Gang) : (modGang s b g f).cfg = s.cfg := rfl
@[simp] theorem modGang_act (s : State) (b g : Nat) (f : Gang → Gang) : (modGang s b g f).act = s.act := rfl
@[simp] theorem modGang_tripped (s : State) (b g : Nat) (f : Gang → Gang) : (modGang s b g f).tripped = s.tripped := rfl
@[simp] theorem modGang_clocks (s : State) (b g : Nat) (f : Gang → Gang) : (modGang s b g f).clocks = s.clocks := rfl
@[simp] theorem modGang_mem (s : State) (b g : Nat) (f : Gang → Gang) : (modGang s b g f).mem = s.mem := rfl
@[simp] theorem modGang_poison (s : State) (b g : Nat) (f : Gang → Gang) : (modGang s b g f).poison = s.poison := rfl
@[simp] theorem modGang_lineErrs (s : State) (b g : Nat) (f : Gang → Gang) : (modGang s b g f).lineErrs = s.lineErrs := rfl
@[simp] theorem modGang_l2 (s : State) (b g : Nat) (f : Gang → Gang) : (modGang s b g f).l2 = s.l2 := rfl
@[simp] theorem modGang_hostMem (s : State) (b g : Nat) (f : Gang → Gang) : (modGang s b g f).hostMem = s.hostMem := rfl
@[simp] theorem modGang_walkStore (s : State) (b g : Nat) (f : Gang → Gang) : (modGang s b g f).walkStore = s.walkStore := rfl
@[simp] theorem modGang_tlb (s : State) (b g : Nat) (f : Gang → Gang) : (modGang s b g f).tlb = s.tlb := rfl
@[simp] theorem modGang_gtags (s : State) (b g : Nat) (f : Gang → Gang) : (modGang s b g f).gtags = s.gtags := rfl
@[simp] theorem modGang_pools (s : State) (b g : Nat) (f : Gang → Gang) : (modGang s b g f).pools = s.pools := rfl
@[simp] theorem modGang_poolReqs (s : State) (b g : Nat) (f : Gang → Gang) : (modGang s b g f).poolReqs = s.poolReqs := rfl
@[simp] theorem modGang_queues (s : State) (b g : Nat) (f : Gang → Gang) : (modGang s b g f).queues = s.queues := rfl
@[simp] theorem modGang_msix (s : State) (b g : Nat) (f : Gang → Gang) : (modGang s b g f).msix = s.msix := rfl
@[simp] theorem modGang_reports (s : State) (b g : Nat) (f : Gang → Gang) : (modGang s b g f).reports = s.reports := rfl
@[simp] theorem modGang_aedov (s : State) (b g : Nat) (f : Gang → Gang) : (modGang s b g f).aedov = s.aedov := rfl

/-! ### modBlock: every field but blocks stays -/

@[simp] theorem modBlock_agenda (s : State) (b : Nat) (f : Block → Block) : (modBlock s b f).agenda = s.agenda := rfl
@[simp] theorem modBlock_cur (s : State) (b : Nat) (f : Block → Block) : (modBlock s b f).cur = s.cur := rfl
@[simp] theorem modBlock_nextId (s : State) (b : Nat) (f : Block → Block) : (modBlock s b f).nextId = s.nextId := rfl
@[simp] theorem modBlock_issueNo (s : State) (b : Nat) (f : Block → Block) : (modBlock s b f).issueNo = s.issueNo := rfl
@[simp] theorem modBlock_free (s : State) (b : Nat) (f : Block → Block) : (modBlock s b f).free = s.free := rfl
@[simp] theorem modBlock_threads (s : State) (b : Nat) (f : Block → Block) : (modBlock s b f).threads = s.threads := rfl
@[simp] theorem modBlock_gangs (s : State) (b : Nat) (f : Block → Block) : (modBlock s b f).gangs = s.gangs := rfl
@[simp] theorem modBlock_bundles (s : State) (b : Nat) (f : Block → Block) : (modBlock s b f).bundles = s.bundles := rfl
@[simp] theorem modBlock_bins (s : State) (b : Nat) (f : Block → Block) : (modBlock s b f).bins = s.bins := rfl
@[simp] theorem modBlock_arrivals (s : State) (b : Nat) (f : Block → Block) : (modBlock s b f).arrivals = s.arrivals := rfl
@[simp] theorem modBlock_outst (s : State) (b : Nat) (f : Block → Block) : (modBlock s b f).outst = s.outst := rfl
@[simp] theorem modBlock_cycle (s : State) (b : Nat) (f : Block → Block) : (modBlock s b f).cycle = s.cycle := rfl
@[simp] theorem modBlock_claims (s : State) (b : Nat) (f : Block → Block) : (modBlock s b f).claims = s.claims := rfl
@[simp] theorem modBlock_bars (s : State) (b : Nat) (f : Block → Block) : (modBlock s b f).bars = s.bars := rfl
@[simp] theorem modBlock_rings (s : State) (b : Nat) (f : Block → Block) : (modBlock s b f).rings = s.rings := rfl
@[simp] theorem modBlock_copies (s : State) (b : Nat) (f : Block → Block) : (modBlock s b f).copies = s.copies := rfl
@[simp] theorem modBlock_accs (s : State) (b : Nat) (f : Block → Block) : (modBlock s b f).accs = s.accs := rfl
@[simp] theorem modBlock_opslots (s : State) (b : Nat) (f : Block → Block) : (modBlock s b f).opslots = s.opslots := rfl
@[simp] theorem modBlock_masks (s : State) (b : Nat) (f : Block → Block) : (modBlock s b f).masks = s.masks := rfl
@[simp] theorem modBlock_mops (s : State) (b : Nat) (f : Block → Block) : (modBlock s b f).mops = s.mops := rfl
@[simp] theorem modBlock_batons (s : State) (b : Nat) (f : Block → Block) : (modBlock s b f).batons = s.batons := rfl
@[simp] theorem modBlock_tapins (s : State) (b : Nat) (f : Block → Block) : (modBlock s b f).tapins = s.tapins := rfl
@[simp] theorem modBlock_ruleCopies (s : State) (b : Nat) (f : Block → Block) : (modBlock s b f).ruleCopies = s.ruleCopies := rfl
@[simp] theorem modBlock_jobs (s : State) (b : Nat) (f : Block → Block) : (modBlock s b f).jobs = s.jobs := rfl
@[simp] theorem modBlock_killedJobs (s : State) (b : Nat) (f : Block → Block) : (modBlock s b f).killedJobs = s.killedJobs := rfl
@[simp] theorem modBlock_gone (s : State) (b : Nat) (f : Block → Block) : (modBlock s b f).gone = s.gone := rfl
@[simp] theorem modBlock_scopes (s : State) (b : Nat) (f : Block → Block) : (modBlock s b f).scopes = s.scopes := rfl
@[simp] theorem modBlock_conts (s : State) (b : Nat) (f : Block → Block) : (modBlock s b f).conts = s.conts := rfl
@[simp] theorem modBlock_futs (s : State) (b : Nat) (f : Block → Block) : (modBlock s b f).futs = s.futs := rfl
@[simp] theorem modBlock_saves (s : State) (b : Nat) (f : Block → Block) : (modBlock s b f).saves = s.saves := rfl
@[simp] theorem modBlock_entries (s : State) (b : Nat) (f : Block → Block) : (modBlock s b f).entries = s.entries := rfl
@[simp] theorem modBlock_ckpts (s : State) (b : Nat) (f : Block → Block) : (modBlock s b f).ckpts = s.ckpts := rfl
@[simp] theorem modBlock_mclog (s : State) (b : Nat) (f : Block → Block) : (modBlock s b f).mclog = s.mclog := rfl
@[simp] theorem modBlock_ctxs (s : State) (b : Nat) (f : Block → Block) : (modBlock s b f).ctxs = s.ctxs := rfl
@[simp] theorem modBlock_kqbase (s : State) (b : Nat) (f : Block → Block) : (modBlock s b f).kqbase = s.kqbase := rfl
@[simp] theorem modBlock_kqsize (s : State) (b : Nat) (f : Block → Block) : (modBlock s b f).kqsize = s.kqsize := rfl
@[simp] theorem modBlock_kqhead (s : State) (b : Nat) (f : Block → Block) : (modBlock s b f).kqhead = s.kqhead := rfl
@[simp] theorem modBlock_kqtail (s : State) (b : Nat) (f : Block → Block) : (modBlock s b f).kqtail = s.kqtail := rfl
@[simp] theorem modBlock_kqfut (s : State) (b : Nat) (f : Block → Block) : (modBlock s b f).kqfut = s.kqfut := rfl
@[simp] theorem modBlock_kqctx (s : State) (b : Nat) (f : Block → Block) : (modBlock s b f).kqctx = s.kqctx := rfl
@[simp] theorem modBlock_kctx (s : State) (b : Nat) (f : Block → Block) : (modBlock s b f).kctx = s.kctx := rfl
@[simp] theorem modBlock_heart (s : State) (b : Nat) (f : Block → Block) : (modBlock s b f).heart = s.heart := rfl
@[simp] theorem modBlock_cfg (s : State) (b : Nat) (f : Block → Block) : (modBlock s b f).cfg = s.cfg := rfl
@[simp] theorem modBlock_act (s : State) (b : Nat) (f : Block → Block) : (modBlock s b f).act = s.act := rfl
@[simp] theorem modBlock_tripped (s : State) (b : Nat) (f : Block → Block) : (modBlock s b f).tripped = s.tripped := rfl
@[simp] theorem modBlock_clocks (s : State) (b : Nat) (f : Block → Block) : (modBlock s b f).clocks = s.clocks := rfl
@[simp] theorem modBlock_mem (s : State) (b : Nat) (f : Block → Block) : (modBlock s b f).mem = s.mem := rfl
@[simp] theorem modBlock_poison (s : State) (b : Nat) (f : Block → Block) : (modBlock s b f).poison = s.poison := rfl
@[simp] theorem modBlock_lineErrs (s : State) (b : Nat) (f : Block → Block) : (modBlock s b f).lineErrs = s.lineErrs := rfl
@[simp] theorem modBlock_l2 (s : State) (b : Nat) (f : Block → Block) : (modBlock s b f).l2 = s.l2 := rfl
@[simp] theorem modBlock_hostMem (s : State) (b : Nat) (f : Block → Block) : (modBlock s b f).hostMem = s.hostMem := rfl
@[simp] theorem modBlock_walkStore (s : State) (b : Nat) (f : Block → Block) : (modBlock s b f).walkStore = s.walkStore := rfl
@[simp] theorem modBlock_tlb (s : State) (b : Nat) (f : Block → Block) : (modBlock s b f).tlb = s.tlb := rfl
@[simp] theorem modBlock_gtags (s : State) (b : Nat) (f : Block → Block) : (modBlock s b f).gtags = s.gtags := rfl
@[simp] theorem modBlock_pools (s : State) (b : Nat) (f : Block → Block) : (modBlock s b f).pools = s.pools := rfl
@[simp] theorem modBlock_poolReqs (s : State) (b : Nat) (f : Block → Block) : (modBlock s b f).poolReqs = s.poolReqs := rfl
@[simp] theorem modBlock_queues (s : State) (b : Nat) (f : Block → Block) : (modBlock s b f).queues = s.queues := rfl
@[simp] theorem modBlock_msix (s : State) (b : Nat) (f : Block → Block) : (modBlock s b f).msix = s.msix := rfl
@[simp] theorem modBlock_reports (s : State) (b : Nat) (f : Block → Block) : (modBlock s b f).reports = s.reports := rfl
@[simp] theorem modBlock_aedov (s : State) (b : Nat) (f : Block → Block) : (modBlock s b f).aedov = s.aedov := rfl

/-! ### modBundle: every field but bundles stays -/

@[simp] theorem modBundle_agenda (s : State) (i : Nat) (f : Bundle → Bundle) : (modBundle s i f).agenda = s.agenda := rfl
@[simp] theorem modBundle_cur (s : State) (i : Nat) (f : Bundle → Bundle) : (modBundle s i f).cur = s.cur := rfl
@[simp] theorem modBundle_nextId (s : State) (i : Nat) (f : Bundle → Bundle) : (modBundle s i f).nextId = s.nextId := rfl
@[simp] theorem modBundle_issueNo (s : State) (i : Nat) (f : Bundle → Bundle) : (modBundle s i f).issueNo = s.issueNo := rfl
@[simp] theorem modBundle_free (s : State) (i : Nat) (f : Bundle → Bundle) : (modBundle s i f).free = s.free := rfl
@[simp] theorem modBundle_threads (s : State) (i : Nat) (f : Bundle → Bundle) : (modBundle s i f).threads = s.threads := rfl
@[simp] theorem modBundle_gangs (s : State) (i : Nat) (f : Bundle → Bundle) : (modBundle s i f).gangs = s.gangs := rfl
@[simp] theorem modBundle_blocks (s : State) (i : Nat) (f : Bundle → Bundle) : (modBundle s i f).blocks = s.blocks := rfl
@[simp] theorem modBundle_bins (s : State) (i : Nat) (f : Bundle → Bundle) : (modBundle s i f).bins = s.bins := rfl
@[simp] theorem modBundle_arrivals (s : State) (i : Nat) (f : Bundle → Bundle) : (modBundle s i f).arrivals = s.arrivals := rfl
@[simp] theorem modBundle_outst (s : State) (i : Nat) (f : Bundle → Bundle) : (modBundle s i f).outst = s.outst := rfl
@[simp] theorem modBundle_cycle (s : State) (i : Nat) (f : Bundle → Bundle) : (modBundle s i f).cycle = s.cycle := rfl
@[simp] theorem modBundle_claims (s : State) (i : Nat) (f : Bundle → Bundle) : (modBundle s i f).claims = s.claims := rfl
@[simp] theorem modBundle_bars (s : State) (i : Nat) (f : Bundle → Bundle) : (modBundle s i f).bars = s.bars := rfl
@[simp] theorem modBundle_rings (s : State) (i : Nat) (f : Bundle → Bundle) : (modBundle s i f).rings = s.rings := rfl
@[simp] theorem modBundle_copies (s : State) (i : Nat) (f : Bundle → Bundle) : (modBundle s i f).copies = s.copies := rfl
@[simp] theorem modBundle_accs (s : State) (i : Nat) (f : Bundle → Bundle) : (modBundle s i f).accs = s.accs := rfl
@[simp] theorem modBundle_opslots (s : State) (i : Nat) (f : Bundle → Bundle) : (modBundle s i f).opslots = s.opslots := rfl
@[simp] theorem modBundle_masks (s : State) (i : Nat) (f : Bundle → Bundle) : (modBundle s i f).masks = s.masks := rfl
@[simp] theorem modBundle_mops (s : State) (i : Nat) (f : Bundle → Bundle) : (modBundle s i f).mops = s.mops := rfl
@[simp] theorem modBundle_batons (s : State) (i : Nat) (f : Bundle → Bundle) : (modBundle s i f).batons = s.batons := rfl
@[simp] theorem modBundle_tapins (s : State) (i : Nat) (f : Bundle → Bundle) : (modBundle s i f).tapins = s.tapins := rfl
@[simp] theorem modBundle_ruleCopies (s : State) (i : Nat) (f : Bundle → Bundle) : (modBundle s i f).ruleCopies = s.ruleCopies := rfl
@[simp] theorem modBundle_jobs (s : State) (i : Nat) (f : Bundle → Bundle) : (modBundle s i f).jobs = s.jobs := rfl
@[simp] theorem modBundle_killedJobs (s : State) (i : Nat) (f : Bundle → Bundle) : (modBundle s i f).killedJobs = s.killedJobs := rfl
@[simp] theorem modBundle_gone (s : State) (i : Nat) (f : Bundle → Bundle) : (modBundle s i f).gone = s.gone := rfl
@[simp] theorem modBundle_scopes (s : State) (i : Nat) (f : Bundle → Bundle) : (modBundle s i f).scopes = s.scopes := rfl
@[simp] theorem modBundle_conts (s : State) (i : Nat) (f : Bundle → Bundle) : (modBundle s i f).conts = s.conts := rfl
@[simp] theorem modBundle_futs (s : State) (i : Nat) (f : Bundle → Bundle) : (modBundle s i f).futs = s.futs := rfl
@[simp] theorem modBundle_saves (s : State) (i : Nat) (f : Bundle → Bundle) : (modBundle s i f).saves = s.saves := rfl
@[simp] theorem modBundle_entries (s : State) (i : Nat) (f : Bundle → Bundle) : (modBundle s i f).entries = s.entries := rfl
@[simp] theorem modBundle_ckpts (s : State) (i : Nat) (f : Bundle → Bundle) : (modBundle s i f).ckpts = s.ckpts := rfl
@[simp] theorem modBundle_mclog (s : State) (i : Nat) (f : Bundle → Bundle) : (modBundle s i f).mclog = s.mclog := rfl
@[simp] theorem modBundle_ctxs (s : State) (i : Nat) (f : Bundle → Bundle) : (modBundle s i f).ctxs = s.ctxs := rfl
@[simp] theorem modBundle_kqbase (s : State) (i : Nat) (f : Bundle → Bundle) : (modBundle s i f).kqbase = s.kqbase := rfl
@[simp] theorem modBundle_kqsize (s : State) (i : Nat) (f : Bundle → Bundle) : (modBundle s i f).kqsize = s.kqsize := rfl
@[simp] theorem modBundle_kqhead (s : State) (i : Nat) (f : Bundle → Bundle) : (modBundle s i f).kqhead = s.kqhead := rfl
@[simp] theorem modBundle_kqtail (s : State) (i : Nat) (f : Bundle → Bundle) : (modBundle s i f).kqtail = s.kqtail := rfl
@[simp] theorem modBundle_kqfut (s : State) (i : Nat) (f : Bundle → Bundle) : (modBundle s i f).kqfut = s.kqfut := rfl
@[simp] theorem modBundle_kqctx (s : State) (i : Nat) (f : Bundle → Bundle) : (modBundle s i f).kqctx = s.kqctx := rfl
@[simp] theorem modBundle_kctx (s : State) (i : Nat) (f : Bundle → Bundle) : (modBundle s i f).kctx = s.kctx := rfl
@[simp] theorem modBundle_heart (s : State) (i : Nat) (f : Bundle → Bundle) : (modBundle s i f).heart = s.heart := rfl
@[simp] theorem modBundle_cfg (s : State) (i : Nat) (f : Bundle → Bundle) : (modBundle s i f).cfg = s.cfg := rfl
@[simp] theorem modBundle_act (s : State) (i : Nat) (f : Bundle → Bundle) : (modBundle s i f).act = s.act := rfl
@[simp] theorem modBundle_tripped (s : State) (i : Nat) (f : Bundle → Bundle) : (modBundle s i f).tripped = s.tripped := rfl
@[simp] theorem modBundle_clocks (s : State) (i : Nat) (f : Bundle → Bundle) : (modBundle s i f).clocks = s.clocks := rfl
@[simp] theorem modBundle_mem (s : State) (i : Nat) (f : Bundle → Bundle) : (modBundle s i f).mem = s.mem := rfl
@[simp] theorem modBundle_poison (s : State) (i : Nat) (f : Bundle → Bundle) : (modBundle s i f).poison = s.poison := rfl
@[simp] theorem modBundle_lineErrs (s : State) (i : Nat) (f : Bundle → Bundle) : (modBundle s i f).lineErrs = s.lineErrs := rfl
@[simp] theorem modBundle_l2 (s : State) (i : Nat) (f : Bundle → Bundle) : (modBundle s i f).l2 = s.l2 := rfl
@[simp] theorem modBundle_hostMem (s : State) (i : Nat) (f : Bundle → Bundle) : (modBundle s i f).hostMem = s.hostMem := rfl
@[simp] theorem modBundle_walkStore (s : State) (i : Nat) (f : Bundle → Bundle) : (modBundle s i f).walkStore = s.walkStore := rfl
@[simp] theorem modBundle_tlb (s : State) (i : Nat) (f : Bundle → Bundle) : (modBundle s i f).tlb = s.tlb := rfl
@[simp] theorem modBundle_gtags (s : State) (i : Nat) (f : Bundle → Bundle) : (modBundle s i f).gtags = s.gtags := rfl
@[simp] theorem modBundle_pools (s : State) (i : Nat) (f : Bundle → Bundle) : (modBundle s i f).pools = s.pools := rfl
@[simp] theorem modBundle_poolReqs (s : State) (i : Nat) (f : Bundle → Bundle) : (modBundle s i f).poolReqs = s.poolReqs := rfl
@[simp] theorem modBundle_queues (s : State) (i : Nat) (f : Bundle → Bundle) : (modBundle s i f).queues = s.queues := rfl
@[simp] theorem modBundle_msix (s : State) (i : Nat) (f : Bundle → Bundle) : (modBundle s i f).msix = s.msix := rfl
@[simp] theorem modBundle_reports (s : State) (i : Nat) (f : Bundle → Bundle) : (modBundle s i f).reports = s.reports := rfl
@[simp] theorem modBundle_aedov (s : State) (i : Nat) (f : Bundle → Bundle) : (modBundle s i f).aedov = s.aedov := rfl

/-! ### modCtx: every field but ctxs stays -/

@[simp] theorem modCtx_agenda (s : State) (c : Nat) (f : Ctx → Ctx) : (modCtx s c f).agenda = s.agenda := rfl
@[simp] theorem modCtx_cur (s : State) (c : Nat) (f : Ctx → Ctx) : (modCtx s c f).cur = s.cur := rfl
@[simp] theorem modCtx_nextId (s : State) (c : Nat) (f : Ctx → Ctx) : (modCtx s c f).nextId = s.nextId := rfl
@[simp] theorem modCtx_issueNo (s : State) (c : Nat) (f : Ctx → Ctx) : (modCtx s c f).issueNo = s.issueNo := rfl
@[simp] theorem modCtx_free (s : State) (c : Nat) (f : Ctx → Ctx) : (modCtx s c f).free = s.free := rfl
@[simp] theorem modCtx_threads (s : State) (c : Nat) (f : Ctx → Ctx) : (modCtx s c f).threads = s.threads := rfl
@[simp] theorem modCtx_gangs (s : State) (c : Nat) (f : Ctx → Ctx) : (modCtx s c f).gangs = s.gangs := rfl
@[simp] theorem modCtx_blocks (s : State) (c : Nat) (f : Ctx → Ctx) : (modCtx s c f).blocks = s.blocks := rfl
@[simp] theorem modCtx_bundles (s : State) (c : Nat) (f : Ctx → Ctx) : (modCtx s c f).bundles = s.bundles := rfl
@[simp] theorem modCtx_bins (s : State) (c : Nat) (f : Ctx → Ctx) : (modCtx s c f).bins = s.bins := rfl
@[simp] theorem modCtx_arrivals (s : State) (c : Nat) (f : Ctx → Ctx) : (modCtx s c f).arrivals = s.arrivals := rfl
@[simp] theorem modCtx_outst (s : State) (c : Nat) (f : Ctx → Ctx) : (modCtx s c f).outst = s.outst := rfl
@[simp] theorem modCtx_cycle (s : State) (c : Nat) (f : Ctx → Ctx) : (modCtx s c f).cycle = s.cycle := rfl
@[simp] theorem modCtx_claims (s : State) (c : Nat) (f : Ctx → Ctx) : (modCtx s c f).claims = s.claims := rfl
@[simp] theorem modCtx_bars (s : State) (c : Nat) (f : Ctx → Ctx) : (modCtx s c f).bars = s.bars := rfl
@[simp] theorem modCtx_rings (s : State) (c : Nat) (f : Ctx → Ctx) : (modCtx s c f).rings = s.rings := rfl
@[simp] theorem modCtx_copies (s : State) (c : Nat) (f : Ctx → Ctx) : (modCtx s c f).copies = s.copies := rfl
@[simp] theorem modCtx_accs (s : State) (c : Nat) (f : Ctx → Ctx) : (modCtx s c f).accs = s.accs := rfl
@[simp] theorem modCtx_opslots (s : State) (c : Nat) (f : Ctx → Ctx) : (modCtx s c f).opslots = s.opslots := rfl
@[simp] theorem modCtx_masks (s : State) (c : Nat) (f : Ctx → Ctx) : (modCtx s c f).masks = s.masks := rfl
@[simp] theorem modCtx_mops (s : State) (c : Nat) (f : Ctx → Ctx) : (modCtx s c f).mops = s.mops := rfl
@[simp] theorem modCtx_batons (s : State) (c : Nat) (f : Ctx → Ctx) : (modCtx s c f).batons = s.batons := rfl
@[simp] theorem modCtx_tapins (s : State) (c : Nat) (f : Ctx → Ctx) : (modCtx s c f).tapins = s.tapins := rfl
@[simp] theorem modCtx_ruleCopies (s : State) (c : Nat) (f : Ctx → Ctx) : (modCtx s c f).ruleCopies = s.ruleCopies := rfl
@[simp] theorem modCtx_jobs (s : State) (c : Nat) (f : Ctx → Ctx) : (modCtx s c f).jobs = s.jobs := rfl
@[simp] theorem modCtx_killedJobs (s : State) (c : Nat) (f : Ctx → Ctx) : (modCtx s c f).killedJobs = s.killedJobs := rfl
@[simp] theorem modCtx_gone (s : State) (c : Nat) (f : Ctx → Ctx) : (modCtx s c f).gone = s.gone := rfl
@[simp] theorem modCtx_scopes (s : State) (c : Nat) (f : Ctx → Ctx) : (modCtx s c f).scopes = s.scopes := rfl
@[simp] theorem modCtx_conts (s : State) (c : Nat) (f : Ctx → Ctx) : (modCtx s c f).conts = s.conts := rfl
@[simp] theorem modCtx_futs (s : State) (c : Nat) (f : Ctx → Ctx) : (modCtx s c f).futs = s.futs := rfl
@[simp] theorem modCtx_saves (s : State) (c : Nat) (f : Ctx → Ctx) : (modCtx s c f).saves = s.saves := rfl
@[simp] theorem modCtx_entries (s : State) (c : Nat) (f : Ctx → Ctx) : (modCtx s c f).entries = s.entries := rfl
@[simp] theorem modCtx_ckpts (s : State) (c : Nat) (f : Ctx → Ctx) : (modCtx s c f).ckpts = s.ckpts := rfl
@[simp] theorem modCtx_mclog (s : State) (c : Nat) (f : Ctx → Ctx) : (modCtx s c f).mclog = s.mclog := rfl
@[simp] theorem modCtx_kqbase (s : State) (c : Nat) (f : Ctx → Ctx) : (modCtx s c f).kqbase = s.kqbase := rfl
@[simp] theorem modCtx_kqsize (s : State) (c : Nat) (f : Ctx → Ctx) : (modCtx s c f).kqsize = s.kqsize := rfl
@[simp] theorem modCtx_kqhead (s : State) (c : Nat) (f : Ctx → Ctx) : (modCtx s c f).kqhead = s.kqhead := rfl
@[simp] theorem modCtx_kqtail (s : State) (c : Nat) (f : Ctx → Ctx) : (modCtx s c f).kqtail = s.kqtail := rfl
@[simp] theorem modCtx_kqfut (s : State) (c : Nat) (f : Ctx → Ctx) : (modCtx s c f).kqfut = s.kqfut := rfl
@[simp] theorem modCtx_kqctx (s : State) (c : Nat) (f : Ctx → Ctx) : (modCtx s c f).kqctx = s.kqctx := rfl
@[simp] theorem modCtx_kctx (s : State) (c : Nat) (f : Ctx → Ctx) : (modCtx s c f).kctx = s.kctx := rfl
@[simp] theorem modCtx_heart (s : State) (c : Nat) (f : Ctx → Ctx) : (modCtx s c f).heart = s.heart := rfl
@[simp] theorem modCtx_cfg (s : State) (c : Nat) (f : Ctx → Ctx) : (modCtx s c f).cfg = s.cfg := rfl
@[simp] theorem modCtx_act (s : State) (c : Nat) (f : Ctx → Ctx) : (modCtx s c f).act = s.act := rfl
@[simp] theorem modCtx_tripped (s : State) (c : Nat) (f : Ctx → Ctx) : (modCtx s c f).tripped = s.tripped := rfl
@[simp] theorem modCtx_clocks (s : State) (c : Nat) (f : Ctx → Ctx) : (modCtx s c f).clocks = s.clocks := rfl
@[simp] theorem modCtx_mem (s : State) (c : Nat) (f : Ctx → Ctx) : (modCtx s c f).mem = s.mem := rfl
@[simp] theorem modCtx_poison (s : State) (c : Nat) (f : Ctx → Ctx) : (modCtx s c f).poison = s.poison := rfl
@[simp] theorem modCtx_lineErrs (s : State) (c : Nat) (f : Ctx → Ctx) : (modCtx s c f).lineErrs = s.lineErrs := rfl
@[simp] theorem modCtx_l2 (s : State) (c : Nat) (f : Ctx → Ctx) : (modCtx s c f).l2 = s.l2 := rfl
@[simp] theorem modCtx_hostMem (s : State) (c : Nat) (f : Ctx → Ctx) : (modCtx s c f).hostMem = s.hostMem := rfl
@[simp] theorem modCtx_walkStore (s : State) (c : Nat) (f : Ctx → Ctx) : (modCtx s c f).walkStore = s.walkStore := rfl
@[simp] theorem modCtx_tlb (s : State) (c : Nat) (f : Ctx → Ctx) : (modCtx s c f).tlb = s.tlb := rfl
@[simp] theorem modCtx_gtags (s : State) (c : Nat) (f : Ctx → Ctx) : (modCtx s c f).gtags = s.gtags := rfl
@[simp] theorem modCtx_pools (s : State) (c : Nat) (f : Ctx → Ctx) : (modCtx s c f).pools = s.pools := rfl
@[simp] theorem modCtx_poolReqs (s : State) (c : Nat) (f : Ctx → Ctx) : (modCtx s c f).poolReqs = s.poolReqs := rfl
@[simp] theorem modCtx_queues (s : State) (c : Nat) (f : Ctx → Ctx) : (modCtx s c f).queues = s.queues := rfl
@[simp] theorem modCtx_msix (s : State) (c : Nat) (f : Ctx → Ctx) : (modCtx s c f).msix = s.msix := rfl
@[simp] theorem modCtx_reports (s : State) (c : Nat) (f : Ctx → Ctx) : (modCtx s c f).reports = s.reports := rfl
@[simp] theorem modCtx_aedov (s : State) (c : Nat) (f : Ctx → Ctx) : (modCtx s c f).aedov = s.aedov := rfl

/-! ### modJob: every field but jobs stays -/

@[simp] theorem modJob_agenda (s : State) (c n : Nat) (f : Job → Job) : (modJob s c n f).agenda = s.agenda := rfl
@[simp] theorem modJob_cur (s : State) (c n : Nat) (f : Job → Job) : (modJob s c n f).cur = s.cur := rfl
@[simp] theorem modJob_nextId (s : State) (c n : Nat) (f : Job → Job) : (modJob s c n f).nextId = s.nextId := rfl
@[simp] theorem modJob_issueNo (s : State) (c n : Nat) (f : Job → Job) : (modJob s c n f).issueNo = s.issueNo := rfl
@[simp] theorem modJob_free (s : State) (c n : Nat) (f : Job → Job) : (modJob s c n f).free = s.free := rfl
@[simp] theorem modJob_threads (s : State) (c n : Nat) (f : Job → Job) : (modJob s c n f).threads = s.threads := rfl
@[simp] theorem modJob_gangs (s : State) (c n : Nat) (f : Job → Job) : (modJob s c n f).gangs = s.gangs := rfl
@[simp] theorem modJob_blocks (s : State) (c n : Nat) (f : Job → Job) : (modJob s c n f).blocks = s.blocks := rfl
@[simp] theorem modJob_bundles (s : State) (c n : Nat) (f : Job → Job) : (modJob s c n f).bundles = s.bundles := rfl
@[simp] theorem modJob_bins (s : State) (c n : Nat) (f : Job → Job) : (modJob s c n f).bins = s.bins := rfl
@[simp] theorem modJob_arrivals (s : State) (c n : Nat) (f : Job → Job) : (modJob s c n f).arrivals = s.arrivals := rfl
@[simp] theorem modJob_outst (s : State) (c n : Nat) (f : Job → Job) : (modJob s c n f).outst = s.outst := rfl
@[simp] theorem modJob_cycle (s : State) (c n : Nat) (f : Job → Job) : (modJob s c n f).cycle = s.cycle := rfl
@[simp] theorem modJob_claims (s : State) (c n : Nat) (f : Job → Job) : (modJob s c n f).claims = s.claims := rfl
@[simp] theorem modJob_bars (s : State) (c n : Nat) (f : Job → Job) : (modJob s c n f).bars = s.bars := rfl
@[simp] theorem modJob_rings (s : State) (c n : Nat) (f : Job → Job) : (modJob s c n f).rings = s.rings := rfl
@[simp] theorem modJob_copies (s : State) (c n : Nat) (f : Job → Job) : (modJob s c n f).copies = s.copies := rfl
@[simp] theorem modJob_accs (s : State) (c n : Nat) (f : Job → Job) : (modJob s c n f).accs = s.accs := rfl
@[simp] theorem modJob_opslots (s : State) (c n : Nat) (f : Job → Job) : (modJob s c n f).opslots = s.opslots := rfl
@[simp] theorem modJob_masks (s : State) (c n : Nat) (f : Job → Job) : (modJob s c n f).masks = s.masks := rfl
@[simp] theorem modJob_mops (s : State) (c n : Nat) (f : Job → Job) : (modJob s c n f).mops = s.mops := rfl
@[simp] theorem modJob_batons (s : State) (c n : Nat) (f : Job → Job) : (modJob s c n f).batons = s.batons := rfl
@[simp] theorem modJob_tapins (s : State) (c n : Nat) (f : Job → Job) : (modJob s c n f).tapins = s.tapins := rfl
@[simp] theorem modJob_ruleCopies (s : State) (c n : Nat) (f : Job → Job) : (modJob s c n f).ruleCopies = s.ruleCopies := rfl
@[simp] theorem modJob_killedJobs (s : State) (c n : Nat) (f : Job → Job) : (modJob s c n f).killedJobs = s.killedJobs := rfl
@[simp] theorem modJob_gone (s : State) (c n : Nat) (f : Job → Job) : (modJob s c n f).gone = s.gone := rfl
@[simp] theorem modJob_scopes (s : State) (c n : Nat) (f : Job → Job) : (modJob s c n f).scopes = s.scopes := rfl
@[simp] theorem modJob_conts (s : State) (c n : Nat) (f : Job → Job) : (modJob s c n f).conts = s.conts := rfl
@[simp] theorem modJob_futs (s : State) (c n : Nat) (f : Job → Job) : (modJob s c n f).futs = s.futs := rfl
@[simp] theorem modJob_saves (s : State) (c n : Nat) (f : Job → Job) : (modJob s c n f).saves = s.saves := rfl
@[simp] theorem modJob_entries (s : State) (c n : Nat) (f : Job → Job) : (modJob s c n f).entries = s.entries := rfl
@[simp] theorem modJob_ckpts (s : State) (c n : Nat) (f : Job → Job) : (modJob s c n f).ckpts = s.ckpts := rfl
@[simp] theorem modJob_mclog (s : State) (c n : Nat) (f : Job → Job) : (modJob s c n f).mclog = s.mclog := rfl
@[simp] theorem modJob_ctxs (s : State) (c n : Nat) (f : Job → Job) : (modJob s c n f).ctxs = s.ctxs := rfl
@[simp] theorem modJob_kqbase (s : State) (c n : Nat) (f : Job → Job) : (modJob s c n f).kqbase = s.kqbase := rfl
@[simp] theorem modJob_kqsize (s : State) (c n : Nat) (f : Job → Job) : (modJob s c n f).kqsize = s.kqsize := rfl
@[simp] theorem modJob_kqhead (s : State) (c n : Nat) (f : Job → Job) : (modJob s c n f).kqhead = s.kqhead := rfl
@[simp] theorem modJob_kqtail (s : State) (c n : Nat) (f : Job → Job) : (modJob s c n f).kqtail = s.kqtail := rfl
@[simp] theorem modJob_kqfut (s : State) (c n : Nat) (f : Job → Job) : (modJob s c n f).kqfut = s.kqfut := rfl
@[simp] theorem modJob_kqctx (s : State) (c n : Nat) (f : Job → Job) : (modJob s c n f).kqctx = s.kqctx := rfl
@[simp] theorem modJob_kctx (s : State) (c n : Nat) (f : Job → Job) : (modJob s c n f).kctx = s.kctx := rfl
@[simp] theorem modJob_heart (s : State) (c n : Nat) (f : Job → Job) : (modJob s c n f).heart = s.heart := rfl
@[simp] theorem modJob_cfg (s : State) (c n : Nat) (f : Job → Job) : (modJob s c n f).cfg = s.cfg := rfl
@[simp] theorem modJob_act (s : State) (c n : Nat) (f : Job → Job) : (modJob s c n f).act = s.act := rfl
@[simp] theorem modJob_tripped (s : State) (c n : Nat) (f : Job → Job) : (modJob s c n f).tripped = s.tripped := rfl
@[simp] theorem modJob_clocks (s : State) (c n : Nat) (f : Job → Job) : (modJob s c n f).clocks = s.clocks := rfl
@[simp] theorem modJob_mem (s : State) (c n : Nat) (f : Job → Job) : (modJob s c n f).mem = s.mem := rfl
@[simp] theorem modJob_poison (s : State) (c n : Nat) (f : Job → Job) : (modJob s c n f).poison = s.poison := rfl
@[simp] theorem modJob_lineErrs (s : State) (c n : Nat) (f : Job → Job) : (modJob s c n f).lineErrs = s.lineErrs := rfl
@[simp] theorem modJob_l2 (s : State) (c n : Nat) (f : Job → Job) : (modJob s c n f).l2 = s.l2 := rfl
@[simp] theorem modJob_hostMem (s : State) (c n : Nat) (f : Job → Job) : (modJob s c n f).hostMem = s.hostMem := rfl
@[simp] theorem modJob_walkStore (s : State) (c n : Nat) (f : Job → Job) : (modJob s c n f).walkStore = s.walkStore := rfl
@[simp] theorem modJob_tlb (s : State) (c n : Nat) (f : Job → Job) : (modJob s c n f).tlb = s.tlb := rfl
@[simp] theorem modJob_gtags (s : State) (c n : Nat) (f : Job → Job) : (modJob s c n f).gtags = s.gtags := rfl
@[simp] theorem modJob_pools (s : State) (c n : Nat) (f : Job → Job) : (modJob s c n f).pools = s.pools := rfl
@[simp] theorem modJob_poolReqs (s : State) (c n : Nat) (f : Job → Job) : (modJob s c n f).poolReqs = s.poolReqs := rfl
@[simp] theorem modJob_queues (s : State) (c n : Nat) (f : Job → Job) : (modJob s c n f).queues = s.queues := rfl
@[simp] theorem modJob_msix (s : State) (c n : Nat) (f : Job → Job) : (modJob s c n f).msix = s.msix := rfl
@[simp] theorem modJob_reports (s : State) (c n : Nat) (f : Job → Job) : (modJob s c n f).reports = s.reports := rfl
@[simp] theorem modJob_aedov (s : State) (c n : Nat) (f : Job → Job) : (modJob s c n f).aedov = s.aedov := rfl

/-! ### modScope: every field but scopes stays -/

@[simp] theorem modScope_agenda (s : State) (c i : Nat) (f : Scope → Scope) : (modScope s c i f).agenda = s.agenda := rfl
@[simp] theorem modScope_cur (s : State) (c i : Nat) (f : Scope → Scope) : (modScope s c i f).cur = s.cur := rfl
@[simp] theorem modScope_nextId (s : State) (c i : Nat) (f : Scope → Scope) : (modScope s c i f).nextId = s.nextId := rfl
@[simp] theorem modScope_issueNo (s : State) (c i : Nat) (f : Scope → Scope) : (modScope s c i f).issueNo = s.issueNo := rfl
@[simp] theorem modScope_free (s : State) (c i : Nat) (f : Scope → Scope) : (modScope s c i f).free = s.free := rfl
@[simp] theorem modScope_threads (s : State) (c i : Nat) (f : Scope → Scope) : (modScope s c i f).threads = s.threads := rfl
@[simp] theorem modScope_gangs (s : State) (c i : Nat) (f : Scope → Scope) : (modScope s c i f).gangs = s.gangs := rfl
@[simp] theorem modScope_blocks (s : State) (c i : Nat) (f : Scope → Scope) : (modScope s c i f).blocks = s.blocks := rfl
@[simp] theorem modScope_bundles (s : State) (c i : Nat) (f : Scope → Scope) : (modScope s c i f).bundles = s.bundles := rfl
@[simp] theorem modScope_bins (s : State) (c i : Nat) (f : Scope → Scope) : (modScope s c i f).bins = s.bins := rfl
@[simp] theorem modScope_arrivals (s : State) (c i : Nat) (f : Scope → Scope) : (modScope s c i f).arrivals = s.arrivals := rfl
@[simp] theorem modScope_outst (s : State) (c i : Nat) (f : Scope → Scope) : (modScope s c i f).outst = s.outst := rfl
@[simp] theorem modScope_cycle (s : State) (c i : Nat) (f : Scope → Scope) : (modScope s c i f).cycle = s.cycle := rfl
@[simp] theorem modScope_claims (s : State) (c i : Nat) (f : Scope → Scope) : (modScope s c i f).claims = s.claims := rfl
@[simp] theorem modScope_bars (s : State) (c i : Nat) (f : Scope → Scope) : (modScope s c i f).bars = s.bars := rfl
@[simp] theorem modScope_rings (s : State) (c i : Nat) (f : Scope → Scope) : (modScope s c i f).rings = s.rings := rfl
@[simp] theorem modScope_copies (s : State) (c i : Nat) (f : Scope → Scope) : (modScope s c i f).copies = s.copies := rfl
@[simp] theorem modScope_accs (s : State) (c i : Nat) (f : Scope → Scope) : (modScope s c i f).accs = s.accs := rfl
@[simp] theorem modScope_opslots (s : State) (c i : Nat) (f : Scope → Scope) : (modScope s c i f).opslots = s.opslots := rfl
@[simp] theorem modScope_masks (s : State) (c i : Nat) (f : Scope → Scope) : (modScope s c i f).masks = s.masks := rfl
@[simp] theorem modScope_mops (s : State) (c i : Nat) (f : Scope → Scope) : (modScope s c i f).mops = s.mops := rfl
@[simp] theorem modScope_batons (s : State) (c i : Nat) (f : Scope → Scope) : (modScope s c i f).batons = s.batons := rfl
@[simp] theorem modScope_tapins (s : State) (c i : Nat) (f : Scope → Scope) : (modScope s c i f).tapins = s.tapins := rfl
@[simp] theorem modScope_ruleCopies (s : State) (c i : Nat) (f : Scope → Scope) : (modScope s c i f).ruleCopies = s.ruleCopies := rfl
@[simp] theorem modScope_jobs (s : State) (c i : Nat) (f : Scope → Scope) : (modScope s c i f).jobs = s.jobs := rfl
@[simp] theorem modScope_killedJobs (s : State) (c i : Nat) (f : Scope → Scope) : (modScope s c i f).killedJobs = s.killedJobs := rfl
@[simp] theorem modScope_gone (s : State) (c i : Nat) (f : Scope → Scope) : (modScope s c i f).gone = s.gone := rfl
@[simp] theorem modScope_conts (s : State) (c i : Nat) (f : Scope → Scope) : (modScope s c i f).conts = s.conts := rfl
@[simp] theorem modScope_futs (s : State) (c i : Nat) (f : Scope → Scope) : (modScope s c i f).futs = s.futs := rfl
@[simp] theorem modScope_saves (s : State) (c i : Nat) (f : Scope → Scope) : (modScope s c i f).saves = s.saves := rfl
@[simp] theorem modScope_entries (s : State) (c i : Nat) (f : Scope → Scope) : (modScope s c i f).entries = s.entries := rfl
@[simp] theorem modScope_ckpts (s : State) (c i : Nat) (f : Scope → Scope) : (modScope s c i f).ckpts = s.ckpts := rfl
@[simp] theorem modScope_mclog (s : State) (c i : Nat) (f : Scope → Scope) : (modScope s c i f).mclog = s.mclog := rfl
@[simp] theorem modScope_ctxs (s : State) (c i : Nat) (f : Scope → Scope) : (modScope s c i f).ctxs = s.ctxs := rfl
@[simp] theorem modScope_kqbase (s : State) (c i : Nat) (f : Scope → Scope) : (modScope s c i f).kqbase = s.kqbase := rfl
@[simp] theorem modScope_kqsize (s : State) (c i : Nat) (f : Scope → Scope) : (modScope s c i f).kqsize = s.kqsize := rfl
@[simp] theorem modScope_kqhead (s : State) (c i : Nat) (f : Scope → Scope) : (modScope s c i f).kqhead = s.kqhead := rfl
@[simp] theorem modScope_kqtail (s : State) (c i : Nat) (f : Scope → Scope) : (modScope s c i f).kqtail = s.kqtail := rfl
@[simp] theorem modScope_kqfut (s : State) (c i : Nat) (f : Scope → Scope) : (modScope s c i f).kqfut = s.kqfut := rfl
@[simp] theorem modScope_kqctx (s : State) (c i : Nat) (f : Scope → Scope) : (modScope s c i f).kqctx = s.kqctx := rfl
@[simp] theorem modScope_kctx (s : State) (c i : Nat) (f : Scope → Scope) : (modScope s c i f).kctx = s.kctx := rfl
@[simp] theorem modScope_heart (s : State) (c i : Nat) (f : Scope → Scope) : (modScope s c i f).heart = s.heart := rfl
@[simp] theorem modScope_cfg (s : State) (c i : Nat) (f : Scope → Scope) : (modScope s c i f).cfg = s.cfg := rfl
@[simp] theorem modScope_act (s : State) (c i : Nat) (f : Scope → Scope) : (modScope s c i f).act = s.act := rfl
@[simp] theorem modScope_tripped (s : State) (c i : Nat) (f : Scope → Scope) : (modScope s c i f).tripped = s.tripped := rfl
@[simp] theorem modScope_clocks (s : State) (c i : Nat) (f : Scope → Scope) : (modScope s c i f).clocks = s.clocks := rfl
@[simp] theorem modScope_mem (s : State) (c i : Nat) (f : Scope → Scope) : (modScope s c i f).mem = s.mem := rfl
@[simp] theorem modScope_poison (s : State) (c i : Nat) (f : Scope → Scope) : (modScope s c i f).poison = s.poison := rfl
@[simp] theorem modScope_lineErrs (s : State) (c i : Nat) (f : Scope → Scope) : (modScope s c i f).lineErrs = s.lineErrs := rfl
@[simp] theorem modScope_l2 (s : State) (c i : Nat) (f : Scope → Scope) : (modScope s c i f).l2 = s.l2 := rfl
@[simp] theorem modScope_hostMem (s : State) (c i : Nat) (f : Scope → Scope) : (modScope s c i f).hostMem = s.hostMem := rfl
@[simp] theorem modScope_walkStore (s : State) (c i : Nat) (f : Scope → Scope) : (modScope s c i f).walkStore = s.walkStore := rfl
@[simp] theorem modScope_tlb (s : State) (c i : Nat) (f : Scope → Scope) : (modScope s c i f).tlb = s.tlb := rfl
@[simp] theorem modScope_gtags (s : State) (c i : Nat) (f : Scope → Scope) : (modScope s c i f).gtags = s.gtags := rfl
@[simp] theorem modScope_pools (s : State) (c i : Nat) (f : Scope → Scope) : (modScope s c i f).pools = s.pools := rfl
@[simp] theorem modScope_poolReqs (s : State) (c i : Nat) (f : Scope → Scope) : (modScope s c i f).poolReqs = s.poolReqs := rfl
@[simp] theorem modScope_queues (s : State) (c i : Nat) (f : Scope → Scope) : (modScope s c i f).queues = s.queues := rfl
@[simp] theorem modScope_msix (s : State) (c i : Nat) (f : Scope → Scope) : (modScope s c i f).msix = s.msix := rfl
@[simp] theorem modScope_reports (s : State) (c i : Nat) (f : Scope → Scope) : (modScope s c i f).reports = s.reports := rfl
@[simp] theorem modScope_aedov (s : State) (c i : Nat) (f : Scope → Scope) : (modScope s c i f).aedov = s.aedov := rfl

/-! ### modRing: every field but rings stays -/

@[simp] theorem modRing_agenda (s : State) (c i : Nat) (f : Ring → Ring) : (modRing s c i f).agenda = s.agenda := rfl
@[simp] theorem modRing_cur (s : State) (c i : Nat) (f : Ring → Ring) : (modRing s c i f).cur = s.cur := rfl
@[simp] theorem modRing_nextId (s : State) (c i : Nat) (f : Ring → Ring) : (modRing s c i f).nextId = s.nextId := rfl
@[simp] theorem modRing_issueNo (s : State) (c i : Nat) (f : Ring → Ring) : (modRing s c i f).issueNo = s.issueNo := rfl
@[simp] theorem modRing_free (s : State) (c i : Nat) (f : Ring → Ring) : (modRing s c i f).free = s.free := rfl
@[simp] theorem modRing_threads (s : State) (c i : Nat) (f : Ring → Ring) : (modRing s c i f).threads = s.threads := rfl
@[simp] theorem modRing_gangs (s : State) (c i : Nat) (f : Ring → Ring) : (modRing s c i f).gangs = s.gangs := rfl
@[simp] theorem modRing_blocks (s : State) (c i : Nat) (f : Ring → Ring) : (modRing s c i f).blocks = s.blocks := rfl
@[simp] theorem modRing_bundles (s : State) (c i : Nat) (f : Ring → Ring) : (modRing s c i f).bundles = s.bundles := rfl
@[simp] theorem modRing_bins (s : State) (c i : Nat) (f : Ring → Ring) : (modRing s c i f).bins = s.bins := rfl
@[simp] theorem modRing_arrivals (s : State) (c i : Nat) (f : Ring → Ring) : (modRing s c i f).arrivals = s.arrivals := rfl
@[simp] theorem modRing_outst (s : State) (c i : Nat) (f : Ring → Ring) : (modRing s c i f).outst = s.outst := rfl
@[simp] theorem modRing_cycle (s : State) (c i : Nat) (f : Ring → Ring) : (modRing s c i f).cycle = s.cycle := rfl
@[simp] theorem modRing_claims (s : State) (c i : Nat) (f : Ring → Ring) : (modRing s c i f).claims = s.claims := rfl
@[simp] theorem modRing_bars (s : State) (c i : Nat) (f : Ring → Ring) : (modRing s c i f).bars = s.bars := rfl
@[simp] theorem modRing_copies (s : State) (c i : Nat) (f : Ring → Ring) : (modRing s c i f).copies = s.copies := rfl
@[simp] theorem modRing_accs (s : State) (c i : Nat) (f : Ring → Ring) : (modRing s c i f).accs = s.accs := rfl
@[simp] theorem modRing_opslots (s : State) (c i : Nat) (f : Ring → Ring) : (modRing s c i f).opslots = s.opslots := rfl
@[simp] theorem modRing_masks (s : State) (c i : Nat) (f : Ring → Ring) : (modRing s c i f).masks = s.masks := rfl
@[simp] theorem modRing_mops (s : State) (c i : Nat) (f : Ring → Ring) : (modRing s c i f).mops = s.mops := rfl
@[simp] theorem modRing_batons (s : State) (c i : Nat) (f : Ring → Ring) : (modRing s c i f).batons = s.batons := rfl
@[simp] theorem modRing_tapins (s : State) (c i : Nat) (f : Ring → Ring) : (modRing s c i f).tapins = s.tapins := rfl
@[simp] theorem modRing_ruleCopies (s : State) (c i : Nat) (f : Ring → Ring) : (modRing s c i f).ruleCopies = s.ruleCopies := rfl
@[simp] theorem modRing_jobs (s : State) (c i : Nat) (f : Ring → Ring) : (modRing s c i f).jobs = s.jobs := rfl
@[simp] theorem modRing_killedJobs (s : State) (c i : Nat) (f : Ring → Ring) : (modRing s c i f).killedJobs = s.killedJobs := rfl
@[simp] theorem modRing_gone (s : State) (c i : Nat) (f : Ring → Ring) : (modRing s c i f).gone = s.gone := rfl
@[simp] theorem modRing_scopes (s : State) (c i : Nat) (f : Ring → Ring) : (modRing s c i f).scopes = s.scopes := rfl
@[simp] theorem modRing_conts (s : State) (c i : Nat) (f : Ring → Ring) : (modRing s c i f).conts = s.conts := rfl
@[simp] theorem modRing_futs (s : State) (c i : Nat) (f : Ring → Ring) : (modRing s c i f).futs = s.futs := rfl
@[simp] theorem modRing_saves (s : State) (c i : Nat) (f : Ring → Ring) : (modRing s c i f).saves = s.saves := rfl
@[simp] theorem modRing_entries (s : State) (c i : Nat) (f : Ring → Ring) : (modRing s c i f).entries = s.entries := rfl
@[simp] theorem modRing_ckpts (s : State) (c i : Nat) (f : Ring → Ring) : (modRing s c i f).ckpts = s.ckpts := rfl
@[simp] theorem modRing_mclog (s : State) (c i : Nat) (f : Ring → Ring) : (modRing s c i f).mclog = s.mclog := rfl
@[simp] theorem modRing_ctxs (s : State) (c i : Nat) (f : Ring → Ring) : (modRing s c i f).ctxs = s.ctxs := rfl
@[simp] theorem modRing_kqbase (s : State) (c i : Nat) (f : Ring → Ring) : (modRing s c i f).kqbase = s.kqbase := rfl
@[simp] theorem modRing_kqsize (s : State) (c i : Nat) (f : Ring → Ring) : (modRing s c i f).kqsize = s.kqsize := rfl
@[simp] theorem modRing_kqhead (s : State) (c i : Nat) (f : Ring → Ring) : (modRing s c i f).kqhead = s.kqhead := rfl
@[simp] theorem modRing_kqtail (s : State) (c i : Nat) (f : Ring → Ring) : (modRing s c i f).kqtail = s.kqtail := rfl
@[simp] theorem modRing_kqfut (s : State) (c i : Nat) (f : Ring → Ring) : (modRing s c i f).kqfut = s.kqfut := rfl
@[simp] theorem modRing_kqctx (s : State) (c i : Nat) (f : Ring → Ring) : (modRing s c i f).kqctx = s.kqctx := rfl
@[simp] theorem modRing_kctx (s : State) (c i : Nat) (f : Ring → Ring) : (modRing s c i f).kctx = s.kctx := rfl
@[simp] theorem modRing_heart (s : State) (c i : Nat) (f : Ring → Ring) : (modRing s c i f).heart = s.heart := rfl
@[simp] theorem modRing_cfg (s : State) (c i : Nat) (f : Ring → Ring) : (modRing s c i f).cfg = s.cfg := rfl
@[simp] theorem modRing_act (s : State) (c i : Nat) (f : Ring → Ring) : (modRing s c i f).act = s.act := rfl
@[simp] theorem modRing_tripped (s : State) (c i : Nat) (f : Ring → Ring) : (modRing s c i f).tripped = s.tripped := rfl
@[simp] theorem modRing_clocks (s : State) (c i : Nat) (f : Ring → Ring) : (modRing s c i f).clocks = s.clocks := rfl
@[simp] theorem modRing_mem (s : State) (c i : Nat) (f : Ring → Ring) : (modRing s c i f).mem = s.mem := rfl
@[simp] theorem modRing_poison (s : State) (c i : Nat) (f : Ring → Ring) : (modRing s c i f).poison = s.poison := rfl
@[simp] theorem modRing_lineErrs (s : State) (c i : Nat) (f : Ring → Ring) : (modRing s c i f).lineErrs = s.lineErrs := rfl
@[simp] theorem modRing_l2 (s : State) (c i : Nat) (f : Ring → Ring) : (modRing s c i f).l2 = s.l2 := rfl
@[simp] theorem modRing_hostMem (s : State) (c i : Nat) (f : Ring → Ring) : (modRing s c i f).hostMem = s.hostMem := rfl
@[simp] theorem modRing_walkStore (s : State) (c i : Nat) (f : Ring → Ring) : (modRing s c i f).walkStore = s.walkStore := rfl
@[simp] theorem modRing_tlb (s : State) (c i : Nat) (f : Ring → Ring) : (modRing s c i f).tlb = s.tlb := rfl
@[simp] theorem modRing_gtags (s : State) (c i : Nat) (f : Ring → Ring) : (modRing s c i f).gtags = s.gtags := rfl
@[simp] theorem modRing_pools (s : State) (c i : Nat) (f : Ring → Ring) : (modRing s c i f).pools = s.pools := rfl
@[simp] theorem modRing_poolReqs (s : State) (c i : Nat) (f : Ring → Ring) : (modRing s c i f).poolReqs = s.poolReqs := rfl
@[simp] theorem modRing_queues (s : State) (c i : Nat) (f : Ring → Ring) : (modRing s c i f).queues = s.queues := rfl
@[simp] theorem modRing_msix (s : State) (c i : Nat) (f : Ring → Ring) : (modRing s c i f).msix = s.msix := rfl
@[simp] theorem modRing_reports (s : State) (c i : Nat) (f : Ring → Ring) : (modRing s c i f).reports = s.reports := rfl
@[simp] theorem modRing_aedov (s : State) (c i : Nat) (f : Ring → Ring) : (modRing s c i f).aedov = s.aedov := rfl

/-! ### modAcc: every field but accs stays -/

@[simp] theorem modAcc_agenda (s : State) (b n : Nat) (f : Acc → Acc) : (modAcc s b n f).agenda = s.agenda := rfl
@[simp] theorem modAcc_cur (s : State) (b n : Nat) (f : Acc → Acc) : (modAcc s b n f).cur = s.cur := rfl
@[simp] theorem modAcc_nextId (s : State) (b n : Nat) (f : Acc → Acc) : (modAcc s b n f).nextId = s.nextId := rfl
@[simp] theorem modAcc_issueNo (s : State) (b n : Nat) (f : Acc → Acc) : (modAcc s b n f).issueNo = s.issueNo := rfl
@[simp] theorem modAcc_free (s : State) (b n : Nat) (f : Acc → Acc) : (modAcc s b n f).free = s.free := rfl
@[simp] theorem modAcc_threads (s : State) (b n : Nat) (f : Acc → Acc) : (modAcc s b n f).threads = s.threads := rfl
@[simp] theorem modAcc_gangs (s : State) (b n : Nat) (f : Acc → Acc) : (modAcc s b n f).gangs = s.gangs := rfl
@[simp] theorem modAcc_blocks (s : State) (b n : Nat) (f : Acc → Acc) : (modAcc s b n f).blocks = s.blocks := rfl
@[simp] theorem modAcc_bundles (s : State) (b n : Nat) (f : Acc → Acc) : (modAcc s b n f).bundles = s.bundles := rfl
@[simp] theorem modAcc_bins (s : State) (b n : Nat) (f : Acc → Acc) : (modAcc s b n f).bins = s.bins := rfl
@[simp] theorem modAcc_arrivals (s : State) (b n : Nat) (f : Acc → Acc) : (modAcc s b n f).arrivals = s.arrivals := rfl
@[simp] theorem modAcc_outst (s : State) (b n : Nat) (f : Acc → Acc) : (modAcc s b n f).outst = s.outst := rfl
@[simp] theorem modAcc_cycle (s : State) (b n : Nat) (f : Acc → Acc) : (modAcc s b n f).cycle = s.cycle := rfl
@[simp] theorem modAcc_claims (s : State) (b n : Nat) (f : Acc → Acc) : (modAcc s b n f).claims = s.claims := rfl
@[simp] theorem modAcc_bars (s : State) (b n : Nat) (f : Acc → Acc) : (modAcc s b n f).bars = s.bars := rfl
@[simp] theorem modAcc_rings (s : State) (b n : Nat) (f : Acc → Acc) : (modAcc s b n f).rings = s.rings := rfl
@[simp] theorem modAcc_copies (s : State) (b n : Nat) (f : Acc → Acc) : (modAcc s b n f).copies = s.copies := rfl
@[simp] theorem modAcc_opslots (s : State) (b n : Nat) (f : Acc → Acc) : (modAcc s b n f).opslots = s.opslots := rfl
@[simp] theorem modAcc_masks (s : State) (b n : Nat) (f : Acc → Acc) : (modAcc s b n f).masks = s.masks := rfl
@[simp] theorem modAcc_mops (s : State) (b n : Nat) (f : Acc → Acc) : (modAcc s b n f).mops = s.mops := rfl
@[simp] theorem modAcc_batons (s : State) (b n : Nat) (f : Acc → Acc) : (modAcc s b n f).batons = s.batons := rfl
@[simp] theorem modAcc_tapins (s : State) (b n : Nat) (f : Acc → Acc) : (modAcc s b n f).tapins = s.tapins := rfl
@[simp] theorem modAcc_ruleCopies (s : State) (b n : Nat) (f : Acc → Acc) : (modAcc s b n f).ruleCopies = s.ruleCopies := rfl
@[simp] theorem modAcc_jobs (s : State) (b n : Nat) (f : Acc → Acc) : (modAcc s b n f).jobs = s.jobs := rfl
@[simp] theorem modAcc_killedJobs (s : State) (b n : Nat) (f : Acc → Acc) : (modAcc s b n f).killedJobs = s.killedJobs := rfl
@[simp] theorem modAcc_gone (s : State) (b n : Nat) (f : Acc → Acc) : (modAcc s b n f).gone = s.gone := rfl
@[simp] theorem modAcc_scopes (s : State) (b n : Nat) (f : Acc → Acc) : (modAcc s b n f).scopes = s.scopes := rfl
@[simp] theorem modAcc_conts (s : State) (b n : Nat) (f : Acc → Acc) : (modAcc s b n f).conts = s.conts := rfl
@[simp] theorem modAcc_futs (s : State) (b n : Nat) (f : Acc → Acc) : (modAcc s b n f).futs = s.futs := rfl
@[simp] theorem modAcc_saves (s : State) (b n : Nat) (f : Acc → Acc) : (modAcc s b n f).saves = s.saves := rfl
@[simp] theorem modAcc_entries (s : State) (b n : Nat) (f : Acc → Acc) : (modAcc s b n f).entries = s.entries := rfl
@[simp] theorem modAcc_ckpts (s : State) (b n : Nat) (f : Acc → Acc) : (modAcc s b n f).ckpts = s.ckpts := rfl
@[simp] theorem modAcc_mclog (s : State) (b n : Nat) (f : Acc → Acc) : (modAcc s b n f).mclog = s.mclog := rfl
@[simp] theorem modAcc_ctxs (s : State) (b n : Nat) (f : Acc → Acc) : (modAcc s b n f).ctxs = s.ctxs := rfl
@[simp] theorem modAcc_kqbase (s : State) (b n : Nat) (f : Acc → Acc) : (modAcc s b n f).kqbase = s.kqbase := rfl
@[simp] theorem modAcc_kqsize (s : State) (b n : Nat) (f : Acc → Acc) : (modAcc s b n f).kqsize = s.kqsize := rfl
@[simp] theorem modAcc_kqhead (s : State) (b n : Nat) (f : Acc → Acc) : (modAcc s b n f).kqhead = s.kqhead := rfl
@[simp] theorem modAcc_kqtail (s : State) (b n : Nat) (f : Acc → Acc) : (modAcc s b n f).kqtail = s.kqtail := rfl
@[simp] theorem modAcc_kqfut (s : State) (b n : Nat) (f : Acc → Acc) : (modAcc s b n f).kqfut = s.kqfut := rfl
@[simp] theorem modAcc_kqctx (s : State) (b n : Nat) (f : Acc → Acc) : (modAcc s b n f).kqctx = s.kqctx := rfl
@[simp] theorem modAcc_kctx (s : State) (b n : Nat) (f : Acc → Acc) : (modAcc s b n f).kctx = s.kctx := rfl
@[simp] theorem modAcc_heart (s : State) (b n : Nat) (f : Acc → Acc) : (modAcc s b n f).heart = s.heart := rfl
@[simp] theorem modAcc_cfg (s : State) (b n : Nat) (f : Acc → Acc) : (modAcc s b n f).cfg = s.cfg := rfl
@[simp] theorem modAcc_act (s : State) (b n : Nat) (f : Acc → Acc) : (modAcc s b n f).act = s.act := rfl
@[simp] theorem modAcc_tripped (s : State) (b n : Nat) (f : Acc → Acc) : (modAcc s b n f).tripped = s.tripped := rfl
@[simp] theorem modAcc_clocks (s : State) (b n : Nat) (f : Acc → Acc) : (modAcc s b n f).clocks = s.clocks := rfl
@[simp] theorem modAcc_mem (s : State) (b n : Nat) (f : Acc → Acc) : (modAcc s b n f).mem = s.mem := rfl
@[simp] theorem modAcc_poison (s : State) (b n : Nat) (f : Acc → Acc) : (modAcc s b n f).poison = s.poison := rfl
@[simp] theorem modAcc_lineErrs (s : State) (b n : Nat) (f : Acc → Acc) : (modAcc s b n f).lineErrs = s.lineErrs := rfl
@[simp] theorem modAcc_l2 (s : State) (b n : Nat) (f : Acc → Acc) : (modAcc s b n f).l2 = s.l2 := rfl
@[simp] theorem modAcc_hostMem (s : State) (b n : Nat) (f : Acc → Acc) : (modAcc s b n f).hostMem = s.hostMem := rfl
@[simp] theorem modAcc_walkStore (s : State) (b n : Nat) (f : Acc → Acc) : (modAcc s b n f).walkStore = s.walkStore := rfl
@[simp] theorem modAcc_tlb (s : State) (b n : Nat) (f : Acc → Acc) : (modAcc s b n f).tlb = s.tlb := rfl
@[simp] theorem modAcc_gtags (s : State) (b n : Nat) (f : Acc → Acc) : (modAcc s b n f).gtags = s.gtags := rfl
@[simp] theorem modAcc_pools (s : State) (b n : Nat) (f : Acc → Acc) : (modAcc s b n f).pools = s.pools := rfl
@[simp] theorem modAcc_poolReqs (s : State) (b n : Nat) (f : Acc → Acc) : (modAcc s b n f).poolReqs = s.poolReqs := rfl
@[simp] theorem modAcc_queues (s : State) (b n : Nat) (f : Acc → Acc) : (modAcc s b n f).queues = s.queues := rfl
@[simp] theorem modAcc_msix (s : State) (b n : Nat) (f : Acc → Acc) : (modAcc s b n f).msix = s.msix := rfl
@[simp] theorem modAcc_reports (s : State) (b n : Nat) (f : Acc → Acc) : (modAcc s b n f).reports = s.reports := rfl
@[simp] theorem modAcc_aedov (s : State) (b n : Nat) (f : Acc → Acc) : (modAcc s b n f).aedov = s.aedov := rfl

/-! ### modOpSlot: every field but opslots stays -/

@[simp] theorem modOpSlot_agenda (s : State) (b n : Nat) (f : OpSlot → OpSlot) : (modOpSlot s b n f).agenda = s.agenda := rfl
@[simp] theorem modOpSlot_cur (s : State) (b n : Nat) (f : OpSlot → OpSlot) : (modOpSlot s b n f).cur = s.cur := rfl
@[simp] theorem modOpSlot_nextId (s : State) (b n : Nat) (f : OpSlot → OpSlot) : (modOpSlot s b n f).nextId = s.nextId := rfl
@[simp] theorem modOpSlot_issueNo (s : State) (b n : Nat) (f : OpSlot → OpSlot) : (modOpSlot s b n f).issueNo = s.issueNo := rfl
@[simp] theorem modOpSlot_free (s : State) (b n : Nat) (f : OpSlot → OpSlot) : (modOpSlot s b n f).free = s.free := rfl
@[simp] theorem modOpSlot_threads (s : State) (b n : Nat) (f : OpSlot → OpSlot) : (modOpSlot s b n f).threads = s.threads := rfl
@[simp] theorem modOpSlot_gangs (s : State) (b n : Nat) (f : OpSlot → OpSlot) : (modOpSlot s b n f).gangs = s.gangs := rfl
@[simp] theorem modOpSlot_blocks (s : State) (b n : Nat) (f : OpSlot → OpSlot) : (modOpSlot s b n f).blocks = s.blocks := rfl
@[simp] theorem modOpSlot_bundles (s : State) (b n : Nat) (f : OpSlot → OpSlot) : (modOpSlot s b n f).bundles = s.bundles := rfl
@[simp] theorem modOpSlot_bins (s : State) (b n : Nat) (f : OpSlot → OpSlot) : (modOpSlot s b n f).bins = s.bins := rfl
@[simp] theorem modOpSlot_arrivals (s : State) (b n : Nat) (f : OpSlot → OpSlot) : (modOpSlot s b n f).arrivals = s.arrivals := rfl
@[simp] theorem modOpSlot_outst (s : State) (b n : Nat) (f : OpSlot → OpSlot) : (modOpSlot s b n f).outst = s.outst := rfl
@[simp] theorem modOpSlot_cycle (s : State) (b n : Nat) (f : OpSlot → OpSlot) : (modOpSlot s b n f).cycle = s.cycle := rfl
@[simp] theorem modOpSlot_claims (s : State) (b n : Nat) (f : OpSlot → OpSlot) : (modOpSlot s b n f).claims = s.claims := rfl
@[simp] theorem modOpSlot_bars (s : State) (b n : Nat) (f : OpSlot → OpSlot) : (modOpSlot s b n f).bars = s.bars := rfl
@[simp] theorem modOpSlot_rings (s : State) (b n : Nat) (f : OpSlot → OpSlot) : (modOpSlot s b n f).rings = s.rings := rfl
@[simp] theorem modOpSlot_copies (s : State) (b n : Nat) (f : OpSlot → OpSlot) : (modOpSlot s b n f).copies = s.copies := rfl
@[simp] theorem modOpSlot_accs (s : State) (b n : Nat) (f : OpSlot → OpSlot) : (modOpSlot s b n f).accs = s.accs := rfl
@[simp] theorem modOpSlot_masks (s : State) (b n : Nat) (f : OpSlot → OpSlot) : (modOpSlot s b n f).masks = s.masks := rfl
@[simp] theorem modOpSlot_mops (s : State) (b n : Nat) (f : OpSlot → OpSlot) : (modOpSlot s b n f).mops = s.mops := rfl
@[simp] theorem modOpSlot_batons (s : State) (b n : Nat) (f : OpSlot → OpSlot) : (modOpSlot s b n f).batons = s.batons := rfl
@[simp] theorem modOpSlot_tapins (s : State) (b n : Nat) (f : OpSlot → OpSlot) : (modOpSlot s b n f).tapins = s.tapins := rfl
@[simp] theorem modOpSlot_ruleCopies (s : State) (b n : Nat) (f : OpSlot → OpSlot) : (modOpSlot s b n f).ruleCopies = s.ruleCopies := rfl
@[simp] theorem modOpSlot_jobs (s : State) (b n : Nat) (f : OpSlot → OpSlot) : (modOpSlot s b n f).jobs = s.jobs := rfl
@[simp] theorem modOpSlot_killedJobs (s : State) (b n : Nat) (f : OpSlot → OpSlot) : (modOpSlot s b n f).killedJobs = s.killedJobs := rfl
@[simp] theorem modOpSlot_gone (s : State) (b n : Nat) (f : OpSlot → OpSlot) : (modOpSlot s b n f).gone = s.gone := rfl
@[simp] theorem modOpSlot_scopes (s : State) (b n : Nat) (f : OpSlot → OpSlot) : (modOpSlot s b n f).scopes = s.scopes := rfl
@[simp] theorem modOpSlot_conts (s : State) (b n : Nat) (f : OpSlot → OpSlot) : (modOpSlot s b n f).conts = s.conts := rfl
@[simp] theorem modOpSlot_futs (s : State) (b n : Nat) (f : OpSlot → OpSlot) : (modOpSlot s b n f).futs = s.futs := rfl
@[simp] theorem modOpSlot_saves (s : State) (b n : Nat) (f : OpSlot → OpSlot) : (modOpSlot s b n f).saves = s.saves := rfl
@[simp] theorem modOpSlot_entries (s : State) (b n : Nat) (f : OpSlot → OpSlot) : (modOpSlot s b n f).entries = s.entries := rfl
@[simp] theorem modOpSlot_ckpts (s : State) (b n : Nat) (f : OpSlot → OpSlot) : (modOpSlot s b n f).ckpts = s.ckpts := rfl
@[simp] theorem modOpSlot_mclog (s : State) (b n : Nat) (f : OpSlot → OpSlot) : (modOpSlot s b n f).mclog = s.mclog := rfl
@[simp] theorem modOpSlot_ctxs (s : State) (b n : Nat) (f : OpSlot → OpSlot) : (modOpSlot s b n f).ctxs = s.ctxs := rfl
@[simp] theorem modOpSlot_kqbase (s : State) (b n : Nat) (f : OpSlot → OpSlot) : (modOpSlot s b n f).kqbase = s.kqbase := rfl
@[simp] theorem modOpSlot_kqsize (s : State) (b n : Nat) (f : OpSlot → OpSlot) : (modOpSlot s b n f).kqsize = s.kqsize := rfl
@[simp] theorem modOpSlot_kqhead (s : State) (b n : Nat) (f : OpSlot → OpSlot) : (modOpSlot s b n f).kqhead = s.kqhead := rfl
@[simp] theorem modOpSlot_kqtail (s : State) (b n : Nat) (f : OpSlot → OpSlot) : (modOpSlot s b n f).kqtail = s.kqtail := rfl
@[simp] theorem modOpSlot_kqfut (s : State) (b n : Nat) (f : OpSlot → OpSlot) : (modOpSlot s b n f).kqfut = s.kqfut := rfl
@[simp] theorem modOpSlot_kqctx (s : State) (b n : Nat) (f : OpSlot → OpSlot) : (modOpSlot s b n f).kqctx = s.kqctx := rfl
@[simp] theorem modOpSlot_kctx (s : State) (b n : Nat) (f : OpSlot → OpSlot) : (modOpSlot s b n f).kctx = s.kctx := rfl
@[simp] theorem modOpSlot_heart (s : State) (b n : Nat) (f : OpSlot → OpSlot) : (modOpSlot s b n f).heart = s.heart := rfl
@[simp] theorem modOpSlot_cfg (s : State) (b n : Nat) (f : OpSlot → OpSlot) : (modOpSlot s b n f).cfg = s.cfg := rfl
@[simp] theorem modOpSlot_act (s : State) (b n : Nat) (f : OpSlot → OpSlot) : (modOpSlot s b n f).act = s.act := rfl
@[simp] theorem modOpSlot_tripped (s : State) (b n : Nat) (f : OpSlot → OpSlot) : (modOpSlot s b n f).tripped = s.tripped := rfl
@[simp] theorem modOpSlot_clocks (s : State) (b n : Nat) (f : OpSlot → OpSlot) : (modOpSlot s b n f).clocks = s.clocks := rfl
@[simp] theorem modOpSlot_mem (s : State) (b n : Nat) (f : OpSlot → OpSlot) : (modOpSlot s b n f).mem = s.mem := rfl
@[simp] theorem modOpSlot_poison (s : State) (b n : Nat) (f : OpSlot → OpSlot) : (modOpSlot s b n f).poison = s.poison := rfl
@[simp] theorem modOpSlot_lineErrs (s : State) (b n : Nat) (f : OpSlot → OpSlot) : (modOpSlot s b n f).lineErrs = s.lineErrs := rfl
@[simp] theorem modOpSlot_l2 (s : State) (b n : Nat) (f : OpSlot → OpSlot) : (modOpSlot s b n f).l2 = s.l2 := rfl
@[simp] theorem modOpSlot_hostMem (s : State) (b n : Nat) (f : OpSlot → OpSlot) : (modOpSlot s b n f).hostMem = s.hostMem := rfl
@[simp] theorem modOpSlot_walkStore (s : State) (b n : Nat) (f : OpSlot → OpSlot) : (modOpSlot s b n f).walkStore = s.walkStore := rfl
@[simp] theorem modOpSlot_tlb (s : State) (b n : Nat) (f : OpSlot → OpSlot) : (modOpSlot s b n f).tlb = s.tlb := rfl
@[simp] theorem modOpSlot_gtags (s : State) (b n : Nat) (f : OpSlot → OpSlot) : (modOpSlot s b n f).gtags = s.gtags := rfl
@[simp] theorem modOpSlot_pools (s : State) (b n : Nat) (f : OpSlot → OpSlot) : (modOpSlot s b n f).pools = s.pools := rfl
@[simp] theorem modOpSlot_poolReqs (s : State) (b n : Nat) (f : OpSlot → OpSlot) : (modOpSlot s b n f).poolReqs = s.poolReqs := rfl
@[simp] theorem modOpSlot_queues (s : State) (b n : Nat) (f : OpSlot → OpSlot) : (modOpSlot s b n f).queues = s.queues := rfl
@[simp] theorem modOpSlot_msix (s : State) (b n : Nat) (f : OpSlot → OpSlot) : (modOpSlot s b n f).msix = s.msix := rfl
@[simp] theorem modOpSlot_reports (s : State) (b n : Nat) (f : OpSlot → OpSlot) : (modOpSlot s b n f).reports = s.reports := rfl
@[simp] theorem modOpSlot_aedov (s : State) (b n : Nat) (f : OpSlot → OpSlot) : (modOpSlot s b n f).aedov = s.aedov := rfl

/-! ### modCopy: every field but copies stays -/

@[simp] theorem modCopy_agenda (s : State) (i : Nat) (f : CopyCmd → CopyCmd) : (modCopy s i f).agenda = s.agenda := rfl
@[simp] theorem modCopy_cur (s : State) (i : Nat) (f : CopyCmd → CopyCmd) : (modCopy s i f).cur = s.cur := rfl
@[simp] theorem modCopy_nextId (s : State) (i : Nat) (f : CopyCmd → CopyCmd) : (modCopy s i f).nextId = s.nextId := rfl
@[simp] theorem modCopy_issueNo (s : State) (i : Nat) (f : CopyCmd → CopyCmd) : (modCopy s i f).issueNo = s.issueNo := rfl
@[simp] theorem modCopy_free (s : State) (i : Nat) (f : CopyCmd → CopyCmd) : (modCopy s i f).free = s.free := rfl
@[simp] theorem modCopy_threads (s : State) (i : Nat) (f : CopyCmd → CopyCmd) : (modCopy s i f).threads = s.threads := rfl
@[simp] theorem modCopy_gangs (s : State) (i : Nat) (f : CopyCmd → CopyCmd) : (modCopy s i f).gangs = s.gangs := rfl
@[simp] theorem modCopy_blocks (s : State) (i : Nat) (f : CopyCmd → CopyCmd) : (modCopy s i f).blocks = s.blocks := rfl
@[simp] theorem modCopy_bundles (s : State) (i : Nat) (f : CopyCmd → CopyCmd) : (modCopy s i f).bundles = s.bundles := rfl
@[simp] theorem modCopy_bins (s : State) (i : Nat) (f : CopyCmd → CopyCmd) : (modCopy s i f).bins = s.bins := rfl
@[simp] theorem modCopy_arrivals (s : State) (i : Nat) (f : CopyCmd → CopyCmd) : (modCopy s i f).arrivals = s.arrivals := rfl
@[simp] theorem modCopy_outst (s : State) (i : Nat) (f : CopyCmd → CopyCmd) : (modCopy s i f).outst = s.outst := rfl
@[simp] theorem modCopy_cycle (s : State) (i : Nat) (f : CopyCmd → CopyCmd) : (modCopy s i f).cycle = s.cycle := rfl
@[simp] theorem modCopy_claims (s : State) (i : Nat) (f : CopyCmd → CopyCmd) : (modCopy s i f).claims = s.claims := rfl
@[simp] theorem modCopy_bars (s : State) (i : Nat) (f : CopyCmd → CopyCmd) : (modCopy s i f).bars = s.bars := rfl
@[simp] theorem modCopy_rings (s : State) (i : Nat) (f : CopyCmd → CopyCmd) : (modCopy s i f).rings = s.rings := rfl
@[simp] theorem modCopy_accs (s : State) (i : Nat) (f : CopyCmd → CopyCmd) : (modCopy s i f).accs = s.accs := rfl
@[simp] theorem modCopy_opslots (s : State) (i : Nat) (f : CopyCmd → CopyCmd) : (modCopy s i f).opslots = s.opslots := rfl
@[simp] theorem modCopy_masks (s : State) (i : Nat) (f : CopyCmd → CopyCmd) : (modCopy s i f).masks = s.masks := rfl
@[simp] theorem modCopy_mops (s : State) (i : Nat) (f : CopyCmd → CopyCmd) : (modCopy s i f).mops = s.mops := rfl
@[simp] theorem modCopy_batons (s : State) (i : Nat) (f : CopyCmd → CopyCmd) : (modCopy s i f).batons = s.batons := rfl
@[simp] theorem modCopy_tapins (s : State) (i : Nat) (f : CopyCmd → CopyCmd) : (modCopy s i f).tapins = s.tapins := rfl
@[simp] theorem modCopy_ruleCopies (s : State) (i : Nat) (f : CopyCmd → CopyCmd) : (modCopy s i f).ruleCopies = s.ruleCopies := rfl
@[simp] theorem modCopy_jobs (s : State) (i : Nat) (f : CopyCmd → CopyCmd) : (modCopy s i f).jobs = s.jobs := rfl
@[simp] theorem modCopy_killedJobs (s : State) (i : Nat) (f : CopyCmd → CopyCmd) : (modCopy s i f).killedJobs = s.killedJobs := rfl
@[simp] theorem modCopy_gone (s : State) (i : Nat) (f : CopyCmd → CopyCmd) : (modCopy s i f).gone = s.gone := rfl
@[simp] theorem modCopy_scopes (s : State) (i : Nat) (f : CopyCmd → CopyCmd) : (modCopy s i f).scopes = s.scopes := rfl
@[simp] theorem modCopy_conts (s : State) (i : Nat) (f : CopyCmd → CopyCmd) : (modCopy s i f).conts = s.conts := rfl
@[simp] theorem modCopy_futs (s : State) (i : Nat) (f : CopyCmd → CopyCmd) : (modCopy s i f).futs = s.futs := rfl
@[simp] theorem modCopy_saves (s : State) (i : Nat) (f : CopyCmd → CopyCmd) : (modCopy s i f).saves = s.saves := rfl
@[simp] theorem modCopy_entries (s : State) (i : Nat) (f : CopyCmd → CopyCmd) : (modCopy s i f).entries = s.entries := rfl
@[simp] theorem modCopy_ckpts (s : State) (i : Nat) (f : CopyCmd → CopyCmd) : (modCopy s i f).ckpts = s.ckpts := rfl
@[simp] theorem modCopy_mclog (s : State) (i : Nat) (f : CopyCmd → CopyCmd) : (modCopy s i f).mclog = s.mclog := rfl
@[simp] theorem modCopy_ctxs (s : State) (i : Nat) (f : CopyCmd → CopyCmd) : (modCopy s i f).ctxs = s.ctxs := rfl
@[simp] theorem modCopy_kqbase (s : State) (i : Nat) (f : CopyCmd → CopyCmd) : (modCopy s i f).kqbase = s.kqbase := rfl
@[simp] theorem modCopy_kqsize (s : State) (i : Nat) (f : CopyCmd → CopyCmd) : (modCopy s i f).kqsize = s.kqsize := rfl
@[simp] theorem modCopy_kqhead (s : State) (i : Nat) (f : CopyCmd → CopyCmd) : (modCopy s i f).kqhead = s.kqhead := rfl
@[simp] theorem modCopy_kqtail (s : State) (i : Nat) (f : CopyCmd → CopyCmd) : (modCopy s i f).kqtail = s.kqtail := rfl
@[simp] theorem modCopy_kqfut (s : State) (i : Nat) (f : CopyCmd → CopyCmd) : (modCopy s i f).kqfut = s.kqfut := rfl
@[simp] theorem modCopy_kqctx (s : State) (i : Nat) (f : CopyCmd → CopyCmd) : (modCopy s i f).kqctx = s.kqctx := rfl
@[simp] theorem modCopy_kctx (s : State) (i : Nat) (f : CopyCmd → CopyCmd) : (modCopy s i f).kctx = s.kctx := rfl
@[simp] theorem modCopy_heart (s : State) (i : Nat) (f : CopyCmd → CopyCmd) : (modCopy s i f).heart = s.heart := rfl
@[simp] theorem modCopy_cfg (s : State) (i : Nat) (f : CopyCmd → CopyCmd) : (modCopy s i f).cfg = s.cfg := rfl
@[simp] theorem modCopy_act (s : State) (i : Nat) (f : CopyCmd → CopyCmd) : (modCopy s i f).act = s.act := rfl
@[simp] theorem modCopy_tripped (s : State) (i : Nat) (f : CopyCmd → CopyCmd) : (modCopy s i f).tripped = s.tripped := rfl
@[simp] theorem modCopy_clocks (s : State) (i : Nat) (f : CopyCmd → CopyCmd) : (modCopy s i f).clocks = s.clocks := rfl
@[simp] theorem modCopy_mem (s : State) (i : Nat) (f : CopyCmd → CopyCmd) : (modCopy s i f).mem = s.mem := rfl
@[simp] theorem modCopy_poison (s : State) (i : Nat) (f : CopyCmd → CopyCmd) : (modCopy s i f).poison = s.poison := rfl
@[simp] theorem modCopy_lineErrs (s : State) (i : Nat) (f : CopyCmd → CopyCmd) : (modCopy s i f).lineErrs = s.lineErrs := rfl
@[simp] theorem modCopy_l2 (s : State) (i : Nat) (f : CopyCmd → CopyCmd) : (modCopy s i f).l2 = s.l2 := rfl
@[simp] theorem modCopy_hostMem (s : State) (i : Nat) (f : CopyCmd → CopyCmd) : (modCopy s i f).hostMem = s.hostMem := rfl
@[simp] theorem modCopy_walkStore (s : State) (i : Nat) (f : CopyCmd → CopyCmd) : (modCopy s i f).walkStore = s.walkStore := rfl
@[simp] theorem modCopy_tlb (s : State) (i : Nat) (f : CopyCmd → CopyCmd) : (modCopy s i f).tlb = s.tlb := rfl
@[simp] theorem modCopy_gtags (s : State) (i : Nat) (f : CopyCmd → CopyCmd) : (modCopy s i f).gtags = s.gtags := rfl
@[simp] theorem modCopy_pools (s : State) (i : Nat) (f : CopyCmd → CopyCmd) : (modCopy s i f).pools = s.pools := rfl
@[simp] theorem modCopy_poolReqs (s : State) (i : Nat) (f : CopyCmd → CopyCmd) : (modCopy s i f).poolReqs = s.poolReqs := rfl
@[simp] theorem modCopy_queues (s : State) (i : Nat) (f : CopyCmd → CopyCmd) : (modCopy s i f).queues = s.queues := rfl
@[simp] theorem modCopy_msix (s : State) (i : Nat) (f : CopyCmd → CopyCmd) : (modCopy s i f).msix = s.msix := rfl
@[simp] theorem modCopy_reports (s : State) (i : Nat) (f : CopyCmd → CopyCmd) : (modCopy s i f).reports = s.reports := rfl
@[simp] theorem modCopy_aedov (s : State) (i : Nat) (f : CopyCmd → CopyCmd) : (modCopy s i f).aedov = s.aedov := rfl

/-! ### modPool: every field but pools stays -/

@[simp] theorem modPool_agenda (s : State) (i : Nat) (f : Pool → Pool) : (modPool s i f).agenda = s.agenda := rfl
@[simp] theorem modPool_cur (s : State) (i : Nat) (f : Pool → Pool) : (modPool s i f).cur = s.cur := rfl
@[simp] theorem modPool_nextId (s : State) (i : Nat) (f : Pool → Pool) : (modPool s i f).nextId = s.nextId := rfl
@[simp] theorem modPool_issueNo (s : State) (i : Nat) (f : Pool → Pool) : (modPool s i f).issueNo = s.issueNo := rfl
@[simp] theorem modPool_free (s : State) (i : Nat) (f : Pool → Pool) : (modPool s i f).free = s.free := rfl
@[simp] theorem modPool_threads (s : State) (i : Nat) (f : Pool → Pool) : (modPool s i f).threads = s.threads := rfl
@[simp] theorem modPool_gangs (s : State) (i : Nat) (f : Pool → Pool) : (modPool s i f).gangs = s.gangs := rfl
@[simp] theorem modPool_blocks (s : State) (i : Nat) (f : Pool → Pool) : (modPool s i f).blocks = s.blocks := rfl
@[simp] theorem modPool_bundles (s : State) (i : Nat) (f : Pool → Pool) : (modPool s i f).bundles = s.bundles := rfl
@[simp] theorem modPool_bins (s : State) (i : Nat) (f : Pool → Pool) : (modPool s i f).bins = s.bins := rfl
@[simp] theorem modPool_arrivals (s : State) (i : Nat) (f : Pool → Pool) : (modPool s i f).arrivals = s.arrivals := rfl
@[simp] theorem modPool_outst (s : State) (i : Nat) (f : Pool → Pool) : (modPool s i f).outst = s.outst := rfl
@[simp] theorem modPool_cycle (s : State) (i : Nat) (f : Pool → Pool) : (modPool s i f).cycle = s.cycle := rfl
@[simp] theorem modPool_claims (s : State) (i : Nat) (f : Pool → Pool) : (modPool s i f).claims = s.claims := rfl
@[simp] theorem modPool_bars (s : State) (i : Nat) (f : Pool → Pool) : (modPool s i f).bars = s.bars := rfl
@[simp] theorem modPool_rings (s : State) (i : Nat) (f : Pool → Pool) : (modPool s i f).rings = s.rings := rfl
@[simp] theorem modPool_copies (s : State) (i : Nat) (f : Pool → Pool) : (modPool s i f).copies = s.copies := rfl
@[simp] theorem modPool_accs (s : State) (i : Nat) (f : Pool → Pool) : (modPool s i f).accs = s.accs := rfl
@[simp] theorem modPool_opslots (s : State) (i : Nat) (f : Pool → Pool) : (modPool s i f).opslots = s.opslots := rfl
@[simp] theorem modPool_masks (s : State) (i : Nat) (f : Pool → Pool) : (modPool s i f).masks = s.masks := rfl
@[simp] theorem modPool_mops (s : State) (i : Nat) (f : Pool → Pool) : (modPool s i f).mops = s.mops := rfl
@[simp] theorem modPool_batons (s : State) (i : Nat) (f : Pool → Pool) : (modPool s i f).batons = s.batons := rfl
@[simp] theorem modPool_tapins (s : State) (i : Nat) (f : Pool → Pool) : (modPool s i f).tapins = s.tapins := rfl
@[simp] theorem modPool_ruleCopies (s : State) (i : Nat) (f : Pool → Pool) : (modPool s i f).ruleCopies = s.ruleCopies := rfl
@[simp] theorem modPool_jobs (s : State) (i : Nat) (f : Pool → Pool) : (modPool s i f).jobs = s.jobs := rfl
@[simp] theorem modPool_killedJobs (s : State) (i : Nat) (f : Pool → Pool) : (modPool s i f).killedJobs = s.killedJobs := rfl
@[simp] theorem modPool_gone (s : State) (i : Nat) (f : Pool → Pool) : (modPool s i f).gone = s.gone := rfl
@[simp] theorem modPool_scopes (s : State) (i : Nat) (f : Pool → Pool) : (modPool s i f).scopes = s.scopes := rfl
@[simp] theorem modPool_conts (s : State) (i : Nat) (f : Pool → Pool) : (modPool s i f).conts = s.conts := rfl
@[simp] theorem modPool_futs (s : State) (i : Nat) (f : Pool → Pool) : (modPool s i f).futs = s.futs := rfl
@[simp] theorem modPool_saves (s : State) (i : Nat) (f : Pool → Pool) : (modPool s i f).saves = s.saves := rfl
@[simp] theorem modPool_entries (s : State) (i : Nat) (f : Pool → Pool) : (modPool s i f).entries = s.entries := rfl
@[simp] theorem modPool_ckpts (s : State) (i : Nat) (f : Pool → Pool) : (modPool s i f).ckpts = s.ckpts := rfl
@[simp] theorem modPool_mclog (s : State) (i : Nat) (f : Pool → Pool) : (modPool s i f).mclog = s.mclog := rfl
@[simp] theorem modPool_ctxs (s : State) (i : Nat) (f : Pool → Pool) : (modPool s i f).ctxs = s.ctxs := rfl
@[simp] theorem modPool_kqbase (s : State) (i : Nat) (f : Pool → Pool) : (modPool s i f).kqbase = s.kqbase := rfl
@[simp] theorem modPool_kqsize (s : State) (i : Nat) (f : Pool → Pool) : (modPool s i f).kqsize = s.kqsize := rfl
@[simp] theorem modPool_kqhead (s : State) (i : Nat) (f : Pool → Pool) : (modPool s i f).kqhead = s.kqhead := rfl
@[simp] theorem modPool_kqtail (s : State) (i : Nat) (f : Pool → Pool) : (modPool s i f).kqtail = s.kqtail := rfl
@[simp] theorem modPool_kqfut (s : State) (i : Nat) (f : Pool → Pool) : (modPool s i f).kqfut = s.kqfut := rfl
@[simp] theorem modPool_kqctx (s : State) (i : Nat) (f : Pool → Pool) : (modPool s i f).kqctx = s.kqctx := rfl
@[simp] theorem modPool_kctx (s : State) (i : Nat) (f : Pool → Pool) : (modPool s i f).kctx = s.kctx := rfl
@[simp] theorem modPool_heart (s : State) (i : Nat) (f : Pool → Pool) : (modPool s i f).heart = s.heart := rfl
@[simp] theorem modPool_cfg (s : State) (i : Nat) (f : Pool → Pool) : (modPool s i f).cfg = s.cfg := rfl
@[simp] theorem modPool_act (s : State) (i : Nat) (f : Pool → Pool) : (modPool s i f).act = s.act := rfl
@[simp] theorem modPool_tripped (s : State) (i : Nat) (f : Pool → Pool) : (modPool s i f).tripped = s.tripped := rfl
@[simp] theorem modPool_clocks (s : State) (i : Nat) (f : Pool → Pool) : (modPool s i f).clocks = s.clocks := rfl
@[simp] theorem modPool_mem (s : State) (i : Nat) (f : Pool → Pool) : (modPool s i f).mem = s.mem := rfl
@[simp] theorem modPool_poison (s : State) (i : Nat) (f : Pool → Pool) : (modPool s i f).poison = s.poison := rfl
@[simp] theorem modPool_lineErrs (s : State) (i : Nat) (f : Pool → Pool) : (modPool s i f).lineErrs = s.lineErrs := rfl
@[simp] theorem modPool_l2 (s : State) (i : Nat) (f : Pool → Pool) : (modPool s i f).l2 = s.l2 := rfl
@[simp] theorem modPool_hostMem (s : State) (i : Nat) (f : Pool → Pool) : (modPool s i f).hostMem = s.hostMem := rfl
@[simp] theorem modPool_walkStore (s : State) (i : Nat) (f : Pool → Pool) : (modPool s i f).walkStore = s.walkStore := rfl
@[simp] theorem modPool_tlb (s : State) (i : Nat) (f : Pool → Pool) : (modPool s i f).tlb = s.tlb := rfl
@[simp] theorem modPool_gtags (s : State) (i : Nat) (f : Pool → Pool) : (modPool s i f).gtags = s.gtags := rfl
@[simp] theorem modPool_poolReqs (s : State) (i : Nat) (f : Pool → Pool) : (modPool s i f).poolReqs = s.poolReqs := rfl
@[simp] theorem modPool_queues (s : State) (i : Nat) (f : Pool → Pool) : (modPool s i f).queues = s.queues := rfl
@[simp] theorem modPool_msix (s : State) (i : Nat) (f : Pool → Pool) : (modPool s i f).msix = s.msix := rfl
@[simp] theorem modPool_reports (s : State) (i : Nat) (f : Pool → Pool) : (modPool s i f).reports = s.reports := rfl
@[simp] theorem modPool_aedov (s : State) (i : Nat) (f : Pool → Pool) : (modPool s i f).aedov = s.aedov := rfl

/-! ### updOutst: every field but outst stays -/

@[simp] theorem updOutst_agenda (s : State) (i : Nat) (f : Outst → Outst) : (updOutst s i f).agenda = s.agenda := rfl
@[simp] theorem updOutst_cur (s : State) (i : Nat) (f : Outst → Outst) : (updOutst s i f).cur = s.cur := rfl
@[simp] theorem updOutst_nextId (s : State) (i : Nat) (f : Outst → Outst) : (updOutst s i f).nextId = s.nextId := rfl
@[simp] theorem updOutst_issueNo (s : State) (i : Nat) (f : Outst → Outst) : (updOutst s i f).issueNo = s.issueNo := rfl
@[simp] theorem updOutst_free (s : State) (i : Nat) (f : Outst → Outst) : (updOutst s i f).free = s.free := rfl
@[simp] theorem updOutst_threads (s : State) (i : Nat) (f : Outst → Outst) : (updOutst s i f).threads = s.threads := rfl
@[simp] theorem updOutst_gangs (s : State) (i : Nat) (f : Outst → Outst) : (updOutst s i f).gangs = s.gangs := rfl
@[simp] theorem updOutst_blocks (s : State) (i : Nat) (f : Outst → Outst) : (updOutst s i f).blocks = s.blocks := rfl
@[simp] theorem updOutst_bundles (s : State) (i : Nat) (f : Outst → Outst) : (updOutst s i f).bundles = s.bundles := rfl
@[simp] theorem updOutst_bins (s : State) (i : Nat) (f : Outst → Outst) : (updOutst s i f).bins = s.bins := rfl
@[simp] theorem updOutst_arrivals (s : State) (i : Nat) (f : Outst → Outst) : (updOutst s i f).arrivals = s.arrivals := rfl
@[simp] theorem updOutst_cycle (s : State) (i : Nat) (f : Outst → Outst) : (updOutst s i f).cycle = s.cycle := rfl
@[simp] theorem updOutst_claims (s : State) (i : Nat) (f : Outst → Outst) : (updOutst s i f).claims = s.claims := rfl
@[simp] theorem updOutst_bars (s : State) (i : Nat) (f : Outst → Outst) : (updOutst s i f).bars = s.bars := rfl
@[simp] theorem updOutst_rings (s : State) (i : Nat) (f : Outst → Outst) : (updOutst s i f).rings = s.rings := rfl
@[simp] theorem updOutst_copies (s : State) (i : Nat) (f : Outst → Outst) : (updOutst s i f).copies = s.copies := rfl
@[simp] theorem updOutst_accs (s : State) (i : Nat) (f : Outst → Outst) : (updOutst s i f).accs = s.accs := rfl
@[simp] theorem updOutst_opslots (s : State) (i : Nat) (f : Outst → Outst) : (updOutst s i f).opslots = s.opslots := rfl
@[simp] theorem updOutst_masks (s : State) (i : Nat) (f : Outst → Outst) : (updOutst s i f).masks = s.masks := rfl
@[simp] theorem updOutst_mops (s : State) (i : Nat) (f : Outst → Outst) : (updOutst s i f).mops = s.mops := rfl
@[simp] theorem updOutst_batons (s : State) (i : Nat) (f : Outst → Outst) : (updOutst s i f).batons = s.batons := rfl
@[simp] theorem updOutst_tapins (s : State) (i : Nat) (f : Outst → Outst) : (updOutst s i f).tapins = s.tapins := rfl
@[simp] theorem updOutst_ruleCopies (s : State) (i : Nat) (f : Outst → Outst) : (updOutst s i f).ruleCopies = s.ruleCopies := rfl
@[simp] theorem updOutst_jobs (s : State) (i : Nat) (f : Outst → Outst) : (updOutst s i f).jobs = s.jobs := rfl
@[simp] theorem updOutst_killedJobs (s : State) (i : Nat) (f : Outst → Outst) : (updOutst s i f).killedJobs = s.killedJobs := rfl
@[simp] theorem updOutst_gone (s : State) (i : Nat) (f : Outst → Outst) : (updOutst s i f).gone = s.gone := rfl
@[simp] theorem updOutst_scopes (s : State) (i : Nat) (f : Outst → Outst) : (updOutst s i f).scopes = s.scopes := rfl
@[simp] theorem updOutst_conts (s : State) (i : Nat) (f : Outst → Outst) : (updOutst s i f).conts = s.conts := rfl
@[simp] theorem updOutst_futs (s : State) (i : Nat) (f : Outst → Outst) : (updOutst s i f).futs = s.futs := rfl
@[simp] theorem updOutst_saves (s : State) (i : Nat) (f : Outst → Outst) : (updOutst s i f).saves = s.saves := rfl
@[simp] theorem updOutst_entries (s : State) (i : Nat) (f : Outst → Outst) : (updOutst s i f).entries = s.entries := rfl
@[simp] theorem updOutst_ckpts (s : State) (i : Nat) (f : Outst → Outst) : (updOutst s i f).ckpts = s.ckpts := rfl
@[simp] theorem updOutst_mclog (s : State) (i : Nat) (f : Outst → Outst) : (updOutst s i f).mclog = s.mclog := rfl
@[simp] theorem updOutst_ctxs (s : State) (i : Nat) (f : Outst → Outst) : (updOutst s i f).ctxs = s.ctxs := rfl
@[simp] theorem updOutst_kqbase (s : State) (i : Nat) (f : Outst → Outst) : (updOutst s i f).kqbase = s.kqbase := rfl
@[simp] theorem updOutst_kqsize (s : State) (i : Nat) (f : Outst → Outst) : (updOutst s i f).kqsize = s.kqsize := rfl
@[simp] theorem updOutst_kqhead (s : State) (i : Nat) (f : Outst → Outst) : (updOutst s i f).kqhead = s.kqhead := rfl
@[simp] theorem updOutst_kqtail (s : State) (i : Nat) (f : Outst → Outst) : (updOutst s i f).kqtail = s.kqtail := rfl
@[simp] theorem updOutst_kqfut (s : State) (i : Nat) (f : Outst → Outst) : (updOutst s i f).kqfut = s.kqfut := rfl
@[simp] theorem updOutst_kqctx (s : State) (i : Nat) (f : Outst → Outst) : (updOutst s i f).kqctx = s.kqctx := rfl
@[simp] theorem updOutst_kctx (s : State) (i : Nat) (f : Outst → Outst) : (updOutst s i f).kctx = s.kctx := rfl
@[simp] theorem updOutst_heart (s : State) (i : Nat) (f : Outst → Outst) : (updOutst s i f).heart = s.heart := rfl
@[simp] theorem updOutst_cfg (s : State) (i : Nat) (f : Outst → Outst) : (updOutst s i f).cfg = s.cfg := rfl
@[simp] theorem updOutst_act (s : State) (i : Nat) (f : Outst → Outst) : (updOutst s i f).act = s.act := rfl
@[simp] theorem updOutst_tripped (s : State) (i : Nat) (f : Outst → Outst) : (updOutst s i f).tripped = s.tripped := rfl
@[simp] theorem updOutst_clocks (s : State) (i : Nat) (f : Outst → Outst) : (updOutst s i f).clocks = s.clocks := rfl
@[simp] theorem updOutst_mem (s : State) (i : Nat) (f : Outst → Outst) : (updOutst s i f).mem = s.mem := rfl
@[simp] theorem updOutst_poison (s : State) (i : Nat) (f : Outst → Outst) : (updOutst s i f).poison = s.poison := rfl
@[simp] theorem updOutst_lineErrs (s : State) (i : Nat) (f : Outst → Outst) : (updOutst s i f).lineErrs = s.lineErrs := rfl
@[simp] theorem updOutst_l2 (s : State) (i : Nat) (f : Outst → Outst) : (updOutst s i f).l2 = s.l2 := rfl
@[simp] theorem updOutst_hostMem (s : State) (i : Nat) (f : Outst → Outst) : (updOutst s i f).hostMem = s.hostMem := rfl
@[simp] theorem updOutst_walkStore (s : State) (i : Nat) (f : Outst → Outst) : (updOutst s i f).walkStore = s.walkStore := rfl
@[simp] theorem updOutst_tlb (s : State) (i : Nat) (f : Outst → Outst) : (updOutst s i f).tlb = s.tlb := rfl
@[simp] theorem updOutst_gtags (s : State) (i : Nat) (f : Outst → Outst) : (updOutst s i f).gtags = s.gtags := rfl
@[simp] theorem updOutst_pools (s : State) (i : Nat) (f : Outst → Outst) : (updOutst s i f).pools = s.pools := rfl
@[simp] theorem updOutst_poolReqs (s : State) (i : Nat) (f : Outst → Outst) : (updOutst s i f).poolReqs = s.poolReqs := rfl
@[simp] theorem updOutst_queues (s : State) (i : Nat) (f : Outst → Outst) : (updOutst s i f).queues = s.queues := rfl
@[simp] theorem updOutst_msix (s : State) (i : Nat) (f : Outst → Outst) : (updOutst s i f).msix = s.msix := rfl
@[simp] theorem updOutst_reports (s : State) (i : Nat) (f : Outst → Outst) : (updOutst s i f).reports = s.reports := rfl
@[simp] theorem updOutst_aedov (s : State) (i : Nat) (f : Outst → Outst) : (updOutst s i f).aedov = s.aedov := rfl

/-! ### dropOutst: every field but outst stays -/

@[simp] theorem dropOutst_agenda (s : State) (i : Nat) : (dropOutst s i).agenda = s.agenda := rfl
@[simp] theorem dropOutst_cur (s : State) (i : Nat) : (dropOutst s i).cur = s.cur := rfl
@[simp] theorem dropOutst_nextId (s : State) (i : Nat) : (dropOutst s i).nextId = s.nextId := rfl
@[simp] theorem dropOutst_issueNo (s : State) (i : Nat) : (dropOutst s i).issueNo = s.issueNo := rfl
@[simp] theorem dropOutst_free (s : State) (i : Nat) : (dropOutst s i).free = s.free := rfl
@[simp] theorem dropOutst_threads (s : State) (i : Nat) : (dropOutst s i).threads = s.threads := rfl
@[simp] theorem dropOutst_gangs (s : State) (i : Nat) : (dropOutst s i).gangs = s.gangs := rfl
@[simp] theorem dropOutst_blocks (s : State) (i : Nat) : (dropOutst s i).blocks = s.blocks := rfl
@[simp] theorem dropOutst_bundles (s : State) (i : Nat) : (dropOutst s i).bundles = s.bundles := rfl
@[simp] theorem dropOutst_bins (s : State) (i : Nat) : (dropOutst s i).bins = s.bins := rfl
@[simp] theorem dropOutst_arrivals (s : State) (i : Nat) : (dropOutst s i).arrivals = s.arrivals := rfl
@[simp] theorem dropOutst_cycle (s : State) (i : Nat) : (dropOutst s i).cycle = s.cycle := rfl
@[simp] theorem dropOutst_claims (s : State) (i : Nat) : (dropOutst s i).claims = s.claims := rfl
@[simp] theorem dropOutst_bars (s : State) (i : Nat) : (dropOutst s i).bars = s.bars := rfl
@[simp] theorem dropOutst_rings (s : State) (i : Nat) : (dropOutst s i).rings = s.rings := rfl
@[simp] theorem dropOutst_copies (s : State) (i : Nat) : (dropOutst s i).copies = s.copies := rfl
@[simp] theorem dropOutst_accs (s : State) (i : Nat) : (dropOutst s i).accs = s.accs := rfl
@[simp] theorem dropOutst_opslots (s : State) (i : Nat) : (dropOutst s i).opslots = s.opslots := rfl
@[simp] theorem dropOutst_masks (s : State) (i : Nat) : (dropOutst s i).masks = s.masks := rfl
@[simp] theorem dropOutst_mops (s : State) (i : Nat) : (dropOutst s i).mops = s.mops := rfl
@[simp] theorem dropOutst_batons (s : State) (i : Nat) : (dropOutst s i).batons = s.batons := rfl
@[simp] theorem dropOutst_tapins (s : State) (i : Nat) : (dropOutst s i).tapins = s.tapins := rfl
@[simp] theorem dropOutst_ruleCopies (s : State) (i : Nat) : (dropOutst s i).ruleCopies = s.ruleCopies := rfl
@[simp] theorem dropOutst_jobs (s : State) (i : Nat) : (dropOutst s i).jobs = s.jobs := rfl
@[simp] theorem dropOutst_killedJobs (s : State) (i : Nat) : (dropOutst s i).killedJobs = s.killedJobs := rfl
@[simp] theorem dropOutst_gone (s : State) (i : Nat) : (dropOutst s i).gone = s.gone := rfl
@[simp] theorem dropOutst_scopes (s : State) (i : Nat) : (dropOutst s i).scopes = s.scopes := rfl
@[simp] theorem dropOutst_conts (s : State) (i : Nat) : (dropOutst s i).conts = s.conts := rfl
@[simp] theorem dropOutst_futs (s : State) (i : Nat) : (dropOutst s i).futs = s.futs := rfl
@[simp] theorem dropOutst_saves (s : State) (i : Nat) : (dropOutst s i).saves = s.saves := rfl
@[simp] theorem dropOutst_entries (s : State) (i : Nat) : (dropOutst s i).entries = s.entries := rfl
@[simp] theorem dropOutst_ckpts (s : State) (i : Nat) : (dropOutst s i).ckpts = s.ckpts := rfl
@[simp] theorem dropOutst_mclog (s : State) (i : Nat) : (dropOutst s i).mclog = s.mclog := rfl
@[simp] theorem dropOutst_ctxs (s : State) (i : Nat) : (dropOutst s i).ctxs = s.ctxs := rfl
@[simp] theorem dropOutst_kqbase (s : State) (i : Nat) : (dropOutst s i).kqbase = s.kqbase := rfl
@[simp] theorem dropOutst_kqsize (s : State) (i : Nat) : (dropOutst s i).kqsize = s.kqsize := rfl
@[simp] theorem dropOutst_kqhead (s : State) (i : Nat) : (dropOutst s i).kqhead = s.kqhead := rfl
@[simp] theorem dropOutst_kqtail (s : State) (i : Nat) : (dropOutst s i).kqtail = s.kqtail := rfl
@[simp] theorem dropOutst_kqfut (s : State) (i : Nat) : (dropOutst s i).kqfut = s.kqfut := rfl
@[simp] theorem dropOutst_kqctx (s : State) (i : Nat) : (dropOutst s i).kqctx = s.kqctx := rfl
@[simp] theorem dropOutst_kctx (s : State) (i : Nat) : (dropOutst s i).kctx = s.kctx := rfl
@[simp] theorem dropOutst_heart (s : State) (i : Nat) : (dropOutst s i).heart = s.heart := rfl
@[simp] theorem dropOutst_cfg (s : State) (i : Nat) : (dropOutst s i).cfg = s.cfg := rfl
@[simp] theorem dropOutst_act (s : State) (i : Nat) : (dropOutst s i).act = s.act := rfl
@[simp] theorem dropOutst_tripped (s : State) (i : Nat) : (dropOutst s i).tripped = s.tripped := rfl
@[simp] theorem dropOutst_clocks (s : State) (i : Nat) : (dropOutst s i).clocks = s.clocks := rfl
@[simp] theorem dropOutst_mem (s : State) (i : Nat) : (dropOutst s i).mem = s.mem := rfl
@[simp] theorem dropOutst_poison (s : State) (i : Nat) : (dropOutst s i).poison = s.poison := rfl
@[simp] theorem dropOutst_lineErrs (s : State) (i : Nat) : (dropOutst s i).lineErrs = s.lineErrs := rfl
@[simp] theorem dropOutst_l2 (s : State) (i : Nat) : (dropOutst s i).l2 = s.l2 := rfl
@[simp] theorem dropOutst_hostMem (s : State) (i : Nat) : (dropOutst s i).hostMem = s.hostMem := rfl
@[simp] theorem dropOutst_walkStore (s : State) (i : Nat) : (dropOutst s i).walkStore = s.walkStore := rfl
@[simp] theorem dropOutst_tlb (s : State) (i : Nat) : (dropOutst s i).tlb = s.tlb := rfl
@[simp] theorem dropOutst_gtags (s : State) (i : Nat) : (dropOutst s i).gtags = s.gtags := rfl
@[simp] theorem dropOutst_pools (s : State) (i : Nat) : (dropOutst s i).pools = s.pools := rfl
@[simp] theorem dropOutst_poolReqs (s : State) (i : Nat) : (dropOutst s i).poolReqs = s.poolReqs := rfl
@[simp] theorem dropOutst_queues (s : State) (i : Nat) : (dropOutst s i).queues = s.queues := rfl
@[simp] theorem dropOutst_msix (s : State) (i : Nat) : (dropOutst s i).msix = s.msix := rfl
@[simp] theorem dropOutst_reports (s : State) (i : Nat) : (dropOutst s i).reports = s.reports := rfl
@[simp] theorem dropOutst_aedov (s : State) (i : Nat) : (dropOutst s i).aedov = s.aedov := rfl

/-! ### setQueue: every field but queues stays -/

@[simp] theorem setQueue_agenda (s : State) (q : Nat) (x : HostQ) : (setQueue s q x).agenda = s.agenda := rfl
@[simp] theorem setQueue_cur (s : State) (q : Nat) (x : HostQ) : (setQueue s q x).cur = s.cur := rfl
@[simp] theorem setQueue_nextId (s : State) (q : Nat) (x : HostQ) : (setQueue s q x).nextId = s.nextId := rfl
@[simp] theorem setQueue_issueNo (s : State) (q : Nat) (x : HostQ) : (setQueue s q x).issueNo = s.issueNo := rfl
@[simp] theorem setQueue_free (s : State) (q : Nat) (x : HostQ) : (setQueue s q x).free = s.free := rfl
@[simp] theorem setQueue_threads (s : State) (q : Nat) (x : HostQ) : (setQueue s q x).threads = s.threads := rfl
@[simp] theorem setQueue_gangs (s : State) (q : Nat) (x : HostQ) : (setQueue s q x).gangs = s.gangs := rfl
@[simp] theorem setQueue_blocks (s : State) (q : Nat) (x : HostQ) : (setQueue s q x).blocks = s.blocks := rfl
@[simp] theorem setQueue_bundles (s : State) (q : Nat) (x : HostQ) : (setQueue s q x).bundles = s.bundles := rfl
@[simp] theorem setQueue_bins (s : State) (q : Nat) (x : HostQ) : (setQueue s q x).bins = s.bins := rfl
@[simp] theorem setQueue_arrivals (s : State) (q : Nat) (x : HostQ) : (setQueue s q x).arrivals = s.arrivals := rfl
@[simp] theorem setQueue_outst (s : State) (q : Nat) (x : HostQ) : (setQueue s q x).outst = s.outst := rfl
@[simp] theorem setQueue_cycle (s : State) (q : Nat) (x : HostQ) : (setQueue s q x).cycle = s.cycle := rfl
@[simp] theorem setQueue_claims (s : State) (q : Nat) (x : HostQ) : (setQueue s q x).claims = s.claims := rfl
@[simp] theorem setQueue_bars (s : State) (q : Nat) (x : HostQ) : (setQueue s q x).bars = s.bars := rfl
@[simp] theorem setQueue_rings (s : State) (q : Nat) (x : HostQ) : (setQueue s q x).rings = s.rings := rfl
@[simp] theorem setQueue_copies (s : State) (q : Nat) (x : HostQ) : (setQueue s q x).copies = s.copies := rfl
@[simp] theorem setQueue_accs (s : State) (q : Nat) (x : HostQ) : (setQueue s q x).accs = s.accs := rfl
@[simp] theorem setQueue_opslots (s : State) (q : Nat) (x : HostQ) : (setQueue s q x).opslots = s.opslots := rfl
@[simp] theorem setQueue_masks (s : State) (q : Nat) (x : HostQ) : (setQueue s q x).masks = s.masks := rfl
@[simp] theorem setQueue_mops (s : State) (q : Nat) (x : HostQ) : (setQueue s q x).mops = s.mops := rfl
@[simp] theorem setQueue_batons (s : State) (q : Nat) (x : HostQ) : (setQueue s q x).batons = s.batons := rfl
@[simp] theorem setQueue_tapins (s : State) (q : Nat) (x : HostQ) : (setQueue s q x).tapins = s.tapins := rfl
@[simp] theorem setQueue_ruleCopies (s : State) (q : Nat) (x : HostQ) : (setQueue s q x).ruleCopies = s.ruleCopies := rfl
@[simp] theorem setQueue_jobs (s : State) (q : Nat) (x : HostQ) : (setQueue s q x).jobs = s.jobs := rfl
@[simp] theorem setQueue_killedJobs (s : State) (q : Nat) (x : HostQ) : (setQueue s q x).killedJobs = s.killedJobs := rfl
@[simp] theorem setQueue_gone (s : State) (q : Nat) (x : HostQ) : (setQueue s q x).gone = s.gone := rfl
@[simp] theorem setQueue_scopes (s : State) (q : Nat) (x : HostQ) : (setQueue s q x).scopes = s.scopes := rfl
@[simp] theorem setQueue_conts (s : State) (q : Nat) (x : HostQ) : (setQueue s q x).conts = s.conts := rfl
@[simp] theorem setQueue_futs (s : State) (q : Nat) (x : HostQ) : (setQueue s q x).futs = s.futs := rfl
@[simp] theorem setQueue_saves (s : State) (q : Nat) (x : HostQ) : (setQueue s q x).saves = s.saves := rfl
@[simp] theorem setQueue_entries (s : State) (q : Nat) (x : HostQ) : (setQueue s q x).entries = s.entries := rfl
@[simp] theorem setQueue_ckpts (s : State) (q : Nat) (x : HostQ) : (setQueue s q x).ckpts = s.ckpts := rfl
@[simp] theorem setQueue_mclog (s : State) (q : Nat) (x : HostQ) : (setQueue s q x).mclog = s.mclog := rfl
@[simp] theorem setQueue_ctxs (s : State) (q : Nat) (x : HostQ) : (setQueue s q x).ctxs = s.ctxs := rfl
@[simp] theorem setQueue_kqbase (s : State) (q : Nat) (x : HostQ) : (setQueue s q x).kqbase = s.kqbase := rfl
@[simp] theorem setQueue_kqsize (s : State) (q : Nat) (x : HostQ) : (setQueue s q x).kqsize = s.kqsize := rfl
@[simp] theorem setQueue_kqhead (s : State) (q : Nat) (x : HostQ) : (setQueue s q x).kqhead = s.kqhead := rfl
@[simp] theorem setQueue_kqtail (s : State) (q : Nat) (x : HostQ) : (setQueue s q x).kqtail = s.kqtail := rfl
@[simp] theorem setQueue_kqfut (s : State) (q : Nat) (x : HostQ) : (setQueue s q x).kqfut = s.kqfut := rfl
@[simp] theorem setQueue_kqctx (s : State) (q : Nat) (x : HostQ) : (setQueue s q x).kqctx = s.kqctx := rfl
@[simp] theorem setQueue_kctx (s : State) (q : Nat) (x : HostQ) : (setQueue s q x).kctx = s.kctx := rfl
@[simp] theorem setQueue_heart (s : State) (q : Nat) (x : HostQ) : (setQueue s q x).heart = s.heart := rfl
@[simp] theorem setQueue_cfg (s : State) (q : Nat) (x : HostQ) : (setQueue s q x).cfg = s.cfg := rfl
@[simp] theorem setQueue_act (s : State) (q : Nat) (x : HostQ) : (setQueue s q x).act = s.act := rfl
@[simp] theorem setQueue_tripped (s : State) (q : Nat) (x : HostQ) : (setQueue s q x).tripped = s.tripped := rfl
@[simp] theorem setQueue_clocks (s : State) (q : Nat) (x : HostQ) : (setQueue s q x).clocks = s.clocks := rfl
@[simp] theorem setQueue_mem (s : State) (q : Nat) (x : HostQ) : (setQueue s q x).mem = s.mem := rfl
@[simp] theorem setQueue_poison (s : State) (q : Nat) (x : HostQ) : (setQueue s q x).poison = s.poison := rfl
@[simp] theorem setQueue_lineErrs (s : State) (q : Nat) (x : HostQ) : (setQueue s q x).lineErrs = s.lineErrs := rfl
@[simp] theorem setQueue_l2 (s : State) (q : Nat) (x : HostQ) : (setQueue s q x).l2 = s.l2 := rfl
@[simp] theorem setQueue_hostMem (s : State) (q : Nat) (x : HostQ) : (setQueue s q x).hostMem = s.hostMem := rfl
@[simp] theorem setQueue_walkStore (s : State) (q : Nat) (x : HostQ) : (setQueue s q x).walkStore = s.walkStore := rfl
@[simp] theorem setQueue_tlb (s : State) (q : Nat) (x : HostQ) : (setQueue s q x).tlb = s.tlb := rfl
@[simp] theorem setQueue_gtags (s : State) (q : Nat) (x : HostQ) : (setQueue s q x).gtags = s.gtags := rfl
@[simp] theorem setQueue_pools (s : State) (q : Nat) (x : HostQ) : (setQueue s q x).pools = s.pools := rfl
@[simp] theorem setQueue_poolReqs (s : State) (q : Nat) (x : HostQ) : (setQueue s q x).poolReqs = s.poolReqs := rfl
@[simp] theorem setQueue_msix (s : State) (q : Nat) (x : HostQ) : (setQueue s q x).msix = s.msix := rfl
@[simp] theorem setQueue_reports (s : State) (q : Nat) (x : HostQ) : (setQueue s q x).reports = s.reports := rfl
@[simp] theorem setQueue_aedov (s : State) (q : Nat) (x : HostQ) : (setQueue s q x).aedov = s.aedov := rfl

/-! ### writeBytes: every field but mem stays -/

@[simp] theorem writeBytes_agenda (s : State) (pa : Nat) (bs : List Byte) : (writeBytes s pa bs).agenda = s.agenda := rfl
@[simp] theorem writeBytes_cur (s : State) (pa : Nat) (bs : List Byte) : (writeBytes s pa bs).cur = s.cur := rfl
@[simp] theorem writeBytes_nextId (s : State) (pa : Nat) (bs : List Byte) : (writeBytes s pa bs).nextId = s.nextId := rfl
@[simp] theorem writeBytes_issueNo (s : State) (pa : Nat) (bs : List Byte) : (writeBytes s pa bs).issueNo = s.issueNo := rfl
@[simp] theorem writeBytes_free (s : State) (pa : Nat) (bs : List Byte) : (writeBytes s pa bs).free = s.free := rfl
@[simp] theorem writeBytes_threads (s : State) (pa : Nat) (bs : List Byte) : (writeBytes s pa bs).threads = s.threads := rfl
@[simp] theorem writeBytes_gangs (s : State) (pa : Nat) (bs : List Byte) : (writeBytes s pa bs).gangs = s.gangs := rfl
@[simp] theorem writeBytes_blocks (s : State) (pa : Nat) (bs : List Byte) : (writeBytes s pa bs).blocks = s.blocks := rfl
@[simp] theorem writeBytes_bundles (s : State) (pa : Nat) (bs : List Byte) : (writeBytes s pa bs).bundles = s.bundles := rfl
@[simp] theorem writeBytes_bins (s : State) (pa : Nat) (bs : List Byte) : (writeBytes s pa bs).bins = s.bins := rfl
@[simp] theorem writeBytes_arrivals (s : State) (pa : Nat) (bs : List Byte) : (writeBytes s pa bs).arrivals = s.arrivals := rfl
@[simp] theorem writeBytes_outst (s : State) (pa : Nat) (bs : List Byte) : (writeBytes s pa bs).outst = s.outst := rfl
@[simp] theorem writeBytes_cycle (s : State) (pa : Nat) (bs : List Byte) : (writeBytes s pa bs).cycle = s.cycle := rfl
@[simp] theorem writeBytes_claims (s : State) (pa : Nat) (bs : List Byte) : (writeBytes s pa bs).claims = s.claims := rfl
@[simp] theorem writeBytes_bars (s : State) (pa : Nat) (bs : List Byte) : (writeBytes s pa bs).bars = s.bars := rfl
@[simp] theorem writeBytes_rings (s : State) (pa : Nat) (bs : List Byte) : (writeBytes s pa bs).rings = s.rings := rfl
@[simp] theorem writeBytes_copies (s : State) (pa : Nat) (bs : List Byte) : (writeBytes s pa bs).copies = s.copies := rfl
@[simp] theorem writeBytes_accs (s : State) (pa : Nat) (bs : List Byte) : (writeBytes s pa bs).accs = s.accs := rfl
@[simp] theorem writeBytes_opslots (s : State) (pa : Nat) (bs : List Byte) : (writeBytes s pa bs).opslots = s.opslots := rfl
@[simp] theorem writeBytes_masks (s : State) (pa : Nat) (bs : List Byte) : (writeBytes s pa bs).masks = s.masks := rfl
@[simp] theorem writeBytes_mops (s : State) (pa : Nat) (bs : List Byte) : (writeBytes s pa bs).mops = s.mops := rfl
@[simp] theorem writeBytes_batons (s : State) (pa : Nat) (bs : List Byte) : (writeBytes s pa bs).batons = s.batons := rfl
@[simp] theorem writeBytes_tapins (s : State) (pa : Nat) (bs : List Byte) : (writeBytes s pa bs).tapins = s.tapins := rfl
@[simp] theorem writeBytes_ruleCopies (s : State) (pa : Nat) (bs : List Byte) : (writeBytes s pa bs).ruleCopies = s.ruleCopies := rfl
@[simp] theorem writeBytes_jobs (s : State) (pa : Nat) (bs : List Byte) : (writeBytes s pa bs).jobs = s.jobs := rfl
@[simp] theorem writeBytes_killedJobs (s : State) (pa : Nat) (bs : List Byte) : (writeBytes s pa bs).killedJobs = s.killedJobs := rfl
@[simp] theorem writeBytes_gone (s : State) (pa : Nat) (bs : List Byte) : (writeBytes s pa bs).gone = s.gone := rfl
@[simp] theorem writeBytes_scopes (s : State) (pa : Nat) (bs : List Byte) : (writeBytes s pa bs).scopes = s.scopes := rfl
@[simp] theorem writeBytes_conts (s : State) (pa : Nat) (bs : List Byte) : (writeBytes s pa bs).conts = s.conts := rfl
@[simp] theorem writeBytes_futs (s : State) (pa : Nat) (bs : List Byte) : (writeBytes s pa bs).futs = s.futs := rfl
@[simp] theorem writeBytes_saves (s : State) (pa : Nat) (bs : List Byte) : (writeBytes s pa bs).saves = s.saves := rfl
@[simp] theorem writeBytes_entries (s : State) (pa : Nat) (bs : List Byte) : (writeBytes s pa bs).entries = s.entries := rfl
@[simp] theorem writeBytes_ckpts (s : State) (pa : Nat) (bs : List Byte) : (writeBytes s pa bs).ckpts = s.ckpts := rfl
@[simp] theorem writeBytes_mclog (s : State) (pa : Nat) (bs : List Byte) : (writeBytes s pa bs).mclog = s.mclog := rfl
@[simp] theorem writeBytes_ctxs (s : State) (pa : Nat) (bs : List Byte) : (writeBytes s pa bs).ctxs = s.ctxs := rfl
@[simp] theorem writeBytes_kqbase (s : State) (pa : Nat) (bs : List Byte) : (writeBytes s pa bs).kqbase = s.kqbase := rfl
@[simp] theorem writeBytes_kqsize (s : State) (pa : Nat) (bs : List Byte) : (writeBytes s pa bs).kqsize = s.kqsize := rfl
@[simp] theorem writeBytes_kqhead (s : State) (pa : Nat) (bs : List Byte) : (writeBytes s pa bs).kqhead = s.kqhead := rfl
@[simp] theorem writeBytes_kqtail (s : State) (pa : Nat) (bs : List Byte) : (writeBytes s pa bs).kqtail = s.kqtail := rfl
@[simp] theorem writeBytes_kqfut (s : State) (pa : Nat) (bs : List Byte) : (writeBytes s pa bs).kqfut = s.kqfut := rfl
@[simp] theorem writeBytes_kqctx (s : State) (pa : Nat) (bs : List Byte) : (writeBytes s pa bs).kqctx = s.kqctx := rfl
@[simp] theorem writeBytes_kctx (s : State) (pa : Nat) (bs : List Byte) : (writeBytes s pa bs).kctx = s.kctx := rfl
@[simp] theorem writeBytes_heart (s : State) (pa : Nat) (bs : List Byte) : (writeBytes s pa bs).heart = s.heart := rfl
@[simp] theorem writeBytes_cfg (s : State) (pa : Nat) (bs : List Byte) : (writeBytes s pa bs).cfg = s.cfg := rfl
@[simp] theorem writeBytes_act (s : State) (pa : Nat) (bs : List Byte) : (writeBytes s pa bs).act = s.act := rfl
@[simp] theorem writeBytes_tripped (s : State) (pa : Nat) (bs : List Byte) : (writeBytes s pa bs).tripped = s.tripped := rfl
@[simp] theorem writeBytes_clocks (s : State) (pa : Nat) (bs : List Byte) : (writeBytes s pa bs).clocks = s.clocks := rfl
@[simp] theorem writeBytes_poison (s : State) (pa : Nat) (bs : List Byte) : (writeBytes s pa bs).poison = s.poison := rfl
@[simp] theorem writeBytes_lineErrs (s : State) (pa : Nat) (bs : List Byte) : (writeBytes s pa bs).lineErrs = s.lineErrs := rfl
@[simp] theorem writeBytes_l2 (s : State) (pa : Nat) (bs : List Byte) : (writeBytes s pa bs).l2 = s.l2 := rfl
@[simp] theorem writeBytes_hostMem (s : State) (pa : Nat) (bs : List Byte) : (writeBytes s pa bs).hostMem = s.hostMem := rfl
@[simp] theorem writeBytes_walkStore (s : State) (pa : Nat) (bs : List Byte) : (writeBytes s pa bs).walkStore = s.walkStore := rfl
@[simp] theorem writeBytes_tlb (s : State) (pa : Nat) (bs : List Byte) : (writeBytes s pa bs).tlb = s.tlb := rfl
@[simp] theorem writeBytes_gtags (s : State) (pa : Nat) (bs : List Byte) : (writeBytes s pa bs).gtags = s.gtags := rfl
@[simp] theorem writeBytes_pools (s : State) (pa : Nat) (bs : List Byte) : (writeBytes s pa bs).pools = s.pools := rfl
@[simp] theorem writeBytes_poolReqs (s : State) (pa : Nat) (bs : List Byte) : (writeBytes s pa bs).poolReqs = s.poolReqs := rfl
@[simp] theorem writeBytes_queues (s : State) (pa : Nat) (bs : List Byte) : (writeBytes s pa bs).queues = s.queues := rfl
@[simp] theorem writeBytes_msix (s : State) (pa : Nat) (bs : List Byte) : (writeBytes s pa bs).msix = s.msix := rfl
@[simp] theorem writeBytes_reports (s : State) (pa : Nat) (bs : List Byte) : (writeBytes s pa bs).reports = s.reports := rfl
@[simp] theorem writeBytes_aedov (s : State) (pa : Nat) (bs : List Byte) : (writeBytes s pa bs).aedov = s.aedov := rfl

end Sys2Proof.Machine
end

