-- ==== Sys2Proof/Laws/Still.lean ====
section
/-! SUPPORT. Operations that change no memory and no control register while no block keeps a store back: each leaves the
state still, and leaves it so that the next one does. -/

namespace Sys2Proof.Machine

/-- No interval of a block keeps a store that could still reach memory. -/
def AllQuiet (s : State) : Prop := ∀ b ∈ s.blocks, Quiet b
/-- From s, t is reached with memory and control registers as they were, and with nothing kept back. -/
structure Calm (s t : State) : Prop where
  still : Still s t
  quiet : AllQuiet t

theorem Still.refl (s : State) : Still s s := ⟨fun _ => rfl, ⟨rfl, rfl, rfl, rfl, rfl, rfl⟩, rfl⟩
theorem Still.trans {s t u : State} (h : Still s t) (g : Still t u) : Still s u :=
  ⟨fun a => (g.memory a).trans (h.memory a),
   ⟨g.device.1.trans h.device.1, g.device.2.1.trans h.device.2.1, g.device.2.2.1.trans h.device.2.2.1,
    g.device.2.2.2.1.trans h.device.2.2.2.1, g.device.2.2.2.2.1.trans h.device.2.2.2.2.1,
    g.device.2.2.2.2.2.trans h.device.2.2.2.2.2⟩, g.contexts.trans h.contexts⟩
theorem Calm.refl {s : State} (h : AllQuiet s) : Calm s s := ⟨Still.refl s, h⟩
theorem Calm.trans {s t u : State} (h : Calm s t) (g : Calm t u) : Calm s u := ⟨h.still.trans g.still, g.quiet⟩

/-- A fold of calm steps is calm. -/
theorem calm_foldl {α : Type} (xs : List α) (f : State → α → State) (hf : ∀ s x, AllQuiet s → Calm s (f s x)) :
    ∀ s, AllQuiet s → Calm s (xs.foldl f s) := by
  induction xs with
  | nil => intro s h; exact Calm.refl h
  | cons x t ih => intro s h; exact (hf s x h).trans (ih _ (hf s x h).quiet)

theorem quiet_updWhere {l : List Block} (p : Block → Bool) (f : Block → Block) (hf : ∀ b, Quiet b → Quiet (f b))
    (h : ∀ b ∈ l, Quiet b) : ∀ b ∈ updWhere l p f, Quiet b := by
  intro b hb
  simp only [updWhere, List.mem_map] at hb
  obtain ⟨a, ha, rfl⟩ := hb
  split
  · exact hf a (h a ha)
  · exact h a ha

theorem calm_modBlock {s : State} (h : AllQuiet s) (blk : Nat) (f : Block → Block) (hf : ∀ b, Quiet b → Quiet (f b)) :
    Calm s (modBlock s blk f) :=
  ⟨⟨fun _ => rfl, ⟨rfl, rfl, rfl, rfl, rfl, rfl⟩, rfl⟩, quiet_updWhere _ f hf h⟩
/-- The arm of an issue that is not performed stands as it was. -/
theorem calm_rearm {s : State} (h : AllQuiet s) (blk : Nat) (a : Option Arm) :
    Calm s (modBlock s blk (fun b => { b with arm := a })) := calm_modBlock h blk _ fun _ hb => hb
theorem calm_modThread {s : State} (h : AllQuiet s) (b g l : Nat) (f : Thread → Thread) : Calm s (modThread s b g l f) :=
  ⟨⟨fun _ => rfl, ⟨rfl, rfl, rfl, rfl, rfl, rfl⟩, rfl⟩, h⟩
theorem calm_modThreads {s : State} (h : AllQuiet s) (p : Thread → Bool) (f : Thread → Thread) : Calm s (modThreads s p f) :=
  ⟨⟨fun _ => rfl, ⟨rfl, rfl, rfl, rfl, rfl, rfl⟩, rfl⟩, h⟩
theorem calm_modGang {s : State} (h : AllQuiet s) (b g : Nat) (f : Gang → Gang) : Calm s (modGang s b g f) :=
  ⟨⟨fun _ => rfl, ⟨rfl, rfl, rfl, rfl, rfl, rfl⟩, rfl⟩, h⟩
theorem calm_modBundle {s : State} (h : AllQuiet s) (id : Nat) (f : Bundle → Bundle) : Calm s (modBundle s id f) :=
  ⟨⟨fun _ => rfl, ⟨rfl, rfl, rfl, rfl, rfl, rfl⟩, rfl⟩, h⟩
theorem calm_modRing {s : State} (h : AllQuiet s) (c i : Nat) (f : Ring → Ring) : Calm s (modRing s c i f) :=
  ⟨⟨fun _ => rfl, ⟨rfl, rfl, rfl, rfl, rfl, rfl⟩, rfl⟩, h⟩
theorem calm_issued {s : State} (h : AllQuiet s) : Calm s (issued s) :=
  ⟨⟨fun _ => rfl, ⟨rfl, rfl, rfl, rfl, rfl, rfl⟩, rfl⟩, h⟩
theorem calm_addOutst {s : State} (h : AllQuiet s) (n : Nat) (x : Lane) (cls : OCls) (op : OOp) (r a : Bool) :
    Calm s (addOutst s n x cls op r a).2 :=
  ⟨⟨fun _ => rfl, ⟨rfl, rfl, rfl, rfl, rfl, rfl⟩, rfl⟩, h⟩
theorem calm_sweepFences {s : State} (h : AllQuiet s) : Calm s (sweepFences s) :=
  ⟨⟨fun _ => rfl, ⟨rfl, rfl, rfl, rfl, rfl, rfl⟩, rfl⟩, h⟩
theorem calm_addReply {s : State} (h : AllQuiet s) (n : Nat) (x : Lane) (cls : OCls) (d : Reg) (w v : Nat)
    (p : Option (Nat × Bool)) : Calm s (addReply s n x cls d w v p) := calm_addOutst h ..
theorem calm_healErrs {s : State} (h : AllQuiet s) (blk : Nat) (p : ErrAt → Bool) : Calm s (healErrs s blk p) :=
  calm_modBlock h blk _ fun _ hb => hb
theorem calm_raiseAcq {s : State} (h : AllQuiet s) (blk other n : Nat) : Calm s (raiseAcq s blk other n) :=
  calm_modBlock h blk _ fun _ hb => hb
theorem calm_bumpRel {s : State} (h : AllQuiet s) (blk : Nat) : Calm s (bumpRel s blk) :=
  calm_modBlock h blk _ fun _ hb => hb
theorem calm_tagScratch {s : State} (h : AllQuiet s) (blk g l off n : Nat) (w p : Bool) (i : Nat) :
    Calm s (tagScratch s blk g l off n w p i) := calm_modBlock h blk _ fun _ hb => hb

/-- An irrevocable event of a block that keeps no store back writes nothing. -/
theorem calm_irrevocable {s : State} (h : AllQuiet s) (blk : Nat) : Calm s (irrevocable s blk) := by
  unfold irrevocable
  split
  · exact Calm.refl h
  · rename_i b hb
    split
    · rename_i hr
      have hq : b.hold = [] := by
        rcases h b (List.mem_of_find?_eq_some hb) with hp | hp
        · simp [Plain, hr] at hp
        · exact hp
      have hd : drainHold s blk = s := by simp [drainHold, drainSome, hb, hq]
      simp only [hd, holdBad, hq, List.isEmpty_nil, if_true]
      exact calm_modBlock h blk _ fun b _ => .inl (by simp [Plain])
    · exact Calm.refl h
theorem calm_noteDirty {s : State} (h : AllQuiet s) (blk n : Nat) (k : Block → Bool) (f : Block → Block)
    (hf : ∀ b, Quiet b → Quiet (f b)) : Calm s (noteDirty s blk n k f) := by
  unfold noteDirty
  split
  · exact Calm.refl h
  · split
    · split
      · exact ⟨⟨fun _ => rfl, ⟨rfl, rfl, rfl, rfl, rfl, rfl⟩, rfl⟩, quiet_updWhere _ f hf h⟩
      · exact calm_irrevocable h blk
    · exact Calm.refl h
theorem calm_noteRow {s : State} (h : AllQuiet s) (blk g r : Nat) : Calm s (noteRow s blk g r) :=
  calm_noteDirty h _ _ _ _ fun _ hb => hb
theorem calm_noteLine {s : State} (h : AllQuiet s) (blk l : Nat) : Calm s (noteLine s blk l) :=
  calm_noteDirty h _ _ _ _ fun _ hb => hb
theorem calm_modBar {s : State} (h : AllQuiet s) (r : BarRef) (f : Bar → Bar) : Calm s (modBar s r f) := by
  have key : ∀ t, AllQuiet t → Calm t { t with bars := updWhere t.bars (fun b => b.ref == r) f } :=
    fun t ht => ⟨⟨fun _ => rfl, ⟨rfl, rfl, rfl, rfl, rfl, rfl⟩, rfl⟩, ht⟩
  unfold modBar
  split
  · exact key s h
  · exact (calm_noteLine h _ _).trans (key _ (calm_noteLine h _ _).quiet)

/-! ### Results -/

theorem calm_setV {s : State} (h : AllQuiet s) (b g l r : Nat) (x : W32) : Calm s (setV s b g l r x) := by
  have h1 := calm_noteRow h b g r
  have h2 := h1.trans (calm_modThread h1.quiet b g l (fun t => { t with v := Sparse.set 0 t.v r x }))
  exact h2.trans (calm_modBlock h2.quiet b _ fun _ hb => hb)
theorem calm_setS {s : State} (h : AllQuiet s) (b g r : Nat) (x : W64) : Calm s (setS s b g r x) :=
  (calm_modGang h b g _).trans (calm_healErrs (calm_modGang h b g _).quiet _ _)
theorem calm_putReg {s : State} (h : AllQuiet s) (b g l : Nat) (d : Reg) (n v : Nat) : Calm s (putReg s b g l d n v) := by
  unfold putReg
  simp only
  split
  · exact calm_foldl _ _ (fun _ _ ht => calm_setV ht ..) s h
  · exact calm_foldl _ _ (fun _ _ ht => calm_setS ht ..) s h
theorem calm_commit {s : State} (h : AllQuiet s) (d : Reg) (n : Nat) (outs : List (Lane × Nat)) : Calm s (commit s d n outs) := by
  refine calm_foldl _ _ (fun t o ht => ?_) s h
  split
  · exact calm_putReg ht ..
  · exact Calm.refl ht
theorem calm_deliverReg {s : State} (h : AllQuiet s) (b g l : Nat) (d : Reg) (n v : Nat) : Calm s (deliverReg s b g l d n v) := by
  unfold deliverReg
  split
  · exact Calm.refl h
  · have h1 := calm_putReg h b g l d (max 32 n) v
    simp only
    split
    · split
      · exact h1.trans (calm_putReg h1.quiet ..)
      · exact h1
    · exact h1
theorem calm_deliverKept {s : State} (h : AllQuiet s) (b g l : Nat) (d : Option Reg) (n v : Nat) :
    Calm s (deliverKept s b g l d n v) := by
  unfold deliverKept
  split
  · rename_i d
    have h1 := calm_deliverReg h b g l d n v
    refine h1.trans ?_
    unfold landWait
    split
    · exact (calm_modThread h1.quiet ..).trans (calm_modBlock (calm_modThread h1.quiet ..).quiet _ _ fun _ hb => hb)
    · exact Calm.refl h1.quiet
  · exact Calm.refl h
theorem calm_syncResult {s : State} (h : AllQuiet s) (xs : List Lane) (x : Lane) (d : Reg) (v : Nat) :
    Calm s (syncResult s xs x d v) := by
  unfold syncResult
  split
  · exact calm_deliverReg h ..
  · exact Calm.refl h

/-! ### Faults that are no machine checks, and what follows an issue -/

theorem calm_askSave {s : State} (h : AllQuiet s) (blk : Nat) (r : SaveReq) : Calm s (askSave s blk r) := by
  unfold askSave
  split
  · exact Calm.refl h
  · refine ⟨⟨fun _ => rfl, ⟨rfl, rfl, rfl, rfl, rfl, rfl⟩, rfl⟩, quiet_updWhere _ _ (fun b hb => ?_) h⟩
    split
    · exact hb
    · split <;> exact hb
theorem calm_addMcheck {s : State} (h : AllQuiet s) (blk : Nat) (m : MCheck) : Calm s (addMcheck s blk m) := by
  unfold addMcheck
  split
  · exact Calm.refl h
  · have h1 : Calm s (if m.unit = 13 then settleFound s else s) := by
      split
      · exact ⟨⟨fun _ => rfl, ⟨rfl, rfl, rfl, rfl, rfl, rfl⟩, rfl⟩, h⟩
      · exact Calm.refl h
    simp only
    have h2 : ∀ c, Calm (if m.unit = 13 then settleFound s else s) (tickCycle (if m.unit = 13 then settleFound s else s) c) :=
      fun _ => ⟨⟨fun _ => rfl, ⟨rfl, rfl, rfl, rfl, rfl, rfl⟩, rfl⟩, h1.quiet⟩
    exact (h1.trans (h2 _)).trans (calm_modBlock (h2 _).quiet _ _ fun _ hb => hb)
theorem calm_raise {s : State} (h : AllQuiet s) (blk op : Nat) (pc : W64) (fs : List LaneFlt) : Calm s (raise s blk op pc fs) := by
  unfold raise
  simp only
  have h1 := calm_foldl (fs.filter fun f => 0x20 ≤ f.flt.cause) (fun s f => addMcheck s blk
    { cycle := 0, cause := BitVec.ofNat 8 f.flt.cause, pc := pc, addr := BitVec.ofNat 64 f.flt.info, gang := f.gang, lane := f.lane,
      op := op, unit := f.flt.unit, check := f.flt.check, acc := 0, rc := 0, ladder := f.flt.ladder,
      residue := f.flt.residue }) (fun _ _ ht => calm_addMcheck ht ..) s h
  have h2 := h1.trans (calm_foldl fs (fun s f => modThread s blk f.gang f.lane (fun t =>
    { t with fault := some (f.flt.toRec pc) })) (fun _ _ ht => calm_modThread ht ..) _ h1.quiet)
  split
  · exact h2
  · exact h2.trans (calm_askSave h2.quiet ..)

theorem calm_markAge {s : State} (h : AllQuiet s) (id : Nat) : Calm s (markAge s id) := by
  unfold markAge
  split
  · exact Calm.refl h
  · split
    · exact ⟨⟨fun _ => rfl, ⟨rfl, rfl, rfl, rfl, rfl, rfl⟩, rfl⟩, h⟩
    · exact Calm.refl h
theorem calm_moveTo {s : State} (h : AllQuiet s) (id : Nat) (p : Place) (c : Clause) (hp : p.clause = some c) :
    Calm s (moveTo s id p) := by
  have h1 : Calm s (clearLeft s id) := by
    unfold clearLeft
    split
    · exact calm_modThreads h ..
    · exact Calm.refl h
  unfold moveTo
  rw [hp]
  exact h1.trans (calm_modBundle h1.quiet ..)
/-- The going on of a bundle inside its clause. -/
theorem calm_after {s : State} (h : AllQuiet s) (j : Iss) (c : Clause) (hc : j.next.clause = some c) : Calm s (after j s) := by
  have h1 : Calm s (parkAll j s) := by
    unfold parkAll
    split
    · exact calm_modThreads h ..
    · exact Calm.refl h
  refine h1.trans ?_
  unfold after advance
  split
  · exact Calm.refl h1.quiet
  · split
    · exact calm_modBundle h1.quiet ..
    · split
      · exact (calm_modBundle h1.quiet ..).trans (calm_markAge (calm_modBundle h1.quiet ..).quiet _)
      · exact (calm_markAge h1.quiet _).trans (calm_moveTo (calm_markAge h1.quiet _).quiet _ _ c hc)
/-- The place after a word that is not the last of its clause is in the clause. -/
theorem next_clause {p : Place} {c : Clause} (hp : p.clause = some c) (hi : p.idx + 1 < c.words.length) :
    p.next.clause = some c := by
  simp [Place.next, hp, hi]

/-- An issue with nothing in its way whose effect is calm is calm, where the bundle stays in its clause. -/
theorem issue_calm {s : State} {op : Nat} {k : Ctl} {src dst late : List RG} {q : Bundle} {c : Clause} {b : Block}
    (h : Ready s op k src dst late q c b) (hi : q.place.idx + 1 < c.words.length) (eff : Iss → State → IOut)
    (he : match eff (issOf s q b op k) (issued s) with
      | .done t | .stay t | .stall t => Calm s t
      | .trap t _ => Calm s t) :
    ∃ t, issue op k src dst s eff late = .next t ∧ Still s t := by
  rw [issue_ready h]
  split at he <;> rename_i t ht
  · rw [ht]
    refine ⟨_, rfl, (he.trans ?_).still⟩
    rw [applyFlip_none _ _ _ rfl]
    exact calm_after he.quiet _ c (next_clause h.clause hi)
  · rw [ht]
    refine ⟨_, rfl, (he.trans ?_).still⟩
    rw [applyFlip_none _ _ _ rfl]
    unfold parkAll
    split
    · exact calm_modThreads he.quiet ..
    · exact Calm.refl he.quiet
  · rw [ht]
    exact ⟨_, rfl, ((he.trans (calm_rearm he.quiet ..)).trans (calm_modBundle (calm_rearm he.quiet ..).quiet ..)).still⟩
  · rw [ht]
    exact ⟨_, rfl, ((he.trans (calm_rearm he.quiet ..)).trans (calm_raise (calm_rearm he.quiet ..).quiet ..)).still⟩

end Sys2Proof.Machine
end

