-- ==== Sys2Proof/Tests/Slice0.lean ====
section
/-! SUPPORT. Tests: every constructor decoded from a word written out from its encoding line, ill-formed terms that the
field checks refuse, the spec's worked examples as one-step results, and a state that meets the hypotheses of every
statement of Certificates/Slice0/Obligations.lean that has some. -/

namespace Sys2Proof.Tests
open Sys2Proof.Machine

set_option Elab.async false

/-! ### Decoding: every constructor from a word written field by field, op, control, fn and the format's fields -/

/-- Always, and always with park; under p0, p1, p2, p4; under p2 negated and parked. -/
def u : Ctl := ⟨false, 63, false⟩
def uk : Ctl := ⟨false, 63, true⟩
def p0 : Ctl := ⟨false, 0, false⟩
def p1 : Ctl := ⟨false, 1, false⟩
def p2 : Ctl := ⟨false, 2, false⟩
def p4 : Ctl := ⟨false, 4, false⟩
def n2 : Ctl := ⟨true, 2, true⟩

/-- 06 R103, R104. -/
theorem test_decode_int_arithmetic :
    decode (0x01#8 ++ 0b01111110#8 ++ 0b00000000#8 ++ 0#8 ++ 0#8 ++ 0#8 ++ 0#8 ++ 0#8) = .instr (.nop u) ∧
    decode (0x02#8 ++ 0b01111110#8 ++ 0b11100000#8 ++ 4#8 ++ 6#8 ++ 8#8 ++ 0#8 ++ 0#8) = .instr (.iadd u true true true 4 6 8) ∧
    decode (0x03#8 ++ 0b10000101#8 ++ 0b01000000#8 ++ 5#8 ++ 7#8 ++ 9#8 ++ 0#8 ++ 0#8) = .instr (.isub n2 false true false 5 7 9) ∧
    decode (0x04#8 ++ 0b01111110#8 ++ 0b11000000#8 ++ 4#8 ++ 6#8 ++ 0xFFFFFB#24) = .instr (.iaddi u true true false 4 6 0xFFFFFB) ∧
    decode (0x05#8 ++ 0b01111110#8 ++ 0b00100000#8 ++ 4#8 ++ 6#8 ++ 7#8 ++ 0#8 ++ 0#8) = .instr (.iaddw u false true 4 6 7) ∧
    decode (0x06#8 ++ 0b01111110#8 ++ 0b10000000#8 ++ 4#8 ++ 6#8 ++ 8#8 ++ 0#8 ++ 0#8) = .instr (.imul u true false false 4 6 8) ∧
    decode (0x07#8 ++ 0b01111110#8 ++ 0b01000000#8 ++ 5#8 ++ 7#8 ++ 9#8 ++ 0#8 ++ 0#8) = .instr (.imulh u false true 5 7 9) ∧
    decode (0x08#8 ++ 0b01111110#8 ++ 0b00100000#8 ++ 5#8 ++ 7#8 ++ 9#8 ++ 11#8 ++ 0#8) = .instr (.imad u false false true 5 7 9 11) ∧
    decode (0x09#8 ++ 0b01111110#8 ++ 0b01000000#8 ++ 4#8 ++ 7#8 ++ 9#8 ++ 6#8 ++ 0#8) = .instr (.imadw u true false 4 7 9 6) ∧
    decode (0x0A#8 ++ 0b01111110#8 ++ 0b11000000#8 ++ 4#8 ++ 6#8 ++ 8#8 ++ 0#8 ++ 0#8) = .instr (.idiv u true true 4 6 8) ∧
    decode (0x0B#8 ++ 0b01111110#8 ++ 0b00000000#8 ++ 5#8 ++ 7#8 ++ 9#8 ++ 0#8 ++ 0#8) = .instr (.irem u false false 5 7 9) ∧
    decode (0x0C#8 ++ 0b01111110#8 ++ 0b01000000#8 ++ 5#8 ++ 7#8 ++ 9#8 ++ 0#8 ++ 0#8) = .instr (.imin u false true 5 7 9) ∧
    decode (0x0D#8 ++ 0b01111110#8 ++ 0b10000000#8 ++ 4#8 ++ 6#8 ++ 200#8 ++ 0#8 ++ 0#8) = .instr (.imax u true false 4 6 200) ∧
    decode (0x0E#8 ++ 0b01111110#8 ++ 0b00000000#8 ++ 5#8 ++ 7#8 ++ 9#8 ++ 0#8 ++ 0#8) = .instr (.iabsd u false false 5 7 9) := by decide +kernel

/-- 06 R103, R104. -/
theorem test_decode_int_logic :
    decode (0x0F#8 ++ 0b01111110#8 ++ 0b00000000#8 ++ 9#8 ++ 1#8 ++ 2#8 ++ 3#8 ++ 0x96#8) = .instr (.lut3 u false 9 1 2 3 0x96) ∧
    decode (0x10#8 ++ 0b01111110#8 ++ 0b10000000#8 ++ 4#8 ++ 6#8 ++ 7#8 ++ 0#8 ++ 0#8) = .instr (.ishl u true false 4 6 7 0) ∧
    decode (0x11#8 ++ 0b01111110#8 ++ 0b11010000#8 ++ 4#8 ++ 6#8 ++ 0#8 ++ 0#8 ++ 63#8) = .instr (.ishr u true true true 4 6 0 63) ∧
    decode (0x12#8 ++ 0b01111110#8 ++ 0b00010000#8 ++ 5#8 ++ 4#8 ++ 4#8 ++ 0#8 ++ 1#8) = .instr (.fshl u true 5 4 4 0 1) ∧
    decode (0x13#8 ++ 0b01111110#8 ++ 0b00000000#8 ++ 5#8 ++ 4#8 ++ 3#8 ++ 2#8 ++ 0#8) = .instr (.fshr u false 5 4 3 2 0) ∧
    decode (0x14#8 ++ 0b01111110#8 ++ 0b01010000#8 ++ 3#8 ++ 7#8 ++ 0#8 ++ 8#8 ++ 4#8) = .instr (.bfx u false true true 3 7 8 4) ∧
    decode (0x15#8 ++ 0b01111110#8 ++ 0b00000000#8 ++ 3#8 ++ 3#8 ++ 9#8 ++ 10#8 ++ 0#8) = .instr (.bfi u false false 3 3 9 10 0) ∧
    decode (0x16#8 ++ 0b01111110#8 ++ 0b10000000#8 ++ 3#8 ++ 6#8 ++ 0#8 ++ 0#8 ++ 0#8) = .instr (.popc u true 3 6) ∧
    decode (0x17#8 ++ 0b01111110#8 ++ 0b10000000#8 ++ 4#8 ++ 6#8 ++ 0#8 ++ 0#8 ++ 0#8) = .instr (.popb u true 4 6) ∧
    decode (0x18#8 ++ 0b01111110#8 ++ 0b00000000#8 ++ 3#8 ++ 6#8 ++ 0#8 ++ 0#8 ++ 0#8) = .instr (.clz u false 3 6) ∧
    decode (0x19#8 ++ 0b01111110#8 ++ 0b00000000#8 ++ 3#8 ++ 7#8 ++ 0#8 ++ 0#8 ++ 0#8) = .instr (.brev u false 3 7) ∧
    decode (0x1A#8 ++ 0b01111110#8 ++ 0b00000000#8 ++ 3#8 ++ 7#8 ++ 9#8 ++ 0#8 ++ 0x85#8) = .instr (.isel u false 3 7 9 0x85) ∧
    decode (0x1B#8 ++ 0b01111110#8 ++ 0b10000000#8 ++ 4#8 ++ 8#8 ++ 0#8 ++ 0#8 ++ 0#8) = .instr (.mov u 2 4 8) ∧
    decode (0x1C#8 ++ 0b01111110#8 ++ 0b11000000#8 ++ 4#8 ++ 0x89ABCDEF#32) = .instr (.movi u 3 4 0x89ABCDEF) ∧
    decode (0x1D#8 ++ 0b01111110#8 ++ 0b01111010#8 ++ 7#8 ++ 2#8 ++ 3#8 ++ 0#8 ++ 0#8) = .instr (.icmp u false true 3 5 7 2 3) ∧
    decode (0x1E#8 ++ 0b00001000#8 ++ 0b01100100#8 ++ 7#8 ++ 2#8 ++ 0xFFFFFB#24) = .instr (.icmpi p4 false true 2 2 7 2 0xFFFFFB) ∧
    decode (0x1F#8 ++ 0b01111110#8 ++ 0b00000000#8 ++ 47#8 ++ 1#8 ++ 2#8 ++ 3#8 ++ 0xE8#8) = .instr (.plut u 47 1 2 3 0xE8) ∧
    decode (0x20#8 ++ 0b01111110#8 ++ 0b00000000#8 ++ 3#8 ++ 0#8 ++ 0#8 ++ 0#8 ++ 1#8) = .instr (.pget u 3 1) ∧
    decode (0x21#8 ++ 0b01111110#8 ++ 0b00000000#8 ++ 0#8 ++ 3#8 ++ 4#8 ++ 0#8 ++ 1#8) = .instr (.pset u 3 4 1) ∧
    decode (0x3B#8 ++ 0b01111110#8 ++ 0b00000000#8 ++ 3#8 ++ 191#8 ++ 5#8 ++ 0#8 ++ 0#8) = .instr (.vget u 3 191 5) ∧
    decode (0x3C#8 ++ 0b01111110#8 ++ 0b00000000#8 ++ 191#8 ++ 3#8 ++ 5#8 ++ 0#8 ++ 0#8) = .instr (.vput u 191 3 5) := by decide +kernel

/-- 02 R35; 05 R98; 06 R103, R104; 23 R393. -/
theorem test_decode_gang_and_flow :
    decode (0x22#8 ++ 0b01111110#8 ++ 0b00011100#8 ++ 3#8 ++ 2#8 ++ 0#8 ++ 192#8 ++ 31#8) = .instr (.perm u false true 3 3 2 0 192 31) ∧
    decode (0x23#8 ++ 0b01111110#8 ++ 0b00010000#8 ++ 3#8 ++ 2#8 ++ 4#8 ++ 200#8 ++ 9#8) = .instr (.permx u true 3 2 4 200 9) ∧
    decode (0x24#8 ++ 0b01111110#8 ++ 0b00001100#8 ++ 3#8 ++ 2#8 ++ 0#8 ++ 0#8 ++ 0#8) = .instr (.vote u false 3 3 2 0) ∧
    decode (0x25#8 ++ 0b01111110#8 ++ 0b00000000#8 ++ 3#8 ++ 0#8 ++ 0#8 ++ 0#8 ++ 0#8) = .instr (.elect u false 3 0) ∧
    decode (0x26#8 ++ 0b01111110#8 ++ 0b11010100#8 ++ 4#8 ++ 2#8 ++ 0#8 ++ 192#8 ++ 0#8) = .instr (.gred u true true true 2 4 2 192) ∧
    decode (0x27#8 ++ 0b01111110#8 ++ 0b00001011#8 ++ 3#8 ++ 2#8 ++ 0#8 ++ 0#8 ++ 0#8) = .instr (.gscan u false false false 5 true 3 2 0) ∧
    decode (0x28#8 ++ 0b00000000#8 ++ 0b00000000#8 ++ 0#8 ++ 0xFFFFFFFE#32) = .instr (.bra p0 0xFFFFFFFE) ∧
    decode (0x29#8 ++ 0b01111110#8 ++ 0b00000000#8 ++ 0#8 ++ 4#8 ++ 0#8 ++ 0#8 ++ 0#8) = .instr (.brx u 4) ∧
    decode (0x2A#8 ++ 0b01111110#8 ++ 0b00000000#8 ++ 254#8 ++ 0x7FFFFFFF#32) = .instr (.call u 254 0x7FFFFFFF) ∧
    decode (0x2B#8 ++ 0b01111110#8 ++ 0b00000000#8 ++ 0#8 ++ 254#8 ++ 0#8 ++ 0#8 ++ 0#8) = .instr (.ret u 254) ∧
    decode (0x2C#8 ++ 0b01111110#8 ++ 0b00000000#8 ++ 0#8 ++ 5#8 ++ 0#8 ++ 0#8 ++ 3#8) = .instr (.rjarm u 5 3) ∧
    decode (0x2D#8 ++ 0b01111110#8 ++ 0b00000000#8 ++ 0#8 ++ 0#8 ++ 0#8 ++ 0#8 ++ 2#8) = .instr (.rjoin u 2) ∧
    decode (0x2E#8 ++ 0b01111110#8 ++ 0b00000000#8 ++ 0#8 ++ 0#8 ++ 0#8 ++ 0#8 ++ 1#8) = .instr (.rjdrop u 1) ∧
    decode (0x2F#8 ++ 0b01111111#8 ++ 0b00000000#8 ++ 0#8 ++ 0#8 ++ 0#8 ++ 0#8 ++ 0#8) = .instr (.exit uk) ∧
    decode (0x30#8 ++ 0b01111110#8 ++ 0b00000000#8 ++ 0#8 ++ 0#8 ++ 0xABCDEF#24) = .instr (.trap u 0xABCDEF) ∧
    decode (0x31#8 ++ 0b01111110#8 ++ 0b00000000#8 ++ 4#8 ++ 0#8 ++ 0x000#24) = .instr (.gets u 4 0) ∧
    decode (0x32#8 ++ 0b00000100#8 ++ 0b00000000#8 ++ 0#8 ++ 6#8 ++ 0x20#24) = .instr (.sets p2 6 0x20) ∧
    decode (0x33#8 ++ 0b01111110#8 ++ 0b00000000#8 ++ 0#8 ++ 0#8 ++ 22#24) = .instr (.rclaim u 22) ∧
    decode (0x34#8 ++ 0b01111110#8 ++ 0b00000000#8 ++ 0#8 ++ 0#8 ++ 1#24) = .instr (.rgive u 1) ∧
    decode (0x35#8 ++ 0b01111110#8 ++ 0b00000000#8 ++ 47#8 ++ 0#8 ++ 7#24) = .instr (.rtry u 47 7) ∧
    decode (0x36#8 ++ 0b01111110#8 ++ 0b00000000#8 ++ 0#8 ++ 0#8 ++ 0#8 ++ 0#8 ++ 0#8) = .instr (.yield u) ∧
    decode (0x37#8 ++ 0b01111110#8 ++ 0b00000000#8 ++ 0#8 ++ 0#8 ++ 0xFFFFFF#24) = .instr (.nap u 0xFFFFFF) ∧
    decode (0x38#8 ++ 0b01111110#8 ++ 0b00000000#8 ++ 0#8 ++ 0#8 ++ 3#24) = .instr (.prog u 3) ∧
    decode (0x39#8 ++ 0b01111110#8 ++ 0b00000000#8 ++ 0#8 ++ 0#8 ++ 7#24) = .instr (.brk u 7) ∧
    decode (0x3A#8 ++ 0b01111110#8 ++ 0b00000000#8 ++ 0#8 ++ 5#8 ++ 0x12#24) = .instr (.trcmark u 5 0x12) := by decide +kernel

/-- 07 R142, R143. -/
theorem test_decode_float :
    decode (0x40#8 ++ 0b01111110#8 ++ 0b01110000#8 ++ 3#8 ++ 4#8 ++ 5#8 ++ 0#8 ++ 0#8) = .instr (.fadd u 1 true true 3 4 5) ∧
    decode (0x41#8 ++ 0b01111110#8 ++ 0b10100000#8 ++ 3#8 ++ 4#8 ++ 5#8 ++ 0#8 ++ 0#8) = .instr (.fmul u 2 true 3 4 5) ∧
    decode (0x42#8 ++ 0b01111110#8 ++ 0b11010000#8 ++ 8#8 ++ 1#8 ++ 2#8 ++ 8#8 ++ 0#8) = .instr (.ffma u 3 false true 8 1 2 8) ∧
    decode (0x43#8 ++ 0b01111110#8 ++ 0b00000000#8 ++ 3#8 ++ 4#8 ++ 5#8 ++ 0#8 ++ 0#8) = .instr (.fmin u 3 4 5) ∧
    decode (0x44#8 ++ 0b01111110#8 ++ 0b00000000#8 ++ 3#8 ++ 4#8 ++ 5#8 ++ 0#8 ++ 0#8) = .instr (.fmax u 3 4 5) ∧
    decode (0x45#8 ++ 0b01111110#8 ++ 0b00111100#8 ++ 7#8 ++ 4#8 ++ 5#8 ++ 0#8 ++ 0#8) = .instr (.fcmp u 3 6 7 4 5) ∧
    decode (0x46#8 ++ 0b01111110#8 ++ 0b01000000#8 ++ 3#8 ++ 4#8 ++ 5#8 ++ 0#8 ++ 0#8) = .instr (.fdiv u 1 3 4 5) ∧
    decode (0x47#8 ++ 0b01111110#8 ++ 0b10000000#8 ++ 3#8 ++ 4#8 ++ 0#8 ++ 0#8 ++ 0#8) = .instr (.frcp u 2 3 4) ∧
    decode (0x48#8 ++ 0b01111110#8 ++ 0b00000000#8 ++ 3#8 ++ 4#8 ++ 0#8 ++ 0#8 ++ 0#8) = .instr (.frsq u 0 3 4) ∧
    decode (0x49#8 ++ 0b01111110#8 ++ 0b11000000#8 ++ 3#8 ++ 4#8 ++ 0#8 ++ 0#8 ++ 0#8) = .instr (.fsqrt u 3 3 4) ∧
    decode (0x4A#8 ++ 0b01111110#8 ++ 0b00000000#8 ++ 3#8 ++ 4#8 ++ 0#8 ++ 0#8 ++ 0#8) = .instr (.fexp2 u 0 3 4) ∧
    decode (0x4B#8 ++ 0b01111110#8 ++ 0b00000000#8 ++ 3#8 ++ 4#8 ++ 0#8 ++ 0#8 ++ 0#8) = .instr (.flog2 u 0 3 4) ∧
    decode (0x4C#8 ++ 0b01111110#8 ++ 0b00000000#8 ++ 3#8 ++ 4#8 ++ 0#8 ++ 0#8 ++ 0#8) = .instr (.fsinpi u 0 3 4) ∧
    decode (0x4D#8 ++ 0b01111110#8 ++ 0b00000000#8 ++ 3#8 ++ 4#8 ++ 0#8 ++ 0#8 ++ 0#8) = .instr (.fcospi u 0 3 4) ∧
    decode (0x4E#8 ++ 0b01111110#8 ++ 0b10000000#8 ++ 3#8 ++ 4#8 ++ 0#8 ++ 0#8 ++ 0#8) = .instr (.frnd u 2 3 4) ∧
    decode (0x4F#8 ++ 0b01111110#8 ++ 0b00000000#8 ++ 3#8 ++ 4#8 ++ 5#8 ++ 0#8 ++ 0#8) = .instr (.fscale u 0 3 4 5) ∧
    decode (0x50#8 ++ 0b01111110#8 ++ 0b00100000#8 ++ 3#8 ++ 4#8 ++ 5#8 ++ 0#8 ++ 0#8) = .instr (.hadd2 u 0 true 3 4 5) ∧
    decode (0x51#8 ++ 0b01111110#8 ++ 0b01000000#8 ++ 3#8 ++ 4#8 ++ 5#8 ++ 0#8 ++ 0#8) = .instr (.hmul2 u 1 false 3 4 5) ∧
    decode (0x52#8 ++ 0b01111110#8 ++ 0b00100000#8 ++ 3#8 ++ 4#8 ++ 5#8 ++ 6#8 ++ 0#8) = .instr (.hfma2 u 0 true 3 4 5 6) ∧
    decode (0x53#8 ++ 0b01111110#8 ++ 0b00010000#8 ++ 3#8 ++ 4#8 ++ 5#8 ++ 0#8 ++ 0#8) = .instr (.hmax2 u false true 3 4 5) ∧
    decode (0x54#8 ++ 0b01111110#8 ++ 0b00001000#8 ++ 3#8 ++ 4#8 ++ 0#8 ++ 0#8 ++ 1#8) = .instr (.cvt u 0 1 0 3 4 1) ∧
    decode (0x55#8 ++ 0b01111110#8 ++ 0b01100000#8 ++ 3#8 ++ 4#8 ++ 5#8 ++ 0#8 ++ 0#8) = .instr (.cvtp u 1 true 3 4 5) ∧
    decode (0x56#8 ++ 0b01111110#8 ++ 0b00001101#8 ++ 3#8 ++ 4#8 ++ 0#8 ++ 9#8 ++ 3#8) = .instr (.cvtq u 0 1 true true 3 4 9 3) ∧
    decode (0x57#8 ++ 0b01111110#8 ++ 0b00100000#8 ++ 3#8 ++ 4#8 ++ 8#8 ++ 0#8 ++ 0#8) = .instr (.cvto u 0 4 false 3 4 8 0 0) ∧
    decode (0x58#8 ++ 0b01111110#8 ++ 0b00110001#8 ++ 4#8 ++ 3#8 ++ 0#8 ++ 9#8 ++ 7#8) = .instr (.cvtx u 0 6 true 4 3 9 7) ∧
    decode (0x59#8 ++ 0b01111110#8 ++ 0b00000000#8 ++ 3#8 ++ 4#8 ++ 5#8 ++ 6#8 ++ 0#8) = .instr (.dotI8 u 3 4 5 6) ∧
    decode (0x5A#8 ++ 0b01111110#8 ++ 0b00000000#8 ++ 3#8 ++ 4#8 ++ 5#8 ++ 6#8 ++ 0#8) = .instr (.dotZ8 u 3 4 5 6) ∧
    decode (0x5B#8 ++ 0b01111110#8 ++ 0b01000000#8 ++ 3#8 ++ 4#8 ++ 5#8 ++ 6#8 ++ 0#8) = .instr (.dotE4m3 u 1 3 4 5 6) ∧
    decode (0x5C#8 ++ 0b01111110#8 ++ 0b00000000#8 ++ 3#8 ++ 4#8 ++ 5#8 ++ 6#8 ++ 0#8) = .instr (.dotE5m2 u 0 3 4 5 6) ∧
    decode (0x5D#8 ++ 0b01111110#8 ++ 0b00000000#8 ++ 3#8 ++ 4#8 ++ 5#8 ++ 6#8 ++ 0#8) = .instr (.dotI4 u 3 4 5 6) ∧
    decode (0x5E#8 ++ 0b01111110#8 ++ 0b11000000#8 ++ 3#8 ++ 4#8 ++ 5#8 ++ 6#8 ++ 0#8) = .instr (.dotE2m1 u 3 3 4 5 6) ∧
    decode (0x5F#8 ++ 0b01111110#8 ++ 0b10000000#8 ++ 20#8 ++ 8#8 ++ 12#8 ++ 4#8 ++ 9#8) = .instr (.dotsE4m3 u 2 20 8 12 4 9) ∧
    decode (0x60#8 ++ 0b01111110#8 ++ 0b00000000#8 ++ 20#8 ++ 8#8 ++ 12#8 ++ 4#8 ++ 15#8) = .instr (.dotsE5m2 u 0 20 8 12 4 15) ∧
    decode (0x61#8 ++ 0b01111110#8 ++ 0b00000000#8 ++ 20#8 ++ 6#8 ++ 10#8 ++ 4#8 ++ 1#8) = .instr (.dotsE2m1 u 0 20 6 10 4 1) ∧
    decode (0x62#8 ++ 0b01111110#8 ++ 0b00000000#8 ++ 20#8 ++ 8#8 ++ 12#8 ++ 4#8 ++ 2#8) = .instr (.dotsI8 u 0 20 8 12 4 2) ∧
    decode (0x63#8 ++ 0b01111110#8 ++ 0b00000000#8 ++ 3#8 ++ 4#8 ++ 5#8 ++ 6#8 ++ 0#8) = .instr (.dot2Bf16 u 0 3 4 5 6) ∧
    decode (0x64#8 ++ 0b01111110#8 ++ 0b01000000#8 ++ 3#8 ++ 4#8 ++ 5#8 ++ 6#8 ++ 0#8) = .instr (.dot2F16 u 1 3 4 5 6) := by decide +kernel

/-- 02 R35, R36; 09 R188, R189. -/
theorem test_decode_memory :
    decode (0x70#8 ++ 0b01111111#8 ++ 0b01000010#8 ++ 19#8 ++ 3#8 ++ 1#5 ++ 0#2 ++ 0x408#17) = .instr (.ld uk 1 0 2 19 3 1 0 0x408) ∧
    decode (0x71#8 ++ 0b01111110#8 ++ 0b10011010#8 ++ 6#8 ++ 4#8 ++ 1#5 ++ 0#2 ++ 0x1FFFF#17) = .instr (.st u 2 3 2 6 4 1 0 0x1FFFF) ∧
    decode (0x72#8 ++ 0b01111110#8 ++ 0b11100011#8 ++ 4#8 ++ 8#8 ++ 31#5 ++ 9#4 ++ 0x7FFF#15) = .instr (.atom u 3 4 3 4 8 31 9 0x7FFF) ∧
    decode (0x73#8 ++ 0b00000100#8 ++ 0b00000010#8 ++ 5#8 ++ 2#8 ++ 4#5 ++ 0#4 ++ 0#15) = .instr (.atomn p2 0 0 2 5 2 4 0 0) ∧
    decode (0x74#8 ++ 0b01111110#8 ++ 0b01011010#8 ++ 8#8 ++ 2#8 ++ 0#5 ++ 0#2 ++ 0#17) = .instr (.cas u 1 3 2 8 2 0 0 0) ∧
    decode (0x75#8 ++ 0b01111110#8 ++ 0b10011000#8 ++ 0#8 ++ 0#8 ++ 0#5 ++ 0#2 ++ 0#17) = .instr (.fence u 2 3) ∧
    decode (0x76#8 ++ 0b01111110#8 ++ 0b00011000#8 ++ 0#8 ++ 0#8 ++ 0#5 ++ 0#2 ++ 0#17) = .instr (.scfence u 3) ∧
    decode (0x77#8 ++ 0b01111110#8 ++ 0b00000000#8 ++ 3#8 ++ 200#8 ++ 0#8 ++ 0#8 ++ 0#8) = .instr (.bset u 3 200) ∧
    decode (0x78#8 ++ 0b01111110#8 ++ 0b00000000#8 ++ 200#8 ++ 3#8 ++ 0#8 ++ 0#8 ++ 0#8) = .instr (.bget u 200 3) ∧
    decode (0x79#8 ++ 0b01111110#8 ++ 0b00000100#8 ++ 0#8 ++ 4#8 ++ 2#5 ++ 0#2 ++ 5#17) = .instr (.pref u 4 4 2 0 5) := by decide +kernel

/-- 12 R263, R264. -/
theorem test_decode_barriers_and_rings :
    decode (0x90#8 ++ 0b01111110#8 ++ 0b10000000#8 ++ 3#8 ++ 4#8 ++ 5#8 ++ 6#8 ++ 0#8) = .instr (.binit u true 3 4 5 6) ∧
    decode (0x91#8 ++ 0b01111110#8 ++ 0b00000000#8 ++ 3#8 ++ 4#8 ++ 0#8 ++ 0#8 ++ 0#8) = .instr (.bjoin u false 3 4) ∧
    decode (0x92#8 ++ 0b01111110#8 ++ 0b10000000#8 ++ 3#8 ++ 4#8 ++ 0#8 ++ 0#8 ++ 0#8) = .instr (.barr u true 3 4) ∧
    decode (0x93#8 ++ 0b01111110#8 ++ 0b10000000#8 ++ 5#8 ++ 4#8 ++ 6#8 ++ 0#8 ++ 0#8) = .instr (.bwait u true 5 4 6) ∧
    decode (0x94#8 ++ 0b01111110#8 ++ 0b00000000#8 ++ 3#8 ++ 4#8 ++ 0#8 ++ 0#8 ++ 0#8) = .instr (.barw u false 3 4) ∧
    decode (0x95#8 ++ 0b01111110#8 ++ 0b00000000#8 ++ 3#8 ++ 5#8 ++ 0#8 ++ 0#8 ++ 0#8) = .instr (.bdrop u false 3 5) ∧
    decode (0x96#8 ++ 0b01111110#8 ++ 0b00000000#8 ++ 3#8 ++ 5#8 ++ 0#8 ++ 0#8 ++ 0#8) = .instr (.binv u false 3 5) ∧
    decode (0x97#8 ++ 0b01111110#8 ++ 0b00000000#8 ++ 3#8 ++ 5#8 ++ 0#8 ++ 0#8 ++ 7#8) = .instr (.bqry u false 3 5 7) ∧
    decode (0x98#8 ++ 0b01111110#8 ++ 0b00000000#8 ++ 3#8 ++ 4#8 ++ 0#8 ++ 0#8 ++ 0#8) = .instr (.rginit u 3 4) ∧
    decode (0x98#8 ++ 0b01111110#8 ++ 0b01000000#8 ++ 3#8 ++ 5#8 ++ 0#8 ++ 0#8 ++ 0#8) = .instr (.rginitFree u 3 5) ∧
    decode (0x99#8 ++ 0b01111110#8 ++ 0b01000000#8 ++ 7#8 ++ 2#8 ++ 0#8 ++ 0#8 ++ 0#8) = .instr (.slacq u true 7 2) ∧
    decode (0x9A#8 ++ 0b01111110#8 ++ 0b00000000#8 ++ 0#8 ++ 3#8 ++ 4#8 ++ 5#8 ++ 0#8) = .instr (.slfil u 3 4 5) ∧
    decode (0x9B#8 ++ 0b01111110#8 ++ 0b00000000#8 ++ 7#8 ++ 2#8 ++ 0#8 ++ 0#8 ++ 0#8) = .instr (.sltak u false 7 2) ∧
    decode (0x9C#8 ++ 0b01111110#8 ++ 0b00000000#8 ++ 0#8 ++ 3#8 ++ 4#8 ++ 0#8 ++ 0#8) = .instr (.slrel u 3 4) := by decide +kernel

/-- 14 R279, R280; 15 R295, R296. -/
theorem test_decode_copies_and_matrix :
    decode (0xA0#8 ++ 0b01111110#8 ++ 0b01100000#8 ++ 10#8 ++ 4#8 ++ 3#8 ++ 8#8 ++ 1#8) = .instr (.cpy u 3 0 false 10 4 3 8 1) ∧
    decode (0xA1#8 ++ 0b01111110#8 ++ 0b00000110#8 ++ 5#8 ++ 4#8 ++ 6#8 ++ 8#8 ++ 2#8) = .instr (.cpyg u 0 1 true 5 4 6 8 2) ∧
    decode (0xA2#8 ++ 0b01111110#8 ++ 0b10001000#8 ++ 5#8 ++ 4#8 ++ 6#8 ++ 8#8 ++ 2#8) = .instr (.cpys u 4 2 false 5 4 6 8 2) ∧
    decode (0xA3#8 ++ 0b01111110#8 ++ 0b00100000#8 ++ 10#8 ++ 4#8 ++ 3#8 ++ 8#8 ++ 2#8) = .instr (.cpyf u 1 0 false 10 4 3 8 2) ∧
    decode (0xA4#8 ++ 0b01111110#8 ++ 0b00000000#8 ++ 12#8 ++ 0#8 ++ 0#8 ++ 0#8 ++ 0#8) = .instr (.cseal u 12) ∧
    decode (0xA5#8 ++ 0b01111110#8 ++ 0b00000000#8 ++ 13#8 ++ 12#8 ++ 0#8 ++ 0#8 ++ 0#8) = .instr (.cwait u 13 12) ∧
    decode (0xA6#8 ++ 0b01111110#8 ++ 0b00000000#8 ++ 13#8 ++ 0#8 ++ 0#8 ++ 0#8 ++ 0#8) = .instr (.cpoll u 13) ∧
    decode (0xA8#8 ++ 0b01111110#8 ++ 0b01100000#8 ++ 2#8 ++ 3#8 ++ 5#8 ++ 0#8 ++ 0#8) = .instr (.mclaim u 1 true 2 3 5) ∧
    decode (0xA9#8 ++ 0b01111110#8 ++ 0b10000000#8 ++ 2#8 ++ 3#8 ++ 5#8 ++ 0#8 ++ 0#8) = .instr (.mrel u 2 2 3 5) ∧
    decode (0xAA#8 ++ 0b01111110#8 ++ 0b00000000#8 ++ 2#8 ++ 0#8 ++ 0#8 ++ 0#8 ++ 0#8) = .instr (.mbaton u 2) ∧
    decode (0xAB#8 ++ 0b01111110#8 ++ 0b00000000#8 ++ 2#8 ++ 3#8 ++ 0#8 ++ 0#8 ++ 0#8) = .instr (.mpass u 2 3) ∧
    decode (0xAC#8 ++ 0b01111110#8 ++ 0b10000000#8 ++ 15#8 ++ 0#8 ++ 0#8 ++ 0#8 ++ 0#8) = .instr (.mzero u true 15) ∧
    decode (0xAD#8 ++ 0b01111110#8 ++ 0b01000000#8 ++ 0#8 ++ 4#8 ++ 198#8 ++ 0#8 ++ 0#8) = .instr (.mmaBf16 u false true false 0 4 198 0 0) ∧
    decode (0xAE#8 ++ 0b01111110#8 ++ 0b00000000#8 ++ 0#8 ++ 4#8 ++ 0#8 ++ 0#8 ++ 0#8) = .instr (.mmaF16 u false false false 0 4 0 0 0) ∧
    decode (0xAF#8 ++ 0b01111110#8 ++ 0b10100000#8 ++ 0#8 ++ 4#8 ++ 0#8 ++ 64#8 ++ 202#8) = .instr (.mmaE4m3 u true false true 0 4 0 64 202) ∧
    decode (0xB0#8 ++ 0b01111110#8 ++ 0b00000100#8 ++ 0#8 ++ 4#8 ++ 0#8 ++ 0#8 ++ 202#8) = .instr (.mmaE5m2 u false false false 1 4 0 0 202) ∧
    decode (0xB1#8 ++ 0b01111110#8 ++ 0b10010000#8 ++ 0#8 ++ 4#8 ++ 0#8 ++ 128#8 ++ 254#8) = .instr (.mmaE2m1 u true false false 4 4 0 128 254) ∧
    decode (0xB2#8 ++ 0b01111110#8 ++ 0b00000000#8 ++ 0#8 ++ 4#8 ++ 0#8 ++ 0#8 ++ 0#8) = .instr (.mmaI8 u false false false 0 4 0 0 0) ∧
    decode (0xB3#8 ++ 0b01111110#8 ++ 0b00000000#8 ++ 0#8 ++ 5#8 ++ 0#8 ++ 0#8 ++ 0#8) = .instr (.mmaI4 u false false false 0 5 0 0 0) ∧
    decode (0xB4#8 ++ 0b01111110#8 ++ 0b11000000#8 ++ 6#8 ++ 12#8 ++ 198#8 ++ 0#8 ++ 3#8) = .instr (.mdrain u true true 6 12 198 3) ∧
    decode (0xB5#8 ++ 0b01111110#8 ++ 0b00000000#8 ++ 3#8 ++ 4#8 ++ 0#8 ++ 0#8 ++ 15#8) = .instr (.mrd u 3 4 15) ∧
    decode (0xB6#8 ++ 0b01111110#8 ++ 0b10000000#8 ++ 1#8 ++ 7#8 ++ 8#8 ++ 0#8 ++ 0#8) = .instr (.mmask u true 1 7 8) ∧
    decode (0xB7#8 ++ 0b01111110#8 ++ 0b10000000#8 ++ 0#8 ++ 0#8 ++ 0#8 ++ 0#8 ++ 0#8) = .instr (.msync u true) := by decide +kernel

/-- 10 R224; 19 R356. -/
theorem test_decode_taps_and_tasks :
    decode (0xB8#8 ++ 0b01111110#8 ++ 0b00000000#8 ++ 10#8 ++ 11#8 ++ 2#8 ++ 3#8 ++ 5#8) = .instr (.tapin u 10 11 2 3 5) ∧
    decode (0xB9#8 ++ 0b01111110#8 ++ 0b00000000#8 ++ 12#8 ++ 10#8 ++ 14#8 ++ 0#8 ++ 0#8) = .instr (.tapw u 12 10 14) ∧
    decode (0xBA#8 ++ 0b01111110#8 ++ 0b10000000#8 ++ 30#8 ++ 10#8 ++ 0#8 ++ 0#8 ++ 0#8) = .instr (.taprm u true 30 10) ∧
    decode (0xBB#8 ++ 0b01111110#8 ++ 0b00000000#8 ++ 0#8 ++ 20#8 ++ 21#8 ++ 0#8 ++ 0#8) = .instr (.trel u 20 21) ∧
    decode (0xBC#8 ++ 0b01111110#8 ++ 0b00000000#8 ++ 0#8 ++ 4#8 ++ 0#8 ++ 0#8 ++ 0#8) = .instr (.tapsync u false 4) ∧
    decode (0xC0#8 ++ 0b01111110#8 ++ 0b00000000#8 ++ 10#8 ++ 4#8 ++ 0#8 ++ 0#8 ++ 0#8) = .instr (.jpost u 10 4) ∧
    decode (0xC1#8 ++ 0b01111110#8 ++ 0b00000000#8 ++ 2#8 ++ 0#8 ++ 0#8 ++ 0#8 ++ 3#8) = .instr (.jrec u 2 3) ∧
    decode (0xC2#8 ++ 0b01111110#8 ++ 0b00000000#8 ++ 0#8 ++ 0#8 ++ 0#8 ++ 0#8 ++ 0#8) = .instr (.jhint u) ∧
    decode (0xC3#8 ++ 0b01111110#8 ++ 0b00000000#8 ++ 3#8 ++ 0#8 ++ 0#8 ++ 0#8 ++ 0#8) = .instr (.jpwait u 3) ∧
    decode (0xC4#8 ++ 0b01111110#8 ++ 0b00000000#8 ++ 0#8 ++ 4#8 ++ 0#8 ++ 0#8 ++ 0#8) = .instr (.finit u 4) ∧
    decode (0xC5#8 ++ 0b00000010#8 ++ 0b00000000#8 ++ 0#8 ++ 194#8 ++ 8#8 ++ 0#8 ++ 0#8) = .instr (.fwr p1 194 8) ∧
    decode (0xC6#8 ++ 0b01111110#8 ++ 0b00000000#8 ++ 6#8 ++ 4#8 ++ 0#8 ++ 0#8 ++ 5#8) = .instr (.frd u 6 4 5) ∧
    decode (0xC7#8 ++ 0b01111110#8 ++ 0b10000000#8 ++ 3#8 ++ 5#8 ++ 6#8 ++ 7#8 ++ 0#8) = .instr (.scopen u true 3 5 6 7) ∧
    decode (0xC8#8 ++ 0b01111110#8 ++ 0b00000000#8 ++ 3#8 ++ 7#8 ++ 0#8 ++ 0#8 ++ 0#8) = .instr (.sccan u false 3 7 0) ∧
    decode (0xC9#8 ++ 0b01111110#8 ++ 0b00000000#8 ++ 3#8 ++ 7#8 ++ 0#8 ++ 0#8 ++ 0#8) = .instr (.scack u false 3 7 0) ∧
    decode (0xCA#8 ++ 0b01111110#8 ++ 0b10000000#8 ++ 3#8 ++ 7#8 ++ 0#8 ++ 9#8 ++ 0#8) = .instr (.scqry u true 3 7 9) := by decide +kernel

/-- 09 R205, R206; 11 R245, R247; 17 R331; 21 R383; 23 R393. -/
theorem test_decode_system_and_pool :
    decode (0xD0#8 ++ 0b01111110#8 ++ 0b00000000#8 ++ 3#8 ++ 4#8 ++ 0#8 ++ 0#8 ++ 0#8) = .instr (.tretRetry u 3 4) ∧
    decode (0xD0#8 ++ 0b01111110#8 ++ 0b00000001#8 ++ 3#8 ++ 4#8 ++ 0#8 ++ 0#8 ++ 0#8) = .instr (.tretSkip u 3 4) ∧
    decode (0xD0#8 ++ 0b01111110#8 ++ 0b00000010#8 ++ 3#8 ++ 4#8 ++ 6#8 ++ 0#8 ++ 0#8) = .instr (.tretRedirect u 3 4 6) ∧
    decode (0xD1#8 ++ 0b01111110#8 ++ 0b00000001#8 ++ 8#8 ++ 5#8 ++ 0#8 ++ 0#8 ++ 8#8) = .instr (.crd u true 8 5 8) ∧
    decode (0xD2#8 ++ 0b01111110#8 ++ 0b00000001#8 ++ 3#8 ++ 5#8 ++ 10#8 ++ 0#8 ++ 9#8) = .instr (.cwr u true 3 5 10 9) ∧
    decode (0xD2#8 ++ 0b01111110#8 ++ 0b00000001#8 ++ 3#8 ++ 5#8 ++ 10#8 ++ 0#8 ++ 0#8) = .instr (.cwrStateCreate u 3 5 10) ∧
    decode (0xD2#8 ++ 0b01111110#8 ++ 0b00000000#8 ++ 3#8 ++ 0#8 ++ 10#8 ++ 0#8 ++ 1#8) = .instr (.cwrKqsize u 3 10) ∧
    decode (0xD2#8 ++ 0b01111110#8 ++ 0b00000000#8 ++ 3#8 ++ 0#8 ++ 10#8 ++ 0#8 ++ 2#8) = .instr (.cwrKqhead u 3 10) ∧
    decode (0xD2#8 ++ 0b01111110#8 ++ 0b00000001#8 ++ 3#8 ++ 5#8 ++ 10#8 ++ 0#8 ++ 0x0D#8) = .instr (.cwrPreempt u 3 5 10) ∧
    decode (0xD2#8 ++ 0b01111110#8 ++ 0b00000001#8 ++ 3#8 ++ 5#8 ++ 10#8 ++ 0#8 ++ 0x0A#8) = .instr (.cwrBcores u 3 5 10) ∧
    decode (0xD2#8 ++ 0b01111110#8 ++ 0b00000001#8 ++ 3#8 ++ 5#8 ++ 10#8 ++ 0#8 ++ 0x19#8) = .instr (.cwrTrsize u 3 5 10) ∧
    decode (0xD3#8 ++ 0b01111110#8 ++ 0b00000000#8 ++ 3#8 ++ 4#8 ++ 6#8 ++ 0#8 ++ 0#8) = .instr (.tlbinvPage u 3 4 6) ∧
    decode (0xD3#8 ++ 0b01111110#8 ++ 0b00000001#8 ++ 3#8 ++ 0#8 ++ 6#8 ++ 0#8 ++ 0#8) = .instr (.tlbinvContext u 3 6) ∧
    decode (0xD3#8 ++ 0b01111110#8 ++ 0b00000010#8 ++ 3#8 ++ 0#8 ++ 0#8 ++ 0#8 ++ 0#8) = .instr (.tlbinvAll u 3) ∧
    decode (0xD3#8 ++ 0b01111110#8 ++ 0b00000111#8 ++ 3#8 ++ 4#8 ++ 6#8 ++ 7#8 ++ 0#8) = .instr (.tlbinvRange u true 3 4 6 7) ∧
    decode (0xD4#8 ++ 0b01111110#8 ++ 0b00000000#8 ++ 3#8 ++ 4#8 ++ 0#8 ++ 0#8 ++ 0#8) = .instr (.pfres u 3 4) ∧
    decode (0xD5#8 ++ 0b01111110#8 ++ 0b01100000#8 ++ 3#8 ++ 196#8 ++ 0#8 ++ 0#8 ++ 0#8) = .instr (.errinj u 3 3 196) ∧
    decode (0xD5#8 ++ 0b01111110#8 ++ 0b11000000#8 ++ 3#8 ++ 0#8 ++ 0#8 ++ 0#8 ++ 0#8) = .instr (.errinjDisarm u 3) ∧
    decode (0xD6#8 ++ 0b01111110#8 ++ 0b00000001#8 ++ 3#8 ++ 4#8 ++ 6#8 ++ 0#8 ++ 0#8) = .instr (.psplit u 1 3 4 6) ∧
    decode (0xD7#8 ++ 0b01111110#8 ++ 0b00000000#8 ++ 3#8 ++ 4#8 ++ 6#8 ++ 0#8 ++ 0#8) = .instr (.haltg u 3 4 6) ∧
    decode (0xD8#8 ++ 0b01111110#8 ++ 0b00000000#8 ++ 3#8 ++ 4#8 ++ 6#8 ++ 0#8 ++ 0#8) = .instr (.resumeg u 3 4 6) ∧
    decode (0xE0#8 ++ 0b01111110#8 ++ 0b00000000#8 ++ 3#8 ++ 4#8 ++ 0#8 ++ 0#8 ++ 0#8) = .instr (.kseqNew u 3 4) ∧
    decode (0xE0#8 ++ 0b01111110#8 ++ 0b00100000#8 ++ 3#8 ++ 4#8 ++ 0#8 ++ 0#8 ++ 0#8) = .instr (.kseqFree u 3 4) ∧
    decode (0xE0#8 ++ 0b01111110#8 ++ 0b01000000#8 ++ 3#8 ++ 8#8 ++ 9#8 ++ 0#8 ++ 0#8) = .instr (.kseqPinit u 3 8 9) ∧
    decode (0xE0#8 ++ 0b01111110#8 ++ 0b01100000#8 ++ 3#8 ++ 4#8 ++ 0#8 ++ 0#8 ++ 0#8) = .instr (.kseqPfree u 3 4) ∧
    decode (0xE0#8 ++ 0b01111110#8 ++ 0b10000000#8 ++ 3#8 ++ 4#8 ++ 0#8 ++ 0#8 ++ 0#8) = .instr (.kseqPquery u 3 4) ∧
    decode (0xE1#8 ++ 0b01111110#8 ++ 0b10000000#8 ++ 10#8 ++ 4#8 ++ 5#8 ++ 0#8 ++ 0#8) = .instr (.kalloc u true 10 4 5) ∧
    decode (0xE2#8 ++ 0b01111110#8 ++ 0b00000000#8 ++ 10#8 ++ 4#8 ++ 7#8 ++ 0#8 ++ 0#8) = .instr (.ktrim u 10 4 7) ∧
    decode (0xE3#8 ++ 0b01111110#8 ++ 0b00000000#8 ++ 12#8 ++ 4#8 ++ 6#8 ++ 0#8 ++ 3#8) = .instr (.klook u 12 4 6 3) ∧
    decode (0xE4#8 ++ 0b01111110#8 ++ 0b00000000#8 ++ 10#8 ++ 4#8 ++ 6#8 ++ 0#8 ++ 0#8) = .instr (.kfree u 10 4 6) := by decide +kernel

/-! ### Small states -/

/-- A one-thread kernel-level block that stands at an instruction, from reset (log 11). -/
def on (i : Instr) : State := placeWord State.reset (encode i)
/-- The block that stands at it. -/
def uid (s : State) : Nat := match getBundle s s.cur with | some q => q.blk | none => 0
/-- The same with a v register, with an even v pair, with a buffer record of its block. -/
def withV (s : State) (r : Nat) (v : W32) : State := setV s (uid s) 0 0 r v
def withP (s : State) (r : Nat) (v : W64) : State := withV (withV s r (v.setWidth 32)) (r + 1) ((v >>> 32).setWidth 32)
def withRec (s : State) (n : Nat) (w : BitVec 256) : State :=
  modBlock s (uid s) (fun b => { b with recs := Sparse.set 0 b.recs n w })
/-- The same after other instructions at the same place. -/
def also (s : State) (i : Instr) : State :=
  match exec i s with | .next t => { t with bundles := s.bundles, cur := s.cur } | _ => s
/-- The context's handler is the header of the placed clause, and every soft trap goes there. -/
def handled (s : State) : State := modCtx s 0 (fun c => { c with tvec := BitVec.ofNat 64 placedAt, tdeleg := 7 })
/-- A record of 16 words of 32 bits from an offset of the scratchpad. -/
def scratchRec (off : Nat) : BitVec 256 :=
  BitVec.ofNat 256 (off + 16 * 2 ^ 64 + 4 * 2 ^ 128 + 0x10 * 2 ^ 192 + 2 ^ 203)
abbrev any : Iss → State → Prop := fun _ _ => True

/-- The issue checks of an instruction, as one test. -/
def issues (s : State) (op : Nat) (k : Ctl) (src dst late : List RG) (ok : Iss → State → Bool) : Bool :=
  match getBundle s s.cur with
  | none => false
  | some q => match q.place.clause, getBlock s q.blk with
    | some c, some b =>
      decide (orderFault b q.role c q.place.idx op = none) &&
      (lanesOf s q).all (fun x => !(src ++ dst ++ late).any (outOfRange x.g)) &&
      (!b.protectd || (pairFaults (lanesOf s q) k op src).isEmpty) &&
      (issuingOf s q).all (fun x => (meets b k x src true).none && (meets b k x src false).none) &&
      (holdBad b).isEmpty && decide (countArm b op dst (activeOf s q k) = (b.arm, none)) && !(activeOf s q k).isEmpty &&
      ok (issOf s q b op k) (issued s)
    | _, _ => false
/-- A state in which an instruction is issued with nothing in its way, with an active lane, and the rest of a statement's
hypotheses holds. -/
def Has (s : State) (op : Nat) (k : Ctl) (src dst : List RG) (ok : Iss → State → Prop) (late : List RG := []) : Prop :=
  ∃ q c b, Ready s op k src dst late q c b ∧ activeOf s q k ≠ [] ∧ ok (issOf s q b op k) (issued s)
theorem has {s : State} {op : Nat} {k : Ctl} {src dst late : List RG} {ok : Iss → State → Prop} [∀ j s, Decidable (ok j s)]
    (h : issues s op k src dst late (fun j s => decide (ok j s)) = true) : Has s op k src dst ok late := by
  unfold issues at h
  split at h
  · cases h
  · rename_i q hq
    split at h
    · rename_i c b hc hb
      simp only [Bool.and_eq_true, decide_eq_true_eq, List.all_eq_true, Bool.or_eq_true, Bool.not_eq_true',
        List.isEmpty_iff] at h
      obtain ⟨⟨⟨⟨⟨⟨⟨h1, h2⟩, h3⟩, h4⟩, h0⟩, h5⟩, h6⟩, h7⟩ := h
      refine ⟨q, c, b, ⟨hq, hc, hb, h1, h2, ?_, ?_, h0, h5⟩, ?_, h7⟩
      · intro hp; rcases h3 with h | h
        · rw [h] at hp; cases hp
        · exact h
      · intro x hx dbl
        cases dbl
        · exact (h4 x hx).2
        · exact (h4 x hx).1
      · intro he; rw [he] at h6; cases h6
    · cases h

/-! ### Ill-formed terms: each field check refuses one, and the decoder refuses its word -/

/-- Whether the checks refuse a term and the decoder its word (02 R37-R39). -/
def refused (i : Instr) : Bool :=
  !i.wf && (match decode (encode i) with | .reject .illenc => true | _ => false)

/-- The guard: index 48, and 63 negated (02 R34). -/
theorem test_ill_guard : ([.nop ⟨false, 48, false⟩, .nop ⟨true, 63, false⟩, .exit ⟨false, 62, true⟩] : List Instr).all
    refused = true := by decide +kernel
/-- Register groups (02 R38): odd pairs, half quads, registers that are not predicates, v or s registers or records. -/
theorem test_ill_groups : ([.iadd u true false false 5 6 8, .iadd u true false false 4 7 8, .imad u true false false 4 6 8 11,
    .iaddw u false false 5 4 4, .mov u 2 6 4, .mov u 2 4 193, .mov u 1 3 4, .movi u 1 3 0, .fcmp u 0 0 48 1 2,
    .vget u 3 192 4, .vput u 200 4 5, .bset u 32 196, .bset u 3 188, .bset u 3 198, .bget u 200 32, .brx u 5, .call u 5 0,
    .cvtq u 0 0 false false 3 6 0 0, .dotsE4m3 u 0 3 4 8 13 0, .dotsE2m1 u 0 3 5 8 12 0, .ld u 0 0 3 5 4 1 0 0,
    .ld u 0 0 4 6 4 1 0 0, .barr u true 3 5, .cas u 0 0 2 9 4 1 0 0, .cas u 0 0 4 12 4 1 0 0, .cas u 0 0 1 8 4 1 0 0,
    .tapin u 3 4 32 5 0, .jrec u 4 48, .crd u true 5 4 0, .tretRetry u 3 5] : List Instr).all refused = true := by decide +kernel
/-- Counts, fields, compare codes, masks and indices of the INT class (06 R104). -/
theorem test_ill_int_fields : ([.ishl u false true 4 6 0 32, .ishl u true true 4 6 0 64, .ishr u false false true 4 6 1 3,
    .ishl u false false 4 6 7 1, .fshl u true 5 4 4 0 32, .bfx u false false true 3 7 32 1, .bfx u false false true 3 7 0 0,
    .bfi u false true 3 3 9 0 33, .bfi u false false 3 3 9 10 1, .isel u false 3 4 5 48, .mov u 3 4 8,
    .icmp u false false 0 7 3 4 5, .icmp u false true 0 6 3 4 5, .icmpi u false false 0 7 3 4 1, .pget u 3 2, .pset u 3 4 2,
    .plut u 3 4 48 5 0, .perm u false true 1 3 4 0 191 0, .perm u false false 1 3 4 0 192 0, .perm u false false 0 3 4 5 0 1,
    .perm u false false 1 3 4 0 0 32, .vote u false 0 48 3 0, .vote u false 1 3 48 0, .elect u true 3 5,
    .gred u false false false 6 3 4 0, .gred u false true false 0 3 4 0, .gscan u false true false 3 false 3 4 0] :
    List Instr).all refused = true := by decide +kernel
/-- Mask numbers, special registers, unit counts, program settings (06 R104, 05 R98). -/
theorem test_ill_control_fields : ([.rjarm u 3 4, .rjoin u 4, .rjdrop u 255, .gets u 3 0x00F, .gets u 5 0x022,
    .sets u 3 0x012, .rclaim u 0, .rgive u 23, .rtry u 48 1, .nap u 0, .prog u 16] : List Instr).all refused = true := by
  decide +kernel
/-- Format codes and scale fields of the VEC class (07 R143). -/
theorem test_ill_vec_fields : ([.cvt u 0 1 1 3 4 0, .cvt u 0 3 4 3 4 0, .cvt u 0 5 0 3 4 0, .cvt u 0 0 1 3 4 1,
    .cvtq u 0 4 false false 3 4 0 0, .cvtq u 0 0 true false 3 4 0 0, .cvtq u 0 0 false false 3 4 1 0,
    .cvtq u 0 0 false true 3 4 9 4, .cvto u 0 3 false 3 4 8 0 0, .cvtx u 0 0 false 4 3 0 1, .cvtx u 0 4 false 4 3 9 0,
    .dotsI8 u 0 3 4 8 12 16, .fcmp u 0 7 3 1 2] : List Instr).all refused = true := by decide +kernel
/-- Orders, scopes, sizes and operations of the MEM and SYNC classes (09 R188, 12 R263). -/
theorem test_ill_mem_fields : ([.ld u 2 0 2 19 4 1 0 0, .ld u 1 0 4 4 4 1 0 0, .ld u 0 5 2 19 4 1 0 0, .ld u 0 0 5 19 4 1 0 0,
    .st u 1 0 2 19 4 1 0 0, .atom u 1 0 2 19 4 1 14 0, .atom u 1 0 3 18 4 1 11 0, .atom u 1 0 1 19 4 1 0 0,
    .atomn u 1 0 2 19 4 1 0 0, .fence u 0 3, .fence u 2 5, .scfence u 7, .pref u 5 4 1 0 0, .bqry u false 3 4 8] :
    List Instr).all refused = true := by decide +kernel
/-- Forms of the COPY and MTX classes (14 R279, R280, 15 R295). -/
theorem test_ill_copy_matrix_fields : ([.cpy u 5 0 false 1 2 3 4 0, .cpy u 0 4 false 1 2 3 4 0, .cpy u 2 0 true 1 2 3 4 0,
    .cpy u 1 1 false 1 2 3 4 0, .cpy u 0 0 false 32 2 3 4 0, .cpyg u 0 0 false 1 2 3 4 32, .cpys u 1 0 false 1 2 3 4 0,
    .cpyf u 0 0 false 1 2 3 4 5, .mclaim u 3 false 3 4 5, .mrel u 3 3 4 5, .mzero u false 16,
    .mmaBf16 u true false false 0 1 0 0 0, .mmaI8 u false true false 0 1 4 0 0, .mmaE4m3 u true false false 0 1 0 129 0,
    .mmaI4 u false false false 5 1 0 0 192, .mmaF16 u false false false 0 1 0 0 192, .mmaF16 u false false true 0 1 0 0 193,
    .mdrain u false false 32 1 0 0, .mdrain u false false 3 1 0 16, .mrd u 3 4 16, .mmask u true 4 1 0,
    .mmask u false 3 1 200] : List Instr).all refused = true := by decide +kernel
/-- Forms of the TAP, TASK and SYS classes (16 R307, 17 R318, 11 R234, R245). -/
theorem test_ill_system_fields : ([.tapsync u true 4, .scopen u false 3 4 6 1, .sccan u false 3 4 1, .scack u false 3 4 2,
    .scqry u false 3 4 2, .crd u true 4 3 0x0F, .crd u false 4 3 0x00, .crd u false 4 0 0x05, .cwr u true 3 4 6 0x30,
    .errinj u 6 3 4, .psplit u 3 3 4 5] : List Instr).all refused = true := by decide +kernel
/-- A form with a row of its own is not the plain write's: the words of the two differ in no bit, the decoder answers the row. -/
theorem test_ill_rows_of_their_own :
    ([.cwr u true 3 4 6 0x0D, .cwr u false 3 0 6 0x01] : List Instr).all (fun i => !i.wf) = true ∧
    encode (.cwrStateRemove u 3 5 10) = encode (.cwrStateCreate u 3 5 10) := by decide +kernel

/-! ### Results of one instruction: the spec's worked examples -/

/-- The state after an instruction, or the state itself where it stops. -/
def run (i : Instr) (s : State) : State := match exec i s with | .next t => t | _ => s
/-- A v register, a predicate and FPFLAGS of the placed thread. -/
def vOf (r : Nat) (s : State) : W32 := vReg s (uid s) 0 0 r
def pOf (n : Nat) (s : State) : Bool := pReg s (uid s) 0 0 n
def fpOf (s : State) : BitVec 5 := fpFlags s (uid s) 0 0
/-- The same with two and with four registers. -/
def with2 (i : Instr) (a : Nat) (x : W32) (b : Nat) (y : W32) : State := withV (withV (on i) a x) b y
def with4 (i : Instr) (a : Nat) (x y z w : W32) : State := withV (withV (with2 i a x (a + 1) y) (a + 2) z) (a + 3) w

/-- 03 R54, the encoded example. -/
theorem test_words_of_the_assembly_example :
    decode 0x027E000202030000 = .instr (.iadd u false false false 2 2 3) ∧
    decode 0x28000000FFFFFFFE = .instr (.bra p0 0xFFFFFFFE) := by decide +kernel
/-- 06 R106: without sat the result wraps; with it an unsigned sum stops at the greatest value, a difference at 0. -/
theorem test_iadd_wraps : vOf 2 (run (.iadd u false false false 2 2 3) (with2 (.iadd u false false false 2 2 3) 2 0xFFFFFFFF 3 2)) = 1 := by
  decide +kernel
theorem test_iadd_saturates_signed : vOf 2 (run (.iadd u false true true 2 2 3)
    (with2 (.iadd u false true true 2 2 3) 2 0x7FFFFFFF 3 2)) = 0x7FFFFFFF := by decide +kernel
theorem test_isub_saturates_unsigned : vOf 2 (run (.isub u false false true 2 2 3)
    (with2 (.isub u false false true 2 2 3) 2 1 3 2)) = 0 := by decide +kernel
/-- 06 R108: the remainder takes the sign of A, −7 / 2 gives −3 remainder −1. -/
theorem test_idiv_toward_zero : vOf 4 (run (.idiv u false true 4 2 3) (with2 (.idiv u false true 4 2 3) 2 0xFFFFFFF9 3 2)) = 0xFFFFFFFD := by
  decide +kernel
theorem test_irem_sign_of_a : vOf 4 (run (.irem u false true 4 2 3) (with2 (.irem u false true 4 2 3) 2 0xFFFFFFF9 3 2)) = 0xFFFFFFFF := by
  decide +kernel
/-- 06 R109: bit 4a + 2b + c of x; 0x96 is the exclusive or of three. -/
theorem test_lut3_parity : vOf 9 (run (.lut3 u false 9 1 2 3 0x96)
    (withV (with2 (.lut3 u false 9 1 2 3 0x96) 1 0x0F 2 0x33) 3 0x55)) = 0x69 := by decide +kernel
/-- 07 R153, the example: 1.0, 500.0, −0 and a quiet NaN as E4M3; overflow and inexact. -/
theorem test_cvtq_example :
    let i : Instr := .cvtq u 0 0 false false 10 4 0 0
    let t := run i (with4 i 4 0x3F800000 0x43FA0000 0x80000000 0x7FC00000)
    vOf 10 t = 0x7F807E38 ∧ fpOf t = 0b00101 := by decide +kernel
/-- 07 R156, the worked block: 2^24 and sixteen products of 1/16, rounded up once; inexact. -/
theorem test_dots_example :
    let i : Instr := .dotsE4m3 u 2 20 8 12 4 9
    let s := with4 i 8 0x28282828 0x28282828 0x28282828 0x28282828
    let s := withV (withV (withV (withV s 12 0x28282828) 13 0x28282828) 14 0x28282828) 15 0x28282828
    let t := run i (withV (withV (withV s 4 0x00007F00) 5 0x007F0000) 20 0x4B800000)
    vOf 20 t = 0x4B800001 ∧ fpOf t = 0b00001 := by decide +kernel
/-- 15 R308, the example: the rows of a parent array, and the node that names a later one. -/
theorem test_tree_rows : (treeRows ([0xFF, 0, 0, 1] : List Nat)).take 4 = [1, 3, 5, 0xB] ∧
    badParent ([0xFF, 0, 3, 1] : List Nat) 4 = some 2 := by decide +kernel
/-- 05 R98: SETS writes the five sticky flags. -/
theorem test_sets_fpflags : fpOf (run (.sets u 4 0x20) (withV (on (.sets u 4 0x20)) 4 0x15)) = 0x15 := by decide +kernel
/-- 06 R116: signed and unsigned order differ where the sign bit is set. -/
theorem test_icmp_signed : pOf 5 (run (.icmp u false true 0 2 5 2 3) (with2 (.icmp u false true 0 2 5 2 3) 2 0xFFFFFFFF 3 1)) = true ∧
    pOf 5 (run (.icmp u false false 0 2 5 2 3) (with2 (.icmp u false false 0 2 5 2 3) 2 0xFFFFFFFF 3 1)) = false := by
  decide +kernel

theorem test_meets_IntArithmeticResults :
    Has (on (.iadd u true true true 4 6 8)) 0x02 u [rW true 6, rW true 8] [⟨4, ((wN true) + 31) / 32⟩] any ∧
    Has (on (.isub n2 false true false 5 7 9)) 0x03 n2 [rW false 7, rW false 9] [⟨5, ((wN false) + 31) / 32⟩] any ∧
    Has (on (.iaddi u true true false 4 6 0xFFFFFB)) 0x04 u [rW true 6] [⟨4, ((wN true) + 31) / 32⟩] any ∧
    Has (on (.iaddw u false true 4 6 7)) 0x05 u [r64 6, r32 7] [⟨4, (64 + 31) / 32⟩] any ∧
    Has (on (.imul u true false false 4 6 8)) 0x06 u [rW true 6, rW true 8] [⟨4, ((wN true) + 31) / 32⟩] any ∧
    Has (on (.imulh u false true 5 7 9)) 0x07 u [rW false 7, rW false 9] [⟨5, ((wN false) + 31) / 32⟩] any ∧
    Has (on (.imad u false false true 5 7 9 11)) 0x08 u [rW false 7, rW false 9, rW false 11] [⟨5, ((wN false) + 31) / 32⟩] any ∧
    Has (on (.imadw u true false 4 7 9 6)) 0x09 u [r32 7, r32 9, r64 6] [⟨4, (64 + 31) / 32⟩] any ∧
    Has (on (.idiv u true true 4 6 8)) 0x0A u [rW true 6, rW true 8] [⟨4, ((wN true) + 31) / 32⟩] any ∧
    Has (on (.irem u false false 5 7 9)) 0x0B u [rW false 7, rW false 9] [⟨5, ((wN false) + 31) / 32⟩] any ∧
    Has (on (.imin u false true 5 7 9)) 0x0C u [rW false 7, rW false 9] [⟨5, ((wN false) + 31) / 32⟩] any ∧
    Has (on (.imax u true false 4 6 200)) 0x0D u [rW true 6, rW true 200] [⟨4, ((wN true) + 31) / 32⟩] any ∧
    Has (on (.iabsd u false false 5 7 9)) 0x0E u [rW false 7, rW false 9] [⟨5, ((wN false) + 31) / 32⟩] any := by
  refine ⟨?_, ?_, ?_, ?_, ?_, ?_, ?_, ?_, ?_, ?_, ?_, ?_, ?_⟩ <;> exact has (by decide +kernel)
theorem test_meets_ShiftAndBitfieldResults :
    Has (on (.ishl u true false 4 6 7 0)) 0x10 u (rW true 6 :: cntSrc false 7) [⟨4, ((wN true) + 31) / 32⟩] any ∧
    Has (on (.ishr u true true true 4 6 0 63)) 0x11 u (rW true 6 :: cntSrc true 0) [⟨4, ((wN true) + 31) / 32⟩] any ∧
    Has (on (.fshl u true 5 4 4 0 1)) 0x12 u (r32 4 :: r32 4 :: cntSrc true 0) [⟨5, (32 + 31) / 32⟩] any ∧
    Has (on (.fshr u false 5 4 3 2 0)) 0x13 u (r32 4 :: r32 3 :: cntSrc false 2) [⟨5, (32 + 31) / 32⟩] any ∧
    Has (on (.bfx u false true true 3 7 8 4)) 0x14 u (rW false 7 :: cntSrc true 8) [⟨3, ((wN false) + 31) / 32⟩] any ∧
    Has (on (.bfi u false false 3 3 9 10 0)) 0x15 u (rW false 3 :: rW false 9 :: cntSrc false 10) [⟨3, ((wN false) + 31) / 32⟩] any := by
  refine ⟨?_, ?_, ?_, ?_, ?_, ?_⟩ <;> exact has (by decide +kernel)
theorem test_meets_LogicAndMoveResults :
    Has (on (.lut3 u false 9 1 2 3 0x96)) 0x0F u [rW false 1, rW false 2, rW false 3] [⟨9, ((wN false) + 31) / 32⟩] any ∧
    Has (on (.popc u true 3 6)) 0x16 u [rW true 6] [⟨3, (32 + 31) / 32⟩] any ∧
    Has (on (.popb u true 4 6)) 0x17 u [rW true 6] [⟨4, ((wN true) + 31) / 32⟩] any ∧
    Has (on (.clz u false 3 6)) 0x18 u [rW false 6] [⟨3, (32 + 31) / 32⟩] any ∧
    Has (on (.brev u false 3 7)) 0x19 u [rW false 7] [⟨3, ((wN false) + 31) / 32⟩] any ∧
    Has (on (.isel u false 3 7 9 0x85)) 0x1A u [rW false 7, rW false 9, rP 5] [⟨3, ((wN false) + 31) / 32⟩] any ∧
    Has (on (.mov u 2 4 8)) 0x1B u [⟨8, 32 * 2 ^ 2 / 32⟩] [⟨4, ((32 * 2 ^ 2) + 31) / 32⟩] any ∧
    Has (on (.movi u 3 4 0x89ABCDEF)) 0x1C u [] [⟨4, (32 + 31) / 32⟩] any ∧
    Has (on (.movi u 3 4 0x89ABCDEF)) 0x1C u [] [⟨4, (64 + 31) / 32⟩] any ∧
    Has (on (.movi u 3 4 0x89ABCDEF)) 0x1C u [] [⟨4, (64 + 31) / 32⟩] any ∧
    Has (on (.movi u 3 4 0x89ABCDEF)) 0x1C u [r64 4] [⟨4, (64 + 31) / 32⟩] any ∧
    Has (on (.pget u 3 1)) 0x20 u [rP 0] [⟨3, (32 + 31) / 32⟩] any := by
  refine ⟨?_, ?_, ?_, ?_, ?_, ?_, ?_, ?_, ?_, ?_, ?_, ?_⟩ <;> exact has (by decide +kernel)
theorem test_meets_PredicateResults :
    Has (on (.icmp u false true 3 5 7 2 3)) 0x1D u [rW false 2, rW false 3, rP 7] [] any ∧
    Has (on (.icmpi u false true 2 2 7 2 0xFFFFFB)) 0x1E u [rW false 2, rP 7] [] any ∧
    Has (on (.plut u 47 1 2 3 0xE8)) 0x1F u [rP 1, rP 2, rP 3] [] any ∧
    Has (on (.fcmp u 3 6 7 4 5)) 0x45 u [r32 4, r32 5, rP 7] [] any ∧
    Has (on (.pset u 3 4 1)) 0x21 u [r32 3, r32 4] [] any := by
  refine ⟨?_, ?_, ?_, ?_, ?_⟩ <;> exact has (by decide +kernel)
theorem test_meets_PlainControlInstructions :
    Has (on (.nop u)) 0x01 u [] [] any ∧
    Has (on (.yield u)) 0x36 u [] [] any ∧
    Has (on (.jhint u)) 0xC2 u [] [] any ∧
    Has (on (.nap u 0xFFFFFF)) 0x37 u [] [] any ∧
    Has (on (.prog u 3)) 0x38 u [] [] any ∧
    Has (on (.trcmark u 5 0x12)) 0x3A u [r32 5] [] any ∧
    Has (on (.exit uk)) 0x2F uk [] [] any := by
  refine ⟨?_, ?_, ?_, ?_, ?_, ?_, ?_⟩ <;> exact has (by decide +kernel)
theorem test_meets_IndexedRegisterResults :
    Has (on (.vget u 3 191 5)) 0x3B u [r32 5] [r32 3] (fun j _ => ∀ x ∈ j.act, 191 + x.rd 5 32 < x.g.limit ∧ badReads j.b x [⟨BitVec.ofNat 8 (191 + x.rd 5 32), 1⟩] true = []) ∧
    Has (withV (on (.vput u 191 3 5)) 5 0) 0x3C u [r32 3, r32 5] [] (fun j _ => ∀ x ∈ j.act, 191 + x.rd 5 32 < x.g.limit) := by
  refine ⟨?_, ?_⟩ <;> exact has (by decide +kernel)
theorem test_meets_Fp32Results :
    Has (on (.fadd u 1 true true 3 4 5)) 0x40 u [r32 4, r32 5] [⟨3, (32 + 31) / 32⟩] any ∧
    Has (on (.fmul u 2 true 3 4 5)) 0x41 u [r32 4, r32 5] [⟨3, (32 + 31) / 32⟩] any ∧
    Has (on (.ffma u 3 false true 8 1 2 8)) 0x42 u [r32 1, r32 2, r32 8] [⟨8, (32 + 31) / 32⟩] any ∧
    Has (on (.fmin u 3 4 5)) 0x43 u [r32 4, r32 5] [⟨3, (32 + 31) / 32⟩] any ∧
    Has (on (.fmax u 3 4 5)) 0x44 u [r32 4, r32 5] [⟨3, (32 + 31) / 32⟩] any ∧
    Has (on (.fdiv u 1 3 4 5)) 0x46 u [r32 4, r32 5] [⟨3, (32 + 31) / 32⟩] any ∧
    Has (on (.frcp u 2 3 4)) 0x47 u [r32 4] [⟨3, (32 + 31) / 32⟩] any ∧
    Has (on (.frsq u 0 3 4)) 0x48 u [r32 4] [⟨3, (32 + 31) / 32⟩] any ∧
    Has (on (.fsqrt u 3 3 4)) 0x49 u [r32 4] [⟨3, (32 + 31) / 32⟩] any ∧
    Has (on (.fexp2 u 0 3 4)) 0x4A u [r32 4] [⟨3, (32 + 31) / 32⟩] any ∧
    Has (on (.flog2 u 0 3 4)) 0x4B u [r32 4] [⟨3, (32 + 31) / 32⟩] any ∧
    Has (on (.fsinpi u 0 3 4)) 0x4C u [r32 4] [⟨3, (32 + 31) / 32⟩] any ∧
    Has (on (.fcospi u 0 3 4)) 0x4D u [r32 4] [⟨3, (32 + 31) / 32⟩] any ∧
    Has (on (.frnd u 2 3 4)) 0x4E u [r32 4] [⟨3, (32 + 31) / 32⟩] any ∧
    Has (on (.fscale u 0 3 4 5)) 0x4F u [r32 4, r32 5] [⟨3, (32 + 31) / 32⟩] any := by
  refine ⟨?_, ?_, ?_, ?_, ?_, ?_, ?_, ?_, ?_, ?_, ?_, ?_, ?_, ?_, ?_⟩ <;> exact has (by decide +kernel)
theorem test_meets_HalfAndConversionResults :
    Has (on (.hadd2 u 0 true 3 4 5)) 0x50 u [r32 4, r32 5] [⟨3, (32 + 31) / 32⟩] any ∧
    Has (on (.hmul2 u 1 false 3 4 5)) 0x51 u [r32 4, r32 5] [⟨3, (32 + 31) / 32⟩] any ∧
    Has (on (.hfma2 u 0 true 3 4 5 6)) 0x52 u [r32 4, r32 5, r32 6] [⟨3, (32 + 31) / 32⟩] any ∧
    Has (on (.hmax2 u false true 3 4 5)) 0x53 u [r32 4, r32 5] [⟨3, (32 + 31) / 32⟩] any ∧
    Has (on (.cvtp u 1 true 3 4 5)) 0x55 u [r32 4, r32 5] [⟨3, (32 + 31) / 32⟩] any ∧
    Has (on (.cvt u 0 1 0 3 4 1)) 0x54 u [r32 4] [⟨3, (32 + 31) / 32⟩] any ∧
    Has (on (.cvtq u 0 1 true true 3 4 9 3)) 0x56 u (r128 4 :: if true then [r32 9] else []) [⟨3, (32 + 31) / 32⟩] any ∧
    Has (on (.cvto u 0 4 false 3 4 8 0 0)) 0x57 u (r128 4 :: r128 8 :: if false then [r32 0] else []) [⟨3, (32 + 31) / 32⟩] any ∧
    Has (on (.cvtx u 0 6 true 4 3 9 7)) 0x58 u (r32 3 :: if true then [r32 9] else []) [⟨4, (128 + 31) / 32⟩] any := by
  refine ⟨?_, ?_, ?_, ?_, ?_, ?_, ?_, ?_, ?_⟩ <;> exact has (by decide +kernel)
theorem test_meets_DotResults :
    Has (on (.dotI8 u 3 4 5 6)) 0x59 u [r32 4, r32 5, r32 6] [⟨3, (32 + 31) / 32⟩] any ∧
    Has (on (.dotZ8 u 3 4 5 6)) 0x5A u [r32 4, r32 5, r32 6] [⟨3, (32 + 31) / 32⟩] any ∧
    Has (on (.dotI4 u 3 4 5 6)) 0x5D u [r32 4, r32 5, r32 6] [⟨3, (32 + 31) / 32⟩] any ∧
    Has (on (.dotE4m3 u 1 3 4 5 6)) 0x5B u [r32 4, r32 5, r32 6] [⟨3, (32 + 31) / 32⟩] any ∧
    Has (on (.dotE5m2 u 0 3 4 5 6)) 0x5C u [r32 4, r32 5, r32 6] [⟨3, (32 + 31) / 32⟩] any ∧
    Has (on (.dotE2m1 u 3 3 4 5 6)) 0x5E u [r32 4, r32 5, r32 6] [⟨3, (32 + 31) / 32⟩] any ∧
    Has (on (.dot2Bf16 u 0 3 4 5 6)) 0x63 u [r32 4, r32 5, r32 6] [⟨3, (32 + 31) / 32⟩] any ∧
    Has (on (.dot2F16 u 1 3 4 5 6)) 0x64 u [r32 4, r32 5, r32 6] [⟨3, (32 + 31) / 32⟩] any ∧
    Has (on (.dotsE4m3 u 2 20 8 12 4 9)) 0x5F u [r32 20, r128 8, r128 12, r64 4] [⟨20, (32 + 31) / 32⟩] any ∧
    Has (on (.dotsE5m2 u 0 20 8 12 4 15)) 0x60 u [r32 20, r128 8, r128 12, r64 4] [⟨20, (32 + 31) / 32⟩] any ∧
    Has (on (.dotsE2m1 u 0 20 6 10 4 1)) 0x61 u [r32 20, r64 6, r64 10, r64 4] [⟨20, (32 + 31) / 32⟩] any ∧
    Has (on (.dotsI8 u 0 20 8 12 4 2)) 0x62 u [r32 20, r128 8, r128 12, r64 4] [⟨20, (32 + 31) / 32⟩] any := by
  refine ⟨?_, ?_, ?_, ?_, ?_, ?_, ?_, ?_, ?_, ?_, ?_, ?_⟩ <;> exact has (by decide +kernel)
theorem test_meets_RejoinMasks :
    Has (on (.rjarm u 5 3)) 0x2C u [r32 5] [] (fun j _ => ∀ l ∈ j.act, Sparse.get 0 l.g.arrived 3 = 0) ∧
    Has (modGang (on (.rjoin u 2)) (uid (on (.rjoin u 2))) 0 (fun g => { g with armed := Sparse.set 0 g.armed 2 3 })) 0x2D u [] [] (fun j _ => ∀ l ∈ j.act, Sparse.get 0 l.g.armed 2 &&& rjBit l.b l.t.lane ≠ 0) ∧
    Has (on (.rjdrop u 1)) 0x2E u [] [] any := by
  refine ⟨?_, ?_, ?_⟩ <;> exact has (by decide +kernel)
theorem test_meets_SoftTrapsEnter :
    Has (handled (on (.trap u 0xABCDEF))) 0x30 u [] [] (fun j s => ∀ x ∈ j.act, (trapVec s x 0x13 0).isSome = true) ∧
    Has (handled (on (.brk u 7))) 0x39 u [] [] (fun j s => ∀ x ∈ j.act, (trapVec s x 0x14 0).isSome = true) := by
  refine ⟨?_, ?_⟩ <;> exact has (by decide +kernel)
theorem test_meets_CollectivesArrive :
    Has (on (.perm u false true 3 3 2 0 192 31)) 0x22 u [r32 192] [rW false 3] any [rW false 2] ∧
    Has (on (.permx u true 3 2 4 200 9)) 0x23 u [r32 200] [r32 3] any [r32 2, r32 4, r32 9] ∧
    Has (on (.vote u false 3 3 2 0)) 0x24 u [] [r32 3] any ∧
    Has (on (.elect u false 3 0)) 0x25 u [] [] any ∧
    Has (on (.gred u true true true 2 4 2 192)) 0x26 u [r32 192] [rW true 4] any [rW true 2] ∧
    Has (on (.gscan u false false false 5 true 3 2 0)) 0x27 u [] [rW false 3] any [rW false 2] ∧
    Has (on (.rclaim u 22)) 0x33 u [] [] any ∧
    Has (on (.rgive u 1)) 0x34 u [] [] any ∧
    Has (on (.rtry u 47 7)) 0x35 u [] [] any := by
  refine ⟨?_, ?_, ?_, ?_, ?_, ?_, ?_, ?_, ?_⟩ <;> exact has (by decide +kernel)
/-- A state whose one thread, of a gang with one register unit, has arrived at a collective. -/
abbrev gathers (i : Instr) (active : Bool) : State :=
  modThread (modGang (on i) 2 0 (fun g => { g with base := 1 })) 2 0 0
    (fun t => { t with wait := .gather i placedAt 0xFFFFFFFF active })
/-- It is complete, no member has a fault, and no error stands in its block. -/
abbrev complete (s : State) : Prop :=
  (match getThread s 2 0 0, getBlock s 2, getGang s 2 0 with
   | some t, some b, some _ => (gathering s b t).any (fun ms => !ms.isEmpty && ms.all fun u => u.fault.isNone) && !b.killed &&
      b.errs.isEmpty && b.bad.isEmpty && !(b.rollback && b.revocable) && s.threads.all fun t => t.flip.isNone
   | _, _, _ => false) = true
theorem test_meets_CollectiveResults :
    (([.perm u false false 3 3 2 0 192 31, .permx u false 3 2 4 200 9, .vote u false 0 3 2 0, .vote u false 1 3 2 0,
       .vote u false 2 3 2 0, .vote u false 3 3 2 0, .elect u false 3 0, .gred u true true false 2 4 2 192,
       .gscan u false false false 5 true 3 2 0, .rclaim u 1, .rtry u 47 1, .rclaim u 24, .rgive u 1] : List Instr).all
      fun i => decide (complete (gathers i true)) && decide (complete (gathers i false))) = true ∧
    (getGang (gathers (.rclaim u 1) true) 2 0).any (fun g =>
      decide (g.base + g.ext + 1 ≤ 24) && decide (24 < g.base + g.ext + 24) && decide (g.ext < 1)) = true ∧
    (let s := modGang (gathers (.rgive u 1) true) 2 0 (fun g => { g with ext := 1 })
     complete s ∧ (getGang s 2 0).any (fun g => decide (1 ≤ g.ext) && !giveBlocked s g 1) = true ∧
     (getGang s 2 0).any (fun g => giveBlocked { s with
       outst := [⟨9, 1, 2, 0, 0, .ld, .load .glob 0 4 none (BitVec.ofNat 8 (g.limit - 1)) 4 StoreInfo.none, false, false, 0⟩] } g 1)
       = true) := by decide +kernel
/-- 06 R120: the signed minimum of 5 and -1 over two members is -1 for both, and an exclusive scan gives the first its start. -/
abbrev pairOf (i : Instr) : State :=
  let s := on i
  let s := { s with threads := s.threads ++ s.threads.map (fun t => { t with lane := 1 }),
                    bundles := s.bundles.map (fun b => { b with mem := [(0, 0), (0, 1)] }) }
  setV (setV s 2 0 0 2 5) 2 0 1 2 0xFFFFFFFF
theorem test_gred_signed_minimum :
    let t := run (.gred u false true false 1 3 2 0) (pairOf (.gred u false true false 1 3 2 0))
    vReg t 2 0 0 3 = 0xFFFFFFFF ∧ vReg t 2 0 1 3 = 0xFFFFFFFF := by decide +kernel
theorem test_gscan_exclusive :
    let t := run (.gscan u false false false 0 true 3 2 0) (pairOf (.gscan u false false false 0 true 3 2 0))
    vReg t 2 0 0 3 = 0 ∧ vReg t 2 0 1 3 = 5 := by decide +kernel
theorem test_meets_SpecialRegisters :
    Has (on (.gets u 4 0x23)) 0x31 u [] [⟨4, 64 / 32⟩] any ∧
    Has (on (.gets u 4 0)) 0x31 u [] [⟨4, 32 / 32⟩] any ∧
    Has (on (.sets u 6 0x20)) 0x32 u [r32 6] [] any ∧
    Has (on (.sets u 6 0x21)) 0x32 u [r32 6] [] (fun j _ => j.b.protectd = true → pairFaults j.all u 0x90 [r32 6] = []) := by
  refine ⟨?_, ?_, ?_, ?_⟩ <;> exact has (by decide +kernel)

/-! ### The statements with conditions of their own -/

/-- The whole hypothesis of a branch: its targets pass, no pair differs, and the paths find their bins. -/
abbrev goesOk (op : Nat) (link : Option Reg) (target : Iss → Lane → W64) (j : Iss) (s : State) : Prop :=
  let ts := j.act.map fun x => (x, target j x)
  let ps := branchPlaces j (op == 0x2B) ts
  let s1 := (checkTargets s j.b (op == 0x2B) ts).2
  (checkTargets s j.b (op == 0x2B) ts).1 = [] ∧ pairDiverge j ps = [] ∧
  (((getBundle (branchEffect j op link ts s1) j.bun.id).bind fun q =>
    diverge (branchEffect j op link ts s1) q j.b.core ps).isSome) = true
theorem test_meets_BranchesGo :
    Has (on (.bra u 0xFFFFFFFF)) 0x28 u [] [] (goesOk 0x28 none fun j _ => j.pc + ((0xFFFFFFFF#32).signExtend 64 <<< 3)) ∧
    Has (withP (on (.brx u 4)) 4 0x10000) 0x29 u [r64 4] [] (goesOk 0x29 none fun _ x => BitVec.ofNat 64 (x.rd 4 64)) ∧
    Has (on (.call u 8 0xFFFFFFFF)) 0x2A u [] [r64 8]
      (goesOk 0x2A (some 8) fun j _ => j.pc + ((0xFFFFFFFF#32).signExtend 64 <<< 3)) ∧
    Has (withP (on (.ret u 4)) 4 0x10000) 0x2B u [r64 4] [] (goesOk 0x2B none fun _ x => BitVec.ofNat 64 (x.rd 4 64)) := by
  refine ⟨?_, ?_, ?_, ?_⟩ <;> exact has (by decide +kernel)

/-- Two threads, of which predicate 0 is true in one, at a branch of a core that has no free bin. -/
abbrev forked : State :=
  let s := on (.bra p0 0xFFFFFFFF)
  { s with
    threads := s.threads.map (fun t => { t with p := 1 }) ++ s.threads.map (fun t => { t with lane := 1 }),
    bundles := s.bundles.map (fun b => { b with mem := [(0, 0), (0, 1)] }),
    bins := (List.range 128).map fun n => ⟨100 + n, 0, 2, 0, 0x20000, [⟨0, 5, n⟩]⟩ }
theorem test_meets_BranchesGo_without_bins :
    Has forked 0x28 p0 [] [] (fun j s =>
      let ts := j.act.map fun x => (x, j.pc + ((0xFFFFFFFF#32).signExtend 64 <<< 3))
      let ps := branchPlaces j false ts
      ts.length = 1 ∧ (checkTargets s j.b false ts).1 = [] ∧ pairDiverge j ps = [] ∧
      let t := branchEffect j 0x28 none ts (checkTargets s j.b false ts).2
      (getBundle t j.bun.id).any (fun q => (diverge t q j.b.core ps).isNone) = true) := has (by decide +kernel)

/-- A state whose record 1 covers 16 words of the scratchpad. -/
abbrev mem1 (i : Instr) : State := withRec (on i) 1 (scratchRec 0)
abbrev found (a : Reg) (off : Int) (n : Nat) (m : Lane → AMode) (aop : Option Nat) (j : Iss) (s : State) : Prop :=
  (targets s j.cmd (j.op != 0x70) (fun s x => target s x (Rec.of (j.b.recOf 1)) a off n (m x) aop j.no)).1 = []
theorem test_meets_MemoryAccessesIssue :
    Has (mem1 (.ld u 0 0 2 19 4 1 0 0)) 0x70 u (idxSrc (mem1 (.ld u 0 0 2 19 4 1 0 0)) 1 4) [⟨19, 1⟩]
      (found 4 0 4 (fun _ => { kind := 0, writes := false, plain := true, cas := none }) none) ∧
    Has (mem1 (.st u 2 0 2 19 4 1 0 15)) 0x71 u (⟨19, 1⟩ :: idxSrc (mem1 (.st u 2 0 2 19 4 1 0 15)) 1 4) []
      (found 4 15 4 (fun _ => { kind := 1, writes := true, plain := false, cas := none }) none) ∧
    Has (mem1 (.atom u 1 0 2 19 4 1 0 0)) 0x72 u (⟨19, 1⟩ :: idxSrc (mem1 (.atom u 1 0 2 19 4 1 0 0)) 1 4) [⟨19, 1⟩]
      (found 4 0 4 (fun _ => { kind := 2, writes := true, plain := false, cas := none }) (some 0)) ∧
    Has (mem1 (.atomn u 0 0 2 19 4 1 13 0)) 0x73 u (⟨19, 1⟩ :: idxSrc (mem1 (.atomn u 0 0 2 19 4 1 13 0)) 1 4) []
      (found 4 0 4 (fun _ => { kind := 2, writes := true, plain := false, cas := none }) (some 13)) ∧
    Has (mem1 (.cas u 0 0 2 8 4 1 0 0)) 0x74 u (⟨8, 2⟩ :: idxSrc (mem1 (.cas u 0 0 2 8 4 1 0 0)) 1 4) [⟨8, 1⟩]
      (found 4 0 4 (casMode 8 4) none) := by
  refine ⟨?_, ?_, ?_, ?_, ?_⟩ <;> exact has (by decide +kernel)
/-- The cause of a fault, 0 where there is none. -/
def causeOf {α : Type} (r : Except Flt α) : Nat := match r with | .ok _ => 0 | .error f => f.cause
/-- Indices at the ends of a range of four, outside it and in an empty one, under each boundary mode (08 R164). -/
theorem test_meets_MemoryAccessesIssue_of_indices :
    (fixIdx 3 4 1).toOption = some (some 3) ∧ causeOf (fixIdx 4 4 0) = 0x06 ∧ causeOf (fixIdx 0 0 2) = 0x06 ∧ (fixIdx 4 4 1).toOption = some none ∧
    (fixIdx (-1) 4 2).toOption = some (some 0) ∧ (fixIdx 4 4 2).toOption = some (some 3) ∧ (fixIdx (-1) 4 3).toOption = some (some 3) ∧ (fixIdx 4 4 3).toOption = some (some 0) := by
  decide
/-- A record of 16 words of global memory. -/
abbrev words16 : Rec :=
  { base := 0x20000, ext0 := 16, ext1 := 0, stride0 := 4, stride1 := 0, fmt := 0x10, bnd := 0, spc := false, chk := false,
    ro := false, cp := 0, tag := 5, top := 0 }
/-- RECORD, BOUNDS of the first and of the second index, a dropped access by each, BOUNDS of an access wider than the format,
PAGE below and above the address space, ALIGN, PERM, a read that a read-only record lets pass, and the last element. -/
theorem test_meets_MemoryAccessesIssue_of_addresses :
    ((laneOf (withV (on (.nop u)) 5 2) 2 0 0).any fun x =>
      let go (r : Rec) (a : Reg) (off : Int) (sz : Nat) (w : Bool) := (ea x r a off sz w 1).toOption
      let cause (r : Rec) (a : Reg) (off : Int) (sz : Nat) (w : Bool) := causeOf (ea x r a off sz w 1)
      let two (m : Nat) : Rec := { words16 with ext1 := 2, bnd := m }
      cause (two 0) 191 0 4 true == 0x07 && cause words16 4 16 4 true == 0x06 && cause (two 0) 4 0 4 true == 0x06 &&
      go { words16 with bnd := 1 } 4 16 4 true == some none && go (two 1) 4 0 4 true == some none &&
      cause { words16 with spc := true, base := 0 } 4 0 8 true == 0x06 &&
      cause { words16 with base := 0, stride0 := -4 } 4 1 4 true == 0x09 &&
      cause { words16 with base := 2 ^ 57 - 4 } 4 0 8 true == 0x09 && cause words16 4 1 8 true == 0x08 &&
      cause { words16 with ro := true } 4 0 4 true == 0x0A && go { words16 with ro := true } 4 0 4 false == some (some 0x20000) &&
      go words16 4 15 4 true == some (some 0x2003C)) = true := by decide +kernel
/-- `ld a0,0(a2); jalr x0,0(ra)`: every address has the result word that stands at the root, address 0. -/
abbrev tabled (w : Nat) : State :=
  writeBytes { on (.nop u) with walkStore := putBytes [] 0 ([0x00063503, 0x00008067].flatMap (leBytes 4)) } 0 (leBytes 8 w)
/-- A target that EA refuses, one that is dropped, scratchpad with a race, with a double error and with neither; global
memory without a mapping, without a grant, behind a poisoned table, in a poisoned line and in order; and a misaligned access
whose faults are raised. -/
theorem test_meets_MemoryAccessesIssue_of_targets :
    let wr : AMode := { kind := 1, writes := true, plain := true, cas := none }
    let rd : AMode := { kind := 0, writes := false, plain := true, cas := none }
    let pad : Rec := { words16 with spc := true, base := 0 }
    let all (s : State) (r : Rec) (off : Int) (m : AMode) : Option (Except Flt Tgt) :=
      (laneOf s 2 0 0).map fun x => (target s x r 4 off 4 m none 9).1
    let cause (s : State) (r : Rec) (off : Int) (m : AMode) : Option Nat := (all s r off m).map causeOf
    let goesTo (s : State) (r : Rec) (off : Int) (m : AMode) : Option Tgt := (all s r off m).bind Except.toOption
    let nop := on (.nop u)
    cause nop words16 16 wr = some 0x06 ∧ goesTo nop { words16 with bnd := 1 } 16 wr = some .drop ∧
    cause (modBlock nop 2 fun b => { b with tags := [(1, [⟨0, 1, true, true, 7⟩])] }) { pad with chk := true } 1 wr = some 0x0B ∧
    cause (modBlock nop 2 fun b => { b with errs := [⟨.scratch 0, true⟩] }) pad 1 rd = some 0x23 ∧
    goesTo nop pad 1 rd = some (.at_ (.scratch 2) 4 4) ∧ goesTo nop pad 1 wr = some (.at_ (.scratch 2) 4 4) ∧
    cause (tabled 0) words16 0 wr = some 0x09 ∧ cause (tabled (2 ^ 63 + 2 ^ 60 + 3 * 2 ^ 61)) words16 0 wr = some 0x0A ∧
    cause { tabled 0 with poison := [0] } words16 0 wr = some 0x23 ∧
    cause { nop with poison := [0x800] } words16 0 wr = some 0x23 ∧
    goesTo nop words16 1 wr = some (.at_ .glob 0x20004 0x20004) := by decide +kernel
theorem test_meets_MemoryAccessesIssue_of_faults :
    Has (mem1 (.ld u 0 0 2 19 4 1 0 16)) 0x70 u (idxSrc (mem1 (.ld u 0 0 2 19 4 1 0 16)) 1 4) [⟨19, 1⟩]
      (fun j s => ¬found 4 16 4 (fun _ => { kind := 0, writes := false, plain := true, cas := none }) none j s) ∧
    Has (mem1 (.st u 0 0 2 19 4 1 0 16)) 0x71 u (⟨19, 1⟩ :: idxSrc (mem1 (.st u 0 0 2 19 4 1 0 16)) 1 4) []
      (fun j s => ¬found 4 16 4 (fun _ => { kind := 1, writes := true, plain := true, cas := none }) none j s) ∧
    Has (mem1 (.atom u 1 0 2 19 4 1 0 16)) 0x72 u (⟨19, 1⟩ :: idxSrc (mem1 (.atom u 1 0 2 19 4 1 0 16)) 1 4) [⟨19, 1⟩]
      (fun j s => ¬found 4 16 4 (fun _ => { kind := 2, writes := true, plain := false, cas := none }) (some 0) j s) ∧
    Has (mem1 (.cas u 0 0 2 8 4 1 0 16)) 0x74 u (⟨8, 2⟩ :: idxSrc (mem1 (.cas u 0 0 2 8 4 1 0 16)) 1 4) [⟨8, 1⟩]
      (fun j s => ¬found 4 16 4 (casMode 8 4) none j s) := by
  refine ⟨?_, ?_, ?_, ?_⟩ <;> exact has (by decide +kernel)
theorem test_meets_AccessEntries_DroppedAccesses :
    Has (mem1 (.ld u 0 0 2 19 4 1 0 0)) 0x70 u [⟨4, 1⟩] [⟨19, 1⟩] (fun j _ => isChecked j.b (Rec.of (scratchRec 0)) = false) :=
  has (by decide +kernel)
/-- What a checked access can meet: a typed object, a row that a sieve has still to answer, a ring slot of the gang, another
thread's plain write of the interval, another block's write that has not been acquired, a store that the block holds; and
an entry whose turn it is. -/
theorem test_meets_CheckedAccesses :
    let lane (s : State) (f : Lane → Bool) : Bool := (laneOf s 2 0 0).any f
    let slots (i : Instr) : State :=
      also (also (withP (on i) 4 (2 ^ 56 + 64 * 2 ^ 36)) (.rginit u 3 4)) (.slacq u true 7 2)
    (let s := also (withV (withV (on (.binit u false 3 4 5 6)) 4 64) 5 1) (.binit u false 3 4 5 6)
     (typedBlockAt s 2 64 4).isSome && (typedBlockAt s 2 60 4).isNone && (typedBlockAt s 2 96 4).isNone) = true ∧
    lane (slots (.slacq u true 7 2)) (fun x => (slotAt (slots (.slacq u true 7 2)) x.b 0).any fun e => e.2.ownedBy 0 && !e.2.ownedBy 1) = true ∧
    lane (modBlock (on (.nop u)) 2 fun b => { b with tags := [(1, [⟨0, 1, true, true, 7⟩])] }) (fun x =>
      (scratchRace x 4 4 false true 8).isSome && (scratchRace x 4 4 false true 7).isNone && (scratchRace x 8 4 true true 8).isNone)
      = true ∧
    (let s := { on (.nop u) with gtags := [(0x8000, ⟨9, 3, false, none⟩)] }
     lane s (fun x => (globalRace s x 0x20000 0x20000 4 true).isSome && (globalRace s x 0x20004 0x20004 4 true).isNone) &&
     lane (raiseAcq s 2 9 4) (fun x => (globalRace (raiseAcq s 2 9 4) x 0x20000 0x20000 4 true).isNone)) = true ∧
    (let g : GTag := ⟨2, 5, false, none⟩
     let s := modBlock (on (.nop u)) 2 fun b =>
       { b with hold := [⟨0, 0, 0x20000, leBytes 4 1, { StoreInfo.none with mark := some g }, false⟩] }
     (getBlock s 2).any (fun b => wordTag s b 0x8000 == g && wordTag s b 0x8001 == gtagNone)) = true ∧
    (writerOf (on (.nop u)) 2).isSome = true ∧ 0x8001 ∈ wordsOf 0x20000 8 ∧
    (let i : Instr := .st u 0 0 2 19 4 1 0 0
     let s := also (withRec (on i) 1 (scratchRec 0)) i
     s.outst.any fun o => (getOutst s o.id == some o) && o.pending && performable s o) = true ∧
    (laneOf (on (.nop u)) 2 0 0).any (fun x => isChecked x.b (Rec.of (scratchRec 0 + BitVec.ofNat 256 (2 ^ 204)))) = true := by
  decide +kernel
/-- 08 R177: a checked load of a word that another thread has stored to in the interval raises RACE with its offset. -/
theorem test_scratch_race_is_raised :
    let i : Instr := .ld u 0 0 2 19 4 1 0 0
    let s := withRec (on i) 1 (scratchRec 0 + BitVec.ofNat 256 (2 ^ 204))
    let s := modBlock s 2 fun b => { b with tags := [(0, [⟨0, 1, true, true, 7⟩])] }
    ((getThread (run i s) 2 0 0).bind Thread.fault).map (fun f => (f.cause.toNat, f.info.toNat)) = some (0x0B, 0) := by
  decide +kernel
theorem test_meets_FencesAndRecords :
    Has (on (.fence u 2 3)) 0x75 u [] [] any ∧ Has (on (.scfence u 3)) 0x76 u [] [] any ∧
    Has (on (.bset u 31 200)) 0x77 u [] []
      (fun j _ => ∀ x ∈ j.act.head?, recReason j.b.ssize (Rec.of (quadRec x 200)) = none ∧
        (meets j.b u x [⟨200, 8⟩] true).none = true) ∧
    Has (on (.bget u 200 31)) 0x78 u [rRec 31] [] any ∧
    Has (mem1 (.pref u 2 4 1 0 0)) 0x79 u (idxSrc (mem1 (.pref u 2 4 1 0 0)) 1 4) [] any := by
  refine ⟨?_, ?_, ?_, ?_, ?_⟩ <;> exact has (by decide +kernel)

/-- The barrier references of an issue pass, and no object refuses: BINIT has no waiter to disturb, the others find their
object typed. -/
abbrev barOk (g : Bool) (a : Reg) (init : Bool) (j : Iss) (s : State) : Prop :=
  (barRefs s j.cmd g a).1 = [] ∧ ∀ r ∈ (barRefs s j.cmd g a).2.1,
    (if init then (getBar (barRefs s j.cmd g a).2.2 r.2.1).all (fun o => o.waiters == 0)
     else (getBar (barRefs s j.cmd g a).2.2 r.2.1).isSome) = true
/-- The same after a barrier for one arrival has been typed at offset 64. -/
abbrev bar1 (i : Instr) : State := also (withV (withV (on i) 4 64) 5 1) (.binit u false 3 4 5 6)
theorem test_meets_BarrierInstructions :
    Has (withV (on (.binit u false 3 4 5 6)) 4 64) 0x90 u [r32 4, r32 5, r32 6] [r32 3] (barOk false 4 true) ∧
    Has (withP (on (.binit u true 3 4 6 7)) 4 0x20000) 0x90 u [r64 4, r32 6, r32 7] [r32 3] (barOk true 4 true) ∧
    Has (bar1 (.bjoin u false 3 4)) 0x91 u [r32 4] [r32 3] (barOk false 4 false) ∧
    Has (bar1 (.barr u false 3 4)) 0x92 u [r32 4] [r32 3] (barOk false 4 false) ∧
    Has (bar1 (.bwait u false 3 4 6)) 0x93 u [r32 4, r32 6] [r32 3] (barOk false 4 false) ∧
    Has (bar1 (.barw u false 3 4)) 0x94 u [r32 4] [r32 3] (barOk false 4 false) ∧
    Has (bar1 (.bdrop u false 3 4)) 0x95 u [r32 4] [r32 3] (barOk false 4 false) ∧
    Has (bar1 (.binv u false 3 4)) 0x96 u [r32 4] [r32 3] (barOk false 4 true) ∧
    Has (bar1 (.bqry u false 3 4 7)) 0x97 u [r32 4] [r32 3] (barOk false 4 false) := by
  refine ⟨?_, ?_, ?_, ?_, ?_, ?_, ?_, ?_, ?_⟩ <;> exact has (by decide +kernel)

/-- A ring of two slots of 64 bytes, and the same with its first slot acquired, and filled and taken. -/
abbrev ring0 (i : Instr) : State := also (withP (on i) 4 (2 ^ 56 + 64 * 2 ^ 36)) (.rginit u 3 4)
abbrev ring1 (i : Instr) : State := also (ring0 i) (.slacq u true 7 2)
abbrev ring2 (i : Instr) : State := also (also (ring1 i) (.slfil u 8 9 10)) (.sltak u true 7 2)
theorem test_meets_RingInstructions :
    Has (withP (on (.rginit u 3 4)) 4 (2 ^ 56 + 64 * 2 ^ 36)) 0x98 u [r64 4] [r32 3] any ∧
    Has (ring0 (.rginitFree u 3 8)) 0x98 u [r32 8] [r32 3] any ∧
    Has (ring0 (.slacq u true 7 2)) 0x99 u [r32 2] [r32 7] any ∧
    Has (ring1 (.sltak u false 7 2)) 0x9B u [r32 2] [r32 7] any ∧
    Has (ring1 (.slfil u 8 9 10)) 0x9A u [r32 8, r32 9, r32 10] []
      (fun j s => ∀ x ∈ j.cmd, slotHeld s x (x.rd 8 32) (x.rd 9 32 % 64) .filling = true) ∧
    Has (ring2 (.slrel u 8 9)) 0x9C u [r32 8, r32 9] []
      (fun j s => (∀ x ∈ j.cmd, slotHeld s x (x.rd 8 32) (x.rd 9 32 % 64) .taken = true) ∧
        ∀ x ∈ j.cmd, ∀ r ∈ blockRing s x.b (x.rd 8 32), slotRead s r (x.rd 9 32 % 64) = false) := by
  refine ⟨?_, ?_, ?_, ?_, ?_, ?_⟩ <;> exact has (by decide +kernel)

/-- Source and destination records, and a shape of 4 elements in 2 rows. -/
abbrev copy1 (i : Instr) : State :=
  withP (withRec (withRec (on i) 1 (scratchRec 0)) 5 (scratchRec 4096)) 8 (4 + 2 ^ 16)
abbrev copyOk (d a b c : Reg) (x : BitVec 8) (j : Iss) (s : State) : Prop :=
  ∀ l ∈ j.cmd, copyCheck s j l (copyOf s j l d a b c x).1 (copyOf s j l d a b c x).2 a b = none
theorem test_meets_CopiesAreAccepted :
    Has (copy1 (.cpy u 0 0 false 5 4 6 8 1)) 0xA0 u (copySrc (copy1 (.cpy u 0 0 false 5 4 6 8 1)) 0xA0 0 5 4 6 8 1) []
      (copyOk 5 4 6 8 1) ∧
    Has (copy1 (.cpyg u 0 1 false 5 10 6 8 1)) 0xA1 u (copySrc (copy1 (.cpyg u 0 1 false 5 10 6 8 1)) 0xA1 0 5 10 6 8 1) []
      (copyOk 5 10 6 8 1) ∧
    Has (copy1 (.cpys u 0 0 false 5 4 6 8 1)) 0xA2 u (copySrc (copy1 (.cpys u 0 0 false 5 4 6 8 1)) 0xA2 0 5 4 6 8 1) []
      (copyOk 5 4 6 8 1) ∧
    Has (copy1 (.cpyf u 0 0 false 5 4 6 8 2)) 0xA3 u (copySrc (copy1 (.cpyf u 0 0 false 5 4 6 8 2)) 0xA3 0 5 4 6 8 2) []
      (copyOk 5 4 6 8 2) := by
  refine ⟨?_, ?_, ?_, ?_⟩ <;> exact has (by decide +kernel)
theorem test_meets_CopyBatches :
    Has (on (.cseal u 12)) 0xA4 u [] [r32 12]
      (fun j s => ∀ x ∈ j.cmd, (x.t.sealed.filter (fun b => !batchDone s x.t b)).length < 255) ∧
    Has (on (.cwait u 13 12)) 0xA5 u [r32 12] [r32 13] any ∧ Has (on (.cpoll u 13)) 0xA6 u [] [r32 13] any := by
  refine ⟨?_, ?_, ?_⟩ <;> exact has (by decide +kernel)

theorem test_meets_MatrixUnitsAndBaton :
    Has (withV (on (.mclaim u 1 true 2 3 5)) 5 1) 0xA8 u [r32 3, r32 5] [r32 2] any ∧
    Has (withV (on (.mrel u 2 2 3 5)) 5 2) 0xA9 u [r32 3, r32 5] [r32 2] (fun j s => ∀ x ∈ j.cmd.head?,
      ∀ n, n < x.rd 5 32 → unitBusy (irrevocable s j.b.uid) j.b.uid 2 (x.rd 3 32 + n) = false) ∧
    Has (on (.mbaton u 2)) 0xAA u [] [r32 2] any ∧
    Has (also (on (.mpass u 2 3)) (.mbaton u 2)) 0xAB u [r32 3] [r32 2] (fun j s => ∀ x ∈ j.cmd.head?,
      (getBaton s x.b.core).holder = some (x.t.blk, x.t.gang)) := by
  refine ⟨?_, ?_, ?_, ?_⟩ <;> exact has (by decide +kernel)

/-- The block has the baton, slots 0 and 1, accumulator 0 of a kind, and every mask tile; v4 names slots 0 and 1. -/
abbrev mtx (int : Bool) (i : Instr) : State :=
  let s := also (withV (on i) 4 0x100) (.mbaton u 2)
  modAcc (holdUnits (holdUnits (holdUnits s (uid s) 0 0 2) (uid s) 1 0 1) (uid s) 2 0 4) (uid s) 0 (fun a => { a with nextInt := int })
abbrev mmaOk1 (op : Nat) (f : Fmt) (sc rk tr : Bool) (mt : BitVec 3) (b c : Reg) (x : BitVec 8) (j : Iss) (s : State) : Prop :=
  (∀ q ∈ quarterLanes j.cmd, hasBaton s q.2 = true ∧ mmaCheck s j f mt.toNat (q.2.rd 4 32) = none) ∧
  (sc = true → (∀ l ∈ j.all, outOfRange l.g ⟨c, 64⟩ = false) ∧
    (j.b.protectd = true → pairFaults j.all always op [⟨c, 64⟩] = [])) ∧
  (∀ r ∈ mmaReads j sc rk tr mt b c x, ∀ dbl, (meets j.b always r.1 r.2 dbl).none = true) ∧
  (s.mops.filter (fun m => m.core == j.b.core && mopHere s m && m.kind.isSmall)).length + (quarterLanes j.cmd).length ≤ 64
/-- A two-dimensional FP32 record of 64 by 64 elements of the scratchpad. -/
abbrev drainRec : BitVec 256 :=
  BitVec.ofNat 256 (64 * 2 ^ 64 + 64 * 2 ^ 96 + 4 * 2 ^ 128 + 256 * 2 ^ 160 + 0x05 * 2 ^ 192 + 2 ^ 203)
theorem test_meets_MatrixOperationsQueue :
    Has (mtx false (.mzero u true 0)) 0xAC u [] [] (fun j s => (getAcc s j.b.uid 0).isSome = true) ∧
    Has (mtx false (.mmaBf16 u false true false 0 4 198 0 0)) 0xAD u [r32 4] [] (mmaOk1 0xAD .bf16 false true false 0 198 0 0) ∧
    Has (mtx false (.mmaF16 u false false false 0 4 0 0 0)) 0xAE u [r32 4] [] (mmaOk1 0xAE .fp16 false false false 0 0 0 0) ∧
    Has (mtx false (.mmaE4m3 u true false true 0 4 0 64 202)) 0xAF u [r32 4] [] (mmaOk1 0xAF .e4m3 true false true 0 0 64 202) ∧
    Has (mtx false (.mmaE5m2 u false false false 1 4 0 0 202)) 0xB0 u [r32 4] [] (mmaOk1 0xB0 .e5m2 false false false 1 0 0 202) ∧
    Has (mtx false (.mmaE2m1 u true false false 4 4 0 128 254)) 0xB1 u [r32 4] [] (mmaOk1 0xB1 .e2m1 true false false 4 0 128 254) ∧
    Has (mtx true (.mmaI8 u false false false 0 4 0 0 0)) 0xB2 u [r32 4] [] (mmaOk1 0xB2 .i8 false false false 0 0 0 0) ∧
    Has (mtx true (.mmaI4 u false false false 0 4 0 0 0)) 0xB3 u [r32 4] [] (mmaOk1 0xB3 .i4 false false false 0 0 0 0) ∧
    Has (withRec (mtx false (.mdrain u false false 6 12 0 0)) 6 drainRec) 0xB4 u [⟨12, 2⟩] []
      (fun j s => ∀ l ∈ j.cmd.head?, drainCheck s l (drainOf j l false false 6 12 0 0) 12 = none ∧ ∀ dbl, (meets j.b u l [] dbl).none = true) ∧
    Has (mtx false (.mrd u 3 4 0)) 0xB5 u [r32 4] [r32 3] (fun j s => (getAcc s j.b.uid 0).isSome = true) ∧
    Has (mtx false (.msync u true)) 0xB7 u [] [] any := by
  refine ⟨?_, ?_, ?_, ?_, ?_, ?_, ?_, ?_, ?_, ?_, ?_⟩ <;> exact has (by decide +kernel)
abbrev maskOk1 (pa : Bool) (a b : Reg) (len : Lane → Nat) (j : Iss) (s : State) : Prop := ∀ x ∈ j.cmd.head?,
  unitHeld s j.b.uid 2 1 = true ∧ maskBounds j x pa a b = false ∧
  (List.range (len x)).findSome? (fun n => scratchChecks s x listRec (x.rd a 32 + n) 1 plainRead j.no) = none ∧
  (∀ dbl, errsAt j.b (scratchWord (x.rd a 32) (len x)) dbl = []) ∧
  (pa = true → badParent ((readScratch s j.b.uid (x.rd a 32) (len x)).map BitVec.toNat) (len x) = none)
theorem test_meets_MaskTilesAreLoaded :
    Has (let s := withV (mtx false (.mmask u true 1 7 8)) 8 2; writeScratch s (uid s) 0 [0xFF, 0]) 0xB6 u [r32 7, r32 8] []
      (maskOk1 true 7 8 (fun x => x.rd 8 32)) ∧
    Has (mtx false (.mmask u false 1 7 0)) 0xB6 u [r32 7] [] (maskOk1 false 7 0 (fun _ => 512)) := by
  refine ⟨?_, ?_⟩ <;> exact has (by decide +kernel)

/-- A tap record at 0 with one rule table, a row map at 0x1000 whose row names no slot, a tile of 16 elements at 0x2000 and
a dictionary of one vector. -/
abbrev tap1 (i : Instr) : State :=
  let s := withV (withV (on i) 11 0x1000) 4 0
  let s := withRec s 2 (BitVec.ofNat 256 (0x2000 + 16 * 2 ^ 64 + 2 * 2 ^ 128 + 7 * 2 ^ 192 + 2 ^ 203))
  let s := withRec s 3 (BitVec.ofNat 256 (0x40000 + 2 ^ 64 + 16 * 2 ^ 96 + 128 * 2 ^ 128 + 7 * 2 ^ 192))
  let b : Bar := { ref := ⟨false, uid s, 0⟩, ctx := 0, gen := 0, phase := 0, earr := 1, arrived := 0, ebytes := 0, landed := 0, parts := 0,
                   waiters := 0, broken := false, hw := none, arrAt := [] }
  let s := { s with bars := [b] }
  writeScratch (writeScratch s (uid s) 40 [1]) (uid s) 0x1000 [0xFF, 0xFF]
abbrev recordOk (a : Reg) (j : Iss) (s : State) : Prop :=
  ∀ x ∈ j.cmd, trecCheck j.b (x.rd a 32) = none ∧ trecTyped s j.b (x.rd a 32) = none
/-- The same with row 0 of a TAPIN held, and handled by the thread. -/
abbrev held1 (i : Instr) : State :=
  let s := also (tap1 i) (.tapin u 10 11 2 3 5)
  let held (t : Tapin) : Tapin := { t with rows := t.rows.map fun r => { r with status := 3 } }
  modThread { s with tapins := s.tapins.map held } (uid s) 0 0 (fun t =>
    { t with handling := true, trcause := 0x12, wrec := (WatchTrap.mk 0 0 5 0 0 0 0 0 0 0).bits })
/-- The rows of a pending TAPIN belong to the sieve until they are ready. -/
theorem test_meets_CheckedAccesses_of_rows :
    let s := also (tap1 (.tapin u 10 11 2 3 5)) (.tapin u 10 11 2 3 5)
    (laneOf s 2 0 0).any (fun x => !(tileCheck s x 0x2000 2 true).1 && (tileCheck s x 0x2000 2 true).2) = true := by
  decide +kernel
theorem test_meets_TapInstructions :
    Has (tap1 (.tapin u 10 11 2 3 5)) 0xB8 u [r32 10, r32 11, rRec 2, rRec 3] []
      (fun j s => ∀ l ∈ j.cmd.head?, (tapinFault j l 10 11 2 3 (ownWrites j l 10 11 2 s)).1 = none) ∧
    Has (tap1 (.tapw u 12 10 14)) 0xB9 u [r32 10, r64 14] [r32 12] (recordOk 10) ∧
    Has (tap1 (.taprm u true 30 10)) 0xBA u [r32 10] [r64 30]
      (fun j s => recordOk 10 j s ∧ ∀ x ∈ j.cmd, ∀ dbl, errsAt j.b (scratchWord (x.rd 10 32 + 72) 8) dbl = []) ∧
    Has (held1 (.trel u 20 21)) 0xBB u [r32 20, r32 21] []
      (fun j s => ∀ x ∈ j.cmd, (trelRow s x (x.rd 20 32) (x.rd 21 32)).isSome = true) ∧
    Has (on (.tapsync u false 4)) 0xBC u [r64 4] [] (fun j _ => false = false → ∀ x ∈ j.cmd, x.rd 4 64 % 4096 = 0) := by
  refine ⟨?_, ?_, ?_, ?_, ?_⟩ <;> exact has (by decide +kernel)
theorem test_meets_JobInstructions :
    Has (withP (on (.jpost u 10 4)) 4 0x80) 0xC0 u [r64 4] [r64 10] (fun j s => (taskAddrs s j.cmd 4 0 128 128).1 = []) ∧
    Has (on (.jrec u 2 3)) 0xC1 u [] [r64 2] any ∧ Has (on (.jpwait u 3)) 0xC3 u [] [r32 3] any := by
  refine ⟨?_, ?_, ?_⟩ <;> exact has (by decide +kernel)
abbrev futOk (a : Reg) (before : State → List (Lane × Nat) → State) (bad : Nat → Option Nat) (eff : State → Lane → Nat → State)
    (j : Iss) (s : State) : Prop :=
  let f := taskAddrs s j.cmd a 2 16 16
  f.1 = [] ∧ (futWrites (before (if f.2.1.isEmpty then f.2.2 else irrevocable f.2.2 j.b.uid) f.2.1) f.2.1 bad eff).1 = []
theorem test_meets_FutureInstructions :
    Has (withP (on (.finit u 4)) 4 0x20) 0xC4 u [r64 4] []
      (futOk 4 (drainFuts true) (fun st => if st = 3 then some 2 else none) (fun s x pa =>
        let t := noteRelease s x none
        tagGlobal (writeFuture (setFut t pa FutRel.none) pa 0 0) pa 16
          ⟨x.b.uid, relNow t x.b.uid, true, (relScope s x none).map (relCover t x.b.uid)⟩)) ∧
    Has (withP (on (.fwr u 4 8)) 4 0x20) 0xC5 u [r64 4, r64 8] []
      (futOk 4 (fun s xs => xs.foldl (fun s q => syncRelease s q.1) s) (fun st => if st = 1 ∨ st = 2 then some 1 else none) (fwrLane 8)) ∧
    Has (withP (on (.frd u 6 4 5)) 4 0x20) 0xC6 u [r64 4] [r64 6]
      (fun j s => let f := taskAddrs s j.cmd 4 0 16 16
        let s0 := drainFuts false f.2.2 f.2.1
        f.1 = [] ∧ s0.conts.length + (f.2.1.filter (fun q => (futSeen s0 q.1.b.uid q.2).1 % 3 == 0)).length ≤ 1048576) := by
  refine ⟨?_, ?_, ?_⟩ <;> exact has (by decide +kernel)
theorem test_meets_ScopeInstructions :
    Has (withP (on (.scopen u true 3 5 6 8)) 6 8) 0xC7 u (r32 5 :: r64 6 :: if true then [r32 8] else []) [r32 3]
      (fun j _ => ∀ x ∈ j.cmd, x.rd 6 64 % 8 = 0) ∧
    Has (on (.sccan u false 3 7 0)) 0xC8 u [r32 7] [r32 3] any ∧ Has (on (.scack u false 3 7 0)) 0xC9 u [r32 7] [r32 3] any ∧
    Has (on (.scqry u true 3 7 9)) 0xCA u [r32 7, r32 9] [r32 3] any := by
  refine ⟨?_, ?_, ?_, ?_⟩ <;> exact has (by decide +kernel)
/-- Under the root a cancelled scope 1 with a child 2, and an open scope 4; the thread's v3 names one of them. -/
abbrev tree (p : W32) : State :=
  { withV (on (.nop u)) 3 p with scopes := [Scope.root 0, { Scope.root 0 with id := 1, cancelled := true },
      { Scope.root 0 with id := 2, parent := 1 }, { Scope.root 0 with id := 4 }] }
/-- A subtree and what is outside it, and each result of SCOPEN, SCCAN, SCACK and SCQRY but the one for a full context. -/
theorem test_meets_ScopeInstructions_of_results :
    let lane (s : State) (f : Lane → Bool) : Bool := (laneOf s 2 0 0).any f
    let task (s : State) (k : Nat) : State := modBlock s 2 (fun b => { b with flags := 0, scope := k })
    (inTree (tree 0) 0 1 2 = true ∧ inTree (tree 0) 0 1 4 = false ∧ inTree (tree 0) 0 9 9 = false) ∧
    (lane (tree 0) (fun x => x.b.kernel && reaches (tree 0) x true 0 4) = true ∧
     lane (task (tree 0) 1) (fun x => !x.b.kernel && reaches (tree 0) x false 0 2 && !reaches (tree 0) x true 0 2) = true) ∧
    lane (tree 0x10000) (fun x => (openScope (tree 0x10000) x false 3 4 0).1 == 2 ^ 31 + 2) = true ∧
    lane (tree 9) (fun x => (openScope (tree 9) x false 3 4 0).1 == 2 ^ 31 + 2) = true ∧
    lane (tree 1) (fun x => (openScope (tree 1) x false 3 4 0).1 == 2 ^ 31 + 1) = true ∧
    lane (tree 0) (fun x => (openScope (tree 0) x false 3 4 0).1 == 3) = true ∧
    lane (task (tree 4) 0) (fun x => (scan (tree 4) x true 3 20).1 == 2) = true ∧
    lane (tree 9) (fun x => (scan (tree 9) x false 3 0).1 == 3 && ackCode (tree 9) x false 3 0 == some 2 &&
      scopeReport (tree 9) x false 3 0 == 3) = true ∧
    lane (tree 0) (fun x => (scan (tree 0) x false 3 0).1 == 2 && scopeReport (tree 0) x false 3 0 == 2 ^ 16) = true ∧
    lane (tree 1) (fun x => (scan (tree 1) x false 3 0).1 == 1 && ackCode (tree 1) x false 3 0 == none &&
      scopeReport (tree 1) x false 3 0 == 2) = true ∧
    lane (tree 4) (fun x => (scan (tree 4) x false 3 0).1 == 0 && ackCode (tree 4) x false 3 0 == some 1) = true ∧
    lane (task (tree 1) 2) (fun x => ackCode (modBlock (tree 1) 2 fun b => { b with scope := 2 })
      { x with b := { x.b with flags := 1 } } false 3 0 == some 3) = true := by decide +kernel
/-- A context in which every scope id is in use. -/
abbrev fullTree : State :=
  { on (.nop u) with scopes := Scope.root 0 :: (List.range 65535).map fun k => { Scope.root 0 with id := k + 1 } }
theorem test_meets_ScopeInstructions_without_ids :
    ((laneOf fullTree 2 0 0).any fun x => x.rd 3 32 == 0 && reaches fullTree x false 0 0) = true ∧
    ((getScope fullTree 0 0).any fun q => !q.cancelled) = true ∧
    ∀ k, 1 ≤ k → k ≤ 65535 → getScope fullTree 0 k ≠ none := by
  refine ⟨by decide +kernel, by decide +kernel, fun k h1 h2 h => ?_⟩
  have := List.find?_eq_none.1 h { Scope.root 0 with id := k }
    (List.mem_cons_of_mem _ (List.mem_map.2 ⟨k - 1, List.mem_range.2 (by omega), by rw [Nat.sub_add_cancel h1]⟩))
  simp [Scope.root] at this

theorem test_meets_SystemInstructions :
    Has (on (.pfres u 3 4)) 0xD4 u [r64 4] [r32 3] any ∧
    Has (on (.tretRetry u 3 4)) 0xD0 u [r64 4] [r32 3] any ∧
    Has (on (.tretSkip u 3 4)) 0xD0 u [r64 4] [r32 3] any ∧
    Has (on (.tretRedirect u 3 4 6)) 0xD0 u [r64 4, r64 6] [r32 3] any ∧
    Has (on (.crd u true 8 5 8)) 0xD1 u (if true then [r32 5] else []) [r64 8] any ∧
    Has (on (.cwr u true 3 5 10 9)) 0xD2 u (r64 10 :: if true then [r32 5] else []) [r32 3] any ∧
    Has (on (.cwrStateCreate u 3 5 10)) 0xD2 u [r32 5, r64 10] [r32 3] any ∧
    Has (on (.cwrStateRemove u 3 5 10)) 0xD2 u [r32 5, r64 10] [r32 3] any ∧
    Has (on (.cwrKqsize u 3 10)) 0xD2 u [r64 10] [r32 3] any ∧
    Has (on (.cwrKqhead u 3 10)) 0xD2 u [r64 10] [r32 3] any ∧
    Has (on (.cwrPreempt u 3 5 10)) 0xD2 u [r32 5, r64 10] [r32 3] any ∧
    Has (on (.cwrBcores u 3 5 10)) 0xD2 u [r32 5, r64 10] [r32 3] any ∧
    Has (on (.cwrTrsize u 3 5 10)) 0xD2 u [r32 5, r64 10] [r32 3] any ∧
    Has (on (.tlbinvPage u 3 4 6)) 0xD3 u [r64 4, r32 6] [r32 3] any ∧
    Has (on (.tlbinvContext u 3 6)) 0xD3 u [r32 6] [r32 3] any ∧
    Has (on (.tlbinvAll u 3)) 0xD3 u [] [r32 3] any ∧
    Has (on (.tlbinvRange u true 3 4 6 7)) 0xD3 u [r64 4, r32 6, r32 7] [r32 3]
      (fun j s => ∀ x ∈ j.cmd, (match getCtx (syncRelease (irrevocable s j.b.uid) x) (x.rd 6 32 % 2 ^ 16) with
        | none => true
        | some q => (tlbinvRange (syncRelease (irrevocable s j.b.uid) x) q true (x.rd 4 64) (x.rd 7 32)).toBool) = true) ∧
    Has (on (.psplit u 1 3 4 6)) 0xD6 u [r64 4, r32 6] [r32 3]
      (fun j s => ∀ x ∈ j.cmd,
        (psplitOne (irrevocable s j.b.uid) (x.rd 6 32 % 2 ^ 16) (x.rd 4 64) 1).toBool = true) ∧
    Has (on (.resumeg u 3 4 6)) 0xD8 u [r64 4, r32 6] [r32 3] any := by
  refine ⟨?_, ?_, ?_, ?_, ?_, ?_, ?_, ?_, ?_, ?_, ?_, ?_, ?_, ?_, ?_, ?_, ?_, ?_, ?_⟩ <;> exact has (by decide +kernel)
theorem test_meets_HaltAndErrorInjection :
    Has (on (.haltg u 3 4 6)) 0xD7 u [r64 4, r32 6] [r32 3] any ∧
    Has (on (.errinj u 3 3 196)) 0xD5 u [r64 196] [r32 3] any ∧
    Has (on (.errinjDisarm u 3)) 0xD5 u [] [r32 3] any := by
  refine ⟨?_, ?_, ?_⟩ <;> exact has (by decide +kernel)
theorem test_meets_PoolInstructions :
    Has (on (.kseqNew u 3 4)) 0xE0 u [r32 4] [⟨3, 32 / 32⟩] any ∧
    Has (on (.kseqFree u 3 4)) 0xE0 u [r32 4] [⟨3, 32 / 32⟩] any ∧
    Has (on (.kseqPquery u 3 4)) 0xE0 u [r32 4] [⟨3, 32 / 32⟩] any ∧
    Has (on (.kseqPfree u 3 4)) 0xE0 u [r32 4] [⟨3, 32 / 32⟩] any ∧
    Has (on (.kalloc u true 10 4 5)) 0xE1 u [r32 4, r32 5] [⟨10, 32 / 32⟩] any ∧
    Has (on (.ktrim u 10 4 7)) 0xE2 u [r32 4, r32 7] [⟨10, 32 / 32⟩] any ∧
    Has (on (.kfree u 10 4 6)) 0xE4 u [r32 4, r32 6] [⟨10, 32 / 32⟩] any ∧
    Has (on (.klook u 12 4 6 3)) 0xE3 u [r32 4, r32 6] [⟨12, 64 / 32⟩] any ∧
    Has (on (.kseqPinit u 3 8 9)) 0xE0 u [r64 8, r32 9] [r32 3] (fun j s => (taskAddrs s j.cmd 8 0 64 64).1 = []) := by
  refine ⟨?_, ?_, ?_, ?_, ?_, ?_, ?_, ?_, ?_⟩ <;> exact has (by decide +kernel)

/-- A request to an engine of the part at which none waits. -/
theorem test_meets_PoolInstructions_at_the_engine :
    let s := on (.kseqNew u 3 4)
    (getBundle s s.cur).any (fun q => (lanesOf s q).any fun x =>
      (PoolOp.pinit 5 0).home (syncRelease s x) == some 0 && s.poolReqs.isEmpty && decide (poolCount s 0 < 8000)) = true := by
  decide +kernel

/-! ### The statements about events -/

/-- The block of a state, its thread, its job. -/
abbrev theBlock (s : State) (f : Block → Bool) : Prop := (getBlock s 2).any f = true
abbrev napping : State := also (on (.nap u 5)) (.nap u 5)
theorem test_meets_WaitEvents :
    (let s := { on (.nop u) with claims := [(2, 0, 22)] }
     (s.claims.find? (fun c => c.1 == 2 && c.2.1 == 0)) = some (2, 0, 22)) ∧
    ((getThread napping 2 0 0).map Thread.wait = some .nap) ∧
    (let s := modThread { on (.nop u) with claims := [(2, 0, 2000)] } 2 0 0 (fun t => { t with wait := .claim 2000 })
     theBlock s (regDead s)) ∧
    (let s := modBlock napping 2 (fun b => { b with killed := true })
     theBlock s Block.killed ∧ (getThread s 2 0 0).any (atKill s) = true) ∧
    (let s := modScope napping 0 0 (fun x => { x with wd := 15625000 })
     (getScope s 0 0).any (fun x => (getCtx s 0).any fun c => c.wdlim != 0 && decide (c.wdlim.toNat ≤ x.wd)) = true ∧
     (longestWaiter s 0 0).isSome = true ∧ (scopeThreads s 0 0).any Thread.ended = false ∧
     s.blocks.any (fun b => b.ctx == 0 && b.halted) = false) := by decide +kernel
/-- A trap of row 0 waits at the head of the queue of a thread at a kill point. -/
abbrev watching (h : W64) : State :=
  modThread (handled napping) 2 0 0 (fun t => { t with watchq := [⟨0, 0, 5, 0, 0, 0, 0, 0, 0, h⟩] })
theorem test_meets_WatchTrapsAreDelivered :
    let point (s : State) (x : Lane) : Bool :=
      !x.t.handling && !frdOut s x.t && watchPoint s x.t && !x.b.stopping && (x.t.watchq.length == 1)
    (let s := modCtx (watching 0) 0 (fun c => { c with tdeleg := 0 })
     (laneOf s 2 0 0).any (fun x => point s x && (trapVec s x 0x12 0).isNone) = true) ∧
    (let s := watching 0x10000
     (laneOf s 2 0 0).any (fun x => point s x && (trapVec s x 0x12 0x10000).isSome && x.t.watchq.all fun w =>
       (laneOf (modThread (unfile (leaveWait (handleRow s x.t w) x.t) x.t) 2 0 0 (fun t => { t with watchq := [] })) 2 0 0).isSome)
       = true) := by decide +kernel
theorem test_meets_ResultEvents :
    ((getOutst (also (mem1 (.ld u 0 0 2 19 4 1 0 0)) (.ld u 0 0 2 19 4 1 0 0)) 4).map Outst.cls = some .ld) ∧
    ((getOutst (also (mem1 (.st u 0 0 2 19 4 1 0 0)) (.st u 0 0 2 19 4 1 0 0)) 4).map Outst.cls = some .st) ∧
    ((getOutst (also (mem1 (.atom u 0 0 2 19 4 1 0 0)) (.atom u 0 0 2 19 4 1 0 0)) 4).map Outst.cls = some .at_) ∧
    (let s := also (on (.jrec u 2 3)) (.jrec u 2 3)
     (getOutst s 4).any (fun o => match o.op with | .reply .. => (getBlock s o.blk).isSome | _ => false) = true) ∧
    (let s := also (tap1 (.tapin u 10 11 2 3 5)) (.tapin u 10 11 2 3 5)
     s.outst.any (fun o => match o.op with | .tapin _ => (getBlock s o.blk).any Block.resident | _ => false) = true) ∧
    (let s := on (.nop u)
     (getCtx s 0).any (fun c => (match (runWalk s c 0 0x20000).1 with | .ok (some _) => true | _ => false)) = true ∧
     walksOpen s = true) := by decide +kernel
theorem test_meets_CopyEvents :
    (getCopy (also (copy1 (.cpy u 0 0 false 5 4 6 8 1)) (.cpy u 0 0 false 5 4 6 8 1)) 4).isSome = true := by decide +kernel
/-- A record of 16 words of 32 bits of global memory. -/
abbrev globalRec : BitVec 256 := BitVec.ofNat 256 (0x20000 + 16 * 2 ^ 64 + 4 * 2 ^ 128 + 0x10 * 2 ^ 192)
/-- The copy of `copy1` once it has started, and with its first element opened. -/
abbrev moving (f : State → State) : State :=
  let i : Instr := .cpy u 0 0 false 5 4 6 8 1
  let s := also (f (copy1 i)) i
  match getCopy s 4 with | some c => startCopy s c | none => s
abbrev opened (f : State → State) : State := openTo 1 (moving f) 4 0
/-- A copy of one element into the next slot of a ring of two slots. -/
abbrev ringed (n : W64) : State :=
  let i : Instr := .cpy u 3 0 false 10 20 22 8 1
  also { withP (withRec (on i) 1 (scratchRec 4096)) 8 n with rings := (ring0 (.slacq u true 7 2)).rings } i
theorem test_meets_CopyEvents_of_the_engine :
    let ready (s : State) (f : CopyCmd → Bool) : Bool := s.copies.any fun c => !c.started && c.fault.isNone && c.accepted s &&
      (queueBefore s c).all CopyCmd.started && copyReady s c && f c
    let i : Instr := .cpy u 0 0 false 5 4 6 8 1
    (ready (also (copy1 i) i) (fun c => c.count == 4 && c.dk != 3) = true ∧
     ready (also (withP (copy1 i) 8 (2 ^ 16)) i) (fun c => c.count == 0) = true) ∧
    (let at_ (s : State) (st : SlotSt) : Bool := ready s fun c => (c.ring s c.tgt).any fun r => c.slot.isNone && c.dk == 3 &&
       r.queue.isEmpty && decide (r.fill < 64) && (r.slots[r.fill]?).any (fun q => q.st == st)
     at_ (ringed (4 + 2 ^ 16)) .free = true ∧ at_ (ringed (2 ^ 16)) .free = true ∧
     at_ { ringed (2 ^ 16) with rings := (ringed (2 ^ 16)).rings.map fun r => modSlot r 0 fun q => { q with st := .taken } } .taken
       = true) ∧
    (let opens (s : State) : Option Bool := (getCopy s 4).bind fun c => (getBlock s c.blk).map fun b =>
       c.fault.isNone && decide (c.opened < c.count) && !c.ahead.contains c.opened && (openElem s b c c.opened).1.toBool
     opens (moving id) = some true ∧
     opens { moving (fun s => withRec s 5 globalRec) with walkStore := putBytes [] 0 ([0x00000513, 0x00008067].flatMap (leBytes 4)) }
       = some false) ∧
    (let lands (s : State) : Option Bool := (getCopy s 4).bind fun c => (copyLane s c).bind fun x =>
       (c.flying.find? (fun q => q.e == 0)).bind fun el =>
         if c.started && c.fault.isNone && decide (0 < c.count) && decide (0 < c.opened) && !copyBlocked s c 0 then
           some (performElem s c x el).toBool else none
     lands (opened id) = some true ∧
     lands { opened id with bars := [⟨⟨false, 2, 4096⟩, 0, 0, 0, 1, 0, 0, 0, 0, 0, false, none, []⟩] } = some false) ∧
    (getCopy (opened id) 4).isSome = true ∧ (getCopy (retreat (opened id) 4 0) 4).isSome = true := by decide +kernel
theorem test_meets_EngineEvents :
    (let i : Instr := .mdrain u false false 6 12 0 0
     let s := also (withRec (mtx false i) 6 drainRec) i
     s.mops.any (fun m => match m.kind with | .drain _ => (getMop s m.id).isSome | _ => false) = true) ∧
    (let s := also (tap1 (.tapin u 10 11 2 3 5)) (.tapin u 10 11 2 3 5)
     let s := { s with tapins := s.tapins.map fun t => { t with retired := true, rows := t.rows.map fun r => { r with slot := 0 } } }
     (evalQueue s 0).any (fun e => (tapinById s e.1.id).isSome && (getBlock s e.1.blk).any (fun b => b.terrace == 0)) = true) := by
  decide +kernel

/-- A copy of one scratchpad element, with slots held; its element lands in scratchpad, in global memory and in a slot. -/
theorem test_meets_EngineResults_of_copies :
    let i : Instr := .cpy u 0 0 false 5 4 6 8 1
    let s := holdUnits (also (copy1 i) i) 2 0 0 2
    (getCopy s 4).any (fun c => (copyLane s c).any fun x => x.b.errs.isEmpty && !(x.b.rollback && x.b.revocable) &&
      (getOpSlot s 2 0).isSome && s.ctxs.all (fun c => c.wreg.isEmpty) &&
      ([.mem (.scratch 2) 4096 4096, .mem .glob 0x20000 0x20000, .op 0 0] : List CPlace).all fun d =>
        (performElem s c x ⟨0, .mem (.scratch 2) 0 0, d, 0⟩).toBool) = true := by decide +kernel
/-- A small operation, and a drain whose rows translate and pass their checks. -/
theorem test_meets_EngineResults_of_the_matrix_engine :
    (let i : Instr := .mmaBf16 u false true false 0 4 198 0 0
     let s := also (mtx false i) i
     s.mops.any (fun m => match m.kind with
       | .small o => o.flip == false && (getAcc s m.blk o.acc).isSome && (getOpSlot s m.blk o.aslot).isSome &&
          (getOpSlot s m.blk o.bslot).isSome && (getBlock s m.blk).any (fun q => q.errs.isEmpty && !(q.rollback && q.revocable))
       | _ => false) = true) ∧
    (let i : Instr := .mdrain u false true 6 12 200 0
     let s := also (withRec (mtx false i) 6 drainRec) i
     s.mops.any (fun m => match m.kind with
       | .drain o => (getBlock s m.blk).any fun q => (getAcc s m.blk o.acc).any fun a => (accTest a o.mtol).isNone && q.errs.isEmpty &&
          (match drainXlate s q m o (o.rows.drop o.done ++ o.rows.take o.done) with
           | (.ok els, _, u) =>
             let v := els.foldl (fun s e => e.2.2.meet s (m.party q)) (drainOlder u m 4 els)
             els.all fun e => (getThread s 2 0 0).any fun t => (getGang s 2 0).any fun g =>
               (elemCheck v ⟨t, g, q⟩ (Rec.of o.drec) e.2.2 4 { kind := 1, writes := true, plain := true, cas := none } false
                 (v.issueNo + 1)).isNone
           | _ => false)
       | _ => false) = true) := by decide +kernel
/-- A rule that does not apply, one whose feature is none, a probe that fires and one that does not, and an edit: with one
entry of width 16 whose encoder row and tap row are of ones. -/
theorem test_meets_EngineResults_of_rules :
    let rule (kind feat tau : Nat) : Nat := kind + 8 + fld 32 8 1 + fld 44 20 feat + fld 160 32 tau
    let e (u : Nat) : RowEval := { x := List.replicate 16 0x3F80, rules := [u], seen := [], edited := false, charge := 0, out := none }
    let entry (_ : Nat) : Nat := packElems 16 (List.replicate 32 0x3F80) * 2 ^ 512
    let r (tap u : Nat) : RowEval := evalRule true tap 16 2 entry (e u) 0
    (r 7 (rule 0 0 0)).charge = 0 ∧ (r 1 (rule 3 0 0)).out = some (.ready 8) ∧ (r 1 (rule 0 2 0)).out = some (.ready 8) ∧
    (r 1 (rule 0 1 0x40000000)).out = some (.fire 0 0x41800000) ∧ (r 1 (rule 0 1 0x42000000)).out = none ∧
    (r 1 (rule 1 1 0)).charge = 2 ∧ (r 1 (rule 2 1 0)).charge = 2 := by decide +kernel
/-- A TAPIN with a table and its entries readable; a row with a watching thread, and one with none. -/
theorem test_meets_EngineResults_of_rows :
    let s := also (tap1 (.tapin u 10 11 2 3 5)) (.tapin u 10 11 2 3 5)
    s.tapins.any (fun t => t.rows.length == 1 && (getBlock s t.blk).any fun b => b.errs.isEmpty && !(b.rollback && b.revocable) &&
      (match readTable s b (t.tableAddr 0) (t.party b) with
       | (.ok table, s1) => decide (nrules table ≤ 64) &&
          (readEntries s1 b (t.party b) (Rec.of t.drec) t.d (featuresOf table true t.tap (Rec.of t.drec).ext0)).1.toBool
       | _ => false) && (getThread s 2 0 0).any fun c => decide (c.watchq.length < 4)) = true := by decide +kernel
/-- A second job that waits for launch. -/
abbrev queued : State :=
  (queueJob (on (.nop u)) 0 (BitVec.ofNat 1024 (fld 0 64 placedAt + fld 208 16 64 + fld 448 8 1 + fld 584 4 1)) none none).2
theorem test_meets_JobEvents :
    ((getJob queued 0 2).any (fun j => mayLaunch queued j [1] && (placeBlocks queued j j.launched j.launched [1]).isSome)
      = true) ∧
    (let s := { on (.nop u) with bins := [⟨7, 0, 2, 0, 0x10000, [⟨0, 0, 9⟩]⟩] }
     (s.bins.find? (fun b => b.id == 7)).any (fun b => drawsFrom s b true) = true) ∧
    ((getBundle (on (.nop u)) 3).any (fun b => (getBlock (on (.nop u)) b.blk).isSome) = true) ∧
    (let s := on (.nop u)
     (getBlock s 2).any (fun k =>
       (match translate s (.fetch k.core) k.ctx k.kernel 3 placedAt with | (.ok pa, t) => !poisoned t pa 8 | _ => false) &&
       (match fetchWord s k placedAt with | (.ok w, _) => (decodeHeader w).any (fun h => !h.rf && h.n == 0) | _ => false) &&
       (fetchWords s k (placedAt + 8) 1).1.toBool) = true) ∧
    (let reform := encodeHeader { cls := .sys, n := 0, rf := true, waits := 0, yl := false }
     let s := writeBytes (on (.nop u)) placedAt (leBytes 8 reform.toNat)
     (getBlock s 2).any (fun k => match fetchWord s k placedAt with
       | (.ok w, _) => (decodeHeader w).any Header.rf
       | _ => false) = true) ∧
    (let s := on (.nop u)
     (match translate s .device 0 true 2 0x30000 with
      | (.ok pa, t) => !poisoned t pa 16 && futState t pa == 0 && futState (writeFuture t pa 3 0) pa == 3
      | _ => false) = true) ∧
    (let s := { on (.nop u) with threads := [], bundles := [] }
     theBlock s (fun b => !blockBusy s b)) ∧
    (getJob (on (.nop u)) 0 1).isSome = true ∧
    (let s := also (on (.scack u false 3 7 0)) (.scack u false 3 7 0)
     let s := { s with blocks := [], jobs := [], scopes := [{ Scope.root 0 with id := 9, cancelled := true }],
                       outst := [⟨9, 1, 2, 0, 0, .en, .scack 0 9 3 32, false, false, 0⟩] }
     (getScope s 0 9).any Scope.cancelled = true ∧ scopeBusy s 0 9 = false ∧ s.outst.any (fun o => o.acks 0 9) = true) := by
  decide +kernel

/-- A block that waits for its save, its thread at a kill point. -/
abbrev saving : State := modBlock napping 2 (fun b => { b with saveReq := some ⟨2, none, true, false⟩ })
/-- The same with a fault of its thread. -/
abbrev savingFault : State :=
  modThread saving 2 0 0 (fun t => { t with fault := some ⟨0x08, 0, 0, 0, 0, 0⟩ })

theorem test_meets_SaveEvents :
    theBlock saving (fun b => saveReady saving b && b.saveReq.isSome) ∧ copiesRun saving 2 = false ∧
    saving.act.saves < saving.cfg.budgets.saves ∧ (blockFaults saving 2).isEmpty = true ∧
    theBlock savingFault (fun b => saveReady savingFault b && b.kernel) ∧ copiesRun savingFault 2 = false ∧
    (blockFaults savingFault 2).isEmpty = false ∧
    (let s := { on (.nop u) with entries := [⟨1, none, 0⟩], kqsize := 16, kqbase := 0x20000 }
     s.kqsize ≠ 0 ∧ s.kqtail - s.kqhead ≠ s.kqsize ∧
     (ctxWrite s s.kqctx true (s.kqbase.toNat + 64 * (s.kqtail.toNat % s.kqsize.toNat)) (leBytes 64 1)).isSome = true) ∧
    (let s := also saving (.save 2)
     let back (r : SaveRec) : SaveRec := { r with resumed := true }
     let s := { s with saves := s.saves.map back }
     s.saves.length = 1 ∧ s.saves.all (fun r => (getBlock s r.blk).any fun b =>
       (s.blocks.filter (fun q => q.sameGroup b)).length == 1 && oneDomain b.glevel [0] &&
       (restoreAll s ((s.blocks.filter (fun q => q.sameGroup b)).zip [0])).isSome) = true) := by decide +kernel
/-- A save of a fault that a kernel can take, with room in the trap queue and with none. -/
theorem test_meets_SaveEvents_with_a_kernel :
    let s := modBlock { savingFault with kqsize := 16 } 2 (fun b => { b with flags := 0 })
    theBlock s (fun b => saveReady s b && !b.kernel) ∧ (blockFaults s 2).isEmpty = false ∧ s.kqsize ≠ 0 ∧
    queueFull s = false ∧ queueFull { s with kqtail := 16 } = true := by decide +kernel
theorem test_meets_ReliabilityEvents :
    (let s := modBlock napping 2 (fun b => { b with flags := 3, ckptDue := true })
     theBlock s (fun b => ckptReady s b) ∧ (getBlock (drainHold s 2) 2).any (fun b => b.mcheck.isEmpty) = true) ∧
    (let s := modBlock napping 2 (fun b => { b with mcheck := [⟨0, 0x20, 0, 0, 0, 0, 2, 8, 1, 0, 0, 1, none⟩] })
     theBlock s (fun b => !b.mcheck.isEmpty && !b.killed && allStopped s 2)) ∧
    (1 < natBits State.reset.cfg.links.toNat (4 * 7) 4) ∧ State.reset.cfg.hbmchan.getLsbD (8 * 7 + 7) = true ∧
    State.reset.tripped.contains 127 = false ∧ State.reset.cfg.plimit.toNat ≥ 3000 := by decide +kernel
/-- A line within the budgets of scrubbing, and beyond them, whichever store holds it (a free value). -/
abbrev scrubs (n : Nat) : State :=
  let c := State.reset.cfg
  { State.reset with cfg := { c with budgets := { c.budgets with scrub := n, scrubL2 := n } } }
theorem test_meets_ReliabilityEvents_of_scrubbing :
    (scrubLine (scrubs 0) 0).isNone = true ∧ (scrubLine (scrubs 64) 0).isSome = true := by
  have none (k : Nat) : Sparse.get 0 State.reset.act.scrub k = 0 := rfl
  constructor <;> (unfold scrubLine lineHolder; dsimp only; repeat' split) <;> simp_all [freshFree]
/-- A live context, and the last island, the last terrace's island and the last stack of the part. -/
theorem test_meets_ReliabilityEvents_of_the_part :
    ctxLive (on (.nop u)) 0 = true ∧ islandHere State.reset 127 = true ∧ islandHere State.reset 111 = true ∧
    islandHere State.reset 112 = true ∧ 7 < numStacks State.reset := by decide +kernel
theorem test_meets_HostEvents :
    (let s := writeBytes State.reset 0x20100 (leBytes 4 1)
     let s := setQueue s 63 { HostQ.reset with qbase := 0x20000, qsize := 16 }
     let x := getQueue s 63
     x.qsize ≠ 0 ∧ x.qstate.getLsbD 0 = false ∧ x.qbase.getLsbD 63 = false ∧ poisoned s 0x20100 256 = false ∧
     BitVec.ofNat 32 (leVal ((readBytes s 0x20100 256).take 4)) = x.lastAcc + 1) ∧
    (let s := setQueue State.reset 0 { HostQ.reset with nsize := 16, notes := [⟨0, 0, 0, 0, 0, 0⟩] }
     (getQueue s 0).notes.length = 1 ∧ (getQueue s 0).nsize ≠ 0 ∧
     (getQueue s 0).ntail - (getQueue s 0).nhead ≠ (getQueue s 0).nsize) ∧
    (let s := setQueue { State.reset with lineErrs := [(0x804, .uncorrectable)] } 63 { HostQ.reset with qbase := 0x20000, qsize := 16 }
     poisoned s 0x20100 256 = false ∧ poisoned (outsideMeet s 0x20100 256) 0x20100 256 = true ∧
     (∀ e ∈ s.lineErrs, e.1 < 0x20000 / 64 ∨ (0x20000 + 256 - 1) / 64 < e.1)) ∧
    poisoned { State.reset with poison := [0x804] } 0x20100 256 = true ∧
    ({ State.reset with cfg := { State.reset.cfg with bootfail := true } } : State).cfg.bootfail = true ∧
    State.reset.cfg.bootfail = false ∧
    backed State.reset 0xBFFFFFFFFF = true ∧ backed State.reset 0xC000000000 = false := by decide +kernel

/-! ### The statements about words, steps and frames -/

theorem test_meets_DecodingInvertsEncoding :
    Instr.wf (.iadd u true true true 254 190 8) = true ∧ isEvent (.iadd u true true true 254 190 8) = false := by decide
/-- A word that reads as an instruction, a header that reads as one, and words in which one bit more makes nothing of them. -/
theorem test_meets_EncodingInvertsDecoding :
    decode 0x017E000000000000 = .instr (.nop u) ∧ decode 0x017E000000000001 = .reject .illenc ∧
    (decodeHeader 0xA000000000000000).isSome = true ∧ decodeHeader 0xA000000000000001 = none ∧
    decodeHeader 0xAA00000000000000 = none := by decide +kernel
theorem test_meets_EncodingInvertsDecoding_of_headers : ({ cls := .int, n := 15, rf := true, waits := 255, yl := true } : Header).n < 16 := by decide
theorem test_meets_StepsNeverStop : AtWord (on (.nop u)) ∧
    (isEvent (.nop u) = false ∧ getBundle State.reset State.reset.cur = none) := by
  refine ⟨?_, by decide⟩
  obtain ⟨q, c, b, h, _⟩ := has (s := on (.nop u)) (op := 1) (k := u) (src := []) (dst := []) (late := []) (ok := any) (by decide +kernel)
  exact ⟨q, b, c, h.bundle, h.clause, h.block⟩
theorem test_meets_MemoryStaysCanonical :
    Memory.wf (on (.nop u)).mem = true ∧ (match step (on (.nop u)) with | .next _ => true | _ => false) = true := by
  decide +kernel

/-- What lets a bundle go on, as one test. -/
def mayB (s : State) (id : Nat) : Bool :=
  match getBundle s id with
  | none => false
  | some q => match q.place.clause, getBlock s q.blk with
    | some c, some b =>
      b.resident && !coreTripped s b.core && !faulted s q && mayRun s q && !q.mid && unparked s q && !q.stalled &&
      !gated s b c.cls && (!b.stopping || (!q.atWait && b.status == .running && !(membersOf s q).any Thread.stands)) &&
      (!q.atWait || !anyWatchDue s q) && (!q.yielded || !otherReady s q)
    | _, _ => false
theorem mayGoOn_of {s : State} {id : Nat} (h : mayB s id = true) : ∃ q c b, MayGoOn s id q c b := by
  unfold mayB at h
  split at h
  · cases h
  · rename_i q hq
    split at h
    · rename_i c b hc hb
      simp only [Bool.and_eq_true, Bool.not_eq_true', Bool.or_eq_true, beq_iff_eq] at h
      obtain ⟨⟨⟨⟨⟨⟨⟨⟨⟨⟨h1, h2⟩, h3⟩, h4⟩, h5⟩, h6⟩, h7⟩, h8⟩, h9⟩, h11⟩, h10⟩ := h
      exact ⟨q, c, b, hq, hb, hc, h1, h2, h3, h4, h5, h6, h7, h8, fun hs => by
        rcases h9 with h | h
        · rw [h] at hs; cases hs
        · exact ⟨h.1.1, h.1.2, h.2⟩, fun hw => by
        rcases h11 with h | h
        · rw [h] at hw; cases hw
        · exact h, fun hy => by
        rcases h10 with h | h
        · rw [h] at hy; cases hy
        · exact h⟩
    · cases h
/-- The words that a bundle of a state has fetched, from the place where it stands. -/
abbrev wordAt (s : State) : Option W64 := (getBundle s s.cur).bind Bundle.word?
theorem test_meets_StepRunsTheDecodedInstruction :
    (on (.iadd u false false false 5 7 9)).agenda = [.go 3] ∧
    (∃ q c b, MayGoOn { on (.iadd u false false false 5 7 9) with agenda := [] } 3 q c b) ∧
    (wordAt (on (.iadd u false false false 5 7 9))).map decode = some (.instr (.iadd u false false false 5 7 9)) ∧
    isEvent .heartbeatTick = true :=
  ⟨by decide +kernel, mayGoOn_of (by decide +kernel), by decide +kernel, by decide⟩
/-- The all-zero word, and a NOP with a field that must be zero. -/
theorem test_meets_ReservedWordsFault :
    (∃ q c b, MayGoOn { placeWord State.reset 0 with agenda := [] } 3 q c b) ∧
    (wordAt (placeWord State.reset 0)).map decode = some (.reject .illop) ∧
    (∃ q c b, MayGoOn { placeWord State.reset 0x017E000000000001 with agenda := [] } 3 q c b) ∧
    (wordAt (placeWord State.reset 0x017E000000000001)).map decode = some (.reject .illenc) :=
  ⟨mayGoOn_of (by decide +kernel), by decide +kernel, mayGoOn_of (by decide +kernel), by decide +kernel⟩

/-- For each check of an issue a state in which it is the first that fails: an FP opcode in an INT clause, a register that
the gang has not got, a protected pair that differs, a double error in a source register. -/
theorem test_meets_IssueChecksFault :
    let all (s : State) : List Lane := match getBundle s s.cur with | some q => lanesOf s q | none => []
    let order (s : State) (op : Nat) : Option Nat := match getBundle s s.cur with
      | some q => match q.place.clause, getBlock s q.blk with
        | some c, some b => orderFault b q.role c q.place.idx op
        | _, _ => none
      | none => none
    let out (s : State) (r : Reg) : Bool := (all s).any fun x => outOfRange x.g (r32 r)
    let nop := on (.nop u)
    let few := modGang nop 2 0 (fun g => { g with base := 1 })
    let base := on (.finit u 6)
    let odd (t : Thread) : Thread := { t with lane := 1, v := [(7, 1)] }
    let pair := modBlock (modBundle { base with threads := base.threads ++ base.threads.map odd } 3 (fun b => { b with mem := [(0, 0), (0, 1)] })) 2 (fun b => { b with flags := 5 })
    let twice := modBlock nop 2 (fun b => { b with bad := [(0, 0, 7, true)] })
    order nop 0x40 = some 0x03 ∧ (order nop 0x02 = none ∧ out few 8 = true ∧ out few 7 = false) ∧
    (order pair 0xC4 = none ∧ theBlock pair Block.protectd ∧ pairFaults (all pair) u 0xC4 [r64 6] ≠ []) ∧
    (getBlock twice 2).any (fun b => (all twice).any fun x => !(badReads b x [r32 7] true).isEmpty) = true := by
  decide +kernel

/-- A floating-point word in the clause of a NOP: decoded, and refused by the class of its clause. -/
theorem test_meets_IssueChecksFault_of_decoded_words :
    decode (encode (.fadd u 0 false false 3 4 5)) = .instr (.fadd u 0 false false 3 4 5) ∧
    ((getBundle (on (.nop u)) 3).any fun q => q.place.clause.any fun c => (getBlock (on (.nop u)) q.blk).any fun b =>
      orderFault b q.role c q.place.idx (opOf (encode (.fadd u 0 false false 3 4 5))).toNat == some 0x03) = true := by decide +kernel

/-- A clause of two words, so that the bundle goes on inside it. -/
abbrev two (i : Instr) : State := modBundle (on i) 3 (fun b => { b with
  place := { b.place with clause := b.place.clause.map fun c => { c with words := c.words ++ c.words } } })
abbrev inner (j : Iss) (_ : State) : Prop :=
  (j.bun.place.clause.any fun c => decide (j.bun.place.idx + 1 < c.words.length)) = true ∧ j.b.hold = []
theorem test_meets_ResultFrames :
    (∀ k d i, Lanes (.movi k 0 d i) 0x1C k [] d 32 fun _ => i.toNat) ∧
    Has (two (.movi u 0 5 77)) 0x1C u [] [⟨5, (32 + 31) / 32⟩] inner ∧
    (∀ k d a b, LanesF (.fmin k d a b) 0x43 k [r32 a, r32 b] d 32 fun x => minMax .fp32 false (x.rd a 32) (x.rd b 32)) ∧
    Has (two (.fmin u 3 4 5)) 0x43 u [r32 4, r32 5] [⟨3, (32 + 31) / 32⟩] inner ∧
    (∀ k d a b c x, LanesP (.plut k d a b c x) 0x1F k [rP a, rP b, rP c] d fun l =>
      x.getLsbD (4 * b2n (l.pr a.toNat) + 2 * b2n (l.pr b.toNat) + b2n (l.pr c.toNat))) ∧
    Has (two (.plut u 47 1 2 3 0xE8)) 0x1F u [rP 1, rP 2, rP 3] [] inner :=
  ⟨fun _ _ _ _ _ _ _ h _ => laneOp_ready h _, has (by decide +kernel), fun _ _ _ _ _ _ _ _ h _ => laneOpF_ready h _,
    has (by decide +kernel), fun _ _ _ _ _ _ _ _ _ _ h _ => lanePred_ready h _, has (by decide +kernel)⟩

/-- A block that keeps nothing back and holds no error, inside a clause of two words, with nothing outstanding; its record 1
is scratchpad that is not checked; and a block of task level at an instruction of the SYS class. -/
theorem test_meets_IssueFrames :
    let calm (j : Iss) (s : State) : Prop := inner j s ∧ s.blocks.all (fun b => b.hold.isEmpty) = true ∧ j.b.errs = [] ∧ j.b.bad = [] ∧
      s.outst = [] ∧ (Rec.of (j.b.recOf 1)).spc = true ∧ isChecked j.b (Rec.of (j.b.recOf 1)) = false
    let st (i : Instr) : State := withRec (two i) 1 (scratchRec 0)
    Has (st (.fence u 2 3)) 0x75 u [] [] calm ∧
    Has (st (.ld u 0 0 2 19 4 1 0 0)) 0x70 u (idxSrc (st (.ld u 0 0 2 19 4 1 0 0)) 1 4) [⟨19, 1⟩] calm ∧
    Has (st (.crd u true 8 5 8)) 0xD1 u [r32 5] [r64 8] calm ∧
    Has (st (.kalloc u true 10 4 5)) 0xE1 u [r32 4, r32 5] [r32 10] calm ∧
    (getBlock (modBlock (on (.haltg u 3 4 6)) 2 (fun b => { b with flags := 0 })) 2).any (fun b => !b.kernel) = true := by
  refine ⟨?_, ?_, ?_, ?_, by decide +kernel⟩ <;> exact has (by decide +kernel)
abbrev glob1 (i : Instr) : State := also (withRec (on i) 1 globalRec) i
theorem unwatched_of (s : State) (b : Nat) (h : s.ctxs.all (fun c => c.wreg.isEmpty) = true) :
    ∀ k c, getBlock s b = some k → getCtx s k.ctx = some c → ∀ va, watched c va = false := by
  intro k c _ hc va
  have := List.all_eq_true.1 h c (List.mem_of_find?_eq_some hc)
  rw [List.isEmpty_iff] at this
  simp [watched, this, Sparse.get, natBits]
/-- A store, an atomic and a CAS of global memory and a store of scratchpad that are outstanding; nothing is watched, the
block keeps no undo and holds no store; and a block in a revocable interval whose cellar has room. -/
theorem test_meets_PerformedAccesses :
    let kind (s : State) (f : OOp → Bool) : Bool := s.outst.any (fun o => f o.op && o.blk == 2)
    let calm (s : State) : Bool := (getBlock s 2).any (fun b => !(b.rollback && b.revocable) && b.hold.isEmpty) &&
      s.ctxs.all (fun c => c.wreg.isEmpty) && s.poison.isEmpty && s.conts.isEmpty
    (let s := glob1 (.st u 0 0 2 19 4 1 0 0)
     kind s (fun o => match o with | .store .glob .. => true | _ => false) = true ∧ calm s = true) ∧
    (let s := glob1 (.atom u 0 0 2 19 4 1 0 0)
     kind s (fun o => match o with | .atom .glob .. => true | _ => false) = true ∧ calm s = true) ∧
    (let s := glob1 (.cas u 0 0 2 8 4 1 0 0)
     kind s (fun o => match o with | .cas .glob .. => true | _ => false) = true ∧ calm s = true) ∧
    (let s := also (mem1 (.st u 0 0 2 19 4 1 0 0)) (.st u 0 0 2 19 4 1 0 0)
     kind s (fun o => match o with | .store (.scratch 2) _ (_ :: _) _ => true | _ => false) = true ∧ calm s = true) ∧
    (let s := modBlock (glob1 (.st u 0 0 2 19 4 1 0 0)) 2 (fun b => { b with flags := 2, revocable := true })
     kind s (fun o => match o with | .store .glob _ (_ :: _) _ => true | _ => false) = true ∧
     theBlock s (fun b => b.rollback && b.revocable && decide (heldCount s b.core < 2048))) := by decide +kernel
theorem test_meets_TrapHandlersEnterAndReturn :
    let s := handled (on (.trap u 0))
    (laneOf s 2 0 0).any (fun x => (targetOk s x.b 0x10000).1 && !(targetOk s x.b 0x10008).1 &&
      !(targetOk s x.b 0x10001).1) = true ∧
    (getThread s 2 0 0).isSome = true := by decide +kernel
/-- The division corners: a zero divisor, the most negative dividend by -1, and -7 by 2. -/
theorem test_meets_DivisionResults :
    let st (a b : W32) : State := withV (withV (on (.idiv u false true 5 7 9)) 7 a) 9 b
    Has (st 5 0) 0x0A u [r32 7, r32 9] [⟨5, 1⟩] (fun j _ => ∀ x ∈ j.act, ext true 32 (x.rd 9 32) = 0) ∧
    Has (st 0x80000000 0xFFFFFFFF) 0x0A u [r32 7, r32 9] [⟨5, 1⟩]
      (fun j _ => ∀ x ∈ j.act, ext true 32 (x.rd 7 32) = -(2 : Int) ^ 31 ∧ ext true 32 (x.rd 9 32) = -1) ∧
    Has (st 0xFFFFFFF9 2) 0x0A u [r32 7, r32 9] [⟨5, 1⟩]
      (fun j _ => ∀ x ∈ j.act, ext true 32 (x.rd 7 32) = -7 ∧ ext true 32 (x.rd 9 32) = 2) := by
  refine ⟨?_, ?_, ?_⟩ <;> exact has (by decide +kernel)
theorem test_meets_CountResults : Has (withV (on (.clz u false 3 6)) 6 1) 0x18 u [r32 6] [⟨3, 1⟩]
    (fun j _ => ∀ x ∈ j.act, x.rd 6 32 ≠ 0) := has (by decide +kernel)
theorem test_meets_FunnelShiftsRotate : Has (withV (on (.fshl u false 5 4 4 2 0)) 2 33) 0x12 u [r32 4, r32 4, r32 2]
    [⟨5, 1⟩] (fun j _ => ∀ x ∈ j.act, x.rd 2 32 = 33) := has (by decide +kernel)

end Sys2Proof.Tests
end

section
/-! SUPPORT. What the results of the integer instructions of 06 are, as numbers and bit by bit: the rule that makes a
lane operation a `Lanes` statement, and the laws of the patterns that it writes. -/

namespace Sys2Proof.Machine

/-! ### Lane operations -/

/-- An instruction whose meaning is a lane operation writes its result function to every active lane. -/
theorem lanes_of_exec_eq_laneOp {i : Instr} {op : Nat} {k : Ctl} {src : List RG} {d : Reg} {n : Nat} {f : Lane → Nat}
    (h : ∀ s, exec i s = laneOp op k src d n s f) : Lanes i op k src d n f := by
  intro s q c b hready _
  rw [h]
  exact laneOp_ready hready f

theorem Lane.v_lt (x : Lane) (n : Nat) : x.v n < 2 ^ 32 := (Sparse.get 0 x.t.v n).isLt

/-- A register of operand width N reads as an N-bit pattern (06 R102). -/
theorem Lane.rd_wN_lt (x : Lane) (f : Reg) (w : Bool) : x.rd f (wN w) < 2 ^ wN w := by
  unfold Lane.rd
  dsimp only
  split
  case isFalse =>
    have hn : wN w ≤ 64 := by cases w <;> decide
    rw [if_pos hn]
    exact Nat.mod_lt _ (Nat.two_pow_pos _)
  case isTrue =>
    cases w with
    | false => exact Nat.mod_lt _ (Nat.two_pow_pos _)
    | true =>
      have hlo := x.v_lt f.toNat
      have hhi := x.v_lt (f.toNat + 1)
      show x.v (f.toNat + 1) * 2 ^ 32 + x.v f.toNat < 2 ^ 64
      omega

theorem Lane.rd_32_lt (x : Lane) (f : Reg) : x.rd f 32 < 2 ^ 32 := x.rd_wN_lt f false

theorem wN_pos (w : Bool) : 0 < wN w := by cases w <;> decide

/-! ### The low bits of an integer -/

@[simp] theorem satBits_unsaturated (sg : Bool) (n : Nat) (t : Int) : satBits sg false n t = lowBits n t := rfl

@[simp] theorem lowBits_zero (n : Nat) : lowBits n 0 = 0 := by simp [lowBits]

theorem lowBits_sub_two_pow (n : Nat) (v : Int) : lowBits n (v - 2 ^ n) = lowBits n v := by simp [lowBits]

theorem lowBits_natCast (n v : Nat) : lowBits n v = v % 2 ^ n := by
  simpa [lowBits] using Int.toNat_natCast (v % 2 ^ n)

/-- The low N bits of the signed or unsigned value of a pattern are the pattern (06 R102). -/
theorem lowBits_ext (sg : Bool) (n v : Nat) : lowBits n (ext sg n v) = v % 2 ^ n := by
  cases sg with
  | false => rw [ext, if_neg (by decide), lowBits_natCast, Nat.mod_mod]
  | true =>
    simp only [ext, sx, if_true]
    split
    · rw [lowBits_sub_two_pow, lowBits_natCast, Nat.mod_mod]
    · rw [lowBits_natCast, Nat.mod_mod]

theorem lowBits_neg_one (n : Nat) : lowBits n (-1) = 2 ^ n - 1 := by
  have hpos := Nat.two_pow_pos n
  have h : ((2 ^ n - 1 : Nat) : Int) - 2 ^ n = -1 := by push_cast [Nat.one_le_two_pow]; omega
  rw [← h, lowBits_sub_two_pow, lowBits_natCast, Nat.mod_eq_of_lt (by omega)]

/-- The greatest magnitude has one pattern, whatever its sign. -/
theorem lowBits_two_pow_pred {n : Nat} (hn : 0 < n) :
    lowBits n (2 ^ (n - 1)) = lowBits n (-2 ^ (n - 1)) := by
  have h : (-2 ^ (n - 1) : Int) = 2 ^ (n - 1) - 2 ^ n := by
    obtain ⟨m, rfl⟩ := Nat.exists_eq_succ_of_ne_zero hn.ne'
    rw [Nat.succ_sub_one, pow_succ]; omega
  rw [h, lowBits_sub_two_pow]

/-! ### Numbers given by their bits -/

theorem ofBits_lt (n : Nat) (f : Nat → Bool) : ofBits n f < 2 ^ n := by
  induction n with
  | zero => simp [ofBits]
  | succ m ih =>
    rw [ofBits, pow_succ]
    split <;> omega

theorem testBit_ofBits {n j : Nat} (f : Nat → Bool) (hj : j < n) : (ofBits n f).testBit j = f j := by
  induction n with
  | zero => omega
  | succ m ih =>
    have hsplit : ofBits (m + 1) f = 2 ^ m * b2n (f m) + ofBits m f := by
      rw [ofBits, b2n]
      split <;> omega
    rw [hsplit, Nat.testBit_two_pow_mul_add _ (ofBits_lt m f)]
    split
    case isTrue hlt => exact ih hlt
    case isFalse hge =>
      obtain rfl : j = m := by omega
      cases f j <;> simp [b2n]

/-- A population count counts the positions of the set bits. -/
theorem popCount_eq_length_filter (n v : Nat) :
    popCount n v = ((List.range n).filter fun j => v.testBit j).length := by
  induction n with
  | zero => rfl
  | succ m ih =>
    rw [popCount, ih, List.range_succ, List.filter_append, List.length_append, natBit]
    cases h : v.testBit m <;> simp [h]

theorem popCount_le (n v : Nat) : popCount n v ≤ n := by
  rw [popCount_eq_length_filter]
  exact (List.length_filter_le _ _).trans_eq List.length_range

/-- The count of an element is the count of its bits where they stand in the whole pattern. -/
theorem popCount_element (m v at_ : Nat) :
    popCount m (v / 2 ^ at_ % 2 ^ m) = ((List.range m).filter fun j => v.testBit (at_ + j)).length := by
  rw [popCount_eq_length_filter]
  congr 1
  refine List.filter_congr fun j hj => ?_
  rw [Nat.testBit_mod_two_pow, Nat.testBit_div_two_pow, decide_eq_true (List.mem_range.1 hj), Bool.true_and, Nat.add_comm]

/-! ### Packed elements -/

theorem packElems_lt (b : Nat) (es : List Nat) : packElems b es < 2 ^ (b * es.length) := by
  induction es with
  | nil => simp [packElems]
  | cons e t ih =>
    have he : e % 2 ^ b < 2 ^ b := Nat.mod_lt _ (Nat.two_pow_pos b)
    calc packElems b (e :: t)
        = e % 2 ^ b + 2 ^ b * packElems b t := rfl
      _ < 2 ^ b * (packElems b t + 1) := by rw [Nat.mul_add]; omega
      _ ≤ 2 ^ b * 2 ^ (b * t.length) := Nat.mul_le_mul_left _ ih
      _ = 2 ^ (b * (e :: t).length) := by rw [← pow_add, List.length_cons, Nat.mul_add, Nat.mul_one, Nat.add_comm]

/-- Element j of a packed pattern is the low bits of entry j. -/
theorem packElems_div_mod (b : Nat) (es : List Nat) {j : Nat} (hj : j < es.length) :
    packElems b es / 2 ^ (b * j) % 2 ^ b = es[j] % 2 ^ b := by
  induction es generalizing j with
  | nil => simp at hj
  | cons e t ih =>
    have he : e % 2 ^ b < 2 ^ b := Nat.mod_lt _ (Nat.two_pow_pos b)
    have hcons : packElems b (e :: t) = e % 2 ^ b + 2 ^ b * packElems b t := rfl
    cases j with
    | zero => simp [hcons]
    | succ m =>
      have htail : packElems b (e :: t) / 2 ^ b = packElems b t := by
        rw [hcons, Nat.add_mul_div_left _ _ (Nat.two_pow_pos b), Nat.div_eq_of_lt he, Nat.zero_add]
      rw [Nat.mul_succ, Nat.add_comm, pow_add, ← Nat.div_div_eq_div_mul, htail]
      exact ih (Nat.lt_of_succ_lt_succ hj)

end Sys2Proof.Machine
end

section
/-! PROOF. IDIV and IREM (06 R108). -/

namespace Sys2Proof.Machine

/-- The quotient that IDIV takes: truncated toward zero, −1 for a zero divisor. -/
def quotient (A B : Int) : Int := if B = 0 then -1 else A.tdiv B
/-- The remainder that IREM takes: that of the truncated division, A for a zero divisor. -/
def remainder (A B : Int) : Int := if B = 0 then A else A.tmod B

theorem lanes_idiv (k : Ctl) (w sg : Bool) (d a b : Reg) :
    Lanes (.idiv k w sg d a b) 0x0A k [rW w a, rW w b] d (wN w) fun x =>
      lowBits (wN w) (quotient (ext sg (wN w) (x.rd a (wN w))) (ext sg (wN w) (x.rd b (wN w)))) :=
  lanes_of_exec_eq_laneOp fun _ => rfl

theorem lanes_irem (k : Ctl) (w sg : Bool) (d a b : Reg) :
    Lanes (.irem k w sg d a b) 0x0B k [rW w a, rW w b] d (wN w) fun x =>
      lowBits (wN w) (remainder (ext sg (wN w) (x.rd a (wN w))) (ext sg (wN w) (x.rd b (wN w)))) :=
  lanes_of_exec_eq_laneOp fun _ => rfl

@[simp] theorem quotient_zero (A : Int) : quotient A 0 = -1 := rfl
@[simp] theorem remainder_zero (A : Int) : remainder A 0 = A := rfl
theorem quotient_neg_one (A : Int) : quotient A (-1) = -A := by simp [quotient]
theorem remainder_neg_one (A : Int) : remainder A (-1) = 0 := by simp [remainder]

/-- A divisor that is not zero gives the division with a remainder smaller than it and of the sign of A. -/
theorem quotient_remainder_spec (A : Int) {B : Int} (hB : B ≠ 0) :
    A = quotient A B * B + remainder A B ∧ (remainder A B).natAbs < B.natAbs ∧
      (remainder A B = 0 ∨ (remainder A B).sign = A.sign) := by
  simp only [quotient, remainder, if_neg hB]
  refine ⟨(Int.tdiv_mul_add_tmod A B).symm, ?_, ?_⟩
  · rw [Int.natAbs_tmod]
    exact Nat.mod_lt _ (Int.natAbs_pos.2 hB)
  · by_cases hdvd : B ∣ A
    · exact .inl (Int.tmod_eq_zero_of_dvd hdvd)
    · exact .inr (by rw [Int.sign_tmod, if_neg hdvd])

/-- Settles O58, by the laws of truncated division and of the low bits of an integer. -/
theorem divisionResults : Obligations.DivisionResults := by
  unfold Obligations.DivisionResults
  intro k w sg d a b
  refine ⟨_, _, lanes_idiv k w sg d a b, lanes_irem k w sg d a b, fun x => ?_⟩
  have hpattern : lowBits (wN w) (ext sg (wN w) (x.rd a (wN w))) = x.rd a (wN w) := by
    rw [lowBits_ext, Nat.mod_eq_of_lt (x.rd_wN_lt a w)]
  intro n A B
  refine ⟨fun hB => ?_, fun hB => ?_, fun _ hA hB => ?_, fun _ hA hB => ?_⟩
  · obtain ⟨hdiv, hsmall, hsign⟩ := quotient_remainder_spec A hB
    exact ⟨quotient A B, remainder A B, hdiv, hsmall, hsign, rfl, rfl⟩
  · show lowBits n (quotient A B) = _ ∧ lowBits n (remainder A B) = _
    rw [hB, quotient_zero, remainder_zero]
    exact ⟨lowBits_neg_one n, hpattern⟩
  · show lowBits n (quotient A B) = _ ∧ lowBits n (remainder A B) = _
    rw [hB, quotient_neg_one, remainder_neg_one, lowBits_zero]
    refine ⟨?_, rfl⟩
    calc lowBits n (-A) = lowBits n (2 ^ (n - 1)) := by rw [hA, neg_neg]
      _ = lowBits n A := by rw [hA, lowBits_two_pow_pred (wN_pos w)]
      _ = x.rd a n := hpattern
  · show lowBits n (quotient A B) = _ ∧ lowBits n (remainder A B) = _
    rw [hA, hB]
    exact ⟨rfl, rfl⟩

end Sys2Proof.Machine
end

section
/-! PROOF. POPC, POPB, CLZ and BREV (06 R113). -/

namespace Sys2Proof.Machine

/-- POPB of an N-bit pattern: the count of each byte, packed. -/
def byteCounts (n v : Nat) : Nat := packElems 8 ((elems 8 (n / 8) v).map (popCount 8))
/-- CLZ of an N-bit pattern. -/
def leadingZeros (n v : Nat) : Nat := if v = 0 then n else n - 1 - Nat.log2 v

theorem lanes_popc (k : Ctl) (w : Bool) (d a : Reg) : Lanes (.popc k w d a) 0x16 k [rW w a] d 32 fun x =>
    popCount (wN w) (x.rd a (wN w)) := lanes_of_exec_eq_laneOp fun _ => rfl
theorem lanes_popb (k : Ctl) (w : Bool) (d a : Reg) : Lanes (.popb k w d a) 0x17 k [rW w a] d (wN w) fun x =>
    byteCounts (wN w) (x.rd a (wN w)) := lanes_of_exec_eq_laneOp fun _ => rfl
theorem lanes_clz (k : Ctl) (w : Bool) (d a : Reg) : Lanes (.clz k w d a) 0x18 k [rW w a] d 32 fun x =>
    leadingZeros (wN w) (x.rd a (wN w)) := lanes_of_exec_eq_laneOp fun _ => rfl
theorem lanes_brev (k : Ctl) (w : Bool) (d a : Reg) : Lanes (.brev k w d a) 0x19 k [rW w a] d (wN w) fun x =>
    ofBits (wN w) fun j => natBit (x.rd a (wN w)) (wN w - 1 - j) := lanes_of_exec_eq_laneOp fun _ => rfl

theorem byteCounts_lt (w : Bool) (v : Nat) : byteCounts (wN w) v < 2 ^ wN w := by
  have hlen : 8 * ((elems 8 (wN w / 8) v).map (popCount 8)).length = wN w := by
    cases w <;> simp [elems, wN]
  have h := packElems_lt 8 ((elems 8 (wN w / 8) v).map (popCount 8))
  rwa [hlen] at h

/-- Byte j of the packed counts: a count of eight bits is at most 8, so its byte holds it whole. -/
theorem byteCounts_byte (n v : Nat) {j : Nat} (hj : j < n / 8) :
    byteCounts n v / 2 ^ (8 * j) % 2 ^ 8 = ((List.range 8).filter fun t => v.testBit (8 * j + t)).length := by
  have hlen : j < ((elems 8 (n / 8) v).map (popCount 8)).length := by simpa [elems] using hj
  have hentry : ((elems 8 (n / 8) v).map (popCount 8))[j] = popCount 8 (v / 2 ^ (8 * j) % 2 ^ 8) := by simp [elems]
  have hle := popCount_le 8 (v / 2 ^ (8 * j) % 2 ^ 8)
  rw [byteCounts, packElems_div_mod 8 _ hlen, hentry, Nat.mod_eq_of_lt (by omega), popCount_element]

@[simp] theorem leadingZeros_zero (n : Nat) : leadingZeros n 0 = n := rfl

/-- CLZ of a pattern that is not 0 points at the highest set bit. -/
theorem leadingZeros_add_log2 {n v : Nat} (hv : v ≠ 0) (hlt : v < 2 ^ n) :
    leadingZeros n v + Nat.log2 v + 1 = n := by
  have := (Nat.log2_lt hv).2 hlt
  rw [leadingZeros, if_neg hv]
  omega

theorem leadingZeros_le {n v : Nat} (hlt : v < 2 ^ n) : leadingZeros n v ≤ n := by
  by_cases hv : v = 0
  · rw [hv, leadingZeros_zero]
  · have := leadingZeros_add_log2 hv hlt
    omega

theorem testBit_above_leadingZeros {n v j : Nat} (hlt : v < 2 ^ n) (hj : n - leadingZeros n v ≤ j) :
    v.testBit j = false := by
  by_cases hv : v = 0
  · rw [hv, Nat.zero_testBit]
  · have hsum := leadingZeros_add_log2 hv hlt
    refine Nat.testBit_lt_two_pow (Nat.lt_of_lt_of_le Nat.lt_log2_self (Nat.pow_le_pow_right (by decide) ?_))
    omega

theorem testBit_at_leadingZeros {n v : Nat} (hv : v ≠ 0) (hlt : v < 2 ^ n) :
    leadingZeros n v < n ∧ v.testBit (n - 1 - leadingZeros n v) = true := by
  have hsum := leadingZeros_add_log2 hv hlt
  refine ⟨by omega, ?_⟩
  rw [show n - 1 - leadingZeros n v = Nat.log2 v by omega]
  exact Nat.testBit_log2 hv

/-- Settles O59, by the bits of counts, packed bytes and reversed patterns. -/
theorem countResults : Obligations.CountResults := by
  unfold Obligations.CountResults
  intro ones k w d a
  refine ⟨_, _, _, _, lanes_popc k w d a, lanes_popb k w d a, lanes_clz k w d a, lanes_brev k w d a, fun x => ?_⟩
  intro n v
  have hlt : v < 2 ^ n := x.rd_wN_lt a w
  refine ⟨⟨?_, popCount_le n v⟩, ⟨byteCounts_lt w v, fun j hj => byteCounts_byte n v hj⟩, ?_, ofBits_lt n _, fun j hj =>
    testBit_ofBits _ hj⟩
  · show popCount n v = ((List.range n).filter fun j => v.testBit (0 + j)).length
    simp only [Nat.zero_add, popCount_eq_length_filter]
  · exact ⟨leadingZeros_le hlt, fun j hj => testBit_above_leadingZeros hlt hj,
      fun hv => testBit_at_leadingZeros hv hlt, fun hv => (congrArg (leadingZeros n) hv).trans (leadingZeros_zero n)⟩

end Sys2Proof.Machine
end

section
/-! PROOF. FSHL and FSHR (06 R111). -/

namespace Sys2Proof.Machine

/-- The high word of the pair of A and B, shifted left (FSHL). -/
def funnelLeft (A B n : Nat) : Nat := (A * 2 ^ 32 + B) * 2 ^ n / 2 ^ 32 % 2 ^ 32
/-- The low word of the pair of A and B, shifted right (FSHR). -/
def funnelRight (A B n : Nat) : Nat := (A * 2 ^ 32 + B) / 2 ^ n % 2 ^ 32

theorem lanes_fshl (k : Ctl) (im : Bool) (d a b c : Reg) (x : BitVec 8) :
    Lanes (.fshl k im d a b c x) 0x12 k (r32 a :: r32 b :: cntSrc im c) d 32 fun l =>
      funnelLeft (l.rd a 32) (l.rd b 32) ((if im then x.toNat else l.rd c 32) % 32) :=
  lanes_of_exec_eq_laneOp fun _ => rfl

theorem lanes_fshr (k : Ctl) (im : Bool) (d a b c : Reg) (x : BitVec 8) :
    Lanes (.fshr k im d a b c x) 0x13 k (r32 a :: r32 b :: cntSrc im c) d 32 fun l =>
      funnelRight (l.rd a 32) (l.rd b 32) ((if im then x.toNat else l.rd c 32) % 32) :=
  lanes_of_exec_eq_laneOp fun _ => rfl

theorem funnelLeft_one (A B : Nat) : funnelLeft A B 1 = (A * 2 + B / 2 ^ 31) % 2 ^ 32 := by
  unfold funnelLeft
  omega

theorem funnelRight_one (A : Nat) {B : Nat} (hB : B < 2 ^ 32) : funnelRight A B 1 = A % 2 * 2 ^ 31 + B / 2 := by
  unfold funnelRight
  omega

/-- A bit of the pair of a word with itself: bit j of the one or of the other copy. -/
theorem testBit_doubled {v : Nat} (hv : v < 2 ^ 32) (j : Nat) :
    (v * 2 ^ 32 + v).testBit j = if j < 32 then v.testBit j else v.testBit (j - 32) := by
  rw [Nat.mul_comm, Nat.testBit_two_pow_mul_add v hv]

/-- A funnel shift left of a word with itself rotates it left. -/
theorem funnelLeft_self {v : Nat} (hv : v < 2 ^ 32) (n : Nat) :
    funnelLeft v v (n % 32) = ((BitVec.ofNat 32 v).rotateLeft n).toNat := by
  refine Nat.eq_of_testBit_eq fun j => ?_
  have hn : n % 32 < 32 := Nat.mod_lt _ (by decide)
  rw [funnelLeft, Nat.testBit_mod_two_pow, Nat.testBit_div_two_pow, Nat.testBit_mul_two_pow, testBit_doubled hv,
    BitVec.testBit_toNat, BitVec.getLsbD_rotateLeft, BitVec.getLsbD_ofNat, BitVec.getLsbD_ofNat]
  by_cases hj : j < 32
  case neg =>
    rw [decide_eq_false hj, decide_eq_false (by omega : ¬ j < n % 32)]
    simp
  case pos =>
    by_cases hwrap : j < n % 32
    · have hpos : j + 32 - n % 32 = 32 - n % 32 + j := by omega
      simp [hj, hwrap, hpos, show n % 32 ≤ j + 32 by omega, show 32 - n % 32 + j < 32 by omega]
    · have hpos : j + 32 - n % 32 - 32 = j - n % 32 := by omega
      simp [hj, hwrap, hpos, show n % 32 ≤ j + 32 by omega, show ¬ j + 32 - n % 32 < 32 by omega,
        show j - n % 32 < 32 by omega]

/-- A funnel shift right of a word with itself rotates it right. -/
theorem funnelRight_self {v : Nat} (hv : v < 2 ^ 32) (n : Nat) :
    funnelRight v v (n % 32) = ((BitVec.ofNat 32 v).rotateRight n).toNat := by
  refine Nat.eq_of_testBit_eq fun j => ?_
  have hn : n % 32 < 32 := Nat.mod_lt _ (by decide)
  rw [funnelRight, Nat.testBit_mod_two_pow, Nat.testBit_div_two_pow, testBit_doubled hv,
    BitVec.testBit_toNat, BitVec.getLsbD_rotateRight, BitVec.getLsbD_ofNat, BitVec.getLsbD_ofNat]
  by_cases hj : j < 32
  case neg =>
    rw [decide_eq_false hj, decide_eq_false (by omega : ¬ j < 32 - n % 32)]
    simp
  case pos =>
    by_cases hwrap : j < 32 - n % 32
    · have hpos : n % 32 + j = j + n % 32 := by omega
      simp [hj, hwrap, hpos, show j + n % 32 < 32 by omega]
    · have hpos : j + n % 32 - 32 = j - (32 - n % 32) := by omega
      simp [hj, hwrap, hpos, show ¬ j + n % 32 < 32 by omega, show j - (32 - n % 32) < 32 by omega]

/-- Settles O60: the count acts modulo 32, and the pair of a word with itself rotates. -/
theorem funnelShiftsRotate : Obligations.FunnelShiftsRotate := by
  unfold Obligations.FunnelShiftsRotate
  intro rot
  refine ⟨fun k d a b c x => ⟨funnelLeft, lanes_fshl k false d a b c x, fun A B _ _ => funnelLeft_one A B⟩,
    fun k d a b c x => ⟨funnelRight, lanes_fshr k false d a b c x, fun A B _ hB => funnelRight_one A hB⟩,
    fun k im d a c x => ?_, fun k im d a c x => ?_⟩
  · have h := lanes_fshl k im d a a c x
    simp only [funnelLeft_self (Lane.rd_32_lt _ a)] at h
    exact h
  · have h := lanes_fshr k im d a a c x
    simp only [funnelRight_self (Lane.rd_32_lt _ a)] at h
    exact h

end Sys2Proof.Machine
end

section
/-! PROOF. Decoding an encoded instruction gives it back (02 R32-R39). -/

namespace Sys2Proof.Laws

/-- Every constructor, in the order of the opcode table. -/
theorem decode_encode : ∀ i : Instr, Encoding.Statement i
  | .nop k => Encoding.nop k
  | .iadd k w sg sat d a b => Encoding.iadd k w sg sat d a b
  | .isub k w sg sat d a b => Encoding.isub k w sg sat d a b
  | .iaddi k w sg sat d a i => Encoding.iaddi k w sg sat d a i
  | .iaddw k sg sat d a b => Encoding.iaddw k sg sat d a b
  | .imul k w sg sat d a b => Encoding.imul k w sg sat d a b
  | .imulh k w sg d a b => Encoding.imulh k w sg d a b
  | .imad k w sg sat d a b c => Encoding.imad k w sg sat d a b c
  | .imadw k sg sat d a b c => Encoding.imadw k sg sat d a b c
  | .idiv k w sg d a b => Encoding.idiv k w sg d a b
  | .irem k w sg d a b => Encoding.irem k w sg d a b
  | .imin k w sg d a b => Encoding.imin k w sg d a b
  | .imax k w sg d a b => Encoding.imax k w sg d a b
  | .iabsd k w sg d a b => Encoding.iabsd k w sg d a b
  | .lut3 k w d a b c x => Encoding.lut3 k w d a b c x
  | .ishl k w im d a b x => Encoding.ishl k w im d a b x
  | .ishr k w sg im d a b x => Encoding.ishr k w sg im d a b x
  | .fshl k im d a b c x => Encoding.fshl k im d a b c x
  | .fshr k im d a b c x => Encoding.fshr k im d a b c x
  | .bfx k w sg im d a c x => Encoding.bfx k w sg im d a c x
  | .bfi k w im d a b c x => Encoding.bfi k w im d a b c x
  | .popc k w d a => Encoding.popc k w d a
  | .popb k w d a => Encoding.popb k w d a
  | .clz k w d a => Encoding.clz k w d a
  | .brev k w d a => Encoding.brev k w d a
  | .isel k w d a b x => Encoding.isel k w d a b x
  | .mov k sz d a => Encoding.mov k sz d a
  | .movi k mv d i => Encoding.movi k mv d i
  | .icmp k w sg cb cc d a b => Encoding.icmp k w sg cb cc d a b
  | .icmpi k w sg cb cc d a i => Encoding.icmpi k w sg cb cc d a i
  | .plut k d a b c x => Encoding.plut k d a b c x
  | .pget k d x => Encoding.pget k d x
  | .pset k a b x => Encoding.pset k a b x
  | .perm k w mk pm d a b c x => Encoding.perm k w mk pm d a b c x
  | .permx k mk d a b c x => Encoding.permx k mk d a b c x
  | .vote k mk vm d a c => Encoding.vote k mk vm d a c
  | .elect k mk d c => Encoding.elect k mk d c
  | .gred k w sg mk gop d a c => Encoding.gred k w sg mk gop d a c
  | .gscan k w sg mk gop ex d a c => Encoding.gscan k w sg mk gop ex d a c
  | .bra k tgt => Encoding.bra k tgt
  | .brx k a => Encoding.brx k a
  | .call k d tgt => Encoding.call k d tgt
  | .ret k a => Encoding.ret k a
  | .rjarm k a x => Encoding.rjarm k a x
  | .rjoin k x => Encoding.rjoin k x
  | .rjdrop k x => Encoding.rjdrop k x
  | .exit k => Encoding.exit k
  | .trap k i => Encoding.trap k i
  | .gets k d i => Encoding.gets k d i
  | .sets k a i => Encoding.sets k a i
  | .rclaim k i => Encoding.rclaim k i
  | .rgive k i => Encoding.rgive k i
  | .rtry k d i => Encoding.rtry k d i
  | .yield k => Encoding.yield k
  | .nap k i => Encoding.nap k i
  | .prog k i => Encoding.prog k i
  | .brk k i => Encoding.brk k i
  | .trcmark k a i => Encoding.trcmark k a i
  | .vget k d a b => Encoding.vget k d a b
  | .vput k d a b => Encoding.vput k d a b
  | .fadd k rm na nc d a b => Encoding.fadd k rm na nc d a b
  | .fmul k rm na d a b => Encoding.fmul k rm na d a b
  | .ffma k rm na nc d a b c => Encoding.ffma k rm na nc d a b c
  | .fmin k d a b => Encoding.fmin k d a b
  | .fmax k d a b => Encoding.fmax k d a b
  | .fcmp k cb cc d a b => Encoding.fcmp k cb cc d a b
  | .fdiv k rm d a b => Encoding.fdiv k rm d a b
  | .frcp k rm d a => Encoding.frcp k rm d a
  | .frsq k rm d a => Encoding.frsq k rm d a
  | .fsqrt k rm d a => Encoding.fsqrt k rm d a
  | .fexp2 k rm d a => Encoding.fexp2 k rm d a
  | .flog2 k rm d a => Encoding.flog2 k rm d a
  | .fsinpi k rm d a => Encoding.fsinpi k rm d a
  | .fcospi k rm d a => Encoding.fcospi k rm d a
  | .frnd k rm d a => Encoding.frnd k rm d a
  | .fscale k rm d a b => Encoding.fscale k rm d a b
  | .hadd2 k rm hf d a b => Encoding.hadd2 k rm hf d a b
  | .hmul2 k rm hf d a b => Encoding.hmul2 k rm hf d a b
  | .hfma2 k rm hf d a b c => Encoding.hfma2 k rm hf d a b c
  | .hmax2 k hf mn d a b => Encoding.hmax2 k hf mn d a b
  | .cvt k rm src dst d a x => Encoding.cvt k rm src dst d a x
  | .cvtp k rm hf d a b => Encoding.cvtp k rm hf d a b
  | .cvtq k rm fmt sat sc d a c x => Encoding.cvtq k rm fmt sat sc d a c x
  | .cvto k rm fmt sc d a b c x => Encoding.cvto k rm fmt sc d a b c x
  | .cvtx k rm fmt sc d a c x => Encoding.cvtx k rm fmt sc d a c x
  | .dotI8 k d a b c => Encoding.dotI8 k d a b c
  | .dotZ8 k d a b c => Encoding.dotZ8 k d a b c
  | .dotE4m3 k rm d a b c => Encoding.dotE4m3 k rm d a b c
  | .dotE5m2 k rm d a b c => Encoding.dotE5m2 k rm d a b c
  | .dotI4 k d a b c => Encoding.dotI4 k d a b c
  | .dotE2m1 k rm d a b c => Encoding.dotE2m1 k rm d a b c
  | .dotsE4m3 k rm d a b c x => Encoding.dotsE4m3 k rm d a b c x
  | .dotsE5m2 k rm d a b c x => Encoding.dotsE5m2 k rm d a b c x
  | .dotsE2m1 k rm d a b c x => Encoding.dotsE2m1 k rm d a b c x
  | .dotsI8 k rm d a b c x => Encoding.dotsI8 k rm d a b c x
  | .dot2Bf16 k rm d a b c => Encoding.dot2Bf16 k rm d a b c
  | .dot2F16 k rm d a b c => Encoding.dot2F16 k rm d a b c
  | .ld k ord scope size d a bq cp off => Encoding.ld k ord scope size d a bq cp off
  | .st k ord scope size d a bq cp off => Encoding.st k ord scope size d a bq cp off
  | .atom k ord scope size d a bq aop off => Encoding.atom k ord scope size d a bq aop off
  | .atomn k ord scope size d a bq aop off => Encoding.atomn k ord scope size d a bq aop off
  | .cas k ord scope size d a bq cp off => Encoding.cas k ord scope size d a bq cp off
  | .fence k ord scope => Encoding.fence k ord scope
  | .scfence k scope => Encoding.scfence k scope
  | .bset k d a => Encoding.bset k d a
  | .bget k d a => Encoding.bget k d a
  | .pref k size a bq cp off => Encoding.pref k size a bq cp off
  | .binit k g d a b c => Encoding.binit k g d a b c
  | .bjoin k g d a => Encoding.bjoin k g d a
  | .barr k g d a => Encoding.barr k g d a
  | .bwait k g d a b => Encoding.bwait k g d a b
  | .barw k g d a => Encoding.barw k g d a
  | .bdrop k g d a => Encoding.bdrop k g d a
  | .binv k g d a => Encoding.binv k g d a
  | .bqry k g d a x => Encoding.bqry k g d a x
  | .rginit k d a => Encoding.rginit k d a
  | .rginitFree k d a => Encoding.rginitFree k d a
  | .slacq k nb d a => Encoding.slacq k nb d a
  | .slfil k a b c => Encoding.slfil k a b c
  | .sltak k nb d a => Encoding.sltak k nb d a
  | .slrel k a b => Encoding.slrel k a b
  | .cpy k dk ad bc d a b c x => Encoding.cpy k dk ad bc d a b c x
  | .cpyg k dk ad bc d a b c x => Encoding.cpyg k dk ad bc d a b c x
  | .cpys k dk ad bc d a b c x => Encoding.cpys k dk ad bc d a b c x
  | .cpyf k dk ad bc d a b c x => Encoding.cpyf k dk ad bc d a b c x
  | .cseal k d => Encoding.cseal k d
  | .cwait k d a => Encoding.cwait k d a
  | .cpoll k d => Encoding.cpoll k d
  | .mclaim k kd nb d a b => Encoding.mclaim k kd nb d a b
  | .mrel k kd d a b => Encoding.mrel k kd d a b
  | .mbaton k d => Encoding.mbaton k d
  | .mpass k d a => Encoding.mpass k d a
  | .mzero k ik d => Encoding.mzero k ik d
  | .mmaBf16 k sc rk tr mt a b c x => Encoding.mmaBf16 k sc rk tr mt a b c x
  | .mmaF16 k sc rk tr mt a b c x => Encoding.mmaF16 k sc rk tr mt a b c x
  | .mmaE4m3 k sc rk tr mt a b c x => Encoding.mmaE4m3 k sc rk tr mt a b c x
  | .mmaE5m2 k sc rk tr mt a b c x => Encoding.mmaE5m2 k sc rk tr mt a b c x
  | .mmaE2m1 k sc rk tr mt a b c x => Encoding.mmaE2m1 k sc rk tr mt a b c x
  | .mmaI8 k sc rk tr mt a b c x => Encoding.mmaI8 k sc rk tr mt a b c x
  | .mmaI4 k sc rk tr mt a b c x => Encoding.mmaI4 k sc rk tr mt a b c x
  | .mdrain k ad rk d a b x => Encoding.mdrain k ad rk d a b x
  | .mrd k d a x => Encoding.mrd k d a x
  | .mmask k pa d a b => Encoding.mmask k pa d a b
  | .msync k bk => Encoding.msync k bk
  | .tapin k d a b c x => Encoding.tapin k d a b c x
  | .tapw k d a b => Encoding.tapw k d a b
  | .taprm k hm d a => Encoding.taprm k hm d a
  | .trel k a b => Encoding.trel k a b
  | .tapsync k al a => Encoding.tapsync k al a
  | .jpost k d a => Encoding.jpost k d a
  | .jrec k d x => Encoding.jrec k d x
  | .jhint k => Encoding.jhint k
  | .jpwait k d => Encoding.jpwait k d
  | .finit k a => Encoding.finit k a
  | .fwr k a b => Encoding.fwr k a b
  | .frd k d a x => Encoding.frd k d a x
  | .scopen k xc d a b c => Encoding.scopen k xc d a b c
  | .sccan k xc d a c => Encoding.sccan k xc d a c
  | .scack k xc d a c => Encoding.scack k xc d a c
  | .scqry k xc d a c => Encoding.scqry k xc d a c
  | .tretRetry k d a => Encoding.tretRetry k d a
  | .tretSkip k d a => Encoding.tretSkip k d a
  | .tretRedirect k d a b => Encoding.tretRedirect k d a b
  | .crd k bk d a x => Encoding.crd k bk d a x
  | .cwr k bk d a b x => Encoding.cwr k bk d a b x
  | .cwrStateCreate k d a b => Encoding.cwrStateCreate k d a b
  | .cwrStateRemove k d a b => Encoding.cwrStateRemove k d a b
  | .cwrKqsize k d b => Encoding.cwrKqsize k d b
  | .cwrKqhead k d b => Encoding.cwrKqhead k d b
  | .cwrPreempt k d a b => Encoding.cwrPreempt k d a b
  | .cwrBcores k d a b => Encoding.cwrBcores k d a b
  | .cwrTrsize k d a b => Encoding.cwrTrsize k d a b
  | .tlbinvPage k d a b => Encoding.tlbinvPage k d a b
  | .tlbinvContext k d b => Encoding.tlbinvContext k d b
  | .tlbinvAll k d => Encoding.tlbinvAll k d
  | .tlbinvRange k sp d a b c => Encoding.tlbinvRange k sp d a b c
  | .pfres k d a => Encoding.pfres k d a
  | .errinj k ek d a => Encoding.errinj k ek d a
  | .errinjDisarm k d => Encoding.errinjDisarm k d
  | .psplit k ps d a b => Encoding.psplit k ps d a b
  | .haltg k d a b => Encoding.haltg k d a b
  | .resumeg k d a b => Encoding.resumeg k d a b
  | .kseqNew k d a => Encoding.kseqNew k d a
  | .kseqFree k d a => Encoding.kseqFree k d a
  | .kseqPfree k d a => Encoding.kseqPfree k d a
  | .kseqPquery k d a => Encoding.kseqPquery k d a
  | .kseqPinit k d a b => Encoding.kseqPinit k d a b
  | .kalloc k cl d a b => Encoding.kalloc k cl d a b
  | .ktrim k d a b => Encoding.ktrim k d a b
  | .klook k d a b x => Encoding.klook k d a b x
  | .kfree k d a b => Encoding.kfree k d a b
  | .gatheringComplete blk gang lane => Encoding.gatheringComplete blk gang lane
  | .claimGrant blk gang => Encoding.claimGrant blk gang
  | .regdead blk => Encoding.regdead blk
  | .napWake blk gang lane => Encoding.napWake blk gang lane
  | .loadResultReturn id => Encoding.loadResultReturn id
  | .walk core ctx kind va => Encoding.walk core ctx kind va
  | .copyCommandStart id => Encoding.copyCommandStart id
  | .ringnextSlotTake id => Encoding.ringnextSlotTake id
  | .copyElementLand id e => Encoding.copyElementLand id e
  | .remoteCommand ctx drec ad elems => Encoding.remoteCommand ctx drec ad elems
  | .remoteTimeout id => Encoding.remoteTimeout id
  | .matrixPass core => Encoding.matrixPass core
  | .drainExecute id => Encoding.drainExecute id
  | .eval tap row => Encoding.eval tap row
  | .watchDelivery blk gang lane => Encoding.watchDelivery blk gang lane
  | .killStop blk gang lane => Encoding.killStop blk gang lane
  | .scackComplete ctx scope => Encoding.scackComplete ctx scope
  | .blockLaunch ctx serial cores => Encoding.blockLaunch ctx serial cores
  | .bundleDraw bin aged => Encoding.bundleDraw bin aged
  | .arrivalQueueFile core => Encoding.arrivalQueueFile core
  | .clauseBegin bundle => Encoding.clauseBegin bundle
  | .blockRetire blk => Encoding.blockRetire blk
  | .jobComplete ctx serial => Encoding.jobComplete ctx serial
  | .save blk => Encoding.save blk
  | .restore ticket cores => Encoding.restore ticket cores
  | .engineReplyReturn id => Encoding.engineReplyReturn id
  | .wdog ctx scope => Encoding.wdog ctx scope
  | .powerEstimate mean shares => Encoding.powerEstimate mean shares
  | .thermalTrip island => Encoding.thermalTrip island
  | .thermalRecover island => Encoding.thermalRecover island
  | .unitDegrade unit => Encoding.unitDegrade unit
  | .checkpoint blk => Encoding.checkpoint blk
  | .rollback blk => Encoding.rollback blk
  | .contextLoss ctx => Encoding.contextLoss ctx
  | .warmReset implicated => Encoding.warmReset implicated
  | .scrub found => Encoding.scrub found
  | .queueEntryTake q => Encoding.queueEntryTake q
  | .qtail q v => Encoding.qtail q v
  | .qsize q v => Encoding.qsize q v
  | .qstate q v => Encoding.qstate q v
  | .nsize q v => Encoding.nsize q v
  | .nhead q v => Encoding.nhead q v
  | .queueRegisterWrite q off v => Encoding.queueRegisterWrite q off v
  | .notificationWrite q => Encoding.notificationWrite q
  | .plimit v => Encoding.plimit v
  | .attestationReport nonce => Encoding.attestationReport nonce
  | .hostMeasurement mr digest => Encoding.hostMeasurement mr digest
  | .storePerformed id => Encoding.storePerformed id
  | .atomicReply id => Encoding.atomicReply id
  | .remoteAcknowledgement id => Encoding.remoteAcknowledgement id
  | .hostDeviceMemoryAccess acc => Encoding.hostDeviceMemoryAccess acc
  | .saveCopyBound blk => Encoding.saveCopyBound blk
  | .walkRoutineLoad base image => Encoding.walkRoutineLoad base image
  | .trapEntryWrite => Encoding.trapEntryWrite
  | .heartbeatTick => Encoding.heartbeatTick
  | .scfenceRelease => Encoding.scfenceRelease
  | .periodBoundary => Encoding.periodBoundary
  | .coldReset => Encoding.coldReset
/-- Settles O44, constructor by constructor: no operand field of a format is dropped. -/
theorem decodingInvertsEncoding : Obligations.DecodingInvertsEncoding := decode_encode

end Sys2Proof.Laws
end

section
/-! PROOF. The lane operations of the INT and VEC classes (06, 07): each meaning is an issue whose effect is performed. -/

namespace Sys2Proof.Machine

/-! ### From the meaning of an instruction to what it does -/

/-- An instruction whose meaning is a lane operation with flags writes its results and raises its flags. -/
theorem lanesF_of_exec_eq_laneOpF {i : Instr} {op : Nat} {k : Ctl} {src : List RG} {d : Reg} {n : Nat}
    {f : Lane → Nat × BitVec 5} (h : ∀ s, exec i s = laneOpF op k src d n s f) : LanesF i op k src d n f := by
  intro s q c b hready _
  rw [h]
  exact laneOpF_ready hready f

/-- An instruction whose meaning is a predicate of each lane writes it. -/
theorem lanesP_of_exec_eq_lanePred {i : Instr} {op : Nat} {k : Ctl} {src : List RG} {d : Reg} {f : Lane → Bool}
    (h : ∀ s, exec i s = lanePred op k src d s f) : LanesP i op k src d f := by
  intro s q c b hready _
  rw [h]
  exact lanePred_ready hready f

/-- An instruction that is issued with an effect performs it, where the condition says that it is performed. -/
theorem doesAt_of_exec_eq_issue {i : Instr} {op : Nat} {k : Ctl} {src : State → List RG} {dst late : List RG}
    {ok : Iss → State → Prop} {eff : Iss → State → State} (run : Iss → State → IOut) (addr : Iss → Lane → Option Nat)
    (h : ∀ s, exec i s = issue op k (src s) dst s run late addr)
    (hrun : ∀ s q c b, Ready s op k (src s) dst late q c b → ok (issOf s q b op k) (issued s) →
      run (issOf s q b op k) (issued s) = .done (eff (issOf s q b op k) (issued s))) :
    DoesAt i op k src dst late ok eff := by
  intro s q c b hready hok
  rw [h]
  exact issue_done hready (hrun s q c b hready hok)

/-- The same for an effect that is always performed. -/
theorem does_of_exec_eq_issue {i : Instr} {op : Nat} {k : Ctl} {src dst : List RG} {eff : Iss → State → State}
    (run : Iss → State → IOut) (h : ∀ s, exec i s = issue op k src dst s run)
    (hrun : ∀ j s, run j s = .done (eff j s)) : Does i op k src dst eff :=
  doesAt_of_exec_eq_issue (ok := fun _ _ => True) run _ h fun _ _ _ _ _ _ => hrun _ _

/-- The same where a condition of the instruction's own, on the issue and its state, says that the effect is performed. -/
theorem doesWhen_of_exec_eq_issue {i : Instr} {op : Nat} {k : Ctl} {src dst : List RG} {ok : Iss → State → Prop}
    {eff : Iss → State → State} (run : Iss → State → IOut) (h : ∀ s, exec i s = issue op k src dst s run)
    (hrun : ∀ s q c b, Ready s op k src dst [] q c b → ok (issOf s q b op k) (issued s) →
      run (issOf s q b op k) (issued s) = .done (eff (issOf s q b op k) (issued s))) :
    DoesWhen i op k src dst ok eff :=
  doesAt_of_exec_eq_issue run _ h hrun

/-! ### Integer arithmetic (06 R102-R108) -/

/-- Settles O1: every form is a lane operation on the two exact values. -/
theorem intArithmeticResults : Obligations.IntArithmeticResults := by
  unfold Obligations.IntArithmeticResults
  refine ⟨?iadd, ?isub, ?iaddi, ?iaddw, ?imul, ?imulh, ?imad, ?imadw, ?idiv, ?irem, ?imin, ?imax, ?iabsd⟩
  all_goals
    intros
    exact lanes_of_exec_eq_laneOp fun _ => rfl

/-! ### Shifts and bitfields (06 R110-R112) -/

theorem lanes_ishr (k : Ctl) (w sg im : Bool) (d a b : Reg) (x : BitVec 8) :
    Lanes (.ishr k w sg im d a b x) 0x11 k (rW w a :: cntSrc im b) d (wN w) fun l =>
      lowBits (wN w) (ext sg (wN w) (l.rd a (wN w)) / (2 : Int) ^ min (if im then x.toNat else l.rd b 32) (wN w)) :=
  lanes_of_exec_eq_laneOp fun _ => rfl

/-- Settles O2: every form is a lane operation; the funnel shifts are those of `lanes_fshl` and `lanes_fshr`. -/
theorem shiftAndBitfieldResults : Obligations.ShiftAndBitfieldResults :=
  ⟨fun _ _ _ _ _ _ _ => lanes_of_exec_eq_laneOp fun _ => rfl, lanes_ishr, lanes_fshl, lanes_fshr,
    fun _ _ _ _ _ _ _ _ => lanes_of_exec_eq_laneOp fun _ => rfl,
    fun _ _ _ _ _ _ _ _ => lanes_of_exec_eq_laneOp fun _ => rfl⟩

/-! ### Logic and moves (06 R109, R113, R114, R117) -/

/-- Settles O3: the counts are those of `lanes_popc` and its fellows, and each mode of MOVI is one lane operation. -/
theorem logicAndMoveResults : Obligations.LogicAndMoveResults := by
  refine ⟨?lut3, lanes_popc, lanes_popb, lanes_clz, lanes_brev, ?isel, ?mov, ?w32, ?sx64, ?zx64, ?hi, ?pget⟩
  all_goals
    intros
    exact lanes_of_exec_eq_laneOp fun _ => rfl

/-! ### Predicates (06 R116, R117; 07 R147) -/

/-- Settles O4: ICMP, ICMPI and PLUT are predicates of each lane; FCMP and PSET are issues of their own. -/
theorem predicateResults : Obligations.PredicateResults :=
  ⟨fun _ _ _ _ _ _ _ _ => lanesP_of_exec_eq_lanePred fun _ => rfl,
    fun _ _ _ _ _ _ _ _ => lanesP_of_exec_eq_lanePred fun _ => rfl,
    fun _ _ _ _ _ _ => lanesP_of_exec_eq_lanePred fun _ => rfl,
    fun _ _ _ _ _ _ => does_of_exec_eq_issue _ (fun _ => rfl) fun _ _ => rfl,
    fun _ _ _ _ => does_of_exec_eq_issue _ (fun _ => rfl) fun _ _ => rfl⟩

/-! ### Indexed registers (06 R115) -/

/-- A register that is written with no error armed takes no injected error. -/
theorem markFlip_unarmed {i : Iss} (h : i.flip = none) (x : Lane) (r : Nat) (s : State) : markFlip i x r s = s := by
  simp [markFlip, h]

/-- Settles O6: no lane fails its check, so the effect is performed on all. -/
theorem indexedRegisterResults : Obligations.IndexedRegisterResults := by
  refine ⟨fun k d a b => ?vget, fun k d a b => ?vput⟩
  case vget =>
    refine doesWhen_of_exec_eq_issue _ (fun _ => rfl) fun s q c bl hready hok => ?_
    dsimp only
    rw [lane1_none _ _ fun x hx => ?clean]
    case clean =>
      obtain ⟨hlimit, hrows⟩ := hok x hx
      rw [if_neg (Nat.not_le.2 hlimit), hrows]
      rfl
  case vput =>
    refine doesWhen_of_exec_eq_issue _ (fun _ => rfl) fun s q c bl hready hok => ?_
    dsimp only
    rw [lane1_none _ _ fun x hx => if_neg (Nat.not_le.2 (hok x hx))]
    rfl

/-! ### Floating point (07 R144-R157) -/

/-- Settles O7: each operation is rounded once, by `toFp32` or by its own meaning. -/
theorem fp32Results : Obligations.Fp32Results := by
  refine ⟨?fadd, ?fmul, ?ffma, ?fmin, ?fmax, ?fdiv, ?frcp, ?frsq, ?fsqrt, ?fexp2, ?flog2, ?fsinpi, ?fcospi, ?frnd, ?fscale⟩
  all_goals
    intros
    exact lanesF_of_exec_eq_laneOpF fun _ => rfl

/-- Settles O8: a half operation is one lane operation that computes both halves. -/
theorem halfAndConversionResults : Obligations.HalfAndConversionResults := by
  refine ⟨?hadd2, ?hmul2, ?hfma2, ?hmax2, ?cvtp, ?cvt, ?cvtq, ?cvto, ?cvtx⟩
  all_goals
    intros
    exact lanesF_of_exec_eq_laneOpF fun _ => rfl

/-- Settles O9: the integer forms are lane operations, the floating ones lane operations with flags. -/
theorem dotResults : Obligations.DotResults := by
  refine ⟨?i8, ?z8, ?i4, ?e4m3, ?e5m2, ?e2m1, ?bf16, ?f16, ?s4, ?s5, ?s2, ?si⟩
  case i8 | z8 | i4 =>
    intros
    exact lanes_of_exec_eq_laneOp fun _ => rfl
  all_goals
    intros
    exact lanesF_of_exec_eq_laneOpF fun _ => rfl

end Sys2Proof.Machine
end

section
/-! PROOF. Control of the INT class (06 R122-R128), and the special registers (05 R98). -/

namespace Sys2Proof.Machine

/-! ### Plain control instructions -/

/-- Settles O5: each is an issue whose effect is always performed. -/
theorem plainControlInstructions : Obligations.PlainControlInstructions := by
  refine ⟨?nop, ?yield, ?jhint, ?nap, ?prog, ?trcmark, fun k => ?exit⟩
  case exit =>
    refine does_of_exec_eq_issue _ (fun _ => rfl) fun j s => ?_
    dsimp only
    split
    · rfl
    · rfl
  all_goals
    intros
    exact does_of_exec_eq_issue _ (fun _ => rfl) fun _ _ => rfl

/-! ### Branches (06 R122, 05 R84) -/

/-- Where the members of a branch go, what waits for a bin, and what follows: the four forms differ in their link and in
their targets alone. -/
def BranchGoes (i : Instr) (op : Nat) (k : Ctl) (src dst : List RG) (link : Option Reg) (target : Iss → Lane → W64) : Prop :=
  ∀ (s s1 : State) (q q' : Bundle) (c : Clause) (b : Block), Ready s op k src dst [] q c b →
    let j := issOf s q b op k
    let ts := j.act.map fun x => (x, target j x)
    let ps := branchPlaces j (op == 0x2B) ts
    checkTargets (issued s) b (op == 0x2B) ts = ([], s1) → pairDiverge j ps = [] →
    getBundle (branchEffect j op link ts s1) q.id = some q' →
    (∀ s2, diverge (parkAll j (branchEffect j op link ts s1)) q' b.core ps = some s2 →
      exec i s = .next (parkAll j (branchReenter op ts s2))) ∧
    (diverge (parkAll j (branchEffect j op link ts s1)) q' b.core ps = none →
      ∃ t, branchPart j op link ts ps (issued s) = .stall t ∧ exec i s =
        .next (modBundle (modBlock t b.uid (fun x => { x with arm := b.arm })) q.id (fun x => { x with stalled := true })))

/-- A branch with too few free bins stalls. -/
theorem branchPart_stalls (i : Iss) (op : Nat) (link : Option Reg) (ts : List (Lane × W64))
    (ps : List ((Nat × Nat) × Place)) (s : State) : ∃ t, branchPart i op link ts ps s = .stall t := by
  unfold branchPart
  dsimp only
  split <;> exact ⟨_, rfl⟩

/-- The effect of a branch whose targets pass their checks and whose pairs agree. -/
theorem branchGoes_of_exec_eq_branch {i : Instr} {op : Nat} {k : Ctl} {src dst : List RG} {link : Option Reg}
    {target : Iss → Lane → W64} (h : ∀ s, exec i s = branch op k src dst s link target) :
    BranchGoes i op k src dst link target := by
  intro s s1 q q' c b hready j ts ps htargets hpairs hbundle
  simp only [h, branch, issue_ready hready]
  rw [show checkTargets (issued s) (issOf s q b op k).b (op == 0x2B) _ = ([], s1) from htargets]
  dsimp only
  rw [show pairDiverge (issOf s q b op k) _ = [] from hpairs]
  dsimp only
  rw [show getBundle (branchEffect (issOf s q b op k) op link _ s1) (issOf s q b op k).bun.id = some q' from hbundle]
  dsimp only
  refine ⟨fun s2 hdiverge => ?_, fun hdiverge => ?_⟩
  · rw [show diverge _ q' (issOf s q b op k).b.core _ = some s2 from hdiverge]
    rfl
  · obtain ⟨t, ht⟩ := branchPart_stalls j op link ts ps (issued s)
    rw [show diverge _ q' (issOf s q b op k).b.core _ = none from hdiverge]
    dsimp only
    rw [show branchPart (issOf s q b op k) op link _ _ (issued s) = .stall t from ht]
    exact ⟨t, rfl, rfl⟩

theorem branchGoes_bra (k : Ctl) (t : BitVec 32) :
    BranchGoes (.bra k t) 0x28 k [] [] none fun j _ => j.pc + (t.signExtend 64 <<< 3) :=
  branchGoes_of_exec_eq_branch fun _ => rfl
theorem branchGoes_brx (k : Ctl) (a : Reg) :
    BranchGoes (.brx k a) 0x29 k [r64 a] [] none fun _ x => BitVec.ofNat 64 (x.rd a 64) :=
  branchGoes_of_exec_eq_branch fun _ => rfl
theorem branchGoes_call (k : Ctl) (d : Reg) (t : BitVec 32) :
    BranchGoes (.call k d t) 0x2A k [] [r64 d] (some d) fun j _ => j.pc + (t.signExtend 64 <<< 3) :=
  branchGoes_of_exec_eq_branch fun _ => rfl
theorem branchGoes_ret (k : Ctl) (a : Reg) :
    BranchGoes (.ret k a) 0x2B k [r64 a] [] none fun _ x => BitVec.ofNat 64 (x.rd a 64) :=
  branchGoes_of_exec_eq_branch fun _ => rfl

/-- Settles O10: the four forms are one branch, with its link and its targets. -/
theorem branchesGo : Obligations.BranchesGo :=
  ⟨branchGoes_bra, branchGoes_brx, branchGoes_call, branchGoes_ret⟩

/-! ### Rejoin masks (06 R127, R128) -/

/-- Settles O11: where the condition holds no lane finds a fault, so the mask changes as the effect says. -/
theorem rejoinMasks : Obligations.RejoinMasks := by
  refine ⟨fun k a x => ?rjarm, fun k x => ?rjoin, fun k x => ?rjdrop⟩
  case rjarm =>
    refine doesWhen_of_exec_eq_issue _ (fun _ => rfl) fun s q c b hready hok => ?_
    dsimp only
    rw [lane1_none _ _ fun l hl => if_pos (hok l hl)]
  case rjoin =>
    refine doesWhen_of_exec_eq_issue _ (fun _ => rfl) fun s q c b hready hok => ?_
    dsimp only
    rw [lane1_none _ _ fun l hl => if_neg (hok l hl)]
  case rjdrop => exact does_of_exec_eq_issue _ (fun _ => rfl) fun _ _ => rfl

/-! ### Special registers (05 R98) -/

/-- Settles O13: GETS is always performed, SETS where the pairs agree on the value that MTOL takes. -/
theorem specialRegisters : Obligations.SpecialRegisters := by
  refine ⟨fun k d i => ?gets, fun k a => ?fpflags, fun k a => ?mtol⟩
  case gets => exact does_of_exec_eq_issue _ (fun _ => rfl) fun _ _ => rfl
  case fpflags => exact does_of_exec_eq_issue _ (fun _ => rfl) fun _ _ => rfl
  case mtol =>
    refine doesWhen_of_exec_eq_issue _ (fun _ => rfl) fun s q c b hready hok => ?_
    have hpairs : (if (issOf s q b 0x32 k).b.protectd then operandFaults (issOf s q b 0x32 k).all k [r32 a] else []) = [] := by
      split
      · exact hok ‹_›
      · rfl
    rw [if_neg (by decide), hpairs]
    cases (issOf s q b 0x32 k).act.head? <;> rfl

end Sys2Proof.Machine
end

section
/-! PROOF. The arrival of the gang-collective instructions (05 R85; 06 R118). -/

namespace Sys2Proof.Machine

/-- Every thread of a bundle arrives at a collective and is gathered: the instructions differ in the groups that are read
at completion and in their destination. -/
def Arrives (i : Instr) (op : Nat) (k : Ctl) (src dst : List RG) (mk : Bool) (c : Reg) : Prop :=
  DoesAt i op k (fun _ => if mk then [r32 c] else []) dst src (fun _ _ => True) fun j s =>
    (j.all.filter j.bun.again).foldl (fun s x => tryGather s x.t.blk x.t.gang x.t.lane)
      ((j.all.filter j.bun.again).foldl (fun s x => modThread s x.t.blk x.t.gang x.t.lane (fun t =>
        { t with wait := .gather i j.pc (memberSet x mk c) (x.guard k) })) s)

theorem arrives_of_exec_eq_collective {i : Instr} {op : Nat} {k : Ctl} {src dst : List RG} {mk : Bool} {c : Reg}
    (h : ∀ s, exec i s = collective op k i src dst mk c s) : Arrives i op k src dst mk c :=
  doesAt_of_exec_eq_issue _ _ h fun _ _ _ _ _ _ => rfl

/-- Settles O14: each is the one collective operation. -/
theorem collectivesArrive : Obligations.CollectivesArrive := by
  refine ⟨?perm, ?permx, ?vote, ?elect, ?gred, ?gscan, ?rclaim, ?rgive, ?rtry⟩
  all_goals
    intros
    exact arrives_of_exec_eq_collective fun _ => rfl

end Sys2Proof.Machine
end

section
/-! PROOF. TRAP and BRK (11 R236, R237; 06 TRAP): an instruction with its park bit parks the threads that go to the handler
first, and a parked thread is not filed at a handler that is a reform point. -/

namespace Sys2Proof.Machine

/-- The control bits of an unguarded instruction with its park bit set (02 R31, R34). -/
def parks : Ctl := { gn := false, gi := 63, pk := true }
/-- Where the handler of the counterexample stands. -/
def handlerAt : Nat := 0x20000
/-- A header that is a reform point (02 R20, 05 R80). -/
def reformHeader : Header := { cls := .int, n := 0, rf := true, waits := 0, yl := false }

/-- A thread at a parking TRAP, with a reply outstanding, whose context takes the trap at task level in a handler that is a
reform point. -/
def parkingTrap : State :=
  let s := writeBytes (placeWord State.reset (encode (.trap parks 7))) handlerAt (leBytes 8 (encodeHeader reformHeader).toNat)
  let s := modCtx s 0 fun c => { c with tvec := BitVec.ofNat 64 handlerAt, tdeleg := 7 }
  { s with outst := [⟨9, 0, 2, 0, 0, .en, .reply 5 32 0 none, false, false, 0⟩] }

/-- The bundle, the clause and the block of the counterexample. -/
def trapBundle : Bundle := (getBundle parkingTrap parkingTrap.cur).get (by decide +kernel)
def trapClause : Clause := trapBundle.place.clause.get (by decide +kernel)
def trapBlock : Block := (getBlock parkingTrap trapBundle.blk).get (by decide +kernel)

theorem parkingTrap_ready : Ready parkingTrap 0x30 parks [] [] [] trapBundle trapClause trapBlock where
  bundle := (Option.some_get _).symm
  clause := (Option.some_get _).symm
  block := (Option.some_get _).symm
  order := by decide +kernel
  range := by decide +kernel
  pairs := by decide +kernel
  clean := by decide +kernel
  held := by decide +kernel
  unarmed := by decide +kernel

/-- The bins of the machine after a result. -/
def binsOf (r : Res) : Nat := match r with | .next t => t.bins.length | _ => 0

/-- The thread is parked before it goes to the handler, so it stands there and waits for its result (02 R31): no bin. -/
theorem binsOf_parkingTrap : binsOf (exec (.trap parks 7) parkingTrap) = 0 := by decide +kernel

/-- Refutes O12: the statement's effect sends the thread to its handler unparked, where it is filed at the reform point. -/
theorem not_softTrapsEnter : ¬ Obligations.SoftTrapsEnter := by
  unfold Obligations.SoftTrapsEnter
  intro h
  have heff := h.1 parks 7 parkingTrap trapBundle trapClause trapBlock parkingTrap_ready (by decide +kernel)
  have hbins := binsOf_parkingTrap
  rw [heff] at hbins
  exact absurd hbins (by decide +kernel)

end Sys2Proof.Machine
end

section
/-! PROOF. Encoding a decoded word gives it back (02 R18-R20, R32-R39). -/

namespace Sys2Proof.Laws

/-! ### The fields of a word that decodes -/

theorem bit_bitAt (w : W64) (n : Nat) : bit (bitAt w n) = w.extractLsb' n 1 := by
  apply BitVec.eq_of_getLsbD_eq
  intro i hi
  obtain rfl : i = 0 := by omega
  simp [bit, bitAt]

/-- A field is two fields side by side where each of them is its part of it. -/
theorem append_eq_extract {m n l s : Nat} {x : BitVec m} {y : BitVec n} {w : BitVec l}
    (hx : x = w.extractLsb' (s + n) m) (hy : y = w.extractLsb' s n) : x ++ y = w.extractLsb' s (m + n) := by
  subst hx hy
  exact xl_join w s m n

theorem fmtA_eq {w : W64} {op fn d a b c x : BitVec 8} (ho : opOf w = op) (hf : fn = w.extractLsb' 40 8)
    (hd : d = w.extractLsb' 32 8) (ha : a = w.extractLsb' 24 8) (hb : b = w.extractLsb' 16 8) (hc : c = w.extractLsb' 8 8)
    (hx : x = w.extractLsb' 0 8) : fmtA op (ctlOf w) fn d a b c x = w := by
  subst ho hf hd ha hb hc hx
  exact fmtA_join w
theorem fmtI_eq {w : W64} {op fn d a : BitVec 8} {i : BitVec 24} (ho : opOf w = op) (hf : fn = w.extractLsb' 40 8)
    (hd : d = w.extractLsb' 32 8) (ha : a = w.extractLsb' 24 8) (hi : i = w.extractLsb' 0 24) :
    fmtI op (ctlOf w) fn d a i = w := by
  subst ho hf hd ha hi
  exact fmtI_join w
theorem fmtL_eq {w : W64} {op fn d : BitVec 8} {i : BitVec 32} (ho : opOf w = op) (hf : fn = w.extractLsb' 40 8)
    (hd : d = w.extractLsb' 32 8) (hi : i = w.extractLsb' 0 32) : fmtL op (ctlOf w) fn d i = w := by
  subst ho hf hd hi
  exact fmtL_join w
theorem fmtM_eq {w : W64} {op fn d a : BitVec 8} {bq : BitVec 5} {cp : BitVec 2} {off : BitVec 17} (ho : opOf w = op)
    (hf : fn = w.extractLsb' 40 8) (hd : d = w.extractLsb' 32 8) (ha : a = w.extractLsb' 24 8)
    (hq : bq = w.extractLsb' 19 5) (hc : cp = w.extractLsb' 17 2) (hi : off = w.extractLsb' 0 17) :
    fmtM op (ctlOf w) fn d a bq cp off = w := by
  subst ho hf hd ha hq hc hi
  exact fmtM_join w
theorem fmtMA_eq {w : W64} {op fn d a : BitVec 8} {bq : BitVec 5} {aop : BitVec 4} {off : BitVec 15} (ho : opOf w = op)
    (hf : fn = w.extractLsb' 40 8) (hd : d = w.extractLsb' 32 8) (ha : a = w.extractLsb' 24 8)
    (hq : bq = w.extractLsb' 19 5) (hc : aop = w.extractLsb' 15 4) (hi : off = w.extractLsb' 0 15) :
    fmtMA op (ctlOf w) fn d a bq aop off = w := by
  subst ho hf hd ha hq hc hi
  exact fmtMA_join w

/-- The opcode of a word, from its number. -/
theorem opOf_eq {w : W64} {n : Nat} (h : (opOf w).toNat = n) : opOf w = BitVec.ofNat 8 n := by
  rw [← h, BitVec.ofNat_toNat, BitVec.setWidth_eq]

/-- The bits of a field that the mask covers. -/
theorem zero_field {w v : W64} (hz : w &&& v = 0) {s l : Nat} (hv : v.extractLsb' s l = BitVec.allOnes l := by decide) :
    0#l = w.extractLsb' s l := (xl_zero hz s l hv).symm

/-! ### Row by row: each field of the encoder is the part of the word that the decoder has read -/

theorem encode_decodeInt {w : W64} {i : Instr} (h : decodeInt w (ctlOf w) = some i) : encode i = w := by
  unfold decodeInt at h
  split at h
  · next hop =>
    obtain ⟨hz, rfl⟩ := ifZero_some h
    exact fmtA_eq (opOf_eq hop) (zero_field hz) (zero_field hz) (zero_field hz) (zero_field hz) (zero_field hz)
      (zero_field hz)
  · next hop =>
    obtain ⟨hz, rfl⟩ := ifZero_some h
    exact fmtA_eq (opOf_eq hop) (append_eq_extract (append_eq_extract (append_eq_extract (bit_bitAt _ _) (bit_bitAt _
      _)) (bit_bitAt _ _)) (zero_field hz)) rfl rfl rfl (zero_field hz) (zero_field hz)
  · next hop =>
    obtain ⟨hz, rfl⟩ := ifZero_some h
    exact fmtA_eq (opOf_eq hop) (append_eq_extract (append_eq_extract (append_eq_extract (bit_bitAt _ _) (bit_bitAt _
      _)) (bit_bitAt _ _)) (zero_field hz)) rfl rfl rfl (zero_field hz) (zero_field hz)
  · next hop =>
    obtain ⟨hz, rfl⟩ := ifZero_some h
    exact fmtI_eq (opOf_eq hop) (append_eq_extract (append_eq_extract (append_eq_extract (bit_bitAt _ _) (bit_bitAt _
      _)) (bit_bitAt _ _)) (zero_field hz)) rfl rfl rfl
  · next hop =>
    obtain ⟨hz, rfl⟩ := ifZero_some h
    exact fmtA_eq (opOf_eq hop) (append_eq_extract (append_eq_extract (append_eq_extract (zero_field hz) (bit_bitAt _
      _)) (bit_bitAt _ _)) (zero_field hz)) rfl rfl rfl (zero_field hz) (zero_field hz)
  · next hop =>
    obtain ⟨hz, rfl⟩ := ifZero_some h
    exact fmtA_eq (opOf_eq hop) (append_eq_extract (append_eq_extract (append_eq_extract (bit_bitAt _ _) (bit_bitAt _
      _)) (bit_bitAt _ _)) (zero_field hz)) rfl rfl rfl (zero_field hz) (zero_field hz)
  · next hop =>
    obtain ⟨hz, rfl⟩ := ifZero_some h
    exact fmtA_eq (opOf_eq hop) (append_eq_extract (append_eq_extract (bit_bitAt _ _) (bit_bitAt _ _)) (zero_field
      hz)) rfl rfl rfl (zero_field hz) (zero_field hz)
  · next hop =>
    obtain ⟨hz, rfl⟩ := ifZero_some h
    exact fmtA_eq (opOf_eq hop) (append_eq_extract (append_eq_extract (append_eq_extract (bit_bitAt _ _) (bit_bitAt _
      _)) (bit_bitAt _ _)) (zero_field hz)) rfl rfl rfl rfl (zero_field hz)
  · next hop =>
    obtain ⟨hz, rfl⟩ := ifZero_some h
    exact fmtA_eq (opOf_eq hop) (append_eq_extract (append_eq_extract (append_eq_extract (zero_field hz) (bit_bitAt _
      _)) (bit_bitAt _ _)) (zero_field hz)) rfl rfl rfl rfl (zero_field hz)
  · next hop =>
    obtain ⟨hz, rfl⟩ := ifZero_some h
    exact fmtA_eq (opOf_eq hop) (append_eq_extract (append_eq_extract (bit_bitAt _ _) (bit_bitAt _ _)) (zero_field
      hz)) rfl rfl rfl (zero_field hz) (zero_field hz)
  · next hop =>
    obtain ⟨hz, rfl⟩ := ifZero_some h
    exact fmtA_eq (opOf_eq hop) (append_eq_extract (append_eq_extract (bit_bitAt _ _) (bit_bitAt _ _)) (zero_field
      hz)) rfl rfl rfl (zero_field hz) (zero_field hz)
  · next hop =>
    obtain ⟨hz, rfl⟩ := ifZero_some h
    exact fmtA_eq (opOf_eq hop) (append_eq_extract (append_eq_extract (bit_bitAt _ _) (bit_bitAt _ _)) (zero_field
      hz)) rfl rfl rfl (zero_field hz) (zero_field hz)
  · next hop =>
    obtain ⟨hz, rfl⟩ := ifZero_some h
    exact fmtA_eq (opOf_eq hop) (append_eq_extract (append_eq_extract (bit_bitAt _ _) (bit_bitAt _ _)) (zero_field
      hz)) rfl rfl rfl (zero_field hz) (zero_field hz)
  · next hop =>
    obtain ⟨hz, rfl⟩ := ifZero_some h
    exact fmtA_eq (opOf_eq hop) (append_eq_extract (append_eq_extract (bit_bitAt _ _) (bit_bitAt _ _)) (zero_field
      hz)) rfl rfl rfl (zero_field hz) (zero_field hz)
  · next hop =>
    obtain ⟨hz, rfl⟩ := ifZero_some h
    exact fmtA_eq (opOf_eq hop) (append_eq_extract (bit_bitAt _ _) (zero_field hz)) rfl rfl rfl rfl rfl
  · next hop =>
    obtain ⟨hz, rfl⟩ := ifZero_some h
    exact fmtA_eq (opOf_eq hop) (append_eq_extract (append_eq_extract (append_eq_extract (bit_bitAt _ _) (zero_field
      hz)) (bit_bitAt _ _)) (zero_field hz)) rfl rfl rfl (zero_field hz) rfl
  · next hop =>
    obtain ⟨hz, rfl⟩ := ifZero_some h
    exact fmtA_eq (opOf_eq hop) (append_eq_extract (append_eq_extract (append_eq_extract (append_eq_extract
      (bit_bitAt _ _) (bit_bitAt _ _)) (zero_field hz)) (bit_bitAt _ _)) (zero_field hz)) rfl rfl rfl (zero_field hz)
        rfl
  · next hop =>
    obtain ⟨hz, rfl⟩ := ifZero_some h
    exact fmtA_eq (opOf_eq hop) (append_eq_extract (append_eq_extract (zero_field hz) (bit_bitAt _ _)) (zero_field
      hz)) rfl rfl rfl rfl rfl
  · next hop =>
    obtain ⟨hz, rfl⟩ := ifZero_some h
    exact fmtA_eq (opOf_eq hop) (append_eq_extract (append_eq_extract (zero_field hz) (bit_bitAt _ _)) (zero_field
      hz)) rfl rfl rfl rfl rfl
  · next hop =>
    obtain ⟨hz, rfl⟩ := ifZero_some h
    exact fmtA_eq (opOf_eq hop) (append_eq_extract (append_eq_extract (append_eq_extract (append_eq_extract
      (bit_bitAt _ _) (bit_bitAt _ _)) (zero_field hz)) (bit_bitAt _ _)) (zero_field hz)) rfl rfl (zero_field hz) rfl
        rfl
  · next hop =>
    obtain ⟨hz, rfl⟩ := ifZero_some h
    exact fmtA_eq (opOf_eq hop) (append_eq_extract (append_eq_extract (append_eq_extract (bit_bitAt _ _) (zero_field
      hz)) (bit_bitAt _ _)) (zero_field hz)) rfl rfl rfl rfl rfl
  · next hop =>
    obtain ⟨hz, rfl⟩ := ifZero_some h
    exact fmtA_eq (opOf_eq hop) (append_eq_extract (bit_bitAt _ _) (zero_field hz)) rfl rfl (zero_field hz)
      (zero_field hz) (zero_field hz)
  · next hop =>
    obtain ⟨hz, rfl⟩ := ifZero_some h
    exact fmtA_eq (opOf_eq hop) (append_eq_extract (bit_bitAt _ _) (zero_field hz)) rfl rfl (zero_field hz)
      (zero_field hz) (zero_field hz)
  · next hop =>
    obtain ⟨hz, rfl⟩ := ifZero_some h
    exact fmtA_eq (opOf_eq hop) (append_eq_extract (bit_bitAt _ _) (zero_field hz)) rfl rfl (zero_field hz)
      (zero_field hz) (zero_field hz)
  · next hop =>
    obtain ⟨hz, rfl⟩ := ifZero_some h
    exact fmtA_eq (opOf_eq hop) (append_eq_extract (bit_bitAt _ _) (zero_field hz)) rfl rfl (zero_field hz)
      (zero_field hz) (zero_field hz)
  · next hop =>
    obtain ⟨hz, rfl⟩ := ifZero_some h
    exact fmtA_eq (opOf_eq hop) (append_eq_extract (bit_bitAt _ _) (zero_field hz)) rfl rfl rfl (zero_field hz) rfl
  · next hop =>
    obtain ⟨hz, rfl⟩ := ifZero_some h
    exact fmtA_eq (opOf_eq hop) (append_eq_extract rfl (zero_field hz)) rfl rfl (zero_field hz) (zero_field hz)
      (zero_field hz)
  · next hop =>
    obtain ⟨hz, rfl⟩ := ifZero_some h
    exact fmtL_eq (opOf_eq hop) (append_eq_extract rfl (zero_field hz)) rfl rfl
  · next hop =>
    obtain ⟨hz, rfl⟩ := ifZero_some h
    exact fmtA_eq (opOf_eq hop) (append_eq_extract (append_eq_extract (append_eq_extract (append_eq_extract
      (bit_bitAt _ _) (bit_bitAt _ _)) rfl) rfl) (zero_field hz)) rfl rfl rfl (zero_field hz) (zero_field hz)
  · next hop =>
    obtain ⟨hz, rfl⟩ := ifZero_some h
    exact fmtI_eq (opOf_eq hop) (append_eq_extract (append_eq_extract (append_eq_extract (append_eq_extract
      (bit_bitAt _ _) (bit_bitAt _ _)) rfl) rfl) (zero_field hz)) rfl rfl rfl
  · next hop =>
    obtain ⟨hz, rfl⟩ := ifZero_some h
    exact fmtA_eq (opOf_eq hop) (zero_field hz) rfl rfl rfl rfl rfl
  · next hop =>
    obtain ⟨hz, rfl⟩ := ifZero_some h
    exact fmtA_eq (opOf_eq hop) (zero_field hz) rfl (zero_field hz) (zero_field hz) (zero_field hz) rfl
  · next hop =>
    obtain ⟨hz, rfl⟩ := ifZero_some h
    exact fmtA_eq (opOf_eq hop) (zero_field hz) (zero_field hz) rfl rfl (zero_field hz) rfl
  · next hop =>
    obtain ⟨hz, rfl⟩ := ifZero_some h
    exact fmtA_eq (opOf_eq hop) (append_eq_extract (append_eq_extract (append_eq_extract (append_eq_extract
      (bit_bitAt _ _) (zero_field hz)) (bit_bitAt _ _)) rfl) (zero_field hz)) rfl rfl rfl rfl rfl
  · next hop =>
    obtain ⟨hz, rfl⟩ := ifZero_some h
    exact fmtA_eq (opOf_eq hop) (append_eq_extract (append_eq_extract (zero_field hz) (bit_bitAt _ _)) (zero_field
      hz)) rfl rfl rfl rfl rfl
  · next hop =>
    obtain ⟨hz, rfl⟩ := ifZero_some h
    exact fmtA_eq (opOf_eq hop) (append_eq_extract (append_eq_extract (append_eq_extract (zero_field hz) (bit_bitAt _
      _)) rfl) (zero_field hz)) rfl rfl (zero_field hz) rfl (zero_field hz)
  · next hop =>
    obtain ⟨hz, rfl⟩ := ifZero_some h
    exact fmtA_eq (opOf_eq hop) (append_eq_extract (append_eq_extract (zero_field hz) (bit_bitAt _ _)) (zero_field
      hz)) rfl (zero_field hz) (zero_field hz) rfl (zero_field hz)
  · next hop =>
    obtain ⟨hz, rfl⟩ := ifZero_some h
    exact fmtA_eq (opOf_eq hop) (append_eq_extract (append_eq_extract (append_eq_extract (append_eq_extract
      (append_eq_extract (bit_bitAt _ _) (bit_bitAt _ _)) (zero_field hz)) (bit_bitAt _ _)) rfl) (zero_field hz)) rfl
        rfl (zero_field hz) rfl (zero_field hz)
  · next hop =>
    obtain ⟨hz, rfl⟩ := ifZero_some h
    exact fmtA_eq (opOf_eq hop) (append_eq_extract (append_eq_extract (append_eq_extract (append_eq_extract
      (append_eq_extract (bit_bitAt _ _) (bit_bitAt _ _)) (zero_field hz)) (bit_bitAt _ _)) rfl) (bit_bitAt _ _)) rfl
        rfl (zero_field hz) rfl (zero_field hz)
  · next hop =>
    obtain ⟨hz, rfl⟩ := ifZero_some h
    exact fmtL_eq (opOf_eq hop) (zero_field hz) (zero_field hz) rfl
  · next hop =>
    obtain ⟨hz, rfl⟩ := ifZero_some h
    exact fmtA_eq (opOf_eq hop) (zero_field hz) (zero_field hz) rfl (zero_field hz) (zero_field hz) (zero_field hz)
  · next hop =>
    obtain ⟨hz, rfl⟩ := ifZero_some h
    exact fmtL_eq (opOf_eq hop) (zero_field hz) rfl rfl
  · next hop =>
    obtain ⟨hz, rfl⟩ := ifZero_some h
    exact fmtA_eq (opOf_eq hop) (zero_field hz) (zero_field hz) rfl (zero_field hz) (zero_field hz) (zero_field hz)
  · next hop =>
    obtain ⟨hz, rfl⟩ := ifZero_some h
    exact fmtA_eq (opOf_eq hop) (zero_field hz) (zero_field hz) rfl (zero_field hz) (zero_field hz) rfl
  · next hop =>
    obtain ⟨hz, rfl⟩ := ifZero_some h
    exact fmtA_eq (opOf_eq hop) (zero_field hz) (zero_field hz) (zero_field hz) (zero_field hz) (zero_field hz) rfl
  · next hop =>
    obtain ⟨hz, rfl⟩ := ifZero_some h
    exact fmtA_eq (opOf_eq hop) (zero_field hz) (zero_field hz) (zero_field hz) (zero_field hz) (zero_field hz) rfl
  · next hop =>
    obtain ⟨hz, rfl⟩ := ifZero_some h
    exact fmtA_eq (opOf_eq hop) (zero_field hz) (zero_field hz) (zero_field hz) (zero_field hz) (zero_field hz)
      (zero_field hz)
  · next hop =>
    obtain ⟨hz, rfl⟩ := ifZero_some h
    exact fmtI_eq (opOf_eq hop) (zero_field hz) (zero_field hz) (zero_field hz) rfl
  · next hop =>
    obtain ⟨hz, rfl⟩ := ifZero_some h
    exact fmtI_eq (opOf_eq hop) (zero_field hz) rfl (zero_field hz) rfl
  · next hop =>
    obtain ⟨hz, rfl⟩ := ifZero_some h
    exact fmtI_eq (opOf_eq hop) (zero_field hz) (zero_field hz) rfl rfl
  · next hop =>
    obtain ⟨hz, rfl⟩ := ifZero_some h
    exact fmtI_eq (opOf_eq hop) (zero_field hz) (zero_field hz) (zero_field hz) rfl
  · next hop =>
    obtain ⟨hz, rfl⟩ := ifZero_some h
    exact fmtI_eq (opOf_eq hop) (zero_field hz) (zero_field hz) (zero_field hz) rfl
  · next hop =>
    obtain ⟨hz, rfl⟩ := ifZero_some h
    exact fmtI_eq (opOf_eq hop) (zero_field hz) rfl (zero_field hz) rfl
  · next hop =>
    obtain ⟨hz, rfl⟩ := ifZero_some h
    exact fmtA_eq (opOf_eq hop) (zero_field hz) (zero_field hz) (zero_field hz) (zero_field hz) (zero_field hz)
      (zero_field hz)
  · next hop =>
    obtain ⟨hz, rfl⟩ := ifZero_some h
    exact fmtI_eq (opOf_eq hop) (zero_field hz) (zero_field hz) (zero_field hz) rfl
  · next hop =>
    obtain ⟨hz, rfl⟩ := ifZero_some h
    exact fmtI_eq (opOf_eq hop) (zero_field hz) (zero_field hz) (zero_field hz) rfl
  · next hop =>
    obtain ⟨hz, rfl⟩ := ifZero_some h
    exact fmtI_eq (opOf_eq hop) (zero_field hz) (zero_field hz) (zero_field hz) rfl
  · next hop =>
    obtain ⟨hz, rfl⟩ := ifZero_some h
    exact fmtI_eq (opOf_eq hop) (zero_field hz) (zero_field hz) rfl rfl
  · next hop =>
    obtain ⟨hz, rfl⟩ := ifZero_some h
    exact fmtA_eq (opOf_eq hop) (zero_field hz) rfl rfl rfl (zero_field hz) (zero_field hz)
  · next hop =>
    obtain ⟨hz, rfl⟩ := ifZero_some h
    exact fmtA_eq (opOf_eq hop) (zero_field hz) rfl rfl rfl (zero_field hz) (zero_field hz)
  · cases h

theorem encode_decodeVec {w : W64} {i : Instr} (h : decodeVec w (ctlOf w) = some i) : encode i = w := by
  unfold decodeVec at h
  split at h
  · next hop =>
    obtain ⟨hz, rfl⟩ := ifZero_some h
    exact fmtA_eq (opOf_eq hop) (append_eq_extract (append_eq_extract (append_eq_extract rfl (bit_bitAt _ _))
      (bit_bitAt _ _)) (zero_field hz)) rfl rfl rfl (zero_field hz) (zero_field hz)
  · next hop =>
    obtain ⟨hz, rfl⟩ := ifZero_some h
    exact fmtA_eq (opOf_eq hop) (append_eq_extract (append_eq_extract rfl (bit_bitAt _ _)) (zero_field hz)) rfl rfl
      rfl (zero_field hz) (zero_field hz)
  · next hop =>
    obtain ⟨hz, rfl⟩ := ifZero_some h
    exact fmtA_eq (opOf_eq hop) (append_eq_extract (append_eq_extract (append_eq_extract rfl (bit_bitAt _ _))
      (bit_bitAt _ _)) (zero_field hz)) rfl rfl rfl rfl (zero_field hz)
  · next hop =>
    obtain ⟨hz, rfl⟩ := ifZero_some h
    exact fmtA_eq (opOf_eq hop) (zero_field hz) rfl rfl rfl (zero_field hz) (zero_field hz)
  · next hop =>
    obtain ⟨hz, rfl⟩ := ifZero_some h
    exact fmtA_eq (opOf_eq hop) (zero_field hz) rfl rfl rfl (zero_field hz) (zero_field hz)
  · next hop =>
    obtain ⟨hz, rfl⟩ := ifZero_some h
    exact fmtA_eq (opOf_eq hop) (append_eq_extract (append_eq_extract (append_eq_extract (zero_field hz) rfl) rfl)
      (zero_field hz)) rfl rfl rfl (zero_field hz) (zero_field hz)
  · next hop =>
    obtain ⟨hz, rfl⟩ := ifZero_some h
    exact fmtA_eq (opOf_eq hop) (append_eq_extract rfl (zero_field hz)) rfl rfl rfl (zero_field hz) (zero_field hz)
  · next hop =>
    obtain ⟨hz, rfl⟩ := ifZero_some h
    exact fmtA_eq (opOf_eq hop) (append_eq_extract rfl (zero_field hz)) rfl rfl (zero_field hz) (zero_field hz)
      (zero_field hz)
  · next hop =>
    obtain ⟨hz, rfl⟩ := ifZero_some h
    exact fmtA_eq (opOf_eq hop) (append_eq_extract rfl (zero_field hz)) rfl rfl (zero_field hz) (zero_field hz)
      (zero_field hz)
  · next hop =>
    obtain ⟨hz, rfl⟩ := ifZero_some h
    exact fmtA_eq (opOf_eq hop) (append_eq_extract rfl (zero_field hz)) rfl rfl (zero_field hz) (zero_field hz)
      (zero_field hz)
  · next hop =>
    obtain ⟨hz, rfl⟩ := ifZero_some h
    exact fmtA_eq (opOf_eq hop) (append_eq_extract rfl (zero_field hz)) rfl rfl (zero_field hz) (zero_field hz)
      (zero_field hz)
  · next hop =>
    obtain ⟨hz, rfl⟩ := ifZero_some h
    exact fmtA_eq (opOf_eq hop) (append_eq_extract rfl (zero_field hz)) rfl rfl (zero_field hz) (zero_field hz)
      (zero_field hz)
  · next hop =>
    obtain ⟨hz, rfl⟩ := ifZero_some h
    exact fmtA_eq (opOf_eq hop) (append_eq_extract rfl (zero_field hz)) rfl rfl (zero_field hz) (zero_field hz)
      (zero_field hz)
  · next hop =>
    obtain ⟨hz, rfl⟩ := ifZero_some h
    exact fmtA_eq (opOf_eq hop) (append_eq_extract rfl (zero_field hz)) rfl rfl (zero_field hz) (zero_field hz)
      (zero_field hz)
  · next hop =>
    obtain ⟨hz, rfl⟩ := ifZero_some h
    exact fmtA_eq (opOf_eq hop) (append_eq_extract rfl (zero_field hz)) rfl rfl (zero_field hz) (zero_field hz)
      (zero_field hz)
  · next hop =>
    obtain ⟨hz, rfl⟩ := ifZero_some h
    exact fmtA_eq (opOf_eq hop) (append_eq_extract rfl (zero_field hz)) rfl rfl rfl (zero_field hz) (zero_field hz)
  · next hop =>
    obtain ⟨hz, rfl⟩ := ifZero_some h
    exact fmtA_eq (opOf_eq hop) (append_eq_extract (append_eq_extract rfl (bit_bitAt _ _)) (zero_field hz)) rfl rfl
      rfl (zero_field hz) (zero_field hz)
  · next hop =>
    obtain ⟨hz, rfl⟩ := ifZero_some h
    exact fmtA_eq (opOf_eq hop) (append_eq_extract (append_eq_extract rfl (bit_bitAt _ _)) (zero_field hz)) rfl rfl
      rfl (zero_field hz) (zero_field hz)
  · next hop =>
    obtain ⟨hz, rfl⟩ := ifZero_some h
    exact fmtA_eq (opOf_eq hop) (append_eq_extract (append_eq_extract rfl (bit_bitAt _ _)) (zero_field hz)) rfl rfl
      rfl rfl (zero_field hz)
  · next hop =>
    obtain ⟨hz, rfl⟩ := ifZero_some h
    exact fmtA_eq (opOf_eq hop) (append_eq_extract (append_eq_extract (append_eq_extract (zero_field hz) (bit_bitAt _
      _)) (bit_bitAt _ _)) (zero_field hz)) rfl rfl rfl (zero_field hz) (zero_field hz)
  · next hop =>
    obtain ⟨hz, rfl⟩ := ifZero_some h
    exact fmtA_eq (opOf_eq hop) (append_eq_extract (append_eq_extract rfl rfl) rfl) rfl rfl (zero_field hz)
      (zero_field hz) rfl
  · next hop =>
    obtain ⟨hz, rfl⟩ := ifZero_some h
    exact fmtA_eq (opOf_eq hop) (append_eq_extract (append_eq_extract rfl (bit_bitAt _ _)) (zero_field hz)) rfl rfl
      rfl (zero_field hz) (zero_field hz)
  · next hop =>
    obtain ⟨hz, rfl⟩ := ifZero_some h
    exact fmtA_eq (opOf_eq hop) (append_eq_extract (append_eq_extract (append_eq_extract (append_eq_extract rfl rfl)
      (bit_bitAt _ _)) (zero_field hz)) (bit_bitAt _ _)) rfl rfl (zero_field hz) rfl rfl
  · next hop =>
    obtain ⟨hz, rfl⟩ := ifZero_some h
    exact fmtA_eq (opOf_eq hop) (append_eq_extract (append_eq_extract (append_eq_extract rfl rfl) (zero_field hz))
      (bit_bitAt _ _)) rfl rfl rfl rfl rfl
  · next hop =>
    obtain ⟨hz, rfl⟩ := ifZero_some h
    exact fmtA_eq (opOf_eq hop) (append_eq_extract (append_eq_extract (append_eq_extract rfl rfl) (zero_field hz))
      (bit_bitAt _ _)) rfl rfl (zero_field hz) rfl rfl
  · next hop =>
    obtain ⟨hz, rfl⟩ := ifZero_some h
    exact fmtA_eq (opOf_eq hop) (zero_field hz) rfl rfl rfl rfl (zero_field hz)
  · next hop =>
    obtain ⟨hz, rfl⟩ := ifZero_some h
    exact fmtA_eq (opOf_eq hop) (zero_field hz) rfl rfl rfl rfl (zero_field hz)
  · next hop =>
    obtain ⟨hz, rfl⟩ := ifZero_some h
    exact fmtA_eq (opOf_eq hop) (append_eq_extract rfl (zero_field hz)) rfl rfl rfl rfl (zero_field hz)
  · next hop =>
    obtain ⟨hz, rfl⟩ := ifZero_some h
    exact fmtA_eq (opOf_eq hop) (append_eq_extract rfl (zero_field hz)) rfl rfl rfl rfl (zero_field hz)
  · next hop =>
    obtain ⟨hz, rfl⟩ := ifZero_some h
    exact fmtA_eq (opOf_eq hop) (zero_field hz) rfl rfl rfl rfl (zero_field hz)
  · next hop =>
    obtain ⟨hz, rfl⟩ := ifZero_some h
    exact fmtA_eq (opOf_eq hop) (append_eq_extract rfl (zero_field hz)) rfl rfl rfl rfl (zero_field hz)
  · next hop =>
    obtain ⟨hz, rfl⟩ := ifZero_some h
    exact fmtA_eq (opOf_eq hop) (append_eq_extract rfl (zero_field hz)) rfl rfl rfl rfl rfl
  · next hop =>
    obtain ⟨hz, rfl⟩ := ifZero_some h
    exact fmtA_eq (opOf_eq hop) (append_eq_extract rfl (zero_field hz)) rfl rfl rfl rfl rfl
  · next hop =>
    obtain ⟨hz, rfl⟩ := ifZero_some h
    exact fmtA_eq (opOf_eq hop) (append_eq_extract rfl (zero_field hz)) rfl rfl rfl rfl rfl
  · next hop =>
    obtain ⟨hz, rfl⟩ := ifZero_some h
    exact fmtA_eq (opOf_eq hop) (append_eq_extract rfl (zero_field hz)) rfl rfl rfl rfl rfl
  · next hop =>
    obtain ⟨hz, rfl⟩ := ifZero_some h
    exact fmtA_eq (opOf_eq hop) (append_eq_extract rfl (zero_field hz)) rfl rfl rfl rfl (zero_field hz)
  · next hop =>
    obtain ⟨hz, rfl⟩ := ifZero_some h
    exact fmtA_eq (opOf_eq hop) (append_eq_extract rfl (zero_field hz)) rfl rfl rfl rfl (zero_field hz)
  · cases h

theorem encode_decodeMem {w : W64} {i : Instr} (h : decodeMem w (ctlOf w) = some i) : encode i = w := by
  unfold decodeMem at h
  split at h
  · next hop =>
    obtain ⟨hz, rfl⟩ := ifZero_some h
    exact fmtM_eq (opOf_eq hop) (append_eq_extract (append_eq_extract rfl rfl) rfl) rfl rfl rfl rfl rfl
  · next hop =>
    obtain ⟨hz, rfl⟩ := ifZero_some h
    exact fmtM_eq (opOf_eq hop) (append_eq_extract (append_eq_extract rfl rfl) rfl) rfl rfl rfl rfl rfl
  · next hop =>
    obtain ⟨hz, rfl⟩ := ifZero_some h
    exact fmtMA_eq (opOf_eq hop) (append_eq_extract (append_eq_extract rfl rfl) rfl) rfl rfl rfl rfl rfl
  · next hop =>
    obtain ⟨hz, rfl⟩ := ifZero_some h
    exact fmtMA_eq (opOf_eq hop) (append_eq_extract (append_eq_extract rfl rfl) rfl) rfl rfl rfl rfl rfl
  · next hop =>
    obtain ⟨hz, rfl⟩ := ifZero_some h
    exact fmtM_eq (opOf_eq hop) (append_eq_extract (append_eq_extract rfl rfl) rfl) rfl rfl rfl rfl rfl
  · next hop =>
    obtain ⟨hz, rfl⟩ := ifZero_some h
    exact fmtM_eq (opOf_eq hop) (append_eq_extract (append_eq_extract rfl rfl) (zero_field hz)) (zero_field hz)
      (zero_field hz) (zero_field hz) (zero_field hz) (zero_field hz)
  · next hop =>
    obtain ⟨hz, rfl⟩ := ifZero_some h
    exact fmtM_eq (opOf_eq hop) (append_eq_extract (append_eq_extract (zero_field hz) rfl) (zero_field hz))
      (zero_field hz) (zero_field hz) (zero_field hz) (zero_field hz) (zero_field hz)
  · next hop =>
    obtain ⟨hz, rfl⟩ := ifZero_some h
    exact fmtA_eq (opOf_eq hop) (zero_field hz) rfl rfl (zero_field hz) (zero_field hz) (zero_field hz)
  · next hop =>
    obtain ⟨hz, rfl⟩ := ifZero_some h
    exact fmtA_eq (opOf_eq hop) (zero_field hz) rfl rfl (zero_field hz) (zero_field hz) (zero_field hz)
  · next hop =>
    obtain ⟨hz, rfl⟩ := ifZero_some h
    exact fmtM_eq (opOf_eq hop) (append_eq_extract (zero_field hz) rfl) (zero_field hz) rfl rfl rfl rfl
  · cases h

theorem encode_decodeSync {w : W64} {i : Instr} (h : decodeSync w (ctlOf w) = some i) : encode i = w := by
  unfold decodeSync at h
  split at h
  · next hop =>
    obtain ⟨hz, rfl⟩ := ifZero_some h
    exact fmtA_eq (opOf_eq hop) (append_eq_extract (bit_bitAt _ _) (zero_field hz)) rfl rfl rfl rfl (zero_field hz)
  · next hop =>
    obtain ⟨hz, rfl⟩ := ifZero_some h
    exact fmtA_eq (opOf_eq hop) (append_eq_extract (bit_bitAt _ _) (zero_field hz)) rfl rfl (zero_field hz)
      (zero_field hz) (zero_field hz)
  · next hop =>
    obtain ⟨hz, rfl⟩ := ifZero_some h
    exact fmtA_eq (opOf_eq hop) (append_eq_extract (bit_bitAt _ _) (zero_field hz)) rfl rfl (zero_field hz)
      (zero_field hz) (zero_field hz)
  · next hop =>
    obtain ⟨hz, rfl⟩ := ifZero_some h
    exact fmtA_eq (opOf_eq hop) (append_eq_extract (bit_bitAt _ _) (zero_field hz)) rfl rfl rfl (zero_field hz)
      (zero_field hz)
  · next hop =>
    obtain ⟨hz, rfl⟩ := ifZero_some h
    exact fmtA_eq (opOf_eq hop) (append_eq_extract (bit_bitAt _ _) (zero_field hz)) rfl rfl (zero_field hz)
      (zero_field hz) (zero_field hz)
  · next hop =>
    obtain ⟨hz, rfl⟩ := ifZero_some h
    exact fmtA_eq (opOf_eq hop) (append_eq_extract (bit_bitAt _ _) (zero_field hz)) rfl rfl (zero_field hz)
      (zero_field hz) (zero_field hz)
  · next hop =>
    obtain ⟨hz, rfl⟩ := ifZero_some h
    exact fmtA_eq (opOf_eq hop) (append_eq_extract (bit_bitAt _ _) (zero_field hz)) rfl rfl (zero_field hz)
      (zero_field hz) (zero_field hz)
  · next hop =>
    obtain ⟨hz, rfl⟩ := ifZero_some h
    exact fmtA_eq (opOf_eq hop) (append_eq_extract (bit_bitAt _ _) (zero_field hz)) rfl rfl (zero_field hz)
      (zero_field hz) rfl
  · next hop =>
    split at h
    · next hc =>
      obtain ⟨hz, rfl⟩ := ifZero_some h
      exact fmtA_eq (opOf_eq hop) (append_eq_extract (append_eq_extract (zero_field hz) (eq_of_beq hc).symm)
        (zero_field hz)) rfl rfl (zero_field hz) (zero_field hz) (zero_field hz)
    split at h
    · next hc =>
      obtain ⟨hz, rfl⟩ := ifZero_some h
      exact fmtA_eq (opOf_eq hop) (append_eq_extract (append_eq_extract (zero_field hz) (eq_of_beq hc).symm)
        (zero_field hz)) rfl rfl (zero_field hz) (zero_field hz) (zero_field hz)
    cases h
  · next hop =>
    obtain ⟨hz, rfl⟩ := ifZero_some h
    exact fmtA_eq (opOf_eq hop) (append_eq_extract (append_eq_extract (zero_field hz) (bit_bitAt _ _)) (zero_field
      hz)) rfl rfl (zero_field hz) (zero_field hz) (zero_field hz)
  · next hop =>
    obtain ⟨hz, rfl⟩ := ifZero_some h
    exact fmtA_eq (opOf_eq hop) (zero_field hz) (zero_field hz) rfl rfl rfl (zero_field hz)
  · next hop =>
    obtain ⟨hz, rfl⟩ := ifZero_some h
    exact fmtA_eq (opOf_eq hop) (append_eq_extract (append_eq_extract (zero_field hz) (bit_bitAt _ _)) (zero_field
      hz)) rfl rfl (zero_field hz) (zero_field hz) (zero_field hz)
  · next hop =>
    obtain ⟨hz, rfl⟩ := ifZero_some h
    exact fmtA_eq (opOf_eq hop) (zero_field hz) (zero_field hz) rfl rfl (zero_field hz) (zero_field hz)
  · cases h

theorem encode_decodeCopy {w : W64} {i : Instr} (h : decodeCopy w (ctlOf w) = some i) : encode i = w := by
  unfold decodeCopy at h
  split at h
  · next hop =>
    obtain ⟨hz, rfl⟩ := ifZero_some h
    exact fmtA_eq (opOf_eq hop) (append_eq_extract (append_eq_extract (append_eq_extract rfl rfl) (bit_bitAt _ _))
      (zero_field hz)) rfl rfl rfl rfl rfl
  · next hop =>
    obtain ⟨hz, rfl⟩ := ifZero_some h
    exact fmtA_eq (opOf_eq hop) (append_eq_extract (append_eq_extract (append_eq_extract rfl rfl) (bit_bitAt _ _))
      (zero_field hz)) rfl rfl rfl rfl rfl
  · next hop =>
    obtain ⟨hz, rfl⟩ := ifZero_some h
    exact fmtA_eq (opOf_eq hop) (append_eq_extract (append_eq_extract (append_eq_extract rfl rfl) (bit_bitAt _ _))
      (zero_field hz)) rfl rfl rfl rfl rfl
  · next hop =>
    obtain ⟨hz, rfl⟩ := ifZero_some h
    exact fmtA_eq (opOf_eq hop) (append_eq_extract (append_eq_extract (append_eq_extract rfl rfl) (bit_bitAt _ _))
      (zero_field hz)) rfl rfl rfl rfl rfl
  · next hop =>
    obtain ⟨hz, rfl⟩ := ifZero_some h
    exact fmtA_eq (opOf_eq hop) (zero_field hz) rfl (zero_field hz) (zero_field hz) (zero_field hz) (zero_field hz)
  · next hop =>
    obtain ⟨hz, rfl⟩ := ifZero_some h
    exact fmtA_eq (opOf_eq hop) (zero_field hz) rfl rfl (zero_field hz) (zero_field hz) (zero_field hz)
  · next hop =>
    obtain ⟨hz, rfl⟩ := ifZero_some h
    exact fmtA_eq (opOf_eq hop) (zero_field hz) rfl (zero_field hz) (zero_field hz) (zero_field hz) (zero_field hz)
  · cases h

theorem encode_decodeMtx {w : W64} {i : Instr} (h : decodeMtx w (ctlOf w) = some i) : encode i = w := by
  unfold decodeMtx at h
  split at h
  · next hop =>
    obtain ⟨hz, rfl⟩ := ifZero_some h
    exact fmtA_eq (opOf_eq hop) (append_eq_extract (append_eq_extract rfl (bit_bitAt _ _)) (zero_field hz)) rfl rfl
      rfl (zero_field hz) (zero_field hz)
  · next hop =>
    obtain ⟨hz, rfl⟩ := ifZero_some h
    exact fmtA_eq (opOf_eq hop) (append_eq_extract rfl (zero_field hz)) rfl rfl rfl (zero_field hz) (zero_field hz)
  · next hop =>
    obtain ⟨hz, rfl⟩ := ifZero_some h
    exact fmtA_eq (opOf_eq hop) (zero_field hz) rfl (zero_field hz) (zero_field hz) (zero_field hz) (zero_field hz)
  · next hop =>
    obtain ⟨hz, rfl⟩ := ifZero_some h
    exact fmtA_eq (opOf_eq hop) (zero_field hz) rfl rfl (zero_field hz) (zero_field hz) (zero_field hz)
  · next hop =>
    obtain ⟨hz, rfl⟩ := ifZero_some h
    exact fmtA_eq (opOf_eq hop) (append_eq_extract (bit_bitAt _ _) (zero_field hz)) rfl (zero_field hz) (zero_field
      hz) (zero_field hz) (zero_field hz)
  · next hop =>
    obtain ⟨hz, rfl⟩ := ifZero_some h
    exact fmtA_eq (opOf_eq hop) (append_eq_extract (append_eq_extract (append_eq_extract (append_eq_extract
      (bit_bitAt _ _) (bit_bitAt _ _)) (bit_bitAt _ _)) rfl) (zero_field hz)) (zero_field hz) rfl rfl rfl rfl
  · next hop =>
    obtain ⟨hz, rfl⟩ := ifZero_some h
    exact fmtA_eq (opOf_eq hop) (append_eq_extract (append_eq_extract (append_eq_extract (append_eq_extract
      (bit_bitAt _ _) (bit_bitAt _ _)) (bit_bitAt _ _)) rfl) (zero_field hz)) (zero_field hz) rfl rfl rfl rfl
  · next hop =>
    obtain ⟨hz, rfl⟩ := ifZero_some h
    exact fmtA_eq (opOf_eq hop) (append_eq_extract (append_eq_extract (append_eq_extract (append_eq_extract
      (bit_bitAt _ _) (bit_bitAt _ _)) (bit_bitAt _ _)) rfl) (zero_field hz)) (zero_field hz) rfl rfl rfl rfl
  · next hop =>
    obtain ⟨hz, rfl⟩ := ifZero_some h
    exact fmtA_eq (opOf_eq hop) (append_eq_extract (append_eq_extract (append_eq_extract (append_eq_extract
      (bit_bitAt _ _) (bit_bitAt _ _)) (bit_bitAt _ _)) rfl) (zero_field hz)) (zero_field hz) rfl rfl rfl rfl
  · next hop =>
    obtain ⟨hz, rfl⟩ := ifZero_some h
    exact fmtA_eq (opOf_eq hop) (append_eq_extract (append_eq_extract (append_eq_extract (append_eq_extract
      (bit_bitAt _ _) (bit_bitAt _ _)) (bit_bitAt _ _)) rfl) (zero_field hz)) (zero_field hz) rfl rfl rfl rfl
  · next hop =>
    obtain ⟨hz, rfl⟩ := ifZero_some h
    exact fmtA_eq (opOf_eq hop) (append_eq_extract (append_eq_extract (append_eq_extract (append_eq_extract
      (bit_bitAt _ _) (bit_bitAt _ _)) (bit_bitAt _ _)) rfl) (zero_field hz)) (zero_field hz) rfl rfl rfl rfl
  · next hop =>
    obtain ⟨hz, rfl⟩ := ifZero_some h
    exact fmtA_eq (opOf_eq hop) (append_eq_extract (append_eq_extract (append_eq_extract (append_eq_extract
      (bit_bitAt _ _) (bit_bitAt _ _)) (bit_bitAt _ _)) rfl) (zero_field hz)) (zero_field hz) rfl rfl rfl rfl
  · next hop =>
    obtain ⟨hz, rfl⟩ := ifZero_some h
    exact fmtA_eq (opOf_eq hop) (append_eq_extract (append_eq_extract (bit_bitAt _ _) (bit_bitAt _ _)) (zero_field
      hz)) rfl rfl rfl (zero_field hz) rfl
  · next hop =>
    obtain ⟨hz, rfl⟩ := ifZero_some h
    exact fmtA_eq (opOf_eq hop) (zero_field hz) rfl rfl (zero_field hz) (zero_field hz) rfl
  · next hop =>
    obtain ⟨hz, rfl⟩ := ifZero_some h
    exact fmtA_eq (opOf_eq hop) (append_eq_extract (bit_bitAt _ _) (zero_field hz)) rfl rfl rfl (zero_field hz)
      (zero_field hz)
  · next hop =>
    obtain ⟨hz, rfl⟩ := ifZero_some h
    exact fmtA_eq (opOf_eq hop) (append_eq_extract (bit_bitAt _ _) (zero_field hz)) (zero_field hz) (zero_field hz)
      (zero_field hz) (zero_field hz) (zero_field hz)
  · cases h

theorem encode_decodeTap {w : W64} {i : Instr} (h : decodeTap w (ctlOf w) = some i) : encode i = w := by
  unfold decodeTap at h
  split at h
  · next hop =>
    obtain ⟨hz, rfl⟩ := ifZero_some h
    exact fmtA_eq (opOf_eq hop) (zero_field hz) rfl rfl rfl rfl rfl
  · next hop =>
    obtain ⟨hz, rfl⟩ := ifZero_some h
    exact fmtA_eq (opOf_eq hop) (zero_field hz) rfl rfl rfl (zero_field hz) (zero_field hz)
  · next hop =>
    obtain ⟨hz, rfl⟩ := ifZero_some h
    exact fmtA_eq (opOf_eq hop) (append_eq_extract (bit_bitAt _ _) (zero_field hz)) rfl rfl (zero_field hz)
      (zero_field hz) (zero_field hz)
  · next hop =>
    obtain ⟨hz, rfl⟩ := ifZero_some h
    exact fmtA_eq (opOf_eq hop) (zero_field hz) (zero_field hz) rfl rfl (zero_field hz) (zero_field hz)
  · next hop =>
    obtain ⟨hz, rfl⟩ := ifZero_some h
    exact fmtA_eq (opOf_eq hop) (append_eq_extract (bit_bitAt _ _) (zero_field hz)) (zero_field hz) rfl (zero_field
      hz) (zero_field hz) (zero_field hz)
  · cases h

theorem encode_decodeTask {w : W64} {i : Instr} (h : decodeTask w (ctlOf w) = some i) : encode i = w := by
  unfold decodeTask at h
  split at h
  · next hop =>
    obtain ⟨hz, rfl⟩ := ifZero_some h
    exact fmtA_eq (opOf_eq hop) (zero_field hz) rfl rfl (zero_field hz) (zero_field hz) (zero_field hz)
  · next hop =>
    obtain ⟨hz, rfl⟩ := ifZero_some h
    exact fmtA_eq (opOf_eq hop) (zero_field hz) rfl (zero_field hz) (zero_field hz) (zero_field hz) rfl
  · next hop =>
    obtain ⟨hz, rfl⟩ := ifZero_some h
    exact fmtA_eq (opOf_eq hop) (zero_field hz) (zero_field hz) (zero_field hz) (zero_field hz) (zero_field hz)
      (zero_field hz)
  · next hop =>
    obtain ⟨hz, rfl⟩ := ifZero_some h
    exact fmtA_eq (opOf_eq hop) (zero_field hz) rfl (zero_field hz) (zero_field hz) (zero_field hz) (zero_field hz)
  · next hop =>
    obtain ⟨hz, rfl⟩ := ifZero_some h
    exact fmtA_eq (opOf_eq hop) (zero_field hz) (zero_field hz) rfl (zero_field hz) (zero_field hz) (zero_field hz)
  · next hop =>
    obtain ⟨hz, rfl⟩ := ifZero_some h
    exact fmtA_eq (opOf_eq hop) (zero_field hz) (zero_field hz) rfl rfl (zero_field hz) (zero_field hz)
  · next hop =>
    obtain ⟨hz, rfl⟩ := ifZero_some h
    exact fmtA_eq (opOf_eq hop) (zero_field hz) rfl rfl (zero_field hz) (zero_field hz) rfl
  · next hop =>
    obtain ⟨hz, rfl⟩ := ifZero_some h
    exact fmtA_eq (opOf_eq hop) (append_eq_extract (bit_bitAt _ _) (zero_field hz)) rfl rfl rfl rfl (zero_field hz)
  · next hop =>
    obtain ⟨hz, rfl⟩ := ifZero_some h
    exact fmtA_eq (opOf_eq hop) (append_eq_extract (bit_bitAt _ _) (zero_field hz)) rfl rfl (zero_field hz) rfl
      (zero_field hz)
  · next hop =>
    obtain ⟨hz, rfl⟩ := ifZero_some h
    exact fmtA_eq (opOf_eq hop) (append_eq_extract (bit_bitAt _ _) (zero_field hz)) rfl rfl (zero_field hz) rfl
      (zero_field hz)
  · next hop =>
    obtain ⟨hz, rfl⟩ := ifZero_some h
    exact fmtA_eq (opOf_eq hop) (append_eq_extract (bit_bitAt _ _) (zero_field hz)) rfl rfl (zero_field hz) rfl
      (zero_field hz)
  · cases h

theorem encode_decodeSys {w : W64} {i : Instr} (h : decodeSys w (ctlOf w) = some i) : encode i = w := by
  unfold decodeSys at h
  split at h
  · next hop =>
    split at h
    · next hc =>
      obtain ⟨hz, rfl⟩ := ifZero_some h
      exact fmtA_eq (opOf_eq hop) (append_eq_extract (zero_field hz) (eq_of_beq hc).symm) rfl rfl (zero_field hz)
        (zero_field hz) (zero_field hz)
    split at h
    · next hc =>
      obtain ⟨hz, rfl⟩ := ifZero_some h
      exact fmtA_eq (opOf_eq hop) (append_eq_extract (zero_field hz) (eq_of_beq hc).symm) rfl rfl (zero_field hz)
        (zero_field hz) (zero_field hz)
    split at h
    · next hc =>
      obtain ⟨hz, rfl⟩ := ifZero_some h
      exact fmtA_eq (opOf_eq hop) (append_eq_extract (zero_field hz) (eq_of_beq hc).symm) rfl rfl rfl (zero_field hz)
        (zero_field hz)
    cases h
  · next hop =>
    obtain ⟨hz, rfl⟩ := ifZero_some h
    exact fmtA_eq (opOf_eq hop) (append_eq_extract (zero_field hz) (bit_bitAt _ _)) rfl rfl (zero_field hz)
      (zero_field hz) rfl
  · next hop =>
    split at h
    · next hc =>
      obtain ⟨hsel, hreg⟩ := Bool.and_eq_true_iff.1 hc
      obtain ⟨hz, rfl⟩ := ifZero_some h
      exact fmtA_eq (opOf_eq hop) (append_eq_extract (zero_field hz) (eq_of_beq hsel).symm) rfl rfl rfl (zero_field
        hz) ((eq_of_beq hreg).symm)
    split at h
    · next hc =>
      obtain ⟨hsel, hreg⟩ := Bool.and_eq_true_iff.1 hc
      obtain ⟨hz, rfl⟩ := ifZero_some h
      exact fmtA_eq (opOf_eq hop) (append_eq_extract (zero_field hz) (eq_of_beq hsel).symm) rfl (zero_field hz) rfl
        (zero_field hz) ((eq_of_beq hreg).symm)
    split at h
    · next hc =>
      obtain ⟨hsel, hreg⟩ := Bool.and_eq_true_iff.1 hc
      obtain ⟨hz, rfl⟩ := ifZero_some h
      exact fmtA_eq (opOf_eq hop) (append_eq_extract (zero_field hz) (eq_of_beq hsel).symm) rfl (zero_field hz) rfl
        (zero_field hz) ((eq_of_beq hreg).symm)
    split at h
    · next hc =>
      obtain ⟨hsel, hreg⟩ := Bool.and_eq_true_iff.1 hc
      obtain ⟨hz, rfl⟩ := ifZero_some h
      exact fmtA_eq (opOf_eq hop) (append_eq_extract (zero_field hz) (eq_of_beq hsel).symm) rfl rfl rfl (zero_field
        hz) ((eq_of_beq hreg).symm)
    split at h
    · next hc =>
      obtain ⟨hsel, hreg⟩ := Bool.and_eq_true_iff.1 hc
      obtain ⟨hz, rfl⟩ := ifZero_some h
      exact fmtA_eq (opOf_eq hop) (append_eq_extract (zero_field hz) (eq_of_beq hsel).symm) rfl rfl rfl (zero_field
        hz) ((eq_of_beq hreg).symm)
    split at h
    · next hc =>
      obtain ⟨hsel, hreg⟩ := Bool.and_eq_true_iff.1 hc
      obtain ⟨hz, rfl⟩ := ifZero_some h
      exact fmtA_eq (opOf_eq hop) (append_eq_extract (zero_field hz) (eq_of_beq hsel).symm) rfl rfl rfl (zero_field
        hz) ((eq_of_beq hreg).symm)
    obtain ⟨hz, rfl⟩ := ifZero_some h
    exact fmtA_eq (opOf_eq hop) (append_eq_extract (zero_field hz) (bit_bitAt _ _)) rfl rfl rfl (zero_field hz) rfl
  · next hop =>
    split at h
    · next hc =>
      obtain ⟨hz, rfl⟩ := ifZero_some h
      exact fmtA_eq (opOf_eq hop) (append_eq_extract (zero_field hz) (eq_of_beq hc).symm) rfl rfl rfl (zero_field hz)
        (zero_field hz)
    split at h
    · next hc =>
      obtain ⟨hz, rfl⟩ := ifZero_some h
      exact fmtA_eq (opOf_eq hop) (append_eq_extract (zero_field hz) (eq_of_beq hc).symm) rfl (zero_field hz) rfl
        (zero_field hz) (zero_field hz)
    split at h
    · next hc =>
      obtain ⟨hz, rfl⟩ := ifZero_some h
      exact fmtA_eq (opOf_eq hop) (append_eq_extract (zero_field hz) (eq_of_beq hc).symm) rfl (zero_field hz)
        (zero_field hz) (zero_field hz) (zero_field hz)
    split at h
    · next hc =>
      obtain ⟨hz, rfl⟩ := ifZero_some h
      exact fmtA_eq (opOf_eq hop) (append_eq_extract (append_eq_extract (zero_field hz) (bit_bitAt _ _)) (eq_of_beq
        hc).symm) rfl rfl rfl rfl (zero_field hz)
    cases h
  · next hop =>
    obtain ⟨hz, rfl⟩ := ifZero_some h
    exact fmtA_eq (opOf_eq hop) (zero_field hz) rfl rfl (zero_field hz) (zero_field hz) (zero_field hz)
  · next hop =>
    split at h
    · next hc =>
      obtain ⟨hz, rfl⟩ := ifZero_some h
      exact fmtA_eq (opOf_eq hop) (append_eq_extract (eq_of_beq hc).symm (zero_field hz)) rfl (zero_field hz)
        (zero_field hz) (zero_field hz) (zero_field hz)
    obtain ⟨hz, rfl⟩ := ifZero_some h
    exact fmtA_eq (opOf_eq hop) (append_eq_extract rfl (zero_field hz)) rfl rfl (zero_field hz) (zero_field hz)
      (zero_field hz)
  · next hop =>
    obtain ⟨hz, rfl⟩ := ifZero_some h
    exact fmtA_eq (opOf_eq hop) (append_eq_extract (zero_field hz) rfl) rfl rfl rfl (zero_field hz) (zero_field hz)
  · next hop =>
    obtain ⟨hz, rfl⟩ := ifZero_some h
    exact fmtA_eq (opOf_eq hop) (zero_field hz) rfl rfl rfl (zero_field hz) (zero_field hz)
  · next hop =>
    obtain ⟨hz, rfl⟩ := ifZero_some h
    exact fmtA_eq (opOf_eq hop) (zero_field hz) rfl rfl rfl (zero_field hz) (zero_field hz)
  · cases h

theorem encode_decodePool {w : W64} {i : Instr} (h : decodePool w (ctlOf w) = some i) : encode i = w := by
  unfold decodePool at h
  split at h
  · next hop =>
    split at h
    · next hc =>
      obtain ⟨hz, rfl⟩ := ifZero_some h
      exact fmtA_eq (opOf_eq hop) (append_eq_extract (eq_of_beq hc).symm (zero_field hz)) rfl rfl (zero_field hz)
        (zero_field hz) (zero_field hz)
    split at h
    · next hc =>
      obtain ⟨hz, rfl⟩ := ifZero_some h
      exact fmtA_eq (opOf_eq hop) (append_eq_extract (eq_of_beq hc).symm (zero_field hz)) rfl rfl (zero_field hz)
        (zero_field hz) (zero_field hz)
    split at h
    · next hc =>
      obtain ⟨hz, rfl⟩ := ifZero_some h
      exact fmtA_eq (opOf_eq hop) (append_eq_extract (eq_of_beq hc).symm (zero_field hz)) rfl rfl (zero_field hz)
        (zero_field hz) (zero_field hz)
    split at h
    · next hc =>
      obtain ⟨hz, rfl⟩ := ifZero_some h
      exact fmtA_eq (opOf_eq hop) (append_eq_extract (eq_of_beq hc).symm (zero_field hz)) rfl rfl (zero_field hz)
        (zero_field hz) (zero_field hz)
    split at h
    · next hc =>
      obtain ⟨hz, rfl⟩ := ifZero_some h
      exact fmtA_eq (opOf_eq hop) (append_eq_extract (eq_of_beq hc).symm (zero_field hz)) rfl rfl rfl (zero_field hz)
        (zero_field hz)
    cases h
  · next hop =>
    obtain ⟨hz, rfl⟩ := ifZero_some h
    exact fmtA_eq (opOf_eq hop) (append_eq_extract (bit_bitAt _ _) (zero_field hz)) rfl rfl rfl (zero_field hz)
      (zero_field hz)
  · next hop =>
    obtain ⟨hz, rfl⟩ := ifZero_some h
    exact fmtA_eq (opOf_eq hop) (zero_field hz) rfl rfl rfl (zero_field hz) (zero_field hz)
  · next hop =>
    obtain ⟨hz, rfl⟩ := ifZero_some h
    exact fmtA_eq (opOf_eq hop) (zero_field hz) rfl rfl rfl (zero_field hz) rfl
  · next hop =>
    obtain ⟨hz, rfl⟩ := ifZero_some h
    exact fmtA_eq (opOf_eq hop) (zero_field hz) rfl rfl rfl (zero_field hz) (zero_field hz)
  · cases h

/-- Encoding what a word reads as, before the field checks, gives the word back. -/
theorem encode_decodeRaw {w : W64} {i : Instr} (h : decodeRaw w = some i) : encode i = w := by
  unfold decodeRaw at h
  split at h
  case h_1 => exact encode_decodeInt h
  case h_2 => exact encode_decodeVec h
  case h_3 => exact encode_decodeMem h
  case h_4 => exact encode_decodeSync h
  case h_5 => exact encode_decodeCopy h
  case h_6 => exact encode_decodeMtx h
  case h_7 => exact encode_decodeTap h
  case h_8 => exact encode_decodeTask h
  case h_9 => exact encode_decodeSys h
  case h_10 => exact encode_decodePool h
  case h_11 => cases h

theorem encode_of_decode {w : W64} {i : Instr} (h : decode w = .instr i) : encode i = w :=
  encode_decodeRaw (decode_instr h).2.1

end Sys2Proof.Laws
end

section
/-! PROOF. Clause headers read back from their words (02 R19, R20), words that the spec works out, and reset. -/

namespace Sys2Proof.Laws

/-! ### The class code -/

theorem ofCode_code (c : Cls) : Cls.ofCode c.code.toNat = some c := by cases c <;> rfl
theorem code_of_ofCode {n : BitVec 4} {c : Cls} (h : Cls.ofCode n.toNat = some c) : c.code = n := by
  revert c
  revert n
  decide
theorem ofCode_isSome (n : Nat) : (Cls.ofCode n).isSome = true ↔ n ≤ 9 := by
  by_cases h : n ≤ 9
  · have : ∀ m < 10, (Cls.ofCode m).isSome = true := by decide
    simp [h, this n (by omega)]
  · obtain ⟨m, rfl⟩ : ∃ m, n = m + 10 := ⟨n - 10, by omega⟩
    simp [Cls.ofCode]

/-! ### What a header that reads as one holds -/

theorem decodeHeader_eq_some {w : W64} {h : Header} : decodeHeader w = some h ↔
    w.extractLsb' 60 4 = 0xA ∧ w.extractLsb' 0 43 = 0 ∧ ∃ c, Cls.ofCode (w.extractLsb' 56 4).toNat = some c ∧
      h = { cls := c, n := (w.extractLsb' 52 4).toNat, rf := bitAt w 51, waits := w.extractLsb' 44 7, yl := bitAt w 43 } := by
  unfold decodeHeader
  split
  · next hok =>
    obtain ⟨htag, hlow⟩ := Bool.and_eq_true_iff.1 hok
    rw [beq_iff_eq] at htag hlow
    split
    · next c hc =>
      refine ⟨fun h => ⟨htag, hlow, c, hc, (Option.some.inj h).symm⟩, ?_⟩
      rintro ⟨-, -, c', hc', rfl⟩
      rw [hc] at hc'
      cases hc'
      rfl
    · next hc =>
      refine ⟨nofun, ?_⟩
      rintro ⟨-, -, c', hc', -⟩
      rw [hc] at hc'
      cases hc'
  · next hbad =>
    simp only [Bool.and_eq_true, beq_iff_eq, not_and] at hbad
    simp only [reduceCtorEq, false_iff]
    rintro ⟨htag, hlow, -⟩
    exact hbad htag hlow

theorem encodeHeader_of_decodeHeader {w : W64} {h : Header} (hw : decodeHeader w = some h) : encodeHeader h = w := by
  obtain ⟨htag, hlow, c, hc, rfl⟩ := decodeHeader_eq_some.1 hw
  have hn : BitVec.ofNat 4 (w.extractLsb' 52 4).toNat = w.extractLsb' 52 4 := by
    rw [BitVec.ofNat_toNat, BitVec.setWidth_eq]
  refine Eq.trans (b := w.extractLsb' 0 64) ?_ (xl_self w)
  exact append_eq_extract (append_eq_extract (append_eq_extract (append_eq_extract (append_eq_extract
    (append_eq_extract htag.symm (code_of_ofCode hc)) hn) (bit_bitAt w 51)) rfl) (bit_bitAt w 43)) hlow.symm

/-- The fields of the word of a header. -/
theorem encodeHeader_fields (h : Header) :
    (encodeHeader h).extractLsb' 60 4 = 0xA ∧ (encodeHeader h).extractLsb' 56 4 = h.cls.code ∧
    (encodeHeader h).extractLsb' 52 4 = BitVec.ofNat 4 h.n ∧ (encodeHeader h).extractLsb' 51 1 = bit h.rf ∧
    (encodeHeader h).extractLsb' 44 7 = h.waits ∧ (encodeHeader h).extractLsb' 43 1 = bit h.yl ∧
    (encodeHeader h).extractLsb' 0 43 = 0 := by
  unfold encodeHeader
  refine ⟨?_, ?_, ?_, ?_, ?_, ?_, ?_⟩
  · rw [xl_hi _ _ 60 4 (by decide), xl_hi _ _ 17 4 (by decide), xl_hi _ _ 16 4 (by decide), xl_hi _ _ 9 4 (by decide),
      xl_hi _ _ 8 4 (by decide), xl_hi _ _ 4 4 (by decide)]
    rfl
  · rw [xl_hi _ _ 56 4 (by decide), xl_hi _ _ 13 4 (by decide), xl_hi _ _ 12 4 (by decide), xl_hi _ _ 5 4 (by decide),
      xl_hi _ _ 4 4 (by decide), xl_lo _ _ 0 4 (by decide)]
    exact xl_self _
  · rw [xl_hi _ _ 52 4 (by decide), xl_hi _ _ 9 4 (by decide), xl_hi _ _ 8 4 (by decide), xl_hi _ _ 1 4 (by decide),
      xl_lo _ _ 0 4 (by decide)]
    exact xl_self _
  · rw [xl_hi _ _ 51 1 (by decide), xl_hi _ _ 8 1 (by decide), xl_hi _ _ 7 1 (by decide), xl_lo _ _ 0 1 (by decide)]
    exact xl_self _
  · rw [xl_hi _ _ 44 7 (by decide), xl_hi _ _ 1 7 (by decide), xl_lo _ _ 0 7 (by decide)]
    exact xl_self _
  · rw [xl_hi _ _ 43 1 (by decide), xl_lo _ _ 0 1 (by decide)]
    exact xl_self _
  · rw [xl_lo _ _ 0 43 (by decide)]
    exact xl_self _

/-- A bit of a word that is a one-bit field. -/
theorem bitAt_of_field {w : W64} {n : Nat} {x : Bool} (h : w.extractLsb' n 1 = bit x) : bitAt w n = x := by
  rw [← bit_bitAt] at h
  exact (show ∀ a b, bit a = bit b → a = b by decide) _ _ h

theorem decodeHeader_encodeHeader (h : Header) (hn : h.n < 16) : decodeHeader (encodeHeader h) = some h := by
  obtain ⟨htag, hcls, hnum, hrf, hwaits, hyl, hlow⟩ := encodeHeader_fields h
  refine decodeHeader_eq_some.2 ⟨htag, hlow, h.cls, by rw [hcls]; exact ofCode_code _, ?_⟩
  rw [hnum, bitAt_of_field hrf, hwaits, bitAt_of_field hyl, BitVec.toNat_ofNat, Nat.mod_eq_of_lt hn]

/-- A word is a header exactly where its tag, its class and its reserved bits say so. -/
theorem decodeHeader_isSome (w : W64) : (decodeHeader w).isSome = true ↔
    w.toNat / 2 ^ 60 = 0xA ∧ w.toNat / 2 ^ 56 % 16 ≤ 9 ∧ w.toNat % 2 ^ 43 = 0 := by
  have hfield (s l : Nat) : (w.extractLsb' s l).toNat = w.toNat / 2 ^ s % 2 ^ l := by
    rw [BitVec.extractLsb'_toNat, Nat.shiftRight_eq_div_pow]
  have htag : w.extractLsb' 60 4 = 0xA ↔ w.toNat / 2 ^ 60 = 0xA := by
    have hlt : w.toNat / 2 ^ 60 < 2 ^ 4 := by omega
    rw [← BitVec.toNat_inj, hfield, Nat.mod_eq_of_lt hlt]
    rfl
  have hlow : w.extractLsb' 0 43 = 0 ↔ w.toNat % 2 ^ 43 = 0 := by
    rw [← BitVec.toNat_inj, hfield, Nat.pow_zero, Nat.div_one]
    rfl
  rw [← htag, ← hlow, show (16 : Nat) = 2 ^ 4 from rfl, ← hfield 56 4, ← ofCode_isSome, Option.isSome_iff_exists,
    Option.isSome_iff_exists]
  constructor
  · rintro ⟨h, hw⟩
    obtain ⟨h1, h2, c, hc, -⟩ := decodeHeader_eq_some.1 hw
    exact ⟨h1, ⟨c, hc⟩, h2⟩
  · rintro ⟨h1, ⟨c, hc⟩, h2⟩
    exact ⟨_, decodeHeader_eq_some.2 ⟨h1, h2, c, hc, rfl⟩⟩

/-- Settles O45: row by row for words, field by field for headers. -/
theorem encodingInvertsDecoding : Obligations.EncodingInvertsDecoding :=
  ⟨fun _ _ => encode_of_decode, fun _ _ => encodeHeader_of_decodeHeader, decodeHeader_encodeHeader, decodeHeader_isSome⟩

/-- Settles O46: each word is read by the decoder. -/
theorem wordsReadRight : Obligations.WordsReadRight := by
  unfold Obligations.WordsReadRight
  decide +kernel

/-- Settles O49: every field of the reset state is a constant, and every list and map of it is empty. -/
theorem resetState : Obligations.ResetState := by
  refine ⟨rfl, rfl, rfl, rfl, rfl, rfl, rfl, rfl, rfl, rfl, rfl, rfl, rfl, rfl, ?_⟩
  have hnone {α : Type} {p : α → Prop} : ∀ x ∈ ([] : List α), p x := fun _ h => absurd h List.not_mem_nil
  exact { mem := reset_mem_wf, regs := hnone, uniform := hnone, recs := hnone, scratch := hnone, store := rfl,
          queues := rfl, kept := hnone }

end Sys2Proof.Laws
end

section
/-! PROOF. What a step does with the head of the agenda: the plan of a bundle that may go on, the event that it names, the
error that strikes, and the setting of the firmware (O50, O51). -/

namespace Sys2Proof.Machine

variable {s : State} {id : Nat} {q : Bundle} {c : Clause} {b : Block} {w : W64}

/-- A bundle that may go on makes of its word an instruction to run, or the fault of a word that is none. -/
theorem planOf_of_mayGoOn (h : MayGoOn s id q c b) (hw : c.words[q.place.idx]? = some w) :
    planOf s id = match decode w with
      | .instr i => .run i (itsTurn s q id)
      | .reject r => .out (raise (itsTurn s q id) b.uid (opOf w).toNat q.place.addr
          (q.mem.map fun m => ⟨m.1, m.2,
            { cause := wordFault b q.role c q.place.idx w (match r with | .illop => 0x01 | .illenc => 0x02) }⟩)) := by
  have hstop : (b.stopping && (q.atWait || b.status != .running || (membersOf s q).any Thread.stands)) = false := by
    cases hs : b.stopping
    · rfl
    · obtain ⟨h1, h2, h3⟩ := h.running hs
      simp [h1, h2, h3]
  have hwatch : (q.atWait && anyWatchDue s q) = false := by
    cases ha : q.atWait
    · rfl
    · exact h.unwatched ha
  have hword : q.word? = some w := by simp [Bundle.word?, h.clause, hw]
  simp only [planOf, h.bundle, h.block, h.resident, h.cool, h.sound, h.turn, h.clause, h.whole, h.unparked,
    h.unstalled, h.ungated, hwatch, hstop, hword, itsTurn]
  cases decode w <;> rfl

/-- It has its turn: it does not give way to another one. -/
theorem planBundle_of_mayGoOn (h : MayGoOn s id q c b) :
    planBundle s id = match planOf s id with
      | .run i s1 => .run i (gaveWay s1 (coreOf s1 q.blk))
      | p => p := by
  have hy : (q.yielded && otherReady s q) = false := by
    cases hq : q.yielded
    · rfl
    · simp [h.first hq]
  simp [planBundle, h.bundle, h.clause, hy] <;> rfl

theorem planBundle_instr (h : MayGoOn s id q c b) (hw : c.words[q.place.idx]? = some w) {i : Instr}
    (hi : decode w = .instr i) : planBundle s id = .run i (atIssue s q id) := by
  simp [planBundle_of_mayGoOn h, planOf_of_mayGoOn h hw, hi, atIssue]

theorem planBundle_reject (h : MayGoOn s id q c b) (hw : c.words[q.place.idx]? = some w) {r : DecErr}
    (hr : decode w = .reject r) :
    planBundle s id = .out (raise (itsTurn s q id) b.uid (opOf w).toNat q.place.addr
      (q.mem.map fun m => ⟨m.1, m.2,
        { cause := wordFault b q.role c q.place.idx w (match r with | .illop => 0x01 | .illenc => 0x02) }⟩)) := by
  simp [planBundle_of_mayGoOn h, planOf_of_mayGoOn h hw, hr]

/-- A step is the head of the agenda, after which time passes. -/
theorem step_eq_passTime {s t : State} (h : stepWith exec s = .next t) : step s = .next (passTime t) := by
  simp [step, h]

/-- A step is what the head of the agenda answers, with the time that passes where it answers a next state. -/
theorem step_eq_timed {s : State} {r : Res} {timed : Res → Res} (hnext : ∀ t, timed (.next t) = .next (passTime t))
    (hfault : ∀ f, timed (.fault f) = .fault f) (hrefused : ∀ x, timed (.refused x) = .refused x) (h : stepWith exec s = r) :
    step s = timed r := by
  unfold step
  rw [h]
  cases r with
  | next t => exact (hnext t).symm
  | fault f => exact (hfault f).symm
  | refused x => exact (hrefused x).symm

theorem stepWith_go {s : State} {rest : List Act} (h : s.agenda = .go id :: rest) :
    stepWith exec s = runPlan exec { s with agenda := rest } id (planBundle { s with agenda := rest } id) := by
  simp [stepWith, h]

theorem stepWith_event {s : State} {e : Instr} {rest : List Act} (h : s.agenda = .ev e :: rest) (he : isEvent e = true) :
    stepWith exec s = withinBudgets { s with agenda := rest } { s with agenda := rest } (exec e { s with agenda := rest }) := by
  simp [stepWith, h, he]

end Sys2Proof.Machine

namespace Sys2Proof.Laws
open Machine

/-- Settles O50: a bundle that may go on has the decoded instruction as its plan, and each other head of the agenda is
carried out as it stands. -/
theorem stepRunsTheDecodedInstruction : Obligations.StepRunsTheDecodedInstruction := by
  unfold Obligations.StepRunsTheDecodedInstruction
  intro timed
  refine ⟨?_, ?_, ?_, ?_, ?_⟩
  · intro s id rest q c b w i hg hm hw hi
    exact step_eq_timed (timed := timed) (fun _ => rfl) (fun _ => rfl) (fun _ => rfl)
      ((stepWith_go hg).trans (congrArg (runPlan exec _ id) (planBundle_instr hm hw hi)))
  · intro s e rest hg he
    exact step_eq_timed (timed := timed) (fun _ => rfl) (fun _ => rfl) (fun _ => rfl) (stepWith_event hg he)
  · intro s b e rest hg
    exact step_eq_passTime (by simp only [stepWith, hg])
  · intro s l e rest hg
    exact step_eq_passTime (by simp only [stepWith, hg])
  · intro s f rest hg
    exact step_eq_passTime (by simp only [stepWith, hg])

/-- Settles O51: the plan of a bundle at such a word is the fault that it raises. -/
theorem reservedWordsFault : Obligations.ReservedWordsFault := by
  unfold Obligations.ReservedWordsFault
  intro s id rest q c b w r hg hm hw hr
  refine step_eq_passTime ?_
  rw [stepWith_go hg, planBundle_reject hm hw hr]
  rfl

end Sys2Proof.Laws
end

section
/-! PROOF. Every instruction is one issue under its opcode, and the checks before the effect of an issue (O47, O52). -/

namespace Sys2Proof.Machine

/-- An instruction whose meaning is one issue under opcode op. -/
def IssuesAs (op : Nat) (run : State → Res) : Prop :=
  ∀ s, ∃ k src dst late eff addr, run s = issue op k src dst s eff late addr

/-- Each instruction is one issue, under the opcode of its word. -/
theorem exec_issuesAs (i : Instr) (h : isEvent i = false) : IssuesAs (opOf (encode i)).toNat (exec i) := by
  cases i
  all_goals cases h
  all_goals
    intro s
    simp only [encode, Laws.fmtA_op, Laws.fmtI_op, Laws.fmtL_op, Laws.fmtM_op, Laws.fmtMA_op]
    exact ⟨_, _, _, _, _, _, rfl⟩

/-- An event has no word: the encoder gives it the word 0, whose opcode is reserved. -/
theorem encode_of_event (i : Instr) (h : isEvent i = true) : encode i = 0 := by
  cases i
  all_goals cases h
  all_goals rfl

/-- A word decodes to no event. -/
theorem isEvent_of_decode {w : W64} {i : Instr} (h : decode w = .instr i) : isEvent i = false := by
  rw [Bool.eq_false_iff]
  intro he
  have hw : w = 0 := (Laws.encode_of_decode h).symm.trans (encode_of_event i he)
  rw [hw, show decode 0 = .reject .illop by decide] at h
  cases h

/-- The checks before the effect of an issue, in their order, each where those before it have passed. -/
theorem checksFault_issue (op : Nat) (k : Ctl) (src : State → List RG) (dst late : List RG) (eff : Iss → State → IOut)
    (addr : Iss → Lane → Option Nat) :
    ChecksFault (fun s => issue op k (src s) dst s eff late addr) op k src dst late := by
  intro s q c b hq hc hb
  refine ⟨fun cause ho => ?_, fun ho hno => ?_, fun ho hno hpf => ?_, fun ho hno hpf hbad => ?_⟩
  · exact issue_misplaced hq hc hb ho eff addr
  all_goals simp only [issue, prepare, hq, hc, hb, ho]
  · rw [if_pos (by simpa using hno)]
    rfl
  · rw [if_neg (by rw [hno]; simp), if_pos (by simpa using hpf)]
    rfl
  · rw [if_neg (by rw [hno]; simp), if_neg (by rw [hpf]; simp), if_pos (by simpa using hbad)]
    rfl

/-! ### A step that stops

The number of a new bundle is `nextId`, and in a state whose `nextId` is behind the number of a bundle the new one and that
bundle share it. When the turn of a bundle releases the waiters of a rejoin mask, their new bundle arrives at a header, and
so does the bundle that has the same number: it stands at no word any more when its instruction is to issue. -/

/-- The control bits of an unguarded instruction (02 R34). -/
def unguarded : Ctl := { gn := false, gi := 63, pk := false }
/-- A set-aside bundle at a NOP, a rejoin mask whose waiter is to be released, and a `nextId` by which the released path
gets the number of that bundle. -/
def numberTaken : State :=
  let s := placeWord State.reset (encode (.nop unguarded))
  let s := modBundle s s.cur fun q => { q with aside := true }
  let s := modThreads s (fun _ => true) fun t => { t with wait := .rjoin 0 (Place.at_ 0) }
  let s : State := { s with gangs := s.gangs.map fun g => { g with armed := [(0, 1)], arrived := [(0, 1)] } }
  { s with nextId := s.cur - 2 }
/-- Whether a result is a next state. -/
def goesOn (r : Res) : Bool := match r with | .next _ => true | _ => false

theorem goesOn_of_goes {r : Res} (h : Goes r) : goesOn r = true := by
  obtain ⟨t, rfl⟩ := h
  rfl

theorem step_numberTaken : goesOn (step numberTaken) = false := by decide +kernel

end Sys2Proof.Machine

namespace Sys2Proof.Laws
open Machine

/-- Settles O52: an instruction is one issue, whose checks fault in their order. -/
theorem issueChecksFault : Obligations.IssueChecksFault := by
  unfold Obligations.IssueChecksFault
  refine ⟨?_, ?_, ?_, ?_, ?_, ?_, ?_, ?_, ?_, ?_, ?_, ?_⟩
  · exact fun op k src dst late eff addr => checksFault_issue op k src dst late eff addr
  · intro w i hi s
    have h := exec_issuesAs i (isEvent_of_decode hi) s
    rwa [encode_of_decode hi] at h
  · intro w i s q c b cause hi hq hc hb ho
    obtain ⟨k, src, dst, late, eff, addr, h⟩ := exec_issuesAs i (isEvent_of_decode hi) s
    rw [encode_of_decode hi] at h
    rw [h]
    exact issue_misplaced hq hc hb ho eff addr
  · exact fun k w sg sat d a b => checksFault_issue _ _ _ _ _ _ _
  · exact fun k d a => ⟨checksFault_issue _ _ _ _ _ _ _, fun tgt => checksFault_issue _ _ _ _ _ _ _⟩
  · exact fun k d a b => checksFault_issue _ _ _ _ _ _ _
  · exact fun k g d a => checksFault_issue _ _ _ _ _ _ _
  · exact fun k d => checksFault_issue _ _ _ _ _ _ _
  · exact fun k int acc => checksFault_issue _ _ _ _ _ _ _
  · exact fun k ord scope size d a bq cp off => checksFault_issue _ _ _ _ _ _ _
  · exact fun k a b => ⟨checksFault_issue _ _ _ _ _ _ _, fun d x => checksFault_issue _ _ _ _ _ _ _⟩
  · exact fun k xc d a b c => checksFault_issue _ _ _ _ _ _ _

/-- Refutes O47: a step stops at an instruction without an issuing bundle, where a new bundle takes the number of the one
that has its turn. -/
theorem not_stepsNeverStop : ¬ Obligations.StepsNeverStop := by
  unfold Obligations.StepsNeverStop
  rintro ⟨-, -, hstep⟩
  exact absurd (goesOn_of_goes (hstep numberTaken)) (by simp [step_numberTaken])

end Sys2Proof.Laws
end

section
/-! PROOF. What a gang-collective instruction makes of its complete gathering (06 R118-R121, R129, R130; 05 R90, R91; O15). -/

namespace Sys2Proof.Machine

/-! ### A gathering whose sources hold no error -/

/-- An arrived lane is active by the guard stored at its arrival. -/
def arrivedActive (x : Lane) : Bool := match x.t.wait with | .gather _ _ _ a => a | _ => false
/-- The lanes of the arrived threads. -/
def gatherLanes (s : State) (ms : List Thread) : List Lane := ms.filterMap fun t => laneOf s t.blk t.gang t.lane
/-- The active ones; the even lane stands for a protected pair. -/
def gatherActs (s : State) (b : Block) (ms : List Thread) : List Lane :=
  (gatherLanes s ms).filter fun x => arrivedActive x && (!b.protectd || x.t.lane % 2 == 0)
/-- What a claim or give makes of its gathering. -/
def claimed (b : Block) (i : Instr) (pc : W64) (ms : List Thread) (lanes act : List Lane) (s : State) : State :=
  match lanes.head? with
  | some x => if act.isEmpty then setGathered s ms else claimEff s b x.g i pc ms act
  | none => s
/-- What a collective makes of its gathering. -/
def gathered (b : Block) (i : Instr) (pc : W64) (ms : List Thread) (lanes act : List Lane) (s : State) : State :=
  match i with
  | .perm _ w _ pm d a q _ x => setGathered (permEff w pm.toNat d a q x.toNat act s) ms
  | .permx _ _ d a q _ x => setGathered (permxEff d a q x act s) ms
  | .vote _ _ vm d a _ => setGathered (voteEff vm.toNat d a act s) ms
  | .elect _ _ d _ => setGathered (electEff d act s) ms
  | .gred _ w sg _ gop d a _ => setGathered (gredEff w sg gop.toNat d a act s) ms
  | .gscan _ w sg _ gop ex d a _ => setGathered (gscanEff w sg gop.toNat ex d a act s) ms
  | _ => claimed b i pc ms lanes act s

theorem performGather_eq (s : State) (b : Block) (i : Instr) (pc : W64) (ms : List Thread) :
    performGather s b i pc ms =
      if !((gatherActs s b ms).filter (fun x => !(meets b always x (gatherSrc i) true).none)).isEmpty then
        raise s b.uid (gatherOp i) pc (((gatherActs s b ms).filter
          (fun x => !(meets b always x (gatherSrc i) true).none)).map fun x =>
            ⟨x.t.gang, x.t.lane, (meets b always x (gatherSrc i) true).flt b⟩)
      else gathered b i pc ms (gatherLanes s ms) (gatherActs s b ms)
        (correctMet s b always (gatherOp i) pc (gatherActs s b ms) (gatherSrc i)) := rfl

theorem meets_of_no_errors {b : Block} (he : b.errs = []) (hb : b.bad = []) (k : Ctl) (x : Lane) (src : List RG)
    (dbl : Bool) : (meets b k x src dbl).none = true := by
  simp [meets, badReads, errsAt, he, hb, Met.none]

/-- Where no source holds an error, a gathering has its effect and nothing is corrected. -/
theorem performGather_eq_gathered {s : State} {b : Block} (hb : getBlock s b.uid = some b) (he : b.errs = [])
    (hbad : b.bad = []) (i : Instr) (pc : W64) (ms : List Thread) :
    performGather s b i pc ms = gathered b i pc ms (gatherLanes s ms) (gatherActs s b ms) s := by
  have hdbl : (gatherActs s b ms).filter (fun x => !(meets b always x (gatherSrc i) true).none) = [] :=
    filter_none _ _ fun x _ => by simp [meets_of_no_errors he hbad]
  have hmet : correctMet s b always (gatherOp i) pc (gatherActs s b ms) (gatherSrc i) = s :=
    correctMet_clean _ _ _ _ _ _ _ hb fun x _ => meets_of_no_errors he hbad _ _ _ _
  rw [performGather_eq, hdbl, hmet]
  rfl

/-! ### The event of a complete gathering -/

section Gathering
variable {s : State} {blk gang lane : Nat} {t : Thread} {b : Block} {g : Gang} {i : Instr} {pc : W64} {m : W32}
  {stored : Bool} {ms : List Thread}

/-- A complete gathering of a thread without a fault, in a block that is not killed and holds no error. -/
structure Complete (s : State) (blk gang lane : Nat) (t : Thread) (b : Block) (g : Gang) (i : Instr) (pc : W64)
    (m : W32) (stored : Bool) (ms : List Thread) : Prop where
  thread : getThread s blk gang lane = some t
  block : getBlock s blk = some b
  gang : getGang s blk gang = some g
  wait : t.wait = .gather i pc m stored
  all : gathering s b t = some ms
  alive : b.killed = false
  sound : ∀ u ∈ ms, u.fault = none
  errs : b.errs = []
  bad : b.bad = []

theorem thread_is {s : State} {blk gang lane : Nat} {t : Thread} (h : getThread s blk gang lane = some t) :
    t.blk = blk ∧ t.gang = gang ∧ t.lane = lane := by
  have := List.find?_some h
  simpa [Thread.is, and_assoc] using this
theorem gang_is {s : State} {blk gang : Nat} {g : Gang} (h : getGang s blk gang = some g) : g.blk = blk ∧ g.num = gang := by
  simpa using List.find?_some h

theorem exec_gatheringComplete (h : Complete s blk gang lane t b g i pc m stored ms) :
    exec (.gatheringComplete blk gang lane) s =
      .next (gathered b i pc ms (gatherLanes s ms) (gatherActs s b ms) s) := by
  have huid := getBlock_uid h.block
  have hfault : ms.any (fun u => u.fault.isSome) = false := by
    simpa [List.any_eq_false] using h.sound
  have htry : tryGather s blk gang lane = performGather s b i pc ms := by
    simp [tryGather, h.thread, h.block, h.wait, h.all, h.alive, hfault]
  rw [← performGather_eq_gathered (huid ▸ h.block) h.errs h.bad, ← htry]
  rfl

theorem exec_gatheringComplete_eq (h : Complete s blk gang lane t b g i pc m stored ms) {r : State}
    (hr : gathered b i pc ms (gatherLanes s ms) (gatherActs s b ms) s = setGathered r ms) {r' : State} (he : r = r') :
    exec (.gatheringComplete blk gang lane) s = .next (setGathered r' ms) := by
  rw [exec_gatheringComplete h, hr, he]

/-- The arrived threads are threads of the gang, and the one that waits is among them. -/
theorem mem_gathering (h : Complete s blk gang lane t b g i pc m stored ms) :
    t ∈ ms ∧ ∀ u ∈ ms, u ∈ s.threads ∧ u.blk = blk ∧ u.gang = gang := by
  obtain ⟨hb, hg, -⟩ := thread_is h.thread
  have ht : t ∈ s.threads := List.mem_of_find?_eq_some h.thread
  have hall := h.all
  simp only [gathering, h.wait] at hall
  split at hall
  · cases hall
    simp +contextual [gangThreads, ht, hb, hg]
  · next hm =>
    split at hall
    · cases hall
      simp only [Bool.not_eq_true', Bool.not_eq_false] at hm
      simp +contextual [liveThreads, gangThreads, ht, hb, hg, hm]
    · cases hall

/-- Its first lane is of its gang. -/
theorem head_gatherLanes (h : Complete s blk gang lane t b g i pc m stored ms) :
    ∃ x, (gatherLanes s ms).head? = some x ∧ x.g = g := by
  obtain ⟨htm, hms⟩ := mem_gathering h
  have hlane : ∀ u ∈ ms, ∃ x, laneOf s u.blk u.gang u.lane = some x ∧ x.g = g := by
    intro u hu
    obtain ⟨hmem, hub, hug⟩ := hms u hu
    obtain ⟨v, hv⟩ : ∃ v, getThread s u.blk u.gang u.lane = some v :=
      Option.isSome_iff_exists.1 (List.find?_isSome.2 ⟨u, hmem, by simp [Thread.is]⟩)
    rw [hub, hug] at hv ⊢
    exact ⟨⟨v, g, b⟩, by simp [laneOf, hv, h.gang, h.block], rfl⟩
  obtain ⟨u, us, rfl⟩ : ∃ u us, ms = u :: us := List.exists_cons_of_ne_nil (List.ne_nil_of_mem htm)
  obtain ⟨x, hx, hxg⟩ := hlane u (by simp)
  exact ⟨x, by simp [gatherLanes, hx], hxg⟩

theorem claimed_inactive (h : Complete s blk gang lane t b g i pc m stored ms) (ha : gatherActs s b ms = []) :
    claimed b i pc ms (gatherLanes s ms) (gatherActs s b ms) s = setGathered s ms := by
  obtain ⟨x, hx, -⟩ := head_gatherLanes h
  simp [claimed, hx, ha]

theorem claimed_active (h : Complete s blk gang lane t b g i pc m stored ms) (ha : gatherActs s b ms ≠ []) :
    claimed b i pc ms (gatherLanes s ms) (gatherActs s b ms) s = claimEff s b g i pc ms (gatherActs s b ms) := by
  obtain ⟨x, hx, hg⟩ := head_gatherLanes h
  simp [claimed, hx, ha, hg]

end Gathering

/-! ### What a gathering leaves behind -/

/-- Without an armed error that waits, the release of the arrived threads is all that happens. -/
theorem setGathered_unflipped (u : State) (ms : List Thread) (h : ∀ t ∈ u.threads, t.flip = none) :
    setGathered u ms = modThreads u (fun t => t.among ms) Thread.unwait := by
  have hland : ∀ v : State, (∀ t ∈ v.threads, t.flip = none) → ∀ b g l, landWait v b g l = v := by
    intro v hv b g l
    have hflip : (getThread v b g l).bind Thread.flip = none := by
      cases ht : getThread v b g l with
      | none => rfl
      | some t => exact hv t (List.mem_of_find?_eq_some ht)
    simp [landWait, hflip]
  have hrel : ∀ t ∈ (modThreads u (fun t => t.among ms) Thread.unwait).threads, t.flip = none := by
    simp only [modThreads, updWhere, List.mem_map]
    rintro _ ⟨t, ht, rfl⟩
    split
    · exact h t ht
    · exact h t ht
  exact List.foldl_fixed' (fun t => hland _ hrel _ _ _) ms

/-- Mending some elements of a list mends what a look-up finds, where the look-up does not see what is mended. -/
theorem find_updWhere {α : Type} (l : List α) (p q : α → Bool) (f : α → α) (h : ∀ x, q (f x) = q x) :
    (updWhere l p f).find? q = (l.find? q).map fun x => if p x then f x else x := by
  have hq : (q ∘ fun x => if p x then f x else x) = q := by
    funext x
    by_cases hp : p x = true
    · simp [hp, h]
    · simp [hp]
  rw [updWhere, List.find?_map, hq]

theorem getThread_modThreads (s : State) (p : Thread → Bool) (f : Thread → Thread) (b g l : Nat)
    (h : ∀ t, (f t).is b g l = t.is b g l) :
    getThread (modThreads s p f) b g l = (getThread s b g l).map fun t => if p t then f t else t :=
  find_updWhere _ _ _ _ h

theorem sparse_get_filter_key {β : Type} (d : β) (m : Sparse β) (p : Nat → Bool) (j : Nat) :
    Sparse.get d (m.filter fun e => p e.1) j = if p j then Sparse.get d m j else d := by
  induction m with
  | nil => simp [Sparse.get]
  | cons e t ih =>
    obtain ⟨k, v⟩ := e
    by_cases hk : p k = true
    · by_cases hj : k = j
      · subst hj
        simp [Sparse.get, hk]
      · simp [Sparse.get, hk, hj, ih]
    · by_cases hj : k = j
      · subst hj
        simp [hk, ih]
      · simp [Sparse.get, hk, hj, ih]

/-- The registers from lo below hi of the threads of a gang read 0, the others as before. -/
theorem vReg_clearRegs (s : State) (blk gang lo hi l j : Nat) :
    vReg (clearRegs s blk gang lo hi) blk gang l j = if lo ≤ j ∧ j < hi then 0 else vReg s blk gang l j := by
  have hget : getThread (clearRegs s blk gang lo hi) blk gang l = (getThread s blk gang l).map fun t =>
      if t.blk == blk && t.gang == gang then
        { t with v := t.v.filter fun e => decide (e.1 < lo) || decide (hi ≤ e.1) } else t :=
    getThread_modThreads s _ _ blk gang l fun t => rfl
  unfold vReg
  rw [hget]
  cases ht : getThread s blk gang l with
  | none => simp
  | some t =>
    obtain ⟨hb, hg, -⟩ := thread_is ht
    simp only [hb, hg, Option.map_some, beq_self_eq_true, Bool.and_self, if_true]
    rw [sparse_get_filter_key 0 t.v (fun n => decide (n < lo) || decide (hi ≤ n))]
    by_cases hj : lo ≤ j ∧ j < hi
    · simp [hj]
    · have : j < lo ∨ hi ≤ j := by omega
      simp [hj, this]

theorem ext_modGang {s : State} {blk gang : Nat} {g : Gang} (h : getGang s blk gang = some g) (e : Gang → Nat) :
    (getGang (modGang s blk gang fun g => { g with ext := e g }) blk gang).map Gang.ext = some (e g) := by
  rw [getGang_modGang s blk gang (fun g => { g with ext := e g }) fun x => rfl, h]
  rfl

theorem grantUnits_of_gang {s : State} {blk gang : Nat} {g : Gang} (h : getGang s blk gang = some g) (n : Nat) :
    grantUnits s blk gang n =
      clearRegs (modGang s blk gang (fun g => { g with ext := g.ext + n })) blk gang g.limit (g.limit + 8 * n) := by
  simp [grantUnits, h]

/-! ### A faulting gathering -/

theorem askSave_threads (s : State) (blk : Nat) (r : SaveReq) : (askSave s blk r).threads = s.threads := by
  unfold askSave
  split <;> rfl

/-- The thread with the fault of an instruction. -/
def Thread.withFault (r : FaultRec) (t : Thread) : Thread := { t with fault := some r }
/-- The thread that its collective lets go without a result. -/
def Thread.dismissed (t : Thread) : Thread := { t.unwait with flip := none }

/-- The threads after faults that are no machine checks: each has its own, or the last of them. -/
theorem raise_threads (s : State) (blk op : Nat) (pc : W64) (ms : List Thread) (f : Flt) (hf : f.cause < 0x20) :
    (raise s blk op pc (ms.map fun t => ⟨t.gang, t.lane, f⟩)).threads =
      (ms.foldl (fun s t => modThread s blk t.gang t.lane (Thread.withFault (f.toRec pc))) s).threads := by
  have hmc : (ms.map fun t => (⟨t.gang, t.lane, f⟩ : LaneFlt)).filter (fun f => 0x20 ≤ f.flt.cause) = [] :=
    filter_none _ _ fun x hx => by
      obtain ⟨t, -, rfl⟩ := List.mem_map.1 hx
      simpa using hf
  unfold raise
  simp only [hmc, List.foldl_nil, List.foldl_map]
  split
  · rfl
  · exact askSave_threads _ _ _


theorem getThread_foldl_withFault (ms : List Thread) (blk : Nat) (r : FaultRec) (gang l : Nat) (s : State)
    (u : Thread) (hu : u ∈ ms) (hg : u.gang = gang) (hl : u.lane = l) :
    getThread (ms.foldl (fun s t => modThread s blk t.gang t.lane (Thread.withFault r)) s) blk gang l =
      (getThread s blk gang l).map (Thread.withFault r) := by
  have hmod (s : State) (t : Thread) : getThread (modThread s blk t.gang t.lane (Thread.withFault r)) blk gang l =
      (getThread s blk gang l).map fun v => if v.is blk t.gang t.lane then v.withFault r else v :=
    find_updWhere _ _ _ _ fun v => rfl
  have hdone (ms : List Thread) (s : State) (h : ∀ v, getThread s blk gang l = some v → v.withFault r = v) :
      getThread (ms.foldl (fun s t => modThread s blk t.gang t.lane (Thread.withFault r)) s) blk gang l =
        getThread s blk gang l := by
    induction ms generalizing s with
    | nil => rfl
    | cons t ms ih =>
      have hsame : getThread (modThread s blk t.gang t.lane (Thread.withFault r)) blk gang l = getThread s blk gang l := by
        rw [hmod]
        cases hv : getThread s blk gang l with
        | none => rfl
        | some v => simp [h v hv]
      rw [List.foldl_cons, ih, hsame]
      rwa [hsame]
  induction ms generalizing s with
  | nil => cases hu
  | cons t ms ih =>
    rw [List.foldl_cons]
    by_cases ht : t.gang = gang ∧ t.lane = l
    · obtain ⟨htg, htl⟩ := ht
      have hnow : getThread (modThread s blk t.gang t.lane (Thread.withFault r)) blk gang l =
          (getThread s blk gang l).map (Thread.withFault r) := by
        rw [hmod]
        cases hv : getThread s blk gang l with
        | none => rfl
        | some v =>
          obtain ⟨h1, h2, h3⟩ := thread_is hv
          simp [Thread.is, h1, h2, h3, htg, htl]
      rw [hdone, hnow]
      rw [hnow]
      intro v hv
      obtain ⟨w, -, rfl⟩ := Option.map_eq_some_iff.1 hv
      rfl
    · have hmem : u ∈ ms := by
        rcases List.mem_cons.1 hu with rfl | h
        · exact absurd ⟨hg, hl⟩ ht
        · exact h
      rw [ih _ hmem, hmod]
      cases hv : getThread s blk gang l with
      | none => rfl
      | some v =>
        obtain ⟨h1, h2, h3⟩ := thread_is hv
        have : v.is blk t.gang t.lane = false := by
          simp only [Thread.is, h1, h2, h3, beq_self_eq_true, Bool.true_and, Bool.and_eq_false_iff, beq_eq_false_iff_ne]
          by_contra hc
          simp only [not_or, ne_eq, not_not] at hc
          exact ht ⟨hc.1.symm, hc.2.symm⟩
        simp [this]

/-- Every arrived thread of a faulting collective stands at its fault and waits no more. -/
theorem getThread_gatherFault (s : State) (b : Block) (pc : W64) (op : Nat) (ms : List Thread) (f : Flt)
    (hf : f.cause < 0x20) (u : Thread) (hu : u ∈ ms) (hub : u.blk = b.uid) (hin : u ∈ s.threads) :
    ∃ v, getThread (gatherFault s b pc op ms f) u.blk u.gang u.lane = some v ∧ v.wait = .none ∧
      v.fault = some (f.toRec pc) := by
  obtain ⟨v, hv⟩ : ∃ v, getThread s u.blk u.gang u.lane = some v :=
    Option.isSome_iff_exists.1 (List.find?_isSome.2 ⟨u, hin, by simp [Thread.is]⟩)
  obtain ⟨h1, h2, h3⟩ := thread_is hv
  have hamong : v.among ms = true := List.any_eq_true.2 ⟨u, hu, by simp [Thread.is, h1, h2, h3]⟩
  have hfree : getThread (modThreads s (fun t => t.among ms) Thread.dismissed) u.blk u.gang u.lane = some v.dismissed := by
    rw [getThread_modThreads s _ Thread.dismissed _ _ _ fun t => rfl, hv]
    simp [hamong]
  refine ⟨Thread.withFault (f.toRec pc) v.dismissed, ?_, rfl, rfl⟩
  show (raise (modThreads s (fun t => t.among ms) Thread.dismissed) b.uid op pc
    (ms.map fun t => ⟨t.gang, t.lane, f⟩)).threads.find? (fun t => t.is u.blk u.gang u.lane) = _
  rw [raise_threads _ _ _ _ _ _ hf]
  show getThread _ u.blk u.gang u.lane = _
  rw [hub, getThread_foldl_withFault ms b.uid (f.toRec pc) u.gang u.lane _ u hu rfl rfl, ← hub, hfree]
  rfl

/-! ### What each collective computes -/

/-- The active member with an index, given as an integer. -/
theorem find_tid_eq (act : List Lane) (j : Int) :
    act.find? (fun x => (x.tid : Int) == j) = if 0 ≤ j then memberAt act j.toNat else none := by
  split
  · next hj =>
    refine congrArg (fun p => act.find? p) (funext fun x => ?_)
    rw [Bool.eq_iff_iff, beq_iff_eq, beq_iff_eq]
    omega
  · next hj =>
    rw [List.find?_eq_none]
    intro x _
    simp only [beq_iff_eq]
    omega

theorem find_tid_natCast (act : List Lane) (j : Nat) :
    act.find? (fun x => (x.tid : Int) == (j : Int)) = memberAt act j := by simp [find_tid_eq]

/-- The active member with an index; where there is none, the lane itself. -/
theorem memberAt_getD (act : List Lane) (j : Int) (u : Lane) :
    (if 0 ≤ j then (memberAt act j.toNat).getD u else u) = (act.find? fun x => (x.tid : Int) == j).getD u := by
  rw [find_tid_eq]
  split <;> rfl

/-- All of some values equal the first of them where any two of them are equal. -/
theorem all_eq_head_iff (vs : List Nat) : (vs.all fun v => some v == vs.head?) = vs.all fun v => vs.all fun u => v == u := by
  cases vs with
  | nil => rfl
  | cons x xs =>
    rw [Bool.eq_iff_iff]
    simp only [List.all_eq_true, List.head?_cons, beq_iff_eq, Option.some.injEq]
    constructor
    · intro h v hv u hu
      rw [h v hv, h u hu]
    · intro h v hv
      exact h v hv x (by simp)

theorem irrevocable_of_plain {s : State} {blk : Nat} {b : Block} (hb : getBlock s blk = some b) (hp : Plain b) :
    irrevocable s blk = s := by
  unfold Plain at hp
  simp [irrevocable, hb, hp]
theorem keptBack_of_plain {s : State} {blk : Nat} {b : Block} (hb : getBlock s blk = some b) (hp : Plain b) :
    keptBack s blk = false := by
  unfold Plain at hp
  simp [keptBack, hb, hp]

section Claims
variable {s : State} {blk gang lane : Nat} {t : Thread} {b : Block} {g : Gang} {i : Instr} {pc : W64} {m : W32}
  {stored : Bool} {ms : List Thread}

/-- A claim or give of a gathering with an active member. -/
theorem exec_claim (h : Complete s blk gang lane t b g i pc m stored ms) (ha : gatherActs s b ms ≠ [])
    (hi : (∃ k n, i = .rclaim k n) ∨ (∃ k n, i = .rgive k n) ∨ ∃ k d n, i = .rtry k d n) :
    exec (.gatheringComplete blk gang lane) s = .next (claimEff s b g i pc ms (gatherActs s b ms)) := by
  rw [exec_gatheringComplete h, ← claimed_active h ha]
  obtain ⟨k, n, rfl⟩ | ⟨k, n, rfl⟩ | ⟨k, d, n, rfl⟩ := hi
  all_goals rfl

/-- Every arrived thread faults. -/
theorem faults_of_gatherFault (h : Complete s blk gang lane t b g i pc m stored ms) (op : Nat) (f : Flt)
    (hf : f.cause < 0x20) : ∀ u ∈ ms, ∃ v r, getThread (gatherFault s b pc op ms f) u.blk u.gang u.lane = some v ∧
      v.wait = .none ∧ v.fault = some r ∧ r.cause.toNat = f.cause ∧ r.pc = pc := by
  intro u hu
  obtain ⟨-, hms⟩ := mem_gathering h
  obtain ⟨hin, hub, -⟩ := hms u hu
  obtain ⟨v, hv, hw, hr⟩ := getThread_gatherFault s b pc op ms f hf u hu (hub.trans (getBlock_uid h.block).symm) hin
  exact ⟨v, _, hv, hw, hr, by simp [Flt.toRec]; omega, rfl⟩

end Claims
end Sys2Proof.Machine

namespace Sys2Proof.Laws
open Machine

/-- Settles O15: a complete gathering without an error in its sources has its effect on its active members. -/
theorem collectiveResults : Obligations.CollectiveResults := by
  unfold Obligations.CollectiveResults
  refine ⟨?_, ?_, ?_⟩
  · intro s blk gang lane t b g i pc m stored ms ht hb hg hw hall halive hsound herrs hbad active act at_
    have h : Complete s blk gang lane t b g i pc m stored ms := ⟨ht, hb, hg, hw, hall, halive, hsound, herrs, hbad⟩
    have hact : act = gatherActs s b ms := rfl
    have huid : b.uid = blk := getBlock_uid hb
    obtain ⟨hgblk, hgnum⟩ := gang_is hg
    intro ends gives decides op start faults each
    clear_value act
    subst hact
    refine ⟨?_, ?_, ?_, ?_, ?_, ?_, ?_, ?_, ?_, ?_, ?_, ?_, ?_, ?_, ?_, ?_⟩
    · rintro k w mk pm d a q c x rfl
      refine exec_gatheringComplete_eq h rfl (congrArg (pairCommit s d _) (List.map_congr_left fun u _ => ?_))
      exact congrArg (fun v : Lane => (u, v.rd a (wN w))) (memberAt_getD _ _ u)
    · rintro k mk d a q c x rfl
      refine exec_gatheringComplete_eq h rfl (congrArg (pairCommit s d _) (List.map_congr_left fun u _ => ?_))
      by_cases hj : u.rd x 32 < 32
      · simp only [hj, if_true, at_, find_tid_natCast]
      · have : ((u.rd x 32 : Int) - 32) = ((u.rd x 32 - 32 : Nat) : Int) := by omega
        simp only [hj, if_false, at_, this, find_tid_natCast] <;> rfl
    · rintro k mk d a c rfl
      refine exec_gatheringComplete_eq h rfl (congrArg (pairCommitP s d) (List.map_congr_left fun u _ => ?_))
      simp
    · rintro k mk d a c rfl
      refine exec_gatheringComplete_eq h rfl (congrArg (pairCommitP s d) (List.map_congr_left fun u _ => ?_))
      simp
    · rintro k mk d a c rfl
      refine exec_gatheringComplete_eq h rfl (congrArg (pairCommitP s d) (List.map_congr_left fun u _ => ?_))
      rw [all_eq_head_iff]
      simp only [List.all_map]
      rfl
    · rintro k mk d a c rfl
      refine ⟨_, ofBits_lt 32 _, exec_gatheringComplete_eq h rfl rfl, fun j hj => ?_⟩
      rw [testBit_ofBits _ hj]
      simp only [at_, find_tid_natCast] <;> rfl
    · rintro k mk d c rfl
      refine exec_gatheringComplete_eq h rfl (congrArg (pairCommitP s d) (List.map_congr_left fun u _ => ?_))
      cases (gatherActs s b ms).head? <;> simp
    · rintro k w sg mk gop d a c rfl
      refine exec_gatheringComplete_eq h rfl (congrArg (pairCommit s d _) (List.map_congr_left fun u _ => ?_))
      rw [List.foldl_map]
      rfl
    · rintro k w sg mk gop ex d a c rfl
      refine exec_gatheringComplete_eq h rfl (congrArg (pairCommit s d _) (List.map_congr_left fun u _ => ?_))
      simp only [List.foldl_map]
      rfl
    · rintro k n hi ha
      refine (exec_gatheringComplete h).trans ?_
      rw [← claimed_inactive h ha]
      obtain rfl | rfl | ⟨d, rfl⟩ := hi
      all_goals rfl
    · rintro k n hi ha hover
      obtain rfl | ⟨d, rfl⟩ := hi
      · refine ⟨_, (exec_claim h ha (.inl ⟨k, n, rfl⟩)).trans ?_, faults_of_gatherFault h 0x33 { cause := 0x02 } (by decide)⟩
        simp only [claimEff, if_pos hover]
      · refine ⟨_, (exec_claim h ha (.inr (.inr ⟨k, d, n, rfl⟩))).trans ?_,
          faults_of_gatherFault h 0x35 { cause := 0x02 } (by decide)⟩
        simp only [claimEff, if_pos hover]
    · rintro k n rfl ha hfits
      refine (exec_claim h ha (.inl ⟨k, n, rfl⟩)).trans ?_
      simp only [claimEff, if_neg (Nat.not_lt.2 hfits), huid, hgnum]
      rfl
    · rintro k d n rfl ha hfits hp had
      refine (exec_claim h ha (.inr (.inr ⟨k, d, n, rfl⟩))).trans ?_
      have hsat : satisfiable s blk (n.toNat % 32) = had := by simp [satisfiable, hb, had]
      simp only [claimEff, if_neg (Nat.not_lt.2 hfits), huid, hsat, hgnum, irrevocable_of_plain hb hp, ite_self,
        keptBack_of_plain hb hp, Bool.and_false, Bool.false_eq_true, if_false]
    · rintro k n rfl ha hover
      refine ⟨_, (exec_claim h ha (.inr (.inl ⟨k, n, rfl⟩))).trans ?_, faults_of_gatherFault h 0x34 { cause := 0x16 } (by decide)⟩
      simp only [claimEff, if_pos hover]
    · rintro k n rfl ha hfits hbl
      refine (exec_claim h ha (.inr (.inl ⟨k, n, rfl⟩))).trans ?_
      simp only [claimEff, if_neg (Nat.not_lt.2 hfits), hbl, if_true]
      rfl
    · rintro k n rfl ha hfits hbl hp
      refine ⟨clearRegs (modGang s blk gang fun g => { g with ext := g.ext - n.toNat % 32 }) blk gang
        (g.limit - 8 * (n.toNat % 32)) g.limit, (exec_claim h ha (.inr (.inl ⟨k, n, rfl⟩))).trans ?_, ?_, rfl, fun l j => ?_⟩
      · simp [claimEff, Nat.not_lt.2 hfits, hbl, huid, hgnum, irrevocable_of_plain hb hp, keptBack_of_plain hb hp]
      · exact ext_modGang hg fun g => g.ext - n.toNat % 32
      · exact vReg_clearRegs _ _ _ _ _ _ _
  · intro s blk gang g n hg
    rw [grantUnits_of_gang hg]
    exact ⟨ext_modGang hg fun g => g.ext + n, fun l j => vReg_clearRegs _ _ _ _ _ _ _⟩
  · exact setGathered_unflipped

end Sys2Proof.Laws
end

section
/-! PROOF. The address of an access, its checks, and its issue (08 R158, R164, R165, R170; 09 R192-R196; O16). -/

namespace Sys2Proof.Machine

/-! ### An index, made valid -/

theorem fixIdx_in {k : Int} {e m : Nat} (h : 0 ≤ k ∧ k < e) : fixIdx k e m = .ok (some k) := by simp [fixIdx, h]
theorem fixIdx_error {k : Int} {e m : Nat} (h : ¬(0 ≤ k ∧ k < e)) (hm : m = 0 ∨ (e = 0 ∧ m ≠ 1)) :
    fixIdx k e m = .error { cause := 0x06, info := lowBits 64 k } := by
  rw [fixIdx, if_neg h]
  obtain rfl | ⟨rfl, hm⟩ := hm
  · rfl
  · simp [hm]
theorem fixIdx_drop {k : Int} {e : Nat} (h : ¬(0 ≤ k ∧ k < e)) : fixIdx k e 1 = .ok none := by
  rw [fixIdx, if_neg h]
  rfl
theorem fixIdx_clamp {k : Int} {e : Nat} (h : ¬(0 ≤ k ∧ k < e)) (he : 0 < e) :
    fixIdx k e 2 = .ok (some (if k < 0 then 0 else (e : Int) - 1)) := by
  have hmin : min (max k 0) ((e : Int) - 1) = if k < 0 then 0 else (e : Int) - 1 := by
    split <;> omega
  rw [fixIdx, if_neg h, hmin]
  simp [he.ne']
theorem fixIdx_wrap {k : Int} {e : Nat} (h : ¬(0 ≤ k ∧ k < e)) (he : 0 < e) : fixIdx k e 3 = .ok (some (k % e)) := by
  rw [fixIdx, if_neg h]
  simp [he.ne']
theorem fixIdx_error_cause {k : Int} {e m : Nat} {f : Flt} (h : fixIdx k e m = .error f) : f.cause = 0x06 := by
  unfold fixIdx at h
  split at h
  · cases h
  · split at h
    · cases h; rfl
    · split at h
      · cases h
      · split at h
        · cases h; rfl
        · split at h <;> cases h

/-! ### The address of an access -/

/-- The second index of an access: 0 for a record of one dimension. -/
def secondIdx (x : Lane) (r : Rec) (a : Reg) : Int :=
  if r.ext1 = 0 then 0 else if a.toNat < 192 then (x.v (a.toNat + 1) : Nat) else (x.s (a.toNat - 192) / 2 ^ 32 : Nat)
/-- The kind of an access goes into its PAGE or PERM fault. -/
def withKind (kind : Nat) (o : Except Flt (Option Nat)) : Except Flt (Option Nat) :=
  match o with
  | .error e => .error (if e.cause = 0x09 ∨ e.cause = 0x0A then { e with kind := kind } else e)
  | o => o

theorem ea_eq {x : Lane} {r : Rec} {a : Reg} (h : r.ext1 = 0 ∨ a ≠ 191) (off : Int) (sz : Nat) (writes : Bool)
    (kind : Nat) : ea x r a off sz writes kind =
      withKind kind (eaIdx r (x.rd a 32 + off) (secondIdx x r a) sz writes) := by
  unfold ea secondIdx
  by_cases he : r.ext1 = 0
  · simp only [he, if_true]
    rfl
  · have ha : a.toNat ≠ 191 := fun hc => (h.resolve_left he) (BitVec.eq_of_toNat_eq hc)
    simp only [he, ha, if_false]
    by_cases hv : a.toNat < 192
    · simp only [hv, if_true]
      rfl
    · simp only [hv, if_false]
      rfl

/-- The address where both indices are valid: the checks of R164 in their order. -/
theorem eaIdx_valid {r : Rec} {i j p q : Int} {sz : Nat} {writes : Bool} (hi : fixIdx i r.ext0 r.bnd = .ok (some p))
    (hj : fixIdx j (if r.ext1 = 0 then 1 else r.ext1) r.bnd = .ok (some q)) :
    eaIdx r i j sz writes =
      let addr : Int := r.base + p * r.stride0 + q * r.stride1
      let info := lowBits 64 addr
      if r.spc ∧ fmtW r.fmt < sz then .error { cause := 0x06, info := info }
      else if !r.spc ∧ (addr < 0 ∨ (2 : Int) ^ 57 < addr + sz) then .error { cause := 0x09, info := info }
      else if addr % sz ≠ 0 then .error { cause := 0x08, info := info }
      else if r.ro ∧ writes then .error { cause := 0x0A, info := info }
      else .ok (some addr.toNat) := by
  simp only [eaIdx, hi, hj]
  rfl
theorem eaIdx_first {r : Rec} {i j : Int} {sz : Nat} {writes : Bool} {f : Flt} (hi : fixIdx i r.ext0 r.bnd = .error f) :
    eaIdx r i j sz writes = .error f := by
  simp only [eaIdx, hi]
  rfl
theorem eaIdx_second {r : Rec} {i j : Int} {p : Option Int} {sz : Nat} {writes : Bool} {f : Flt}
    (hi : fixIdx i r.ext0 r.bnd = .ok p) (hj : fixIdx j (if r.ext1 = 0 then 1 else r.ext1) r.bnd = .error f) :
    eaIdx r i j sz writes = .error f := by
  simp only [eaIdx, hi, hj]
  rfl
theorem eaIdx_drop {r : Rec} {i j : Int} {p q : Option Int} {sz : Nat} {writes : Bool}
    (hi : fixIdx i r.ext0 r.bnd = .ok p) (hj : fixIdx j (if r.ext1 = 0 then 1 else r.ext1) r.bnd = .ok q)
    (h : p = none ∨ q = none) : eaIdx r i j sz writes = .ok none := by
  simp only [eaIdx, hi, hj]
  obtain rfl | rfl := h
  · rfl
  · cases p <;> rfl

/-- A fault that is neither PAGE nor PERM carries no access kind. -/
theorem withKind_other {kind : Nat} {f : Flt} (h : f.cause = 0x06) : withKind kind (.error f) = .error f := by
  simp [withKind, h]

/-! ### The target of an access -/

section Target
variable {s : State} {x : Lane} {r : Rec} {a : Reg} {off : Int} {sz : Nat} {m : AMode} {aop : Option Nat} {issue : Nat}

theorem target_of_raw_error {f : Flt} {t : State} (h : targetRaw s x r a off sz m aop issue = (.error f, t)) :
    target s x r a off sz m aop issue = (.error { f with tag := r.tag }, t) := by
  simp only [target, h]
  rfl
theorem target_of_raw_ok {g : Tgt} {t : State} (h : targetRaw s x r a off sz m aop issue = (.ok g, t)) :
    target s x r a off sz m aop issue = (.ok g, t) := by
  simp only [target, h]
theorem targetRaw_ea_error {f : Flt} (h : ea x r a off sz m.writes m.kind = .error f) :
    targetRaw s x r a off sz m aop issue = (.error f, s) := by simp only [targetRaw, h]
theorem targetRaw_drop (h : ea x r a off sz m.writes m.kind = .ok none) :
    targetRaw s x r a off sz m aop issue = (.ok .drop, s) := by simp only [targetRaw, h]
theorem targetRaw_untranslated {addr : Nat} {f : Flt} {t : State} (h : ea x r a off sz m.writes m.kind = .ok (some addr))
    (hs : r.spc = false) (hx : laneXlate s x m.kind addr = (.error f, t)) :
    targetRaw s x r a off sz m aop issue = (.error f, t) := by
  simp only [targetRaw, h, hs, hx]
  rfl
theorem targetRaw_refused {addr pa : Nat} {f : Flt} {t : State} (h : ea x r a off sz m.writes m.kind = .ok (some addr))
    (hs : r.spc = false) (hx : laneXlate s x m.kind addr = (.ok pa, t)) (hc : globalChecks t x r pa addr sz m aop = some f) :
    targetRaw s x r a off sz m aop issue = (.error f, t) := by
  simp only [targetRaw, h, hs, hx, hc]
  rfl
theorem targetRaw_global {addr pa : Nat} {t : State} (h : ea x r a off sz m.writes m.kind = .ok (some addr))
    (hs : r.spc = false) (hx : laneXlate s x m.kind addr = (.ok pa, t)) (hc : globalChecks t x r pa addr sz m aop = none) :
    targetRaw s x r a off sz m aop issue = (.ok (.at_ .glob pa addr), t) := by
  simp only [targetRaw, h, hs, hx, hc]
  rfl

/-- The translation that a lane's access makes. -/
def laneWalk (s : State) (x : Lane) (kind va : Nat) :=
  translate s (.lane x.b.core (s.cur % 4) x.t.lane) x.b.ctx x.b.kernel kind va
    (partyOf x.b (curOp s) (curPc s) x.t.gang x.t.lane va)

theorem laneXlate_page {kind va : Nat} (h : (laneWalk s x kind va).1 = .page) :
    laneXlate s x kind va = (.error { cause := 0x09, info := va % 2 ^ 57, kind := kind }, (laneWalk s x kind va).2) := by
  unfold laneWalk at h ⊢
  rcases hw : translate s _ _ _ _ _ _ with ⟨o, t⟩
  rw [hw] at h
  cases h
  simp only [laneXlate, hw]
theorem laneXlate_perm {kind va : Nat} (h : (laneWalk s x kind va).1 = .perm) :
    laneXlate s x kind va = (.error { cause := 0x0A, info := va % 2 ^ 57, kind := kind }, (laneWalk s x kind va).2) := by
  unfold laneWalk at h ⊢
  rcases hw : translate s _ _ _ _ _ _ with ⟨o, t⟩
  rw [hw] at h
  cases h
  simp only [laneXlate, hw]
theorem laneXlate_poison {kind va pa : Nat} (h : (laneWalk s x kind va).1 = .poison pa) :
    laneXlate s x kind va = (.error (lineFlt (laneWalk s x kind va).2 pa 1 0 3), (laneWalk s x kind va).2) := by
  unfold laneWalk at h ⊢
  rcases hw : translate s _ _ _ _ _ _ with ⟨o, t⟩
  rw [hw] at h
  cases h
  simp only [laneXlate, hw]
theorem laneXlate_ok {kind va pa : Nat} (h : (laneWalk s x kind va).1 = .ok pa) :
    laneXlate s x kind va = (.ok pa, (laneWalk s x kind va).2) := by
  unfold laneWalk at h ⊢
  rcases hw : translate s _ _ _ _ _ _ with ⟨o, t⟩
  rw [hw] at h
  cases h
  simp only [laneXlate, hw]

end Target

/-! ### The issue of an access -/

/-- An access whose targets the lanes find, and what it does where they find no fault. -/
def accessEff (found : Iss → State → List LaneFlt × List (Lane × Tgt) × State)
    (perform : Iss → List (Lane × Tgt) → State → State) (i : Iss) (s : State) : IOut :=
  match found i s with
  | ([], ts, s) => .done (perform i ts s)
  | (fs, _, s) => .trap s fs

/-- An access is performed where the targets of all lanes pass, and raises the faults where not. -/
theorem access_of_exec_eq_issue {i : Instr} {op : Nat} {k : Ctl} {src : State → List RG} {dst : List RG}
    {found : Iss → State → List LaneFlt × List (Lane × Tgt) × State}
    {perform : Iss → List (Lane × Tgt) → State → State} {addr : Iss → Lane → Option Nat}
    (hrun : ∀ s, exec i s = issue op k (src s) dst s (accessEff found perform) [] addr) :
    DoesAt i op k src dst [] (fun j s => (found j s).1 = []) (fun j s => perform j (found j s).2.1 (found j s).2.2) ∧
    TrapsAt i op k src dst [] (fun j s => ((found j s).1, (found j s).2.2)) := by
  constructor
  · intro s q c b hready hok
    rw [hrun]
    refine issue_done hready ?_
    rcases hf : found (issOf s q b op k) (issued s) with ⟨fs, ts, u⟩
    rw [hf] at hok
    cases hok
    simp [accessEff, hf]
  · intro s q c b hready r hne
    rw [hrun]
    refine issue_trap hready ?_
    rcases hf : found (issOf s q b op k) (issued s) with ⟨fs, ts, u⟩
    simp only [r, hf] at hne ⊢
    cases fs with
    | nil => exact absurd rfl hne
    | cons f fs => simp [accessEff, hf]

end Sys2Proof.Machine

namespace Sys2Proof.Laws
open Machine

/-- Settles O16: the index, the address and the target go through their checks in order, and an issue performs its access
or raises what its lanes find. -/
theorem memoryAccessesIssue : Obligations.MemoryAccessesIssue := by
  unfold Obligations.MemoryAccessesIssue
  refine ⟨?_, ?_, ?_, ?_, ?_, ?_, ?_, ?_⟩
  · intro k e m
    refine ⟨fixIdx_in, fun h => ⟨fixIdx_error h, ?_, ?_, ?_⟩⟩
    · rintro rfl
      exact fixIdx_drop h
    · rintro he rfl
      exact fixIdx_clamp h he
    · rintro he rfl
      refine ⟨k % e, k / e, Int.emod_nonneg _ (by omega), Int.emod_lt_of_pos _ (by omega), ?_, fixIdx_wrap h he⟩
      rw [mul_comm]
      exact (Int.emod_add_mul_ediv k e).symm
  · intro x r a off sz writes kind i j first second gives
    refine ⟨?_, fun h => ⟨?_, ?_, ?_, ?_⟩⟩
    · rintro he rfl
      simp [gives, ea, he]
    · intro f hf
      exact (ea_eq h off sz writes kind).trans ((congrArg _ (eaIdx_first hf)).trans (withKind_other (fixIdx_error_cause hf)))
    · intro p f hp hf
      exact (ea_eq h off sz writes kind).trans
        ((congrArg _ (eaIdx_second hp hf)).trans (withKind_other (fixIdx_error_cause hf)))
    · intro p q hp hq hn
      exact (ea_eq h off sz writes kind).trans (congrArg _ (eaIdx_drop hp hq hn))
    · intro p q hp hq addr info far
      have hea := (ea_eq h off sz writes kind).trans (congrArg (withKind kind) (eaIdx_valid hp hq))
      refine ⟨fun hs hw => ?_, fun hs hf => ?_, fun hs hf => ⟨fun hm => ?_, fun hm hr hwr => ?_, fun hm hok => ?_⟩⟩
      · refine hea.trans ?_
        simp only [hs, hw, and_self, if_true]
        rfl
      · refine hea.trans ?_
        simp only [hs, Bool.false_eq_true, false_and, if_false, Bool.not_false, true_and]
        rw [if_pos hf]
        rfl
      all_goals
        have hw : ¬(r.spc = true ∧ fmtW r.fmt < sz) := fun hc => absurd (hs hc.1) (Nat.not_le.2 hc.2)
        have hfar : ¬((!r.spc) = true ∧ far) := fun hc => hf (by simpa using hc.1) hc.2
        refine hea.trans ?_
        simp only [if_neg hw]
        rw [if_neg hfar]
      · rw [if_pos hm]
        rfl
      · rw [if_neg (not_not.2 hm), if_pos ⟨hr, hwr⟩]
        rfl
      · rw [if_neg (not_not.2 hm), if_neg]
        · rfl
        · rintro ⟨hr, hw⟩
          simp [hr, hw] at hok
  · intro s x r a off sz m aop no from_ gives faults
    refine ⟨fun f hf => ?_, fun hf => ?_, fun addr hf hs => ⟨fun f hc => ?_, fun hc => ⟨fun f he => ?_, fun he => ?_⟩⟩,
      fun addr hf hs => ?_⟩
    · exact target_of_raw_error (targetRaw_ea_error hf)
    · exact target_of_raw_ok (targetRaw_drop hf)
    · exact target_of_raw_error (by simp [targetRaw, show ea x r a off sz m.writes m.kind = _ from hf, hs, hc])
    · exact target_of_raw_error (by simp [targetRaw, show ea x r a off sz m.writes m.kind = _ from hf, hs, hc, he])
    · exact target_of_raw_ok (by simp [targetRaw, show ea x r a off sz m.writes m.kind = _ from hf, hs, hc, he])
    · intro w
      refine ⟨fun hw => ?_, fun hw => ?_, fun pa hw => ?_, fun pa hw => ⟨fun f hc => ?_, fun hc => ?_⟩⟩
      · exact target_of_raw_error (targetRaw_untranslated hf hs (laneXlate_page hw))
      · exact target_of_raw_error (targetRaw_untranslated hf hs (laneXlate_perm hw))
      · exact target_of_raw_error (targetRaw_untranslated hf hs (laneXlate_poison hw))
      · exact target_of_raw_error (targetRaw_refused hf hs (laneXlate_ok hw) hc)
      · exact target_of_raw_ok (targetRaw_global hf hs (laneXlate_ok hw) hc)
  · intro s x writes f from_
    refine ⟨fun e t h => ?_, fun g t h => ?_⟩
    · simp [targets, show f (settleFences s x.t.blk x.t.gang x.t.lane writes) x = _ from h]
    · simp [targets, show f (settleFences s x.t.blk x.t.gang x.t.lane writes) x = _ from h]
  · intro k ord scope size d a bq cp off m found src
    exact access_of_exec_eq_issue (found := found) (perform := fun j ts s =>
      ts.foldl (ldLane j (Rec.of (j.b.recOf bq.toNat)) m ord scope (accBytes size) d) s) fun s => rfl
  · intro k ord scope size d a bq cp off m found src
    exact access_of_exec_eq_issue (found := found) (perform := fun j ts s =>
      ts.foldl (stLane j (Rec.of (j.b.recOf bq.toNat)) m ord scope size d) s) fun s => rfl
  · intro k ord scope size d a bq aop off m found src does
    exact ⟨access_of_exec_eq_issue (found := found) (perform := fun j ts s =>
      ts.foldl (atomLane j (Rec.of (j.b.recOf bq.toNat)) m ord scope size d aop true)
        (atomIrrevocable s (Rec.of (j.b.recOf bq.toNat)) ts j.b.uid)) fun s => rfl,
      access_of_exec_eq_issue (found := found) (perform := fun j ts s =>
      ts.foldl (atomLane j (Rec.of (j.b.recOf bq.toNat)) m ord scope size d aop false)
        (atomIrrevocable s (Rec.of (j.b.recOf bq.toNat)) ts j.b.uid)) fun s => rfl⟩
  · intro k ord scope size d a bq cp off found src
    exact access_of_exec_eq_issue (found := found) (perform := fun j ts s =>
      ts.foldl (casLane j (Rec.of (j.b.recOf bq.toNat)) ord scope size d)
        (atomIrrevocable s (Rec.of (j.b.recOf bq.toNat)) ts j.b.uid)) fun s => rfl

end Sys2Proof.Laws
end

section
/-! PROOF. What the entry of an access holds, and what a dropped access leaves (08 R164, R165, R170; 09 R192-R196; O17, O18). -/

namespace Sys2Proof.Machine

/-- An access is one entry, or two of 64 bits. -/
theorem halves_cases (addr n : Nat) :
    halves addr n = [(addr, n, 0)] ∨ halves addr n = [(addr, 8, 0), (addr + 8, 8, 1)] := by
  unfold halves
  split
  · exact .inr rfl
  · exact .inl rfl

theorem settleAccess_unchecked {s : State} {i : Iss} {x : Lane} {r : Rec} {sp : Space} {addr n : Nat} {m : AMode}
    {acq : Option Nat} {ids : List Nat} (h : isChecked i.b r = false) :
    settleAccess s i x r sp addr n m acq ids = if m.kind = 1 then s else noteRead s x [] := by
  simp [settleAccess, h]

theorem markOf_unchecked {s : State} {b : Block} {r : Rec} (h : isChecked b r = false) (atomic : Bool) :
    markOf s b r atomic = none := by simp [markOf, h]

end Sys2Proof.Machine

namespace Sys2Proof.Laws
open Machine

/-- Settles O17: an access of a record that is not checked adds its entries and does nothing else. -/
theorem accessEntries : Obligations.AccessEntries := by
  unfold Obligations.AccessEntries
  intro j r m x sp addr va s scope size ord d h n add info first rel released acq
  refine ⟨fun hm => ?_, fun hm => ?_, fun aop ret hm => ?_, ?_⟩
  · have hfirst : (d.toNat < 192 ∨ firstOfGang j.cmd x = true) = (first = true) := by simp [first]
    simp only [ldLane, settleAccess_unchecked h, hm, hfirst]
    obtain hh | hh := halves_cases addr n
    · rw [hh]
      rfl
    · rw [hh]
      rfl
  · simp only [stLane, settleAccess_unchecked h, hm, markOf_unchecked h, ite_self, if_true]
    obtain hh | hh := halves_cases addr n
    · rw [hh]
      rfl
    · rw [hh]
      rfl
  · simp only [atomLane, settleAccess_unchecked h, hm, markOf_unchecked h, ite_self]
    rfl
  · have hkind : (casMode d (accBytes size) x).kind ≠ 1 := by simp [casMode]
    simp only [casLane, settleAccess_unchecked h, markOf_unchecked h, ite_self, if_neg hkind]
    cases (casMode d (accBytes size) x).tagWrites s x.t.blk sp addr (accBytes size)
    · rfl
    · rfl

/-- Settles O18: a dropped access has one entry that returns 0, or none, and its release orders. -/
theorem droppedAccesses : Obligations.DroppedAccesses := by
  unfold Obligations.DroppedAccesses
  intro j r m x s scope size n ord d add first ordered
  have hfirst : (d.toNat < 192 ∨ firstOfGang j.cmd x = true) = (first = true) := by simp [first]
  refine ⟨?_, fun ho => ?_, fun ho => ?_, fun aop => ?_, fun aop => rfl, ?_⟩
  · simp only [ldLane, hfirst]
    rfl
  · simp [stLane, ho]
  · have : ord ≠ 0 := by rintro rfl; simp at ho
    exact if_neg this
  · rfl
  · simp only [casLane, casResult]
    rfl

end Sys2Proof.Laws
end

section
/-! PROOF. Fences, buffer records, barriers and stage rings (08 R174, R182; 09 R197-R199; 12 R263-R274; O19, O20, O21). -/

namespace Sys2Proof.Machine

/-- A barrier operation where each lane's reference passes its checks and no object refuses (12 R263, R264). -/
theorem does_of_exec_eq_barOp {i : Instr} {op : Nat} {k : Ctl} {g : Bool} {src : List RG} {d a : Reg}
    (bad : State → Lane → BarRef → W64 → Option Flt) (eff : Iss → State → List (Lane × BarRef × W64) → State)
    (hrun : ∀ s, exec i s = barOp op k g src [r32 d] a s bad eff) :
    DoesWhen i op k ((if g then r64 a else r32 a) :: src) [r32 d]
      (fun j s => (barRefs s j.cmd g a).1 = [] ∧
        ∀ r ∈ (barRefs s j.cmd g a).2.1, bad (barRefs s j.cmd g a).2.2 r.1 r.2.1 r.2.2 = none)
      (fun j s =>
        let f := barRefs s j.cmd g a
        eff j (if g && !f.2.1.isEmpty then irrevocable f.2.2 j.b.uid else f.2.2) f.2.1) := by
  intro s q c b hready hok
  obtain ⟨href, hobj⟩ := hok
  rw [hrun]
  exact barOp_ready hready bad eff href hobj

end Sys2Proof.Machine

namespace Sys2Proof.Laws
open Machine

/-- Settles O19: no lane of a fence or of BGET and PREF is refused, SCFENCE with an active thread is an irrevocable event,
and the record of BSET passes its checks. -/
theorem fencesAndRecords : Obligations.FencesAndRecords := by
  unfold Obligations.FencesAndRecords
  refine ⟨?_, ?_, ?_, ?_, ?_⟩
  · exact fun k ord scope => does_of_exec_eq_issue _ (fun _ => rfl) fun _ _ => rfl
  · intro k scope
    refine does_of_exec_eq_issue _ (fun _ => rfl) fun j s => ?_
    split
    · rfl
    · rfl
  · intro k d a
    refine doesWhen_of_exec_eq_issue _ (fun _ => rfl) fun s q c b hready hok => ?_
    cases hx : (issOf s q b 0x77 k).act.head? with
    | none => rfl
    | some x =>
      obtain ⟨hrec, hclean⟩ := hok x hx
      refine (if_pos hclean).trans ?_
      simp only [bsetLane, hrec]
      rfl
  · exact fun k d a => does_of_exec_eq_issue _ (fun _ => rfl) fun _ _ => rfl
  · exact fun k size a bq cp off => doesAt_of_exec_eq_issue _ _ (fun _ => rfl) fun _ _ _ _ _ _ => rfl

/-- Settles O20: each barrier instruction is a barrier operation with its own refusals and effect. -/
theorem barrierInstructions : Obligations.BarrierInstructions := by
  unfold Obligations.BarrierInstructions
  intro does typed
  have hdoes (i : Instr) (op : Nat) (k : Ctl) (g : Bool) (src : List RG) (d a : Reg)
      (bad : State → Lane → BarRef → W64 → Option Flt) (eff : Iss → State → List (Lane × BarRef × W64) → State)
      (hrun : ∀ s, exec i s = barOp op k g src [r32 d] a s bad eff) : does i op k g src d a bad eff :=
    does_of_exec_eq_barOp bad eff hrun
  clear_value does
  refine ⟨?_, ?_, ?_, ?_, ?_, ?_, ?_, ?_⟩
  · exact fun k g d a b c => hdoes _ _ _ _ _ _ _ _ _ fun _ => rfl
  · exact fun k g d a => hdoes _ _ _ _ _ _ _ _ _ fun _ => rfl
  · exact fun k g d a => hdoes _ _ _ _ _ _ _ _ _ fun _ => rfl
  · exact fun k g d a b => hdoes _ _ _ _ _ _ _ _ _ fun _ => rfl
  · exact fun k g d a => hdoes _ _ _ _ _ _ _ _ _ fun _ => rfl
  · exact fun k g d a => hdoes _ _ _ _ _ _ _ _ _ fun _ => rfl
  · exact fun k g d a => hdoes _ _ _ _ _ _ _ _ _ fun _ => rfl
  · exact fun k g d a x => hdoes _ _ _ _ _ _ _ _ _ fun _ => rfl

/-- Settles O21: every active thread of a ring instruction gets the result of its gang's ring. -/
theorem ringInstructions : Obligations.RingInstructions := by
  unfold Obligations.RingInstructions
  intro take
  have htake (i : Instr) (op : Nat) (fill : Bool) (k : Ctl) (nb : Bool) (d a : Reg)
      (hrun : ∀ s, exec i s = ringTake op fill k nb d a s) : take i op fill k nb d a := by
    refine does_of_exec_eq_issue _ hrun fun j s => ?_
    dsimp only
    cases j.cmd.head? with
    | none => rfl
    | some x =>
      dsimp only
      cases blockRing s x.b (x.rd a 32) with
      | none => rfl
      | some r =>
        dsimp only
        cases (if r.busy fill then none else grantSlot r x.t.gang fill (fresh s).1) with
        | some q => rfl
        | none =>
          cases nb
          · rfl
          · rfl
  refine ⟨?_, ?_, ?_, ?_, ?_, ?_⟩
  · exact fun k d a => does_of_exec_eq_issue _ (fun _ => rfl) fun _ _ => rfl
  · exact fun k d a => does_of_exec_eq_issue _ (fun _ => rfl) fun _ _ => rfl
  · exact fun k nb d a => htake _ _ _ _ _ _ _ fun _ => rfl
  · exact fun k nb d a => htake _ _ _ _ _ _ _ fun _ => rfl
  · intro k a b c
    refine doesWhen_of_exec_eq_issue _ (fun _ => rfl) fun s q cl bl hready hok => ?_
    dsimp only
    rw [lane1_none _ _ fun x hx => ?held]
    case held => rw [if_pos (hok x hx)]
  · intro k a b
    refine doesWhen_of_exec_eq_issue _ (fun _ => rfl) fun s q cl bl hready hok => ?_
    obtain ⟨hheld, hread⟩ := hok
    have hno : (issOf s q bl 0x9C k).cmd.any (fun x => match blockRing (issued s) x.b (x.rd a 32) with
        | some r => slotRead (issued s) r (x.rd b 32 % 64) | none => false) = false := by
      rw [List.any_eq_false]
      intro x hx
      cases hr : blockRing (issued s) x.b (x.rd a 32) with
      | none => simp
      | some r => simp [hread x hx r hr]
    dsimp only
    rw [lane1_none _ _ fun x hx => ?held]
    case held => rw [if_pos (hheld x hx)]
    exact (if_neg (Bool.eq_false_iff.1 hno)).trans rfl

end Sys2Proof.Laws
end

section
/-! PROOF. Copy batches, matrix units and the baton (14 R287-R289; 15 R303-R305; O23, O24). -/

namespace Sys2Proof.Laws
open Machine

/-- Settles O23: no thread of CSEAL has its window full, and CWAIT and CPOLL are never refused. -/
theorem copyBatches : Obligations.CopyBatches := by
  unfold Obligations.CopyBatches
  refine ⟨?_, ?_, ?_⟩
  · intro k d
    refine doesWhen_of_exec_eq_issue _ (fun _ => rfl) fun s q c b hready hok => ?_
    refine if_neg ?_
    rw [Bool.not_eq_true, List.any_eq_false]
    intro x hx
    simpa using hok x hx
  · exact fun k d a => does_of_exec_eq_issue _ (fun _ => rfl) fun _ _ => rfl
  · exact fun k d => does_of_exec_eq_issue _ (fun _ => rfl) fun _ _ => rfl

/-- Settles O24: where the run of MREL is in no use and the gang of MPASS has the baton, each instruction gives the code of
its case. -/
theorem matrixUnitsAndBaton : Obligations.MatrixUnitsAndBaton := by
  unfold Obligations.MatrixUnitsAndBaton
  refine ⟨?_, ?_, ?_, ?_⟩
  · intro k kd nb d a b
    refine does_of_exec_eq_issue _ (fun _ => rfl) fun j s => ?_
    cases hx : j.cmd.head? with
    | none => rfl
    | some x =>
      dsimp only
      split_ifs <;> rfl
  · intro k kd d a b
    refine doesWhen_of_exec_eq_issue _ (fun _ => rfl) fun s q c bl hready hok => ?_
    cases hx : (issOf s q bl 0xA9 k).cmd.head? with
    | none => rfl
    | some x =>
      have hbusy : ¬((List.range (x.rd b 32)).any fun n =>
          unitBusy (irrevocable (issued s) (issOf s q bl 0xA9 k).b.uid) (issOf s q bl 0xA9 k).b.uid kd.toNat
            (x.rd a 32 + n)) = true := by
        rw [Bool.not_eq_true, List.any_eq_false]
        intro n hn
        simp [hok x hx n (List.mem_range.1 hn)]
      dsimp only
      split_ifs <;> rfl
  · exact fun k d => does_of_exec_eq_issue _ (fun _ => rfl) fun _ _ => rfl
  · intro k d a
    refine doesWhen_of_exec_eq_issue _ (fun _ => rfl) fun s q c bl hready hok => ?_
    cases hx : (issOf s q bl 0xAB k).cmd.head? with
    | none => rfl
    | some x =>
      have hbaton : hasBaton (issued s) x = true := by simp [hasBaton, hok x hx]
      simp only [hbaton, Bool.not_true, Bool.false_eq_true, if_false]
      exact ((apply_ite IOut.done _ _ _).trans (if_congr Iff.rfl rfl (apply_ite IOut.done _ _ _))).symm

end Sys2Proof.Laws
end

section
/-! PROOF. What leaves the bytes of scratchpads as they are: records of machine checks, the correction of errors and the
tags of accesses. -/

namespace Sys2Proof.Machine

/-- A record for the log changes no block. -/
@[simp] theorem writeMck_blocks (s : State) (m : McRec) : (writeMck s m).blocks = s.blocks := by
  unfold writeMck
  dsimp only
  split_ifs <;> rfl

@[simp] theorem logMck_blocks (s : State) (m : McRec) : (logMck s m).blocks = s.blocks := by
  unfold logMck
  dsimp only
  split_ifs <;> simp

theorem foldl_logMck_blocks {α : Type} (f : α → McRec) (l : List α) (s : State) :
    (l.foldl (fun s e => logMck s (f e)) s).blocks = s.blocks := by
  induction l generalizing s with
  | nil => rfl
  | cons e t ih => rw [List.foldl_cons, ih, logMck_blocks]

/-- Bytes of scratchpad are found in the blocks. -/
theorem readScratch_congr {s t : State} (h : t.blocks = s.blocks) (b off n : Nat) :
    readScratch t b off n = readScratch s b off n := by
  unfold readScratch getBlock
  rw [h]

/-- An update of blocks that keeps their numbers and their scratchpads. -/
theorem readScratch_modBlock (s : State) (blk : Nat) (f : Block → Block) (hu : ∀ b, (f b).uid = b.uid)
    (hs : ∀ b, (f b).scratch = b.scratch) (b off n : Nat) :
    readScratch (modBlock s blk f) b off n = readScratch s b off n := by
  by_cases hb : blk = b
  · subst hb
    unfold readScratch
    rw [getBlock_modBlock _ _ _ fun x => by rw [hu]]
    cases getBlock s blk with
    | none => rfl
    | some x => simp [hs]
  · unfold readScratch
    rw [getBlock_modBlock_other _ _ _ _ (fun x => by rw [hu]) hb]

theorem readScratch_correctScratch (i : Iss) (x : Lane) (o m : Nat) (s : State) (b off n : Nat) :
    readScratch (correctScratch i x o m s) b off n = readScratch s b off n := by
  unfold correctScratch correctErrs
  split
  · rfl
  · refine (readScratch_modBlock _ _ _ ?_ ?_ _ _ _).trans (readScratch_congr (foldl_logMck_blocks _ _ _) _ _ _)
    · exact fun _ => rfl
    · exact fun _ => rfl

theorem readScratch_tagScratch (s : State) (blk g l o m : Nat) (w p : Bool) (i b off n : Nat) :
    readScratch (tagScratch s blk g l o m w p i) b off n = readScratch s b off n := by
  refine readScratch_modBlock _ _ _ ?_ ?_ _ _ _
  · exact fun _ => rfl
  · exact fun _ => rfl

/-- Reading a list corrects errors and leaves tags, and changes no byte. -/
theorem readScratch_readList (s : State) (i : Iss) (x : Lane) (o m b off n : Nat) :
    readScratch (readList s i x o m) b off n = readScratch s b off n := by
  unfold readList
  rw [← readScratch_correctScratch i x o m s b off n]
  generalize correctScratch i x o m s = s
  induction wordsOf o m generalizing s with
  | nil => rfl
  | cons w t ih =>
    rw [List.foldl_cons, ih]
    split
    · rfl
    · exact readScratch_tagScratch ..

end Sys2Proof.Machine
end

section
/-! PROOF. The matrix instructions that queue operations, and MMASK (15 R297-R302, R307, R308, R312-R317; O25, O26). -/

namespace Sys2Proof.Machine

/-- What one lane reads for the whole of an issue holds no error: the effect is performed from the same state. -/
theorem readOne_clean {i : Iss} {x : Lane} {src : List RG} {s : State} (hb : getBlock s i.b.uid = some i.b)
    (h : ∀ dbl, (meets i.b i.k x src dbl).none = true) (eff : State → IOut) : readOne i x src s eff = eff s := by
  have hcorr : correctMet s i.b i.k i.op i.pc [x] src = s :=
    correctMet_clean _ _ _ _ _ _ _ hb fun y hy => by rw [List.mem_singleton.1 hy]; exact h false
  unfold readOne
  rw [if_pos (h true), hcorr]

theorem addMop_eq (s : State) (x : Lane) (pc : W64) (kd : MKind) : addMop s x pc kd = (s.nextId, { s with
    nextId := s.nextId + 1,
    mops := if isKilled s x.t.blk then s.mops
      else s.mops ++ [⟨s.nextId, x.b.core, x.t.blk, x.t.gang, x.t.lane, pc, true, kd⟩] }) := by
  show (s.nextId, if isKilled s x.t.blk = true then (fresh s).2 else { (fresh s).2 with
    mops := s.mops ++ [⟨s.nextId, x.b.core, x.t.blk, x.t.gang, x.t.lane, pc, true, kd⟩] }) = _
  split
  · rfl
  · rfl

/-- The lanes of a bundle are of its block. -/
theorem block_of_mem_lanesOf {s : State} {q : Bundle} {b : Block} (hb : getBlock s q.blk = some b) {x : Lane}
    (hx : x ∈ lanesOf s q) : x.b = b := by
  obtain ⟨m, -, hm⟩ := List.mem_filterMap.1 hx
  unfold laneOf at hm
  rw [hb] at hm
  split at hm
  · next hb' => cases hb'; cases hm; rfl
  · cases hm

theorem mem_lanesOf_of_mem_cmd {s : State} {q : Bundle} {b : Block} {op : Nat} {k : Ctl} {x : Lane}
    (hx : x ∈ (issOf s q b op k).cmd) : x ∈ lanesOf s q := by
  have hact : x ∈ activeOf s q k := by
    unfold Iss.cmd at hx
    split at hx
    · exact List.mem_of_mem_filter hx
    · exact hx
  exact List.mem_of_mem_filter hact

/-- The commanding lanes of an issue are of its block. -/
theorem block_of_mem_cmd {s : State} {op : Nat} {k : Ctl} {src dst late : List RG} {q : Bundle} {c : Clause} {b : Block}
    (h : Ready s op k src dst late q c b) {x : Lane} (hx : x ∈ (issOf s q b op k).cmd) : x.b = b :=
  block_of_mem_lanesOf h.block (mem_lanesOf_of_mem_cmd hx)

/-- The block of an issue with nothing in its way. -/
theorem getBlock_issued {s : State} {op : Nat} {k : Ctl} {src dst late : List RG} {q : Bundle} {c : Clause} {b : Block}
    (h : Ready s op k src dst late q c b) : getBlock (issued s) (issOf s q b op k).b.uid = some (issOf s q b op k).b := by
  show getBlock s b.uid = some b
  rw [getBlock_uid h.block]
  exact h.block

end Sys2Proof.Machine

namespace Sys2Proof.Laws
open Machine

/-- Settles O25: where the units are held and the checks pass, each instruction queues its operation. -/
theorem matrixOperationsQueue : Obligations.MatrixOperationsQueue := by
  unfold Obligations.MatrixOperationsQueue
  intro smalls mmaDoes outAll
  have hmma (i : Instr) (op : Nat) (f : Fmt) (k : Ctl) (sc rk tr : Bool) (mt : BitVec 3) (a b c : Reg) (x : BitVec 8)
      (hrun : ∀ s, exec i s = mma op f k sc rk tr mt a b c x s) : mmaDoes i op f k sc rk tr mt a b c x := by
    intro s q cl bl hready hok
    obtain ⟨hquarters, hscales, hclean, hroom⟩ := hok
    rw [hrun]
    exact mma_ready hready hquarters hscales hclean hroom
  refine ⟨addMop_eq, ?_, ?_, ?_, ?_, ?_, ?_, ?_, ?_, ?_, ?_, ?_⟩
  · intro k ik d
    refine doesWhen_of_exec_eq_issue _ (fun _ => rfl) fun s q c b hready hok => ?_
    cases hx : (issOf s q b 0xAC k).cmd.head? with
    | none => rfl
    | some x => exact if_neg (by rw [Option.isNone_iff_eq_none]; rintro h; simp [h] at hok)
  · exact fun k sc rk tr mt a b c x => hmma _ _ _ _ _ _ _ _ _ _ _ _ fun _ => rfl
  · exact fun k sc rk tr mt a b c x => hmma _ _ _ _ _ _ _ _ _ _ _ _ fun _ => rfl
  · exact fun k sc rk tr mt a b c x => hmma _ _ _ _ _ _ _ _ _ _ _ _ fun _ => rfl
  · exact fun k sc rk tr mt a b c x => hmma _ _ _ _ _ _ _ _ _ _ _ _ fun _ => rfl
  · exact fun k sc rk tr mt a b c x => hmma _ _ _ _ _ _ _ _ _ _ _ _ fun _ => rfl
  · exact fun k sc rk tr mt a b c x => hmma _ _ _ _ _ _ _ _ _ _ _ _ fun _ => rfl
  · exact fun k sc rk tr mt a b c x => hmma _ _ _ _ _ _ _ _ _ _ _ _ fun _ => rfl
  · intro k ad rk d a b x
    refine doesAt_of_exec_eq_issue _ _ (fun _ => rfl) fun s q c bl hready hok => ?_
    cases hx : (issOf s q bl 0xB4 k).cmd.head? with
    | none => rfl
    | some l =>
      obtain ⟨hcheck, hclean⟩ := hok l hx
      dsimp only
      rw [readOne_clean (getBlock_issued hready) hclean]
      simp only [hcheck]
      rfl
  · intro k d a x
    refine doesWhen_of_exec_eq_issue _ (fun _ => rfl) fun s q c b hready hok => ?_
    cases hx : (issOf s q b 0xB5 k).cmd.head? with
    | none => rfl
    | some l => exact if_neg (by rw [Option.isNone_iff_eq_none]; rintro h; simp [h] at hok)
  · intro k bk
    refine does_of_exec_eq_issue _ (fun _ => rfl) fun j s => ?_
    cases hx : j.cmd.head? with
    | none => rfl
    | some l =>
      dsimp only
      split_ifs <;> rfl

/-- Settles O26: with the thread's own stores performed no check of MMASK fails, and the tile is loaded. -/
theorem maskTilesAreLoaded : Obligations.MaskTilesAreLoaded := by
  unfold Obligations.MaskTilesAreLoaded
  intro k pa d a b len own bytes
  refine doesWhen_of_exec_eq_issue _ (fun _ => rfl) fun s q c bl hready hok => ?_
  cases hx : (issOf s q bl 0xB6 k).cmd.head? with
  | none => rfl
  | some x =>
    obtain ⟨hheld, hbounds, hscratch, herrs, hparent⟩ := hok x hx
    have hb : x.b = bl := block_of_mem_cmd hready (List.mem_of_mem_head? hx)
    have hcheck : maskCheck (issOf s q bl 0xB6 k) x pa d.toNat a b (own x (issued s)) = none :=
      maskCheck_none _ _ _ _ _ _ _ hheld hbounds hscratch (hb ▸ herrs) hparent
    dsimp only
    rw [show maskCheck (issOf s q bl 0xB6 k) x pa d.toNat a b (drainBytes (issued s) x.t.blk x.t.gang x.t.lane
      (.scratch x.t.blk) (x.rd a 32) (if pa then x.rd b 32 else 512)) = none from hcheck]
    dsimp only [loadMask]
    rw [readScratch_readList]

end Sys2Proof.Laws
end

section
/-! PROOF. The TAP class, jobs and futures (10 R218, R219, R225-R230; 19 R345, R357-R361; O27-O29). -/

namespace Sys2Proof.Machine

/-- Bytes of scratchpad without a double error pass the check of a plain read. -/
theorem scratchEcc_none {b : Block} {off n : Nat} {m : AMode} (h : errsAt b (scratchWord off n) true = []) :
    scratchEcc b off n m = none := by
  unfold scratchEcc
  rw [h]
  split_ifs <;> rfl

end Sys2Proof.Machine

namespace Sys2Proof.Laws
open Machine

/-- Writes of futures with no fault among them end the issue in the state that they reach. -/
theorem done_of_no_faults {r : List LaneFlt × State} {t : State} (h : r.1 = []) :
    (match r with | ([], s) => IOut.done s | (fs, _) => IOut.trap t fs) = .done r.2 := by
  obtain ⟨fs, u⟩ := r
  subst h
  rfl

/-- Settles O27: the checks of each instruction pass under its condition, lane by lane. -/
theorem tapInstructions : Obligations.TapInstructions := by
  unfold Obligations.TapInstructions
  intro record
  refine ⟨fun k d a b c x => ?tapin, fun k d a b => ?tapw, fun k hm d a => ?taprm, fun k a b => ?trel, fun k al a => ?tapsync⟩
  case tapin =>
    refine doesWhen_of_exec_eq_issue _ (fun _ => rfl) fun s q cl bl hready hok => ?_
    cases hx : (issOf s q bl 0xB8 k).cmd.head? with
    | none => rfl
    | some l =>
      have hfault := hok l hx
      dsimp only
      generalize tapinFault (issOf s q bl 0xB8 k) l d a b c (ownWrites (issOf s q bl 0xB8 k) l d a b (issued s)) = r at hfault ⊢
      obtain ⟨f, t⟩ := r
      subst hfault
      rfl
  case tapw =>
    refine doesWhen_of_exec_eq_issue _ (fun _ => rfl) fun s q cl bl hready hok => ?_
    rw [lane1_none _ _ fun x hx => ?clean]
    case clean =>
      obtain ⟨hcheck, htyped⟩ := hok x hx
      rw [hcheck, htyped]
      rfl
  case taprm =>
    intro off
    refine doesWhen_of_exec_eq_issue _ (fun _ => rfl) fun s q cl bl hready hok => ?_
    obtain ⟨hrecord, hword⟩ := hok
    dsimp only
    rw [lane1_none _ _ fun x hx => ?clean]
    case clean =>
      obtain ⟨hcheck, htyped⟩ := hrecord x hx
      rw [hcheck, htyped]
      exact scratchEcc_none (hword x hx)
    rfl
  case trel =>
    refine doesWhen_of_exec_eq_issue _ (fun _ => rfl) fun s q cl bl hready hok => ?_
    rw [lane1_none _ _ fun x hx => if_pos (hok x hx)] <;> rfl
  case tapsync =>
    refine doesWhen_of_exec_eq_issue _ (fun _ => rfl) fun s q cl bl hready hok => ?_
    dsimp only
    rw [show (if al = true then [] else lane1 (issOf s q bl 0xBC k).cmd _) = [] from ?aligned]
    case aligned =>
      cases al with
      | true => rfl
      | false => exact lane1_none _ _ fun x hx => if_pos (hok rfl x hx)
    dsimp only
    split_ifs <;> rfl

/-- Settles O28: cards that can be read stop no JPOST; JREC and JPWAIT have no fault of their own. -/
theorem jobInstructions : Obligations.JobInstructions := by
  unfold Obligations.JobInstructions
  refine ⟨fun k d a => ?jpost, fun k d x => ?jrec, fun k d => ?jpwait⟩
  case jpost =>
    refine doesWhen_of_exec_eq_issue _ (fun _ => rfl) fun s q cl bl hready hok => ?_
    dsimp only
    generalize taskAddrs (issued s) (issOf s q bl 0xC0 k).cmd a 0 128 128 = r at hok ⊢
    obtain ⟨fs, as, t⟩ := r
    subst hok
    rfl
  case jrec => exact does_of_exec_eq_issue _ (fun _ => rfl) fun _ _ => rfl
  case jpwait => exact does_of_exec_eq_issue _ (fun _ => rfl) fun _ _ => rfl

/-- Settles O29: with addresses that are found and states that are allowed no future is refused. -/
theorem futureInstructions : Obligations.FutureInstructions := by
  unfold Obligations.FutureInstructions
  intro write
  refine ⟨fun k a => ?finit, fun k a b => ?fwr, fun k d a x => ?frd⟩
  case finit =>
    refine doesWhen_of_exec_eq_issue _ (fun _ => rfl) fun s q cl bl hready hok => ?_
    rcases hr : taskAddrs (issued s) (issOf s q bl 0xC4 k).cmd a 2 16 16 with ⟨fs, as, t⟩
    simp only [hr] at hok ⊢
    obtain ⟨rfl, hstates⟩ := hok
    exact done_of_no_faults hstates
  case fwr =>
    refine doesWhen_of_exec_eq_issue _ (fun _ => rfl) fun s q cl bl hready hok => ?_
    rcases hr : taskAddrs (issued s) (issOf s q bl 0xC5 k).cmd a 2 16 16 with ⟨fs, as, t⟩
    simp only [hr] at hok ⊢
    obtain ⟨rfl, hstates⟩ := hok
    exact done_of_no_faults hstates
  case frd =>
    intro found from_
    refine doesWhen_of_exec_eq_issue _ (fun _ => rfl) fun s q cl bl hready hok => ?_
    obtain ⟨hfound, hroom⟩ := hok
    dsimp only [found, from_] at hfound hroom ⊢
    rcases hr : taskAddrs (issued s) (issOf s q bl 0xC6 k).cmd a 0 16 16 with ⟨fs, as, t⟩
    rw [hr] at hfound hroom
    subst hfound
    exact if_neg (Nat.not_lt.2 hroom)

end Sys2Proof.Laws
end

section
/-! PROOF. Cancel scopes (10 R220-R224, R231-R234; O30). -/

namespace Sys2Proof.Machine

/-- The scope number that SCOPEN takes: the lowest one that is free. -/
theorem find_free_scope {s : State} {ctx k : Nat} (h1 : 1 ≤ k) (h2 : k ≤ 65535) (hfree : getScope s ctx k = none)
    (hlow : ∀ j, 1 ≤ j → j < k → getScope s ctx j ≠ none) :
    (List.range 65535).find? (fun k => (getScope s ctx (k + 1)).isNone) = some (k - 1) := by
  rw [List.find?_range_eq_some]
  refine ⟨?_, List.mem_range.2 (by omega), fun j hj => ?_⟩
  · rw [Nat.sub_add_cancel h1, hfree]
    rfl
  · rw [Bool.not_eq_true', Option.isNone_eq_false_iff, Option.isSome_iff_ne_none]
    exact hlow _ (by omega) (by omega)
theorem find_no_scope {s : State} {ctx : Nat} (h : ∀ k, 1 ≤ k → k ≤ 65535 → getScope s ctx k ≠ none) :
    (List.range 65535).find? (fun k => (getScope s ctx (k + 1)).isNone) = none := by
  rw [List.find?_eq_none]
  intro k hk
  rw [Bool.not_eq_true, Option.isNone_eq_false_iff, Option.isSome_iff_ne_none]
  exact h _ (by omega) (by have := List.mem_range.1 hk; omega)

/-- A subtree is its root and every scope whose chain of parents leads to it. -/
theorem inTree_iff (s : State) (ctx root id : Nat) : inTree s ctx root id = true ↔
    (getScope s ctx root).isSome = true ∧ ∃ n, n ≤ s.scopes.length ∧
      (fun o : Option Nat => o.bind fun k => if k = 0 then none else (getScope s ctx k).map Scope.parent)^[n] (some id) =
        some root := by
  simp only [inTree, inSubtree_iff, Nat.lt_succ_iff]

theorem reaches_iff (s : State) (x : Lane) (xc : Bool) (ctx id : Nat) : reaches s x xc ctx id = true ↔
    (x.b.kernel = true ∧ ctxLive s ctx = true ∧ (getScope s ctx id).isSome = true) ∨
    (x.b.kernel = false ∧ xc = false ∧ inTree s x.b.ctx x.b.scope id = true) := by
  unfold reaches
  cases x.b.kernel <;> simp

/-! ### SCOPEN (10 R231) -/

section
variable {s : State} {x : Lane} {xc : Bool} {a b c : Reg}

theorem openScope_off (h : 2 ^ 16 ≤ x.rd a 32 ∨ reaches s x xc (scopeCtx x xc c) (x.rd a 32) = false) :
    openScope s x xc a b c = (2 ^ 31 + 2, s) := by
  unfold openScope
  exact if_pos (h.imp_right fun h => by rw [h]; rfl)
theorem openScope_shut (h : ¬ (2 ^ 16 ≤ x.rd a 32 ∨ reaches s x xc (scopeCtx x xc c) (x.rd a 32) = false))
    (hc : ∃ p, getScope s (scopeCtx x xc c) (x.rd a 32) = some p ∧ p.cancelled = true) :
    openScope s x xc a b c = (2 ^ 31 + 1, s) := by
  rw [← Bool.not_eq_true'] at h
  obtain ⟨p, hp, hc⟩ := hc
  unfold openScope
  refine (if_neg h).trans (if_pos ?_)
  rw [hp]
  exact hc
/-- A scope that may be reached and is not cancelled gets a child, where a number is free. -/
theorem openScope_search (h : ¬ (2 ^ 16 ≤ x.rd a 32 ∨ reaches s x xc (scopeCtx x xc c) (x.rd a 32) = false))
    (hc : ¬ ∃ p, getScope s (scopeCtx x xc c) (x.rd a 32) = some p ∧ p.cancelled = true) (o : Option Nat)
    (ho : (List.range 65535).find? (fun k => (getScope s (scopeCtx x xc c) (k + 1)).isNone) = o) :
    openScope s x xc a b c = o.elim (2 ^ 31 + 3, s) fun k => (k + 1, { s with scopes := s.scopes ++
      [⟨scopeCtx x xc c, k + 1, x.rd a 32, false, BitVec.ofNat 64 (x.rd b 64), x.b.ctx, x.b.kernel, 0, 0⟩] }) := by
  rw [← Bool.not_eq_true'] at h
  unfold openScope
  refine (if_neg h).trans ((if_neg ?_).trans ?_)
  · split
    · rename_i p hp
      exact fun h => hc ⟨p, hp, h⟩
    · exact Bool.false_ne_true
  · rw [ho]
    cases o <;> rfl

/-! ### SCCAN, SCACK, SCQRY (10 R232-R234) -/

theorem scan_far (h : xc = true ∧ x.b.kernel = false ∨ ctxLive s (scopeCtx x xc c) = false) :
    scan s x xc a c = (2, s) := by
  unfold scan
  exact if_pos (by simpa using h)
section
variable (h : ¬ (xc = true ∧ x.b.kernel = false ∨ ctxLive s (scopeCtx x xc c) = false))
include h

theorem scan_none (hq : getScope s (scopeCtx x xc c) (x.rd a 32 % 2 ^ 16) = none) : scan s x xc a c = (3, s) := by
  unfold scan
  refine (if_neg (by simpa using h)).trans ?_
  rw [hq]
theorem scan_some {q : Scope} (hq : getScope s (scopeCtx x xc c) (x.rd a 32 % 2 ^ 16) = some q) : scan s x xc a c =
    if x.rd a 32 % 2 ^ 16 = 0 ∨ reaches s x xc (scopeCtx x xc c) (x.rd a 32 % 2 ^ 16) = false then (2, s)
    else if q.cancelled then (1, s)
    else (0, cancelScope s (scopeCtx x xc c) (x.rd a 32 % 2 ^ 16)) := by
  unfold scan
  refine (if_neg (by simpa using h)).trans ?_
  rw [hq]
  simp only [Bool.not_eq_true']
end

theorem ackCode_out (h : reaches s x xc (scopeCtx x xc c) (x.rd a 32 % 2 ^ 16) = false ∨
    getScope s (scopeCtx x xc c) (x.rd a 32 % 2 ^ 16) = none) : ackCode s x xc a c = some 2 := by
  unfold ackCode
  obtain h | h := h
  · exact if_pos (by rw [h]; rfl)
  · dsimp only
    rw [h]
    exact ite_self _
theorem ackCode_in {q : Scope} (h : reaches s x xc (scopeCtx x xc c) (x.rd a 32 % 2 ^ 16) = true)
    (hq : getScope s (scopeCtx x xc c) (x.rd a 32 % 2 ^ 16) = some q) : ackCode s x xc a c =
    if q.cancelled = false then some 1
    else if scopeCtx x xc c = x.b.ctx ∧ inTree s (scopeCtx x xc c) (x.rd a 32 % 2 ^ 16) x.b.scope then some 3
    else none := by
  unfold ackCode
  refine (if_neg (by rw [h]; exact Bool.false_ne_true)).trans ?_
  rw [hq]
  simp only [Bool.not_eq_true']

theorem scopeReport_out (h : reaches s x xc (scopeCtx x xc c) (x.rd a 32 % 2 ^ 16) = false) :
    scopeReport s x xc a c = 3 := by
  unfold scopeReport
  exact if_pos (by rw [h]; rfl)
theorem scopeReport_in {q : Scope} (h : reaches s x xc (scopeCtx x xc c) (x.rd a 32 % 2 ^ 16) = true)
    (hq : getScope s (scopeCtx x xc c) (x.rd a 32 % 2 ^ 16) = some q) : scopeReport s x xc a c =
    (if q.cancelled = false then 0 else if scopeBusy s (scopeCtx x xc c) (x.rd a 32 % 2 ^ 16) then 1 else 2) +
      2 ^ 8 * min 255 ((queuedJobs s).filter fun j => j.ctx == scopeCtx x xc c &&
        inTree s (scopeCtx x xc c) (x.rd a 32 % 2 ^ 16) (cardScope j.card)).length +
      2 ^ 16 * min 65535 (s.blocks.filter fun y => y.ctx == scopeCtx x xc c && y.resident &&
        inTree s (scopeCtx x xc c) (x.rd a 32 % 2 ^ 16) y.scope).length := by
  unfold scopeReport
  refine (if_neg (by rw [h]; exact Bool.false_ne_true)).trans ?_
  rw [hq]
  simp only [Bool.not_eq_true']

end

end Sys2Proof.Machine

namespace Sys2Proof.Laws
open Machine

/-- Settles O30: results by the cases of R231-R234, and each instruction issues them as replies. -/
theorem scopeInstructions : Obligations.ScopeInstructions := by
  unfold Obligations.ScopeInstructions
  refine ⟨inTree_iff, reaches_iff, ?opened, ?results, ?instructions⟩
  case opened =>
    intro s x xc a b c ctx p made off shut
    refine ⟨openScope_off, openScope_shut, fun hoff hshut hfull => ?_, fun k hoff hshut h1 h2 hfree hlow => ?_⟩
    · exact openScope_search hoff hshut none (find_no_scope hfull)
    · refine (openScope_search hoff hshut (some (k - 1)) (find_free_scope h1 h2 hfree hlow)).trans ?_
      dsimp only [Option.elim]
      rw [Nat.sub_add_cancel h1]
      rfl
  case results =>
    intro s x xc a c ctx id far
    refine ⟨scan_far, scan_none, fun q hfar hq => ⟨fun h => ?_, fun h0 hr hc => ?_, fun h0 hr hc => ?_⟩, ackCode_out,
      fun q hr hq => ⟨fun hc => ?_, fun hc => ⟨fun h1 h2 => ?_, fun h => ?_⟩⟩, scopeReport_out, fun q hr hq => scopeReport_in hr hq⟩
    · exact (scan_some hfar hq).trans (if_pos h)
    · have hn : ¬ (id = 0 ∨ reaches s x xc ctx id = false) := by simp [h0, hr]
      exact (scan_some hfar hq).trans ((if_neg hn).trans (if_pos hc))
    · have hn : ¬ (id = 0 ∨ reaches s x xc ctx id = false) := by simp [h0, hr]
      exact (scan_some hfar hq).trans ((if_neg hn).trans (if_neg (by simp [hc])))
    · exact (ackCode_in hr hq).trans (if_pos hc)
    · exact (ackCode_in hr hq).trans ((if_neg (by simp [hc])).trans (if_pos ⟨h1, h2⟩))
    · refine (ackCode_in hr hq).trans ((if_neg (by simp [hc])).trans (if_neg fun hn => ?_))
      obtain h | h := h
      · exact h hn.1
      · exact Bool.false_ne_true (h.symm.trans hn.2)
  case instructions =>
    intro irr
    refine ⟨fun k xc d a b c => ?scopen, fun k xc d a c => ?sccan, fun k xc d a c => ?scack, fun k xc d a c => ?scqry⟩
    case scopen =>
      refine doesWhen_of_exec_eq_issue _ (fun _ => rfl) fun s q cl bl hready hok => ?_
      rw [lane1_none _ _ fun x hx => if_pos (hok x hx)]
    case sccan => exact does_of_exec_eq_issue _ (fun _ => rfl) fun _ _ => rfl
    case scack => exact does_of_exec_eq_issue _ (fun _ => rfl) fun _ _ => rfl
    case scqry => exact does_of_exec_eq_issue _ (fun _ => rfl) fun _ _ => rfl

end Sys2Proof.Laws
end

section
/-! PROOF. The SYS class (09 R205-R207; 11 R245-R248; 21 R384; 23 R394; O31, O32). -/

namespace Sys2Proof.Machine

/-- Acts of which none is stopped are performed one after another, and leave no stop behind. -/
theorem foldl_acts_of_foldlM (f : State → Lane → Except SysStop (Nat × State)) (xs : List Lane) :
    ∀ (o outs : List (Lane × Nat)) (s t : State),
      xs.foldlM (fun (acc : List (Lane × Nat) × State) x =>
        (f acc.2 x).map fun r => (acc.1 ++ [(x, r.1)], r.2)) (o, s) = .ok (outs, t) →
      xs.foldl (fun (acc : List (Lane × Nat) × List (Lane × SysStop) × State) x =>
        match f acc.2.2 x with
        | .ok (v, t) => (acc.1 ++ [(x, v)], acc.2.1, t)
        | .error e => (acc.1, acc.2.1 ++ [(x, e)], acc.2.2)) (o, [], s) = (outs, [], t) := by
  induction xs with
  | nil =>
    intro o outs s t h
    obtain ⟨rfl, rfl⟩ := Prod.mk.inj (Except.ok.inj h)
    rfl
  | cons x xs ih =>
    intro o outs s t h
    rw [List.foldlM_cons] at h
    rw [List.foldl_cons]
    dsimp only at h ⊢
    cases hx : f s x with
    | error e =>
      rw [hx] at h
      cases h
    | ok r =>
      rw [hx] at h
      exact ih _ _ _ _ h

/-- A SYS-class instruction none of whose acts is stopped performs them and writes their results. -/
theorem sysTry_ready {s : State} {op : Nat} {k : Ctl} {src : List RG} {d : Reg} {q : Bundle} {c : Clause} {b : Block}
    {f : State → Lane → Except SysStop (Nat × State)} {outs : List (Lane × Nat)} {t : State}
    (hready : Ready s op k src [r32 d] [] q c b)
    (h : (issOf s q b op k).cmd.foldlM (fun (acc : List (Lane × Nat) × State) x =>
        (f acc.2 x).map fun r => (acc.1 ++ [(x, r.1)], r.2))
      ([], if (issOf s q b op k).act.isEmpty then issued s else irrevocable (issued s) (issOf s q b op k).b.uid) = .ok (outs, t)) :
    sysTry op k src d s f = .next (after (issOf s q b op k) (laneResults t (issOf s q b op k) d 32 outs)) := by
  refine issue_done hready ?_
  have hacts := foldl_acts_of_foldlM f _ _ _ _ _ h
  dsimp only
  erw [hacts]
  rfl

/-- An active lane of an issue is one of its block. -/
theorem block_of_mem_act {s : State} {op : Nat} {k : Ctl} {src dst late : List RG} {q : Bundle} {c : Clause} {b : Block}
    (h : Ready s op k src dst late q c b) {x : Lane} (hx : x ∈ (issOf s q b op k).act) : x.b = b :=
  block_of_mem_lanesOf h.block (List.mem_of_mem_filter hx)

/-- An active lane's block as the issue found it is the lane's own. -/
theorem getBlock_of_mem_act {s : State} {op : Nat} {k : Ctl} {src dst late : List RG} {q : Bundle} {c : Clause} {b : Block}
    (h : Ready s op k src dst late q c b) {x : Lane} (hx : x ∈ (issOf s q b op k).act) :
    getBlock (issued s) x.b.uid = some x.b :=
  block_of_mem_act h hx ▸ getBlock_issued h

end Sys2Proof.Machine

namespace Sys2Proof.Laws
open Machine

/-- Settles O31: each instruction acts lane by lane; the two that may be stopped are performed where nothing stops them. -/
theorem systemInstructions : Obligations.SystemInstructions := by
  unfold Obligations.SystemInstructions
  intro acts looks writes
  have hacts (i : Instr) (op : Nat) (k : Ctl) (src : List RG) (d : Reg) (f : State → Lane → Nat × State)
      (h : ∀ s, exec i s = sysEach op k src d s f) : acts i op k src d f :=
    does_of_exec_eq_issue _ h fun _ _ => rfl
  have hwrites (i : Instr) (k : Ctl) (src : List RG) (d : Reg) (f : State → Lane → Nat × State)
      (h : ∀ s, exec i s = sysEach 0xD2 k src d s (released f)) : writes i k src d f :=
    hacts _ _ _ _ _ _ h
  have hlooks (i : Instr) (op : Nat) (k : Ctl) (src : List RG) (d : Reg)
      (f : State → Lane → Except SysStop (Nat × State)) (h : ∀ s, exec i s = sysTry op k src d s f) : looks i op k src d f := by
    intro s q c b outs t hready j start hrun
    rw [h]
    exact sysTry_ready hready hrun
  clear_value acts looks writes
  refine ⟨fun k d a => hacts _ _ _ _ _ _ fun _ => rfl, fun k d a => hacts _ _ _ _ _ _ fun _ => rfl,
    fun k d a => hacts _ _ _ _ _ _ fun _ => rfl, fun k d a b => hacts _ _ _ _ _ _ fun _ => rfl,
    fun k bk d a x => does_of_exec_eq_issue _ (fun _ => rfl) fun _ _ => rfl,
    fun k bk d a b x => hwrites _ _ _ _ _ fun _ => rfl, fun k d a b => hwrites _ _ _ _ _ fun _ => rfl,
    fun k d a b => hwrites _ _ _ _ _ fun _ => rfl, fun k d b => hwrites _ _ _ _ _ fun _ => rfl,
    fun k d b => hwrites _ _ _ _ _ fun _ => rfl, fun k d a b => hwrites _ _ _ _ _ fun _ => rfl,
    fun k d a b => hwrites _ _ _ _ _ fun _ => rfl, fun k d a b => hwrites _ _ _ _ _ fun _ => rfl,
    fun k d a b => hacts _ _ _ _ _ _ fun _ => rfl, fun k d b => hacts _ _ _ _ _ _ fun _ => rfl,
    fun k d => hacts _ _ _ _ _ _ fun _ => rfl, fun k sp d a b c => hlooks _ _ _ _ _ _ fun _ => rfl,
    fun k ps d a b => hlooks _ _ _ _ _ _ fun _ => rfl, fun k d a b => hacts _ _ _ _ _ _ fun _ => rfl⟩

/-- Settles O32: HALTG acts on each target that its lanes name; ERRINJ acts once, for the lowest active lane. -/
theorem haltAndErrorInjection : Obligations.HaltAndErrorInjection := by
  unfold Obligations.HaltAndErrorInjection
  refine ⟨fun k d a b => does_of_exec_eq_issue _ (fun _ => rfl) fun _ _ => rfl, fun k ek d a => ?arm, fun k d => ?disarm⟩
  case arm =>
    refine doesWhen_of_exec_eq_issue _ (fun _ => rfl) fun s q cl bl hready _ => ?_
    cases hact : (issOf s q bl 0xD5 k).act with
    | nil => rfl
    | cons x t =>
      have hx := getBlock_of_mem_act hready (hact ▸ List.mem_cons_self)
      simp only [hx, Option.getD_some]
  case disarm =>
    refine doesWhen_of_exec_eq_issue _ (fun _ => rfl) fun s q cl bl hready _ => ?_
    cases hact : (issOf s q bl 0xD5 k).act with
    | nil => rfl
    | cons x t =>
      have hx := getBlock_of_mem_act hready (hact ▸ List.mem_cons_self)
      simp only [hx, Option.getD_some]

end Sys2Proof.Laws
end

section
/-! PROOF. The events that end waits, deliver WATCH traps, return results and run the engines (05 R93; 08 R182; 10 R221;
15 R301, R314; 19 R351, R354; 23 R395; O34-O36, O38). -/

namespace Sys2Proof.Machine

/-! ### CLAIM_GRANT, NAP_WAKE, REGDEAD, KILL_STOP (05 R90, R93; 06 R126; 10 R221) -/

theorem exec_claimGrant_some (blk gang : Nat) (c : Nat × Nat × Nat) (s : State)
    (h : s.claims.find? (fun c => c.1 == blk && c.2.1 == gang) = some c) :
    exec (.claimGrant blk gang) s = .next (if satisfiable s blk c.2.2 then serveClaims s else s) := by
  show execClaimGrant blk gang s = _
  unfold execClaimGrant
  rw [h]
  exact (apply_ite Host.Outcome.next _ _ _).symm
theorem exec_claimGrant_none (blk gang : Nat) (s : State) (h : s.claims.find? (fun c => c.1 == blk && c.2.1 == gang) = none) :
    exec (.claimGrant blk gang) s = .next s := by
  show execClaimGrant blk gang s = _
  unfold execClaimGrant
  rw [h]

theorem exec_napWake_some (blk gang lane : Nat) (t : Thread) (s : State) (h : getThread s blk gang lane = some t) :
    exec (.napWake blk gang lane) s = .next (if t.wait = .nap then modThread s blk gang lane Thread.unwait else s) := by
  show execNapWake blk gang lane s = _
  unfold execNapWake
  rw [h]
theorem exec_napWake_none (blk gang lane : Nat) (s : State) (h : getThread s blk gang lane = none) :
    exec (.napWake blk gang lane) s = .next s := by
  show execNapWake blk gang lane s = _
  unfold execNapWake
  rw [h]

theorem exec_regdead_none (blk : Nat) (s : State) (h : getBlock s blk = none) : exec (.regdead blk) s = .next s := by
  show execRegdead blk s = _
  unfold execRegdead
  rw [h]
theorem exec_regdead_alive (blk : Nat) (b : Block) (s : State) (h : getBlock s blk = some b) (hd : regDead s b = false) :
    exec (.regdead blk) s = .next s := by
  show execRegdead blk s = _
  unfold execRegdead
  rw [h]
  exact if_pos (by rw [hd]; rfl)

theorem exec_killStop_noThread (blk gang lane : Nat) (s : State) (h : getThread s blk gang lane = none) :
    exec (.killStop blk gang lane) s = .next s := by
  show execKillStop blk gang lane s = _
  unfold execKillStop
  rw [h]
theorem exec_killStop_noBlock (blk gang lane : Nat) (s : State) (h : getBlock s blk = none) :
    exec (.killStop blk gang lane) s = .next s := by
  show execKillStop blk gang lane s = _
  unfold execKillStop
  rw [h]
  cases getThread s blk gang lane <;> rfl
theorem exec_killStop_notAtKill (blk gang lane : Nat) (t : Thread) (b : Block) (s : State)
    (ht : getThread s blk gang lane = some t) (hb : getBlock s blk = some b) (h : (b.killed && atKill s t) = false) :
    exec (.killStop blk gang lane) s = .next s := by
  show execKillStop blk gang lane s = _
  unfold execKillStop
  rw [ht, hb]
  exact if_neg (by rw [h]; exact Bool.false_ne_true)

/-! ### WDOG (23 R395) -/

theorem exec_wdog_missing (ctx id : Nat) (s : State)
    (h : getScope s ctx id = none ∨ getCtx s ctx = none ∨ longestWaiter s ctx id = none) :
    exec (.wdog ctx id) s = .next s := by
  show execWdog ctx id s = _
  unfold execWdog
  split
  · rename_i hx hc ht
    simp [hx, hc, ht] at h
  · rfl
/-- The counter of the scope has reached its limit, with a thread that waits in a block that is not deadlocked. -/
def WdogDue (s : State) (ctx id : Nat) (x : Scope) (c : Ctx) (t : Thread) : Prop :=
  (getBlock s t.blk).any (regDead s) = false ∧ c.wdlim ≠ 0 ∧ c.wdlim.toNat ≤ x.wd ∧
    (scopeThreads s ctx id).any Thread.ended = false ∧ s.blocks.any (fun b => b.ctx == ctx && b.halted) = false
open Classical in
theorem exec_wdog_some (ctx id : Nat) (x : Scope) (c : Ctx) (t : Thread) (s : State) (hx : getScope s ctx id = some x)
    (hc : getCtx s ctx = some c) (ht : longestWaiter s ctx id = some t) :
    exec (.wdog ctx id) s = .next (if WdogDue s ctx id x c t then
      raise (modScope s ctx id (fun x => { x with wd := 0 })) t.blk 0
        (placeOf (modScope s ctx id (fun x => { x with wd := 0 })) t).addr [⟨t.gang, t.lane, { cause := 0x15, info := id }⟩]
      else s) := by
  show execWdog ctx id s = _
  unfold execWdog
  rw [hx, hc, ht]
  rw [apply_ite Host.Outcome.next]
  refine if_congr ?_ rfl rfl
  simp only [WdogDue, Bool.not_eq_true']
  cases getBlock s t.blk <;> rfl

end Sys2Proof.Machine

namespace Sys2Proof.Laws
open Machine

/-- Settles O34: each event finds its party and tests its condition. -/
theorem waitEvents : Obligations.WaitEvents := by
  unfold Obligations.WaitEvents
  refine ⟨fun _ _ _ _ => rfl, exec_claimGrant_some, exec_claimGrant_none, exec_napWake_some, exec_regdead_alive,
    exec_killStop_notAtKill, fun ctx id x c t s hx hc ht h => ?wdogNotDue, exec_wdog_missing,
    fun blk gang lane s h => ⟨exec_napWake_none blk gang lane s h, exec_killStop_noThread blk gang lane s h⟩,
    fun blk gang lane s h => ⟨exec_regdead_none blk s h, exec_killStop_noBlock blk gang lane s h⟩,
    fun blk b s hb hd => ?regdead, fun blk gang lane t b s ht hb hk hp => ?killStop, fun s => ⟨_, rfl, rfl, rfl⟩, fun _ => rfl,
    fun ctx id x c t b s hx hc ht hb hd hl hw he hh => ⟨_, ?wdogDue, rfl⟩⟩
  case wdogNotDue =>
    rw [exec_wdog_some ctx id x c t s hx hc ht, if_neg]
    rintro ⟨hdead, hlim, hwd, hended, hhalted⟩
    simp only [hdead, hended, hhalted, Bool.false_eq_true, hlim, Nat.not_lt.2 hwd, or_self] at h
  case regdead =>
    show execRegdead blk s = _
    unfold execRegdead
    rw [hb]
    exact if_neg (by rw [hd]; exact Bool.false_ne_true)
  case killStop =>
    show execKillStop blk gang lane s = _
    unfold execKillStop
    rw [ht, hb]
    exact if_pos (by rw [hk, hp]; rfl)
  case wdogDue =>
    rw [exec_wdog_some ctx id x c t s hx hc ht, if_pos]
    exact ⟨by rw [hb]; exact hd, hl, hw, he, hh⟩

/-- Settles O35: WATCH_DELIVERY goes to task level where a vector takes the trap; the path stands where its threads stood. -/
theorem watchTrapsAreDelivered : Obligations.WatchTrapsAreDelivered := by
  unfold Obligations.WatchTrapsAreDelivered
  intro blk gang lane x w rest s hx hq hdue hstop
  have hdeliver : ¬ ((!watchDue s x.t || x.b.stopping) = true) := by rw [hdue, hstop]; exact Bool.false_ne_true
  refine ⟨fun hvec => ?fault, fun vec hvec => ?enters, fun t b vec info wrec u v ht hb => ?entry⟩
  case fault =>
    show execWatchDelivery blk gang lane s = _
    unfold execWatchDelivery
    simp only [hx, hq]
    refine (if_neg hdeliver).trans ?_
    rw [hvec]
  case enters =>
    show execWatchDelivery blk gang lane s = _
    unfold execWatchDelivery
    simp only [hx, hq]
    refine (if_neg hdeliver).trans ?_
    rw [hvec]
  case entry =>
    intro free gone hv
    have hprot : isProt u blk = b.protectd := by rw [isProt, hb]
    unfold watchEntry
    rw [ht]
    dsimp only
    rw [hprot]
    cases hp : b.protectd
    all_goals
      simp only [gone, hp] at hv ⊢
      split
      · rename_i y hy
        obtain rfl : y = v := Option.some.inj (hy.symm.trans hv)
        rfl
      · rename_i hnone
        exact absurd (hnone.symm.trans hv) nofun

/-- Settles O36: each event of a result is the step of its entry. -/
theorem resultEvents : Obligations.ResultEvents := by
  unfold Obligations.ResultEvents
  have hreturn (id : Nat) (c : OCls) (o : Outst) (s : State) (ho : getOutst s id = some o) (hc : o.cls = c) :
      returnIn id c s = .next (returnAccess s o) := by
    unfold returnIn
    rw [ho]
    exact congrArg Host.Outcome.next (if_pos hc)
  refine ⟨fun id o s => hreturn id .ld o s, fun id o s => hreturn id .st o s, fun id o s => hreturn id .at_ o s, fun _ _ => rfl,
    fun id o b d w v p s ho hop hb => ?reply, fun id o b t s ho hop hb hr => ?tapin,
    fun core ctx kind va c w s1 s hc hopen hva hwalk => ?walk⟩
  case reply =>
    show execEngineReplyReturn id s = _
    unfold execEngineReplyReturn
    simp only [ho, hop, hb] <;> rfl
  case tapin =>
    show execEngineReplyReturn id s = _
    unfold execEngineReplyReturn
    simp only [ho, hop, hb]
    exact congrArg Host.Outcome.next (if_pos hr)
  case walk =>
    show execWalk core ctx kind va s = _
    unfold execWalk
    rw [hc]
    refine (if_neg ?_).trans ?_
    · rw [hopen]
      simpa using hva
    · rw [hwalk]

/-- Settles O38: each engine event tests whether its turn has come. -/
theorem engineEvents : Obligations.EngineEvents := by
  unfold Obligations.EngineEvents
  refine ⟨fun core s => ?pass, fun id m o s hm ho => ?drain, fun tap row t b u r q k l s ht hb hq hu hr => ?eval⟩
  case pass =>
    show execMatrixPass core s = _
    unfold execMatrixPass
    cases passOf s core <;> rfl
  case drain =>
    show execDrainExecute id s = _
    unfold execDrainExecute
    simp only [hm, ho]
    exact (apply_ite Host.Outcome.next _ _ _).symm
  case eval =>
    show execEval tap row s = _
    unfold execEval
    simp only [ht, hb, hq]
    exact if_pos ⟨hu, hr⟩

end Sys2Proof.Laws
end

section
/-! PROOF. The events of the copy engine (12 R271, R272; 14 R282-R288; O37). -/

namespace Sys2Proof.Machine

/-! ### Rings and their slots -/

/-- An update of the entries of a kind that keeps them of that kind. -/
theorem find_updWhere_self {α : Type} (l : List α) (p : α → Bool) (f : α → α) (h : ∀ x, p x = true → p (f x) = true) :
    (updWhere l p f).find? p = (l.find? p).map f := by
  induction l with
  | nil => rfl
  | cons x t ih =>
    show ((if p x = true then f x else x) :: updWhere t p f).find? p = _
    cases hx : p x with
    | true => simp [hx, h x hx]
    | false => simp [hx, ih]

theorem getRing_modRing (s : State) (core id : Nat) (f : Ring → Ring)
    (h : ∀ x, Ring.at_ s core id x = true → Ring.at_ s core id (f x) = true) :
    getRing (modRing s core id f) core id = (getRing s core id).map f :=
  find_updWhere_self s.rings (Ring.at_ s core id) f h

theorem at_of_getRing {s : State} {core id : Nat} {r : Ring} (h : getRing s core id = some r) :
    Ring.at_ s core id r = true := List.find?_some h

theorem at_congr {s : State} {core id : Nat} {r r' : Ring} (h : Ring.at_ s core id r = true) (hc : r'.core = r.core)
    (hi : r'.id = r.id) (hb : r'.blk = r.blk) : Ring.at_ s core id r' = true := by
  unfold Ring.at_ at h ⊢
  rw [hc, hi, hb]
  exact h

theorem getCopy_modCopy (s : State) (i : Nat) (f : CopyCmd → CopyCmd) (h : ∀ x, (f x).id = x.id) :
    getCopy (modCopy s i f) i = (getCopy s i).map f := by
  refine find_updWhere_same _ _ _ fun x => ?_
  rw [h]

theorem ring_of_getRing {s : State} {c : CopyCmd} {id : Nat} {r : Ring} (h : c.ring s id = some r) :
    getRing s c.core id = some r := by
  unfold CopyCmd.ring at h
  obtain ⟨q, hq, hr⟩ := Option.bind_eq_some_iff.1 h
  split_ifs at hr
  rw [hq, hr]

theorem modSlot_modSlot (r : Ring) (k : Nat) (f g : RSlot → RSlot) : modSlot (modSlot r k f) k g = modSlot r k (g ∘ f) := by
  have hslots : (modSlot (modSlot r k f) k g).slots = (modSlot r k (g ∘ f)).slots := by
    simp only [modSlot]
    refine List.ext_getElem? fun j => ?_
    simp only [List.getElem?_mapIdx, Option.map_map]
    refine congrArg (fun f => Option.map f r.slots[j]?) (funext fun q => ?_)
    by_cases hj : j = k <;> simp [hj]
  unfold modSlot at hslots ⊢
  rw [Ring.mk.injEq]
  exact ⟨rfl, rfl, rfl, rfl, rfl, rfl, rfl, rfl, hslots, rfl⟩

/-! ### The slot of a ringnext command (12 R272, 14 R284) -/

section
variable {s : State} {c : CopyCmd} {r : Ring}

/-- The ring with a command that waits for a slot alone in its queue. -/
def withWaiter (r : Ring) (w : RWait) : Ring := { r with queue := [w] }
/-- The slot at the fill index as the command with it leaves it: filling, or filled where there are no bytes. -/
def slotFor (gang bytes no : Nat) (q : RSlot) : RSlot :=
  { q with st := if bytes = 0 then .filled else .filling, fillNo := no, owner := gang, counted := 0,
           want := if bytes = 0 then none else some bytes }

/-- The slot as a fill that a gang begins leaves it. -/
def slotBegun (gang no : Nat) (q : RSlot) : RSlot :=
  { q with st := .filling, fillNo := no, owner := gang, counted := 0, want := none }
/-- The slot of a command of so many bytes: they fill it. -/
def slotGiven (bytes : Nat) (q : RSlot) : RSlot := if bytes = 0 then { q with st := .filled } else { q with want := some bytes }

theorem slotGiven_slotBegun (gang bytes no : Nat) : slotGiven bytes ∘ slotBegun gang no = slotFor gang bytes no := by
  funext q
  by_cases h : bytes = 0 <;> simp [slotGiven, slotBegun, slotFor, h]

/-- A ring whose slot at the fill index a gang has begun to fill. -/
def ringBegun (r : Ring) (gang no : Nat) : Ring :=
  { modSlot r r.fill (slotBegun gang no) with fill := (r.fill + 1) % r.slots.length }

/-- A ring with a free slot at its fill index grants it to a fill. -/
theorem grantSlot_free {q : RSlot} (gang no : Nat) (hq : r.slots[r.fill]? = some q) (hfree : q.st = .free) :
    grantSlot r gang true no = some (r.fill + 64 * b2n q.phase, ringBegun r gang no) := by
  unfold grantSlot
  simp only [if_true, hq, hfree, and_self]
  rfl
theorem grantSlot_taken {q : RSlot} (gang no : Nat) (hq : r.slots[r.fill]? = some q) (hfree : q.st ≠ .free) :
    grantSlot r gang true no = none := by
  unfold grantSlot
  simp [hq, hfree]

/-- A ring that one that waited there has left. -/
def unqueue (r : Ring) (w : RWait) : Ring := { r with queue := r.queue.filter (· != w) }

/-- The ring of a command that has been given its slot. -/
theorem getRing_giveSlot {core id i v no : Nat} {r r' : Ring} {d : CopyCmd} (hr : getRing s core id = some r)
    (hd : getCopy s i = some d) (hc : r'.core = r.core) (hi : r'.id = r.id) (hb : r'.blk = r.blk) :
    getRing (giveSlot (modRing (fresh s).2 core id (fun _ => r')) core i id v no) core id =
      some (modSlot r' (v % 64) (slotGiven d.bytes)) := by
  have hat : Ring.at_ s core id r' = true := at_congr (at_of_getRing hr) hc hi hb
  have hring : getRing (modRing s core id (fun _ => r')) core id = some r' := by
    rw [getRing_modRing _ _ _ _ fun _ _ => hat, hr]
    rfl
  have hgive := getRing_modRing (modRing s core id (fun _ => r')) core id (fun r => modSlot r (v % 64) (slotGiven d.bytes))
    fun x hx => at_congr hx rfl rfl rfl
  rw [hring] at hgive
  have hbytes : ((getCopy (modRing (fresh s).2 core id (fun _ => r')) i).map CopyCmd.bytes).getD 0 = d.bytes := by
    rw [show getCopy (modRing (fresh s).2 core id (fun _ => r')) i = some d from hd]
    rfl
  unfold giveSlot
  rw [hbytes]
  exact hgive
theorem getCopy_giveSlot (core cmd id v no : Nat) : getCopy (giveSlot s core cmd id v no) cmd =
    (getCopy s cmd).map (fun c => { c with slot := some (id, v % 64), fill := no }) :=
  getCopy_modCopy _ _ (fun c => { c with slot := some (id, v % 64), fill := no }) fun _ => rfl

/-- A command that waits, and whose slot cannot be had, goes on waiting. -/
theorem serveOne_waits {core id : Nat} {w : RWait} (hr : getRing s core id = some r) (hw : r.queue.contains w = true)
    (hc : ∃ i d, w.cmd = some i ∧ getCopy s i = some d) (hg : grantSlot r w.gang w.fill s.nextId = none) :
    serveOne s core id w = (fresh s).2 := by
  obtain ⟨i, d, hi, hd⟩ := hc
  unfold serveOne
  simp only [hr, hw, hi, hd, fresh, hg]
  rfl
/-- A command that waits takes the slot that it is granted, and leaves the queue. -/
theorem serveOne_takes {core id i v : Nat} {w : RWait} {r' : Ring} {d : CopyCmd} (hr : getRing s core id = some r)
    (hw : r.queue.contains w = true) (hi : w.cmd = some i) (hd : getCopy s i = some d)
    (hg : grantSlot r w.gang w.fill s.nextId = some (v, r')) :
    serveOne s core id w = giveSlot (modRing (fresh s).2 core id
      (fun _ => unqueue r' w)) core i id v s.nextId := by
  unfold serveOne
  simp only [hr, hw, hi, hd, fresh, hg]
  rfl
/-- What does not wait at a ring is not served there. -/
theorem serveOne_absent {core id : Nat} {w : RWait} (hr : getRing s core id = some r) (hw : r.queue.contains w = false) :
    serveOne s core id w = s := by
  unfold serveOne
  simp only [hr, hw]
  rfl

/-- A ring at which one waits is served twice over its queue. -/
theorem serveRing_single {core id : Nat} {w : RWait} (hr : getRing s core id = some r) (hq : r.queue = [w]) :
    serveRing s core id = serveOne (serveOne s core id w) core id w := by
  unfold serveRing
  rw [hr]
  dsimp only
  rw [hq]
  rfl

/-- A command of a ring with an empty queue, whose turn it is, waits alone there and is served. -/
theorem takeRingSlot_eq (hring : c.ring s c.tgt = some r) (hslot : c.slot = none) (hdk : c.dk = 3) (hfault : c.fault = none)
    (hacc : c.accepted s = true) (hbefore : ∀ p ∈ queueBefore s c, p.started = true) (hqueue : r.queue = []) :
    takeRingSlot s c =
      serveRing (modRing s c.core c.tgt (fun r => { r with queue := r.queue ++ [⟨c.gang, true, 0, some c.id⟩] })) c.core c.tgt := by
  have hall : (queueBefore s c).all CopyCmd.started = true := List.all_eq_true.2 hbefore
  unfold takeRingSlot
  rw [hring]
  dsimp only
  rw [hslot, hdk, hfault, hacc, hall, hqueue]
  rfl

section
variable {q : RSlot} (hc : getCopy s c.id = some c) (hring : c.ring s c.tgt = some r) (hqueue : r.queue = [])
  (hq : r.slots[r.fill]? = some q)

/-- The state in which a command waits alone at its ring. -/
def waiting (s : State) (c : CopyCmd) : State :=
  modRing s c.core c.tgt (fun r => { r with queue := r.queue ++ [⟨c.gang, true, 0, some c.id⟩] })

include hring hqueue in
theorem getRing_waiting : getRing (waiting s c) c.core c.tgt = some (withWaiter r ⟨c.gang, true, 0, some c.id⟩) := by
  refine (getRing_modRing _ _ _ _ fun x hx => ?_).trans ?_
  · exact at_congr hx rfl rfl rfl
  · rw [ring_of_getRing hring]
    simp [withWaiter, hqueue]

include hc hring hqueue hq in
/-- A slot that is not free is waited for. -/
theorem slot_waits (htaken : q.st ≠ .free) :
    getCopy (serveRing (waiting s c) c.core c.tgt) c.id = some c ∧
    getRing (serveRing (waiting s c) c.core c.tgt) c.core c.tgt = some (withWaiter r ⟨c.gang, true, 0, some c.id⟩) := by
  have hr := getRing_waiting hring hqueue
  have hd : getCopy (waiting s c) c.id = some c := hc
  have hg (no : Nat) : grantSlot (withWaiter r ⟨c.gang, true, 0, some c.id⟩) c.gang true no = none :=
    grantSlot_taken _ _ hq htaken
  have hw : (withWaiter r ⟨c.gang, true, 0, some c.id⟩).queue.contains ⟨c.gang, true, 0, some c.id⟩ = true := by
    simp [withWaiter]
  rw [serveRing_single hr rfl, serveOne_waits hr hw ⟨_, _, rfl, hd⟩ (hg _),
    serveOne_waits (s := (fresh (waiting s c)).2) hr hw ⟨_, _, rfl, hd⟩ (hg _)]
  exact ⟨hd, hr⟩

include hc hring hqueue hq in
/-- A free slot is taken by the command that waits alone. -/
theorem slot_granted (hfill : r.fill < 64) (hfree : q.st = .free) :
    getCopy (serveRing (waiting s c) c.core c.tgt) c.id = some { c with slot := some (c.tgt, r.fill), fill := s.nextId } ∧
    getRing (serveRing (waiting s c) c.core c.tgt) c.core c.tgt = some { modSlot r r.fill (slotFor c.gang c.bytes s.nextId) with
      fill := (r.fill + 1) % r.slots.length, queue := [] } := by
  have hr := getRing_waiting hring hqueue
  have hd : getCopy (waiting s c) c.id = some c := hc
  have hg := grantSlot_free (r := withWaiter r ⟨c.gang, true, 0, some c.id⟩) c.gang s.nextId hq hfree
  have hw : (withWaiter r ⟨c.gang, true, 0, some c.id⟩).queue.contains ⟨c.gang, true, 0, some c.id⟩ = true := by
    simp [withWaiter]
  have hmod : ((withWaiter r ⟨c.gang, true, 0, some c.id⟩).fill + 64 * b2n q.phase) % 64 = r.fill := by
    show (r.fill + _) % 64 = _
    omega
  have htake := serveOne_takes (i := c.id) hr hw rfl hd hg
  set u := serveOne (waiting s c) c.core c.tgt ⟨c.gang, true, 0, some c.id⟩ with hu
  have hring' : getRing u c.core c.tgt = some { modSlot r r.fill (slotFor c.gang c.bytes s.nextId) with
      fill := (r.fill + 1) % r.slots.length, queue := [] } := by
    rw [htake]
    refine (getRing_giveSlot hr hd ?_ ?_ ?_).trans ?_
    · rfl
    · rfl
    · rfl
    rw [hmod, ← slotGiven_slotBegun, ← modSlot_modSlot]
    simp [unqueue, ringBegun, withWaiter, modSlot]
    rfl
  rw [serveRing_single hr rfl, ← hu, serveOne_absent hring' rfl]
  refine ⟨?_, hring'⟩
  rw [htake, getCopy_giveSlot, hmod]
  exact congrArg (Option.map _) hc
end

end

/-! ### The landing of an element (14 R282-R285) -/

section
variable {s : State} {id e : Nat} {c : CopyCmd} {b : Block} {x : Lane} {el : CElem}

theorem noneBefore (h : ∀ q ∈ c.flying, e ≤ q.e) : c.flying.filter (fun q => decide (q.e < e)) = [] := by
  refine List.filter_eq_nil_iff.2 fun q hq => ?_
  simpa using h q hq

/-- An element that flies, and whose turn it is, is the one that lands. -/
theorem landCopy_eq (hc : getCopy s id = some c) (hb : getBlock s c.blk = some b)
    (hel : c.flying.find? (fun q => q.e == e) = some el) (hstart : c.started = true) (hfault : c.fault = none)
    (hcount : e < c.count) (hopen : e < c.opened) (hblocked : copyBlocked s c e = false)
    (horder : c.inOrder s = true → ∀ q ∈ c.flying, e ≤ q.e) : landCopy s id e = landElem s id el := by
  have hleft : c.left e = true := by
    unfold CopyCmd.left
    rw [Bool.or_eq_true]
    have he : (el.e == e) = true := List.find?_some (p := fun q : CElem => q.e == e) hel
    exact .inr (List.any_eq_true.2 ⟨el, List.mem_of_find?_eq_some hel, he⟩)
  have hopened : openTo (e + 1 - c.opened) s id e = s := by
    rw [Nat.sub_eq_zero_of_le hopen]
    rfl
  have hfirst : c.inOrder s = true → c.flying.any (fun q => decide (q.e < e)) = false := by
    intro h
    rw [List.any_eq_false]
    intro q hq
    simpa using horder h q hq
  unfold landCopy
  simp only [hc, hb, hstart, hfault, hcount, hleft, hblocked, hopened]
  cases h : c.inOrder s with
  | false => simp [hc, hel, hfault, h]
  | true => simp [noneBefore (horder h), landAll, hc, hel, hfault, hfirst h]

theorem landOne_ok {v : State} (hc : getCopy s id = some c) (hx : copyLane s c = some x)
    (hel : c.flying.find? (fun q => q.e == el.e) = some el)
    (hv : performElem (el.dst.meet (el.src.meet s (c.party x.b)) (c.party x.b)) c x el = .ok v) :
    landOne s id el = (landedElem v c el, none) := by
  unfold landOne
  simp only [hc, hx, hel, hv]
theorem landOne_error {f : Flt} (hc : getCopy s id = some c) (hx : copyLane s c = some x)
    (hel : c.flying.find? (fun q => q.e == el.e) = some el)
    (hf : performElem (el.dst.meet (el.src.meet s (c.party x.b)) (c.party x.b)) c x el = .error f) :
    landOne s id el = (el.dst.meet (el.src.meet s (c.party x.b)) (c.party x.b), some f) := by
  unfold landOne
  simp only [hc, hx, hel, hf]

end

end Sys2Proof.Machine

namespace Sys2Proof.Laws
open Machine

/-- Settles O37: each event finds its command; one that may start, a slot that is free and an element whose turn it is take
their steps. -/
theorem copyEvents : Obligations.CopyEvents := by
  unfold Obligations.CopyEvents
  refine ⟨fun s c => ?start, fun s c r q hc hring hslot hdk hfault hacc hbefore hqueue hq hfill => ?slot,
    fun s id c b hc hb hfault hopen hahead => ⟨fun el t hel => ?opened, fun f t hel => ?stopped⟩,
    fun s id e c b x el hc hb hx hel hstart hfault hcount hopen hblocked horder => ?land,
    fun s id e f c d hc horder hd => ?stopAt, fun s c err => ?ended, fun id c s hc => ?_, fun id c s hc => ?_,
    fun id e c s hc => ?_, fun _ _ _ _ _ => rfl, fun id c s hc => ?_, fun id c s hc => ?_⟩
  case start =>
    intro ok
    have hok : ok ↔ ¬ (c.started || c.fault.isSome || !c.accepted s || !(queueBefore s c).all CopyCmd.started ||
        !copyReady s c || (c.dk == 3 && c.slot.isNone)) = true := by
      simp only [ok, Bool.or_eq_true, Bool.not_eq_true', Bool.and_eq_true, beq_iff_eq, not_or, Bool.not_eq_true,
        Bool.not_eq_false, Option.isNone_iff_eq_none, List.all_eq_true, Option.isSome_eq_false_iff, not_and, ne_eq, and_assoc]
    unfold startCopy
    exact ⟨fun h h0 => (if_neg (hok.1 h)).trans (if_pos h0), fun h h0 => (if_neg (hok.1 h)).trans (if_neg h0),
      fun h => if_pos (not_not.1 (mt hok.2 h))⟩
  case slot =>
    intro t
    have ht : t = _ := takeRingSlot_eq hring hslot hdk hfault hacc hbefore hqueue
    exact ⟨fun hfree => ht ▸ slot_granted hc hring hqueue hq hfill hfree, fun htaken => ht ▸ slot_waits hc hring hqueue hq htaken⟩
  case opened =>
    show openTo 1 s id c.opened = _
    unfold openTo
    simp only [hc, hb, hfault, hahead, hel, Nat.lt_irrefl, Nat.not_le.2 hopen]
    rfl
  case stopped =>
    unfold openTo
    simp only [hc, hb, hfault, hahead, hel, Nat.lt_irrefl, Nat.not_le.2 hopen]
    rfl
  case land =>
    intro u
    have he : el.e = e := by simpa using List.find?_some hel
    have hland := landCopy_eq hc hb hel hstart hfault hcount hopen hblocked horder
    refine ⟨fun v hv => ?_, fun f hf => ?_⟩
    · rw [hland, landElem, landOne_ok hc hx (he ▸ hel) hv]
    · rw [hland, landElem, landOne_error hc hx (he ▸ hel) hf, he]
  case stopAt =>
    unfold stopAt
    rw [hc]
    dsimp only
    rw [noneBefore horder]
    dsimp only [landAll]
    rw [hd]
  case ended =>
    unfold endCopy
    cases err <;> cases hb : c.batch <;> rfl
  · show execCopyCommandStart id s = _
    unfold execCopyCommandStart
    rw [hc]
  · show execRingnextSlotTake id s = _
    unfold execRingnextSlotTake
    rw [hc]
  · show execCopyElementLand id e s = _
    unfold execCopyElementLand
    rw [hc]
  · show execRemoteTimeout id s = _
    unfold execRemoteTimeout
    rw [hc]
  · show execRemoteAcknowledgement id s = _
    unfold execRemoteAcknowledgement
    rw [hc]

end Sys2Proof.Laws
end

section
/-! PROOF. Checkpoints, rollback, losses, resets, scrubbing, power and degraded units (21 R374-R382; 24 R400-R407; O42). -/

namespace Sys2Proof.Machine

/-! ### CHECKPOINT and ROLLBACK (21 R374-R380) -/

theorem exec_checkpoint_ready (blk : Nat) (b b1 : Block) (s : State) (hb : getBlock s blk = some b) (hr : ckptReady s b = true)
    (hb1 : getBlock (drainHold s blk) blk = some b1) (hm : b1.mcheck = []) :
    exec (.checkpoint blk) s = .next (settleMtx (wakeBars (beginInterval (drainHold s blk) b1) blk)) := by
  show execCheckpoint blk s = _
  unfold execCheckpoint
  simp only [hb, hr, hb1, hm]
  rfl

/-! ### The machine after a cold reset (24 R403) -/

/-- A stage of the boot changes measurements, the walk store and the numbers of free values only. -/
structure BootKeeps (s t : State) : Prop where
  threads : t.threads = s.threads
  blocks : t.blocks = s.blocks
  ctxs : t.ctxs = s.ctxs
  jobs : t.jobs = s.jobs
  kqsize : t.kqsize = s.kqsize
  mem : t.mem = s.mem
  part : t.cfg.part = s.cfg.part
  hbmchan : t.cfg.hbmchan = s.cfg.hbmchan

theorem BootKeeps.refl (s : State) : BootKeeps s s := ⟨rfl, rfl, rfl, rfl, rfl, rfl, rfl, rfl⟩
theorem BootKeeps.trans {s t u : State} (h : BootKeeps s t) (g : BootKeeps t u) : BootKeeps s u :=
  ⟨g.threads.trans h.threads, g.blocks.trans h.blocks, g.ctxs.trans h.ctxs, g.jobs.trans h.jobs, g.kqsize.trans h.kqsize,
    g.mem.trans h.mem, g.part.trans h.part, g.hbmchan.trans h.hbmchan⟩

theorem bootKeeps_runStage (s : State) (mr : Nat) (d : BitVec 512) : BootKeeps s (runStage s mr d).2 := by
  unfold runStage
  dsimp only
  split_ifs <;> exact ⟨rfl, rfl, rfl, rfl, rfl, rfl, rfl, rfl⟩
theorem bootKeeps_loadRoutine (s : State) (base : Nat) (image : List Byte) : BootKeeps s (loadRoutine s base image).2 := by
  have h := bootKeeps_runStage s 2 (Config.digestOf image)
  unfold loadRoutine
  split
  · rename_i t ht
    rw [ht] at h
    exact h.trans ⟨rfl, rfl, rfl, rfl, rfl, rfl, rfl, rfl⟩
  · exact h
theorem bootKeeps_thenStage {f : State → Bool × State} (hf : ∀ s, BootKeeps s (f s).2) (s : State) :
    BootKeeps s (thenStage f s) := by
  have h := hf s
  unfold thenStage
  split_ifs
  · exact .refl s
  · split
    · rename_i t ht
      rw [ht] at h
      exact h
    · rename_i t ht
      rw [ht] at h
      exact h.trans ⟨rfl, rfl, rfl, rfl, rfl, rfl, rfl, rfl⟩
theorem bootKeeps_boot (s : State) : BootKeeps s (boot s) := by
  have h0 : BootKeeps s (freshFree s).2 := ⟨rfl, rfl, rfl, rfl, rfl, rfl, rfl, rfl⟩
  have h1 := h0.trans (bootKeeps_thenStage (fun s => bootKeeps_runStage s 0 (Config.stageDigest 0)) _)
  have h2 := h1.trans (bootKeeps_thenStage (fun s => bootKeeps_runStage s 1 (Config.stageDigest 1)) _)
  have h3 := h2.trans (bootKeeps_thenStage
    (f := fun s => (true, measure s 4 (Config.stageDigest 2))) (fun s => ⟨rfl, rfl, rfl, rfl, rfl, rfl, rfl, rfl⟩) _)
  have h4 := h3.trans (bootKeeps_thenStage
    (fun t => bootKeeps_loadRoutine t 0 ((Config.bootRoutine s.free).take 65536)) _)
  unfold boot
  dsimp only
  split_ifs
  · exact h4.trans (bootKeeps_thenStage (fun s => bootKeeps_runStage s 3 (Config.stageDigest 3)) _)
  · exact h4

/-! ### Scrubbing, power (21 R382; 24 R405) -/

/-- An error that strikes a line with none is found there. -/
theorem find_struck (l : Nat) (e : LineErr) (es : List (Nat × LineErr)) :
    (es.filter (fun x => x.1 != l) ++ [(l, e)]).find? (fun x => x.1 == l) = some (l, e) := by
  rw [List.find?_append, List.find?_eq_none.2]
  · simp
  · intro x hx
    simpa using (List.mem_filter.1 hx).2

theorem foldl_modCtx_cfg (shares : List Share) (s : State) :
    (shares.foldl (fun s x => modCtx s x.ctx (fun c => { c with mjSpent := c.mjSpent + x.mj })) s).cfg = s.cfg := by
  induction shares generalizing s with
  | nil => rfl
  | cons x t ih => exact ih _

end Sys2Proof.Machine

namespace Sys2Proof.Laws
open Machine

/-- Settles O42: each event under its condition; the boot leaves the machine after reset as it is but for what it measures. -/
theorem reliabilityEvents : Obligations.ReliabilityEvents := by
  unfold Obligations.ReliabilityEvents
  refine ⟨exec_checkpoint_ready, fun blk b s hb hm hk hs => ?rollback, fun ctx s h => ?contextLoss, fun _ _ => rfl,
    fun s => ?coldReset, fun pa s h => ⟨?unreadCorrected, ?unreadUncorrectable⟩,
    fun pa unit t s h => ⟨?corrected, fun hp => ?newPoison, fun hp hl => ?oldPoison⟩, fun _ => rfl, fun blk s => ?scrubCore,
    fun p lanes s hp hl hlt => ?port, fun st ch s hst hch hlive => ?channel, fun n s hn ht => ?trip, fun _ _ => rfl,
    fun mean shares s => ⟨_, rfl, fun h => ?power⟩, fun _ => rfl⟩
  case rollback =>
    obtain rfl : b.uid = blk := getBlock_uid hb
    have hm' : b.mcheck.isEmpty = false := by simpa using hm
    show execRollback b.uid s = _
    unfold execRollback
    simp only [hb, hm', hk, hs, containCheck]
    cases rollsBack s b with
    | none => rfl
    | some c =>
      rcases readCellar s b with ⟨_ | _, t⟩ <;> rfl
  case contextLoss =>
    show execContextLoss ctx s = _
    unfold execContextLoss
    exact if_pos h
  case coldReset =>
    have h : BootKeeps (assignDevice (coldState s)) _ := bootKeeps_boot _
    exact ⟨_, rfl, h.threads, h.blocks, h.ctxs, h.jobs, h.kqsize, h.mem, h.part, h.hbmchan⟩
  case unreadCorrected =>
    show execScrub (.corrected pa) s = _
    simp only [execScrub, h]
  case unreadUncorrectable =>
    show execScrub (.uncorrectable pa) s = _
    simp only [execScrub, h]
  case corrected =>
    show execScrub (.corrected pa) s = _
    simp only [execScrub, h]
  case newPoison =>
    show execScrub (.uncorrectable pa) s = _
    simp only [execScrub, h, strikeLine, hp, Bool.false_eq_true, if_false, meetLine, find_struck]
  case oldPoison =>
    have hnone : t.lineErrs.find? (fun e => e.1 == pa / 64) = none := by
      rw [List.find?_eq_none]
      intro e he
      simpa using hl e he
    show execScrub (.uncorrectable pa) s = _
    simp only [execScrub, h, strikeLine, hp, if_true, meetLine, hnone]
  case scrubCore =>
    show execScrub (.core blk) s = _
    simp only [execScrub]
    cases getBlock s blk <;> rfl
  case port =>
    intro l
    show execUnitDegrade (.port p lanes) s = _
    unfold execUnitDegrade
    refine if_neg ?_
    rintro (h | h | h)
    · omega
    · obtain rfl | rfl | rfl := hl <;> simp at h
    · omega
  case channel =>
    intro live
    show execUnitDegrade (.channel st ch) s = _
    unfold execUnitDegrade
    refine if_neg ?_
    rintro (h | h | h)
    · omega
    · omega
    · rw [hlive] at h
      exact Bool.false_ne_true h
  case trip =>
    show execThermalTrip n s = _
    unfold execThermalTrip
    refine if_neg ?_
    rw [hn, ht]
    simp
  case power =>
    rw [foldl_modCtx_cfg]
    exact if_neg (Nat.not_lt.2 h)

end Sys2Proof.Laws
end

section
/-! PROOF. The events of the host (24 R396-R405; 21 R369-R371; O43). -/

namespace Sys2Proof.Machine

/-- Lines with no error show none (21 R369). -/
theorem meetLine_of_no_error {s : State} {pa : Nat} (h : ∀ e ∈ s.lineErrs, e.1 ≠ pa / 64) (by_ : McRec) :
    meetLine s pa by_ = s := by
  have hnone : s.lineErrs.find? (fun e => e.1 == pa / 64) = none := by
    rw [List.find?_eq_none]
    intro e he
    simpa using h e he
  unfold meetLine
  dsimp only
  rw [hnone]
theorem meetLines_of_no_error {s : State} {pa n : Nat} (hn : 0 < n)
    (h : ∀ e ∈ s.lineErrs, e.1 < pa / 64 ∨ (pa + n - 1) / 64 < e.1) (by_ : McRec) : meetLines s pa n by_ = s := by
  unfold meetLines
  refine List.foldlRecOn (motive := fun t => t = s) _ _ rfl fun t ht k hk => ?_
  subst ht
  refine meetLine_of_no_error (fun e he heq => ?_) _
  have hk' := List.mem_range.1 hk
  have := h e he
  omega

theorem outsideMeet_of_no_error {s : State} {pa n : Nat} (hn : 0 < n)
    (h : ∀ e ∈ s.lineErrs, e.1 < pa / 64 ∨ (pa + n - 1) / 64 < e.1) : outsideMeet s pa n =
      if poisoned s pa n then logMck (lineHolder (settleFound s)).2 (lineRec (lineHolder (settleFound s)).1 6 0x23 6)
      else s := by
  have hcheck : poisonCheck s pa n = 6 := by
    unfold poisonCheck
    refine if_neg ?_
    rw [Bool.not_eq_true, List.any_eq_false]
    intro e he
    have := h e he
    simp only [Bool.and_eq_true, decide_eq_true_eq, not_and]
    omega
  unfold outsideMeet
  rw [meetLines_of_no_error hn h]
  dsimp only
  rw [hcheck]

/-- An image of walk routines that verifies goes into the walk store, measured; another one is not loaded (24 R403). -/
theorem loadRoutine_eq (s : State) (base : Nat) (image : List Byte) : (loadRoutine s base image).2 =
    if Config.verified (freshFree s).1 = true then
      { (freshFree s).2 with
          walkStore := putBytes s.walkStore base image,
          cfg := { s.cfg with mr := extendMr s.cfg.mr 2 (Config.digestOf image) } }
    else (freshFree s).2 := by
  unfold loadRoutine runStage
  dsimp only
  split_ifs <;> rfl

/-- An aligned AtomicOp of a size that there is, at bytes that are backed, is performed. -/
theorem hostAtomic_eq {s : State} {pa n most : Nat} (f : Nat → Nat) (hn : n = 4 ∨ n = 8 ∨ n = 16) (hm : n ≤ most)
    (ha : pa % n = 0) (hb : backed s pa = true) :
    hostAtomic s pa n most f = hostWrite (outsideMeet s pa n) pa (leBytes n (f (readLE s pa n))) := by
  refine if_pos ?_
  have hsize : [4, 8, 16].contains n = true := by simpa using hn
  rw [hsize, hb, ha, decide_eq_true hm]
  rfl

end Sys2Proof.Machine

namespace Sys2Proof.Laws
open Machine

/-- Settles O43: each event of the host is its own step, under its condition. -/
theorem hostEvents : Obligations.HostEvents := by
  unfold Obligations.HostEvents
  intro reg
  have hreg (i : Instr) (q : Nat) (f : HostQ → HostQ) (h : ∀ s, exec i s = queueWrite q s f) : reg i q f := h
  clear_value reg
  refine ⟨fun q v => hreg _ _ _ fun _ => rfl, fun q v => hreg _ _ _ fun _ => rfl, fun q v => hreg _ _ _ fun _ => rfl,
    fun q v => hreg _ _ _ fun _ => rfl, fun q v => hreg _ _ _ fun _ => rfl, fun q off v => hreg _ _ _ fun _ => rfl,
    fun q s hq => ?entry, fun pa n s hn h => outsideMeet_of_no_error hn h, fun q note rest s => ?note, fun _ _ => rfl,
    fun nonce s => ⟨_, rfl, ?signed⟩, fun _ _ _ => rfl, fun base image s h => ?noBoot, fun base image s h => ?load,
    fun _ _ _ => rfl, fun pa bytes s h => ?write, fun pa n v c w s hn ha hb => ?atomics, fun pa c w s ha hb => ?cas16⟩
  case entry =>
    intro x n pa hsize hstate hseq t
    have hthere : ¬ (numQueues ≤ q ∨ x.qsize = 0 ∨ x.qstate.getLsbD 0 = true ∨
        (x.qbase.getLsbD 63 = true ∧ (!seqAtOrBefore n x.qtail) = true)) := by
      rintro (h | h | h | ⟨h, hn⟩)
      · exact absurd hq (Nat.not_lt.2 h)
      · exact hsize h
      · exact Bool.false_ne_true (hstate.symm.trans h)
      · rw [hseq h] at hn
        exact Bool.false_ne_true hn
    refine ⟨fun hp => ?_, fun hp ht => ?_, fun hp ht hn => ?_⟩
    all_goals
      show execQueueEntryTake q s = _
      unfold execQueueEntryTake
      refine (if_neg hthere).trans ?_
      dsimp only
      rw [show poisoned s ((getQueue s q).qbase.toNat % 2 ^ 63 +
        256 * (((getQueue s q).lastAcc + 1).toNat % (getQueue s q).qsize.toNat)) 256 = _ from hp]
    · rfl
    · exact if_pos (.inr ht)
    · refine (if_neg ?_).trans (if_pos hn)
      rintro (h | h)
      · exact Bool.false_ne_true h
      · exact Bool.false_ne_true (ht.symm.trans h)
  case note =>
    intro x hnotes hsize hroom
    show execNotificationWrite q s = _
    unfold execNotificationWrite
    dsimp only
    rw [show (getQueue s q).notes = note :: rest from hnotes]
    exact congrArg Host.Outcome.next (if_neg (by rintro (h | h); exacts [hsize h, hroom h]))
  case signed => simp
  case noBoot =>
    exact congrArg Host.Outcome.next (if_neg (by simp [h]))
  case load =>
    show execWalkRoutineLoad base image s = _
    unfold execWalkRoutineLoad
    rw [loadRoutine_eq, h]
    by_cases hsize : base + image.length ≤ 65536
    · cases hv : Config.verified (freshFree s).1 <;> simp [hsize]
    · simp [hsize]
  case write =>
    exact congrArg Host.Outcome.next (if_neg h)
  case atomics =>
    have h8 : n ≤ 8 := by omega
    have hsize : n = 4 ∨ n = 8 ∨ n = 16 := hn.imp_right .inl
    exact ⟨congrArg (fun t => Host.Outcome.next (unstall t)) (hostAtomic_eq _ hsize h8 ha hb),
      congrArg (fun t => Host.Outcome.next (unstall t)) (hostAtomic_eq _ hsize h8 ha hb),
      congrArg (fun t => Host.Outcome.next (unstall t)) (hostAtomic_eq _ hsize (h8.trans (by decide)) ha hb)⟩
  case cas16 =>
    exact congrArg (fun t => Host.Outcome.next (unstall t)) (hostAtomic_eq _ (.inr (.inr rfl)) (Nat.le_refl 16) ha hb)

end Sys2Proof.Laws
end

section
/-! PROOF. The events of jobs (10 R216; O40 refuted). The end of a job writes its completion future first, and then ends the
JPWAITs that wait for the job. The status of a JPWAIT is a write of a register, which with a full cellar ends the revocable
interval of its block (21 R375, R377): the block's held stores reach memory after the future has been written, and one of
them may lie over the future. -/

namespace Sys2Proof.Machine

/-- A block whose thread waits in JPWAIT, in a revocable interval with a full cellar, and with a held store of 0 over the
future at 0x30000. -/
def doneCovered : State :=
  let s := placeWord State.reset (encode (.nop { gn := false, gi := 63, pk := false }))
  let s := modThreads s (fun _ => true) fun t => { t with wait := .jpwait (some 3) }
  { s with blocks := s.blocks.map fun b => { b with
      flags := 3, revocable := true, dirtyAccs := List.replicate 16 0,
      hold := [⟨0, 0, 0x30000, List.replicate 8 0, StoreInfo.none, false⟩] } }
/-- A kernel-level job of the same context, whose completion future lies at 0x30000. -/
def doneJob : Job :=
  { ctx := 0, serial := 9, card := BitVec.ofNat 1024 (fld 656 64 0x30000 + fld 584 4 1), order := 0, dealt := 0, launched := 0,
    killed := false, poster := none, queue := none, qgen := 0 }
/-- The future of the job can be written and is EMPTY, and it is not FULL after the job's completion. -/
def doneIsLost : Bool :=
  match translate doneCovered .device doneJob.ctx (cardKernel doneJob.card) 2 (cardDone doneJob.card) with
  | (.ok pa, t) => !poisoned t pa 16 && futState t pa == 0 && futState (endJob doneCovered doneJob false) pa != 1
  | _ => false

theorem doneIsLost_eq : doneIsLost = true := by decide +kernel
theorem cardDone_doneJob : cardDone doneJob.card ≠ 0 := by decide +kernel

end Sys2Proof.Machine

namespace Sys2Proof.Laws
open Machine

/-- Refutes O40: a held store that drains with the end of a JPWAIT covers the future that the completion has just written. -/
theorem not_jobEvents : ¬ Obligations.JobEvents := by
  unfold Obligations.JobEvents
  rintro ⟨-, -, -, -, -, -, -, -, -, hdone, -⟩
  have hlost := doneIsLost_eq
  unfold doneIsLost at hlost
  split at hlost
  · rename_i pa t htranslate
    simp only [Bool.and_eq_true, Bool.not_eq_true', beq_iff_eq, bne_iff_ne] at hlost
    obtain ⟨⟨hpoison, hempty⟩, hnotFull⟩ := hlost
    exact hnotFull (hdone doneJob pa t doneCovered cardDone_doneJob htranslate hpoison (.inl hempty)).1
  · exact Bool.false_ne_true hlost

end Sys2Proof.Laws
end

section
/-! PROOF. The events of saves (11 R239-R248; O41). -/

namespace Sys2Proof.Machine

/-- A block that has stopped for its save, with no copy that it waits for and a save left in the period, is looked at. -/
theorem exec_save_ready {blk : Nat} {b : Block} {r : SaveReq} {s : State} (hb : getBlock s blk = some b)
    (hr : b.saveReq = some r) (hready : saveReady s b = true) (hcopies : copiesRun s blk = false ∨ r.bounded = true)
    (hbudget : s.act.saves < s.cfg.budgets.saves) :
    exec (.save blk) s =
      if !(blockFaults s blk).isEmpty ∧ (s.kqsize = 0 ∨ b.kernel) then
        .next (unstall (noKernelTrap s b (match firstFault s blk r with | some f => f.2.2.cause.toNat | none => 0)))
      else if queueFull s then .next s
      else .next (unstall (joinResume (saveBlock
        ((s.copies.filter (fun c => c.blk == blk)).foldl (fun s c => settleFlying s c.id) s) b r) b r)) := by
  have hlook : ¬ ((!saveReady s b || (copiesRun s blk && !r.bounded) || decide (s.cfg.budgets.saves ≤ s.act.saves)) = true) := by
    rw [hready, decide_eq_false (Nat.not_le.2 hbudget)]
    obtain h | h := hcopies <;> simp [h]
  show execSave blk s = _
  unfold execSave
  rw [hb]
  dsimp only
  rw [hr]
  exact if_neg hlook

end Sys2Proof.Machine

namespace Sys2Proof.Laws
open Machine

/-- Settles O41: a save by the state of the trap queue and of the kernel, and the other events under their conditions. -/
theorem saveEvents : Obligations.SaveEvents := by
  unfold Obligations.SaveEvents
  refine ⟨fun blk b r s hb hr hready hcopies hbudget hfault => ?save,
    fun blk b r s hb hr hready hcopies hbudget hfault hkernel => ?noKernel, fun blk b s hb => ?bound,
    fun e rest s1 s he hsize hroom hwrite => ?entry, fun ticket cores r b s1 s hr hb => ?restore⟩
  case save =>
    rw [exec_save_ready hb hr hready hcopies hbudget, if_neg, ← apply_ite Host.Outcome.next]
    rintro ⟨hf, hk⟩
    obtain h | ⟨h1, h2⟩ := hfault
    · simp [h] at hf
    · exact hk.elim h1 fun hk => Bool.false_ne_true (h2.symm.trans hk)
  case noKernel =>
    have hfaults : (!(blockFaults s blk).isEmpty) = true := by rw [hfault]; rfl
    exact (exec_save_ready hb hr hready hcopies hbudget).trans (if_pos ⟨hfaults, hkernel⟩)
  case bound =>
    show execSaveCopyBound blk s = _
    unfold execSaveCopyBound
    rw [hb]
    exact (apply_ite Host.Outcome.next _ _ _).symm
  case entry =>
    show execTrapEntryWrite s = _
    unfold execTrapEntryWrite
    rw [he]
    refine (if_neg hsize).trans ((if_neg hroom).trans ?_)
    dsimp only
    rw [hwrite]
  case restore =>
    intro group hlen hdom hall hrest
    show execRestore ticket cores s = _
    unfold execRestore
    rw [hr]
    dsimp only [Option.bind]
    rw [hb]
    refine (if_pos ⟨hlen, hdom, hall⟩).trans ?_
    rw [show restoreAll s ((s.blocks.filter (fun q => q.sameGroup b)).zip cores) = some s1 from hrest]

end Sys2Proof.Laws
end

section
/-! PROOF. Taking a trap at task level and returning from it (11 R237, R238; O57): the threads through translation, the
filing of bins, and the arrival at a header. -/

namespace Sys2Proof.Machine

/-! ### Reaching memory leaves the threads as they are -/

@[simp] theorem writeMck_threads (s : State) (m : McRec) : (writeMck s m).threads = s.threads := by
  unfold writeMck
  dsimp only
  split_ifs <;> rfl
@[simp] theorem logMck_threads (s : State) (m : McRec) : (logMck s m).threads = s.threads := by
  unfold logMck
  dsimp only
  split_ifs <;> simp
@[simp] theorem meetLine_threads (s : State) (pa : Nat) (m : McRec) : (meetLine s pa m).threads = s.threads := by
  unfold meetLine
  dsimp only
  split
  · rfl
  · split <;> rfl
  · split_ifs <;> simp [lineHolder, freshFree]
theorem foldl_meetLine_threads (ls : List Nat) (s : State) :
    (ls.foldl (fun s l => meetLine s (64 * l)) s).threads = s.threads := by
  induction ls generalizing s with
  | nil => rfl
  | cons l ls ih => rw [List.foldl_cons, ih, meetLine_threads]
@[simp] theorem meetAll_threads (s : State) (r : Rv) : (meetAll s r).threads = s.threads := by
  unfold meetAll
  dsimp only
  split <;> simp [foldl_meetLine_threads]
@[simp] theorem runWalk_threads (s : State) (c : Ctx) (kind va : Nat) : (runWalk s c kind va).2.threads = s.threads := by
  unfold runWalk
  dsimp only
  split <;> simp
/-- What a translation leaves: the state that its walk leaves, with other cached translations. -/
theorem mapAddr_keeps {P : State → Prop} {s : State} {kind va : Nat} (hs : P s) (hw : ∀ c, P (runWalk s c kind va).2)
    (ht : ∀ u l, P u → P { u with tlb := l }) (a : Asker) (ctx : Nat) (kernel : Bool) :
    P (mapAddr s a ctx kernel kind va).2 := by
  have walked (c : Ctx) : P (match runWalk s c kind va with
      | (.error (.poison line), s1) => ((.poison (64 * line), s1) : Trans × State)
      | (.error .typed, s1) => (.perm, s1)
      | (.error .absent, s1) => (.page, s1)
      | (.ok none, s1) => (.page, tlbForget s1 a ctx va)
      | (.ok (some word), s1) =>
        let s2 := tlbFillAll s1 a ctx va word
        if grants word kernel kind then (.ok (physOf word va), s2) else (.perm, s2)).2 := by
    have h := hw c
    split <;> rename_i s1 hr <;> rw [hr] at h
    case h_4 => exact ht _ _ h
    case h_5 =>
      dsimp only
      split_ifs <;> exact ht _ _ h
    all_goals exact h
  unfold mapAddr
  split
  · exact hs
  split
  · exact hs
  dsimp only
  split
  · exact hs
  split
  · split
    · exact walked _
    · exact ht _ _ hs
  · exact walked _
@[simp] theorem mapAddr_threads (s : State) (a : Asker) (ctx : Nat) (kernel : Bool) (kind va : Nat) :
    (mapAddr s a ctx kernel kind va).2.threads = s.threads :=
  mapAddr_keeps (P := fun t => t.threads = s.threads) rfl (fun c => runWalk_threads s c kind va) (fun _ _ h => h) a ctx kernel
@[simp] theorem translate_threads (s : State) (a : Asker) (ctx : Nat) (kernel : Bool) (kind va : Nat) (m : McRec) :
    (translate s a ctx kernel kind va m).2.threads = s.threads := by
  have hmap := mapAddr_threads s a ctx kernel kind va
  unfold translate
  split
  · rename_i s1 h
    rw [h] at hmap
    dsimp only
    split_ifs <;> simpa using hmap
  · exact hmap
@[simp] theorem fetchWord_threads (s : State) (b : Block) (va hdr : Nat) : (fetchWord s b va hdr).2.threads = s.threads := by
  have ht := translate_threads s (.fetch b.core) b.ctx b.kernel 3 va (partyOf b 0 (BitVec.ofNat 64 hdr) 0 0 va)
  unfold fetchWord
  split <;> rename_i s1 h <;> rw [h] at ht
  · split_ifs <;> exact ht
  all_goals exact ht
@[simp] theorem targetOk_threads (s : State) (b : Block) (t : W64) : (targetOk s b t).2.threads = s.threads := by
  have hf := fetchWord_threads s b t.toNat t.toNat
  unfold targetOk
  split
  · rfl
  split <;> rename_i s1 h <;> rw [h] at hf <;> exact hf
@[simp] theorem isReform_threads (s : State) (b : Block) (t : W64) : (isReform s b t).2.threads = s.threads := by
  have hf := fetchWord_threads s b t.toNat t.toNat
  unfold isReform
  split <;> rename_i s1 h <;> rw [h] at hf <;> exact hf

/-! ### Bins and bundles leave the threads as they are -/

theorem fileIn_threads {s t : State} {core blk role : Nat} {hdr : W64} {m : Nat × Nat}
    (h : fileIn s core blk role hdr m = some t) : t.threads = s.threads := by
  unfold fileIn at h
  dsimp only at h
  split at h
  · cases h; rfl
  · split at h
    · cases h; rfl
    · cases h
theorem fileThread_threads (s : State) (core blk role : Nat) (hdr : W64) (m : Nat × Nat) :
    (fileThread s core blk role hdr m).threads = s.threads := by
  unfold fileThread
  dsimp only
  split
  · rfl
  · cases h : fileIn s core blk role hdr m with
    | none => rfl
    | some t => exact fileIn_threads h
theorem fileMembers_threads (s : State) (b : Bundle) (core : Nat) : (fileMembers s b core).threads = s.threads := by
  have hall (ms : List (Nat × Nat)) (s : State) :
      (ms.foldl (fun s m => fileThread s core b.blk b.role b.place.hdr m) s).threads = s.threads := by
    induction ms generalizing s with
    | nil => rfl
    | cons m ms ih => rw [List.foldl_cons, ih, fileThread_threads]
  exact hall b.mem (dropBundle s b.id)
theorem fileArrivals_threads (s : State) (core : Nat) : (fileArrivals s core).threads = s.threads := by
  have hone (s : State) (a : Arrival) : ((fileIn { s with arrivals := s.arrivals.erase a } core a.blk a.role a.hdr
      (a.gang, a.lane)).getD s).threads = s.threads := by
    cases h : fileIn { s with arrivals := s.arrivals.erase a } core a.blk a.role a.hdr (a.gang, a.lane) with
    | none => rfl
    | some t => exact (fileIn_threads h :)
  unfold fileArrivals
  generalize s.arrivals.filter _ = l
  induction l generalizing s with
  | nil => rfl
  | cons a l ih => exact (ih _).trans (hone s a)
theorem mergePath_threads (s : State) (id : Nat) : (mergePath s id).threads = s.threads := by
  unfold mergePath
  split
  · rfl
  split
  · rfl
  · exact fileArrivals_threads _ _
@[simp] theorem settleAt_threads (s : State) (id : Nat) : (settleAt s id).threads = s.threads := by
  unfold settleAt
  split
  · rfl
  split
  · rfl
  rename_i b _ _ k _
  have hr := isReform_threads s k b.place.hdr
  dsimp only
  split
  · exact (fileMembers_threads _ _ _).trans hr
  · exact (mergePath_threads _ _).trans hr
@[simp] theorem markAge_threads (s : State) (id : Nat) : (markAge s id).threads = s.threads := by
  unfold markAge
  split
  · rfl
  split <;> rfl
@[simp] theorem leaveBundle_threads (s : State) (id : Nat) (ms : List (Nat × Nat)) :
    (leaveBundle s id ms).threads = s.threads := by
  unfold leaveBundle
  split
  · rfl
  dsimp only
  split <;> rfl

/-- A thread is found in the list of threads. -/
theorem getThread_congr {s t : State} (h : t.threads = s.threads) (b g l : Nat) : getThread t b g l = getThread s b g l := by
  unfold getThread
  rw [h]
/-- The arrival of a bundle at a header sets program counters to the header, and changes nothing else of a thread. -/
theorem getThread_arriveAt {s : State} {b g l : Nat} {t : Thread} (h : getThread s b g l = some t) (id : Nat) {hdr : W64}
    (hp : t.pc = hdr) : getThread (arriveAt s id hdr) b g l = some t := by
  have hset (blk : Nat) (ms : List (Nat × Nat)) : getThread (setPcs s blk ms hdr) b g l = some t := by
    refine (getThread_modThreads _ _ (fun t => { t with pc := hdr }) _ _ _ fun _ => rfl).trans ?_
    rw [h]
    simp only [Option.map_some]
    split
    · rw [← hp]
    · rfl
  unfold arriveAt
  split
  · exact h
  dsimp only
  split
  · split
    · exact (getThread_congr ((settleAt_threads _ _).trans (markAge_threads _ _)) b g l).trans (hset _ _)
    · exact (getThread_congr (markAge_threads _ _) b g l).trans (hset _ _)
  · exact (getThread_congr (markAge_threads _ _) b g l).trans (hset _ _)

/-! ### A trap -/

/-- The thread as it stands at its handler's header (11 R237). -/
def Thread.trapped (t : Thread) (cause : Nat) (pc info : W64) (wrec : BitVec 256) (resume : Place) (vec : W64) : Thread :=
  { t with handling := true, resume := resume, trcause := BitVec.ofNat 32 cause, trpc := pc, trinfo := info,
           wrec := wrec, pc := vec, left := false }
/-- The state in which the trapped thread has its path, before it arrives at the handler. -/
def trapPath (s : State) (x : Lane) (bun : Option Bundle) (cause : Nat) (pc info : W64) (wrec : BitVec 256)
    (resume : Place) (vec : W64) : Nat × State :=
  let s := modThreads (targetOk s x.b vec).2 (fun t => t.blk == x.t.blk && [(x.t.gang, x.t.lane)].contains (t.gang, t.lane))
    fun t => t.trapped cause pc info wrec resume vec
  let s := match bun with
    | some b => leaveBundle s b.id [(x.t.gang, x.t.lane)]
    | none => s
  newBundle s (bun.map Bundle.fam) x.t.blk x.g.role [(x.t.gang, x.t.lane)] (Place.at_ vec) false bun.isSome

section Trap
variable {s : State} {x : Lane} {bun : Option Bundle} {cause : Nat} {pc info : W64} {wrec : BitVec 256} {resume : Place}
  {vec : W64}

theorem takeTrap_eq : takeTrap s x bun cause pc info wrec resume vec =
    let q := trapPath s x bun cause pc info wrec resume vec
    if (targetOk s x.b vec).1 then arriveAt q.2 q.1 vec
    else raise q.2 x.t.blk 0 vec [⟨x.t.gang, x.t.lane, { cause := 0x03 }⟩] := rfl

/-- The trap registers of the thread in its new path. -/
theorem getThread_trapPath (h : getThread s x.t.blk x.t.gang x.t.lane = some x.t) :
    getThread (trapPath s x bun cause pc info wrec resume vec).2 x.t.blk x.t.gang x.t.lane =
      some (x.t.trapped cause pc info wrec resume vec) := by
  have hmod : getThread (modThreads (targetOk s x.b vec).2
      (fun t => t.blk == x.t.blk && [(x.t.gang, x.t.lane)].contains (t.gang, t.lane))
      fun t => t.trapped cause pc info wrec resume vec) x.t.blk x.t.gang x.t.lane =
        some (x.t.trapped cause pc info wrec resume vec) := by
    rw [getThread_modThreads _ _ (fun t => t.trapped cause pc info wrec resume vec) _ _ _ fun _ => rfl,
      getThread_congr (targetOk_threads s x.b vec), h]
    simp
  have hleave : (trapPath s x bun cause pc info wrec resume vec).2.threads = (modThreads (targetOk s x.b vec).2
      (fun t => t.blk == x.t.blk && [(x.t.gang, x.t.lane)].contains (t.gang, t.lane))
      fun t => t.trapped cause pc info wrec resume vec).threads := by
    cases bun with
    | none => rfl
    | some b => exact leaveBundle_threads _ _ _
  exact (getThread_congr hleave _ _ _).trans hmod

/-- At a handler that may be a header, the thread stands there with its trap registers. -/
theorem getThread_takeTrap_ok (h : getThread s x.t.blk x.t.gang x.t.lane = some x.t) (hok : (targetOk s x.b vec).1 = true) :
    getThread (takeTrap s x bun cause pc info wrec resume vec) x.t.blk x.t.gang x.t.lane =
      some (x.t.trapped cause pc info wrec resume vec) := by
  rw [takeTrap_eq]
  simp only [hok, if_true]
  exact getThread_arriveAt (getThread_trapPath h) _ rfl

/-- At a handler that is no header, the thread takes ILLCLS. -/
theorem getThread_takeTrap_bad (h : getThread s x.t.blk x.t.gang x.t.lane = some x.t) (hok : (targetOk s x.b vec).1 = false) :
    getThread (takeTrap s x bun cause pc info wrec resume vec) x.t.blk x.t.gang x.t.lane =
      some ((x.t.trapped cause pc info wrec resume vec).withFault (Flt.toRec { cause := 0x03 } vec)) := by
  rw [takeTrap_eq]
  simp only [hok, Bool.false_eq_true, if_false]
  have hraise := raise_threads (trapPath s x bun cause pc info wrec resume vec).2 x.t.blk 0 vec [x.t] { cause := 0x03 }
    (by decide)
  refine (getThread_congr hraise _ _ _).trans ((getThread_modThread _ _ _ _
    (Thread.withFault (Flt.toRec { cause := 0x03 } vec)) fun _ => rfl).trans ?_)
  rw [getThread_trapPath h]
  rfl
end Trap

end Sys2Proof.Machine

namespace Sys2Proof.Laws
open Machine

/-- Settles O57: the path to the handler changes nothing else of its thread, as it leaves its bundle and arrives. -/
theorem trapHandlersEnterAndReturn : Obligations.TrapHandlersEnterAndReturn := by
  unfold Obligations.TrapHandlersEnterAndReturn
  refine ⟨?_, ?_, ?_, ?_⟩
  · intro s s1 x bun cause pc info wrec resume vec htgt h hcause
    refine ⟨_, getThread_takeTrap_ok h (by rw [htgt]), rfl, ?_, rfl, rfl, rfl, rfl, rfl, rfl, rfl, rfl⟩
    exact (BitVec.toNat_ofNat _ _).trans (Nat.mod_eq_of_lt hcause)
  · intro s s1 x bun cause pc info wrec resume vec htgt h
    exact ⟨_, _, getThread_takeTrap_bad h (by rw [htgt]), rfl, rfl, rfl, rfl, rfl⟩
  · intro x target
    simp [isTrapReturn]
  · intro s x t h
    unfold endTrap
    rw [getThread_modThread, h]
    · rfl
    · exact fun _ => rfl

end Sys2Proof.Laws
end

section
/-! PROOF. What the going on of a bundle changes of its threads (02 R23, R25; O53). -/

namespace Sys2Proof.Machine

/-- A MOVI of register 5. -/
def moviWord : Instr := .movi unguarded 0 5 7
/-- The bundle of a fresh block at the first of two MOVIs of its clause, whose thread carries the mark that its last blocking
wait has ended. -/
def markedAtMovi : State :=
  let s := placeWord State.reset (encode moviWord)
  let s := modBundle s s.cur fun q => { q with place := { q.place with
    clause := q.place.clause.map fun c => { c with words := c.words ++ c.words } } }
  modThreads s (fun _ => true) fun t => { t with left := true }

/-- The bundle, the clause and the block of the counterexample. -/
def moviBundle : Bundle := (getBundle markedAtMovi markedAtMovi.cur).get (by decide +kernel)
def moviClause : Clause := moviBundle.place.clause.get (by decide +kernel)
def moviBlock : Block := (getBlock markedAtMovi moviBundle.blk).get (by decide +kernel)

theorem markedAtMovi_ready : Ready markedAtMovi 0x1C unguarded [] [⟨5, 1⟩] [] moviBundle moviClause moviBlock where
  bundle := (Option.some_get _).symm
  clause := (Option.some_get _).symm
  block := (Option.some_get _).symm
  order := by decide +kernel
  range := by decide +kernel
  pairs := by decide +kernel
  clean := by decide +kernel
  held := by decide +kernel
  unarmed := by decide +kernel

theorem moviBlock_plain : Plain moviBlock :=
  show (moviBlock.rollback && moviBlock.revocable) = false by decide +kernel

/-- The mark of the one thread. -/
def leftMark (s : State) : Bool := (getThread s moviBundle.blk 0 0).any Thread.left
/-- The mark of the one thread after an outcome. -/
def leftMarkAfter (r : Res) : Bool := match r with | .next t => leftMark t | _ => false

/-- The thread has the mark before the MOVI, and the going on of its bundle clears it. -/
theorem leftMark_movi : leftMark markedAtMovi = true ∧ leftMarkAfter (exec moviWord markedAtMovi) = false := by decide +kernel

/-- Equal threads, but for what `Thread.bare` takes away, carry the same mark. -/
theorem leftMark_eq_of_bare {s t : State}
    (h : ∀ b g l, (getThread t b g l).map Thread.bare = (getThread s b g l).map Thread.bare) : leftMark t = leftMark s := by
  have hmark (u : State) : leftMark u = ((getThread u moviBundle.blk 0 0).map Thread.bare).any Thread.left := by
    unfold leftMark
    cases getThread u moviBundle.blk 0 0 <;> rfl
  rw [hmark, hmark, h]

end Sys2Proof.Machine

namespace Sys2Proof.Laws
open Machine

/-- Refutes O53: where the bundle goes on, it also clears the mark of its threads that their last blocking wait has ended,
which is none of the parts that the statement lets change. -/
theorem not_resultFrames : ¬ Obligations.ResultFrames := by
  unfold Obligations.ResultFrames
  intro h
  have hmovi : Lanes moviWord 0x1C unguarded [] 5 32 fun _ => (7 : BitVec 32).toNat :=
    lanes_of_exec_eq_laneOp fun _ => rfl
  obtain ⟨t, ht, hw⟩ := h.1 _ _ _ _ _ _ _ hmovi _ _ _ _ markedAtMovi_ready ⟨by decide +kernel, .inl moviBlock_plain⟩
  have hkept := leftMark_eq_of_bare hw.threads
  obtain ⟨hbefore, hafter⟩ := leftMark_movi
  rw [ht] at hafter
  rw [hbefore] at hkept
  exact absurd (hkept.symm.trans hafter) (by decide)

end Sys2Proof.Laws
end

section
/-! PROOF. What performing an access does to memory and to scratchpad (08 R170, R183; 09 R191, R194, R195; 12 R251;
21 R376; O55). -/

namespace Sys2Proof.Machine

/-- The block's context watches no address. -/
def Unwatched (s : State) (blk : Nat) : Prop :=
  ∀ b c, getBlock s blk = some b → getCtx s b.ctx = some c → ∀ va, watched c va = false

/-! ### Reading -/

theorem readBytes_congr {s t : State} {pa n : Nat} (h : ∀ a, pa ≤ a → a < pa + n → readByte t a = readByte s a) :
    readBytes t pa n = readBytes s pa n :=
  List.map_congr_left fun k hk => h _ (by omega) (by have := List.mem_range.1 hk; omega)
/-- A block that holds no store reads memory as it is. -/
theorem entryBytes_unheld {s : State} {o : Outst} (h : ∀ b, getBlock s o.blk = some b → b.hold = []) (pa n : Nat) :
    entryBytes s o .glob pa n = readLE s pa n := by
  show leVal (readGlobal s o.blk pa n) = leVal (readBytes s pa n)
  unfold readGlobal
  split
  · rfl
  · rename_i b hb
    rw [h b hb]
    rfl

theorem getOutst_updOutst {s : State} {o : Outst} (h : getOutst s o.id = some o) (f : Outst → Outst)
    (hf : ∀ e, (f e).id = e.id) : getOutst (updOutst s o.id f) o.id = some (f o) := by
  refine (find_updWhere_same s.outst (fun e => e.id == o.id) f fun e => by rw [hf]).trans ?_
  show (getOutst s o.id).map f = _
  rw [h]
  rfl
theorem getOutst_congr {s t : State} (h : t.outst = s.outst) (id : Nat) : getOutst t id = getOutst s id := by
  unfold getOutst
  rw [h]

/-! ### A write to global memory -/

theorem keepBits_nil (keep : Nat) (old : List Byte) : keepBits keep old [] = [] := by
  unfold keepBits
  split
  · rfl
  · exact List.mapIdx_nil

section Global
variable {s : State} {blk gang lane pa : Nat} {bs : List Byte} {i : StoreInfo}

theorem commitStore_clear (hc : ∀ e ∈ s.lineErrs, e.1 ≠ pa / 64) (hm : writeMeets s pa bs.length = none) :
    commitStore s blk gang lane pa bs i = storeGlobal s blk gang lane pa bs i := by
  have hl : meetLine s pa ((getBlock s blk).elim noParty fun b => partyOf b i.op i.pc gang lane i.va.toNat) = s :=
    meetLine_of_no_error hc _
  unfold commitStore
  dsimp only
  rw [hl, hm]

/-- A store whose block keeps nothing back is performed in memory. -/
theorem performStore_plain (h : ∀ b, getBlock s blk = some b → Plain b) :
    performStore s blk gang lane pa bs i = commitStore s blk gang lane pa bs i := by
  unfold performStore
  split
  · rfl
  · rename_i b hb
    rw [if_neg (by rw [h b hb]; exact Bool.false_ne_true)]

theorem readBytes_storeGlobal (h : Unwatched s blk) :
    readBytes (storeGlobal s blk gang lane pa bs i) pa bs.length = keepBits i.keep (readBytes s pa bs.length) bs := by
  have hl := keepBits_length i.keep (readBytes s pa bs.length) bs
  conv_lhs => rw [← hl]
  refine readBytes_of _ _ _ fun a ha => ?_
  rw [readByte_storeGlobal _ _ _ _ _ _ _ h, if_pos (by rwa [hl] at ha)]
theorem readByte_storeGlobal_apart (h : Unwatched s blk) {a : Nat} (ha : a < pa ∨ pa + bs.length ≤ a) :
    readByte (storeGlobal s blk gang lane pa bs i) a = readByte s a := by
  rw [readByte_storeGlobal _ _ _ _ _ _ _ h, if_neg (by omega)]
theorem outst_storeGlobal (h : Unwatched s blk) : (storeGlobal s blk gang lane pa bs i).outst = s.outst := by
  have hbefore (n : Nat) : (dirtyLine (spendBytes s blk n) blk pa).outst = s.outst := by
    unfold dirtyLine spendBytes
    split <;> split <;> rfl
  unfold storeGlobal
  dsimp only
  rw [traceStore_unwatched _ _ _ _ _ _ _ h]
  split <;> exact hbefore _
end Global

/-! ### A write to a scratchpad -/

section Scratch
variable {s : State} {u off : Nat} {bs : List Byte} {b : Block}

theorem noteLine_plain (hb : getBlock s u = some b) (hp : Plain b) (l : Nat) : noteLine s u l = s := by
  unfold noteLine noteDirty
  rw [hb]
  refine if_neg ?_
  rw [hp]
  exact Bool.false_ne_true
/-- The block with bytes written to its scratchpad. -/
def Block.written (off : Nat) (bs : List Byte) (b : Block) : Block :=
  { b with scratch := putBytes b.scratch off bs, granules := touch b.granules off bs.length,
           errs := b.errs.filter (fun e => !scratchWhole off bs.length e.place) }
theorem writeScratch_plain (hb : getBlock s u = some b) (hp : Plain b) :
    writeScratch s u off bs = modBlock s u (Block.written off bs) := by
  have hnotes (ls : List Nat) : ls.foldl (fun s k => noteLine s u (off / 64 + k)) s = s := by
    induction ls with
    | nil => rfl
    | cons l ls ih => rw [List.foldl_cons, noteLine_plain hb hp, ih]
  unfold writeScratch
  dsimp only
  rw [hnotes]
  rfl

theorem readScratch_written {t : State} (ht : t.blocks = (modBlock s u (Block.written off bs)).blocks)
    (hb : getBlock s u = some b) (a n : Nat) :
    readScratch t u a n = (List.range n).map fun k => Sparse.get unlisted (putBytes b.scratch off bs) (a + k) := by
  have hmod : getBlock (modBlock s u (Block.written off bs)) u = some (b.written off bs) := by
    rw [getBlock_modBlock, hb]
    · rfl
    · exact fun _ => rfl
  rw [readScratch_congr ht]
  unfold readScratch
  rw [hmod]
  rfl
end Scratch

/-- Of memory and of all scratchpads, only n bytes at off of one scratchpad may read differently. -/
def OnlyScratch (s t : State) (u off n : Nat) : Prop :=
  (∀ a, readByte t a = readByte s a) ∧
  (∀ a, (a < off ∨ off + n ≤ a) → readScratch t u a 1 = readScratch s u a 1) ∧
  (∀ v a n, v ≠ u → readScratch t v a n = readScratch s v a n)
theorem OnlyScratch.refl (s : State) (u off n : Nat) : OnlyScratch s s u off n :=
  ⟨fun _ => rfl, fun _ _ => rfl, fun _ _ _ _ => rfl⟩

section Scratch
variable {s : State} {u off : Nat} {bs : List Byte} {b : Block} (hb : getBlock s u = some b) (hp : Plain b)
include hb hp

/-- The bytes written read back. -/
theorem readScratch_writeScratch : readScratch (writeScratch s u off bs) u off bs.length = bs := by
  rw [readScratch_written (by rw [writeScratch_plain hb hp]) hb]
  refine List.ext_getElem (by simp) fun k h1 h2 => ?_
  simp only [List.getElem_map, List.getElem_range, Laws.get_putBytes]
  rw [if_pos ⟨by omega, by omega⟩]
  simp [List.getD_eq_getElem?_getD, h2]
theorem onlyScratch_writeScratch : OnlyScratch s (writeScratch s u off bs) u off bs.length := by
  refine ⟨fun a => ?_, fun a ha => ?_, fun v a n hv => ?_⟩
  · rw [writeScratch_plain hb hp]
    rfl
  · rw [readScratch_written (by rw [writeScratch_plain hb hp]) hb]
    unfold readScratch
    rw [hb]
    refine List.map_congr_left fun k hk => ?_
    have hk : k = 0 := by simpa using hk
    rw [Laws.get_putBytes, if_neg (by omega)]
  · rw [writeScratch_plain hb hp]
    unfold readScratch
    rw [getBlock_modBlock_other s u v (Block.written off bs) (fun _ => rfl) hv.symm]
theorem outst_writeScratch : (writeScratch s u off bs).outst = s.outst := by
  rw [writeScratch_plain hb hp]
  rfl
end Scratch

/-! ### The access of an entry -/

section Perform
variable {s : State} {o : Outst} {a n : Nat} {d : Reg} {info : StoreInfo}

theorem performOne_storeGlobal {bs : List Byte} (h : o.op = .store .glob a bs info) :
    performOne s o =
      dropOutst (if bs.isEmpty then s else performStore s o.blk o.gang o.lane a bs info) o.id := by
  unfold performOne
  rw [h]
theorem performOne_storeScratch {u : Nat} {bs : List Byte} (h : o.op = .store (.scratch u) a bs info) (hne : bs ≠ []) :
    performOne s o = dropOutst (writeScratch s u a bs) o.id := by
  unfold performOne
  rw [h]
  dsimp only
  rw [if_neg (by simpa using hne)]
/-- An atomic that meets nothing: its write, and the old value kept for its return. -/
theorem performOne_atom {sp : Space} {aop : Nat} {v : W64} {ret : Bool} (h : o.op = .atom sp a n aop v ret d info)
    (hm : atomMeets (meetSpace s o sp a info) sp a n = none) :
    performOne s o =
      let old := entryBytes s o sp a n
      let t := entryWrite s o sp a n (atomicOp (8 * n) aop old v.toNat) info
      if ret then
        updOutst t o.id fun e => { e with op := .load sp a n (some (BitVec.ofNat 128 old)) d n StoreInfo.none }
      else dropOutst t o.id := by
  unfold performOne
  rw [h]
  dsimp only
  rw [hm]
  cases ret <;> rfl
/-- A CAS that meets nothing: its write where the values are equal, and the old value kept for its return. -/
theorem performOne_cas {sp : Space} {c w : BitVec 128} {ret : Bool} (h : o.op = .cas sp a n c w ret d info)
    (hm : atomMeets (meetSpace s o sp a info) sp a n = none) :
    performOne s o =
      let old := entryBytes s o sp a n
      updOutst (if old = c.toNat then entryWrite s o sp a n w.toNat info else spendRead s o.blk sp n) o.id
        fun e => { e with op := casResult sp a n n ret d old } := by
  unfold performOne
  rw [h]
  dsimp only
  rw [hm]
  rfl
end Perform

section Entry
variable {s : State} {o : Outst} {pa n : Nat} {v : Nat} {info : StoreInfo}

/-- What the write of an atomic to global memory leaves. -/
structure AtomWrites (s t : State) (pa n v : Nat) : Prop where
  bytes : readBytes t pa n = leBytes n v
  others : ∀ a, (a < pa ∨ pa + n ≤ a) → readByte t a = readByte s a
  scratch : ∀ b off n, readScratch t b off n = readScratch s b off n
  outst : t.outst = s.outst

theorem atomWrites (hw : Unwatched s o.blk) (hc : ∀ e ∈ s.lineErrs, e.1 ≠ pa / 64) (hk : info.keep = 0)
    (hm : writeMeets s pa n = none) : AtomWrites s (entryWrite s o .glob pa n v info) pa n v := by
  have hl := Laws.leBytes_length n v
  have heq : entryWrite s o .glob pa n v info = storeGlobal s o.blk o.gang o.lane pa (leBytes n v) info :=
    commitStore_clear hc (by rwa [hl])
  rw [heq]
  refine ⟨?_, fun a ha => readByte_storeGlobal_apart hw (by rwa [hl]), readScratch_storeGlobal _ _ _ _ _ _ _ hw,
    outst_storeGlobal hw⟩
  have hread := readBytes_storeGlobal (gang := o.gang) (lane := o.lane) (pa := pa) (bs := leBytes n v) (i := info) hw
  rwa [hl, hk, keepBits_zero] at hread

/-- What counting bytes toward a budget leaves as it was. -/
structure CountsOnly (s t : State) : Prop where
  memory : ∀ a, readByte t a = readByte s a
  scratch : ∀ b off n, readScratch t b off n = readScratch s b off n
  outst : t.outst = s.outst
theorem spendBytes_only (s : State) (blk n : Nat) : CountsOnly s (spendBytes s blk n) := by
  unfold spendBytes
  split <;> exact ⟨fun _ => rfl, fun _ _ _ => rfl, rfl⟩

/-- Nothing meets an atomic at a clear line of memory where nothing meets its write. -/
theorem atomMeets_clear (hc : ∀ e ∈ s.lineErrs, e.1 ≠ pa / 64) (hm : writeMeets s pa n = none) :
    atomMeets (meetSpace s o .glob pa info) .glob pa n = none := by
  have hmeet : meetSpace s o .glob pa info = s := meetLine_of_no_error hc _
  rw [hmeet]
  exact hm
end Entry

end Sys2Proof.Machine

namespace Sys2Proof.Laws
open Machine

/-- Settles O55: with nothing in its way, the write of an entry is one write of bytes, and the entry itself is all else that
an access changes. -/
theorem performedAccesses : Obligations.PerformedAccesses := by
  unfold Obligations.PerformedAccesses
  intro apart unwatched plain unheld scratchSame clear back only
  refine ⟨?store, ?held, ?scratchStore, ?atom, ?cas, ?scratchAtom, ?scratchCas⟩
  case store =>
    intro s o pa bs info hop hw hp hc hm
    dsimp only
    rw [performOne_storeGlobal hop]
    cases bs with
    | nil =>
      exact ⟨(keepBits_nil _ _).symm, fun _ _ => rfl, fun _ _ _ => rfl⟩
    | cons x bs =>
      rw [if_neg (by simp), performStore_plain hp, commitStore_clear hc hm]
      exact ⟨readBytes_storeGlobal hw, fun a ha => readByte_storeGlobal_apart hw ha,
        readScratch_storeGlobal _ _ _ _ _ _ _ hw⟩
  case held =>
    intro s o pa bs info b hop hb hne hr hv more hroom
    have hheld : performStore s o.blk o.gang o.lane pa bs info = modBlock s o.blk fun b =>
        { b with hold := b.hold ++ [⟨o.gang, o.lane, pa, bs, info, more⟩] } := by
      unfold performStore
      rw [hb]
      dsimp only
      rw [if_pos (by rw [hr, hv]; rfl), if_pos (by rw [Bool.or_eq_true, decide_eq_true_iff]; exact hroom)]
    dsimp only
    rw [performOne_storeGlobal hop, if_neg (by simpa using hne), hheld]
    refine ⟨fun _ => rfl, readScratch_modBlock _ _ _ (fun _ => rfl) fun _ => rfl, ?_⟩
    show (getBlock (modBlock s o.blk _) o.blk).map Block.hold = _
    rw [getBlock_modBlock, hb]
    · rfl
    · exact fun _ => rfl
  case scratchStore =>
    intro s o u off bs info b hop hb hne hp
    dsimp only
    rw [performOne_storeScratch hop hne]
    exact ⟨readScratch_writeScratch hb hp, onlyScratch_writeScratch hb hp⟩
  case atom =>
    intro s o pa n aop v ret d info hop hw hh hc hk hm
    have ht := atomWrites (o := o) (v := atomicOp (8 * n) aop (readLE s pa n) v.toNat) hw hc hk hm
    dsimp only
    rw [performOne_atom hop (atomMeets_clear hc hm), entryBytes_unheld hh]
    cases ret with
    | false => exact ⟨ht.bytes, ht.others, ht.scratch, fun hf => Bool.noConfusion hf⟩
    | true => exact ⟨ht.bytes, ht.others, ht.scratch, fun _ ho =>
        getOutst_updOutst ((getOutst_congr ht.outst o.id).trans ho) _ fun _ => rfl⟩
  case cas =>
    intro s o pa n c w ret d info hop hw hh hc hk hm
    have ht := atomWrites (o := o) (v := w.toNat) hw hc hk hm
    dsimp only
    rw [performOne_cas hop (atomMeets_clear hc hm), entryBytes_unheld hh]
    dsimp only
    split
    · exact ⟨ht.bytes, ht.others, ht.scratch, fun ho =>
        getOutst_updOutst ((getOutst_congr ht.outst o.id).trans ho) _ fun _ => rfl⟩
    · have hspend := spendBytes_only s o.blk n
      exact ⟨readBytes_congr fun a _ _ => hspend.memory a, fun a _ => hspend.memory a, hspend.scratch, fun ho =>
        getOutst_updOutst ((getOutst_congr hspend.outst o.id).trans ho) _ fun _ => rfl⟩
  case scratchAtom =>
    intro s o u off n aop v ret d info b hop hb hp
    have hl (x : Nat) := leBytes_length n x
    dsimp only
    rw [performOne_atom hop (by rfl)]
    have ht := onlyScratch_writeScratch (off := off) (bs := leBytes n (atomicOp (8 * n) aop
      (leVal (readScratch s u off n)) v.toNat)) hb hp
    have hread := readScratch_writeScratch (off := off) (bs := leBytes n (atomicOp (8 * n) aop
      (leVal (readScratch s u off n)) v.toNat)) hb hp
    rw [hl] at ht hread
    cases ret with
    | false => exact ⟨hread, ht, fun hf => Bool.noConfusion hf⟩
    | true => exact ⟨hread, ht, fun _ ho =>
        getOutst_updOutst ((getOutst_congr (outst_writeScratch hb hp) o.id).trans ho) _ fun _ => rfl⟩
  case scratchCas =>
    intro s o u off n c w ret d info b hop hb hp
    have hl := leBytes_length n w.toNat
    have ht := onlyScratch_writeScratch (off := off) (bs := leBytes n w.toNat) hb hp
    have hread := readScratch_writeScratch (off := off) (bs := leBytes n w.toNat) hb hp
    rw [hl] at ht hread
    dsimp only
    rw [performOne_cas hop (by rfl)]
    show _ ∧ _ ∧ _
    dsimp only [entryBytes, readSpace]
    split
    · exact ⟨hread, ht, fun ho =>
        getOutst_updOutst ((getOutst_congr (outst_writeScratch hb hp) o.id).trans ho) _ fun _ => rfl⟩
    · exact ⟨rfl, OnlyScratch.refl s u off n, fun ho => getOutst_updOutst ho _ fun _ => rfl⟩

end Sys2Proof.Laws
end

section
/-! PROOF. Race-checked accesses: their checks, their tags, and the event of a checked access (08 R172, R176-R181, R185;
12 R251; 19 R348; O56). -/

namespace Sys2Proof.Machine

/-! ### The checks of a scratchpad access -/

section ScratchChecks
variable {s : State} {x : Lane} {r : Rec} {off n : Nat} {m : AMode} {issue : Nat}

theorem scratchChecks_typed {b : Bar} (h : typedBlockAt s x.b.uid off n = some b) :
    scratchChecks s x r off n m issue = some { cause := 0x0C, info := withCode b.ref.addr 1 } := by
  simp only [scratchChecks, h]
theorem scratchChecks_untyped (h : typedBlockAt s x.b.uid off n = none) :
    scratchChecks s x r off n m issue =
      if (tileCheck s x off n m.writes).1 = false then some { cause := 0x0B, info := off }
      else match slotAt s x.b off with
      | some (_, q) => if q.ownedBy x.t.gang then none else some { cause := 0x0B, info := off }
      | none =>
        if (tileCheck s x off n m.writes).2 || !r.chk then none
        else scratchRace x off n (m.tagWrites s x.b.uid (.scratch x.b.uid) off n) m.plain issue := by
  simp only [scratchChecks, h, Bool.not_eq_true'] <;> split <;> rfl
theorem RSlot.ownedBy_iff (q : RSlot) (gang : Nat) :
    q.ownedBy gang = true ↔ (q.st = .filling ∨ q.st = .taken) ∧ q.owner = gang := by
  simp [RSlot.ownedBy]
end ScratchChecks

/-! ### Races -/

theorem Tag.conflicts_iff (t : Tag) (x : Lane) (writes plain : Bool) (issue : Nat) :
    t.conflicts x writes plain issue = true ↔ t.issue ≠ issue ∧ ¬(t.gang = x.t.gang ∧ x.b.tid t.lane = x.tid) ∧
      (t.write = true ∨ writes = true) ∧ (t.plain = true ∨ plain = true) := by
  simp [Tag.conflicts, and_assoc, ← not_and_or]

/-- The RACE of a checked scratchpad access against an earlier tag. -/
def raceOf (x : Lane) (off : Nat) (t : Tag) : Flt :=
  { cause := 0x0B, info := off, party := x.b.num + fld 32 8 t.gang + fld 40 8 (x.b.tid t.lane) }
theorem scratchRace_some {x : Lane} {off n : Nat} {writes plain : Bool} {issue : Nat} {f : Flt}
    (h : scratchRace x off n writes plain issue = some f) :
    ∃ w ∈ wordsOf off n, ∃ t ∈ Sparse.get [] x.b.tags w, t.conflicts x writes plain issue = true ∧ f = raceOf x off t := by
  obtain ⟨w, hw, h⟩ := List.exists_of_findSome?_eq_some h
  obtain ⟨t, ht, h⟩ := List.exists_of_findSome?_eq_some h
  split at h
  · next hc =>
    cases h
    exact ⟨w, hw, t, ht, hc, rfl⟩
  · cases h
theorem scratchRace_none {x : Lane} {off n : Nat} {writes plain : Bool} {issue : Nat} :
    scratchRace x off n writes plain issue = none ↔
      ∀ w ∈ wordsOf off n, ∀ t ∈ Sparse.get [] x.b.tags w, ¬t.conflicts x writes plain issue = true := by
  simp only [scratchRace, List.findSome?_eq_none_iff]
  simp

/-- A word's tag is that of a writer which the block of an access has not acquired that far, and not both are atomic. -/
def Unacquired (x : Lane) (plain : Bool) (t : GTag) : Prop :=
  t.blk ≠ 0 ∧ t.blk ≠ x.b.uid ∧ (plain = true ∨ t.atomic = false) ∧ Sparse.get 0 x.b.acq t.blk ≤ t.count
theorem unacquired_iff (x : Lane) (plain : Bool) (t : GTag) : Unacquired x plain t ↔
    t.blk ≠ 0 ∧ t.blk ≠ x.b.uid ∧ !(!plain && t.atomic) ∧ Sparse.get 0 x.b.acq t.blk ≤ t.count := by
  simp [Unacquired]
theorem globalRace_some {s : State} {x : Lane} {pa va n : Nat} {plain : Bool} {f : Flt}
    (h : globalRace s x pa va n plain = some f) :
    ∃ w ∈ wordsOf pa n, Unacquired x plain (wordTag s x.b w) ∧
      f = { cause := 0x0B, info := va, party := (writerOf s (wordTag s x.b w).blk).elim 0 Prod.fst } := by
  obtain ⟨w, hw, h⟩ := List.exists_of_findSome?_eq_some h
  dsimp only at h
  split at h
  · next hc =>
    cases h
    exact ⟨w, hw, (unacquired_iff _ _ _).2 hc, rfl⟩
  · cases h
theorem globalRace_none {s : State} {x : Lane} {pa va n : Nat} {plain : Bool} :
    globalRace s x pa va n plain = none ↔ ∀ w ∈ wordsOf pa n, ¬Unacquired x plain (wordTag s x.b w) := by
  simp only [globalRace, List.findSome?_eq_none_iff, unacquired_iff]
  simp

/-- Where no other check of a checked global access stands before RACE, RACE is its fault. -/
theorem globalChecks_race {s : State} {x : Lane} {r : Rec} {pa va n : Nat} {m : AMode} (hc : isChecked x.b r = true)
    (hl : linkedAt s pa n = false) (ht : typedGroupAt s pa n = none) {f : Flt}
    (h : globalRace s x pa va n m.plain = some f) : globalChecks s x r pa va n m none = some f := by
  simp only [globalChecks, hl, ht, wordChecks, hc, if_true, h, Bool.and_false, Bool.false_eq_true, if_false]

/-! ### Tags -/

/-- A held store leaves a tag at a word. -/
def Held.tags (w : Nat) (h : Held) : Bool := h.info.mark.isSome && (wordsOf h.pa h.bytes.length).contains w
theorem Held.tags_iff (w : Nat) (h : Held) : h.tags w = false ↔ h.info.mark = none ∨ w ∉ wordsOf h.pa h.bytes.length := by
  simp [Held.tags, Option.isSome_iff_ne_none, or_iff_not_imp_left]
theorem wordTag_memory {s : State} {b : Block} {w : Nat} (h : ∀ q ∈ b.hold, q.tags w = false) :
    wordTag s b w = Sparse.get gtagNone s.gtags w := by
  have hnone : b.hold.reverse.find? (Held.tags w) = none :=
    List.find?_eq_none.2 fun q hq => by rw [h q (List.mem_reverse.1 hq)]; exact Bool.false_ne_true
  show (match b.hold.reverse.find? (Held.tags w) with | some h => _ | none => _) = _
  rw [hnone]
theorem wordTag_last {s : State} {b : Block} {w : Nat} {l : List Held} {h : Held} {g : GTag} (hb : b.hold = l ++ [h])
    (hg : h.info.mark = some g) (hw : w ∈ wordsOf h.pa h.bytes.length) : wordTag s b w = g := by
  have htags : h.tags w = true := by simp [Held.tags, hg, hw]
  have hfirst : b.hold.reverse.find? (Held.tags w) = some h := by
    rw [hb, List.reverse_append]
    exact List.find?_cons_of_pos htags
  show (match b.hold.reverse.find? (Held.tags w) with | some h => _ | none => _) = _
  rw [hfirst]
  exact congrArg (Option.getD · gtagNone) hg

/-- A tag put into the list of a word, unless it stands there. -/
def addTag (tag : Tag) (m : Sparse (List Tag)) (w : Nat) : Sparse (List Tag) :=
  if (Sparse.get [] m w).any fun t => t.gang == tag.gang && t.lane == tag.lane && t.write == tag.write &&
      t.plain == tag.plain && t.issue == tag.issue then m
  else Sparse.set [] m w (tag :: Sparse.get [] m w)
theorem mem_addTag_same (tag : Tag) (m : Sparse (List Tag)) (w : Nat) (t : Tag) :
    t ∈ Sparse.get [] (addTag tag m w) w ↔ t = tag ∨ t ∈ Sparse.get [] m w := by
  unfold addTag
  split
  · next h =>
    obtain ⟨u, hu, he⟩ := List.any_eq_true.1 h
    have hut : u = tag := by
      cases u; cases tag
      simpa [and_assoc] using he
    subst hut
    exact ⟨.inr, fun h => h.elim (fun h => h ▸ hu) id⟩
  · rw [Laws.sparse_get_set_same]
    exact List.mem_cons
theorem get_addTag_other (tag : Tag) (m : Sparse (List Tag)) {w k : Nat} (h : k ≠ w) :
    Sparse.get [] (addTag tag m w) k = Sparse.get [] m k := by
  unfold addTag
  split
  · rfl
  · exact Laws.sparse_get_set_other _ _ _ h
theorem get_foldl_addTag_other (tag : Tag) (ws : List Nat) (m : Sparse (List Tag)) {k : Nat} (h : k ∉ ws) :
    Sparse.get [] (ws.foldl (addTag tag) m) k = Sparse.get [] m k := by
  induction ws generalizing m with
  | nil => rfl
  | cons w ws ih =>
    obtain ⟨hk, hws⟩ := not_or.1 (mt List.mem_cons.2 h)
    rw [List.foldl_cons, ih _ hws, get_addTag_other _ _ hk]
theorem mem_foldl_addTag (tag : Tag) (ws : List Nat) (m : Sparse (List Tag)) {k : Nat} (h : k ∈ ws) (t : Tag) :
    t ∈ Sparse.get [] (ws.foldl (addTag tag) m) k ↔ t = tag ∨ t ∈ Sparse.get [] m k := by
  have hone (w : Nat) (m : Sparse (List Tag)) : (t = tag ∨ t ∈ Sparse.get [] (addTag tag m w) k) ↔
      t = tag ∨ t ∈ Sparse.get [] m k := by
    by_cases hw : k = w
    · subst hw
      rw [mem_addTag_same, ← or_assoc, or_self]
    · rw [get_addTag_other _ _ hw]
  induction ws generalizing m with
  | nil => cases h
  | cons w ws ih =>
    rw [List.foldl_cons]
    by_cases hk : k ∈ ws
    · exact (ih _ hk).trans (hone w m)
    · obtain rfl : k = w := (List.mem_cons.1 h).resolve_right hk
      rw [get_foldl_addTag_other _ _ _ hk, mem_addTag_same]

/-- The block that keeps tags of its interval, with those of an access. -/
theorem tagScratch_eq (s : State) (blk gang lane off n : Nat) (writes plain : Bool) (issue : Nat) :
    tagScratch s blk gang lane off n writes plain issue = modBlock s blk fun b =>
      { b with tags := (wordsOf off n).foldl (addTag ⟨gang, lane, writes, plain, issue⟩) b.tags } := rfl

theorem get_foldl_set {β : Type} [DecidableEq β] (d v : β) (ws : List Nat) (m : Sparse β) {k : Nat}
    (h : k ∈ ws ∨ Sparse.get d m k = v) : Sparse.get d (ws.foldl (fun m w => Sparse.set d m w v) m) k = v := by
  induction ws generalizing m with
  | nil => exact h.resolve_left List.not_mem_nil
  | cons w ws ih =>
    refine ih _ ?_
    by_cases hk : k = w
    · subst hk
      exact .inr (Laws.sparse_get_set_same ..)
    · rw [Laws.sparse_get_set_other _ _ _ hk]
      exact h.imp (fun h => (List.mem_cons.1 h).resolve_left hk) id

/-- What a release covers is decided by the blocks alone. -/
theorem relCover_congr {s t : State} (h : t.blocks = s.blocks) (blk scope : Nat) :
    relCover t blk scope = relCover s blk scope := by
  unfold relCover coverOf getBlock
  rw [h]
/-- The tag that a performed write leaves at its words. -/
theorem gtags_storeGlobal {s : State} {blk gang lane pa : Nat} {bs : List Byte} {i : StoreInfo} {g : GTag} {w : Nat}
    (hg : i.mark = some g) (hw : w ∈ wordsOf pa bs.length) (h : Unwatched s blk) :
    Sparse.get gtagNone (storeGlobal s blk gang lane pa bs i).gtags w = { g with rel := i.scope.map (relCover s blk) } := by
  have hbefore (n : Nat) (bs : List Byte) :
      (writeBytes (dirtyLine (spendBytes s blk n) blk pa) pa bs).blocks = s.blocks := by
    unfold dirtyLine spendBytes
    split <;> split <;> rfl
  have hcover := funext (relCover_congr (hbefore (keepBits i.keep (readBytes s pa bs.length) bs).length
    (keepBits i.keep (readBytes s pa bs.length) bs)) blk)
  unfold storeGlobal
  dsimp only
  rw [traceStore_unwatched _ _ _ _ _ _ _ h, hg]
  show Sparse.get gtagNone ((wordsOf pa _).foldl _ _) w = _
  rw [keepBits_length] at hcover ⊢
  rw [hcover]
  exact get_foldl_set _ _ _ _ (.inl hw)

/-! ### A performed entry -/

/-- An entry that waits for nothing is performed alone. -/
theorem performNow_performable {s : State} {id : Nat} {e : Outst} (h : getOutst s id = some e) (hp : e.pending = true)
    (hr : performable s e = true) : performNow s id = sweepFences (performOne s e) := by
  have hid : e.id = id := by simpa using List.find?_some h
  have hnone : blockers (olderThan s id) e = [] := by
    rw [← hid]
    exact List.isEmpty_iff.1 hr
  unfold performNow
  rw [force, h]
  dsimp only
  rw [hp, hnone]
  simp only [if_true, List.foldl_nil, h]

/-! ### The event of a checked access -/

theorem markOf_checked {s : State} {b : Block} {r : Rec} (h : isChecked b r = true) (atomic : Bool) :
    markOf s b r atomic = some { blk := b.uid, count := relOf s b.uid, atomic := atomic, rel := none } := by
  simp [markOf, h]
/-- The part of a checked access after its entries: what it acquires and has read, the performance of the entries, and its
tags. -/
def settled (i : Iss) (x : Lane) (sp : Space) (addr n : Nat) (m : AMode) (acquires : Bool) (scope : Nat) (ids : List Nat)
    (s : State) : State :=
  let w := m.tagWrites s x.t.blk sp addr n
  let t := if sp = .glob ∧ acquires = true then acquireWords s x.t.blk addr n scope else s
  let t := if m.kind = 1 then t else noteRead t x (if sp = .glob then tagsOf t x.t.blk addr n else [])
  let t := ids.foldl performNow t
  match sp with
  | .glob => t
  | .scratch u => if ownerGoverned t x addr n then t else tagScratch t u x.t.gang x.t.lane addr n w m.plain i.no
theorem settleAccess_checked {i : Iss} {r : Rec} (h : isChecked i.b r = true) (s : State) (x : Lane) (sp : Space)
    (addr n : Nat) (m : AMode) (scope : Nat) (acquires : Bool) (ids : List Nat) :
    settleAccess s i x r sp addr n m (if acquires then some scope else none) ids =
      settled i x sp addr n m acquires scope ids s := by
  unfold settleAccess
  rw [if_pos h]
  cases sp with
  | glob =>
    cases acquires with
    | false => simp [settled]
    | true => simp [settled]
  | scratch u =>
    cases acquires with
    | false => simp [settled]
    | true => simp [settled]

end Sys2Proof.Machine

namespace Sys2Proof.Laws
open Machine

/-- Settles O56: the checks and the tags are each said once, word by word, and a checked access is the adding of its entries
and their performance. -/
theorem checkedAccesses : Obligations.CheckedAccesses := by
  unfold Obligations.CheckedAccesses
  refine ⟨?scratch, ?scratchRace, ?globalRace, ?tagMemory, ?tagHeld, ?acquire, ?tag, ?perform, ?mark, ?event⟩
  case scratch =>
    intro s x r off n m issue checks race
    refine ⟨fun b hb => scratchChecks_typed hb, fun hnone => ⟨fun ht => ?_, fun ht => ⟨fun g q hq => ?_, fun hq => ?_⟩⟩⟩
    · exact (scratchChecks_untyped hnone).trans (if_pos ht)
    · refine (scratchChecks_untyped hnone).trans ?_
      rw [if_neg (by simp [ht]), hq]
      simp only [RSlot.ownedBy_iff]
      rfl
    · refine (scratchChecks_untyped hnone).trans ?_
      rw [if_neg (by simp [ht]), hq]
      simp
  case scratchRace =>
    intro x off n writes plain issue meets
    have hmeets (w : Nat) (t : Tag) : meets w t ↔ w ∈ wordsOf off n ∧ t ∈ Sparse.get [] x.b.tags w ∧
        t.conflicts x writes plain issue = true := by
      rw [Tag.conflicts_iff]
    refine ⟨?_, fun f hf => ?_⟩
    · simp only [scratchRace_none, hmeets, not_and]
      exact ⟨fun h w t hw ht => h w hw t ht, fun h w hw t ht => h w t hw ht⟩
    · obtain ⟨w, hw, t, ht, hc, rfl⟩ := scratchRace_some hf
      exact ⟨w, t, (hmeets w t).2 ⟨hw, ht, hc⟩, rfl⟩
  case globalRace =>
    intro s x pa va n plain meets
    refine ⟨?_, fun f hf => ?_, ?_⟩
    · rw [globalRace_none]
      exact ⟨fun h w t ⟨hw, ht, hu⟩ => h w hw (ht ▸ hu), fun h w hw hu => h w _ ⟨hw, rfl, hu⟩⟩
    · obtain ⟨w, hw, hu, rfl⟩ := globalRace_some hf
      exact ⟨w, _, ⟨hw, rfl, hu⟩, rfl⟩
    · rintro r m aop hc rfl rfl hl ht f hf
      exact globalChecks_race hc hl ht hf
  case tagMemory =>
    intro s b w h
    exact wordTag_memory fun q hq => (Held.tags_iff w q).2 (h q hq)
  case tagHeld =>
    intro s b w l h g hb hg hw
    exact wordTag_last hb hg hw
  case acquire =>
    intro s blk scope t b num core hb hw
    simp only [acquireTag, hb, hw, Option.all_eq_true]
    rfl
  case tag =>
    intro s blk gang lane off n writes plain issue b w hb tag
    refine ⟨{ b with tags := (wordsOf off n).foldl (addTag tag) b.tags }, ?_, fun hw t => mem_foldl_addTag _ _ _ hw t,
      fun hw => get_foldl_addTag_other _ _ _ hw⟩
    rw [tagScratch_eq, getBlock_modBlock, hb]
    · rfl
    · exact fun _ => rfl
  case perform =>
    intro s id e he hp hr
    exact performNow_performable he hp hr
  case mark =>
    intro s blk gang lane pa bytes info g w hg hw h
    exact gtags_storeGlobal hg hw fun b c hb hc va => h b c va hb hc
  case event =>
    intro j r m x sp addr va s scope size ord d h n info first acq rel mark event
    have hfirst : (d.toNat < 192 ∨ firstOfGang j.cmd x = true) = (first = true) := by simp [first]
    have hmark (u : State) (atomic : Bool) : (if r.spc = true then none else markOf u j.b r atomic) = mark u atomic := by
      rw [markOf_checked h]
    refine ⟨?ld, ?st, fun aop ret => ?atom, ?cas⟩
    case ld =>
      have hacq : (if ord = 0 then none else some scope.toNat) =
          if decide (ord ≠ 0) = true then some scope.toNat else none := by
        by_cases ho : ord = 0 <;> simp [ho]
      simp only [ldLane, hfirst, hacq, settleAccess_checked h]
      obtain hh | hh := halves_cases addr n
      · rw [hh]
        rfl
      · rw [hh]
        rfl
    case st =>
      have hnone (u : State) (ids : List Nat) : settleAccess u j x r sp addr (accBytes size) m none ids =
          settled j x sp addr n m false scope.toNat ids u := settleAccess_checked h u x sp addr n m scope.toNat false ids
      simp only [stLane, hmark, hnone]
      obtain hh | hh := halves_cases addr n
      · rw [hh]
        rfl
      · rw [hh]
        rfl
    case atom =>
      have hacq : (if ord = 1 ∨ ord = 3 then some scope.toNat else none) = if acq = true then some scope.toNat else none := by
        simp [acq]
      simp only [atomLane, hmark, hacq, settleAccess_checked h]
      rfl
    case cas =>
      have hacq : (if ord = 1 ∨ ord = 3 then some scope.toNat else none) = if acq = true then some scope.toNat else none := by
        simp [acq]
      simp only [casLane, hmark, hacq, settleAccess_checked h]
      cases (casMode d (accBytes size) x).tagWrites s x.t.blk sp addr (accBytes size)
      · rfl
      · rfl

end Sys2Proof.Laws
end

section
/-! PROOF. Issues that change no byte of memory and no control register: the operations that they are made of (O54). -/

namespace Sys2Proof.Machine

/-! ### Operations that leave the state still whatever it is -/

/-- From s, t is reached with memory and control registers as they were, and with nothing kept back that was not so before. -/
structure Mild (s t : State) : Prop where
  still : Still s t
  quiet : AllQuiet s → AllQuiet t

theorem Mild.calm {s t : State} (h : Mild s t) (hq : AllQuiet s) : Calm s t := ⟨h.still, h.quiet hq⟩
theorem Mild.refl (s : State) : Mild s s := ⟨Still.refl s, id⟩
theorem Mild.trans {s t u : State} (h : Mild s t) (g : Mild t u) : Mild s u :=
  ⟨h.still.trans g.still, fun hq => g.quiet (h.quiet hq)⟩
theorem mild_foldl {α : Type} (xs : List α) (f : State → α → State) (hf : ∀ s x, Mild s (f s x)) (s : State) :
    Mild s (xs.foldl f s) := by
  induction xs generalizing s with
  | nil => exact Mild.refl s
  | cons x t ih => exact (hf s x).trans (ih _)

/-- A change of parts of the machine beside memory, blocks, contexts and control registers. -/
theorem mild_of_eq {s t : State} (hm : t.mem = s.mem) (hb : t.blocks = s.blocks) (hx : t.ctxs = s.ctxs) (hc : t.cfg = s.cfg)
    (hq : t.kqbase = s.kqbase ∧ t.kqsize = s.kqsize ∧ t.kqhead = s.kqhead ∧ t.kqtail = s.kqtail ∧ t.kqfut = s.kqfut) :
    Mild s t := by
  obtain ⟨hbase, hsize, hhead, htail, hfut⟩ := hq
  exact ⟨⟨fun a => by unfold readByte; rw [hm], ⟨hbase, hsize, hhead, htail, hfut, hc⟩, hx⟩,
    fun h => by unfold AllQuiet; rw [hb]; exact h⟩
theorem mild_modBlock (s : State) (blk : Nat) (f : Block → Block) (hf : ∀ b, Quiet b → Quiet (f b)) :
    Mild s (modBlock s blk f) :=
  ⟨⟨fun _ => rfl, ⟨rfl, rfl, rfl, rfl, rfl, rfl⟩, rfl⟩, fun h => quiet_updWhere _ f hf h⟩
theorem mild_modThread (s : State) (b g l : Nat) (f : Thread → Thread) : Mild s (modThread s b g l f) :=
  mild_of_eq rfl rfl rfl rfl ⟨rfl, rfl, rfl, rfl, rfl⟩
theorem mild_addOutst (s : State) (n : Nat) (x : Lane) (cls : OCls) (op : OOp) (r a : Bool) :
    Mild s (addOutst s n x cls op r a).2 := mild_of_eq rfl rfl rfl rfl ⟨rfl, rfl, rfl, rfl, rfl⟩
theorem mild_sweepFences (s : State) : Mild s (sweepFences s) := mild_of_eq rfl rfl rfl rfl ⟨rfl, rfl, rfl, rfl, rfl⟩
theorem mild_raiseAcq (s : State) (blk other n : Nat) : Mild s (raiseAcq s blk other n) := mild_modBlock s blk _ fun _ hb => hb
theorem mild_bumpRel (s : State) (blk : Nat) : Mild s (bumpRel s blk) := mild_modBlock s blk _ fun _ hb => hb

/-! ### Accesses of a record that is not checked -/

theorem mild_noteRead (s : State) (x : Lane) (ts : List GTag) : Mild s (noteRead s x ts) := mild_modThread ..
theorem mild_noteRelease (s : State) (x : Lane) (r : Option Nat) : Mild s (noteRelease s x r) := by
  unfold noteRelease
  split
  · exact (mild_modThread ..).trans (mild_bumpRel ..)
  · exact Mild.refl s
theorem mild_dropRelease (s : State) (no : Nat) (x : Lane) : Mild s (dropRelease s no x) :=
  ((mild_bumpRel ..).trans (mild_addOutst ..)).trans (mild_sweepFences _)
theorem mild_settleAccess {i : Iss} {r : Rec} (h : isChecked i.b r = false) (s : State) (x : Lane) (sp : Space) (addr n : Nat)
    (m : AMode) (acq : Option Nat) (ids : List Nat) : Mild s (settleAccess s i x r sp addr n m acq ids) := by
  rw [settleAccess_unchecked h]
  split
  · exact Mild.refl s
  · exact mild_noteRead ..
/-- The entries of an access are added one by one. -/
theorem mild_entries {α : Type} (hs : List α) (f : List Nat × State → α → List Nat × State)
    (hf : ∀ q h, Mild q.2 (f q h).2) (q : List Nat × State) : Mild q.2 (hs.foldl f q).2 := by
  induction hs generalizing q with
  | nil => exact Mild.refl q.2
  | cons h t ih => exact (hf q h).trans (ih _)

section Lanes
variable {j : Iss} {r : Rec} (h : isChecked j.b r = false)
include h

theorem mild_ldLane (m : AMode) (ord : BitVec 2) (scope : BitVec 3) (n : Nat) (d : Reg) (s : State) (t : Lane × Tgt) :
    Mild s (ldLane j r m ord scope n d s t) := by
  unfold ldLane
  dsimp only
  split
  · exact mild_addOutst ..
  · exact (mild_entries _ _ (fun _ _ => mild_addOutst ..) ([], s)).trans (mild_settleAccess h ..)
theorem mild_stLane (m : AMode) (ord : BitVec 2) (scope size : BitVec 3) (d : Reg) (s : State) (t : Lane × Tgt) :
    Mild s (stLane j r m ord scope size d s t) := by
  unfold stLane
  dsimp only
  split
  · split
    · exact Mild.refl s
    · exact mild_dropRelease ..
  · exact (mild_noteRelease ..).trans
      ((mild_entries _ _ (fun _ _ => mild_addOutst ..) ([], _)).trans (mild_settleAccess h ..))
theorem mild_atomLane (m : AMode) (ord : BitVec 2) (scope size : BitVec 3) (d : Reg) (aop : BitVec 4) (ret : Bool)
    (s : State) (t : Lane × Tgt) : Mild s (atomLane j r m ord scope size d aop ret s t) := by
  have hdrop : Mild s (if 2 ≤ ord.toNat then dropRelease s j.no t.1 else s) := by
    split
    · exact mild_dropRelease ..
    · exact Mild.refl s
  unfold atomLane
  dsimp only
  split
  · cases ret with
    | true => exact hdrop.trans (mild_addOutst ..)
    | false => exact hdrop
  · exact (mild_noteRelease ..).trans ((mild_addOutst ..).trans (mild_settleAccess h ..))
theorem mild_casLane (ord : BitVec 2) (scope size : BitVec 3) (d : Reg) (s : State) (t : Lane × Tgt) :
    Mild s (casLane j r ord scope size d s t) := by
  have hdrop : Mild s (if 2 ≤ ord.toNat then dropRelease s j.no t.1 else s) := by
    split
    · exact mild_dropRelease ..
    · exact Mild.refl s
  unfold casLane
  dsimp only
  split
  · exact hdrop.trans (mild_addOutst ..)
  · refine Mild.trans ?_ ((mild_addOutst ..).trans (mild_settleAccess h ..))
    split
    · exact mild_noteRelease ..
    · exact Mild.refl s
end Lanes

/-! ### The targets of a scratchpad access -/

/-- Before an access with nothing outstanding, no fence orders anything. -/
theorem settleFences_idle {s : State} (h : s.outst = []) (b g l : Nat) (w : Bool) : settleFences s b g l w = s := by
  unfold settleFences
  rw [h]
  rfl
theorem targets_idle {s : State} (h : s.outst = []) (xs : List Lane) (w : Bool) (f : State → Lane → Except Flt Tgt × State)
    (hf : ∀ x ∈ xs, (f s x).2 = s) : (targets s xs w f).2.2 = s := by
  have hfences (ys : List Lane) :
      ys.foldl (fun s x => settleFences s x.t.blk x.t.gang x.t.lane w) s = s := by
    induction ys with
    | nil => rfl
    | cons y ys ih => rw [List.foldl_cons, settleFences_idle h, ih]
  have hscan (acc : List LaneFlt × List (Lane × Tgt) × State) (ha : acc.2.2 = s) :
      (xs.foldl (fun acc x =>
        match f acc.2.2 x with
        | (.error e, s) => (acc.1 ++ [⟨x.t.gang, x.t.lane, e⟩], acc.2.1, s)
        | (.ok t, s) => (acc.1, acc.2.1 ++ [(x, t)], s)) acc).2.2 = s := by
    induction xs generalizing acc with
    | nil => exact ha
    | cons x xs ih =>
      obtain ⟨hx, hxs⟩ := List.forall_mem_cons.1 hf
      refine ih hxs _ ?_
      dsimp only
      rw [ha]
      split <;> rename_i hx' <;> rw [hx'] at hx <;> exact hx
  unfold targets
  dsimp only
  rw [hfences]
  exact hscan _ rfl
/-- The address and the checks of a scratchpad access of a block without errors leave the state as it is. -/
theorem target_scratch {s : State} {x : Lane} {r : Rec} (hs : r.spc = true) (he : x.b.errs = []) (a : Reg) (off : Int)
    (n : Nat) (m : AMode) (aop : Option Nat) (no : Nat) : (target s x r a off n m aop no).2 = s := by
  have hraw : (targetRaw s x r a off n m aop no).2 = s := by
    unfold targetRaw
    split
    · rfl
    · rfl
    · rw [if_pos hs]
      split
      · rfl
      split
      · rfl
      · dsimp only
        split
        · rfl
        · simp [correctErrs, errsAt, he]
  unfold target
  split <;> rename_i h
  · rw [h] at hraw
    exact hraw
  · exact hraw

/-! ### An issue whose outcome is calm -/

/-- What an effect answers leaves the state calm. -/
def CalmOut (s : State) (o : IOut) : Prop :=
  match o with
  | .done t | .stay t | .stall t => Calm s t
  | .trap t _ => Calm s t

/-- The instruction answers a next state with memory and control registers as they were: where it is issued with nothing in
its way, its bundle goes on inside its clause, no held store can drain, no error stands in its block, and the condition of
its own holds. -/
def StillAt (i : Instr) (op : Nat) (k : Ctl) (src : State → List RG) (dst : List RG) (ok : State → Block → Prop) : Prop :=
  ∀ s q c b, Ready s op k (src s) dst [] q c b → q.place.idx + 1 < c.words.length → AllQuiet s →
    b.errs = [] → b.bad = [] → ok s b → ∃ t, exec i s = .next t ∧ Still s t
/-- What such an issue finds. -/
structure Found (s : State) (op : Nat) (k : Ctl) (src dst : List RG) (q : Bundle) (c : Clause) (b : Block) : Prop where
  ready : Ready s op k src dst [] q c b
  quiet : AllQuiet s
  errs : b.errs = []
  bad : b.bad = []

theorem stillAt_of_exec_eq_issue {i : Instr} {op : Nat} {k : Ctl} {src : State → List RG} {dst : List RG}
    {ok : State → Block → Prop} (eff : Iss → State → IOut) (addr : Iss → Lane → Option Nat)
    (hrun : ∀ s, exec i s = issue op k (src s) dst s eff [] addr)
    (heff : ∀ s q c b, Found s op k (src s) dst q c b → ok s b →
      CalmOut (issued s) (eff (issOf s q b op k) (issued s))) : StillAt i op k src dst ok := by
  intro s q c b hready hin hquiet he hb hok
  have hcalm : CalmOut s (eff (issOf s q b op k) (issued s)) := by
    have h := heff s q c b ⟨hready, hquiet, he, hb⟩ hok
    have h0 := calm_issued hquiet
    unfold CalmOut at h ⊢
    split at h <;> exact h0.trans h
  have hissue := issue_calm hready hin eff hcalm
  rw [issue_ready hready eff] at hissue
  rw [hrun, issue_ready hready eff addr]
  exact hissue
/-- The same where the effect of an instruction keeps every state with nothing kept back calm. -/
theorem stillAt_of_calm {i : Instr} {op : Nat} {k : Ctl} {src : State → List RG} {dst : List RG}
    {ok : State → Block → Prop} (eff : Iss → State → IOut) (hrun : ∀ s, exec i s = issue op k (src s) dst s eff)
    (heff : ∀ j s, AllQuiet s → CalmOut s (eff j s)) : StillAt i op k src dst ok :=
  stillAt_of_exec_eq_issue eff _ hrun fun _ _ _ _ h _ => heff _ _ (calm_issued h.quiet).quiet

section Found
variable {s : State} {op : Nat} {k : Ctl} {src dst : List RG} {q : Bundle} {c : Clause} {b : Block}
  (h : Found s op k src dst q c b)
include h

theorem Found.issued : AllQuiet (issued s) := (calm_issued h.quiet).quiet
/-- No source of a lane holds an error, and no word of the block's storage. -/
theorem Found.readOne (x : Lane) (src : List RG) {t : State} (ht : getBlock t b.uid = some b) (eff : State → IOut) :
    readOne (issOf s q b op k) x src t eff = eff t :=
  readOne_clean ht (fun dbl => meets_of_no_errors h.errs h.bad k x src dbl) eff
theorem Found.block {x : Lane} (hx : x ∈ (issOf s q b op k).cmd) : x.b = b := block_of_mem_cmd h.ready hx
end Found

/-! ### Fences and records -/

theorem mild_acquireTag (s : State) (blk scope : Nat) (t : GTag) : Mild s (acquireTag s blk scope t) := by
  unfold acquireTag
  split
  · split
    · exact mild_raiseAcq ..
    · exact Mild.refl s
  · exact Mild.refl s
theorem mild_fenceThread (s : State) (no : Nat) (x : Lane) (scope : Nat) (rel acq : Bool) :
    Mild s (fenceThread s no x scope rel acq) := by
  have hacq : Mild s (if acq then x.t.lastRd.foldl (fun s w => acquireTag s x.t.blk scope w) s else s) := by
    split
    · exact mild_foldl _ _ (fun _ _ => mild_acquireTag ..) s
    · exact Mild.refl s
  have hmarks : Mild s (fenceMarks s x.t scope rel acq) := by
    unfold fenceMarks
    dsimp only
    split
    · exact hacq.trans (mild_modThread ..)
    · exact hacq
  exact (hmarks.trans (mild_addOutst ..)).trans (mild_sweepFences _)
theorem calm_bsetLane (i : Iss) (d a : Reg) {s : State} (h : AllQuiet s) (x : Lane) : CalmOut s (bsetLane i d a s x) := by
  unfold bsetLane
  split
  · exact Calm.refl h
  · have hset := calm_modBlock h i.b.uid (fun b => { b with recs := Sparse.set 0 b.recs d.toNat (quadRec x a) }) fun _ hb => hb
    exact hset.trans (calm_healErrs hset.quiet ..)

/-! ### Scratchpad accesses -/

/-- A scratchpad access: nothing outstanding, and a record that is not checked. -/
def ScratchAccess (bq : BitVec 5) (s : State) (b : Block) : Prop :=
  s.outst = [] ∧ (Rec.of (b.recOf bq.toNat)).spc = true ∧ isChecked b (Rec.of (b.recOf bq.toNat)) = false
/-- The targets that the lanes of an access find. -/
def accessFound (w : Bool) (bq : BitVec 5) (a : Reg) (off : Int) (n : Nat) (m : Lane → AMode) (aop : Option Nat) (i : Iss)
    (s : State) : List LaneFlt × List (Lane × Tgt) × State :=
  targets s i.cmd w fun s x => target s x (Rec.of (i.b.recOf bq.toNat)) a off n (m x) aop i.no
theorem stillAt_access {i : Instr} {op : Nat} {k : Ctl} {src : State → List RG} {dst : List RG} {w : Bool} {bq : BitVec 5}
    {a : Reg} {off : Int} {n : Nat} {m : Lane → AMode} {aop : Option Nat}
    {perform : Iss → List (Lane × Tgt) → State → State} {addr : Iss → Lane → Option Nat}
    (hrun : ∀ s, exec i s = issue op k (src s) dst s (accessEff (accessFound w bq a off n m aop) perform) [] addr)
    (hperform : ∀ j ts s, (Rec.of (j.b.recOf bq.toNat)).spc = true → isChecked j.b (Rec.of (j.b.recOf bq.toNat)) = false →
      Mild s (perform j ts s)) : StillAt i op k src dst (ScratchAccess bq) := by
  refine stillAt_of_exec_eq_issue _ addr hrun fun s q c b h hok => ?_
  obtain ⟨hidle, hspc, hchk⟩ := hok
  have hfound : (accessFound w bq a off n m aop (issOf s q b op k) (issued s)).2.2 = issued s :=
    targets_idle (s := issued s) hidle _ _ _ fun x hx =>
      target_scratch hspc (by rw [h.block hx]; exact h.errs) a off n (m x) aop _
  unfold accessEff
  generalize accessFound w bq a off n m aop (issOf s q b op k) (issued s) = r at hfound ⊢
  obtain ⟨fs, ts, t⟩ := r
  obtain rfl : t = issued s := hfound
  cases fs with
  | nil => exact (hperform (issOf s q b op k) ts _ hspc hchk).calm h.issued
  | cons f fs => exact Calm.refl h.issued
theorem atomIrrevocable_scratch {s : State} {r : Rec} (h : r.spc = true) (ts : List (Lane × Tgt)) (blk : Nat) :
    atomIrrevocable s r ts blk = s := by simp [atomIrrevocable, h]


/-! ### Barriers of the scratchpad -/

theorem barRefs_local (s : State) (xs : List Lane) (a : Reg) : (barRefs s xs false a).2.2 = s := by
  have hone (u : State) (x : Lane) : (barRef u x false a).2 = u := by
    unfold barRef
    dsimp only
    rw [if_neg Bool.false_ne_true]
    split_ifs <;> rfl
  have hall (acc : List LaneFlt × List (Lane × BarRef × W64) × State) : (xs.foldl (fun acc x =>
      match barRef acc.2.2 x false a with
      | (.error e, s) => (acc.1 ++ [⟨x.t.gang, x.t.lane, e⟩], acc.2.1, s)
      | (.ok r, s) => (acc.1, acc.2.1 ++ [(x, r.1, r.2)], s)) acc).2.2 = acc.2.2 := by
    induction xs generalizing acc with
    | nil => rfl
    | cons x xs ih =>
      refine (ih _).trans ?_
      have h := hone acc.2.2 x
      dsimp only
      split <;> rename_i hr <;> rw [hr] at h <;> exact h
  exact hall ([], [], s)
theorem stillAt_barOp {i : Instr} {op : Nat} {k : Ctl} {src dst : List RG} {a : Reg}
    {bad : State → Lane → BarRef → W64 → Option Flt} {eff : Iss → State → List (Lane × BarRef × W64) → State}
    {ok : State → Block → Prop} (hrun : ∀ s, exec i s = barOp op k false src dst a s bad eff)
    (heff : ∀ j s rs, AllQuiet s → Calm s (eff j s rs)) : StillAt i op k (fun _ => r32 a :: src) dst ok := by
  refine stillAt_of_calm _ hrun fun j s h => ?_
  have hr := barRefs_local s j.cmd a
  generalize barRefs s j.cmd false a = r at hr ⊢
  obtain ⟨fs, rs, t⟩ := r
  obtain rfl : t = s := hr
  cases fs with
  | nil =>
    dsimp only
    split
    · exact heff j t rs h
    · exact Calm.refl h
  | cons f fs => exact Calm.refl h

theorem calm_endOrHold {s : State} (h : AllQuiet s) (t : Thread) (r : BarRef) (n : W32) (d : Option Reg) (v : Nat) :
    Calm s (endOrHold s t r n d v) := by
  have hdeliver := calm_deliverKept h t.blk t.gang t.lane d 32 v
  unfold endOrHold
  split
  · exact hdeliver.trans (calm_modThread hdeliver.quiet ..)
  · have hend := hdeliver.trans (calm_modThread hdeliver.quiet t.blk t.gang t.lane Thread.unwait)
    exact hend.trans (calm_modBar hend.quiet ..)
theorem calm_wakeBar {s : State} (h : AllQuiet s) (r : BarRef) : Calm s (wakeBar s r) := by
  refine calm_foldl _ _ (fun s t hs => ?_) s h
  split
  · split
    · split
      · split
        · exact calm_endOrHold hs ..
        · exact Calm.refl hs
      · exact Calm.refl hs
    · exact Calm.refl hs
  · exact Calm.refl hs
theorem calm_enterBarWait {s : State} (h : AllQuiet s) (x : Lane) (r : BarRef) (n : W32) (d : Option Reg) :
    Calm s (enterBarWait s x r n d) :=
  (calm_modThread h ..).trans (calm_modBar (calm_modThread h ..).quiet ..)
/-- The join of one lane. -/
theorem calm_join {s : State} (h : AllQuiet s) (xs : List Lane) (d : Reg) (x : Lane) (r : BarRef) (f : Thread → Thread)
    (v : Nat) : Calm s (syncResult (modBar (if x.b.protectd then
      modThread (modThread s x.t.blk x.t.gang x.t.lane f) x.t.blk x.t.gang (x.t.lane + 1) f
      else modThread s x.t.blk x.t.gang x.t.lane f) r (fun b => { b with parts := b.parts + 1 })) xs x d v) := by
  have hjoin : Calm s (if x.b.protectd then
      modThread (modThread s x.t.blk x.t.gang x.t.lane f) x.t.blk x.t.gang (x.t.lane + 1) f
      else modThread s x.t.blk x.t.gang x.t.lane f) := by
    split
    · exact ((mild_modThread ..).trans (mild_modThread ..)).calm h
    · exact calm_modThread h ..
  have hbar := hjoin.trans (calm_modBar hjoin.quiet r fun b => { b with parts := b.parts + 1 })
  exact hbar.trans (calm_syncResult hbar.quiet ..)

/-! ### Stage rings -/

theorem mild_dropRing (s : State) (core id : Nat) : Mild s (dropRing s core id) :=
  mild_of_eq rfl rfl rfl rfl ⟨rfl, rfl, rfl, rfl, rfl⟩
theorem mild_initRing (s : State) (b : Block) (v : Nat) : Mild s (initRing s b v).2 := by
  unfold initRing
  split
  · exact Mild.refl s
  split
  · exact Mild.refl s
  · exact mild_of_eq rfl rfl rfl rfl ⟨rfl, rfl, rfl, rfl, rfl⟩
theorem mild_modRing (s : State) (c i : Nat) (f : Ring → Ring) : Mild s (modRing s c i f) :=
  mild_of_eq rfl rfl rfl rfl ⟨rfl, rfl, rfl, rfl, rfl⟩
/-- A result for every lane. -/
theorem calm_results {s : State} (h : AllQuiet s) (ys xs : List Lane) (d : Reg) (v : Nat) :
    Calm s (ys.foldl (fun s y => syncResult s xs y d v) s) := calm_foldl _ _ (fun _ _ hs => calm_syncResult hs ..) s h
theorem stillAt_ringTake {i : Instr} {op : Nat} {fill : Bool} {k : Ctl} {nb : Bool} {d a : Reg} {ok : State → Block → Prop}
    (hrun : ∀ s, exec i s = ringTake op fill k nb d a s) : StillAt i op k (fun _ => [r32 a]) [r32 d] ok := by
  refine stillAt_of_calm _ hrun fun j s h => ?_
  dsimp only
  split
  · exact Calm.refl h
  rename_i x _
  split
  · exact calm_results h ..
  rename_i r _
  have hfresh : Calm s (fresh s).2 := Mild.calm (mild_of_eq rfl rfl rfl rfl ⟨rfl, rfl, rfl, rfl, rfl⟩) h
  split
  · rename_i v r' _
    have hring := hfresh.trans (calm_modRing hfresh.quiet r.core (x.rd a 32) fun _ => r')
    exact hring.trans (calm_results hring.quiet ..)
  · split
    · exact hfresh.trans (calm_results hfresh.quiet ..)
    · refine hfresh.trans (Mild.calm ?_ hfresh.quiet)
      exact (mild_modRing ..).trans (mild_foldl _ _ (fun _ _ => mild_modThread ..) _)

/-! ### Copies and their batches -/

theorem mild_pollAccept (s : State) : Mild s (pollAccept s) := by
  unfold pollAccept
  split
  · exact mild_of_eq rfl rfl rfl rfl ⟨rfl, rfl, rfl, rfl, rfl⟩
  · exact Mild.refl s
/-- With nothing outstanding, there is nothing to perform first. -/
theorem drainBytes_idle {s : State} (h : s.outst = []) (b g l : Nat) (sp : Space) (a n : Nat) :
    Mild s (drainBytes s b g l sp a n) ∧ (drainBytes s b g l sp a n).outst = [] := by
  unfold drainBytes
  dsimp only
  rw [h]
  refine ⟨mild_sweepFences s, ?_⟩
  show sweepFences.go [] s.outst = []
  rw [h]
  rfl
theorem mild_readList {i : Iss} (he : i.b.errs = []) (s : State) (x : Lane) (off n : Nat) : Mild s (readList s i x off n) := by
  have hclean : correctScratch i x off n s = s := by simp [correctScratch, correctErrs, errsAt, he]
  unfold readList
  rw [hclean]
  refine mild_foldl _ _ (fun s w => ?_) s
  split
  · exact Mild.refl s
  · exact mild_modBlock s _ _ fun _ hb => hb
theorem calm_acceptCopy {i : Iss} (he : i.b.errs = []) {s : State} (h : AllQuiet s) (x : Lane) (c : CopyCmd) (off : Nat) :
    Calm s (acceptCopy s i x c off) := by
  unfold acceptCopy
  split
  · exact Calm.refl h
  dsimp only
  have hirr : Calm s (if c.irrevocable s then irrevocable s c.blk else s) := by
    split
    · exact calm_irrevocable h _
    · exact Calm.refl h
  generalize (if c.irrevocable s then irrevocable s c.blk else s) = u at hirr ⊢
  have hlist : Calm u (if c.list? then readList u i x off (4 * c.n1) else u) := by
    split
    · exact (mild_readList he ..).calm hirr.quiet
    · exact Calm.refl hirr.quiet
  generalize (if c.list? then readList u i x off (4 * c.n1) else u) = v at hlist ⊢
  exact (hirr.trans hlist).trans (Mild.calm (mild_of_eq rfl rfl rfl rfl ⟨rfl, rfl, rfl, rfl, rfl⟩) hlist.quiet)

end Sys2Proof.Machine

namespace Sys2Proof.Laws
open Machine

section Accesses
variable (k : Ctl) (ord : BitVec 2) (scope size : BitVec 3) (d a : Reg) (bq : BitVec 5)

theorem stillAt_ld (cp : BitVec 2) (off : BitVec 17) : StillAt (.ld k ord scope size d a bq cp off) 0x70 k
    (fun s => idxSrc s bq a) [⟨d, regsOf (accBytes size)⟩] (ScratchAccess bq) :=
  stillAt_access (w := false) (m := fun _ => { kind := 0, writes := false, plain := ord = 0, cas := none })
    (perform := fun j ts s => ts.foldl (ldLane j (Rec.of (j.b.recOf bq.toNat))
      { kind := 0, writes := false, plain := ord = 0, cas := none } ord scope (accBytes size) d) s) (fun _ => rfl)
    fun _ _ s _ hchk => mild_foldl _ _ (mild_ldLane hchk _ _ _ _ _) s
theorem stillAt_st (cp : BitVec 2) (off : BitVec 17) : StillAt (.st k ord scope size d a bq cp off) 0x71 k
    (fun s => ⟨d, regsOf (accBytes size)⟩ :: idxSrc s bq a) [] (ScratchAccess bq) :=
  stillAt_access (w := true) (m := fun _ => { kind := 1, writes := true, plain := ord = 0, cas := none })
    (perform := fun j ts s => ts.foldl (stLane j (Rec.of (j.b.recOf bq.toNat))
      { kind := 1, writes := true, plain := ord = 0, cas := none } ord scope size d) s) (fun _ => rfl)
    fun _ _ s _ hchk => mild_foldl _ _ (mild_stLane hchk _ _ _ _ _) s
/-- The entries of an atomic or a CAS. -/
theorem mild_atomEntries {r : Rec} (hs : r.spc = true) (f : State → Lane × Tgt → State) (hf : ∀ s t, Mild s (f s t))
    (ts : List (Lane × Tgt)) (blk : Nat) (s : State) : Mild s (ts.foldl f (atomIrrevocable s r ts blk)) := by
  rw [atomIrrevocable_scratch hs]
  exact mild_foldl _ _ hf s
theorem stillAt_atom (aop : BitVec 4) (off : BitVec 15) : StillAt (.atom k ord scope size d a bq aop off) 0x72 k
    (fun s => ⟨d, regsOf (accBytes size)⟩ :: idxSrc s bq a) [⟨d, regsOf (accBytes size)⟩] (ScratchAccess bq) :=
  stillAt_access (w := true) (m := fun _ => { kind := 2, writes := true, plain := false, cas := none })
    (perform := fun j ts s => ts.foldl (atomLane j (Rec.of (j.b.recOf bq.toNat))
      { kind := 2, writes := true, plain := false, cas := none } ord scope size d aop true)
      (atomIrrevocable s (Rec.of (j.b.recOf bq.toNat)) ts j.b.uid)) (fun _ => rfl)
    fun _ ts s hs hchk => mild_atomEntries hs _ (mild_atomLane hchk _ _ _ _ _ _ _) ts _ s
theorem stillAt_atomn (aop : BitVec 4) (off : BitVec 15) : StillAt (.atomn k ord scope size d a bq aop off) 0x73 k
    (fun s => ⟨d, regsOf (accBytes size)⟩ :: idxSrc s bq a) [] (ScratchAccess bq) :=
  stillAt_access (w := true) (m := fun _ => { kind := 2, writes := true, plain := false, cas := none })
    (perform := fun j ts s => ts.foldl (atomLane j (Rec.of (j.b.recOf bq.toNat))
      { kind := 2, writes := true, plain := false, cas := none } ord scope size d aop false)
      (atomIrrevocable s (Rec.of (j.b.recOf bq.toNat)) ts j.b.uid)) (fun _ => rfl)
    fun _ ts s hs hchk => mild_atomEntries hs _ (mild_atomLane hchk _ _ _ _ _ _ _) ts _ s
theorem stillAt_cas (cp : BitVec 2) (off : BitVec 17) : StillAt (.cas k ord scope size d a bq cp off) 0x74 k
    (fun s => ⟨d, 2 * regsOf (accBytes size)⟩ :: idxSrc s bq a) [⟨d, regsOf (accBytes size)⟩] (ScratchAccess bq) :=
  stillAt_access (w := true) (m := casMode d (accBytes size))
    (perform := fun j ts s => ts.foldl (casLane j (Rec.of (j.b.recOf bq.toNat)) ord scope size d)
      (atomIrrevocable s (Rec.of (j.b.recOf bq.toNat)) ts j.b.uid)) (fun _ => rfl)
    fun _ ts s hs hchk => mild_atomEntries hs _ (mild_casLane hchk _ _ _ _) ts _ s
end Accesses

end Sys2Proof.Laws
end

section
/-! PROOF. Issues that change no byte of memory and no control register: matrix operations, tap waits, jobs, pools, and the
statement (O54). -/

namespace Sys2Proof.Machine

/-- The commands of an issue, accepted in turn; its threads wait for their entries of the engine. -/
theorem calm_acceptAll {i : Iss} (he : i.b.errs = []) {s : State} (h : AllQuiet s) (cs : List (Lane × CopyCmd × Nat)) :
    Calm s (pollAccept (cs.foldl (fun s q =>
      modThread s q.1.t.blk q.1.t.gang q.1.t.lane (fun t => { t with wait := .accept }))
      (cs.foldl (fun s q => acceptCopy s i q.1 q.2.1 q.2.2) s))) := by
  have haccept := calm_foldl cs (fun s q => acceptCopy s i q.1 q.2.1 q.2.2) (fun _ _ hs => calm_acceptCopy he hs ..) s h
  refine haccept.trans (Mild.calm ?_ haccept.quiet)
  exact (mild_foldl _ _ (fun _ _ => mild_modThread ..) _).trans (mild_pollAccept _)
/-- A copy instruction of threads with nothing outstanding. -/
theorem stillAt_copy {i : Instr} {op : Nat} {k : Ctl} {dk : BitVec 3} {d a b c : Reg} {x : BitVec 8}
    (hrun : ∀ s, exec i s = copyIssue op k dk d a b c x s) :
    StillAt i op k (fun s => copySrc s op dk.toNat d a b c x) [] (fun s _ => s.outst = []) := by
  refine stillAt_of_exec_eq_issue _ _ hrun fun s q cl bl h hidle => ?_
  dsimp only
  have hdrain (ys : List Lane) (u : State) (hu : u.outst = []) :
      Mild u (ys.foldl (fun s l => let q := copyOf s (issOf s q bl op k) l d a b c x
        if q.1.list? then drainBytes s l.t.blk l.t.gang l.t.lane (.scratch l.t.blk) q.2 (4 * q.1.n1) else s) u) := by
    induction ys generalizing u with
    | nil => exact Mild.refl u
    | cons y ys ih =>
      rw [List.foldl_cons]
      dsimp only
      split
      · obtain ⟨hmild, hout⟩ := drainBytes_idle hu y.t.blk y.t.gang y.t.lane (.scratch y.t.blk)
          (copyOf u (issOf s q bl op k) y d a b c x).2 (4 * (copyOf u (issOf s q bl op k) y d a b c x).1.n1)
        exact hmild.trans (ih _ hout)
      · exact ih _ hu
  have hd := (hdrain (issOf s q bl op k).cmd (issued s) hidle).calm h.issued
  split
  · exact hd.trans (calm_acceptAll (i := issOf s q bl op k) h.errs hd.quiet _)
  · exact hd

/-! ### Matrix operations -/

theorem mild_addMop (s : State) (x : Lane) (pc : W64) (kd : MKind) : Mild s (addMop s x pc kd).2 := by
  rw [addMop_eq]
  exact mild_of_eq rfl rfl rfl rfl ⟨rfl, rfl, rfl, rfl, rfl⟩
theorem mild_awaitMop (s : State) (i : Iss) (id : Nat) (d : Option Reg) : Mild s (awaitMop s i id d) := by
  unfold awaitMop
  split
  · exact Mild.refl s
  · exact mild_foldl _ _ (fun _ _ => mild_addOutst ..) s
theorem mild_holdUnits (s : State) (blk kd f n : Nat) : Mild s (holdUnits s blk kd f n) := by
  unfold holdUnits
  dsimp only
  split <;> exact mild_of_eq rfl rfl rfl rfl ⟨rfl, rfl, rfl, rfl, rfl⟩
theorem stillAt_mclaim (k : Ctl) (kd : BitVec 2) (nb : Bool) (d a b : Reg) (ok : State → Block → Prop) :
    StillAt (.mclaim k kd nb d a b) 0xA8 k (fun _ => [r32 a, r32 b]) [r32 d] ok := by
  refine stillAt_of_calm _ (fun _ => rfl) fun j s h => ?_
  dsimp only
  split
  · exact Calm.refl h
  rename_i x _
  have hirr := calm_irrevocable h j.b.uid
  have hresult (v : Nat) : Calm s (mtxResult (irrevocable s j.b.uid) j d v) := hirr.trans (calm_results hirr.quiet ..)
  split
  · exact hresult _
  split
  · exact hresult _
  split
  · have hhold := hirr.trans ((mild_holdUnits _ j.b.uid kd.toNat (x.rd a 32) (x.rd b 32)).calm hirr.quiet)
    exact hhold.trans (calm_results hhold.quiet ..)
  split
  · exact hresult _
  · exact hirr.trans ((mild_foldl _ _ (fun _ _ => mild_modThread ..) _).calm hirr.quiet)
theorem stillAt_mma {i : Instr} {op : Nat} {f : Fmt} {k : Ctl} {sc rk tr : Bool} {mt : BitVec 3} {a b c : Reg} {x : BitVec 8}
    {ok : State → Block → Prop} (hrun : ∀ s, exec i s = mma op f k sc rk tr mt a b c x s) :
    StillAt i op k (fun _ => [r32 a]) [] ok := by
  refine stillAt_of_exec_eq_issue _ _ hrun fun s q cl bl h _ => ?_
  dsimp only
  split
  · exact Calm.refl h.issued
  split
  · exact Calm.refl h.issued
  split
  · exact Calm.refl h.issued
  · refine Mild.calm (Mild.trans ?_ (mild_foldl _ _ (fun _ _ => mild_addMop ..) _)) h.issued
    have hread (rs : List (Lane × List RG)) : rs.foldl (fun u r =>
        correctMet u (issOf s q bl op k).b always op (issOf s q bl op k).pc [r.1] r.2) (issued s) = issued s := by
      induction rs with
      | nil => rfl
      | cons r rs ih =>
        have hone := correctMet_clean (issued s) (issOf s q bl op k).b always op (issOf s q bl op k).pc [r.1] r.2
          (getBlock_issued h.ready) fun y _ => meets_of_no_errors h.errs h.bad always y r.2 false
        rw [List.foldl_cons, hone, ih]
    rw [hread]
    exact Mild.refl _

theorem stillAt_mdrain (k : Ctl) (ad rk : Bool) (d a b : Reg) (x : BitVec 8) (ok : State → Block → Prop) :
    StillAt (.mdrain k ad rk d a b x) 0xB4 k (fun s => drainSrc s d a) [] ok := by
  refine stillAt_of_exec_eq_issue _ _ (fun _ => rfl) fun s q cl bl h _ => ?_
  dsimp only
  split
  · exact Calm.refl h.issued
  rw [h.readOne _ _ (getBlock_issued h.ready)]
  split
  · exact Calm.refl h.issued
  · have hirr : Calm (issued s) (if (Rec.of ((issOf s q bl 0xB4 k).b.recOf d.toNat)).spc then issued s
        else irrevocable (issued s) (issOf s q bl 0xB4 k).b.uid) := by
      split
      · exact Calm.refl h.issued
      · exact calm_irrevocable h.issued _
    exact hirr.trans (((mild_addMop ..).trans (mild_awaitMop ..)).calm hirr.quiet)
theorem stillAt_msync (k : Ctl) (bk : Bool) (ok : State → Block → Prop) :
    StillAt (.msync k bk) 0xB7 k (fun _ => []) [] ok := by
  refine stillAt_of_calm _ (fun _ => rfl) fun j s h => ?_
  dsimp only
  split
  · exact Calm.refl h
  split
  · exact Calm.refl h
  · exact ((mild_addMop ..).trans (mild_awaitMop ..)).calm h

/-! ### Batches, tap waits, records, scopes and control registers -/

theorem mild_addReply (s : State) (n : Nat) (x : Lane) (cls : OCls) (d : Reg) (w v : Nat) (p : Option (Nat × Bool)) :
    Mild s (addReply s n x cls d w v p) := mild_addOutst ..
/-- The batch of one lane's open commands is sealed with a number. -/
theorem mild_sealCopies (s : State) (t : Thread) (n : BitVec 16) : Mild s { s with
    copies := updWhere s.copies (fun c => c.ofThread t && c.batch == none) (fun c => { c with batch := some n }) } :=
  mild_of_eq rfl rfl rfl rfl ⟨rfl, rfl, rfl, rfl, rfl⟩
theorem stillAt_cseal (k : Ctl) (d : Reg) (ok : State → Block → Prop) :
    StillAt (.cseal k d) 0xA4 k (fun _ => []) [r32 d] ok := by
  refine stillAt_of_calm _ (fun _ => rfl) fun j s h => ?_
  dsimp only
  split
  · exact Calm.refl h
  · refine Mild.calm (mild_foldl _ _ (fun s x => ?_) s) h
    exact (mild_sealCopies s x.t _).trans ((mild_modThread ..).trans (mild_addReply ..))
theorem calm_pollCwait {s : State} (h : AllQuiet s) (b g l : Nat) : Calm s (pollCwait s b g l) := by
  unfold pollCwait
  split
  · split
    · split
      · exact (calm_deliverKept h ..).trans (calm_modThread (calm_deliverKept h ..).quiet ..)
      · exact Calm.refl h
    · exact Calm.refl h
  · exact Calm.refl h
theorem calm_wakeTapw {s : State} (h : AllQuiet s) (blk : Nat) : Calm s (wakeTapw s blk) := by
  refine calm_foldl _ _ (fun s t hs => ?_) s h
  split
  · split
    · exact (calm_deliverKept hs ..).trans (calm_modThread (calm_deliverKept hs ..).quiet ..)
    · exact Calm.refl hs
  · exact Calm.refl hs
/-- TAPW lets its lanes wait, and wakes those whose TAPIN has retired. -/
theorem calm_waitTapw {s : State} (h : AllQuiet s) (ls : List Lane) (f : Lane → Thread → Thread) (blk : Nat) :
    Calm s (wakeTapw (ls.foldl (fun s x => modThread s x.t.blk x.t.gang x.t.lane (f x)) s) blk) := by
  have hwait := (mild_foldl ls _ (fun s x => mild_modThread s x.t.blk x.t.gang x.t.lane (f x)) s).calm h
  exact hwait.trans (calm_wakeTapw hwait.quiet blk)
theorem mild_modJob (s : State) (c n : Nat) (f : Job → Job) : Mild s (modJob s c n f) :=
  mild_of_eq rfl rfl rfl rfl ⟨rfl, rfl, rfl, rfl, rfl⟩
theorem calm_dealChunk {s : State} (h : AllQuiet s) (b : Block) : Calm s (dealChunk s b) := by
  unfold dealChunk
  split
  · exact calm_modBlock h _ _ fun _ hb => hb
  dsimp only
  split
  · exact calm_modBlock h _ _ fun _ hb => hb
  · refine Mild.calm ((mild_modJob ..).trans (mild_modBlock _ _ _ ?_)) h
    exact fun _ hb => hb
theorem calm_takeRecord {s : State} (h : AllQuiet s) (blk : Nat) : Calm s (takeRecord s blk).2 := by
  unfold takeRecord
  split
  · exact Calm.refl h
  rename_i b _
  have hdeal : Calm s (if b.chunkNext < b.chunkEnd ∨ b.dry then s else dealChunk (irrevocable s blk) b) := by
    split
    · exact Calm.refl h
    · exact (calm_irrevocable h blk).trans (calm_dealChunk (calm_irrevocable h blk).quiet b)
  dsimp only
  split
  · split
    · exact hdeal.trans (calm_modBlock hdeal.quiet _ _ fun _ hb => hb)
    · exact hdeal
  · exact hdeal
/-- The lanes of a BWAIT enter their waits, and those that are over end. -/
theorem calm_enterAll {s : State} (h : AllQuiet s) (xs : List Lane) (r : BarRef) (n : Lane → W32) (d : Lane → Option Reg) :
    Calm s (wakeBar (xs.foldl (fun s x => enterBarWait s x r (n x) (d x)) s) r) := by
  have henter := calm_foldl xs (fun s x => enterBarWait s x r (n x) (d x)) (fun _ _ hu => calm_enterBarWait hu ..) s h
  exact henter.trans (calm_wakeBar henter.quiet _)
/-- Lanes that act without a change of state: their results are written. -/
theorem calm_eachLane {s : State} (h : AllQuiet s) (i : Iss) (d : Reg) (n : Nat) (f : State → Lane → Nat) :
    Calm s (eachLane s i d n fun s x => (f s x, s)) := by
  have hall (xs : List Lane) (acc : List (Lane × Nat)) : (xs.foldl (fun (acc : List (Lane × Nat) × State) x =>
      (acc.1 ++ [(x, f acc.2 x)], acc.2)) (acc, s)).2 = s := by
    induction xs generalizing acc with
    | nil => rfl
    | cons x xs ih => exact ih _
  have hs := hall i.cmd []
  unfold eachLane
  dsimp only
  generalize i.cmd.foldl _ _ = r at hs ⊢
  obtain ⟨outs, t⟩ := r
  obtain rfl : t = s := hs
  exact calm_commit h ..

/-! ### Requests of the block pools -/

/-- No outstanding entry has still its access before it. -/
def NonePending (s : State) : Prop := ∀ o ∈ s.outst, o.pending = false
/-- A thread with no access outstanding has nothing to perform before its release. -/
theorem drainThread_idle {s : State} (h : NonePending s) (b g l : Nat) : drainThread s b g l = sweepFences s := by
  have hnone : s.outst.filter (fun o => o.blk == b && o.gang == g && o.lane == l && o.pending) = [] :=
    List.filter_eq_nil_iff.2 fun o ho => by simp [h o ho]
  unfold drainThread
  rw [hnone]
  rfl
/-- A sweep of fences only takes entries away. -/
theorem mem_sweepFences {s : State} {o : Outst} (h : o ∈ (sweepFences s).outst) : o ∈ s.outst := by
  have hgo (l seen : List Outst) (h : o ∈ sweepFences.go seen l) : o ∈ l := by
    induction l generalizing seen with
    | nil => exact h
    | cons p l ih =>
      rw [sweepFences.go] at h
      split at h
      · exact List.mem_cons_of_mem _ (ih _ h)
      · exact (List.mem_cons.1 h).elim (fun h => h ▸ List.mem_cons_self) fun h => List.mem_cons_of_mem _ (ih _ h)
  exact hgo _ _ h

/-- What the requests of a POOL instruction keep: nothing kept back, no access outstanding. -/
structure Asked (s t : State) : Prop where
  calm : Calm s t
  idle : NonePending t
theorem Asked.trans {s t u : State} (h : Asked s t) (g : Asked t u) : Asked s u := ⟨h.calm.trans g.calm, g.idle⟩

theorem poolDone_idle (r : Except Nat Nat) {o : Outst} (h : o.pending = false) : (o.poolDone r).pending = false := by
  unfold Outst.poolDone
  split
  · rfl
  · exact h
theorem asked_poolReply {s : State} (h : AllQuiet s) (hn : NonePending s) (id : Nat) (r : Except Nat Nat) :
    Asked s (poolReply s id r) := by
  refine ⟨Mild.calm (mild_of_eq rfl rfl rfl rfl ⟨rfl, rfl, rfl, rfl, rfl⟩) h, fun o ho => ?_⟩
  obtain ⟨p, hp, rfl⟩ := List.mem_map.1 (show o ∈ (updOutst s id (Outst.poolDone r)).outst from ho)
  split
  · exact poolDone_idle r (hn p hp)
  · exact hn p hp

theorem asked_syncRelease {s : State} (h : AllQuiet s) (hn : NonePending s) (x : Lane) : Asked s (syncRelease s x) := by
  unfold syncRelease
  rw [drainThread_idle hn]
  exact ⟨((mild_sweepFences s).trans (mild_bumpRel ..)).calm h, fun o ho => hn o (mem_sweepFences (s := s) ho)⟩

/-- What an operation at a pool engine changes, but for pinit: pools, and what blocks acquire. -/
structure PoolsOnly (s t : State) : Prop where
  mild : Mild s t
  outst : t.outst = s.outst
theorem PoolsOnly.refl (s : State) : PoolsOnly s s := ⟨Mild.refl s, rfl⟩
theorem PoolsOnly.trans {s t u : State} (h : PoolsOnly s t) (g : PoolsOnly t u) : PoolsOnly s u :=
  ⟨h.mild.trans g.mild, g.outst.trans h.outst⟩
theorem poolsOnly_putPool (s : State) (p : Pool) : PoolsOnly s (putPool s p) :=
  ⟨mild_of_eq rfl rfl rfl rfl ⟨rfl, rfl, rfl, rfl, rfl⟩, rfl⟩
theorem poolsOnly_acquire (bs : List FreeBlk) (s : State) (blk : Nat) :
    PoolsOnly s (bs.foldl (fun s f => raiseAcq s blk f.uid f.rel) s) := by
  induction bs generalizing s with
  | nil => exact PoolsOnly.refl s
  | cons b bs ih => exact PoolsOnly.trans ⟨mild_raiseAcq .., rfl⟩ (ih _)
theorem poolsOnly_onPool {s : State} {q : PoolReq} {name : Nat} {f : Pool → Except Nat Nat × State}
    (h : ∀ p, PoolsOnly s (f p).2) : PoolsOnly s (onPool s q name f).2 := by
  unfold onPool
  split
  · exact PoolsOnly.refl s
  · exact h _
theorem poolsOnly_onSeq {s : State} {q : PoolReq} {name : Nat} {f : Pool → Nat → List Nat → Except Nat Nat × State}
    (h : ∀ p t es, PoolsOnly s (f p t es).2) : PoolsOnly s (onSeq s q name f).2 := by
  unfold onSeq
  split
  · exact PoolsOnly.refl s
  · exact h _ _ _
theorem poolsOnly_perform (s : State) (q : PoolReq) (h : ∀ b d, q.op ≠ .pinit b d) : PoolsOnly s (poolPerform s q).2 := by
  unfold poolPerform
  split
  case h_1 =>
    refine poolsOnly_onPool fun p => ?_
    unfold poolNew
    split
    · exact PoolsOnly.refl s
    · exact poolsOnly_putPool ..
  case h_2 => exact poolsOnly_onSeq fun p t es => poolsOnly_putPool ..
  case h_3 b d hop => exact absurd hop (h b d)
  case h_4 =>
    refine poolsOnly_onPool fun p => ?_
    split
    · exact PoolsOnly.refl s
    · exact ⟨mild_of_eq rfl rfl rfl rfl ⟨rfl, rfl, rfl, rfl, rfl⟩, rfl⟩
  case h_5 => exact poolsOnly_onPool fun p => PoolsOnly.refl s
  case h_6 =>
    refine poolsOnly_onSeq fun p t es => ?_
    unfold poolAlloc
    split_ifs
    · exact PoolsOnly.refl s
    · exact PoolsOnly.refl s
    · exact PoolsOnly.refl s
    · exact (poolsOnly_acquire ..).trans (poolsOnly_putPool ..)
  case h_7 =>
    refine poolsOnly_onSeq fun p t es => ?_
    unfold poolTrim
    split
    · exact PoolsOnly.refl s
    · exact poolsOnly_putPool ..
  case h_8 =>
    refine poolsOnly_onSeq fun p t es => ?_
    unfold poolLook
    split
    · exact PoolsOnly.refl s
    · exact PoolsOnly.refl s
  case h_9 =>
    refine poolsOnly_onSeq fun p t es => ?_
    unfold poolDrop
    split
    · exact PoolsOnly.refl s
    · exact poolsOnly_putPool ..

theorem asked_of_poolsOnly {s t : State} (h : PoolsOnly s t) (hq : AllQuiet s) (hn : NonePending s) : Asked s t :=
  ⟨h.mild.calm hq, fun o ho => hn o (h.outst ▸ ho)⟩
theorem asked_answer {s : State} (h : AllQuiet s) (hn : NonePending s) (q : PoolReq) (hq : ∀ b d, q.op ≠ .pinit b d) :
    Asked s (poolReply (poolPerform s q).2 q.outst (poolPerform s q).1) := by
  have hp := asked_of_poolsOnly (poolsOnly_perform s q hq) h hn
  exact hp.trans (asked_poolReply hp.calm.quiet hp.idle _ _)
theorem asked_poolArrive {s : State} (h : AllQuiet s) (hn : NonePending s) (home : Option Nat) (q : PoolReq)
    (hq : ∀ b d, q.op ≠ .pinit b d) : Asked s (poolArrive s home q) := by
  unfold poolArrive
  split
  · exact asked_answer h hn q hq
  split
  · exact ⟨Mild.calm (mild_of_eq rfl rfl rfl rfl ⟨rfl, rfl, rfl, rfl, rfl⟩) h, hn⟩
  · have hcount : Asked s { s with act := { s.act with pool := Sparse.set 0 s.act.pool q.valley (poolCount s q.valley + 1) } } :=
      ⟨Mild.calm (mild_of_eq rfl rfl rfl rfl ⟨rfl, rfl, rfl, rfl, rfl⟩) h, hn⟩
    exact hcount.trans (asked_answer hcount.calm.quiet hcount.idle q hq)
theorem asked_poolAsk {s : State} (h : AllQuiet s) (hn : NonePending s) (i : Iss) (d : Reg) (w : Nat) (pred : Option Nat)
    (op : PoolOp) (hop : ∀ b d, op ≠ .pinit b d) (x : Lane) : Asked s (poolAsk i d w pred op s x) := by
  have hrel := asked_syncRelease h hn x
  have hentry : Asked (syncRelease s x)
      (addOutst (syncRelease s x) i.no x .en (.pool d (keepW i.cmd x d w) pred) false false).2 := by
    refine ⟨calm_addOutst hrel.calm.quiet .., fun o ho => ?_⟩
    rcases List.mem_append.1 ho with ho | ho
    · exact hrel.idle o ho
    · rw [List.mem_singleton.1 ho]
      rfl
  exact (hrel.trans hentry).trans (asked_poolArrive hentry.calm.quiet hentry.idle _ _ hop)
/-- An irrevocable event with nothing kept back leaves what is outstanding. -/
theorem outst_irrevocable {s : State} (h : AllQuiet s) (blk : Nat) : (irrevocable s blk).outst = s.outst := by
  unfold irrevocable
  split
  · rfl
  rename_i b hb
  split
  · rename_i hr
    have hq : b.hold = [] := (h b (List.mem_of_find?_eq_some hb)).resolve_left fun hp => by
      rw [hp] at hr
      cases hr
    have hd : drainHold s blk = s := by simp [drainHold, drainSome, hb, hq]
    rw [hd]
    split <;> rfl
  · rfl
theorem stillAt_poolEach {i : Instr} {op : Nat} {k : Ctl} {src : List RG} {d : Reg} {w : Nat} {changes : Bool}
    {pred : Option Nat} {f : Lane → PoolOp} (hrun : ∀ s, exec i s = poolEach op k src d w changes pred f s)
    (hf : ∀ x b q, f x ≠ .pinit b q) : StillAt i op k (fun _ => src) [⟨d, w / 32⟩] (fun s _ => s.outst = []) := by
  refine stillAt_of_exec_eq_issue _ _ hrun fun s q c bl h hidle => ?_
  have hn : NonePending (issued s) := fun o ho => by
    rw [show (issued s).outst = [] from hidle] at ho
    cases ho
  have hall (xs : List Lane) (u : State) (hu : AllQuiet u) (hnu : NonePending u) :
      Asked u (xs.foldl (fun u x => poolAsk (issOf s q bl op k) d w pred (f x) u x) u) := by
    induction xs generalizing u with
    | nil => exact ⟨Calm.refl hu, hnu⟩
    | cons x xs ih =>
      have hone := asked_poolAsk hu hnu (issOf s q bl op k) d w pred (f x) (hf x) x
      exact hone.trans (ih _ hone.calm.quiet hone.idle)
  have hstart : Asked (issued s) (if (issOf s q bl op k).cmd.isEmpty || !changes then issued s
      else irrevocable (issued s) (issOf s q bl op k).b.uid) := by
    split
    · exact ⟨Calm.refl h.issued, hn⟩
    · exact ⟨calm_irrevocable h.issued _, fun o ho => hn o (outst_irrevocable h.issued _ ▸ ho)⟩
  exact (hstart.trans (hall _ _ hstart.calm.quiet hstart.idle)).calm

/-! ### Faults, and the going on of a bundle, whatever is kept back -/

theorem mild_askSave (s : State) (blk : Nat) (r : SaveReq) : Mild s (askSave s blk r) := by
  unfold askSave
  split
  · exact Mild.refl s
  · refine ⟨⟨fun _ => rfl, ⟨rfl, rfl, rfl, rfl, rfl, rfl⟩, rfl⟩, fun h => quiet_updWhere _ _ (fun b hb => ?_) h⟩
    split
    · exact hb
    · split <;> exact hb
/-- Faults that are no machine checks. -/
theorem mild_raise (s : State) (blk op : Nat) (pc : W64) (fs : List LaneFlt) (hf : ∀ f ∈ fs, f.flt.cause < 0x20) :
    Mild s (raise s blk op pc fs) := by
  have hmc : fs.filter (fun f => 0x20 ≤ f.flt.cause) = [] :=
    List.filter_eq_nil_iff.2 fun f h => by simpa using hf f h
  unfold raise
  simp only [hmc, List.foldl_nil]
  have hset := mild_foldl fs (fun s f => modThread s blk f.gang f.lane fun t => { t with fault := some (f.flt.toRec pc) })
    (fun _ _ => mild_modThread ..) s
  split
  · exact hset
  · exact hset.trans (mild_askSave ..)
theorem mild_modThreads (s : State) (p : Thread → Bool) (f : Thread → Thread) : Mild s (modThreads s p f) :=
  mild_of_eq rfl rfl rfl rfl ⟨rfl, rfl, rfl, rfl, rfl⟩
theorem mild_modBundle (s : State) (id : Nat) (f : Bundle → Bundle) : Mild s (modBundle s id f) :=
  mild_of_eq rfl rfl rfl rfl ⟨rfl, rfl, rfl, rfl, rfl⟩
theorem mild_markAge (s : State) (id : Nat) : Mild s (markAge s id) := by
  unfold markAge
  split
  · exact Mild.refl s
  · split
    · exact mild_of_eq rfl rfl rfl rfl ⟨rfl, rfl, rfl, rfl, rfl⟩
    · exact Mild.refl s
theorem mild_moveTo (s : State) (id : Nat) {p : Place} {c : Clause} (hp : p.clause = some c) : Mild s (moveTo s id p) := by
  have hleft : Mild s (clearLeft s id) := by
    unfold clearLeft
    split
    · exact mild_modThreads ..
    · exact Mild.refl s
  unfold moveTo
  rw [hp]
  exact hleft.trans (mild_modBundle ..)
theorem mild_after (j : Iss) (s : State) {c : Clause} (hc : j.next.clause = some c) : Mild s (after j s) := by
  have hpark : Mild s (parkAll j s) := by
    unfold parkAll
    split
    · exact mild_modThreads ..
    · exact Mild.refl s
  refine hpark.trans ?_
  unfold after advance
  split
  · exact Mild.refl _
  · split
    · exact mild_modBundle ..
    · split
      · exact (mild_modBundle ..).trans (mild_markAge ..)
      · exact (mild_markAge ..).trans (mild_moveTo _ _ hc)

/-- An opcode of the SYS class does not stand in a block of task level (02 R40). -/
theorem orderFault_sys (b : Block) (role : Nat) (c : Clause) (idx : Nat) {op : Nat} (hlo : 0xD0 ≤ op) (hhi : op ≤ 0xD8)
    (hk : b.kernel = false) : ∃ cause < 0x20, orderFault b role c idx op = some cause := by
  have hcls : clsOf op = some .sys := by
    interval_cases op <;> rfl
  unfold orderFault
  rw [hcls]
  dsimp only
  split
  · exact ⟨_, by decide, rfl⟩
  split
  · exact ⟨_, by decide, rfl⟩
  · rw [hk]
    exact ⟨0x04, by decide, rfl⟩
/-- An instruction of the SYS class in a block of task level faults, with no effect. -/
theorem still_exec_sys {i : Instr} {s : State} {q : Bundle} {c : Clause} {b : Block} (hi : isEvent i = false)
    (hlo : 0xD0 ≤ (opOf (encode i)).toNat) (hhi : (opOf (encode i)).toNat ≤ 0xD8) (hq : getBundle s s.cur = some q)
    (hc : q.place.clause = some c) (hb : getBlock s q.blk = some b) (hk : b.kernel = false) :
    ∃ t, exec i s = .next t ∧ Still s t := by
  obtain ⟨cause, hcause, horder⟩ := orderFault_sys b q.role c q.place.idx hlo hhi hk
  obtain ⟨k, src, dst, late, eff, addr, hrun⟩ := exec_issuesAs i hi s
  rw [hrun, issue_misplaced hq hc hb horder]
  refine ⟨_, rfl, (mild_raise _ _ _ _ _ fun f hf => ?_).still⟩
  obtain ⟨x, -, rfl⟩ := List.mem_map.1 hf
  exact hcause

end Sys2Proof.Machine

namespace Sys2Proof.Laws
open Machine

/-- Settles O54: each effect is made of operations that leave memory and control registers still while nothing is kept back. -/
theorem issueFrames : Obligations.IssueFrames := by
  unfold Obligations.IssueFrames
  intro still always idle copy scratch
  refine ⟨?fence, ?bset, ?bget, ?ld, ?st, ?atom, ?atomn, ?cas, ?ldLane, ?stLane, ?atomLane, ?casLane, ?after, ?bjoin,
    ?bwait, ?bqry, ?rginit, ?rginitFree, ?slacq, ?sltak, ?cpy, ?cpyg, ?cpys, ?cpyf, ?cseal, ?cwait, ?cpoll, ?mclaim,
    ?mmaBf16, ?mmaF16, ?mmaE4m3, ?mmaE5m2, ?mmaE2m1, ?mmaI8, ?mmaI4, ?mdrain, ?msync, ?tapw, ?jrec, ?scqry, ?crd,
    ?kseqNew, ?kseqFree, ?kseqPquery, ?kseqPfree, ?kalloc, ?ktrim, ?klook, ?kfree, ?sys⟩
  case fence =>
    exact fun k ord scope => stillAt_of_calm _ (fun _ => rfl) fun j s h =>
      (mild_foldl _ _ (fun _ _ => mild_fenceThread ..) s).calm h
  case bset =>
    refine fun k d a => stillAt_of_exec_eq_issue _ _ (fun _ => rfl) fun s q c b h _ => ?_
    split
    · exact Calm.refl h.issued
    · rw [h.readOne _ _ (getBlock_issued h.ready)]
      exact calm_bsetLane _ _ _ h.issued _
  case bget =>
    exact fun k d a => stillAt_of_calm _ (fun _ => rfl) fun j s h => calm_foldl _ _ (fun s x hs =>
      (calm_putReg hs ..).trans (calm_putReg (calm_putReg hs ..).quiet ..)) s h
  case ld => exact fun k ord scope size d a bq cp off => stillAt_ld k ord scope size d a bq cp off
  case st => exact fun k ord scope size d a bq cp off => stillAt_st k ord scope size d a bq cp off
  case atom => exact fun k ord scope size d a bq aop off => stillAt_atom k ord scope size d a bq aop off
  case atomn => exact fun k ord scope size d a bq aop off => stillAt_atomn k ord scope size d a bq aop off
  case cas => exact fun k ord scope size d a bq cp off => stillAt_cas k ord scope size d a bq cp off
  case ldLane => exact fun j r m ord scope n d xs s h => (mild_foldl xs _ (mild_ldLane h _ _ _ _ _) s).still
  case stLane => exact fun j r m ord scope size d xs s h => (mild_foldl xs _ (mild_stLane h _ _ _ _ _) s).still
  case atomLane =>
    exact fun j r m ord scope size d aop ret xs s h => (mild_foldl xs _ (mild_atomLane h _ _ _ _ _ _ _) s).still
  case casLane => exact fun j r ord scope size d xs s h => (mild_foldl xs _ (mild_casLane h _ _ _ _) s).still
  case after => exact fun j s c hc => (mild_after j s hc).still
  case bjoin =>
    refine fun k d a => stillAt_barOp (fun s => show execBjoin k false d a s = _ from rfl) fun j s rs h => ?_
    refine calm_foldl _ _ (fun s r hs => ?_) s h
    dsimp only
    split
    · exact calm_syncResult hs ..
    · exact calm_join hs ..
  case bwait =>
    refine fun k d a b => stillAt_barOp (fun s => show execBwait k false d a b s = _ from rfl) fun j s rs h => ?_
    refine calm_foldl _ _ (fun s g hs => ?_) s h
    exact calm_enterAll hs g.2 g.1 (fun x => BitVec.ofNat 32 (x.rd b 32)) fun x => keptDst j.cmd x d
  case bqry =>
    refine fun k d a x => stillAt_barOp (fun _ => rfl) fun j s rs h => ?_
    refine calm_foldl _ _ (fun s r hs => ?_) s h
    dsimp only
    split
    · exact calm_syncResult hs ..
    · exact Calm.refl hs
  case rginit =>
    refine fun k d a => stillAt_of_calm _ (fun _ => rfl) fun j s h => calm_foldl _ _ (fun s x hs => ?_) s h
    have hring := (mild_initRing s x.b (x.rd a 64)).calm hs
    exact hring.trans (calm_syncResult hring.quiet ..)
  case rginitFree =>
    refine fun k d a => stillAt_of_calm _ (fun _ => rfl) fun j s h => calm_foldl _ _ (fun s x hs => ?_) s h
    dsimp only
    split
    · exact calm_syncResult hs ..
    split
    · exact calm_syncResult hs ..
    rename_i r _ _
    have hdrop := (mild_dropRing s r.core (x.rd a 32)).calm hs
    exact hdrop.trans (calm_syncResult hdrop.quiet ..)
  case slacq => exact fun k nb d a => stillAt_ringTake fun _ => rfl
  case sltak => exact fun k nb d a => stillAt_ringTake fun _ => rfl
  case cpy => exact fun k dk ad bc d a b c x => stillAt_copy fun _ => rfl
  case cpyg => exact fun k dk ad bc d a b c x => stillAt_copy fun _ => rfl
  case cpys => exact fun k dk ad bc d a b c x => stillAt_copy fun _ => rfl
  case cpyf => exact fun k dk ad bc d a b c x => stillAt_copy fun _ => rfl
  case cseal => exact fun k d => stillAt_cseal k d _
  case cwait =>
    exact fun k d a => stillAt_of_calm _ (fun _ => rfl) fun j s h => calm_foldl _ _ (fun s x hs =>
      (calm_modThread hs ..).trans (calm_pollCwait (calm_modThread hs ..).quiet ..)) s h
  case cpoll =>
    exact fun k d => stillAt_of_calm _ (fun _ => rfl) fun j s h =>
      Mild.calm (mild_foldl _ _ (fun s x => (mild_modThread ..).trans (mild_addReply ..)) s) h
  case mclaim => exact fun k kd nb d a b => stillAt_mclaim k kd nb d a b _
  case mmaBf16 => exact fun k sc rk tr mt a b c x => stillAt_mma fun _ => rfl
  case mmaF16 => exact fun k sc rk tr mt a b c x => stillAt_mma fun _ => rfl
  case mmaE4m3 => exact fun k sc rk tr mt a b c x => stillAt_mma fun _ => rfl
  case mmaE5m2 => exact fun k sc rk tr mt a b c x => stillAt_mma fun _ => rfl
  case mmaE2m1 => exact fun k sc rk tr mt a b c x => stillAt_mma fun _ => rfl
  case mmaI8 => exact fun k sc rk tr mt a b c x => stillAt_mma fun _ => rfl
  case mmaI4 => exact fun k sc rk tr mt a b c x => stillAt_mma fun _ => rfl
  case mdrain => exact fun k ad rk d a b x => stillAt_mdrain k ad rk d a b x _
  case msync => exact fun k bk => stillAt_msync k bk _
  case tapw =>
    refine fun k d a b => stillAt_of_calm _ (fun _ => rfl) fun j s h => ?_
    split
    · exact calm_waitTapw h j.cmd (fun x t => { t with wait := .tapw (x.rd a 32) (BitVec.ofNat 64 (x.rd b 64)) (keptDst j.cmd x d) })
        j.b.uid
    · exact Calm.refl h
  case jrec =>
    refine fun k d x => stillAt_of_calm _ (fun _ => rfl) fun j s h => calm_foldl _ _ (fun s y hs => ?_) s h
    have htake := calm_takeRecord hs j.b.uid
    split <;> rename_i u hr <;> rw [hr] at htake <;> exact htake.trans (calm_addReply htake.quiet ..)
  case scqry =>
    exact fun k xc d a c => stillAt_of_calm _ (fun _ => rfl) fun j s h =>
      Mild.calm (mild_foldl _ _ (fun s x => mild_addReply ..) s) h
  case crd =>
    refine fun k bk d a x => stillAt_of_calm _ (fun _ => rfl) fun j s h => ?_
    exact calm_eachLane h j d 64 fun s l =>
      if bk then (match getCtx s (ctxArg l a) with | some c => ctxReg c x.toNat | none => 0) else devReg s x.toNat
  case kseqNew =>
    exact fun k d a => stillAt_poolEach (w := 32) (changes := true) (pred := none) (f := fun l => .new (l.rd a 32))
      (fun _ => rfl) fun _ _ _ => nofun
  case kseqFree =>
    exact fun k d a => stillAt_poolEach (w := 32) (changes := true) (pred := none) (f := fun l => .free (l.rd a 32))
      (fun _ => rfl) fun _ _ _ => nofun
  case kseqPquery =>
    exact fun k d a => stillAt_poolEach (w := 32) (changes := true) (pred := none) (f := fun l => .query (l.rd a 32))
      (fun _ => rfl) fun _ _ _ => nofun
  case kseqPfree =>
    exact fun k d a => stillAt_poolEach (w := 32) (changes := true) (pred := none) (f := fun l => .pfree (l.rd a 32))
      (fun _ => rfl) fun _ _ _ => nofun
  case kalloc =>
    exact fun k cl d a b => stillAt_poolEach (w := 32) (changes := true) (pred := none) (f := fun l => .alloc cl (l.rd a 32) (l.rd b 32))
      (fun _ => rfl) fun _ _ _ => nofun
  case ktrim =>
    exact fun k d a b => stillAt_poolEach (w := 32) (changes := true) (pred := none) (f := fun l => .trim (l.rd a 32) (l.rd b 32))
      (fun _ => rfl) fun _ _ _ => nofun
  case klook =>
    exact fun k d a b x => stillAt_poolEach (w := 64) (changes := false) (pred := some x.toNat) (f := fun l => .look (l.rd a 32) (l.rd b 32))
      (fun _ => rfl) fun _ _ _ => nofun
  case kfree =>
    exact fun k d a b => stillAt_poolEach (w := 32) (changes := true) (pred := none) (f := fun l => .drop (l.rd a 32) (l.rd b 32))
      (fun _ => rfl) fun _ _ _ => nofun
  case sys =>
    exact fun i s q c b hi hlo hhi hq hc hb hk => still_exec_sys hi hlo hhi hq hc hb hk

end Sys2Proof.Laws
end

section
/-! PROOF. What READY(r, status) does to a row of a TAPIN that is held (19 R353, R354; O39). -/

namespace Sys2Proof.Machine

/-- A row that is held for the thread at lane 0 of gang 0. -/
def heldRow : TRow :=
  { slot := 0, pos := 0, status := 3, rule := 0, val := 0, rechecks := 0, first := false, fault := none, owner := some (0, 0) }
/-- A TAPIN with one row, which is held. -/
def heldTapin : Tapin :=
  { id := 0, blk := 0, gang := 0, lane := 0, word := 0, pc := 0, trec := 0, rmap := 0, tap := 0, d := 0, tile := 0, drec := 0,
    ruleb := 0, rows := [heldRow], retired := true, forgotten := false }
/-- The machine after a reset, with that TAPIN. -/
def withHeldRow : State := { State.reset with tapins := [heldTapin] }

/-- The row of the TAPIN. -/
def rowOfHeld (s : State) : Option TRow := (tapinById s heldTapin.id).bind fun t => t.rows[0]?
/-- READY takes the row from the thread that holds it. -/
theorem readyRow_withHeldRow :
    rowOfHeld (readyRow withHeldRow heldTapin.id 0 1) = some { heldRow with status := 1, fault := none, owner := none } := by
  decide +kernel

end Sys2Proof.Machine

namespace Sys2Proof.Laws
open Machine

/-- Refutes O39: its clause on a row that becomes ready keeps the thread that the row is held for, where READY takes the row
from that thread, so a row that is held tells the two apart. -/
theorem not_engineResults : ¬ Obligations.EngineResults := by
  unfold Obligations.EngineResults
  intro h
  obtain ⟨-, -, -, -, -, -, -, -, -, -, -, hready, -⟩ := h
  have hkept : rowOfHeld (readyRow withHeldRow heldTapin.id 0 1) = some { heldRow with status := 1, fault := none } :=
    hready withHeldRow heldTapin.id 0 1 heldTapin heldRow rfl rfl
  rw [readyRow_withHeldRow] at hkept
  exact absurd hkept (by decide)

end Sys2Proof.Laws
end

section
/-! PROOF. What every operation of the machine keeps: the canonical form of memory, registers, records and stores, and the
budgets that the firmware has set (O48, O33). -/

namespace Sys2Proof.Machine
open Laws

/-- From s, t is reached with the budgets as they were, with memory canonical where it was, and with every sparse map
canonical where all were. -/
structure Keeps (s t : State) : Prop where
  budgets : t.cfg.budgets = s.cfg.budgets
  memory : Memory.wf s.mem = true → Memory.wf t.mem = true
  maps : Canonical s → Canonical t

/-! ### The parts of the machine that the canonical form is about -/

/-- The v registers of a thread are canonical. -/
def Thread.Canon (t : Thread) : Prop := Sparse.wf (0 : W32) t.v = true
/-- The s registers of a gang are canonical. -/
def Gang.Canon (g : Gang) : Prop := Sparse.wf (0 : W64) g.s = true
/-- The records and the scratchpad of a block are canonical. -/
def Block.Canon (b : Block) : Prop := Sparse.wf (0 : BitVec 256) b.recs = true ∧ Sparse.wf unlisted b.scratch = true
/-- What a checkpoint keeps is canonical. -/
def Ckpt.Canon (c : Ckpt) : Prop := (∀ t ∈ c.threads, t.Canon) ∧ (∀ g ∈ c.gangs, g.Canon) ∧ c.block.Canon

/-- The parts of a state that Keeps speaks of. -/
def keptParts (s : State) :
    List Host.Cell × List Thread × List Gang × List Block × Sparse Byte × Sparse HostQ × List Ckpt × Budgets :=
  (s.mem, s.threads, s.gangs, s.blocks, s.walkStore, s.queues, s.ckpts, s.cfg.budgets)

theorem keptParts_eq {s t : State} (h : keptParts t = keptParts s) :
    t.mem = s.mem ∧ t.threads = s.threads ∧ t.gangs = s.gangs ∧ t.blocks = s.blocks ∧ t.walkStore = s.walkStore ∧
      t.queues = s.queues ∧ t.ckpts = s.ckpts ∧ t.cfg.budgets = s.cfg.budgets := by
  simpa only [keptParts, Prod.mk.injEq] using h

theorem canonical_iff (s : State) : Canonical s ↔ Memory.wf s.mem = true ∧ (∀ t ∈ s.threads, t.Canon) ∧ (∀ g ∈ s.gangs, g.Canon)
    ∧
    (∀ b ∈ s.blocks, b.Canon) ∧ Sparse.wf unlisted s.walkStore = true ∧ Sparse.wf HostQ.reset s.queues = true ∧
    ∀ c ∈ s.ckpts, c.Canon :=
  ⟨fun h => ⟨h.mem, h.regs, h.uniform, fun b hb => ⟨h.recs b hb, h.scratch b hb⟩, h.store, h.queues, h.kept⟩,
   fun ⟨hmem, hregs, huniform, hblocks, hstore, hqueues, hkept⟩ =>
    ⟨hmem, hregs, huniform, fun b hb => (hblocks b hb).1, fun b hb => (hblocks b hb).2, hstore, hqueues, hkept⟩⟩

/-! ### The rules of Keeps -/

theorem Keeps.refl (s : State) : Keeps s s := ⟨rfl, id, id⟩
theorem Keeps.trans {s t u : State} (h : Keeps s t) (g : Keeps t u) : Keeps s u :=
  ⟨g.budgets.trans h.budgets, fun hm => g.memory (h.memory hm), fun hc => g.maps (h.maps hc)⟩

/-- A change of other parts of the machine. -/
theorem keeps_frame {s0 s t : State} (h : Keeps s0 s) (e : keptParts t = keptParts s) : Keeps s0 t := by
  obtain ⟨hmem, hthreads, hgangs, hblocks, hstore, hqueues, hckpts, hbudgets⟩ := keptParts_eq e
  refine h.trans ⟨hbudgets, fun hm => by rw [hmem]; exact hm, fun hc => ?_⟩
  rw [canonical_iff] at hc ⊢
  rw [hmem, hthreads, hgangs, hblocks, hstore, hqueues, hckpts]
  exact hc
/-- A change of one of the parts alone. -/
theorem keeps_mem {s0 s : State} (h : Keeps s0 s) {m : List Host.Cell} (hm : Memory.wf s.mem = true → Memory.wf m = true) :
    Keeps s0 { s with mem := m } :=
  h.trans ⟨rfl, hm, fun hc => { hc with mem := hm hc.mem }⟩
theorem keeps_threads {s0 s : State} (h : Keeps s0 s) {ts : List Thread}
    (ht : (∀ t ∈ s.threads, t.Canon) → ∀ t ∈ ts, t.Canon) : Keeps s0 { s with threads := ts } :=
  h.trans ⟨rfl, id, fun hc => { hc with regs := ht hc.regs }⟩
theorem keeps_gangs {s0 s : State} (h : Keeps s0 s) {gs : List Gang}
    (hg : (∀ g ∈ s.gangs, g.Canon) → ∀ g ∈ gs, g.Canon) : Keeps s0 { s with gangs := gs } :=
  h.trans ⟨rfl, id, fun hc => { hc with uniform := hg hc.uniform }⟩
theorem keeps_blocks {s0 s : State} (h : Keeps s0 s) {bs : List Block}
    (hb : (∀ b ∈ s.blocks, b.Canon) → ∀ b ∈ bs, b.Canon) : Keeps s0 { s with blocks := bs } :=
  h.trans ⟨rfl, id, fun hc =>
    have hall := hb fun b hm => ⟨hc.recs b hm, hc.scratch b hm⟩
    { hc with recs := fun b hm => (hall b hm).1, scratch := fun b hm => (hall b hm).2 }⟩
theorem keeps_walkStore {s0 s : State} (h : Keeps s0 s) {m : Sparse Byte}
    (hm : Sparse.wf unlisted s.walkStore = true → Sparse.wf unlisted m = true) : Keeps s0 { s with walkStore := m } :=
  h.trans ⟨rfl, id, fun hc => { hc with store := hm hc.store }⟩
theorem keeps_queues {s0 s : State} (h : Keeps s0 s) {m : Sparse HostQ}
    (hm : Sparse.wf HostQ.reset s.queues = true → Sparse.wf HostQ.reset m = true) : Keeps s0 { s with queues := m } :=
  h.trans ⟨rfl, id, fun hc => { hc with queues := hm hc.queues }⟩
theorem keeps_ckpts {s0 s : State} (h : Keeps s0 s) {cs : List Ckpt}
    (hk : (∀ c ∈ s.ckpts, c.Canon) → ∀ c ∈ cs, c.Canon) : Keeps s0 { s with ckpts := cs } :=
  h.trans ⟨rfl, id, fun hc => { hc with kept := hk hc.kept }⟩

/-- The elements that a test picks are mended by what keeps a property. -/
theorem forall_mem_updWhere {α : Type} {P : α → Prop} {l : List α} {p : α → Bool} {f : α → α} (hf : ∀ x, P x → P (f x))
    (h : ∀ x ∈ l, P x) : ∀ x ∈ updWhere l p f, P x := by
  intro y hy
  obtain ⟨x, hx, rfl⟩ := List.mem_map.mp hy
  split
  · exact hf x (h x hx)
  · exact h x hx

theorem forall_mem_filter {α : Type} {P : α → Prop} {l : List α} {p : α → Bool} (h : ∀ x ∈ l, P x) : ∀ x ∈ l.filter p, P x :=
  fun x hx => h x (List.mem_of_mem_filter hx)

/-! ### The primitive operations -/

theorem keeps_writeBytes {s0 s : State} {pa : Nat} {bs : List Byte} (h : Keeps s0 s) : Keeps s0 (writeBytes s pa bs) :=
  keeps_mem h (putBytes_wf s.mem pa bs)
theorem keeps_modThreads {s0 s : State} {p : Thread → Bool} {f : Thread → Thread} (h : Keeps s0 s)
    (hf : ∀ t, t.Canon → (f t).Canon) :
    Keeps s0 (modThreads s p f) :=
  keeps_threads h (forall_mem_updWhere hf)
theorem keeps_modThread {s0 s : State} {b g l : Nat} {f : Thread → Thread} (h : Keeps s0 s) (hf : ∀ t, t.Canon → (f t).Canon) :
    Keeps s0 (modThread s b g l f) :=
  keeps_threads h (forall_mem_updWhere hf)
theorem keeps_modGang {s0 s : State} {b g : Nat} {f : Gang → Gang} (h : Keeps s0 s) (hf : ∀ q, q.Canon → (f q).Canon) :
    Keeps s0 (modGang s b g f) :=
  keeps_gangs h (forall_mem_updWhere hf)
theorem keeps_modBlock {s0 s : State} {b : Nat} {f : Block → Block} (h : Keeps s0 s) (hf : ∀ q, q.Canon → (f q).Canon) :
    Keeps s0 (modBlock s b f) :=
  keeps_blocks h (forall_mem_updWhere hf)
theorem keeps_setQueue {s0 s : State} {q : Nat} {x : HostQ} (h : Keeps s0 s) : Keeps s0 (setQueue s q x) :=
  keeps_queues h (sparse_wf_set _ _ _ _)

/-! ### A change of one part that Keeps does not speak of -/

theorem keeps_set_agenda {s0 s : State} {x : List Act} (h : Keeps s0 s) : Keeps s0 { s with agenda := x } := keeps_frame h rfl
theorem keeps_set_cur {s0 s : State} {x : Nat} (h : Keeps s0 s) : Keeps s0 { s with cur := x } := keeps_frame h rfl
theorem keeps_set_nextId {s0 s : State} {x : Nat} (h : Keeps s0 s) : Keeps s0 { s with nextId := x } := keeps_frame h rfl
theorem keeps_set_issueNo {s0 s : State} {x : Nat} (h : Keeps s0 s) : Keeps s0 { s with issueNo := x } := keeps_frame h rfl
theorem keeps_set_bundles {s0 s : State} {x : List Bundle} (h : Keeps s0 s) :
    Keeps s0 { s with bundles := x } := keeps_frame h rfl
theorem keeps_set_outst {s0 s : State} {x : List Outst} (h : Keeps s0 s) : Keeps s0 { s with outst := x } := keeps_frame h rfl
theorem keeps_set_claims {s0 s : State} {x : List (Nat × Nat × Nat)} (h : Keeps s0 s) :
    Keeps s0 { s with claims := x } := keeps_frame h rfl
theorem keeps_set_bars {s0 s : State} {x : List Bar} (h : Keeps s0 s) : Keeps s0 { s with bars := x } := keeps_frame h rfl
theorem keeps_set_copies {s0 s : State} {x : List CopyCmd} (h : Keeps s0 s) :
    Keeps s0 { s with copies := x } := keeps_frame h rfl
theorem keeps_set_masks {s0 s : State} {x : List MaskTile} (h : Keeps s0 s) :
    Keeps s0 { s with masks := x } := keeps_frame h rfl
theorem keeps_set_mops {s0 s : State} {x : List MOp} (h : Keeps s0 s) : Keeps s0 { s with mops := x } := keeps_frame h rfl
theorem keeps_set_tapins {s0 s : State} {x : List Tapin} (h : Keeps s0 s) : Keeps s0 { s with tapins := x } := keeps_frame h rfl
theorem keeps_set_ruleCopies {s0 s : State} {x : List RuleCopy} (h : Keeps s0 s) :
    Keeps s0 { s with ruleCopies := x } := keeps_frame h rfl
theorem keeps_set_jobs {s0 s : State} {x : List Job} (h : Keeps s0 s) : Keeps s0 { s with jobs := x } := keeps_frame h rfl
theorem keeps_set_killedJobs {s0 s : State} {x : List (Nat × Nat)} (h : Keeps s0 s) :
    Keeps s0 { s with killedJobs := x } := keeps_frame h rfl
theorem keeps_set_scopes {s0 s : State} {x : List Scope} (h : Keeps s0 s) : Keeps s0 { s with scopes := x } := keeps_frame h rfl
theorem keeps_set_conts {s0 s : State} {x : List Cont} (h : Keeps s0 s) : Keeps s0 { s with conts := x } := keeps_frame h rfl
theorem keeps_set_saves {s0 s : State} {x : List SaveRec} (h : Keeps s0 s) : Keeps s0 { s with saves := x } := keeps_frame h rfl
theorem keeps_set_lineErrs {s0 s : State} {x : List (Nat × LineErr)} (h : Keeps s0 s) :
    Keeps s0 { s with lineErrs := x } := keeps_frame h rfl
theorem keeps_set_pools {s0 s : State} {x : List Pool} (h : Keeps s0 s) : Keeps s0 { s with pools := x } := keeps_frame h rfl
theorem keeps_set_msix {s0 s : State} {x : List W32} (h : Keeps s0 s) : Keeps s0 { s with msix := x } := keeps_frame h rfl

/-! ### Composition -/

theorem keeps_foldl {α : Type} {s0 s : State} {xs : List α} {f : State → α → State} (h : Keeps s0 s)
    (hf : ∀ s x, Keeps s0 s → Keeps s0 (f s x)) : Keeps s0 (xs.foldl f s) := by
  induction xs generalizing s with
  | nil => exact h
  | cons x t ih => exact ih (hf s x h)
/-- A fold that carries a result beside the state. -/
theorem keeps_foldl_snd {α β : Type} {s0 : State} {q : β × State} {xs : List α} {f : β × State → α → β × State}
    (h : Keeps s0 q.2)
    (hf : ∀ q x, Keeps s0 q.2 → Keeps s0 (f q x).2) : Keeps s0 (xs.foldl f q).2 := by
  induction xs generalizing q with
  | nil => exact h
  | cons x t ih => exact ih (hf q x h)
/-- A fold that carries two results beside the state. -/
theorem keeps_foldl_snd_snd {α β γ : Type} {s0 : State} {q : β × γ × State} {xs : List α}
    {f : β × γ × State → α → β × γ × State}
    (h : Keeps s0 q.2.2) (hf : ∀ q x, Keeps s0 q.2.2 → Keeps s0 (f q x).2.2) : Keeps s0 (xs.foldl f q).2.2 := by
  induction xs generalizing q with
  | nil => exact h
  | cons x t ih => exact ih (hf q x h)
/-- The branches of a conditional; the state may stand beside a result. -/
theorem keeps_ite {s0 s t : State} {c : Prop} [Decidable c] (h : Keeps s0 s) (g : Keeps s0 t) :
    Keeps s0 (if c then s else t) := by
  split
  · exact h
  · exact g
theorem keeps_ite_snd {α : Type} {s0 : State} {p q : α × State} {c : Prop} [Decidable c] (h : Keeps s0 p.2) (g : Keeps s0 q.2) :
    Keeps s0 (if c then p else q).2 := by
  split
  · exact h
  · exact g
/-- A state that may be missing. -/
theorem keeps_getD {s0 d : State} {o : Option State} (ho : ∀ t, o = some t → Keeps s0 t) (hd : Keeps s0 d) :
    Keeps s0 (o.getD d) := by
  cases o with
  | none => exact hd
  | some t => exact ho t rfl
theorem keeps_elim {α : Type} {s0 d : State} {o : Option α} {f : α → State} (hd : Keeps s0 d) (hf : ∀ x, Keeps s0 (f x)) :
    Keeps s0 (o.elim d f) := by
  cases o with
  | none => exact hd
  | some x => exact hf x
/-- The state that a pair has been taken apart into. -/
theorem keeps_of_snd {α : Type} {s0 s : State} {p : α × State} {a : α} (e : p = (a, s)) (h : Keeps s0 p.2) : Keeps s0 s := by
  rw [e] at h
  exact h
theorem keeps_of_snd_snd {α β : Type} {s0 s : State} {p : α × β × State} {a : α} {b : β} (e : p = (a, b, s))
    (h : Keeps s0 p.2.2) :
    Keeps s0 s := by
  rw [e] at h
  exact h
theorem keeps_of_fst {α : Type} {s0 s : State} {p : State × α} {a : α} (e : p = (s, a)) (h : Keeps s0 p.1) : Keeps s0 s := by
  rw [e] at h
  exact h

/-! ### Outcomes -/

/-- An outcome keeps what Keeps speaks of, where it answers a next state. -/
def KeepsRes (s0 : State) (r : Res) : Prop := ∀ t, r = .next t → Keeps s0 t
/-- An effect keeps it, however it ends. -/
def KeepsOut (s0 : State) : IOut → Prop
  | .done s | .stay s | .stall s | .trap s _ => Keeps s0 s
/-- The checks of an issue keep it, however they end. -/
def KeepsPrep (s0 : State) : Prep → Prop
  | .out r => KeepsRes s0 r
  | .go _ s | .residue _ s _ => Keeps s0 s

theorem keepsRes_next {s0 s : State} (h : Keeps s0 s) : KeepsRes s0 (.next s) := fun _ e => by cases e; exact h
theorem keepsRes_fault {s0 : State} {f : Fault} : KeepsRes s0 (.fault f) := nofun
theorem keepsOut_done {s0 s : State} (h : Keeps s0 s) : KeepsOut s0 (.done s) := h
theorem keepsOut_stay {s0 s : State} (h : Keeps s0 s) : KeepsOut s0 (.stay s) := h
theorem keepsOut_stall {s0 s : State} (h : Keeps s0 s) : KeepsOut s0 (.stall s) := h
theorem keepsOut_trap {s0 s : State} {fs : List LaneFlt} (h : Keeps s0 s) : KeepsOut s0 (.trap s fs) := h
theorem keepsPrep_out {s0 : State} {r : Res} (h : KeepsRes s0 r) : KeepsPrep s0 (.out r) := h
theorem keepsPrep_go {s0 s : State} {i : Iss} (h : Keeps s0 s) : KeepsPrep s0 (.go i s) := h
theorem keepsPrep_residue {s0 s : State} {i : Iss} {f : LaneFlt} (h : Keeps s0 s) : KeepsPrep s0 (.residue i s f) := h
theorem keepsRes_ite {s0 : State} {q r : Res} {c : Prop} [Decidable c] (h : KeepsRes s0 q) (g : KeepsRes s0 r) :
    KeepsRes s0 (if c then q else r) := by
  split
  · exact h
  · exact g
theorem keepsOut_ite {s0 : State} {q r : IOut} {c : Prop} [Decidable c] (h : KeepsOut s0 q) (g : KeepsOut s0 r) :
    KeepsOut s0 (if c then q else r) := by
  split
  · exact h
  · exact g
theorem keepsPrep_ite {s0 : State} {q r : Prep} {c : Prop} [Decidable c] (h : KeepsPrep s0 q) (g : KeepsPrep s0 r) :
    KeepsPrep s0 (if c then q else r) := by
  split
  · exact h
  · exact g

end Sys2Proof.Machine
end

section
/-! PROOF. What the operations up to the issue of an instruction keep (O48). -/

namespace Sys2Proof.Machine
open Laws

/-! ### Threads, gangs, blocks, bundles -/

theorem keeps_modBundle {s0 s : State} {i : Nat} {f : Bundle → Bundle} (h : Keeps s0 s) : Keeps s0 (modBundle s i f) :=
  keeps_frame h rfl
theorem keeps_modCtx {s0 s : State} {c : Nat} {f : Ctx → Ctx} (h : Keeps s0 s) : Keeps s0 (modCtx s c f) :=
  keeps_frame h rfl
theorem keeps_modJob {s0 s : State} {c n : Nat} {f : Job → Job} (h : Keeps s0 s) : Keeps s0 (modJob s c n f) :=
  keeps_frame h rfl
theorem keeps_modScope {s0 s : State} {c i : Nat} {f : Scope → Scope} (h : Keeps s0 s) : Keeps s0 (modScope s c i f) :=
  keeps_frame h rfl
theorem keeps_modAcc {s0 s : State} {b n : Nat} {f : Acc → Acc} (h : Keeps s0 s) : Keeps s0 (modAcc s b n f) :=
  keeps_frame h rfl
theorem keeps_modOpSlot {s0 s : State} {b n : Nat} {f : OpSlot → OpSlot} (h : Keeps s0 s) : Keeps s0 (modOpSlot s b n f) :=
  keeps_frame h rfl
theorem keeps_modCopy {s0 s : State} {i : Nat} {f : CopyCmd → CopyCmd} (h : Keeps s0 s) : Keeps s0 (modCopy s i f) :=
  keeps_frame h rfl
theorem keeps_dropOutst {s0 s : State} {i : Nat} (h : Keeps s0 s) : Keeps s0 (dropOutst s i) :=
  keeps_frame h rfl
theorem keeps_fresh {s0 s : State} (h : Keeps s0 s) : Keeps s0 (fresh s).2 :=
  keeps_frame h rfl
theorem keeps_freshFree {s0 s : State} (h : Keeps s0 s) : Keeps s0 (freshFree s).2 :=
  keeps_frame h rfl

/-! ### Block facts -/

theorem keeps_modRing {s0 s : State} {core id : Nat} {f : Ring → Ring} (h : Keeps s0 s) : Keeps s0 (modRing s core id f) :=
  keeps_frame h rfl

/-! ### Notifications to the host (24 R399) -/

theorem keeps_notify {s0 s : State} {q : Nat} {n : Note} (h : Keeps s0 s) : Keeps s0 (notify s q n) := by
  unfold notify
  exact keeps_setQueue h
theorem keeps_tickCycle {s0 s : State} {core : Nat} (h : Keeps s0 s) : Keeps s0 (tickCycle s core) :=
  keeps_frame h rfl

/-! ### The machine-check log (21 R370-R372) -/

/-- A change of the configuration that sets no budget, and of the log. -/
theorem keeps_cfg_mclog {s0 s : State} (h : Keeps s0 s) (c : Config) (l : List (BitVec 512)) (hc : c.budgets = s.cfg.budgets) :
    Keeps s0 { s with cfg := c, mclog := l } :=
  keeps_frame h (by simp only [keptParts, hc])
theorem keeps_appendMck {s0 s : State} {seq : Nat} {rec_ : BitVec 512} (h : Keeps s0 s) : Keeps s0 (appendMck s seq rec_) :=
  keeps_writeBytes (keeps_cfg_mclog h _ _ rfl)
theorem keeps_writeMck {s0 s : State} {m : McRec} (h : Keeps s0 s) : Keeps s0 (writeMck s m) := by
  unfold writeMck
  dsimp only
  split
  · exact keeps_notify (keeps_appendMck (keeps_ite (keeps_tickCycle (keeps_freshFree h)) (keeps_freshFree h)))
  · exact keeps_appendMck (keeps_ite (keeps_tickCycle (keeps_freshFree h)) (keeps_freshFree h))
theorem keeps_logMck {s0 s : State} {m : McRec} (h : Keeps s0 s) : Keeps s0 (logMck s m) := by
  unfold logMck
  dsimp only
  split
  · exact keeps_ite (keeps_frame h rfl) (keeps_writeMck (keeps_frame h rfl))
  · exact keeps_writeMck h

/-! ### Errors of lines of memory (21 R369) -/

theorem keeps_lineHolder {s0 s : State} (h : Keeps s0 s) : Keeps s0 (lineHolder s).2 :=
  keeps_frame h rfl
theorem keeps_meetLine {s0 s : State} {pa : Nat} {by_ : McRec} (h : Keeps s0 s) : Keeps s0 (meetLine s pa by_) := by
  unfold meetLine
  dsimp only
  split
  · exact h
  · exact keeps_ite h (keeps_frame h rfl)
  · exact keeps_logMck (keeps_ite_snd (keeps_lineHolder (keeps_frame h rfl)) (keeps_frame h rfl))
theorem keeps_settleFound {s0 s : State} (h : Keeps s0 s) : Keeps s0 (settleFound s) :=
  keeps_frame h rfl
theorem keeps_renewLine {s0 s : State} {l : Nat} (h : Keeps s0 s) : Keeps s0 (renewLine s l) :=
  keeps_frame h rfl
theorem keeps_meetLines {s0 s : State} {pa n : Nat} {by_ : McRec} (h : Keeps s0 s) : Keeps s0 (meetLines s pa n by_) := by
  unfold meetLines
  exact keeps_foldl h (fun _ _ h1 => keeps_meetLine h1)
theorem keeps_strikeLine {s0 s : State} {l : Nat} {e : LineErr} (h : Keeps s0 s) : Keeps s0 (strikeLine s l e) := by
  unfold strikeLine
  exact keeps_ite h (keeps_frame h rfl)

/-! ### Walks -/

theorem keeps_meetAll {s0 s : State} {r : Rv} (h : Keeps s0 s) : Keeps s0 (meetAll s r) := by
  unfold meetAll
  dsimp only
  split
  · exact keeps_meetLine (keeps_foldl h (fun _ _ h2 => keeps_meetLine h2))
  · exact keeps_foldl h (fun _ _ h1 => keeps_meetLine h1)
@[simp] theorem Rv_put_mem (r : Rv) (n : Nat) (v : W64) : (r.put n v).mem = r.mem := by
  unfold Rv.put
  split <;> rfl
/-- An instruction of a walk routine leaves memory as it is, or puts bytes into it. -/
theorem rvStep_wf {meets : Nat → Option WalkStop} {store : Sparse Byte} {r r' : Rv} (e : rvStep meets store r = some r')
    (h : Memory.wf r.mem = true) : Memory.wf r'.mem = true := by
  have kept {u : Rv} (e : some u = some r') (hu : u.mem = r.mem) : Memory.wf r'.mem = true := by
    cases e
    rw [hu]
    exact h
  have mapped {o : Option Nat} {n : Nat} {f : Nat → W64} (e : (o.map fun x => (r.put n (f x)).next) = some r') :
      Memory.wf r'.mem = true := by
    obtain ⟨x, -, hx⟩ := Option.map_eq_some_iff.mp e
    exact kept (congrArg some hx) (Rv_put_mem ..)
  unfold rvStep at e
  dsimp only at e
  split at e
  · exact kept e (Rv_put_mem ..)
  · exact kept e (Rv_put_mem ..)
  · exact kept e (Rv_put_mem ..)
  · exact kept e (Rv_put_mem ..)
  · generalize (match natBits _ 12 3 with | 0 => _ | 1 => _ | 4 => _ | 5 => _ | 6 => _ | 7 => _ | _ => _ : Option Bool) = c at e
    split at e
    · exact kept e rfl
    · exact kept e rfl
    · cases e
  · split at e
    · cases e
    · split at e
      · exact kept e rfl
      · exact kept e (Rv_put_mem ..)
  · split at e
    · cases e
    · split at e
      · exact kept e rfl
      · cases e
        exact putBytes_wf _ _ _ h
  · exact mapped e
  · exact mapped e
  · exact mapped e
  · split at e
    · cases e
    · split at e
      · cases e
      · exact mapped e
  · exact kept e rfl
  · cases e
theorem rvRun_wf (meets : Nat → Option WalkStop) (store : Sparse Byte) (fuel : Nat) (r : Rv) (h : Memory.wf r.mem = true) :
    Memory.wf (rvRun meets store fuel r).1.mem = true := by
  induction fuel generalizing r with
  | zero => exact h
  | succ n ih =>
    unfold rvRun
    split
    · exact h
    · split
      · rename_i r' e
        exact ih r' (rvStep_wf e h)
      · exact h
theorem rvStart_load_mem (r : Rv) (n : Nat) (args : List W64) : (rvStart.load r n args).mem = r.mem := by
  induction args generalizing r n with
  | nil => rfl
  | cons v t ih => exact (ih _ _).trans (Rv_put_mem ..)
@[simp] theorem rvStart_mem (s : State) (entry : Nat) (args : List W64) : (rvStart s entry args).mem = s.mem :=
  (rvStart_load_mem ..).trans (Rv_put_mem ..)
theorem keeps_runWalk {s0 s : State} {c : Ctx} {kind va : Nat} (h : Keeps s0 s) : Keeps s0 (runWalk s c kind va).2 := by
  have hwalked (m : List Host.Cell) (n : Nat) (hm : Memory.wf s.mem = true → Memory.wf m = true) :
      Keeps s0 { s with mem := m, act := { s.act with walks := n } } :=
    keeps_frame (keeps_mem h hm) rfl
  have hall := hwalked (rvRun (walkMeets s) s.walkStore Config.walkLimit
    (rvStart s (natBits c.walk.toNat 0 16) [BitVec.ofNat 64 va, BitVec.ofNat 64 c.id, c.root, BitVec.ofNat 64 kind])).1.mem
    (s.act.walks + 1) fun hm => rvRun_wf _ _ _ _ (by rw [rvStart_mem]; exact hm)
  unfold runWalk
  dsimp only
  split <;> exact keeps_meetAll hall

/-! ### Cached translations -/

theorem keeps_tlbFillAll {s0 s : State} {a : Asker} {ctx va : Nat} {word : W64} (h : Keeps s0 s) :
    Keeps s0 (tlbFillAll s a ctx va word) :=
  keeps_frame h rfl
theorem keeps_tlbFillBelow {s0 s : State} {a : Asker} {e : TlbE} {ctx va : Nat} (h : Keeps s0 s) :
    Keeps s0 (tlbFillBelow s a e ctx va) :=
  keeps_frame h rfl
theorem keeps_tlbForget {s0 s : State} {a : Asker} {ctx va : Nat} (h : Keeps s0 s) : Keeps s0 (tlbForget s a ctx va) :=
  keeps_frame h rfl
theorem keeps_mapAddr {s0 s : State} {a : Asker} {ctx : Nat} {kernel : Bool} {kind va : Nat} (h : Keeps s0 s) :
    Keeps s0 (mapAddr s a ctx kernel kind va).2 := by
  unfold mapAddr
  refine keeps_ite_snd h ?_
  split
  · exact h
  · extract_lets walkIt
    have hwalk : Keeps s0 walkIt.2 := by
      unfold walkIt
      split <;> rename_i e
      · exact keeps_of_snd e (keeps_runWalk h)
      · exact keeps_of_snd e (keeps_runWalk h)
      · exact keeps_of_snd e (keeps_runWalk h)
      · exact keeps_tlbForget (keeps_of_snd e (keeps_runWalk h))
      · have hfilled {word : W64} {b : Asker} {c v : Nat} := keeps_tlbFillAll (a := b) (ctx := c) (va := v) (word := word)
          (keeps_of_snd e (keeps_runWalk h))
        exact keeps_ite_snd hfilled hfilled
    split
    · exact h
    · split
      · exact keeps_ite_snd hwalk (keeps_tlbFillBelow h)
      · exact hwalk
theorem keeps_tlbDrop {s0 s : State} {p : TlbE → Bool} (h : Keeps s0 s) : Keeps s0 (tlbDrop s p) :=
  keeps_frame h rfl

/-! ### Waking: stalled bundles look again -/

theorem keeps_unstall {s0 s : State} (h : Keeps s0 s) : Keeps s0 (unstall s) :=
  keeps_frame h rfl

/-! ### Translation, and the errors of the line that it leads to -/

theorem keeps_translate {s0 s : State} {a : Asker} {ctx : Nat} {kernel : Bool} {kind va : Nat} {by_ : McRec} (h : Keeps s0 s) :
    Keeps s0 (translate s a ctx kernel kind va by_).2 := by
  unfold translate
  split
  · rename_i e4
    split
    · exact keeps_meetLine (keeps_of_snd e4 (keeps_mapAddr h))
    · exact keeps_of_snd e4 (keeps_mapAddr h)
  · exact keeps_mapAddr h

/-! ### Writes on behalf of a context -/

theorem keeps_ctxWrite {s0 s : State} {ctx : Nat} {kernel : Bool} {va : Nat} {bytes : List Byte} {t : State}
    (e : ctxWrite s ctx kernel va bytes = some t) (h : Keeps s0 s) : Keeps s0 t := by
  unfold ctxWrite at e
  dsimp only at e
  split at e
  · rename_i e4
    split at e
    · cases e
    · cases e
      exact keeps_writeBytes (keeps_meetLines (keeps_of_snd e4 (keeps_translate h)))
  · cases e
theorem keeps_ctxMeet {s0 s : State} {ctx : Nat} {kernel : Bool} {va n : Nat} (h : Keeps s0 s) :
    Keeps s0 (ctxMeet s ctx kernel va n) := by
  unfold ctxMeet
  split
  · rename_i e4
    exact keeps_meetLines (keeps_of_snd e4 (keeps_translate h))
  · rename_i e9
    exact keeps_of_snd e9 (keeps_translate h)
theorem keeps_ctxRead {s0 s : State} {ctx : Nat} {kernel : Bool} {va n : Nat} (h : Keeps s0 s) :
    Keeps s0 (ctxRead s ctx kernel va n).2 := by
  unfold ctxRead
  dsimp only
  split
  · rename_i e4
    exact keeps_meetLines (keeps_of_snd e4 (keeps_translate h))
  · rename_i e9
    exact keeps_of_snd e9 (keeps_translate h)

/-! ### Releases and the tags of global words (08 R167, R179) -/

theorem keeps_bumpRel {s0 s : State} {blk : Nat} (h : Keeps s0 s) : Keeps s0 (bumpRel s blk) := by
  unfold bumpRel
  exact keeps_modBlock h (fun _ hx => hx)
theorem keeps_tagGlobal {s0 s : State} {pa n : Nat} {t : GTag} (h : Keeps s0 s) : Keeps s0 (tagGlobal s pa n t) :=
  keeps_frame h rfl
theorem keeps_setWord {s0 s : State} {pa : Nat} {r : FutRel} (h : Keeps s0 s) : Keeps s0 (setWord s pa r) :=
  keeps_frame h rfl

/-! ### Trace records (23 R390, R391) -/

theorem keeps_traceDrop {s0 s : State} {ctx : Nat} (h : Keeps s0 s) : Keeps s0 (traceDrop s ctx) :=
  keeps_frame h rfl
theorem keeps_traceRelease {s0 s : State} {blk pa : Nat} {rec_ : BitVec 512} (h : Keeps s0 s) :
    Keeps s0 (traceRelease s blk pa rec_) := by
  unfold traceRelease
  exact keeps_foldl (keeps_bumpRel h) (fun _ _ h1 => keeps_setWord h1)
theorem keeps_freeWalks {s0 s t : State} (h : Keeps s0 t) : Keeps s0 (freeWalks s t) :=
  keeps_frame h rfl
theorem keeps_traceRec {s0 s : State} {ctx kind bits blk : Nat} (h : Keeps s0 s) : Keeps s0 (traceRec s ctx kind bits blk) := by
  have hspend {u : State} (hu : Keeps s0 u) :
      Keeps s0 (modCtx { u with act := { u.act with trace := u.act.trace + 64 } } ctx
        (fun c => { c with traceSpent := c.traceSpent + 64 })) := keeps_frame hu rfl
  unfold traceRec
  split
  · exact h
  · dsimp only
    split
    · exact keeps_traceDrop h
    split
    · exact keeps_frame h rfl
    split
    · exact keeps_traceDrop h
    split
    · rename_i s1 _ e _
      exact keeps_modCtx (hspend (keeps_traceRelease (keeps_freeWalks (keeps_ctxWrite e h))))
    · exact keeps_traceDrop (keeps_freeWalks (keeps_ctxMeet h))
theorem keeps_traceStore {s0 s : State} {blk gang lane pa : Nat} {bytes : List Byte} {i : StoreInfo} (h : Keeps s0 s) :
    Keeps s0 (traceStore s blk gang lane pa bytes i) := by
  unfold traceStore
  dsimp only
  split
  · exact h
  · split
    · exact h
    · split
      · exact keeps_ite (keeps_traceRec (keeps_ite (keeps_traceRec h) h)) (keeps_ite (keeps_traceRec h) h)
      · exact keeps_ite (keeps_traceRec h) h

/-! ### Faults and machine checks -/

theorem keeps_addMcheck {s0 s : State} {blk : Nat} {m : MCheck} (h : Keeps s0 s) : Keeps s0 (addMcheck s blk m) := by
  unfold addMcheck
  dsimp only
  split
  · exact h
  · exact keeps_modBlock (keeps_tickCycle (keeps_ite (keeps_settleFound h) h)) (fun _ hx => hx)
theorem keeps_logCheck {s0 s : State} {b : Block} {outcome : Nat} {m : MCheck} (h : Keeps s0 s) :
    Keeps s0 (logCheck b outcome s m) := by
  unfold logCheck
  split
  · rename_i e4
    exact keeps_logMck (keeps_of_snd e4 (keeps_ite_snd (keeps_lineHolder h) h))
theorem keeps_logChecks {s0 s : State} {b : Block} {outcome : Nat} (h : Keeps s0 s) : Keeps s0 (logChecks s b outcome) := by
  unfold logChecks
  exact keeps_modBlock (keeps_foldl h (fun _ _ h2 => keeps_logCheck h2)) (fun _ hx => hx)
theorem keeps_logKilled {s0 s : State} {b : Block} {m : MCheck} (h : Keeps s0 s) : Keeps s0 (logKilled s b m) := by
  unfold logKilled
  exact keeps_logCheck (keeps_tickCycle (keeps_ite (keeps_settleFound h) h))

/-! ### Errors in checked storage (21 R368, R371, R380) -/

theorem keeps_correctErrs {s0 s : State} {b : Block} {op : Nat} {pc : W64} {gang lane : Nat} {es : List StoreErr}
    (h : Keeps s0 s) : Keeps s0 (correctErrs s b op pc gang lane es) := by
  unfold correctErrs
  split
  · exact h
  · exact keeps_modBlock (keeps_foldl h (fun _ _ h2 => keeps_logMck h2)) (fun _ hx => hx)
theorem keeps_healErrs {s0 s : State} {blk : Nat} {p : ErrAt → Bool} (h : Keeps s0 s) : Keeps s0 (healErrs s blk p) := by
  unfold healErrs
  exact keeps_modBlock h (fun _ hx => hx)
theorem keeps_strikeErr {s0 s : State} {blk : Nat} {e : StoreErr} (h : Keeps s0 s) : Keeps s0 (strikeErr s blk e) := by
  unfold strikeErr
  exact keeps_modBlock h (fun _ hx => hx)
theorem keeps_askSave {s0 s : State} {blk : Nat} {r : SaveReq} (h : Keeps s0 s) : Keeps s0 (askSave s blk r) := by
  unfold askSave
  split
  · exact h
  · refine keeps_blocks h (forall_mem_updWhere fun b hb => ?_)
    split
    · exact hb
    · split <;> exact hb
theorem keeps_raise {s0 s : State} {blk op : Nat} {pc : W64} {fs : List LaneFlt} (h : Keeps s0 s) :
    Keeps s0 (raise s blk op pc fs) := by
  unfold raise
  dsimp only
  split
  · exact keeps_foldl (keeps_foldl h (fun _ _ h2 => keeps_addMcheck h2)) (fun _ _ h1 => keeps_modThread h1 (fun _ hx => hx))
  · exact keeps_askSave (keeps_foldl (keeps_foldl h (fun _ _ h3 => keeps_addMcheck h3))
        (fun _ _ h2 => keeps_modThread h2 (fun _ hx => hx)))

/-! ### Rollback: cellar, hold queue, irrevocable events (21 R374-R377) -/

theorem keeps_spendBytes {s0 s : State} {blk n : Nat} (h : Keeps s0 s) : Keeps s0 (spendBytes s blk n) := by
  unfold spendBytes
  split
  · exact keeps_modCtx h
  · exact h
theorem keeps_dirtyLine {s0 s : State} {blk pa : Nat} (h : Keeps s0 s) : Keeps s0 (dirtyLine s blk pa) := by
  unfold dirtyLine
  split
  · exact keeps_frame h rfl
  · exact h
theorem keeps_storeGlobal {s0 s : State} {blk gang lane pa : Nat} {bytes : List Byte} {i : StoreInfo} (h : Keeps s0 s) :
    Keeps s0 (storeGlobal s blk gang lane pa bytes i) := by
  unfold storeGlobal
  dsimp only
  split
  · exact keeps_tagGlobal (keeps_writeBytes (keeps_dirtyLine (keeps_spendBytes (keeps_traceStore h))))
  · exact keeps_writeBytes (keeps_dirtyLine (keeps_spendBytes (keeps_traceStore h)))
theorem keeps_commitStore {s0 s : State} {blk gang lane pa : Nat} {bytes : List Byte} {i : StoreInfo} (h : Keeps s0 s) :
    Keeps s0 (commitStore s blk gang lane pa bytes i) := by
  unfold commitStore
  dsimp only
  split
  · exact keeps_storeGlobal (keeps_meetLine h)
  · exact keeps_raise (keeps_meetLine h)
theorem keeps_drainOne {s0 s : State} {blk : Nat} {h : Held} (hk : Keeps s0 s) : Keeps s0 (drainOne s blk h) := by
  unfold drainOne
  exact keeps_commitStore hk
theorem keeps_drainSome {s0 s : State} {blk : Nat} {pick : List Held → List Held × List Held} (h : Keeps s0 s) :
    Keeps s0 (drainSome s blk pick) := by
  unfold drainSome
  dsimp only
  split
  · exact h
  · split
    · exact h
    · split
      · exact keeps_modBlock (keeps_foldl (keeps_correctErrs h) (fun _ _ h2 => keeps_drainOne h2)) (fun _ hx => hx)
      · exact keeps_raise (keeps_correctErrs h)
theorem keeps_drainHold {s0 s : State} {blk : Nat} (h : Keeps s0 s) : Keeps s0 (drainHold s blk) := by
  unfold drainHold
  exact keeps_drainSome h
theorem keeps_irrevocable {s0 s : State} {blk : Nat} (h : Keeps s0 s) : Keeps s0 (irrevocable s blk) := by
  unfold irrevocable
  split
  · exact h
  · split
    · exact keeps_ite (keeps_modBlock (keeps_drainHold h) (fun _ hx => hx)) (keeps_drainHold h)
    · exact h
theorem keeps_noteDirty {s0 s : State} {blk cost : Nat} {known : Block → Bool} {add : Block → Block} (h : Keeps s0 s)
    (hadd : ∀ b, b.Canon → (add b).Canon) : Keeps s0 (noteDirty s blk cost known add) := by
  unfold noteDirty
  split
  · exact h
  · split
    · split
      · exact keeps_modBlock (keeps_frame h rfl) hadd
      · exact keeps_irrevocable h
    · exact h
theorem keeps_noteRow {s0 s : State} {blk g r : Nat} (h : Keeps s0 s) : Keeps s0 (noteRow s blk g r) := by
  unfold noteRow
  exact keeps_noteDirty h (fun _ hx => hx)
theorem keeps_noteLine {s0 s : State} {blk line : Nat} (h : Keeps s0 s) : Keeps s0 (noteLine s blk line) := by
  unfold noteLine
  exact keeps_noteDirty h (fun _ hx => hx)
theorem keeps_noteAcc {s0 s : State} {blk n : Nat} (h : Keeps s0 s) : Keeps s0 (noteAcc s blk n) := by
  unfold noteAcc
  exact keeps_noteDirty h (fun _ hx => hx)
theorem keeps_noteMask {s0 s : State} {blk n : Nat} (h : Keeps s0 s) : Keeps s0 (noteMask s blk n) := by
  unfold noteMask
  exact keeps_noteDirty h (fun _ hx => hx)
theorem keeps_performStore {s0 s : State} {blk gang lane pa : Nat} {bytes : List Byte} {i : StoreInfo} (h : Keeps s0 s) :
    Keeps s0 (performStore s blk gang lane pa bytes i) := by
  unfold performStore
  dsimp only
  split
  · exact keeps_commitStore h
  · split
    · split
      · exact keeps_modBlock h (fun _ hx => hx)
      · exact keeps_ite (keeps_commitStore (keeps_irrevocable h)) (keeps_irrevocable h)
    · exact keeps_commitStore h

/-! ### Scratchpad -/

theorem keeps_writeScratch {s0 s : State} {blk off : Nat} {bytes : List Byte} (h : Keeps s0 s) :
    Keeps s0 (writeScratch s blk off bytes) :=
  keeps_modBlock (keeps_foldl h fun _ _ hs => keeps_noteLine hs) fun _ ⟨hrecs, hscratch⟩ => ⟨hrecs, putBytes_wf _ _ _ hscratch⟩

/-! ### Writing results -/

theorem keeps_setV {s0 s : State} {b g l r : Nat} {x : W32} (h : Keeps s0 s) : Keeps s0 (setV s b g l r x) :=
  keeps_modBlock (keeps_modThread (keeps_noteRow h) fun _ ht => sparse_wf_set _ _ _ _ ht) fun _ hb => hb
theorem keeps_setS {s0 s : State} {b g r : Nat} {x : W64} (h : Keeps s0 s) : Keeps s0 (setS s b g r x) :=
  keeps_healErrs (keeps_modGang h fun _ hg => sparse_wf_set _ _ _ _ hg)
theorem keeps_setP {s0 s : State} {b g l n : Nat} {v : Bool} (h : Keeps s0 s) : Keeps s0 (setP s b g l n v) := by
  unfold setP
  exact keeps_modThread h (fun _ hx => hx)
theorem keeps_putReg {s0 s : State} {b g l : Nat} {d : Reg} {n v : Nat} (h : Keeps s0 s) : Keeps s0 (putReg s b g l d n v) := by
  unfold putReg
  dsimp only
  split
  · exact keeps_foldl h (fun _ _ h1 => keeps_setV h1)
  · exact keeps_foldl h (fun _ _ h1 => keeps_setS h1)
theorem keeps_commit {s0 s : State} {d : Reg} {n : Nat} {outs : List (Lane × Nat)} (h : Keeps s0 s) :
    Keeps s0 (commit s d n outs) := by
  unfold commit
  exact keeps_foldl h (fun _ _ h1 => keeps_ite (keeps_putReg h1) h1)
theorem keeps_commitP {s0 s : State} {d : Reg} {outs : List (Lane × Bool)} (h : Keeps s0 s) : Keeps s0 (commitP s d outs) := by
  unfold commitP
  exact keeps_foldl h (fun _ _ h1 => keeps_setP h1)

/-! ### Outstanding results (02 R29, R30; 08 R170-R174; log 5) -/

theorem keeps_addOutst {s0 s : State} {issue : Nat} {x : Lane} {cls : OCls} {op : OOp} {rel acq : Bool} (h : Keeps s0 s) :
    Keeps s0 (addOutst s issue x cls op rel acq).2 :=
  keeps_frame h rfl
theorem keeps_updOutst {s0 s : State} {id : Nat} {f : Outst → Outst} (h : Keeps s0 s) : Keeps s0 (updOutst s id f) :=
  keeps_frame h rfl
theorem keeps_sweepFences {s0 s : State} (h : Keeps s0 s) : Keeps s0 (sweepFences s) :=
  keeps_frame h rfl

/-! ### Performing outstanding accesses (08 R170-R174, R183 -/

theorem keeps_entryWrite {s0 s : State} {o : Outst} {sp : Space} {addr n v : Nat} {i : StoreInfo} (h : Keeps s0 s) :
    Keeps s0 (entryWrite s o sp addr n v i) := by
  unfold entryWrite
  split
  · exact keeps_writeScratch h
  · exact keeps_commitStore h
theorem keeps_meetSpace {s0 s : State} {o : Outst} {sp : Space} {a : Nat} {i : StoreInfo} (h : Keeps s0 s) :
    Keeps s0 (meetSpace s o sp a i) := by
  unfold meetSpace
  split
  · exact keeps_meetLine h
  · exact h
theorem keeps_correctHold {s0 s : State} {blk gang lane : Nat} {sp : Space} {a n : Nat} {i : StoreInfo} (h : Keeps s0 s) :
    Keeps s0 (correctHold s blk gang lane sp a n i) := by
  unfold correctHold
  split
  · exact keeps_correctErrs h
  · exact h
theorem keeps_spendRead {s0 s : State} {blk : Nat} {sp : Space} {n : Nat} (h : Keeps s0 s) :
    Keeps s0 (spendRead s blk sp n) := by
  unfold spendRead
  split
  · exact keeps_spendBytes h
  · exact h
theorem keeps_performOne {s0 s : State} {o : Outst} (h : Keeps s0 s) : Keeps s0 (performOne s o) := by
  unfold performOne
  dsimp only
  split
  · split
    · exact keeps_dropOutst (keeps_raise (keeps_meetSpace h))
    · exact keeps_updOutst (keeps_spendRead (keeps_correctHold (keeps_meetSpace h)))
  · refine keeps_dropOutst ?_
    split
    · exact h
    · split
      · exact keeps_writeScratch h
      · exact keeps_performStore h
  · exact keeps_ite (keeps_updOutst (keeps_entryWrite h)) (keeps_dropOutst (keeps_entryWrite h))
  · split
    · exact keeps_dropOutst (keeps_entryWrite h)
    · exact keeps_updOutst (keeps_ite (keeps_entryWrite h) (keeps_spendRead h))
  · exact h
theorem keeps_force {s0 s : State} {fuel id : Nat} (h : Keeps s0 s) : Keeps s0 (force fuel s id) := by
  induction fuel generalizing s id with
  | zero => exact h
  | succ n ih =>
    unfold force
    split
    · exact h
    · dsimp only
      split
      · split
        · exact keeps_foldl h fun _ _ hs => ih hs
        · exact keeps_performOne (keeps_foldl h fun _ _ hs => ih hs)
      · exact h
theorem keeps_performNow {s0 s : State} {id : Nat} (h : Keeps s0 s) : Keeps s0 (performNow s id) := by
  unfold performNow
  exact keeps_sweepFences (keeps_force h)
theorem keeps_settleFences {s0 s : State} {b g l : Nat} {writes : Bool} (h : Keeps s0 s) :
    Keeps s0 (settleFences s b g l writes) := by
  unfold settleFences
  split
  · exact h
  · exact keeps_sweepFences (keeps_foldl h (fun _ _ h2 => keeps_force h2))
theorem keeps_drainThread {s0 s : State} {b g l : Nat} (h : Keeps s0 s) : Keeps s0 (drainThread s b g l) := by
  unfold drainThread
  exact keeps_sweepFences (keeps_foldl h (fun _ _ h2 => keeps_force h2))
theorem keeps_drainBytes {s0 s : State} {b g l : Nat} {sp : Space} {addr n : Nat} (h : Keeps s0 s) :
    Keeps s0 (drainBytes s b g l sp addr n) := by
  unfold drainBytes
  exact keeps_sweepFences (keeps_foldl h (fun _ _ h2 => keeps_force h2))
theorem keeps_deliverReg {s0 s : State} {b g l : Nat} {d : Reg} {n v : Nat} (h : Keeps s0 s) :
    Keeps s0 (deliverReg s b g l d n v) := by
  unfold deliverReg
  dsimp only
  split
  · exact h
  · split
    · exact keeps_ite (keeps_putReg (keeps_putReg h)) (keeps_putReg h)
    · exact keeps_putReg h
theorem keeps_landWait {s0 s : State} {b g l : Nat} (h : Keeps s0 s) : Keeps s0 (landWait s b g l) := by
  unfold landWait
  split
  · exact keeps_modBlock (keeps_modThread h (fun _ hx => hx)) (fun _ hx => hx)
  · exact h
theorem keeps_deliverKept {s0 s : State} {b g l : Nat} {d : Option Reg} {n v : Nat} (h : Keeps s0 s) :
    Keeps s0 (deliverKept s b g l d n v) := by
  unfold deliverKept
  split
  · exact keeps_landWait (keeps_deliverReg h)
  · exact h
theorem keeps_deliverP {s0 s : State} {b g l n : Nat} {v : Bool} (h : Keeps s0 s) : Keeps s0 (deliverP s b g l n v) := by
  unfold deliverP
  dsimp only
  split
  · exact keeps_ite (keeps_setP (keeps_setP h)) (keeps_setP h)
  · exact keeps_setP h
theorem keeps_landFlip {s0 s : State} {o : Outst} {d : Reg} (h : Keeps s0 s) : Keeps s0 (landFlip s o d) := by
  unfold landFlip
  exact keeps_ite h (keeps_modBlock h (fun _ hx => hx))
theorem keeps_returnEntry {s0 s : State} {o : Outst} (h : Keeps s0 s) : Keeps s0 (returnEntry s o) := by
  unfold returnEntry
  dsimp only
  split
  · exact keeps_dropOutst (keeps_landFlip (keeps_deliverReg h))
  · exact keeps_dropOutst (keeps_deliverReg h)
  · refine keeps_dropOutst (keeps_landFlip ?_)
    split
    · exact keeps_deliverP (keeps_deliverReg h)
    · exact keeps_deliverReg h
  · exact h
theorem keeps_addReply {s0 s : State} {issue : Nat} {x : Lane} {cls : OCls} {d : Reg} {w v : Nat} {p : Option (Nat × Bool)}
    (h : Keeps s0 s) : Keeps s0 (addReply s issue x cls d w v p) :=
  keeps_frame h rfl

/-! ### Translation at issue -/

theorem keeps_laneXlate {s0 s : State} {x : Lane} {kind va : Nat} (h : Keeps s0 s) : Keeps s0 (laneXlate s x kind va).2 := by
  unfold laneXlate
  split
  · rename_i e4
    exact keeps_of_snd e4 (keeps_translate h)
  · rename_i e7
    exact keeps_of_snd e7 (keeps_translate h)
  · rename_i e10
    exact keeps_of_snd e10 (keeps_translate h)
  · rename_i e14
    exact keeps_of_snd e14 (keeps_translate h)

/-! ### Race checks -/

theorem keeps_tagScratch {s0 s : State} {blk gang lane off n : Nat} {writes plain : Bool} {issue : Nat} (h : Keeps s0 s) :
    Keeps s0 (tagScratch s blk gang lane off n writes plain issue) := by
  unfold tagScratch
  exact keeps_modBlock h (fun _ hx => hx)
theorem keeps_raiseAcq {s0 s : State} {blk other count : Nat} (h : Keeps s0 s) : Keeps s0 (raiseAcq s blk other count) := by
  unfold raiseAcq
  exact keeps_modBlock h (fun _ hx => hx)
theorem keeps_acquireTag {s0 s : State} {blk scope : Nat} {t : GTag} (h : Keeps s0 s) :
    Keeps s0 (acquireTag s blk scope t) := by
  unfold acquireTag
  split
  · exact keeps_ite (keeps_raiseAcq h) h
  · exact h
theorem keeps_acquireWords {s0 s : State} {blk pa n scope : Nat} (h : Keeps s0 s) :
    Keeps s0 (acquireWords s blk pa n scope) := by
  unfold acquireWords
  exact keeps_foldl h (fun _ _ h1 => keeps_acquireTag h1)

/-! ### The whole path of one lane's access -/

theorem keeps_targetRaw {s0 s : State} {x : Lane} {r : Rec} {a : Reg} {off : Int} {sz : Nat} {m : AMode} {aop : Option Nat}
    {issue : Nat} (h : Keeps s0 s) : Keeps s0 (targetRaw s x r a off sz m aop issue).2 := by
  unfold targetRaw
  split
  · exact h
  · exact h
  · split
    · split
      · exact h
      · split
        · exact h
        · exact keeps_ite h (keeps_correctErrs h)
    · split
      · rename_i e24
        exact keeps_of_snd e24 (keeps_laneXlate h)
      · rename_i e28
        split <;> exact keeps_of_snd e28 (keeps_laneXlate h)
theorem keeps_target {s0 s : State} {x : Lane} {r : Rec} {a : Reg} {off : Int} {sz : Nat} {m : AMode} {aop : Option Nat}
    {issue : Nat} (h : Keeps s0 s) : Keeps s0 (target s x r a off sz m aop issue).2 := by
  unfold target
  split
  · rename_i e4
    exact keeps_of_snd e4 (keeps_targetRaw h)
  · exact keeps_targetRaw h

/-! ### Code fetch -/

theorem keeps_fetchWord {s0 s : State} {b : Block} {va hdr : Nat} (h : Keeps s0 s) : Keeps s0 (fetchWord s b va hdr).2 := by
  unfold fetchWord
  split
  · rename_i e4
    exact keeps_ite_snd (keeps_of_snd e4 (keeps_translate h)) (keeps_of_snd e4 (keeps_translate h))
  · rename_i e7
    exact keeps_of_snd e7 (keeps_translate h)
  · rename_i e10
    exact keeps_of_snd e10 (keeps_translate h)
  · rename_i e14
    exact keeps_of_snd e14 (keeps_translate h)
theorem keeps_fetchWords {s0 s : State} {b : Block} {va n hdr : Nat} (h : Keeps s0 s) :
    Keeps s0 (fetchWords s b va n hdr).2 := by
  induction n generalizing s va with
  | zero => exact h
  | succ n ih =>
    unfold fetchWords
    split
    · rename_i s1 e
      exact keeps_of_snd e (keeps_fetchWord h)
    · rename_i s1 e
      have hword := keeps_of_snd e (keeps_fetchWord h)
      split <;> rename_i s2 e' <;> exact keeps_of_snd e' (ih hword)
theorem keeps_targetOk {s0 s : State} {b : Block} {t : W64} (h : Keeps s0 s) : Keeps s0 (targetOk s b t).2 := by
  unfold targetOk
  split
  · exact h
  · split
    · rename_i e6
      exact keeps_of_snd e6 (keeps_fetchWord h)
    · rename_i e10
      exact keeps_of_snd e10 (keeps_fetchWord h)
theorem keeps_isReform {s0 s : State} {b : Block} {h : W64} (hk : Keeps s0 s) : Keeps s0 (isReform s b h).2 := by
  unfold isReform
  split
  · rename_i e4
    exact keeps_of_snd e4 (keeps_fetchWord hk)
  · rename_i e8
    exact keeps_of_snd e8 (keeps_fetchWord hk)

/-! ### Bins (05 R80, R84) -/

theorem keeps_fileIn {s0 s : State} {core blk role : Nat} {hdr : W64} {m : Nat × Nat} {t : State}
    (e : fileIn s core blk role hdr m = some t) (h : Keeps s0 s) : Keeps s0 t := by
  unfold fileIn at e
  dsimp only at e
  split at e
  · cases e
    exact keeps_frame h rfl
  · split at e
    · cases e
      exact keeps_frame h rfl
    · cases e
theorem keeps_fileThread {s0 s : State} {core blk role : Nat} {hdr : W64} {m : Nat × Nat} (h : Keeps s0 s) :
    Keeps s0 (fileThread s core blk role hdr m) := by
  unfold fileThread
  exact keeps_ite (keeps_frame h rfl) (keeps_getD (fun _ h2 => keeps_fileIn h2 h) (keeps_frame h rfl))
theorem keeps_fileArrivals {s0 s : State} {core : Nat} (h : Keeps s0 s) : Keeps s0 (fileArrivals s core) := by
  unfold fileArrivals
  exact keeps_foldl h (fun _ _ h1 => keeps_getD (fun _ h3 => keeps_fileIn h3 (keeps_frame h1 rfl)) h1)

/-! ### Bundles and paths -/

theorem keeps_setPcs {s0 s : State} {blk : Nat} {ms : List (Nat × Nat)} {pc : W64} (h : Keeps s0 s) :
    Keeps s0 (setPcs s blk ms pc) := by
  unfold setPcs
  exact keeps_modThreads h (fun _ hx => hx)
theorem keeps_dropBundle {s0 s : State} {id : Nat} (h : Keeps s0 s) : Keeps s0 (dropBundle s id) :=
  keeps_frame h rfl
theorem keeps_leaveBundle {s0 s : State} {id : Nat} {ms : List (Nat × Nat)} (h : Keeps s0 s) :
    Keeps s0 (leaveBundle s id ms) := by
  unfold leaveBundle
  dsimp only
  split
  · exact h
  · exact keeps_ite (keeps_dropBundle h) (keeps_modBundle h)
theorem keeps_newBundle {s0 s : State} {fam : Option Nat} {blk role : Nat} {ms : List (Nat × Nat)} {p : Place}
    {drawn aside : Bool} (h : Keeps s0 s) : Keeps s0 (newBundle s fam blk role ms p drawn aside).2 :=
  keeps_frame h rfl
theorem keeps_binFreed {s0 s : State} {core : Nat} (h : Keeps s0 s) : Keeps s0 (binFreed s core) := by
  unfold binFreed
  exact keeps_fileArrivals (keeps_unstall h)
theorem keeps_mergePath {s0 s : State} {id : Nat} (h : Keeps s0 s) : Keeps s0 (mergePath s id) := by
  unfold mergePath
  split
  · exact h
  · split
    · exact h
    · exact keeps_binFreed (keeps_modBundle (keeps_dropBundle h))
theorem keeps_fileMembers {s0 s : State} {b : Bundle} {core : Nat} (h : Keeps s0 s) : Keeps s0 (fileMembers s b core) := by
  unfold fileMembers
  exact keeps_foldl (keeps_dropBundle h) (fun _ _ h1 => keeps_fileThread h1)
theorem keeps_settleAt {s0 s : State} {id : Nat} (h : Keeps s0 s) : Keeps s0 (settleAt s id) := by
  unfold settleAt
  split
  · exact h
  · split
    · exact h
    · split
      · rename_i e14
        split
        · exact keeps_fileMembers (keeps_of_snd e14 (keeps_isReform h))
        · exact keeps_mergePath (keeps_of_snd e14 (keeps_isReform h))
theorem keeps_markAge {s0 s : State} {id : Nat} (h : Keeps s0 s) : Keeps s0 (markAge s id) := by
  unfold markAge
  split
  · exact h
  · exact keeps_ite (keeps_modBundle (keeps_frame h rfl)) h
theorem keeps_arriveAt {s0 s : State} {id : Nat} {hdr : W64} (h : Keeps s0 s) : Keeps s0 (arriveAt s id hdr) := by
  unfold arriveAt
  dsimp only
  split
  · exact h
  · split
    · split
      · exact keeps_settleAt (keeps_markAge (keeps_modBundle (keeps_setPcs h)))
      · exact keeps_markAge (keeps_modBundle (keeps_setPcs h))
    · exact keeps_markAge (keeps_modBundle (keeps_setPcs h))
theorem keeps_settleParks {s0 s : State} {blk : Nat} (h : Keeps s0 s) : Keeps s0 (settleParks s blk) := by
  unfold settleParks
  refine keeps_foldl h (fun s x h1 => ?_)
  split
  · exact keeps_ite (keeps_settleAt (keeps_modThreads h1 (fun _ hx => hx))) h1
  · exact h1
theorem keeps_clearLeft {s0 s : State} {id : Nat} (h : Keeps s0 s) : Keeps s0 (clearLeft s id) := by
  unfold clearLeft
  split
  · exact keeps_modThreads h (fun _ hx => hx)
  · exact h
theorem keeps_moveTo {s0 s : State} {id : Nat} {p : Place} (h : Keeps s0 s) : Keeps s0 (moveTo s id p) := by
  unfold moveTo
  dsimp only
  split
  · exact keeps_arriveAt (keeps_clearLeft h)
  · exact keeps_modBundle (keeps_clearLeft h)
theorem keeps_splitOff {s0 s : State} {b : Bundle} {ms : List (Nat × Nat)} {p : Place} (h : Keeps s0 s) :
    Keeps s0 (splitOff s b ms p) := by
  unfold splitOff
  dsimp only
  split
  · exact h
  · split
    · exact keeps_arriveAt (keeps_newBundle (keeps_leaveBundle h))
    · exact keeps_newBundle (keeps_leaveBundle h)
theorem keeps_diverge {s0 s : State} {b : Bundle} {core : Nat} {ts : List ((Nat × Nat) × Place)} {t : State}
    (e : diverge s b core ts = some t) (h : Keeps s0 s) : Keeps s0 t := by
  unfold diverge at e
  dsimp only at e
  split at e
  · cases e
    exact h
  · split at e
    · cases e
    · cases e
      exact keeps_moveTo (keeps_foldl h (fun _ _ h2 => keeps_splitOff h2))

/-! ### Taking a trap at task level, and returning from it (11 R236-R238) -/

theorem keeps_takeTrap {s0 s : State} {x : Lane} {bun : Option Bundle} {cause : Nat} {pc info : W64} {wrec : BitVec 256}
    {resume : Place} {vec : W64} {ms : List (Nat × Nat)} (h : Keeps s0 s) : Keeps s0
    (takeTrap s x bun cause pc info wrec resume vec ms) := by
  unfold takeTrap
  dsimp only
  split
  · refine keeps_arriveAt (keeps_newBundle ?_)
    split
    · exact keeps_leaveBundle (keeps_modThreads (keeps_targetOk h) (fun _ hx => hx))
    · exact keeps_modThreads (keeps_targetOk h) (fun _ hx => hx)
  · refine keeps_raise (keeps_newBundle ?_)
    split
    · exact keeps_leaveBundle (keeps_modThreads (keeps_targetOk h) (fun _ hx => hx))
    · exact keeps_modThreads (keeps_targetOk h) (fun _ hx => hx)
theorem keeps_endTrap {s0 s : State} {x : Lane} (h : Keeps s0 s) : Keeps s0 (endTrap s x) := by
  unfold endTrap
  exact keeps_modThread h (fun _ hx => hx)

/-! ### The issue of one instruction word by the current bundle -/

theorem keeps_raiseAll {s0 s : State} {blk op : Nat} {pc : W64} {fs : List LaneFlt} (h : Keeps s0 s) :
    KeepsRes s0 (raiseAll s blk op pc fs) := by
  unfold raiseAll
  exact keepsRes_next (keeps_raise h)
theorem keeps_fireArm {s0 s : State} {i : Iss} {y0 : Option (Arm × Lane)} (h : Keeps s0 s) : KeepsPrep s0 (fireArm i s y0) := by
  unfold fireArm
  split
  · exact keepsPrep_go h
  · split
    · exact keepsPrep_residue h
    · split
      · exact keepsPrep_out (keeps_raiseAll h)
      · exact keepsPrep_ite (keepsPrep_out (keeps_raiseAll h)) (keepsPrep_ite (keepsPrep_go h) (keepsPrep_go h))
theorem keeps_correctReads {s0 s : State} {b : Block} {op : Nat} {pc : W64} {rows : List (Nat × Nat × Nat × Bool)}
    (h : Keeps s0 s) : Keeps s0 (correctReads s b op pc rows) := by
  unfold correctReads
  dsimp only
  split
  · exact h
  · exact keeps_modBlock (keeps_foldl h (fun _ _ h2 => keeps_logMck h2)) (fun _ hx => hx)
theorem keeps_correctMet {s0 s : State} {b : Block} {k : Ctl} {op : Nat} {pc : W64} {xs : List Lane} {src : List RG}
    (h : Keeps s0 s) : Keeps s0 (correctMet s b k op pc xs src) := by
  unfold correctMet
  exact keeps_foldl h (fun _ _ h1 => keeps_correctErrs (keeps_correctReads h1))
theorem keeps_prepare {s0 s : State} {op : Nat} {k : Ctl} {src dst late : List RG} (h : Keeps s0 s) :
    KeepsPrep s0 (prepare op k src dst s late) := by
  have hraised {blk : Nat} {pc : W64} {fs : List LaneFlt} : KeepsPrep s0 (.out (raiseAll s blk op pc fs)) :=
    keepsPrep_out (keeps_raiseAll h)
  have harmed {t : State} (ht : Keeps s0 t) (blk : Nat) (a : Option Arm) (c : Bool) :
      Keeps s0 (if c then t else modBlock t blk (fun k => { k with arm := a })) :=
    keeps_ite ht (keeps_modBlock ht fun _ hb => hb)
  unfold prepare
  split
  · exact keepsPrep_out keepsRes_fault
  · split
    · dsimp only
      split
      · exact hraised
      refine keepsPrep_ite hraised (keepsPrep_ite hraised (keepsPrep_ite hraised ?_))
      exact keeps_fireArm (keeps_frame (harmed (keeps_correctMet h) _ _ _) rfl)
    · exact keepsPrep_out keepsRes_fault
theorem keeps_markFlip {s0 s : State} {i : Iss} {x : Lane} {r : Nat} (h : Keeps s0 s) : Keeps s0 (markFlip i x r s) := by
  unfold markFlip
  split
  · exact keeps_ite (keeps_modBlock h (fun _ hx => hx)) h
  · exact h
theorem keeps_applyFlip {s0 s : State} {i : Iss} {dst : List RG} (h : Keeps s0 s) : Keeps s0 (applyFlip i dst s) := by
  unfold applyFlip
  split
  · split
    · exact keeps_updOutst h
    · exact keeps_ite (keeps_modThread h (fun _ hx => hx)) (keeps_modBlock h (fun _ hx => hx))
  · exact h
theorem keeps_parkAll {s0 s : State} {i : Iss} (h : Keeps s0 s) : Keeps s0 (parkAll i s) := by
  unfold parkAll
  exact keeps_ite (keeps_modThreads h (fun _ hx => hx)) h
theorem keeps_advance {s0 s : State} {i : Iss} (h : Keeps s0 s) : Keeps s0 (advance i s) := by
  unfold advance
  split
  · exact h
  · split
    · exact keeps_modBundle h
    · exact keeps_ite (keeps_markAge (keeps_modBundle h)) (keeps_moveTo (keeps_markAge h))
theorem keeps_finish {s0 : State} {i : Iss} {dst : List RG} {o : IOut} (h : KeepsOut s0 o) : KeepsRes s0 (finish i dst o) := by
  cases o with
  | done s => exact keepsRes_next (keeps_advance (keeps_parkAll (keeps_applyFlip h)))
  | stay s => exact keepsRes_next (keeps_parkAll (keeps_applyFlip h))
  | trap s fs => exact keepsRes_next (keeps_raise (keeps_modBlock h fun _ hb => hb))
  | stall s => exact keepsRes_next (keeps_modBundle (keeps_modBlock h fun _ hb => hb))
theorem keeps_holdTrap {s0 s : State} {i : Iss} {o : IOut} (h : Keeps s0 s) (ho : KeepsOut s0 o) :
    KeepsOut s0 (holdTrap i s o) := by
  unfold holdTrap
  dsimp only
  split
  · exact keepsOut_ite h ho
  · exact keepsOut_ite h ho
  · exact ho
/-- An issue keeps what its effect keeps. -/
theorem keeps_issue {s0 s : State} {op : Nat} {k : Ctl} {src dst late : List RG} {eff : Iss → State → IOut}
    {addr : Iss → Lane → Option Nat} (h : Keeps s0 s) (he : ∀ i s, Keeps s0 s → KeepsOut s0 (eff i s)) :
    KeepsRes s0 (issue op k src dst s eff late addr) := by
  have hprep := keeps_prepare (op := op) (k := k) (src := src) (dst := dst) (late := late) h
  unfold issue
  split <;> rename_i e <;> rw [e] at hprep
  · exact hprep
  · exact keeps_finish (keeps_holdTrap hprep (he _ _ hprep))
  · exact keeps_raiseAll hprep
theorem keeps_laneOp {s0 s : State} {op : Nat} {k : Ctl} {src : List RG} {d : Reg} {n : Nat} {f : Lane → Nat} (h : Keeps s0 s) :
    KeepsRes s0 (laneOp op k src d n s f) := by
  unfold laneOp
  exact keeps_issue h (fun _ _ h1 => keepsOut_done (keeps_commit h1))
theorem keeps_orFlags {s0 s : State} {fs : List (Lane × BitVec 5)} (h : Keeps s0 s) : Keeps s0 (orFlags s fs) := by
  unfold orFlags
  exact keeps_foldl h (fun _ _ h1 => keeps_modThread h1 (fun _ hx => hx))
theorem keeps_laneOpF {s0 s : State} {op : Nat} {k : Ctl} {src : List RG} {d : Reg} {n : Nat} {f : Lane → Nat × BitVec 5}
    (h : Keeps s0 s) : KeepsRes s0 (laneOpF op k src d n s f) := by
  unfold laneOpF
  exact keeps_issue h (fun _ _ h1 => keepsOut_done (keeps_orFlags (keeps_commit h1)))
theorem keeps_lanePred {s0 s : State} {op : Nat} {k : Ctl} {src : List RG} {d : Reg} {f : Lane → Bool} (h : Keeps s0 s) :
    KeepsRes s0 (lanePred op k src d s f) := by
  unfold lanePred
  exact keeps_issue h (fun _ _ h1 => keepsOut_done (keeps_commitP h1))
theorem keeps_correctScratch {s0 s : State} {i : Iss} {x : Lane} {off n : Nat} (h : Keeps s0 s) :
    Keeps s0 (correctScratch i x off n s) := by
  unfold correctScratch
  exact keeps_correctErrs h
theorem keeps_readOne {s0 s : State} {i : Iss} {x : Lane} {src : List RG} {eff : State → IOut} (h : Keeps s0 s)
    (he : ∀ s, Keeps s0 s → KeepsOut s0 (eff s)) : KeepsOut s0 (readOne i x src s eff) := by
  unfold readOne
  exact keepsOut_ite (he _ (keeps_correctMet h)) h

/-! ### Integer arithmetic of the INT class (06 R102-R108) -/

theorem keeps_intOp2 {s0 s : State} {op : Nat} {k : Ctl} {w sg sat : Bool} {d a b : Reg} {f : Int → Int → Int} (h : Keeps s0 s) :
    KeepsRes s0 (intOp2 op k w sg sat d a b s f) := by
  unfold intOp2
  exact keeps_laneOp h
theorem keeps_execIadd {s0 s : State} {k : Ctl} {w sg sat : Bool} {d a b : Reg} (h : Keeps s0 s) :
    KeepsRes s0 (execIadd k w sg sat d a b s) := by
  unfold execIadd
  exact keeps_intOp2 h
theorem keeps_execIsub {s0 s : State} {k : Ctl} {w sg sat : Bool} {d a b : Reg} (h : Keeps s0 s) :
    KeepsRes s0 (execIsub k w sg sat d a b s) := by
  unfold execIsub
  exact keeps_intOp2 h
theorem keeps_execIaddi {s0 s : State} {k : Ctl} {w sg sat : Bool} {d a : Reg} {i : BitVec 24} (h : Keeps s0 s) :
    KeepsRes s0 (execIaddi k w sg sat d a i s) := by
  unfold execIaddi
  exact keeps_laneOp h
theorem keeps_execIaddw {s0 s : State} {k : Ctl} {sg sat : Bool} {d a b : Reg} (h : Keeps s0 s) :
    KeepsRes s0 (execIaddw k sg sat d a b s) := by
  unfold execIaddw
  exact keeps_laneOp h
theorem keeps_execImul {s0 s : State} {k : Ctl} {w sg sat : Bool} {d a b : Reg} (h : Keeps s0 s) :
    KeepsRes s0 (execImul k w sg sat d a b s) := by
  unfold execImul
  exact keeps_intOp2 h
theorem keeps_execImulh {s0 s : State} {k : Ctl} {w sg : Bool} {d a b : Reg} (h : Keeps s0 s) :
    KeepsRes s0 (execImulh k w sg d a b s) := by
  unfold execImulh
  exact keeps_intOp2 h
theorem keeps_execImad {s0 s : State} {k : Ctl} {w sg sat : Bool} {d a b c : Reg} (h : Keeps s0 s) :
    KeepsRes s0 (execImad k w sg sat d a b c s) := by
  unfold execImad
  exact keeps_laneOp h
theorem keeps_execImadw {s0 s : State} {k : Ctl} {sg sat : Bool} {d a b c : Reg} (h : Keeps s0 s) :
    KeepsRes s0 (execImadw k sg sat d a b c s) := by
  unfold execImadw
  exact keeps_laneOp h
theorem keeps_execIdiv {s0 s : State} {k : Ctl} {w sg : Bool} {d a b : Reg} (h : Keeps s0 s) :
    KeepsRes s0 (execIdiv k w sg d a b s) := by
  unfold execIdiv
  exact keeps_intOp2 h
theorem keeps_execIrem {s0 s : State} {k : Ctl} {w sg : Bool} {d a b : Reg} (h : Keeps s0 s) :
    KeepsRes s0 (execIrem k w sg d a b s) := by
  unfold execIrem
  exact keeps_intOp2 h
theorem keeps_execImin {s0 s : State} {k : Ctl} {w sg : Bool} {d a b : Reg} (h : Keeps s0 s) :
    KeepsRes s0 (execImin k w sg d a b s) := by
  unfold execImin
  exact keeps_intOp2 h
theorem keeps_execImax {s0 s : State} {k : Ctl} {w sg : Bool} {d a b : Reg} (h : Keeps s0 s) :
    KeepsRes s0 (execImax k w sg d a b s) := by
  unfold execImax
  exact keeps_intOp2 h
theorem keeps_execIabsd {s0 s : State} {k : Ctl} {w sg : Bool} {d a b : Reg} (h : Keeps s0 s) :
    KeepsRes s0 (execIabsd k w sg d a b s) := by
  unfold execIabsd
  exact keeps_intOp2 h

/-! ### Logic, shifts, bitfields, bit counts, moves, selection and indexed register access of the INT class (06 R109-R115), and NOP (R125) -/

theorem keeps_execLut3 {s0 s : State} {k : Ctl} {w : Bool} {d a b c : Reg} {x : BitVec 8} (h : Keeps s0 s) :
    KeepsRes s0 (execLut3 k w d a b c x s) := by
  unfold execLut3
  exact keeps_laneOp h
theorem keeps_execIshl {s0 s : State} {k : Ctl} {w im : Bool} {d a b : Reg} {x : BitVec 8} (h : Keeps s0 s) :
    KeepsRes s0 (execIshl k w im d a b x s) := by
  unfold execIshl
  exact keeps_laneOp h
theorem keeps_execIshr {s0 s : State} {k : Ctl} {w sg im : Bool} {d a b : Reg} {x : BitVec 8} (h : Keeps s0 s) :
    KeepsRes s0 (execIshr k w sg im d a b x s) := by
  unfold execIshr
  exact keeps_laneOp h
theorem keeps_execFshl {s0 s : State} {k : Ctl} {im : Bool} {d a b c : Reg} {x : BitVec 8} (h : Keeps s0 s) :
    KeepsRes s0 (execFshl k im d a b c x s) := by
  unfold execFshl
  exact keeps_laneOp h
theorem keeps_execFshr {s0 s : State} {k : Ctl} {im : Bool} {d a b c : Reg} {x : BitVec 8} (h : Keeps s0 s) :
    KeepsRes s0 (execFshr k im d a b c x s) := by
  unfold execFshr
  exact keeps_laneOp h
theorem keeps_execBfx {s0 s : State} {k : Ctl} {w sg im : Bool} {d a c : Reg} {x : BitVec 8} (h : Keeps s0 s) :
    KeepsRes s0 (execBfx k w sg im d a c x s) := by
  unfold execBfx
  exact keeps_laneOp h
theorem keeps_execBfi {s0 s : State} {k : Ctl} {w im : Bool} {d a b c : Reg} {x : BitVec 8} (h : Keeps s0 s) :
    KeepsRes s0 (execBfi k w im d a b c x s) := by
  unfold execBfi
  exact keeps_laneOp h
theorem keeps_execPopc {s0 s : State} {k : Ctl} {w : Bool} {d a : Reg} (h : Keeps s0 s) : KeepsRes s0 (execPopc k w d a s) := by
  unfold execPopc
  exact keeps_laneOp h
theorem keeps_execPopb {s0 s : State} {k : Ctl} {w : Bool} {d a : Reg} (h : Keeps s0 s) : KeepsRes s0 (execPopb k w d a s) := by
  unfold execPopb
  exact keeps_laneOp h
theorem keeps_execClz {s0 s : State} {k : Ctl} {w : Bool} {d a : Reg} (h : Keeps s0 s) : KeepsRes s0 (execClz k w d a s) := by
  unfold execClz
  exact keeps_laneOp h
theorem keeps_execBrev {s0 s : State} {k : Ctl} {w : Bool} {d a : Reg} (h : Keeps s0 s) : KeepsRes s0 (execBrev k w d a s) := by
  unfold execBrev
  exact keeps_laneOp h
theorem keeps_execIsel {s0 s : State} {k : Ctl} {w : Bool} {d a b : Reg} {x : BitVec 8} (h : Keeps s0 s) :
    KeepsRes s0 (execIsel k w d a b x s) := by
  unfold execIsel
  exact keeps_laneOp h
theorem keeps_execMov {s0 s : State} {k : Ctl} {sz : BitVec 2} {d a : Reg} (h : Keeps s0 s) :
    KeepsRes s0 (execMov k sz d a s) := by
  unfold execMov
  exact keeps_laneOp h
theorem keeps_execMovi {s0 s : State} {k : Ctl} {mv : BitVec 2} {d : Reg} {i : BitVec 32} (h : Keeps s0 s) :
    KeepsRes s0 (execMovi k mv d i s) := by
  unfold execMovi
  exact keeps_laneOp h

end Sys2Proof.Machine
end

section
/-! PROOF. What branches, collectives, barriers, rings and taps keep (O48). -/

namespace Sys2Proof.Machine
open Laws

/-! ### Logic, shifts, bitfields, bit counts, moves, selection and indexed register access of the INT class (06 R109-R115), and NOP (R125) -/

theorem keeps_execNop {s0 s : State} {k : Ctl} (h : Keeps s0 s) : KeepsRes s0 (execNop k s) := by
  unfold execNop
  exact keeps_issue h (fun _ _ h1 => h1)
theorem keeps_execVget {s0 s : State} {k : Ctl} {d a b : Reg} (h : Keeps s0 s) : KeepsRes s0 (execVget k d a b s) := by
  unfold execVget
  refine keeps_issue h (fun i s h1 => ?_)
  dsimp only
  split
  · exact keepsOut_done (keeps_commit (keeps_foldl h1 (fun _ _ h3 => keeps_correctReads h3)))
  · exact keepsOut_trap h1
theorem keeps_execVput {s0 s : State} {k : Ctl} {d a b : Reg} (h : Keeps s0 s) : KeepsRes s0 (execVput k d a b s) := by
  unfold execVput
  refine keeps_issue h (fun i s h1 => ?_)
  dsimp only
  split
  · exact keepsOut_done (keeps_foldl h1 (fun _ _ h2 => keeps_markFlip (keeps_setV h2)))
  · exact keepsOut_trap h1

/-! ### Comparisons and predicate logic of the INT class (06 R116, R117) -/

theorem keeps_execIcmp {s0 s : State} {k : Ctl} {w sg : Bool} {cb : BitVec 2} {cc : BitVec 3} {d a b : Reg} (h : Keeps s0 s) :
    KeepsRes s0 (execIcmp k w sg cb cc d a b s) := by
  unfold execIcmp
  exact keeps_lanePred h
theorem keeps_execIcmpi {s0 s : State} {k : Ctl} {w sg : Bool} {cb : BitVec 2} {cc : BitVec 3} {d a : Reg} {i : BitVec 24}
    (h : Keeps s0 s) : KeepsRes s0 (execIcmpi k w sg cb cc d a i s) := by
  unfold execIcmpi
  exact keeps_lanePred h
theorem keeps_execPlut {s0 s : State} {k : Ctl} {d a b c : Reg} {x : BitVec 8} (h : Keeps s0 s) :
    KeepsRes s0 (execPlut k d a b c x s) := by
  unfold execPlut
  exact keeps_lanePred h
theorem keeps_execPget {s0 s : State} {k : Ctl} {d : Reg} {x : BitVec 8} (h : Keeps s0 s) : KeepsRes s0 (execPget k d x s) := by
  unfold execPget
  exact keeps_laneOp h
theorem keeps_execPset {s0 s : State} {k : Ctl} {a b : Reg} {x : BitVec 8} (h : Keeps s0 s) :
    KeepsRes s0 (execPset k a b x s) := by
  unfold execPset
  exact keeps_issue h (fun _ _ h1 => keepsOut_done (keeps_foldl h1 (fun _ _ h4 => keeps_modThread h4 (fun _ hx => hx))))

/-! ### Register claims (05 R89, R90) -/

theorem keeps_clearRegs {s0 s : State} {blk gang lo hi : Nat} (h : Keeps s0 s) : Keeps s0 (clearRegs s blk gang lo hi) :=
  keeps_modBlock (keeps_modThreads h fun _ ht => sparse_wf_filter _ _ _ ht) fun _ hb => hb
theorem keeps_grantUnits {s0 s : State} {blk gang n : Nat} (h : Keeps s0 s) : Keeps s0 (grantUnits s blk gang n) := by
  unfold grantUnits
  split
  · exact h
  · exact keeps_clearRegs (keeps_modGang h (fun _ hx => hx))
theorem keeps_serveClaims {s0 s : State} (h : Keeps s0 s) : Keeps s0 (serveClaims s) := by
  unfold serveClaims
  refine keeps_foldl h (fun s x h1 => ?_)
  dsimp only
  split
  · split
    · exact keeps_irrevocable h1
    · exact keeps_modThreads (keeps_grantUnits (keeps_set_claims (keeps_irrevocable h1))) (fun _ hx => hx)
  · exact h1

/-! ### Effects of a completed gathering on its active members, in ascending index -/

theorem keeps_pairCommit {s0 s : State} {d : Reg} {n : Nat} {outs : List (Lane × Nat)} (h : Keeps s0 s) :
    Keeps s0 (pairCommit s d n outs) := by
  unfold pairCommit
  exact keeps_foldl (keeps_commit h) (fun _ _ h1 => keeps_ite (keeps_putReg h1) h1)
theorem keeps_pairCommitP {s0 s : State} {d : Reg} {outs : List (Lane × Bool)} (h : Keeps s0 s) :
    Keeps s0 (pairCommitP s d outs) := by
  unfold pairCommitP
  exact keeps_foldl h (fun _ _ h1 => keeps_deliverP h1)
theorem keeps_permEff {s0 s : State} {w : Bool} {pm : Nat} {d a b : Reg} {x : Nat} {act : List Lane} (h : Keeps s0 s) :
    Keeps s0 (permEff w pm d a b x act s) := by
  unfold permEff
  exact keeps_pairCommit h
theorem keeps_permxEff {s0 s : State} {d a b x : Reg} {act : List Lane} (h : Keeps s0 s) :
    Keeps s0 (permxEff d a b x act s) := by
  unfold permxEff
  exact keeps_pairCommit h
theorem keeps_voteEff {s0 s : State} {vm : Nat} {d a : Reg} {act : List Lane} (h : Keeps s0 s) :
    Keeps s0 (voteEff vm d a act s) := by
  unfold voteEff
  dsimp only
  split
  · exact keeps_pairCommitP h
  · exact keeps_pairCommitP h
  · exact keeps_pairCommitP h
  · exact keeps_pairCommit h
theorem keeps_electEff {s0 s : State} {d : Reg} {act : List Lane} (h : Keeps s0 s) : Keeps s0 (electEff d act s) := by
  unfold electEff
  exact keeps_pairCommitP h
theorem keeps_gredEff {s0 s : State} {w sg : Bool} {gop : Nat} {d a : Reg} {act : List Lane} (h : Keeps s0 s) :
    Keeps s0 (gredEff w sg gop d a act s) := by
  unfold gredEff
  exact keeps_pairCommit h
theorem keeps_gscanEff {s0 s : State} {w sg : Bool} {gop : Nat} {ex : Bool} {d a : Reg} {act : List Lane} (h : Keeps s0 s) :
    Keeps s0 (gscanEff w sg gop ex d a act s) := by
  unfold gscanEff
  exact keeps_pairCommit h

/-! ### Arrival and completion (06 R118) -/

theorem keeps_setGathered {s0 s : State} {ms : List Thread} (h : Keeps s0 s) : Keeps s0 (setGathered s ms) := by
  unfold setGathered
  exact keeps_foldl (keeps_modThreads h (fun _ hx => hx)) (fun _ _ h1 => keeps_landWait h1)
theorem keeps_gatherFault {s0 s : State} {b : Block} {pc : W64} {op : Nat} {ms : List Thread} {f : Flt} (h : Keeps s0 s) :
    Keeps s0 (gatherFault s b pc op ms f) := by
  unfold gatherFault
  exact keeps_set_bundles (keeps_raise (keeps_modThreads h (fun _ hx => hx)))
theorem keeps_claimEff {s0 s : State} {b : Block} {g : Gang} {i : Instr} {pc : W64} {ms : List Thread} {act : List Lane}
    (h : Keeps s0 s) : Keeps s0 (claimEff s b g i pc ms act) := by
  unfold claimEff
  dsimp only
  split
  · split
    · exact keeps_gatherFault h
    · exact keeps_serveClaims (keeps_set_claims (keeps_modThreads h (fun _ hx => hx)))
  · split
    · exact keeps_gatherFault h
    · split
      · split
        · exact keeps_irrevocable h
        · exact keeps_setGathered (keeps_pairCommitP (keeps_grantUnits (keeps_irrevocable h)))
      · exact keeps_ite h (keeps_setGathered (keeps_pairCommitP h))
  · split
    · exact keeps_gatherFault h
    · split
      · exact keeps_modThreads h (fun _ hx => hx)
      · split
        · exact keeps_irrevocable h
        · exact keeps_serveClaims (keeps_setGathered (keeps_clearRegs (keeps_modGang (keeps_irrevocable h) (fun _ hx => hx))))
  · exact h
theorem keeps_performGather {s0 s : State} {b : Block} {i : Instr} {pc : W64} {ms : List Thread} (h : Keeps s0 s) :
    Keeps s0 (performGather s b i pc ms) := by
  unfold performGather
  dsimp only
  split
  · exact keeps_raise h
  · split
    · exact keeps_setGathered (keeps_permEff (keeps_correctMet h))
    · exact keeps_setGathered (keeps_permxEff (keeps_correctMet h))
    · exact keeps_setGathered (keeps_voteEff (keeps_correctMet h))
    · exact keeps_setGathered (keeps_electEff (keeps_correctMet h))
    · exact keeps_setGathered (keeps_gredEff (keeps_correctMet h))
    · exact keeps_setGathered (keeps_gscanEff (keeps_correctMet h))
    · split
      · exact keeps_ite (keeps_setGathered (keeps_correctMet h)) (keeps_claimEff (keeps_correctMet h))
      · exact keeps_correctMet h
theorem keeps_retryGive {s0 s : State} {b : Block} {t : Thread} {n : BitVec 24} {pc : W64} (h : Keeps s0 s) :
    Keeps s0 (retryGive s b t n pc) := by
  unfold retryGive
  dsimp only
  split
  · exact keeps_claimEff h
  · exact h
theorem keeps_tryGather {s0 s : State} {blk gang lane : Nat} (h : Keeps s0 s) : Keeps s0 (tryGather s blk gang lane) := by
  unfold tryGather
  split
  · split
    · exact keeps_ite h (keeps_performGather h)
    · exact keeps_retryGive h
    · exact h
  · exact h
theorem keeps_tryGang {s0 s : State} {blk gang : Nat} (h : Keeps s0 s) : Keeps s0 (tryGang s blk gang) := by
  unfold tryGang
  exact keeps_foldl h (fun _ _ h1 => keeps_tryGather h1)
theorem keeps_collective {s0 s : State} {op : Nat} {k : Ctl} {i : Instr} {src dst : List RG} {mk : Bool} {c : Reg}
    (h : Keeps s0 s) : KeepsRes s0 (collective op k i src dst mk c s) := by
  unfold collective
  exact keeps_issue h (fun _ _ h1 => keepsOut_done
      (keeps_foldl (keeps_foldl h1 (fun _ _ h5 => keeps_modThread h5 (fun _ hx => hx))) (fun _ _ h4 => keeps_tryGather h4)))
theorem keeps_execPerm {s0 s : State} {k : Ctl} {w mk : Bool} {pm : BitVec 2} {d a b c : Reg} {x : BitVec 8} (h : Keeps s0 s) :
    KeepsRes s0 (execPerm k w mk pm d a b c x s) := by
  unfold execPerm
  exact keeps_collective h
theorem keeps_execPermx {s0 s : State} {k : Ctl} {mk : Bool} {d a b c : Reg} {x : BitVec 8} (h : Keeps s0 s) :
    KeepsRes s0 (execPermx k mk d a b c x s) := by
  unfold execPermx
  exact keeps_collective h
theorem keeps_execVote {s0 s : State} {k : Ctl} {mk : Bool} {vm : BitVec 2} {d a c : Reg} (h : Keeps s0 s) :
    KeepsRes s0 (execVote k mk vm d a c s) := by
  unfold execVote
  exact keeps_collective h
theorem keeps_execElect {s0 s : State} {k : Ctl} {mk : Bool} {d c : Reg} (h : Keeps s0 s) :
    KeepsRes s0 (execElect k mk d c s) := by
  unfold execElect
  exact keeps_collective h
theorem keeps_execGred {s0 s : State} {k : Ctl} {w sg mk : Bool} {gop : BitVec 3} {d a c : Reg} (h : Keeps s0 s) :
    KeepsRes s0 (execGred k w sg mk gop d a c s) := by
  unfold execGred
  exact keeps_collective h
theorem keeps_execGscan {s0 s : State} {k : Ctl} {w sg mk : Bool} {gop : BitVec 3} {ex : Bool} {d a c : Reg} (h : Keeps s0 s) :
    KeepsRes s0 (execGscan k w sg mk gop ex d a c s) := by
  unfold execGscan
  exact keeps_collective h
theorem keeps_execRclaim {s0 s : State} {k : Ctl} {i : BitVec 24} (h : Keeps s0 s) : KeepsRes s0 (execRclaim k i s) := by
  unfold execRclaim
  exact keeps_collective h
theorem keeps_execRgive {s0 s : State} {k : Ctl} {i : BitVec 24} (h : Keeps s0 s) : KeepsRes s0 (execRgive k i s) := by
  unfold execRgive
  exact keeps_collective h
theorem keeps_execRtry {s0 s : State} {k : Ctl} {d : Reg} {i : BitVec 24} (h : Keeps s0 s) :
    KeepsRes s0 (execRtry k d i s) := by
  unfold execRtry
  exact keeps_collective h
theorem keeps_execGatheringComplete {s0 s : State} {blk gang lane : Nat} (h : Keeps s0 s) :
    KeepsRes s0 (execGatheringComplete blk gang lane s) := by
  unfold execGatheringComplete
  exact keepsRes_next (keeps_tryGather h)
theorem keeps_execClaimGrant {s0 s : State} {blk gang : Nat} (h : Keeps s0 s) : KeepsRes s0 (execClaimGrant blk gang s) := by
  unfold execClaimGrant
  split
  · exact keepsRes_ite (keepsRes_next (keeps_serveClaims h)) (keepsRes_next h)
  · exact keepsRes_next h

/-! ### Barrier objects (12 R252-R262) -/

theorem keeps_barWriteBack {s0 s : State} {b : Bar} (h : Keeps s0 s) : Keeps s0 (barWriteBack s b) := by
  unfold barWriteBack
  exact keeps_ite (keeps_writeBytes h) (keeps_writeScratch h)
theorem keeps_modBar {s0 s : State} {r : BarRef} {f : Bar → Bar} (h : Keeps s0 s) : Keeps s0 (modBar s r f) := by
  unfold modBar
  exact keeps_set_bars (keeps_ite h (keeps_noteLine h))
theorem keeps_endBarWait {s0 s : State} {t : Thread} {r : BarRef} {d : Option Reg} {status : Nat} (h : Keeps s0 s) :
    Keeps s0 (endBarWait s t r d status) := by
  unfold endBarWait
  exact keeps_modBar (keeps_modThread (keeps_deliverKept h) (fun _ hx => hx))
theorem keeps_endOrHold {s0 s : State} {t : Thread} {r : BarRef} {n : W32} {d : Option Reg} {status : Nat} (h : Keeps s0 s) :
    Keeps s0 (endOrHold s t r n d status) := by
  unfold endOrHold
  exact keeps_ite (keeps_modThread (keeps_deliverKept h) (fun _ hx => hx)) (keeps_endBarWait h)
theorem keeps_wakeBar {s0 s : State} {r : BarRef} (h : Keeps s0 s) : Keeps s0 (wakeBar s r) := by
  unfold wakeBar
  refine keeps_foldl h (fun s x h1 => ?_)
  split
  · split
    · split
      · split
        · exact keeps_endOrHold h1
        · exact h1
      · exact h1
    · exact h1
  · exact h1
/-- Threads and the images of checkpoints change elsewhere than in their registers. -/
theorem keeps_mapThreads {s0 s : State} {f g : Thread → Thread} {c : Bool} (h : Keeps s0 s) (hf : ∀ t, t.Canon → (f t).Canon)
    (hg : ∀ t, t.Canon → (g t).Canon) : Keeps s0 { s with
      threads := s.threads.map f,
      ckpts := if c then s.ckpts.map fun c => { c with threads := c.threads.map g } else s.ckpts } := by
  refine keeps_ckpts (keeps_threads h fun hall => List.forall_mem_map.mpr fun t ht => hf t (hall t ht)) fun hall => ?_
  split
  · refine List.forall_mem_map.mpr fun c hc => ?_
    obtain ⟨hthreads, hgangs, hblock⟩ := hall c hc
    exact ⟨List.forall_mem_map.mpr fun t ht => hg t (hthreads t ht), hgangs, hblock⟩
  · exact hall
theorem keeps_endSavedWaits {s0 s : State} {b : Bar} {status : Nat} (h : Keeps s0 s) : Keeps s0 (endSavedWaits s b status) := by
  unfold endSavedWaits
  refine keeps_foldl (keeps_mapThreads h (fun _ ht => ht) fun _ ht => ht) fun s t hs => ?_
  split
  · exact keeps_ite (keeps_modThread (keeps_deliverKept hs) fun _ ht => ht) hs
  · exact hs
theorem keeps_endDecided {s0 s : State} {blk gang lane status : Nat} {d : Option Reg} (h : Keeps s0 s) :
    Keeps s0 (endDecided s blk gang lane status d) := by
  unfold endDecided
  exact keeps_modThread (keeps_deliverKept h) (fun _ hx => hx)
theorem keeps_phaseEffects {s0 s : State} {r : BarRef} (h : Keeps s0 s) : Keeps s0 (phaseEffects s r) := by
  unfold phaseEffects
  dsimp only
  split
  · split
    · exact h
    · exact keeps_set_bars (keeps_foldl h (fun _ _ h2 => keeps_foldl h2 (fun _ _ h4 => keeps_ite h4 (keeps_raiseAcq h4))))
  · exact keeps_ite (keeps_modBlock h (fun _ hx => hx)) h
theorem keeps_completeBar {s0 s : State} {fuel : Nat} {r : BarRef} (h : Keeps s0 s) : Keeps s0 (completeBar fuel s r) := by
  induction fuel generalizing s with
  | zero => exact h
  | succ n ih =>
    unfold completeBar
    split
    · exact h
    · split
      · exact h
      · rename_i b _
        have hwoken : Keeps s0 (wakeBar (phaseEffects (modBar s r fun _ => b) r) r) :=
          keeps_wakeBar (keeps_phaseEffects (keeps_modBar h))
        exact keeps_ite hwoken (ih hwoken)
theorem keeps_settleBar {s0 s : State} {r : BarRef} (h : Keeps s0 s) : Keeps s0 (settleBar s r) := by
  unfold settleBar
  split
  · exact h
  · exact keeps_wakeBar (keeps_completeBar h)
theorem keeps_landBytes {s0 s : State} {r : BarRef} {n : Nat} (h : Keeps s0 s) : Keeps s0 (landBytes s r n) := by
  unfold landBytes
  exact keeps_settleBar (keeps_modBar h)
theorem keeps_arriveBar {s0 s : State} {r : BarRef} {xs : List Lane} (h : Keeps s0 s) : Keeps s0 (arriveBar s r xs) := by
  unfold arriveBar
  exact keeps_modBar (keeps_foldl h (fun _ _ h2 => keeps_bumpRel (keeps_drainThread h2)))
theorem keeps_dropJoin {s0 s : State} {t : Thread} {r : BarRef} (h : Keeps s0 s) : Keeps s0 (dropJoin s t r) := by
  unfold dropJoin
  exact keeps_settleBar (keeps_modBar (keeps_modThread h (fun _ hx => hx)))
theorem keeps_barRef {s0 s : State} {x : Lane} {g : Bool} {a : Reg} (h : Keeps s0 s) : Keeps s0 (barRef s x g a).2 := by
  unfold barRef
  dsimp only
  split
  · split
    · exact h
    · split
      · rename_i e7
        exact keeps_ite_snd (keeps_of_snd e7 (keeps_laneXlate h)) (keeps_of_snd e7 (keeps_laneXlate h))
      · rename_i e11
        exact keeps_of_snd e11 (keeps_laneXlate h)
  · exact keeps_ite_snd h (keeps_ite_snd h h)
theorem keeps_dropGroupBars {s0 s : State} {ctx : Nat} (h : Keeps s0 s) : Keeps s0 (dropGroupBars s ctx) := by
  unfold dropGroupBars
  exact keeps_foldl (keeps_frame h rfl) (fun _ _ h1 => keeps_barWriteBack h1)
theorem keeps_dropBlockBars {s0 s : State} {blk : Nat} (h : Keeps s0 s) : Keeps s0 (dropBlockBars s blk) :=
  keeps_frame h rfl

/-! ### The tap record and the rows of a TAPIN (19 R346-R348, R353, R355, R358) -/

theorem keeps_modRow {s0 s : State} {id r : Nat} {f : TRow → TRow} (h : Keeps s0 s) : Keeps s0 (modRow s id r f) :=
  keeps_frame h rfl
theorem keeps_writeRow {s0 s : State} {id r : Nat} (h : Keeps s0 s) : Keeps s0 (writeRow s id r) := by
  unfold writeRow
  dsimp only
  split
  · exact h
  · split
    · exact h
    · exact keeps_writeScratch (keeps_writeScratch (keeps_writeScratch h))
theorem keeps_wakeTapw {s0 s : State} {blk : Nat} (h : Keeps s0 s) : Keeps s0 (wakeTapw s blk) := by
  unfold wakeTapw
  refine keeps_foldl h (fun s x h1 => ?_)
  split
  · split
    · exact keeps_modThread (keeps_deliverKept h1) (fun _ hx => hx)
    · exact h1
  · exact h1
theorem keeps_clearRowTags {s0 s : State} {t : Tapin} {r : Nat} (h : Keeps s0 s) : Keeps s0 (clearRowTags s t r) := by
  unfold clearRowTags
  exact keeps_modBlock h (fun _ hx => hx)
theorem keeps_readyRow {s0 s : State} {id r status : Nat} (h : Keeps s0 s) : Keeps s0 (readyRow s id r status) := by
  unfold readyRow
  dsimp only
  split
  · exact h
  · refine keeps_wakeTapw ?_
    split
    · exact keeps_landBytes (keeps_clearRowTags (keeps_writeRow (keeps_modRow h)))
    · exact keeps_clearRowTags (keeps_writeRow (keeps_modRow h))
theorem keeps_releaseHeld {s0 s : State} {t : Thread} (h : Keeps s0 s) : Keeps s0 (releaseHeld s t) := by
  unfold releaseHeld
  refine keeps_foldl h (fun s x h1 => ?_)
  split
  · exact keeps_ite (keeps_readyRow h1) h1
  · exact h1
theorem keeps_releaseHandled {s0 s : State} {t : Thread} (h : Keeps s0 s) : Keeps s0 (releaseHandled s t) := by
  unfold releaseHandled
  dsimp only
  split
  · split
    · split
      · exact keeps_ite (keeps_readyRow h) h
      · exact h
    · exact h
  · exact h
theorem keeps_forgetTapin {s0 s : State} {blk trec : Nat} (h : Keeps s0 s) : Keeps s0 (forgetTapin s blk trec) :=
  keeps_frame h rfl

/-! ### The baton -/

theorem keeps_setBaton {s0 s : State} {b : Baton} (h : Keeps s0 s) : Keeps s0 (setBaton s b) :=
  keeps_frame h rfl
theorem keeps_giveBaton {s0 s : State} {core blk gang : Nat} (h : Keeps s0 s) : Keeps s0 (giveBaton s core blk gang) := by
  unfold giveBaton
  refine keeps_foldl (keeps_setBaton h) (fun s x h1 => ?_)
  split
  · exact keeps_modThread (keeps_deliverKept h1) (fun _ hx => hx)
  · exact h1
theorem keeps_passBaton {s0 s : State} {core : Nat} (h : Keeps s0 s) : Keeps s0 (passBaton s core) := by
  unfold passBaton
  dsimp only
  split
  · exact keeps_setBaton h
  · exact keeps_giveBaton h
theorem keeps_batonLeave {s0 s : State} {core blk gang : Nat} (h : Keeps s0 s) : Keeps s0 (batonLeave s core blk gang) := by
  unfold batonLeave
  exact keeps_ite (keeps_passBaton (keeps_setBaton h)) (keeps_setBaton h)

/-! ### Rejoin masks -/

theorem keeps_rjRelease {s0 s : State} {blk gang k : Nat} (h : Keeps s0 s) : Keeps s0 (rjRelease s blk gang k) := by
  unfold rjRelease
  dsimp only
  split
  · split
    · split
      · exact h
      · split
        · exact h
        · refine keeps_foldl (keeps_fresh (keeps_modThreads (keeps_modGang h (fun _ hx => hx)) (fun _ hx => hx)))
              (fun s x h1 => ?_)
          split
          · exact keeps_arriveAt (keeps_newBundle h1)
          · exact keeps_newBundle h1
    · exact h
  · exact h
theorem keeps_settleBins {s0 s : State} {core : Nat} (h : Keeps s0 s) : Keeps s0 (settleBins s core) := by
  unfold settleBins
  exact keeps_foldl (keeps_binFreed h) (fun _ _ h1 => keeps_foldl h1 (fun _ _ h3 => keeps_rjRelease h3))
theorem keeps_rjDrop {s0 s : State} {blk gang lane k : Nat} (h : Keeps s0 s) : Keeps s0 (rjDrop s blk gang lane k) := by
  unfold rjDrop
  split
  · exact h
  · exact keeps_rjRelease (keeps_modGang h (fun _ hx => hx))
theorem keeps_rjLeave {s0 s : State} {blk gang lane k : Nat} (h : Keeps s0 s) : Keeps s0 (rjLeave s blk gang lane k) := by
  unfold rjLeave
  split
  · exact h
  · exact keeps_rjDrop (keeps_modGang h (fun _ hx => hx))

/-! ### Leaving -/

theorem keeps_gangGone {s0 s : State} {blk gang : Nat} (h : Keeps s0 s) : Keeps s0 (gangGone s blk gang) := by
  unfold gangGone
  split
  · exact h
  · refine keeps_serveClaims (keeps_batonLeave (keeps_frame (keeps_gangs h fun hall g hg => ?_) rfl))
    exact hall g (List.mem_of_mem_filter hg)
theorem keeps_removeThread {s0 s : State} {t : Thread} (h : Keeps s0 s) : Keeps s0 (removeThread s t) := by
  have hfiltered {u : State} (hu : Keeps s0 u) (bins : List Bin) (arrivals : List Arrival) (p : Thread → Bool) :
      Keeps s0 { u with bins := bins, arrivals := arrivals, threads := u.threads.filter p } :=
    keeps_frame (keeps_threads hu fun hall t ht => hall t (List.mem_of_mem_filter ht)) rfl
  unfold removeThread
  refine hfiltered (keeps_foldl ?_ fun _ _ hs => keeps_leaveBundle hs) _ _ _
  split
  · exact keeps_ite (keeps_modScope h) h
  · exact h
theorem keeps_breakBar {s0 s : State} {r : BarRef} (h : Keeps s0 s) : Keeps s0 (breakBar s r) := by
  unfold breakBar
  exact keeps_wakeBar (keeps_modBar h)
theorem keeps_leaveThread {s0 s : State} {t : Thread} {kill : Bool} (h : Keeps s0 s) : Keeps s0 (leaveThread s t kill) := by
  unfold leaveThread
  split
  · exact h
  · extract_lets counts s1 s2 s3 s4 s5 s6
    have hwait : Keeps s0 s1 := by
      unfold s1
      split
      · exact keeps_modBar h
      · exact h
    have hheld : Keeps s0 s2 := keeps_ite hwait (keeps_releaseHeld hwait)
    have hremoved : Keeps s0 s4 := keeps_set_outst (keeps_removeThread hheld)
    have hjoins : Keeps s0 s5 := keeps_ite (keeps_foldl hremoved fun _ _ hs =>
      keeps_ite (keeps_breakBar (keeps_dropJoin hs)) (keeps_dropJoin hs)) hremoved
    have hmasks : Keeps s0 s6 := keeps_settleBins (keeps_foldl hjoins fun _ _ hs => keeps_rjLeave hs)
    exact keeps_ite (keeps_gangGone hmasks) (keeps_tryGang hmasks)
theorem keeps_settleExits {s0 s : State} (h : Keeps s0 s) : Keeps s0 (settleExits s) := by
  unfold settleExits
  refine keeps_foldl h (fun s x h1 => ?_)
  dsimp only
  split
  · exact keeps_ite (keeps_leaveThread h1) h1
  · exact h1
theorem keeps_markScfence {s0 s : State} (h : Keeps s0 s) : Keeps s0 (markScfence s) := by
  unfold markScfence
  exact keeps_modThreads h (fun _ hx => hx)
theorem keeps_afterReturn {s0 s : State} {blk gang : Nat} (h : Keeps s0 s) : Keeps s0 (afterReturn s blk gang) := by
  unfold afterReturn
  exact keeps_markScfence (keeps_tryGang (keeps_settleBins (keeps_settleParks (keeps_settleExits (keeps_unstall h)))))

/-! ### Branches -/

theorem keeps_checkTargets {s0 s : State} {b : Block} {ret : Bool} {ts : List (Lane × W64)} (h : Keeps s0 s) :
    Keeps s0 (checkTargets s b ret ts).2 := by
  unfold checkTargets
  refine keeps_foldl_snd h (fun q x h1 => ?_)
  split
  · exact h1
  · split
    · rename_i e6
      exact keeps_of_snd e6 (keeps_targetOk h1)
theorem keeps_reenterWait {s0 s : State} {x : Lane} (h : Keeps s0 s) : Keeps s0 (reenterWait s x) := by
  unfold reenterWait
  dsimp only
  split
  · exact h
  · split
    · split
      · exact keeps_wakeBar (keeps_modBar (keeps_set_bundles (keeps_modThread h (fun _ hx => hx))))
      · exact keeps_endDecided (keeps_set_bundles (keeps_modThread h (fun _ hx => hx)))
    · exact keeps_endDecided (keeps_set_bundles (keeps_modThread h (fun _ hx => hx)))
    · exact keeps_set_bundles (keeps_modThread h (fun _ hx => hx))
theorem keeps_branchEffect {s0 s : State} {i : Iss} {op : Nat} {link : Option Reg} {ts : List (Lane × W64)} (h : Keeps s0 s) :
    Keeps s0 (branchEffect i op link ts s) := by
  unfold branchEffect
  refine keeps_foldl (keeps_foldl ?_ (fun _ _ h2 => keeps_traceRec h2))
      (fun _ _ h1 => keeps_ite (keeps_endTrap (keeps_releaseHandled h1)) h1)
  split
  · exact keeps_commit h
  · exact h
theorem keeps_branchReenter {s0 s : State} {op : Nat} {ts : List (Lane × W64)} (h : Keeps s0 s) :
    Keeps s0 (branchReenter op ts s) := by
  unfold branchReenter
  exact keeps_foldl h (fun _ _ h1 => keeps_ite (keeps_reenterWait h1) h1)
theorem keeps_branchPart {s0 s : State} {i : Iss} {op : Nat} {link : Option Reg} {ts : List (Lane × W64)}
    {ps : List ((Nat × Nat) × Place)} (h : Keeps s0 s) : KeepsOut s0 (branchPart i op link ts ps s) := by
  unfold branchPart
  dsimp only
  split
  · exact keepsOut_stall (keeps_branchReenter (keeps_foldl (keeps_parkAll (keeps_branchEffect h))
        (fun _ _ h3 => keeps_splitOff h3)))
  · exact keepsOut_stall (keeps_parkAll (keeps_branchEffect h))
theorem keeps_branch {s0 s : State} {op : Nat} {k : Ctl} {src dst : List RG} {link : Option Reg} {target : Iss → Lane → W64}
    (h : Keeps s0 s) : KeepsRes s0 (branch op k src dst s link target) := by
  unfold branch
  refine keeps_issue h (fun i s h1 => ?_)
  dsimp only
  split
  · rename_i e3
    split
    · split
      · split
        · rename_i e11
          exact keepsOut_stay (keeps_branchReenter (keeps_diverge e11
              (keeps_parkAll (keeps_branchEffect (keeps_of_snd e3 (keeps_checkTargets h1))))))
        · exact keeps_branchPart h1
      · exact keepsOut_stay (keeps_branchEffect (keeps_of_snd e3 (keeps_checkTargets h1)))
    · exact keepsOut_trap (keeps_of_snd e3 (keeps_checkTargets h1))
  · rename_i e22
    exact keepsOut_trap (keeps_of_snd e22 (keeps_checkTargets h1))
theorem keeps_execBra {s0 s : State} {k : Ctl} {tgt : BitVec 32} (h : Keeps s0 s) : KeepsRes s0 (execBra k tgt s) := by
  unfold execBra
  exact keeps_branch h
theorem keeps_execBrx {s0 s : State} {k : Ctl} {a : Reg} (h : Keeps s0 s) : KeepsRes s0 (execBrx k a s) := by
  unfold execBrx
  exact keeps_branch h
theorem keeps_execCall {s0 s : State} {k : Ctl} {d : Reg} {tgt : BitVec 32} (h : Keeps s0 s) :
    KeepsRes s0 (execCall k d tgt s) := by
  unfold execCall
  exact keeps_branch h
theorem keeps_execRet {s0 s : State} {k : Ctl} {a : Reg} (h : Keeps s0 s) : KeepsRes s0 (execRet k a s) := by
  unfold execRet
  exact keeps_branch h

/-! ### Rejoin masks (06 R127, R128) -/

theorem keeps_execRjarm {s0 s : State} {k : Ctl} {a : Reg} {x : BitVec 8} (h : Keeps s0 s) :
    KeepsRes s0 (execRjarm k a x s) := by
  unfold execRjarm
  refine keeps_issue h (fun i s h1 => ?_)
  dsimp only
  split
  · exact keepsOut_done (keeps_foldl h1 (fun _ _ h2 => keeps_modGang h2 (fun _ hx => hx)))
  · exact keepsOut_trap h1
theorem keeps_execRjoin {s0 s : State} {k : Ctl} {x : BitVec 8} (h : Keeps s0 s) : KeepsRes s0 (execRjoin k x s) := by
  unfold execRjoin
  refine keeps_issue h (fun i s h1 => ?_)
  dsimp only
  split
  · exact keepsOut_done (keeps_foldl (keeps_foldl h1
        (fun _ _ h3 => keeps_modThread (keeps_modGang (keeps_leaveBundle (keeps_drainThread h3)) (fun _ hx => hx))
        (fun _ hx => hx))) (fun _ _ h2 => keeps_rjRelease h2))
  · exact keepsOut_trap h1
theorem keeps_execRjdrop {s0 s : State} {k : Ctl} {x : BitVec 8} (h : Keeps s0 s) : KeepsRes s0 (execRjdrop k x s) := by
  unfold execRjdrop
  exact keeps_issue h (fun _ _ h1 => keepsOut_done (keeps_foldl h1 (fun _ _ h4 => keeps_rjDrop h4)))

/-! ### EXIT, TRAP, BRK, YIELD, NAP, PROG, TRCMARK -/

theorem keeps_execExit {s0 s : State} {k : Ctl} (h : Keeps s0 s) : KeepsRes s0 (execExit k s) := by
  unfold execExit
  refine keeps_issue h (fun i s h1 => ?_)
  dsimp only
  split
  · exact keepsOut_done h1
  · exact keepsOut_done (keeps_settleExits (keeps_foldl (keeps_irrevocable h1)
        (fun _ _ h3 => keeps_modThread h3 (fun _ hx => hx))))
theorem keeps_softTrap {s0 s : State} {op cause : Nat} {k : Ctl} {code : BitVec 24} (h : Keeps s0 s) :
    KeepsRes s0 (softTrap op cause k code s) := by
  unfold softTrap
  refine keeps_issue h (fun i s h1 => ?_)
  dsimp only
  split
  · refine keepsOut_done (keeps_foldl (keeps_parkAll h1) (fun s x h2 => ?_))
    split
    · exact keeps_takeTrap h2
    · exact h2
  · refine keepsOut_trap (keeps_foldl (keeps_parkAll h1) (fun s x h2 => ?_))
    split
    · exact keeps_takeTrap h2
    · exact h2
theorem keeps_execTrap {s0 s : State} {k : Ctl} {i : BitVec 24} (h : Keeps s0 s) : KeepsRes s0 (execTrap k i s) := by
  unfold execTrap
  exact keeps_softTrap h
theorem keeps_execBrk {s0 s : State} {k : Ctl} {i : BitVec 24} (h : Keeps s0 s) : KeepsRes s0 (execBrk k i s) := by
  unfold execBrk
  exact keeps_softTrap h
theorem keeps_execYield {s0 s : State} {k : Ctl} (h : Keeps s0 s) : KeepsRes s0 (execYield k s) := by
  unfold execYield
  exact keeps_issue h (fun _ _ h1 => keepsOut_done (keeps_ite h1 (keeps_modBundle h1)))
theorem keeps_execNap {s0 s : State} {k : Ctl} {_i : BitVec 24} (h : Keeps s0 s) : KeepsRes s0 (execNap k _i s) := by
  unfold execNap
  exact keeps_issue h (fun _ _ h1 => keepsOut_done (keeps_foldl h1 (fun _ _ h4 => keeps_modThread h4 (fun _ hx => hx))))
theorem keeps_execProg {s0 s : State} {k : Ctl} {i : BitVec 24} (h : Keeps s0 s) : KeepsRes s0 (execProg k i s) := by
  unfold execProg
  exact keeps_issue h (fun _ _ h1 => keepsOut_done (keeps_foldl h1 (fun _ _ h4 => keeps_modScope (keeps_modCtx h4))))
theorem keeps_execTrcmark {s0 s : State} {k : Ctl} {a : Reg} {i : BitVec 24} (h : Keeps s0 s) :
    KeepsRes s0 (execTrcmark k a i s) := by
  unfold execTrcmark
  exact keeps_issue h (fun _ _ h1 => keepsOut_done (keeps_foldl h1 (fun _ _ h4 => keeps_traceRec h4)))

/-! ### Special registers (05 R98) -/

theorem keeps_execGets {s0 s : State} {k : Ctl} {d : Reg} {i : BitVec 24} (h : Keeps s0 s) :
    KeepsRes s0 (execGets k d i s) := by
  unfold execGets
  exact keeps_issue h (fun _ _ h1 => keepsOut_done (keeps_commit (keeps_ite (keeps_tickCycle h1) h1)))
theorem keeps_execSets {s0 s : State} {k : Ctl} {a : Reg} {i : BitVec 24} (h : Keeps s0 s) :
    KeepsRes s0 (execSets k a i s) := by
  unfold execSets
  refine keeps_issue h (fun i s h1 => ?_)
  split
  · exact keepsOut_done (keeps_foldl h1 (fun _ _ h2 => keeps_modThread h2 (fun _ hx => hx)))
  · split
    · exact keepsOut_trap h1
    · exact keepsOut_done (keeps_modBlock h1 (fun _ hx => hx))
    · exact keepsOut_done h1

/-! ### Barrier instructions -/

theorem keeps_barRefs {s0 s : State} {xs : List Lane} {g : Bool} {a : Reg} (h : Keeps s0 s) :
    Keeps s0 (barRefs s xs g a).2.2 := by
  unfold barRefs
  refine keeps_foldl_snd_snd h (fun q x h1 => ?_)
  split
  · rename_i e4
    exact keeps_of_snd e4 (keeps_barRef h1)
  · rename_i e8
    exact keeps_of_snd e8 (keeps_barRef h1)
theorem keeps_syncIrrevocable {s0 s : State} {blk : Nat} {g any : Bool} (h : Keeps s0 s) :
    Keeps s0 (syncIrrevocable s blk g any) := by
  unfold syncIrrevocable
  exact keeps_ite (keeps_irrevocable h) h
theorem keeps_syncResult {s0 s : State} {xs : List Lane} {x : Lane} {d : Reg} {v : Nat} (h : Keeps s0 s) :
    Keeps s0 (syncResult s xs x d v) := by
  unfold syncResult
  exact keeps_ite (keeps_deliverReg h) h
theorem keeps_barOp {s0 s : State} {op : Nat} {k : Ctl} {g : Bool} {src dst : List RG} {a : Reg}
    {bad : State → Lane → BarRef → W64 → Option Flt} {eff : Iss → State → List (Lane × BarRef × W64) → State} (h : Keeps s0 s)
    (heff : ∀ a0 s a2, Keeps s0 s → Keeps s0 (eff a0 s a2)) : KeepsRes s0 (barOp op k g src dst a s bad eff) := by
  unfold barOp
  refine keeps_issue h (fun i s h1 => ?_)
  split
  · rename_i e4
    split
    · exact keepsOut_done (heff _ _ _ (keeps_syncIrrevocable (keeps_of_snd_snd e4 (keeps_barRefs h1))))
    · exact keepsOut_trap (keeps_of_snd_snd e4 (keeps_barRefs h1))
  · rename_i e14
    exact keepsOut_trap (keeps_of_snd_snd e14 (keeps_barRefs h1))
theorem keeps_syncRelease {s0 s : State} {x : Lane} (h : Keeps s0 s) : Keeps s0 (syncRelease s x) := by
  unfold syncRelease
  exact keeps_bumpRel (keeps_drainThread h)
theorem keeps_execBinit {s0 s : State} {k : Ctl} {g : Bool} {d a b c : Reg} (h : Keeps s0 s) :
    KeepsRes s0 (execBinit k g d a b c s) := by
  unfold execBinit
  refine keeps_barOp h (fun a0 s a2 h1 => keeps_foldl h1 (fun s x h3 => keeps_syncResult (keeps_set_bars ?_)))
  split
  · split
    · split
      · exact keeps_endSavedWaits (keeps_set_nextId (keeps_syncRelease h3))
      · exact keeps_set_nextId (keeps_syncRelease h3)
    · exact keeps_set_nextId (keeps_syncRelease h3)
  · refine keeps_forgetTapin (keeps_noteLine ?_)
    split
    · split
      · exact keeps_endSavedWaits (keeps_set_nextId (keeps_syncRelease h3))
      · exact keeps_set_nextId (keeps_syncRelease h3)
    · exact keeps_set_nextId (keeps_syncRelease h3)
theorem keeps_execBjoin {s0 s : State} {k : Ctl} {g : Bool} {d a : Reg} (h : Keeps s0 s) :
    KeepsRes s0 (execBjoin k g d a s) := by
  unfold execBjoin
  refine keeps_barOp h (fun a0 s a2 h1 => keeps_foldl h1 (fun s x h3 => ?_))
  dsimp only
  split
  · exact keeps_syncResult h3
  · refine keeps_syncResult (keeps_modBar ?_)
    split
    · exact keeps_modThread (keeps_modThread h3 (fun _ hx => hx)) (fun _ hx => hx)
    · exact keeps_modThread h3 (fun _ hx => hx)
theorem keeps_enterBarWait {s0 s : State} {x : Lane} {r : BarRef} {n : W32} {d : Option Reg} (h : Keeps s0 s) :
    Keeps s0 (enterBarWait s x r n d) := by
  unfold enterBarWait
  exact keeps_modBar (keeps_modThread h (fun _ hx => hx))
theorem keeps_arriveAll {s0 s : State} {rs : List (Lane × BarRef × W64)} {wait : State → Lane → BarRef → W32 → State}
    (h : Keeps s0 s) (hwait : ∀ s a1 a2 a3, Keeps s0 s → Keeps s0 (wait s a1 a2 a3)) : Keeps s0 (arriveAll s rs wait) := by
  unfold arriveAll
  refine keeps_foldl h (fun s x h1 => ?_)
  dsimp only
  split
  · exact h1
  · exact keeps_settleBar (keeps_foldl (keeps_arriveBar h1) (fun _ _ h2 => hwait _ _ _ _ h2))
theorem keeps_execBarr {s0 s : State} {k : Ctl} {g : Bool} {d a : Reg} (h : Keeps s0 s) : KeepsRes s0 (execBarr k g d a s) := by
  unfold execBarr
  exact keeps_barOp h (fun _ _ _ h1 => keeps_arriveAll h1 (fun _ _ _ _ h3 => keeps_syncResult h3))
theorem keeps_execBwait {s0 s : State} {k : Ctl} {g : Bool} {d a b : Reg} (h : Keeps s0 s) :
    KeepsRes s0 (execBwait k g d a b s) := by
  unfold execBwait
  exact keeps_barOp h (fun _ _ _ h1 => keeps_foldl h1
      (fun _ _ h3 => keeps_wakeBar (keeps_foldl h3 (fun _ _ h6 => keeps_enterBarWait h6))))
theorem keeps_execBarw {s0 s : State} {k : Ctl} {g : Bool} {d a : Reg} (h : Keeps s0 s) : KeepsRes s0 (execBarw k g d a s) := by
  unfold execBarw
  exact keeps_barOp h (fun _ _ _ h1 => keeps_arriveAll h1 (fun _ _ _ _ h3 => keeps_enterBarWait h3))
theorem keeps_execBdrop {s0 s : State} {k : Ctl} {g : Bool} {d a : Reg} (h : Keeps s0 s) :
    KeepsRes s0 (execBdrop k g d a s) := by
  unfold execBdrop
  refine keeps_barOp h (fun a0 s a2 h1 => keeps_foldl h1 (fun s x h3 => ?_))
  dsimp only
  split
  · exact keeps_syncResult (keeps_dropJoin (keeps_ite (keeps_modThread (keeps_syncRelease h3) (fun _ hx => hx))
        (keeps_syncRelease h3)))
  · exact keeps_syncResult h3
theorem keeps_invalidate {s0 s : State} {b : Bar} (h : Keeps s0 s) : Keeps s0 (invalidate s b) := by
  unfold invalidate
  refine keeps_barWriteBack (keeps_set_bars (keeps_modThreads (keeps_foldl (keeps_endSavedWaits h) (fun s x h4 => ?_))
      (fun _ hx => hx)))
  split
  · exact keeps_ite (keeps_endBarWait h4) h4
  · exact h4
theorem keeps_execBinv {s0 s : State} {k : Ctl} {g : Bool} {d a : Reg} (h : Keeps s0 s) : KeepsRes s0 (execBinv k g d a s) := by
  unfold execBinv
  refine keeps_barOp h (fun a0 s a2 h1 => keeps_foldl h1 (fun s x h3 => ?_))
  split
  · exact keeps_syncResult (keeps_invalidate (keeps_syncRelease h3))
  · exact keeps_syncResult h3
theorem keeps_execBqry {s0 s : State} {k : Ctl} {g : Bool} {d a : Reg} {x : BitVec 8} (h : Keeps s0 s) :
    KeepsRes s0 (execBqry k g d a x s) := by
  unfold execBqry
  refine keeps_barOp h (fun a0 s a2 h1 => keeps_foldl h1 (fun s x h3 => ?_))
  dsimp only
  split
  · exact keeps_syncResult (keeps_ite (keeps_settleFences h3) h3)
  · exact keeps_ite (keeps_settleFences h3) h3

/-! ### Stage rings -/

theorem keeps_execRginit {s0 s : State} {k : Ctl} {d a : Reg} (h : Keeps s0 s) : KeepsRes s0 (execRginit k d a s) := by
  unfold execRginit
  refine keeps_issue h (fun i s h1 => keepsOut_done (keeps_foldl h1 (fun s x h4 => keeps_syncResult ?_)))
  dsimp only
  split
  · exact h4
  · split
    · exact h4
    · exact keeps_frame h4 rfl
theorem keeps_dropRing {s0 s : State} {core id : Nat} (h : Keeps s0 s) : Keeps s0 (dropRing s core id) :=
  keeps_frame h rfl
theorem keeps_execRginitFree {s0 s : State} {k : Ctl} {d a : Reg} (h : Keeps s0 s) : KeepsRes s0 (execRginitFree k d a s) := by
  unfold execRginitFree
  refine keeps_issue h (fun i s h1 => keepsOut_done (keeps_foldl h1 (fun s x h4 => ?_)))
  dsimp only
  split
  · exact keeps_syncResult h4
  · exact keeps_ite (keeps_syncResult h4) (keeps_syncResult (keeps_dropRing h4))
theorem keeps_giveSlot {s0 s : State} {core cmd id v no : Nat} (h : Keeps s0 s) : Keeps s0 (giveSlot s core cmd id v no) :=
  keeps_frame h rfl
theorem keeps_serveOne {s0 s : State} {core id : Nat} {w : RWait} (h : Keeps s0 s) : Keeps s0 (serveOne s core id w) := by
  unfold serveOne
  dsimp only
  split
  · exact h
  · split
    · exact h
    · split
      · split
        · exact keeps_modRing h
        · split
          · exact keeps_fresh h
          · exact keeps_giveSlot (keeps_modRing (keeps_fresh h))
      · split
        · exact keeps_modRing h
        · split
          · exact keeps_fresh h
          · refine keeps_foldl (keeps_modRing (keeps_fresh h)) (fun s x h1 => ?_)
            split
            · exact keeps_modThread (keeps_deliverKept h1) (fun _ hx => hx)
            · exact h1
theorem keeps_serveRing {s0 s : State} {core id : Nat} (h : Keeps s0 s) : Keeps s0 (serveRing s core id) := by
  unfold serveRing
  split
  · exact h
  · exact keeps_foldl h (fun _ _ h1 => keeps_serveOne h1)
theorem keeps_ringTake {s0 s : State} {op : Nat} {fill : Bool} {k : Ctl} {nb : Bool} {d a : Reg} (h : Keeps s0 s) :
    KeepsRes s0 (ringTake op fill k nb d a s) := by
  unfold ringTake
  refine keeps_issue h (fun i s h1 => ?_)
  dsimp only
  split
  · exact keepsOut_done h1
  · split
    · exact keepsOut_done (keeps_foldl h1 (fun _ _ h2 => keeps_syncResult h2))
    · split
      · exact keepsOut_done (keeps_foldl (keeps_modRing (keeps_fresh h1)) (fun _ _ h2 => keeps_syncResult h2))
      · split
        · exact keepsOut_done (keeps_foldl (keeps_fresh h1) (fun _ _ h2 => keeps_syncResult h2))
        · exact keepsOut_done (keeps_foldl (keeps_modRing (keeps_fresh h1)) (fun _ _ h2 => keeps_modThread h2 (fun _ hx => hx)))
theorem keeps_execSlacq {s0 s : State} {k : Ctl} {nb : Bool} {d a : Reg} (h : Keeps s0 s) :
    KeepsRes s0 (execSlacq k nb d a s) := by
  unfold execSlacq
  exact keeps_ringTake h
theorem keeps_execSltak {s0 s : State} {k : Ctl} {nb : Bool} {d a : Reg} (h : Keeps s0 s) :
    KeepsRes s0 (execSltak k nb d a s) := by
  unfold execSltak
  exact keeps_ringTake h
theorem keeps_settleSlot {s0 s : State} {core id k : Nat} (h : Keeps s0 s) : Keeps s0 (settleSlot s core id k) := by
  unfold settleSlot
  split
  · split
    · exact keeps_ite (keeps_serveRing (keeps_modRing h)) h
    · exact h
  · exact h
theorem keeps_execSlfil {s0 s : State} {k : Ctl} {a b c : Reg} (h : Keeps s0 s) : KeepsRes s0 (execSlfil k a b c s) := by
  unfold execSlfil
  refine keeps_issue h (fun i s h1 => ?_)
  dsimp only
  split
  · exact keepsOut_done (keeps_foldl h1 (fun _ _ h2 => keeps_settleSlot (keeps_modRing (keeps_syncRelease h2))))
  · exact keepsOut_trap h1
theorem keeps_releaseSlot {s0 s : State} {slotRead : State → Ring → Nat → Bool} {k : Ctl} {a b : Reg} (h : Keeps s0 s) :
    KeepsRes s0 (releaseSlot slotRead k a b s) := by
  unfold releaseSlot
  refine keeps_issue h (fun i s h1 => ?_)
  dsimp only
  split
  · split
    · exact keepsOut_stall h1
    · refine keepsOut_done (keeps_foldl h1 (fun s x h2 => ?_))
      split
      · exact keeps_unstall (keeps_serveRing (keeps_modRing (keeps_syncRelease h2)))
      · exact keeps_syncRelease h2
  · exact keepsOut_trap h1

end Sys2Proof.Machine
end

section
/-! PROOF. The block pool (17 R327-R337; O33). -/

namespace Sys2Proof.Laws
open Machine

theorem syncRelease_budgets (s : State) (x : Lane) : (syncRelease s x).cfg.budgets = s.cfg.budgets :=
  (keeps_syncRelease (Keeps.refl s)).budgets

/-- Settles O33: requests lane by lane, an engine that is free serves at once, and each operation is its own function. -/
theorem poolInstructions : Obligations.PoolInstructions := by
  unfold Obligations.PoolInstructions
  intro pool seq does request
  have hrequest (i : Instr) (n : Nat) (k : Ctl) (src : List RG) (d : Reg) (w : Nat) (changes : Bool) (pred : Option Nat)
      (op : Lane → PoolOp) (h : ∀ s, exec i s = poolEach n k src d w changes pred op s) :
      request i n k src d w changes pred op :=
    does_of_exec_eq_issue _ h fun _ _ => rfl
  have hpool (op : PoolOp) (name : Nat) (f : State → PoolReq → Pool → Except Nat Nat × State)
      (h : ∀ s q, q.op = op → poolPerform s q = onPool s q name (f s q)) : does op (pool name f) := by
    intro s q hq
    exact h s q hq
  have hseq (op : PoolOp) (name : Nat) (f : State → PoolReq → Pool → Nat → List Nat → Except Nat Nat × State)
      (h : ∀ s q, q.op = op → poolPerform s q = onSeq s q name (f s q)) : does op (seq name f) := by
    intro s q hq
    refine (h s q hq).trans ?_
    dsimp only [onSeq, seq]
    cases seqOf s q.ctx name <;> rfl
  clear_value request
  refine ⟨fun k d a => hrequest _ _ _ _ _ _ _ _ _ fun _ => rfl, fun k d a => hrequest _ _ _ _ _ _ _ _ _ fun _ => rfl,
    fun k d a => hrequest _ _ _ _ _ _ _ _ _ fun _ => rfl, fun k d a => hrequest _ _ _ _ _ _ _ _ _ fun _ => rfl,
    fun k cl d a b => hrequest _ _ _ _ _ _ _ _ _ fun _ => rfl, fun k d a b => hrequest _ _ _ _ _ _ _ _ _ fun _ => rfl,
    fun k d a b => hrequest _ _ _ _ _ _ _ _ _ fun _ => rfl, fun k d a b x => hrequest _ _ _ _ _ _ _ _ _ fun _ => rfl,
    fun k d a b => ?pinit, fun j d w pred op s x v hhome => ?served, fun name => ?new, fun name => ?free, fun name => ?query,
    fun name => ?pfree, fun cl name n => ?alloc, fun name n => ?trim, fun name n => ?drop, fun name n => ?look, fun b q => ?install⟩
  case pinit =>
    refine doesWhen_of_exec_eq_issue _ (fun _ => rfl) fun s q cl bl hready hok => ?_
    rcases hr : taskAddrs (issued s) (issOf s q bl 0xE0 k).cmd a 0 64 64 with ⟨fs, as, t⟩
    simp only [hr] at hok ⊢
    subst hok
    dsimp only [poolIssue]
    rw [Bool.not_true, Bool.or_false] <;> rfl
  case served =>
    intro r hidle hbudget
    unfold poolAsk
    dsimp only
    rw [hhome]
    rw [← show r.2.cfg.budgets = s.cfg.budgets from syncRelease_budgets s x] at hbudget
    refine if_neg ?_
    rw [hidle, Bool.false_or, decide_eq_true_iff]
    exact Nat.not_le.2 hbudget
  case new =>
    exact hpool (.new name) name (fun s _ p => poolNew s p) fun s q hq => by simp only [poolPerform, hq]
  case free =>
    exact hseq (.free name) name (fun s q p t es => (.ok es.length, putPool s ((p.push es q.blk q.rel).dropTable t)))
      fun s q hq => by simp only [poolPerform, hq]
  case query =>
    exact hpool (.query name) name (fun s _ p => (.ok p.free, s)) fun s q hq => by simp only [poolPerform, hq]
  case pfree =>
    exact hpool (.pfree name) name (fun s q p => if !q.kernel || !p.tables.isEmpty then (.error 7, s)
      else (.ok 0, dropPools s (fun x => x.id == p.id))) fun s q hq => by simp only [poolPerform, hq]
  case alloc =>
    exact hseq (.alloc cl name n) name (poolAlloc cl n) fun s q hq => by simp only [poolPerform, hq]
  case trim =>
    exact hseq (.trim name n) name (poolTrim n) fun s q hq => by simp only [poolPerform, hq]
  case drop =>
    exact hseq (.drop name n) name (poolDrop n) fun s q hq => by simp only [poolPerform, hq]
  case look =>
    exact hseq (.look name n) name (fun s _ p _ es => poolLook n s p es) fun s q hq => by simp only [poolPerform, hq]
  case install =>
    intro s r hr
    simp only [poolPerform, hr]

end Sys2Proof.Laws
end

section
/-! PROOF. What arithmetic, copies, memory accesses, matrix operations and sieves keep (O48). -/

namespace Sys2Proof.Machine
open Laws

/-! ### Floating-point arithmetic and comparison of the VEC class (07 R144-R150) -/

theorem keeps_fOp1 {s0 s : State} {op : Nat} {k : Ctl} {rm : BitVec 2} {d a : Reg} {f : Xr → Xr × BitVec 5} (h : Keeps s0 s) :
    KeepsRes s0 (fOp1 op k rm d a s f) := by
  unfold fOp1
  exact keeps_laneOpF h
theorem keeps_fOp2 {s0 s : State} {op : Nat} {k : Ctl} {rm : BitVec 2} {d a b : Reg} {f : Xr → Xr → Xr × BitVec 5}
    (h : Keeps s0 s) : KeepsRes s0 (fOp2 op k rm d a b s f) := by
  unfold fOp2
  exact keeps_laneOpF h
theorem keeps_execFadd {s0 s : State} {k : Ctl} {rm : BitVec 2} {na nc : Bool} {d a b : Reg} (h : Keeps s0 s) :
    KeepsRes s0 (execFadd k rm na nc d a b s) := by
  unfold execFadd
  exact keeps_fOp2 h
theorem keeps_execFmul {s0 s : State} {k : Ctl} {rm : BitVec 2} {na : Bool} {d a b : Reg} (h : Keeps s0 s) :
    KeepsRes s0 (execFmul k rm na d a b s) := by
  unfold execFmul
  exact keeps_fOp2 h
theorem keeps_execFfma {s0 s : State} {k : Ctl} {rm : BitVec 2} {na nc : Bool} {d a b c : Reg} (h : Keeps s0 s) :
    KeepsRes s0 (execFfma k rm na nc d a b c s) := by
  unfold execFfma
  exact keeps_laneOpF h
theorem keeps_execFmin {s0 s : State} {k : Ctl} {d a b : Reg} (h : Keeps s0 s) : KeepsRes s0 (execFmin k d a b s) := by
  unfold execFmin
  exact keeps_laneOpF h
theorem keeps_execFmax {s0 s : State} {k : Ctl} {d a b : Reg} (h : Keeps s0 s) : KeepsRes s0 (execFmax k d a b s) := by
  unfold execFmax
  exact keeps_laneOpF h
theorem keeps_execFcmp {s0 s : State} {k : Ctl} {cb : BitVec 2} {cc : BitVec 3} {d a b : Reg} (h : Keeps s0 s) :
    KeepsRes s0 (execFcmp k cb cc d a b s) := by
  unfold execFcmp
  exact keeps_issue h (fun _ _ h1 => keepsOut_done (keeps_orFlags (keeps_commitP h1)))
theorem keeps_execFdiv {s0 s : State} {k : Ctl} {rm : BitVec 2} {d a b : Reg} (h : Keeps s0 s) :
    KeepsRes s0 (execFdiv k rm d a b s) := by
  unfold execFdiv
  exact keeps_fOp2 h
theorem keeps_execFrcp {s0 s : State} {k : Ctl} {rm : BitVec 2} {d a : Reg} (h : Keeps s0 s) :
    KeepsRes s0 (execFrcp k rm d a s) := by
  unfold execFrcp
  exact keeps_fOp1 h
theorem keeps_execFrsq {s0 s : State} {k : Ctl} {rm : BitVec 2} {d a : Reg} (h : Keeps s0 s) :
    KeepsRes s0 (execFrsq k rm d a s) := by
  unfold execFrsq
  exact keeps_fOp1 h
theorem keeps_execFsqrt {s0 s : State} {k : Ctl} {rm : BitVec 2} {d a : Reg} (h : Keeps s0 s) :
    KeepsRes s0 (execFsqrt k rm d a s) := by
  unfold execFsqrt
  exact keeps_fOp1 h
theorem keeps_execFexp2 {s0 s : State} {k : Ctl} {rm : BitVec 2} {d a : Reg} (h : Keeps s0 s) :
    KeepsRes s0 (execFexp2 k rm d a s) := by
  unfold execFexp2
  exact keeps_fOp1 h
theorem keeps_execFlog2 {s0 s : State} {k : Ctl} {rm : BitVec 2} {d a : Reg} (h : Keeps s0 s) :
    KeepsRes s0 (execFlog2 k rm d a s) := by
  unfold execFlog2
  exact keeps_fOp1 h
theorem keeps_execFsinpi {s0 s : State} {k : Ctl} {rm : BitVec 2} {d a : Reg} (h : Keeps s0 s) :
    KeepsRes s0 (execFsinpi k rm d a s) := by
  unfold execFsinpi
  exact keeps_fOp1 h
theorem keeps_execFcospi {s0 s : State} {k : Ctl} {rm : BitVec 2} {d a : Reg} (h : Keeps s0 s) :
    KeepsRes s0 (execFcospi k rm d a s) := by
  unfold execFcospi
  exact keeps_fOp1 h
theorem keeps_execFrnd {s0 s : State} {k : Ctl} {rm : BitVec 2} {d a : Reg} (h : Keeps s0 s) :
    KeepsRes s0 (execFrnd k rm d a s) := by
  unfold execFrnd
  exact keeps_laneOpF h
theorem keeps_execFscale {s0 s : State} {k : Ctl} {rm : BitVec 2} {d a b : Reg} (h : Keeps s0 s) :
    KeepsRes s0 (execFscale k rm d a b s) := by
  unfold execFscale
  exact keeps_laneOpF h

/-! ### Two 16-bit operations in one register (07 R150) -/

theorem keeps_halfOp {s0 s : State} {op : Nat} {k : Ctl} {src : List RG} {d : Reg} {f : Lane → Nat → Nat × BitVec 5}
    (h : Keeps s0 s) : KeepsRes s0 (halfOp op k src d s f) := by
  unfold halfOp
  exact keeps_laneOpF h
theorem keeps_execHadd2 {s0 s : State} {k : Ctl} {rm : BitVec 2} {hf : Bool} {d a b : Reg} (h : Keeps s0 s) :
    KeepsRes s0 (execHadd2 k rm hf d a b s) := by
  unfold execHadd2
  exact keeps_halfOp h
theorem keeps_execHmul2 {s0 s : State} {k : Ctl} {rm : BitVec 2} {hf : Bool} {d a b : Reg} (h : Keeps s0 s) :
    KeepsRes s0 (execHmul2 k rm hf d a b s) := by
  unfold execHmul2
  exact keeps_halfOp h
theorem keeps_execHfma2 {s0 s : State} {k : Ctl} {rm : BitVec 2} {hf : Bool} {d a b c : Reg} (h : Keeps s0 s) :
    KeepsRes s0 (execHfma2 k rm hf d a b c s) := by
  unfold execHfma2
  exact keeps_halfOp h
theorem keeps_execHmax2 {s0 s : State} {k : Ctl} {hf mn : Bool} {d a b : Reg} (h : Keeps s0 s) :
    KeepsRes s0 (execHmax2 k hf mn d a b s) := by
  unfold execHmax2
  exact keeps_halfOp h

/-! ### Conversions -/

theorem keeps_execCvt {s0 s : State} {k : Ctl} {rm : BitVec 2} {src dst : BitVec 3} {d a : Reg} {x : BitVec 8} (h : Keeps s0 s) :
    KeepsRes s0 (execCvt k rm src dst d a x s) := by
  unfold execCvt
  exact keeps_laneOpF h
theorem keeps_execCvtp {s0 s : State} {k : Ctl} {rm : BitVec 2} {hf : Bool} {d a b : Reg} (h : Keeps s0 s) :
    KeepsRes s0 (execCvtp k rm hf d a b s) := by
  unfold execCvtp
  exact keeps_halfOp h
theorem keeps_execCvtq {s0 s : State} {k : Ctl} {rm : BitVec 2} {fmt : BitVec 3} {sat sc : Bool} {d a c : Reg} {x : BitVec 8}
    (h : Keeps s0 s) : KeepsRes s0 (execCvtq k rm fmt sat sc d a c x s) := by
  unfold execCvtq
  exact keeps_laneOpF h
theorem keeps_execCvto {s0 s : State} {k : Ctl} {rm : BitVec 2} {fmt : BitVec 3} {sc : Bool} {d a b c : Reg} {x : BitVec 8}
    (h : Keeps s0 s) : KeepsRes s0 (execCvto k rm fmt sc d a b c x s) := by
  unfold execCvto
  exact keeps_laneOpF h
theorem keeps_execCvtx {s0 s : State} {k : Ctl} {rm : BitVec 2} {fmt : BitVec 3} {sc : Bool} {d a c : Reg} {x : BitVec 8}
    (h : Keeps s0 s) : KeepsRes s0 (execCvtx k rm fmt sc d a c x s) := by
  unfold execCvtx
  exact keeps_laneOpF h

/-! ### Dot products -/

theorem keeps_dotInt {s0 s : State} {op : Nat} {f : Fmt} {n : Nat} {k : Ctl} {d a b c : Reg} (h : Keeps s0 s) :
    KeepsRes s0 (dotInt op f n k d a b c s) := by
  unfold dotInt
  exact keeps_laneOp h
theorem keeps_dotFp {s0 s : State} {op : Nat} {f : Fmt} {n : Nat} {k : Ctl} {rm : BitVec 2} {d a b c : Reg} (h : Keeps s0 s) :
    KeepsRes s0 (dotFp op f n k rm d a b c s) := by
  unfold dotFp
  exact keeps_laneOpF h
theorem keeps_dots {s0 s : State} {op : Nat} {f : Fmt} {k : Ctl} {rm : BitVec 2} {d a b c : Reg} {x : BitVec 8} (h : Keeps s0 s) :
    KeepsRes s0 (dots op f k rm d a b c x s) := by
  unfold dots
  exact keeps_laneOpF h
theorem keeps_execDotI8 {s0 s : State} {k : Ctl} {d a b c : Reg} (h : Keeps s0 s) : KeepsRes s0 (execDotI8 k d a b c s) := by
  unfold execDotI8
  exact keeps_dotInt h
theorem keeps_execDotZ8 {s0 s : State} {k : Ctl} {d a b c : Reg} (h : Keeps s0 s) : KeepsRes s0 (execDotZ8 k d a b c s) := by
  unfold execDotZ8
  exact keeps_dotInt h
theorem keeps_execDotE4m3 {s0 s : State} {k : Ctl} {rm : BitVec 2} {d a b c : Reg} (h : Keeps s0 s) :
    KeepsRes s0 (execDotE4m3 k rm d a b c s) := by
  unfold execDotE4m3
  exact keeps_dotFp h
theorem keeps_execDotE5m2 {s0 s : State} {k : Ctl} {rm : BitVec 2} {d a b c : Reg} (h : Keeps s0 s) :
    KeepsRes s0 (execDotE5m2 k rm d a b c s) := by
  unfold execDotE5m2
  exact keeps_dotFp h
theorem keeps_execDotI4 {s0 s : State} {k : Ctl} {d a b c : Reg} (h : Keeps s0 s) : KeepsRes s0 (execDotI4 k d a b c s) := by
  unfold execDotI4
  exact keeps_dotInt h
theorem keeps_execDotE2m1 {s0 s : State} {k : Ctl} {rm : BitVec 2} {d a b c : Reg} (h : Keeps s0 s) :
    KeepsRes s0 (execDotE2m1 k rm d a b c s) := by
  unfold execDotE2m1
  exact keeps_dotFp h
theorem keeps_execDotsE4m3 {s0 s : State} {k : Ctl} {rm : BitVec 2} {d a b c : Reg} {x : BitVec 8} (h : Keeps s0 s) :
    KeepsRes s0 (execDotsE4m3 k rm d a b c x s) := by
  unfold execDotsE4m3
  exact keeps_dots h
theorem keeps_execDotsE5m2 {s0 s : State} {k : Ctl} {rm : BitVec 2} {d a b c : Reg} {x : BitVec 8} (h : Keeps s0 s) :
    KeepsRes s0 (execDotsE5m2 k rm d a b c x s) := by
  unfold execDotsE5m2
  exact keeps_dots h
theorem keeps_execDotsE2m1 {s0 s : State} {k : Ctl} {rm : BitVec 2} {d a b c : Reg} {x : BitVec 8} (h : Keeps s0 s) :
    KeepsRes s0 (execDotsE2m1 k rm d a b c x s) := by
  unfold execDotsE2m1
  exact keeps_dots h
theorem keeps_execDotsI8 {s0 s : State} {k : Ctl} {rm : BitVec 2} {d a b c : Reg} {x : BitVec 8} (h : Keeps s0 s) :
    KeepsRes s0 (execDotsI8 k rm d a b c x s) := by
  unfold execDotsI8
  exact keeps_dots h
theorem keeps_execDot2Bf16 {s0 s : State} {k : Ctl} {rm : BitVec 2} {d a b c : Reg} (h : Keeps s0 s) :
    KeepsRes s0 (execDot2Bf16 k rm d a b c s) := by
  unfold execDot2Bf16
  exact keeps_dotFp h
theorem keeps_execDot2F16 {s0 s : State} {k : Ctl} {rm : BitVec 2} {d a b c : Reg} (h : Keeps s0 s) :
    KeepsRes s0 (execDot2F16 k rm d a b c s) := by
  unfold execDot2F16
  exact keeps_dotFp h

/-! ### The checks at issue (14 R281) -/

theorem keeps_pollAccept {s0 s : State} (h : Keeps s0 s) : Keeps s0 (pollAccept s) := by
  unfold pollAccept
  exact keeps_ite (keeps_modThreads h (fun _ hx => hx)) h
theorem keeps_readList {s0 s : State} {i : Iss} {x : Lane} {off n : Nat} (h : Keeps s0 s) :
    Keeps s0 (readList s i x off n) := by
  unfold readList
  exact keeps_foldl (keeps_correctScratch h) (fun _ _ h1 => keeps_ite h1 (keeps_tagScratch h1))
theorem keeps_acceptCopy {s0 s : State} {i : Iss} {x : Lane} {c : CopyCmd} {off : Nat} (h : Keeps s0 s) :
    Keeps s0 (acceptCopy s i x c off) := by
  unfold acceptCopy
  dsimp only
  split
  · exact h
  · refine keeps_set_copies (keeps_fresh ?_)
    split
    · exact keeps_readList (keeps_ite (keeps_irrevocable h) h)
    · exact keeps_ite (keeps_irrevocable h) h
theorem keeps_copyIssue {s0 s : State} {op : Nat} {k : Ctl} {dk : BitVec 3} {d a b c : Reg} {x : BitVec 8} (h : Keeps s0 s) :
    KeepsRes s0 (copyIssue op k dk d a b c x s) := by
  unfold copyIssue
  refine keeps_issue h (fun i s h1 => ?_)
  dsimp only
  split
  · exact keepsOut_done (keeps_pollAccept (keeps_foldl
        (keeps_foldl (keeps_foldl h1 (fun _ _ h5 => keeps_ite (keeps_drainBytes h5) h5)) (fun _ _ h4 => keeps_acceptCopy h4))
        (fun _ _ h3 => keeps_modThread h3 (fun _ hx => hx))))
  · exact keepsOut_trap (keeps_foldl h1 (fun _ _ h2 => keeps_ite (keeps_drainBytes h2) h2))
theorem keeps_execCpy {s0 s : State} {k : Ctl} {dk _ad : BitVec 3} {_bc : Bool} {d a b c : Reg} {x : BitVec 8} (h : Keeps s0 s) :
    KeepsRes s0 (execCpy k dk _ad _bc d a b c x s) := by
  unfold execCpy
  exact keeps_copyIssue h
theorem keeps_execCpyg {s0 s : State} {k : Ctl} {dk _ad : BitVec 3} {_bc : Bool} {d a b c : Reg} {x : BitVec 8} (h : Keeps s0 s) :
    KeepsRes s0 (execCpyg k dk _ad _bc d a b c x s) := by
  unfold execCpyg
  exact keeps_copyIssue h
theorem keeps_execCpys {s0 s : State} {k : Ctl} {dk _ad : BitVec 3} {_bc : Bool} {d a b c : Reg} {x : BitVec 8} (h : Keeps s0 s) :
    KeepsRes s0 (execCpys k dk _ad _bc d a b c x s) := by
  unfold execCpys
  exact keeps_copyIssue h
theorem keeps_execCpyf {s0 s : State} {k : Ctl} {dk _ad : BitVec 3} {_bc : Bool} {d a b c : Reg} {x : BitVec 8} (h : Keeps s0 s) :
    KeepsRes s0 (execCpyf k dk _ad _bc d a b c x s) := by
  unfold execCpyf
  exact keeps_copyIssue h

/-! ### The end of a command, and batches (14 R287) -/

theorem keeps_pollCwait {s0 s : State} {blk gang lane : Nat} (h : Keeps s0 s) : Keeps s0 (pollCwait s blk gang lane) := by
  unfold pollCwait
  dsimp only
  split
  · split
    · split
      · exact keeps_modThread (keeps_deliverKept h) (fun _ hx => hx)
      · exact h
    · exact h
  · exact h
theorem keeps_endCopy {s0 s : State} {c : CopyCmd} {err : Bool} (h : Keeps s0 s) : Keeps s0 (endCopy s c err) := by
  refine keeps_pollCwait (keeps_pollAccept (keeps_unstall (keeps_modThread (keeps_set_copies h) fun t ht => ?_)))
  dsimp only
  split <;> exact ht
theorem keeps_execCseal {s0 s : State} {k : Ctl} {d : Reg} (h : Keeps s0 s) : KeepsRes s0 (execCseal k d s) := by
  unfold execCseal
  refine keeps_issue h (fun i s h1 => ?_)
  dsimp only
  split
  · exact keepsOut_stall h1
  · exact keepsOut_done (keeps_foldl h1 (fun _ _ h2 => keeps_addReply (keeps_modThread (keeps_frame h2 rfl) (fun _ hx => hx))))
theorem keeps_execCwait {s0 s : State} {k : Ctl} {d a : Reg} (h : Keeps s0 s) : KeepsRes s0 (execCwait k d a s) := by
  unfold execCwait
  exact keeps_issue h (fun _ _ h1 => keepsOut_done
      (keeps_foldl h1 (fun _ _ h4 => keeps_pollCwait (keeps_modThread h4 (fun _ hx => hx)))))
theorem keeps_execCpoll {s0 s : State} {k : Ctl} {d : Reg} (h : Keeps s0 s) : KeepsRes s0 (execCpoll k d s) := by
  unfold execCpoll
  exact keeps_issue h (fun _ _ h1 => keepsOut_done
      (keeps_foldl h1 (fun _ _ h4 => keeps_addReply (keeps_modThread h4 (fun _ hx => hx)))))

/-! ### The engine (14 R282-R285) -/

theorem keeps_takeRingSlot {s0 s : State} {c : CopyCmd} (h : Keeps s0 s) : Keeps s0 (takeRingSlot s c) := by
  unfold takeRingSlot
  split
  · exact keeps_ite (keeps_serveRing (keeps_modRing h)) h
  · exact h
theorem keeps_startCopy {s0 s : State} {c : CopyCmd} (h : Keeps s0 s) : Keeps s0 (startCopy s c) := by
  unfold startCopy
  exact keeps_ite h (keeps_ite (keeps_endCopy h) (keeps_modCopy h))
theorem keeps_engineXlate {s0 s : State} {b : Block} {kind va : Nat} {by_ : McRec} (h : Keeps s0 s) :
    Keeps s0 (engineXlate s b kind va by_).2 := by
  unfold engineXlate
  split
  · rename_i e4
    exact keeps_of_snd e4 (keeps_translate h)
  · rename_i e7
    exact keeps_of_snd e7 (keeps_translate h)
  · rename_i e10
    exact keeps_of_snd e10 (keeps_translate h)
  · rename_i e14
    exact keeps_of_snd e14 (keeps_translate h)
theorem keeps_placeXlate {s0 s : State} {b : Block} {by_ : Nat → McRec} {kind : Nat} {p : Except Flt CPlace} (h : Keeps s0 s) :
    Keeps s0 (placeXlate s b by_ kind p).2 := by
  unfold placeXlate
  split
  · exact h
  · split
    · rename_i e9
      exact keeps_ite_snd (keeps_of_snd e9 (keeps_engineXlate h)) (keeps_of_snd e9 (keeps_engineXlate h))
    · rename_i e13
      exact keeps_of_snd e13 (keeps_engineXlate h)
  · exact h
theorem keeps_openElem {s0 s : State} {b : Block} {c : CopyCmd} {e : Nat} (h : Keeps s0 s) : Keeps s0 (openElem s b c e).2 := by
  unfold openElem
  split
  · rename_i e4
    exact keeps_of_snd e4 (keeps_placeXlate h)
  · rename_i e8
    split
    · rename_i e12
      exact keeps_of_snd e12 (keeps_placeXlate (keeps_of_snd e8 (keeps_placeXlate h)))
    · rename_i e16
      exact keeps_of_snd e16 (keeps_placeXlate (keeps_of_snd e8 (keeps_placeXlate h)))
theorem keeps_elemSpend {s0 s : State} {c : CopyCmd} {p : CPlace} (h : Keeps s0 s) : Keeps s0 (elemSpend s c p) := by
  unfold elemSpend
  split
  · exact keeps_ite h (keeps_spendBytes h)
  · exact h
theorem keeps_putOpSlot {s0 s : State} {blk slot off : Nat} {bytes : List Byte} (h : Keeps s0 s) :
    Keeps s0 (putOpSlot s blk slot off bytes) := by
  unfold putOpSlot
  exact keeps_healErrs (keeps_modOpSlot h)
theorem keeps_elemWrite {s0 s : State} {b : Block} {c : CopyCmd} {p : CPlace} {part v : Nat} (h : Keeps s0 s) :
    Keeps s0 (elemWrite s b c p part v) := by
  unfold elemWrite
  dsimp only
  split
  · exact keeps_putOpSlot h
  · split
    · exact keeps_writeScratch h
    · exact keeps_storeGlobal h
  · exact h
theorem keeps_elemTag {s0 s : State} {x : Lane} {r : Rec} {p : CPlace} {w : Nat} {writes : Bool} {no : Nat} (h : Keeps s0 s) :
    Keeps s0 (elemTag s x r p w writes no) := by
  unfold elemTag
  split
  · exact keeps_ite (keeps_tagScratch h) h
  · exact h
theorem keeps_countElem {s0 s : State} {c : CopyCmd} {dropped : Bool} (h : Keeps s0 s) : Keeps s0 (countElem s c dropped) := by
  unfold countElem
  dsimp only
  split
  · split
    · exact h
    · split
      · exact keeps_ite (keeps_landBytes h) h
      · split
        · exact keeps_ite h (keeps_settleSlot (keeps_modRing h))
        · split
          · exact keeps_ite h (keeps_settleSlot (keeps_modRing h))
          · exact h
  · split
    · exact h
    · split
      · exact keeps_ite (keeps_landBytes h) h
      · split
        · exact keeps_ite h (keeps_settleSlot (keeps_modRing h))
        · split
          · exact keeps_ite h (keeps_settleSlot (keeps_modRing h))
          · exact h
theorem keeps_stopCopy {s0 s : State} {c : CopyCmd} {f : Flt} (h : Keeps s0 s) : Keeps s0 (stopCopy s c f) := by
  unfold stopCopy
  dsimp only
  split
  · refine keeps_endCopy ?_
    split
    · exact keeps_elim (keeps_healErrs h) (fun _ => keeps_logKilled (keeps_healErrs h))
    · exact keeps_healErrs h
  · split
    · exact keeps_addMcheck (keeps_modCopy (keeps_healErrs h))
    · exact keeps_askSave (keeps_modCopy (keeps_healErrs h))
theorem keeps_CPlace_correct {s0 s : State} {p : CPlace} {b : Block} {by_ : McRec} {w : Nat} (h : Keeps s0 s) :
    Keeps s0 (CPlace.correct p s b by_ w) := by
  unfold CPlace.correct
  split
  · exact keeps_correctErrs h
  · exact h
theorem keeps_performElem {s0 s : State} {c : CopyCmd} {x : Lane} {el : CElem} {t : State}
    (e : performElem s c x el = .ok t) (h : Keeps s0 s) : Keeps s0 t := by
  unfold performElem at e
  extract_lets no w src dst rest sr dr m isFresh first at e
  split at e
  · cases e
  split at e
  · cases e
  rename_i v _ s1 s2 s3 s4 s5 s6 s7 _ _ _ _
  injection e with e
  subst e
  have hread : Keeps s0 s1 := by
    unfold s1
    clear_value src
    split
    · exact keeps_correctHold h
    · exact keeps_CPlace_correct h
  have hfound : Keeps s0 s2 := keeps_ite hread (keeps_CPlace_correct hread)
  have hspent : Keeps s0 s3 := keeps_elemSpend (keeps_set_issueNo hfound)
  have htagged : Keeps s0 s6 := keeps_elemTag (keeps_elemWrite (keeps_elemTag hspent))
  unfold s7
  split
  · exact keeps_ite (keeps_renewLine htagged) htagged
  · exact htagged
theorem keeps_landedElem {s0 s : State} {c : CopyCmd} {el : CElem} (h : Keeps s0 s) : Keeps s0 (landedElem s c el) := by
  unfold landedElem
  dsimp only
  split
  · exact keeps_modCopy h
  · split
    · split
      · exact keeps_endCopy (keeps_countElem (keeps_modCopy h))
      · exact keeps_countElem (keeps_modCopy h)
    · exact keeps_countElem (keeps_modCopy h)
theorem keeps_CPlace_meet {s0 s : State} {p : CPlace} {by_ : Nat → McRec} (h : Keeps s0 s) :
    Keeps s0 (CPlace.meet p s by_) := by
  unfold CPlace.meet
  split
  · exact keeps_meetLine h
  · exact h
theorem keeps_landOne {s0 s : State} {id : Nat} {el : CElem} (h : Keeps s0 s) : Keeps s0 (landOne s id el).1 := by
  unfold landOne
  dsimp only
  split
  · exact h
  · split
    · split
      · rename_i e14
        exact keeps_landedElem (keeps_performElem e14 (keeps_CPlace_meet (keeps_CPlace_meet h)))
      · exact keeps_CPlace_meet (keeps_CPlace_meet h)
    · exact h
theorem keeps_landAll {s0 s : State} {id : Nat} {els : List CElem} (h : Keeps s0 s) : Keeps s0 (landAll s id els).1 := by
  induction els generalizing s with
  | nil => exact h
  | cons el t ih =>
    unfold landAll
    split
    · exact h
    · split
      · rename_i e
        exact keeps_of_fst e (keeps_landOne h)
      · rename_i e
        have hone := keeps_of_fst e (keeps_landOne h)
        split
        · rename_i e'
          exact keeps_of_fst e' (keeps_landOne hone)
        · rename_i e'
          exact ih (keeps_of_fst e' (keeps_landOne hone))
theorem keeps_retreat {s0 s : State} {id e : Nat} (h : Keeps s0 s) : Keeps s0 (retreat s id e) :=
  keeps_frame h rfl
theorem keeps_stopAt {s0 s : State} {id e : Nat} {f : Flt} (h : Keeps s0 s) : Keeps s0 (stopAt s id e f) := by
  unfold stopAt
  dsimp only
  split
  · exact h
  · split
    · rename_i e9
      exact keeps_of_fst e9 (keeps_landAll h)
    · rename_i e14
      split
      · exact keeps_stopCopy (keeps_retreat (keeps_of_fst e14 (keeps_landAll h)))
      · exact keeps_of_fst e14 (keeps_landAll h)
    · rename_i e22
      split
      · exact keeps_stopCopy (keeps_retreat (keeps_of_fst e22 (keeps_landAll h)))
      · exact keeps_of_fst e22 (keeps_landAll h)
theorem keeps_landElem {s0 s : State} {id : Nat} {el : CElem} (h : Keeps s0 s) : Keeps s0 (landElem s id el) := by
  unfold landElem
  split
  · rename_i e4
    exact keeps_stopAt (keeps_of_fst e4 (keeps_landOne h))
  · rename_i e7
    exact keeps_of_fst e7 (keeps_landOne h)
theorem keeps_openTo {s0 s : State} {fuel id e : Nat} (h : Keeps s0 s) : Keeps s0 (openTo fuel s id e) := by
  induction fuel generalizing s with
  | zero => exact h
  | succ n ih =>
    unfold openTo
    split
    · exact h
    split
    · exact h
    split
    · exact h
    split
    · exact ih (keeps_modCopy h)
    split
    · rename_i e'
      exact ih (keeps_modCopy (keeps_of_snd e' (keeps_openElem h)))
    · rename_i e'
      exact keeps_stopAt (keeps_of_snd e' (keeps_openElem h))
theorem keeps_landCopy {s0 s : State} {id e : Nat} (h : Keeps s0 s) : Keeps s0 (landCopy s id e) := by
  unfold landCopy
  split
  · exact h
  split
  · exact h
  refine keeps_ite h ?_
  extract_lets s1 s2
  have hopened : Keeps s0 s1 := keeps_openTo h
  have hbefore : Keeps s0 s2 := by
    unfold s2
    split
    · refine keeps_ite ?_ hopened
      split <;> rename_i e1
      · exact keeps_stopAt (keeps_of_fst e1 (keeps_landAll hopened))
      · exact keeps_of_fst e1 (keeps_landAll hopened)
    · exact hopened
  split
  · split
    · exact keeps_ite hbefore (keeps_landElem hbefore)
    · exact hbefore
  · exact hbefore
theorem keeps_settleFlying {s0 s : State} {id : Nat} (h : Keeps s0 s) : Keeps s0 (settleFlying s id) := by
  unfold settleFlying
  split
  · split
    · rename_i e8
      exact keeps_stopAt (keeps_of_fst e8 (keeps_landAll h))
    · rename_i e12
      exact keeps_retreat (keeps_of_fst e12 (keeps_landAll h))
    · rename_i e15
      exact keeps_of_fst e15 (keeps_landAll h)
  · exact h

/-! ### SLREL (12 R274) -/

theorem keeps_execSlrel {s0 s : State} {k : Ctl} {a b : Reg} (h : Keeps s0 s) : KeepsRes s0 (execSlrel k a b s) := by
  unfold execSlrel
  exact keeps_releaseSlot h

/-! ### Remote commands (14 R288, 24 R402) -/

theorem keeps_remoteTrace {s0 s : State} {ctx : Nat} {r : Rec} {va pa w v : Nat} (h : Keeps s0 s) :
    Keeps s0 (remoteTrace s ctx r va pa w v) := by
  unfold remoteTrace
  dsimp only
  split
  · exact h
  · split
    · split
      · exact keeps_traceRec (keeps_ite (keeps_traceRec (keeps_freshFree h)) (keeps_freshFree h))
      · exact keeps_ite (keeps_traceRec (keeps_freshFree h)) (keeps_freshFree h)
    · exact keeps_ite (keeps_traceRec (keeps_freshFree h)) (keeps_freshFree h)
theorem keeps_remoteElems {s0 s : State} {ctx ad w : Nat} {r : Rec} {all els : List RemoteElem} (h : Keeps s0 s) :
    Keeps s0 (remoteElems s ctx ad r w all els) := by
  induction els generalizing s with
  | nil => exact h
  | cons q t ih =>
    unfold remoteElems
    split
    · exact h
    · exact ih h
    split
    · rename_i e
      have hpa := keeps_of_snd e (keeps_translate h)
      dsimp only
      split
      · exact hpa
      · exact ih (keeps_ite (keeps_renewLine (keeps_writeBytes (keeps_remoteTrace hpa)))
            (keeps_writeBytes (keeps_remoteTrace hpa)))
    · rename_i e
      exact keeps_of_snd e (keeps_translate h)

/-! ### The MEM class -/

theorem keeps_targets {s0 s : State} {xs : List Lane} {writes : Bool} {f : State → Lane → Except Flt Tgt × State}
    (h : Keeps s0 s) (hf : ∀ s a1, Keeps s0 s → Keeps s0 (f s a1).2) : Keeps s0 (targets s xs writes f).2.2 := by
  unfold targets
  refine keeps_foldl_snd_snd (keeps_foldl h (fun _ _ h2 => keeps_settleFences h2)) (fun q x h1 => ?_)
  split
  · rename_i e4
    exact keeps_of_snd e4 (hf _ _ h1)
  · rename_i e8
    exact keeps_of_snd e8 (hf _ _ h1)
theorem keeps_noteRead {s0 s : State} {x : Lane} {tags : List GTag} (h : Keeps s0 s) : Keeps s0 (noteRead s x tags) := by
  unfold noteRead
  exact keeps_modThread h (fun _ hx => hx)
theorem keeps_noteRelease {s0 s : State} {x : Lane} {rel : Option Nat} (h : Keeps s0 s) : Keeps s0 (noteRelease s x rel) := by
  unfold noteRelease
  exact keeps_ite (keeps_bumpRel (keeps_modThread h (fun _ hx => hx))) h
theorem keeps_dropRelease {s0 s : State} {no : Nat} {x : Lane} (h : Keeps s0 s) : Keeps s0 (dropRelease s no x) := by
  unfold dropRelease
  exact keeps_sweepFences (keeps_addOutst (keeps_bumpRel h))
theorem keeps_settleAccess {s0 s : State} {i : Iss} {x : Lane} {r : Rec} {sp : Space} {addr n : Nat} {m : AMode}
    {acq : Option Nat} {ids : List Nat} (h : Keeps s0 s) : Keeps s0 (settleAccess s i x r sp addr n m acq ids) := by
  unfold settleAccess
  extract_lets w s1 s2 s3
  have hacquired : Keeps s0 s1 := by
    unfold s1
    split
    · exact keeps_acquireWords h
    · exact h
  have hnoted : Keeps s0 s2 := keeps_ite hacquired (keeps_noteRead hacquired)
  have hperformed : Keeps s0 s3 := keeps_foldl hnoted fun _ _ hs => keeps_performNow hs
  refine keeps_ite ?_ (keeps_ite h (keeps_noteRead h))
  split
  · exact keeps_ite hperformed (keeps_tagScratch hperformed)
  · exact hperformed
theorem keeps_ldLane {s0 s : State} {i : Iss} {r : Rec} {m : AMode} {ord : BitVec 2} {scope : BitVec 3} {n : Nat} {d : Reg}
    {t : Lane × Tgt} (h : Keeps s0 s) : Keeps s0 (ldLane i r m ord scope n d s t) := by
  unfold ldLane
  dsimp only
  split
  · exact keeps_addOutst h
  · exact keeps_settleAccess (keeps_foldl_snd h (fun _ _ h2 => keeps_addOutst h2))
theorem keeps_execLd {s0 s : State} {k : Ctl} {ord : BitVec 2} {scope size : BitVec 3} {d a : Reg} {bq : BitVec 5}
    {_cp : BitVec 2} {off : BitVec 17} (h : Keeps s0 s) : KeepsRes s0 (execLd k ord scope size d a bq _cp off s) := by
  unfold execLd
  refine keeps_issue h (fun i s h1 => ?_)
  dsimp only
  split
  · rename_i e4
    exact keepsOut_done (keeps_foldl (keeps_of_snd_snd e4 (keeps_targets h1 (fun _ _ h4 => keeps_target h4)))
        (fun _ _ h2 => keeps_ldLane h2))
  · rename_i e10
    exact keepsOut_trap (keeps_of_snd_snd e10 (keeps_targets h1 (fun _ _ h3 => keeps_target h3)))
theorem keeps_stLane {s0 s : State} {i : Iss} {r : Rec} {m : AMode} {ord : BitVec 2} {scope size : BitVec 3} {d : Reg}
    {t : Lane × Tgt} (h : Keeps s0 s) : Keeps s0 (stLane i r m ord scope size d s t) := by
  unfold stLane
  dsimp only
  split
  · exact keeps_ite h (keeps_dropRelease h)
  · exact keeps_settleAccess (keeps_foldl_snd (keeps_noteRelease h) (fun _ _ h2 => keeps_addOutst h2))
theorem keeps_execSt {s0 s : State} {k : Ctl} {ord : BitVec 2} {scope size : BitVec 3} {d a : Reg} {bq : BitVec 5}
    {_cp : BitVec 2} {off : BitVec 17} (h : Keeps s0 s) : KeepsRes s0 (execSt k ord scope size d a bq _cp off s) := by
  unfold execSt
  refine keeps_issue h (fun i s h1 => ?_)
  dsimp only
  split
  · rename_i e4
    exact keepsOut_done (keeps_foldl (keeps_of_snd_snd e4 (keeps_targets h1 (fun _ _ h4 => keeps_target h4)))
        (fun _ _ h2 => keeps_stLane h2))
  · rename_i e10
    exact keepsOut_trap (keeps_of_snd_snd e10 (keeps_targets h1 (fun _ _ h3 => keeps_target h3)))
theorem keeps_atomIrrevocable {s0 s : State} {r : Rec} {ts : List (Lane × Tgt)} {blk : Nat} (h : Keeps s0 s) :
    Keeps s0 (atomIrrevocable s r ts blk) := by
  unfold atomIrrevocable
  exact keeps_ite (keeps_irrevocable h) h
theorem keeps_atomLane {s0 s : State} {i : Iss} {r : Rec} {m : AMode} {ord : BitVec 2} {scope size : BitVec 3} {d : Reg}
    {aop : BitVec 4} {ret : Bool} {t : Lane × Tgt} (h : Keeps s0 s) : Keeps s0
    (atomLane i r m ord scope size d aop ret s t) := by
  unfold atomLane
  dsimp only
  split
  · split
    · exact keeps_addOutst (keeps_ite (keeps_dropRelease h) h)
    · exact keeps_ite (keeps_dropRelease h) h
  · exact keeps_settleAccess (keeps_addOutst (keeps_noteRelease h))
theorem keeps_atomic {s0 s : State} {op : Nat} {k : Ctl} {ord : BitVec 2} {scope size : BitVec 3} {d a : Reg} {bq : BitVec 5}
    {aop : BitVec 4} {off : BitVec 15} {ret : Bool} (h : Keeps s0 s) : KeepsRes s0
    (atomic op k ord scope size d a bq aop off ret s) := by
  unfold atomic
  refine keeps_issue h (fun i s h1 => ?_)
  dsimp only
  split
  · rename_i e4
    exact keepsOut_done (keeps_foldl (keeps_atomIrrevocable
        (keeps_of_snd_snd e4 (keeps_targets h1 (fun _ _ h5 => keeps_target h5)))) (fun _ _ h2 => keeps_atomLane h2))
  · rename_i e10
    exact keepsOut_trap (keeps_of_snd_snd e10 (keeps_targets h1 (fun _ _ h3 => keeps_target h3)))
theorem keeps_execAtom {s0 s : State} {k : Ctl} {ord : BitVec 2} {scope size : BitVec 3} {d a : Reg} {bq : BitVec 5}
    {aop : BitVec 4} {off : BitVec 15} (h : Keeps s0 s) : KeepsRes s0 (execAtom k ord scope size d a bq aop off s) := by
  unfold execAtom
  exact keeps_atomic h
theorem keeps_execAtomn {s0 s : State} {k : Ctl} {ord : BitVec 2} {scope size : BitVec 3} {d a : Reg} {bq : BitVec 5}
    {aop : BitVec 4} {off : BitVec 15} (h : Keeps s0 s) : KeepsRes s0 (execAtomn k ord scope size d a bq aop off s) := by
  unfold execAtomn
  exact keeps_atomic h
theorem keeps_casLane {s0 s : State} {i : Iss} {r : Rec} {ord : BitVec 2} {scope size : BitVec 3} {d : Reg} {t : Lane × Tgt}
    (h : Keeps s0 s) : Keeps s0 (casLane i r ord scope size d s t) := by
  unfold casLane
  dsimp only
  split
  · exact keeps_addOutst (keeps_ite (keeps_dropRelease h) h)
  · exact keeps_settleAccess (keeps_addOutst (keeps_ite (keeps_noteRelease h) h))
theorem keeps_execCas {s0 s : State} {k : Ctl} {ord : BitVec 2} {scope size : BitVec 3} {d a : Reg} {bq : BitVec 5}
    {_cp : BitVec 2} {off : BitVec 17} (h : Keeps s0 s) : KeepsRes s0 (execCas k ord scope size d a bq _cp off s) := by
  unfold execCas
  refine keeps_issue h (fun i s h1 => ?_)
  dsimp only
  split
  · rename_i e4
    exact keepsOut_done (keeps_foldl (keeps_atomIrrevocable
        (keeps_of_snd_snd e4 (keeps_targets h1 (fun _ _ h5 => keeps_target h5)))) (fun _ _ h2 => keeps_casLane h2))
  · rename_i e10
    exact keepsOut_trap (keeps_of_snd_snd e10 (keeps_targets h1 (fun _ _ h3 => keeps_target h3)))
theorem keeps_fenceMarks {s0 s : State} {t : Thread} {scope : Nat} {rel acq : Bool} (h : Keeps s0 s) :
    Keeps s0 (fenceMarks s t scope rel acq) := by
  unfold fenceMarks
  dsimp only
  split
  · exact keeps_modThread (keeps_ite (keeps_foldl h (fun _ _ h3 => keeps_acquireTag h3)) h) (fun _ hx => hx)
  · exact keeps_ite (keeps_foldl h (fun _ _ h2 => keeps_acquireTag h2)) h
theorem keeps_fenceThread {s0 s : State} {no : Nat} {x : Lane} {scope : Nat} {rel acq : Bool} (h : Keeps s0 s) :
    Keeps s0 (fenceThread s no x scope rel acq) := by
  unfold fenceThread
  exact keeps_sweepFences (keeps_addOutst (keeps_fenceMarks h))
theorem keeps_execFence {s0 s : State} {k : Ctl} {ord : BitVec 2} {scope : BitVec 3} (h : Keeps s0 s) :
    KeepsRes s0 (execFence k ord scope s) := by
  unfold execFence
  exact keeps_issue h (fun _ _ h1 => keepsOut_done (keeps_foldl h1 (fun _ _ h4 => keeps_fenceThread h4)))
theorem keeps_execScfence {s0 s : State} {k : Ctl} {scope : BitVec 3} (h : Keeps s0 s) :
    KeepsRes s0 (execScfence k scope s) := by
  unfold execScfence
  refine keeps_issue h (fun i s h1 => ?_)
  split
  · exact keepsOut_done h1
  · exact keepsOut_done (keeps_markScfence (keeps_foldl (keeps_irrevocable h1)
        (fun _ _ h3 => keeps_modThread (keeps_fenceThread h3) (fun _ hx => hx))))
theorem keeps_bsetLane {s0 s : State} {i : Iss} {d a : Reg} {x : Lane} (h : Keeps s0 s) : KeepsOut s0 (bsetLane i d a s x) := by
  unfold bsetLane
  split
  · exact h
  · exact keepsOut_done (keeps_healErrs (keeps_modBlock h fun _ ⟨hrecs, hscratch⟩ => ⟨sparse_wf_set _ _ _ _ hrecs, hscratch⟩))
theorem keeps_execBset {s0 s : State} {k : Ctl} {d a : Reg} (h : Keeps s0 s) : KeepsRes s0 (execBset k d a s) := by
  unfold execBset
  refine keeps_issue h (fun i s h1 => ?_)
  split
  · exact keepsOut_done h1
  · exact keeps_readOne h1 (fun _ h1_1 => keeps_bsetLane h1_1)
theorem keeps_execBget {s0 s : State} {k : Ctl} {d a : Reg} (h : Keeps s0 s) : KeepsRes s0 (execBget k d a s) := by
  unfold execBget
  exact keeps_issue h (fun _ _ h1 => keepsOut_done (keeps_foldl h1 (fun _ _ h4 => keeps_putReg (keeps_putReg h4))))
theorem keeps_prefLane {s0 s : State} {r : Rec} {a : Reg} {off : BitVec 17} {n : Nat} {x : Lane} (h : Keeps s0 s) :
    Keeps s0 (prefLane r a off n s x) := by
  unfold prefLane
  split
  · exact h
  · split
    · exact keeps_ite (keeps_laneXlate h) h
    · exact h
theorem keeps_execPref {s0 s : State} {k : Ctl} {size : BitVec 3} {a : Reg} {bq : BitVec 5} {_cp : BitVec 2} {off : BitVec 17}
    (h : Keeps s0 s) : KeepsRes s0 (execPref k size a bq _cp off s) := by
  unfold execPref
  exact keeps_issue h (fun _ _ h1 => keepsOut_done (keeps_foldl h1 (fun _ _ h4 => keeps_prefLane h4)))

/-! ### Held units (15 R292, R294) -/

theorem keeps_holdUnits {s0 s : State} {blk kd f n : Nat} (h : Keeps s0 s) : Keeps s0 (holdUnits s blk kd f n) := by
  unfold holdUnits
  dsimp only
  split <;> exact keeps_frame h rfl
theorem keeps_dropUnits {s0 s : State} {blk kd f n : Nat} (h : Keeps s0 s) : Keeps s0 (dropUnits s blk kd f n) := by
  unfold dropUnits
  dsimp only
  split <;> exact keeps_frame h rfl

/-! ### MCLAIM and MREL (15 R303) -/

theorem keeps_endMclaim {s0 s : State} {no v : Nat} (h : Keeps s0 s) : Keeps s0 (endMclaim s no v) := by
  unfold endMclaim
  refine keeps_foldl h (fun s x h1 => ?_)
  split
  · exact keeps_modThread (keeps_deliverKept h1) (fun _ hx => hx)
  · exact h1
theorem keeps_serveMclaims {s0 s : State} {core : Nat} (h : Keeps s0 s) : Keeps s0 (serveMclaims s core) := by
  unfold serveMclaims
  refine keeps_foldl h (fun s x h1 => ?_)
  split
  · exact keeps_ite (keeps_endMclaim h1) (keeps_ite (keeps_endMclaim (keeps_holdUnits h1)) h1)
  · exact h1
theorem keeps_mtxResult {s0 s : State} {i : Iss} {d : Reg} {v : Nat} (h : Keeps s0 s) : Keeps s0 (mtxResult s i d v) := by
  unfold mtxResult
  exact keeps_foldl h (fun _ _ h1 => keeps_syncResult h1)
theorem keeps_execMclaim {s0 s : State} {k : Ctl} {kd : BitVec 2} {nb : Bool} {d a b : Reg} (h : Keeps s0 s) :
    KeepsRes s0 (execMclaim k kd nb d a b s) := by
  unfold execMclaim
  refine keeps_issue h (fun i s h1 => ?_)
  dsimp only
  split
  · exact keepsOut_done h1
  · split
    · exact keepsOut_done (keeps_mtxResult (keeps_irrevocable h1))
    · split
      · exact keepsOut_done (keeps_mtxResult (keeps_irrevocable h1))
      · split
        · exact keepsOut_done (keeps_mtxResult (keeps_holdUnits (keeps_irrevocable h1)))
        · split
          · exact keepsOut_done (keeps_mtxResult (keeps_irrevocable h1))
          · exact keepsOut_done (keeps_foldl (keeps_irrevocable h1) (fun _ _ h2 => keeps_modThread h2 (fun _ hx => hx)))
theorem keeps_execMrel {s0 s : State} {k : Ctl} {kd : BitVec 2} {d a b : Reg} (h : Keeps s0 s) :
    KeepsRes s0 (execMrel k kd d a b s) := by
  unfold execMrel
  refine keeps_issue h (fun i s h1 => ?_)
  dsimp only
  split
  · exact keepsOut_done h1
  · split
    · exact keepsOut_done (keeps_mtxResult (keeps_irrevocable h1))
    · split
      · exact keepsOut_done (keeps_mtxResult (keeps_irrevocable h1))
      · split
        · exact keepsOut_done (keeps_mtxResult (keeps_irrevocable h1))
        · split
          · exact keepsOut_stall (keeps_irrevocable h1)
          · exact keepsOut_done (keeps_mtxResult (keeps_serveMclaims (keeps_dropUnits (keeps_irrevocable h1))))

/-! ### The baton (15 R304, R305) -/

theorem keeps_askBaton {s0 s : State} {i : Iss} {d : Reg} {x : Lane} (h : Keeps s0 s) : Keeps s0 (askBaton s i d x) := by
  unfold askBaton
  dsimp only
  split
  · exact keeps_foldl (keeps_setBaton h) (fun _ _ h1 => keeps_syncResult h1)
  · split
    · exact keeps_foldl h (fun _ _ h1 => keeps_syncResult h1)
    · exact keeps_foldl (keeps_setBaton h) (fun _ _ h1 => keeps_modThread h1 (fun _ hx => hx))
theorem keeps_execMbaton {s0 s : State} {k : Ctl} {d : Reg} (h : Keeps s0 s) : KeepsRes s0 (execMbaton k d s) := by
  unfold execMbaton
  exact keeps_issue h (fun _ _ h1 => keepsOut_done (keeps_foldl h1 (fun _ _ h4 => keeps_askBaton h4)))
theorem keeps_execMpass {s0 s : State} {k : Ctl} {d a : Reg} (h : Keeps s0 s) : KeepsRes s0 (execMpass k d a s) := by
  unfold execMpass
  refine keeps_issue h (fun i s h1 => ?_)
  dsimp only
  split
  · exact keepsOut_done h1
  · split
    · exact keepsOut_trap h1
    · split
      · exact keepsOut_done (keeps_mtxResult (keeps_passBaton
            (keeps_ite (keeps_irrevocable (keeps_syncRelease h1)) (keeps_syncRelease h1))))
      · split
        · exact keepsOut_done (keeps_mtxResult (keeps_giveBaton (keeps_syncRelease h1)))
        · exact keepsOut_done (keeps_mtxResult (keeps_syncRelease h1))

/-! ### Small operations (15 R293, R299, R300) -/

theorem keeps_mopEcc {s0 s : State} {m : MOp} (h : Keeps s0 s) : Keeps s0 (mopEcc s m).2 := by
  unfold mopEcc
  dsimp only
  split
  · exact h
  · exact keeps_ite_snd (keeps_correctErrs h) h
theorem keeps_mopCheck {s0 s : State} {m : MOp} {f : Flt} {acc rc : Nat} (h : Keeps s0 s) :
    Keeps s0 (mopCheck s m f acc rc) := by
  unfold mopCheck
  exact keeps_addMcheck h
theorem keeps_runSmall {s0 s : State} {m : MOp} {o : SmallOp} (h : Keeps s0 s) : Keeps s0 (runSmall s m o) := by
  unfold runSmall
  dsimp only
  split
  · rename_i e4
    exact keeps_mopCheck (keeps_of_snd e4 (keeps_mopEcc h))
  · rename_i e7
    split
    · exact keeps_mopCheck (keeps_healErrs (keeps_of_snd e7 (keeps_mopEcc h)))
    · split
      · exact keeps_modAcc (keeps_noteAcc (keeps_of_snd e7 (keeps_mopEcc h)))
      · exact keeps_of_snd e7 (keeps_mopEcc h)

/-! ### The queue (15 R301, R302) -/

theorem keeps_dropMop {s0 s : State} {id : Nat} (h : Keeps s0 s) : Keeps s0 (dropMop s id) :=
  keeps_frame h rfl
theorem keeps_endMx {s0 s : State} {id : Nat} (h : Keeps s0 s) : Keeps s0 (endMx s id) :=
  keeps_frame h rfl
theorem keeps_mxck {s0 s : State} {m : MOp} {acc rc : Nat} (h : Keeps s0 s) : Keeps s0 (mxck s m acc rc) := by
  unfold mxck
  exact keeps_mopCheck h
theorem keeps_runZero {s0 s : State} {blk acc : Nat} {int : Bool} (h : Keeps s0 s) : Keeps s0 (runZero s blk acc int) := by
  unfold runZero
  exact keeps_healErrs (keeps_modAcc (keeps_noteAcc h))
theorem keeps_runMrd {s0 s : State} {m : MOp} {acc : Nat} {mtol : W32} {els : List (Nat × Nat × Reg × Nat)} (h : Keeps s0 s) :
    Keeps s0 (runMrd s m acc mtol els) := by
  unfold runMrd
  split
  · rename_i e4
    exact keeps_mopCheck (keeps_dropMop (keeps_of_snd e4 (keeps_mopEcc h)))
  · rename_i e7
    split
    · exact keeps_endMx (keeps_dropMop (keeps_of_snd e7 (keeps_mopEcc h)))
    · split
      · exact keeps_mxck (keeps_dropMop (keeps_of_snd e7 (keeps_mopEcc h)))
      · exact keeps_dropMop (keeps_set_outst (keeps_of_snd e7 (keeps_mopEcc h)))
theorem keeps_settleMop {s0 s : State} {m : MOp} (h : Keeps s0 s) : Keeps s0 (settleMop s m) := by
  unfold settleMop
  split
  · exact keeps_ite (keeps_dropMop (keeps_runZero h)) h
  · exact keeps_ite (keeps_runMrd h) h
  · exact keeps_ite (keeps_endMx (keeps_dropMop h)) h
  · exact h
theorem keeps_settleMtx {s0 s : State} (h : Keeps s0 s) : Keeps s0 (settleMtx s) := by
  unfold settleMtx
  exact keeps_settleExits (keeps_unstall (keeps_foldl h (fun _ _ h3 => keeps_settleMop h3)))
theorem keeps_addMop {s0 s : State} {x : Lane} {pc : W64} {k : MKind} (h : Keeps s0 s) : Keeps s0 (addMop s x pc k).2 := by
  unfold addMop
  exact keeps_ite (keeps_frame h rfl) (keeps_frame h rfl)
theorem keeps_awaitMop {s0 s : State} {i : Iss} {id : Nat} {d : Option Reg} (h : Keeps s0 s) :
    Keeps s0 (awaitMop s i id d) := by
  unfold awaitMop
  exact keeps_ite h (keeps_foldl h (fun _ _ h2 => keeps_addOutst h2))
theorem keeps_execMzero {s0 s : State} {k : Ctl} {ik : Bool} {d : Reg} (h : Keeps s0 s) : KeepsRes s0 (execMzero k ik d s) := by
  unfold execMzero
  refine keeps_issue h (fun i s h1 => ?_)
  dsimp only
  split
  · exact keepsOut_done h1
  · split
    · exact keepsOut_trap h1
    · exact keepsOut_done (keeps_settleMtx (keeps_addMop (keeps_modAcc h1)))

/-! ### MMA (15 R297, R298, R307) -/

theorem keeps_mma {s0 s : State} {op : Nat} {f : Fmt} {k : Ctl} {sc rk tr : Bool} {mt : BitVec 3} {a b c : Reg} {x : BitVec 8}
    (h : Keeps s0 s) : KeepsRes s0 (mma op f k sc rk tr mt a b c x s) := by
  unfold mma
  refine keeps_issue h (fun i s h1 => ?_)
  dsimp only
  split
  · exact keepsOut_trap h1
  · split
    · exact keepsOut_trap h1
    · split
      · exact keepsOut_stall h1
      · exact keepsOut_done (keeps_foldl (keeps_foldl h1 (fun _ _ h3 => keeps_correctMet h3)) (fun _ _ h2 => keeps_addMop h2))
theorem keeps_execMmaBf16 {s0 s : State} {k : Ctl} {sc rk tr : Bool} {mt : BitVec 3} {a b c : Reg} {x : BitVec 8}
    (h : Keeps s0 s) : KeepsRes s0 (execMmaBf16 k sc rk tr mt a b c x s) := by
  unfold execMmaBf16
  exact keeps_mma h
theorem keeps_execMmaF16 {s0 s : State} {k : Ctl} {sc rk tr : Bool} {mt : BitVec 3} {a b c : Reg} {x : BitVec 8}
    (h : Keeps s0 s) : KeepsRes s0 (execMmaF16 k sc rk tr mt a b c x s) := by
  unfold execMmaF16
  exact keeps_mma h
theorem keeps_execMmaE4m3 {s0 s : State} {k : Ctl} {sc rk tr : Bool} {mt : BitVec 3} {a b c : Reg} {x : BitVec 8}
    (h : Keeps s0 s) : KeepsRes s0 (execMmaE4m3 k sc rk tr mt a b c x s) := by
  unfold execMmaE4m3
  exact keeps_mma h
theorem keeps_execMmaE5m2 {s0 s : State} {k : Ctl} {sc rk tr : Bool} {mt : BitVec 3} {a b c : Reg} {x : BitVec 8}
    (h : Keeps s0 s) : KeepsRes s0 (execMmaE5m2 k sc rk tr mt a b c x s) := by
  unfold execMmaE5m2
  exact keeps_mma h
theorem keeps_execMmaE2m1 {s0 s : State} {k : Ctl} {sc rk tr : Bool} {mt : BitVec 3} {a b c : Reg} {x : BitVec 8}
    (h : Keeps s0 s) : KeepsRes s0 (execMmaE2m1 k sc rk tr mt a b c x s) := by
  unfold execMmaE2m1
  exact keeps_mma h
theorem keeps_execMmaI8 {s0 s : State} {k : Ctl} {sc rk tr : Bool} {mt : BitVec 3} {a b c : Reg} {x : BitVec 8} (h : Keeps s0 s) :
    KeepsRes s0 (execMmaI8 k sc rk tr mt a b c x s) := by
  unfold execMmaI8
  exact keeps_mma h
theorem keeps_execMmaI4 {s0 s : State} {k : Ctl} {sc rk tr : Bool} {mt : BitVec 3} {a b c : Reg} {x : BitVec 8} (h : Keeps s0 s) :
    KeepsRes s0 (execMmaI4 k sc rk tr mt a b c x s) := by
  unfold execMmaI4
  exact keeps_mma h

/-! ### Mask tiles (15 R308) -/

theorem keeps_loadMask {s0 s : State} {i : Iss} {x : Lane} {pa : Bool} {t off len : Nat} (h : Keeps s0 s) :
    Keeps s0 (loadMask i x pa t off len s) := by
  unfold loadMask
  exact keeps_healErrs (keeps_set_masks (keeps_noteMask (keeps_readList h)))
theorem keeps_execMmask {s0 s : State} {k : Ctl} {pa : Bool} {d a b : Reg} (h : Keeps s0 s) :
    KeepsRes s0 (execMmask k pa d a b s) := by
  unfold execMmask
  refine keeps_issue h (fun i s h1 => ?_)
  dsimp only
  split
  · exact keepsOut_done h1
  · split
    · exact keepsOut_trap (keeps_drainBytes h1)
    · exact keepsOut_done (keeps_loadMask (keeps_drainBytes h1))

/-! ### Drains (15 R312-R315) -/

theorem keeps_execMdrain {s0 s : State} {k : Ctl} {ad rk : Bool} {d a b : Reg} {x : BitVec 8} (h : Keeps s0 s) :
    KeepsRes s0 (execMdrain k ad rk d a b x s) := by
  unfold execMdrain
  refine keeps_issue h (fun i s h1 => ?_)
  dsimp only
  split
  · exact keepsOut_done h1
  · refine keeps_readOne h1 (fun s h1_1 => ?_)
    split
    · exact keepsOut_trap h1_1
    · exact keepsOut_done (keeps_awaitMop (keeps_addMop (keeps_ite h1_1 (keeps_irrevocable h1_1))))
theorem keeps_endMop {s0 s : State} {m : MOp} (h : Keeps s0 s) : Keeps s0 (endMop s m) := by
  unfold endMop
  exact keeps_settleMtx (keeps_endMx (keeps_dropMop h))
theorem keeps_haltDrain {s0 s : State} {m : MOp} {o : DrainOp} {done : Nat} {f : Flt} (h : Keeps s0 s) :
    Keeps s0 (haltDrain s m o done f) := by
  unfold haltDrain
  exact keeps_ite (keeps_endMop h) (keeps_frame h rfl)
theorem keeps_stopDrain {s0 s : State} {m : MOp} {o : DrainOp} {done : Nat} {f : Flt} (h : Keeps s0 s) :
    Keeps s0 (stopDrain s m o done f) := by
  unfold stopDrain
  exact keeps_ite (keeps_addMcheck (keeps_haltDrain h)) (keeps_askSave (keeps_haltDrain h))
theorem keeps_drainXlate {s0 s : State} {b : Block} {m : MOp} {o : DrainOp} {rows : List Nat} (h : Keeps s0 s) :
    Keeps s0 (drainXlate s b m o rows).2.2 := by
  induction rows generalizing s with
  | nil => exact h
  | cons k t ih =>
    dsimp only [drainXlate]
    split
    all_goals
      rename_i s1 e
      have hrow : Keeps s0 s1 := by
        refine keeps_of_snd e (keeps_foldl_snd h fun q n hq => ?_)
        split
        · exact hq
        · split <;> rename_i e <;> exact keeps_of_snd e (keeps_placeXlate hq)
    · exact hrow
    · have hrest := ih hrow
      split <;> rename_i e' <;> exact keeps_of_snd_snd e' hrest
theorem keeps_drainOlder {s0 s : State} {m : MOp} {w : Nat} {els : List (Nat × Nat × CPlace)} (h : Keeps s0 s) :
    Keeps s0 (drainOlder s m w els) := by
  unfold drainOlder
  dsimp only
  split
  · exact h
  · exact keeps_sweepFences (keeps_foldl h (fun _ _ h2 => keeps_force h2))
theorem keeps_drainWrite {s0 s : State} {x : Lane} {m : MOp} {o : DrainOp} {a : Acc} {no : Nat}
    {els : List (Nat × Nat × CPlace)} (h : Keeps s0 s) : Keeps s0 (drainWrite s x m o a no els) := by
  unfold drainWrite
  refine keeps_foldl h (fun s x h1 => ?_)
  dsimp only
  split
  · refine keeps_elemTag ?_
    split
    · exact keeps_writeScratch (keeps_ite (keeps_CPlace_correct h1) h1)
    · exact keeps_storeGlobal (keeps_ite (keeps_CPlace_correct h1) h1)
  · exact h1
theorem keeps_runDrain {s0 s : State} {m : MOp} {o : DrainOp} (h : Keeps s0 s) : Keeps s0 (runDrain s m o) := by
  unfold runDrain
  dsimp only
  split
  · rename_i e4
    exact keeps_mopCheck (keeps_haltDrain (keeps_of_snd e4 (keeps_mopEcc h)))
  · rename_i e7
    split
    · split
      · exact keeps_mxck (keeps_haltDrain (keeps_of_snd e7 (keeps_mopEcc h)))
      · split
        · rename_i e23
          exact keeps_stopDrain (keeps_of_snd_snd e23 (keeps_drainXlate (keeps_of_snd e7 (keeps_mopEcc h))))
        · rename_i e28
          split
          · exact keeps_stopDrain (keeps_foldl (keeps_drainOlder
                (keeps_of_snd_snd e28 (keeps_drainXlate (keeps_of_snd e7 (keeps_mopEcc h)))))
                (fun _ _ h2 => keeps_CPlace_meet h2))
          · exact keeps_endMop (keeps_drainWrite (keeps_set_issueNo
                (keeps_foldl (keeps_drainOlder (keeps_of_snd_snd e28 (keeps_drainXlate (keeps_of_snd e7 (keeps_mopEcc h)))))
                (fun _ _ h4 => keeps_CPlace_meet h4))))
    · exact keeps_endMop (keeps_of_snd e7 (keeps_mopEcc h))

/-! ### MRD and MSYNC (15 R316, R317) -/

theorem keeps_execMrd {s0 s : State} {k : Ctl} {d a : Reg} {x : BitVec 8} (h : Keeps s0 s) :
    KeepsRes s0 (execMrd k d a x s) := by
  unfold execMrd
  refine keeps_issue h (fun i s h1 => ?_)
  dsimp only
  split
  · exact keepsOut_done h1
  · split
    · exact keepsOut_trap h1
    · exact keepsOut_done (keeps_settleMtx (keeps_awaitMop (keeps_addMop h1)))
theorem keeps_execMsync {s0 s : State} {k : Ctl} {bk : Bool} (h : Keeps s0 s) : KeepsRes s0 (execMsync k bk s) := by
  unfold execMsync
  refine keeps_issue h (fun i s h1 => ?_)
  dsimp only
  split
  · exact keepsOut_done h1
  · exact keepsOut_ite (keepsOut_done h1) (keepsOut_done (keeps_awaitMop (keeps_addMop h1)))

/-! ### Events -/

theorem keeps_execMatrixPass {s0 s : State} {core : Nat} (h : Keeps s0 s) : KeepsRes s0 (execMatrixPass core s) := by
  unfold execMatrixPass
  split
  · exact keepsRes_next h
  · exact keepsRes_next (keeps_settleMtx (keeps_foldl h (fun _ _ h3 => keeps_dropMop (keeps_runSmall h3))))
theorem keeps_execDrainExecute {s0 s : State} {id : Nat} (h : Keeps s0 s) : KeepsRes s0 (execDrainExecute id s) := by
  unfold execDrainExecute
  split
  · split
    · exact keepsRes_ite (keepsRes_next (keeps_runDrain h)) (keepsRes_next h)
    · exact keepsRes_next h
  · exact keepsRes_next h

/-! ### Records and tables -/

theorem keeps_engineRead {s0 s : State} {b : Block} {va n : Nat} {by_ : Nat → McRec} (h : Keeps s0 s) :
    Keeps s0 (engineRead s b va n by_).2 := by
  unfold engineRead
  refine keeps_foldl_snd h (fun q x h1 => ?_)
  dsimp only
  split
  · exact h1
  · split
    · rename_i e10
      exact keeps_of_snd e10 (keeps_engineXlate h1)
    · rename_i e14
      split
      · exact keeps_meetLines (keeps_of_snd e14 (keeps_engineXlate h1))
      · split
        · exact keeps_meetLines (keeps_of_snd e14 (keeps_engineXlate h1))
        · exact keeps_correctErrs (keeps_meetLines (keeps_of_snd e14 (keeps_engineXlate h1)))
theorem keeps_readTable {s0 s : State} {b : Block} {addr : Nat} {by_ : Nat → McRec} (h : Keeps s0 s) :
    Keeps s0 (readTable s b addr by_).2 := by
  unfold readTable
  split
  · split
    · rename_i e7
      exact keeps_of_snd e7 (keeps_engineXlate h)
    · rename_i e11
      exact keeps_of_snd e11 (keeps_engineXlate h)
  · split
    · rename_i e17
      exact keeps_of_snd e17 (keeps_engineRead h)
    · rename_i e21
      exact keeps_set_ruleCopies (keeps_of_snd e21 (keeps_engineRead h))

/-! ### TAPIN (19 R357) -/

theorem keeps_tablesXlate {s0 s : State} {b : Block} {by_ : Nat → McRec} {ruleb : Nat} {slots : List Nat} (h : Keeps s0 s) :
    Keeps s0 (tablesXlate s b by_ ruleb slots).2 := by
  unfold tablesXlate
  refine keeps_foldl_snd h (fun q x h1 => ?_)
  split
  · exact h1
  · split
    · exact h1
    · split
      · rename_i e11
        exact keeps_of_snd e11 (keeps_engineXlate h1)
      · rename_i e15
        exact keeps_of_snd e15 (keeps_engineXlate h1)
theorem keeps_ownWrites {s0 s : State} {i : Iss} {l : Lane} {d a b : Reg} (h : Keeps s0 s) :
    Keeps s0 (ownWrites i l d a b s) := by
  unfold ownWrites
  exact keeps_drainBytes (keeps_drainBytes h)
theorem keeps_tapinFault {s0 s : State} {i : Iss} {l : Lane} {d a b c : Reg} (h : Keeps s0 s) :
    Keeps s0 (tapinFault i l d a b c s).2 := by
  unfold tapinFault
  dsimp only
  split
  · exact h
  · exact keeps_tablesXlate h
theorem keeps_acceptTapin {s0 s : State} {i : Iss} {l : Lane} {d a b c : Reg} {x : BitVec 8} (h : Keeps s0 s) :
    Keeps s0 (acceptTapin i l d a b c x s) := by
  unfold acceptTapin
  exact keeps_addOutst (keeps_set_tapins (keeps_set_nextId (keeps_correctScratch (keeps_correctScratch (keeps_syncRelease h)))))
theorem keeps_execTapin {s0 s : State} {k : Ctl} {d a b c : Reg} {x : BitVec 8} (h : Keeps s0 s) :
    KeepsRes s0 (execTapin k d a b c x s) := by
  unfold execTapin
  refine keeps_issue h (fun i s h1 => ?_)
  split
  · exact keepsOut_done h1
  · split
    · rename_i e9
      exact keepsOut_trap (keeps_of_snd e9 (keeps_tapinFault (keeps_ownWrites h1)))
    · rename_i e12
      exact keepsOut_done (keeps_acceptTapin (keeps_of_snd e12 (keeps_tapinFault (keeps_ownWrites h1))))
theorem keeps_retireTapin {s0 s : State} {id : Nat} (h : Keeps s0 s) : Keeps s0 (retireTapin s id) := by
  unfold retireTapin
  dsimp only
  split
  · exact h
  · split
    · exact h
    · refine keeps_foldl (keeps_writeScratch (keeps_writeScratch (keeps_frame h rfl))) (fun s x h1 => ?_)
      split
      · exact keeps_readyRow h1
      · split
        · rename_i e16
          split
          · exact keeps_of_snd e16 (keeps_readTable h1)
          · exact keeps_readyRow (keeps_of_snd e16 (keeps_readTable h1))
        · rename_i e22
          exact keeps_of_snd e22 (keeps_readTable h1)
theorem keeps_servedTapin {s0 s : State} {blk trec : Nat} (h : Keeps s0 s) : Keeps s0 (servedTapin s blk trec) := by
  unfold servedTapin
  dsimp only
  split
  · exact keeps_ite h (keeps_set_outst (keeps_retireTapin h))
  · exact h

/-! ### TAPW, TAPRM, TREL, TAPSYNC -/

theorem keeps_execTapw {s0 s : State} {k : Ctl} {d a b : Reg} (h : Keeps s0 s) : KeepsRes s0 (execTapw k d a b s) := by
  unfold execTapw
  refine keeps_issue h (fun i s h1 => ?_)
  split
  · exact keepsOut_done (keeps_wakeTapw (keeps_foldl h1 (fun _ _ h3 => keeps_modThread h3 (fun _ hx => hx))))
  · exact keepsOut_trap h1
theorem keeps_execTaprm {s0 s : State} {k : Ctl} {hm : Bool} {d a : Reg} (h : Keeps s0 s) :
    KeepsRes s0 (execTaprm k hm d a s) := by
  unfold execTaprm
  refine keeps_issue h (fun i s h1 => ?_)
  dsimp only
  split
  · exact keepsOut_done (keeps_foldl h1 (fun _ _ h2 => keeps_addReply (keeps_servedTapin (keeps_correctScratch h2))))
  · exact keepsOut_trap h1
theorem keeps_relRow {s0 s : State} {id r : Nat} (h : Keeps s0 s) : Keeps s0 (relRow s id r) := by
  unfold relRow
  exact keeps_writeRow (keeps_modRow h)
theorem keeps_execTrel {s0 s : State} {k : Ctl} {a b : Reg} (h : Keeps s0 s) : KeepsRes s0 (execTrel k a b s) := by
  unfold execTrel
  refine keeps_issue h (fun i s h1 => ?_)
  split
  · refine keepsOut_done (keeps_foldl h1 (fun s x h2 => ?_))
    split
    · exact keeps_relRow (keeps_syncRelease (keeps_irrevocable h2))
    · exact h2
  · exact keepsOut_trap h1
theorem keeps_writeBack {s0 s : State} {ctx : Nat} {al : Bool} {addr : Nat} (h : Keeps s0 s) :
    Keeps s0 (writeBack s ctx al addr) := by
  unfold writeBack
  exact keeps_foldl h (fun _ _ h1 => keeps_drainSome h1)
theorem keeps_execTapsync {s0 s : State} {k : Ctl} {al : Bool} {a : Reg} (h : Keeps s0 s) :
    KeepsRes s0 (execTapsync k al a s) := by
  unfold execTapsync
  refine keeps_issue h (fun i s h1 => ?_)
  dsimp only
  split
  · split
    · exact keepsOut_done h1
    · exact keepsOut_done (keeps_foldl (keeps_irrevocable h1)
          (fun _ _ h2 => keeps_set_ruleCopies (keeps_writeBack (keeps_syncRelease h2))))
  · exact keepsOut_trap h1

/-! ### Evaluation (19 R350-R353) -/

theorem keeps_readEntries {s0 s : State} {b : Block} {by_ : Nat → McRec} {r : Rec} {d : Nat} {fs : List Nat} (h : Keeps s0 s) :
    Keeps s0 (readEntries s b by_ r d fs).2 := by
  unfold readEntries
  refine keeps_foldl_snd h (fun q x h1 => ?_)
  dsimp only
  split
  · exact h1
  · split
    · rename_i e10
      exact keeps_of_snd e10 (keeps_engineRead h1)
    · rename_i e14
      exact keeps_of_snd e14 (keeps_engineRead h1)
theorem keeps_ruleStore {s0 s : State} {b : Block} {t : Tapin} {pa va : Nat} {bytes : List Byte} {size keep : Nat}
    (h : Keeps s0 s) : Keeps s0 (ruleStore s b t pa va bytes size keep) := by
  unfold ruleStore
  exact keeps_ite (keeps_meetLine h) (keeps_performStore (keeps_meetLine h))
theorem keeps_writeRules {s0 s : State} {b : Block} {t : Tapin} {addr : Nat} {old : List Byte} {rules seen : List Nat}
    (h : Keeps s0 s) : Keeps s0 (writeRules s b t addr old rules seen) := by
  unfold writeRules
  dsimp only
  split
  · exact keeps_engineXlate h
  · exact keeps_foldl (keeps_engineXlate h) (fun _ _ h1 => keeps_ite h1
        (keeps_set_ruleCopies (keeps_ruleStore (keeps_ruleStore h1))))
theorem keeps_fireRow {s0 s : State} {b : Block} {t : Tapin} {r k a : Nat} {table : List Byte} (h : Keeps s0 s) :
    Keeps s0 (fireRow s b t r k a table) := by
  unfold fireRow
  dsimp only
  split
  · exact h
  · split
    · exact keeps_readyRow (keeps_writeRow (keeps_modRow h))
    · split
      · exact keeps_readyRow (keeps_writeRow (keeps_modRow h))
      · split
        · exact keeps_readyRow (keeps_writeRow (keeps_modRow h))
        · exact keeps_writeRow (keeps_modRow (keeps_modThread (keeps_writeRow (keeps_modRow h)) (fun _ hx => hx)))
theorem keeps_stopRow {s0 s : State} {t : Tapin} {r : Nat} {f : Flt} (h : Keeps s0 s) : Keeps s0 (stopRow s t r f) := by
  unfold stopRow
  exact keeps_ite (keeps_addMcheck (keeps_modRow h)) (keeps_askSave (keeps_modRow h))
theorem keeps_chargeSieve {s0 s : State} {b : Block} {t : Tapin} {slot n : Nat} (h : Keeps s0 s) :
    Keeps s0 (chargeSieve s b t slot n) :=
  keeps_frame h rfl
theorem keeps_evalRow {s0 s : State} {b : Block} {t : Tapin} {r : Nat} {q : TRow} (h : Keeps s0 s) :
    Keeps s0 (evalRow s b t r q) := by
  unfold evalRow
  extract_lets addr dict tile lo errs
  refine keeps_ite (keeps_stopRow (keeps_healErrs h)) ?_
  split <;> rename_i e
  · exact keeps_stopRow (keeps_of_snd e (keeps_readTable h))
  have htable := keeps_of_snd e (keeps_readTable h)
  refine keeps_ite (keeps_readyRow htable) ?_
  split <;> rename_i e1
  · exact keeps_stopRow (keeps_of_snd e1 (keeps_readEntries htable))
  have hentries := keeps_of_snd e1 (keeps_readEntries htable)
  refine keeps_ite (keeps_stopRow hentries) ?_
  extract_lets s1 x entry e0 ev s2 s3 s4
  have hrules : Keeps s0 s3 := keeps_writeRules (keeps_chargeSieve (keeps_correctErrs hentries))
  have hedited : Keeps s0 s4 := keeps_ite (keeps_writeScratch hrules) hrules
  split
  · exact keeps_readyRow hedited
  · exact keeps_fireRow hedited
  · exact keeps_readyRow hedited
theorem keeps_execEval {s0 s : State} {tap row : Nat} (h : Keeps s0 s) : KeepsRes s0 (execEval tap row s) := by
  unfold execEval
  split
  · exact keepsRes_next h
  · split
    · exact keepsRes_next h
    · split
      · exact keepsRes_ite (keepsRes_next (keeps_afterReturn (keeps_evalRow h))) (keepsRes_next h)
      · exact keepsRes_next h

end Sys2Proof.Machine
end

section
/-! PROOF. What the instructions of the MTX, TAP, TASK, SYS and POOL classes keep (O48). -/

namespace Sys2Proof.Machine
open Laws

/-! ### Scopes (10 R220) -/

theorem keeps_queueJob {s0 s : State} {ctx : Nat} {c : BitVec 1024} {poster : Option (Nat × Nat)}
    {q : Option (Nat × W32 × Bool)} (h : Keeps s0 s) : Keeps s0 (queueJob s ctx c poster q).2 :=
  keeps_frame h rfl

/-! ### Trap-queue entries (11 R239) -/

theorem keeps_freshTicket {s0 s : State} {ctx : Nat} (h : Keeps s0 s) : Keeps s0 (freshTicket s ctx).2 :=
  keeps_frame h rfl
theorem keeps_trapNote {s0 s : State} {ctx serial cause : Nat} (h : Keeps s0 s) : Keeps s0 (trapNote s ctx serial cause) := by
  unfold trapNote
  exact keeps_notify h
theorem keeps_orphanEntry {s0 s : State} {ctx serial scope reason cause kind info : Nat} (h : Keeps s0 s) :
    Keeps s0 (orphanEntry s ctx serial scope reason cause kind info) := by
  unfold orphanEntry
  exact keeps_ite (keeps_trapNote h) (keeps_frame h rfl)

/-! ### Futures (10 R218, R219) -/

theorem keeps_futHead {s0 s : State} {pa state head : Nat} (h : Keeps s0 s) : Keeps s0 (futHead s pa state head) := by
  unfold futHead
  exact keeps_ite h (keeps_writeBytes h)
theorem keeps_writeFuture {s0 s : State} {pa state value : Nat} (h : Keeps s0 s) : Keeps s0 (writeFuture s pa state value) := by
  unfold writeFuture
  exact keeps_writeBytes h
theorem keeps_setFut {s0 s : State} {pa : Nat} {r : FutRel} (h : Keeps s0 s) : Keeps s0 (setFut s pa r) := by
  unfold setFut
  exact keeps_setWord (keeps_setWord h)
theorem keeps_endFrdWait {s0 s : State} {blk gang lane : Nat} (h : Keeps s0 s) : Keeps s0 (endFrdWait s blk gang lane) := by
  unfold endFrdWait
  exact keeps_ite (keeps_modThread h (fun _ hx => hx)) h
theorem keeps_deliverCont {s0 s : State} {c : Cont} {v : Nat} {ok : Bool} (h : Keeps s0 s) :
    Keeps s0 (deliverCont s c v ok) := by
  unfold deliverCont
  exact keeps_unstall (keeps_updOutst (keeps_endFrdWait h))
theorem keeps_fillFuture {s0 s : State} {pa value : Nat} {full : Bool} {acq : List (Nat × Nat)} (h : Keeps s0 s) :
    Keeps s0 (fillFuture s pa value full acq) := by
  unfold fillFuture
  dsimp only
  split
  · exact keeps_writeFuture (keeps_setFut (keeps_foldl (keeps_frame h rfl)
        (fun _ _ h3 => keeps_foldl (keeps_deliverCont h3) (fun _ _ h5 => keeps_raiseAcq h5))))
  · exact keeps_futHead (keeps_setWord (keeps_foldl (keeps_frame h rfl)
        (fun _ _ h3 => keeps_foldl (keeps_deliverCont h3) (fun _ _ h5 => keeps_raiseAcq h5))))
theorem keeps_relinkFuture {s0 s : State} {pa : Nat} (h : Keeps s0 s) : Keeps s0 (relinkFuture s pa) := by
  unfold relinkFuture
  split
  · exact keeps_futHead h
  · exact keeps_ite (keeps_futHead h) h
theorem keeps_unlinkConts {s0 s : State} {p : Cont → Bool} (h : Keeps s0 s) : Keeps s0 (unlinkConts s p) := by
  unfold unlinkConts
  exact keeps_foldl (keeps_frame h rfl) (fun _ _ h1 => keeps_relinkFuture h1)
theorem keeps_pruneGone {s0 s : State} (h : Keeps s0 s) : Keeps s0 (pruneGone s) :=
  keeps_frame h rfl

/-! ### Completion of jobs (10 R216) -/

theorem keeps_writeDone {s0 s : State} {j : Job} {full : Bool} (h : Keeps s0 s) : Keeps s0 (writeDone s j full) := by
  unfold writeDone
  dsimp only
  split
  · exact h
  · split
    · rename_i e6
      split
      · exact keeps_orphanEntry (keeps_of_snd e6 (keeps_translate h))
      · split
        · exact keeps_fillFuture (keeps_of_snd e6 (keeps_translate h))
        · exact keeps_of_snd e6 (keeps_translate h)
    · rename_i e13
      exact keeps_orphanEntry (keeps_of_snd e13 (keeps_translate h))
    · rename_i e16
      exact keeps_orphanEntry (keeps_of_snd e16 (keeps_translate h))
    · rename_i e20
      exact keeps_orphanEntry (keeps_of_snd e20 (keeps_translate h))
theorem keeps_entryDone {s0 s : State} {q : Nat} {seq : W32} (h : Keeps s0 s) : Keeps s0 (entryDone s q seq) := by
  unfold entryDone
  exact keeps_setQueue h
theorem keeps_jobEntryDone {s0 s : State} {j : Job} (h : Keeps s0 s) : Keeps s0 (jobEntryDone s j) := by
  unfold jobEntryDone
  split
  · exact keeps_ite (keeps_entryDone h) h
  · exact h
theorem keeps_endJobEntry {s0 s : State} {j : Job} {cancelled : Bool} (h : Keeps s0 s) :
    Keeps s0 (endJobEntry s j cancelled) := by
  unfold endJobEntry
  dsimp only
  split
  · exact h
  · exact keeps_ite (keeps_notify (keeps_jobEntryDone h)) (keeps_jobEntryDone h)
theorem keeps_pollJpwait {s0 s : State} (h : Keeps s0 s) : Keeps s0 (pollJpwait s) := by
  unfold pollJpwait
  refine keeps_foldl h (fun s x h1 => ?_)
  dsimp only
  split
  · split
    · exact h1
    · split
      · exact keeps_modThread (keeps_deliverKept (keeps_foldl h1 (fun _ _ h3 => keeps_raiseAcq h3))) (fun _ hx => hx)
      · exact h1
  · exact h1
theorem keeps_endJob {s0 s : State} {j : Job} {killed : Bool} (h : Keeps s0 s) : Keeps s0 (endJob s j killed) := by
  unfold endJob
  refine keeps_pruneGone (keeps_pollJpwait (keeps_set_killedJobs ?_))
  split
  · exact keeps_set_killedJobs (keeps_set_jobs (keeps_endJobEntry (keeps_writeDone h)))
  · exact keeps_set_jobs (keeps_endJobEntry (keeps_writeDone h))

/-! ### Kills (10 R221) -/

theorem keeps_dropBlock {s0 s : State} {uid : Nat} (h : Keeps s0 s) : Keeps s0 (dropBlock s uid) := by
  unfold dropBlock
  split
  · exact h
  · extract_lets s1 rel gone s2 s3 s4 s5
    have hbase : Keeps s0 s3 := keeps_dropBlockBars (keeps_unlinkConts (keeps_bumpRel h))
    have hdropped : Canonical s3 → Canonical s5 := fun hc =>
      ⟨hc.mem, forall_mem_filter hc.regs, forall_mem_filter hc.uniform, forall_mem_filter hc.recs, forall_mem_filter hc.scratch,
        hc.store, hc.queues, forall_mem_filter hc.kept⟩
    exact keeps_settleBins (keeps_serveMclaims (keeps_serveClaims (hbase.trans ⟨rfl, id, hdropped⟩)))
theorem keeps_freeSave {s0 s : State} {ctx ticket : Nat} (h : Keeps s0 s) : Keeps s0 (freeSave s ctx ticket) := by
  unfold freeSave
  dsimp only
  split
  · exact h
  · split
    · exact keeps_modCtx (keeps_frame h rfl)
    · exact keeps_frame h rfl
theorem keeps_discardSaved {s0 s : State} {b : Block} {ticket : Nat} (h : Keeps s0 s) : Keeps s0 (discardSaved s b ticket) := by
  unfold discardSaved
  exact keeps_freeSave (keeps_dropBlock (keeps_foldl h
      (fun _ _ h3 => keeps_foldl h3 (fun _ _ h5 => keeps_breakBar (keeps_dropJoin h5)))))
theorem keeps_countKilled {s0 s : State} {ctx scope : Nat} (h : Keeps s0 s) : Keeps s0 (countKilled s ctx scope) :=
  keeps_frame h rfl
theorem keeps_killCopies {s0 s : State} {uid : Nat} (h : Keeps s0 s) : Keeps s0 (killCopies s uid) := by
  unfold killCopies
  exact keeps_pollAccept (keeps_frame h rfl)
theorem keeps_killBlock {s0 s : State} {b : Block} (h : Keeps s0 s) : Keeps s0 (killBlock s b) := by
  unfold killBlock
  dsimp only
  split
  · exact h
  · split
    · exact keeps_discardSaved (keeps_countKilled h)
    · refine keeps_unstall (keeps_foldl (keeps_serveMclaims
          (keeps_serveClaims (keeps_modBlock (keeps_set_outst
          (keeps_modThreads (keeps_unlinkConts (keeps_frame (s := killCopies _ _) (keeps_killCopies ?_) rfl)) (fun _ hx => hx)))
          (fun _ hx => hx)))) (fun _ _ h2 => keeps_tryGang h2))
      split
      · exact keeps_freeSave (keeps_countKilled h)
      · exact keeps_countKilled h
theorem keeps_killJob {s0 s : State} {j : Job} (h : Keeps s0 s) : Keeps s0 (killJob s j) := by
  unfold killJob
  dsimp only
  split
  · exact h
  · split
    · exact keeps_endJob (keeps_countKilled h)
    · exact keeps_foldl (keeps_modJob h) (fun _ _ h1 => keeps_killBlock h1)
theorem keeps_cancelScope {s0 s : State} {ctx id : Nat} (h : Keeps s0 s) : Keeps s0 (cancelScope s ctx id) := by
  unfold cancelScope
  exact keeps_foldl (keeps_frame h rfl) (fun _ _ h1 => keeps_killJob h1)
theorem keeps_killForJob {s0 s : State} {ctx serial scope : Nat} (h : Keeps s0 s) :
    Keeps s0 (killForJob s ctx serial scope) := by
  unfold killForJob
  split
  · exact keeps_cancelScope h
  · split
    · exact keeps_killJob h
    · exact h

/-! ### JPOST, JREC, JHINT, JPWAIT (10 R225-R228) -/

theorem keeps_taskAddr {s0 s : State} {x : Lane} {va kind align n : Nat} (h : Keeps s0 s) :
    Keeps s0 (taskAddr s x va kind align n).2 := by
  unfold taskAddr
  dsimp only
  split
  · exact h
  · split
    · rename_i e6
      split
      · split
        · exact keeps_meetLines (keeps_of_snd e6 (keeps_laneXlate h))
        · split
          · exact keeps_meetLines (keeps_of_snd e6 (keeps_laneXlate h))
          · exact keeps_correctErrs (keeps_meetLines (keeps_of_snd e6 (keeps_laneXlate h)))
      · split
        · exact keeps_meetLines (keeps_of_snd e6 (keeps_laneXlate h))
        · split <;> exact keeps_meetLines (keeps_of_snd e6 (keeps_laneXlate h))
    · rename_i e20
      exact keeps_of_snd e20 (keeps_laneXlate h)
theorem keeps_taskAddrs {s0 s : State} {xs : List Lane} {a : Reg} {kind align n : Nat} (h : Keeps s0 s) :
    Keeps s0 (taskAddrs s xs a kind align n).2.2 := by
  unfold taskAddrs
  dsimp only
  split
  · refine keeps_foldl (keeps_foldl_snd_snd h (fun q x h2 => ?_)) (fun _ _ h1 => keeps_spendBytes h1)
    split
    · rename_i e5
      exact keeps_of_snd e5 (keeps_taskAddr h2)
    · rename_i e9
      exact keeps_of_snd e9 (keeps_taskAddr h2)
  · refine keeps_foldl_snd_snd h (fun q x h1 => ?_)
    split
    · rename_i e14
      exact keeps_of_snd e14 (keeps_taskAddr h1)
    · rename_i e18
      exact keeps_of_snd e18 (keeps_taskAddr h1)
theorem keeps_execJpost {s0 s : State} {k : Ctl} {d a : Reg} (h : Keeps s0 s) : KeepsRes s0 (execJpost k d a s) := by
  unfold execJpost
  refine keeps_issue h (fun i s h1 => ?_)
  dsimp only
  split
  · rename_i e4
    refine keepsOut_done (keeps_foldl ?_ (fun _ _ h2 => keeps_addReply
        (keeps_ite_snd (keeps_queueJob (keeps_syncRelease h2)) (keeps_syncRelease h2))))
    split
    · exact keeps_of_snd_snd e4 (keeps_taskAddrs h1)
    · exact keeps_irrevocable (keeps_of_snd_snd e4 (keeps_taskAddrs h1))
  · rename_i e12
    exact keepsOut_trap (keeps_of_snd_snd e12 (keeps_taskAddrs h1))
theorem keeps_dealChunk {s0 s : State} {b : Block} (h : Keeps s0 s) : Keeps s0 (dealChunk s b) := by
  unfold dealChunk
  dsimp only
  split
  · exact keeps_modBlock h (fun _ hx => hx)
  · split
    · exact keeps_modBlock h (fun _ hx => hx)
    · exact keeps_modBlock (keeps_modJob h) (fun _ hx => hx)
theorem keeps_takeRecord {s0 s : State} {uid : Nat} (h : Keeps s0 s) : Keeps s0 (takeRecord s uid).2 := by
  unfold takeRecord
  dsimp only
  split
  · exact h
  · split
    · split
      · exact keeps_modBlock (keeps_ite h (keeps_dealChunk (keeps_irrevocable h))) (fun _ hx => hx)
      · exact keeps_ite h (keeps_dealChunk (keeps_irrevocable h))
    · exact keeps_ite h (keeps_dealChunk (keeps_irrevocable h))
theorem keeps_execJrec {s0 s : State} {k : Ctl} {d : Reg} {x : BitVec 8} (h : Keeps s0 s) : KeepsRes s0 (execJrec k d x s) := by
  unfold execJrec
  refine keeps_issue h (fun i s h1 => keepsOut_done (keeps_foldl h1 (fun s x h4 => ?_)))
  split
  · rename_i e4
    exact keeps_addReply (keeps_of_snd e4 (keeps_takeRecord h4))
  · rename_i e7
    exact keeps_addReply (keeps_of_snd e7 (keeps_takeRecord h4))
theorem keeps_execJhint {s0 s : State} {k : Ctl} (h : Keeps s0 s) : KeepsRes s0 (execJhint k s) := by
  unfold execJhint
  exact keeps_issue h (fun _ _ h1 => keepsOut_done (keeps_ite h1 (keeps_modBlock h1 (fun _ hx => hx))))
theorem keeps_execJpwait {s0 s : State} {k : Ctl} {d : Reg} (h : Keeps s0 s) : KeepsRes s0 (execJpwait k d s) := by
  unfold execJpwait
  exact keeps_issue h (fun _ _ h1 => keepsOut_done
      (keeps_pollJpwait (keeps_foldl h1 (fun _ _ h5 => keeps_modThread h5 (fun _ hx => hx)))))

/-! ### FINIT, FWR, FRD (10 R229, R230) -/

theorem keeps_futWrites {s0 s : State} {xs : List (Lane × Nat)} {bad : Nat → Option Nat} {eff : State → Lane → Nat → State}
    (h : Keeps s0 s) (heff : ∀ s a1 a2, Keeps s0 s → Keeps s0 (eff s a1 a2)) : Keeps s0 (futWrites s xs bad eff).2 := by
  unfold futWrites
  refine keeps_foldl_snd h (fun q x h1 => ?_)
  split
  · exact h1
  · exact heff _ _ _ h1
theorem keeps_drainFuts {s0 s : State} {writes : Bool} {as : List (Lane × Nat)} (h : Keeps s0 s) :
    Keeps s0 (drainFuts writes s as) := by
  unfold drainFuts
  exact keeps_foldl h (fun _ _ h1 => keeps_drainBytes (keeps_settleFences h1))
theorem keeps_fwrLane {s0 s : State} {b : Reg} {x : Lane} {pa : Nat} (h : Keeps s0 s) : Keeps s0 (fwrLane b s x pa) := by
  unfold fwrLane
  exact keeps_tagGlobal (keeps_fillFuture h)
theorem keeps_finitLane {s0 s : State} {x : Lane} {pa : Nat} (h : Keeps s0 s) : Keeps s0 (finitLane s x pa) := by
  unfold finitLane
  exact keeps_tagGlobal (keeps_writeFuture (keeps_setFut (keeps_noteRelease h)))
theorem keeps_execFinit {s0 s : State} {k : Ctl} {a : Reg} (h : Keeps s0 s) : KeepsRes s0 (execFinit k a s) := by
  unfold execFinit
  refine keeps_issue h (fun i s h1 => ?_)
  dsimp only
  split
  · rename_i e4
    split
    · rename_i e7
      refine keepsOut_done (keeps_of_snd e7 (keeps_futWrites (keeps_drainFuts ?_) (fun _ _ _ h3 => keeps_finitLane h3)))
      split
      · exact keeps_of_snd_snd e4 (keeps_taskAddrs h1)
      · exact keeps_irrevocable (keeps_of_snd_snd e4 (keeps_taskAddrs h1))
    · exact keepsOut_trap (keeps_of_snd_snd e4 (keeps_taskAddrs h1))
  · rename_i e20
    exact keepsOut_trap (keeps_of_snd_snd e20 (keeps_taskAddrs h1))
theorem keeps_execFwr {s0 s : State} {k : Ctl} {a b : Reg} (h : Keeps s0 s) : KeepsRes s0 (execFwr k a b s) := by
  unfold execFwr
  refine keeps_issue h (fun i s h1 => ?_)
  dsimp only
  split
  · rename_i e4
    split
    · rename_i e7
      refine keepsOut_done (keeps_of_snd e7 (keeps_futWrites (keeps_foldl ?_ (fun _ _ h4 => keeps_syncRelease h4))
          (fun _ _ _ h3 => keeps_fwrLane h3)))
      split
      · exact keeps_of_snd_snd e4 (keeps_taskAddrs h1)
      · exact keeps_irrevocable (keeps_of_snd_snd e4 (keeps_taskAddrs h1))
    · exact keepsOut_trap (keeps_of_snd_snd e4 (keeps_taskAddrs h1))
  · rename_i e20
    exact keepsOut_trap (keeps_of_snd_snd e20 (keeps_taskAddrs h1))
theorem keeps_linkCont {s0 s : State} {i : Iss} {x : Lane} {pa va : Nat} {d : Reg} {p : Nat} (h : Keeps s0 s) :
    Keeps s0 (linkCont s i x pa va d p) := by
  unfold linkCont
  exact keeps_relinkFuture (keeps_frame h rfl)
theorem keeps_frdLane {s0 s : State} {i : Iss} {d a : Reg} {p : Nat} {q : Lane × Nat} (h : Keeps s0 s) :
    Keeps s0 (frdLane i d a p s q) := by
  unfold frdLane
  dsimp only
  split
  · exact keeps_addOutst (keeps_foldl (keeps_acquireWords (keeps_correctHold h)) (fun _ _ h2 => keeps_raiseAcq h2))
  · exact keeps_addOutst (keeps_correctHold h)
  · exact keeps_linkCont (keeps_correctHold h)
theorem keeps_execFrd {s0 s : State} {k : Ctl} {d a : Reg} {x : BitVec 8} (h : Keeps s0 s) :
    KeepsRes s0 (execFrd k d a x s) := by
  unfold execFrd
  refine keeps_issue h (fun i s h1 => ?_)
  dsimp only
  split
  · rename_i e4
    split
    · exact keepsOut_stall (keeps_drainFuts (keeps_of_snd_snd e4 (keeps_taskAddrs h1)))
    · exact keepsOut_done (keeps_foldl (keeps_drainFuts (keeps_of_snd_snd e4 (keeps_taskAddrs h1)))
          (fun _ _ h2 => keeps_frdLane h2))
  · rename_i e12
    exact keepsOut_trap (keeps_of_snd_snd e12 (keeps_taskAddrs h1))

/-! ### SCOPEN, SCCAN, SCACK, SCQRY (10 R231-R234) -/

theorem keeps_openScope {s0 s : State} {x : Lane} {xc : Bool} {a b c : Reg} (h : Keeps s0 s) :
    Keeps s0 (openScope s x xc a b c).2 := by
  unfold openScope
  refine keeps_ite_snd h (keeps_ite_snd h ?_)
  split
  · exact h
  · exact keeps_set_scopes h
theorem keeps_execScopen {s0 s : State} {k : Ctl} {xc : Bool} {d a b c : Reg} (h : Keeps s0 s) :
    KeepsRes s0 (execScopen k xc d a b c s) := by
  unfold execScopen
  refine keeps_issue h (fun i s h1 => ?_)
  dsimp only
  split
  · exact keepsOut_done (keeps_foldl (keeps_ite h1 (keeps_irrevocable h1)) (fun _ _ h2 => keeps_addReply (keeps_openScope h2)))
  · exact keepsOut_trap h1
theorem keeps_scan {s0 s : State} {x : Lane} {xc : Bool} {a c : Reg} (h : Keeps s0 s) : Keeps s0 (scan s x xc a c).2 := by
  unfold scan
  dsimp only
  split
  · exact h
  · split
    · exact h
    · exact keeps_ite_snd h (keeps_ite_snd h (keeps_cancelScope h))
theorem keeps_execSccan {s0 s : State} {k : Ctl} {xc : Bool} {d a c : Reg} (h : Keeps s0 s) :
    KeepsRes s0 (execSccan k xc d a c s) := by
  unfold execSccan
  refine keeps_issue h (fun i s h1 => keepsOut_done (keeps_foldl (keeps_ite h1 (keeps_irrevocable h1)) (fun s x h4 => ?_)))
  split
  · rename_i e4
    exact keeps_addReply (keeps_of_snd e4 (keeps_scan h4))
theorem keeps_execScack {s0 s : State} {k : Ctl} {xc : Bool} {d a c : Reg} (h : Keeps s0 s) :
    KeepsRes s0 (execScack k xc d a c s) := by
  unfold execScack
  refine keeps_issue h (fun i s h1 => keepsOut_done (keeps_foldl (keeps_ite h1 (keeps_irrevocable h1)) (fun s x h4 => ?_)))
  dsimp only
  split
  · exact keeps_addReply h4
  · exact keeps_addOutst h4
theorem keeps_execScqry {s0 s : State} {k : Ctl} {xc : Bool} {d a c : Reg} (h : Keeps s0 s) :
    KeepsRes s0 (execScqry k xc d a c s) := by
  unfold execScqry
  exact keeps_issue h (fun _ _ h1 => keepsOut_done (keeps_foldl h1 (fun _ _ h4 => keeps_addReply h4)))

/-! ### Which bundle may issue -/

theorem keeps_takeTurn {s0 s : State} {b : Bundle} (h : Keeps s0 s) : Keeps s0 (takeTurn s b) := by
  unfold takeTurn
  exact keeps_ite (keeps_settleBins (keeps_frame h rfl)) h
theorem keeps_clearPark {s0 s : State} {b : Bundle} (h : Keeps s0 s) : Keeps s0 (clearPark s b) := by
  unfold clearPark
  exact keeps_modThreads h (fun _ hx => hx)

/-! ### CLAUSE_BEGIN (02 R22, R29) -/

theorem keeps_beginClause {s0 s : State} {b : Bundle} {k : Block} (h : Keeps s0 s) : Keeps s0 (beginClause s b k) := by
  unfold beginClause
  dsimp only
  split
  · exact keeps_raise h
  · split
    · rename_i e6
      exact keeps_raise (keeps_of_snd e6 (keeps_fetchWord h))
    · rename_i e10
      split
      · exact keeps_raise (keeps_of_snd e10 (keeps_fetchWord h))
      · split
        · exact keeps_settleBins (keeps_fileMembers (keeps_of_snd e10 (keeps_fetchWord h)))
        · split
          · exact keeps_mergePath (keeps_of_snd e10 (keeps_fetchWord h))
          · split
            · rename_i e23
              exact keeps_raise (keeps_of_snd e23 (keeps_fetchWords (keeps_mergePath (keeps_of_snd e10 (keeps_fetchWord h)))))
            · rename_i e27
              exact keeps_modBundle (keeps_settleBins (keeps_takeTurn
                  (keeps_clearPark (keeps_of_snd e27 (keeps_fetchWords
                  (keeps_mergePath (keeps_of_snd e10 (keeps_fetchWord h))))))))
theorem keeps_execClauseBegin {s0 s : State} {bundle : Nat} (h : Keeps s0 s) : KeepsRes s0 (execClauseBegin bundle s) := by
  unfold execClauseBegin
  split
  · exact keepsRes_next h
  · split
    · exact keepsRes_next h
    · exact keepsRes_next (keeps_ite (keeps_beginClause h) h)

/-! ### BUNDLE_DRAW and ARRIVAL_QUEUE_FILE (05 R80, R81) -/

theorem keeps_execBundleDraw {s0 s : State} {bin : Nat} {aged : Bool} (h : Keeps s0 s) :
    KeepsRes s0 (execBundleDraw bin aged s) := by
  unfold execBundleDraw
  dsimp only
  split
  · exact keepsRes_next h
  · split
    · exact keepsRes_next h
    · refine keepsRes_next ?_
      split
      · exact keeps_settleBins (keeps_newBundle (keeps_frame h rfl))
      · exact keeps_newBundle (keeps_frame h rfl)
theorem keeps_execArrivalQueueFile {s0 s : State} {core : Nat} (h : Keeps s0 s) :
    KeepsRes s0 (execArrivalQueueFile core s) := by
  unfold execArrivalQueueFile
  exact keepsRes_next (keeps_fileArrivals h)

/-! ### The plan of a bundle -/

theorem keeps_pollHalt {s0 s : State} (h : Keeps s0 s) : Keeps s0 (pollHalt s) := by
  unfold pollHalt
  refine keeps_foldl h (fun s x h1 => ?_)
  split
  · exact keeps_ite (keeps_modThread (keeps_deliverKept h1) (fun _ hx => hx)) h1
  · exact h1
theorem keeps_gaveWay {s0 s : State} {core : Nat} (h : Keeps s0 s) : Keeps s0 (gaveWay s core) := by
  unfold gaveWay
  exact keeps_ite (keeps_frame h rfl) h

/-! ### A new block (05 R91, R97, R408) -/

theorem newThread_canon (uid g l : Nat) (entry : W64) : (newThread uid g l entry).Canon := rfl
theorem newGang_canon (uid g role base : Nat) : (newGang uid g role base).Canon := rfl
/-- Blocks, gangs and threads are added. -/
theorem keeps_added {s0 s : State} {bs : List Block} {gs : List Gang} {ts : List Thread} (h : Keeps s0 s)
    (hb : ∀ b ∈ bs, b.Canon) (hg : ∀ g ∈ gs, g.Canon) (ht : ∀ t ∈ ts, t.Canon) :
    Keeps s0 { s with blocks := s.blocks ++ bs, gangs := s.gangs ++ gs, threads := s.threads ++ ts } :=
  keeps_threads (keeps_gangs (keeps_blocks h fun hall => List.forall_mem_append.mpr ⟨hall, hb⟩)
    fun hall => List.forall_mem_append.mpr ⟨hall, hg⟩) fun hall => List.forall_mem_append.mpr ⟨hall, ht⟩
theorem keeps_newBlock {s0 s : State} {j : Job} {num core group : Nat} (h : Keeps s0 s) :
    Keeps s0 (newBlock s j num core group).2 := by
  refine keeps_added (keeps_fresh h) (fun b hb => ?_) (List.forall_mem_map.mpr fun g _ => newGang_canon ..) fun t ht => ?_
  · rw [List.mem_singleton.mp hb]
    split <;> exact ⟨rfl, rfl⟩
  · obtain ⟨g, -, ht⟩ := List.mem_flatMap.mp ht
    obtain ⟨l, -, rfl⟩ := List.mem_map.mp ht
    exact newThread_canon ..
theorem keeps_startBlock {s0 s : State} {uid : Nat} {entry : W64} (h : Keeps s0 s) : Keeps s0 (startBlock s uid entry) := by
  unfold startBlock
  dsimp only
  split
  · exact h
  · exact keeps_foldl (keeps_isReform h) (fun _ _ h1 => keeps_ite (keeps_foldl h1 (fun _ _ h4 => keeps_fileThread h4))
        (keeps_newBundle h1))

/-! ### Launch (10 R211-R217) -/

theorem keeps_placeBlocks {s0 s : State} {j : Job} {group num : Nat} {cores : List Nat} {a : List Nat} {t : State}
    (e : placeBlocks s j group num cores = some (a, t)) (h : Keeps s0 s) : Keeps s0 t := by
  induction cores generalizing s num a with
  | nil =>
    cases e
    exact h
  | cons c rest ih =>
    unfold placeBlocks at e
    split at e
    · obtain ⟨r, hr, e⟩ := Option.map_eq_some_iff.mp e
      cases e
      exact ih hr (keeps_newBlock h)
    · cases e
theorem keeps_execBlockLaunch {s0 s : State} {ctx serial : Nat} {cores : List Nat} (h : Keeps s0 s) :
    KeepsRes s0 (execBlockLaunch ctx serial cores s) := by
  unfold execBlockLaunch
  dsimp only
  split
  · exact keepsRes_next h
  · split
    · split
      · exact keepsRes_next h
      · rename_i e12
        exact keepsRes_next (keeps_foldl (keeps_modJob (keeps_placeBlocks e12 h)) (fun _ _ h2 => keeps_startBlock h2))
    · exact keepsRes_next h

/-! ### Stall records (23 R390-R392) -/

theorem keeps_stallRecord {s0 s : State} {uid : Nat} (h : Keeps s0 s) : Keeps s0 (stallRecord s uid) := by
  unfold stallRecord
  dsimp only
  split
  · exact h
  · exact keeps_traceRec h

/-! ### Retirement and completion (10 R216) -/

theorem keeps_execBlockRetire {s0 s : State} {blk : Nat} (h : Keeps s0 s) : KeepsRes s0 (execBlockRetire blk s) := by
  unfold execBlockRetire
  split
  · exact keepsRes_next h
  · split
    · exact keepsRes_next h
    · exact keepsRes_next (keeps_dropBlock (keeps_stallRecord (keeps_ite h (keeps_drainHold h))))
theorem keeps_execJobComplete {s0 s : State} {ctx serial : Nat} (h : Keeps s0 s) :
    KeepsRes s0 (execJobComplete ctx serial s) := by
  unfold execJobComplete
  split
  · exact keepsRes_next h
  · exact keepsRes_next (keeps_ite (keeps_endJob h) h)

/-! ### SCACK_COMPLETE (10 R223, R233) -/

theorem keeps_writeAck {s0 s : State} {x : Scope} {killed : Nat} {acq : List (Nat × Nat)} (h : Keeps s0 s) :
    Keeps s0 (writeAck s x killed acq) := by
  unfold writeAck
  dsimp only
  split
  · exact h
  · split
    · rename_i e6
      split
      · exact keeps_orphanEntry (keeps_of_snd e6 (keeps_translate h))
      · exact keeps_writeBytes (keeps_setWord (keeps_of_snd e6 (keeps_translate h)))
    · rename_i e11
      exact keeps_orphanEntry (keeps_of_snd e11 (keeps_translate h))
    · rename_i e14
      exact keeps_orphanEntry (keeps_of_snd e14 (keeps_translate h))
    · rename_i e18
      exact keeps_orphanEntry (keeps_of_snd e18 (keeps_translate h))
theorem keeps_endAck {s0 s : State} {x : Scope} (h : Keeps s0 s) : Keeps s0 (endAck s x) := by
  unfold endAck
  exact keeps_foldl (keeps_writeAck h) (fun _ _ h1 => keeps_foldl h1 (fun _ _ h3 => keeps_raiseAcq h3))
theorem keeps_endScope {s0 s : State} {x : Scope} (h : Keeps s0 s) : Keeps s0 (endScope s x) := by
  unfold endScope
  dsimp only
  exact keeps_unstall (keeps_frame (s := List.foldl _ _ _) (keeps_foldl h (fun _ _ h3 => keeps_endAck h3)) rfl)
theorem keeps_execScackComplete {s0 s : State} {ctx scope : Nat} (h : Keeps s0 s) :
    KeepsRes s0 (execScackComplete ctx scope s) := by
  unfold execScackComplete
  split
  · exact keepsRes_next h
  · exact keepsRes_ite (keepsRes_next h) (keepsRes_next (keeps_endScope h))

/-! ### Context loss (21 R380) -/

theorem keeps_dropPools {s0 s : State} {p : Pool → Bool} (h : Keeps s0 s) : Keeps s0 (dropPools s p) :=
  keeps_frame h rfl
theorem keeps_leaveBatons {s0 s : State} {b : Block} (h : Keeps s0 s) : Keeps s0 (leaveBatons s b) := by
  unfold leaveBatons
  exact keeps_foldl h (fun _ _ h1 => keeps_batonLeave h1)
theorem keeps_notifyLost {s0 s : State} {ctx : Nat} (h : Keeps s0 s) : Keeps s0 (notifyLost s ctx) := by
  unfold notifyLost
  exact keeps_foldl h (fun _ _ h1 => keeps_notify h1)
theorem keeps_loseContext {s0 s : State} {ctx : Nat} (h : Keeps s0 s) : Keeps s0 (loseContext s ctx) := by
  have hlost (f : Ctx → Ctx) (conts : List Cont) : Keeps s0 { modCtx s ctx f with conts := conts } := keeps_frame h rfl
  have hdropped {u : State} (hu : Keeps s0 u) (jobs : List Job) (scopes : List Scope) (saves : List SaveRec)
      (killed : List (Nat × Nat)) (reqs : List PoolReq) :
      Keeps s0 { u with jobs := jobs, scopes := scopes, saves := saves, killedJobs := killed, poolReqs := reqs } :=
    keeps_frame hu rfl
  unfold loseContext
  split
  · exact h
  · refine keeps_notifyLost (keeps_pruneGone (keeps_dropGroupBars (keeps_dropPools (hdropped ?_ ..))))
    exact keeps_foldl (keeps_foldl (hlost ..) fun _ _ hs => keeps_dropBlock (keeps_leaveBatons hs)) fun _ _ hs =>
        keeps_jobEntryDone hs
theorem keeps_loseToPoison {s0 s : State} {ctx pa : Nat} (h : Keeps s0 s) : Keeps s0 (loseToPoison s ctx pa) := by
  unfold loseToPoison
  dsimp only
  split
  · exact h
  · exact keeps_loseContext (keeps_logMck (keeps_lineHolder (keeps_settleFound (keeps_meetLine h))))

/-! ### Results of accesses (02 R29, R30) -/

theorem keeps_returnAccess {s0 s : State} {o : Outst} (h : Keeps s0 s) : Keeps s0 (returnAccess s o) := by
  unfold returnAccess
  dsimp only
  split
  · exact h
  · refine keeps_afterReturn ?_
    split
    · exact keeps_returnEntry (keeps_ite (keeps_performNow h) h)
    · exact keeps_ite (keeps_performNow h) h
theorem keeps_returnIn {s0 s : State} {id : Nat} {c : OCls} (h : Keeps s0 s) : KeepsRes s0 (returnIn id c s) := by
  unfold returnIn
  split
  · exact keepsRes_next (keeps_ite (keeps_returnAccess h) h)
  · exact keepsRes_next h
theorem keeps_execLoadResultReturn {s0 s : State} {id : Nat} (h : Keeps s0 s) : KeepsRes s0 (execLoadResultReturn id s) := by
  unfold execLoadResultReturn
  exact keeps_returnIn h
theorem keeps_execStorePerformed {s0 s : State} {id : Nat} (h : Keeps s0 s) : KeepsRes s0 (execStorePerformed id s) := by
  unfold execStorePerformed
  exact keeps_returnIn h
theorem keeps_execAtomicReply {s0 s : State} {id : Nat} (h : Keeps s0 s) : KeepsRes s0 (execAtomicReply id s) := by
  unfold execAtomicReply
  exact keeps_returnIn h

/-! ### Replies of engines -/

theorem keeps_appendDelivery {s0 s : State} {b : Block} {ticket : Nat} {o : Outst} (h : Keeps s0 s) :
    Keeps s0 (appendDelivery s b ticket o) := by
  unfold appendDelivery
  dsimp only
  split
  · split
    · exact h
    · split
      · exact keeps_loseToPoison h
      · split
        · rename_i e17
          split
          · exact keeps_of_snd e17 (keeps_ctxRead h)
          · split
            · exact keeps_loseToPoison (keeps_of_snd e17 (keeps_ctxRead h))
            · exact keeps_getD (fun _ h1 => keeps_ctxWrite h1
                  (keeps_getD (fun _ h4 => keeps_ctxWrite h4 (keeps_of_snd e17 (keeps_ctxRead h)))
                  (keeps_of_snd e17 (keeps_ctxRead h)))) (keeps_getD
                  (fun _ h2 => keeps_ctxWrite h2 (keeps_of_snd e17 (keeps_ctxRead h))) (keeps_of_snd e17 (keeps_ctxRead h)))
        · rename_i e27
          exact keeps_of_snd e27 (keeps_ctxRead h)
  · exact h
theorem keeps_execEngineReplyReturn {s0 s : State} {id : Nat} (h : Keeps s0 s) : KeepsRes s0 (execEngineReplyReturn id s) := by
  unfold execEngineReplyReturn
  dsimp only
  split
  · exact keepsRes_next h
  · split
    · refine keepsRes_next (keeps_afterReturn (keeps_returnEntry ?_))
      split
      · exact keeps_appendDelivery h
      · exact h
    · exact keepsRes_next (keeps_ite (keeps_afterReturn (keeps_dropOutst (keeps_retireTapin h))) h)
    · exact keepsRes_next h
theorem keeps_execWalk {s0 s : State} {core ctx kind : Nat} {va : W64} (h : Keeps s0 s) :
    KeepsRes s0 (execWalk core ctx kind va s) := by
  unfold execWalk
  split
  · exact keepsRes_next h
  · split
    · exact keepsRes_next h
    · split
      · rename_i e11
        exact keepsRes_next (keeps_tlbFillAll (keeps_of_snd e11 (keeps_runWalk h)))
      · rename_i e16
        exact keepsRes_next (keeps_of_snd e16 (keeps_runWalk h))

/-! ### Copies (14 R282-R288, 24 R402) -/

theorem keeps_execCopyCommandStart {s0 s : State} {id : Nat} (h : Keeps s0 s) : KeepsRes s0 (execCopyCommandStart id s) := by
  unfold execCopyCommandStart
  split
  · exact keepsRes_next (keeps_ite (keeps_unstall (keeps_startCopy h)) h)
  · exact keepsRes_next h
theorem keeps_execRingnextSlotTake {s0 s : State} {id : Nat} (h : Keeps s0 s) : KeepsRes s0 (execRingnextSlotTake id s) := by
  unfold execRingnextSlotTake
  split
  · exact keepsRes_next (keeps_ite (keeps_takeRingSlot h) h)
  · exact keepsRes_next h
theorem keeps_execCopyElementLand {s0 s : State} {id e : Nat} (h : Keeps s0 s) : KeepsRes s0 (execCopyElementLand id e s) := by
  unfold execCopyElementLand
  split
  · exact keepsRes_next (keeps_ite (keeps_unstall (keeps_landCopy h)) h)
  · exact keepsRes_next h
theorem keeps_execRemoteCommand {s0 s : State} {ctx : Nat} {drec : BitVec 256} {ad : Nat} {elems : List RemoteElem}
    (h : Keeps s0 s) : KeepsRes s0 (execRemoteCommand ctx drec ad elems s) := by
  unfold execRemoteCommand
  exact keepsRes_next (keeps_remoteElems h)
theorem keeps_execRemoteTimeout {s0 s : State} {id : Nat} (h : Keeps s0 s) : KeepsRes s0 (execRemoteTimeout id s) := by
  unfold execRemoteTimeout
  split
  · exact keepsRes_next (keeps_ite (keeps_unstall (keeps_endCopy h)) h)
  · exact keepsRes_next h
theorem keeps_execRemoteAcknowledgement {s0 s : State} {id : Nat} (h : Keeps s0 s) :
    KeepsRes s0 (execRemoteAcknowledgement id s) := by
  unfold execRemoteAcknowledgement
  split
  · exact keepsRes_next (keeps_ite (keeps_unstall (keeps_endCopy h)) h)
  · exact keepsRes_next h

/-! ### Waits that end, kills, claim deadlock -/

theorem keeps_execNapWake {s0 s : State} {blk gang lane : Nat} (h : Keeps s0 s) :
    KeepsRes s0 (execNapWake blk gang lane s) := by
  unfold execNapWake
  split
  · exact keepsRes_next (keeps_ite (keeps_modThread h (fun _ hx => hx)) h)
  · exact keepsRes_next h
theorem keeps_leaveQueues {s0 s : State} {t : Thread} (h : Keeps s0 s) : Keeps s0 (leaveQueues s t) := by
  unfold leaveQueues
  dsimp only
  split
  · exact h
  · split
    · exact keeps_frame h rfl
    · exact keeps_ite h (keeps_setBaton h)
    · exact keeps_ite h (keeps_modRing h)
    · exact keeps_modBar h
    · exact h
theorem keeps_execKillStop {s0 s : State} {blk gang lane : Nat} (h : Keeps s0 s) :
    KeepsRes s0 (execKillStop blk gang lane s) := by
  unfold execKillStop
  dsimp only
  split
  · split
    · exact keepsRes_next (keeps_unstall (keeps_leaveThread (keeps_unlinkConts (keeps_leaveQueues (keeps_drainThread h)))))
    · exact keepsRes_next h
  · exact keepsRes_next h
theorem keeps_execRegdead {s0 s : State} {blk : Nat} (h : Keeps s0 s) : KeepsRes s0 (execRegdead blk s) := by
  unfold execRegdead
  dsimp only
  split
  · exact keepsRes_next h
  · exact keepsRes_ite (keepsRes_next h) (keepsRes_next (keeps_raise h))

/-! ### WATCH_DELIVERY (19 R354) -/

theorem keeps_withdrawMclaim {s0 s : State} {t : Thread} {no : Nat} (h : Keeps s0 s) : Keeps s0 (withdrawMclaim s t no) := by
  unfold withdrawMclaim
  exact keeps_set_bundles (keeps_modThreads h (fun _ hx => hx))
theorem keeps_leaveWait {s0 s : State} {t : Thread} (h : Keeps s0 s) : Keeps s0 (leaveWait s t) := by
  unfold leaveWait
  refine keeps_modThread ?_ (fun _ hx => hx)
  dsimp only
  split
  · exact keeps_modGang (keeps_leaveQueues h) (fun _ hx => hx)
  · exact keeps_modThreads (keeps_leaveQueues h) (fun _ hx => hx)
  · exact keeps_withdrawMclaim (keeps_leaveQueues h)
  · exact keeps_leaveQueues h
theorem keeps_unfile {s0 s : State} {t : Thread} (h : Keeps s0 s) : Keeps s0 (unfile s t) :=
  keeps_frame h rfl
theorem keeps_handleRow {s0 s : State} {t : Thread} {w : WatchTrap} (h : Keeps s0 s) : Keeps s0 (handleRow s t w) := by
  unfold handleRow
  split
  · exact keeps_writeRow (keeps_modRow h)
  · exact h
theorem keeps_watchEntry {s0 s : State} {blk gang lane : Nat} {info : W64} {wrec : BitVec 256} {vec : W64} (h : Keeps s0 s) :
    Keeps s0 (watchEntry s blk gang lane info wrec vec) := by
  unfold watchEntry
  dsimp only
  split
  · exact h
  · split
    · refine keeps_settleBins (keeps_takeTrap (keeps_foldl h (fun s x h3 => ?_)))
      split
      · exact keeps_unfile (keeps_leaveWait h3)
      · exact h3
    · refine keeps_foldl h (fun s x h1 => ?_)
      split
      · exact keeps_unfile (keeps_leaveWait h1)
      · exact h1
theorem keeps_execWatchDelivery {s0 s : State} {blk gang lane : Nat} (h : Keeps s0 s) :
    KeepsRes s0 (execWatchDelivery blk gang lane s) := by
  unfold execWatchDelivery
  dsimp only
  split
  · exact keepsRes_next h
  · split
    · exact keepsRes_next h
    · split
      · exact keepsRes_next h
      · split
        · exact keepsRes_next (keeps_watchEntry (keeps_modThread (keeps_handleRow h) (fun _ hx => hx)))
        · exact keepsRes_next (keeps_raise h)

/-! ### HEARTBEAT_TICK, SCFENCE_RELEASE, WDOG (01 R9, 08 R182, 23 R395) -/

theorem keeps_settlePast {s0 s : State} (h : Keeps s0 s) : Keeps s0 (settlePast s) := by
  unfold settlePast
  exact keeps_modThreads h (fun _ hx => hx)
theorem keeps_passTime {s0 s : State} (h : Keeps s0 s) : Keeps s0 (passTime s) := by
  refine keeps_settlePast (keeps_frame (keeps_blocks h fun hall => List.forall_mem_map.mpr fun b hb => ?_) rfl)
  dsimp only
  split <;> exact hall b hb
theorem keeps_execHeartbeatTick {s0 s : State} (h : Keeps s0 s) : KeepsRes s0 (execHeartbeatTick s) := by
  refine keepsRes_next (keeps_frame (keeps_threads (keeps_markScfence h) fun hall => List.forall_mem_map.mpr fun t ht => ?_)
      rfl)
  dsimp only
  split <;> exact hall t ht
theorem keeps_execScfenceRelease {s0 s : State} (h : Keeps s0 s) : KeepsRes s0 (execScfenceRelease s) := by
  unfold execScfenceRelease
  exact keepsRes_next (keeps_foldl h (fun _ _ h2 => keeps_modThread h2 (fun _ hx => hx)))
theorem keeps_execWdog {s0 s : State} {ctx scope : Nat} (h : Keeps s0 s) : KeepsRes s0 (execWdog ctx scope s) := by
  unfold execWdog
  dsimp only
  split
  · exact keepsRes_ite (keepsRes_next (keeps_raise (keeps_modScope h))) (keepsRes_next h)
  · exact keepsRes_next h

/-! ### The SYS class but the resume of saves -/

theorem keeps_laneResults {s0 s : State} {i : Iss} {d : Reg} {n : Nat} {outs : List (Lane × Nat)} (h : Keeps s0 s) :
    Keeps s0 (laneResults s i d n outs) := by
  unfold laneResults
  exact keeps_commit h
theorem keeps_eachLane {s0 s : State} {i : Iss} {d : Reg} {n : Nat} {f : State → Lane → Nat × State} (h : Keeps s0 s)
    (hf : ∀ s a1, Keeps s0 s → Keeps s0 (f s a1).2) : Keeps s0 (eachLane s i d n f) := by
  unfold eachLane
  exact keeps_laneResults (keeps_foldl_snd h (fun _ _ h2 => hf _ _ h2))
theorem keeps_sysEach {s0 s : State} {op : Nat} {k : Ctl} {src : List RG} {d : Reg} {f : State → Lane → Nat × State}
    (h : Keeps s0 s) (hf : ∀ s a1, Keeps s0 s → Keeps s0 (f s a1).2) : KeepsRes s0 (sysEach op k src d s f) := by
  unfold sysEach
  exact keeps_issue h (fun _ _ h1 => keepsOut_done (keeps_eachLane (keeps_ite h1 (keeps_irrevocable h1)) hf))
theorem keeps_SysStop_meets {s0 s : State} {y0 : SysStop} (h : Keeps s0 s) : Keeps s0 (SysStop.meets s y0) := by
  unfold SysStop.meets
  split
  · exact keeps_meetLine h
  · exact h
/-- One lane of a SYS instruction that can stop. -/
theorem keeps_sysTry_lane {s0 : State} {f : State → Lane → Except SysStop (Nat × State)}
    (hf : ∀ s x n t, f s x = .ok (n, t) → Keeps s0 s → Keeps s0 t)
    (q : List (Lane × Nat) × List (Lane × SysStop) × State) (x : Lane) (hq : Keeps s0 q.2.2) :
    Keeps s0 (match f q.2.2 x with
      | .ok (v, t) => (q.1 ++ [(x, v)], q.2.1, t)
      | .error e => (q.1, q.2.1 ++ [(x, e)], q.2.2)).2.2 := by
  split
  · rename_i e
    exact hf _ _ _ _ e hq
  · exact hq
theorem keeps_sysTry {s0 s : State} {op : Nat} {k : Ctl} {src : List RG} {d : Reg}
    {f : State → Lane → Except SysStop (Nat × State)} (h : Keeps s0 s)
    (hf : ∀ s x n t, f s x = .ok (n, t) → Keeps s0 s → Keeps s0 t) : KeepsRes s0 (sysTry op k src d s f) := by
  refine keeps_issue h fun i s hs => ?_
  have hstart : Keeps s0 (if i.act.isEmpty then s else irrevocable s i.b.uid) := keeps_ite hs (keeps_irrevocable hs)
  have hacts := keeps_foldl_snd_snd (xs := i.cmd) (f := fun acc x => match f acc.2.2 x with
      | .ok (v, t) => (acc.1 ++ [(x, v)], acc.2.1, t)
      | .error e => (acc.1, acc.2.1 ++ [(x, e)], acc.2.2))
    (q := (([] : List (Lane × Nat)), ([] : List (Lane × SysStop)), _)) hstart (keeps_sysTry_lane hf)
  exact keepsOut_ite (keepsOut_done (keeps_laneResults hacts))
      (keepsOut_trap (keeps_foldl hs fun _ _ h1 => keeps_SysStop_meets h1))

/-! ### CRD (11 R245, 23 R389, 24 R407) -/

theorem keeps_execCrd {s0 s : State} {k : Ctl} {bk : Bool} {d a : Reg} {x : BitVec 8} (h : Keeps s0 s) :
    KeepsRes s0 (execCrd k bk d a x s) := by
  unfold execCrd
  exact keeps_issue h (fun _ _ h1 => keepsOut_done (keeps_eachLane h1 (fun _ _ h4 => h4)))

/-! ### CWR (11 R245, 23 R389) -/

theorem keeps_devWrite {s0 s : State} {x v writer : Nat} (h : Keeps s0 s) : Keeps s0 (devWrite s x v writer).2 := by
  unfold devWrite
  split
  · exact keeps_ite_snd (keeps_frame h rfl) h
  · exact keeps_ite_snd (keeps_frame h rfl) h
  · exact h
theorem keeps_cwrCtx {s0 s : State} {a b : Reg} {f : State → Lane → Ctx → Nat → Nat × State} {l : Lane} (h : Keeps s0 s)
    (hf : ∀ s a1 a2 a3, Keeps s0 s → Keeps s0 (f s a1 a2 a3).2) : Keeps s0 (cwrCtx a b f s l).2 := by
  unfold cwrCtx
  split
  · exact h
  · exact hf _ _ _ _ h
theorem keeps_released {s0 s : State} {f : State → Lane → Nat × State} {l : Lane} (h : Keeps s0 s)
    (hf : ∀ s a1, Keeps s0 s → Keeps s0 (f s a1).2) : Keeps s0 (released f s l).2 := by
  unfold released
  exact hf _ _ (keeps_syncRelease h)
theorem keeps_execCwr {s0 s : State} {k : Ctl} {bk : Bool} {d a b : Reg} {x : BitVec 8} (h : Keeps s0 s) :
    KeepsRes s0 (execCwr k bk d a b x s) := by
  unfold execCwr
  exact keeps_sysEach h (fun _ _ h1 => keeps_released h1
      (fun _ _ h3 => keeps_ite_snd (keeps_cwrCtx h3 (fun _ _ _ _ h6 => keeps_modCtx h6)) (keeps_devWrite h3)))
theorem keeps_writeState {s0 s : State} {ctx v : Nat} (h : Keeps s0 s) : Keeps s0 (writeState s ctx v).2 := by
  unfold writeState
  dsimp only
  split
  · exact keeps_ite_snd (keeps_frame h rfl) h
  · split
    · exact h
    · split
      · split
        · exact h
        · dsimp only
          exact keeps_dropPools (keeps_frame (s := dropGroupBars _ _) (keeps_dropGroupBars h) rfl)
      · exact h
theorem keeps_execCwrStateCreate {s0 s : State} {k : Ctl} {d a b : Reg} (h : Keeps s0 s) :
    KeepsRes s0 (execCwrStateCreate k d a b s) := by
  unfold execCwrStateCreate
  exact keeps_sysEach h (fun _ _ h1 => keeps_released h1 (fun _ _ h3 => keeps_writeState h3))
theorem keeps_execCwrStateRemove {s0 s : State} {k : Ctl} {d a b : Reg} (h : Keeps s0 s) :
    KeepsRes s0 (execCwrStateRemove k d a b s) := by
  unfold execCwrStateRemove
  exact keeps_sysEach h (fun _ _ h1 => keeps_released h1 (fun _ _ h3 => keeps_writeState h3))
theorem keeps_writeKqsize {s0 s : State} {v writer : Nat} (h : Keeps s0 s) : Keeps s0 (writeKqsize s v writer).2 := by
  unfold writeKqsize
  exact keeps_ite_snd h (keeps_ite_snd (keeps_frame h rfl) (keeps_frame h rfl))
theorem keeps_execCwrKqsize {s0 s : State} {k : Ctl} {d b : Reg} (h : Keeps s0 s) : KeepsRes s0 (execCwrKqsize k d b s) := by
  unfold execCwrKqsize
  exact keeps_sysEach h (fun _ _ h1 => keeps_released h1 (fun _ _ h3 => keeps_writeKqsize h3))
theorem keeps_execCwrKqhead {s0 s : State} {k : Ctl} {d b : Reg} (h : Keeps s0 s) : KeepsRes s0 (execCwrKqhead k d b s) := by
  unfold execCwrKqhead
  exact keeps_sysEach h (fun _ _ h1 => keeps_released h1 (fun _ _ h3 => keeps_ite_snd (keeps_frame h3 rfl) h3))
theorem keeps_writePreempt {s0 s : State} {c : Ctx} {v : Nat} (h : Keeps s0 s) : Keeps s0 (writePreempt s c v).2 := by
  unfold writePreempt
  dsimp only
  split
  · exact h
  · exact keeps_ite h (keeps_askSave h)
theorem keeps_execCwrPreempt {s0 s : State} {k : Ctl} {d a b : Reg} (h : Keeps s0 s) :
    KeepsRes s0 (execCwrPreempt k d a b s) := by
  unfold execCwrPreempt
  exact keeps_sysEach h (fun _ _ h1 => keeps_released h1
      (fun _ _ h3 => keeps_cwrCtx h3 (fun _ _ _ _ h5 => keeps_writePreempt h5)))
theorem keeps_shrinkCores {s0 s : State} {fuel ctx budget : Nat} (h : Keeps s0 s) :
    Keeps s0 (shrinkCores fuel s ctx budget) := by
  induction fuel generalizing s with
  | zero => exact h
  | succ n ih =>
    unfold shrinkCores
    dsimp only
    split
    · exact h
    · split
      · exact h
      · exact ih (keeps_askSave h)
theorem keeps_execCwrBcores {s0 s : State} {k : Ctl} {d a b : Reg} (h : Keeps s0 s) :
    KeepsRes s0 (execCwrBcores k d a b s) := by
  unfold execCwrBcores
  exact keeps_sysEach h (fun _ _ h1 => keeps_released h1
      (fun _ _ h3 => keeps_cwrCtx h3 (fun _ _ _ _ h5 => keeps_ite (keeps_modCtx h5) (keeps_shrinkCores (keeps_modCtx h5)))))
theorem keeps_execCwrTrsize {s0 s : State} {k : Ctl} {d a b : Reg} (h : Keeps s0 s) :
    KeepsRes s0 (execCwrTrsize k d a b s) := by
  unfold execCwrTrsize
  exact keeps_sysEach h (fun _ _ h1 => keeps_released h1
      (fun _ _ h3 => keeps_cwrCtx h3 (fun _ _ _ _ h5 => keeps_ite_snd (keeps_modCtx h5) h5)))

/-! ### Splinters, TLBINV and PSPLIT (09 R205-R207) -/

theorem keeps_performAll {s0 s : State} {p : Block → Bool} (h : Keeps s0 s) : Keeps s0 (performAll s p) := by
  unfold performAll
  exact keeps_foldl (keeps_foldl (keeps_foldl h (fun _ _ h3 => keeps_drainThread h3)) (fun _ _ h2 => keeps_settleFlying h2))
      (fun _ _ h1 => keeps_irrevocable h1)
theorem keeps_invalidateTlb {s0 s : State} {p : TlbE → Bool} {ctx : Option Nat} (h : Keeps s0 s) :
    Keeps s0 (invalidateTlb s p ctx) := by
  unfold invalidateTlb
  exact keeps_performAll (keeps_tlbDrop h)
theorem except_map_ok {ε α β : Type} {f : α → β} {x : Except ε α} {b : β} (e : x.map f = .ok b) : ∃ a, x = .ok a ∧ f a = b := by
  cases x with
  | error _ => cases e
  | ok a => exact ⟨a, rfl, Except.ok.inj e⟩
theorem keeps_reserveTop {s0 s : State} {c : Ctx} {m k : Nat} {a : List Nat} {t : State} (e : reserveTop s c m k = .ok (a, t))
    (h : Keeps s0 s) : Keeps s0 t := by
  induction m generalizing s k a with
  | zero =>
    cases e
    exact h
  | succ n ih =>
    unfold reserveTop at e
    dsimp only at e
    split at e
    · cases e
      exact h
    · split at e
      · rename_i e'
        split at e
        · cases e
        · obtain ⟨r, hr, e⟩ := except_map_ok e
          cases e
          exact ih hr (keeps_meetLine (keeps_of_snd e' (keeps_translate h)))
      · cases e
      · cases e
      · rename_i e'
        cases e
        exact keeps_of_snd e' (keeps_translate h)
theorem keeps_splitRoutine {s0 s : State} {c : Ctx} {fs : List Nat} {va ps : Nat} {t : State}
    (e : splitRoutine s c fs va ps = .ok (some t)) (h : Keeps s0 s) : Keeps s0 t := by
  have hrun (meets : Nat → Option WalkStop) (entry : Nat) (args : List W64) (at_ : Nat) (bs : List Byte)
      (hm : Memory.wf s.mem = true) : Memory.wf (rvRun meets s.walkStore Config.splitLimit
        { rvStart s entry args with mem := putBytes (rvStart s entry args).mem at_ bs }).1.mem = true :=
    rvRun_wf _ _ _ _ (putBytes_wf _ _ _ (by rw [rvStart_mem]; exact hm))
  unfold splitRoutine at e
  dsimp only at e
  split at e
  · cases e
  · cases e
  · cases e
  · split at e
    · cases e
    · cases e
      exact keeps_invalidateTlb (keeps_meetAll (keeps_modCtx (keeps_mem h fun hm =>
        sparse_wf_filter _ _ _ (hrun _ _ _ _ _ hm))))
theorem keeps_splinter {s0 s : State} {c : Ctx} {va ps : Nat} {t : State} (e : splinter s c va ps = .ok (some t))
    (h : Keeps s0 s) : Keeps s0 t := by
  unfold splinter at e
  split at e
  · cases e
  · rename_i e7
    exact keeps_splitRoutine e (keeps_reserveTop e7 h)
theorem keeps_mappingAt {s0 s : State} {c : Ctx} {va : Nat} {a : Option W64} {t : State} (e : mappingAt s c va = .ok (a, t))
    (h : Keeps s0 s) : Keeps s0 t := by
  unfold mappingAt at e
  split at e
  · rename_i e4
    cases e
    exact keeps_of_snd e4 (keeps_runWalk h)
  · cases e
  · cases e
  · rename_i e14
    cases e
    exact keeps_of_snd e14 (keeps_runWalk h)
theorem keeps_psplitOne {s0 s : State} {ctx va ps : Nat} {a : Nat} {t : State} (e : psplitOne s ctx va ps = .ok (a, t))
    (h : Keeps s0 s) : Keeps s0 t := by
  unfold psplitOne at e
  split at e
  · cases e
    exact h
  split at e
  · cases e
    exact h
  split at e
  · cases e
  · rename_i e'
    cases e
    exact keeps_mappingAt e' h
  · rename_i e'
    have hmapped := keeps_mappingAt e' h
    split at e
    · cases e
      exact hmapped
    · obtain ⟨r, hr, e⟩ := except_map_ok e
      split at e
      · cases e
        exact keeps_splinter hr hmapped
      · cases e
        exact hmapped
theorem keeps_execPsplit {s0 s : State} {k : Ctl} {ps : BitVec 2} {d a b : Reg} (h : Keeps s0 s) :
    KeepsRes s0 (execPsplit k ps d a b s) :=
  keeps_sysTry h fun _ _ _ _ e hs => keeps_psplitOne e hs
theorem keeps_splintEnd {s0 s : State} {c : Ctx} {lo hi p : Nat} {a : Bool} {t : State} (e : splintEnd s c lo hi p = .ok (a, t))
    (h : Keeps s0 s) : Keeps s0 t := by
  unfold splintEnd at e
  split at e
  · cases e
  · rename_i e'
    cases e
    exact keeps_mappingAt e' h
  · rename_i e'
    have hmapped := keeps_mappingAt e' h
    dsimp only at e
    split at e
    · cases e
      exact hmapped
    · obtain ⟨r, hr, e⟩ := except_map_ok e
      split at e
      · cases e
        exact keeps_splinter hr hmapped
      · cases e
        exact hmapped
theorem keeps_tlbinv {s0 s : State} {ctx : Nat} {f : State → Ctx → Nat × State} {l : Lane} (h : Keeps s0 s)
    (hf : ∀ s a1, Keeps s0 s → Keeps s0 (f s a1).2) : Keeps s0 (tlbinv ctx f s l).2 := by
  unfold tlbinv
  dsimp only
  split
  · exact keeps_syncRelease h
  · exact hf _ _ (keeps_syncRelease h)
theorem keeps_tlbinv_invalidateTlb {s0 s : State} {ctx : Nat} {p : Ctx → TlbE → Bool} {l : Lane} (h : Keeps s0 s) :
    Keeps s0 (tlbinv ctx (fun s c => (0, invalidateTlb s (p c) (some c.id))) s l).2 :=
  keeps_tlbinv h fun _ _ hs => by
    dsimp only
    exact keeps_invalidateTlb hs
theorem keeps_execTlbinvPage {s0 s : State} {k : Ctl} {d a b : Reg} (h : Keeps s0 s) : KeepsRes s0 (execTlbinvPage k d a b s) :=
  keeps_sysEach h fun _ l hs => keeps_tlbinv_invalidateTlb (p := fun c e => e.covers c.id (l.rd a 64)) hs
theorem keeps_execTlbinvContext {s0 s : State} {k : Ctl} {d b : Reg} (h : Keeps s0 s) :
    KeepsRes s0 (execTlbinvContext k d b s) :=
  keeps_sysEach h fun _ _ hs => keeps_tlbinv_invalidateTlb (p := fun c e => e.ctx == c.id) hs
theorem keeps_execTlbinvAll {s0 s : State} {k : Ctl} {d : Reg} (h : Keeps s0 s) : KeepsRes s0 (execTlbinvAll k d s) :=
  keeps_sysEach h fun _ _ hs => by
    dsimp only
    exact keeps_invalidateTlb (keeps_syncRelease hs)
theorem keeps_splintEnds {s0 s : State} {c : Ctx} {lo hi : Nat} {a : Bool} {t : State} (e : splintEnds s c lo hi = .ok (a, t))
    (h : Keeps s0 s) : Keeps s0 t := by
  unfold splintEnds at e
  split at e
  · rename_i e3
    exact keeps_splintEnd e (keeps_splintEnd e3 h)
  · exact keeps_splintEnd e h
theorem keeps_tlbinvRange {s0 s : State} {c : Ctx} {sp : Bool} {va count : Nat} {a : Nat} {t : State}
    (e : tlbinvRange s c sp va count = .ok (a, t)) (h : Keeps s0 s) : Keeps s0 t := by
  unfold tlbinvRange at e
  dsimp only at e
  split at e
  · cases e
    exact h
  · obtain ⟨⟨ok, u⟩, hr, e⟩ := except_map_ok e
    cases e
    refine keeps_invalidateTlb ?_
    split at hr
    · exact keeps_splintEnds hr h
    · cases hr
      exact h
theorem keeps_execTlbinvRange {s0 s : State} {k : Ctl} {sp : Bool} {d a b c : Reg} (h : Keeps s0 s) :
    KeepsRes s0 (execTlbinvRange k sp d a b c s) := by
  refine keeps_sysTry h fun s l n t e hs => ?_
  have hrel := keeps_syncRelease (x := l) hs
  dsimp only at e
  split at e
  · cases e
    exact hrel
  · exact keeps_tlbinvRange e hrel

/-! ### HALTG and RESUMEG (23 R394) -/

theorem keeps_setHalt {s0 s : State} {bs : List Block} {hl : Bool} (h : Keeps s0 s) : Keeps s0 (setHalt s bs hl) :=
  keeps_settleExits (keeps_blocks h (forall_mem_updWhere fun _ hb => hb))
theorem keeps_execHaltg {s0 s : State} {k : Ctl} {d a b : Reg} (h : Keeps s0 s) : KeepsRes s0 (execHaltg k d a b s) := by
  unfold execHaltg
  refine keeps_issue h (fun i s h1 => keepsOut_done
      (keeps_pollHalt (keeps_foldl (keeps_ite h1 (keeps_irrevocable h1)) (fun s x h5 => ?_))))
  dsimp only
  split
  · exact keeps_deliverKept h5
  · exact keeps_ite (keeps_deliverKept h5) (keeps_modThread (keeps_setHalt h5) (fun _ hx => hx))
theorem keeps_execResumeg {s0 s : State} {k : Ctl} {d a b : Reg} (h : Keeps s0 s) : KeepsRes s0 (execResumeg k d a b s) := by
  unfold execResumeg
  refine keeps_sysEach h (fun s a1 h1 => ?_)
  split
  · exact h1
  · exact keeps_ite_snd (keeps_setHalt h1) h1

/-! ### Operations (17 R328-R336) -/

theorem keeps_putPool {s0 s : State} {p : Pool} (h : Keeps s0 s) : Keeps s0 (putPool s p) :=
  keeps_frame h rfl
theorem keeps_metaFrames {s0 s : State} {ctx : Nat} {kernel : Bool} {va n : Nat} (h : Keeps s0 s) :
    Keeps s0 (metaFrames s ctx kernel va n).2 := by
  induction n generalizing s va with
  | zero => exact h
  | succ n ih =>
    unfold metaFrames
    split
    · rename_i e
      have hpa := keeps_of_snd e (keeps_mapAddr h)
      split
      · exact hpa
      · split <;> rename_i e' <;> exact keeps_of_snd e' (ih hpa)
    · rename_i e
      exact keeps_of_snd e (keeps_mapAddr h)
theorem keeps_installPool {s0 s : State} {ctx : Nat} {kernel : Bool} {b q : Nat} (h : Keeps s0 s) :
    Keeps s0 (installPool s ctx kernel b q).2 := by
  unfold installPool
  split
  · exact h
  · split
    · exact h
    · split
      · exact h
      · split
        · exact h
        · split
          · rename_i e11
            exact keeps_of_snd e11 (keeps_metaFrames h)
          · rename_i e15
            split
            · exact keeps_of_snd e15 (keeps_metaFrames h)
            · exact keeps_set_pools (keeps_of_snd e15 (keeps_metaFrames h))
theorem keeps_poolAlloc {s0 s : State} {cl : Bool} {n : Nat} {q : PoolReq} {p : Pool} {t : Nat} {es : List Nat} (h : Keeps s0 s) :
    Keeps s0 (poolAlloc cl n s q p t es).2 := by
  unfold poolAlloc
  dsimp only
  split
  · exact h
  · split
    · exact h
    · exact keeps_ite_snd h (keeps_putPool (keeps_foldl h (fun _ _ h3 => keeps_raiseAcq h3)))
theorem keeps_poolTrim {s0 s : State} {n : Nat} {q : PoolReq} {p : Pool} {t : Nat} {es : List Nat} (h : Keeps s0 s) :
    Keeps s0 (poolTrim n s q p t es).2 := by
  unfold poolTrim
  exact keeps_ite_snd h (keeps_putPool h)
theorem keeps_poolDrop {s0 s : State} {n : Nat} {q : PoolReq} {p : Pool} {t : Nat} {es : List Nat} (h : Keeps s0 s) :
    Keeps s0 (poolDrop n s q p t es).2 := by
  unfold poolDrop
  split
  · exact h
  · exact keeps_putPool h
theorem keeps_poolLook {s0 s : State} {n : Nat} {p : Pool} {es : List Nat} (h : Keeps s0 s) :
    Keeps s0 (poolLook n s p es).2 := by
  unfold poolLook
  split <;> exact h
theorem keeps_poolNew {s0 s : State} {p : Pool} (h : Keeps s0 s) : Keeps s0 (poolNew s p).2 := by
  unfold poolNew
  split
  · exact h
  · exact keeps_putPool h
theorem keeps_onPool {s0 s : State} {q : PoolReq} {name : Nat} {f : Pool → Except Nat Nat × State} (h : Keeps s0 s)
    (hf : ∀ p, Keeps s0 (f p).2) : Keeps s0 (onPool s q name f).2 := by
  unfold onPool
  split
  · exact h
  · exact hf _
theorem keeps_onSeq {s0 s : State} {q : PoolReq} {name : Nat} {f : Pool → Nat → List Nat → Except Nat Nat × State}
    (h : Keeps s0 s)
    (hf : ∀ p t es, Keeps s0 (f p t es).2) : Keeps s0 (onSeq s q name f).2 := by
  unfold onSeq
  split
  · exact h
  · exact hf _ _ _
theorem keeps_poolPerform {s0 s : State} {q : PoolReq} (h : Keeps s0 s) : Keeps s0 (poolPerform s q).2 := by
  unfold poolPerform
  split
  · exact keeps_onPool h (fun _ => keeps_poolNew h)
  · exact keeps_onSeq h (fun _ _ _ => keeps_putPool h)
  · exact keeps_installPool h
  · exact keeps_onPool h (fun _ => keeps_ite_snd h (keeps_dropPools h))
  · exact keeps_onPool h (fun _ => h)
  · exact keeps_onSeq h (fun _ _ _ => keeps_poolAlloc h)
  · exact keeps_onSeq h (fun _ _ _ => keeps_poolTrim h)
  · exact keeps_onSeq h (fun _ _ _ => keeps_poolLook h)
  · exact keeps_onSeq h (fun _ _ _ => keeps_poolDrop h)

/-! ### Requests (17 R328, R329, R332) -/

theorem keeps_poolReply {s0 s : State} {id : Nat} {r : Except Nat Nat} (h : Keeps s0 s) : Keeps s0 (poolReply s id r) :=
  keeps_ckpts (keeps_updOutst h) fun hall => List.forall_mem_map.mpr fun c hc => hall c hc
theorem keeps_poolServe {s0 s : State} {q : PoolReq} (h : Keeps s0 s) : Keeps s0 (poolServe s q) := by
  unfold poolServe
  exact keeps_poolReply (keeps_poolPerform (keeps_frame h rfl))
theorem keeps_poolArrive {s0 s : State} {home : Option Nat} {q : PoolReq} (h : Keeps s0 s) :
    Keeps s0 (poolArrive s home q) := by
  unfold poolArrive
  dsimp only
  split
  · exact keeps_poolReply (keeps_poolPerform h)
  · exact keeps_ite (keeps_frame h rfl) (keeps_poolServe h)
theorem keeps_servePools {s0 s : State} (h : Keeps s0 s) : Keeps s0 (servePools s) := by
  unfold servePools
  exact keeps_foldl h (fun _ _ h1 => keeps_ite (keeps_poolServe (keeps_frame h1 rfl)) h1)
theorem keeps_poolAsk {s0 s : State} {i : Iss} {d : Reg} {w : Nat} {pred : Option Nat} {op : PoolOp} {x : Lane} (h : Keeps s0 s) :
    Keeps s0 (poolAsk i d w pred op s x) := by
  unfold poolAsk
  exact keeps_poolArrive (keeps_set_outst (keeps_set_nextId (keeps_syncRelease h)))
theorem keeps_poolIssue {s0 s : State} {i : Iss} {d : Reg} {w : Nat} {changes : Bool} {pred : Option Nat} {op : Lane → PoolOp}
    (h : Keeps s0 s) : Keeps s0 (poolIssue i d w changes pred op s) := by
  unfold poolIssue
  exact keeps_foldl (keeps_ite h (keeps_irrevocable h)) (fun _ _ h1 => keeps_poolAsk h1)
theorem keeps_poolEach {s0 s : State} {n : Nat} {k : Ctl} {src : List RG} {d : Reg} {w : Nat} {changes : Bool}
    {pred : Option Nat} {op : Lane → PoolOp} (h : Keeps s0 s) : KeepsRes s0 (poolEach n k src d w changes pred op s) := by
  unfold poolEach
  exact keeps_issue h (fun _ _ h1 => keepsOut_done (keeps_poolIssue h1))

/-! ### The instructions (17 R333-R336) -/

theorem keeps_execKseqNew {s0 s : State} {k : Ctl} {d a : Reg} (h : Keeps s0 s) : KeepsRes s0 (execKseqNew k d a s) := by
  unfold execKseqNew
  exact keeps_poolEach h
theorem keeps_execKseqFree {s0 s : State} {k : Ctl} {d a : Reg} (h : Keeps s0 s) : KeepsRes s0 (execKseqFree k d a s) := by
  unfold execKseqFree
  exact keeps_poolEach h
theorem keeps_execKseqPquery {s0 s : State} {k : Ctl} {d a : Reg} (h : Keeps s0 s) : KeepsRes s0 (execKseqPquery k d a s) := by
  unfold execKseqPquery
  exact keeps_poolEach h
theorem keeps_execKseqPfree {s0 s : State} {k : Ctl} {d a : Reg} (h : Keeps s0 s) : KeepsRes s0 (execKseqPfree k d a s) := by
  unfold execKseqPfree
  exact keeps_poolEach h
theorem keeps_execKseqPinit {s0 s : State} {k : Ctl} {d a b : Reg} (h : Keeps s0 s) :
    KeepsRes s0 (execKseqPinit k d a b s) := by
  unfold execKseqPinit
  refine keeps_issue h (fun i s h1 => ?_)
  dsimp only
  split
  · rename_i e4
    exact keepsOut_done (keeps_poolIssue (keeps_foldl (keeps_of_snd_snd e4 (keeps_taskAddrs h1))
        (fun _ _ h3 => keeps_drainBytes h3)))
  · rename_i e10
    exact keepsOut_trap (keeps_of_snd_snd e10 (keeps_taskAddrs h1))
theorem keeps_execKalloc {s0 s : State} {k : Ctl} {cl : Bool} {d a b : Reg} (h : Keeps s0 s) :
    KeepsRes s0 (execKalloc k cl d a b s) := by
  unfold execKalloc
  exact keeps_poolEach h
theorem keeps_execKtrim {s0 s : State} {k : Ctl} {d a b : Reg} (h : Keeps s0 s) : KeepsRes s0 (execKtrim k d a b s) := by
  unfold execKtrim
  exact keeps_poolEach h
theorem keeps_execKfree {s0 s : State} {k : Ctl} {d a b : Reg} (h : Keeps s0 s) : KeepsRes s0 (execKfree k d a b s) := by
  unfold execKfree
  exact keeps_poolEach h
theorem keeps_execKlook {s0 s : State} {k : Ctl} {d a b : Reg} {x : BitVec 8} (h : Keeps s0 s) :
    KeepsRes s0 (execKlook k d a b x s) := by
  unfold execKlook
  exact keeps_poolEach h

/-! ### The frame (11 R243, R244; log 8) -/

theorem keeps_freeBytes {s0 s : State} {n : Nat} (h : Keeps s0 s) : Keeps s0 (freeBytes s n).2 :=
  keeps_frame h rfl
theorem keeps_codedRegions {s0 s : State} {b : Block} (h : Keeps s0 s) : Keeps s0 (codedRegions s b).2 :=
  keeps_freeBytes (keeps_freeBytes (keeps_foldl_snd h fun _ _ hq => keeps_freeBytes hq))
theorem keeps_frameBytes {s0 s : State} {b : Block} {reason : Nat} (h : Keeps s0 s) : Keeps s0 (frameBytes s b reason).2 :=
  keeps_codedRegions h

end Sys2Proof.Machine
end

section
/-! PROOF. What saves, restores, checkpoints, resets and the events of the host keep (O48). -/

namespace Sys2Proof.Machine
open Laws

/-! ### The frame (11 R243, R244; log 8) -/

theorem keeps_writeFrame {s0 s : State} {ctx va : Nat} {ls : List (List Byte)} (h : Keeps s0 s) :
    Keeps s0 (writeFrame s ctx va ls).2 := by
  induction ls generalizing s va with
  | nil => exact h
  | cons l t ih =>
    unfold writeFrame
    split
    · rename_i e
      exact ih (keeps_ctxWrite e h)
    · exact keeps_ctxMeet h

/-! ### SAVE (11 R240-R242) -/

theorem keeps_execSaveCopyBound {s0 s : State} {blk : Nat} (h : Keeps s0 s) : KeepsRes s0 (execSaveCopyBound blk s) := by
  unfold execSaveCopyBound
  split
  · exact keepsRes_next h
  · exact keepsRes_ite (keepsRes_next (keeps_modBlock h (fun _ hx => hx))) (keepsRes_next h)
theorem keeps_slotBack {s0 s : State} {b : Bar} (h : Keeps s0 s) : Keeps s0 (slotBack s b) :=
  keeps_modBlock h fun _ ⟨hrecs, hscratch⟩ => ⟨hrecs, putBytes_wf _ _ _ hscratch⟩
theorem keeps_redoBundle {s0 s : State} {b : Bundle} (h : Keeps s0 s) : Keeps s0 (redoBundle s b) := by
  unfold redoBundle
  exact keeps_ite h (keeps_modBundle h)
theorem keeps_withdrawWaits {s0 s : State} {uid : Nat} (h : Keeps s0 s) : Keeps s0 (withdrawWaits s uid) := by
  unfold withdrawWaits
  dsimp only
  refine keeps_modThreads (keeps_frame (s := List.foldl _ _ _)
      (keeps_foldl (keeps_foldl h (fun _ _ h4 => keeps_redoBundle h4)) (fun _ _ h3 => keeps_leaveQueues h3)) rfl)
      (fun t h1 => ?_)
  split <;> exact h1
theorem keeps_fenceSave {s0 s : State} {uid : Nat} (h : Keeps s0 s) : Keeps s0 (fenceSave s uid) := by
  unfold fenceSave
  exact keeps_foldl h (fun _ _ h1 => keeps_fenceMarks h1)
theorem keeps_noKernelTrap {s0 s : State} {b : Block} {cause : Nat} (h : Keeps s0 s) : Keeps s0 (noKernelTrap s b cause) := by
  unfold noKernelTrap
  exact keeps_ite (keeps_loseContext (keeps_trapNote h)) (keeps_killForJob (keeps_trapNote h))
theorem keeps_handleSaved {s0 s : State} {uid : Nat} (h : Keeps s0 s) : Keeps s0 (handleSaved s uid) := by
  unfold handleSaved
  refine keeps_foldl h (fun s x h1 => ?_)
  split
  · exact keeps_ite (keeps_handleRow h1) h1
  · exact h1
theorem keeps_leaveCore {s0 s : State} {b : Block} {slot : Option Nat} {ticket : Nat} (h : Keeps s0 s) :
    Keeps s0 (leaveCore s b slot ticket) := by
  unfold leaveCore
  exact keeps_settleBins (keeps_serveMclaims (keeps_serveClaims
      (keeps_modBlock (keeps_modCtx (keeps_leaveBatons (keeps_withdrawWaits h))) (fun _ hx => hx))))
theorem keeps_saveBlock {s0 s : State} {b : Block} {r : SaveReq} (h : Keeps s0 s) : Keeps s0 (saveBlock s b r) := by
  unfold saveBlock
  extract_lets fs first cause s1 s2
  have hfenced : Keeps s0 s1 := keeps_fenceSave (keeps_handleSaved (keeps_stallRecord h))
  have hslots : Keeps s0 s2 := keeps_foldl hfenced fun _ _ hs => keeps_slotBack hs
  split
  · split
    rename_i bytes s3 e3
    have hframe := keeps_of_snd e3 (keeps_frameBytes hslots)
    extract_lets slot va
    split
    rename_i written s4 e4
    have hwritten := keeps_of_snd e4 (keeps_ite_snd (keeps_writeFrame hframe) hframe)
    split
    rename_i ticket s5 e5
    have hticket := keeps_of_snd e5 (keeps_freshTicket hwritten)
    extract_lets frame info e rec_ s6 s7
    have hsaved : Keeps s0 s6 := keeps_frame hticket rfl
    have hblock : Keeps s0 s7 := keeps_modBlock hsaved fun _ hq => hq
    exact keeps_ite (keeps_leaveCore hblock) (keeps_modBlock hblock fun _ hq => hq)
  · exact hslots

/-! ### TRAP_ENTRY_WRITE (11 R239) -/

theorem keeps_entryFails {s0 s : State} {e : TrapEntry} (h : Keeps s0 s) : Keeps s0 (entryFails s e) := by
  unfold entryFails
  dsimp only
  split
  · exact keeps_killForJob (keeps_trapNote h)
  · exact keeps_trapNote h
theorem keeps_fillKqfut {s0 s : State} (h : Keeps s0 s) : Keeps s0 (fillKqfut s) := by
  unfold fillKqfut
  split
  · exact h
  · split
    · rename_i e6
      split
      · exact keeps_fillFuture (keeps_of_snd e6 (keeps_translate h))
      · exact keeps_of_snd e6 (keeps_translate h)
    · rename_i e13
      exact keeps_of_snd e13 (keeps_translate h)
theorem keeps_execTrapEntryWrite {s0 s : State} (h : Keeps s0 s) : KeepsRes s0 (execTrapEntryWrite s) := by
  unfold execTrapEntryWrite
  split
  · exact keepsRes_next h
  · refine keepsRes_ite (keepsRes_next (keeps_entryFails (keeps_frame h rfl))) (keepsRes_ite (keepsRes_next h) ?_)
    dsimp only
    split
    · rename_i e
      exact keepsRes_next (keeps_fillKqfut (keeps_frame (keeps_ctxWrite e h) rfl))
    · exact keepsRes_next (keeps_entryFails (keeps_frame (keeps_ctxMeet h) rfl))

/-! ### PFRES and TRET (11 R248) -/

theorem keeps_sendTo {s0 s : State} {t : Thread} {hdr : W64} (h : Keeps s0 s) : Keeps s0 (sendTo s t hdr) := by
  unfold sendTo
  refine keeps_mergePath (keeps_set_bundles (keeps_set_nextId (keeps_modThreads ?_ (fun _ hx => hx))))
  split
  · exact keeps_leaveBundle (keeps_foldl h (fun _ _ h2 => keeps_unfile (keeps_leaveQueues h2)))
  · exact keeps_foldl h (fun _ _ h1 => keeps_unfile (keeps_leaveQueues h1))
theorem keeps_editPcs {s0 s : State} {b : Block} {r : SaveRec} (h : Keeps s0 s) : Keeps s0 (editPcs s b r) := by
  unfold editPcs
  refine keeps_foldl h (fun s x h1 => ?_)
  split
  · rename_i e4
    split
    · exact keeps_of_snd e4 (keeps_ctxRead h1)
    · exact keeps_sendTo (keeps_of_snd e4 (keeps_ctxRead h1))
  · rename_i e9
    exact keeps_of_snd e9 (keeps_ctxRead h1)
theorem keeps_skipFaulted {s0 s : State} {uid : Nat} (h : Keeps s0 s) : Keeps s0 (skipFaulted s uid) := by
  unfold skipFaulted
  exact keeps_foldl h (fun _ _ h1 => keeps_moveTo
      (keeps_modThreads (keeps_foldl h1 (fun _ _ h5 => keeps_leaveQueues h5)) (fun _ hx => hx)))
theorem keeps_answerFaults {s0 s : State} {b : Block} {a : Act3} (h : Keeps s0 s) : Keeps s0 (answerFaults s b a) := by
  unfold answerFaults
  extract_lets uid named s1 cs ds rows clear s2 s3 s4
  have hwatch : Keeps s0 s1 := keeps_foldl h fun s t hs => by
    split
    · exact keeps_ite (keeps_modThread (by split <;> [exact keeps_relRow (keeps_irrevocable hs); exact hs]) fun _ ht => ht) hs
    · exact hs
  have hclear {u : State} (hu : Keeps s0 u) : Keeps s0 (clear u) := keeps_modThreads hu fun _ ht => ht
  have hended {u : State} (hu : Keeps s0 u) : Keeps s0
      (rows.foldl (fun s e => readyRow s e.1 e.2.1 9) (ds.foldl (fun s m => endMx (dropMop s m.id) m.id)
        (cs.foldl (fun s c => endCopy s c true) u))) :=
    keeps_foldl (keeps_foldl (keeps_foldl hu fun _ _ hs => keeps_endCopy hs) fun _ _ hs => keeps_endMx (keeps_dropMop hs))
      fun _ _ hs => keeps_readyRow hs
  split
  · exact hclear (keeps_foldl (keeps_set_mops (keeps_foldl hwatch fun _ _ hs => keeps_modCopy hs)) fun _ _ hs =>
        keeps_modRow hs)
  · exact hclear (keeps_skipFaulted (hended hwatch))
  · refine hclear (keeps_foldl (hended hwatch) fun s m hs => ?_)
    split
    · exact keeps_sendTo hs
    · exact hs
theorem keeps_resumeSave {s0 s : State} {uid : Nat} (h : Keeps s0 s) : Keeps s0 (resumeSave s uid) := by
  unfold resumeSave
  dsimp only
  split
  · exact h
  · refine keeps_set_saves ?_
    split
    · exact keeps_modCtx h
    · exact h
theorem keeps_resumeBlock {s0 s : State} {a : Act3} {b : Block} (h : Keeps s0 s) : Keeps s0 (resumeBlock a s b) := by
  unfold resumeBlock
  split
  · exact h
  · split
    · exact keeps_loseToPoison h
    · exact keeps_settleBins (keeps_resumeSave (keeps_answerFaults (keeps_ite h (keeps_editPcs h))))
theorem keeps_resume {s0 s : State} {ticket : Nat} {pfres : Bool} {a : Act3} (h : Keeps s0 s) :
    Keeps s0 (resume s ticket pfres a).2 := by
  unfold resume
  split
  · exact h
  · split
    · exact h
    · split
      · exact h
      · exact keeps_ite_snd h (keeps_ite_snd h (keeps_foldl h (fun _ _ h3 => keeps_resumeBlock h3)))
theorem keeps_execPfres {s0 s : State} {k : Ctl} {d a : Reg} (h : Keeps s0 s) : KeepsRes s0 (execPfres k d a s) := by
  unfold execPfres
  exact keeps_sysEach h (fun _ _ h1 => keeps_resume h1)
theorem keeps_execTretRetry {s0 s : State} {k : Ctl} {d a : Reg} (h : Keeps s0 s) : KeepsRes s0 (execTretRetry k d a s) := by
  unfold execTretRetry
  exact keeps_sysEach h (fun _ _ h1 => keeps_resume h1)
theorem keeps_execTretSkip {s0 s : State} {k : Ctl} {d a : Reg} (h : Keeps s0 s) : KeepsRes s0 (execTretSkip k d a s) := by
  unfold execTretSkip
  exact keeps_sysEach h (fun _ _ h1 => keeps_resume h1)
theorem keeps_execTretRedirect {s0 s : State} {k : Ctl} {d a b : Reg} (h : Keeps s0 s) :
    KeepsRes s0 (execTretRedirect k d a b s) := by
  unfold execTretRedirect
  exact keeps_sysEach h (fun _ _ h1 => keeps_resume h1)

/-! ### SAVE (11 R240, R241) -/

theorem keeps_joinResume {s0 s : State} {b : Block} {r : SaveReq} (h : Keeps s0 s) : Keeps s0 (joinResume s b r) := by
  unfold joinResume
  exact keeps_ite (keeps_resumeBlock h) h
theorem keeps_execSave {s0 s : State} {blk : Nat} (h : Keeps s0 s) : KeepsRes s0 (execSave blk s) := by
  unfold execSave
  dsimp only
  split
  · exact keepsRes_next h
  · split
    · exact keepsRes_next h
    · split
      · exact keepsRes_next h
      · split
        · exact keepsRes_next (keeps_unstall (keeps_noKernelTrap h))
        · split
          · exact keepsRes_next h
          · exact keepsRes_next (keeps_unstall (keeps_joinResume
                (keeps_saveBlock (keeps_foldl h (fun _ _ h5 => keeps_settleFlying h5)))))

/-! ### RESTORE (11 R247) -/

theorem keeps_slotBars {s0 s : State} {b : Block} (h : Keeps s0 s) : Keeps s0 (slotBars s b) := by
  unfold slotBars
  exact keeps_foldl (keeps_frame h rfl) (fun _ _ h1 => keeps_frame h1 rfl)
theorem keeps_enterBars {s0 s : State} {uid : Nat} (h : Keeps s0 s) : Keeps s0 (enterBars s uid) := by
  unfold enterBars
  refine keeps_foldl h (fun s x h1 => ?_)
  split
  · exact keeps_wakeBar (keeps_modBar h1)
  · exact h1
theorem keeps_refile {s0 s : State} {uid core : Nat} {fs : List (Nat × W64 × Filed)} (h : Keeps s0 s) :
    Keeps s0 (refile s uid core fs) := by
  unfold refile
  exact keeps_foldl (keeps_frame h rfl) (fun _ _ h1 => keeps_fileThread h1)
theorem keeps_placeSaved {s0 s : State} {b : Block} {core : Nat} (h : Keeps s0 s) : Keeps s0 (placeSaved s b core) := by
  unfold placeSaved
  extract_lets s1 s2 s3 s4 s5
  have hrunning : Keeps s0 s1 := keeps_modBlock h fun _ hq => hq
  have hmoved : Keeps s0 s2 := keeps_frame (keeps_ckpts (cs := s2.ckpts) hrunning (forall_mem_updWhere fun _ hc => hc)) rfl
  have hposted : Keeps s0 s4 := keeps_modThreads (keeps_refile hmoved) fun _ ht => ht
  have hslots : Keeps s0 s5 := by
    unfold s5
    split
    · exact keeps_slotBars hposted
    · exact hposted
  exact keeps_foldl (keeps_enterBars hslots) fun _ _ hs => keeps_pollCwait hs
theorem keeps_restoreOne {s0 s : State} {b : Block} {core : Nat} {t : State} (e : restoreOne s b core = some t) (h : Keeps s0 s) :
    Keeps s0 t := by
  unfold restoreOne at e
  split at e
  · split at e
    · cases e
      exact keeps_freeSave (keeps_placeSaved h)
    · cases e
  · split at e
    · cases e
      exact keeps_freeSave (keeps_modBlock h (fun _ hx => hx))
    · cases e
  · cases e
theorem keeps_restoreAll {s0 s t : State} {bs : List (Block × Nat)} (e : restoreAll s bs = some t) (h : Keeps s0 s) :
    Keeps s0 t := by
  induction bs generalizing s with
  | nil =>
    cases e
    exact h
  | cons q qs ih =>
    unfold restoreAll at e
    split at e
    · rename_i e1
      exact ih e (keeps_restoreOne e1 h)
    · cases e
theorem keeps_saveAgain {s0 s : State} {b : Block} (h : Keeps s0 s) : Keeps s0 (saveAgain s b) := by
  unfold saveAgain
  split
  · exact h
  · exact keeps_askSave h
theorem keeps_execRestore {s0 s : State} {ticket : Nat} {cores : List Nat} (h : Keeps s0 s) :
    KeepsRes s0 (execRestore ticket cores s) := by
  unfold execRestore
  dsimp only
  split
  · exact keepsRes_next h
  · split
    · split
      · rename_i e9
        exact keepsRes_next (keeps_pollJpwait (keeps_settleMtx
            (keeps_foldl (keeps_restoreAll e9 h) (fun _ _ h4 => keeps_saveAgain h4))))
      · exact keepsRes_next h
    · exact keepsRes_next h

/-! ### ERRINJ (21 R383, R384) -/

theorem keeps_armIssue {s0 s : State} {k : Ctl} {src : List RG} {d : Reg} {f : State → Lane → Nat × Option Arm} (h : Keeps s0 s) :
    KeepsRes s0 (armIssue k src d s f) := by
  unfold armIssue
  refine keeps_issue h (fun i s h1 => ?_)
  split
  · exact keepsOut_done h1
  · exact keepsOut_done (keeps_commit (keeps_modBlock h1 (fun _ hx => hx)))
theorem keeps_execErrinj {s0 s : State} {k : Ctl} {ek : BitVec 3} {d a : Reg} (h : Keeps s0 s) :
    KeepsRes s0 (execErrinj k ek d a s) := by
  unfold execErrinj
  exact keeps_armIssue h
theorem keeps_execErrinjDisarm {s0 s : State} {k : Ctl} {d : Reg} (h : Keeps s0 s) : KeepsRes s0 (execErrinjDisarm k d s) := by
  unfold execErrinjDisarm
  exact keeps_armIssue h

/-! ### CHECKPOINT (21 R374, R375) -/

theorem keeps_wakeBars {s0 s : State} {uid : Nat} (h : Keeps s0 s) : Keeps s0 (wakeBars s uid) := by
  unfold wakeBars
  exact keeps_foldl h (fun _ _ h1 => keeps_wakeBar h1)
theorem getBlock_mem {s : State} {u : Nat} {b : Block} (e : getBlock s u = some b) : b ∈ s.blocks :=
  List.mem_of_find?_eq_some e
theorem snapshot_canon {s : State} {b : Block} (hc : Canonical s) (hb : b ∈ s.blocks) : (snapshot s b).Canon :=
  ⟨forall_mem_filter hc.regs, forall_mem_filter hc.uniform, hc.recs b hb, hc.scratch b hb⟩
/-- A checkpoint that is canonical where the state is. -/
theorem keeps_addCkpt {s0 s : State} {c : Ckpt} (h : Keeps s0 s) (hc : Canonical s → c.Canon) :
    Keeps s0 { s with ckpts := s.ckpts ++ [c] } := by
  refine h.trans ⟨rfl, id, fun hs => { hs with kept := fun x hx => ?_ }⟩
  obtain hx | hx := List.mem_append.mp hx
  · exact hs.kept x hx
  · exact List.mem_singleton.mp hx ▸ hc hs
theorem keeps_beginInterval {s0 s : State} {b : Block} (h : Keeps s0 s) : Keeps s0 (beginInterval s b) := by
  unfold beginInterval
  extract_lets clean s1 s2 cost fits pending s3 s4
  have hclean : Keeps s0 s1 := keeps_modBlock h fun _ hq => hq
  have hbegun : Keeps s0 s2 := keeps_ckpts hclean forall_mem_filter
  have hfits : Keeps s0 s4 := keeps_modBlock (keeps_set_copies hbegun) fun _ hq => hq
  split
  · rename_i q e
    exact keeps_ite (keeps_frame (keeps_addCkpt hfits fun hc => snapshot_canon hc (getBlock_mem e)) rfl) hfits
  · exact hfits
theorem keeps_execCheckpoint {s0 s : State} {blk : Nat} (h : Keeps s0 s) : KeepsRes s0 (execCheckpoint blk s) := by
  unfold execCheckpoint
  dsimp only
  split
  · exact keepsRes_next h
  · split
    · exact keepsRes_next h
    · split
      · refine keepsRes_next ?_
        split
        · exact keeps_settleMtx (keeps_wakeBars (keeps_beginInterval (keeps_drainHold h)))
        · exact keeps_drainHold h
      · exact keepsRes_next (keeps_drainHold h)

/-! ### ROLLBACK (21 R378, R379) -/

theorem keeps_reviveReply {s0 s : State} {c : Ckpt} {o : Outst} (h : Keeps s0 s) : Keeps s0 (reviveReply c s o) := by
  have hadd (op : OOp) : Keeps s0 { s with outst := s.outst ++ [{ o with op := op }] } := keeps_set_outst h
  unfold reviveReply
  extract_lets add
  split
  · split
    · exact h
    · extract_lets w
      refine keeps_ite (hadd _) ?_
      split
      · exact hadd _
      · exact hadd _
      · exact keeps_relinkFuture (keeps_set_conts (hadd _))
  · exact keeps_ite (hadd _) (hadd _)
  · exact hadd _
theorem keeps_revertBaton {s0 s : State} {c : Ckpt} (h : Keeps s0 s) : Keeps s0 (revertBaton s c) := by
  unfold revertBaton
  exact keeps_ite (keeps_passBaton (keeps_setBaton h)) (keeps_setBaton h)
theorem keeps_restoreBars {s0 s : State} {b : Block} {bars : List Bar} (h : Keeps s0 s) : Keeps s0 (restoreBars s b bars) := by
  unfold restoreBars
  exact keeps_foldl (keeps_frame h rfl) (fun _ _ h1 => keeps_frame h1 rfl)
theorem keeps_groupWaits {s0 s : State} {ts : List Thread} {f : W32 → W32} (h : Keeps s0 s) : Keeps s0 (groupWaits s ts f) := by
  unfold groupWaits
  refine keeps_foldl h (fun s x h1 => ?_)
  split
  · exact keeps_ite (keeps_modBar h1) h1
  · exact h1
/-- The threads, gangs and block of a control image that is canonical where the first state is. -/
theorem keeps_putThreads {s0 s : State} {p : Thread → Bool} {ts : List Thread} (h : Keeps s0 s)
    (ht : Canonical s0 → ∀ t ∈ ts, t.Canon) : Keeps s0 { s with threads := s.threads.filter p ++ ts } :=
  ⟨h.budgets, h.memory, fun hc => { h.maps hc with
    regs := List.forall_mem_append.mpr ⟨forall_mem_filter (h.maps hc).regs, ht hc⟩ }⟩
theorem keeps_putGangs {s0 s : State} {p : Gang → Bool} {gs : List Gang} (h : Keeps s0 s)
    (hg : Canonical s0 → ∀ g ∈ gs, g.Canon) : Keeps s0 { s with gangs := s.gangs.filter p ++ gs } :=
  ⟨h.budgets, h.memory, fun hc => { h.maps hc with
    uniform := List.forall_mem_append.mpr ⟨forall_mem_filter (h.maps hc).uniform, hg hc⟩ }⟩
theorem keeps_putBlock {s0 s : State} {uid : Nat} {f : Block → Block} (h : Keeps s0 s)
    (hf : Canonical s0 → ∀ q, (f q).Canon) : Keeps s0 (modBlock s uid f) :=
  ⟨h.budgets, h.memory, fun hc => (keeps_modBlock (.refl s) fun q _ => hf hc q).maps (h.maps hc)⟩
theorem Block.Canon.withoutCompanionSave {q : Block} (h : q.Canon) :
    (match q.saveReq with | some r => if r.reason = 4 then { q with saveReq := none } else q | none => q).Canon := by
  split
  · split
    · exact h
    · exact h
  · exact h
theorem keeps_restoreImage {s0 s : State} {b : Block} {c : Ckpt} (h : Keeps s0 s) (hc : Canonical s0 → c.Canon) :
    Keeps s0 (restoreImage s b c) := by
  unfold restoreImage
  extract_lets lost s1 s2 s3 k back s4 s5 s6
  have hput : Keeps s0 s1 := keeps_frame (keeps_putGangs (p := fun g => g.blk != b.uid)
    (keeps_putThreads (p := fun t => t.blk != b.uid) h fun h0 => (hc h0).1) fun h0 => (hc h0).2.1) rfl
  have hbars : Keeps s0 s2 := keeps_restoreBars hput
  have hwork : Keeps s0 s3 := keeps_frame hbars rfl
  have hback : Keeps s0 s4 := keeps_putBlock hwork fun h0 _ => (hc h0).2.2
  have hcompanions : Keeps s0 s5 := keeps_ite (keeps_blocks hback
      (forall_mem_updWhere fun q hq => Block.Canon.withoutCompanionSave hq)) hback
  have hlinks : Keeps s0 s6 := keeps_unlinkConts (keeps_set_outst hcompanions)
  exact keeps_foldl hlinks fun _ _ hs => keeps_reviveReply hs
theorem keeps_resumeGroupWaits {s0 s : State} {c : Ckpt} (h : Keeps s0 s) : Keeps s0 (resumeGroupWaits s c) := by
  unfold resumeGroupWaits
  refine keeps_foldl (keeps_groupWaits h) (fun s x h1 => ?_)
  split
  · exact keeps_ite (keeps_wakeBar h1) h1
  · exact keeps_endDecided h1
  · exact h1
theorem keeps_resumeImage {s0 s : State} {b : Block} {c : Ckpt} (h : Keeps s0 s) : Keeps s0 (resumeImage s b c) := by
  unfold resumeImage
  exact keeps_settleExits (keeps_wakeBars (keeps_pollJpwait
      (keeps_serveMclaims (keeps_serveClaims (keeps_resumeGroupWaits
      (keeps_foldl (keeps_revertBaton (keeps_refile h)) (fun _ _ h7 => keeps_pollCwait h7)))))))
theorem keeps_rollBack {s0 s : State} {b : Block} {c : Ckpt} (h : Keeps s0 s) (hc : Canonical s0 → c.Canon) :
    Keeps s0 (rollBack s b c) := by
  unfold rollBack
  extract_lets s1 s2
  have himage : Keeps s0 s1 := keeps_restoreImage (keeps_groupWaits h) hc
  have hlogged : Keeps s0 s2 := by
    unfold s2
    split
    · exact keeps_logChecks himage
    · exact himage
  exact keeps_unstall (keeps_resumeImage hlogged)

/-! ### Escalation (21 R380) -/

theorem keeps_checkKill {s0 s : State} {b : Block} (h : Keeps s0 s) : Keeps s0 (checkKill s b) :=
  keeps_blocks (keeps_killForJob (keeps_logChecks h)) (forall_mem_updWhere fun _ hq => hq)
theorem keeps_checkLoss {s0 s : State} {ctx : Nat} (h : Keeps s0 s) : Keeps s0 (checkLoss s ctx) := by
  unfold checkLoss
  exact keeps_loseContext (keeps_foldl h (fun _ _ h2 => keeps_logChecks h2))
theorem keeps_readCellar {s0 s : State} {b : Block} (h : Keeps s0 s) : Keeps s0 (readCellar s b).2 := by
  unfold readCellar
  exact keeps_ite_snd (keeps_correctErrs h) (keeps_addMcheck (keeps_correctErrs h))
theorem keeps_escalate {s0 s : State} {b : Block} (h : Keeps s0 s) : Keeps s0 (escalate s b) := by
  unfold escalate
  exact keeps_ite (keeps_checkLoss h) (keeps_checkKill h)
theorem rollsBack_mem {s : State} {b : Block} {c : Ckpt} (e : rollsBack s b = some c) : c ∈ s.ckpts := by
  unfold rollsBack at e
  split at e
  · exact List.mem_of_find?_eq_some e
  · cases e
theorem keeps_containCheck {s0 s : State} {b : Block} (h : Keeps s0 s) : Keeps s0 (containCheck s b) := by
  unfold containCheck
  split
  · exact keeps_unstall (keeps_escalate h)
  · rename_i c e
    have hc : Canonical s0 → c.Canon := fun h0 => (h.maps h0).kept c (rollsBack_mem e)
    split <;> rename_i e1
    · exact keeps_rollBack (keeps_of_snd e1 (keeps_readCellar h)) hc
    · exact keeps_unstall (keeps_escalate (keeps_of_snd e1 (keeps_readCellar h)))
theorem keeps_execRollback {s0 s : State} {blk : Nat} (h : Keeps s0 s) : KeepsRes s0 (execRollback blk s) := by
  unfold execRollback
  split
  · exact keepsRes_next h
  · split
    · exact keepsRes_next h
    · split
      · exact keepsRes_next (keeps_unstall (keeps_logChecks h))
      · exact keepsRes_ite (keepsRes_next h) (keepsRes_next (keeps_containCheck h))
theorem keeps_execContextLoss {s0 s : State} {ctx : Nat} (h : Keeps s0 s) : KeepsRes s0 (execContextLoss ctx s) := by
  unfold execContextLoss
  dsimp only
  split
  · exact keepsRes_next (keeps_unstall (keeps_checkLoss (keeps_logMck (keeps_lineHolder h))))
  · exact keepsRes_next h

/-! ### Resets (21 R381, 24 R400, R403) -/

theorem keeps_dropWork {s0 s : State} (h : Keeps s0 s) : Keeps s0 (dropWork s) := by
  have hempty : Canonical s → Canonical (dropWork s) := fun hc =>
    ⟨hc.mem, fun _ ht => (List.not_mem_nil ht).elim, fun _ ht => (List.not_mem_nil ht).elim, fun _ ht =>
        (List.not_mem_nil ht).elim,
      fun _ ht => (List.not_mem_nil ht).elim, hc.store, hc.queues, fun _ ht => (List.not_mem_nil ht).elim⟩
  exact h.trans ⟨rfl, id, hempty⟩
theorem keeps_discardLines {s0 s : State} {implicated : List Nat} (h : Keeps s0 s) : Keeps s0 (discardLines s implicated) := by
  unfold discardLines
  exact keeps_foldl (keeps_frame h rfl) (fun _ _ h1 => keeps_writeBytes (keeps_frame h1 rfl))
theorem keeps_postRestart {s0 s : State} (h : Keeps s0 s) : Keeps s0 (postRestart s) := by
  unfold postRestart
  exact keeps_ite h (keeps_ite (keeps_queueJob (keeps_frame h rfl)) (keeps_frame h rfl))
/-- A sparse map whose keys of a list are set. -/
theorem sparse_wf_foldl_set {α : Type} [DecidableEq α] {d : α} {ks : List Nat} {f : Nat → α} {m : Sparse α}
    (h : Sparse.wf d m = true) : Sparse.wf d (ks.foldl (fun m k => Sparse.set d m k (f k)) m) = true := by
  induction ks generalizing m with
  | nil => exact h
  | cons k t ih => exact ih (sparse_wf_set _ _ _ _ h)
theorem keeps_resetQueues {s0 s : State} (h : Keeps s0 s) : Keeps s0 (resetQueues s) :=
  keeps_queues h sparse_wf_foldl_set
theorem keeps_warmReset {s0 s : State} {ls : List Nat} (h : Keeps s0 s) : Keeps s0 (warmReset s ls) := by
  unfold warmReset
  extract_lets s1 s2 s3 s4 n
  have hlogged : Keeps s0 s1 := keeps_foldl h fun _ _ hs => keeps_logChecks hs
  have hlost : Keeps s0 s2 := keeps_foldl (keeps_resetQueues hlogged) fun _ _ hs => keeps_loseContext hs
  have hdropped : Keeps s0 s4 := keeps_frame (keeps_dropWork (keeps_discardLines hlost)) rfl
  split
  rename_i e
  exact keeps_postRestart (keeps_frame (keeps_of_snd e (keeps_freshFree hdropped)) rfl)
theorem keeps_execWarmReset {s0 s : State} {implicated : List Nat} (h : Keeps s0 s) :
    KeepsRes s0 (execWarmReset implicated s) := by
  unfold execWarmReset
  exact keepsRes_next (keeps_warmReset (keeps_logMck (keeps_frame h rfl)))
theorem keeps_measure {s0 s : State} {mr : Nat} {digest : BitVec 512} (h : Keeps s0 s) : Keeps s0 (measure s mr digest) :=
  keeps_frame h rfl
theorem keeps_runStage {s0 s : State} {mr : Nat} {digest : BitVec 512} (h : Keeps s0 s) :
    Keeps s0 (runStage s mr digest).2 := by
  unfold runStage
  exact keeps_ite_snd (keeps_measure (keeps_frame h rfl)) (keeps_frame h rfl)
theorem keeps_loadRoutine {s0 s : State} {base : Nat} {image : List Byte} (h : Keeps s0 s) :
    Keeps s0 (loadRoutine s base image).2 := by
  unfold loadRoutine
  split
  · rename_i e
    exact keeps_walkStore (keeps_of_snd e (keeps_runStage h)) (putBytes_wf _ _ _)
  · exact keeps_runStage h
theorem keeps_thenStage {s0 s : State} {f : State → Bool × State} (h : Keeps s0 s)
    (hf : ∀ s, Keeps s0 s → Keeps s0 (f s).2) : Keeps s0 (thenStage f s) := by
  unfold thenStage
  refine keeps_ite h ?_
  split <;> rename_i e
  · exact keeps_of_snd e (hf s h)
  · exact keeps_frame (keeps_of_snd e (hf s h)) rfl
theorem keeps_boot {s0 s : State} (h : Keeps s0 s) : Keeps s0 (boot s) := by
  unfold boot
  split
  rename_i f s1 e
  extract_lets s2 s3 s4 s5
  have hloader : Keeps s0 s2 := keeps_thenStage (keeps_of_snd e (keeps_freshFree h)) fun _ hs => keeps_runStage hs
  have hfirmware : Keeps s0 s3 := keeps_thenStage hloader fun _ hs => keeps_runStage hs
  have hmeasured : Keeps s0 s4 := keeps_thenStage hfirmware fun _ hs => keeps_measure hs
  have hwalks : Keeps s0 s5 := keeps_thenStage hmeasured fun _ hs => keeps_loadRoutine hs
  exact keeps_ite (keeps_thenStage hwalks fun _ hs => keeps_runStage hs) hwalks
theorem keeps_assignDevice {s0 s : State} (h : Keeps s0 s) : Keeps s0 (assignDevice s) :=
  keeps_frame h rfl

/-! ### SCRUB (21 R382, R369) -/

theorem keeps_scrubLine {s0 s : State} {l : Nat} {a : Nat} {t : State} (e : scrubLine s l = some (a, t)) (h : Keeps s0 s) :
    Keeps s0 t := by
  unfold scrubLine at e
  dsimp only at e
  split at e
  · split at e
    · cases e
    · cases e
      exact keeps_frame h rfl
  · split at e
    · cases e
    · cases e
      exact keeps_frame h rfl
theorem keeps_scrubCore {s0 s : State} {b : Block} {e : StoreErr} (h : Keeps s0 s) : Keeps s0 (scrubCore b s e) := by
  unfold scrubCore
  exact keeps_logMck h
theorem keeps_execScrub {s0 s : State} {found : ScrubFinding} (h : Keeps s0 s) : KeepsRes s0 (execScrub found s) := by
  unfold execScrub
  dsimp only
  split
  · exact keepsRes_next h
  · split
    · rename_i e7
      exact keepsRes_next (keeps_logMck (keeps_set_lineErrs (keeps_scrubLine e7 h)))
    · exact keepsRes_next h
  · split
    · rename_i e15
      exact keepsRes_next (keeps_logMck (keeps_settleFound (keeps_meetLine (keeps_strikeLine (keeps_scrubLine e15 h)))))
    · exact keepsRes_next h
  · split
    · exact keepsRes_next h
    · exact keepsRes_next (keeps_foldl (keeps_correctErrs h) (fun _ _ h2 => keeps_scrubCore h2))

/-! ### Periods and power (24 R405, R406) -/

theorem keeps_newPeriod {s0 s : State} (h : Keeps s0 s) : Keeps s0 (newPeriod s) :=
  keeps_frame h rfl
theorem keeps_execPeriodBoundary {s0 s : State} (h : Keeps s0 s) : KeepsRes s0 (execPeriodBoundary s) := by
  unfold execPeriodBoundary
  exact keepsRes_next (keeps_unstall (keeps_servePools (keeps_newPeriod h)))
theorem keeps_lowerClock {s0 s : State} (h : Keeps s0 s) : Keeps s0 (lowerClock s) :=
  keeps_frame h rfl
theorem keeps_execPowerEstimate {s0 s : State} {mean : Nat} {shares : List Share} (h : Keeps s0 s) :
    KeepsRes s0 (execPowerEstimate mean shares s) := by
  unfold execPowerEstimate
  refine keepsRes_next ?_
  split
  · exact keeps_lowerClock (keeps_foldl h (fun _ _ h2 => keeps_modCtx h2))
  · exact keeps_foldl h (fun _ _ h1 => keeps_modCtx h1)
theorem keeps_deviceRec {s0 s : State} {core unit check : Nat} (h : Keeps s0 s) : Keeps s0 (deviceRec s core unit check) := by
  unfold deviceRec
  exact keeps_logMck h
theorem keeps_execThermalTrip {s0 s : State} {island : Nat} (h : Keeps s0 s) : KeepsRes s0 (execThermalTrip island s) := by
  unfold execThermalTrip
  split
  · exact keepsRes_next h
  · split
    exact keepsRes_next (keeps_deviceRec (keeps_frame h rfl))
theorem keeps_execThermalRecover {s0 s : State} {island : Nat} (h : Keeps s0 s) :
    KeepsRes s0 (execThermalRecover island s) := by
  unfold execThermalRecover
  exact keepsRes_next (keeps_unstall (keeps_frame h rfl))
theorem keeps_execUnitDegrade {s0 s : State} {unit : DegradedUnit} (h : Keeps s0 s) : KeepsRes s0 (execUnitDegrade unit s) := by
  unfold execUnitDegrade
  dsimp only
  split <;> exact keepsRes_ite (keepsRes_next h) (keepsRes_next (keeps_deviceRec (keeps_frame h rfl)))

/-! ### Queue registers (24 R396) -/

theorem keeps_queueWrite {s0 s : State} {q : Nat} {f : HostQ → HostQ} (h : Keeps s0 s) : KeepsRes s0 (queueWrite q s f) := by
  unfold queueWrite
  exact keepsRes_next (keeps_ite (keeps_setQueue h) h)
theorem keeps_execQtail {s0 s : State} {q : Nat} {v : W32} (h : Keeps s0 s) : KeepsRes s0 (execQtail q v s) := by
  unfold execQtail
  exact keeps_queueWrite h
theorem keeps_execQsize {s0 s : State} {q : Nat} {v : W32} (h : Keeps s0 s) : KeepsRes s0 (execQsize q v s) := by
  unfold execQsize
  exact keeps_queueWrite h
theorem keeps_execQstate {s0 s : State} {q : Nat} {v : W32} (h : Keeps s0 s) : KeepsRes s0 (execQstate q v s) := by
  unfold execQstate
  exact keeps_queueWrite h
theorem keeps_execNsize {s0 s : State} {q : Nat} {v : W32} (h : Keeps s0 s) : KeepsRes s0 (execNsize q v s) := by
  unfold execNsize
  exact keeps_queueWrite h
theorem keeps_execNhead {s0 s : State} {q : Nat} {v : W32} (h : Keeps s0 s) : KeepsRes s0 (execNhead q v s) := by
  unfold execNhead
  exact keeps_queueWrite h
theorem keeps_execQueueRegisterWrite {s0 s : State} {q off : Nat} {v : W64} (h : Keeps s0 s) :
    KeepsRes s0 (execQueueRegisterWrite q off v s) := by
  unfold execQueueRegisterWrite
  exact keeps_queueWrite h

/-! ### Queue entries (24 R397, R398) -/

theorem keeps_outsideMeet {s0 s : State} {pa n : Nat} (h : Keeps s0 s) : Keeps s0 (outsideMeet s pa n) := by
  unfold outsideMeet
  dsimp only
  split
  · exact keeps_logMck (keeps_lineHolder (keeps_settleFound (keeps_meetLines h)))
  · exact keeps_meetLines h
theorem keeps_takeEntry {s0 s : State} {q : Nat} {n : W32} {bytes : List Byte} (h : Keeps s0 s) :
    Keeps s0 (takeEntry s q n bytes) := by
  unfold takeEntry
  dsimp only
  split
  · exact keeps_queueJob (keeps_setQueue h)
  · exact keeps_notify (keeps_entryDone (keeps_setQueue h))
theorem keeps_execQueueEntryTake {s0 s : State} {q : Nat} (h : Keeps s0 s) : KeepsRes s0 (execQueueEntryTake q s) := by
  unfold execQueueEntryTake
  dsimp only
  split
  · exact keepsRes_next h
  · split
    · split
      · exact keepsRes_next h
      · split
        · exact keepsRes_next (keeps_takeEntry h)
        · exact keepsRes_ite (keepsRes_next (keeps_notify (keeps_setQueue h))) (keepsRes_next h)
    · split
      · exact keepsRes_next (keeps_outsideMeet h)
      · split
        · exact keepsRes_next (keeps_takeEntry (keeps_outsideMeet h))
        · split
          · exact keepsRes_next (keeps_notify (keeps_setQueue (keeps_outsideMeet h)))
          · exact keepsRes_next (keeps_outsideMeet h)

/-! ### Notifications (24 R399) -/

theorem keeps_writeNote {s0 s : State} {q : Nat} {x : HostQ} {n : Note} {rest : List Note} (h : Keeps s0 s) :
    Keeps s0 (writeNote s q x n rest) := by
  unfold writeNote
  exact keeps_set_msix (keeps_setQueue (keeps_writeBytes h))
theorem keeps_execNotificationWrite {s0 s : State} {q : Nat} (h : Keeps s0 s) : KeepsRes s0 (execNotificationWrite q s) := by
  unfold execNotificationWrite
  dsimp only
  split
  · exact keepsRes_next h
  · exact keepsRes_next (keeps_ite h (keeps_writeNote h))

/-! ### Configuration, measurement, attestation (24 R403-R405) -/

theorem keeps_execPlimit {s0 s : State} {v : W32} (h : Keeps s0 s) : KeepsRes s0 (execPlimit v s) := by
  unfold execPlimit
  exact keepsRes_next (keeps_ite (keeps_frame h rfl) h)
theorem keeps_execHostMeasurement {s0 s : State} {mr : Nat} {digest : BitVec 512} (h : Keeps s0 s) :
    KeepsRes s0 (execHostMeasurement mr digest s) := by
  unfold execHostMeasurement
  exact keepsRes_next (keeps_ite (keeps_frame h rfl) h)
theorem keeps_execWalkRoutineLoad {s0 s : State} {base : Nat} {image : List Byte} (h : Keeps s0 s) :
    KeepsRes s0 (execWalkRoutineLoad base image s) := by
  unfold execWalkRoutineLoad
  exact keepsRes_next (keeps_ite (keeps_loadRoutine h) h)
theorem keeps_execAttestationReport {s0 s : State} {nonce : BitVec 512} (h : Keeps s0 s) :
    KeepsRes s0 (execAttestationReport nonce s) := by
  unfold execAttestationReport
  exact keepsRes_next (keeps_frame h rfl)

/-! ### The host's accesses (24 R397, R401) -/

theorem keeps_hostWrite {s0 s : State} {pa : Nat} {bs : List Byte} (h : Keeps s0 s) : Keeps s0 (hostWrite s pa bs) := by
  induction bs generalizing s pa with
  | nil => exact h
  | cons b t ih => exact ih (keeps_ite h (keeps_writeBytes h))
theorem keeps_hostAtomic {s0 s : State} {pa size most : Nat} {f : Nat → Nat} (h : Keeps s0 s) :
    Keeps s0 (hostAtomic s pa size most f) := by
  unfold hostAtomic
  exact keeps_ite (keeps_hostWrite (keeps_outsideMeet h)) h
theorem keeps_execHostDeviceMemoryAccess {s0 s : State} {acc : HostAccess} (h : Keeps s0 s) :
    KeepsRes s0 (execHostDeviceMemoryAccess acc s) := by
  unfold execHostDeviceMemoryAccess
  split
  · exact keepsRes_next (keeps_ite h (keeps_outsideMeet h))
  · exact keepsRes_next (keeps_ite h (keeps_unstall (keeps_hostWrite (keeps_outsideMeet h))))
  · exact keepsRes_next (keeps_unstall (keeps_hostAtomic h))
  · exact keepsRes_next (keeps_unstall (keeps_hostAtomic h))
  · exact keepsRes_next (keeps_unstall (keeps_hostAtomic h))

end Sys2Proof.Machine
end

section
/-! PROOF. Every step keeps the canonical form: the instructions and events, the resets and the policy that picks what moves
(O48). The budgets stay in Keeps, which a cold reset and the firmware do not; so the step has a relation without them. -/

namespace Sys2Proof.Machine
open Laws

/-- From s, t is reached with memory canonical where it was, and with every sparse map canonical where all were. -/
structure StaysCanonical (s t : State) : Prop where
  memory : Memory.wf s.mem = true → Memory.wf t.mem = true
  maps : Canonical s → Canonical t

/-- An outcome stays canonical, where it answers a next state. -/
def StaysCanonicalRes (s : State) (r : Res) : Prop := ∀ t, r = .next t → StaysCanonical s t

theorem Keeps.staysCanonical {s t : State} (h : Keeps s t) : StaysCanonical s t := ⟨h.memory, h.maps⟩
theorem StaysCanonical.refl (s : State) : StaysCanonical s s := (Keeps.refl s).staysCanonical
theorem StaysCanonical.trans {s t u : State} (h : StaysCanonical s t) (g : StaysCanonical t u) : StaysCanonical s u :=
  ⟨fun hm => g.memory (h.memory hm), fun hc => g.maps (h.maps hc)⟩

theorem staysCanonicalRes_next {s t : State} (h : StaysCanonical s t) : StaysCanonicalRes s (.next t) := fun _ e => by
  cases e
  exact h
theorem KeepsRes.staysCanonical {s : State} {r : Res} (h : KeepsRes s r) : StaysCanonicalRes s r := fun t e =>
    (h t e).staysCanonical
theorem StaysCanonical.transRes {s t : State} {r : Res} (h : StaysCanonical s t) (g : StaysCanonicalRes t r) :
    StaysCanonicalRes s r := fun u e => h.trans (g u e)

/-! ### What does not keep the budgets -/

theorem canonical_reset : Canonical State.reset := by
  obtain ⟨-, -, -, -, -, -, -, -, -, -, -, -, -, -, hc⟩ := resetState
  exact hc

theorem staysCanonical_coldState (s : State) : StaysCanonical s (coldState s) :=
  ⟨sparse_wf_filter _ _ _, fun hc => { canonical_reset with mem := sparse_wf_filter _ _ _ hc.mem }⟩

theorem staysCanonicalRes_execColdReset (s : State) : StaysCanonicalRes s (execColdReset s) :=
  staysCanonicalRes_next ((staysCanonical_coldState s).trans
    (keeps_boot (keeps_assignDevice (.refl (coldState s)))).staysCanonical)

theorem staysCanonical_setFirm (s : State) (f : Firm) : StaysCanonical s (setFirm s f) := by
  cases f with
  | budgets b => exact ⟨id, fun hc => { hc with }⟩
  | owner q n => exact (keeps_ite (keeps_setQueue (.refl s)) (.refl s)).staysCanonical

/-! ### One instruction or event -/

/-- Every instruction and every event but a cold reset keeps the canonical form and the budgets. -/
theorem keeps_exec {s : State} : (i : Instr) → i ≠ .coldReset → KeepsRes s (exec i s)
  | .nop .., _ => keeps_execNop (.refl s)
  | .iadd .., _ => keeps_execIadd (.refl s)
  | .isub .., _ => keeps_execIsub (.refl s)
  | .iaddi .., _ => keeps_execIaddi (.refl s)
  | .iaddw .., _ => keeps_execIaddw (.refl s)
  | .imul .., _ => keeps_execImul (.refl s)
  | .imulh .., _ => keeps_execImulh (.refl s)
  | .imad .., _ => keeps_execImad (.refl s)
  | .imadw .., _ => keeps_execImadw (.refl s)
  | .idiv .., _ => keeps_execIdiv (.refl s)
  | .irem .., _ => keeps_execIrem (.refl s)
  | .imin .., _ => keeps_execImin (.refl s)
  | .imax .., _ => keeps_execImax (.refl s)
  | .iabsd .., _ => keeps_execIabsd (.refl s)
  | .lut3 .., _ => keeps_execLut3 (.refl s)
  | .ishl .., _ => keeps_execIshl (.refl s)
  | .ishr .., _ => keeps_execIshr (.refl s)
  | .fshl .., _ => keeps_execFshl (.refl s)
  | .fshr .., _ => keeps_execFshr (.refl s)
  | .bfx .., _ => keeps_execBfx (.refl s)
  | .bfi .., _ => keeps_execBfi (.refl s)
  | .popc .., _ => keeps_execPopc (.refl s)
  | .popb .., _ => keeps_execPopb (.refl s)
  | .clz .., _ => keeps_execClz (.refl s)
  | .brev .., _ => keeps_execBrev (.refl s)
  | .isel .., _ => keeps_execIsel (.refl s)
  | .mov .., _ => keeps_execMov (.refl s)
  | .movi .., _ => keeps_execMovi (.refl s)
  | .icmp .., _ => keeps_execIcmp (.refl s)
  | .icmpi .., _ => keeps_execIcmpi (.refl s)
  | .plut .., _ => keeps_execPlut (.refl s)
  | .pget .., _ => keeps_execPget (.refl s)
  | .pset .., _ => keeps_execPset (.refl s)
  | .perm .., _ => keeps_execPerm (.refl s)
  | .permx .., _ => keeps_execPermx (.refl s)
  | .vote .., _ => keeps_execVote (.refl s)
  | .elect .., _ => keeps_execElect (.refl s)
  | .gred .., _ => keeps_execGred (.refl s)
  | .gscan .., _ => keeps_execGscan (.refl s)
  | .bra .., _ => keeps_execBra (.refl s)
  | .brx .., _ => keeps_execBrx (.refl s)
  | .call .., _ => keeps_execCall (.refl s)
  | .ret .., _ => keeps_execRet (.refl s)
  | .rjarm .., _ => keeps_execRjarm (.refl s)
  | .rjoin .., _ => keeps_execRjoin (.refl s)
  | .rjdrop .., _ => keeps_execRjdrop (.refl s)
  | .exit .., _ => keeps_execExit (.refl s)
  | .trap .., _ => keeps_execTrap (.refl s)
  | .gets .., _ => keeps_execGets (.refl s)
  | .sets .., _ => keeps_execSets (.refl s)
  | .rclaim .., _ => keeps_execRclaim (.refl s)
  | .rgive .., _ => keeps_execRgive (.refl s)
  | .rtry .., _ => keeps_execRtry (.refl s)
  | .yield .., _ => keeps_execYield (.refl s)
  | .nap _ imm, _ => keeps_execNap (_i := imm) (.refl s)
  | .prog .., _ => keeps_execProg (.refl s)
  | .brk .., _ => keeps_execBrk (.refl s)
  | .trcmark .., _ => keeps_execTrcmark (.refl s)
  | .vget .., _ => keeps_execVget (.refl s)
  | .vput .., _ => keeps_execVput (.refl s)
  | .fadd .., _ => keeps_execFadd (.refl s)
  | .fmul .., _ => keeps_execFmul (.refl s)
  | .ffma .., _ => keeps_execFfma (.refl s)
  | .fmin .., _ => keeps_execFmin (.refl s)
  | .fmax .., _ => keeps_execFmax (.refl s)
  | .fcmp .., _ => keeps_execFcmp (.refl s)
  | .fdiv .., _ => keeps_execFdiv (.refl s)
  | .frcp .., _ => keeps_execFrcp (.refl s)
  | .frsq .., _ => keeps_execFrsq (.refl s)
  | .fsqrt .., _ => keeps_execFsqrt (.refl s)
  | .fexp2 .., _ => keeps_execFexp2 (.refl s)
  | .flog2 .., _ => keeps_execFlog2 (.refl s)
  | .fsinpi .., _ => keeps_execFsinpi (.refl s)
  | .fcospi .., _ => keeps_execFcospi (.refl s)
  | .frnd .., _ => keeps_execFrnd (.refl s)
  | .fscale .., _ => keeps_execFscale (.refl s)
  | .hadd2 .., _ => keeps_execHadd2 (.refl s)
  | .hmul2 .., _ => keeps_execHmul2 (.refl s)
  | .hfma2 .., _ => keeps_execHfma2 (.refl s)
  | .hmax2 .., _ => keeps_execHmax2 (.refl s)
  | .cvt .., _ => keeps_execCvt (.refl s)
  | .cvtp .., _ => keeps_execCvtp (.refl s)
  | .cvtq .., _ => keeps_execCvtq (.refl s)
  | .cvto .., _ => keeps_execCvto (.refl s)
  | .cvtx .., _ => keeps_execCvtx (.refl s)
  | .dotI8 .., _ => keeps_execDotI8 (.refl s)
  | .dotZ8 .., _ => keeps_execDotZ8 (.refl s)
  | .dotE4m3 .., _ => keeps_execDotE4m3 (.refl s)
  | .dotE5m2 .., _ => keeps_execDotE5m2 (.refl s)
  | .dotI4 .., _ => keeps_execDotI4 (.refl s)
  | .dotE2m1 .., _ => keeps_execDotE2m1 (.refl s)
  | .dotsE4m3 .., _ => keeps_execDotsE4m3 (.refl s)
  | .dotsE5m2 .., _ => keeps_execDotsE5m2 (.refl s)
  | .dotsE2m1 .., _ => keeps_execDotsE2m1 (.refl s)
  | .dotsI8 .., _ => keeps_execDotsI8 (.refl s)
  | .dot2Bf16 .., _ => keeps_execDot2Bf16 (.refl s)
  | .dot2F16 .., _ => keeps_execDot2F16 (.refl s)
  | .ld _ _ _ _ _ _ _ cp .., _ => keeps_execLd (_cp := cp) (.refl s)
  | .st _ _ _ _ _ _ _ cp .., _ => keeps_execSt (_cp := cp) (.refl s)
  | .atom .., _ => keeps_execAtom (.refl s)
  | .atomn .., _ => keeps_execAtomn (.refl s)
  | .cas _ _ _ _ _ _ _ cp .., _ => keeps_execCas (_cp := cp) (.refl s)
  | .fence .., _ => keeps_execFence (.refl s)
  | .scfence .., _ => keeps_execScfence (.refl s)
  | .bset .., _ => keeps_execBset (.refl s)
  | .bget .., _ => keeps_execBget (.refl s)
  | .pref _ _ _ _ cp .., _ => keeps_execPref (_cp := cp) (.refl s)
  | .binit .., _ => keeps_execBinit (.refl s)
  | .bjoin .., _ => keeps_execBjoin (.refl s)
  | .barr .., _ => keeps_execBarr (.refl s)
  | .bwait .., _ => keeps_execBwait (.refl s)
  | .barw .., _ => keeps_execBarw (.refl s)
  | .bdrop .., _ => keeps_execBdrop (.refl s)
  | .binv .., _ => keeps_execBinv (.refl s)
  | .bqry .., _ => keeps_execBqry (.refl s)
  | .rginit .., _ => keeps_execRginit (.refl s)
  | .rginitFree .., _ => keeps_execRginitFree (.refl s)
  | .slacq .., _ => keeps_execSlacq (.refl s)
  | .slfil .., _ => keeps_execSlfil (.refl s)
  | .sltak .., _ => keeps_execSltak (.refl s)
  | .slrel .., _ => keeps_execSlrel (.refl s)
  | .cpy _ _ ad bc .., _ => keeps_execCpy (_ad := ad) (_bc := bc) (.refl s)
  | .cpyg _ _ ad bc .., _ => keeps_execCpyg (_ad := ad) (_bc := bc) (.refl s)
  | .cpys _ _ ad bc .., _ => keeps_execCpys (_ad := ad) (_bc := bc) (.refl s)
  | .cpyf _ _ ad bc .., _ => keeps_execCpyf (_ad := ad) (_bc := bc) (.refl s)
  | .cseal .., _ => keeps_execCseal (.refl s)
  | .cwait .., _ => keeps_execCwait (.refl s)
  | .cpoll .., _ => keeps_execCpoll (.refl s)
  | .mclaim .., _ => keeps_execMclaim (.refl s)
  | .mrel .., _ => keeps_execMrel (.refl s)
  | .mbaton .., _ => keeps_execMbaton (.refl s)
  | .mpass .., _ => keeps_execMpass (.refl s)
  | .mzero .., _ => keeps_execMzero (.refl s)
  | .mmaBf16 .., _ => keeps_execMmaBf16 (.refl s)
  | .mmaF16 .., _ => keeps_execMmaF16 (.refl s)
  | .mmaE4m3 .., _ => keeps_execMmaE4m3 (.refl s)
  | .mmaE5m2 .., _ => keeps_execMmaE5m2 (.refl s)
  | .mmaE2m1 .., _ => keeps_execMmaE2m1 (.refl s)
  | .mmaI8 .., _ => keeps_execMmaI8 (.refl s)
  | .mmaI4 .., _ => keeps_execMmaI4 (.refl s)
  | .mdrain .., _ => keeps_execMdrain (.refl s)
  | .mrd .., _ => keeps_execMrd (.refl s)
  | .mmask .., _ => keeps_execMmask (.refl s)
  | .msync .., _ => keeps_execMsync (.refl s)
  | .tapin .., _ => keeps_execTapin (.refl s)
  | .tapw .., _ => keeps_execTapw (.refl s)
  | .taprm .., _ => keeps_execTaprm (.refl s)
  | .trel .., _ => keeps_execTrel (.refl s)
  | .tapsync .., _ => keeps_execTapsync (.refl s)
  | .jpost .., _ => keeps_execJpost (.refl s)
  | .jrec .., _ => keeps_execJrec (.refl s)
  | .jhint .., _ => keeps_execJhint (.refl s)
  | .jpwait .., _ => keeps_execJpwait (.refl s)
  | .finit .., _ => keeps_execFinit (.refl s)
  | .fwr .., _ => keeps_execFwr (.refl s)
  | .frd .., _ => keeps_execFrd (.refl s)
  | .scopen .., _ => keeps_execScopen (.refl s)
  | .sccan .., _ => keeps_execSccan (.refl s)
  | .scack .., _ => keeps_execScack (.refl s)
  | .scqry .., _ => keeps_execScqry (.refl s)
  | .tretRetry .., _ => keeps_execTretRetry (.refl s)
  | .tretSkip .., _ => keeps_execTretSkip (.refl s)
  | .tretRedirect .., _ => keeps_execTretRedirect (.refl s)
  | .crd .., _ => keeps_execCrd (.refl s)
  | .cwr .., _ => keeps_execCwr (.refl s)
  | .cwrStateCreate .., _ => keeps_execCwrStateCreate (.refl s)
  | .cwrStateRemove .., _ => keeps_execCwrStateRemove (.refl s)
  | .cwrKqsize .., _ => keeps_execCwrKqsize (.refl s)
  | .cwrKqhead .., _ => keeps_execCwrKqhead (.refl s)
  | .cwrPreempt .., _ => keeps_execCwrPreempt (.refl s)
  | .cwrBcores .., _ => keeps_execCwrBcores (.refl s)
  | .cwrTrsize .., _ => keeps_execCwrTrsize (.refl s)
  | .tlbinvPage .., _ => keeps_execTlbinvPage (.refl s)
  | .tlbinvContext .., _ => keeps_execTlbinvContext (.refl s)
  | .tlbinvAll .., _ => keeps_execTlbinvAll (.refl s)
  | .tlbinvRange .., _ => keeps_execTlbinvRange (.refl s)
  | .pfres .., _ => keeps_execPfres (.refl s)
  | .errinj .., _ => keeps_execErrinj (.refl s)
  | .errinjDisarm .., _ => keeps_execErrinjDisarm (.refl s)
  | .psplit .., _ => keeps_execPsplit (.refl s)
  | .haltg .., _ => keeps_execHaltg (.refl s)
  | .resumeg .., _ => keeps_execResumeg (.refl s)
  | .kseqNew .., _ => keeps_execKseqNew (.refl s)
  | .kseqFree .., _ => keeps_execKseqFree (.refl s)
  | .kseqPfree .., _ => keeps_execKseqPfree (.refl s)
  | .kseqPquery .., _ => keeps_execKseqPquery (.refl s)
  | .kseqPinit .., _ => keeps_execKseqPinit (.refl s)
  | .kalloc .., _ => keeps_execKalloc (.refl s)
  | .ktrim .., _ => keeps_execKtrim (.refl s)
  | .klook .., _ => keeps_execKlook (.refl s)
  | .kfree .., _ => keeps_execKfree (.refl s)
  | .gatheringComplete .., _ => keeps_execGatheringComplete (.refl s)
  | .claimGrant .., _ => keeps_execClaimGrant (.refl s)
  | .regdead .., _ => keeps_execRegdead (.refl s)
  | .napWake .., _ => keeps_execNapWake (.refl s)
  | .loadResultReturn .., _ => keeps_execLoadResultReturn (.refl s)
  | .walk .., _ => keeps_execWalk (.refl s)
  | .copyCommandStart .., _ => keeps_execCopyCommandStart (.refl s)
  | .ringnextSlotTake .., _ => keeps_execRingnextSlotTake (.refl s)
  | .copyElementLand .., _ => keeps_execCopyElementLand (.refl s)
  | .remoteCommand .., _ => keeps_execRemoteCommand (.refl s)
  | .remoteTimeout .., _ => keeps_execRemoteTimeout (.refl s)
  | .matrixPass .., _ => keeps_execMatrixPass (.refl s)
  | .drainExecute .., _ => keeps_execDrainExecute (.refl s)
  | .eval .., _ => keeps_execEval (.refl s)
  | .watchDelivery .., _ => keeps_execWatchDelivery (.refl s)
  | .killStop .., _ => keeps_execKillStop (.refl s)
  | .scackComplete .., _ => keeps_execScackComplete (.refl s)
  | .blockLaunch .., _ => keeps_execBlockLaunch (.refl s)
  | .bundleDraw .., _ => keeps_execBundleDraw (.refl s)
  | .arrivalQueueFile .., _ => keeps_execArrivalQueueFile (.refl s)
  | .clauseBegin .., _ => keeps_execClauseBegin (.refl s)
  | .blockRetire .., _ => keeps_execBlockRetire (.refl s)
  | .jobComplete .., _ => keeps_execJobComplete (.refl s)
  | .save .., _ => keeps_execSave (.refl s)
  | .restore .., _ => keeps_execRestore (.refl s)
  | .engineReplyReturn .., _ => keeps_execEngineReplyReturn (.refl s)
  | .wdog .., _ => keeps_execWdog (.refl s)
  | .powerEstimate .., _ => keeps_execPowerEstimate (.refl s)
  | .thermalTrip .., _ => keeps_execThermalTrip (.refl s)
  | .thermalRecover .., _ => keeps_execThermalRecover (.refl s)
  | .unitDegrade .., _ => keeps_execUnitDegrade (.refl s)
  | .checkpoint .., _ => keeps_execCheckpoint (.refl s)
  | .rollback .., _ => keeps_execRollback (.refl s)
  | .contextLoss .., _ => keeps_execContextLoss (.refl s)
  | .warmReset .., _ => keeps_execWarmReset (.refl s)
  | .scrub .., _ => keeps_execScrub (.refl s)
  | .queueEntryTake .., _ => keeps_execQueueEntryTake (.refl s)
  | .qtail .., _ => keeps_execQtail (.refl s)
  | .qsize .., _ => keeps_execQsize (.refl s)
  | .qstate .., _ => keeps_execQstate (.refl s)
  | .nsize .., _ => keeps_execNsize (.refl s)
  | .nhead .., _ => keeps_execNhead (.refl s)
  | .queueRegisterWrite .., _ => keeps_execQueueRegisterWrite (.refl s)
  | .notificationWrite .., _ => keeps_execNotificationWrite (.refl s)
  | .plimit .., _ => keeps_execPlimit (.refl s)
  | .attestationReport .., _ => keeps_execAttestationReport (.refl s)
  | .hostMeasurement .., _ => keeps_execHostMeasurement (.refl s)
  | .storePerformed .., _ => keeps_execStorePerformed (.refl s)
  | .atomicReply .., _ => keeps_execAtomicReply (.refl s)
  | .remoteAcknowledgement .., _ => keeps_execRemoteAcknowledgement (.refl s)
  | .hostDeviceMemoryAccess .., _ => keeps_execHostDeviceMemoryAccess (.refl s)
  | .saveCopyBound .., _ => keeps_execSaveCopyBound (.refl s)
  | .walkRoutineLoad .., _ => keeps_execWalkRoutineLoad (.refl s)
  | .trapEntryWrite, _ => keeps_execTrapEntryWrite (.refl s)
  | .heartbeatTick, _ => keeps_execHeartbeatTick (.refl s)
  | .scfenceRelease, _ => keeps_execScfenceRelease (.refl s)
  | .periodBoundary, _ => keeps_execPeriodBoundary (.refl s)
  | .coldReset, h => absurd rfl h

theorem staysCanonicalRes_exec (i : Instr) (s : State) : StaysCanonicalRes s (exec i s) := by
  by_cases h : i = .coldReset
  · subst h
    exact staysCanonicalRes_execColdReset s
  · exact (keeps_exec i h).staysCanonical

/-! ### What moves next -/

/-- The state of a plan keeps it. -/
def KeepsPlan (s0 : State) : Plan → Prop
  | .idle => True
  | .out s | .run _ s => Keeps s0 s

theorem keepsPlan_ite {s0 : State} {p q : Plan} {c : Prop} [Decidable c] (hp : KeepsPlan s0 p) (hq : KeepsPlan s0 q) :
    KeepsPlan s0 (if c then p else q) := by
  split
  · exact hp
  · exact hq

theorem keepsPlan_planOf (s : State) (id : Nat) : KeepsPlan s (planOf s id) := by
  unfold planOf
  split
  · trivial
  split
  · trivial
  refine keepsPlan_ite trivial ?_
  split
  · exact keepsPlan_ite (Keeps.refl s) trivial
  · refine keepsPlan_ite (keepsPlan_ite trivial ?_) (keepsPlan_ite trivial ?_)
    · exact keeps_moveTo (keeps_takeTurn (keeps_pollHalt (.refl s)))
    · split
      · trivial
      · have hturn {b : Bundle} : Keeps s { takeTurn (clearPark s b) b with cur := id } :=
          keeps_set_cur (keeps_takeTurn (keeps_clearPark (.refl s)))
        dsimp only
        split
        · exact hturn
        · exact keeps_raise hturn

theorem keepsPlan_planBundle (s : State) (id : Nat) : KeepsPlan s (planBundle s id) := by
  have hplan := keepsPlan_planOf s id
  unfold planBundle
  split
  · trivial
  refine keepsPlan_ite trivial ?_
  split
  · rename_i e
    rw [e] at hplan
    exact keeps_ite (keeps_gaveWay hplan) hplan
  · exact hplan

section
variable {run : Instr → State → Res}

theorem staysCanonicalRes_withinBudgets {s wait : State} {r : Res} (hw : StaysCanonical s wait) (hr : StaysCanonicalRes s r) :
    StaysCanonicalRes s (withinBudgets s wait r) := by
  unfold withinBudgets
  split
  · split
    · exact staysCanonicalRes_next hw
    · exact hr
  · exact hr

theorem staysCanonicalRes_runPlan (hrun : ∀ i s, StaysCanonicalRes s (run i s)) {s : State} {id : Nat} {p : Plan}
    (hp : KeepsPlan s p) : StaysCanonicalRes s (runPlan run s id p) := by
  cases p with
  | idle => exact staysCanonicalRes_next (.refl s)
  | out t => exact staysCanonicalRes_next (Keeps.staysCanonical hp)
  | run i t =>
    exact staysCanonicalRes_withinBudgets (keeps_modBundle (.refl s)).staysCanonical
        ((Keeps.staysCanonical hp).transRes (hrun i t))

theorem staysCanonical_firstEvent (hrun : ∀ i s, StaysCanonicalRes s (run i s)) {s t : State} {es : List Instr}
    (h : firstEvent run s es = some t) : StaysCanonical s t := by
  induction es with
  | nil => cases h
  | cons e es ih =>
    unfold firstEvent at h
    split at h
    · rename_i hnext
      split at h
      · exact ih h
      · cases h
        exact staysCanonicalRes_withinBudgets (.refl s) (hrun e s) _ hnext
    · exact ih h

theorem staysCanonicalRes_defaultStep (hrun : ∀ i s, StaysCanonicalRes s (run i s)) (s : State) :
    StaysCanonicalRes s (defaultStep run s) := by
  unfold defaultStep
  split
  · exact staysCanonicalRes_runPlan hrun (keepsPlan_planBundle s _)
  · split
    · rename_i h
      exact staysCanonicalRes_next (staysCanonical_firstEvent hrun h)
    · exact hrun _ s

theorem staysCanonicalRes_stepWith (hrun : ∀ i s, StaysCanonicalRes s (run i s)) (s : State) :
    StaysCanonicalRes s (stepWith run s) := by
  have hrest (rest : List Act) : StaysCanonical s { s with agenda := rest } := (keeps_set_agenda (.refl s)).staysCanonical
  unfold stepWith
  split
  case h_1 => exact staysCanonicalRes_defaultStep hrun s
  case h_2 e rest _ =>
    dsimp only
    split
    · exact (hrest rest).transRes (staysCanonicalRes_withinBudgets (.refl _) (hrun e _))
    · exact staysCanonicalRes_next (hrest rest)
  case h_3 rest _ => exact staysCanonicalRes_next ((hrest rest).trans (keeps_strikeErr (.refl _)).staysCanonical)
  case h_4 rest _ => exact staysCanonicalRes_next ((hrest rest).trans (keeps_strikeLine (.refl _)).staysCanonical)
  case h_5 f rest _ => exact staysCanonicalRes_next ((hrest rest).trans (staysCanonical_setFirm _ f))
  case h_6 b rest _ => exact (hrest rest).transRes (staysCanonicalRes_runPlan hrun (keepsPlan_planBundle _ b))

end

theorem staysCanonicalRes_step (s : State) : StaysCanonicalRes s (step s) := by
  have hstep := staysCanonicalRes_stepWith staysCanonicalRes_exec s
  unfold step
  split
  · rename_i t e
    exact staysCanonicalRes_next ((hstep t e).trans (keeps_passTime (.refl t)).staysCanonical)
  · exact hstep

end Sys2Proof.Machine

namespace Sys2Proof.Laws
open Machine

/-- Settles O48: every operation of the machine keeps the canonical form, and a step is made of them. -/
theorem memoryStaysCanonical : Obligations.MemoryStaysCanonical := by
  unfold Obligations.MemoryStaysCanonical
  exact ⟨fun s t hm h => (staysCanonicalRes_step s t h).memory hm, fun s t hc h => (staysCanonicalRes_step s t h).maps hc⟩

end Sys2Proof.Laws
end
